-- ==== Sys2Proof/Word.lean ====
section
/-! DEFINITION. The word types of the PN-840 (00_scope R3, R4, R8, R12): set-up registers are 32-bit words, memory is
bytes, time words are 128-bit, and the unit numbers of R3 are bounded naturals. -/

namespace Sys2Proof

/-- A 32-bit set-up register word or descriptor word (R12, R330). -/
abbrev Word := BitVec 32

/-- One byte of DRAM or one octet of a frame. -/
abbrev Byte := BitVec 8

/-- The 128-bit time word of R4. -/
abbrev TimeWord := BitVec 128

/-- Unit numbers of R3. -/
abbrev Hearth := Fin 64
abbrev Croft := Fin 16
abbrev Hamlet := Fin 4
abbrev PartId := Fin 32
abbrev RingNo := Fin 64
abbrev PPort := Fin 8
abbrev Port := Fin 13
abbrev Lane := Fin 24
abbrev LoopNo := Fin 256

end Sys2Proof
end

