-- ==== Sys2Proof/Machine/Tables.lean ====
section
/-! DEFINITION. Sparse tables in canonical form: keys strictly rising, no entry equal to what an unlisted key reads as.
DRAM, the set-up registers and every array of units are such tables, so equal contents are equal data. -/

namespace Sys2Proof.Machine

/-- A table from numbers to β: unlisted keys read as a default given by the reader. -/
abbrev Tbl (β : Type) := List (Nat × β)

/-- Read key k; an unlisted key reads d. -/
def Tbl.get {β : Type} (d : β) : Tbl β → Nat → β
  | [], _ => d
  | (a, v) :: r, k => if k = a then v else Tbl.get d r k

/-- List v at key k, in place. -/
def Tbl.put {β : Type} : Tbl β → Nat → β → Tbl β
  | [], k, v => [(k, v)]
  | (a, w) :: r, k, v =>
    if k < a then (k, v) :: (a, w) :: r else if k = a then (a, v) :: r else (a, w) :: Tbl.put r k v

/-- Write v at key k, keeping the canonical form for the default d: the default is not listed. -/
def Tbl.set {β : Type} [DecidableEq β] (d : β) (t : Tbl β) (k : Nat) (v : β) : Tbl β :=
  if v = d then t.filter (fun e => e.1 != k) else Tbl.put t k v

/-- Change the entry at k by f. -/
def Tbl.upd {β : Type} [DecidableEq β] (d : β) (t : Tbl β) (k : Nat) (f : β → β) : Tbl β :=
  Tbl.set d t k (f (Tbl.get d t k))

/-- Keys rise strictly from above lo. -/
def Tbl.risingFrom {β : Type} : Option Nat → Tbl β → Bool
  | _, [] => true
  | none, (a, _) :: r => Tbl.risingFrom (some a) r
  | some l, (a, _) :: r => decide (l < a) && Tbl.risingFrom (some a) r

/-- No entry equals the default. -/
def Tbl.noDefault {β : Type} [DecidableEq β] (d : β) : Tbl β → Bool
  | [] => true
  | (_, v) :: r => !decide (v = d) && Tbl.noDefault d r

/-- The canonical form. -/
def Tbl.wf {β : Type} [DecidableEq β] (d : β) (t : Tbl β) : Bool := Tbl.risingFrom none t && Tbl.noDefault d t

/-- Keys listed in the table. -/
def Tbl.keys {β : Type} (t : Tbl β) : List Nat := t.map Prod.fst

end Sys2Proof.Machine
end

