-- ==== Sys2Proof/Machine/DTime.lean ====
section
/-! DEFINITION. Data of the time base (chapter 02): stamps, the servo, PTP messages and ports, time-trigger units and
timing outputs. Instants are naturals: `t16` counts 2^-16 ns since the PTP epoch (bits [127:16] of R4 read as one
instant), counter values count 2^-40 ns (R38), and edges count 250 MHz counter-clock edges. -/

namespace Sys2Proof.Machine

/-- A time word before it is packed: the instant in 2^-16 ns and the QUALITY field (R4). -/
structure Stamp where
  t16 : Nat := 0
  q : BitVec 16 := 0
  deriving DecidableEq, Repr

/-- Counter states (R45). -/
inductive CState where
  | notValid | freeRun | locked | holdover
  deriving DecidableEq, Repr

/-- PTP port identity. -/
structure PortIdent where
  clock : Nat := 0
  port : Nat := 0
  deriving DecidableEq, Repr

/-- Dataset carried by an Announce (R46, R47, R52, R56). -/
structure Announce where
  priority1 : Nat := 128
  clockClass : Nat := 248
  accuracy : Nat := 0xFE
  variance : Nat := 0xFFFF
  priority2 : Nat := 128
  gm : Nat := 0
  steps : Nat := 0
  timeSource : Nat := 0xA0
  utcOffset : Int := 0
  utcValid : Bool := false
  leap59 : Bool := false
  leap61 : Bool := false
  timeTraceable : Bool := false
  frequencyTraceable : Bool := false
  /-- Grandmaster and network time inaccuracy of the C37.238 TLV, ns. -/
  c37238 : Option (Nat × Nat) := none
  /-- Alternate Time Offset Indicator TLV, passed on (R48). -/
  atoi : List (BitVec 8) := []
  deriving DecidableEq, Repr

inductive PtpTransport where
  | untagged | priorityTagged | vlanTagged | udp
  deriving DecidableEq, Repr

inductive PtpDest where
  /-- 01-1B-19-00-00-00 -/
  | primary
  /-- 01-80-C2-00-00-0E -/
  | pdelay
  | other
  deriving DecidableEq, Repr

inductive PtpBody where
  | sync (twoStep : Bool) (originNs : Nat)
  | followUp (originNs : Nat)
  | announce (a : Announce)
  | pdelayReq
  | pdelayResp (twoStep : Bool) (receiptNs : Nat) (requester : PortIdent)
  | pdelayRespFollowUp (respNs : Nat) (requester : PortIdent)
  | delayReq | delayResp | management | signaling
  deriving DecidableEq, Repr

/-- A PTP message as the engine sees it; `corr` is correctionField in 2^-16 ns. -/
structure PtpMsg where
  transport : PtpTransport := .untagged
  dest : PtpDest := .primary
  version : Nat := 2
  domain : Nat := 0
  alternateMaster : Bool := false
  unicast : Bool := false
  corr : Int := 0
  src : PortIdent := {}
  seq : Nat := 0
  body : PtpBody
  deriving DecidableEq, Repr

/-- A foreign master heard on a port (IEEE 1588-2008 default BMCA): log 12. -/
structure Foreign where
  src : PortIdent
  ds : Announce
  /-- Edges of its last two Announce messages, latest first. -/
  last : Nat
  prev : Option Nat
  deriving DecidableEq, Repr

inductive PtpRole where
  | listening | slave | master | passive
  deriving DecidableEq, Repr

/-- Peer-delay exchange in progress: sequence and t1, then receipt instant, t4. -/
structure PdelayRun where
  seq : Nat
  t1 : Int
  t2 : Option Int := none
  t4 : Option Int := none
  corr : Int := 0
  deriving DecidableEq, Repr

structure PtpPort where
  foreign : List Foreign := []
  run : Option PdelayRun := none
  /-- Previous (t3, t4) for the neighbour rate ratio. -/
  lastPair : Option (Int × Int) := none
  /-- Neighbour rate ratio as numerator and denominator. -/
  nrrNum : Nat := 1
  nrrDen : Nat := 1
  /-- Mean link delay, 2^-16 ns. -/
  delay : Option Int := none
  /-- Two-step Sync waiting for its Follow_Up: source, seq, receipt stamp, correction. -/
  waiting : Option (PortIdent × Nat × Int × Int) := none
  syncSeq : Nat := 0
  annSeq : Nat := 0
  pdSeq : Nat := 0
  deriving DecidableEq, Repr

/-- A message the PTP engine sent: port, edge, message. -/
structure PtpSent where
  port : Nat
  edge : Nat
  msg : PtpMsg
  deriving DecidableEq, Repr

structure PtpState where
  /-- The module's own clockIdentity: log 15. -/
  own : Nat := 0
  ports : Tbl PtpPort := []
  slavePort : Option Nat := none
  /-- Current grandmaster's dataset, source and edge of its last Announce. -/
  gm : Option Announce := none
  gmSrc : PortIdent := {}
  lastAnnounce : Nat := 0
  lastSync : Nat := 0
  /-- Latest Announce dataset of the last grandmaster that was qualified: the source of TRACEABLE and of G + N (R46, R47, R56). -/
  source : Option Announce := none
  /-- Consecutive Sync messages from the selected grandmaster, and whether it is qualified (R56). -/
  qualRun : Nat := 0
  qualified : Bool := false
  discards : Tbl Nat := []
  sent : List PtpSent := []
  deriving DecidableEq, Repr

/-- One time-trigger unit (R65 to R69). -/
structure Ttu where
  armed : Bool := false
  /-- Ring key (64·p + r) and flight of the arm descriptor. -/
  ring : Nat := 0
  flight : Nat := 0
  irqEach : Bool := false
  target : Nat := 0
  next : Nat := 0
  period : Nat := 0
  left : Nat := 0
  forever : Bool := false
  /-- Edge of the last firing and the flight it completed, for the race of R69. -/
  lastFire : Option Nat := none
  deriving DecidableEq, Repr

/-- One timing output (R70 to R72): the mode in force and the pulse now out. -/
structure TOut where
  mode : Nat := 0
  /-- Instant from which the committed MODE is in force (R70). -/
  newAt : Nat := 0
  /-- Leading edge and end of the latest pulse, 2^-16 ns. -/
  pulse : Option (Nat × Nat) := none
  /-- Latest IRIG-B frame: its 100 elements (0, 1 or 2 = position identifier). -/
  irig : List Nat := []
  irigAt : Nat := 0
  deriving DecidableEq, Repr

structure TsqEntry where
  port : Nat
  ident : Nat
  stamp : Stamp
  deriving DecidableEq, Repr

/-- The counter, its clock, the servo and the quality (R38 to R57). -/
structure TbState where
  /-- Counter value, 2^-40 ns (R38). -/
  counter : Nat := 0
  /-- Counter-clock edges since the model's first edge. -/
  edge : Nat := 0
  addend : Nat := 0x40000000000
  stagedLo : Option Nat := none
  nextAddend : Option Nat := none
  /-- Rate correction c and integrator I, 2^-12 ppb (R53); no I before the first offset (R35). -/
  corr : Int := 0
  integ : Option Int := none
  st : CState := .notValid
  refTcxo : Bool := true
  ocxoOk : Bool := false
  /-- Edge since which the OCXO can have been within its limits: its power-up or the last loss of them (R41). -/
  ocxoSince : Nat := 0
  tcxoOk : Bool := false
  /-- Last accepted offsets, 2^-16 ns, newest first, at most 8 (R47). -/
  accepted : List Int := []
  outliers : Nat := 0
  lockRun : Nat := 0
  latest : Option Int := none
  /-- The next offset is the first after entry into not-valid or FREE_RUN (R55). -/
  firstOffset : Bool := true
  /-- Step to be made at the next slot edge: the offset it subtracts (R55), and whether that offset was kept from the servo. -/
  stepBy : Option Int := none
  stepHeld : Bool := false
  /-- Estimate E in LOCKED or at holdover entry, 10^-10 ns, and the edge of its last growth (R47). -/
  est : Nat := 0
  estEdge : Nat := 0
  unknownErr : Bool := true
  traceable : Bool := false
  lastFwOffset : Nat := 0
  fwIgnored : Bool := false
  stepRefused : Bool := false
  stepped : Bool := false
  /-- Counter-clock edge at which LOCKED was last left, none when it was never held (R187). -/
  lockedAt : Option Nat := none
  /-- Instant at which LOCKED was last entered or left, 2^-16 ns (R260). -/
  lockT : Nat := 0
  deriving DecidableEq, Repr

/-- A past change of UTC_OFFSET: its instant (2^-16 ns), the offset in force before it, and whether a leap second made it: 1 for the end of
an inserted one, 2 for a deleted one (R52). -/
structure UtcPast where
  at_ : Nat
  off : Int
  leap : Nat := 0
  deriving DecidableEq, Repr

/-- The rest of the time base. -/
structure TbUnits where
  /-- Absolute slot number of the next slot edge (R21, R22). -/
  nextSlot : Nat := 0
  /-- Latch of TB_NOW0 to TB_NOW3, per hearth (R44). -/
  now : Tbl (BitVec 128) := []
  tsq : List TsqEntry := []
  tsqOvf : Nat := 0
  txIdent : Tbl Nat := []
  /-- Instant at which LEAP_PENDING was set, which fixes the day at whose end the second falls, and the changes of UTC_OFFSET, latest
  first (R52). -/
  leapAt : Nat := 0
  utcPast : List UtcPast := []
  ttus : Tbl Ttu := []
  touts : Tbl TOut := []
  deriving DecidableEq, Repr

/-- What a port's PTP engine sends at one of its fixed intervals (R48). -/
inductive PtpTxKind where
  | sync | announce | pdelay
  deriving DecidableEq, Repr

end Sys2Proof.Machine
end

