-- ==== Sys2Proof/Machine/DCore.lean ====
section
/-! DEFINITION. Data of partitions, interrupts and resets (chapter 11), the hardware scheduler (12), rings (13),
transactions (14) and the cores' own registers that the chapters name. -/

namespace Sys2Proof.Machine

/-- Partition state of PT_PART_STATp. -/
inductive PartState where
  | stopped | running | resetting
  deriving DecidableEq, Repr

structure PartRun where
  state : PartState := .stopped
  resets : BitVec 16 := 0
  irqDisc : Nat := 0
  winFault : Nat := 0
  deriving DecidableEq, Repr

/-- Scope of a reset (R296). -/
inductive RScope where
  | partition (p : Nat) | hearth (h : Nat) | fbe (h : Nat) | loop (l : Nat) | capture (g : Nat)
  deriving DecidableEq, Repr

/-- A reset pending or draining (R297, R299). -/
structure ResetRun where
  scope : RScope
  reqEdge : Nat
  effEdge : Nat
  draining : Bool := false
  /-- A partition reset made by a commit that clears EN leaves the partition STOPPED (R284). -/
  stop : Bool := false
  deriving DecidableEq, Repr

structure PtState where
  /-- Partition 0 reads RUNNING at reset (PT_PART_STAT). -/
  parts : Tbl PartRun := [(0, { state := .running })]
  resets : List ResetRun := []
  refused : Bool := false
  lastScope : BitVec 2 := 0
  lastDrain : BitVec 16 := 0
  deriving DecidableEq, Repr

/-- One IMSIC interrupt file (R292): pending and enabled identities, rising. -/
structure IFile where
  pend : List Nat := []
  eie : List Nat := []
  /-- Pending assertions by identity and source (block, instance), for R296's engine scope. -/
  src : List (Nat × Nat × Nat) := []
  deriving DecidableEq, Repr

/-- Exception or trap that a command raised on a core. -/
inductive Trap where
  | loadFault (stval : Nat) | storeFault (stval : Nat) | fetchFault (stval : Nat)
  | virtualInstruction | illegalInstruction
  deriving DecidableEq, Repr

/-- What the chapters name of one core. -/
structure CoreSt where
  started : Bool := false
  entry : Nat := 0
  a0 : Nat := 0
  /-- Result of the last load or CSR access of a command. -/
  result : BitVec 64 := 0
  trap : Option Trap := none
  stimecmp : BitVec 64 := 0
  vstimecmp : BitVec 64 := 0
  stip : Bool := false
  vstip : Bool := false
  deriving DecidableEq, Repr

/-- A completed descriptor's results (R331): words 3 and on are pairs of index and word. -/
structure Wb where
  status : Nat := 0
  flags : Nat := 0
  res16 : Nat := 0
  words : List (Nat × BitVec 32) := []
  /-- None only for FB_PEEK with COUNT above 4. -/
  stamp : Option Stamp := none
  /-- Replacement of bits 31:16 of word 0 (R59). -/
  hi0 : Option Nat := none
  deriving DecidableEq, Repr

/-- A fetched descriptor that has not written back. -/
structure Flight where
  id : Nat
  words : List (BitVec 32)
  fence : Bool := false
  /-- Edge of the fetch. -/
  at_ : Nat := 0
  res : Option Wb := none
  deriving DecidableEq, Repr

/-- Indices of one ring (R325) and its counters. -/
structure RingRun where
  pi : Nat := 0
  fi : Nat := 0
  wi : Nat := 0
  ci : Nat := 0
  dropped : Nat := 0
  dbDrop : Nat := 0
  rseq : Nat := 0
  drop : Bool := false
  badDb : Bool := false
  nextId : Nat := 0
  flights : List Flight := []
  /-- On a ring that completes out of order, the write-backs of one edge: the edge, the first slot, and what was written, in fetch
  order (R336). -/
  grpEdge : Option Nat := none
  grpAt : Nat := 0
  grp : List (Flight × Wb) := []
  deriving DecidableEq, Repr

structure DbState where
  rings : Tbl RingRun := []
  err : Tbl Nat := []
  deriving DecidableEq, Repr

/-- Transaction of a partition (R341 to R350). -/
inductive TxnSt where
  | idle | open_ | pending
  deriving DecidableEq, Repr

structure Txn where
  st : TxnSt := .idle
  txid : BitVec 16 := 0
  conflict : Bool := false
  overflow : Bool := false
  /-- Staged keys in the order of their first store: register key, accessing selector, value. -/
  keys : List (Nat × BitVec 32) := []
  /-- Application edge as an absolute slot number, order of the commit's fetch, ring key and flight. -/
  applySlot : Nat := 0
  order : Nat := 0
  ring : Nat := 0
  flight : Nat := 0
  ign : Nat := 0
  claimRef : Nat := 0
  /-- Application slot and status of its last commit that reached its edge (R353). -/
  ended : Option (Nat × Nat) := none
  deriving DecidableEq, Repr

structure TxState where
  txns : Tbl Txn := []
  nextId : BitVec 16 := 0
  nextOrder : Nat := 0
  deriving DecidableEq, Repr

/-- Task states (R306). -/
inductive TaskSt where
  | dormant | waiting | ready | running
  deriving DecidableEq, Repr

/-- Runtime of one task. -/
structure Task where
  st : TaskSt := .dormant
  /-- No release since the history started (R321). -/
  first : Bool := true
  /-- Previous release instant (R307), instants in 2^-16 ns. -/
  lastRel : Nat := 0
  r : Nat := 0
  d : Nat := 0
  /-- BUDGET of the present job: that of its release (R305). -/
  bud : Nat := 0
  /-- Instant at which the history started (R321). -/
  hist0 : Nat := 0
  /-- Wake instant on the delay list. -/
  wake : Option Nat := none
  /-- Edges of RUNNING time so far and the edge at which it last began. -/
  ran : Nat := 0
  from_ : Nat := 0
  missed : Bool := false
  overBudget : Bool := false
  hist : Bool := false
  releases : Nat := 0
  misses : Nat := 0
  overrun : Nat := 0
  budgetOvr : Nat := 0
  execMax : Nat := 0
  deriving DecidableEq, Repr

/-- Producer class of a post (R314). -/
inductive PostCls where
  | local_ | peer | device
  deriving DecidableEq, Repr

structure Post where
  /-- Its arrival, 2^-16 ns (R307). -/
  at_ : Nat := 0
  cls : PostCls
  src : Nat
  ident : Nat
  task : Nat
  payload : BitVec 32
  deriving DecidableEq, Repr

/-- Scheduler of one hearth. -/
structure Sched where
  running : Option Nat := none
  posts : List Post := []
  refused : Nat × Nat × Nat := (0, 0, 0)
  discarded : Nat := 0
  miss : Bool := false
  refusedFlag : Bool := false
  deriving DecidableEq, Repr

structure SqState where
  tasks : Tbl Task := []
  hearths : Tbl Sched := []
  deriving DecidableEq, Repr

/-- Mode of the core that accesses a scheduler CSR. -/
inductive CMode where
  | hs | vs | u
  deriving DecidableEq, Repr

inductive AccessKind where
  | load | store | fetch
  /-- A read of the scheduler's CSR sqnext in a mode (R313; log 74). -/
  | sqnext (mode : CMode)
  deriving DecidableEq, Repr

end Sys2Proof.Machine
end

