-- ==== Sys2Proof/Machine/DPower.lean ====
section
/-! DEFINITION. Data of power, start-up and images (chapter 20). -/

namespace Sys2Proof.Machine

inductive PwSt where
  | off | keep | warm | run
  deriving DecidableEq, Repr

/-- State of a power domain (R458), encoded as PW_DOM_STAT. -/
inductive DomSt where
  | off | starting | run | failed
  deriving DecidableEq, Repr

structure Feed where
  present : Bool := false
  cls : Nat := 0
  /-- Grant, 0.1 W (R453). -/
  grant : Nat := 0
  deriving DecidableEq, Repr

structure PwState where
  st : PwSt := .warm
  safe : Bool := false
  /-- Start-up step, 1 to 9; 0 when complete. -/
  step : Nat := 3
  /-- Edge at which the step began. -/
  stepAt : Nat := 0
  feeds : Tbl Feed := []
  budgetLow : Bool := false
  holdupOk : Bool := false
  cellLow : Bool := false
  cellMv : Nat := 0
  doms : Tbl DomSt := []
  detail : BitVec 16 := 0xFF00
  /-- Retries since the last start from step 1, and the edge of the halt in force (R463). -/
  retries : Nat := 0
  haltAt : Option Nat := none
  /-- Halted for good until the feeds are removed (R463). -/
  dead : Bool := false
  /-- The loss edge, while its sequence runs (R455). -/
  lossAt : Option Nat := none
  /-- A kept counter value exists (R42). -/
  kept : Bool := false
  /-- Bank booted in this start-up and whether it runs from step 1. -/
  bank : Nat := 0
  fromOne : Bool := false
  /-- Bundle transaction applied at step 9 is waiting for its edge. -/
  bundle : Bool := false
  /-- Partitions that start at the next slot multiple of 16 (R465). -/
  startAt : Option Nat := none
  /-- ENTRY of the booted set's image for each partition (R464, R469). -/
  entries : Tbl Nat := []
  /-- CLASS of the booted PLATFORM image, and its tested-combination matrix (R470, R472). -/
  platform : Nat := 0
  matrix : List ((Nat × Nat) × (Nat × Nat)) := []
  deriving DecidableEq, Repr

end Sys2Proof.Machine
end

