-- ==== Sys2Proof/Machine/DStore.lean ====
section
/-! DEFINITION. Data of flash storage and the tally (chapter 19). -/

namespace Sys2Proof.Machine

abbrev Bytes := List (BitVec 8)

/-- One committed version of an object: its extents are (block, pages) in order; `bad` lists the 1 KiB codewords of the
object that are uncorrectable (R436). -/
structure Obj where
  name : Bytes
  data : Bytes
  ver : Nat
  extents : List (Nat × Nat)
  bad : List Nat := []
  deriving DecidableEq, Repr

inductive BlkSt where
  | free | data | awaiting | retired
  deriving DecidableEq, Repr

/-- One NAND block; `region` is none while it belongs to its shipped region. -/
structure Blk where
  st : BlkSt := .free
  region : Option Nat := none
  erase : Nat := 0
  deriving DecidableEq, Repr

inductive OpKind where
  | write | delete | export_ | clear
  deriving DecidableEq, Repr

/-- An operation between its fetch and its commit (R440), or a running ST_READ. -/
structure StOp where
  id : Nat
  kind : OpKind
  ring : Nat
  flight : Nat
  tag : BitVec 32
  region : Nat
  /-- Objects it writes: name and content. -/
  objs : List (Bytes × Bytes) := []
  name : Bytes := []
  pages : Nat := 0
  /-- Capture unit and segment of an export. -/
  unit : Nat := 0
  seg : Nat := 0
  node : Nat := 0
  deriving DecidableEq, Repr

structure StRead where
  id : Nat
  ring : Nat
  flight : Nat
  tag : BitVec 32
  part : Nat
  dst : Nat
  data : Bytes
  ver : Nat
  bad : Bool
  region : Nat
  /-- The pages of the version that it reads, which are not erased until it ends (R441). -/
  extents : List (Nat × Nat) := []
  deriving DecidableEq, Repr

structure StState where
  objects : Tbl (List Obj) := []
  blocks : Tbl Blk := []
  ops : List StOp := []
  reads : List StRead := []
  nextId : Nat := 0
  nextVer : Nat := 0
  /-- Fill of each region's open block: region to (block, pages used). -/
  fill : Tbl (Nat × Nat) := []
  ready : Bool := false
  replaying : Bool := false
  shutdown : Bool := false
  cnt : Tbl Nat := []
  /-- Operations discarded by the last loss (reported at the next POWER_UP). -/
  discards : Nat := 0
  deriving DecidableEq, Repr

/-- A tally record (R448). -/
structure TyRec where
  type : Nat
  regs : List (BitVec 32) := []
  index : Nat := 0
  repeats : Nat := 0
  hours : Nat := 0
  cycles : Nat := 0
  time : Option Stamp := none
  last : Option Stamp := none
  detail : BitVec 32 := 0
  partial_ : Bool := false
  deriving DecidableEq, Repr

structure TyState where
  open_ : Option TyRec := none
  recs : List TyRec := []
  full : Bool := false
  lost : Nat := 0
  hours : Nat := 0
  /-- Edge at which the running 225 s began. -/
  hoursAt : Nat := 0
  /-- Counter-clock periods of the running 225 s that were spent before the module left WARM and RUN. -/
  hoursPart : Nat := 0
  cycles : Nat := 0
  /-- HOURS16, CYCLES and PREF as the last journal entry saved them (R448, PW_BOOT). -/
  savedHours : Nat := 0
  savedCycles : Nat := 0
  savedPref : Bool := false
  /-- Events waiting for a tally clear (R452). -/
  clearing : Bool := false
  waiting : List (Nat × BitVec 32) := []
  deriving DecidableEq, Repr

end Sys2Proof.Machine
end

