-- ==== Sys2Proof/Machine/DKey.lean ====
section
/-! DEFINITION. Data of the orchard (chapter 17). -/

namespace Sys2Proof.Machine

inductive NodeSt where
  | free | live | dying
  deriving DecidableEq, Repr

/-- One node slot (R394, R395). -/
structure Node where
  st : NodeSt := .free
  owner : Nat := 0
  depth : Nat := 0
  parent : Nat := 0
  attr : BitVec 32 := 0
  /-- Remaining uses; none = unlimited (R400). -/
  uses : Option Nat := none
  madeIn : Nat := 0
  imported : Bool := false
  key : Bytes := []
  deriving DecidableEq, Repr

/-- What a running key-ring use will produce (R406). -/
inductive UseKind where
  | hmac (msg : Bytes)
  | gmac (iv msg : Bytes)
  | encrypt (iv aad plain : Bytes) (dst : Nat)
  | decrypt (iv aad cipher tag : Bytes) (dst : Nat)
  | sign (digest : Bytes) (dst : Nat)
  | wrap (iv : Bytes) (attr : BitVec 32) (key : Bytes) (dst : Nat)
  deriving DecidableEq, Repr

structure KeyUse where
  id : Nat
  part : Nat
  ring : Nat
  flight : Nat
  nodes : List Nat
  key : Bytes
  kind : UseKind
  deriving DecidableEq, Repr

inductive KeyPendKind where
  | derive_ (parent : Nat) (attr : BitVec 32) (uses : Nat) (owner : Nat) (label : Bytes)
  | import_ (parent : Nat) (attr : BitVec 32) (uses : Nat) (owner : Nat) (blobA blobB : Bytes)
  | revoke
  deriving DecidableEq, Repr

/-- A derive, import or revoke between its fetch and its application instant (R398). -/
structure KeyPend where
  ring : Nat
  flight : Nat
  node : Nat
  applyEdge : Nat
  order : Nat
  kind : KeyPendKind
  deriving DecidableEq, Repr

/-- A life-cycle request whose fuses are being programmed (R393). -/
structure LcReq where
  ring : Nat
  flight : Nat
  dest : Nat
  ownerHash : Option Bytes
  deriving DecidableEq, Repr

structure OkState where
  /-- Fused life-cycle state, and SERVICE held in PD1 (R390). -/
  fused : Nat := 0
  service : Bool := false
  ownerHash : Option Bytes := none
  /-- Draw of the noise source that was fused as F (R391); none: 32 zero bytes. -/
  secret : Option Nat := none
  /-- Draw of the noise source that OK_NONCE shows (R392). -/
  nonce : Nat := 0
  unsealed : Bool := false
  unsealFail : Bool := false
  nodes : Tbl Node := []
  uses : List KeyUse := []
  pends : List KeyPend := []
  fusing : List LcReq := []
  nextId : Nat := 0
  nextOrder : Nat := 0
  latched : Bool := false
  active : BitVec 5 := 0
  seen : BitVec 5 := 0
  tword : BitVec 128 := 0
  /-- Derives, imports and revokes applied since module reset, oldest first (R426). -/
  journal : List KeyPend := []
  /-- How the last derive, import or revoke ended: node, edge, status (R398). -/
  lastEnd : Option (Nat × Nat × Nat) := none
  /-- A TAMPER event not yet recorded in the tally (R408). -/
  owed : Bool := false
  deriving DecidableEq, Repr

end Sys2Proof.Machine
end

