-- ==== Sys2Proof/Machine/Bits.lean ====
section
/-! DEFINITION. Bit fields, signed readings, byte order (R4, R9) and the decimal texts of COMTRADE (R158 to R160). -/

namespace Sys2Proof.Machine

/-- Bits [hi:lo] of a 32-bit word, as a natural. -/
def fld (w : BitVec 32) (hi lo : Nat) : Nat := (w.toNat >>> lo) % 2 ^ (hi + 1 - lo)

/-- Bit i of a 32-bit word. -/
def bit (w : BitVec 32) (i : Nat) : Bool := w.getLsbD i

/-- Two's-complement reading of the low n bits. -/
def signed (n : Nat) (x : Nat) : Int :=
  if x % 2 ^ n < 2 ^ (n - 1) then Int.ofNat (x % 2 ^ n) else Int.ofNat (x % 2 ^ n) - Int.ofNat (2 ^ n)

/-- A signed number as its low 32 bits. -/
def word (i : Int) : BitVec 32 := BitVec.ofInt 32 i

/-- Clamp to a signed n-bit range (R121). -/
def satN (n : Nat) (i : Int) : Int :=
  if i < -(2 ^ (n - 1) : Int) then -(2 ^ (n - 1) : Int)
  else if i > (2 ^ (n - 1) : Int) - 1 then (2 ^ (n - 1) : Int) - 1 else i

/-- Clamp to [lo, hi]. -/
def clampI (lo hi i : Int) : Int := if i < lo then lo else if i > hi then hi else i
def clampN (lo hi n : Nat) : Nat := if n < lo then lo else if n > hi then hi else n

/-- num / den rounded to nearest, ties to even (R121, R219, R225); den > 0. -/
def roundEven (num : Int) (den : Nat) : Int :=
  let q := num / (den : Int)
  let r := num - q * den
  if 2 * r < den then q else if 2 * r > den then q + 1 else if q % 2 = 0 then q else q + 1

/-- num / den rounded to nearest, ties up (R39, R160). -/
def roundUpTie (num : Int) (den : Nat) : Int := (2 * num + den) / (2 * (den : Int))

/-- Ceiling of a division of naturals. -/
def ceilDiv (a b : Nat) : Nat := (a + b - 1) / b

/-- Saturating 32-bit counter (R108, R388 and the RC counters). -/
def inc32 (c : Nat) : Nat := if c < 0xFFFFFFFF then c + 1 else c
def add32 (c n : Nat) : Nat := if c + n < 0xFFFFFFFF then c + n else 0xFFFFFFFF

/-- Bytes to a natural, little-endian and big-endian. -/
def leNat : List (BitVec 8) → Nat
  | [] => 0
  | b :: bs => b.toNat + 256 * leNat bs
def beNat (bs : List (BitVec 8)) : Nat := bs.foldl (fun a b => a * 256 + b.toNat) 0

/-- A natural as n bytes, little-endian and big-endian. -/
def leBytes : Nat → Nat → List (BitVec 8)
  | 0, _ => []
  | n + 1, x => BitVec.ofNat 8 x :: leBytes n (x / 256)
def beBytes (n x : Nat) : List (BitVec 8) := (leBytes n x).reverse

/-- Bytes of a list of 32-bit words, little-endian (R9). -/
def wordsBytes : List (BitVec 32) → List (BitVec 8)
  | [] => []
  | w :: ws => leBytes 4 w.toNat ++ wordsBytes ws

/-- Words of a list of bytes, little-endian; a short tail is dropped. -/
def bytesWords : List (BitVec 8) → List (BitVec 32)
  | a :: b :: c :: d :: r => BitVec.ofNat 32 (leNat [a, b, c, d]) :: bytesWords r
  | _ => []

/-- The n octets from offset o. -/
def octs (bs : List (BitVec 8)) (o n : Nat) : List (BitVec 8) := (bs.drop o).take n
def be (bs : List (BitVec 8)) (o n : Nat) : Nat := beNat (octs bs o n)
def le (bs : List (BitVec 8)) (o n : Nat) : Nat := leNat (octs bs o n)

/-- One step of CRC-32C over a byte, reflected polynomial 0x82F63B78. -/
def crc32cBit (c : Nat) : Nat := if c % 2 = 1 then (c >>> 1) ^^^ 0x82F63B78 else c >>> 1
def crc32cByte (c : Nat) (b : BitVec 8) : Nat :=
  crc32cBit (crc32cBit (crc32cBit (crc32cBit (crc32cBit (crc32cBit (crc32cBit (crc32cBit (c ^^^ b.toNat))))))))
/-- CRC-32C (R75, R147, R215, R417, R448; the polynomial is presumed: log 10). -/
def crc32c (bs : List (BitVec 8)) : Nat := (bs.foldl crc32cByte 0xFFFFFFFF) ^^^ 0xFFFFFFFF

def crcCcittBit (c : Nat) : Nat := if c ≥ 0x8000 then ((c <<< 1) ^^^ 0x1021) % 65536 else (c <<< 1) % 65536
def crcCcittByte (c : Nat) (b : BitVec 8) : Nat :=
  crcCcittBit (crcCcittBit (crcCcittBit (crcCcittBit (crcCcittBit (crcCcittBit (crcCcittBit (crcCcittBit
    (c ^^^ (b.toNat * 256)))))))))
/-- CRC-CCITT of IEEE C37.118.2 (R184, R186; initial value 0xFFFF, presumed: log 10). -/
def crcCcitt (bs : List (BitVec 8)) : Nat := bs.foldl crcCcittByte 0xFFFF

/-- Ones'-complement sum of 16-bit words (the IPv4 header checksum of R103, R186, R371). -/
def onesSum : List (BitVec 8) → Nat
  | a :: b :: r => a.toNat * 256 + b.toNat + onesSum r
  | [a] => a.toNat * 256
  | [] => 0
def fold16 (x : Nat) : Nat := (x % 65536 + x / 65536) % 65536 + (x % 65536 + x / 65536) / 65536
def ipChecksum (bs : List (BitVec 8)) : Nat := 0xFFFF - fold16 (onesSum bs)

/-- ASCII of a decimal number, padded with zeros to width w. -/
def decDigits : Nat → Nat → List (BitVec 8)
  | 0, _ => []
  | w + 1, n => decDigits w (n / 10) ++ [BitVec.ofNat 8 (48 + n % 10)]
def decWidth : Nat → Nat → Nat
  | 0, _ => 1
  | f + 1, n => if n < 10 then 1 else 1 + decWidth f (n / 10)
def decText (n : Nat) : List (BitVec 8) := decDigits (decWidth 40 n) n
def ascii (t : String) : List (BitVec 8) := t.toList.map (fun c => BitVec.ofNat 8 c.toNat)

/-- Integer square root by bisection on fuel: the largest r with r * r ≤ n. -/
def isqrtGo : Nat → Nat → Nat → Nat
  | 0, r, _ => r
  | k + 1, r, n => if (r + 2 ^ k) * (r + 2 ^ k) ≤ n then isqrtGo k (r + 2 ^ k) n else isqrtGo k r n
def isqrt (n : Nat) : Nat := isqrtGo (Nat.log2 n / 2 + 1) 0 n

/-- Position of the first element that satisfies p. -/
def indexOf {α : Type} (p : α → Bool) : List α → Option Nat
  | [] => none
  | a :: r => if p a then some 0 else (indexOf p r).map (· + 1)

/-- Add a number to a strictly rising list, once. -/
def addRising : List Nat → Nat → List Nat
  | [], i => [i]
  | a :: r, i => if i < a then i :: a :: r else if i = a then a :: r else a :: addRising r i

/-- Replace the n-th element. -/
def setNth {α : Type} : List α → Nat → α → List α
  | [], _, _ => []
  | _ :: r, 0, x => x :: r
  | a :: r, n + 1, x => a :: setNth r n x

/-- Stable insertion sort under a Bool order. -/
def insertBy {α : Type} (leB : α → α → Bool) (x : α) : List α → List α
  | [] => [x]
  | a :: r => if leB x a then x :: a :: r else a :: insertBy leB x r
def sortBy {α : Type} (leB : α → α → Bool) : List α → List α
  | [] => []
  | a :: r => insertBy leB a (sortBy leB r)

end Sys2Proof.Machine
end

