-- ==== Sys2Proof/Machine/Real.lean ====
section
/-! DEFINITION. Fixed-point reals with 96 fraction bits, for the phasor sums (R169, R170: at least 48 bits of mantissa),
the travel times of R192, the windows of R119 and R168, and the curves of R230. How a result is rounded in its last
fraction bits is this model's choice (log 20). -/

namespace Sys2Proof.Machine

/-- One, at 96 fraction bits. -/
def fxOne : Int := 2 ^ 96
def fxOfInt (i : Int) : Int := i * fxOne
/-- num / den as a fixed-point number. -/
def fxOfRat (num : Int) (den : Nat) : Int := num * fxOne / (den : Int)
def fxMul (a b : Int) : Int := a * b / fxOne
def fxDiv (a b : Int) : Int := if b = 0 then 0 else a * fxOne / b
def fxSqrt (a : Int) : Int := Int.ofNat (isqrt ((a * fxOne).toNat))

/-- π and ln 2 at 96 fraction bits, truncated. -/
def fxPi : Int := 248902613312231085230521944622
def fxLn2 : Int := 54916777467707473351141471128

/-- Σ of the series whose term i + 1 is −term i · x2 / ((a + 2i + 1)(a + 2i + 2)). -/
def altSeries : Nat → Int → Nat → Int → Int
  | 0, _, _, _ => 0
  | n + 1, x2, a, term => term + altSeries n x2 (a + 2) (-(fxMul term x2) / (((a + 1) * (a + 2) : Nat) : Int))

/-- Cosine and sine of an angle in turns (fixed point). -/
def fxCosTurn (t : Int) : Int :=
  let f := t % fxOne
  let u := if 2 * f > fxOne then f - fxOne else f
  let x := fxMul (2 * fxPi) u
  altSeries 40 (fxMul x x) 0 fxOne
def fxSinTurn (t : Int) : Int :=
  let f := t % fxOne
  let u := if 2 * f > fxOne then f - fxOne else f
  let x := fxMul (2 * fxPi) u
  altSeries 40 (fxMul x x) 1 x

/-- Σ (−1)^i y^(2i+1) / (2i+1), from the power y^(2i+1). -/
def atanSeries : Nat → Int → Nat → Int → Int
  | 0, _, _, _ => 0
  | n + 1, y2, k, p => p / ((k : Nat) : Int) + atanSeries n y2 (k + 2) (-(fxMul p y2))

/-- tan(θ/2) from tan θ ≥ 0. -/
def halfTan (r : Int) : Int := fxDiv r (fxOne + fxSqrt (fxOne + fxMul r r))
/-- Arctangent of r, 0 ≤ r ≤ 1, in radians. -/
def fxAtan (r : Int) : Int :=
  let y := halfTan (halfTan (halfTan r))
  8 * atanSeries 30 (fxMul y y) 1 y

/-- Angle of (x, y) in (−π, π], radians; 0 at the origin. -/
def fxAtan2 (y x : Int) : Int :=
  let ax : Int := x.natAbs
  let ay : Int := y.natAbs
  if ax = 0 ∧ ay = 0 then 0
  else
    let a := if ay ≤ ax then fxAtan (fxDiv ay ax) else fxPi / 2 - fxAtan (fxDiv ax ay)
    let b := if x < 0 then fxPi - a else a
    if y < 0 then -b else b

def atanhSeries : Nat → Int → Nat → Int → Int
  | 0, _, _, _ => 0
  | n + 1, y2, k, p => p / ((k : Nat) : Int) + atanhSeries n y2 (k + 2) (fxMul p y2)
/-- Natural logarithm of x > 0. -/
def fxLn (x : Int) : Int :=
  let e : Int := Int.ofNat (Nat.log2 x.toNat) - 96
  let m := if e ≥ 0 then x / 2 ^ e.toNat else x * 2 ^ (-e).toNat
  let y := fxDiv (m - fxOne) (m + fxOne)
  e * fxLn2 + 2 * atanhSeries 40 (fxMul y y) 1 y

def expSeries : Nat → Int → Nat → Int → Int
  | 0, _, _, _ => 0
  | n + 1, x, k, term => term + expSeries n x (k + 1) (fxMul term x / ((k : Nat) : Int))
def fxExp (x : Int) : Int :=
  let n := x / fxLn2
  let r := expSeries 40 (x - n * fxLn2) 1 fxOne
  if n ≥ 0 then r * 2 ^ n.toNat else r / 2 ^ (-n).toNat
/-- x to the power num / den, x > 0. -/
def fxPow (x : Int) (num den : Nat) : Int := fxExp (fxLn x * (num : Int) / (den : Int))

/-- A complex number at 96 fraction bits. -/
structure Cx where
  re : Int := 0
  im : Int := 0
  deriving DecidableEq, Repr

def Cx.add (a b : Cx) : Cx := ⟨a.re + b.re, a.im + b.im⟩
def Cx.sub (a b : Cx) : Cx := ⟨a.re - b.re, a.im - b.im⟩
def Cx.mul (a b : Cx) : Cx := ⟨fxMul a.re b.re - fxMul a.im b.im, fxMul a.re b.im + fxMul a.im b.re⟩
def Cx.conj (a : Cx) : Cx := ⟨a.re, -a.im⟩
def Cx.neg (a : Cx) : Cx := ⟨-a.re, -a.im⟩
def Cx.smul (k : Int) (a : Cx) : Cx := ⟨fxMul k a.re, fxMul k a.im⟩
def Cx.norm2 (a : Cx) : Int := fxMul a.re a.re + fxMul a.im a.im
def Cx.abs (a : Cx) : Int := Int.ofNat (isqrt ((a.re * a.re + a.im * a.im).toNat))
def Cx.arg (a : Cx) : Int := fxAtan2 a.im a.re
/-- a / b; none where b is 0. -/
def Cx.div (a b : Cx) : Option Cx :=
  let d := b.re * b.re + b.im * b.im
  if d = 0 then none
  else some ⟨(a.re * b.re + a.im * b.im) * fxOne / d, (a.im * b.re - a.re * b.im) * fxOne / d⟩
/-- exp(j2πt) of an angle in turns. -/
def Cx.turn (t : Int) : Cx := ⟨fxCosTurn t, fxSinTurn t⟩

end Sys2Proof.Machine
end

