-- ==== Sys2Proof/Machine/DLine.lean ====
section
/-! DEFINITION. Arrivals, fault phasors and arrival messages of fault location (chapter 07), which the state delta carries too. -/

namespace Sys2Proof.Machine

/-- A local or remote arrival (R195, R201). -/
structure Arr where
  t16 : Nat
  tq : BitVec 16
  sig : Nat
  pos : Bool
  /-- 96 fraction bits for a local arrival; binary32 is formed when it is sent. -/
  amp : Int
  q : BitVec 32
  deriving DecidableEq, Repr

/-- Fault phasors of one end (R201, R205). -/
structure FaultPh where
  tF : Nat
  tPre : Nat
  fq : BitVec 16
  pq : BitVec 16
  v2 : Cx
  i2 : Cx
  dv1 : Cx
  di1 : Cx
  q : BitVec 32
  /-- Every phasor settled. -/
  ok : Bool
  deriving DecidableEq, Repr

/-- A taken arrival message. -/
structure ArrMsg where
  phasors : Bool
  evSeq : Nat
  sim : Bool
  test : Bool
  rx : Nat
  arrs : List Arr := []
  ph : Option FaultPh := none
  deriving DecidableEq, Repr

end Sys2Proof.Machine
end

