-- ==== Sys2Proof/Machine/DPair.lean ====
section
/-! DEFINITION. Data of the redundant pair (chapter 18). -/

namespace Sys2Proof.Machine

inductive PRole where
  | negotiating | active | standby
  deriving DecidableEq, Repr

inductive PSync where
  | cold | syncing | synced
  deriving DecidableEq, Repr

/-- A heartbeat, and what this model lets it carry of the neighbour (R412, R415; its format is internal). -/
structure Heartbeat where
  role : PRole
  /-- CLASS of the sender's PLATFORM image (R472). -/
  platform : Nat := 0
  deriving DecidableEq, Repr

/-- A beacon's payload (R418). -/
structure Beacon where
  magic : Nat := 0x4942
  version : Nat := 1
  /-- 0 A, 1 B. -/
  position : Nat
  role : PRole
  sync : PSync
  fit : Bool
  mateUp : Bool
  pairId : Nat
  seq : Nat := 0
  /-- T_SEND. -/
  sent : Stamp
  flags : BitVec 32 := 0
  deriving DecidableEq, Repr

/-- Identity of a withheld or released frame (R416). -/
inductive FrameId where
  | goose (appid : Nat) (ref : List (BitVec 8)) (stNum sqNum : Nat)
  | sv (appid smpCnt : Nat)
  | phasor (idcode : Nat) (t16 : Nat)
  | arrival (line seq copy kind : Nat)
  deriving DecidableEq, Repr

/-- A decision record (R417). -/
inductive Decision where
  | handOff (h cycle crc : Nat)
  | frame (id : FrameId) (crc : Nat)
  | loop (l slot : Nat) (out : BitVec 32)
  deriving DecidableEq, Repr

/-- An output frame between its building and its port (R413, R416). -/
structure OutFrame where
  id : FrameId
  octets : List (BitVec 8)
  /-- Ports it goes to, as encodings. -/
  ports : List Nat
  cls : Nat
  owner : Nat
  /-- Red box sequence or HSR tag is added at the port. -/
  redundant : Bool := false
  /-- The wire stream that counts it when it is sent (R189). -/
  stream : Option Nat := none
  deriving DecidableEq, Repr

/-- State of a control block after a frame that the active unit released (R257). -/
structure GcbRel where
  stNum : Nat
  sqNum : Nat
  t : Stamp
  d : Nat
  due : Option Nat
  deriving DecidableEq, Repr

/-- Items of the express lane other than heartbeats and decision records (R414). -/
inductive DeltaKind where
  | txnBegin (p : Nat)
  | staged (p key : Nat) (v : BitVec 32)
  /-- A commit that its fetch made PENDING or ended, and its ring key. -/
  | txnCommit (p applySlot ring : Nat)
  /-- A rollback, and whether it found nothing to undo (R350). -/
  | txnRollback (p : Nat) (late : Bool)
  /-- The end of a commit at its application edge. -/
  | txnEnd (p applySlot : Nat)
  | key (ring node applyEdge : Nat) (k : KeyPendKind)
  /-- The end of a key change at its application instant (R398). -/
  | keyEnd (node applyEdge : Nat)
  | reset (scope : RScope) (effEdge : Nat)
  | fbe (ring h : Nat) (words : List (BitVec 32)) (image : Option (List (BitVec 8)))
  | switch
  /-- EVENT_SEQ of a line and its held messages (R210). -/
  | line (l evSeq : Nat) (held : List ArrMsg)
  /-- Numbering, t and schedule of a control block at its last released frame (R257). -/
  | gcb (g : Nat) (rel : GcbRel)
  deriving DecidableEq, Repr

/-- A delta item with its sequence number and the status it ended with on the active unit. -/
structure DeltaItem where
  seq : Nat
  kind : DeltaKind
  status : Nat
  deriving DecidableEq, Repr

/-- What this unit sent on the mate link, with the edge. -/
inductive MateSent where
  | heartbeat (port : Nat) (role : PRole)
  | delta (item : DeltaItem)
  | decision (d : Decision)
  | confirmation (id : FrameId)
  | resyncRequest | snapshot (slot : Nat)
  | switch (t16 : Nat) | switchAck (t16 : Nat) | go | goAck
  | image (h : Nat) | imageAck (h : Nat)
  deriving DecidableEq, Repr

structure Switchover where
  /-- S, a top of a TAI second, 2^-16 ns. -/
  at_ : Nat
  acked : Bool := false
  goSent : Bool := false
  goAcked : Bool := false
  goReceived : Bool := false
  deriving DecidableEq, Repr

structure PrState where
  position : Nat := 0
  role : PRole := .negotiating
  sync : PSync := .cold
  fit : Bool := true
  /-- Fell silent until the next module reset (R421). -/
  silent : Bool := false
  /-- Start of negotiation, and what it has seen (R411). -/
  negAt : Nat := 0
  seen : Bool := false
  seenActive : Bool := false
  /-- Edge of the last heartbeat on M0 and M1, and its ingress instant. -/
  hb0 : Option Nat := none
  hb1 : Option Nat := none
  hbT16 : Nat := 0
  /-- CLASS of the neighbour's PLATFORM image (R472). -/
  neighCls : Option Nat := none
  m0Up : Bool := false
  m1Up : Bool := false
  mateLost : Bool := false
  /-- Edge of the neighbour's last beacon and the beacon. -/
  bcnAt : Option Nat := none
  neigh : Option Beacon := none
  beaconLost : Bool := false
  bcnSeq : Tbl Nat := []
  /-- Edge of the last heartbeat and beacon sent. -/
  hbSentAt : Nat := 0
  bcnSentAt : Nat := 0
  beacons : List (Nat × Beacon) := []
  cnt : Tbl Nat := []
  lastT : BitVec 128 := 0
  sw : Option Switchover := none
  deriving DecidableEq, Repr

/-- The rest of the redundancy controller. -/
structure PrRun where
  /-- Edge since which the hold-off of position A runs (R427). -/
  holdFrom : Option Nat := none
  divAt : List Nat := []
  /-- Health flags that held in the running second, those that stay set, and failed self-tests (R428, R429). -/
  flags : BitVec 32 := 0
  sticky : BitVec 32 := 0
  failed : BitVec 8 := 0
  roleAt : Nat := 0
  /-- Withheld frames in the order built (R416). -/
  held : List OutFrame := []
  /-- Identities settled before this unit built the frame, newest first. -/
  early : List (FrameId × Nat) := []
  /-- Frames settled while they were held, with the edge, so that a second settlement of one is known. -/
  done_ : List (FrameId × Nat) := []
  mine : List (Decision × Nat) := []
  theirs : List (Decision × Nat) := []
  outSeq : Nat := 0
  inSeq : Nat := 0
  out : List (Nat × MateSent) := []
  /-- Resynchronisation: request sent, snapshot slot chosen by the active unit, slot of the applied state. -/
  asked : Bool := false
  snapSlot : Option Nat := none
  since : Option Nat := none
  /-- Delta items that came before the state they follow (R426). -/
  items : List DeltaItem := []
  deriving DecidableEq, Repr

end Sys2Proof.Machine
end

