-- ==== Sys2Proof/Machine/DGreen.lean ====
section
/-! DEFINITION. Data of the green (chapter 15) and of the MACs (chapter 16). -/

namespace Sys2Proof.Machine

/-- Where a frame in the green came from. -/
inductive FSrc where
  /-- An external port 0 to 12. -/
  | ext (port : Nat)
  /-- A TX ring (64·p + r), the flight of its descriptor, and whether it asks for a stamp through the queue of R59. -/
  | ring (key flight : Nat) (tsReq : Bool)
  /-- The publisher, the frame builder or the fault-location engine. -/
  | internal (id : Option FrameId)
  deriving DecidableEq, Repr

/-- One output a frame still has to leave by. -/
structure GOut where
  port : Nat
  mark : Bool := false
  /-- Edge at which its last cell entered the output queue (R381). -/
  at_ : Nat := 0
  /-- It is being transmitted, or its transmission is suspended. -/
  going : Bool := false
  deriving DecidableEq, Repr

/-- A frame in the green with its side-band header (R359). -/
structure GFrame where
  id : Nat
  octets : Bytes
  src : FSrc
  cls : Nat
  epoch : Nat := 0
  /-- Event stamp of its reception, 2^-16 ns, and its ingress stamp (R49). -/
  evt : Int := 0
  rx : Stamp := {}
  outs : List GOut := []
  /-- Ring it is to be delivered to, by partition and number, and whether the PORT condition of R370 is waived. -/
  target : Option (Nat × Nat) := none
  waived : Bool := false
  /-- The frame is a copy made under R78. -/
  copy78 : Bool := false
  /-- EXPIRY of a TX_TS frame; 0 = none. -/
  expiry : Nat := 0
  /-- Transmit identifier of R59, taken at the first attempt. -/
  ident : Option Nat := none
  /-- Cells held of the express pool and of the shared pool (R360). -/
  xp : Nat := 0
  sp : Nat := 0
  deriving DecidableEq, Repr

/-- A Sync that left F0, F1 or S0 and whose correction waits for its Follow_Up (R372). -/
structure TcPair where
  port : Nat
  srcId : Bytes
  seq : Nat
  corr : Int
  deriving DecidableEq, Repr

structure GnState where
  frames : List GFrame := []
  nextId : Nat := 0
  epoch : Nat := 0
  /-- The inactive bank, which holds the table before the last swap, and the edge of that swap (R369). -/
  oldBank : List (Nat × BitVec 32) := []
  swapAt : Nat := 0
  cnt : Tbl Nat := []
  imbal : Bool := false
  tc : List TcPair := []
  /-- Deficits of classes 0 to 3 at the DMA output and the class whose turn it is there (R365). -/
  deficit : Tbl Nat := []
  turn : Nat := 0
  deriving DecidableEq, Repr

/-- A frame on the wire: the part of it sent, and since when (R377, R378). -/
structure TxRun where
  id : Nat
  /-- Edge at which the present fragment, or the frame, began. -/
  start : Nat
  /-- Event stamp of the frame. -/
  evt : Stamp
  /-- Octets sent in earlier fragments. -/
  sent : Nat := 0
  /-- It is in the express lane (R374). -/
  express : Bool := false
  /-- Octets of the frame with padding and FCS, and the octets that leave. -/
  total : Nat
  out : Bytes
  deriving DecidableEq, Repr

/-- What left a port. -/
inductive WireOut where
  | frame (evt : Stamp) (octets : Bytes)
  | verify | respond | jam
  deriving DecidableEq, Repr

/-- Optics of a port: the three diagnostic words and the cached pages (R387). -/
structure Optics where
  diag0 : BitVec 32 := 0
  diag1 : BitVec 32 := 0
  diag2 : BitVec 32 := 0x80
  pageA0 : Bytes := []
  pageA2 : Bytes := []
  /-- Held in low-power mode (R481). -/
  lowPower : Bool := false
  deriving DecidableEq, Repr

structure Mac where
  link : Bool := false
  speed : Nat := 0
  half : Bool := false
  /-- Edge of the loss of link while HOLDING (R382). -/
  downAt : Option Nat := none
  preempt : Bool := false
  /-- Verification attempts sent in the running verification (R377), and the edge of the last. -/
  verify : Option Nat := none
  verifyAt : Nat := 0
  /-- Edge at which a pause ends, for all classes and per class (R380). -/
  pause : Option Nat := none
  pfc : Tbl Nat := []
  tx : Option TxRun := none
  /-- A preempted frame. -/
  susp : Option TxRun := none
  /-- Half duplex: collisions of the frame being attempted, and whether it backs off (R376). -/
  tries : Nat := 0
  backoff : Option Nat := none
  /-- Deficits of classes 0 to 3 and the class whose turn it is (R365). -/
  deficit : Tbl Nat := []
  turn : Nat := 0
  optics : Optics := {}
  deriving DecidableEq, Repr

structure McState where
  macs : Tbl Mac := []
  cnt : Tbl Nat := []
  /-- What left the ports: port, edge and content. -/
  wire : List (Nat × Nat × WireOut) := []
  deriving DecidableEq, Repr

/-- Faults of a received frame that the MAC finds itself (R375, R378), and the edges from its event stamp to its last
bit. -/
structure RxFlags where
  codeErr : Bool := false
  fcsErr : Bool := false
  fragErr : Bool := false
  /-- Its first fragment carried a preemptable SMD. -/
  smd : Bool := false
  since : Nat := 0
  deriving DecidableEq, Repr

/-- Preemption verification frames of the link partner (R377). -/
inductive VerifyKind where
  | verify | response
  deriving DecidableEq, Repr

end Sys2Proof.Machine
end

