-- ==== Sys2Proof/Config.lean ====
section
/-! DEFINITION. What the spec leaves open and the machine needs: every constant here is OPAQUE (no body), so nothing can
be proved about its value and a statement holds for every value of it.  Each is named in the assumption log. -/

namespace Sys2Proof.Config

/-- A fresh free value for each draw (the n-th draw of the orchard's noise source, R391, R392): log 2. -/
opaque noise : Nat → Nat
/-- The PUF key K_PUF rebuilt at unseal (R391): log 2. -/
opaque kPuf : List (BitVec 8)
/-- Whether K_PUF cannot be rebuilt at an unseal (R391), applied to a draw: log 2. -/
opaque pufFails : Nat → Bool
/-- Whether PD0 lost the supercapacitor and the cell since the module entered OFF (R457), applied to a draw: log 60. -/
opaque cellLost : Nat → Bool
/-- The module's serial held in OTP fuses (R392): log 2. -/
opaque serial : BitVec 64
/-- SHA-384 of the Marfoda key held in the boot ROM (R468): log 2. -/
opaque marfodaHash : List (BitVec 8)

/-- Factory rate of the reference in use, in 2^-12 ppb; true for the OCXO (R35, R53): log 3. -/
opaque factoryRate : Bool → Int

/-- Half-band coefficient of response `code` at the odd offset `j ≥ 3` from the centre, Q0.23 (R117: the exact
coefficients are those read through FC_ROM_DATA and are not in the manual): log 4. -/
opaque halfBand (code j : Nat) : Int

/-- Payload and sign bits of a NaN result of a REAL operation (R222, R225 give no NaN encoding): log 5. -/
opaque nanBits : BitVec 32

/-- The words that FB_PEEK returns for the state words of a block instance (R217 gives their number and not their
encoding): hearth, word index, draw: log 6. -/
opaque stateWord : Nat → Nat → Nat → BitVec 32
/-- What a block instance's state becomes when FB_POKE writes its state words: instance word, data, draw: log 6. -/
opaque pokedState : Nat → BitVec 32 → Nat → Int

/-- Cryptographic functions that the manual names by external standard: log 7. -/
opaque hmacSha256 (key msg : List (BitVec 8)) : Fin 32 → BitVec 8
opaque gmacTag (key iv aad : List (BitVec 8)) : Fin 16 → BitVec 8
opaque gcmCipher (key iv plain : List (BitVec 8)) : Nat → BitVec 8
opaque gcmTag (key iv aad cipher : List (BitVec 8)) : Fin 16 → BitVec 8
opaque gcmPlain (key iv cipher : List (BitVec 8)) : Nat → BitVec 8
opaque ecdsaSign (key digest : List (BitVec 8)) : Fin 96 → BitVec 8
opaque ecdsaPublic (key : List (BitVec 8)) : Fin 97 → BitVec 8
opaque ecdsaVerify (pub digest sig : List (BitVec 8)) : Bool
opaque sha384 (msg : List (BitVec 8)) : Fin 48 → BitVec 8
/-- The order n of the curve P-384 (R396): log 7. -/
opaque p384Order : Nat

/-- Fields of the authentication extension of IEC 62351-6:2020 (its octets are not in the manual): the MAC algorithm
code of R75, the key identifier, the MAC value and the length of the octets it covers; none when it is missing or is a
digital signature: log 8. -/
opaque authExtension (octets : List (BitVec 8)) : Option (Nat × BitVec 32 × List (BitVec 8) × Nat)
/-- Octets of the extension of a signed frame before and after its MAC value, from algorithm and key identifier: log 8. -/
opaque authHead (alg : Nat) (keyId : BitVec 32) : List (BitVec 8)
opaque authTail (alg : Nat) (keyId : BitVec 32) : List (BitVec 8)
/-- Reserved 2 of a signed frame (IEC 62351-6:2020 forms it): log 8. -/
opaque authReserved2 (extLen : Nat) : BitVec 16

/-- Initialisation vector of AES-GMAC in the authentication extension (IEC 62351-6:2020 forms it): log 8. -/
opaque authIv (octets : List (BitVec 8)) : List (BitVec 8)

/-- Result bits of an operation whose value the manual does not state (log 9): a draw number and an operand tag. -/
opaque free32 : Nat → Nat → BitVec 32
opaque freeNat : Nat → Nat → Nat

/-- Entries of a configuration bundle's payload, set-up offset and word in order; none when it cannot be read (the chapters give
the bundle no format): log 33. -/
opaque bundleEntries (payload : List (BitVec 8)) : Option (List (Nat × BitVec 32))

end Sys2Proof.Config
end

