-- ==== Sys2Proof/Machine/Float.lean ====
section
/-! DEFINITION. IEEE 754 binary32 and binary64 with rounding to nearest, ties to even (R225): exact results rounded once.
A finite value is an integer multiple of the format's smallest subnormal. The bits of a NaN are open (log 5). -/

namespace Sys2Proof.Machine

structure Fmt where
  /-- Bits of the significand with its leading 1, exponent bits, and −log2 of the smallest subnormal. -/
  p : Nat
  eb : Nat
  q : Nat
  deriving DecidableEq, Repr
def f32 : Fmt := ⟨24, 8, 149⟩
def f64 : Fmt := ⟨53, 11, 1074⟩

/-- A value: a finite one is ± mag · 2^−q. -/
inductive FV where
  | nan
  | inf (neg : Bool)
  | fin (neg : Bool) (mag : Nat)
  deriving DecidableEq, Repr

def FV.zero : FV := .fin false 0
def FV.finite : FV → Bool
  | .fin _ _ => true
  | _ => false

/-- ± num / den rounded to the format. -/
def FV.round (f : Fmt) (neg : Bool) (num den : Nat) : FV :=
  if den = 0 then .nan
  else
    let a := num * 2 ^ f.q
    let l := Nat.log2 (a / den)
    let sh := l + 1 - f.p
    let m := (roundEven (Int.ofNat a) (den * 2 ^ sh)).toNat * 2 ^ sh
    if m ≥ 2 ^ (2 ^ (f.eb - 1) + f.q) then .inf neg else .fin neg m

def FV.ofInt (f : Fmt) (i : Int) : FV := FV.round f (decide (i < 0)) i.natAbs 1
/-- A fixed-point real of Machine/Real as a value. -/
def FV.ofFx (f : Fmt) (x : Int) : FV := FV.round f (decide (x < 0)) x.natAbs (2 ^ 96)
def FV.ofRat (f : Fmt) (num : Int) (den : Nat) : FV := FV.round f (decide (num < 0)) num.natAbs den

/-- Signed integer numerator over 2^q; 0 for what is not finite. -/
def FV.num : FV → Int
  | .fin neg m => if neg then -(Int.ofNat m) else Int.ofNat m
  | _ => 0
/-- A finite value as a fixed-point real. -/
def FV.fx (f : Fmt) (x : FV) : Int := x.num * 2 ^ 96 / 2 ^ f.q

def FV.isNeg : FV → Bool
  | .nan => false
  | .inf n => n
  | .fin n _ => n
def FV.neg : FV → FV
  | .nan => .nan
  | .inf n => .inf (!n)
  | .fin n m => .fin (!n) m
def FV.abs : FV → FV
  | .nan => .nan
  | .inf _ => .inf false
  | .fin _ m => .fin false m

def FV.add (f : Fmt) : FV → FV → FV
  | .nan, _ => .nan
  | _, .nan => .nan
  | .inf a, .inf b => if a = b then .inf a else .nan
  | .inf a, _ => .inf a
  | _, .inf b => .inf b
  | .fin a m, .fin b n =>
    let t := (FV.fin a m).num + (FV.fin b n).num
    if t = 0 then .fin (a && b) 0 else FV.round f (decide (t < 0)) t.natAbs (2 ^ f.q)
def FV.sub (f : Fmt) (x y : FV) : FV := FV.add f x y.neg
def FV.mul (f : Fmt) : FV → FV → FV
  | .nan, _ => .nan
  | _, .nan => .nan
  | .inf a, .inf b => .inf (a != b)
  | .inf a, .fin b n => if n = 0 then .nan else .inf (a != b)
  | .fin a m, .inf b => if m = 0 then .nan else .inf (a != b)
  | .fin a m, .fin b n => FV.round f (a != b) (m * n) (2 ^ (2 * f.q))
def FV.div (f : Fmt) : FV → FV → FV
  | .nan, _ => .nan
  | _, .nan => .nan
  | .inf _, .inf _ => .nan
  | .inf a, .fin b _ => .inf (a != b)
  | .fin a _, .inf b => .fin (a != b) 0
  | .fin a m, .fin b n => if n = 0 then (if m = 0 then .nan else .inf (a != b)) else FV.round f (a != b) m n
/-- Square root, correctly rounded: 64 further bits and a sticky bit stand before the rounding. -/
def FV.sqrt (f : Fmt) : FV → FV
  | .nan => .nan
  | .inf n => if n then .nan else .inf false
  | .fin n m =>
    if m = 0 then .fin n 0
    else if n then .nan
    else
      let a := m * 2 ^ (f.q + 128)
      let r := isqrt a
      FV.round f false (2 * r + (if r * r = a then 0 else 1)) (2 ^ (f.q + 65))

/-- Ordered comparisons; NaN gives false (R224). -/
def FV.lt : FV → FV → Bool
  | .nan, _ => false
  | _, .nan => false
  | .inf a, .inf b => a && !b
  | .inf a, _ => a
  | _, .inf b => !b
  | x, y => x.num < y.num
def FV.eq : FV → FV → Bool
  | .nan, _ => false
  | _, .nan => false
  | .inf a, .inf b => a == b
  | .inf _, _ => false
  | _, .inf _ => false
  | x, y => x.num == y.num
def FV.le (x y : FV) : Bool := FV.lt x y || FV.eq x y

/-- Bits of a value; the NaN is open (log 5). -/
def FV.bits (f : Fmt) : FV → Nat
  | .nan => 0
  | .inf n => (if n then 2 ^ (f.p + f.eb - 1) else 0) + (2 ^ f.eb - 1) * 2 ^ (f.p - 1)
  | .fin n m =>
    let l := Nat.log2 m
    let sh := l + 1 - f.p
    (if n then 2 ^ (f.p + f.eb - 1) else 0) + sh * 2 ^ (f.p - 1) + m / 2 ^ sh
def FV.ofBits (f : Fmt) (x : Nat) : FV :=
  let neg := x / 2 ^ (f.p + f.eb - 1) % 2 = 1
  let e := x / 2 ^ (f.p - 1) % 2 ^ f.eb
  let m := x % 2 ^ (f.p - 1)
  if e = 2 ^ f.eb - 1 then (if m = 0 then .inf neg else .nan)
  else if e = 0 then .fin neg m
  else .fin neg ((2 ^ (f.p - 1) + m) * 2 ^ (e - 1))

/-- A REAL word (binary32). -/
def real (w : BitVec 32) : FV := FV.ofBits f32 w.toNat
/-- The NaN that a REAL result is: exponent all ones and a fraction that is not 0, otherwise open (log 5). -/
def nanWord : BitVec 32 :=
  BitVec.ofNat 32 (Config.nanBits.toNat / 0x80000000 * 0x80000000 + 0x7F800001 + Config.nanBits.toNat % 0x7FFFFF)
def FV.word : FV → BitVec 32
  | .nan => nanWord
  | x => BitVec.ofNat 32 (x.bits f32)
/-- A binary32 value in binary64 and back. -/
def FV.widen : FV → FV
  | .fin n m => .fin n (m * 2 ^ 925)
  | x => x
def FV.narrow : FV → FV
  | .fin n m => FV.round f32 n m (2 ^ 1074)
  | x => x
/-- Nearest integer, ties to even, saturated to 32 bits (R224, FTOI); none for a NaN. -/
def FV.toI32 : FV → Option Int
  | .nan => none
  | .inf n => some (if n then -(2 ^ 31) else 2 ^ 31 - 1)
  | .fin n m => some (satN 32 (roundEven (FV.fin n m).num (2 ^ 149)))

def fxWord (x : Int) : BitVec 32 := (FV.ofFx f32 x).word
def realFx (w : BitVec 32) : Int := (real w).fx f32

end Sys2Proof.Machine
end

