-- ==== Sys2Proof/Machine/DAcq.lean ====
section
/-! DEFINITION. Data of the acquisition slices: ingest streams, points and surge samples (chapter 03), filter chains
(chapter 04), trigger units (chapter 05). -/

namespace Sys2Proof.Machine

/-- A value and its quality word of R95. -/
structure Smp where
  v : Int := 0
  q : BitVec 32 := 1
  deriving DecidableEq, Repr

/-- Stream states (R98). -/
inductive StreamSt where
  | idle | waiting | running | lost
  deriving DecidableEq, Repr

/-- The samples of one ASDU, placed for the absolute sample number `a` (R93). -/
structure Placed where
  a : Nat
  asdu : Nat
  vals : List Smp
  deriving DecidableEq, Repr

/-- One surge sample instant of a unit: channel, count, quality, SCALE (R104, R105). -/
structure SurgePt where
  /-- 2^-16 ns. -/
  t16 : Nat
  q : BitVec 16
  per : Nat
  vals : List (Nat × Int × BitVec 32 × BitVec 32)
  deriving DecidableEq, Repr

/-- A change of points that takes effect in the snapshot of slot `eff` and later (R102). -/
structure PointSet where
  eff : Nat
  pts : List (Nat × BitVec 32 × BitVec 32)
  deriving DecidableEq, Repr

/-- Runtime of one stream-table entry. -/
structure StreamRt where
  st : StreamSt := .idle
  /-- Key slot B is current, and the instant to which the other slot is accepted (R85), 2^-16 ns. -/
  keyB : Bool := false
  prevEnd : Option Nat := none
  /-- Simulated operation (R87). -/
  sim : Bool := false
  /-- SV: absolute sample number of the last placed sample (R94); Griuz: instant after the last placed sample. -/
  last : Option Nat := none
  pend : List Placed := []
  surge : List SurgePt := []
  /-- Last Griuz SEQ (R107), and the instant at which the next closed surge sample is expected. -/
  seq : Option Nat := none
  expect : Option Nat := none
  /-- Sample period of the latest surge frame, ns. -/
  sper : Nat := 500
  /-- SV: the last values by ASDU and the missing instants held so far (R96). -/
  vals : Tbl (List Smp) := []
  held : Tbl Nat := []
  /-- Consecutive missing slots (R97). -/
  miss : Nat := 0
  /-- GOOSE: last accepted stNum and sqNum, member values held, layout under the current CONF_REV, t, expiry (R101, R102). -/
  stNum : Nat := 0
  sqNum : Nat := 0
  goose : List (BitVec 32 × BitVec 32) := []
  layout : Option (List Nat) := none
  goT : List (BitVec 8) := []
  expiry : Nat := 0
  pts : List PointSet := []
  /-- TAI second of the last AUTH_FAIL event (R86). -/
  failSec : Option Nat := none
  deriving DecidableEq, Repr

/-- Settings and runtime an entry had before a change at the edge of slot `until_`: its slots before that edge close
under them (R98, R129). -/
structure OldStream where
  entry : Nat
  until_ : Nat
  words : List (BitVec 32)
  rt : StreamRt
  deriving DecidableEq, Repr

/-- One source of a port pair's duplicate record (R83). -/
structure DupSrc where
  mac : Nat
  hi : Nat
  /-- Sequence numbers of the window that were accepted, that were forwarded, and the module's own. -/
  seen : List Nat := []
  fwd : List Nat := []
  own : List Nat := []
  /-- Edge of the last use. -/
  last : Nat := 0
  deriving DecidableEq, Repr

structure IgState where
  streams : Tbl StreamRt := []
  olds : List OldStream := []
  /-- Per-stream counters by 16·entry + index, and the other counters by set-up offset (R108, R494). -/
  cnt : Tbl Nat := []
  other : Tbl Nat := []
  dup : Tbl (List DupSrc) := []
  /-- Points of the snapshot of each croft's latest closed slot, by 6144·croft + point (R102, R495). -/
  points : Tbl (BitVec 32 × BitVec 32) := []
  /-- Open slots of each croft, rising, and a change of its bell lag: edge of the change and the old lag (R24, R64). -/
  opens : Tbl (List Nat) := []
  lagOld : Tbl (Nat × Nat) := []
  /-- The latest closed slot of each croft. -/
  closed : Tbl Nat := []
  /-- QUALITY at the latest slot edges, newest first (R25). -/
  edges : List (Nat × BitVec 16) := []
  deriving DecidableEq, Repr

/-- An output of a chain (R115, R116). -/
structure COut where
  v : Int := 0
  q : BitVec 32 := 1
  t16 : Nat := 0
  tq : BitVec 16 := 0
  seq : Nat := 0
  settled : Bool := false
  /-- Instant of the sample that completed it. -/
  at_ : Nat := 0
  /-- Slot at whose close it was made, and the edge of that bell as an absolute slot number. -/
  slot : Nat := 0
  bell : Nat := 0
  /-- Number of its history. -/
  hist : Nat := 0
  deriving DecidableEq, Repr

/-- One chain (R110 to R132). -/
structure ChainRt where
  /-- Number of the history, and input samples taken in since it started. -/
  hist : Nat := 0
  taken : Nat := 0
  settled : Bool := false
  /-- Delay line of each stage, newest first. -/
  lines : List (List Int) := []
  /-- Quality and saturation of the inputs in the span, newest first. -/
  span : List (BitVec 32 × Bool) := []
  /-- Outputs since history started; the latest output, kept over a restart (R116). -/
  outs : Nat := 0
  last : Option COut := none
  /-- The latest outputs, newest first, at most 16 (R220). -/
  recent : List COut := []
  above : Bool := false
  thSet : Bool := false
  thQ : BitVec 32 := 0
  satCnt : Nat := 0
  /-- Settings before a committed change: slots below the number use them (R129), and whether the change restarts. -/
  olds : List (Nat × List (BitVec 32)) := []
  /-- First slots of samples that start a history anew (R130, R132). -/
  restart : List Nat := []
  deriving DecidableEq, Repr

/-- Trigger unit of a surge channel (R138). -/
structure SurgeTrig where
  above : Bool := false
  armed : Bool := false
  prev : Option Int := none
  deriving DecidableEq, Repr

/-- A trigger: instant, quality of its time word, unit (channel-equivalent or surge channel), edge, INTERP_NONE, and the
instant of the sample that carries it. -/
structure Trig where
  t16 : Nat
  tq : BitVec 16
  unit : Nat
  rise : Bool
  noInterp : Bool := false
  at_ : Nat
  /-- The output v1 that raised it: value, quality word, instant (R128). -/
  v : Int := 0
  vq : BitVec 32 := 0
  vt : Nat := 0
  deriving DecidableEq, Repr

/-- Runtime of a combined trigger (R141). -/
structure CtRt where
  /-- COIN: recorded instant by member. -/
  marks : Tbl Nat := []
  /-- SEQ: step and the previous step's instant. -/
  step : Nat := 0
  prev : Nat := 0
  /-- Firing instants of the latest 3 s, newest first, for R178. -/
  fired : List Nat := []
  deriving DecidableEq, Repr

structure FcState where
  /-- Chains by 2048·croft + channel-equivalent. -/
  chains : Tbl ChainRt := []
  winIgn : Tbl Nat := []
  deriving DecidableEq, Repr

/-- Segment states (R147). -/
inductive SegSt where
  | free | filling | held
  deriving DecidableEq, Repr

/-- States of a capture unit. -/
inductive CapSt where
  | idle | armed | post | closing | waitSeg
  deriving DecidableEq, Repr

/-- A record kept in the segment: its number, time word, and the SCALE words of a surge record, as far as a sample of each channel has
brought one. -/
structure CapMark where
  n : Nat
  t : Stamp
  scales : List (Option (BitVec 32)) := []
  deriving DecidableEq, Repr

/-- What a unit takes in processing order (R152): a record sample or a trigger. A missing surge sample carries no SCALE. -/
inductive CapItem where
  | smp (t : Stamp) (vals : List (Int × BitVec 32)) (scales : List (Option (BitVec 32)))
  | trg (t : Stamp) (flags : BitVec 32)
  deriving DecidableEq, Repr

/-- One capture unit (R143 to R157). -/
structure CapUnit where
  st : CapSt := .idle
  /-- Profile copied at arming with overrides applied, and its channel list. -/
  prof : List (BitVec 32) := []
  pre : Nat := 0
  post : Nat := 0
  list : List (BitVec 32) := []
  rate : Nat := 0
  /-- Captures still to make; none = until aborted. -/
  left : Option Nat := none
  ring : Nat := 0
  flight : Nat := 0
  seg : Nat := 0
  segs : Tbl SegSt := []
  /-- Records written into the segment since arming; the slot of the newest record is `taken − 1` mod C. -/
  taken : Nat := 0
  /-- The records kept, newest first. -/
  marks : List CapMark := []
  trig : Option Stamp := none
  /-- Record number of the trigger sample. -/
  trigRec : Option Nat := none
  flags : BitVec 32 := 0
  /-- Number of the latest record whose SCALE differs from its predecessor's. -/
  scaleAt : Option Nat := none
  trigScales : List (BitVec 32) := []
  dead : Nat := 0
  missed : Nat := 0
  inPost : Nat := 0
  serial : Nat := 0
  /-- Edge of the last completion while the unit waits for a segment (R154). -/
  deadFrom : Option Nat := none
  /-- Samples and triggers delivered after the last post record and before its completion. -/
  todo : List CapItem := []
  /-- Binary entries by slot, newest first. -/
  bins : List (Nat × List Bool) := []
  /-- First slot under settings that end the service (R157). -/
  cut : Option Nat := none
  deriving DecidableEq, Repr

structure TgState where
  surge : Tbl SurgeTrig := []
  /-- Combined triggers by 16·croft + number. -/
  cts : Tbl CtRt := []
  caps : Tbl CapUnit := []
  deriving DecidableEq, Repr

end Sys2Proof.Machine
end

