-- ==== Sys2Proof/Machine/DEng.lean ====
section
/-! DEFINITION. Data of the phasor engine (chapter 06), fault location (07), the function-block engine (08), the publisher
(09), regulation loops and gate-command lanes (10). -/

namespace Sys2Proof.Machine

/-! Phasors. -/

/-- A reference phasor at a base instant (R172). -/
structure RefPh where
  slot : Nat
  y : Cx
  q : BitVec 32
  settled : Bool
  deriving DecidableEq, Repr

/-- A phasor of a report: channel-equivalent, parts as binary32, quality. -/
structure PhVal where
  ce : Nat
  re : BitVec 32
  im : BitVec 32
  q : BitVec 32
  settled : Bool
  deriving DecidableEq, Repr

/-- What a base instant's slot edge leaves for its report and its frames (R178, R186, R187): QUALITY, TB_UTC, the code of the time
since LOCKED, and whether UTC_OFFSET changed within the last 86,400 s. -/
structure PhEdge where
  slot : Nat
  q : BitVec 16
  utc : BitVec 32
  age : Nat
  leapDone : Bool
  deriving DecidableEq, Repr

/-- A report (R178) with the slot edge at which it was written. -/
structure PhRep where
  slot : Nat
  edge : PhEdge
  freq : BitVec 32
  rocof : BitVec 32
  fq : BitVec 32
  flags : BitVec 32
  phs : List PhVal
  /-- Slot edge of the close it follows (R171). -/
  close : Nat
  deriving DecidableEq, Repr

structure PhRt where
  active : Bool := false
  /-- Start of the group's history, 2^-16 ns; first slot not skipped by a step (R180, R181). -/
  hist0 : Nat := 0
  seq : Nat := 0
  /-- SEQ of the last report (R166). -/
  last : Nat := 0
  /-- Next base instant, as a slot. -/
  next : Nat := 0
  refs : List RefPh := []
  /-- Outputs of each covered channel, newest first. -/
  outs : Tbl (List COut) := []
  reps : List PhRep := []
  phSettled : Bool := false
  fqSettled : Bool := false
  oob : Bool := false
  deriving DecidableEq, Repr

/-- One wire stream (R183 to R189). -/
structure PwsRt where
  running : Bool := false
  mark : Bool := false
  cfg : Bytes := []
  map : List (BitVec 32) := []
  hdr : Bytes := []
  port : Nat := 0
  /-- Next reporting instant to build, as a slot. -/
  next : Nat := 0
  /-- Last reporting instant of a stopped stream that is still to be built. -/
  until_ : Nat := 0
  /-- Digital words by reporting slot and block (R185). -/
  digs : List (Nat × Nat × List (BitVec 16)) := []
  frames : Nat := 0
  supp : Nat := 0
  deriving DecidableEq, Repr

structure PhState where
  groups : Tbl PhRt := []
  ws : Tbl PwsRt := []
  /-- What the slot edges of the latest base instants left, newest first (R178, R186, R187). -/
  edges : List PhEdge := []
  deriving DecidableEq, Repr

/-! Fault location. -/

/-- Result of a method (R208): distance and τ with 96 fraction bits, where the rules state one. -/
structure FlRes where
  status : Nat
  flags : BitVec 16 := 0
  dist : Option Int := none
  alt : Int := 0
  tau : Option Int := none
  deriving DecidableEq, Repr

/-- Detector of one signal (R195, R196). -/
structure SigDet where
  /-- First differences, newest first, at most 12. -/
  d : List Int := []
  /-- Their squares, newest first, at most 1,040; the sum over places 16 to 1,039, and the sum in force. -/
  dq : List Int := []
  sum : Int := 0
  sig : Int := 0
  /-- Samples since a detection whose lookahead is not complete, and samples not examined. -/
  cand : Option Nat := none
  skip : Nat := 0
  deriving DecidableEq, Repr

/-- One sample of a line's three signals. -/
structure LineSmp where
  t16 : Nat
  tq : BitVec 16
  per : Nat
  y : List Int
  q : List (BitVec 32)
  deriving DecidableEq, Repr

inductive LineSt where
  | quiet | open_ | closing
  deriving DecidableEq, Repr

/-- A message being repeated (R200): its octets without trailer and with SEQ 0. -/
structure FlSend where
  octets : Bytes
  left : Nat
  /-- Instant of the next copy. -/
  next : Nat
  phasors : Bool
  evSeq : Nat
  copy : Nat := 0
  deriving DecidableEq, Repr

/-- A message that an event still owes when it closes (R200). -/
structure FlOwed where
  phasors : Bool
  evSeq : Nat
  /-- t1 + 2T + 10 µs, 2^-16 ns. -/
  stop : Nat := 0
  arrs : List Arr := []
  fault : Option FaultPh := none
  deriving DecidableEq, Repr

structure LineRt where
  st : LineSt := .quiet
  evSeq : Nat := 0
  /-- t1, and the first 16 arrivals of the event in order of instant (R199). -/
  t1 : Option Arr := none
  arrs : List Arr := []
  ovf : Bool := false
  /-- Instant of the last closing bell edge. -/
  closedAt : Nat := 0
  /-- Remote messages matched to the open event, and messages held (R202). -/
  remote : Option ArrMsg := none
  remotePh : Option ArrMsg := none
  held : List ArrMsg := []
  taken : List (Bool × Nat) := []
  /-- EVENT_SEQ of the remote messages matched to the open event (R202). -/
  matched : List Nat := []
  /-- The event is being closed by a committed change or a step (R209). -/
  cut : Bool := false
  tRef : Option Nat := none
  fault : Option FaultPh := none
  /-- By method: 1 DE_TW, 2 SE_TW, 3 DE_IMP, 4 SE_IMP. -/
  res : Tbl (Option FlRes) := []
  arrSent : Bool := false
  phSent : Bool := false
  sends : List FlSend := []
  owed : List FlOwed := []
  /-- Detector: consecutive valid samples up to 1,024, recent samples newest first, the three signals. -/
  valid : Nat := 0
  armed : Bool := false
  recent : List LineSmp := []
  sigs : List SigDet := [{}, {}, {}]
  deriving DecidableEq, Repr

structure FlState where
  lines : Tbl LineRt := []
  cnt : Tbl Nat := []
  /-- SEQ of the next Griuz frame that the module sends (R104, R201). -/
  seq : Nat := 0
  deriving DecidableEq, Repr

/-! Function-block engine. -/

/-- One block instance of an image (R217), by word indices of instance data. -/
structure FbInst where
  hdr : Nat
  id : Nat
  typ : Nat
  nocarry : Bool := false
  rebase : Bool := false
  inAt : Nat := 0
  nin : Nat := 0
  /-- First output value word. -/
  out : Nat := 0
  nout : Nat := 1
  parAt : Nat := 0
  npar : Nat := 0
  stAt : Nat := 0
  stN : Nat := 0
  codeAt : Nat := 0
  /-- Bytes of EXPR bytecode. -/
  codeN : Nat := 0
  deriving DecidableEq, Repr

/-- A loaded program (R215). -/
structure FbProg where
  prot : Bool
  cycle : Nat
  pid : BitVec 32
  rev : BitVec 32
  insts : List FbInst
  outMap : List Nat
  idata : List (BitVec 32)
  cyc : Nat
  deriving DecidableEq, Repr

/-- State of an instance, whatever its type uses of it: elapsed slots or count, flags, previous inputs, taken values, a
binary64 accumulator (R226 to R230). -/
structure FbSt where
  started : Bool := false
  e : Int := 0
  e2 : Int := 0
  f : Bool := false
  g : Bool := false
  prev : List (BitVec 32) := []
  hist : List Int := []
  hq : List (BitVec 32) := []
  acc : FV := .fin false 0
  deriving DecidableEq, Repr

inductive FbMode where
  | none | run | stop | hold
  deriving DecidableEq, Repr

inductive FbCmdKind where
  | run | stop | hold | step | testOn | testOff
  deriving DecidableEq, Repr

/-- A command waiting for the first cycle that begins after its fetch (R232). -/
structure FbCmd where
  kind : FbCmdKind
  key : Nat
  flight : Nat
  /-- First slot that begins after the fetch. -/
  slot : Nat
  deriving DecidableEq, Repr

/-- Output set on its way to the publisher, or handed off. -/
structure HandSet where
  /-- Bell edge of the scan, as an absolute slot number, and the first slot of the cycle. -/
  bell : Nat
  cycle : Nat
  /-- Slots of the cycle. -/
  n : Nat
  q : BitVec 16
  outs : List (Nat × BitVec 32 × BitVec 32)
  /-- A scan made it (it releases HANDOFF tasks and makes a decision record). -/
  scan : Bool
  deriving DecidableEq, Repr

structure FbForce where
  target : BitVec 32
  value : BitVec 32
  /-- Edge of the fetch. -/
  at_ : Nat
  deriving DecidableEq, Repr

/-- A load whose copy has not completed (R221). -/
structure FbLoad where
  bank : Nat
  prog : FbProg
  key : Nat
  flight : Nat
  /-- The standby has acknowledged the image, or none has to (R414). -/
  acked : Bool
  deriving DecidableEq, Repr

structure FbRt where
  mode : FbMode := .none
  test : Bool := false
  bank0 : Option FbProg := none
  bank1 : Option FbProg := none
  /-- The bank that runs. -/
  act : Nat := 0
  /-- Instance data of the running program; the words of its instances' states stand in `sts`, by place in program order. -/
  words : List (BitVec 32) := []
  sts : Tbl FbSt := []
  first : Bool := true
  scans : Nat := 0
  forces : List FbForce := []
  carried : Nat := 0
  fresh : Nat := 0
  cmds : List FbCmd := []
  /-- Exchange committed at the edge of a slot, not yet applied (R237). -/
  xchg : Option Nat := none
  /-- First slot that a cycle of the running program may begin at. -/
  from_ : Nat := 0
  loads : List FbLoad := []
  /-- Points of the old map to be handed off once more, with their last values (R240). -/
  dropped : List (Nat × BitVec 32) := []
  /-- The output set last formed. -/
  last : List (Nat × BitVec 32 × BitVec 32) := []
  handing : Option HandSet := none
  deriving DecidableEq, Repr

structure FbState where
  fbes : Tbl FbRt := []
  deriving DecidableEq, Repr

/-! Publisher. -/

/-- A held output point (R243). -/
structure HeldPt where
  v : BitVec 32 := 0
  q : BitVec 32 := 0x81
  t : Stamp := {}
  /-- Hand-off time word at which the value or the quality last changed (R248); none since the hearth's history started. -/
  chg : Option Stamp := none
  deriving DecidableEq, Repr

structure GcbRt where
  /-- Copied at the commit (R245). -/
  hdr : Bytes := []
  ident : Bytes := []
  map : List (BitVec 32) := []
  started : Bool := false
  /-- The next evaluation starts the history (R251). -/
  fresh : Bool := false
  stNum : Nat := 0
  sqNum : Nat := 0
  t : Stamp := {}
  vals : List (BitVec 32 × BitVec 32) := []
  /-- For each value member of the state, the hand-off time word at which it last changed (R248). -/
  chg : List (Option Stamp) := []
  sim : Bool := false
  /-- Next interval, µs, and the instant of the next retransmission. -/
  d : Nat := 0
  due : Option Nat := none
  /-- What the active unit last released, as the state delta told it (R257). -/
  rel : Option GcbRel := none
  failSec : Option Nat := none
  built : Nat := 0
  states : Nat := 0
  keyFail : Nat := 0
  deriving DecidableEq, Repr

structure DsvRt where
  hdr : Bytes := []
  ident : Bytes := []
  map : List (BitVec 32) := []
  /-- Samples taken for the frame being filled: absolute sample number, smpSynch, channel values. -/
  acc : List (Nat × Nat × List (BitVec 32 × BitVec 32)) := []
  failSec : Option Nat := none
  built : Nat := 0
  keyFail : Nat := 0
  deriving DecidableEq, Repr

structure PbState where
  gcbs : Tbl GcbRt := []
  dsvs : Tbl DsvRt := []
  /-- Held points by 1,024·hearth + point. -/
  pts : Tbl HeldPt := []
  /-- Latest hand-offs of each hearth, newest first (R267). -/
  sets : Tbl (List HandSet) := []
  /-- Hearths that handed off at the present bell edge, by croft: the bell and the hearths. -/
  gave : Tbl (Nat × List Nat) := []
  /-- Next PRP or HSR sequence number of each port pair (R254). -/
  pairSeq : Tbl Nat := []
  deriving DecidableEq, Repr

/-! Regulation. -/

/-- A loop result or a miss waiting for its release (R265, R269). -/
structure LoopRes where
  slot : Nat
  y : Int
  q : BitVec 32
  deriving DecidableEq, Repr

structure LoopRt where
  /-- The first slot computed since the history's start (R35, R270). -/
  first : Option Nat := none
  e : List Int := []
  u : List Int := []
  results : List LoopRes := []
  /-- Next computation slot to release. -/
  next : Nat := 0
  out : Int := 0
  /-- Set-point buffer and the latest releases, newest first: instant, output, quality (R267, R271). -/
  buf : Smp := { v := 0, q := 0x81 }
  rel : List (Nat × Int × BitVec 32) := []
  missed : Bool := false
  limit : Bool := false
  reason : Nat := 0
  run : Nat := 0
  missCnt : Nat := 0
  satCnt : Nat := 0
  /-- A reason seen for a slot that has not been released: slot and reason. -/
  why : List (Nat × Nat) := []
  /-- The history restarts at the next computation slot (R269, R270). -/
  again : Bool := false
  /-- The present run of misses has restarted the history (R269). -/
  limited : Bool := false
  /-- Settings before a commit, for computation slots before its edge. -/
  olds : List (Nat × List (BitVec 32)) := []
  deriving DecidableEq, Repr

/-- How a lane's outputs follow the release gates: with them, dark until the next reload (R422, R423), or lit until the next reload
of a unit that has handed over (R427). -/
inductive LaneGate where
  | follow | dark | lit
  deriving DecidableEq, Repr

/-- Runtime of one lane; instants and widths in units of 0.5 ns of network time (R274). -/
structure LaneRt where
  running : Bool := false
  start : Nat := 0
  period : Nat := 0
  wp : Nat := 0
  ws : Nat := 0
  /-- The primary or the secondary pulse is omitted in this period. -/
  pOff : Bool := false
  sOff : Bool := false
  /-- Command in force, and later ones with their release instants, newest first. -/
  raw : Int := 0
  cmds : List (Int × Nat) := []
  /-- Dark after the present period (R278). -/
  ending : Bool := false
  lateFlag : Bool := false
  cut : Bool := false
  force : Nat := 0
  /-- The pattern resumes at the next reload after a release (R281). -/
  wait : Bool := false
  gate : LaneGate := .follow
  cnt : Tbl Nat := []
  presc : Tbl Nat := []
  deriving DecidableEq, Repr

/-- A force waiting for its slot edge (R281). -/
structure GlGo where
  part : Nat
  slot : Nat
  /-- Lane and value. -/
  vals : List (Nat × Nat)
  deriving DecidableEq, Repr

structure LpState where
  loops : Tbl LoopRt := []
  lanes : Tbl LaneRt := []
  gos : List GlGo := []
  forceIgn : Nat := 0
  /-- Level of each block input after its filter; high where nothing has driven it (R485). -/
  pins : Tbl Bool := []
  deriving DecidableEq, Repr

end Sys2Proof.Machine
end

