-- ==== Sys2Proof/Machine/DSnap.lean ====
section
/-! DEFINITION. The state that resynchronisation carries (R426). -/

namespace Sys2Proof.Machine

/-- The active unit's state at a snapshot edge. -/
structure Snap where
  slot : Nat
  /-- Sequence number of the first delta item that follows it. -/
  seq : Nat := 0
  regs : Tbl (BitVec 32) := []
  ig : IgState := {}
  fc : FcState := {}
  ph : PhState := {}
  fl : FlState := {}
  fb : FbState := {}
  pb : PbState := {}
  lp : LpState := {}
  tx : TxState := {}
  journal : List KeyPend := []
  deriving DecidableEq, Repr

end Sys2Proof.Machine
end

