-- ==== Sys2Proof/Syntax.lean ====
section
/-! DEFINITION. The commands of the PN-840: one constructor for each row of the table of operations and events. An operand
`t` is the counter-clock edge at which a command from outside reaches the module; a command with an instant of its own has
no such operand. `h` is the hearth whose core makes an access; `p` and `r` name the ring whose next descriptor is fetched. -/

namespace Sys2Proof

/-- A command (one row of the table each; the comment gives the row and its rule). -/
inductive Instr where
  /-- SLOT_EDGE (R62). -/
  | slotEdge
  /-- TB_ADDEND_LO_WRITE (R40). -/
  | tbAddendLoWrite (t : Nat) (h : Hearth) (v : BitVec 32)
  /-- TB_ADDEND_HI_WRITE (R40). -/
  | tbAddendHiWrite (t : Nat) (h : Hearth) (v : BitVec 32)
  /-- STEP (R55). -/
  | step (t : Nat) (h : Hearth) (v : BitVec 32)
  /-- TB_FW_OFFSET_WRITE (R54). -/
  | tbFwOffsetWrite (t : Nat) (h : Hearth) (v : BitVec 32)
  /-- TB_NOW0_READ (R44). -/
  | tbNow0Read (t : Nat) (h : Hearth)
  /-- TB_TSQ_T3_READ (R60). -/
  | tbTsqT3Read (t : Nat) (h : Hearth)
  /-- REF_SWITCH_TCXO (R41). -/
  | refSwitchTcxo (t : Nat) (diff : Int)
  /-- REF_RETURN_OCXO (R41). -/
  | refReturnOcxo (diff : Int)
  /-- STIMECMP_INTERRUPT (R43). -/
  | stimecmpInterrupt (h : Hearth) (virt : Bool) (cmp : BitVec 64)
  /-- PTP_MESSAGE_RX (R48). -/
  | ptpMessageRx (t : Nat) (port : Port) (msg : Machine.PtpMsg)
  /-- PTP_MESSAGE_TX (R48). -/
  | ptpMessageTx (t : Nat) (port : Port) (kind : Machine.PtpTxKind)
  /-- ANNOUNCE_RECEIPT_TIMEOUT (R56). -/
  | announceReceiptTimeout
  /-- SYNC_RECEIPT_TIMEOUT (R56). -/
  | syncReceiptTimeout
  /-- FW_TMO_EXPIRY (R56). -/
  | fwTmoExpiry
  /-- LEAP_SECOND (R52). -/
  | leapSecond
  /-- TT_ARM (R67). -/
  | ttArm (t : Nat) (p : PartId) (r : RingNo)
  /-- TT_CANCEL (R69). -/
  | ttCancel (t : Nat) (p : PartId) (r : RingNo)
  /-- TTU_FIRING (R68). -/
  | ttuFiring (u : Fin 32)
  /-- PPS_PULSE (R70). -/
  | ppsPulse (n : Fin 8)
  /-- IRIG_B_FRAME (R71). -/
  | irigBFrame (n : Fin 8)
  /-- SV_FRAME (R89). -/
  | svFrame (t : Nat) (port : PPort) (octets : List (BitVec 8))
  /-- GOOSE_FRAME (R101). -/
  | gooseFrame (t : Nat) (port : PPort) (octets : List (BitVec 8))
  /-- GRIUZ_SURGE_FRAME (R104). -/
  | griuzSurgeFrame (t : Nat) (port : PPort) (octets : List (BitVec 8))
  /-- GRIUZ_ARRIVAL_MESSAGE (R201). -/
  | griuzArrivalMessage (t : Nat) (port : PPort) (octets : List (BitVec 8))
  /-- PRP_SUPERVISION_FRAME (R80). -/
  | prpSupervisionFrame (t : Nat) (port : PPort) (octets : List (BitVec 8))
  /-- KEY_OVERLAP_END (R85). -/
  | keyOverlapEnd (e : Fin 4096)
  /-- DUPLICATE_ENTRY_FORGOTTEN (R83). -/
  | duplicateEntryForgotten (q : Fin 4) (mac : Nat)
  /-- STREAM_LOST (R97). -/
  | streamLost (e : Fin 4096)
  /-- GOOSE_TAL_EXPIRY (R102). -/
  | gooseTalExpiry (e : Fin 4096)
  /-- CHAIN_SETTLED (R124). -/
  | chainSettled (c : Croft) (ce : Fin 2048)
  /-- CAP_ARM (R151). -/
  | capArm (t : Nat) (p : PartId) (r : RingNo)
  /-- CAP_ABORT (R156). -/
  | capAbort (t : Nat) (p : PartId) (r : RingNo)
  /-- CAP_ABORT_EXPORT (R161). -/
  | capAbortExport (t : Nat) (p : PartId) (r : RingNo)
  /-- CAP_FORCE (R153). -/
  | capForce (t : Nat) (p : PartId) (r : RingNo)
  /-- CAP_RELEASE (R158). -/
  | capRelease (t : Nat) (p : PartId) (r : RingNo)
  /-- CAP_EXPORT (R158). -/
  | capExport (t : Nat) (p : PartId) (r : RingNo)
  /-- CAPTURE_COMPLETE (R155). -/
  | captureComplete (g : Fin 144)
  /-- PH_STREAM_START (R184). -/
  | phStreamStart (t : Nat) (p : PartId) (r : RingNo)
  /-- PH_STREAM_STOP (R184). -/
  | phStreamStop (t : Nat) (p : PartId) (r : RingNo)
  /-- PH_STREAM_MARK (R183). -/
  | phStreamMark (t : Nat) (p : PartId) (r : RingNo)
  /-- DATA_FRAME_BUILD (R186). -/
  | dataFrameBuild (n : Fin 64)
  /-- DETECTOR_ARMED (R197). -/
  | detectorArmed (l : Fin 32)
  /-- ARRIVALS_SEND (R200). -/
  | arrivalsSend (l : Fin 32)
  /-- PHASORS_SEND (R200). -/
  | phasorsSend (l : Fin 32)
  /-- MESSAGE_REPEAT (R200). -/
  | messageRepeat (l : Fin 32)
  /-- REMOTE_WAIT_EXPIRY (R202). -/
  | remoteWaitExpiry (l : Fin 32)
  /-- SE_IMP (R206). -/
  | seImp (l : Fin 32)
  /-- EVENT_CLOSE (R199). -/
  | eventClose (l : Fin 32)
  /-- HAND_OFF (R214). -/
  | handOff (h : Hearth)
  /-- PROGRAM_EXCHANGE (R237). -/
  | programExchange (h : Hearth)
  /-- FB_LOAD (R221). -/
  | fbLoad (t : Nat) (p : PartId) (r : RingNo)
  /-- FB_CMD_RUN (R232). -/
  | fbCmdRun (t : Nat) (p : PartId) (r : RingNo)
  /-- FB_CMD_STOP (R232). -/
  | fbCmdStop (t : Nat) (p : PartId) (r : RingNo)
  /-- FB_CMD_HOLD (R232). -/
  | fbCmdHold (t : Nat) (p : PartId) (r : RingNo)
  /-- FB_CMD_STEP (R232). -/
  | fbCmdStep (t : Nat) (p : PartId) (r : RingNo)
  /-- FB_CMD_TEST_ON (R234). -/
  | fbCmdTestOn (t : Nat) (p : PartId) (r : RingNo)
  /-- FB_CMD_TEST_OFF (R234). -/
  | fbCmdTestOff (t : Nat) (p : PartId) (r : RingNo)
  /-- FB_FORCE (R235). -/
  | fbForce (t : Nat) (p : PartId) (r : RingNo)
  /-- FB_FORCE_RELEASE (R235). -/
  | fbForceRelease (t : Nat) (p : PartId) (r : RingNo)
  /-- FB_PEEK (R241). -/
  | fbPeek (t : Nat) (p : PartId) (r : RingNo)
  /-- FB_POKE (R232). -/
  | fbPoke (t : Nat) (p : PartId) (r : RingNo)
  /-- GOOSE_RETRANSMISSION (R252). -/
  | gooseRetransmission (gcb : Fin 2048)
  /-- LOOP_RELEASE (R265). -/
  | loopRelease (l : LoopNo)
  /-- MISS_LIMIT (R269). -/
  | missLimit (l : LoopNo)
  /-- LANE_RELOAD (R276). -/
  | laneReload (g : Lane)
  /-- LANE_COMPARE (R279). -/
  | laneCompare (g : Lane) (n : Fin 2)
  /-- BLOCK_INPUT_ASSERT (R280). -/
  | blockInputAssert (t : Nat) (b : Fin 4)
  /-- BLOCK_INPUT_RELEASE (R280). -/
  | blockInputRelease (t : Nat) (b : Fin 4)
  /-- GL_FORCE_GO (R281). -/
  | glForceGo (t : Nat) (h : Hearth) (v : BitVec 32)
  /-- MODULE_RESET (R296). -/
  | moduleReset (t : Nat) (h : Hearth)
  /-- PARTITION_RESET (R297). -/
  | partitionReset (t : Nat) (h : Hearth) (target : PartId)
  /-- HEARTH_RESET (R297). -/
  | hearthReset (t : Nat) (h : Hearth) (target : Hearth)
  /-- ENGINE_RESET_FBE (R296). -/
  | engineResetFbe (t : Nat) (h : Hearth) (target : Hearth)
  /-- ENGINE_RESET_LOOP (R296). -/
  | engineResetLoop (t : Nat) (h : Hearth) (target : LoopNo)
  /-- ENGINE_RESET_CAPTURE (R296). -/
  | engineResetCapture (t : Nat) (h : Hearth) (target : Fin 144)
  /-- RESET_EFFECTIVE (R297). -/
  | resetEffective
  /-- RESET_DRAIN_COMPLETE (R297). -/
  | resetDrainComplete (t : Nat)
  /-- SETEIPNUM (R294). -/
  | seteipnum (t : Nat) (h : Hearth) (target : Hearth) (file : Fin 8) (be : Bool) (v : BitVec 32)
  /-- CORE_DRAM_ACCESS (R289). -/
  | coreDramAccess (t : Nat) (h : Hearth) (kind : Machine.AccessKind) (addr : Nat) (size : Nat) (data : BitVec 64)
  /-- DELAY_LIST_RELEASE (R309). -/
  | delayListRelease (h : Hearth)
  /-- DEADLINE_MISS (R319). -/
  | deadlineMiss (h : Hearth) (task : Fin 256)
  /-- BUDGET_OVERRUN (R320). -/
  | budgetOverrun (h : Hearth)
  /-- SQRUN (R313). -/
  | sqrun (t : Nat) (h : Hearth) (mode : Machine.CMode) (task : Fin 256)
  /-- SQRUN_IDLE (R313). -/
  | sqrunIdle (t : Nat) (h : Hearth) (mode : Machine.CMode)
  /-- SQDONE (R313). -/
  | sqdone (t : Nat) (h : Hearth) (mode : Machine.CMode)
  /-- SQPOST (R316). -/
  | sqpost (t : Nat) (h : Hearth) (mode : Machine.CMode) (tgt : Hearth) (task : Fin 256) (payload : BitVec 32)
  /-- SQTAKE (R314). -/
  | sqtake (t : Nat) (h : Hearth) (mode : Machine.CMode)
  /-- PRODUCER_DOORBELL (R329). -/
  | producerDoorbell (t : Nat) (h : Hearth) (page : PartId) (word : BitVec 32)
  /-- CONSUMER_DOORBELL (R329). -/
  | consumerDoorbell (t : Nat) (h : Hearth) (page : PartId) (word : BitVec 32)
  /-- NOP (R337). -/
  | nop (t : Nat) (p : PartId) (r : RingNo)
  /-- FENCE (R337). -/
  | fence (t : Nat) (p : PartId) (r : RingNo)
  /-- TX_FRAME (R340). -/
  | txFrame (t : Nat) (p : PartId) (r : RingNo)
  /-- RX_BUF (R340). -/
  | rxBuf (t : Nat) (p : PartId) (r : RingNo)
  /-- FRAME_TX_START (R381). -/
  | frameTxStart (t : Nat) (port : Port)
  /-- FRAME_TX_COMPLETE (R340). -/
  | frameTxComplete (t : Nat) (port : Port)
  /-- TXN_BEGIN (R344). -/
  | txnBegin (t : Nat) (p : PartId) (r : RingNo)
  /-- TXN_COMMIT (R346). -/
  | txnCommit (t : Nat) (p : PartId) (r : RingNo)
  /-- TXN_ROLLBACK (R350). -/
  | txnRollback (t : Nat) (p : PartId) (r : RingNo)
  /-- STAGED_WRITE (R341). -/
  | stagedWrite (t : Nat) (h : Hearth) (addr : Nat) (v : BitVec 32)
  /-- TXN_APPLY (R347). -/
  | txnApply
  /-- REGISTER_WRITE (R10). -/
  | registerWrite (t : Nat) (h : Hearth) (addr : Nat) (v : BitVec 32)
  /-- FRAME_RX (R375). -/
  | frameRx (t : Nat) (port : Port) (octets : List (BitVec 8)) (flags : Machine.RxFlags)
  /-- FRAME_DELIVERY (R370). -/
  | frameDelivery (t : Nat)
  /-- FOLLOW_UP_TIMEOUT (R372). -/
  | followUpTimeout (k : Nat)
  /-- LINK_LOSS (R382). -/
  | linkLoss (t : Nat) (port : Port) (receiving : Bool)
  /-- LINK_UP (R383). -/
  | linkUp (t : Nat) (port : Port) (speed : Fin 8) (half : Bool)
  /-- HOLD_EXPIRY (R383). -/
  | holdExpiry (port : Port)
  /-- COLLISION (R376). -/
  | collision (t : Nat) (port : Port) (late : Bool)
  /-- BACKOFF_EXPIRY (R376). -/
  | backoffExpiry (port : Port)
  /-- VERIFY_TIMEOUT (R377). -/
  | verifyTimeout (port : Port)
  /-- PAUSE (R380). -/
  | pause (t : Nat) (port : Port) (quanta : Fin 65536)
  /-- PFC (R380). -/
  | pfc (t : Nat) (port : Port) (vec : Fin 256) (times : List Nat)
  /-- PAUSE_EXPIRY (R380). -/
  | pauseExpiry (port : Port)
  /-- OPTICS_POLL (R387). -/
  | opticsPoll (t : Nat) (port : Port) (reading : Option (List (BitVec 8)))
  /-- TRANSCEIVER_INSERTION (R481). -/
  | transceiverInsertion (t : Nat) (port : Port) (a0 : List (BitVec 8)) (a2 : List (BitVec 8))
  /-- KEY_DERIVE (R396). -/
  | keyDerive (t : Nat) (p : PartId) (r : RingNo)
  /-- KEY_IMPORT (R397). -/
  | keyImport (t : Nat) (p : PartId) (r : RingNo)
  /-- KEY_EXPORT (R404). -/
  | keyExport (t : Nat) (p : PartId) (r : RingNo)
  /-- KEY_REVOKE (R402). -/
  | keyRevoke (t : Nat) (p : PartId) (r : RingNo)
  /-- KEY_APPLICATION (R398). -/
  | keyApplication
  /-- KEY_MAC (R406). -/
  | keyMac (t : Nat) (p : PartId) (r : RingNo)
  /-- KEY_AEAD (R406). -/
  | keyAead (t : Nat) (p : PartId) (r : RingNo)
  /-- KEY_AEAD_DECRYPT (R406). -/
  | keyAeadDecrypt (t : Nat) (p : PartId) (r : RingNo)
  /-- KEY_SIGN (R404). -/
  | keySign (t : Nat) (p : PartId) (r : RingNo)
  /-- KEY_PUB (R404). -/
  | keyPub (t : Nat) (p : PartId) (r : RingNo)
  /-- KEY_INFO (R406). -/
  | keyInfo (t : Nat) (p : PartId) (r : RingNo)
  /-- LC_REQUEST (R393). -/
  | lcRequest (t : Nat) (p : PartId) (r : RingNo)
  /-- FUSE_PROGRAMMING_COMPLETE (R393). -/
  | fuseProgrammingComplete (t : Nat)
  /-- TAMPER (R408). -/
  | tamper (t : Nat) (src : Fin 5)
  /-- OK_TAMPER_WRITE (R409). -/
  | okTamperWrite (t : Nat) (h : Hearth) (v : BitVec 32)
  /-- HEARTBEAT_SEND (R415). -/
  | heartbeatSend (t : Nat)
  /-- HEARTBEAT_RX (R415). -/
  | heartbeatRx (t : Nat) (port : Fin 2) (hb : Machine.Heartbeat)
  /-- BEACON_SEND (R419). -/
  | beaconSend (t : Nat) (port : PPort)
  /-- BEACON_RX (R419). -/
  | beaconRx (t : Nat) (port : PPort) (beacon : Machine.Beacon)
  /-- HEARTBEAT_WINDOW_EXPIRY (R424). -/
  | heartbeatWindowExpiry
  /-- BEACON_WINDOW_EXPIRY (R425). -/
  | beaconWindowExpiry
  /-- TAKEOVER (R420). -/
  | takeover
  /-- NEGOTIATION_END (R411). -/
  | negotiationEnd
  /-- STATE_DELTA_ITEM (R414). -/
  | stateDeltaItem (t : Nat) (item : Machine.DeltaItem)
  /-- DECISION_RECORD (R417). -/
  | decisionRecord (t : Nat) (record : Machine.Decision)
  /-- COUNTERPART_TIMEOUT (R417). -/
  | counterpartTimeout
  /-- CONFIRMATION (R416). -/
  | confirmation (t : Nat) (id : Machine.FrameId)
  /-- RESYNC_REQUEST (R426). -/
  | resyncRequest (t : Nat)
  /-- RESYNC_SNAPSHOT (R426). -/
  | resyncSnapshot
  /-- RESYNC_STATE_APPLY (R426). -/
  | resyncStateApply (t : Nat) (snap : Machine.Snap)
  /-- SYNCED (R426). -/
  | synced
  /-- PR_SWITCH (R427). -/
  | prSwitch (t : Nat) (h : Hearth) (v : BitVec 32)
  /-- REVERT_HOLDOFF (R427). -/
  | revertHoldoff
  /-- SWITCH (R427). -/
  | switch (t : Nat) (at_ : Nat)
  /-- GO (R427). -/
  | go
  /-- GO_ACK (R427). -/
  | goAck (t : Nat)
  /-- SWITCHOVER (R427). -/
  | switchover
  /-- SELFTEST (R428). -/
  | selftest (t : Nat) (test : Fin 8) (fatal : Bool) (detail : BitVec 32)
  /-- HEALTH (R429). -/
  | health
  /-- ST_WRITE (R440). -/
  | stWrite (t : Nat) (p : PartId) (r : RingNo)
  /-- ST_READ (R441). -/
  | stRead (t : Nat) (p : PartId) (r : RingNo)
  /-- ST_DELETE (R440). -/
  | stDelete (t : Nat) (p : PartId) (r : RingNo)
  /-- ST_LIST (R438). -/
  | stList (t : Nat) (p : PartId) (r : RingNo)
  /-- ST_ABORT (R442). -/
  | stAbort (t : Nat) (p : PartId) (r : RingNo)
  /-- ST_TALLY_CLEAR (R452). -/
  | stTallyClear (t : Nat) (p : PartId) (r : RingNo)
  /-- JOURNAL_COMMIT (R440). -/
  | journalCommit (t : Nat) (op : Nat) (fails : Nat)
  /-- WEAR_LEVELING_MOVE (R435). -/
  | wearLevelingMove (t : Nat)
  /-- BACKGROUND_SCRUB (R436). -/
  | backgroundScrub (t : Nat) (blk : Nat) (codeword : Nat) (corrected : Nat)
  /-- SHUTDOWN_EXPIRY (R443). -/
  | shutdownExpiry
  /-- TY_EVENT (R446). -/
  | tyEvent (t : Nat) (h : Hearth) (v : BitVec 32)
  /-- TALLY_WINDOW_READ (R451). -/
  | tallyWindowRead (t : Nat) (h : Hearth) (off : Nat) (size : Nat)
  /-- FEED_PRESENT (R453). -/
  | feedPresent (t : Nat) (feed : Fin 2) (cls : Fin 16)
  /-- FEED_LOSS (R454). -/
  | feedLoss (t : Nat) (feed : Fin 2)
  /-- HOLDUP_CHANGE (R456). -/
  | holdupChange (t : Nat) (ok : Bool)
  /-- SUPERCAPACITOR_LOW (R457). -/
  | supercapacitorLow (t : Nat)
  /-- DOMAIN_BIST_COMPLETE (R458). -/
  | domainBistComplete (t : Nat) (domain : Fin 12) (pass : Bool)
  /-- TIME_WAIT_EXPIRY (R463). -/
  | timeWaitExpiry
  /-- HALT_RETRY (R463). -/
  | haltRetry
  /-- PREEMPTION_VERIFICATION_RX (R377). -/
  | preemptionVerificationRx (t : Nat) (port : Port) (kind : Machine.VerifyKind)
  /-- TRANSCEIVER_REMOVAL (R481). -/
  | transceiverRemoval (t : Nat) (port : Port)
  /-- KEY_USE_COMPLETE (R402). -/
  | keyUseComplete (t : Nat) (use : Nat)
  /-- ST_READ_COMPLETE (R441). -/
  | stReadComplete (t : Nat) (read : Nat)
  /-- FB_LOAD_COMPLETE (R221). -/
  | fbLoadComplete (t : Nat) (h : Hearth)
  /-- IMAGE_ACKNOWLEDGED (R414). -/
  | imageAcknowledged (t : Nat) (h : Hearth)
  /-- ERASE_COMPLETE (R440). -/
  | eraseComplete (t : Nat) (blk : Nat) (ok : Bool)
  /-- TAMPER_SOURCE_CLEAR (R409). -/
  | tamperSourceClear (t : Nat) (src : Fin 5)
  /-- HOURS16_ADVANCE (R448). -/
  | hours16Advance
  /-- SUPERVISOR_MODULE_RESET (R446). -/
  | supervisorModuleReset (t : Nat)
  /-- SWITCH_ACKNOWLEDGED (R427). -/
  | switchAcknowledged (t : Nat)
  /-- GO_RECEIVED (R427). -/
  | goReceived (t : Nat)
  deriving DecidableEq, Repr

end Sys2Proof
end

