-- ==== Sys2Proof/Machine/RegMap.lean ====
section
/-! DEFINITION. The set-up registers (R10 to R12, R477 to R479): which offsets hold a register, which of its bits are RW,
RW/T, W1C or WO, its reset value, and the selector through which a window register is reached (R342, R478).
An offset here is counted from 0x0010_0000_0000: block n at n × 0x1_0000 (R477). Bits in no mask are RO, RC or reserved. -/

namespace Sys2Proof.Machine

/-- How a register's storage is selected. -/
inductive SelKind where
  /-- One copy for the module. -/
  | none
  /-- One copy for each partition (R478). -/
  | own
  /-- Through the accessing partition's copy of the selector at this offset, with the mask of the fields that count. -/
  | by_ (selOff : Nat) (mask : BitVec 32)
  deriving DecidableEq, Repr

structure RegInfo where
  rw : BitVec 32 := 0
  tx : BitVec 32 := 0
  w1c : BitVec 32 := 0
  wo : BitVec 32 := 0
  sel : SelKind := .none
  deriving DecidableEq, Repr

/-- o lies on base + stride·i for some i < n. -/
def onGrid (o base stride n : Nat) : Bool := base ≤ o && o < base + stride * n && (o - base) % stride == 0

def roReg : RegInfo := {}
def rwReg (m : BitVec 32) : RegInfo := { rw := m }
def txReg (m : BitVec 32) : RegInfo := { tx := m }
def selReg (m : BitVec 32) : RegInfo := { rw := m, sel := .own }
def winReg (so : Nat) (sm m : BitVec 32) : RegInfo := { tx := m, sel := .by_ so sm }

/-- Word i of a window whose words have the masks listed. -/
def winWord (masks : List (BitVec 32)) (so : Nat) (sm : BitVec 32) (i : Nat) : RegInfo := winReg so sm (masks.getD i 0)

def tbReg (o : Nat) : Option RegInfo :=
  if o = 0x0000 then some { rw := 0x0000FF2F, wo := 0x10 }
  else if o = 0x0004 then some { w1c := 0x00013000 }
  else if o = 0x0010 ∨ o = 0x0014 then some roReg
  else if o = 0x0020 ∨ o = 0x0024 then some (rwReg 0xFFFFFFFF)
  else if o = 0x0028 then some { wo := 0xFFFFFFFF }
  else if onGrid o 0x0030 4 4 then some roReg
  else if o = 0x0040 then some (rwReg 0xFFFF1CFF)
  else if o = 0x0044 then some (rwReg 0x0007FFFF)
  else if onGrid o 0x0080 4 13 then some (rwReg 0xFFFFFFFF)
  else if o = 0x0100 then some (rwReg 0xFF)
  else if onGrid o 0x0104 4 6 then some roReg
  else if onGrid o 0x0200 0x10 8 then some (rwReg 0x001FFFCF)
  else if onGrid o 0x0204 0x10 8 then some (rwReg 0xFFFFFFFF)
  else if onGrid o 0x0300 4 32 then some (txReg 0x1F)
  else if onGrid o 0x0400 4 16 then some (txReg 0xF)
  else none

/-- Defined bits of the stream-table entry (R75); its window stages every bit, since R76 checks the reserved ones. -/
def steMasks : List (BitVec 32) :=
  [0xFFFFFFFF, 0xFFFFFFFF, 0x1FFFFFFF, 0xFFFFFFFF, 0xFFFFFFFF, 0x000000FF, 0xF000FFFF, 0xFFFFFC00,
   0x80000FFF, 0xFFFFFFFF, 0x80000FFF, 0xFFFFFFFF, 0x000000FF, 0xFFFF0000, 0, 0]

def igReg (o : Nat) : Option RegInfo :=
  if o = 0x0000 then some { rw := 2, tx := 1 }
  else if o = 0x0004 then some (txReg 0xFF)
  else if o = 0x0008 then some (txReg 0xFFFF)
  else if o = 0x0010 then some (selReg 0xFFF)
  else if o = 0x0014 ∨ o = 0x0024 then some roReg
  else if o = 0x0020 then some (selReg 0xFFFF)
  else if onGrid o 0x0040 4 16 then some (winReg 0x10010 0xFFF 0xFFFFFFFF)
  else if onGrid o 0x0100 4 8 then some roReg
  else if onGrid o 0x0140 4 8 then some roReg
  else none

/-- Masks of the chain entry (R134). -/
def chainMasks : List (BitVec 32) := [0xFF8F0000, 0x3FFFFFFF, 0xFFFFFFFF, 0xFFFFFFFF, 0xFFFFFFFF, 0, 0, 0]

def fcReg (o : Nat) : Option RegInfo :=
  if o = 0x0000 then some (selReg 0xF7FF)
  else if o = 0x0004 ∨ o = 0x0008 ∨ o = 0x000C then some roReg
  else if onGrid o 0x0020 4 8 then some (winWord chainMasks 0x20000 0xF7FF ((o - 0x20) / 4))
  else if o = 0x0100 then some (selReg 0x001F07FF)
  else if o = 0x0104 then some roReg
  else none

/-- Masks of the capture profile (R148) and of the combined-trigger entry (R143). -/
def profMasks : List (BitVec 32) :=
  [0xFFFF0000, 0x00FFFFFF, 0x00FFFFFF, 0xF003FFFF, 0xFFFFFFFF, 0x0000FFFF, 0xFFFFFFFF, 0x0000FFFF, 0x07FF01FF]
def ctMask (i : Nat) : BitVec 32 := if i = 0 then 0x9FC0FFFF else if i = 1 then 0xFF else 0xC7FFC7FF

def tgReg (o : Nat) : Option RegInfo :=
  if onGrid o 0x0000 4 144 then some (txReg 0x1F)
  else if o = 0x0400 then some (selReg 0xFF)
  else if o = 0x0404 then some roReg
  else if onGrid o 0x0440 4 16 then some (winWord profMasks 0x30400 0xFF ((o - 0x440) / 4))
  else if o = 0x0500 then some (selReg 0xFF)
  else if onGrid o 0x0540 4 34 then some (winReg 0x30500 0xFF (ctMask ((o - 0x540) / 4)))
  else if o = 0x0600 then some (selReg 0x3F)
  else if o = 0x0640 then some (winReg 0x30600 0x3F 0xC0000000)
  else if o = 0x0644 then some (winReg 0x30600 0x3F 0xFFFFFFFF)
  else none

def grpMasks : List (BitVec 32) :=
  [0xFFFFF000, 0x07FF07FF, 0x07FF07FF, 0x000007FF, 0xFFFFFFFF, 0x0000FFFF, 0x0003FFFF, 0]

def phReg (o : Nat) : Option RegInfo :=
  if o = 0x0000 then some (selReg 0xF1F)
  else if o = 0x0004 then some roReg
  else if onGrid o 0x0020 4 8 then some (winWord grpMasks 0x40000 0xF1F ((o - 0x20) / 4))
  else if onGrid o 0x0100 4 64 then some (txReg 0x1F)
  else if o = 0x0200 then some (selReg 0x3F)
  else if o = 0x0204 ∨ o = 0x0208 ∨ o = 0x020C then some roReg
  else none

def lineMasks : List (BitVec 32) :=
  [0xFFC0FFFF, 0xF7FFFFFF, 0xFFFFFFFF, 0xFFFFFFFF, 0xFFFFFFFF, 0xFFFFFFFF, 0xFFFFFFFF, 0x80000FFF, 0xFFFFFFFF,
   0xFFFFFFFF, 0xFF00FFFF, 0xF81F0000, 0x07FF07FF, 0x07FF07FF, 0x07FF07FF, 0xFFFFFFFF, 0xFFFFFFFF, 0xFFFFFFFF,
   0xFFFFFFFF, 0xFFFFFFFF, 0xFFFFFFFF, 0, 0, 0]

def flReg (o : Nat) : Option RegInfo :=
  if o = 0x0000 then some (selReg 0x1F)
  else if o = 0x0004 ∨ o = 0x0014 then some roReg
  else if o = 0x0010 then some (selReg 0xF)
  else if onGrid o 0x0040 4 24 then some (winWord lineMasks 0x50000 0x1F ((o - 0x40) / 4))
  else if onGrid o 0x00A0 4 16 then some (winReg 0x50000 0x1F 0xFFFFFFFF)
  else none

def fbReg (o : Nat) : Option RegInfo :=
  if o = 0x0000 then some (selReg 0x3F)
  else if o = 0x0004 ∨ o = 0x0008 ∨ o = 0x000C ∨ o = 0x0014 ∨ o = 0x0020 then some roReg
  else if o = 0x0010 then some (winReg 0x60000 0x3F 1)
  else none

def gcbMasks : List (BitVec 32) :=
  [0xFFFFFFFF, 0xFFFFFFFF, 0xFFFFFFFF, 0xFF00FFFF, 0xFFFFFFFF, 0xFFFFFFFF, 0xFFFFFFFF, 0xFFFFFFFF, 0xFFE0FFFF,
   0x80000FFF, 0xFFFFFFFF, 0x80000FFF, 0xFFFFFFFF, 0, 0, 0]
def dsvMasks : List (BitVec 32) :=
  [0xDFFFFFFF, 0xCFFFE000, 0xFFFFFFFF, 0xFF00FFFF, 0xFFFFFFFF, 0xFFFFFFFF, 0xFFFFFFFF, 0xFFFFFFFF, 0x0000FFFF,
   0x80000FFF, 0xFFFFFFFF, 0x80000FFF, 0xFFFFFFFF, 0, 0, 0]

def pbReg (o : Nat) : Option RegInfo :=
  if o = 0x0000 then some (selReg 0x7FF)
  else if o = 0x0004 ∨ o = 0x0008 ∨ o = 0x0014 then some roReg
  else if o = 0x0010 then some (selReg 7)
  else if onGrid o 0x0040 4 16 then some (winWord gcbMasks 0x70000 0x7FF ((o - 0x40) / 4))
  else if o = 0x0100 then some (selReg 0xFF)
  else if onGrid o 0x0140 4 16 then some (winWord dsvMasks 0x70100 0xFF ((o - 0x140) / 4))
  else none

def loopMasks : List (BitVec 32) :=
  [0xFFFFF7FF, 0xC3FF03FF, 0xFFFFFFFF, 0xFF01001F, 0xFFFFFFFF, 0xFFFFFFFF, 0xFFFFFFFF, 0xFFFFFFFF, 0xFFFFFFFF,
   0xFFFFFFFF, 0xFFFFFFFF, 0xFFFFFFFF, 0xFFFFFFFF, 0xFFFFFFFF, 0xFFFFFFFF, 0]

def lpReg (o : Nat) : Option RegInfo :=
  if o = 0x0000 then some (selReg 0xFF)
  else if o = 0x0004 then some { w1c := 0x60000000, sel := .by_ 0x80000 0xFF }
  else if o = 0x0008 ∨ o = 0x000C then some roReg
  else if onGrid o 0x0040 4 16 then some (winWord loopMasks 0x80000 0xFF ((o - 0x40) / 4))
  else if onGrid o 0x0400 8 32 then some (txReg 0xFFFFE001)
  else if onGrid o 0x0404 8 32 then some (txReg 0xFFFF)
  else none

def laneMasks : List (BitVec 32) :=
  [0xFFFCFFFF, 0xFFFFFFFF, 0xFFFFFFFF, 0xFFFFFFFF, 0xFFFFFFFF, 0xFFFFFFFF, 0xFFFFFFFF, 0xFFFFFFFF, 1, 0, 0, 0]

def glReg (o : Nat) : Option RegInfo :=
  if o = 0x0000 then some (selReg 0x1F)
  else if o = 0x0004 then some { w1c := 0x40000000, sel := .by_ 0x90000 0x1F }
  else if o = 0x0008 then some (selReg 7)
  else if o = 0x000C ∨ o = 0x010C then some roReg
  else if onGrid o 0x0040 4 12 then some (winWord laneMasks 0x90000 0x1F ((o - 0x40) / 4))
  else if o = 0x0100 then some { rw := 0xFFFFFFFF, sel := .own }
  else if o = 0x0104 then some { rw := 0xFFFF, sel := .own }
  else if o = 0x0108 then some { wo := 0xFFFFFF }
  else if onGrid o 0x0200 4 4 then some (rwReg 0x2FF)
  else none

def windowMasks : List (BitVec 32) := [0xFC00000F, 0xFFFFFFFF, 0x003FFFFF, 0x007FFFFF]

def ptReg (o : Nat) : Option RegInfo :=
  if o = 0 then some (txReg 0x3F)
  else if onGrid o 0x0000 0x10 32 then some (txReg 0xE000003F)
  else if onGrid o 0x0004 0x10 32 then some roReg
  else if onGrid o 0x0008 0x10 32 then some (txReg 0xFFFFFF)
  else if onGrid o 0x000C 0x10 32 then some roReg
  else if onGrid o 0x0400 4 64 then some (txReg 0x1F)
  else if onGrid o 0x0800 4 512 then some (txReg 0x1F1F)
  else if onGrid o 0x1800 4 64 then some (txReg 0x1F)
  else if o = 0x2000 then some (selReg 0x1F3F)
  else if onGrid o 0x2010 4 4 then some (winWord windowMasks 0xA2000 0x1F3F ((o - 0x2010) / 4))
  else if o = 0x2020 then some roReg
  else if o = 0x3000 then some { wo := 0xC00030FF }
  else if o = 0x3004 then some { w1c := 0x40000000 }
  else none

def taskMasks : List (BitVec 32) := [0xF00FFFFF, 0x00FFFFFF, 0x00FFFFFF, 0xFF0FFFFF]

def sqReg (o : Nat) : Option RegInfo :=
  if o = 0x0000 then some (selReg 0x3FFF)
  else if o = 0x0004 then some { w1c := 0x60000000, sel := .by_ 0xB0000 0x3FFF }
  else if o = 0x0008 then some (winReg 0xB0000 0x3F00 0xFFFF)
  else if o = 0x000C ∨ o = 0x0014 then some roReg
  else if o = 0x0010 then some (selReg 0xF)
  else if onGrid o 0x0040 4 4 then some (winWord taskMasks 0xB0000 0x3FFF ((o - 0x40) / 4))
  else none

def dbReg (o : Nat) : Option RegInfo :=
  if o = 0x0000 then some (selReg 0x1F3F)
  else if o = 0x0004 then some { w1c := 0xC0000000, sel := .by_ 0xC0000 0x1F3F }
  else if o = 0x0008 ∨ o = 0x000C ∨ o = 0x001C then some roReg
  else if o = 0x0010 then some (winReg 0xC0000 0x1F3F 0x9F1F01FF)
  else if o = 0x0014 then some (winReg 0xC0000 0x1F3F 0xFFFFFFC0)
  else if o = 0x0018 then some (winReg 0xC0000 0x1F3F 0x007FFFFF)
  else if onGrid o 0x1000 8 32 then some (txReg 0xFFFFFC00)
  else if onGrid o 0x1004 8 32 then some (txReg 0xFFFF)
  else none

def txRegs (o : Nat) : Option RegInfo :=
  if o = 0x0000 then some (selReg 0x1F)
  else if onGrid o 0x0004 4 4 ∨ o = 0x0020 then some roReg
  else none

def clsMasks : List (BitVec 32) :=
  [0xF8001FFF, 0xFFFFFFFF, 0xFFFFFFFF, 0x0FFFFFFF, 0xFFFFFFFF, 0xFC0FFFFF, 0x1F00003F, 0]

def gnReg (o : Nat) : Option RegInfo :=
  if o = 0x0000 then some roReg
  else if o = 0x0004 then some (txReg 1)
  else if o = 0x0008 then some (txReg 0x3FFF)
  else if o = 0x000C then some { w1c := 0x80000000 }
  else if o = 0x0010 then some (txReg 0xFFFFFFFF)
  else if o = 0x0020 then some (selReg 0x1F07)
  else if o = 0x0024 then some (winReg 0xE0020 0x1F07 0x87003FFF)
  else if o = 0x0028 ∨ o = 0x0034 then some roReg
  else if o = 0x0030 then some (selReg 0xF1F07)
  else if o = 0x0100 then some (selReg 0x3FF)
  else if onGrid o 0x0140 4 8 then some (winWord clsMasks 0xE0100 0x3FF ((o - 0x140) / 4))
  else none

def mcReg (o : Nat) : Option RegInfo :=
  if o = 0x0000 then some (selReg 0xF)
  else if o = 0x0004 then some { tx := 0xFFE000FF, rw := 0xFF00, sel := .by_ 0xF0000 0xF }
  else if o = 0x0008 then some (winReg 0xF0000 0xF 0xFFFFFFFF)
  else if o = 0x000C ∨ o = 0x0014 then some roReg
  else if o = 0x0010 then some (selReg 0x1F)
  else if onGrid o 0x0020 4 3 then some roReg
  else if o = 0x002C then some (rwReg 0x1FF00)
  else none

def okReg (o : Nat) : Option RegInfo :=
  if onGrid o 0x0000 4 4 then some roReg
  else if o = 0x0010 then some (selReg 0xFFF)
  else if onGrid o 0x0014 4 4 then some roReg
  else if o = 0x0040 then some { w1c := 0x80000000 }
  else if onGrid o 0x0044 4 4 then some roReg
  else none

def prReg (o : Nat) : Option RegInfo :=
  if o = 0x0000 then some (txReg 0xFFFF80FF)
  else if o = 0x0004 then some (txReg 0xFFFFCF00)
  else if o = 0x0008 then some (txReg 0xFFFFFFFF)
  else if o = 0x000C then some (txReg 0x1FFFFFFF)
  else if o = 0x0010 ∨ o = 0x0024 then some roReg
  else if o = 0x0014 then some { wo := 1 }
  else if o = 0x0020 then some (selReg 0xF)
  else if onGrid o 0x0030 4 4 then some roReg
  else none

def stReg (o : Nat) : Option RegInfo :=
  if o = 0x0000 then some (selReg 7)
  else if o = 0x0004 ∨ o = 0x0008 ∨ o = 0x0010 ∨ o = 0x0024 ∨ o = 0x0030 then some roReg
  else if o = 0x0020 then some (selReg 7)
  else if o = 0x0034 then some (txReg 0xFF)
  else none

def tyReg (o : Nat) : Option RegInfo :=
  if o = 0x0000 ∨ onGrid o 0x0008 4 3 then some roReg
  else if o = 0x0004 then some (selReg 0x8003FFFF)
  else if o = 0x0014 then some { wo := 0xFFFFF }
  else if o = 0x0020 then some (selReg 0x7FF)
  else if o = 0x0024 then some (winReg 0x130020 0x7FF 0x801FFFFF)
  else none

def pwReg (o : Nat) : Option RegInfo :=
  if onGrid o 0x0000 4 3 ∨ o = 0x0014 then some roReg
  else if o = 0x0010 then some (txReg 0x798)
  else if o = 0x0020 then some (rwReg 0x80000000)
  else if o = 0x0024 then some (rwReg 0xFFFF)
  else none

/-- The register at a set-up offset (R479); none where no register lies. -/
def regInfo (off : Nat) : Option RegInfo :=
  match off / 65536 with
  | 0 => tbReg (off % 65536) | 1 => igReg (off % 65536) | 2 => fcReg (off % 65536) | 3 => tgReg (off % 65536)
  | 4 => phReg (off % 65536) | 5 => flReg (off % 65536) | 6 => fbReg (off % 65536) | 7 => pbReg (off % 65536)
  | 8 => lpReg (off % 65536) | 9 => glReg (off % 65536) | 10 => ptReg (off % 65536) | 11 => sqReg (off % 65536)
  | 12 => dbReg (off % 65536) | 13 => txRegs (off % 65536) | 14 => gnReg (off % 65536) | 15 => mcReg (off % 65536)
  | 16 => okReg (off % 65536) | 17 => prReg (off % 65536) | 18 => stReg (off % 65536) | 19 => tyReg (off % 65536)
  | 20 => pwReg (off % 65536) | _ => none

/-- Reset value of MC_PORT_CFG of a port (chapter 16). -/
def portCfgReset (p : Nat) : BitVec 32 :=
  if p < 8 then 0xD000000F else if p < 10 then 0xE400000F else if p < 13 then 0x8040000F else 0

/-- Reset value of the register at an offset for a selector value; 0 where the chapters give 0. -/
def regReset (off sel : Nat) : BitVec 32 :=
  match off with
  | 0x0000 => 0xFE02 | 0x0020 => 0x0B3304CD | 0x0024 => 0x197D6438 | 0x0040 => 0x001B0000
  | 0x10008 => 0xBA04
  | 0x20028 => 0x40000000 | 0x2002C => 0x7FFFFFFF | 0x20030 => 0x7FFFFFFF
  | 0x30644 => 0x7FFF7FFF
  | 0xA0000 => 0x80000000 | 0xA2000 => 0x100
  | 0xC0010 => 0x00040000
  | 0xE0008 => 0x0800 | 0xE0010 => 0x40201010 | 0xE0024 => 0x03000100
  | 0xF0004 => portCfgReset sel | 0xF0008 => 0x03E803E8
  | 0x110000 => 0x8000 | 0x110004 => 0x12C50400
  | 0x120034 => 0x05
  | 0x130004 => 0x80000000
  | 0x140010 => 0xFFF | 0x140024 => 0x1E00
  | _ =>
    if off < 0x10000 then
      (if onGrid off 0x0200 0x10 8 then 0x2280 else if onGrid off 0x0204 0x10 8 then 0x000F4240
       else if onGrid off 0x0400 4 16 then 2 else 0)
    else if 0xA0000 ≤ off ∧ off < 0xA0200 then
      (if off % 16 = 0 then 0x40000000 else if off = 0xA0008 then 0x404040 else if off % 16 = 8 then 0x101010 else 0)
    else 0

/-- Key of a register's storage. -/
def regKey (off sel : Nat) : Nat := off * 65536 + sel

end Sys2Proof.Machine
end

