-- ==== Sys2Proof/Machine/State.lean ====
section
/-! DEFINITION. The state of the PN-840 as plain data, the stops, and the state after reset. -/

namespace Sys2Proof.Machine

/-- Faults. No command of this model ends in one: every row of the table has an effect the chapters give, so the one
constructor is raised by no command (safe). -/
inductive Fault where
  /-- Raised by no command. -/
  | none
  deriving DecidableEq, Repr

/-- Refusals. -/
inductive Refusal where
  /-- A command whose meaning is not written yet, rejected by its name in exec (safe). -/
  | notModelled (mnemonic : String)
  deriving DecidableEq, Repr

/-- The machine's state. INVENTORY.md lists each piece with its rule and reset value. -/
structure State where
  /-- Commands that wait, first in first out: the model's own field. -/
  pending : List Instr := []
  /-- Counter, clock, servo and quality (chapter 02). -/
  tb : TbState := {}
  /-- Slot number, latches, transmit-stamp queue, time-trigger units, timing outputs (02). -/
  tu : TbUnits := {}
  /-- PTP ports and datasets (02). -/
  ptp : PtpState := {}
  /-- Set-up registers that hold a committed or direct value (R10 to R12, R479), stored as the difference from reset. -/
  regs : Tbl (BitVec 32) := []
  /-- DRAM (R288, R492): address and byte. -/
  dram : List Host.Cell := []
  /-- Partitions and resets (11). -/
  pt : PtState := {}
  /-- Interrupt files (11). -/
  files : Tbl IFile := []
  /-- The cores' registers that the chapters name (11, 12). -/
  cores : Tbl CoreSt := []
  /-- Rings (13). -/
  db : DbState := {}
  /-- Transactions (14). -/
  tx : TxState := {}
  /-- Hardware scheduler (12). -/
  sq : SqState := {}
  /-- Power and start-up (20). -/
  pw : PwState := {}
  /-- Flash storage (19). -/
  st : StState := {}
  /-- Tally (19). -/
  ty : TyState := {}
  /-- Orchard (17). -/
  ok : OkState := {}
  /-- Redundant pair (18). -/
  pr : PrState := {}
  pu : PrRun := {}
  /-- The state captured at the snapshot edge, to be sent in the bulk lane (R426). -/
  snap : Option Snap := none
  /-- Green (15). -/
  gn : GnState := {}
  /-- MACs (16). -/
  mc : McState := {}
  /-- Ingest (03). -/
  ig : IgState := {}
  /-- Filter chains (04). -/
  fc : FcState := {}
  /-- Triggers and capture (05). -/
  tg : TgState := {}
  /-- Phasor engines and wire streams (06). -/
  ph : PhState := {}
  /-- Fault location (07). -/
  fl : FlState := {}
  /-- Function-block engines (08). -/
  fb : FbState := {}
  /-- Publisher (09). -/
  pb : PbState := {}
  /-- Loops and lanes (10). -/
  lp : LpState := {}
  /-- Number of free values drawn so far: the model's own field (log 2). -/
  draws : Nat := 0
  deriving DecidableEq, Repr

/-- The machine right after a module reset: WARM, at step 3 of start-up (R296, R463), every register at its reset value,
no command waiting. Register values are held as differences from reset, so the empty table is the reset of all. -/
def State.reset : State := {}

end Sys2Proof.Machine
end

