-- ==== Sys2Proof/Machine/Flags.lean ====
section
/-! DEFINITION. Reading committed settings, and the QUALITY field of the time word (R4, R5, R45 to R47). -/

namespace Sys2Proof.Machine

/-- Committed value of the register at an offset under a selector value (R342: reads return committed values). -/
def State.cfg (s : State) (off sel : Nat) : BitVec 32 := Tbl.get 0 s.regs (regKey off sel) ^^^ regReset off sel

/-- Set the stored value of a register. -/
def State.setCfg (s : State) (off sel : Nat) (v : BitVec 32) : State :=
  { s with regs := Tbl.set 0 s.regs (regKey off sel) (v ^^^ regReset off sel) }

/-- Growth of the error estimate per counter-clock edge in holdover, 10^-10 ns: 1.2 ns/s on the OCXO, 60 ns/s on the
TCXO (R47; an edge counts as 4 ns: log 13). -/
def holdRate (tcxo : Bool) : Nat := if tcxo then 2400 else 48

/-- The estimate E at the present edge, 10^-10 ns. -/
def errNow (tb : TbState) : Nat :=
  match tb.st with
  | .holdover => tb.est + (tb.edge - tb.estEdge) * holdRate tb.refTcxo
  | _ => tb.est

/-- The smallest class of R4 whose limit is at least E (10^-10 ns). -/
def classOf (e : Nat) : Nat :=
  if e ≤ 25 * 10 ^ 10 then 0 else if e ≤ 100 * 10 ^ 10 then 1 else if e ≤ 1000 * 10 ^ 10 then 2
  else if e ≤ 10000 * 10 ^ 10 then 3 else if e ≤ 100000 * 10 ^ 10 then 4 else if e ≤ 1000000 * 10 ^ 10 then 5 else 0xF

/-- ERR_CLASS (R42, R47); 0xF also while the counter is not valid. -/
def errClass (tb : TbState) : Nat :=
  match tb.st with
  | .notValid => 0xF
  | .freeRun => 0xF
  | _ => if tb.unknownErr then 0xF else classOf (errNow tb)

def b2n (b : Bool) : Nat := if b then 1 else 0

/-- Offset source (TB_CTRL.SRC). -/
def srcSel (s : State) : Nat := fld (s.cfg 0x0 0) 3 2

/-- The value TRACEABLE takes outside HOLDOVER: FW_TRACEABLE with SRC = 0b01, else timeTraceable of the Announce of the
grandmaster that is the source (R46, R56). -/
def traceSource (s : State) : Bool :=
  if srcSel s = 1 then bit (s.cfg 0x0 0) 5 else (s.ptp.source.map (·.timeTraceable)).getD s.tb.traceable

/-- TRACEABLE (R46): 0 in FREE_RUN, the last value in HOLDOVER. -/
def traceableNow (s : State) : Bool :=
  match s.tb.st with
  | .freeRun => false
  | .holdover => s.tb.traceable
  | _ => traceSource s

/-- The QUALITY field current at this instant. -/
def State.quality (s : State) : BitVec 16 :=
  let u := s.cfg 0x44 0
  BitVec.ofNat 16 (errClass s.tb * 256 + b2n s.tb.refTcxo * 128 + b2n (bit u 16) * 64 + b2n (bit u 18) * 32
    + b2n (bit u 17) * 16 + b2n (traceableNow s) * 8
    + (match s.tb.st with | .freeRun => 4 | .holdover => 2 | .locked => 1 | .notValid => 0))

/-- The time word is valid when one of LOCKED, HOLDOVER, FREE_RUN is set (R5). -/
def State.timeValid (s : State) : Bool := s.tb.st != .notValid

/-- The counter truncated to 2^-16 ns (R7, R38). -/
def now16 (s : State) : Nat := s.tb.counter / 2 ^ 24

/-- The time word of the present instant. -/
def stampNow (s : State) : Stamp := { t16 := now16 s, q := s.quality }

/-- Packing a stamp into the time word of R4. -/
def Stamp.word (x : Stamp) : BitVec 128 :=
  BitVec.ofNat 128 (x.t16 / (65536 * 1000000000) * 2 ^ 64 + x.t16 / 65536 % 1000000000 * 2 ^ 32
    + x.t16 % 65536 * 2 ^ 16 + x.q.toNat)

/-- Instant of SECONDS, NANOSECONDS and FRACTION in 2^-16 ns. -/
def t16Of (sec ns frac : Nat) : Nat := (sec * 1000000000 + ns) * 65536 + frac

/-- The four 32-bit words of a time word, low first (R4, R331). -/
def Stamp.words (x : Stamp) : List (BitVec 32) :=
  [x.word.extractLsb' 0 32, x.word.extractLsb' 32 32, x.word.extractLsb' 64 32, x.word.extractLsb' 96 32]

end Sys2Proof.Machine
end

