-- ==== Sys2Proof/Machine/Operands.lean ====
section
/-! DEFINITION. Operand forms: fields of a descriptor's words (R330, R331), its buffer addresses and time words, the
ring catalogue (R339), and the fields of a ring's entry. -/

namespace Sys2Proof.Machine

/-- Word i of a descriptor. -/
def dw (ws : List (BitVec 32)) (i : Nat) : BitVec 32 := ws.getD i 0
def opcodeOf (ws : List (BitVec 32)) : Nat := fld (dw ws 0) 7 0
/-- A 48-bit address held in word i and the low half of word i + 1. -/
def addr48 (ws : List (BitVec 32)) (i : Nat) : Nat := (dw ws i).toNat + fld (dw ws (i + 1)) 15 0 * 2 ^ 32
/-- A 64-bit value in words i and i + 1. -/
def dword64 (ws : List (BitVec 32)) (i : Nat) : Nat := (dw ws i).toNat + (dw ws (i + 1)).toNat * 2 ^ 32

/-- Time word in words i to i + 3: its instant, and whether NANOSECONDS is in range (R4). -/
def timeAt (ws : List (BitVec 32)) (i : Nat) : Nat :=
  t16Of (dword64 ws (i + 2)) (dw ws (i + 1)).toNat (fld (dw ws i) 31 16)
def nsOk (ws : List (BitVec 32)) (i : Nat) : Bool := (dw ws (i + 1)).toNat < 1000000000

/-- The words listed in `used` with their allowed masks; every other bit of words 2 and on must be 0, and word 0's
flag and ring-specific bits outside m0 must be 0 (R330). Word 1 is TAG. -/
def reservedOk (ws : List (BitVec 32)) (m0 : BitVec 32) (used : List (Nat × BitVec 32)) : Bool :=
  (dw ws 0 &&& ~~~(m0 ||| 0x1FF)) == 0 &&
  (List.range ws.length).all (fun i =>
    i < 2 || (dw ws i &&& ~~~(((used.find? (fun e => e.1 == i)).map Prod.snd).getD 0)) == 0)

/-- One row of the ring catalogue (R339). -/
structure RingType where
  /-- 64-byte slots. -/
  ts : Bool
  submission : Bool
  inOrder : Bool
  lo : Nat
  hi : Nat
  deriving DecidableEq, Repr

def ringType : Nat → Option RingType
  | 0x01 => some ⟨false, true, true, 0x11, 0x11⟩
  | 0x02 => some ⟨true, true, true, 0x11, 0x11⟩
  | 0x03 => some ⟨false, true, true, 0x12, 0x12⟩
  | 0x04 => some ⟨true, true, true, 0x12, 0x12⟩
  | 0x05 => some ⟨false, true, true, 0x01, 0x02⟩
  | 0x06 => some ⟨true, true, false, 0x61, 0x65⟩
  | 0x07 => some ⟨true, false, true, 0x66, 0x66⟩
  | 0x08 => some ⟨true, false, true, 0x41, 0x42⟩
  | 0x09 => some ⟨true, false, true, 0x51, 0x52⟩
  | 0x0A => some ⟨true, false, true, 0x71, 0x71⟩
  | 0x0B => some ⟨true, true, true, 0x72, 0x74⟩
  | 0x0C => some ⟨true, false, true, 0x81, 0x82⟩
  | 0x0D => some ⟨true, true, true, 0x91, 0x95⟩
  | 0x0E => some ⟨true, false, true, 0xA1, 0xA1⟩
  | 0x0F => some ⟨true, false, true, 0xB1, 0xB1⟩
  | 0x10 => some ⟨true, true, true, 0x21, 0x23⟩
  | 0x11 => some ⟨true, true, true, 0x31, 0x3A⟩
  | 0x12 => some ⟨true, true, false, 0xC1, 0xC6⟩
  | 0x13 => some ⟨true, false, true, 0xD0, 0xDF⟩
  | _ => none

/-- A ring's entry (DB_RING_W0 to DB_RING_W2). -/
structure RingCfg where
  en : Bool
  type : Nat
  log2 : Nat
  irqAll : Bool
  irqId : Nat
  base : Nat
  port : Nat
  cls : Nat
  deriving DecidableEq, Repr

/-- Selector value that names ring r of partition p. -/
def ringSel (p r : Nat) : Nat := p * 256 + r

def ringCfg (s : State) (p r : Nat) : RingCfg :=
  let w0 := s.cfg 0xC0010 (ringSel p r)
  let w1 := s.cfg 0xC0014 (ringSel p r)
  let w2 := s.cfg 0xC0018 (ringSel p r)
  { en := bit w0 31, type := fld w0 28 24, log2 := fld w0 20 16, irqAll := bit w0 8, irqId := fld w0 7 0,
    base := w1.toNat + fld w2 15 0 * 2 ^ 32, port := fld w2 19 16, cls := fld w2 22 20 }

def RingCfg.size (c : RingCfg) : Nat := 2 ^ c.log2
def RingCfg.submission (c : RingCfg) : Bool := ((ringType c.type).map (·.submission)).getD false
def RingCfg.inOrder (c : RingCfg) : Bool := ((ringType c.type).map (·.inOrder)).getD true
def RingCfg.ts (c : RingCfg) : Bool := ((ringType c.type).map (·.ts)).getD false
def RingCfg.slot (c : RingCfg) : Nat := if c.ts then 64 else 32
def RingCfg.words (c : RingCfg) : Nat := if c.ts then 16 else 8
def RingCfg.accepts (c : RingCfg) (op : Nat) : Bool :=
  op == 0xE0 || op == 0xE1 || ((ringType c.type).map (fun t => t.lo ≤ op && op ≤ t.hi)).getD false

/-- Selector values listed for the register at an offset, rising. -/
def listedSel (s : State) (off : Nat) : List Nat :=
  s.regs.filterMap (fun e => if e.1 / 65536 = off then some (e.1 % 65536) else none)

/-- Rings of partition p that are listed as enabled, lowest number first. -/
def enabledRings (s : State) (p : Nat) : List Nat :=
  (((listedSel s 0xC0010).filter (fun k => k / 256 == p)).map (· % 256)).filter
    (fun r => r < 64 && (ringCfg s p r).en)

/-- The enabled ring of a type with the lowest number (R334). -/
def ringOfType (s : State) (p type : Nat) : Option Nat :=
  (enabledRings s p).find? (fun r => (ringCfg s p r).type == type)

/-- Owner of a hearth, of a channel-equivalent, of a point and of a surge channel (R285). -/
def hearthOwner (s : State) (h : Nat) : Nat := fld (s.cfg (0xA0400 + 4 * h) 0) 4 0
def ceOwner (s : State) (c ce : Nat) : Nat := fld (s.cfg (0xA0800 + 0x80 * c + 4 * (ce / 64)) 0) 4 0
def pointOwner (s : State) (c pt : Nat) : Nat := fld (s.cfg (0xA0800 + 0x80 * c + 4 * (pt / 192)) 0) 12 8
def scOwner (s : State) (n : Nat) : Nat := fld (s.cfg (0xA1800 + 4 * n) 0) 4 0
/-- Enable, class (R283) and interrupt hearth of a partition. -/
def partEn (s : State) (p : Nat) : Bool := bit (s.cfg (0xA0000 + 16 * p) 0) 31
def partClass (s : State) (p : Nat) : Nat := if p = 0 then 0 else fld (s.cfg (0xA0000 + 16 * p) 0) 30 29
def irqHearth (s : State) (p : Nat) : Nat := fld (s.cfg (0xA0000 + 16 * p) 0) 5 0

/-- Does partition p own any channel range of croft c? -/
def ownsRangeOf (s : State) (p c : Nat) : Bool := (List.range 32).any (fun r => ceOwner s c (64 * r) == p)

end Sys2Proof.Machine
end

