-- ==== Sys2Proof/Machine/Ops.lean ====
section
/-! DEFINITION. Shared operations: the passing of time (R38), slot instants (R21, R62), translated device and core accesses
to DRAM (R288, R289), the slots and indices of a ring (R325 to R336), and counters. -/

namespace Sys2Proof.Machine

/-- Pass n counter-clock edges: the counter advances by the addend at each (R38). -/
def State.pass (s : State) (n : Nat) : State :=
  { s with tb.counter := s.tb.counter + n * s.tb.addend, tb.edge := s.tb.edge + n }

/-- Let time pass until edge t; no time passes when it is not later. -/
def State.runTo (s : State) (t : Nat) : State := s.pass (t - s.tb.edge)

/-- Edges until the counter is at or past x (2^-40 ns). -/
def edgesUntil (tb : TbState) (x : Nat) : Nat := if tb.addend = 0 then 0 else ceilDiv (x - tb.counter) tb.addend

/-- Let time pass to the first edge at or past the instant (2^-16 ns). -/
def State.waitUntil (s : State) (t16 : Nat) : State := s.pass (edgesUntil s.tb (t16 * 2 ^ 24))

/-- Exact instant of a slot edge times 3, in 2^-40 ns (1/4,800 s = 625,000/3 ns, R21). -/
def slotThird (k : Nat) : Nat := k * 625000 * 2 ^ 40
/-- Time word instant of a slot edge (R7, R21). -/
def slotT16 (k : Nat) : Nat := k * 625000 * 65536 / 3
/-- First counter value at or past the slot instant. -/
def slotCounter (k : Nat) : Nat := ceilDiv (slotThird k) 3
def State.waitSlot (s : State) (k : Nat) : State := s.pass (edgesUntil s.tb (slotCounter k))
/-- The slot edge at or before the present instant. -/
def edgeNow (s : State) : Nat := s.tb.counter * 3 / (625000 * 2 ^ 40)
/-- Slot that contains the instant of a time word (R7, R23): the word of a slot edge is truncated and belongs to the slot it opens. -/
def slotOf (t16 : Nat) : Nat := (t16 * 3 + 2) / (625000 * 65536)
/-- First slot whose edge lies at or after an instant. -/
def slotCeil (t16 : Nat) : Nat := ceilDiv (t16 * 3) (625000 * 65536)

/-- The exact time word of a slot edge with the quality of the moment (R25, R62). -/
def slotStamp (s : State) (k : Nat) : Stamp := { t16 := slotT16 k, q := s.quality }

def ns16 (ns : Nat) : Nat := ns * 65536
def us16 (us : Nat) : Nat := us * 65536000
def ms16 (ms : Nat) : Nat := ms * 65536000000
def sec16 (x : Nat) : Nat := x * 65536000000000

/-- Counter-clock edges in a time. -/
def usEdges (us : Nat) : Nat := us * 250
def msEdges (ms : Nat) : Nat := ms * 250000
def secEdges (x : Nat) : Nat := x * 250000000

/-- Take the next draw number for a free value. -/
def State.draw (s : State) : Nat × State := (s.draws, { s with draws := s.draws + 1 })

def State.part (s : State) (p : Nat) : PartRun := Tbl.get {} s.pt.parts p
def State.updPart (s : State) (p : Nat) (f : PartRun → PartRun) : State :=
  { s with pt.parts := Tbl.upd {} s.pt.parts p f }
def State.core (s : State) (h : Nat) : CoreSt := Tbl.get {} s.cores h
def State.updCore (s : State) (h : Nat) (f : CoreSt → CoreSt) : State := { s with cores := Tbl.upd {} s.cores h f }
def State.ring (s : State) (p r : Nat) : RingRun := Tbl.get {} s.db.rings (64 * p + r)
def State.updRing (s : State) (p r : Nat) (f : RingRun → RingRun) : State :=
  { s with db.rings := Tbl.upd {} s.db.rings (64 * p + r) f }
def State.file (s : State) (h f : Nat) : IFile := Tbl.get {} s.files (8 * h + f)
def State.updFile (s : State) (h f : Nat) (g : IFile → IFile) : State :=
  { s with files := Tbl.upd {} s.files (8 * h + f) g }
def State.txn (s : State) (p : Nat) : Txn := Tbl.get {} s.tx.txns p
def State.updTxn (s : State) (p : Nat) (f : Txn → Txn) : State := { s with tx.txns := Tbl.upd {} s.tx.txns p f }

def State.winFault (s : State) (p : Nat) : State := s.updPart p (fun x => { x with winFault := inc32 x.winFault })
def State.dbErr (s : State) (p : Nat) : State := { s with db.err := Tbl.upd 0 s.db.err p inc32 }
def State.txIgn (s : State) (p : Nat) : State := s.updTxn p (fun x => { x with ign := inc32 x.ign })

/-! Memory. -/

/-- DRAM for partitions ends here; the reserved 512 MiB follow (R288, R473). -/
def dramTop : Nat := 0x3E0000000
def dramSize : Nat := 0x400000000

/-- A byte of DRAM that nothing has written since start-up reads zero (R492). -/
def dramByte (m : List Host.Cell) (a : Nat) : BitVec 8 := Tbl.get 0 m a
def dramStore (m : List Host.Cell) (a : Nat) (b : BitVec 8) : List Host.Cell := Tbl.set 0 m a b
/-- The canonical form of memory: addresses strictly rising, no listed byte that reads as an unlisted one. -/
abbrev Memory.wf (m : List Host.Cell) : Prop := Tbl.wf (0 : BitVec 8) m = true

def dramStores : List Host.Cell → Nat → List (BitVec 8) → List Host.Cell
  | m, _, [] => m
  | m, a, b :: bs => dramStores (dramStore m a b) (a + 1) bs
def dramLoads (m : List Host.Cell) (a : Nat) : Nat → List (BitVec 8)
  | 0 => []
  | n + 1 => dramByte m a :: dramLoads m (a + 1) n

/-- A valid address window (R287). -/
structure Window where
  r : Bool
  w : Bool
  x : Bool
  core : Bool
  dev : Bool
  ppn : Nat
  dpn : Nat
  pages : Nat
  deriving DecidableEq, Repr

def windowAt (s : State) (p e : Nat) : Option Window :=
  let w0 := s.cfg 0xA2010 (p * 256 + e)
  if bit w0 31 then
    some { r := bit w0 30, w := bit w0 29, x := bit w0 28, core := bit w0 27, dev := bit w0 26,
           ppn := fld w0 3 0 * 2 ^ 32 + (s.cfg 0xA2014 (p * 256 + e)).toNat,
           dpn := fld (s.cfg 0xA2018 (p * 256 + e)) 21 0, pages := fld (s.cfg 0xA201C (p * 256 + e)) 22 0 }
  else none

/-- The valid windows of a partition. -/
def windowsOf (s : State) (p : Nat) : List Window :=
  s.regs.filterMap (fun e =>
    if e.1 / 65536 = 0xA2010 ∧ e.1 % 65536 / 256 = p then windowAt s p (e.1 % 256) else none)

/-- What an access needs (R289). -/
inductive Need where
  | devRead | devWrite | coreRead | coreWrite | coreFetch
  deriving DecidableEq, Repr

def Window.grants (w : Window) : Need → Bool
  | .devRead => w.dev && w.r
  | .devWrite => w.dev && w.w
  | .coreRead => w.core && w.r
  | .coreWrite => w.core && w.w
  | .coreFetch => w.core && w.x

def Window.hits (w : Window) (a : Nat) : Bool := w.ppn * 4096 ≤ a && a < (w.ppn + w.pages) * 4096

/-- DRAM address of one byte of a partition address, none where no window grants the access; partition 0's addresses
are physical (R287 to R289). -/
def translate (ws : List Window) (p : Nat) (need : Need) (a : Nat) : Option Nat :=
  if p = 0 then (if a < dramTop then some a else none)
  else
    match ws.find? (fun w => w.hits a && w.grants need) with
    | some w => if w.dpn * 4096 + (a - w.ppn * 4096) < dramTop then some (w.dpn * 4096 + (a - w.ppn * 4096)) else none
    | none => none

def translateAll (ws : List Window) (p : Nat) (need : Need) (a : Nat) : Nat → Option (List Nat)
  | 0 => some []
  | n + 1 =>
    match translate ws p need a with
    | none => none
    | some x => (translateAll ws p need (a + 1) n).map (x :: ·)

/-- May partition p make this access to every byte? -/
def canAccess (s : State) (p : Nat) (need : Need) (a n : Nat) : Bool :=
  if p = 0 then a + n ≤ dramTop else (translateAll (windowsOf s p) p need a n).isSome

/-- Bytes read for partition p; none where some byte is not readable. -/
def readBytes (s : State) (p : Nat) (need : Need) (a n : Nat) : Option (List (BitVec 8)) :=
  if p = 0 then (if a + n ≤ dramTop then some (dramLoads s.dram a n) else none)
  else (translateAll (windowsOf s p) p need a n).map (fun l => l.map (dramByte s.dram))

/-- Device read for partition p. -/
def devRead (s : State) (p a n : Nat) : Option (List (BitVec 8)) := readBytes s p .devRead a n

def storeAll : List Host.Cell → List Nat → List (BitVec 8) → List Host.Cell
  | m, x :: xs, b :: bs => storeAll (dramStore m x b) xs bs
  | m, _, _ => m

/-- Memory after a write for partition p; none where some byte is not writable. -/
def writeMem (s : State) (p : Nat) (need : Need) (a : Nat) (bs : List (BitVec 8)) : Option (List Host.Cell) :=
  if p = 0 then (if a + bs.length ≤ dramTop then some (dramStores s.dram a bs) else none)
  else (translateAll (windowsOf s p) p need a bs.length).map (fun l => storeAll s.dram l bs)

/-- Device write for partition p; a refused write changes no byte and counts in PT_WIN_FAULT (R289). -/
def devWrite (s : State) (p a : Nat) (bs : List (BitVec 8)) : State :=
  match writeMem s p .devWrite a bs with
  | some m => { s with dram := m }
  | none => s.winFault p

/-! Rings. -/

/-- Write the index block of a ring (R327). -/
def indexBlock (s : State) (p r : Nat) : State :=
  let c := ringCfg s p r
  let x := s.ring p r
  let a := (s.cfg (0xC1000 + 8 * p) 0).toNat + fld (s.cfg (0xC1004 + 8 * p) 0) 15 0 * 2 ^ 32 + 16 * r
  devWrite s p a (leBytes 2 x.fi ++ leBytes 2 (if c.submission then x.wi else x.pi) ++ leBytes 4 x.dropped ++ leBytes 8 0)

/-- A record's words (R332): word 1 is RSEQ, the stamp in the last four words. -/
def recordWords (n : Nat) (w0 : BitVec 32) (rseq : Nat) (body : List (Nat × BitVec 32)) (st : Stamp) :
    List (BitVec 32) :=
  (List.range n).map (fun i =>
    if i = 0 then w0 else if i = 1 then BitVec.ofNat 32 rseq
    else if n ≤ i + 4 then st.words.getD (i + 4 - n) 0
    else (((body.find? (fun e => e.1 == i)).map Prod.snd).getD 0))

/-- Offer a record to one event ring (R332, R333): the new state and whether it was written. -/
def offerRecord (s : State) (p r : Nat) (w0 : BitVec 32) (body : List (Nat × BitVec 32)) (st : Stamp) : State × Bool :=
  let c := ringCfg s p r
  let x := s.ring p r
  let s1 := s.updRing p r (fun y => { y with rseq := (y.rseq + 1) % 2 ^ 32 })
  if (x.pi + c.size - x.ci) % c.size = c.size - 1 then
    (s1.updRing p r (fun y => { y with dropped := inc32 y.dropped, dbDrop := inc32 y.dbDrop, drop := true }), false)
  else
    let s2 := devWrite s1 p (c.base + x.pi * c.slot) (wordsBytes (recordWords c.words w0 x.rseq body st))
    (indexBlock (s2.updRing p r (fun y => { y with pi := (x.pi + 1) % c.size })) p r, true)

/-- The words of a write-back (R331). -/
def wbWords (n : Nat) (fw : List (BitVec 32)) (b : Wb) : List (BitVec 32) :=
  (List.range n).map (fun i =>
    if i = 0 then
      (match b.hi0 with
       | none => dw fw 0
       | some h => BitVec.ofNat 32 (h * 65536 + (dw fw 0).toNat % 65536))
    else if i = 1 then dw fw 1
    else if i = 2 then BitVec.ofNat 32 (b.status % 256 + b.flags % 256 * 256 + b.res16 % 65536 * 65536)
    else
      match b.stamp, decide (n ≤ i + 4) with
      | some st, true => st.words.getD (i + 4 - n) 0
      | _, _ => (((b.words.find? (fun e => e.1 == i)).map Prod.snd).getD 0))

/-- Write one write-back into slot WI and advance WI (R326). -/
def putWb (s : State) (p r : Nat) (f : Flight) (b : Wb) : State :=
  let c := ringCfg s p r
  let x := s.ring p r
  (devWrite s p (c.base + x.wi * c.slot) (wordsBytes (wbWords c.words f.words b))).updRing p r
    (fun y => { y with wi := (x.wi + 1) % c.size, flights := y.flights.filter (fun g => g.id != f.id), grpEdge := none })

/-- Write one write-back of a ring that completes out of order: those of one edge stand in fetch order (R336). -/
def putGroup (s : State) (p r : Nat) (f : Flight) (b : Wb) : State :=
  let c := ringCfg s p r
  let x := s.ring p r
  let same := x.grpEdge == some s.tb.edge
  let old := if same then x.grp else []
  let at_ := if same then x.grpAt else x.wi
  let first := old.filter (fun e => e.1.id < f.id)
  let g := first ++ (f, b) :: old.filter (fun e => f.id < e.1.id)
  ((g.zipIdx.drop first.length).foldl (fun a e =>
    devWrite a p (c.base + (at_ + e.2) % c.size * c.slot) (wordsBytes (wbWords c.words e.1.1.words e.1.2))) s).updRing p r
    (fun y => { y with wi := (at_ + g.length) % c.size, flights := y.flights.filter (fun z => z.id != f.id),
                       grpEdge := some s.tb.edge, grpAt := at_, grp := g })

/-- Status codes of R13. -/
def stDone : Nat := 0x00
def stAborted : Nat := 0x01
def stBadDesc : Nat := 0x02
def stNotPermitted : Nat := 0x03
def stRefusedFull : Nat := 0x04
def stExceeds : Nat := 0x05
def stConflict : Nat := 0x06
def stStale : Nat := 0x07
def stRevoked : Nat := 0x08
def stExhausted : Nat := 0x09
def stTimeNotValid : Nat := 0x0A
def stMediaError : Nat := 0x0B
def stMediaFull : Nat := 0x0C
def stTampered : Nat := 0x0D
def stNotReady : Nat := 0x0E

/-- Is a reset of a scope effective at this very edge (R298)? -/
def resetNow (s : State) (q : RScope → Bool) : Bool := s.pt.resets.any (fun x => x.effEdge == s.tb.edge && q x.scope)

/-- Is a commit to be applied at this very edge that disables the ring or its partition (R284, R324, R338, R351)? -/
def disabledNow (s : State) (p r : Nat) : Bool :=
  s.tx.txns.any (fun e => e.2.st == .pending && decide (slotCounter e.2.applySlot ≤ s.tb.counter) && e.2.keys.any (fun k =>
    (k.1 == regKey 0xC0010 (256 * p + r) || (p != 0 && k.1 == regKey (0xA0000 + 16 * p) 0)) && !k.2.getLsbD 31))

/-- A completion at the instant at which a reset or a commit stops its ring wins and carries ABORT_IGNORED (R298, R14). -/
def winsReset (s : State) (p r : Nat) (f : Flight) (b : Wb) : Wb :=
  if b.status = stDone && decide (f.at_ < s.tb.edge) && (resetNow s (fun c => c == .partition p) || disabledNow s p r) then
    { b with flags := b.flags ||| 1 }
  else b

/-- Write back what the ring's order lets write back (R336, R337): on an in-order ring every finished flight at the
front; a fence at the front finishes at once. Returns the flights written. -/
def drain : Nat → State → Nat → Nat → List Flight → State × List Flight
  | 0, s, _, _, acc => (s, acc)
  | n + 1, s, p, r, acc =>
    match (s.ring p r).flights with
    | [] => (s, acc)
    | f :: _ =>
      if f.fence then drain n (putWb s p r f (winsReset s p r f { status := stDone, stamp := some (stampNow s) })) p r (f :: acc)
      else
        match f.res with
        | some b => drain n (putWb s p r f b) p r (f :: acc)
        | none => (s, acc)

/-- Set a flight's result and write back what may be written: the new state and the flights written. -/
def settle (s : State) (p r id : Nat) (b0 : Wb) : State × List Flight :=
  match (s.ring p r).flights.find? (fun f => f.id == id) with
  | none => (s, [])
  | some f =>
    let b := winsReset s p r f b0
    if (ringCfg s p r).inOrder then
      let s1 := s.updRing p r (fun y =>
        { y with flights := y.flights.map (fun g => if g.id = id then { g with res := some b } else g) })
      drain (s1.ring p r).flights.length s1 p r []
    else
      let s1 := putGroup s p r f b
      drain (s1.ring p r).flights.length s1 p r [f]

/-- Is the partition's ring set served: the partition RUNNING and in no reset whose instant has come (R297, R329)? -/
def ringsServed (s : State) (p : Nat) : Bool :=
  (s.part p).state == .running && !(s.pt.resets.any (fun x => x.draining && x.scope == .partition p))

/-- Fetch the next descriptor of a ring: copy it, advance FI, and hold it in flight (R325, R326, R337). -/
def fetchDesc (s : State) (p r : Nat) : Option (State × Flight) :=
  let c := ringCfg s p r
  let x := s.ring p r
  if c.en && c.submission && x.fi != x.pi && !(x.flights.any (·.fence)) && ringsServed s p then
    let rd := devRead s p (c.base + x.fi * c.slot) c.slot
    let ws := match rd with
      | some bs => bytesWords bs
      | none => List.replicate c.words 0
    let f : Flight := { id := x.nextId, words := ws, at_ := s.tb.edge }
    some ((if rd.isNone then s.winFault p else s).updRing p r (fun y =>
      { y with fi := (x.fi + 1) % c.size, nextId := x.nextId + 1, flights := y.flights ++ [f] }), f)
  else none

/-- The opcode of the descriptor that would be fetched next. -/
def peekDesc (s : State) (p r : Nat) : Option (List (BitVec 32)) :=
  let c := ringCfg s p r
  let x := s.ring p r
  if c.en && c.submission && x.fi != x.pi then
    some (match devRead s p (c.base + x.fi * c.slot) c.slot with
      | some bs => bytesWords bs
      | none => List.replicate c.words 0)
  else none

end Sys2Proof.Machine
end

