-- ==== Sys2Proof/Machine/SchedOps.lean ====
section
/-! DEFINITION. The scheduler's tables, releases, ready list and posts (R303 to R322), without the messages it asserts. -/

namespace Sys2Proof.Machine

def State.task (s : State) (h t : Nat) : Task := Tbl.get {} s.sq.tasks (256 * h + t)
def State.updTask (s : State) (h t : Nat) (f : Task → Task) : State :=
  { s with sq.tasks := Tbl.upd {} s.sq.tasks (256 * h + t) f }
def State.sched (s : State) (h : Nat) : Sched := Tbl.get {} s.sq.hearths h
def State.updSched (s : State) (h : Nat) (f : Sched → Sched) : State :=
  { s with sq.hearths := Tbl.upd {} s.sq.hearths h f }

/-- A committed task entry (R303). -/
structure TaskCfg where
  valid : Bool
  src : Nat
  np : Bool
  deadline : Nat
  period : Nat
  phase : Nat
  evt : Nat
  budget : Nat
  deriving DecidableEq, Repr

def taskCfgOf (w0 w1 w2 w3 : BitVec 32) : TaskCfg :=
  { valid := bit w0 31, src := fld w0 30 29, np := bit w0 28, deadline := fld w0 19 0, period := fld w1 23 0,
    phase := fld w2 23 0, evt := fld w3 31 24, budget := fld w3 19 0 }
def taskCfg (s : State) (h t : Nat) : TaskCfg :=
  taskCfgOf (s.cfg 0xB0040 (256 * h + t)) (s.cfg 0xB0044 (256 * h + t)) (s.cfg 0xB0048 (256 * h + t))
    (s.cfg 0xB004C (256 * h + t))

/-- Tasks of hearth h that are valid or have a runtime record, lowest first. -/
def tasksOf (s : State) (h : Nat) : List Nat :=
  ((((listedSel s 0xB0040) ++ s.sq.tasks.keys).filter (fun k => k / 256 == h)).map (· % 256)).foldl addRising []

/-- First TIMER release instant at or after an instant (R307), 2^-16 ns. -/
def timerFrom (c : TaskCfg) (t16 : Nat) : Nat :=
  let m := ceilDiv t16 65536000
  let per := if c.period = 0 then 1 else c.period
  us16 (m + (c.phase + per - m % per) % per)

/-- The present instant: the exact one of a slot edge at the counter-clock edge of that slot edge. -/
def edgeInstant (s : State) : Nat :=
  if s.tb.counter < slotCounter (edgeNow s) + s.tb.addend then slotT16 (edgeNow s) else now16 s

/-- Start a task's history (R305, R321): a valid task waits, another is dormant. -/
def startHistory (s : State) (h t : Nat) : State :=
  let c := taskCfg s h t
  let x := s.task h t
  let base : Task := { releases := x.releases, misses := x.misses, overrun := x.overrun, budgetOvr := x.budgetOvr,
                       hist0 := edgeInstant s }
  if c.valid then
    s.updTask h t (fun _ => { base with
      st := .waiting, wake := if c.src = 0 then some (timerFrom c (edgeInstant s)) else none })
  else s.updTask h t (fun _ => base)

/-- Ready and running jobs of a hearth in the order of R311. -/
def jobBefore (s : State) (h a b : Nat) : Bool :=
  let x := s.task h a
  let y := s.task h b
  x.d < y.d || (x.d == y.d && (x.r < y.r || (x.r == y.r && a ≤ b)))
def jobsOf (s : State) (h : Nat) : List Nat :=
  sortBy (jobBefore s h) ((tasksOf s h).filter (fun t => (s.task h t).st == .ready || (s.task h t).st == .running))

/-- Head of the ready list (R311): the running job when it is non-preemptible. -/
def readyHead (s : State) (h : Nat) : Option Nat :=
  match (s.sched h).running with
  | some t => if (taskCfg s h t).np then some t else (jobsOf s h).head?
  | none => (jobsOf s h).head?

/-- The job that a dispatch message would name (R312): the head when it may displace the running job. -/
def dispatchHead (s : State) (h : Nat) : Option Nat :=
  match (s.sched h).running, readyHead s h with
  | none, x => x
  | some t, some u => if u ≠ t ∧ (s.task h u).d < (s.task h t).d then some u else none
  | some _, none => none

/-- The job at the head as far as the core has been told: the one a message would name, else the running one. -/
def runHead (s : State) (h : Nat) : Option Nat := (dispatchHead s h).or (s.sched h).running

/-- Make a release: the task's job becomes READY with instant r and deadline r + DEADLINE (R307). -/
def makeReady (s : State) (h t r : Nat) : State :=
  let c := taskCfg s h t
  s.updTask h t (fun x => { x with
    st := .ready, first := false, lastRel := r, r := r, d := r + us16 c.deadline,
    bud := c.budget, ran := 0, missed := false, overBudget := false, releases := inc32 x.releases,
    wake := if c.src = 2 then none else x.wake })

/-- A TIMER, BELL or HANDOFF release at r: made when the task waits, else counted in OVERRUN (R308). -/
def releaseOrOverrun (s : State) (h t r : Nat) : State :=
  match (s.task h t).st with
  | .waiting => makeReady s h t r
  | .dormant => s
  | _ => s.updTask h t (fun x => { x with overrun := inc32 x.overrun })

/-- Release of a POST task that waits and has a post queued (R307, R308): now, or later from the delay list. The release instant counts
from the arrival of the oldest post. -/
def postRelease (s : State) (h t : Nat) : State :=
  let c := taskCfg s h t
  let x := s.task h t
  match (s.sched h).posts.find? (fun q => q.task == t) with
  | some q =>
    if c.valid && c.src == 2 && x.st == .waiting && x.wake.isNone then
      let r := max q.at_ (if x.first then x.hist0 else x.lastRel + us16 c.period)
      if r ≤ now16 s then makeReady s h t r else s.updTask h t (fun y => { y with wake := some r })
    else s
  | none => s

/-- Delay-list entries of a hearth: wake instant and task, in the order of R309. -/
def delayList (s : State) (h : Nat) : List (Nat × Nat) :=
  sortBy (fun a b => a.1 < b.1 || (a.1 == b.1 && a.2 ≤ b.2))
    ((tasksOf s h).filterMap (fun t => (s.task h t).wake.map (fun w => (w, t))))

/-- Release one passed entry at tick microsecond m (R309, R310). -/
def tickEntry (h m : Nat) (s : State) (e : Nat × Nat) : State :=
  let c := taskCfg s h e.2
  if c.src = 0 then
    let s1 := releaseOrOverrun s h e.2 e.1
    let per := us16 (if c.period = 0 then 1 else c.period)
    let more := (us16 m - e.1) / per
    s1.updTask h e.2 (fun x => { x with wake := some (e.1 + (more + 1) * per), overrun := add32 x.overrun more })
  else makeReady s h e.2 e.1

/-- The releases of the ticks up to the present edge, which are entered before the BELL and HANDOFF releases of the edge (R309, R317). -/
def tickDue (h : Nat) (s : State) : State :=
  let m := now16 s / 65536000
  ((delayList s h).filter (fun e => e.1 ≤ us16 m)).foldl (tickEntry h m) s

def postClsNat : PostCls → Nat
  | .local_ => 0
  | .peer => 1
  | .device => 2

/-- Free slots of a producer class (R314, R28). -/
def freeSlots (x : Sched) (c : PostCls) : Nat := 64 - (x.posts.filter (fun q => q.cls == c)).length

def countRefused (x : Sched) (c : PostCls) : Sched :=
  { x with refusedFlag := true, refused :=
      match c with
      | .local_ => (inc32 x.refused.1, x.refused.2.1, x.refused.2.2)
      | .peer => (x.refused.1, inc32 x.refused.2.1, x.refused.2.2)
      | .device => (x.refused.1, x.refused.2.1, inc32 x.refused.2.2) }

/-- Is the hearth in a reset whose instant has come (R297, R316)? -/
def inResetOf (s : State) (h : Nat) : Bool :=
  s.pt.resets.any (fun x => x.draining && (x.scope == .hearth h || x.scope == .partition (hearthOwner s h)))

/-- Try to queue a post: its status, and the state with the post queued or the refusal counted (R314, R316). -/
def queuePost (s : State) (h : Nat) (q : Post) (permitted : Bool) : Nat × State :=
  let refuse (st : Nat) := (st, s.updSched h (fun x => countRefused x q.cls))
  if !permitted then refuse stNotPermitted
  else if !(taskCfg s h q.task).valid then refuse stBadDesc
  else if inResetOf s h then refuse stNotReady
  else if freeSlots (s.sched h) q.cls = 0 then refuse stRefusedFull
  else (stDone, postRelease (s.updSched h (fun x => { x with posts := x.posts ++ [{ q with at_ := now16 s }] })) h q.task)

/-- Stop the RUNNING time of the running job, adding what it ran (R320). -/
def stopRunning (s : State) (h : Nat) (dest : TaskSt) : State :=
  match (s.sched h).running with
  | some t => (s.updTask h t (fun x => { x with st := dest, ran := x.ran + (s.tb.edge - x.from_) })).updSched h
      (fun x => { x with running := none })
  | none => s

/-- End every job, clear lists and posts of a hearth, and start every history again (R322). -/
def resetSched (s : State) (h : Nat) : State :=
  let ts := tasksOf s h
  let s1 := s.updSched h (fun x => { x with
    running := none, posts := [],
    discarded := add32 x.discarded x.posts.length })
  ts.foldl (fun a t => startHistory a h t) s1

end Sys2Proof.Machine
end

