-- ==== Sys2Proof/Machine/Irq.lean ====
section
/-! DEFINITION. Interrupt assertion with its stamp record, device post and dispatch (R292 to R295, R312, R315), event
records with their completion interrupts (R332 to R335), and write-backs (R331, R335, R336). -/

namespace Sys2Proof.Machine

/-- The tasks of a hearth bound to an identity (R315). -/
def boundTask (s : State) (h id : Nat) : Option Nat :=
  if id = 0 then none
  else (((listedSel s 0xB0040).filter (fun k => k / 256 == h)).map (· % 256)).find?
    (fun t => (taskCfg s h t).valid && (taskCfg s h t).evt == id)

/-- The 64-byte IRQ_STAMP record of an assertion (R295), offered to the interrupt-stamp ring of the hearth's owner. -/
def irqStamp (s : State) (h f id : Nat) (src : BitVec 32) : State :=
  let p := hearthOwner s h
  let file := s.file h f
  let w4 := b2n (file.pend.contains id) + 2 * b2n (!file.eie.contains id)
  match ringOfType s p 0x0F with
  | none => s.dbErr p
  | some r =>
    (offerRecord s p r (BitVec.ofNat 32 (0xB1 + id * 65536 + f * 2 ^ 24))
      [(2, BitVec.ofNat 32 h), (3, src), (4, BitVec.ofNat 32 w4)] (stampNow s)).1

/-- Assert an identity in an interrupt file: stamp record, then a DEVICE post to the bound task or the pending bit; a
post that changes the dispatch head asserts DISP_ID in turn. Fuel bounds that chain (each link takes a post slot). -/
def assertIrq : Nat → State → Nat → Nat → Nat → BitVec 32 → State
  | 0, s, _, _, _, _ => s
  | n + 1, s, h, f, id, src =>
    if id = 0 ∨ id > 255 then s
    else
      let s1 := irqStamp s h f id src
      let pendIt (x : State) : State := x.updFile h f (fun y =>
        { y with pend := addRising y.pend id, src := y.src ++ [(id, src.toNat / 2 ^ 24, src.toNat % 65536)] })
      if f = 0 then
        match boundTask s h id with
        | some t =>
          let before := dispatchHead s1 h
          let q := queuePost s1 h { cls := .device, src := 0, ident := id, task := t, payload := BitVec.ofNat 32 id } true
          if q.1 = stDone then
            let s2 := q.2
            let after := dispatchHead s2 h
            if after ≠ before ∧ after.isSome then
              assertIrq n s2 h 0 (fld (s.cfg 0xB0008 (256 * h)) 7 0) (BitVec.ofNat 32 (11 * 2 ^ 24 + h))
            else s2
          else pendIt q.2
        | none => pendIt s1
      else pendIt s1

/-- Source word of a device assertion: block position and unit (R295). -/
def devSrc (block unit : Nat) : BitVec 32 := BitVec.ofNat 32 (block * 2 ^ 24 + unit % 65536)

/-- A device interrupt of partition p (R293); identity 0 sends nothing. -/
def devIrq (s : State) (p id block unit : Nat) : State :=
  if id = 0 then s else assertIrq 256 s (irqHearth s p) 0 id (devSrc block unit)

/-- After a change of hearth h's lists: assert the dispatch identity when the head changed (R312). -/
def dispatchIf (before : Option Nat) (s : State) (h : Nat) : State :=
  let after := dispatchHead s h
  if after ≠ before ∧ after.isSome then
    (let id := fld (s.cfg 0xB0008 (256 * h)) 7 0
     if id = 0 then s else assertIrq 256 s h 0 id (devSrc 11 h))
  else s

/-- Do f on hearth h's scheduler and dispatch as R312 says. -/
def withDispatch (s : State) (h : Nat) (f : State → State) : State := dispatchIf (dispatchHead s h) (f s) h

/-- Completion interrupt of a ring after an index-block write (R335). -/
def ringIrq (s : State) (p r : Nat) (flagged : Bool) : State :=
  let c := ringCfg s p r
  if c.irqId ≠ 0 ∧ c.type ≠ 0x0F ∧ (flagged ∨ c.irqAll) then devIrq s p c.irqId 12 r else s

/-- Offer a record to one ring and raise its completion interrupt. -/
def recordTo (s : State) (p r : Nat) (w0 : BitVec 32) (body : List (Nat × BitVec 32)) (st : Stamp) : State :=
  let x := offerRecord s p r w0 body st
  if x.2 then ringIrq x.1 p r (bit w0 8) else x.1

/-- Send a record to partition p's ring of an event type (R334). -/
def record (s : State) (p type : Nat) (w0 : BitVec 32) (body : List (Nat × BitVec 32)) (st : Stamp) : State :=
  match ringOfType s p type with
  | none => s.dbErr p
  | some r => recordTo s p r w0 body st

/-- Send a record to every enabled ring of type 0x13 of every partition; a partition without one counts it in DB_ERR (R334, R429, R430). -/
def recordAll (s : State) (w0 : BitVec 32) (body : List (Nat × BitVec 32)) (st : Stamp) : State :=
  (List.range 32).foldl (fun a p =>
    let rs := (enabledRings s p).filter (fun r => (ringCfg s p r).type == 0x13)
    if rs.isEmpty then a.dbErr p else rs.foldl (fun b r => recordTo b p r w0 body st) a) s

/-- Complete a flight with a write-back; the index block and the completion interrupt follow what was written. -/
def complete (s : State) (p r id : Nat) (b : Wb) : State :=
  let x := settle s p r id b
  if x.2.isEmpty then x.1 else ringIrq (indexBlock x.1 p r) p r (x.2.any (fun f => bit (dw f.words 0) 8))

/-- Complete with a status at the present instant. -/
def finish (s : State) (p r id status : Nat) : State := complete s p r id { status := status, stamp := some (stampNow s) }
def finishIgn (s : State) (p r id : Nat) : State :=
  complete s p r id { status := stDone, flags := 1, stamp := some (stampNow s) }

/-- Complete by ring key 64·p + r. -/
def finishKey (s : State) (k id status : Nat) : State := finish s (k / 64) (k % 64) id status
def completeKey (s : State) (k id : Nat) (b : Wb) : State := complete s (k / 64) (k % 64) id b

/-- The indices of a ring that a commit has disabled read 0 (R324). -/
def ringZero (y : RingRun) : RingRun := { y with pi := 0, fi := 0, wi := 0, ci := 0, grpEdge := none }

/-- Complete what no abort can end any more: on a ring that a commit has disabled it carries ABORT_IGNORED, and the indices go back to
0 (R324, R338, R351). -/
def completeWon (s : State) (k id : Nat) (b : Wb) : State :=
  if (ringCfg s (k / 64) (k % 64)).en then completeKey s k id b
  else (completeKey s k id (if b.status = stDone then { b with flags := b.flags ||| 1 } else b)).updRing (k / 64) (k % 64) ringZero

/-- The flight with an identifier, while it has no result. -/
def openFlight (s : State) (k id : Nat) : Option Flight :=
  (Tbl.get {} s.db.rings k).flights.find? (fun f => f.id == id && f.res.isNone)

/-- Run one descriptor command on ring r of partition p at the present instant. The next descriptor is fetched; one whose
opcode the ring does not accept ends BAD_DESC (R330); one that is not this row's (`mine`) leaves the state as it was. -/
def withDesc (s : State) (p r : Nat) (mine : RingCfg → List (BitVec 32) → Bool) (act : State → Flight → State) : State :=
  match peekDesc s p r with
  | none => s
  | some ws =>
    let c := ringCfg s p r
    if !(c.accepts (opcodeOf ws)) then
      match fetchDesc s p r with
      | some x => finish x.1 p r x.2.id stBadDesc
      | none => s
    else if mine c ws then
      match fetchDesc s p r with
      | some x => act x.1 x.2
      | none => s
    else s

/-- NOP (R337). -/
def nopAct (p r : Nat) (s : State) (f : Flight) : State :=
  finish s p r f.id (if reservedOk f.words 0 [] then stDone else stBadDesc)

/-- FENCE (R337): held until every descriptor fetched before it has written back. -/
def fenceAct (p r : Nat) (s : State) (f : Flight) : State :=
  if !reservedOk f.words 0 [] then finish s p r f.id stBadDesc
  else
    let s1 := s.updRing p r (fun y =>
      { y with flights := y.flights.map (fun g => if g.id = f.id then { g with fence := true } else g) })
    let x := drain (s1.ring p r).flights.length s1 p r []
    if x.2.isEmpty then x.1 else ringIrq (indexBlock x.1 p r) p r (x.2.any (fun g => bit (dw g.words 0) 8))

end Sys2Proof.Machine
end

