-- ==== Sys2Proof/Machine/TxnOps.lean ====
section
/-! DEFINITION. Configuration transactions (chapter 14): staging, claims, begin, commit and rollback. The application of a
commit is in Machine/Apply.lean. -/

namespace Sys2Proof.Machine

/-- Transactions OPEN or PENDING in the module, and keys staged in the module (R343, R344). -/
def openTxns (s : State) : Nat := (s.tx.txns.filter (fun e => e.2.st != .idle)).length
def stagedTotal (s : State) : Nat := (s.tx.txns.map (fun e => e.2.keys.length)).foldl (· + ·) 0

/-- Is a key claimed by a transaction of another partition (R345)? -/
def claimedByOther (s : State) (p key : Nat) : Bool :=
  s.tx.txns.any (fun e => e.1 != p && e.2.st != .idle && e.2.keys.any (fun k => k.1 == key))

/-- Stage the /T bits of a store (R341 to R345). -/
def stageKey (p key : Nat) (v : BitVec 32) (s : State) : State :=
  let x := s.txn p
  if claimedByOther s p key then
    s.updTxn p (fun y => { y with conflict := true, claimRef := inc32 y.claimRef })
  else if x.keys.any (fun k => k.1 == key) then
    s.updTxn p (fun y => { y with keys := y.keys.map (fun k => if k.1 = key then (key, v) else k) })
  else if x.keys.length ≥ 4096 ∨ stagedTotal s ≥ 16384 then s.updTxn p (fun y => { y with overflow := true })
  else s.updTxn p (fun y => { y with keys := y.keys ++ [(key, v)] })

/-- A store of /T bits: staged while the partition's transaction is OPEN, else ignored and counted (R11, R341). -/
def storeT (p key : Nat) (v : BitVec 32) (s : State) : State :=
  if (s.txn p).st = .open_ then stageKey p key v s else s.txIgn p

/-- Discard a partition's transaction and release its claims. -/
def dropTxn (p : Nat) (s : State) : State :=
  s.updTxn p (fun y => { y with st := .idle, keys := [], conflict := false, overflow := false })

/-- Open a transaction of partition p with the next TXID (R344). -/
def openTxn (p : Nat) (s : State) : State :=
  let id := s.tx.nextId + 1
  { s with tx.nextId := id }.updTxn p (fun y =>
    { y with st := .open_, txid := id, conflict := false, overflow := false, keys := [] })

def txnBeginAct (standby : Bool) (p r : Nat) (s : State) (f : Flight) : State :=
  if !reservedOk f.words 0 [] then finish s p r f.id stBadDesc
  else if standby then finish s p r f.id stNotPermitted
  else if (s.txn p).st ≠ .idle then finish s p r f.id stConflict
  else if openTxns s ≥ 8 then finish s p r f.id stRefusedFull
  else
    let s1 := openTxn p s
    complete s1 p r f.id { status := stDone, res16 := (s1.txn p).txid.toNat, stamp := some (stampNow s) }

/-- End a TXN_COMMIT with a status, word 2 carrying TXID (R348). -/
def finishTxn (s : State) (k id status : Nat) (txid : BitVec 16) : State :=
  completeKey s k id { status := status, res16 := txid.toNat, stamp := some (stampNow s) }

/-- The status with which a commit of an OPEN transaction ends at its fetch, or its application slot (R346). -/
def commitCheck (s : State) (x : Txn) (ws : List (BitVec 32)) : Sum Nat Nat :=
  let at_ := bit (dw ws 0) 9
  let inst := timeAt ws 2
  if x.conflict then .inl stConflict
  else if x.overflow then .inl stExceeds
  else if at_ && !s.timeValid then .inl stTimeNotValid
  else if at_ && (!nsOk ws 2 || inst < now16 s + us16 20 || inst > now16 s + sec16 86400) then .inl stBadDesc
  else if at_ then .inr (slotCeil inst)
  else .inr (slotCeil (now16 s + us16 20))

def txnCommitAct (standby : Bool) (p r : Nat) (s : State) (f : Flight) : State :=
  let x := s.txn p
  if !reservedOk f.words 0x200 [(2, 0xFFFFFFFF), (3, 0xFFFFFFFF), (4, 0xFFFFFFFF), (5, 0xFFFFFFFF)] then
    finish s p r f.id stBadDesc
  else if standby then finish s p r f.id stNotPermitted
  else
    match x.st with
    | .idle => finish s p r f.id stBadDesc
    | .pending => finishTxn s (64 * p + r) f.id stConflict x.txid
    | .open_ =>
      match commitCheck s x f.words with
      | .inl st => finishTxn (dropTxn p s) (64 * p + r) f.id st x.txid
      | .inr slot =>
        { s with tx.nextOrder := s.tx.nextOrder + 1 }.updTxn p (fun y =>
          { y with st := .pending, applySlot := slot, order := s.tx.nextOrder, ring := 64 * p + r, flight := f.id })

/-- Roll a transaction back; a PENDING commit ends ABORTED (R350). -/
def rollTxn (p : Nat) (s : State) : State :=
  let x := s.txn p
  match x.st with
  | .pending => finishTxn (dropTxn p s) x.ring x.flight stAborted x.txid
  | _ => dropTxn p s

/-- Has the application edge of a PENDING transaction come (R350)? -/
def applyCame (s : State) (x : Txn) : Bool := x.st == .pending && slotCounter x.applySlot ≤ s.tb.counter

/-- Does a rollback find nothing that it can undo (R350)? -/
def rollbackLate (s : State) (p : Nat) : Bool := (s.txn p).st == .idle || applyCame s (s.txn p)

def txnRollbackAct (standby : Bool) (p r : Nat) (s : State) (f : Flight) : State :=
  if !reservedOk f.words 0 [] then finish s p r f.id stBadDesc
  else if standby then finish s p r f.id stNotPermitted
  else if rollbackLate s p then finishIgn s p r f.id
  else finish (rollTxn p s) p r f.id stDone

end Sys2Proof.Machine
end

