-- ==== Sys2Proof/Machine/AcqOps.lean ====
section
/-! DEFINITION. Shared by acquisition: stream-table and chain entries (R75, R133), bell edges and cutoffs (R24, R64, R91),
quality words (R95, R123), per-stream counters (R108). -/

namespace Sys2Proof.Machine

/-! Quality words (R95). -/

def qValidity (q : BitVec 32) : Nat := fld q 1 0
/-- Invalid; the reserved code counts as invalid (R95). -/
def qInvalid (q : BitVec 32) : Bool := qValidity q == 1 || qValidity q == 2
def qQuest (q : BitVec 32) : Bool := qValidity q == 3
def qGood (q : BitVec 32) : Bool := qValidity q == 0
def setValidity (q : BitVec 32) (v : Nat) : BitVec 32 := (q &&& 0xFFFFFFFC) ||| BitVec.ofNat 32 v
/-- At least questionable. -/
def worsen (q : BitVec 32) : BitVec 32 := if qInvalid q then setValidity q 1 else setValidity q 3
def toInvalid (q : BitVec 32) : BitVec 32 := setValidity q 1
def qOverflow : BitVec 32 := 0x4
def qOutOfRange : BitVec 32 := 0x8
def qOldData : BitVec 32 := 0x80
def qInconsistent : BitVec 32 := 0x100
def qInaccurate : BitVec 32 := 0x200
def qSubst : BitVec 32 := 0x400
def qTest : BitVec 32 := 0x800
def qHeld : BitVec 32 := 0x10000
def qMissing : BitVec 32 := 0x20000
def qLost : BitVec 32 := 0x40000
def qUnsync : BitVec 32 := 0x80000
def qSim : BitVec 32 := 0x100000

/-- Quality formed from several words (R123): worst validity, and the OR of every other bit. -/
def mergeQ (qs : List (BitVec 32)) : BitVec 32 :=
  setValidity (qs.foldl (fun a q => a ||| q) 0)
    (if qs.any qInvalid then 1 else if qs.any qQuest then 3 else 0)

/-- QUALITY of a slot edge (R25): kept for the latest edges. -/
def edgeQuality (s : State) (k : Nat) : BitVec 16 := ((s.ig.edges.find? (fun e => e.1 == k)).map Prod.snd).getD s.quality

/-! The stream table. -/

structure Ste where
  valid : Bool
  kind : Nat
  owner : Nat
  ports : Nat
  rate : Nat
  auth : Nat
  appid : Nat
  mac : Nat
  vlanReq : Bool
  vlan : Nat
  confRev : Nat
  /-- CRC of svID or gocbRef, or the source IPv4 address. -/
  idCrc : Nat
  idLen : Nat
  croft : Nat
  base : Nat
  nch : Nat
  noAsdu : Nat
  loss : Nat
  missInvalid : Bool
  syncReq : Nat
  syncMiss : Bool
  simAccept : Bool
  sink : Bool
  aValid : Bool
  aNode : Nat
  aKey : BitVec 32
  bValid : Bool
  bNode : Nat
  bKey : BitVec 32
  overlap : Nat
  margin : Nat
  deriving DecidableEq, Repr

def steOf (w : Nat → BitVec 32) : Ste :=
  { valid := bit (w 0) 31, kind := fld (w 0) 30 29, owner := fld (w 0) 28 24, ports := fld (w 0) 23 20,
    rate := fld (w 0) 19 18, auth := fld (w 0) 17 16, appid := fld (w 0) 15 0,
    mac := fld (w 2) 15 0 * 2 ^ 32 + (w 1).toNat, vlanReq := bit (w 2) 28, vlan := fld (w 2) 27 16,
    confRev := (w 3).toNat, idCrc := (w 4).toNat, idLen := fld (w 5) 7 0, croft := fld (w 6) 31 28,
    base := fld (w 6) 15 0, nch := fld (w 7) 31 24, noAsdu := fld (w 7) 23 20, loss := fld (w 7) 19 16,
    missInvalid := bit (w 7) 15, syncReq := fld (w 7) 14 13, syncMiss := bit (w 7) 12, simAccept := bit (w 7) 11,
    sink := bit (w 7) 10, aValid := bit (w 8) 31, aNode := fld (w 8) 11 0, aKey := w 9, bValid := bit (w 10) 31,
    bNode := fld (w 10) 11 0, bKey := w 11, overlap := fld (w 12) 7 0, margin := fld (w 13) 31 16 }

def steWords (s : State) (e : Nat) : List (BitVec 32) := (List.range 16).map (fun i => s.cfg (0x10040 + 4 * i) e)
def steOfList (ws : List (BitVec 32)) : Ste := steOf (fun i => ws.getD i 0)
def ste (s : State) (e : Nat) : Ste := steOf (fun i => s.cfg (0x10040 + 4 * i) e)
/-- Valid entries, rising. -/
def steValid (s : State) : List Nat := (listedSel s 0x10040).filter (fun e => bit (s.cfg 0x10040 e) 31)

/-- Samples per slot of a RATE code, which is also its cost in channel-equivalents (R16, R23). -/
def perSlot : Nat → Nat
  | 0 => 1 | 1 => 3 | 2 => 20 | _ => 1

/-- The hamlet of a Griuz entry, and its croft's bell (R193). -/
def Ste.hamlet (x : Ste) : Nat := x.base / 16
/-- The croft whose bell closes the entry's content. -/
def Ste.bell (x : Ste) : Nat := if x.kind = 2 then 4 * x.hamlet else x.croft

/-- Channel-equivalents of an SV entry (R76). -/
def Ste.span (x : Ste) : Nat := x.noAsdu * x.nch * perSlot x.rate

/-- The valid SV entry that places a channel at a first channel-equivalent (R93, R110). -/
def placerOf (s : State) (c ce : Nat) : Option Nat :=
  (steValid s).find? (fun e =>
    let x := ste s e
    x.kind == 0 && x.croft == c && x.base ≤ ce && ce < x.base + x.span && (ce - x.base) % perSlot x.rate == 0)
/-- Samples per slot of the channel placed at (c, ce). -/
def placedRate (s : State) (c ce : Nat) : Option Nat := (placerOf s c ce).map (fun e => perSlot (ste s e).rate)
/-- First channel-equivalents of the placed channels of a croft that an entry places. -/
def steChannels (x : Ste) : List Nat := (List.range (x.noAsdu * x.nch)).map (fun i => x.base + i * perSlot x.rate)

def State.stream (s : State) (e : Nat) : StreamRt := Tbl.get {} s.ig.streams e
def State.updStream (s : State) (e : Nat) (f : StreamRt → StreamRt) : State :=
  { s with ig.streams := Tbl.upd {} s.ig.streams e f }
/-- Count in a per-stream counter (R108). -/
def igCountN (s : State) (e i n : Nat) : State := { s with ig.cnt := Tbl.upd 0 s.ig.cnt (16 * e + i) (fun c => add32 c n) }
def igCount (s : State) (e i : Nat) : State := igCountN s e i 1
/-- LAST_REASON, beside the INCONSISTENT count of the same word. -/
def igReason (s : State) (e reason : Nat) : State :=
  { s with ig.cnt := Tbl.upd 0 s.ig.cnt (16 * e + 15) (fun c => c / 65536 * 65536 + reason) }
def igInconsistent (s : State) (e : Nat) : State :=
  { s with ig.cnt := Tbl.upd 0 s.ig.cnt (16 * e + 15) (fun c => if c / 65536 < 65535 then c + 65536 else c) }
def igOther (s : State) (off : Nat) : State := { s with ig.other := Tbl.upd 0 s.ig.other off inc32 }
/-- Count an ignored window write in a croft's FC_WIN_IGN (R134). -/
def winIgn (s : State) (c : Nat) : State := { s with fc.winIgn := Tbl.upd 0 s.fc.winIgn c inc32 }

def streamNat : StreamSt → Nat
  | .idle => 0 | .waiting => 1 | .running => 2 | .lost => 3

/-- Is a stream RUNNING and not declared lost at the close of the latest slot (R97)? -/
def streamUp (s : State) (e : Nat) : Bool :=
  (s.stream e).st == .running && !((ste s e).kind != 1 && decide ((ste s e).loss ≤ (s.stream e).miss))

/-- Change a stream's state and write the STREAM_STATE record (R98, R109); a state record carries reason 0. -/
def streamTo (s : State) (e : Nat) (new : StreamSt) (stamp : Stamp) : State :=
  let old := (s.stream e).st
  if old = new then s
  else
    record (s.updStream e (fun x => { x with st := new })) (ste s e).owner 0x08
      (BitVec.ofNat 32 (0x41 + 65536 * e)) [(2, BitVec.ofNat 32 (streamNat new + 16 * streamNat old))] stamp

/-! Bells and cutoffs. -/

def bellLag (s : State) (c : Nat) : Nat := fld (s.cfg (0x400 + 4 * c) 0) 3 0
/-- The edge that closes slot k of croft c (R24, R64). -/
def closeEdge (s : State) (c k : Nat) : Nat :=
  let o := Tbl.get (0, 0) s.ig.lagOld c
  if o.1 ≠ 0 ∧ k + o.2 ≤ o.1 then k + o.2 else max (o.1 + 1) (k + bellLag s c)
/-- Cutoff of slot k (R91), 2^-16 ns. -/
def cutoff (s : State) (c k : Nat) : Nat := slotT16 (closeEdge s c k) - us16 4
/-- First slot of croft c whose cutoff follows an instant (R102). -/
def effSlot (s : State) (c t16 : Nat) : Nat :=
  let j := slotOf (t16 + us16 4)
  (((List.range 20).map (fun i => j + i - 9)).find? (fun k => t16 < cutoff s c k)).getD (j + 11)

/-! Chain entries. -/

def chainKey (c ce : Nat) : Nat := 2048 * c + ce
def chainSel (c ce : Nat) : Nat := c * 4096 + ce
def State.chain (s : State) (c ce : Nat) : ChainRt := Tbl.get {} s.fc.chains (chainKey c ce)
def State.updChain (s : State) (c ce : Nat) (f : ChainRt → ChainRt) : State :=
  { s with fc.chains := Tbl.upd {} s.fc.chains (chainKey c ce) f }

structure ChainCfg where
  en : Bool
  scs : Bool
  nstage : Nat
  win : Nat
  abs : Bool
  evt : Bool
  shift : Nat
  resp : List Nat
  gain : Int
  hi : Int
  lo : Int
  deriving DecidableEq, Repr

def chainOf (w : Nat → BitVec 32) : ChainCfg :=
  { en := bit (w 0) 31, scs := bit (w 0) 30, nstage := fld (w 0) 29 27, win := fld (w 0) 26 25, abs := bit (w 0) 24,
    evt := bit (w 0) 23, shift := fld (w 0) 19 16, resp := (List.range 6).map (fun i => fld (w 1) (5 * i + 4) (5 * i)),
    gain := (w 2).toInt, hi := (w 3).toInt, lo := (w 4).toInt }
def chainWords (s : State) (c ce : Nat) : List (BitVec 32) :=
  (List.range 8).map (fun i => s.cfg (0x20020 + 4 * i) (chainSel c ce))
/-- The earliest recorded settings that still hold for slot k, else the present words. -/
def wordsAt (olds : List (Nat × List (BitVec 32))) (present : List (BitVec 32)) (k : Nat) : List (BitVec 32) :=
  match olds.find? (fun o => k < o.1) with
  | some o => o.2
  | none => present
/-- A chain's settings for the samples of slot k (R129). -/
def chainCfgAt (s : State) (c ce k : Nat) : ChainCfg :=
  let ws := wordsAt (s.chain c ce).olds (chainWords s c ce) k
  chainOf (fun i => ws.getD i 0)
def chainCfg (s : State) (c ce : Nat) : ChainCfg := let ws := chainWords s c ce; chainOf (fun i => ws.getD i 0)

/-- The settings of a chain in its croft's latest closed slot: those of its latest samples (R129). -/
def chainLive (s : State) (c ce : Nat) : ChainCfg := chainCfgAt s c ce (Tbl.get 0 s.ig.closed c)

/-- Scaled sample (R121) and whether it saturated. -/
def scaleSample (x : ChainCfg) (v : Int) : Int × Bool :=
  let r := roundEven (v * x.gain * 2 ^ x.shift) (2 ^ 30)
  (satN 40 r, satN 40 r != r)

end Sys2Proof.Machine
end

