-- ==== Sys2Proof/Machine/Views.lean ====
section
/-! DEFINITION. Readings of the state that the status registers share with the chapters' operations: node counts (chapter
17), flash pages (19), the green's cells (15), response coefficients (04), capture shares (05) and lines (07). -/

namespace Sys2Proof.Machine

/-- The life-cycle state in force (R390). -/
def lcState (s : State) : Nat := if s.ok.service then 3 else s.ok.fused
def countSt (s : State) (q : NodeSt) : Nat := (s.ok.nodes.filter (fun e => e.2.st == q)).length
/-- FREE nodes: the slots that are neither LIVE nor DYING (R28, R394). -/
def freeNodes (s : State) : Nat := 4096 - countSt s .live - countSt s .dying

/-- OK_NODE_STAT of a node. -/
def nodeStat (x : Node) : BitVec 32 :=
  match x.st with
  | .free => 0
  | q => BitVec.ofNat 32 ((if q = .live then 1 else 2) * 2 ^ 30 + b2n (x.uses == some 0) * 2 ^ 29 + x.owner * 2 ^ 24
      + x.depth * 2 ^ 20 + x.madeIn * 2 ^ 17 + b2n x.imported * 2 ^ 16 + x.parent)
def nodeUses (x : Node) : BitVec 32 :=
  match x.st with
  | .free => 0
  | _ => match x.uses with | none => 0xFFFFFFFF | some u => BitVec.ofNat 32 u

def nonceNow (s : State) : BitVec 32 := BitVec.ofNat 32 (Config.noise s.ok.nonce)

/-- Shipped region of a block (R433): 5,344 good blocks, the reserve last; 5 is the reserve. -/
def shipRegion (b : Nat) : Nat :=
  if b < 128 then 0 else if b < 256 then 1 else if b < 512 then 2 else if b < 528 then 3 else if b < 4624 then 4 else 5
def regionBlocks : Nat → Nat
  | 0 => 128 | 1 => 128 | 2 => 256 | 3 => 16 | 4 => 4096 | _ => 720
/-- Is block input b asserted: its level after the glitch filter, by the polarity POL (R280); an input that nothing drives
reads high (R485)? -/
def pinAsserted (s : State) (b : Nat) : Bool := Tbl.get true s.lp.pins b != bit (s.cfg (0x90200 + 4 * b) 0) 9
def State.blk (s : State) (b : Nat) : Blk := Tbl.get {} s.st.blocks b
def blkRegion (s : State) (b : Nat) : Nat := (s.blk b).region.getD (shipRegion b)

/-- Blocks that moved into a region from the reserve (R434). -/
def movedInto (s : State) (r : Nat) : List Nat :=
  (s.st.blocks.filter (fun e => e.2.region == some r)).map Prod.fst
def retiredIn (s : State) (r : Nat) : Nat :=
  (s.st.blocks.filter (fun e => e.2.st == .retired && blkRegion s e.1 == r)).length
/-- Total of a region (R28, R434): its shipped blocks and those moved in, less those moved out. -/
def totalIn (s : State) (r : Nat) : Nat :=
  regionBlocks r + (movedInto s r).length
    - (s.st.blocks.filter (fun e => e.2.region.isSome && e.2.region != some r && shipRegion e.1 == r)).length

def objectsOf (s : State) (r : Nat) : List Obj := Tbl.get [] s.st.objects r
def pagesOf (n : Nat) : Nat := ceilDiv n 16384

/-- Live pages of a region; in the tally's, 64 programmed records fill a page (R448). -/
def livePages (s : State) (r : Nat) : Nat :=
  if r = 3 then ceilDiv s.ty.recs.length 64 else ((objectsOf s r).map (fun o => pagesOf o.data.length)).foldl (· + ·) 0
def reservedPages (s : State) (r : Nat) : Nat :=
  ((s.st.ops.filter (fun o => o.region == r)).map (·.pages)).foldl (· + ·) 0
/-- Pages neither live nor reserved in the region's good blocks (ST_REGION_FREE). -/
def freePages (s : State) (r : Nat) : Nat :=
  (totalIn s r - retiredIn s r) * 256 - livePages s r - reservedPages s r

/-- Free blocks of the reserve. -/
def reserveFree (s : State) : Nat :=
  720 - (s.st.blocks.filter (fun e => shipRegion e.1 == 5 && (e.2.region.isSome || e.2.st != .free))).length

def bcnWin (s : State) : Nat := usEdges (fld (s.cfg 0x110004 0) 19 14)
def roleNat : PRole → Nat
  | .negotiating => 0 | .active => 1 | .standby => 2
def syncNat : PSync → Nat
  | .cold => 0 | .syncing => 1 | .synced => 2

/-- The neighbour's last beacon arrived within BCN_WIN. -/
def neighSeen (s : State) : Bool :=
  match s.pr.bcnAt with
  | some e => s.tb.edge - e < bcnWin s
  | none => false

def State.mac (s : State) (q : Nat) : Mac := Tbl.get {} s.mc.macs q
def cellsOf (n : Nat) : Nat := ceilDiv n 256
/-- Picoseconds of one bit at a speed code (R373, R379). -/
def bitPs : Nat → Nat
  | 1 => 100000 | 2 => 10000 | 3 => 1000 | 4 => 400 | 5 => 100 | 6 => 40 | _ => 0
/-- Octets sent in n edges. -/
def octetsIn (speed n : Nat) : Nat := if bitPs speed = 0 then 0 else n * 500 / bitPs speed

/-- Credits of a MAC's express lane, of its preemptable lane, and of both (R374). -/
def laneTotal (q : Nat) (express : Bool) : Nat :=
  if express then (if q < 8 then 16 else if q < 10 then 32 else 8) else (if q < 8 then 32 else if q < 10 then 64 else 24)
def creditTotal (q : Nat) : Nat := laneTotal q true + laneTotal q false
/-- Cells of a frame in its lane when n octets of it have passed to the PCS: the cells with an octet still to pass. The green passes
all cells of a frame when it begins, and none before (log 28). -/
def cellsLeft (len n : Nat) : Nat := if len ≤ n then 0 else cellsOf len - n / 256
/-- Cells that a lane of port q's transmit FIFO holds (R374): those of the frame being sent, of a suspended frame and of one that backs off. -/
def laneHeld (s : State) (q : Nat) (express : Bool) : Nat :=
  let m := s.mac q
  let cells (x : Option TxRun) (n : Nat) : Nat := match x with
    | some r => if r.express == express then cellsLeft (r.total - 4) (r.sent + n) else 0
    | none => 0
  cells m.tx (octetsIn m.speed (s.tb.edge - (m.tx.map (·.start)).getD s.tb.edge)) + cells m.susp 0
    + (match m.backoff.bind (fun i => s.gn.frames.find? (fun f => f.id == i)) with
       | some f => if decide (4 ≤ f.cls) == express then cellsOf f.octets.length else 0
       | none => 0)
def usedX (s : State) : Nat := (s.gn.frames.map (·.xp)).foldl (· + ·) 0
def usedS (s : State) : Nat := (s.gn.frames.map (·.sp)).foldl (· + ·) 0
def freeCells (s : State) : Nat := 16384 - usedX s - usedS s
/-- Occupancy of queue (output, class): cells queued and not yet begun. -/
def depthOf (s : State) (q cls : Nat) : Nat :=
  ((s.gn.frames.filter (fun f => f.cls == cls && f.outs.any (fun o => o.port == q && !o.going))).map
    (fun f => cellsOf f.octets.length)).foldl (· + ·) 0
def qCfg (s : State) (q cls : Nat) : BitVec 32 := s.cfg 0xE0024 (q * 256 + cls)

def tapCount (code : Nat) : Nat :=
  ([7, 11, 19, 39, 11, 15, 31, 55, 15, 19, 39, 75, 19, 23, 47, 91, 19, 31, 55, 111] : List Nat).getD code 0
/-- Odd offsets of a response of n taps, from 3 to the last. -/
def oddOffsets (n : Nat) : List Nat := (List.range (n / 4)).map (fun i => 2 * i + 3)
def sumI (l : List Int) : Int := l.foldl (· + ·) 0
def isQ23 (v : Int) : Bool := -(2 ^ 23) ≤ v && v < 2 ^ 23
/-- The free taps of a response at the odd offsets from 3 on. They are held in Q0.23, as is the tap at offset 1 that completes the sum
(R117): values that are not are no coefficients of a ROM, and 0 stands in their place (log 4). -/
def halfFree (code : Nat) : List Int :=
  let l := (oddOffsets (tapCount code)).map (Config.halfBand code)
  if l.all isQ23 && isQ23 (2 ^ 21 - sumI l) then l else l.map (fun _ => 0)
/-- Half-band coefficient at an offset from the centre, Q0.23: the centre is 0.5, other even offsets are 0, and offset 1 takes
what an exact sum of 1.0 needs (R117). -/
def halfCoef (code off : Nat) : Int :=
  let n := (tapCount code - 1) / 2
  if off = 0 then 2 ^ 22
  else if off > n ∨ off % 2 = 0 then 0
  else if off = 1 then 2 ^ 21 - sumI (halfFree code)
  else (halfFree code).getD ((off - 3) / 2) 0
def halfTap (code i : Nat) : Int :=
  let c := (tapCount code - 1) / 2
  if i < tapCount code then halfCoef code (if i < c then c - i else i - c) else 0

/-- Window formula of R119 over its sum, as numerator and denominator. -/
def windowRat (code l i : Nat) : Int × Nat :=
  let c1 := fxCosTurn (fxOfRat (2 * i + 1) (2 * l))
  let c2 := fxCosTurn (fxOfRat (2 * (2 * i + 1)) (2 * l))
  match code with
  | 0x14 => (1, l)
  | 0x15 => ((min (i + 1) (l - i) : Nat), l / 2 * (l / 2 + 1))
  | 0x16 => (fxOne - c1, l * 2 ^ 96)
  | _ => (42 * fxOne - 50 * c1 + 8 * c2, 42 * l * 2 ^ 96)
def windowRaw (code l i : Nat) : Int := let r := windowRat code l i; roundEven (r.1 * 2 ^ 23) r.2
def windowTaps (code l : Nat) : List Int :=
  let w := (List.range l).map (windowRaw code l)
  let rest := (2 ^ 23 - sumI w) / 2
  (List.range l).map (fun i => w.getD i 0 + (if i = l / 2 ∨ i + 1 = l / 2 then rest else 0))

/-- FC_ROM_DATA for a selection (R117, R119). -/
def romData (code n tap : Nat) : BitVec 32 :=
  if code < 0x14 then word (halfTap code tap)
  else if code ≤ 0x17 ∧ n < 7 then word ((windowTaps code (2 ^ (n + 2))).getD tap 0)
  else 0

/-- Decimation D, and settling length S (R114, R123). -/
def decim (x : ChainCfg) : Nat := if x.scs then 2 ^ (x.nstage + 2) else 2 ^ x.nstage
def settleGo : Nat → List Nat → Nat
  | _, [] => 0
  | w, r :: rs => (tapCount r - 1) * w + settleGo (2 * w) rs
def settleLen (x : ChainCfg) : Nat := if x.scs then decim x else 1 + settleGo 1 (x.resp.take x.nstage)

/-- A capture profile. -/
structure CapProf where
  valid : Bool
  kind : Nat
  src : Nat
  pre : Nat
  post : Nat
  nseg : Nat
  pages : Nat
  buf : Nat
  chl : Nat
  nd : Nat
  na : Nat
  deriving DecidableEq, Repr

def profOf (w : Nat → BitVec 32) : CapProf :=
  { valid := bit (w 0) 31, kind := fld (w 0) 30 28, src := fld (w 0) 27 16, pre := fld (w 1) 23 0, post := fld (w 2) 23 0,
    nseg := fld (w 3) 31 28 + 1, pages := fld (w 3) 17 0, buf := (w 4).toNat + fld (w 5) 15 0 * 2 ^ 32,
    chl := (w 6).toNat + fld (w 7) 15 0 * 2 ^ 32, nd := fld (w 8) 26 16, na := fld (w 8) 8 0 }
def profList (ws : List (BitVec 32)) : CapProf := profOf (fun i => ws.getD i 0)

def isSurge (g : Nat) : Bool := 128 ≤ g
/-- Croft of a capture unit, hamlet of a surge capture unit (R143). -/
def capHome (g : Nat) : Nat := if isSurge g then (g - 128) / 4 else g / 8
def State.cap (s : State) (g : Nat) : CapUnit := Tbl.get {} s.tg.caps g
/-- Record size RS (R146). -/
def recSize (surge : Bool) (na nd : Nat) : Nat :=
  if surge then ceilDiv (4 + 2 * na + 2) 4 * 4 else ceilDiv (8 + 8 * na + 2 * ceilDiv nd 16) 8 * 8
def CapUnit.prf (u : CapUnit) : CapProf := profList u.prof
def capInService (u : CapUnit) : Bool := u.st != .idle
/-- Bytes per second a unit in service holds of its share (R149). -/
def capRate (g : Nat) (u : CapUnit) : Nat := if capInService u then recSize (isSurge g) u.prf.na u.prf.nd * u.rate else 0
/-- Share in use in a unit's croft or hamlet. -/
def capShare (s : State) (g : Nat) : Nat :=
  ((s.tg.caps.filter (fun e => isSurge e.1 == isSurge g && capHome e.1 == capHome g)).map (fun e => capRate e.1 e.2)).foldl
    (· + ·) 0

def State.grp (s : State) (sel : Nat) : PhRt := Tbl.get {} s.ph.groups sel

structure LineCfg where
  valid : Bool
  aerial : Bool
  send : Bool
  owner : Nat
  hamlet : Nat
  id : Nat
  port : Nat
  nsec : Nat
  auth : Nat
  repeats : Nat
  maxErr : Nat
  sc : List Nat
  cal : Int
  kSig : Nat
  dMin : Int
  wait : Nat
  remote : Nat
  ip : Nat
  phDelay : Nat
  close : Nat
  kValid : Bool
  kNode : Nat
  kId : BitVec 32
  hdr : Nat
  hdrLen : Nat
  imp : Bool
  grp : Nat
  /-- Channel-equivalents VA, VB, VC, IA, IB, IC. -/
  ces : List Nat
  vScale : Int
  iScale : Int
  z1 : Cx
  z0 : Cx
  /-- Sections: length in m and velocity in m/µs, 96 fraction bits. -/
  secs : List (Int × Int)
  deriving DecidableEq, Repr

def lineOf (w : Nat → BitVec 32) : LineCfg :=
  { valid := bit (w 0) 31, aerial := bit (w 0) 30, send := bit (w 0) 29, owner := fld (w 0) 28 24, hamlet := fld (w 0) 23 22,
    id := fld (w 0) 15 0, port := fld (w 1) 31 28, nsec := fld (w 1) 26 24 + 1, auth := fld (w 1) 23 22,
    repeats := fld (w 1) 15 14, maxErr := fld (w 1) 7 6, sc := [fld (w 1) 5 0, fld (w 1) 13 8, fld (w 1) 21 16],
    cal := signed 16 (fld (w 2) 31 16), kSig := fld (w 2) 15 0, dMin := realFx (w 3), wait := fld (w 4) 31 16,
    remote := fld (w 4) 15 0, ip := (w 5).toNat, phDelay := fld (w 6) 31 16, close := fld (w 6) 15 0, kValid := bit (w 7) 31,
    kNode := fld (w 7) 11 0, kId := w 8, hdr := (w 9).toNat + fld (w 10) 15 0 * 2 ^ 32, hdrLen := fld (w 10) 31 24,
    imp := bit (w 11) 27, grp := 256 * fld (w 11) 31 28 + fld (w 11) 20 16,
    ces := [fld (w 12) 10 0, fld (w 12) 26 16, fld (w 13) 10 0, fld (w 13) 26 16, fld (w 14) 10 0, fld (w 14) 26 16],
    vScale := realFx (w 15), iScale := realFx (w 16), z1 := ⟨realFx (w 17), realFx (w 18)⟩, z0 := ⟨realFx (w 19), realFx (w 20)⟩,
    secs := (List.range (fld (w 1) 26 24 + 1)).map (fun i => (realFx (w (24 + 2 * i)), realFx (w (25 + 2 * i)))) }
def lineCfg (s : State) (l : Nat) : LineCfg := lineOf (fun i => s.cfg (0x50040 + 4 * i) l)
def State.line (s : State) (l : Nat) : LineRt := Tbl.get {} s.fl.lines l
/-- Travel time of a section in µs, in binary64 (R192). -/
def secTime (x : Int × Int) : FV := FV.div f64 (FV.ofFx f64 x.1) (FV.ofFx f64 x.2)
/-- T (R192): the sum in binary64, as ns with 96 fraction bits. -/
def LineCfg.t (x : LineCfg) : Int := ((x.secs.map secTime).foldl (FV.add f64) FV.zero).fx f64 * 1000
/-- ns as 2^-16 ns, rounded down and up. -/
def fx16 (x : Int) : Int := x * 65536 / fxOne
def ceil16 (x : Int) : Int := -(fx16 (-x))
end Sys2Proof.Machine
end

