-- ==== Sys2Proof/Machine/RegRead.lean ====
section
/-! DEFINITION. What a read of a set-up register returns (R10, R478, R458): stored values, and the status, counter and
result registers of every block. Reading alone changes nothing here; a read's effects (RC registers, the latch of
TB_NOW0, the queue of R60) are in Machine/Setup.lean. -/

namespace Sys2Proof.Machine

/-! Power domains (R458). -/

/-- State of domain d. -/
def domSt (s : State) (d : Nat) : DomSt := Tbl.get .off s.pw.doms d
def domNat : DomSt → Nat
  | .off => 0 | .starting => 1 | .run => 2 | .failed => 3

/-- Hamlet of a capture unit. -/
def hamletOfUnit (g : Nat) : Nat := if isSurge g then (g - 128) / 4 else g / 32

/-- Value of the selector through which partition p reaches a register of the slices, engines and hearths. -/
def sliceSel (s : State) (p off : Nat) : Nat :=
  let o := off % 65536
  let so : Nat := match off / 65536 with
    | 2 => 0x20000
    | 3 => if o < 0x500 then 0x30400 else if o < 0x600 then 0x30500 else 0x30600
    | 4 => 0x40000
    | 6 => 0x60000
    | _ => 0xB0000
  (s.cfg so p).toNat

/-- Power domain that holds a register, for a selector value (R458; log 27); none for what is always powered while the
module is. -/
def domainOf (off sel : Nat) : Option Nat :=
  let o := off % 65536
  match off / 65536 with
  | 16 => some 1
  | 14 => some 2 | 15 => some 2 | 17 => some 2
  | 18 => some 11 | 19 => some 11
  | 8 => some 10 | 9 => some 10
  | 2 => if 0 < o ∧ o < 0x100 ∧ o ≠ 0xC then some (6 + sel / 4096 % 16 / 4) else none
  | 3 => if o < 0x400 then some (6 + hamletOfUnit (o / 4)) else if o = 0x400 ∨ o = 0x500 ∨ o = 0x600 then none
         else if o < 0x500 then some (6 + hamletOfUnit (sel % 256)) else if o < 0x600 then some (6 + sel / 16 % 16 / 4)
         else some (6 + sel % 64 / 16)
  | 4 => if 0 < o ∧ o < 0x100 then some (6 + sel / 256 % 16 / 4) else none
  | 6 => if o = 0 ∨ o = 0x20 then none else some (6 + sel % 64 / 16)
  | 11 => if o = 0 ∨ o = 0x10 then none else some (6 + sel / 256 % 64 / 16)
  | _ => none

def domOn (s : State) (off sel : Nat) : Bool :=
  match domainOf off sel with
  | some d => domSt s d == .run
  | none => true

/-- Does a register's block lie in a domain that is not in RUN, as partition 0 selects it (R447)? -/
def blockOff (s : State) (off : Nat) : Bool := !domOn s off (sliceSel s 0 off)

/-! Permissions. -/

/-- May partition p read a register (R60, R108, R389, R494 and the closing sentences of the register chapters)? -/
def mayRead (s : State) (p off : Nat) : Bool :=
  p == 0 || (if off = 0x10024 then (ste s ((s.cfg 0x10020 p).toNat % 65536 / 16)).owner == p
    else !(15 ≤ off / 65536 || (0x100 ≤ off && off ≤ 0x118) || (0x10140 ≤ off && off < 0x10160)))

/-! Stored values. -/

/-- Selector value under which partition p reaches the storage of a register. -/
def selValue (s : State) (p : Nat) (i : RegInfo) : Nat :=
  match i.sel with
  | .none => 0
  | .own => p
  | .by_ so m => (s.cfg so p &&& m).toNat

def storedReg (s : State) (p off : Nat) : BitVec 32 :=
  match regInfo off with
  | none => 0
  | some i => if i.rw ||| i.tx = 0 then 0 else s.cfg off (selValue s p i)

/-! Status registers by block; o is the offset in the block and p the accessing partition. -/

def b32 (n : Nat) : BitVec 32 := BitVec.ofNat 32 n
def flag (b : Bool) (i : Nat) : Nat := if b then 2 ^ i else 0

/-- Registers of the time base. FLAGS of TB_STATUS shows no REF_TCXO while the time word is not valid (its reset value; log 59). -/
def tbRead (s : State) (h o : Nat) : Option (BitVec 32) :=
  let t := s.tb
  let q := s.tu.tsq
  if o = 0x04 then some (b32 (flag t.fwIgnored 16 + flag t.ocxoOk 15 + flag t.tcxoOk 14 + flag t.stepRefused 13
    + flag t.stepped 12 + s.quality.toNat / 256 % 16 * 256 + flag (s.quality.getLsbD 7 && s.timeValid) 7
    + s.quality.toNat % 128))
  else if o = 0x10 then some (b32 (t.addend % 2 ^ 32))
  else if o = 0x14 then some (b32 (t.addend / 2 ^ 32))
  else if 0x30 ≤ o ∧ o < 0x40 then some ((Tbl.get 0 s.tu.now h).extractLsb' (32 * ((o - 0x30) / 4)) 32)
  else if o = 0x100 then some (b32 ((s.cfg 0x100 0).toNat % 256 + q.length * 65536))
  else if o = 0x104 then
    (match q with
     | [] => some 0
     | e :: _ => some (b32 (2 ^ 31 + e.port * 65536 + e.ident)))
  else if 0x108 ≤ o ∧ o < 0x118 then
    (match q with
     | [] => some 0
     | e :: _ => some (e.stamp.words.getD ((o - 0x108) / 4) 0))
  else if o = 0x118 then some (b32 s.tu.tsqOvf)
  else none

def igRead (s : State) (p o : Nat) : Option (BitVec 32) :=
  if o = 0x14 then
    let z := s.stream ((s.cfg 0x10010 p).toNat % 4096)
    some (b32 (flag z.keyB 4 + streamNat z.st))
  else if o = 0x24 then some (b32 (Tbl.get 0 s.ig.cnt ((s.cfg 0x10020 p).toNat % 65536)))
  else if onGrid o 0x100 4 8 ∨ onGrid o 0x140 4 8 then some (b32 (Tbl.get 0 s.ig.other (0x10000 + o)))
  else none

def fcRead (s : State) (p o : Nat) : Option (BitVec 32) :=
  let sel := s.cfg 0x20000 p
  let c := fld sel 15 12
  let ce := fld sel 10 0
  let z := s.chain c ce
  let x := chainCfg s c ce
  let act : Bool := x.en && (placerOf s c ce).isSome
  let live := chainLive s c ce
  if o = 0x4 then some (b32 (flag act 31 + flag z.settled 30 + flag z.above 29
    + (if z.settled || !act then 0 else min (settleLen live - z.taken) 65535)))
  else if o = 0x8 then some (b32 z.satCnt)
  else if o = 0xC then some (b32 (Tbl.get 0 s.fc.winIgn c))
  else if o = 0x104 then
    (let r := s.cfg 0x20100 p
     some (romData (fld r 20 16) (fld r 10 8) (fld r 7 0)))
  else none

def capNat : CapSt → Nat
  | .idle => 0 | .armed => 1 | .post => 2 | .closing => 3 | .waitSeg => 4

def tgRead (s : State) (p o : Nat) : Option (BitVec 32) :=
  if o = 0x404 then
    let g := (s.cfg 0x30400 p).toNat % 256
    let u := s.cap g
    let held := (List.range 16).map (fun n => flag (Tbl.get .free u.segs n == .held) n)
    some (b32 (capNat u.st * 2 ^ 29 + ceilDiv (capShare s g) 100000 % 8192 * 65536 + held.foldl (· + ·) 0))
  else none

def phRead (s : State) (p o : Nat) : Option (BitVec 32) :=
  let sel := (s.cfg 0x40000 p).toNat
  let c := sel / 256
  let z := s.grp sel
  let w0 := s.cfg 0x40020 sel
  let w1 := s.cfg 0x40024 sel
  let n := (s.cfg 0x40200 p).toNat
  let w := Tbl.get {} s.ph.ws n
  if o = 0x4 then
    let nph := ((List.range (fld w1 26 16 + 1)).filter (fun ce => fld w1 10 0 ≤ ce && (placerOf s c ce).isSome)).length
    some (b32 (flag (bit w0 31 && z.active) 31 + flag z.phSettled 30 + flag z.fqSettled 29 + flag z.oob 28
      + nph % 4096 * 65536 + z.last % 65536))
  else if o = 0x204 then
    some (if w.running then
      b32 (2 ^ 31 + flag w.mark 30 + (be w.cfg 18 2 - 1) % 8 * 65536 + be w.cfg 4 2) else 0)
  else if o = 0x208 then some (b32 w.frames)
  else if o = 0x20C then some (b32 w.supp)
  else none

def lineNat : LineSt → Nat
  | .quiet => 0 | .open_ => 1 | .closing => 2

def flRead (s : State) (p o : Nat) : Option (BitVec 32) :=
  let l := (s.cfg 0x50000 p).toNat
  let z := s.line l
  if o = 0x4 then
    let x := lineCfg s l
    let t := if x.valid then min (4 * x.t / fxOne).toNat 0xFFFFFF else 0
    some (b32 (lineNat z.st * 2 ^ 30 + flag z.armed 29 + t))
  else if o = 0x14 then some (b32 (Tbl.get 0 s.fl.cnt (16 * l + (s.cfg 0x50010 p).toNat)))
  else none

def fbModeNat : FbMode → Nat
  | .none => 0 | .run => 1 | .stop => 2 | .hold => 3

def fbStatRead (s : State) (p o : Nat) : Option (BitVec 32) :=
  let h := (s.cfg 0x60000 p).toNat
  let z := Tbl.get {} s.fb.fbes h
  let prog := if z.act = 0 then z.bank0 else z.bank1
  if o = 0x4 then some (b32 (fbModeNat z.mode * 2 ^ 30 + flag z.test 29 + flag z.bank0.isSome 28 + flag z.bank1.isSome 27
    + flag ((prog.map (·.prot)).getD false) 26 + z.forces.length * 65536))
  else if o = 0x8 then some (match prog with | some x => b32 (x.cycle * 2 ^ 24 + x.cyc) | none => 0)
  else if o = 0xC then some (b32 z.scans)
  else if o = 0x14 then some (b32 (z.fresh * 65536 + z.carried))
  else if o = 0x20 then some (b32 ((s.fb.fbes.map (fun e => e.2.forces.length)).foldl (· + ·) 0))
  else none

def pbRead (s : State) (p o : Nat) : Option (BitVec 32) :=
  let z := Tbl.get {} s.pb.gcbs (s.cfg 0x70000 p).toNat
  let y := Tbl.get {} s.pb.dsvs (s.cfg 0x70100 p).toNat
  if o = 0x4 then some (b32 z.stNum)
  else if o = 0x8 then some (b32 z.sqNum)
  else if o = 0x14 then
    some (match (s.cfg 0x70010 p).toNat with
      | 0 => b32 z.built | 1 => b32 z.states | 2 => b32 z.keyFail | 4 => b32 y.built | 6 => b32 y.keyFail | _ => 0)
  else none

def lpRead (s : State) (p o : Nat) : Option (BitVec 32) :=
  let z := Tbl.get {} s.lp.loops (s.cfg 0x80000 p).toNat
  if o = 0x4 then some (b32 (flag (z.first.isSome && bit (s.cfg 0x80040 (s.cfg 0x80000 p).toNat) 31) 31 + flag z.missed 30
    + flag z.limit 29 + z.reason % 4 * 2 ^ 24 + min z.run 255))
  else if o = 0x8 then some (b32 z.missCnt)
  else if o = 0xC then some (b32 z.satCnt)
  else none

def glRead (s : State) (p o : Nat) : Option (BitVec 32) :=
  let z := Tbl.get {} s.lp.lanes (s.cfg 0x90000 p).toNat
  if o = 0x4 then some (b32 (flag z.running 31 + flag z.lateFlag 30 + z.force % 4 * 2 ^ 28 + flag z.cut 27))
  else if o = 0xC then some (b32 (Tbl.get 0 z.cnt (s.cfg 0x90008 p).toNat))
  else if o = 0x10C then some (b32 s.lp.forceIgn)
  else if onGrid o 0x200 4 4 then
    some ((s.cfg (0x90000 + o) 0) ||| b32 (flag (domSt s 10 == .run && pinAsserted s ((o - 0x200) / 4)) 8))
  else none

def partNat : PartState → Nat
  | .stopped => 0 | .running => 1 | .resetting => 2

def ptRead (s : State) (p o : Nat) : Option (BitVec 32) :=
  if onGrid o 0x4 0x10 32 then
    (let z := s.part (o / 16)
     some (b32 (partNat z.state * 2 ^ 30 + z.resets.toNat)))
  else if onGrid o 0xC 0x10 32 then some (b32 (s.part (o / 16)).irqDisc)
  else if o = 0x2020 then some (b32 (s.part ((s.cfg 0xA2000 p).toNat / 256)).winFault)
  else if o = 0x3004 then some (b32 (flag (!s.pt.resets.isEmpty) 31 + flag s.pt.refused 30 + s.pt.lastScope.toNat * 2 ^ 28
    + s.pt.lastDrain.toNat))
  else none

def taskNat : TaskSt → Nat
  | .dormant => 0 | .waiting => 1 | .ready => 2 | .running => 3

def sqRead (s : State) (p o : Nat) : Option (BitVec 32) :=
  let sel := (s.cfg 0xB0000 p).toNat
  let z := s.sched (sel / 256)
  let t := Tbl.get {} s.sq.tasks sel
  if o = 0x4 then some (b32 (flag z.running.isSome 31 + flag z.miss 30 + flag z.refusedFlag 29 + flag t.hist 28
    + taskNat t.st * 2 ^ 26 + z.running.getD 0))
  else if o = 0xC then some (b32 (freeSlots z .local_ * 65536 + freeSlots z .peer * 256 + freeSlots z .device))
  else if o = 0x14 then
    some (b32 (match (s.cfg 0xB0010 p).toNat with
      | 0 => t.releases | 1 => t.misses | 2 => t.overrun | 3 => t.budgetOvr | 4 => t.execMax
      | 8 => z.refused.1 | 9 => z.refused.2.1 | 10 => z.refused.2.2 | 11 => z.discarded | _ => 0))
  else none

def dbRead (s : State) (p o : Nat) : Option (BitVec 32) :=
  let sel := (s.cfg 0xC0000 p).toNat
  let q := sel / 256
  let r := sel % 256
  let z := s.ring q r
  let sub := (ringCfg s q r).submission
  if o = 0x4 then some (b32 (flag z.drop 31 + flag z.badDb 30 + (if sub then z.fi else z.pi)))
  else if o = 0x8 then some (b32 (Tbl.get 0 s.db.err q))
  else if o = 0xC then some (b32 z.dbDrop)
  else if o = 0x1C then some (b32 (z.ci * 65536 + (if sub then z.wi else 0)))
  else none

def txnNat : TxnSt → Nat
  | .idle => 0 | .open_ => 1 | .pending => 2

def txRead (s : State) (p o : Nat) : Option (BitVec 32) :=
  let z := s.txn (s.cfg 0xD0000 p).toNat
  if o = 0x4 then some (b32 (txnNat z.st * 2 ^ 30 + flag z.conflict 29 + flag z.overflow 28 + z.keys.length))
  else if o = 0x8 then some (b32 z.txid.toNat)
  else if o = 0xC then some (b32 z.ign)
  else if o = 0x10 then some (b32 z.claimRef)
  else if o = 0x20 then some (b32 (stagedTotal s * 65536 + openTxns s))
  else none

def gnRead (s : State) (p o : Nat) : Option (BitVec 32) :=
  let q := (s.cfg 0xE0020 p).toNat
  let c := s.cfg 0xE0030 p
  if o = 0 then some (b32 (s.gn.epoch % 65536))
  else if o = 0xC then some (b32 (flag s.gn.imbal 31 + freeCells s * 65536))
  else if o = 0x28 then
    (let d := depthOf s (q / 256) (q % 8)
     some (b32 (flag (fld (qCfg s (q / 256) (q % 8)) 13 0 ≤ d) 31 + d)))
  else if o = 0x34 then
    (let i := fld c 19 16
     some (b32 (Tbl.get 0 s.gn.cnt (i * 65536 + fld c 12 8 * 256 + (if i < 3 then fld c 2 0 else 0)))))
  else none

/-- Free credits of a MAC, both lanes: what its lanes do not hold (R28, R374). -/
def credFree (s : State) (q : Nat) : Nat := creditTotal q - laneHeld s q true - laneHeld s q false

def mcRead (s : State) (p o : Nat) : Option (BitVec 32) :=
  let q := (s.cfg 0xF0000 p).toNat
  if o = 0 then none
  else if q > 12 then some 0
  else
    let m := s.mac q
    if o = 0xC then
      let pfc := (List.range 8).map (fun i => flag (decide (s.tb.edge < Tbl.get 0 m.pfc i)) i)
      some (b32 (flag m.link 31 + flag m.downAt.isSome 30
        + flag (match m.pause with | some e => decide (s.tb.edge < e) | none => false) 29
        + flag m.preempt 28 + flag (m.link && m.half) 27 + (if m.link then m.speed % 8 * 2 ^ 24 else 0)
        + pfc.foldl (· + ·) 0 * 65536 + credFree s q * 256 + creditTotal q))
    else if o = 0x14 then
      (let i := (s.cfg 0xF0010 p).toNat
       some (b32 (if i = 11 then Tbl.get 0 s.ptp.discards q else if i > 21 then 0 else Tbl.get 0 s.mc.cnt (32 * q + i))))
    else if 9 < q ∧ (o = 0x20 ∨ o = 0x24 ∨ o = 0x28) then some 0
    else if o = 0x20 then some m.optics.diag0
    else if o = 0x24 then some m.optics.diag1
    else if o = 0x28 then some m.optics.diag2
    else if o = 0x2C then
      (let r := s.cfg 0xF002C 0
       let pg := if bit r 16 then m.optics.pageA2 else m.optics.pageA0
       let i := fld r 15 8
       some (r ||| b32 (if i < 128 then (pg.getD i 0).toNat else 0)))
    else none

def wordOf128 (w : BitVec 128) (i : Nat) : BitVec 32 := w.extractLsb' (32 * i) 32

/-- OK_COUNT counts the root slot as LIVE (its reset value; log 29). -/
def okRead (s : State) (p o : Nat) : Option (BitVec 32) :=
  let x := Tbl.get ({} : Node) s.ok.nodes (s.cfg 0x100010 p).toNat
  let live := (s.ok.nodes.filter (fun e => e.1 != 0 && e.2.st == .live)).length + 1
  let dying := (s.ok.nodes.filter (fun e => e.1 != 0 && e.2.st == .dying)).length
  if o = 0 then some (b32 (lcState s * 2 ^ 29 + flag s.ok.unsealed 28 + flag s.ok.ownerHash.isSome 27 + flag s.ok.unsealFail 26))
  else if o = 4 then some (nonceNow s)
  else if o = 8 then some (Config.serial.extractLsb' 0 32)
  else if o = 0xC then some (Config.serial.extractLsb' 32 32)
  else if o = 0x14 then some (nodeStat x)
  else if o = 0x18 then some (if x.st = .free then 0 else x.attr)
  else if o = 0x1C then some (nodeUses x)
  else if o = 0x20 then some (b32 (live * 65536 + (4096 - live - dying)))
  else if o = 0x40 then some (b32 (flag s.ok.latched 31 + s.ok.active.toNat * 256 + s.ok.seen.toNat))
  else if onGrid o 0x44 4 4 then some (wordOf128 s.ok.tword ((o - 0x44) / 4))
  else none

def prRead (s : State) (p o : Nat) : Option (BitVec 32) :=
  let z := s.pr
  if o = 0x10 then
    some (b32 (z.position % 2 * 2 ^ 31 + roleNat z.role * 2 ^ 29 + syncNat z.sync * 2 ^ 27 + flag z.fit 26 + flag z.m0Up 25
      + flag z.m1Up 24 + flag (neighSeen s) 23
      + (match z.neigh with
         | some b => roleNat b.role * 2 ^ 21 + syncNat b.sync * 2 ^ 19 + flag b.fit 18
         | none => 0)
      + flag z.sw.isSome 17))
  else if o = 0x24 then some (b32 (Tbl.get 0 z.cnt (s.cfg 0x110020 p).toNat))
  else if onGrid o 0x30 4 4 then some (wordOf128 z.lastT ((o - 0x30) / 4))
  else none

def maxErase (s : State) : Nat := (s.st.blocks.map (fun e => e.2.erase)).foldl max 0
def minErase (s : State) : Nat :=
  let good := s.st.blocks.filter (fun e => e.2.st != .retired)
  if s.st.blocks.length < 5344 then 0 else (good.map (fun e => e.2.erase)).foldl min 65535

/-- The regions' figures are known once the journal is replayed (R444). -/
def stRead (s : State) (p o : Nat) : Option (BitVec 32) :=
  let r := (s.cfg 0x120000 p).toNat
  if !s.st.ready && (o == 0x4 || o == 0x8 || o == 0x10) then some 0
  else if o = 0x4 then
    some (b32 (retiredIn s r % 4096 * 2 ^ 20 + (if r = 3 ∨ r > 4 then 0 else min (objectsOf s r).length 65535)))
  else if o = 0x8 then some (if r > 5 then 0 else b32 (if r = 5 then reserveFree s else freePages s r))
  else if o = 0x10 then some (b32 (min (maxErase s) 65535 * 65536 + min (minErase s) 65535))
  else if o = 0x24 then some (b32 (if (s.cfg 0x120020 p).toNat = 7 then 0 else Tbl.get 0 s.st.cnt (s.cfg 0x120020 p).toNat))
  else if o = 0x30 then some (b32 (flag s.st.ready 31 + flag s.st.replaying 30 + flag s.st.shutdown 29))
  else none

def tyRead (s : State) (o : Nat) : Option (BitVec 32) :=
  if o = 0 then some (b32 (flag (s.ty.full || 262144 ≤ s.ty.recs.length) 31 + flag s.ty.open_.isSome 30 + s.ty.recs.length))
  else if o = 0x8 then some (b32 s.ty.lost)
  else if o = 0xC then some (b32 s.ty.hours)
  else if o = 0x10 then some (b32 s.ty.cycles)
  else none

/-- Power drawn from a feed: its share, by the grants of the present feeds, of a total of at most 68 W and of at most those grants
(R454); the total is a free value (log 30). -/
def feedPower (s : State) (f : Nat) : Nat :=
  let g (k : Nat) : Nat := let x := Tbl.get ({} : Feed) s.pw.feeds k; if x.present then x.grant else 0
  let sum := g 0 + g 1
  Config.freeNat 0x453 s.tb.edge % (min sum 680 + 1) * g f / sum

/-- Supercapacitor voltage: 9.0 V to 11.0 V while HOLDUP_OK, below 9.0 V otherwise (R456); free within that (log 30). -/
def scMv (s : State) : Nat :=
  let v := Config.freeNat 0x456 s.tb.edge
  if s.pw.holdupOk then 9000 + v % 2001 else v % 9000

def pwRead (s : State) (o : Nat) : Option (BitVec 32) :=
  let z := s.pw
  let f0 := Tbl.get ({} : Feed) z.feeds 0
  let f1 := Tbl.get ({} : Feed) z.feeds 1
  if o = 0 then
    some (b32 ((match z.st with | .run => 3 | .warm => 2 | .keep => 1 | .off => 0) * 2 ^ 30 + flag z.safe 29 + z.step % 16 * 2 ^ 25
      + flag f0.present 24 + flag f1.present 23 + flag z.budgetLow 22 + flag z.holdupOk 21 + flag z.cellLow 20
      + ((List.range 12).map (fun d => flag (domSt s d == .failed) d)).foldl (· + ·) 0))
  else if o = 0x4 then
    some (b32 ((if f1.present then f1.cls else 0) * 2 ^ 28 + feedPower s 1 * 65536
      + (if f0.present then f0.cls else 0) * 4096 + feedPower s 0))
  else if o = 0x8 then some (b32 (min z.cellMv 4095 * 65536 + scMv s))
  else if o = 0x14 then some (b32 (((List.range 12).map (fun d => domNat (domSt s d) * 4 ^ d)).foldl (· + ·) 0))
  else if o = 0x20 then some (b32 ((s.cfg 0x140020 0).toNat / 2 ^ 31 * 2 ^ 31 + z.detail.toNat))
  else none

/-- A status register's value; none where the register holds only stored fields. -/
def statusRead (s : State) (p h off : Nat) : Option (BitVec 32) :=
  let o := off % 65536
  match off / 65536 with
  | 0 => tbRead s h o | 1 => igRead s p o | 2 => fcRead s p o | 3 => tgRead s p o | 4 => phRead s p o | 5 => flRead s p o
  | 6 => fbStatRead s p o | 7 => pbRead s p o | 8 => lpRead s p o | 9 => glRead s p o | 10 => ptRead s p o | 11 => sqRead s p o
  | 12 => dbRead s p o | 13 => txRead s p o | 14 => gnRead s p o | 15 => mcRead s p o | 16 => okRead s p o
  | 17 => prRead s p o | 18 => stRead s p o | 19 => tyRead s o | 20 => pwRead s o | _ => none

/-- What a read of the register at a set-up offset returns to partition p's core on hearth h (R10, R458, R475). -/
def readReg (s : State) (p h off : Nat) : BitVec 32 :=
  if (regInfo off).isNone || !mayRead s p off || !domOn s off (sliceSel s p off) then 0
  else (statusRead s p h off).getD (storedReg s p off)

/-- A tally snapshot's read: through partition 0's selectors, with no hearth's latch (R447; log 31). -/
def readPure (s : State) (p : Nat) (off : Nat) : BitVec 32 := readReg s p 64 off

end Sys2Proof.Machine
end

