-- ==== Sys2Proof/Machine/Tally.lean ====
section
/-! DEFINITION. The tally (R446 to R452): events, records and repeats, the window. -/

namespace Sys2Proof.Machine

/-- Snapshot slot of an event type (R446). -/
def tySlot (type : Nat) : Nat := if type < 0x80 then type else type - 0x80 + 16

/-- Registers of a type's snapshot list, in list order, read at one edge through partition 0's selectors (R447): the
values, and whether a block out of RUN made the snapshot partial. -/
def snapshotOf (s : State) (type : Nat) : List (BitVec 32) × Bool :=
  let es := (List.range 48).filterMap (fun e =>
    let w := s.cfg 0x130024 (tySlot type * 64 + e)
    if bit w 31 then some (fld w 20 0 * 4) else none)
  (es.map (fun o => if blockOff s o then 0 else readPure s 0 o), es.any (blockOff s))

/-- Program the open record into the next free slot, or lose it when every slot is programmed (R449, R450). -/
def programOpen (s : State) : State :=
  match s.ty.open_ with
  | none => s
  | some r =>
    if s.ty.recs.length ≥ 262144 then { s with ty.open_ := none, ty.full := true, ty.lost := inc32 s.ty.lost }
    else { s with ty.open_ := none, ty.recs := s.ty.recs ++ [{ r with index := s.ty.recs.length }] }

/-- A new open record for an event (R448). -/
def newRec (s : State) (type : Nat) (detail : BitVec 32) : TyRec :=
  let snap := snapshotOf s type
  let st := if s.timeValid then some (stampNow s) else none
  { type := type, regs := snap.1, index := s.ty.recs.length, hours := s.ty.hours, cycles := s.ty.cycles,
    time := st, last := st, detail := detail, partial_ := snap.2 }

/-- TALLY_EVENT (R449, R450, R452). -/
def tallyEvent (s : State) (type : Nat) (detail : BitVec 32) : State :=
  if s.ty.clearing then { s with ty.waiting := s.ty.waiting ++ [(type, detail)] }
  else
    match s.ty.open_ with
    | some r =>
      if r.type = type ∧ r.detail = detail then
        { s with ty.open_ := some { r with repeats := inc32 r.repeats,
                                           last := if s.timeValid then some (stampNow s) else none } }
      else
        let s1 := programOpen s
        if s1.ty.full then { s1 with ty.lost := inc32 s1.ty.lost } else { s1 with ty.open_ := some (newRec s1 type detail) }
    | none =>
      if s.ty.full then { s with ty.lost := inc32 s.ty.lost } else { s with ty.open_ := some (newRec s type detail) }

/-- A tally clear that ends without its commit: the events that waited are recorded (R452). -/
def clearEnd (s : State) : State :=
  if s.ty.clearing then
    s.ty.waiting.foldl (fun a e => tallyEvent a e.1 e.2) { s with ty.clearing := false, ty.waiting := [] }
  else s

/-- The 256 bytes of a record (R448). -/
def recBytes (r : TyRec) (open_ : Bool) : Bytes :=
  let tw (x : Option Stamp) : Bytes := leBytes 16 ((x.map (fun st => st.word.toNat)).getD 0)
  let body := leBytes 2 r.type ++ leBytes 1 r.regs.length ++ [0] ++ leBytes 4 r.index ++ leBytes 4 r.repeats
    ++ leBytes 4 r.hours ++ leBytes 4 r.cycles ++ tw r.time ++ tw r.last ++ leBytes 4 r.detail.toNat
    ++ leBytes 4 (b2n r.time.isSome + 2 * b2n r.partial_ + 4 * b2n open_)
    ++ wordsBytes (r.regs ++ List.replicate (48 - r.regs.length) 0)
  body ++ leBytes 4 (crc32c body)

/-- The record shown at the cursor (R451). -/
def windowBytes (s : State) : Bytes :=
  let i := fld (s.cfg 0x130004 0) 17 0
  match s.ty.recs[i]? with
  | some r => recBytes r false
  | none =>
    if i = s.ty.recs.length then
      match s.ty.open_ with
      | some r => recBytes { r with index := i } true
      | none => List.replicate 256 0
    else List.replicate 256 0

/-- A read of n bytes of the tally window at offset o by partition p: the value, and the cursor's advance (R451). -/
def windowRead (p o n : Nat) (s : State) : Nat × State :=
  if p ≠ 0 then (0, s)
  else
    let v := leNat ((List.range n).map (fun k => if o + k < 256 then (windowBytes s).getD (o + k) 0 else 0))
    let c := s.cfg 0x130004 0
    if bit c 31 ∧ o ≤ 255 ∧ o + n > 252 then
      (v, s.setCfg 0x130004 0 (BitVec.ofNat 32 (2 ^ 31 + (fld c 17 0 + 1) % 2 ^ 18)))
    else (v, s)

/-- HOURS16 (R448). -/
def hoursAdvance (s : State) : State :=
  if s.pw.st = .warm ∨ s.pw.st = .run then
    let s1 := s.runTo (s.ty.hoursAt + secEdges 225)
    { s1 with ty.hours := (s1.ty.hours + 1) % 2 ^ 32, ty.hoursAt := s1.tb.edge }
  else s

end Sys2Proof.Machine
end

