-- ==== Sys2Proof/Machine/Orchard.lean ====
section
/-! DEFINITION. The orchard (chapter 17): nodes, uses, derivation, import, export, revocation, life cycle, tamper. -/

namespace Sys2Proof.Machine

def State.node (s : State) (n : Nat) : Node := Tbl.get {} s.ok.nodes n
def State.setNode (s : State) (n : Nat) (x : Node) : State := { s with ok.nodes := Tbl.set {} s.ok.nodes n x }

def finBytes {n : Nat} (f : Fin n → BitVec 8) : Bytes := (List.finRange n).map f
def hmac (k m : Bytes) : Bytes := finBytes (Config.hmacSha256 k m)

/-- F of R391. -/
def fuseSecret (s : State) : Bytes :=
  match s.ok.secret with
  | none => List.replicate 32 0
  | some d => leBytes 32 (Config.noise d)

/-- The root key of a state (R391). -/
def rootKey (s : State) (lc : Nat) : Bytes := hmac Config.kPuf (ascii "IDWIN-ROOT" ++ [BitVec.ofNat 8 lc] ++ fuseSecret s)

/-- The root: depth 0, partition 0, DERIVE only, 256 bits (R394, R395). -/
def rootNode (s : State) (lc : Nat) : Node :=
  { st := .live, attr := 0x108, madeIn := lc, key := rootKey s lc }

def nodeLive (x : Node) : Bool := x.st == .live
def attrBit (x : Node) (i : Nat) : Bool := bit x.attr i

/-- Is an ATTR malformed (R395)? -/
def attrBad (a : BitVec 32) : Bool :=
  (a &&& 0xFFFFECC0) != 0 || fld a 5 0 == 0 || fld a 9 8 == 3
    || (bit a 4 && (fld a 5 0 != 0x10 || fld a 9 8 != 2)) || (fld a 9 8 == 2 && !bit a 4)
    || ((bit a 3 || bit a 1) && fld a 9 8 != 1)

/-- The status with which a use of a node would end at its start (R399, R400, R402, R408); DONE when it may start. -/
def useStatus (s : State) (n owner useBit : Nat) : Nat :=
  let x := s.node n
  if s.ok.latched then stTampered
  else if x.st = .free then stRevoked
  else if x.owner ≠ owner ∨ !attrBit x useBit then stNotPermitted
  else if x.st = .dying then stRevoked
  else if x.uses = some 0 then stExhausted
  else stDone

/-- Take one use (R400). -/
def takeUse (s : State) (n : Nat) : State :=
  let x := s.node n
  s.setNode n { x with uses := x.uses.map (· - 1) }

/-- Is node m the node n or under it? Depth bounds the walk (R394). -/
def isUnder (s : State) : Nat → Nat → Nat → Bool
  | 0, n, m => n == m
  | f + 1, n, m => n == m || (m != 0 && isUnder s f n (s.node m).parent)

def usedBy (s : State) (n : Nat) : Bool := s.ok.uses.any (fun u => u.nodes.contains n)

/-- Invalidate a node and its descendants: FREE, or DYING while a use runs (R402). -/
def invalidate (s : State) (n : Nat) : State :=
  (s.ok.nodes.keys.filter (fun m => isUnder s 8 n m && (s.node m).st == .live)).foldl (fun a m =>
    if usedBy s m then a.setNode m { (a.node m) with st := .dying } else a.setNode m {}) s

/-- A use ends: DYING nodes with no other running use become FREE (R402). -/
def freeDying (s : State) (ns : List Nat) : State :=
  ns.foldl (fun a n => if (a.node n).st = .dying ∧ !usedBy a n then a.setNode n {} else a) s

/-- The derived key of R396. -/
def deriveKey (parent : Bytes) (label : Bytes) (attr : BitVec 32) : Bytes :=
  let l := if fld attr 9 8 = 0 then 128 else if fld attr 9 8 = 1 then 256 else 448
  let k (i : Nat) := hmac parent (beBytes 4 i ++ label ++ [0] ++ beBytes 4 attr.toNat ++ beBytes 4 l)
  if l = 448 then beBytes 48 (beNat ((k 1 ++ k 2).take 56) % (Config.p384Order - 1) + 1)
  else (k 1 ++ k 2).take (l / 8)

def klenBytes (attr : BitVec 32) : Nat := if fld attr 9 8 = 0 then 16 else if fld attr 9 8 = 1 then 32 else 48

/-- The key inside a blob, none when the import must end with BAD_DESC (R397). -/
def openBlob (parent : Bytes) (attr : BitVec 32) (blob : Bytes) : Option Bytes :=
  let n := klenBytes attr
  let iv := blob.take 12
  let c := octs blob 12 n
  let tag := octs blob (12 + n) 16
  if blob.length ≠ 28 + n then none
  else if finBytes (Config.gcmTag parent iv (beBytes 4 attr.toNat) c) ≠ tag then none
  else
    let k := (List.range n).map (Config.gcmPlain parent iv c)
    if fld attr 9 8 = 2 ∧ (beNat k = 0 ∨ beNat k ≥ Config.p384Order) then none else some k

/-- Node and key-descriptor fields (R404). -/
def keyNode (ws : List (BitVec 32)) : Nat := fld (dw ws 0) 27 16
def keyIv (ws : List (BitVec 32)) : Bytes := wordsBytes [dw ws 8, dw ws 9, dw ws 10]

/-- Reserved fields of the key descriptors (R404). -/
def keyResOk (ws : List (BitVec 32)) : Bool :=
  let a : BitVec 32 := 0xFFFFFFFF
  let n : BitVec 32 := 0x0FFF0000
  match opcodeOf ws with
  | 0x31 => reservedOk ws n [(2, 0xFFF), (3, a), (4, a), (5, 0x1F00003F), (8, a), (9, a), (10, a), (11, a), (12, a), (13, a), (14, a), (15, a)]
  | 0x32 => reservedOk ws n [(2, 0xFFF), (3, a), (4, a), (5, 0x1F000000), (6, a), (7, 0xFFFF), (8, a), (9, 0xFFFF), (10, 0xFF)]
  | 0x33 => reservedOk ws n [(2, 0xFFF), (3, a), (4, 0xFFFF), (8, a), (9, a), (10, a)]
  | 0x34 => reservedOk ws n []
  | 0x35 => reservedOk ws n [(2, 1), (3, a), (4, 0xFFFF), (5, 0xFFFF), (8, a), (9, a), (10, a)]
  | 0x36 => reservedOk ws (n ||| 0x200) [(2, a), (3, 0xFFFF), (4, 0xFFFF), (5, 0xFFFF), (6, a), (7, 0xFFFF), (8, a), (9, a), (10, a), (11, a), (12, a), (13, a), (14, a)]
  | 0x37 => reservedOk ws n [(2, a), (3, 0xFFFF), (4, a), (5, 0xFFFF)]
  | 0x38 => reservedOk ws n [(4, a), (5, 0xFFFF)]
  | 0x39 => reservedOk ws n []
  | 0x3A => reservedOk ws 0 [(2, 7), (3, a), (4, 0xFFFF)]
  | _ => false

/-- Is a slot FREE and claimed by no open derive or import (R405 step 6)? -/
def slotFree (s : State) (n : Nat) : Bool :=
  (s.node n).st == .free && !(s.ok.pends.any (fun x => x.node == n &&
    (match x.kind with | .revoke => false | _ => true)))

/-- Queue a derive, import or revoke for its application instant, 10 µs after the fetch (R398). -/
def pendKey (s : State) (p r id node : Nat) (k : KeyPendKind) : State :=
  { s with ok.pends := s.ok.pends ++ [{ ring := 64 * p + r, flight := id, node := node,
                                        applyEdge := s.tb.edge + usEdges 10, order := s.ok.nextOrder, kind := k }],
           ok.nextOrder := s.ok.nextOrder + 1 }

/-- Owner and reach of a node for partition p: NOT_PERMITTED unless it owns the node (R394). -/
def notOwned (s : State) (p n : Nat) : Bool := (s.node n).st != .free && (s.node n).owner != p

/-- Checks of R405 for a node to be made under a parent with a use bit. -/
def makeCheck (s : State) (p : Nat) (ws : List (BitVec 32)) (useBit : Nat) (bufOk : Bool) : Nat :=
  let par := fld (dw ws 2) 11 0
  let node := keyNode ws
  let x := s.node par
  let owner := fld (dw ws 5) 28 24
  if s.ok.latched then stTampered
  else if !keyResOk ws || attrBad (dw ws 3) || x.depth ≥ 8 || node == 0 || !bufOk || (p != 0 && owner != 0) then stBadDesc
  else if lcState s = 4 ∨ notOwned s p par ∨ (x.st ≠ .free ∧ !attrBit x useBit) then stNotPermitted
  else if x.st ≠ .live then stRevoked
  else if x.uses = some 0 then stExhausted
  else if !slotFree s node then stRefusedFull
  else stDone

def keyDeriveAct (standby : Bool) (p r : Nat) (s : State) (f : Flight) : State :=
  let ws := f.words
  let len := fld (dw ws 5) 5 0
  let c := makeCheck s p ws 3 (1 ≤ len && len ≤ 32)
  if standby then finish s p r f.id stNotPermitted
  else if c ≠ stDone then finish s p r f.id c
  else
    pendKey (takeUse s (fld (dw ws 2) 11 0)) p r f.id (keyNode ws)
      (.derive_ (fld (dw ws 2) 11 0) (dw ws 3) (dw ws 4).toNat (if p = 0 then fld (dw ws 5) 28 24 else p)
        ((wordsBytes (ws.drop 8)).take len))

/-- The pair position whose blob this unit opens: 0 = A (R397). -/
def keyImportAct (standby : Bool) (pos : Nat) (p r : Nat) (s : State) (f : Flight) : State :=
  let ws := f.words
  let a := if pos = 0 then addr48 ws 6 else addr48 ws 8
  let n := fld (dw ws 10) 7 0
  let blob := devRead s p a n
  let other := (devRead s p (if pos = 0 then addr48 ws 8 else addr48 ws 6) n).getD []
  let c := makeCheck s p ws 2 ((n == 44 || n == 60 || n == 76) && blob.isSome)
  if standby then finish s p r f.id stNotPermitted
  else if c ≠ stDone then finish (if c = stBadDesc ∧ blob.isNone then s.winFault p else s) p r f.id c
  else
    pendKey (takeUse s (fld (dw ws 2) 11 0)) p r f.id (keyNode ws)
      (.import_ (fld (dw ws 2) 11 0) (dw ws 3) (dw ws 4).toNat (if p = 0 then fld (dw ws 5) 28 24 else p)
        (if pos = 0 then blob.getD [] else other) (if pos = 0 then other else blob.getD []))

def keyRevokeAct (standby : Bool) (p r : Nat) (s : State) (f : Flight) : State :=
  let ws := f.words
  let n := keyNode ws
  if standby then finish s p r f.id stNotPermitted
  else if s.ok.latched then finish s p r f.id stTampered
  else if !keyResOk ws || n == 0 then finish s p r f.id stBadDesc
  else if lcState s = 4 ∨ (p ≠ 0 ∧ notOwned s p n) then finish s p r f.id stNotPermitted
  else if (s.node n).st ≠ .live then finish s p r f.id stRevoked
  else pendKey s p r f.id n .revoke

/-- The open derive, import or revoke that applies next: earliest instant, revokes last at one instant, fetch order. -/
def pendBefore (a b : KeyPend) : Bool :=
  let rv (x : KeyPend) : Nat := match x.kind with | .revoke => 1 | _ => 0
  a.applyEdge < b.applyEdge || (a.applyEdge == b.applyEdge && (rv a < rv b || (rv a == rv b && a.order ≤ b.order)))

def makeNode (s : State) (n par : Nat) (attr : BitVec 32) (uses owner : Nat) (imp : Bool) (key : Bytes) : State :=
  s.setNode n { st := .live, owner := owner, depth := (s.node par).depth + 1, parent := par, attr := attr,
                uses := if uses = 0 then none else some uses, madeIn := lcState s, imported := imp, key := key }

/-- What one key change makes of the nodes, and its status; each unit opens the blob of its own position (R396, R397, R402). -/
def keyEffect (x : KeyPend) (s : State) : State × Nat :=
  match x.kind with
  | .derive_ par attr uses owner label =>
    if (s.node par).st ≠ .live then (s, stRevoked)
    else (makeNode s x.node par attr uses owner false (deriveKey (s.node par).key label attr), stDone)
  | .import_ par attr uses owner blobA blobB =>
    if (s.node par).st ≠ .live then (s, stRevoked)
    else
      match openBlob (s.node par).key attr (if s.pr.position = 0 then blobA else blobB) with
      | none => (s, stBadDesc)
      | some k => (makeNode s x.node par attr uses owner true k, stDone)
  | .revoke => (invalidate s x.node, stDone)

/-- Apply one open key change and note it in the journal (R398, R426). -/
def applyKey (x : KeyPend) (s : State) : State :=
  let r := keyEffect x { s with ok.pends := s.ok.pends.filter (fun y => y.order != x.order), ok.journal := s.ok.journal ++ [x] }
  finishKey { r.1 with ok.lastEnd := some (x.node, x.applyEdge, r.2) } x.ring x.flight r.2

/-- KEY_APPLICATION: the next open key change reaches its application instant (R398). -/
def keyApplication (s : State) : State :=
  match sortBy pendBefore s.ok.pends with
  | [] => s
  | x :: _ => applyKey x (s.runTo x.applyEdge)

/-- Check of a use by a key-ring descriptor (R405 steps 1 to 5). -/
def ringUse (s : State) (p n useBit : Nat) (bad : Bool) : Nat :=
  let x := s.node n
  if s.ok.latched then stTampered
  else if bad then stBadDesc
  else if lcState s = 4 ∨ notOwned s p n ∨ (x.st ≠ .free ∧ !attrBit x useBit) then stNotPermitted
  else if x.st ≠ .live then stRevoked
  else if x.uses = some 0 then stExhausted
  else stDone

/-- Start a use: the counts are taken and the use runs until KEY_USE_COMPLETE. -/
def startUse (s : State) (p r id : Nat) (nodes : List Nat) (key : Bytes) (k : UseKind) : State :=
  let s1 := nodes.foldl takeUse s
  { s1 with ok.uses := s1.ok.uses ++ [{ id := s1.ok.nextId, part := p, ring := 64 * p + r, flight := id, nodes := nodes,
                                        key := key, kind := k }],
            ok.nextId := s1.ok.nextId + 1 }

def keyMacAct (p r : Nat) (s : State) (f : Flight) : State :=
  let ws := f.words
  let n := keyNode ws
  let g := bit (dw ws 2) 0
  let src := devRead s p (addr48 ws 3) (fld (dw ws 5) 15 0)
  let c := ringUse s p n (if g then 0 else 1) (!keyResOk ws || src.isNone)
  if c ≠ stDone then finish (if src.isNone ∧ c = stBadDesc then s.winFault p else s) p r f.id c
  else startUse s p r f.id [n] (s.node n).key (if g then .gmac (keyIv ws) (src.getD []) else .hmac (src.getD []))

def keyAeadAct (p r : Nat) (s : State) (f : Flight) : State :=
  let ws := f.words
  let n := keyNode ws
  let len := fld (dw ws 4) 15 0
  let aad := fld (dw ws 5) 15 0
  let src := devRead s p (addr48 ws 2) len
  let dst := addr48 ws 6
  let bad := !keyResOk ws || aad > len || src.isNone || !canAccess s p .devWrite dst (len - aad)
  let c := ringUse s p n 2 bad
  let d := src.getD []
  if c ≠ stDone then
    finish (if c = stBadDesc ∧ (src.isNone ∨ !canAccess s p .devWrite dst (len - aad)) then s.winFault p else s) p r f.id c
  else if bit (dw ws 0) 9 then
    startUse s p r f.id [n] (s.node n).key
      (.decrypt (keyIv ws) (d.take aad) (d.drop aad) (wordsBytes [dw ws 11, dw ws 12, dw ws 13, dw ws 14]) dst)
  else startUse s p r f.id [n] (s.node n).key (.encrypt (keyIv ws) (d.take aad) (d.drop aad) dst)

def keySignAct (p r : Nat) (s : State) (f : Flight) : State :=
  let ws := f.words
  let n := keyNode ws
  let src := devRead s p (addr48 ws 2) 48
  let ok := src.isSome && canAccess s p .devWrite (addr48 ws 4) 96
  let c := ringUse s p n 4 (!keyResOk ws || !ok)
  if c ≠ stDone then finish (if c = stBadDesc ∧ !ok then s.winFault p else s) p r f.id c
  else startUse s p r f.id [n] (s.node n).key (.sign (src.getD []) (addr48 ws 4))

def keyPubAct (p r : Nat) (s : State) (f : Flight) : State :=
  let ws := f.words
  let n := keyNode ws
  let ok := canAccess s p .devWrite (addr48 ws 4) 97
  let c := ringUse s p n 4 (!keyResOk ws || !ok)
  if c ≠ stDone then finish (if c = stBadDesc ∧ !ok then s.winFault p else s) p r f.id c
  else finish (devWrite (takeUse s n) p (addr48 ws 4) (finBytes (Config.ecdsaPublic (s.node n).key))) p r f.id stDone

def keyExportAct (p r : Nat) (s : State) (f : Flight) : State :=
  let ws := f.words
  let n := keyNode ws
  let w := fld (dw ws 2) 11 0
  let x := s.node n
  let ok := canAccess s p .devWrite (addr48 ws 3) (28 + klenBytes x.attr)
  let c1 := ringUse s p n 5 (!keyResOk ws || !ok)
  let c2 := ringUse s p w 2 false
  let c := ([stTampered, stBadDesc, stNotPermitted, stRevoked, stExhausted].find? (fun x => c1 == x || c2 == x)).getD stDone
  if c ≠ stDone then finish (if c = stBadDesc ∧ !ok then s.winFault p else s) p r f.id c
  else startUse s p r f.id [n, w] (s.node w).key (.wrap (keyIv ws) x.attr x.key (addr48 ws 3))

def keyInfoAct (p r : Nat) (s : State) (f : Flight) : State :=
  let n := keyNode f.words
  let x := s.node n
  if s.ok.latched then finish s p r f.id stTampered
  else if !keyResOk f.words then finish s p r f.id stBadDesc
  else if lcState s = 4 ∨ notOwned s p n then finish s p r f.id stNotPermitted
  else if x.st ≠ .live then finish s p r f.id stRevoked
  else complete s p r f.id { status := stDone, words := [(3, nodeStat x), (4, x.attr), (5, nodeUses x)],
                             stamp := some (stampNow s) }

def bytesAsWords (from_ : Nat) (bs : Bytes) : List (Nat × BitVec 32) :=
  ((bytesWords bs).zipIdx).map (fun e => (from_ + e.2, e.1))

/-- Output of a finished use (R406): the memory written and the write-back words. -/
def useOutput (u : KeyUse) (s : State) : State × List (Nat × BitVec 32) :=
  match u.kind with
  | .hmac m => (s, bytesAsWords 3 (hmac u.key m))
  | .gmac iv m => (s, bytesAsWords 3 (finBytes (Config.gmacTag u.key iv m)))
  | .encrypt iv aad plain dst =>
    let c := (List.range plain.length).map (Config.gcmCipher u.key iv plain)
    (devWrite s u.part dst c, bytesAsWords 3 (finBytes (Config.gcmTag u.key iv aad c)))
  | .decrypt iv aad c tag dst =>
    if finBytes (Config.gcmTag u.key iv aad c) = tag then
      (devWrite s u.part dst ((List.range c.length).map (Config.gcmPlain u.key iv c)), [])
    else (s, [(3, 1)])
  | .sign d dst => (devWrite s u.part dst (finBytes (Config.ecdsaSign u.key d)), [])
  | .wrap iv attr k dst =>
    let c := (List.range k.length).map (Config.gcmCipher u.key iv k)
    (devWrite s u.part dst (iv ++ c ++ finBytes (Config.gcmTag u.key iv (beBytes 4 attr.toNat) c)), [])

/-- KEY_USE_COMPLETE (R402, R406). -/
def keyUseComplete (id : Nat) (s : State) : State :=
  match s.ok.uses.find? (fun u => u.id == id) with
  | none => s
  | some u =>
    let o := useOutput u s
    let s1 := freeDying { o.1 with ok.uses := o.1.ok.uses.filter (fun v => v.id != id) } u.nodes
    completeKey s1 u.ring u.flight { status := stDone, words := o.2, stamp := some (stampNow s) }

/-! Life cycle (R390 to R393). -/

/-- May LC_REQUEST go from one state to another, and does it need a token and a signature (R390)? -/
def lcPermitted (from_ dest : Nat) : Option (Bool × Bool) :=
  match from_, dest with
  | 0, 1 => some (false, false) | 0, 4 => some (false, false)
  | 1, 2 => some (true, false) | 1, 4 => some (false, false)
  | 2, 3 => some (true, true) | 2, 4 => some (true, true)
  | 3, 2 => some (false, false) | 3, 4 => some (true, true)
  | _, _ => none

/-- A new nonce from the noise source. -/
def newNonce (s : State) : State := { s with ok.nonce := s.draws, draws := s.draws + 1 }

/-- Is a token valid (R392)? Its magic is compared too, and TO with the target asked for (log 34). -/
def tokenValid (s : State) (dest : Nat) (signed_ : Bool) (tk : Bytes) : Bool :=
  le tk 0 4 == 0x4C43544B && le tk 4 8 == Config.serial.toNat && le tk 12 1 == lcState s && le tk 13 1 == dest
    && le tk 16 4 == (nonceNow s).toNat
    && (!signed_ || (match s.ok.ownerHash with
          | none => false
          | some h => Config.ecdsaVerify h (finBytes (Config.sha384 (tk.take 120))) (octs tk 120 96)))

def lcRequestAct (p r : Nat) (s : State) (f : Flight) : State :=
  let ws := f.words
  let dest := fld (dw ws 2) 2 0
  let perm := lcPermitted (lcState s) dest
  let needTk := match perm with | some x => x.1 | none => false
  let tk := if needTk then devRead s p (addr48 ws 3) 216 else some []
  let s0 := newNonce s
  if s.ok.latched then finish s0 p r f.id stTampered
  else if !keyResOk ws || tk.isNone then finish (if tk.isNone then s0.winFault p else s0) p r f.id stBadDesc
  else
    match perm with
    | none => finish s0 p r f.id stNotPermitted
    | some x =>
      if p ≠ 0 ∨ (x.1 ∧ !tokenValid s dest x.2 (tk.getD [])) then finish s0 p r f.id stNotPermitted
      else
        let oh := if lcState s = 1 ∧ dest = 2 then some (finBytes (Config.sha384 (octs (tk.getD []) 20 97))) else none
        { s0 with ok.fusing := s0.ok.fusing ++ [{ ring := 64 * p + r, flight := f.id, dest := dest, ownerHash := oh }] }

/-- Fuse programming completes (R393): the state changes, every other node is invalidated, the new root stands. Fuses are
one-time programmable (R390): what an earlier request fused stays (log 34). -/
def fuseComplete (s : State) : State :=
  match s.ok.fusing with
  | [] => s
  | q :: rest =>
    let old := lcState s
    let s1 := { s with ok.fusing := rest,
                       ok.service := q.dest == 3 && s.ok.fused != 4,
                       ok.fused := if q.dest = 3 then s.ok.fused else max s.ok.fused q.dest,
                       ok.ownerHash := match s.ok.ownerHash with | some h => some h | none => q.ownerHash,
                       ok.secret := match s.ok.secret with
                         | some d => some d
                         | none => if q.dest = 1 then some s.draws else none,
                       draws := if q.dest = 1 then s.draws + 1 else s.draws }
    let s2 := (s1.ok.nodes.keys.filter (fun m => m != 0 && (s1.node m).st == .live)).foldl (fun a m =>
      if usedBy s1 m then a.setNode m { (a.node m) with st := .dying } else a.setNode m {}) s1
    let s3 := if q.dest = 4 then { s2.setNode 0 {} with ok.unsealed := false }
              else if s2.ok.unsealed then s2.setNode 0 (rootNode s2 q.dest) else s2
    tallyEvent (finishKey s3 q.ring q.flight stDone) 0x08 (BitVec.ofNat 32 (old + q.dest * 16))

/-- Unseal at start-up step 4 (R391): forms the root, or fails; whether K_PUF can be rebuilt is a free value (log 2). -/
def unsealRoot (s : State) : State :=
  if lcState s = 4 ∨ s.ok.latched ∨ Config.pufFails s.draws then
    { s with ok.unsealed := false, ok.unsealFail := true, ok.nodes := [], draws := s.draws + 1 }
  else { s with ok.unsealed := true, ok.unsealFail := false, draws := s.draws + 1 }.setNode 0 (rootNode s (lcState s))

/-! Tamper (R407 to R409). -/

/-- Cut every key use and open key change with TAMPERED (R408). -/
def cutUses (s : State) : State :=
  let us := s.ok.uses.map (fun u => (u.ring, u.flight)) ++ s.ok.pends.map (fun x => (x.ring, x.flight))
  us.foldl (fun a x => finishKey a x.1 x.2 stTampered) { s with ok.uses := [], ok.pends := [], ok.nodes := [] }

/-- The record of a tamper in the tally, as soon as the module can make it (R408). -/
def tamperRecord (s : State) : State :=
  if s.pw.st = .warm ∨ s.pw.st = .run then
    tallyEvent { s with ok.owed := false } 0x04 (BitVec.ofNat 32 s.ok.seen.toNat)
  else { s with ok.owed := true }

/-- An edge of a tamper source (R407, R408); on the backup cell, in OFF, only LID and MESH are sensed. -/
def tamperEdge (src : Fin 5) (s : State) : State :=
  if s.pw.st = .off ∧ 2 ≤ src.val then s else
  let b : BitVec 5 := 1 <<< src.val
  let s1 := { s with ok.active := s.ok.active ||| b, ok.seen := s.ok.seen ||| b, ok.latched := true,
                     ok.tword := if s.ok.latched then s.ok.tword else (stampNow s).word }
  tamperRecord (cutUses { s1 with ok.unsealed := false })

def tamperClearAct (p : Nat) (v : BitVec 32) (s : State) : State :=
  if p = 0 ∧ bit v 31 ∧ lcState s = 3 ∧ s.ok.active = 0 then { s with ok.latched := false, ok.seen := 0 } else s

def tamperSourceClear (src : Fin 5) (s : State) : State :=
  { s with ok.active := s.ok.active &&& ~~~((1 : BitVec 5) <<< src.val) }

end Sys2Proof.Machine
end

