-- ==== Sys2Proof/Machine/Store.lean ====
section
/-! DEFINITION. Flash storage (R433 to R445, R452): blocks, objects, operations and their commits. -/

namespace Sys2Proof.Machine

def blockCount : Nat := 5344
def regionFirst : Nat → Nat
  | 0 => 0 | 1 => 128 | 2 => 256 | 3 => 512 | 4 => 528 | _ => 4624
/-- Nominal capacity of a region in bytes. -/
def regionCapacity (r : Nat) : Nat := regionBlocks r * 4194304

def State.updBlk (s : State) (b : Nat) (f : Blk → Blk) : State := { s with st.blocks := Tbl.upd {} s.st.blocks b f }
def findObj (s : State) (r : Nat) (name : Bytes) : Option Obj := (objectsOf s r).find? (fun o => o.name == name)
/-- Free block with the lowest erase count among the candidates (R435). -/
def lowestErase (s : State) (bs : List Nat) : Option Nat :=
  bs.foldl (fun acc b =>
    if (s.blk b).st ≠ .free then acc
    else
      match acc with
      | none => some b
      | some a => if (s.blk b).erase < (s.blk a).erase then some b else some a) none

def regionBlockList (s : State) (r : Nat) : List Nat :=
  ((List.range (regionBlocks r)).map (· + regionFirst r)).filter (fun b => blkRegion s b == r) ++ movedInto s r

/-- A free block of the reserve. -/
def reserveBlock (s : State) : Option Nat :=
  lowestErase s ((List.range 720).map (· + 4624) |>.filter (fun b => (s.blk b).region.isNone))

def stCount (s : State) (i : Nat) : State := { s with st.cnt := Tbl.upd 0 s.st.cnt i inc32 }

/-- BLOCK_RETIREMENT (R434): the block is retired, and a free block of the reserve joins its region at the same edge (a block of the
reserve itself is followed by the next of the reserve). Says whether the reserve had one. -/
def retireBlock (s : State) (b : Nat) : State × Bool :=
  let r := blkRegion s b
  let s1 := stCount (s.updBlk b (fun x => { x with st := .retired })) 3
  let n := reserveBlock s1
  let s2 := match n with
    | some k => if r = 5 then s1 else s1.updBlk k (fun x => { x with region := some r })
    | none => s1
  (tallyEvent s2 0x07 (BitVec.ofNat 32 (r + 256)), n.isSome)

/-- Place n pages of region r: the extents, going on in the region's open block and then in free blocks with the lowest
erase count (R435). Pages beyond every free block stay in the last block (freed space inside blocks is reused: log 18). -/
def placePages : Nat → State → Nat → Nat → List (Nat × Nat) → State × List (Nat × Nat)
  | 0, s, _, _, acc => (s, acc)
  | k + 1, s, r, n, acc =>
    if n = 0 then (s, acc)
    else
      let fl := Tbl.get (0, 256) s.st.fill r
      if fl.2 < 256 then
        let m := min n (256 - fl.2)
        placePages k { s with st.fill := Tbl.set (0, 256) s.st.fill r (fl.1, fl.2 + m) } r (n - m) (acc ++ [(fl.1, m)])
      else
        match lowestErase s (regionBlockList s r) with
        | none => (s, acc ++ [(fl.1, n)])
        | some b =>
          placePages k ({ s with st.fill := Tbl.set (0, 256) s.st.fill r (b, 0) }.updBlk b (fun x => { x with st := .data }))
            r n acc

/-- Does block b hold a page that is live or that a running ST_READ reads (R441), or is it the open block of a region? -/
def blockUsed (s : State) (b : Nat) : Bool :=
  s.st.objects.any (fun e => e.2.any (fun o => o.extents.any (fun x => x.1 == b)))
    || s.st.reads.any (fun o => o.extents.any (fun x => x.1 == b)) || s.st.fill.any (fun e => e.2.1 == b && e.2.2 < 256)

/-- Blocks that a dead version leaves without such pages await erase (R440, R441). -/
def releaseExtents (s : State) (ex : List (Nat × Nat)) : State :=
  ex.foldl (fun a x => if blockUsed a x.1 ∨ (a.blk x.1).st ≠ .data then a
                       else a.updBlk x.1 (fun y => { y with st := .awaiting })) s

/-- Name order of objects (ST_LIST). -/
def nameLe (a b : Obj) : Bool := !((b.name.map BitVec.toNat).lex (a.name.map BitVec.toNat))

/-- Replace or add one object (R440). -/
def putObject (s : State) (r : Nat) (name data : Bytes) : State :=
  let old := findObj s r name
  let x := placePages (2 * (pagesOf data.length) + 2) s r (pagesOf data.length) []
  let o : Obj := { name := name, data := data, ver := s.st.nextVer, extents := x.2 }
  let l := (objectsOf s r).filter (fun q => q.name != name) ++ [o]
  let s1 := { x.1 with st.objects := Tbl.set [] x.1.st.objects r (sortBy nameLe l), st.nextVer := s.st.nextVer + 1 }
  match old with
  | some q => releaseExtents s1 q.extents
  | none => s1

def dropObject (s : State) (r : Nat) (name : Bytes) : State :=
  match findObj s r name with
  | none => s
  | some q =>
    releaseExtents { s with st.objects := Tbl.set [] s.st.objects r ((objectsOf s r).filter (fun o => o.name != name)) }
      q.extents

/-! Descriptors (R438, R439). -/

def stRegion (ws : List (BitVec 32)) : Nat := fld (dw ws 5) 2 0
def stNameLen (ws : List (BitVec 32)) : Nat := fld (dw ws 5) 13 8
def stName (ws : List (BitVec 32)) : Bytes := (wordsBytes (ws.drop 8)).take (stNameLen ws)
def nameOk (ws : List (BitVec 32)) : Bool :=
  1 ≤ stNameLen ws && stNameLen ws ≤ 32 && (stName ws).all (fun b => 0x21 ≤ b.toNat && b.toNat ≤ 0x7E)

def nameWords : List (Nat × BitVec 32) := (List.range 8).map (fun i => (8 + i, 0xFFFFFFFF))

def digit? (b : BitVec 8) : Option Nat := if 48 ≤ b.toNat ∧ b.toNat ≤ 57 then some (b.toNat - 48) else none
/-- Capture unit g of a record name Uggg_S… (R158). -/
def unitOfName (n : Bytes) : Option Nat :=
  match n with
  | u :: a :: b :: c :: _ =>
    if u = 0x55 then
      match digit? a, digit? b, digit? c with
      | some x, some y, some z => some (100 * x + 10 * y + z)
      | _, _, _ => none
    else none
  | _ => none
/-- Does the name's capture unit belong to partition p (TG_CAP_OWNg)? -/
def ownsName (s : State) (p : Nat) (n : Bytes) : Bool :=
  match unitOfName n with
  | some g => g < 144 && fld (s.cfg (0x30000 + 4 * g) 0) 4 0 == p
  | none => false

/-- Is the storage controller closed to new descriptors (R439 step 3, R443)? -/
def stBusy (s : State) : Bool := !s.st.ready || s.st.replaying || s.st.shutdown

def stResOk (ws : List (BitVec 32)) : Bool :=
  let a : BitVec 32 := 0xFFFFFFFF
  match opcodeOf ws with
  | 0xC1 => reservedOk ws 0 ([(2, a), (3, 0xFFFF), (4, a), (5, 0x3F07)] ++ nameWords)
  | 0xC2 => reservedOk ws 0 ([(2, a), (3, 0xFFFF), (4, a), (5, 0x3F07), (6, a)] ++ nameWords)
  | 0xC3 => reservedOk ws 0 ([(5, 0x3F07)] ++ nameWords)
  | 0xC4 => reservedOk ws 0 [(2, 0xFFFF), (5, 7)]
  | 0xC5 => reservedOk ws 0 [(2, a)]
  | 0xC6 => reservedOk ws 0 [(2, 0xFFF)]
  | _ => false

/-- Accept an operation: its pages are reserved at the fetch (R439). -/
def openOp (s : State) (o : StOp) : State :=
  { s with st.ops := s.st.ops ++ [{ o with id := s.st.nextId }], st.nextId := s.st.nextId + 1 }

def stWriteAct (p r : Nat) (s : State) (f : Flight) : State :=
  let ws := f.words
  let reg := stRegion ws
  let len := (dw ws 4).toNat
  let bad := !stResOk ws || !nameOk ws || reg == 3 || reg > 4 || len == 0 || len > min 536870912 (regionCapacity reg)
  let data := if bad then none else devRead s p (addr48 ws 2) len
  if bad then finish s p r f.id stBadDesc
  else if data.isNone then finish (s.winFault p) p r f.id stBadDesc
  else if reg = 4 ∨ p ≠ 0 then finish s p r f.id stNotPermitted
  else if stBusy s then finish s p r f.id stNotReady
  else if freePages s reg < pagesOf len then finish s p r f.id stMediaFull
  else openOp s { id := 0, kind := .write, ring := 64 * p + r, flight := f.id, tag := dw ws 1, region := reg,
                  objs := [(stName ws, data.getD [])], name := stName ws, pages := pagesOf len }

def stReadAct (p r : Nat) (s : State) (f : Flight) : State :=
  let ws := f.words
  let reg := stRegion ws
  let len := (dw ws 4).toNat
  let off := (dw ws 6).toNat
  let bad := !stResOk ws || !nameOk ws || reg == 3 || reg > 4 || len == 0 || len > regionCapacity reg
  let obj := findObj s reg (stName ws)
  let n := match obj with | some o => min len (o.data.length - off) | none => 0
  let canPut := canAccess s p .devWrite (addr48 ws 2) len
  if bad then finish s p r f.id stBadDesc
  else if !canPut then finish (s.winFault p) p r f.id stBadDesc
  else
    match obj with
    | none => finish s p r f.id stBadDesc
    | some o =>
      if p ≠ 0 ∧ !(reg == 4 && ownsName s p (stName ws)) then finish s p r f.id stNotPermitted
      else if stBusy s then finish s p r f.id stNotReady
      else
        { s with st.reads := s.st.reads ++ [{ id := s.st.nextId, ring := 64 * p + r, flight := f.id, tag := dw ws 1, part := p,
                                              dst := addr48 ws 2, data := octs o.data off n, ver := o.ver, region := reg,
                                              extents := o.extents,
                                              bad := o.bad.any (fun c => c * 1024 < off + n && off < (c + 1) * 1024) }],
                 st.nextId := s.st.nextId + 1 }

def stDeleteAct (p r : Nat) (s : State) (f : Flight) : State :=
  let ws := f.words
  let reg := stRegion ws
  if !stResOk ws || !nameOk ws || reg == 3 || reg > 4 || (findObj s reg (stName ws)).isNone then finish s p r f.id stBadDesc
  else if (reg = 4 ∧ !ownsName s p (stName ws)) ∨ (reg ≠ 4 ∧ p ≠ 0) then finish s p r f.id stNotPermitted
  else if stBusy s then finish s p r f.id stNotReady
  else openOp s { id := 0, kind := .delete, ring := 64 * p + r, flight := f.id, tag := dw ws 1, region := reg,
                  name := stName ws }

def padTo (n : Nat) (b : Bytes) : Bytes := b.take n ++ List.replicate (n - b.length) 0

def stListAct (p r : Nat) (s : State) (f : Flight) : State :=
  let ws := f.words
  let reg := stRegion ws
  match if !stResOk ws || reg == 3 || reg > 4 then none else (objectsOf s reg)[fld (dw ws 2) 15 0]? with
  | none => finish s p r f.id stBadDesc
  | some o =>
    if p ≠ 0 ∧ !(reg == 4 && ownsName s p o.name) then finish s p r f.id stNotPermitted
    else if stBusy s then finish s p r f.id stNotReady
    else complete s p r f.id { status := stDone, stamp := some (stampNow s),
                               words := bytesAsWords 3 (padTo 32 o.name) ++ [(11, BitVec.ofNat 32 o.data.length)] }

/-- End an operation that has not committed: the region is unchanged and its pages are freed (R442). -/
def abortOp (s : State) (o : StOp) (status : Nat) : State :=
  finishKey { s with st.ops := s.st.ops.filter (fun q => q.id != o.id) } o.ring o.flight status
/-- A read ends, and the pages that it alone kept begin awaiting erase (R441). -/
def endRead (s : State) (o : StRead) : State :=
  releaseExtents { s with st.reads := s.st.reads.filter (fun q => q.id != o.id) } o.extents
def abortRead (s : State) (o : StRead) (status : Nat) : State := finishKey (endRead s o) o.ring o.flight status

def stAbortAct (p r : Nat) (s : State) (f : Flight) : State :=
  let ws := f.words
  if !stResOk ws then finish s p r f.id stBadDesc
  else if stBusy s then finish s p r f.id stNotReady
  else
    match s.st.ops.find? (fun o => o.kind == .write && o.ring == 64 * p + r && o.tag == dw ws 2) with
    | some o => finish (abortOp s o stAborted) p r f.id stDone
    | none =>
      match s.st.reads.find? (fun o => o.ring == 64 * p + r && o.tag == dw ws 2) with
      | some o => finish (abortRead s o stAborted) p r f.id stDone
      | none => finishIgn s p r f.id

/-- Conditions of R452. -/
def clearStatus (s : State) (n : Nat) : Nat :=
  let x := s.node n
  if lcState s ≠ 3 ∨ (x.st ≠ .free ∧ (x.owner ≠ 0 ∨ !attrBit x 1 ∨ x.madeIn ≠ 3)) then stNotPermitted
  else if x.st ≠ .live then stRevoked
  else if x.uses = some 0 then stExhausted
  else stDone

def stTallyClearAct (p r : Nat) (s : State) (f : Flight) : State :=
  let ws := f.words
  let n := fld (dw ws 2) 11 0
  if !stResOk ws then finish s p r f.id stBadDesc
  else if p ≠ 0 then finish s p r f.id stNotPermitted
  else if stBusy s then finish s p r f.id stNotReady
  else if clearStatus s n ≠ stDone then finish s p r f.id (clearStatus s n)
  else
    let s1 := takeUse s n
    openOp { s1 with ty.clearing := true } { id := 0, kind := .clear, ring := 64 * p + r, flight := f.id, tag := dw ws 1,
                                             region := 3, node := n }

/-- Move the data of block b to the free block of its region with the lowest erase count (R435, R436); none when the region has no
free block. -/
def moveBlock (s : State) (b : Nat) (dest : BlkSt) : Option State :=
  (lowestErase s (regionBlockList s (blkRegion s b))).map (fun n =>
    let re (x : Nat × Nat) : Nat × Nat := if x.1 = b then (n, x.2) else x
    let objs : Tbl (List Obj) := s.st.objects.map (fun (e : Nat × List Obj) =>
      (e.1, e.2.map (fun (o : Obj) => { o with extents := o.extents.map re })))
    let fills : Tbl (Nat × Nat) := s.st.fill.map (fun (e : Nat × Nat × Nat) => (e.1, if e.2.1 = b then (n, e.2.2) else e.2))
    let reads : List StRead := s.st.reads.map (fun (o : StRead) => { o with extents := o.extents.map re })
    let s1 := { s with st.objects := objs, st.fill := fills, st.reads := reads }
    (s1.updBlk n (fun x => { x with st := .data })).updBlk b (fun x => { x with st := dest }))

/-- Retire a block and move the data it holds (R434, R436). -/
def retireMoving (s : State) (b : Nat) : State × Bool :=
  let x := retireBlock s b
  if (s.blk b).st = .data then ((moveBlock x.1 b .retired).getD x.1, x.2) else x

/-- The block on which an operation's program fails (log 18): for one that writes objects the region's next free block, or its open
block when none is free; for one that writes a journal entry alone a block of the reserve. -/
def failingBlock (s : State) (o : StOp) : Option Nat :=
  if o.kind = .write ∨ o.kind = .export_ then
    some ((lowestErase s (regionBlockList s o.region)).getD (Tbl.get (regionFirst o.region, 256) s.st.fill o.region).1)
  else reserveBlock s

/-- Program failures met on the way to an operation's commit: each retires a block. Says whether each was replaced (R434). -/
def retireN : Nat → State → StOp → State × Bool
  | 0, s, _ => (s, true)
  | k + 1, s, o =>
    match failingBlock s o with
    | none => (s, false)
    | some b =>
      let x := retireMoving s b
      if x.2 then retireN k x.1 o else x

/-- Is a tally clear between its fetch and its commit (R452)? -/
def clearOpen (s : State) : Bool := s.st.ops.any (fun o => o.kind == .clear)

/-- The tally after a committed clear (R452): erased, with a CLEARED record at index 0 whose DETAIL counts the records cleared, the open
one among them, and then the waiting events, unless a second clear is on its way. -/
def tallyCleared (s : State) : State :=
  let n := (programOpen s).ty.recs.length
  let s1 := tallyEvent { s with ty.recs := [], ty.full := false, ty.lost := 0, ty.clearing := false, ty.open_ := none, ty.waiting := [] }
    0x0A (BitVec.ofNat 32 n)
  if clearOpen s then { s1 with ty.clearing := true, ty.waiting := s.ty.waiting }
  else s.ty.waiting.foldl (fun a e => tallyEvent a e.1 e.2) s1

/-- What a journal entry saves of PD0: HOURS16, CYCLES and PREF (R448, PW_BOOT). -/
def journalSaves (s : State) : State :=
  { s with ty.savedHours := s.ty.hours, ty.savedCycles := s.ty.cycles, ty.savedPref := bit (s.cfg 0x140020 0) 31 }

/-- Effects of a commit on the regions (R440, R452). -/
def commitOp (s : State) (o : StOp) : State :=
  let s1 := { s with st.ops := s.st.ops.filter (fun q => q.id != o.id) }
  match o.kind with
  | .write => o.objs.foldl (fun a e => putObject a o.region e.1 e.2) s1
  | .export_ => o.objs.foldl (fun a e => putObject a o.region e.1 e.2) s1
  | .delete => dropObject s1 o.region o.name
  | .clear => tallyCleared s1

/-- JOURNAL_COMMIT (R440): `fails` programs failed on the way, each on a block that is retired. `after` is what the
completion of an export does to its segment (R161). A clear writes back though its ring was disabled meanwhile (R452). -/
def journalCommit (after : StOp → State → State) (id fails : Nat) (s : State) : State :=
  match s.st.ops.find? (fun o => o.id == id) with
  | none => s
  | some o =>
    let x := retireN fails s o
    if !x.2 then
      let s1 := abortOp x.1 o stMediaFull
      if o.kind = .clear ∧ !clearOpen s1 then clearEnd s1 else s1
    else
      let s2 := after o (journalSaves (commitOp x.1 o))
      completeWon s2 o.ring o.flight
        { status := stDone, words := if o.kind = .write then [(3, BitVec.ofNat 32 o.pages)] else [],
          stamp := some (stampNow s2) }

/-- ST_READ_COMPLETE (R441, R436). -/
def stReadComplete (id : Nat) (s : State) : State :=
  match s.st.reads.find? (fun o => o.id == id) with
  | none => s
  | some o =>
    let s2 := endRead s o
    if o.bad then
      finishKey (tallyEvent s2 0x07 (BitVec.ofNat 32 o.region)) o.ring o.flight stMediaError
    else
      completeKey (devWrite s2 o.part o.dst o.data) o.ring o.flight
        { status := stDone, words := [(3, BitVec.ofNat 32 o.data.length)], stamp := some (stampNow s) }

/-- ERASE_COMPLETE (R440, R434). -/
def eraseComplete (b : Nat) (ok : Bool) (s : State) : State :=
  if (s.blk b).st ≠ .awaiting then s
  else if ok then s.updBlk b (fun x => { x with st := .free, erase := x.erase + 1 })
  else (retireBlock s b).1

/-- Move a block's data when its region has a free block, and count the move in counter i; else nothing changes (log 18). -/
def moveCounted (s : State) (b i : Nat) : State :=
  match moveBlock s b .awaiting with
  | some x => stCount x i
  | none => s

/-- WEAR_LEVELING_MOVE (R435): possible when the erase counts of two good blocks differ by more than 1,000. -/
def wearMove (s : State) : State :=
  let es := s.st.blocks.filter (fun e => e.2.st != .retired)
  let hi := es.foldl (fun a e => max a e.2.erase) 0
  let lows := es.filter (fun e => e.2.st == .data && e.2.erase + 1000 < hi)
  match sortBy (fun a b => decide (a.2.erase ≤ b.2.erase)) lows with
  | [] => s
  | e :: _ => moveCounted s e.1 4

/-- The codeword of the object that page-codeword cw of block b holds. -/
def codewordOf (o : Obj) (b cw : Nat) : Option Nat :=
  let go := o.extents.foldl (fun (acc : Nat × Nat × Option Nat) x =>
    if acc.2.2.isSome then acc
    else if x.1 = b then
      if cw < acc.2.1 + x.2 * 16 then (acc.1, acc.2.1, some (acc.1 + (cw - acc.2.1))) else (acc.1 + x.2 * 16, acc.2.1 + x.2 * 16, none)
    else (acc.1 + x.2 * 16, acc.2.1, none)) (0, 0, none)
  go.2.2

/-- BACKGROUND_SCRUB (R436): block b was read and its worst codeword `cw` needed `corr` corrections. -/
def scrub (b cw corr : Nat) (s : State) : State :=
  if (s.blk b).st ≠ .data then s
  else if corr ≤ 72 then
    let s1 := if corr > 0 then stCount s 0 else s
    if corr ≥ 40 then moveCounted s1 b 2 else s1
  else
    let mark (o : Obj) : Obj := match codewordOf o b cw with | some c => { o with bad := addRising o.bad c } | none => o
    let r := blkRegion s b
    let objs : Tbl (List Obj) := s.st.objects.map (fun (e : Nat × List Obj) =>
      (e.1, if e.1 = r then e.2.map mark else e.2))
    let s1 := stCount { s with st.objects := objs } 1
    let s2 := tallyEvent s1 0x07 (BitVec.ofNat 32 r)
    (retireMoving s2 b).1

/-- The loss shutdown begins (R443). -/
def stLoss (s : State) : State := { s with st.shutdown := true }

/-- SHUTDOWN_MS expires (R443 steps 3 to 5): the events that a discarded tally clear held back are recorded first. -/
def stShutdown (s : State) : State :=
  let n := s.st.ops.length
  let s1 := s.st.ops.foldl (fun a o => abortOp a o stAborted) s
  let s2 := s1.st.reads.foldl (fun a o => abortRead a o stAborted) s1
  let s3 := programOpen (clearEnd s2)
  { s3 with st.ready := false, st.shutdown := false, st.discards := n }

/-- JOURNAL_REPLAY (R444): the committed objects stand; the free lists follow from them. -/
def replay (powerUp : Bool) (s : State) : State :=
  let n := s.st.ops.length + s.st.discards
  let s1 := stCount { s with st.ops := [], st.reads := [], st.ready := true, st.replaying := false, st.shutdown := false,
                             st.discards := 0, st.cnt := Tbl.upd 0 s.st.cnt 6 (fun c => add32 c s.st.discards) } 5
  if powerUp then tallyEvent s1 0x01 (BitVec.ofNat 32 n) else s1

end Sys2Proof.Machine
end

