-- ==== Sys2Proof/Machine/Sched.lean ====
section
/-! DEFINITION. What the commands of the hardware scheduler do (chapter 12). -/

namespace Sys2Proof.Machine

abbrev Res := Host.Outcome State Fault Refusal

/-- A scheduler CSR is reached in HS-mode only (R313): the traps of the other modes. -/
def csrAccess (s : State) (h : Nat) (m : CMode) (act : State → State) : State :=
  match m with
  | .hs => (act s).updCore h (fun c => { c with trap := none })
  | .vs => s.updCore h (fun c => { c with trap := some .virtualInstruction })
  | .u => s.updCore h (fun c => { c with trap := some .illegalInstruction })

def csrResult (s : State) (h : Nat) (v : Nat) : State := s.updCore h (fun c => { c with result := BitVec.ofNat 64 v })

/-- sqrun with a task (R313). -/
def sqrunAct (h task : Nat) (s : State) : State :=
  if (s.task h task).st = .ready then
    csrResult (((stopRunning s h .ready).updTask h task (fun x => { x with st := .running, from_ := s.tb.edge })).updSched h
      (fun x => { x with running := some task })) h stDone
  else csrResult s h stNotReady

/-- Value of sqnext (R313). -/
def sqnext (s : State) (h : Nat) : BitVec 64 :=
  match readyHead s h with
  | some t => BitVec.ofNat 64 (2 ^ 63 + t)
  | none => 0

/-- sqrun with IDLE: the running job becomes READY (R313); a head that is another job is announced (R312). -/
def sqrunIdle (h : Nat) (s : State) : State := csrResult (dispatchIf (runHead s h) (stopRunning s h .ready) h) h stDone

/-- The core reads sqnext (R313). -/
def sqnextRead (h : Nat) (s : State) : State := s.updCore h (fun c => { c with result := sqnext s h })

/-- Count a job past its budget once (R320). -/
def countBudget (s : State) (h task : Nat) : State :=
  let x := s.task h task
  if !x.overBudget && x.ran > usEdges x.bud then
    s.updTask h task (fun y => { y with overBudget := true, budgetOvr := inc32 y.budgetOvr })
  else s

/-- A task whose job has completed: WAITING, released again for queued posts, or DORMANT when not valid (R305, R308). -/
def afterJob (s : State) (h task : Nat) : State :=
  if (taskCfg s h task).valid then postRelease (s.updTask h task (fun x => { x with st := .waiting })) h task
  else
    let n := ((s.sched h).posts.filter (fun q => q.task == task)).length
    startHistory (s.updSched h (fun x =>
      { x with posts := x.posts.filter (fun q => q.task != task), discarded := add32 x.discarded n })) h task

/-- sqdone (R313, R317, R320). -/
def sqdoneAct (h : Nat) (s : State) : State :=
  match (s.sched h).running with
  | none => csrResult s h stNotReady
  | some task =>
    let s1 := countBudget (stopRunning s h .waiting) h task
    let s2 := s1.updTask h task (fun x => { x with hist := true, execMax := max x.execMax (min x.ran 0xFFFFFFFF) })
    csrResult (afterJob s2 h task) h stDone

def sqpostAct (h tgt task : Nat) (payload : BitVec 32) (s : State) : State :=
  let q := queuePost s tgt { cls := if tgt = h then .local_ else .peer, src := h, ident := 0, task := task,
                             payload := payload } (hearthOwner s tgt == hearthOwner s h)
  csrResult q.2 h q.1

/-- Position of the oldest post of a task. -/
def takePost (task : Nat) : List Post → Option (Post × List Post)
  | [] => none
  | q :: r => if q.task = task then some (q, r) else (takePost task r).map (fun x => (x.1, q :: x.2))

def sqtakeAct (h : Nat) (s : State) : State :=
  match (s.sched h).running with
  | none => csrResult s h (3 * 2 ^ 62)
  | some task =>
    match takePost task (s.sched h).posts with
    | none => csrResult s h (3 * 2 ^ 62)
    | some x =>
      csrResult (s.updSched h (fun y => { y with posts := x.2 })) h
        (postClsNat x.1.cls * 2 ^ 62 + x.1.src % 64 * 2 ^ 56 + x.1.ident % 256 * 2 ^ 48 + x.1.payload.toNat)

/-- The tick that releases the passed entries of the delay list (R309). -/
def delayRelease (h : Nat) (s : State) : State :=
  match delayList s h with
  | [] => s
  | e :: _ =>
    let s1 := s.waitUntil (us16 (ceilDiv e.1 65536000))
    withDispatch s1 h (tickDue h)

/-- A deadline passes (R319). -/
def deadlineMiss (h task : Nat) (s : State) : State :=
  let x := s.task h task
  if (x.st = .ready ∨ x.st = .running) ∧ x.missed = false then
    let s1 := s.waitUntil (us16 (ceilDiv x.d 65536000))
    let s2 := (s1.updTask h task (fun y => { y with missed := true, misses := inc32 y.misses })).updSched h
      (fun y => { y with miss := true })
    let id := fld (s2.cfg 0xB0008 (256 * h)) 15 8
    if id = 0 then s2 else assertIrq 256 s2 h 0 id (devSrc 11 h)
  else s

/-- The running job passes its budget (R320). -/
def budgetOverrun (h : Nat) (s : State) : State :=
  match (s.sched h).running with
  | none => s
  | some task =>
    let x := s.task h task
    if x.overBudget then s
    else
      let s1 := s.runTo (x.from_ + (usEdges x.bud + 1 - x.ran))
      s1.updTask h task (fun y => { y with overBudget := true, budgetOvr := inc32 y.budgetOvr })

end Sys2Proof.Machine
end

