-- ==== Sys2Proof/Machine/TimeBase.lean ====
section
/-! DEFINITION. Operations of the time base (chapter 02): addend, servo, quality, PTP engine, stamps, time-trigger units
and timing outputs. -/

namespace Sys2Proof.Machine

/-- The addend for a rate correction in 2^-12 ppb (R39). -/
def addendOf (c : Int) : Nat :=
  (2 ^ 42 + roundUpTie (clampI (-200000 * 4096) (200000 * 4096) c * 2 ^ 30) (10 ^ 9)).toNat

def servoEn (s : State) : Bool := bit (s.cfg 0x0 0) 1
def servoI (s : State) : Int := s.tb.integ.getD (Config.factoryRate s.tb.refTcxo)

/-- Time inaccuracy of a clockAccuracy code, 10^-10 ns (R47). -/
def accuracyOf : Nat → Option Nat
  | 0x20 => some (25 * 10 ^ 10) | 0x21 => some (100 * 10 ^ 10) | 0x22 => some (250 * 10 ^ 10)
  | 0x23 => some (1000 * 10 ^ 10) | 0x24 => some (2500 * 10 ^ 10) | 0x25 => some (10000 * 10 ^ 10)
  | 0x26 => some (25000 * 10 ^ 10) | 0x27 => some (100000 * 10 ^ 10) | 0x28 => some (250000 * 10 ^ 10)
  | 0x29 => some (1000000 * 10 ^ 10) | _ => none

/-- G + N, 10^-10 ns (R47), of the source (R56); none when unknown. -/
def gPlusN (s : State) : Option Nat :=
  if srcSel s = 1 then accuracyOf (fld (s.cfg 0x0 0) 15 8)
  else
    match s.ptp.source with
    | none => none
    | some a =>
      match a.c37238 with
      | some x => some ((x.1 + x.2) * 10 ^ 10)
      | none => accuracyOf a.accuracy

/-- |mean| of offsets in 2^-16 ns, in 10^-10 ns rounded up (comparisons with whole limits stay exact). -/
def meanAbs (l : List Int) : Nat :=
  if l.length = 0 then 0 else ceilDiv ((l.foldl (· + ·) 0).natAbs * 10 ^ 10) (65536 * l.length)

/-- E in LOCKED (R47). -/
def refreshEst (s : State) : State :=
  match gPlusN s with
  | none => { s with tb.unknownErr := true }
  | some g => { s with tb.unknownErr := false, tb.est := g + meanAbs s.tb.accepted + 16 * 10 ^ 10 }

/-- Stage an addend for the next slot edge (R40) while the servo disciplines it. -/
def stageAddend (s : State) (c : Int) : State :=
  if servoEn s then { s with tb.corr := c, tb.nextAddend := some (addendOf c) } else { s with tb.corr := c }

/-- HOLDOVER_ENTRY (R56): c is frozen at the integrator. -/
def enterHoldover (s : State) : State :=
  stageAddend { s with tb.st := .holdover, tb.lockedAt := some s.tb.edge, tb.lockT := now16 s, tb.traceable := traceSource s, tb.estEdge := s.tb.edge, tb.lockRun := 0, tb.outliers := 0 } (servoI s)

/-- Enter HOLDOVER when LOCKED (R45: from no other state). -/
def holdoverIfLocked (s : State) : State := if s.tb.st = .locked then enterHoldover s else s

/-- The servo's work on one accepted-or-rejected offset in 2^-16 ns (R53, R45). -/
def servoProcess (s : State) (th : Int) : State :=
  let cfg := s.cfg 0x24 0
  let gain := s.cfg 0x20 0
  if s.tb.st = .locked ∧ th.natAbs > fld cfg 23 16 * 8 * 65536 then
    if s.tb.outliers + 1 = 3 then enterHoldover { s with tb.outliers := 3 }
    else { s with tb.outliers := s.tb.outliers + 1 }
  else
    let i := clampI (-200000 * 4096) (200000 * 4096) (servoI s + roundUpTie (-(Int.ofNat (fld gain 15 0) * th)) 65536)
    let lim : Int := Int.ofNat (fld cfg 15 8 * 1000 * 4096)
    let p := clampI (-lim) lim (roundUpTie (Int.ofNat (fld gain 31 16) * th) 65536)
    let c := clampI (-200000 * 4096) (200000 * 4096) (i - p)
    let small : Bool := th.natAbs ≤ fld cfg 31 24 * 4 * 65536
    let run := if small then s.tb.lockRun + 1 else 0
    let s1 := stageAddend { s with tb.outliers := 0, tb.integ := some i, tb.lockRun := run,
                                   tb.accepted := (th :: s.tb.accepted).take 8 } c
    match s1.tb.st with
    | .locked => refreshEst s1
    | .notValid => s1
    | _ => if run ≥ fld cfg 3 0 then refreshEst { s1 with tb.st := .locked, tb.lockT := now16 s1 } else s1

/-- SERVO_OFFSET (R53, R55): the first large offset after entry into not-valid or FREE_RUN asks for a step. -/
def servoOffset (ok : Bool) (th : Int) (s : State) : State :=
  let first := s.tb.firstOffset && (s.tb.st == .notValid || s.tb.st == .freeRun)
  let s1 := { s with tb.latest := some th, tb.firstOffset := false }
  if first && th.natAbs > 1000 * 65536 then
    if ok then { s1 with tb.stepBy := some th, tb.stepHeld := true } else servoProcess { s1 with tb.stepRefused := true } th
  else servoProcess s1 th

/-- STEP = 1 written (R55). DESIGN CHOICE (log 88): a step that waits for its slot edge subtracts the offset that was the latest when it
was asked for; an offset that comes meanwhile goes through the servo. -/
def stepRequest (ok : Bool) (p : Nat) (s : State) : State :=
  match s.tb.latest with
  | some th => if ok && p == 0 then { s with tb.stepBy := some th } else { s with tb.stepRefused := true }
  | none => { s with tb.stepRefused := true }

/-- The counter after a step by an offset (R55). -/
def steppedTo (s : State) (th : Int) : Nat := (Int.ofNat s.tb.counter - th * 2 ^ 24).toNat

/-- COUNTER_STEP at a slot edge (R55). The changes of UTC_OFFSET known so far lie before the new instant, and a pending leap second is
that of the new day (log 88). -/
def counterStep (s : State) : State :=
  match s.tb.stepBy with
  | none => s
  | some th =>
    let c := steppedTo s th
    let entered := s.tb.st == .notValid
    { s with tb.counter := c, tb.stepBy := none, tb.stepHeld := false, tb.latest := none, tb.stepped := true,
             tb.st := if entered then .freeRun else s.tb.st,
             tb.firstOffset := entered || s.tb.firstOffset,
             tu.leapAt := c / 2 ^ 24, tu.utcPast := s.tu.utcPast.map (fun e => { e with at_ := min e.at_ (c / 2 ^ 24) }),
             tu.nextSlot := 3 * c / (625000 * 2 ^ 40) + 1 }

/-- A step whose conditions no longer hold at its slot edge does not happen; an offset kept for it goes to the servo (R55). -/
def stepRefuse (s : State) : State :=
  match s.tb.stepBy with
  | none => s
  | some th =>
    let s1 := { s with tb.stepBy := none, tb.stepHeld := false, tb.stepRefused := true }
    if s.tb.stepHeld then servoProcess s1 th else s1

/-- ADDEND_LOAD at a slot edge (R40). -/
def addendLoad (s : State) : State :=
  match s.tb.nextAddend with
  | none => s
  | some a => { s with tb.addend := a, tb.nextAddend := none }

/-- Writes of the addend registers (R40). -/
def writeAddendLo (v : BitVec 32) (s : State) : State :=
  if servoEn s then s else { s with tb.stagedLo := some v.toNat }
def writeAddendHi (v : BitVec 32) (s : State) : State :=
  if servoEn s then s
  else { s with tb.nextAddend := some (fld v 15 0 * 2 ^ 32 + s.tb.stagedLo.getD (s.tb.addend % 2 ^ 32)), tb.stagedLo := none }

/-- A write of TB_FW_OFFSET (R54). -/
def fwOffset (ok : Bool) (p : Nat) (v : BitVec 32) (s : State) : State :=
  if p = 0 ∧ srcSel s = 1 then servoOffset ok (v.toInt * 256) { s with tb.lastFwOffset := s.tb.edge }
  else { s with tb.fwIgnored := true }

/-- Latch TB_NOW for the reading core (R44). -/
def readNow0 (h : Nat) (s : State) : State :=
  { s with tu.now := Tbl.set 0 s.tu.now h (stampNow s).word }.updCore h
    (fun c => { c with result := BitVec.ofNat 64 ((stampNow s).word.toNat % 2 ^ 32), trap := none })

/-- A read of TB_TSQ_T3 by partition p removes the head entry (R60). -/
def readTsqT3 (h p : Nat) (s : State) : State :=
  if p = 0 then
    match s.tu.tsq with
    | [] => s.updCore h (fun c => { c with result := 0, trap := none })
    | e :: r => { s with tu.tsq := r }.updCore h
        (fun c => { c with result := BitVec.ofNat 64 (e.stamp.word.toNat / 2 ^ 96), trap := none })
  else s.updCore h (fun c => { c with result := 0, trap := none })

/-- A transmit stamp joins the queue of S0, F0 and F1 (R59, R60). -/
def pushTsq (s : State) (port ident : Nat) (st : Stamp) : State :=
  if s.tu.tsq.length ≥ 16 then { s with tu.tsqOvf := inc32 s.tu.tsqOvf }
  else
    let s1 := { s with tu.tsq := s.tu.tsq ++ [{ port := port, ident := ident, stamp := st }] }
    if s.tu.tsq.isEmpty then devIrq s1 0 (fld (s.cfg 0x100 0) 7 0) 0 port else s1

/-- An addend corrected for another reference (R41). -/
def addendBy (a : Nat) (diff : Int) : Nat := a + addendOf diff - 2 ^ 42

/-- The counter clock moves to the TCXO or to the OCXO; c and I are corrected by the measured difference (R41). With SERVO_EN = 0 the
addend written by firmware takes the same correction (log 88). -/
def refSwitch (tcxo : Bool) (diff : Int) (s : State) : State :=
  { s with tb.est := errNow s.tb, tb.estEdge := s.tb.edge, tb.refTcxo := tcxo,
           tb.integ := s.tb.integ.map (· + diff), tb.corr := s.tb.corr + diff,
           tb.nextAddend := some (if servoEn s then addendOf (s.tb.corr + diff) else addendBy (s.tb.nextAddend.getD s.tb.addend) diff) }

/-- The counter clock leaves the OCXO: it left its limits at this edge, or REF_FORCE_TCXO takes it off (R41). -/
def refToTcxo (diff : Int) (s : State) : State :=
  if s.tb.refTcxo then s
  else if bit (s.cfg 0x0 0) 0 then refSwitch true diff s
  else { refSwitch true diff s with tb.ocxoOk := false, tb.ocxoSince := s.tb.edge }

/-- The counter clock returns to the OCXO at the first slot edge at which it has been within limits for 60 s, unless
REF_FORCE_TCXO keeps it off (R41). -/
def refToOcxo (diff : Int) (s : State) : State :=
  if s.tb.refTcxo && !bit (s.cfg 0x0 0) 0 then
    let s1 := s.runTo (s.tb.ocxoSince + secEdges 60)
    { refSwitch false diff (s1.waitSlot (slotCeil (now16 s1))) with tb.ocxoOk := true }
  else s

/-! The PTP engine (R48 to R52). -/

def ptpPort (s : State) (p : Nat) : PtpPort := Tbl.get {} s.ptp.ports p
def updPtpPort (s : State) (p : Nat) (f : PtpPort → PtpPort) : State :=
  { s with ptp.ports := Tbl.upd {} s.ptp.ports p f }
def ptpEnabled (s : State) (p : Nat) : Bool := bit (s.cfg 0x40 0) p && p < 13 && p != 8 && p != 9

/-- Options the engine does not support (R48). -/
def ptpUnsupported (m : PtpMsg) : Bool :=
  m.transport == .vlanTagged || m.transport == .udp || m.dest == .other || m.version != 2 || m.alternateMaster || m.unicast
    || (match m.body with | .delayReq => true | .delayResp => true | .management => true | .signaling => true | _ => false)

/-- Dataset comparison of the default BMCA: the master a heard on port p is better than b heard on q (IEEE 1588-2008; log 12). -/
def betterDs (a b : Nat × Foreign) : Bool :=
  let x := a.2.ds
  let y := b.2.ds
  let k (z : Announce) : List Nat := [z.priority1, z.clockClass, z.accuracy, z.variance, z.priority2, z.gm]
  let t (z : Nat × Foreign) : List Nat := [z.2.ds.steps, z.2.src.clock, z.2.src.port, z.1]
  if x.gm = y.gm then (t a).lex (t b) else (k x).lex (k y)

/-- Foreign masters of a port with two Announce messages within four intervals. -/
def qualifiedForeign (s : State) (p : Nat) : List Foreign :=
  (ptpPort s p).foreign.filter (fun f =>
    s.tb.edge - f.last < secEdges 4 && (match f.prev with | some e => s.tb.edge - e < secEdges 4 | none => false)
      && f.ds.steps < 255)

/-- The best master over the enabled ports. -/
def bestMaster (s : State) : Option (Nat × Foreign) :=
  (s.ptp.ports.keys.filter (ptpEnabled s)).foldl (fun acc p =>
    (qualifiedForeign s p).foldl (fun acc f =>
      match acc with
      | none => some (p, f)
      | some b => if betterDs (p, f) b then some (p, f) else some b) acc) none

/-- Role of a port (R48, R51): the slave port is the selected one, and a boundary clock is master on the other enabled ports. -/
def portRole (s : State) (p : Nat) : PtpRole :=
  if s.ptp.slavePort = some p then .slave
  else if ptpEnabled s p && bit (s.cfg 0x40 0) 22 && s.ptp.gm.isSome then .master else .listening

/-- Run the BMCA; a different grandmaster ends LOCKED and starts qualification (R56). -/
def runBmca (s : State) : State :=
  match bestMaster s with
  | none => s
  | some b =>
    if s.ptp.gm.isSome ∧ s.ptp.gmSrc = b.2.src ∧ s.ptp.slavePort = some b.1 then s
    else
      let other := match s.ptp.gm with | some a => a.gm != b.2.ds.gm | none => false
      let s1 := { s with ptp.gm := some b.2.ds, ptp.gmSrc := b.2.src, ptp.slavePort := some b.1, ptp.qualRun := 0,
                         ptp.qualified := false, ptp.lastAnnounce := b.2.last, ptp.lastSync := s.tb.edge }
      if other && srcSel s == 0 then holdoverIfLocked s1 else s1

/-- Set TB_UTC at an instant (R52): a leap second that becomes pending is that of the current day, and the offset in force before a
change is kept. -/
def setUtc (at_ leap : Nat) (v : BitVec 32) (s : State) : State :=
  let u := s.cfg 0x44 0
  let s1 := { s.setCfg 0x44 0 v with tu.leapAt := if bit v 17 && !bit u 17 then now16 s else s.tu.leapAt }
  if fld v 15 0 = fld u 15 0 then s1
  else { s1 with tu.utcPast := { at_ := at_, off := signed 16 (fld u 15 0), leap := leap } :: s.tu.utcPast }

/-- TB_UTC from an Announce (R52). -/
def utcWord (a : Announce) : BitVec 32 :=
  BitVec.ofNat 32 (b2n a.leap59 * 2 ^ 18 + b2n (a.leap59 || a.leap61) * 2 ^ 17 + b2n a.utcValid * 2 ^ 16
    + (BitVec.ofInt 16 a.utcOffset).toNat)

/-- TB_UTC, TRACEABLE and G + N follow the qualified grandmaster's Announce (R46, R47, R52, R56). -/
def applyAnnounce (s : State) (a : Announce) : State :=
  let s1 := { s with ptp.gm := some a, ptp.lastAnnounce := s.tb.edge,
                     ptp.source := if s.ptp.qualified then some a else s.ptp.source }
  if srcSel s = 0 ∧ s.ptp.qualified then
    let s2 := setUtc (now16 s) 0 (utcWord a) s1
    if s.tb.st = .locked then refreshEst { s2 with tb.traceable := a.timeTraceable }
    else if s.tb.st = .holdover then s2 else { s2 with tb.traceable := a.timeTraceable }
  else s1

def rxCorr (s : State) (p : Nat) : Int := signed 16 (fld (s.cfg (0x80 + 4 * p) 0) 31 16) * 16384
def txCorr (s : State) (p : Nat) : Int := signed 16 (fld (s.cfg (0x80 + 4 * p) 0) 15 0) * 16384

/-- Event stamp of a received frame on port p, 2^-16 ns (R49). -/
def rxEvent (s : State) (p : Nat) : Int := Int.ofNat (now16 s) + rxCorr s p
def txEvent (s : State) (p : Nat) : Int := Int.ofNat (now16 s) + txCorr s p

def noteForeign (s : State) (src : PortIdent) (a : Announce) (l : List Foreign) : List Foreign :=
  if l.any (fun f => f.src == src) then
    l.map (fun f => if f.src = src then { f with ds := a, prev := some f.last, last := s.tb.edge } else f)
  else l ++ [{ src := src, ds := a, last := s.tb.edge, prev := none }]

def ptpSend (s : State) (p : Nat) (m : PtpMsg) : State :=
  { s with ptp.sent := s.ptp.sent ++ [{ port := p, edge := s.tb.edge, msg := m }] }

def ownPort (s : State) (p : Nat) : PortIdent := { clock := s.ptp.own, port := p + 1 }
def ptpMsg (s : State) (p : Nat) (seq : Nat) (corr : Int) (b : PtpBody) : PtpMsg :=
  { domain := fld (s.cfg 0x40 0) 31 24, src := ownPort s p, seq := seq, corr := corr, body := b,
    dest := match b with
      | .pdelayReq => .pdelay | .pdelayResp _ _ _ => .pdelay | .pdelayRespFollowUp _ _ => .pdelay | _ => .primary }

/-- One-step on P0 to P7, two-step on F0, F1 and S0 (R48). -/
def oneStepPort (p : Nat) : Bool := p < 8

/-- An offset of the PTP engine reaches the servo (R53, R56). -/
def ptpOffset (ok : Bool) (s : State) (p : Nat) (t2 origin corr : Int) : State :=
  match (ptpPort s p).delay with
  | some d => if srcSel s = 0 ∧ s.ptp.qualified then servoOffset ok (t2 - (origin * 65536 + corr + d)) s else s
  | none => s

/-- A Sync of the selected grandmaster counts toward qualification (GRANDMASTER_QUALIFICATION, R56). -/
def countSync (s : State) : State :=
  let n := s.ptp.qualRun + 1
  let q := s.ptp.qualified || n ≥ 2 ^ fld (s.cfg 0x40 0) 18 16
  let s1 := { s with ptp.qualRun := n, ptp.qualified := q, ptp.lastSync := s.tb.edge }
  if q && !s.ptp.qualified then
    match s.ptp.gm with
    | some a => applyAnnounce { s1 with ptp.lastAnnounce := s.ptp.lastAnnounce } a
    | none => s1
  else s1

def pdelayDone (s : State) (p : Nat) (r : PdelayRun) (t3 : Option Int) (corr : Int) : State :=
  match r.t4, t3 with
  | some t4, some t3 =>
    match r.t2 with
    | some t2 => updPtpPort s p (fun x =>
        let y := match x.lastPair with
          | some q => if t4 > q.2 ∧ t3 > q.1 then { x with nrrNum := (t3 - q.1).toNat, nrrDen := (t4 - q.2).toNat } else x
          | none => x
        { y with delay := some (((t4 - r.t1) * y.nrrNum / y.nrrDen - (t3 - t2) - corr) / 2), run := none,
                 lastPair := some (t3, t4) })
    | none => s
  | some t4, none => updPtpPort s p (fun x => { x with delay := some ((t4 - r.t1 - corr) / 2), run := none })
  | none, _ => s

/-- A received PTP message (R48). -/
def ptpRx (ok : Bool) (p : Nat) (m : PtpMsg) (s : State) : State :=
  if !ptpEnabled s p then s
  else if ptpUnsupported m then { s with ptp.discards := Tbl.upd 0 s.ptp.discards p inc32 }
  else if m.domain ≠ fld (s.cfg 0x40 0) 31 24 then s
  else
    let x := ptpPort s p
    match m.body with
    | .announce a =>
      let s1 := runBmca (updPtpPort s p (fun y => { y with foreign := noteForeign s m.src a y.foreign }))
      if s1.ptp.slavePort = some p ∧ s1.ptp.gmSrc = m.src ∧ s1.ptp.gm.isSome then applyAnnounce s1 a else s1
    | .sync two origin =>
      if s.ptp.slavePort = some p ∧ s.ptp.gmSrc = m.src then
        let s1 := countSync s
        if two then updPtpPort s1 p (fun y => { y with waiting := some (m.src, m.seq, rxEvent s p, m.corr) })
        else ptpOffset ok s1 p (rxEvent s p) (Int.ofNat origin) m.corr
      else s
    | .followUp origin =>
      match x.waiting with
      | some w =>
        if w.1 = m.src ∧ w.2.1 = m.seq then
          ptpOffset ok (updPtpPort s p (fun y => { y with waiting := none })) p w.2.2.1 (Int.ofNat origin) (w.2.2.2 + m.corr)
        else s
      | none => s
    | .pdelayReq =>
      let t2 := rxEvent s p
      let t3 := txEvent s p
      if oneStepPort p then ptpSend s p (ptpMsg s p m.seq (m.corr + (t3 - t2)) (.pdelayResp false 0 m.src))
      else
        ptpSend (ptpSend s p (ptpMsg s p m.seq (-(t2 % 65536)) (.pdelayResp true (t2 / 65536).toNat m.src))) p
          (ptpMsg s p m.seq (m.corr + t3 % 65536) (.pdelayRespFollowUp (t3 / 65536).toNat m.src))
    | .pdelayResp two receipt req =>
      match x.run with
      | some r =>
        if req = ownPort s p ∧ r.seq = m.seq then
          if two then updPtpPort s p (fun y => { y with run := some { r with
            t2 := some (Int.ofNat receipt * 65536), t4 := some (rxEvent s p), corr := m.corr } })
          else pdelayDone s p { r with t4 := some (rxEvent s p) } none m.corr
        else s
      | none => s
    | .pdelayRespFollowUp resp req =>
      match x.run with
      | some r =>
        if req = ownPort s p ∧ r.seq = m.seq then pdelayDone s p r (some (Int.ofNat resp * 65536)) (r.corr + m.corr) else s
      | none => s
    | _ => s

/-- May the port's boundary-clock master send (R51)? -/
def masterSends (s : State) (p : Nat) : Bool :=
  portRole s p == .master && !(bit (s.cfg 0x40 0) 19 && s.tb.st == .holdover)

/-- A message the engine sends at its interval (R48, R51); an Announce carries the C37.238 TLV with PROFILE = 1 (log 12). -/
def ptpTx (p : Nat) (k : PtpTxKind) (s : State) : State :=
  let x := ptpPort s p
  match k with
  | .pdelay =>
    if ptpEnabled s p then
      updPtpPort (ptpSend s p (ptpMsg s p x.pdSeq 0 .pdelayReq)) p (fun y =>
        { y with pdSeq := (x.pdSeq + 1) % 65536, run := some { seq := x.pdSeq, t1 := txEvent s p } })
    else s
  | .sync =>
    if masterSends s p then
      let ns := (txEvent s p / 65536).toNat
      let frac := txEvent s p % 65536
      let s1 := if oneStepPort p then ptpSend s p (ptpMsg s p x.syncSeq frac (.sync false ns))
        else ptpSend (ptpSend s p (ptpMsg s p x.syncSeq 0 (.sync true 0))) p (ptpMsg s p x.syncSeq frac (.followUp ns))
      updPtpPort s1 p (fun y => { y with syncSeq := (x.syncSeq + 1) % 65536 })
    else s
  | .announce =>
    if masterSends s p then
      match s.ptp.gm with
      | some a => updPtpPort (ptpSend s p (ptpMsg s p x.annSeq 0 (.announce { a with
            steps := a.steps + 1, c37238 := if bit (s.cfg 0x40 0) 23 then a.c37238 else none }))) p
          (fun y => { y with annSeq := (x.annSeq + 1) % 65536 })
      | none => s
    else s

/-- announceReceiptTimeout of 3 intervals of 1 s (R48, R56): the master is dropped and the BMCA runs again. -/
def announceTimeout (s : State) : State :=
  match s.ptp.gm with
  | none => s
  | some _ =>
    let s1 := s.runTo (s.ptp.lastAnnounce + secEdges 3)
    let s2 := if srcSel s1 = 0 then holdoverIfLocked s1 else s1
    let drop (a : State) (p : Nat) : State :=
      updPtpPort a p (fun y => { y with foreign := y.foreign.filter (fun f => f.src != s.ptp.gmSrc) })
    runBmca { (s.ptp.ports.keys.foldl drop s2) with
      ptp.gm := none, ptp.slavePort := none, ptp.qualified := false, ptp.qualRun := 0 }

def syncTimeout (s : State) : State :=
  match s.ptp.slavePort with
  | none => s
  | some _ =>
    let s1 := s.runTo (s.ptp.lastSync + secEdges 3)
    let s2 := { s1 with ptp.qualRun := 0, ptp.lastSync := s1.tb.edge }
    if srcSel s2 = 0 then holdoverIfLocked s2 else s2

def fwTimeout (s : State) : State :=
  if srcSel s = 1 ∧ s.tb.st = .locked then
    holdoverIfLocked (s.runTo (s.tb.lastFwOffset + secEdges (fld (s.cfg 0x24 0) 7 4)))
  else s

/-! UTC (R52). -/

def utcOffset (s : State) : Int := signed 16 (fld (s.cfg 0x44 0) 15 0)
/-- The offset in force at an instant of 2^-16 ns (R52). -/
def utcOffAt (s : State) (t16 : Nat) : Int :=
  s.tu.utcPast.foldl (fun o e => if t16 < e.at_ then e.off else o) (utcOffset s)
/-- UTC second count at an instant, with the offset in force then (R52). -/
def utcSecAt (s : State) (t16 : Nat) : Nat := (Int.ofNat (t16 / sec16 1) - utcOffAt s t16).toNat

/-- Is this the first counter-clock edge of a TAI second? -/
def atTop (s : State) : Bool := s.tb.counter % (10 ^ 9 * 2 ^ 40) < s.tb.addend
/-- The TAI second whose top is at this edge or comes next. -/
def topOf (s : State) : Nat := now16 s / sec16 1 + (if atTop s then 0 else 1)
/-- Let time pass to the next top of a TAI second, unless this edge is one. -/
def waitTop (s : State) : State := s.waitUntil (sec16 (topOf s))

/-- TAI second at which UTC_OFFSET changes while LEAP_PENDING is set: at the end of the day at which it became pending (R52). DESIGN
CHOICE (log 88): a deletion that becomes pending within the last second of a day is that of the next day. -/
def leapTai (s : State) : Nat :=
  let u := (Int.ofNat (s.tu.leapAt / sec16 1) - utcOffset s).toNat
  let at_ := if bit (s.cfg 0x44 0) 18 then 86400 * ((u + 1) / 86400 + 1) - 1 else 86400 * (u / 86400 + 1) + 1
  (Int.ofNat at_ + utcOffset s).toNat

/-- UTC_OFFSET changes by one and LEAP_PENDING clears (R52). -/
def leapSecond (s : State) : State :=
  let u := s.cfg 0x44 0
  if bit u 17 then
    let off := if bit u 18 then utcOffset s - 1 else utcOffset s + 1
    setUtc (sec16 (leapTai s)) (if bit u 18 then 2 else 1)
      (BitVec.ofNat 32 (b2n (bit u 18) * 2 ^ 18 + b2n (bit u 16) * 2 ^ 16 + (BitVec.ofInt 16 off).toNat))
      (s.waitUntil (sec16 (leapTai s)))
  else s

/-! Timing outputs (R70 to R72). -/

def toutCfg (s : State) (n : Nat) : BitVec 32 := s.cfg (0x200 + 16 * n) 0
def State.tout (s : State) (n : Nat) : TOut := Tbl.get {} s.tu.touts n
def State.updTout (s : State) (n : Nat) (f : TOut → TOut) : State := { s with tu.touts := Tbl.upd {} s.tu.touts n f }

/-- MODE in force (R70): a change takes effect at the next top of a second. -/
def toutMode (s : State) (n : Nat) : Nat :=
  let x := s.tout n
  if now16 s ≥ x.newAt then fld (toutCfg s n) 3 0 else x.mode

/-- Before a write of TB_TOUTn_CFG with a MODE: hold the mode in force until the next top of a second, where a pulse of another mode
ends. -/
def holdMode (s : State) (n mode : Nat) : State :=
  let m := toutMode s n
  let top := sec16 (ceilDiv (now16 s) (sec16 1))
  s.updTout n (fun x => { x with
    mode := m, newAt := top, pulse := if mode = m then x.pulse else x.pulse.map (fun y => (y.1, min y.2 (max y.1 top))) })

/-- Are T0 to T7 driven? In SAFE they are in the high-impedance state (R466, R484); while PD2 is not in RUN no mode is set. -/
def toutsDriven (s : State) : Bool := !s.pw.safe
def gateOk (s : State) (n : Nat) : Bool := errClass s.tb ≤ fld (toutCfg s n) 15 12
def toutWidth (s : State) (n : Nat) : Nat := ns16 (s.cfg (0x204 + 16 * n) 0).toNat

def ppsPulse (n : Nat) (s : State) : State :=
  let top := sec16 (topOf s)
  let s1 := waitTop s
  if toutMode s1 n = 1 ∧ toutsDriven s1 then
    s1.updTout n (fun x => { x with pulse := if gateOk s1 n then some (top, top + toutWidth s1 n) else none })
  else s1

/-- Civil date of a day number since 1970-01-01: year, day of year from 1, month, day. -/
def yearGo : Nat → Nat → Nat → Nat × Nat
  | 0, y, d => (y, d)
  | f + 1, y, d =>
    let n := if y % 4 = 0 ∧ (y % 100 ≠ 0 ∨ y % 400 = 0) then 366 else 365
    if d < n then (y, d) else yearGo f (y + 1) (d - n)
def yearOf (day : Nat) : Nat × Nat := yearGo (day / 365 + 1) 1970 day
def monthGo (leap : Bool) : Nat → Nat → List Nat → Nat × Nat
  | m, d, n :: r =>
    let k := if m = 2 ∧ leap then n + 1 else n
    if d < k then (m, d + 1) else monthGo leap (m + 1) (d - k) r
  | m, d, [] => (m, d + 1)
def monthDay (day : Nat) : Nat × Nat × Nat :=
  let y := yearOf day
  let leap := y.1 % 4 = 0 ∧ (y.1 % 100 ≠ 0 ∨ y.1 % 400 = 0)
  let m := monthGo leap 1 y.2 [31, 28, 31, 30, 31, 30, 31, 31, 30, 31, 30, 31]
  (y.1, m.1, m.2)

/-- Is a TAI second an inserted one, past or pending (R52)? -/
def insertedSec (s : State) (sec : Nat) : Bool :=
  let w := s.cfg 0x44 0
  s.tu.utcPast.any (fun e => e.leap == 1 && e.at_ == sec16 (sec + 1)) || (bit w 17 && !bit w 18 && sec + 1 == leapTai s)

/-- UTC label of an instant: day, hour, minute, second; an inserted second is 23:59:60 of the old day (R52, R71). -/
def utcLabel (s : State) (t16 : Nat) : Nat × Nat × Nat × Nat :=
  let u := utcSecAt s t16
  if insertedSec s (t16 / sec16 1) && u > 0 then (u / 86400 - 1, 23, 59, 60)
  else (u / 86400, u % 86400 / 3600, u % 3600 / 60, u % 60)

/-- n low bits of x, least significant first. -/
def lowBits : Nat → Nat → List Nat
  | 0, _ => []
  | n + 1, x => x % 2 :: lowBits n (x / 2)

/-- Time-quality code of R71. -/
def irigQuality (c : Nat) : Nat :=
  if c ≤ 1 then 3 else if c ≤ 5 then c + 2 else 0xF

/-- The 100 elements of an IRIG-B frame: 2 is a position identifier (IRIG 200-04; log 16). With IRIG_EXT = 1 every variant carries the
year and the control functions (R71). -/
def irigFrame (s : State) (n sec : Nat) : List Nat :=
  let l := utcLabel s (sec16 sec)
  let y := yearOf l.1
  let doy := y.2 + 1
  let var := fld (toutCfg s n) 11 8
  let ext := bit (toutCfg s n) 7
  let w := s.cfg 0x44 0
  let year := if ext ∨ var ≥ 4 then lowBits 4 (y.1 % 10) ++ [0] ++ lowBits 4 (y.1 / 10 % 10) else List.replicate 9 0
  let q := irigQuality (errClass s.tb)
  let c1 := if ext then [b2n (bit w 17), b2n (bit w 18), 0, 0, 0, 0, 0, 0, 0] else List.replicate 9 0
  let body := lowBits 4 (l.2.2.2 % 10) ++ [0] ++ lowBits 3 (l.2.2.2 / 10) ++ [2]
    ++ lowBits 4 (l.2.2.1 % 10) ++ [0] ++ lowBits 3 (l.2.2.1 / 10) ++ [0, 2]
    ++ lowBits 4 (l.2.1 % 10) ++ [0] ++ lowBits 2 (l.2.1 / 10) ++ [0, 0, 2]
    ++ lowBits 4 (doy % 10) ++ [0] ++ lowBits 4 (doy / 10 % 10) ++ [2]
    ++ lowBits 2 (doy / 100) ++ [0, 0, 0, 0, 0, 0, 0, 2] ++ year ++ [2] ++ c1 ++ [2]
  let par := (body.filter (· == 1)).length + (lowBits 4 q).foldl (· + ·) 0
  let c2 := if ext then [0] ++ lowBits 4 q ++ [par % 2, 0, 0, 0] else List.replicate 9 0
  let sbs := l.2.1 * 3600 + l.2.2.1 * 60 + l.2.2.2
  let hasSbs := var == 0 || var == 3 || var == 4 || var == 7
  let sb := if hasSbs then lowBits 9 sbs ++ [2] ++ lowBits 8 (sbs / 512) ++ [0] else List.replicate 9 0 ++ [2] ++ List.replicate 9 0
  [2] ++ body ++ c2 ++ [2] ++ sb ++ [2]

def irigBFrame (n : Nat) (s : State) : State :=
  let top := topOf s
  let s1 := waitTop s
  if toutMode s1 n = 2 ∧ toutsDriven s1 then
    if bit (s1.cfg 0x44 0) 16 && gateOk s1 n then
      s1.updTout n (fun x => { x with irig := irigFrame s1 n top, irigAt := sec16 top })
    else s1.updTout n (fun x => { x with irig := [], irigAt := sec16 top })
  else s1

/-- A firing of unit u drives the outputs in mode 3 that name it (R70). -/
def touchOutputs (u at_ : Nat) (s : State) : State :=
  (List.range 8).foldl (fun a n =>
    if toutMode a n = 3 ∧ toutsDriven a ∧ fld (toutCfg a n) 20 16 = u then
      a.updTout n (fun x =>
        { x with pulse := some ((match x.pulse with | some y => if at_ < y.2 then y.1 else at_ | none => at_),
            if at_ < x.newAt ∧ fld (toutCfg a n) 3 0 ≠ 3 then min (at_ + toutWidth a n) x.newAt else at_ + toutWidth a n) })
    else a) s

/-! Time-trigger units (R65 to R69). -/

def State.ttu (s : State) (u : Nat) : Ttu := Tbl.get {} s.tu.ttus u
def State.updTtu (s : State) (u : Nat) (f : Ttu → Ttu) : State := { s with tu.ttus := Tbl.upd {} s.tu.ttus u f }
def ttuOwner (s : State) (u : Nat) : Nat := fld (s.cfg (0x300 + 4 * u) 0) 4 0
def anyTtuArmed (s : State) : Bool := s.tu.ttus.any (fun e => e.2.armed)

def ttArmAct (p r : Nat) (s : State) (f : Flight) : State :=
  let ws := f.words
  let u := fld (dw ws 0) 31 16
  let target := fld (dw ws 5) 15 8
  let period := (dw ws 6).toNat
  let count := (dw ws 7).toNat
  let start := t16Of (dword64 ws 2) (dw ws 4).toNat (fld (dw ws 5) 31 16)
  let soonest := now16 s + us16 1
  if (dw ws 0 &&& 0xFE00) != 0 || (dw ws 5 &&& 0xFF) != 0 || u > 31 || (dw ws 4).toNat > 999999999
      || !(target == 0 || (0x10 ≤ target && target ≤ 0x1F)) || (1 ≤ period && period ≤ 999) || (period == 0 && count > 1) then
    finish s p r f.id stBadDesc
  else if !s.timeValid then finish s p r f.id stTimeNotValid
  else if ttuOwner s u ≠ p ∨ (target ≠ 0 ∧ !ownsRangeOf s p (target - 0x10)) then finish s p r f.id stNotPermitted
  else if (s.ttu u).armed then finish s p r f.id stRefusedFull
  else if period = 0 ∧ start < soonest then finish s p r f.id stBadDesc
  else
    let first := if start ≥ soonest then start else start + ns16 (ceilDiv (soonest - start) (ns16 period) * period)
    s.updTtu u (fun _ => { armed := true, ring := 64 * p + r, flight := f.id, irqEach := bit (dw ws 0) 8, target := target,
                           next := first, period := period, left := if period = 0 then 1 else count,
                           forever := period != 0 && count == 0 })

/-- Stop an armed unit before its last firing (R69). -/
def ttStop (s : State) (u : Nat) : State :=
  let x := s.ttu u
  if x.armed then finishKey (s.updTtu u (fun y => { y with armed := false })) x.ring x.flight stAborted else s

def ttCancelAct (p r : Nat) (s : State) (f : Flight) : State :=
  let u := fld (dw f.words 0) 31 16
  if (dw f.words 0 &&& 0xFF00) &&& 0xFE00 != 0 || u > 31 then finish s p r f.id stBadDesc
  else if ttuOwner s u ≠ p then finish s p r f.id stNotPermitted
  else if (s.ttu u).armed && !(s.ttu u).forever && (s.ttu u).left ≤ 1 && (s.ttu u).next ≤ now16 s then finishIgn s p r f.id
  else if (s.ttu u).armed then finish (ttStop s u) p r f.id stDone
  else finishIgn s p r f.id

/-- One firing at the present edge, but for its target capture (R68). -/
def ttuFire (u : Nat) (s : State) : State :=
  let x := s.ttu u
  let s1 := if x.irqEach then devIrq s (ttuOwner s u) (ringCfg s (x.ring / 64) (x.ring % 64)).irqId 0 u else s
  let s2 := touchOutputs u x.next s1
  let last := !x.forever && x.left ≤ 1
  if last then
    finishKey (s2.updTtu u (fun y => { y with armed := false, left := 0, lastFire := some s.tb.edge })) x.ring x.flight stDone
  else
    s2.updTtu u (fun y =>
      { y with next := x.next + ns16 x.period, left := if x.forever then 0 else x.left - 1, lastFire := some s.tb.edge })

/-- The Sstc timer interrupt (R43): the CSR counts whole nanoseconds of the counter. -/
def timeCsr (s : State) : BitVec 64 := BitVec.ofNat 64 (s.tb.counter / 2 ^ 40)
def stimecmpAct (h : Nat) (virt : Bool) (cmp : BitVec 64) (s : State) : State :=
  let s1 := s.pass (edgesUntil s.tb (cmp.toNat * 2 ^ 40))
  s1.updCore h (fun c => if virt then { c with vstimecmp := cmp, vstip := true } else { c with stimecmp := cmp, stip := true })

end Sys2Proof.Machine
end

