-- ==== Sys2Proof/Machine/PairOps.lean ====
section
/-! DEFINITION. The redundancy controller (chapter 18): roles, heartbeats, beacons, takeover, switchover, self-test,
health. The application of delta items and of a snapshot is in Machine/Delta.lean. -/

namespace Sys2Proof.Machine

def isStandby (s : State) : Bool := s.pr.role == .standby
/-- May outputs leave the module at all (R421, R455, R466)? -/
def outputsLive (s : State) : Bool := !s.pr.silent && s.pw.lossAt.isNone && !s.pw.safe
/-- Are the release gates open (R412, R413)? -/
def gatesOpen (s : State) : Bool := s.pr.role == .active && outputsLive s

def prCount (s : State) (i : Nat) : State := { s with pr.cnt := Tbl.upd 0 s.pr.cnt i inc32 }
def flagBit (i : Nat) : BitVec 32 := 1 <<< i
/-- A health condition holds now (R429). -/
def raiseFlag (s : State) (i : Nat) : State := { s with pu.flags := s.pu.flags ||| flagBit i }
def raiseSticky (s : State) (i : Nat) : State :=
  { s with pu.flags := s.pu.flags ||| flagBit i, pu.sticky := s.pu.sticky ||| flagBit i }
def mateSend (s : State) (x : MateSent) : State := { s with pu.out := s.pu.out ++ [(s.tb.edge, x)] }

/-- An item of the state delta leaves the active unit of a pair (R353, R398, R300, R414). -/
def deltaSend (k : DeltaKind) (status : Nat) (s : State) : State :=
  if s.pr.role == .active && (s.pr.m0Up || s.pr.m1Up) then
    mateSend { s with pu.outSeq := s.pu.outSeq + 1 } (.delta { seq := s.pu.outSeq, kind := k, status := status })
  else s
/-- One open key change is applied, and how it ended goes to the standby (R398). -/
def keyApplied (s : State) (x : KeyPend) : State :=
  let y := applyKey x s
  match y.ok.lastEnd with
  | some (n, e, st) => deltaSend (.keyEnd n e) st y
  | none => y

/-- Key changes whose application instant is the present edge: they win against a reset or a commit of that edge (R298, R338). -/
def keysDue (s : State) : State := ((sortBy pendBefore s.ok.pends).filter (fun x => x.applyEdge ≤ s.tb.edge)).foldl keyApplied s

/-- Does a SYNCED standby stand beside this active unit? -/
def mateSynced (s : State) : Bool :=
  s.pr.role == .active && (match s.pr.neigh with | some b => b.role == .standby && b.sync == .synced | none => false)

def hbWin (s : State) : Nat := usEdges (fld (s.cfg 0x110004 0) 11 8)
def bcnPorts (s : State) : Nat := fld (s.cfg 0x110000 0) 7 0
def pairId (s : State) : Nat := fld (s.cfg 0x110000 0) 31 16
def holdOff (s : State) : Nat := fld (s.cfg 0x110004 0) 31 20
/-- The mate link is up while heartbeats arrive on at least one port (R415). -/
def mateUp (s : State) : Bool := s.pr.m0Up || s.pr.m1Up

/-- ROLE_CHANGE (R430): record, tally event of type PAIR, and a new hold-off. -/
def changeRole (s : State) (new : PRole) (cause : Nat) : State :=
  let old := s.pr.role
  let s1 := { s with pr.role := new, pu.roleAt := s.tb.edge, pu.holdFrom := none, pu.outSeq := 0, pu.inSeq := 0, pu.items := [],
                     pu.mine := [], pu.theirs := [] }
  let s2 := recordAll s1 0xD2 [(2, BitVec.ofNat 32 (roleNat old + 16 * roleNat new)), (3, BitVec.ofNat 32 cause)] (stampNow s1)
  tallyEvent s2 0x05 (BitVec.ofNat 32 cause)

/-- Fall silent when the neighbour can take over (R421); otherwise stay active. -/
def fallSilent (s : State) : State :=
  let ready : Bool := match s.pr.neigh with
    | some b => neighSeen s && b.role == .standby && b.sync == .synced && b.fit
    | none => false
  if s.pr.role = .active ∧ !s.pr.silent ∧ ready then changeRole { s with pr.silent := true } .negotiating 5 else s

/-- A failed self-test (R428, R430): result 1 WARN, 2 FATAL. There are the tests 0 to 6; both results count as failed (log 98). -/
def selftest (bitNo : Nat) (fatal : Bool) (detail : BitVec 32) (s : State) : State :=
  if 6 < bitNo then s else
  let s1 := recordAll s 0xD4 [(2, BitVec.ofNat 32 bitNo), (3, if fatal then 2 else 1), (4, detail)] (stampNow s)
  let s2 := tallyEvent s1 0x06 (BitVec.ofNat 32 (bitNo + (if fatal then 2 else 1) * 256))
  let s3 := prCount (raiseFlag { s2 with pu.failed := s2.pu.failed ||| ((1 : BitVec 8) <<< bitNo) } (if fatal then 7 else 8)) 9
  if fatal then fallSilent { s3 with pr.fit := false } else s3

/-- A conserved sum found out of balance: tally event, health flag, and a FATAL self-test (R29, R428). -/
def conservation (row : Nat) (s : State) : State :=
  selftest 5 true (BitVec.ofNat 32 row) (raiseSticky (tallyEvent s 0x03 (BitVec.ofNat 32 row)) 0)

/-- Distance from a to b around a ring. -/
def ringDist (size a b : Nat) : Nat := (b + size - a) % size
/-- Do the device-owned and the written-back slots of a ring not add up to those that firmware has given it (R28, R325)? -/
def ringUneven (s : State) (key : Nat) (x : RingRun) : Bool :=
  let c := ringCfg s (key / 64) (key % 64)
  c.en && c.submission && ringDist c.size x.wi x.pi + ringDist c.size x.ci x.wi != ringDist c.size x.ci x.pi

/-- Is a row of the conserved-quantity table out of balance (R28)? What is free is counted as what is not held, so a sum fails where more is
held than there is: cells, credits of a lane, post slots of a class, node slots, and blocks that no region counts. -/
def uneven (s : State) : Nat → Bool
  | 1 => decide (16384 < usedX s + usedS s)
  | 2 => (List.range 13).any (fun q => [true, false].any (fun e => decide (laneTotal q e < laneHeld s q e)))
  | 3 => s.db.rings.any (fun e => ringUneven s e.1 e.2)
  | 4 => s.sq.hearths.any (fun e => [PostCls.local_, .peer, .device].any (fun c =>
      decide (64 < (e.2.posts.filter (fun q => q.cls == c)).length)))
  | 5 => decide (4096 < s.ok.nodes.length)
  | 6 => ((List.range 6).map (totalIn s)).foldl (· + ·) 0 != 5344
  | _ => false
/-- CONSERVATION_CHECK of rows (R29): at every slot edge of all of them, at the end of an operation of those whose pieces it moves. -/
def checkRows (rows : List Nat) (s : State) : State :=
  (rows.filter (uneven s)).foldl (fun a r => conservation r (if r = 1 then { a with gn.imbal := true } else a)) s

/-- DIVERGENCE (R417): record, count, COLD; the third within 600 s makes the unit UNFIT. -/
def diverge (kind ident : Nat) (s : State) : State :=
  let s1 := recordAll s 0xD3 [(2, BitVec.ofNat 32 kind), (3, BitVec.ofNat 32 ident),
    (4, BitVec.ofNat 32 (slotOf (now16 s)))] (stampNow s)
  let l := s.tb.edge :: (s.pu.divAt.filter (fun e => s.tb.edge - e ≤ secEdges 600))
  raiseFlag (prCount { s1 with pr.sync := .cold, pr.fit := s1.pr.fit && l.length < 3, pu.divAt := l, pu.asked := false,
                               pu.since := none, pu.mine := [], pu.theirs := [] } 4) 6

/-- Both units ACTIVE (R412): position B yields. -/
def dualActive (s : State) : State :=
  let s1 := raiseFlag (prCount s 8) 12
  if s.pr.position = 1 then changeRole { s1 with pr.sync := .cold, pu.asked := false } .standby 4 else s1

/-- A heartbeat arrives on mate port 0 or 1 (R415, R412, R424). -/
def heartbeatRx (port : Nat) (hb : Heartbeat) (s : State) : State :=
  let s1 := { s with pr.hb0 := if port = 0 then some s.tb.edge else s.pr.hb0,
                     pr.hb1 := if port = 0 then s.pr.hb1 else some s.tb.edge,
                     pr.m0Up := s.pr.m0Up || port == 0, pr.m1Up := s.pr.m1Up || port != 0,
                     pr.hbT16 := now16 s, pr.mateLost := false, pr.neighCls := some hb.platform,
                     pr.seen := true, pr.seenActive := s.pr.seenActive || hb.role == .active }
  if s.pr.role = .active ∧ hb.role = .active then dualActive s1 else s1

/-- A heartbeat goes out on each of M0 and M1 whose link is up (R415). -/
def heartbeatSend (s : State) : State :=
  if !outputsLive s then s
  else ([0, 1].filter (fun m => (s.mac (8 + m)).link)).foldl (fun a m => mateSend a (.heartbeat m s.pr.role)) { s with pr.hbSentAt := s.tb.edge }

/-- MATE_LINK_LOSS (R424). -/
def mateLinkLoss (s : State) : State :=
  let s1 := raiseFlag (prCount { s with pr.mateLost := true, pr.sw := none } 6) 2
  if s.pr.role = .standby then { s1 with pr.sync := .cold, pu.asked := false, pu.since := none, pu.mine := [], pu.theirs := [] } else s1

/-- A neighbour beacon sent at least 2 µs after the last heartbeat establishes mate-link loss once heartbeats have stopped (R424). -/
def mateLossDue (s : State) : Bool :=
  (s.pr.hb0.isSome || s.pr.hb1.isSome) && !mateUp s && !s.pr.mateLost &&
  (match s.pr.neigh with | some b => b.sent.t16 ≥ s.pr.hbT16 + us16 2 | none => false)
def mateLossCheck (s : State) : State := if mateLossDue s then mateLinkLoss s else s

/-- No heartbeat for HB_WIN on a mate port (R424). -/
def hbExpiry (s : State) : State :=
  let due (x : Option Nat) (up : Bool) : Option Nat := if up then x.map (· + hbWin s) else none
  match due s.pr.hb0 s.pr.m0Up, due s.pr.hb1 s.pr.m1Up with
  | none, none => s
  | some a, none => mateLossCheck (raiseFlag { s.runTo a with pr.m0Up := false } 3)
  | none, some b => mateLossCheck (raiseFlag { s.runTo b with pr.m1Up := false } 4)
  | some a, some b =>
    if a < b then raiseFlag { s.runTo a with pr.m0Up := false } 3
    else if b < a then raiseFlag { s.runTo b with pr.m1Up := false } 4
    else mateLossCheck (raiseFlag (raiseFlag { s.runTo a with pr.m0Up := false, pr.m1Up := false } 3) 4)

/-- No beacon of the neighbour for BCN_WIN (R425); what position B knows of A's health ends. -/
def bcnExpiry (s : State) : State :=
  match s.pr.bcnAt with
  | some e =>
    if s.pr.beaconLost then s
    else raiseFlag (raiseFlag { s.runTo (e + bcnWin s) with
      pr.beaconLost := true, pu.holdFrom := if s.pr.position = 1 then none else s.pu.holdFrom } 5) 9
  | none => s

def forcedTotal (s : State) : Nat := (s.fb.fbes.map (fun e => e.2.forces.length)).foldl (· + ·) 0
def anyTest (s : State) : Bool := s.fb.fbes.any (fun e => e.2.test)

/-- Health flags of the conditions that hold now (R429). -/
def liveFlags (s : State) : BitVec 32 :=
  (if s.ok.latched then flagBit 1 else 0)
    ||| (if s.pr.mateLost then flagBit 2 else 0)
    ||| (if s.pr.hb0.isSome && !s.pr.m0Up then flagBit 3 else 0)
    ||| (if s.pr.hb1.isSome && !s.pr.m1Up then flagBit 4 else 0)
    ||| (if s.pr.beaconLost then flagBit 5 else 0)
    ||| (if s.pr.neigh.isNone || !neighSeen s then flagBit 9 else 0)
    ||| (match s.pr.neigh with | some b => if b.fit then 0 else flagBit 10 | none => 0)
    ||| (if forcedTotal s ≠ 0 then flagBit 14 else 0) ||| (if anyTest s then flagBit 15 else 0)
    ||| (if s.tb.st = .locked then 0 else flagBit 16)
/-- Health flags of the running second: the conditions that hold or held in it, and those that stay set (R429). -/
def healthFlags (s : State) : BitVec 32 :=
  s.pu.flags ||| s.pu.sticky ||| liveFlags s
    ||| (match s.tb.lockedAt with | some e => if s.tb.edge - e < secEdges 1 then flagBit 16 else 0 | none => 0)

/-- The beacon this unit sends (R418). -/
def ownBeacon (s : State) (port : Nat) : Beacon :=
  { position := s.pr.position, role := s.pr.role, sync := s.pr.sync, fit := s.pr.fit, mateUp := mateUp s,
    pairId := pairId s, seq := Tbl.get 0 s.pr.bcnSeq port, sent := stampNow s, flags := healthFlags s }

/-- The octets of a beacon (R418), without FCS. The rule gives no source address: a free value (log 98). -/
def beaconOctets (s : State) (port : Nat) (b : Beacon) : Bytes :=
  let hi := s.cfg 0x11000C 0
  beBytes 2 (fld hi 15 0) ++ beBytes 4 (s.cfg 0x110008 0).toNat ++ beBytes 6 (Config.freeNat 0x418 port)
    ++ (if bit hi 28 then beBytes 2 0x8100 ++ beBytes 2 (0xE000 + fld hi 27 16) else []) ++ beBytes 2 0x88B5
    ++ beBytes 2 b.magic ++ beBytes 1 b.version ++ beBytes 1 (128 * b.position + roleNat b.role)
    ++ beBytes 1 (syncNat b.sync + 4 * b2n b.fit + 8 * b2n b.mateUp) ++ beBytes 1 0 ++ beBytes 2 b.pairId ++ beBytes 4 b.seq
    ++ beBytes 16 b.sent.word.toNat ++ beBytes 4 b.flags.toNat ++ List.replicate 14 0

/-- BEACON_SEND (R418, R419): it leaves where the port's link is up. -/
def beaconSend (port : Nat) (s : State) : State :=
  if !outputsLive s || (bcnPorts s / 2 ^ port) % 2 == 0 then s
  else { s with pr.beacons := s.pr.beacons ++ [(port, ownBeacon s port)],
                mc.wire := if (s.mac port).link then
                    s.mc.wire ++ [(port, s.tb.edge, .frame (stampNow s) (beaconOctets s port (ownBeacon s port)))] else s.mc.wire,
                pr.bcnSeq := Tbl.upd 0 s.pr.bcnSeq port (fun n => (n + 1) % 2 ^ 32), pr.bcnSentAt := s.tb.edge }

/-- Does the hold-off of a revertive return run on (R427): A a fit synced standby with no health flag? A sees its own flags, B those of
A's last beacon. -/
def holdRuns (s : State) (flags : BitVec 32) : Bool :=
  if s.pr.position = 0 then s.pr.role == .standby && s.pr.sync == .synced && s.pr.fit && flags == 0
  else s.pr.role == .active && (match s.pr.neigh with
    | some b => b.role == .standby && b.sync == .synced && b.fit && b.flags == 0
    | none => false)
/-- The edge from which the hold-off runs, after flags that were seen now. -/
def holdSince (s : State) (flags : BitVec 32) : Option Nat := if holdRuns s flags then some (s.pu.holdFrom.getD s.tb.edge) else none

/-- A beacon arrives (R419, R412, R424). -/
def beaconRx (b : Beacon) (s : State) : State :=
  if b.magic ≠ 0x4942 ∨ b.version ≠ 1 then s
  else if b.pairId ≠ pairId s then prCount s 7
  else if b.position = s.pr.position then raiseFlag (prCount s 7) 13
  else
    let s0 := if neighSeen s then s else raiseFlag s 9
    let s1 := { (if b.fit then s0 else raiseFlag s0 10) with
      pr.bcnAt := some s.tb.edge, pr.neigh := some b, pr.beaconLost := false, pr.seen := true,
      pr.seenActive := s.pr.seenActive || b.role == .active }
    let s2 := if s.pr.position = 1 then { s1 with pu.holdFrom := holdSince s1 0 } else s1
    mateLossCheck (if s.pr.role = .active ∧ b.role = .active then dualActive s2 else s2)

/-- NEGOTIATION_END (R411): the role taken. `paired` says whether the matrix pairs the two platforms (R472). -/
def negotiationEnd (s : State) : State :=
  if s.pr.role ≠ .negotiating ∨ s.pw.step ≠ 8 then s
  else
    let s1 := s.runTo (s.pr.negAt + msEdges 50)
    let new : PRole := if s1.pr.seenActive then .standby else if s1.pr.seen then (if s1.pr.position = 0 then .active else .standby)
                       else .active
    changeRole { s1 with pr.sync := .cold, pw.step := 9, pw.stepAt := s1.tb.edge } new 0

/-- The edge at which a takeover is declared (R420). A unit that has had no heartbeat yet waits for the beacon window only, and one that has
seen no beacon declares none (log 98). -/
def takeoverEdge (s : State) : Option Nat :=
  let after (x : Option Nat) : Nat := (x.map (· + hbWin s)).getD 0
  s.pr.bcnAt.map (fun b => max (b + bcnWin s) (max (after s.pr.hb0) (after s.pr.hb1)))

/-- TAKEOVER (R420, R422); `resume` is what follows on the new active unit. -/
def takeover (resume : State → State) (s : State) : State :=
  match takeoverEdge s with
  | none => s
  | some e =>
    if s.pr.role ≠ .standby ∨ bcnPorts s = 0 then s
    else
      let s1 := s.runTo e
      let cold := s1.pr.sync != .synced || !s1.pr.fit
      let s2 := changeRole { s1 with pr.lastT := (stampNow s1).word, pr.m0Up := false, pr.m1Up := false } .active
        (if cold then 2 else 1)
      let s3 := prCount s2 0
      resume (if cold then raiseSticky (prCount s3 1) 11 else s3)

/-- Is the neighbour a fit synchronised standby (R421, R427)? -/
def neighReady (s : State) : Bool :=
  match s.pr.neigh with
  | some b => neighSeen s && b.role == .standby && b.sync == .synced && b.fit
  | none => false

/-- The active unit starts a switchover (R427): S is the first top of a TAI second at least 2 ms ahead. -/
def startSwitch (s : State) : State :=
  let at_ := sec16 (ceilDiv (now16 s + ms16 2) (sec16 1))
  mateSend { s with pr.sw := some { at_ := at_ } } (.switch at_)

/-- A write of PR_SWITCH by partition p (R427). -/
def prSwitchWrite (p : Nat) (v : BitVec 32) (s : State) : State :=
  if p ≠ 0 ∨ !bit v 0 then s
  else if s.pr.role ≠ .active then s
  else if !neighReady s || !mateUp s || s.pr.sw.isSome then prCount s 3
  else startSwitch s

/-- The revertive hold-off has run (R427): the active unit at position B begins the switchover. -/
def revertHoldoff (s : State) : State :=
  match s.pu.holdFrom with
  | none => s
  | some e =>
    if !bit (s.cfg 0x110000 0) 15 then s
    else
      let s1 := s.runTo (e + secEdges (holdOff s))
      if s1.pr.role = .active ∧ s1.pr.position = 1 ∧ neighReady s1 ∧ mateUp s1 ∧ s1.pr.sw.isNone then startSwitch s1 else s1

def switchRx (at_ : Nat) (s : State) : State :=
  if s.pr.role = .standby then mateSend { s with pr.sw := some { at_ := at_, acked := true } } (.switchAck at_) else s
def switchAcked (s : State) : State :=
  if s.pr.role = .active then { s with pr.sw := s.pr.sw.map (fun x => { x with acked := true }) } else s

/-- GO at S − 100 µs, or the switchover is abandoned and counted (R427). -/
def goAct (s : State) : State :=
  match s.pr.sw with
  | none => s
  | some x =>
    if s.pr.role ≠ .active ∨ x.goSent then s
    else
      let s1 := s.waitUntil (x.at_ - us16 100)
      if x.acked then mateSend { s1 with pr.sw := some { x with goSent := true } } .go
      else prCount { s1 with pr.sw := none } 3

def goAckRx (s : State) : State :=
  match s.pr.sw with
  | some x => if s.pr.role = .active ∧ now16 s < x.at_ then { s with pr.sw := some { x with goAcked := true } } else s
  | none => s
def goRx (s : State) : State :=
  match s.pr.sw with
  | some x => if s.pr.role = .standby then mateSend { s with pr.sw := some { x with goReceived := true } } .goAck else s
  | none => s

/-- SWITCHOVER at S (R427); `resume` is what follows on the new active unit, and `leave` on the old one. -/
def switchover (resume leave : Nat → State → State) (s : State) : State :=
  match s.pr.sw with
  | none => s
  | some x =>
    let s1 := { s.waitUntil x.at_ with pr.sw := none }
    if s.pr.role = .active ∧ x.goAcked then
      prCount (leave x.at_ (changeRole { s1 with pr.sync := .synced, pu.since := some (slotOf x.at_) } .standby 3)) 2
    else if s.pr.role = .standby ∧ x.goReceived then prCount (resume x.at_ (changeRole s1 .active 3)) 2
    else s1

/-- HEALTH at a top of a TAI second (R429): the next second begins with the conditions that hold now. -/
def health (s : State) : State :=
  let s1 := waitTop s
  let fl := healthFlags s1
  let left := match s1.pu.holdFrom with
    | some e => if s1.pr.position = 0 then holdOff s1 - (s1.tb.edge - e) / secEdges 1 else 0
    | none => if s1.pr.position = 0 ∧ s1.pr.role = .standby then holdOff s1 else 0
  let state := s1.pr.position + 2 * roleNat s1.pr.role + 8 * syncNat s1.pr.sync + 32 * b2n s1.pr.fit
  let nfl := match s1.pr.neigh with | some b => b.flags | none => 0
  let s2 := recordAll s1 (BitVec.ofNat 32 (0xD1 + 65536 * state))
    [(2, fl), (3, nfl), (4, BitVec.ofNat 32 (s1.pu.failed.toNat * 65536 + forcedTotal s1)),
     (5, BitVec.ofNat 32 (Tbl.get 0 s1.pr.cnt 4)), (6, BitVec.ofNat 32 ((s1.tb.edge - s1.pu.roleAt) / secEdges 1)),
     (7, BitVec.ofNat 32 left)]
    { t16 := sec16 (now16 s1 / sec16 1), q := s1.quality }
  { s2 with pu.flags := liveFlags s1, pu.failed := 0,
            pu.holdFrom := if s1.pr.position = 0 then holdSince s1 fl else s1.pu.holdFrom }

/-! Decision records (R417). -/

def sameDecision (a b : Decision) : Bool :=
  match a, b with
  | .handOff h c _, .handOff h' c' _ => h == h' && c == c'
  | .frame i _, .frame i' _ => i == i'
  | .loop l k _, .loop l' k' _ => l == l' && k == k'
  | _, _ => false
def decisionKind : Decision → Nat
  | .handOff _ _ _ => 0 | .frame _ _ => 1 | .loop _ _ _ => 2
def decisionId : Decision → Nat
  | .handOff h _ _ => h | .frame _ c => c | .loop l _ _ => l

/-- This unit made a decision: the active unit sends its record, the standby keeps it for comparison. -/
def decide_ (d : Decision) (s : State) : State :=
  match s.pr.role with
  | .active => if s.pr.neigh.isSome then mateSend s (.decision d) else s
  | .standby =>
    match s.pu.theirs.find? (fun x => sameDecision x.1 d) with
    | some x =>
      let s1 := { s with pu.theirs := s.pu.theirs.filter (fun y => !sameDecision y.1 d) }
      if x.1 = d then s1 else diverge (decisionKind d) (decisionId d) s1
    | none => { s with pu.mine := s.pu.mine ++ [(d, slotOf (now16 s))] }
  | .negotiating => s

/-- DECISION_RECORD (R417). -/
def decisionRx (d : Decision) (s : State) : State :=
  if s.pr.role ≠ .standby then s
  else
    match s.pu.mine.find? (fun x => sameDecision x.1 d) with
    | some x =>
      let s1 := { s with pu.mine := s.pu.mine.filter (fun y => !sameDecision y.1 d) }
      if x.1 = d then s1 else diverge (decisionKind d) (decisionId d) s1
    | none => { s with pu.theirs := s.pu.theirs ++ [(d, slotOf (now16 s))] }

/-- COUNTERPART_TIMEOUT (R417): the oldest record of the active unit finds no counterpart within 2 slots. -/
def counterpartTimeout (s : State) : State :=
  match s.pu.theirs with
  | [] => s
  | x :: r =>
    let s1 := s.waitSlot (x.2 + 3)
    diverge 5 (decisionId x.1) { s1 with pu.theirs := r }

/-- Has a frame with this identity been settled in the latest 0.5 s? An SV identity comes back every second (R416; log 94). -/
def settledSince (s : State) (id : FrameId) (l : List (FrameId × Nat)) : Bool := l.any (fun x => x.1 == id && s.tb.edge - x.2 < msEdges 500)
def noteSettled (s : State) (id : FrameId) (l : List (FrameId × Nat)) : List (FrameId × Nat) :=
  (id, s.tb.edge) :: l.filter (fun x => s.tb.edge - x.2 < msEdges 500)

/-- CONFIRMATION (R416): a withheld frame is settled and discarded; a standby that has not built it yet notes it. A frame is settled once,
whether by its confirmation or by the identical frame on a P port. -/
def settleFrame (id : FrameId) (s : State) : State :=
  if s.pr.role ≠ .standby then s
  else if s.pu.held.any (fun f => f.id == id) then
    { s with pu.held := s.pu.held.filter (fun f => f.id != id), pu.done_ := noteSettled s id s.pu.done_ }
  else if settledSince s id s.pu.done_ then s
  else { s with pu.early := noteSettled s id s.pu.early }

/-- SYNCED after 4,800 slots without a divergence (R426). -/
def synced (s : State) : State :=
  match s.pu.since with
  | some k => if s.pr.role = .standby ∧ s.pr.sync = .syncing then { s.waitSlot (k + 4800) with pr.sync := .synced } else s
  | none => s

/-- RESYNC_REQUEST (R426): on a COLD standby the request is sent; on the active unit the snapshot edge is chosen. -/
def resyncRequest (paired : Bool) (s : State) : State :=
  match s.pr.role with
  | .standby =>
    if s.pr.sync = .cold ∧ mateUp s ∧ paired then mateSend { s with pr.sync := .syncing, pu.asked := true } .resyncRequest
    else s
  | .active =>
    let k := slotCeil (now16 s + ms16 1)
    { s with pu.snapSlot := some (ceilDiv k 16 * 16) }
  | .negotiating => s

end Sys2Proof.Machine
end

