-- ==== Sys2Proof/Machine/GreenOps.lean ====
section
/-! DEFINITION. The green (chapter 15) and the MACs (chapter 16): pools and admission, classification, output choice,
transmission with preemption, discards, link loss and hold, flow control, delivery to rings, optics. -/

namespace Sys2Proof.Machine

/-! Frames. -/

/-- EtherType and the offset of the octets after it, past one VLAN tag. -/
def etherAt (o : Bytes) : Nat × Nat := if be o 12 2 = 0x8100 then (be o 16 2, 18) else (be o 12 2, 14)
def vlanTag (o : Bytes) : Option Nat := if be o 12 2 = 0x8100 then some (be o 14 2) else none
def vlanId (o : Bytes) : Option Nat := (vlanTag o).map (· % 4096)
def pcpOf (o : Bytes) : Option Nat := (vlanTag o).map (· / 8192)
/-- Offset of the UDP header of an unfragmented IPv4 datagram. -/
def udpAt (o : Bytes) : Option Nat :=
  let e := etherAt o
  let ihl := be o e.2 1 % 16 * 4
  if e.1 = 0x0800 ∧ be o e.2 1 / 16 = 4 ∧ be o (e.2 + 6) 2 % 0x4000 = 0 ∧ be o (e.2 + 9) 1 = 17 then some (e.2 + ihl)
  else none
/-- Replace octets from an offset. -/
def patch (o : Bytes) (i : Nat) (bs : Bytes) : Bytes := o.take i ++ bs ++ o.drop (i + bs.length)

/-! Ports. -/

def State.updMac (s : State) (q : Nat) (f : Mac → Mac) : State := { s with mc.macs := Tbl.upd {} s.mc.macs q f }
/-- Count in a port counter (R388): the octet counters wrap, the others saturate. -/
def macCount (s : State) (q i n : Nat) : State :=
  { s with
    mc.cnt := Tbl.upd 0 s.mc.cnt (32 * q + i) (fun c => if i = 1 ∨ i = 13 then (c + n) % 2 ^ 32 else add32 c n) }
def gnKey (index port cls : Nat) : Nat := index * 65536 + port * 256 + cls
def gnCount (s : State) (index port cls : Nat) : State :=
  { s with gn.cnt := Tbl.upd 0 s.gn.cnt (gnKey index port cls) inc32 }

def macCfg (s : State) (q : Nat) : BitVec 32 := s.cfg 0xF0004 q
def macEn (s : State) (q : Nat) : Bool := bit (macCfg s q) 31
def macStaleAge (s : State) (q : Nat) : Nat := fld (s.cfg 0xF0008 q) 31 16
def macHold (s : State) (q : Nat) : Nat := fld (s.cfg 0xF0008 q) 15 0
/-- Counter-clock edges that n bits take. -/
def bitEdges (speed n : Nat) : Nat := ceilDiv (n * bitPs speed) 4000
/-- Is a speed code given to the port by R373? -/
def speedOk (q code : Nat) : Bool :=
  if q < 8 then code == 2 || code == 3 || code == 5
  else if q < 10 then code == 5 || code == 6
  else if q < 12 then code == 1 || code == 2 || code == 3 || code == 4
  else code == 1 || code == 2 || code == 3
/-! Pools and admission (R359 to R361, R371). -/

def poolX (s : State) : Nat := fld (s.cfg 0xE0008 0) 13 0
def freeX (s : State) : Nat := poolX s - usedX s
def freeS (s : State) : Nat := (16384 - 1024 - poolX s) - usedS s
/-- ALPHA × free cells; the reserved code is a free value (log 9). -/
def alphaOf (code free : Nat) : Nat :=
  match code with
  | 0 => free / 8 | 1 => free / 4 | 2 => free / 2 | 3 => free | 4 => 2 * free | 5 => 4 * free | 6 => 8 * free
  | _ => Config.freeNat 0x361 free
def freeFor (s : State) (cls : Nat) : Nat := if cls ≥ 4 ∧ freeX s > 0 then freeX s else freeS s
/-- Cells that six cells of an admission take from the express pool. -/
def takeX (s : State) (cls : Nat) : Nat := if cls ≥ 4 then min 6 (freeX s) else 0
def admits (s : State) (q cls : Nat) : Bool :=
  depthOf s q cls + 6 ≤ alphaOf (fld (qCfg s q cls) 26 24) (freeFor s cls) && 6 - takeX s cls ≤ freeS s
def marks (s : State) (q cls : Nat) : Bool :=
  bit (qCfg s q cls) 31 && depthOf s q cls ≥ fld (qCfg s q cls) 13 0

/-! Discards (R382 to R386). -/

def findFrame (s : State) (id : Nat) : Option GFrame := s.gn.frames.find? (fun f => f.id == id)
/-- Remove one output of a frame; a frame without outputs leaves the buffer. -/
def dropOut (s : State) (id q : Nat) : State :=
  { s with
    gn.frames := (s.gn.frames.map (fun f =>
      if f.id = id then { f with outs := f.outs.filter (fun o => o.port != q) } else f)).filter (fun f => !f.outs.isEmpty) }
def updFrame (s : State) (id : Nat) (g : GFrame → GFrame) : State :=
  { s with gn.frames := s.gn.frames.map (fun f => if f.id = id then g f else f) }

/-- Counter of a discard reason (R386). -/
def reasonCounter : Nat → Nat
  | 3 => 14 | 4 => 18 | 5 => 19 | _ => 15
/-- Discard a frame at port q with a reason code (R386). -/
def discardAt (q reason : Nat) (f : GFrame) (s : State) : State :=
  let s1 := macCount (dropOut s f.id q) q (reasonCounter reason) 1
  match f.src with
  | .ring key fl _ =>
    completeKey s1 key fl { status := stAborted, res16 := reason, hi0 := f.ident, stamp := some (stampNow s) }
  | _ => s1
/-- Frames waiting at port q, oldest first. -/
def waitingAt (s : State) (q : Nat) : List GFrame :=
  s.gn.frames.filter (fun f => f.outs.any (fun o => o.port == q && !o.going))
def discardWaiting (q reason : Nat) (s : State) : State := (waitingAt s q).foldl (fun a f => discardAt q reason f a) s

/-- Is the port's link down with no hold running (R383)? -/
def pastHold (s : State) (q : Nat) : Bool := !(s.mac q).link && (s.mac q).downAt.isNone

/-- Enter a frame for the outputs wanted: admission, marking and counting for each (R361, R371); a frame no queue admits
is discarded whole, and a TX ring's descriptor then ends REFUSED_FULL. -/
def enqueue (f0 : GFrame) (wants : List Nat) (s : State) : State :=
  let ok := wants.filter (fun q => admits s q f0.cls)
  let s1 := (wants.filter (fun q => !admits s q f0.cls)).foldl (fun a q => gnCount a 1 q f0.cls) s
  if ok.isEmpty then
    (match f0.src with
     | .ring key fl _ => finishKey s1 key fl stRefusedFull
     | _ => s1)
  else
    let s2 := ok.foldl (fun a q =>
      let b := gnCount a 0 q f0.cls
      if marks s q f0.cls then gnCount b 2 q f0.cls else b) s1
    let n := cellsOf f0.octets.length
    let x := min n (takeX s f0.cls)
    let f := { f0 with
      id := s.gn.nextId, xp := x, sp := n - x,
      outs := ok.map (fun q => { port := q, mark := marks s q f0.cls, at_ := s.tb.edge }) }
    let s3 := { s2 with gn.nextId := s.gn.nextId + 1, gn.frames := s2.gn.frames ++ [f] }
    (ok.filter (fun q => q < 13)).foldl (fun a q =>
      if !macEn a q then discardAt q 6 f a else if pastHold a q then discardAt q 2 f a else a) s3

/-! PTP frames in the green (R372). -/

def ptpOff (o : Bytes) : Option Nat := let e := etherAt o; if e.1 = 0x88F7 then some e.2 else none
def ptpType (o : Bytes) (i : Nat) : Nat := be o i 1 % 16
def ptpTwoStep (o : Bytes) (i : Nat) : Bool := be o (i + 6) 1 / 2 % 2 == 1
def ptpSrc (o : Bytes) (i : Nat) : Bytes := octs o (i + 20) 10
def ptpSeq (o : Bytes) (i : Nat) : Nat := be o (i + 30) 2
def tcEn (s : State) : Bool := bit (s.cfg 0x40 0) 20
/-- Is the frame one that the transparent clock handles from its ingress port to q? -/
def tcFrame (s : State) (f : GFrame) (q : Nat) : Option Nat :=
  match f.src, ptpOff f.octets with
  | .ext p, some i => if tcEn s && ptpEnabled s p && ptpEnabled s q then some i else none
  | _, _ => none
def addCorr (o : Bytes) (i : Nat) (c : Int) : Bytes :=
  patch o (i + 8) (beBytes 8 ((signed 64 (be o (i + 8) 8) + c) % (2 ^ 64 : Int)).toNat)
/-- Correction of a forwarded event message (R50, R372), 2^-16 ns. -/
def residence (s : State) (f : GFrame) (tx : Int) : Int :=
  match f.src with
  | .ext p =>
    let x := ptpPort s p
    roundEven ((tx - f.evt) * Int.ofNat x.nrrNum) x.nrrDen + (if bit (s.cfg 0x40 0) 21 then 0 else x.delay.getD 0)
  | _ => 0
def tcPair (s : State) (q : Nat) (o : Bytes) (i : Nat) : Option TcPair :=
  s.gn.tc.find? (fun t => t.port == q && t.srcId == ptpSrc o i && t.seq == ptpSeq o i)
/-- A Follow_Up to F0, F1 or S0 whose Sync has not left waits (R372). -/
def followUpWaits (s : State) (f : GFrame) (q : Nat) : Bool :=
  match tcFrame s f q with
  | some i => q ≥ 10 && ptpType f.octets i == 8 && (tcPair s q f.octets i).isNone
  | none => false

/-! What leaves a port. -/

/-- Mark ECN of an IP frame (R371). -/
def ecnMark (o : Bytes) : Bytes :=
  let e := etherAt o
  if e.1 = 0x0800 then
    let tos := be o (e.2 + 1) 1
    if tos % 4 = 1 ∨ tos % 4 = 2 then
      let ihl := be o e.2 1 % 16 * 4
      let o1 := patch (patch o (e.2 + 1) [BitVec.ofNat 8 (tos / 4 * 4 + 3)]) (e.2 + 10) [0, 0]
      patch o1 (e.2 + 10) (beBytes 2 (ipChecksum (octs o1 e.2 ihl)))
    else o
  else if e.1 = 0x86DD then
    let w := be o e.2 2
    let ecn := w / 16 % 4
    if ecn = 1 ∨ ecn = 2 then patch o e.2 (beBytes 2 (w / 64 * 64 + 48 + w % 16)) else o
  else o

def padFrame (n : Nat) (o : Bytes) : Bytes := o ++ List.replicate (n - o.length) 0

/-- Is a frame stale when it would begin at port q (R381)? -/
def staleAt (s : State) (q : Nat) (f : GFrame) : Bool :=
  let e := (etherAt f.octets).1
  let queued := ((f.outs.find? (fun o => o.port == q)).map (·.at_)).getD s.tb.edge
  (f.expiry != 0 && now16 s > f.expiry) ||
    ((e == 0x88BA || e == 0x88B8 || e == 0x88F7) && macStaleAge s q != 0 && s.tb.edge - queued > usEdges (macStaleAge s q))

/-- Are the frames of a class stopped by PAUSE or PFC (R380)? -/
def pausedNow (m : Mac) (edge cls : Nat) : Bool :=
  (match m.pause with | some e => edge < e | none => false) || edge < Tbl.get 0 m.pfc cls

/-- First frame of a class that may begin at port q. -/
def headOf (s : State) (q cls : Nat) : Option GFrame :=
  if pausedNow (s.mac q) s.tb.edge cls then none
  else (waitingAt s q).find? (fun f => f.cls == cls && !followUpWaits s f q)

def weightOf (s : State) (c : Nat) : Nat := fld (s.cfg 0xE0010 0) (8 * c + 7) (8 * c)

/-- Deficits of classes 0 to 3 at an output and the class whose turn it is (R365). -/
def turnAt (s : State) (q : Nat) : Tbl Nat × Nat := if q = 19 then (s.gn.deficit, s.gn.turn) else ((s.mac q).deficit, (s.mac q).turn)
def setTurn (q : Nat) (d : Tbl Nat × Nat) (s : State) : State :=
  if q = 19 then { s with gn.deficit := d.1, gn.turn := d.2 } else s.updMac q (fun y => { y with deficit := d.1, turn := d.2 })

/-- Deficit round robin over classes 0 to 3 (R365): the frame chosen, with the deficits and the turn after it. -/
def drr (s : State) (q : Nat) : Nat → Tbl Nat → Nat → Bool → Option (GFrame × Tbl Nat × Nat)
  | 0, _, _, _ => none
  | n + 1, d, t, fresh =>
    match (if weightOf s t = 0 then none else headOf s q t) with
    | none => drr s q n (Tbl.set 0 d t 0) ((t + 1) % 4) true
    | some f =>
      let have_ := Tbl.get 0 d t + (if fresh then 256 * weightOf s t else 0)
      let need := 256 * cellsOf f.octets.length
      if need ≤ have_ then some (f, Tbl.set 0 d t (have_ - need), t)
      else drr s q n (Tbl.set 0 d t have_) ((t + 1) % 4) true

/-- The express frame that would begin next: strict priority from class 7 down. -/
def expressHead (s : State) (q : Nat) : Option GFrame := [7, 6, 5, 4].findSome? (headOf s q)

/-- The frame that output q would begin next (R364, R365), with the deficits and the turn after it. -/
def chooseFrame (s : State) (q : Nat) : Option (GFrame × Tbl Nat × Nat) :=
  let d := turnAt s q
  match expressHead s q with
  | some f => some (f, d)
  | none =>
    match drr s q 64 d.1 d.2 false with
    | some x => some x
    | none => ([3, 2, 1, 0].findSome? (fun c => if weightOf s c = 0 then headOf s q c else none)).map (fun f => (f, d))

/-- The octets of a frame as they leave port q (R371, R372). -/
def leaving (s : State) (q : Nat) (f : GFrame) : Bytes :=
  let mk := ((f.outs.find? (fun o => o.port == q)).map (·.mark)).getD false
  let o := if mk then ecnMark f.octets else f.octets
  match tcFrame s f q with
  | none => o
  | some i =>
    if ptpType o i < 4 ∧ q < 8 then addCorr o i (residence s f (txEvent s q))
    else if ptpType o i = 8 ∧ q ≥ 10 then ((tcPair s q o i).map (fun t => addCorr o i t.corr)).getD o
    else o

/-- A Sync that left F0, F1 or S0 with an event stamp waits for its Follow_Up (R372); a later one of the same sequence number takes its
place, and with 32 waiting none is added (log 97). -/
def noteSync (q : Nat) (f : GFrame) (evt : Stamp) (s : State) : State :=
  match tcFrame s f q with
  | some i =>
    if q < 10 || ptpType f.octets i != 0 then s
    else
      let l := s.gn.tc.filter (fun t => !(t.port == q && t.srcId == ptpSrc f.octets i && t.seq == ptpSeq f.octets i))
      if l.length < 32 then
        { s with gn.tc := l ++ [{ port := q, srcId := ptpSrc f.octets i, seq := ptpSeq f.octets i,
                                  corr := residence s f (Int.ofNat evt.t16) }] }
      else s
  | none => s
/-- A Follow_Up that has left takes its Sync's correction away. -/
def dropPair (q : Nat) (f : GFrame) (s : State) : State :=
  match tcFrame s f q with
  | some i =>
    if ptpType f.octets i = 8 then
      (match tcPair s q f.octets i with
       | some t => { s with gn.tc := s.gn.tc.filter (fun x => x != t) }
       | none => s)
    else s
  | none => s

def wireOut (s : State) (q : Nat) (w : WireOut) : State := { s with mc.wire := s.mc.wire ++ [(q, s.tb.edge, w)] }

/-- Take the transmit identifier of a frame that asks for a stamp on S0, F0 or F1, at its first attempt (R59). -/
def takeIdent (s : State) (q : Nat) (f : GFrame) : State :=
  match f.src, f.ident with
  | .ring _ _ true, none =>
    { updFrame s f.id (fun g => { g with ident := some (Tbl.get 0 s.tu.txIdent q) }) with
      tu.txIdent := Tbl.upd 0 s.tu.txIdent q (fun n => (n + 1) % 65536) }
  | _, _ => s

/-- The stamp of a frame's beginning joins the queue of R59 when the frame asks for it. -/
def stampQueue (s : State) (q : Nat) (id : Nat) (evt : Stamp) : State :=
  match findFrame s id with
  | some f => (match f.ident with | some n => pushTsq s q n evt | none => s)
  | none => s

/-- Begin sending a frame (R49, R59, R378). -/
def beginFrame (q : Nat) (f : GFrame) (s : State) : State :=
  let evt : Stamp := { t16 := (txEvent s q).toNat, q := s.quality }
  let out := padFrame 60 (leaving s q f)
  let s1 := updFrame (takeIdent s q f) f.id (fun g => { g with outs := g.outs.map (fun o => if o.port = q then { o with going := true } else o) })
  let s2 := s1.updMac q (fun m => { m with tx := some { id := f.id, start := s.tb.edge, evt := evt, express := decide (4 ≤ f.cls), total := out.length + 4, out := out } })
  if (s.mac q).half then s2 else noteSync q f evt (stampQueue s2 q f.id evt)

/-- May an express frame interrupt the frame being sent (R378)? -/
def mayPreempt (s : State) (q : Nat) : Bool :=
  let m := s.mac q
  match m.tx with
  | some x =>
    let n := octetsIn m.speed (s.tb.edge - x.start)
    let cls := ((findFrame s x.id).map (·.cls)).getD 7
    m.preempt && cls < 4 && m.susp.isNone && (expressHead s q).isSome
      && n + 4 ≥ (1 + fld (macCfg s q) 24 23) * 64 && x.total ≥ x.sent + n + 64
  | none => false

/-- Start what may begin at a free port: stale frames are discarded first (R381); a suspended frame resumes when no
express frame begins. -/
def startNext (q : Nat) : Nat → State → State
  | 0, s => s
  | n + 1, s =>
    let m := s.mac q
    match m.susp, expressHead s q with
    | some x, none => s.updMac q (fun y => { y with tx := some { x with start := s.tb.edge }, susp := none })
    | _, _ =>
      match chooseFrame s q with
      | none => s
      | some c =>
        let s1 := setTurn q c.2 s
        if staleAt s q c.1 then startNext q n (discardAt q 3 c.1 s) else beginFrame q c.1 s1

/-- FRAME_TX_START (R363, R365, R378, R381). -/
def frameTxStart (q : Nat) (s : State) : State :=
  let m := s.mac q
  if !m.link || m.backoff.isSome then s
  else
    match m.tx with
    | none => startNext q (s.gn.frames.length + 1) s
    | some x =>
      if mayPreempt s q then
        let n := octetsIn m.speed (s.tb.edge - x.start)
        let s1 := s.updMac q (fun y => { y with tx := none, susp := some { x with sent := x.sent + n } })
        startNext q (s.gn.frames.length + 1) (if x.sent = 0 then macCount s1 q 16 1 else s1)
      else s

/-- Completion of a ring's frame whose last bit left port q (R58, R340). -/
def txDone (q : Nat) (x : TxRun) (f : GFrame) (s : State) : State :=
  match f.src with
  | .ring key fl _ =>
    completeKey s key fl { status := stDone, hi0 := f.ident, stamp := some (if q < 10 then x.evt else stampNow s) }
  | .internal (some id) => { s with pu.out := s.pu.out ++ [(s.tb.edge, .confirmation id)] }
  | _ => s

/-- FRAME_TX_COMPLETE (R340, R416): the last bit leaves at the end of the frame's own time at the port's speed. -/
def frameTxComplete (q : Nat) (s : State) : State :=
  let m := s.mac q
  match m.tx with
  | none => s
  | some x =>
    let s1 := s.runTo (x.start + bitEdges m.speed ((x.total - x.sent) * 8))
    let s2 := wireOut (macCount (macCount (s1.updMac q (fun y => { y with tx := none, tries := 0 })) q 12 1) q 13 x.total)
      q (.frame x.evt x.out)
    let s3 := if m.half then stampQueue s2 q x.id x.evt else s2
    match findFrame s3 x.id with
    | none => s3
    | some f => txDone q x f (dropOut (dropPair q f (if m.half then noteSync q f x.evt s3 else s3)) x.id q)

/-! Half duplex (R376). -/

/-- COLLISION: within the first 512 bit times a jam and a retry after back-off, up to 16 attempts; later, a late
collision. A frame that backs off stays in the FIFO, and BACKOFF_EXPIRY comes when the sender has drawn its time (log 97). -/
def collision (q : Nat) (late : Bool) (s : State) : State :=
  let m := s.mac q
  match m.tx with
  | none => s
  | some x =>
    if !m.half then s
    else
      let s1 := wireOut (macCount s q 17 1) q .jam
      let away (reason : Nat) : State :=
        match findFrame s1 x.id with
        | some f => discardAt q reason f (s1.updMac q (fun y => { y with tx := none, tries := 0 }))
        | none => s1
      if late || octetsIn m.speed (s.tb.edge - x.start) ≥ 64 then away 5
      else if m.tries + 1 ≥ 16 then away 4
      else s1.updMac q (fun y => { y with tx := none, tries := m.tries + 1, backoff := some x.id })

/-- BACKOFF_EXPIRY: the frame is tried again. -/
def backoffExpiry (q : Nat) (s : State) : State :=
  match (s.mac q).backoff with
  | none => s
  | some id =>
    let s1 := s.updMac q (fun m => { m with backoff := none })
    match findFrame s1 id with
    | some f => if (s1.mac q).link && (s1.mac q).tx.isNone then
        (if staleAt s1 q f then discardAt q 3 f s1 else beginFrame q f s1) else s1
    | none => s1

/-! PAUSE and PFC (R379, R380). -/

def quantaEdges (speed n : Nat) : Nat := bitEdges speed (512 * n)

def pauseRx (q n : Nat) (s : State) : State :=
  let m := s.mac q
  if !bit (macCfg s q) 22 || m.half then macCount s q 10 1
  else (macCount s q 8 1).updMac q (fun y =>
    { y with pause := if n = 0 then none else some (s.tb.edge + quantaEdges m.speed n) })

def pfcRx (q : Nat) (vec : Nat) (times : List Nat) (s : State) : State :=
  let m := s.mac q
  let on := (List.range 8).filter (fun i => vec / 2 ^ i % 2 == 1 && bit (macCfg s q) i)
  if !bit (macCfg s q) 21 || m.half || on.isEmpty then macCount s q 10 1
  else (macCount s q 9 1).updMac q (fun y =>
    { y with
      pfc := on.foldl (fun t i =>
        Tbl.set 0 t i (if times.getD i 0 = 0 then 0 else s.tb.edge + quantaEdges m.speed (times.getD i 0))) y.pfc })

/-- PAUSE_EXPIRY: time passes to the first end of a pause at the port. -/
def pauseExpiry (q : Nat) (s : State) : State :=
  let m := s.mac q
  let ends := (match m.pause with | some e => [e] | none => []) ++ m.pfc.map Prod.snd
  match ends with
  | [] => s
  | e :: r =>
    let s1 := s.runTo (r.foldl min e)
    s1.updMac q (fun y => { y with
      pause := (match y.pause with | some x => if x ≤ s1.tb.edge then none else some x | none => none),
      pfc := y.pfc.filter (fun x => x.2 > s1.tb.edge) })

/-! Link loss and hold (R382 to R385). -/

/-- The frames in the MAC's FIFO at a loss: the one being sent or backing off, and a suspended one. -/
def cutFrames (q : Nat) (s : State) : State :=
  let m := s.mac q
  let s1 := s.updMac q (fun y => { y with tx := none, susp := none, backoff := none, tries := 0 })
  ([m.tx.map (·.id), m.backoff, m.susp.map (·.id)].filterMap (fun x => x)).foldl (fun a i =>
    match findFrame a i with
    | some f => discardAt q 1 f a
    | none => a) s1

def holdEnd (q : Nat) (s : State) : State := discardWaiting q 2 (s.updMac q (fun m => { m with downAt := none }))

def linkLoss (q : Nat) (receiving : Bool) (s : State) : State :=
  if !(s.mac q).link then s
  else
    let s1 := cutFrames q s
    let s2 := (if receiving then macCount s1 q 6 1 else s1).updMac q (fun m => { m with
      link := false, speed := 0, half := false, preempt := false, verify := none, pause := none, pfc := [],
      downAt := some s.tb.edge })
    let s3 := macCount s2 q 20 1
    let s4 := devIrq s3 0 (fld (macCfg s q) 15 8) 15 q
    if macHold s q = 0 then holdEnd q s4 else s4

/-- HOLD_EXPIRY: HOLD µs have passed with the link down. -/
def holdExpiry (q : Nat) (s : State) : State :=
  match (s.mac q).downAt with
  | none => s
  | some e => holdEnd q (s.runTo (e + usEdges (macHold s q)))

/-- LINK_UP with the speed and the duplex that negotiation resolved; a fixed speed is the one set. Verification starts
where PREEMPT_EN asks for it (R377). -/
def linkUp (q speed : Nat) (half : Bool) (s : State) : State :=
  let c := macCfg s q
  let fixed := fld c 30 28
  let v := if fixed = 0 then speed else fixed
  let hd := bit c 27 && v ≤ 2 && (fixed != 0 || half)
  if (s.mac q).link || !bit c 31 || !speedOk q v || (s.mac q).optics.lowPower then s
  else
    let s1 := match (s.mac q).downAt with
      | some e => if s.tb.edge > e + usEdges (macHold s q) then holdEnd q s else s
      | none => s
    let pre := bit c 25 && !hd
    let s2 := s1.updMac q (fun m => { m with
      link := true, speed := v, half := hd, downAt := none, verify := if pre then some 1 else none, verifyAt := s.tb.edge })
    if pre then wireOut s2 q .verify else s2

/-- VERIFY_TIMEOUT: 10 ms after a verification attempt; three attempts are made (R377). -/
def verifyTimeout (q : Nat) (s : State) : State :=
  match (s.mac q).verify with
  | none => s
  | some n =>
    let s1 := s.runTo ((s.mac q).verifyAt + msEdges 10)
    if n < 3 then wireOut (s1.updMac q (fun m => { m with verify := some (n + 1), verifyAt := s1.tb.edge })) q .verify
    else macCount (s1.updMac q (fun m => { m with verify := none })) q 21 1

/-- PREEMPTION_VERIFICATION_RX (R377). -/
def verifyRx (q : Nat) (k : VerifyKind) (s : State) : State :=
  let m := s.mac q
  if !m.link || m.half || !bit (macCfg s q) 25 then s
  else
    match k with
    | .verify => wireOut s q .respond
    | .response => if m.verify.isSome then s.updMac q (fun y => { y with verify := none, preempt := true }) else s

/-- A committed change of EN, SPEED, HALF or FEC acts as a link loss (R385); clearing EN empties the port's queues, whatever HOLD holds. -/
def portChanged (q : Nat) (old : BitVec 32) (s : State) : State :=
  if (old ^^^ macCfg s q) &&& 0xFC000000 = 0 then s
  else if bit old 31 && !macEn s q then
    (linkLoss q false (discardWaiting q 6 s)).updMac q (fun m => { m with downAt := none })
  else linkLoss q false s

/-! Classification (R367 to R369). -/

/-- Word w of classification entry i in a bank. -/
def clsWord (bank : List (Nat × BitVec 32)) (i w : Nat) : BitVec 32 := Tbl.get 0 bank (regKey (0xE0140 + 4 * w) i)
def isClsKey (k : Nat) : Bool := 0xE0140 * 65536 ≤ k && k < 0xE0160 * 65536
/-- The bank in force at an edge. -/
def bankAt (s : State) (e : Nat) : List (Nat × BitVec 32) :=
  if e < s.gn.swapAt then s.gn.oldBank else s.regs.filter (fun x => isClsKey x.1)
def epochAt (s : State) (e : Nat) : Nat := if e < s.gn.swapAt then (s.gn.epoch + 65535) % 65536 else s.gn.epoch

def clsMatches (bank : List (Nat × BitVec 32)) (port : Nat) (o : Bytes) (i : Nat) : Bool :=
  let w0 := clsWord bank i 0
  bit w0 31 && bit w0 port
    && (!bit w0 30 || (be o 0 2 == fld (clsWord bank i 2) 15 0 && be o 2 4 == (clsWord bank i 1).toNat))
    && (!bit w0 29 || vlanId o == some (fld (clsWord bank i 3) 27 16))
    && (!bit w0 28 || (etherAt o).1 == fld (clsWord bank i 2) 31 16)
    && (!bit w0 27 || (match udpAt o with
        | some u => be o ((etherAt o).2 + 16) 4 == (clsWord bank i 4).toNat && be o (u + 2) 2 == fld (clsWord bank i 3) 15 0
        | none => false))

/-- The valid entry with the lowest index that matches (R368). -/
def classify (bank : List (Nat × BitVec 32)) (port : Nat) (o : Bytes) : Option Nat :=
  (bank.filterMap (fun e => if e.1 / 65536 = 0xE0140 then some (e.1 % 65536) else none)).find? (clsMatches bank port o)

/-- Outputs a PTP frame may take (R372): of the event messages only a two-step Sync is sent on F0, F1 and S0, and a one-step Sync that is not
sent there is counted. -/
def tcOutputs (port : Nat) (o : Bytes) (outs : List Nat) (s : State) : List Nat × State :=
  match ptpOff o with
  | some i =>
    if tcEn s && ptpEnabled s port && ptpType o i < 4 && !(ptpType o i == 0 && ptpTwoStep o i) then
      let barred := outs.filter (fun q => 10 ≤ q && q < 13 && ptpEnabled s q)
      (outs.filter (fun q => !barred.contains q), if ptpType o i = 0 then barred.foldl (fun a q => gnCount a 4 q 0) s else s)
    else (outs, s)
  | none => (outs, s)

/-- Classify a frame received on an external port into the green; `since` is the time from its event stamp, in edges. -/
def toGreen (port : Nat) (o : Bytes) (since : Nat) (s : State) : State :=
  let at_ := s.tb.edge - since
  let bank := bankAt s at_
  let evt := rxEvent s port - Int.ofNat (since * s.tb.addend / 2 ^ 24)
  let base : GFrame := { id := 0, octets := o, src := .ext port, cls := 0, epoch := epochAt s at_, evt := evt,
                         rx := { t16 := (rxEvent s port).toNat, q := s.quality } }
  let eng : Bool := match ptpOff o with
    | some i => ptpEnabled s port && !bit (s.cfg 0x40 0) 21 && (ptpType o i == 2 || ptpType o i == 3 || ptpType o i == 10)
    | none => false
  if eng then s
  else
    match classify bank port o with
    | none =>
      let s1 := gnCount s 3 port 0
      if bit (s.cfg 0xE0004 0) 0 then enqueue { base with target := some (0, 0), waived := true } [19] s1 else s1
    | some i =>
      let w5 := clsWord bank i 5
      let c0 := if bit w5 26 then (pcpOf o).getD (fld w5 29 27) else fld w5 29 27
      let cls := if (ptpOff o).isSome && tcEn s && ptpEnabled s port && c0 < 4 then 7 else c0
      if bit w5 31 then gnCount s 1 port cls
      else if bit w5 30 then
        enqueue { base with cls := cls, target := some (fld (clsWord bank i 6) 28 24, fld (clsWord bank i 6) 5 0) } [19] s
      else
        let outs := (List.range 13).filter (fun q => bit w5 q && q != port)
        let t := tcOutputs port o outs s
        if t.1.isEmpty then t.2 else enqueue { base with cls := cls } t.1 t.2

/-- FRAME_RX (R375, R378, R379): MAC checks in their order (a preempted frame's bad FCS counts with its fragments), MAC control frames, then what `hook` (ingest) leaves of the
frame goes to classification. -/
def frameRx (hook : Nat → Bytes → State → State × Option Bytes) (port : Nat) (o : Bytes) (fl : RxFlags) (s : State) : State :=
  if !macEn s port then s
  else if fl.fragErr || (fl.smd && !(s.mac port).preempt) then macCount s port 7 1
  else if fl.codeErr then macCount s port 3 1
  else if fl.fcsErr then macCount s port (if fl.smd then 7 else 2) 1
  else if o.length + 4 < 64 then macCount s port 4 1
  else if o.length + 4 > 1522 then macCount s port 5 1
  else
    let s1 := macCount (macCount s port 0 1) port 1 (o.length + 4)
    if be o 12 2 = 0x8808 ∧ be o 0 6 = 0x0180C2000001 then
      (if be o 14 2 = 1 then pauseRx port (be o 16 2) s1
       else if be o 14 2 = 0x0101 then
        pfcRx port (be o 16 2) ((List.range 8).map (fun i => be o (18 + 2 * i) 2)) s1
       else macCount s1 port 10 1)
    else
      let h := hook port o s1
      match h.2 with
      | some o' => checkRows [1] (toGreen port o' fl.since h.1)
      | none => h.1

/-! Rings (R340, R370). -/

/-- TX_FRAME (R340): the frame is read and enters the green for the ring's port and class. -/
def txFrameAct (p r : Nat) (s : State) (f : Flight) : State :=
  let c := ringCfg s p r
  let ws := f.words
  let exp := if c.ts then [(8, 0xFFFFFFFF), (9, 0xFFFFFFFF), (10, 0xFFFFFFFF), (11, 0xFFFFFFFF)] else []
  let len := fld (dw ws 4) 15 0
  if !reservedOk ws (if c.ts then 0 else 0x200) ([(2, 0xFFFFFFFF), (3, 0xFFFF), (4, 0xFFFF)] ++ exp) || len < 14 || len > 1518
      || (c.ts && !nsOk ws 8) then
    finish s p r f.id stBadDesc
  else
    match devRead s p (addr48 ws 2) len with
    | none => finish (s.winFault p) p r f.id stNotPermitted
    | some o =>
      enqueue { id := 0, octets := o, src := .ring (64 * p + r) f.id (!c.ts && bit (dw ws 0) 9), cls := c.cls,
                epoch := s.gn.epoch, expiry := if c.ts then timeAt ws 8 else 0 } [c.port] s

/-- RX_BUF (R340): the buffer is held until a frame fills it. -/
def rxBufAct (p r : Nat) (s : State) (f : Flight) : State :=
  let ws := f.words
  let len := fld (dw ws 4) 15 0
  if !reservedOk ws 0 [(2, 0xFFFFFFFF), (3, 0xFFFF), (4, 0xFFFF)] || len < 1536 then finish s p r f.id stBadDesc
  else if canAccess s p .devWrite (addr48 ws 2) len then s
  else finish (s.winFault p) p r f.id stNotPermitted

/-- Count a frame that found no fetched buffer in the ring's DROPPED (R340). -/
def ringDrop (s : State) (p r : Nat) : State :=
  s.updRing p r (fun y => { y with dropped := inc32 y.dropped, dbDrop := inc32 y.dbDrop, drop := true })

/-- FRAME_DELIVERY (R340, R370). -/
def frameDelivery (s : State) : State :=
  match chooseFrame s 19 with
  | none => s
  | some (f, d) =>
    let s1 := dropOut (setTurn 19 d s) f.id 19
    match f.target, f.src with
    | some (p, r), .ext port =>
      let c := ringCfg s p r
      let rx := c.en && (c.type == 3 || c.type == 4)
      if !(rx && (f.waived || c.port == port)) then
        (if f.waived then s1 else gnCount s1 (if f.epoch ≠ s.gn.epoch then 8 else 9) p 0)
      else
        match (s.ring p r).flights.find? (fun g => !g.fence && g.res.isNone && opcodeOf g.words == 0x12) with
        | none => ringDrop s1 p r
        | some g =>
          let mk := ((f.outs.find? (fun o => o.port == 19)).map (·.mark)).getD false
          let w3 := port + 16 * f.cls + 128 * b2n mk + 256 * b2n f.copy78
          complete (devWrite s1 p (addr48 g.words 2) f.octets) p r g.id
            { status := stDone, res16 := f.octets.length, words := [(3, BitVec.ofNat 32 w3)], stamp := some f.rx }
    | _, _ => s1

/-- FOLLOW_UP_TIMEOUT (R372): the k-th waiting Follow_Up is discarded 1 s after it came. -/
def followUpTimeout (k : Nat) (s : State) : State :=
  let ws := s.gn.frames.flatMap (fun f => (f.outs.filter (fun o => !o.going && followUpWaits s f o.port)).map (fun o => (f, o)))
  match ws[k]? with
  | none => s
  | some (f, o) => dropOut (s.runTo (o.at_ + secEdges 1)) f.id o.port

/-! Optics (R387, R481; the places of the fields are those of SFF-8472: log 25). -/

/-- A binary32 constant of the calibration page as a fraction num / 2^den. -/
def calFloat (b : Nat) : Int × Nat :=
  let e := b / 2 ^ 23 % 256
  let m := b % 2 ^ 23
  let mag : Nat := if e = 0 then m * 2 else (m + 2 ^ 23) * 2 ^ e
  ((if b / 2 ^ 31 = 1 then -(Int.ofNat mag) else Int.ofNat mag), 150)

/-- slope × raw + offset with an 8.8 slope. -/
def calLinear (slope : Nat) (off raw : Int) : Int := Int.ofNat slope * raw / 256 + off

/-- Calibrated values of page A2h: temperature, supply, bias, transmit power, receive power. -/
def ddmValues (a0 a2 : Bytes) : List Nat :=
  let raw := [signed 16 (be a2 96 2), Int.ofNat (be a2 98 2), Int.ofNat (be a2 100 2), Int.ofNat (be a2 102 2),
              Int.ofNat (be a2 104 2)]
  if be a0 92 1 / 16 % 2 = 1 then
    let lin (i slope : Nat) : Int := calLinear (be a2 slope 2) (signed 16 (be a2 (slope + 2) 2)) (raw.getD i 0)
    let r := Int.toNat (raw.getD 4 0)
    let term (off pow : Nat) : Int := (calFloat (be a2 off 4)).1 * Int.ofNat (r ^ pow)
    let rx := (term 56 4 + term 60 3 + term 64 2 + term 68 1 + term 72 0) / (2 ^ 150 : Int)
    [(lin 0 84 % 65536).toNat, (clampI 0 65535 (lin 1 88)).toNat, (clampI 0 65535 (lin 2 76)).toNat,
     (clampI 0 65535 (lin 3 80)).toNat, (clampI 0 65535 rx).toNat]
  else raw.map (fun x => (x % 65536).toNat)

/-- Is there a transceiver cage at the port? -/
def isFibre (q : Nat) : Bool := q < 10
def modAbs (x : Optics) : Bool := bit x.diag2 7

/-- OPTICS_POLL: none is a read that failed (R387). -/
def opticsPoll (q : Nat) (reading : Option Bytes) (s : State) : State :=
  let x := (s.mac q).optics
  if !isFibre q || modAbs x then s
  else
    match reading with
    | none => s.updMac q (fun m => { m with optics := { x with diag2 := x.diag2 ||| 2 } })
    | some a2 =>
      let ddm := be x.pageA0 92 1 / 64 % 2 == 1
      if !ddm then s.updMac q (fun m => { m with optics := { x with diag2 := 0x10 } })
      else
        let v := ddmValues x.pageA0 a2
        let flags := b2n (be a2 110 1 / 2 % 2 == 1) * 64 + b2n (be a2 110 1 / 4 % 2 == 1) * 32
          + b2n (be a2 112 2 != 0) * 8 + b2n (be a2 116 2 != 0) * 4 + 1
        s.updMac q (fun m => { m with
          optics := { x with
            diag0 := BitVec.ofNat 32 (v.getD 0 0 * 65536 + v.getD 1 0), diag1 := BitVec.ofNat 32 (v.getD 2 0 * 65536 + v.getD 3 0),
            diag2 := BitVec.ofNat 32 (v.getD 4 0 * 65536 + flags), pageA2 := octs a2 0 128 } })

/-- TRANSCEIVER_INSERTION (R387, R481). -/
def transceiverIn (q : Nat) (a0 a2 : Bytes) (s : State) : State :=
  if !isFibre q then s
  else
    let level := if be a0 64 1 / 32 % 2 = 1 then 3 else if be a0 64 1 / 2 % 2 = 1 then 2 else 1
    let ddm := be a0 92 1 / 64 % 2 == 1
    s.updMac q (fun m => { m with
      optics := {
        diag2 := if ddm then 0 else 0x10, pageA0 := octs a0 0 128, pageA2 := if ddm then octs a2 0 128 else [],
        lowPower := if q < 8 then decide (level > 1) else decide (level > 2) } })

/-- TRANSCEIVER_REMOVAL: MOD_ABS is set and the link goes down. -/
def transceiverOut (q : Nat) (s : State) : State :=
  if !isFibre q then s else (linkLoss q false s).updMac q (fun m => { m with optics := {} })

end Sys2Proof.Machine
end

