-- ==== Sys2Proof/Machine/Loops.lean ====
section
/-! DEFINITION. Regulation loops and gate-command lanes (chapter 10). -/

namespace Sys2Proof.Machine

/-! Lanes (R272 to R281). -/

structure LaneCfg where
  valid : Bool
  onTime : Bool
  owner : Nat
  pair : Bool
  stretch : Bool
  mask : Nat
  irqId : Nat
  presc : Nat
  irqEn : Nat
  fixed : Nat
  pmin : Nat
  pmax : Nat
  minPulse : Nat
  gap : Nat
  cmp0 : Nat
  cmp1 : Nat
  blkIrq : Bool
  deriving DecidableEq, Repr

def laneOf (w : Nat → BitVec 32) : LaneCfg :=
  { valid := bit (w 0) 31, onTime := fld (w 0) 30 29 == 1, owner := fld (w 0) 28 24, pair := bit (w 0) 23,
    stretch := bit (w 0) 22, mask := fld (w 0) 21 18, irqId := fld (w 0) 15 8, presc := fld (w 0) 7 4 + 1,
    irqEn := fld (w 0) 3 0, fixed := (w 1).toNat, pmin := (w 2).toNat, pmax := (w 3).toNat, minPulse := (w 4).toNat,
    gap := (w 5).toNat, cmp0 := (w 6).toNat, cmp1 := (w 7).toNat, blkIrq := bit (w 8) 0 }
def laneCfg (s : State) (g : Nat) : LaneCfg := laneOf (fun i => s.cfg (0x90040 + 4 * i) g)
def LaneCfg.wmin (x : LaneCfg) : Nat := if x.pair then max x.minPulse x.gap else x.minPulse

def State.lane (s : State) (g : Nat) : LaneRt := Tbl.get {} s.lp.lanes g
def State.updLane (s : State) (g : Nat) (f : LaneRt → LaneRt) : State := { s with lp.lanes := Tbl.upd {} s.lp.lanes g f }
def laneCount (s : State) (g i : Nat) : State := s.updLane g (fun x => { x with cnt := Tbl.upd 0 x.cnt i inc32 })

/-- The lane whose entry governs lane g: the even lane of its pair, or itself (R272, R273). -/
def laneHead (s : State) (g : Nat) : Nat :=
  if g % 2 = 1 ∧ (laneCfg s (g - 1)).valid ∧ (laneCfg s (g - 1)).pair then g - 1 else g
def laneOwner (s : State) (g : Nat) : Nat := (laneCfg s (laneHead s g)).owner

/-- Grid point at or after an instant (R274): units of 0.5 ns. -/
def gridOf (t16 : Nat) : Nat := ceilDiv t16 32768
/-- Lane-clock interval of a grid point: 2.5 ns. -/
def laneClock (g : Nat) : Nat := g / 5

/-- One event of a kind (0 ZERO, 1 PERIOD, 2 CMP0, 3 CMP1): every PRESC-th raises the lane's interrupt (R279). -/
def laneEvent (s : State) (g kind : Nat) : State :=
  let x := laneCfg s g
  if x.irqEn / 2 ^ kind % 2 = 0 then s
  else
    let n := Tbl.get 0 (s.lane g).presc kind + 1
    if n ≥ x.presc then
      devIrq (s.updLane g (fun y => { y with presc := Tbl.set 0 y.presc kind 0 })) x.owner x.irqId 9 g
    else s.updLane g (fun y => { y with presc := Tbl.set 0 y.presc kind n })

/-- Block cut of a lane's present period (R280). -/
def laneCut (s : State) (g : Nat) : State :=
  let x := laneCfg s g
  let s1 := laneCount (s.updLane g (fun y => { y with cut := true })) g 4
  if x.blkIrq then devIrq s1 x.owner x.irqId 9 g else s1

def blockAsserted (s : State) (mask : Nat) : Bool := (List.range 4).any (fun b => mask / 2 ^ b % 2 == 1 && pinAsserted s b)

/-- Widths of the primary and secondary pulse for a period (R275, R277): primary, secondary, and which are omitted or
stretched. -/
structure Pulses where
  wp : Nat
  ws : Nat
  pOff : Bool := false
  sOff : Bool := false
  omitted : Nat := 0
  stretched : Nat := 0
  deriving DecidableEq, Repr

def pulsesOf (x : LaneCfg) (period : Nat) : Pulses :=
  let wp0 := if x.onTime then x.fixed else period - x.fixed
  let short := wp0 < x.wmin
  let wp1 := if short && x.stretch then x.wmin else wp0
  let p : Pulses := { wp := wp1, ws := 0, pOff := short && !x.stretch, omitted := b2n (short && !x.stretch),
                      stretched := b2n (short && x.stretch) }
  if !x.pair then p
  else
    let ws0 := period - wp1 - 2 * x.gap
    if ws0 < x.wmin then
      if x.stretch then
        { p with wp := period - 2 * x.gap - x.wmin, ws := x.wmin, stretched := p.stretched + 1 }
      else { p with ws := ws0, sOff := true, omitted := p.omitted + 1 }
    else { p with ws := ws0 }

/-- At a reload the outputs of a lane, and of the odd lane that its entry governs, follow the pattern and the gates again (R281, R422). -/
def laneFollow (s : State) (g : Nat) : State :=
  ((List.range 24).filter (fun i => laneHead s i == g)).foldl (fun a i =>
    a.updLane i (fun y => { y with wait := false, gate := .follow })) s

/-- Begin a period at a grid point (R275 to R277, R280): the command in force is clamped, and a clamp of a command newly
taken counts. -/
def startPeriod (s : State) (g at_ : Nat) (isNew : Bool) : State :=
  let x := laneCfg s g
  let raw := (s.lane g).raw
  let per := clampI x.pmin x.pmax raw
  let s1 := if isNew && per != raw then laneCount s g 3 else s
  let p := pulsesOf x per.toNat
  let s2 := (List.range p.omitted).foldl (fun a _ => laneCount a g 0) s1
  let s3 := (List.range p.stretched).foldl (fun a _ => laneCount a g 1) s2
  let s4 := (laneFollow s3 g).updLane g (fun y => { y with
    running := true, start := at_, period := per.toNat, wp := p.wp, ws := p.ws, pOff := p.pOff, sOff := p.sOff, cut := false })
  let s5 := laneEvent s4 g 0
  if blockAsserted s5 x.mask then laneCut s5 g else s5

/-- A release reaches a lane (R276, R278): of a computed output, or of a held one. A dark lane starts with a computed output, and a lane
that is to go dark finishes its period first (log 95). -/
def laneRelease (s : State) (g : Nat) (y : Int) (t16 : Nat) (computed : Bool) : State :=
  let at_ := gridOf t16
  let l := s.lane g
  if !(laneCfg s g).valid ∨ l.ending then s
  else if !l.running then
    if computed then startPeriod (s.updLane g (fun z => { z with raw := y, cmds := [] })) g at_ true else s
  else
    let s1 := s.updLane g (fun z => { z with cmds := (y, at_) :: z.cmds.take 1 })
    if laneClock l.start = laneClock at_ then
      laneCount (s1.updLane g (fun z => { z with lateFlag := true })) g 2
    else s1

/-- LANE_RELOAD (R276, R278, R279). -/
def laneReload (g : Nat) (s : State) : State :=
  let l := s.lane g
  if !l.running then s
  else
    let at_ := l.start + l.period
    let s1 := laneEvent (s.waitUntil (at_ * 32768)) g 1
    if l.ending then
      (laneFollow s1 g).updLane g (fun z => { z with running := false, ending := false, cut := false, cmds := [] })
    else
      let same := l.cmds.filter (fun c => laneClock c.2 == laneClock at_)
      let s2 := if same.isEmpty then s1 else laneCount (s1.updLane g (fun z => { z with lateFlag := true })) g 2
      match l.cmds.find? (fun c => laneClock c.2 < laneClock at_) with
      | some c => startPeriod (s2.updLane g (fun z => { z with raw := c.1, cmds := same })) g at_ true
      | none => startPeriod s2 g at_ false

/-- LANE_COMPARE (R279). -/
def laneCompare (g n : Nat) (s : State) : State :=
  let l := s.lane g
  let c := if n = 0 then (laneCfg s g).cmp0 else (laneCfg s g).cmp1
  if l.running && c < l.period then laneEvent (s.waitUntil ((l.start + c) * 32768)) g (2 + n) else s

/-- A block input that has become asserted cuts the running lanes whose mask names it (R280). -/
def blockCut (b : Nat) (was : Bool) (s : State) : State :=
  if was || !pinAsserted s b then s
  else
    ((List.range 24).filter (fun g =>
      (laneCfg s g).valid && (laneCfg s g).mask / 2 ^ b % 2 == 1 && (s.lane g).running)).foldl (fun a g => laneCut a g) s
/-- The level at which block input b, or its absence, is asserted under POL. -/
def setAsserted (b : Nat) (v : Bool) (s : State) : State :=
  { s with lp.pins := Tbl.set true s.lp.pins b (v != bit (s.cfg (0x90200 + 4 * b) 0) 9) }
/-- BLOCK_INPUT_ASSERT: the input, past its glitch filter, is at its asserted level (R280; log 95). -/
def blockAssert (b : Nat) (s : State) : State := blockCut b (pinAsserted s b) (setAsserted b true s)
/-- BLOCK_INPUT_RELEASE. -/
def blockRelease (b : Nat) (s : State) : State := setAsserted b false s

/-- Is the output of lane g on at a grid point (R275, R280 to R282)? -/
def laneOn (s : State) (g at_ : Nat) : Bool :=
  let h := laneHead s g
  let l := s.lane h
  let odd := h != g
  let f := (s.lane g).force
  let evenOn := odd && (s.lane h).force == 2
  let off := at_ - l.start
  let pattern := l.running && !l.cut && !(s.lane g).wait &&
    (if odd then !l.sOff && l.wp + (laneCfg s h).gap ≤ off && off < l.wp + (laneCfg s h).gap + l.ws
     else !l.pOff && off < l.wp)
  let emits := match (s.lane g).gate with
    | .follow => gatesOpen s
    | .dark => false
    | .lit => outputsLive s
  emits && !evenOn && f != 1 && !l.cut && (f == 2 || pattern)

/-- At a change of role at an instant, the lanes in a period that began before it keep the state of their gates until the next reload:
dark on the unit that becomes ACTIVE, lit on the one that hands over (R282, R422, R427). -/
def lanesHold (w : LaneGate) (t16 : Nat) (s : State) : State :=
  ((List.range 24).filter (fun g =>
    (s.lane (laneHead s g)).running && decide ((s.lane (laneHead s g)).start * 32768 < t16))).foldl (fun a g =>
      a.updLane g (fun l => { l with gate := w })) s

/-- The force on a lane once the requests that wait for their edge have taken effect. -/
def forceThen (s : State) (g : Nat) : Nat :=
  s.lp.gos.foldl (fun f x => (x.vals.find? (fun v => v.1 == g)).elim f Prod.snd) (s.lane g).force

/-- GL_FORCE_GO (R281): the staged values on the masked lanes that the writer owns, at the first slot edge at least 2 µs on. -/
def forceGo (p : Nat) (v : BitVec 32) (s : State) : State :=
  let lo := s.cfg 0x90100 p
  let hi := s.cfg 0x90104 p
  let val (g : Nat) : Nat :=
    let c := if g < 16 then fld lo (2 * g + 1) (2 * g) else fld hi (2 * (g - 16) + 1) (2 * (g - 16))
    if c = 3 then 0 else c
  let masked := (List.range 24).filter (fun g => bit v g)
  let mine := masked.filter (fun g => laneOwner s g == p)
  let after (g : Nat) : Nat := if mine.contains g then val g else forceThen s g
  let both := masked.any (fun g => laneHead s (g / 2 * 2 + 1) == g / 2 * 2 && after (g / 2 * 2) == 2 && after (g / 2 * 2 + 1) == 2)
  if both then { s with lp.forceIgn := add32 s.lp.forceIgn masked.length }
  else
    { s with
      lp.forceIgn := add32 s.lp.forceIgn (masked.length - mine.length)
      lp.gos := s.lp.gos ++ [{ part := p, slot := slotCeil (now16 s + us16 2), vals := mine.map (fun g => (g, val g)) }] }

/-- A force takes effect on a lane; a released output, and the odd lane that an on force of the even one held off, follow the pattern
from the next reload (R281). -/
def forceLane (s : State) (g v : Nat) : State :=
  let old := (s.lane g).force
  let s1 := s.updLane g (fun l => { l with force := v, wait := l.wait || (v == 0 && old != 0) })
  if old = 2 ∧ v ≠ 2 ∧ g % 2 = 0 ∧ laneHead s (g + 1) = g then s1.updLane (g + 1) (fun l => { l with wait := true }) else s1

/-- The forces whose slot edge has come take effect together (R281). -/
def forceApply (j : Nat) (s : State) : State :=
  let s1 := (s.lp.gos.filter (fun g => g.slot ≤ j)).foldl (fun a x => x.vals.foldl (fun b y => forceLane b y.1 y.2) a) s
  { s1 with lp.gos := s1.lp.gos.filter (fun g => j < g.slot) }

/-! Loops (R262 to R271). -/

structure LoopCfg where
  valid : Bool
  three : Bool
  aw : Bool
  owner : Nat
  toLane : Bool
  div : Nat
  croft : Nat
  ce : Nat
  spSrc : Nat
  spHearth : Nat
  spLoop : Nat
  spPoint : Nat
  spConst : Int
  missLimit : Nat
  neg : Bool
  lane : Nat
  deadline : Nat
  safe : Int
  umax : Int
  umin : Int
  b : List Int
  a : List Int
  deriving DecidableEq, Repr

def loopOf (w : Nat → BitVec 32) : LoopCfg :=
  { valid := bit (w 0) 31, three := bit (w 0) 30, aw := bit (w 0) 29, owner := fld (w 0) 28 24,
    toLane := fld (w 0) 23 22 == 1, div := fld (w 0) 21 16 + 1, croft := fld (w 0) 15 12, ce := fld (w 0) 10 0,
    spSrc := fld (w 1) 31 30, spHearth := fld (w 1) 25 24, spLoop := fld (w 1) 23 16, spPoint := fld (w 1) 9 0,
    spConst := (w 2).toInt, missLimit := fld (w 3) 31 24, neg := bit (w 3) 16, lane := fld (w 3) 4 0,
    deadline := (w 4).toNat, safe := (w 5).toInt, umax := (w 6).toInt, umin := (w 7).toInt,
    b := [(w 8).toInt, (w 9).toInt, (w 10).toInt, (w 11).toInt], a := [(w 12).toInt, (w 13).toInt, (w 14).toInt] }
def loopWords (s : State) (l : Nat) : List (BitVec 32) := (List.range 16).map (fun i => s.cfg (0x80040 + 4 * i) l)
def loopCfg (s : State) (l : Nat) : LoopCfg := loopOf (fun i => s.cfg (0x80040 + 4 * i) l)
def State.loop (s : State) (l : Nat) : LoopRt := Tbl.get {} s.lp.loops l
def State.updLoop (s : State) (l : Nat) (f : LoopRt → LoopRt) : State := { s with lp.loops := Tbl.upd {} s.lp.loops l f }
/-- Settings for the computation of slot k (R270). -/
def loopCfgAt (s : State) (l k : Nat) : LoopCfg :=
  let ws := wordsAt (s.loop l).olds (loopWords s l) k
  loopOf (fun i => ws.getD i 0)
def loopsValid (s : State) : List Nat := (listedSel s 0x80040).filter (fun l => bit (s.cfg 0x80040 l) 31)

/-- The set-point for slot k (R267). -/
def loopSp (s : State) (x : LoopCfg) (k : Nat) : Smp :=
  match x.spSrc with
  | 0 => { v := x.spConst, q := 0 }
  | 1 =>
    (match (s.loop x.spLoop).rel.find? (fun r => r.1 ≤ slotT16 k) with
     | some r => { v := r.2.1, q := r.2.2 }
     | none => { v := 0, q := 0x81 })
  | _ =>
    let h := 4 * x.croft + x.spHearth
    (match (Tbl.get [] s.pb.sets h).find? (fun z => slotT16 z.bell + us16 (150 * z.n + 5) ≤ slotT16 k) with
     | some z =>
       (match z.outs.find? (fun o => o.1 == x.spPoint) with
        | some o => { v := o.2.1.toInt, q := o.2.2 }
        | none => { v := 0, q := 0x81 })
     | none => { v := 0, q := 0x81 })

def dotI : List Int → List Int → Int
  | a :: as, b :: bs => a * b + dotI as bs
  | _, _ => 0

/-- One computation (R266): error, output, stored output, clamped, saturated. `e` and `u` are the histories, newest first. -/
structure LoopOut where
  e : Int
  y : Int
  u : Int
  clamped : Bool
  sat : Bool
  deriving DecidableEq, Repr

def loopCompute (x : LoopCfg) (e u : List Int) (sp xin : Int) : LoopOut :=
  let n := if x.three then 3 else 2
  let e0 := satN 32 (if x.neg then xin - sp else sp - xin)
  let acc := dotI (x.b.take (n + 1)) (e0 :: e) - dotI (x.a.take n) u
  let r := roundEven acc (2 ^ 29)
  let v := satN 48 r
  let y := clampI x.umin x.umax v
  { e := e0, y := y, u := if x.aw then y else v, clamped := y != v, sat := v != r }

/-- Has the loop a history at slot k (R35): a slot up to k has been computed since its start? -/
def LoopRt.hist (z : LoopRt) (k : Nat) : Bool := z.first.any (fun n => decide (n ≤ k))

/-- Restart of a loop's history where one is due (R269, R270, R278): the lane finishes its period and goes dark. -/
def loopRestart (l : Nat) (s : State) : State :=
  let x := loopCfg s l
  let s1 := s.updLoop l (fun z => { z with first := none, e := [], u := [], again := false })
  if x.toLane then s1.updLane x.lane (fun z => { z with ending := z.running }) else s1

/-- The loops on the channel at a first channel-equivalent restart with it (R34, R270). -/
def restartLoops (c ce : Nat) (s : State) : State :=
  ((loopsValid s).filter (fun l => (loopCfg s l).croft == c && (loopCfg s l).ce == ce)).foldl (fun a l => loopRestart l a) s

/-- The sample of slot k of a loop's channel is placed (R264 to R267). -/
def loopSample (l k : Nat) (v : Int) (q : BitVec 32) (stamp : Nat) (s : State) : State :=
  let x := loopCfgAt s l k
  if !x.valid || k % x.div != 0 || k < (s.loop l).next then s
  else if slotT16 k + ns16 (x.deadline - 10000) < stamp then s
  else if (s.loop l).results.any (fun r => r.slot == k) then s
  else if qInvalid q then s.updLoop l (fun z => { z with why := z.why ++ [(k, 2)] })
  else
    let sp := loopSp s x k
    if qInvalid sp.q then s.updLoop l (fun z => { z with why := z.why ++ [(k, 3)] })
    else
      let s1 := if (s.loop l).again then loopRestart l s else s
      let z := s1.loop l
      let c := chainCfgAt s1 x.croft x.ce k
      let o := loopCompute x z.e z.u sp.v (satN 32 (scaleSample c v).1)
      s1.updLoop l (fun w => { w with
        first := some (w.first.elim k (min k)), e := (o.e :: w.e).take 3, u := (o.u :: w.u).take 3,
        limit := w.limit || o.clamped || o.sat, satCnt := if o.sat then inc32 w.satCnt else w.satCnt,
        results := w.results ++ [{ slot := k, y := o.y, q := if qQuest q || qQuest sp.q then 3 else 0 }] })

/-- A placed sample of (croft, first channel-equivalent) at absolute sample number a reaches the loops on it (R264). -/
def loopsPlaced (c ce per a : Nat) (v : Int) (q : BitVec 32) (stamp : Nat) (s : State) : State :=
  if a % per ≠ 0 then s
  else
    ((loopsValid s).filter (fun l =>
      let x := loopCfgAt s l (a / per)
      x.croft == c && x.ce == ce)).foldl (fun b l => loopSample l (a / per) v q stamp b) s

/-- Mirror record (R271). -/
def loopMirror (s : State) (p l k : Nat) (y : Int) (q : BitVec 32) : State :=
  let lo := s.cfg (0x80400 + 8 * p) 0
  if bit lo 0 then
    let a := lo.toNat / 8192 * 8192 + fld (s.cfg (0x80404 + 8 * p) 0) 15 0 * 2 ^ 32 + 32 * l
    devWrite s p a (wordsBytes ([BitVec.ofNat 32 k, word y, q, BitVec.ofNat 32 k] ++ ({ t16 := slotT16 k, q := edgeQuality s k } : Stamp).words))
  else s

/-- The next computation slot after k, under the settings x for slot k and those that follow a commit (R270). -/
def loopNext (s : State) (l : Nat) (x : LoopCfg) (k : Nat) : Nat :=
  let n := (k / x.div + 1) * x.div
  match (s.loop l).olds.find? (fun o => k < o.1) with
  | some o => if o.1 ≤ n then ceilDiv o.1 (loopCfgAt s l o.1).div * (loopCfgAt s l o.1).div else n
  | none => n

/-- Release for slot k (R265, R269, R271). -/
def loopRelAt (l k : Nat) (s0 : State) : State :=
  let x := loopCfgAt s0 l k
  let missing := !(s0.loop l).results.any (fun r => r.slot == k)
  let s := if (s0.loop l).again && missing then loopRestart l s0 else s0
  let z := s.loop l
  let t := slotT16 k + ns16 x.deadline
  let r := z.results.find? (fun r => r.slot == k)
  let y := match r with | some r => r.y | none => if z.hist k then z.out else x.safe
  let q : BitVec 32 := match r with | some r => r.q | none => if z.hist k then 0x10083 else 0x81
  let why := ((z.why.find? (fun w => w.1 == k)).map Prod.snd).getD 1
  let s1 := s.updLoop l (fun w =>
    let w1 := { w with
      results := w.results.filter (fun r => r.slot != k), why := w.why.filter (fun e => e.1 != k),
      next := loopNext s l x k, olds := w.olds.filter (fun o => k < o.1), out := y, buf := { v := y, q := q }, rel := ((t, y, q) :: w.rel).take 16 }
    match r with
    | some _ => { w1 with run := 0, limited := false }
    | none => { w1 with missed := true, missCnt := inc32 w1.missCnt, reason := why, run := min 255 (w1.run + 1) })
  let s2 := loopMirror s1 x.owner l k y q
  let s3 := decide_ (.loop l k (word y)) s2
  if x.toLane && (r.isSome || z.hist k) then laneRelease s3 x.lane y t r.isSome else s3

/-- LOOP_RELEASE: the loop's next release, at t_k + DEADLINE. -/
def loopRelease (l : Nat) (s : State) : State :=
  let k := (s.loop l).next
  let x := loopCfgAt s l k
  if x.valid then loopRelAt l k (s.waitUntil (slotT16 k + ns16 x.deadline)) else s

/-- MISS_LIMIT (R269). -/
def missLimit (l : Nat) (s : State) : State :=
  let x := loopCfg s l
  if x.valid && x.missLimit != 0 && (s.loop l).run ≥ x.missLimit && !(s.loop l).limited then
    s.updLoop l (fun z => { z with again := true, limited := true })
  else s

end Sys2Proof.Machine
end

