-- ==== Sys2Proof/Machine/Ingest.lean ====
section
/-! DEFINITION. Process-bus ingest (chapter 03): redundancy tags, classification, authentication, field checks, duplicate
discard, sequence checks and placement. -/

namespace Sys2Proof.Machine

/-! Redundancy (R79 to R83). -/

/-- Mode of the pair of a P port: 0 independent, 1 PRP, 2 HSR. -/
def pairMode (s : State) (port : Nat) : Nat := let q := port / 2; fld (s.cfg 0x10004 0) (2 * q + 1) (2 * q)
def srcMac (o : Bytes) : Nat := be o 6 6
def dstMac (o : Bytes) : Nat := be o 0 6

/-- A valid redundancy control trailer: sequence number and LanId (R80). -/
def prpTrailer (o : Bytes) : Option (Nat × Nat) :=
  let n := o.length
  let size := n - 12 - (if (vlanTag o).isSome then 4 else 0)
  let lan := be o (n - 4) 2 / 4096
  if be o (n - 2) 2 = 0x88FB ∧ (lan = 0xA ∨ lan = 0xB) ∧ be o (n - 4) 2 % 4096 = size ∧ n ≥ 18 then
    some (be o (n - 6) 2, lan)
  else none
/-- HSR tag: sequence number and the frame without it (R81). -/
def hsrTag (o : Bytes) : Option (Nat × Bytes) :=
  let e := etherAt o
  if e.1 = 0x892F then some (be o (e.2 + 2) 2, o.take (e.2 - 2) ++ o.drop (e.2 + 4)) else none

/-- Sources of a pair's record still held: used within the last 400 ms (R83). -/
def dupSources (s : State) (q : Nat) : List DupSrc :=
  (Tbl.get [] s.ig.dup q).filter (fun d => s.tb.edge < d.last + msEdges 400)
/-- Is a sequence number later than another: by 1 to 2^15? -/
def seqLater (a b : Nat) : Bool := let d := (a + 65536 - b) % 65536; 1 ≤ d && d ≤ 32768
/-- Does a number lie in the window of 4,096 up to hi? -/
def inWindow (hi n : Nat) : Bool := (hi + 65536 - n) % 65536 < 4096

/-- Which mark of the record: accepted, forwarded, the module's own. DESIGN CHOICE (log 89): R83 gives a number one bit and R82 lets the
other copy of a failed frame be accepted; the three causes are kept apart, so a copy that was forwarded and not accepted makes no
later copy a duplicate, and one that was accepted does. -/
inductive DupMark where
  | seen | fwd | own
  deriving DecidableEq, Repr
def DupSrc.marks (d : DupSrc) : DupMark → List Nat
  | .seen => d.seen
  | .fwd => d.fwd
  | .own => d.own

def dupHas (s : State) (q mac n : Nat) (m : DupMark) : Bool :=
  match (dupSources s q).find? (fun d => d.mac == mac) with
  | some d => inWindow d.hi n && (d.marks m).contains n
  | none => false

/-- Enter a number in the record with a mark (R81, R83): a later number moves the window, one behind the window has no bit in it, and a
full record evicts its least recently used source. -/
def dupEnter (s : State) (q mac n : Nat) (m : DupMark) : State :=
  let l := dupSources s q
  let mark (d : DupSrc) : DupSrc :=
    match m with
    | .seen => { d with seen := n :: d.seen }
    | .fwd => { d with fwd := n :: d.fwd }
    | .own => { d with own := n :: d.own }
  match l.find? (fun d => d.mac == mac) with
  | some d =>
    let hi := if seqLater n d.hi then n else d.hi
    let keepM (k : DupMark) : List Nat := (d.marks k).filter (fun i => inWindow hi i && (m != k || i != n))
    let d0 : DupSrc := { d with hi := hi, last := s.tb.edge, seen := keepM .seen, fwd := keepM .fwd, own := keepM .own }
    let d1 := if inWindow hi n then mark d0 else d0
    { s with ig.dup := Tbl.set [] s.ig.dup q (l.map (fun x => if x.mac = mac then d1 else x)) }
  | none =>
    let d1 := mark { mac := mac, hi := n, last := s.tb.edge }
    if l.length < 8192 then { s with ig.dup := Tbl.set [] s.ig.dup q (l ++ [d1]) }
    else
      let old := l.foldl (fun a d => min a d.last) s.tb.edge
      let victim := ((l.find? (fun d => d.last == old)).map (·.mac)).getD 0
      igOther { s with ig.dup := Tbl.set [] s.ig.dup q (l.filter (fun d => d.mac != victim) ++ [d1]) } (0x10144 + 8 * q)

/-- A use of an entry keeps it (R83). -/
def dupTouch (s : State) (q mac : Nat) : State :=
  { s with ig.dup := Tbl.set [] s.ig.dup q ((dupSources s q).map (fun d =>
      if d.mac = mac then { d with last := s.tb.edge } else d)) }

/-- DUPLICATE_ENTRY_FORGOTTEN (R83). -/
def dupForget (q mac : Nat) (s : State) : State :=
  match (Tbl.get [] s.ig.dup q).find? (fun d => d.mac == mac) with
  | some d =>
    let s1 := s.runTo (d.last + msEdges 400)
    { s1 with ig.dup := Tbl.set [] s1.ig.dup q ((Tbl.get [] s1.ig.dup q).filter (fun x => x.mac != mac)) }
  | none => s

/-! Reading TLVs. -/

/-- Tag, content and rest of the first TLV; none where it runs past the end. -/
def tlv (b : Bytes) : Option (Nat × Bytes × Bytes) :=
  match b with
  | t :: l :: r =>
    let h := if l.toNat < 128 then some (l.toNat, r)
             else if l.toNat = 0x81 then (match r with | a :: r1 => some (a.toNat, r1) | [] => none)
             else if l.toNat = 0x82 then (match r with | a :: b :: r1 => some (a.toNat * 256 + b.toNat, r1) | _ => none)
             else none
    match h with
    | some (n, r1) => if n ≤ r1.length then some (t.toNat, r1.take n, r1.drop n) else none
    | none => none
  | _ => none
/-- All TLVs of a content; none where one runs past the end. -/
def tlvs : Nat → Bytes → Option (List (Nat × Bytes))
  | _, [] => some []
  | 0, _ => none
  | n + 1, b =>
    match tlv b with
    | some (t, c, r) => (tlvs n r).map ((t, c) :: ·)
    | none => none
def tlvAll (b : Bytes) : Option (List (Nat × Bytes)) := tlvs b.length b
def tlvGet (l : List (Nat × Bytes)) (t : Nat) : Option Bytes := (l.find? (fun e => e.1 == t)).map Prod.snd

/-! The handled kinds (R73) and classification (R77). -/

inductive IgKind where
  | sv | goose | surge | arrival
  deriving DecidableEq, Repr

/-- Offset of the UDP header of a datagram to the Griuz port, with or without faults that R103 discards. A later fragment of a datagram
carries no UDP header: nothing tells it for a Griuz frame, and it goes to the green (log 89). -/
def griuzAt (s : State) (o : Bytes) : Option Nat :=
  let e := etherAt o
  if e.1 = 0x0800 ∧ be o e.2 1 / 16 = 4 ∧ be o (e.2 + 9) 1 = 17 ∧ be o (e.2 + 6) 2 % 0x2000 = 0 then
    let u := e.2 + be o e.2 1 % 16 * 4
    if be o (u + 2) 2 = fld (s.cfg 0x10008 0) 15 0 then some u else none
  else none
/-- Checks of R103 on the datagram. -/
def griuzIpOk (o : Bytes) (u : Nat) : Bool :=
  let i := (etherAt o).2
  let len := be o (u + 4) 2
  let sum := be o (u + 6) 2
  let pseudo := octs o (i + 12) 8 ++ [0, 17] ++ beBytes 2 len
  be o i 1 == 0x45 && be o (i + 6) 2 % 0x4000 == 0 && fold16 (onesSum (octs o i 20)) == 0xFFFF &&
  (sum == 0 || fold16 (fold16 (onesSum (pseudo ++ octs o u len))) == 0xFFFF) && len ≥ 8 && u + len ≤ o.length
def griuzPayload (o : Bytes) (u : Nat) : Bytes := octs o (u + 8) (be o (u + 4) 2 - 8)

def igKind (s : State) (o : Bytes) : Option IgKind :=
  let e := etherAt o
  if e.1 = 0x88BA then some .sv
  else if e.1 = 0x88B8 then some .goose
  else
    match griuzAt s o with
    | some u => if be (griuzPayload o u) 3 1 = 2 then some .arrival else some .surge
    | none => none
def kindNat : IgKind → Nat
  | .sv => 0 | .goose => 1 | _ => 2

def portsHold (code port : Nat) : Bool := if code < 8 then code == port else code < 12 && port / 2 == code - 8

/-- The entry under which a frame is classified (R77): one that names the frame's VLAN before one that names none. -/
def classifySte (s : State) (port : Nat) (k : IgKind) (appid ip : Nat) (o : Bytes) : Option Nat :=
  let v := ((vlanId o).getD 0)
  let hit (e : Nat) : Bool :=
    let x := ste s e
    x.kind == kindNat k && x.appid == appid && x.mac == dstMac o && portsHold x.ports port && (x.kind != 2 || x.idCrc == ip)
  let es := (steValid s).filter hit
  match es.find? (fun e => (ste s e).vlanReq && v != 0 && (ste s e).vlan == v) with
  | some e => some e
  | none => es.find? (fun e => !(ste s e).vlanReq)

/-! Authentication (R84 to R86). -/

/-- Reason codes of a failure: statuses of R13 where one is named, otherwise open (log 9). -/
def rsUnknown : Nat := Config.freeNat 0x85 0 % 256
def rsOld : Nat := Config.freeNat 0x85 1 % 256
def rsMac : Nat := Config.freeNat 0x84 0 % 256
def rsExt : Nat := Config.freeNat 0x84 1 % 256

/-- Is the MAC that of the node's key? -/
def macIs (alg : Nat) (key iv octets mac : Bytes) : Bool :=
  if alg = 1 then mac == finBytes (Config.gmacTag key iv octets)
  else if alg = 2 then mac == (hmac key octets).take 10
  else mac == (hmac key octets).take 16

/-- Verify under the entry's key slots: the new state, and the reason of a failure. Each frame verified takes a use (R400). -/
def verifySlots (e : Nat) (alg keyAlg : Nat) (keyId : BitVec 32) (iv octets mac : Bytes) (stamp : Nat) (s : State) :
    State × Option Nat :=
  let x := ste s e
  let z := s.stream e
  let isA := x.aValid && x.aKey == keyId
  let isB := !isA && x.bValid && x.bKey == keyId
  if !isA && !isB then (s, some rsUnknown)
  else
    let cur := isB == z.keyB
    let old := !cur && (match z.prevEnd with | some t => t < stamp | none => false)
    if old then (s, some rsOld)
    else
      let n := if isB then x.bNode else x.aNode
      let st := useStatus s n x.owner (if alg = 1 then 0 else 1)
      if st ≠ stDone then (s, some st)
      else
        let s1 := takeUse s n
        if macIs keyAlg (s.node n).key iv octets mac then
          (if !cur && z.prevEnd.isNone then
            s1.updStream e (fun y => { y with keyB := isB, prevEnd := some (stamp + sec16 x.overlap) })
           else s1, none)
        else (s1, some rsMac)

/-- An authentication failure (R86): counted, and the first of a TAI second writes an AUTH_FAIL record. LAST_REASON keeps the reason of the
last failure that counts CHECK_FAIL (R89, R100, R104; log 89). -/
def authFail (e reason : Nat) (stamp : Stamp) (s : State) : State :=
  let s1 := igCount s e 3
  let sec := stamp.t16 / sec16 1
  let st := (s.stream e).st
  if (s.stream e).failSec = some sec then s1
  else
    record (s1.updStream e (fun y => { y with failSec := some sec })) (ste s e).owner 0x08
      (BitVec.ofNat 32 (0x42 + 65536 * e))
      [(2, BitVec.ofNat 32 (streamNat st + 16 * streamNat st + 256 * reason))] stamp

def checkFail (e reason : Nat) (s : State) : State := igReason (igCount s e 4) e reason

/-- A frame on its way through the steps of R74: port, ingress stamp, and its redundancy identity. -/
structure IgFrame where
  port : Nat
  stamp : Stamp
  /-- Octets with tags removed. -/
  o : Bytes
  seq : Option Nat
  deriving DecidableEq, Repr

def igDup (f : IgFrame) (s : State) : Bool :=
  match f.seq with
  | some n => dupHas s (f.port / 2) (srcMac f.o) n .seen
  | none => false
def igAccept (f : IgFrame) (e : Nat) (s : State) : State :=
  let s1 := igCount s e 1
  match f.seq with
  | some n => dupEnter s1 (f.port / 2) (srcMac f.o) n .seen
  | none => s1
/-- Discard a duplicate (R82, R83). -/
def igDiscardDup (f : IgFrame) (e : Nat) (s : State) : State := igCount (dupTouch s (f.port / 2) (srcMac f.o)) e 2

/-- Steps 3 and 4 of R74: simulation (R87) and authentication; `none` when the frame fails. -/
def igAdmit (f : IgFrame) (e : Nat) (sim : Bool) (auth : State → State × Option Nat) (s : State) : Option State × State :=
  let x := ste s e
  if (sim && !x.simAccept) || (x.simAccept && (s.stream e).sim && !sim) then (none, igCount s e 5)
  else
    let a := auth s
    match a.2 with
    | some r => (none, authFail e r f.stamp a.1)
    | none => (some a.1, a.1)

/-- Authentication of SV and GOOSE frames (R84): `i` is the offset of APPID. -/
def igAuth (f : IgFrame) (e i : Nat) (s : State) : State × Option Nat :=
  let x := ste s e
  if x.auth = 0 then (s, none)
  else
    let b := f.o.drop i
    match Config.authExtension b with
    | some (alg, keyId, mac, n) =>
      if alg ≠ x.auth then (s, some rsExt) else verifySlots e alg alg keyId (Config.authIv b) (b.take n) mac f.stamp.t16 s
    | none => (s, some rsExt)

/-- Simulated operation starts with the first accepted frame that carries the simulation bit (R87). -/
def igSim (e : Nat) (sim : Bool) (s : State) : State :=
  if sim && (ste s e).simAccept then s.updStream e (fun y => { y with sim := true }) else s

/-! Sampled values (R88 to R94). -/

/-- One ASDU read: smpCnt, smpSynch and its channels. -/
structure Asdu where
  cnt : Nat
  cntLen : Nat
  synch : Nat
  chans : List (Int × BitVec 32)
  deriving DecidableEq, Repr

/-- Position of a tag in the order of R89. -/
def asduPos (t : Nat) : Option Nat :=
  match t with
  | 0x80 => some 0 | 0x81 => some 1 | 0x82 => some 2 | 0x83 => some 3 | 0x84 => some 4 | 0x85 => some 5 | 0x86 => some 6
  | 0x87 => some 7 | 0x88 => some 8 | 0x89 => some 9 | _ => none
def risingPos : Option Nat → List Nat → Bool
  | _, [] => true
  | lo, t :: r =>
    match asduPos t with
    | some p => (match lo with | some l => decide (l < p) | none => true) && risingPos (some p) r
    | none => false

def svChans : Bytes → List (Int × BitVec 32)
  | a :: b :: c :: d :: e :: f :: g :: h :: r =>
    (signed 32 (beNat [a, b, c, d]), BitVec.ofNat 32 (beNat [e, f, g, h])) :: svChans r
  | _ => []

/-- Whole-frame checks on one ASDU, in the order of R89's rows; the reason of the first that fails. -/
def asduCheck (x : Ste) (l : List (Nat × Bytes)) : Option Nat :=
  let id := (tlvGet l 0x80).getD []
  let synch := tlvGet l 0x85
  let rate := beBytes 4 (4800 * perSlot x.rate)
  if !risingPos none (l.map Prod.fst) then some 6
  else if id.length ≠ x.idLen ∨ crc32c id ≠ x.idCrc then some 7
  else if (tlvGet l 0x83).map beNat ≠ some x.confRev then some 9
  else if !(match synch with | some b => b.length == 1 && (beNat b ≤ 2 || (5 ≤ beNat b && beNat b ≤ 254)) | none => false) then
    some 0xA
  else if !(match tlvGet l 0x86 with | some b => beNat b == beNat rate | none => true) then some 0xB
  else if !(match tlvGet l 0x88 with | some b => beNat b == 0 | none => true) then some 0xC
  else if (tlvGet l 0x87).map List.length ≠ some (8 * x.nch) then some 0xD
  else none

/-- The ASDUs of a savPdu, or the reason of its failure (R89); `b` is what lies between Reserved 2 and Length. -/
def svParse (x : Ste) (b : Bytes) : Sum Nat (List (List (Nat × Bytes))) :=
  match tlv b with
  | some (0x60, c, _) =>
    (match tlvAll c with
     | none => .inl 4
     | some l =>
       match tlvGet l 0x80 with
       | none => .inl 5
       | some n =>
         if beNat n ≠ x.noAsdu then .inl 5
         else
           match tlvGet l 0xA2 with
           | none => .inl 6
           | some q =>
             match tlvAll q with
             | none => .inl 4
             | some as =>
               if as.length ≠ x.noAsdu ∨ as.any (fun a => a.1 != 0x30) then .inl 6
               else
                 let ls := as.map (fun a => tlvAll a.2)
                 if ls.any (·.isNone) then .inl 4
                 else
                   let ok := ls.map (fun a => a.getD [])
                   match (ok.map (asduCheck x)).find? (·.isSome) with
                   | some (some r) => .inl r
                   | _ => .inr ok)
  | _ => .inl 4

/-- Header checks shared by SV and GOOSE (R89, R100): Length and Reserved 1. -/
def apduLength (o : Bytes) (i : Nat) : Nat := be o (i + 2) 2
def lengthOk (o : Bytes) (i : Nat) : Bool := 8 ≤ apduLength o i && i + apduLength o i ≤ o.length
def reserved1Ok (o : Bytes) (i : Nat) : Bool := be o (i + 4) 2 % 0x8000 == 0
def simBit1 (o : Bytes) (i : Nat) : Bool := be o (i + 4) 2 / 0x8000 == 1
def apdu (o : Bytes) (i : Nat) : Bytes := octs o (i + 8) (apduLength o i - 8)

/-- Absolute sample number of the latest instant with a smpCnt that is no later than a limit (R90). -/
def sampleNumber (rate cnt limit : Nat) : Option Nat :=
  let sec := limit / sec16 1
  let at_ (k : Nat) : Nat := (k * rate + cnt) * sec16 1 / rate
  if at_ sec ≤ limit then some (sec * rate + cnt)
  else if sec = 0 then none else some ((sec - 1) * rate + cnt)

def synchRank (n : Nat) : Nat := if n ≥ 5 then 2 else n

/-- The checks of R89 that fail an ASDU only: the reason of the first that fails. -/
def asduFail (x : Ste) (l : List (Nat × Bytes)) : Option Nat :=
  let cb := (tlvGet l 0x82).getD []
  if cb.length ≠ 2 ∨ beNat cb ≥ 4800 * perSlot x.rate then some 8
  else if (svChans ((tlvGet l 0x87).getD [])).any (fun c => c.2.toNat ≥ 2 ^ 14) then some 0xE
  else none

/-- The loops on an entry's channels restart when a lost stream returns (R34, R99, R270): at its first content in LOST. -/
def returnLoops (e : Nat) (s : State) : State :=
  let x := ste s e
  if (s.stream e).st = .lost ∧ (s.stream e).pend.isEmpty then (steChannels x).foldl (fun a ce => restartLoops x.croft ce a) s else s

/-- The samples of an accepted ASDU enter its streams and the loops that read them. -/
def asduPlaced (f : IgFrame) (e i a : Nat) (vals : List Smp) (s : State) : State :=
  let x := ste s e
  let per := perSlot x.rate
  let s2 := (returnLoops e s).updStream e (fun y => { y with
    last := some a, pend := y.pend ++ [{ a := a, asdu := i, vals := vals }] })
  (List.range vals.length).foldl (fun b j =>
    let m := vals.getD j {}
    loopsPlaced x.croft (x.base + (i * x.nch + j) * per) per a m.v m.q f.stamp.t16 b) s2

/-- Sample number of an ASDU that passed the checks, or the counter of what keeps it out: 6 out of order, 7 late, 8 stale (R86, R90). -/
def asduFate (f : IgFrame) (e : Nat) (l : List (Nat × Bytes)) (s : State) : Nat ⊕ Nat :=
  let x := ste s e
  let per := perSlot x.rate
  let rate := 4800 * per
  match sampleNumber rate (beNat ((tlvGet l 0x82).getD [])) (f.stamp.t16 + us16 10) with
  | none => .inl 8
  | some a =>
    if a * sec16 1 / rate + ms16 500 < f.stamp.t16 then .inl 8
    else if (match (s.stream e).last with | some b => decide (a ≤ b) | none => false) then .inl 6
    else if cutoff s x.croft (a / per) ≤ f.stamp.t16 then .inl 7
    else .inr a

/-- The channels of an ASDU with the quality that its smpSynch and the simulation bit give (R87, R92, R95). -/
def asduVals (uns sim : Bool) (l : List (Nat × Bytes)) : List Smp :=
  (svChans ((tlvGet l 0x87).getD [])).map (fun c =>
    ({ v := c.1, q := (if uns then setValidity c.2 3 ||| qInaccurate ||| qUnsync else c.2) ||| (if sim then qSim else 0) } : Smp))

/-- Place one ASDU that passed the checks (R90 to R95): the new state, and whether it was placed. -/
def placeAsdu (f : IgFrame) (e : Nat) (sim : Bool) (i : Nat) (l : List (Nat × Bytes)) (s : State) : State × Bool :=
  (asduFate f e l s).elim (fun k => (igCount s e k, false)) (fun a =>
    let x := ste s e
    let uns : Bool := decide (synchRank (beNat ((tlvGet l 0x85).getD [])) < x.syncReq)
    let s1 := if uns then igCount s e 12 else s
    if uns && x.syncMiss then (s1, false) else (asduPlaced f e i a (asduVals uns sim l) s1, true))

/-- The good ones of the ASDUs, by number, placed in order; says whether one was. -/
def placeAsdus (f : IgFrame) (e : Nat) (sim : Bool) (as : List (List (Nat × Bytes))) : List Nat → State → State × Bool
  | [], s => (s, false)
  | j :: js, s =>
    let y := placeAsdu f e sim j (as.getD j []) s
    let z := placeAsdus f e sim as js y.1
    (z.1, y.2 || z.2)

/-- From the checks of single ASDUs on (R74 steps 5 to 7, R89): a frame with a bad ASDU counts once in CHECK_FAIL. -/
def svAsdus (f : IgFrame) (e : Nat) (sim : Bool) (as : List (List (Nat × Bytes))) (s : State) : State :=
  let x := ste s e
  let ok := (List.range as.length).filter (fun j => (asduFail x (as.getD j [])).isNone)
  let s2 := match (as.filterMap (asduFail x)).getLast? with
    | some r => checkFail e r s
    | none => s
  if ok.isEmpty then s2
  else if igDup f s2 then igDiscardDup f e s2
  else
    let z := placeAsdus f e sim as ok s2
    if z.2 then igSim e sim (igAccept f e z.1) else z.1

/-- An SV frame under entry e, steps 3 to 8 of R74. A frame of which single ASDUs fail a check counts CHECK_FAIL once, with the reason of
the last of them, and is discarded whole where none is left. DESIGN CHOICE (log 89): a frame is accepted when at least one of its
ASDUs is placed. -/
def svIn (f : IgFrame) (e i : Nat) (s : State) : State :=
  let x := ste s e
  let sim := simBit1 f.o i
  let r := igAdmit f e sim (igAuth f e i) s
  match r.1 with
  | none => r.2
  | some s1 =>
    if !(0x4000 ≤ be f.o i 2 && be f.o i 2 ≤ 0x7FFF) then checkFail e 1 s1
    else if !lengthOk f.o i then checkFail e 2 s1
    else if !reserved1Ok f.o i then checkFail e 3 s1
    else
      match svParse x (apdu f.o i) with
      | .inl k => checkFail e k s1
      | .inr as => svAsdus f e sim as s1

/-! GOOSE (R100 to R102). -/

/-- Type of a data-set member: 0 to 6 as in R246; none for another type. -/
def memberType (m : Nat × Bytes) : Option Nat :=
  match m.1 with
  | 0x83 => if m.2.length = 1 then some 0 else none
  | 0x84 =>
    if m.2.length = 2 ∧ be m.2 0 1 = 6 then some 1 else if m.2.length = 3 ∧ be m.2 0 1 = 3 then some 5 else none
  | 0x85 => if 1 ≤ m.2.length ∧ m.2.length ≤ 4 then some 2 else none
  | 0x86 => if 1 ≤ m.2.length ∧ m.2.length ≤ 5 then some 3 else none
  | 0x87 => if m.2.length = 5 ∧ be m.2 0 1 = 8 then some 4 else none
  | 0x91 => if m.2.length = 8 then some 6 else none
  | _ => none
/-- Point value of a value member (log 21). -/
def memberValue (t : Nat) (b : Bytes) : BitVec 32 :=
  match t with
  | 0 => if beNat b = 0 then 0 else 1
  | 1 => BitVec.ofNat 32 (be b 1 1 / 64)
  | 2 => BitVec.ofInt 32 (signed (8 * b.length) (beNat b))
  | 3 => BitVec.ofNat 32 (beNat b)
  | _ => BitVec.ofNat 32 (be b 1 4)
/-- Quality word of a quality member: string bit n is bit n. -/
def memberQuality (b : Bytes) : BitVec 32 :=
  BitVec.ofNat 32 (((List.range 13).map (fun n => (be b 1 2 / 2 ^ (15 - n)) % 2 * 2 ^ n)).foldl (· + ·) 0)
/-- Values and qualities of the value members in order (R102). -/
def memberPoints : List (Nat × Nat × Bytes) → List (BitVec 32 × BitVec 32)
  | [] => []
  | (t, _, b) :: r =>
    if t = 5 ∨ t = 6 then memberPoints r
    else
      let q := ((r.takeWhile (fun m => m.2.1 == 5 || m.2.1 == 6)).find? (fun m => m.2.1 == 5)).map (fun m => memberQuality m.2.2)
      (memberValue t b, q.getD 0) :: memberPoints r

/-- What a GOOSE frame says. -/
structure GoosePdu where
  stNum : Nat
  sqNum : Nat
  tal : Nat
  t : Bytes
  types : List Nat
  pts : List (BitVec 32 × BitVec 32)
  ref : Bytes
  deriving DecidableEq, Repr

def uintOk (b : Bytes) : Bool := 1 ≤ b.length && b.length ≤ 5 && beNat b < 2 ^ 32

/-- Field checks of R100 from the goosePdu on; the layout of the stream when it has one. -/
def gooseParse (x : Ste) (layout : Option (List Nat)) (b : Bytes) : Sum Nat GoosePdu :=
  match tlv b with
  | some (0x61, c, _) =>
    (match tlvAll c with
     | none => .inl 0x23
     | some l =>
       let ref := (tlvGet l 0x80).getD []
       let tal := (tlvGet l 0x81).getD []
       let t := (tlvGet l 0x84).getD []
       let st := (tlvGet l 0x85).getD []
       let sq := (tlvGet l 0x86).getD []
       let data := tlvAll ((tlvGet l 0xAB).getD [])
       let ms := data.getD []
       let types := ms.map memberType
       if ref.length ≠ x.idLen ∨ crc32c ref ≠ x.idCrc then .inl 0x24
       else if tal.isEmpty ∨ beNat tal < 1 ∨ beNat tal > 600000 then .inl 0x25
       else if t.length ≠ 8 then .inl 0x26
       else if !uintOk st ∨ !uintOk sq ∨ beNat st = 0 then .inl 0x27
       else if (tlvGet l 0x88).map beNat ≠ some x.confRev then .inl 0x28
       else if (tlvGet l 0x89).map beNat ≠ some 0 then .inl 0x29
       else if (tlvGet l 0x8A).map beNat != some ms.length || (match layout with | some y => y.length != ms.length | none => false) then
         .inl 0x2A
       else if data.isNone ∨ types.any (·.isNone) ∨ ms.isEmpty ∨ types.head? = some (some 5) ∨ types.head? = some (some 6) ∨
           (types.filter (fun y => y != some 5 && y != some 6)).length ≠ x.nch then .inl 0x2B
       else
         let ty := types.map (·.getD 0)
         if (match layout with | some y => y != ty | none => false) then .inl 0x2C
         else
           .inr { stNum := beNat st, sqNum := beNat sq, tal := beNat tal, t := t, types := ty, ref := ref,
                  pts := memberPoints ((ty.zip ms).map (fun m => (m.1, m.1, m.2.2))) })
  | _ => .inl 0x23

/-- Is new later than last: by 1 to 2^31 (R101)? -/
def later32 (new last : Nat) : Bool := let d := (new + 2 ^ 32 - last) % 2 ^ 32; 1 ≤ d && d ≤ 2 ^ 31

/-- An accepted GOOSE frame renews the time allowed to live (R102). -/
def gooseRenew (f : IgFrame) (e : Nat) (g : GoosePdu) (s : State) : State :=
  s.updStream e (fun y => { y with
    stNum := g.stNum, sqNum := g.sqNum, layout := some g.types, goT := g.t,
    expiry := f.stamp.t16 + ms16 (g.tal + (ste s e).margin) })

/-- A GOOSE frame under entry e, steps 3 to 8 of R74. -/
def gooseIn (f : IgFrame) (e i : Nat) (s : State) : State :=
  let x := ste s e
  let pdu := match tlv (apdu f.o i) with | some (_, c, _) => (tlvAll c).getD [] | none => []
  let sim : Bool := simBit1 f.o i || (match tlvGet pdu 0x87 with | some b => beNat b != 0 | none => false)
  let r := igAdmit f e sim (igAuth f e i) s
  match r.1 with
  | none => r.2
  | some s1 =>
    if be f.o i 2 > 0x3FFF then checkFail e 0x21 s1
    else if !lengthOk f.o i || !reserved1Ok f.o i then checkFail e 0x22 s1
    else
      match gooseParse x (s1.stream e).layout (apdu f.o i) with
      | .inl k => checkFail e k s1
      | .inr g =>
        if igDup f s1 then igDiscardDup f e s1
        else
          let z := s1.stream e
          let fresh : Bool := (z.st != .running) && z.pts.isEmpty
          let pts := g.pts.map (fun v => (v.1, v.2 ||| (if sim then qSim else 0)))
          if fresh || later32 g.stNum z.stNum then
            let gap := !fresh && (g.stNum + 2 ^ 32 - z.stNum) % 2 ^ 32 != 1 && !(z.stNum == 0xFFFFFFFF && g.stNum == 1)
            let s2 := if gap then igCount s1 e 13 else s1
            let p : PointSet := { eff := effSlot s2 x.croft f.stamp.t16,
                                  pts := (List.range pts.length).map (fun j => (x.base + j, pts.getD j (0, 1))) }
            igSim e sim (igAccept f e ((gooseRenew f e g s2).updStream e (fun y => { y with goose := pts, pts := y.pts ++ [p] })))
          else if g.stNum == z.stNum && later32 g.sqNum z.sqNum then
            let s2 := if pts.map Prod.fst != z.goose.map Prod.fst then igInconsistent s1 e else s1
            igSim e sim (igAccept f e (gooseRenew f e g s2))
          else igCount s1 e 6

/-! Griuz surge frames (R103 to R107). -/

/-- Sample period of a RATE_CODE, ns. -/
def surgePeriod : Nat → Option Nat
  | 1 => some 500 | 2 => some 1000 | 3 => some 2000 | _ => none

/-- Channel blocks of a surge frame: CH, quality, SCALE. -/
def surgeBlocks (b : Bytes) (n : Nat) : List (Nat × Nat × Nat × BitVec 32) :=
  (List.range n).map (fun i =>
    (be b (36 + 8 * i) 1, be b (37 + 8 * i) 1, be b (38 + 8 * i) 2, BitVec.ofNat 32 (be b (40 + 8 * i) 4)))

/-- Time word at an offset of a Griuz frame, big-endian: instant, QUALITY, and NANOSECONDS in range. -/
def griuzTime (b : Bytes) (i : Nat) : Nat × BitVec 16 × Bool :=
  (t16Of (be b i 8) (be b (i + 8) 4) (be b (i + 12) 2), BitVec.ofNat 16 (be b (i + 14) 2), be b (i + 8) 4 < 1000000000)

/-- Checks common to every Griuz frame, bytes 0 to 5 (R104): the reason of the first that fails. -/
def griuzHead (b : Bytes) (types : List Nat) : Option Nat :=
  if be b 0 2 ≠ 0x475A then some 0x41 else if be b 2 1 ≠ 1 then some 0x42
  else if !types.contains (be b 3 1) then some 0x43 else if be b 4 2 ≠ b.length then some 0x44 else none

/-- Checks of R104 in row order. -/
def surgeCheck (x : Ste) (b : Bytes) : Option Nat :=
  let nch := be b 29 1
  let nsamp := be b 32 2
  let auth := be b 28 1 % 2
  let bl := surgeBlocks b nch
  let size := 36 + 8 * nch + 2 * nch * nsamp + 20 * auth
  match griuzHead b [1] with
  | some r => some r
  | none =>
    if !(griuzTime b 12).2.2 then some 0x45
    else if be b 28 1 / 2 % 32 ≠ 0 then some 0x46
    else if nch < 1 ∨ nch > 4 ∨ nch > x.nch then some 0x47
    else if (surgePeriod (be b 30 1)).isNone then some 0x48
    else if be b 31 1 ≠ 1 then some 0x49
    else if nsamp < 1 ∨ size > 1472 ∨ size ≠ b.length then some 0x4A
    else if be b 34 2 ≠ 0 then some 0x46
    else if bl.any (fun c => decide (c.1 > 3) || c.2.1 != 0 || decide (c.2.2.1 ≥ 2 ^ 14)) ∨
        (List.range 4).any (fun k => decide ((bl.filter (fun c => c.1 == k)).length > 1)) then some 0x4B
    else if (auth == 1) != (x.auth != 0) then some 0x4C
    else none

/-- Tag of a Griuz frame: verified over the octets before the trailer (R106). DESIGN CHOICE (log 89): with AUTH = 0b10, which R106 does not
name for Griuz frames, the 16-octet tag is HMAC-SHA-256 truncated to 128 bits as with 0b11. -/
def griuzAuth (f : IgFrame) (e : Nat) (b : Bytes) (s : State) : State × Option Nat :=
  let x := ste s e
  if x.auth = 0 ∨ be b 28 1 % 2 = 0 then (s, none)
  else
    let n := b.length - 20
    let iv := octs b 6 2 ++ [0, 0] ++ octs b 8 4 ++ octs b 20 4
    verifySlots e x.auth (if x.auth = 1 then 1 else 3) (BitVec.ofNat 32 (be b n 4)) iv (b.take n) (octs b (n + 4) 16) f.stamp.t16 s

/-- Sample n of a surge frame: every channel's count, its quality and SCALE. DESIGN CHOICE (log 89): a channel of the entry that the frame
does not carry has a missing sample at the instant. -/
def surgePt (x : Ste) (b : Bytes) (per n : Nat) : SurgePt :=
  let nch := be b 29 1
  let nsamp := be b 32 2
  let fl := be b 28 1
  let add : BitVec 32 := (if fl / 128 = 1 then qSim else 0) ||| (if fl / 64 % 2 = 1 then qTest else 0)
  let bl := surgeBlocks b nch
  let t := griuzTime b 12
  { t16 := t.1 + ns16 (n * per), q := t.2.1, per := per,
    vals := (List.range nch).map (fun c =>
        let k := bl.getD c (0, 0, 0, 0)
        (x.base + k.1, signed 16 (be b (36 + 8 * nch + 2 * (c * nsamp + n)) 2), BitVec.ofNat 32 k.2.2.1 ||| add, k.2.2.2))
      ++ ((List.range x.nch).filter (fun c => bl.all (fun k => k.1 != c))).map (fun c => (x.base + c, 0, toInvalid qMissing, 0)) }

/-- A surge frame under entry e, steps 3 to 8 of R74. -/
def surgeIn (f : IgFrame) (e : Nat) (b : Bytes) (s : State) : State :=
  let x := ste s e
  let sim := be b 28 1 / 128 == 1
  let r := igAdmit f e sim (griuzAuth f e b) s
  match r.1 with
  | none => r.2
  | some s1 =>
    match surgeCheck x b with
    | some k => checkFail e k s1
    | none =>
      if igDup f s1 then igDiscardDup f e s1
      else
        let per := (surgePeriod (be b 30 1)).getD 500
        let t0 := (griuzTime b 12).1
        let sq := be b 8 4
        let z := s1.stream e
        if (match z.last with | some l => decide (t0 < l) | none => false) then igCount s1 e 6
        else
          let jump := match z.seq with | some l => sq != (l + 1) % 2 ^ 32 | none => false
          let s2 := if jump then igCount s1 e 13 else s1
          let pts := (List.range (be b 32 2)).map (surgePt x b per)
          let inTime (p : SurgePt) : Bool := f.stamp.t16 < cutoff s2 x.bell (slotOf p.t16)
          let ok := pts.filter inTime
          let s3 := igCountN s2 e 7 (pts.length - ok.length)
          let s4 := s3.updStream e (fun y => { y with seq := some sq, sper := per, surge := y.surge ++ ok })
          if ok.isEmpty then s4
          else
            igSim e sim (igAccept f e (s4.updStream e (fun y => { y with
              last := some (t0 + ns16 (be b 32 2 * per)) })))

/-! The hook of frame reception. -/

/-- UNMATCHED frames (R78). -/
def igUnmatched (f : IgFrame) (s : State) : State :=
  let s1 := igOther s (0x10100 + 4 * f.port)
  if bit (s.cfg 0x10000 0) 1 then
    enqueue { id := 0, octets := f.o, src := .ext f.port, cls := 0, rx := f.stamp, evt := Int.ofNat f.stamp.t16,
              target := some (0, 0), waived := true, copy78 := true } [19] s1
  else s1

/-- Identity of a GOOSE or SV frame that a neighbour may have sent (R416). -/
def frameIds (o : Bytes) : List FrameId :=
  let e := etherAt o
  let pdu := match tlv (apdu o e.2) with | some (_, c, _) => (tlvAll c).getD [] | none => []
  if e.1 = 0x88B8 then
    [.goose (be o e.2 2) ((tlvGet pdu 0x80).getD []) (beNat ((tlvGet pdu 0x85).getD [])) (beNat ((tlvGet pdu 0x86).getD []))]
  else if e.1 = 0x88BA then
    match (tlvAll ((tlvGet pdu 0xA2).getD [])).getD [] with
    | (_, a) :: _ => [.sv (be o e.2 2) (beNat ((tlvGet ((tlvAll a).getD []) 0x82).getD []))]
    | [] => []
  else []

/-- A handled frame (R73, R74); `arrival` is what fault location does with an arrival message. -/
def igHandled (arrival : IgFrame → Bytes → State → State) (f : IgFrame) (k : IgKind) (wrongLan : Bool) (s : State) : State :=
  let i := (etherAt f.o).2
  let go (e : Option Nat) (act : Nat → State → State) : State :=
    match e with
    | none => igUnmatched f s
    | some e => act e (let a := igCount s e 0; if wrongLan then igCount a e 14 else a)
  if !bit (s.cfg 0x10000 0) 0 then igUnmatched f s
  else
    match k with
    | .sv => go (classifySte s f.port .sv (be f.o i 2) 0 f.o) (fun e a => svIn f e i a)
    | .goose => go (classifySte s f.port .goose (be f.o i 2) 0 f.o) (fun e a => gooseIn f e i a)
    | _ =>
      let u := (griuzAt s f.o).getD 0
      let b := griuzPayload f.o u
      if !griuzIpOk f.o u then s
      else if k = .arrival then arrival f b s
      else go (classifySte s f.port .surge (be b 6 2) (be f.o (i + 12) 4) f.o) (fun e a => surgeIn f e b a)

/-- Is an HSR frame consumed here (R81)? -/
def hsrSinks (s : State) (port : Nat) (o : Bytes) : Bool :=
  let i := (etherAt o).2
  let multi := be o 0 1 % 2 == 1
  if multi then
    (match igKind s o with
     | some .sv => ((classifySte s port .sv (be o i 2) 0 o).map (fun e => (ste s e).sink)).getD false
     | some .goose => ((classifySte s port .goose (be o i 2) 0 o).map (fun e => (ste s e).sink)).getD false
     | some .surge =>
       let b := griuzPayload o ((griuzAt s o).getD 0)
       ((classifySte s port .surge (be b 6 2) (be o (i + 12) 4) o).map (fun e => (ste s e).sink)).getD false
     | _ => false)
  else
    (listedSel s 0xE0140).any (fun n =>
      bit (s.cfg 0xE0140 n) 30 && bit (s.cfg 0xE0154 n) 30 &&
        clsMatches (bankAt s s.tb.edge) port o n)

/-- What ingest does with a frame received on a port: the state, and what is left of the frame for the green. DESIGN CHOICE (log 89): the
redundancy trailer of a frame that ingest does not handle stays on the frame passed to the green. -/
def igFrameRx (arrival : IgFrame → Bytes → State → State) (since port : Nat) (o : Bytes) (s : State) : State × Option Bytes :=
  if port ≥ 8 then (s, some o)
  else
    let q := port / 2
    let stamp : Stamp := { t16 := (rxEvent s port).toNat, q := s.quality }
    let evt : Int := rxEvent s port - Int.ofNat (since * s.tb.addend / 2 ^ 24)
    let handle (o' : Bytes) (seq : Option Nat) (wrong : Bool) (a : State) : State × Option Bytes :=
      match igKind a o' with
      | some k =>
        let b := (frameIds o').foldl (fun x i => settleFrame i x) a
        (igHandled arrival { port := port, stamp := stamp, o := o', seq := seq } k wrong b, none)
      | none => (a, some o')
    match pairMode s port with
    | 1 =>
      if (etherAt o).1 = 0x88FB then (igOther s (0x10140 + 8 * q), none)
      else
        (match igKind s o with
         | none => (s, some o)
         | some _ =>
           match prpTrailer o with
           | some t => handle (o.take (o.length - 6)) (some t.1) ((t.2 == 0xA) != (port % 2 == 0)) s
           | none => handle o none false s)
    | 2 =>
      (match hsrTag o with
       | none => handle o none false s
       | some (n, o') =>
         let src := srcMac o'
         if dupHas s q src n .own then (dupTouch s q src, none)
         else
           let first := !dupHas s q src n .fwd
           let sink := hsrSinks s port o'
           let s1 := dupEnter s q src n .fwd
           let other := port / 2 * 2 + (1 - port % 2)
           let s2 := if first && !sink then
               enqueue { id := 0, octets := o, src := .ext port, cls := 7, rx := stamp, evt := evt } [other] s1
             else s1
           if (igKind s2 o').isNone && !first then (s2, none) else handle o' (some n) false s2)
    | _ => handle o none false s

/-! Commands that follow a stream. -/

/-- KEY_OVERLAP_END (R85): time reaches the end of the overlap; later frames under the previous slot fail KEY_OLD. -/
def overlapEnd (e : Nat) (s : State) : State :=
  match (s.stream e).prevEnd with
  | some t => s.waitUntil t
  | none => s

/-- The latest slot edge, whose bell declared the slots missing. -/
def lastEdge (s : State) : Nat := s.tu.nextSlot - 1

/-- STREAM_LOST (R97). -/
def streamLost (e : Nat) (s : State) : State :=
  let x := ste s e
  if (s.stream e).st = .running ∧ x.kind ≠ 1 ∧ (s.stream e).miss ≥ x.loss then
    let s1 := igCount (streamTo s e .lost (slotStamp s (lastEdge s))) e 11
    s1.updStream e (fun y => { y with vals := [], held := [], miss := 0 })
  else s

/-- GOOSE_TAL_EXPIRY (R102): at the bell edge of the first slot whose cutoff lies after the expiry. DESIGN CHOICE (log 89): a frame accepted
between that cutoff and the bell edge renews the expiry, and the loss does not come. -/
def talExpiry (e : Nat) (s : State) : State :=
  let x := ste s e
  if (s.stream e).st = .running ∧ x.kind = 1 then
    let j := closeEdge s x.croft (effSlot s x.croft (s.stream e).expiry)
    let s1 := s.waitSlot j
    igCount (streamTo s1 e .lost (slotStamp s1 j)) e 11
  else s

end Sys2Proof.Machine
end

