-- ==== Sys2Proof/Machine/Chains.lean ====
section
/-! DEFINITION. The close of a slot (R24, R96 to R99, R102), filter chains (chapter 04), channel and surge triggers and combined
triggers (R135 to R142). -/

namespace Sys2Proof.Machine

/-! The close of a slot. -/

/-- One sampling instant of one ASDU of a RUNNING stream (R96): runtime, values, samples held. -/
def fillInstant (x : Ste) (rt : StreamRt) (i a : Nat) : StreamRt × List Smp × Nat :=
  match rt.pend.find? (fun p => p.a == a && p.asdu == i) with
  | some p => ({ rt with vals := Tbl.set [] rt.vals i p.vals, held := Tbl.set 0 rt.held i 0 }, p.vals, 0)
  | none =>
    let vs := Tbl.get [] rt.vals i
    let n := Tbl.get 0 rt.held i
    if x.missInvalid || n ≥ perSlot x.rate || vs.isEmpty then
      (rt, List.replicate x.nch { v := 0, q := toInvalid qMissing }, 0)
    else
      ({ rt with held := Tbl.set 0 rt.held i (n + 1) },
       vs.map (fun m => { m with q := worsen m.q ||| qOldData ||| qHeld }), x.nch)

/-- The instants of slot k for ASDU i. -/
def fillSlot (x : Ste) (i : Nat) : List Nat → StreamRt → StreamRt × List (List Smp) × Nat
  | [], rt => (rt, [], 0)
  | a :: as, rt =>
    let y := fillInstant x rt i a
    let z := fillSlot x i as y.1
    (z.1, y.2.1 :: z.2.1, y.2.2 + z.2.2)

/-- Content of slot k: for each channel its first channel-equivalent and its samples in order of instant. -/
def svSlot (x : Ste) (rt : StreamRt) (running : Bool) (k : Nat) : StreamRt × List (Nat × List Smp) × Nat :=
  let per := perSlot x.rate
  let as := (List.range per).map (fun n => k * per + n)
  if !running then (rt, (steChannels x).map (fun ce => (ce, List.replicate per { v := 0, q := toInvalid qLost })), 0)
  else
    (List.range x.noAsdu).foldl (fun (acc : StreamRt × List (Nat × List Smp) × Nat) i =>
      let y := fillSlot x i as acc.1
      let chans := (List.range x.nch).map (fun j =>
        (x.base + (i * x.nch + j) * per, y.2.1.map (fun l => l.getD j {})))
      (y.1, acc.2.1 ++ chans, acc.2.2 + y.2.2)) (rt, [], 0)

/-- Grid of surge samples of slot k (R105, R107): the samples placed, and invalid ones where the grid has none. -/
def surgeGrid (missing : Nat → SurgePt) (per stop : Nat) : Nat → Option Nat → List SurgePt → List SurgePt × Option Nat
  | 0, ex, _ => ([], ex)
  | n + 1, ex, l =>
    match l with
    | p :: r =>
      (match ex with
       | some e =>
         if e + ns16 per / 2 < p.t16 then
           (let z := surgeGrid missing per stop n (some (e + ns16 per)) l; (missing e :: z.1, z.2))
         else (let z := surgeGrid missing per stop n (some (p.t16 + ns16 p.per)) r; (p :: z.1, z.2))
       | none => (let z := surgeGrid missing per stop n (some (p.t16 + ns16 p.per)) r; (p :: z.1, z.2)))
    | [] =>
      match ex with
      | some e =>
        if e < stop then (let z := surgeGrid missing per stop n (some (e + ns16 per)) []; (missing e :: z.1, z.2)) else ([], ex)
      | none => ([], none)

/-- Surge content of slot k of a Griuz entry: runtime and samples. -/
def surgeSlot (x : Ste) (rt : StreamRt) (running : Bool) (tq : BitVec 16) (k : Nat) : StreamRt × List SurgePt :=
  let stop := slotT16 (k + 1)
  let mine := rt.surge.filter (fun p => p.t16 < stop)
  let q := if running then toInvalid qMissing else toInvalid qLost
  let miss (t : Nat) : SurgePt :=
    { t16 := t, q := tq, per := rt.sper, vals := (List.range x.nch).map (fun c => (x.base + c, 0, q, 0)) }
  let z := surgeGrid miss rt.sper stop 4096 rt.expect (if running then mine else [])
  ({ rt with surge := rt.surge.filter (fun p => stop ≤ p.t16), expect := z.2 }, z.1)

/-- What the close of a slot gives the slice: channel content, surge samples, entries that returned from LOST, and Griuz entries that
entered RUNNING. -/
structure SlotOut where
  k : Nat
  chans : List (Nat × List Smp) := []
  surge : List SurgePt := []
  returned : List Nat := []
  entered : List Nat := []
  deriving DecidableEq, Repr

/-- Does slot k hold on-time content of the entry? -/
def hasContent (x : Ste) (rt : StreamRt) (k : Nat) : Bool :=
  match x.kind with
  | 0 => rt.pend.any (fun p => p.a / perSlot x.rate == k)
  | 1 => rt.pts.any (fun p => p.eff ≤ k)
  | _ => rt.surge.any (fun p => slotOf p.t16 == k)

def pointKey (c pt : Nat) : Nat := 6144 * c + pt
def State.point (s : State) (c pt : Nat) : BitVec 32 × BitVec 32 := Tbl.get (0, 1) s.ig.points (pointKey c pt)
def setPoint (s : State) (c pt : Nat) (v : BitVec 32 × BitVec 32) : State :=
  { s with ig.points := Tbl.set (0, 1) s.ig.points (pointKey c pt) v }

/-- Apply a GOOSE entry's points for the snapshot of slot k (R98, R102). -/
def closePoints (x : Ste) (rt : StreamRt) (st : StreamSt) (k : Nat) (s : State) : State :=
  let s1 := (rt.pts.filter (fun p => p.eff ≤ k)).foldl (fun a p =>
    p.pts.foldl (fun b v => setPoint b x.croft v.1 v.2) a) s
  let range := (List.range x.nch).map (x.base + ·)
  match st with
  | .waiting => range.foldl (fun a pt => setPoint a x.croft pt (0, toInvalid qLost)) s1
  | .lost => range.foldl (fun a pt => setPoint a x.croft pt ((a.point x.croft pt).1, toInvalid qLost)) s1
  | _ => s1

/-- Prune what slot k has taken. -/
def pruneRt (x : Ste) (rt : StreamRt) (k : Nat) : StreamRt :=
  { rt with pend := rt.pend.filter (fun p => k < p.a / perSlot x.rate), pts := rt.pts.filter (fun p => k < p.eff) }

/-- Close slot k for an entry under its present settings (R96 to R99, R102). DEDUCED (log 90): the state changes, and its record is written,
at the bell edge at which the slot with the content closes (R99, R109); the example's event at the frame's ingress is earlier. -/
def closeEntry (k j e : Nat) (acc : State × SlotOut) : State × SlotOut :=
  let s := acc.1
  let x := ste s e
  let rt := s.stream e
  let has := hasContent x rt k
  let back := has && (rt.st == .waiting || rt.st == .lost)
  let s1 := if back then streamTo s e .running (slotStamp s j) else s
  let run := (s1.stream e).st == .running
  let returned := if back && rt.st == .lost then [e] else []
  let count (a : State) : State :=
    if run && !has && x.kind != 1 then igCount (a.updStream e (fun y => { y with miss := y.miss + 1 })) e 9
    else a.updStream e (fun y => { y with miss := 0 })
  match x.kind with
  | 0 =>
    let z := svSlot x (s1.stream e) run k
    let s2 := igCountN (s1.updStream e (fun _ => pruneRt x z.1 k)) e 10 z.2.2
    (count s2, { acc.2 with chans := acc.2.chans ++ z.2.1, returned := acc.2.returned ++ returned })
  | 1 =>
    let s2 := closePoints x (s1.stream e) (s1.stream e).st k s1
    (s2.updStream e (fun y => pruneRt x y k), acc.2)
  | _ =>
    let z := surgeSlot x (s1.stream e) run (edgeQuality s k) k
    (count (s1.updStream e (fun _ => z.1)), { acc.2 with surge := acc.2.surge ++ z.2, returned := acc.2.returned ++ returned,
                                                            entered := acc.2.entered ++ (if back then [e] else []) })

/-- Close slot k under settings that a commit at a later edge replaced (R98, R129). DESIGN CHOICE (log 90): a slot that a commit finds open
closes under the old settings, with what came in under them; content that frames under the new settings bring for it is dropped. -/
def closeOld (k : Nat) (acc : State × SlotOut) (o : OldStream) : State × SlotOut :=
  let x := steOfList o.words
  let has := hasContent x o.rt k
  let run := o.rt.st == .running || (has && o.rt.st != .idle)
  let put (rt : StreamRt) (s : State) : State :=
    { s with ig.olds := s.ig.olds.map (fun y => if y.entry = o.entry ∧ y.until_ = o.until_ then { y with rt := rt } else y) }
  if !x.valid then acc
  else
    match x.kind with
    | 0 =>
      let z := svSlot x o.rt run k
      (put (pruneRt x z.1 k) acc.1, { acc.2 with chans := acc.2.chans ++ z.2.1 })
    | 1 => (put (pruneRt x o.rt k) (closePoints x o.rt (if run then .running else o.rt.st) k acc.1), acc.2)
    | _ =>
      let z := surgeSlot x o.rt run (edgeQuality acc.1 k) k
      (put { z.1 with st := if run then .running else z.1.st } acc.1,
       { acc.2 with surge := acc.2.surge ++ z.2,
                    entered := acc.2.entered ++ (if run && o.rt.st != .running then [o.entry] else []) })

/-- The settings replaced by commits after slot k, the earliest commit for each entry. -/
def oldsFor (s : State) (c k : Nat) : List OldStream :=
  let l := s.ig.olds.filter (fun o => k < o.until_)
  (l.filter (fun o => !l.any (fun y => y.entry == o.entry && y.until_ < o.until_))).filter (fun o => (steOfList o.words).bell == c)

/-- Points and records that a past change leaves: the old range of points reads as no entry places there (R495). -/
def dropOlds (c k : Nat) (s : State) : State :=
  let gone := s.ig.olds.filter (fun o => o.until_ ≤ k && (steOfList o.words).bell == c)
  let s1 := gone.foldl (fun a o =>
    let x := steOfList o.words
    if x.valid && x.kind == 1 then
      (List.range x.nch).foldl (fun b i => setPoint b x.croft (x.base + i) (0, 1)) a
    else a) s
  { s1 with ig.olds := s1.ig.olds.filter (fun o => !(o.until_ ≤ k && (steOfList o.words).bell == c)) }

/-- Close slot k of croft c at the edge of slot j. -/
def closeSlot (c k j : Nat) (s : State) : State × SlotOut :=
  let s0 := dropOlds c k s
  let olds := oldsFor s0 c k
  let acc := olds.foldl (closeOld k) (s0, { k := k })
  let es := (steValid acc.1).filter (fun e =>
    (ste acc.1 e).bell == c && !(acc.1.ig.olds.any (fun o => o.entry == e && k < o.until_)))
  let r := es.foldl (fun a e => closeEntry k j e a) acc
  ({ r.1 with ig.closed := Tbl.set 0 r.1.ig.closed c k }, r.2)

/-! The response ROM (R117 to R119). -/

/-! Chains (R110 to R124). -/

/-- Twice the group delay in input sample periods (R115). -/
def delay2 (x : ChainCfg) : Nat := if x.scs then decim x - 1 else settleLen x - 1

def dotTaps (f : Nat → Int) : Nat → List Int → Int
  | _, [] => 0
  | i, v :: r => f i * v + dotTaps f (i + 1) r

/-- Stage output of an accumulator (R121), and whether it saturated. -/
def stageOut (acc : Int) : Int × Bool := let r := roundEven acc (2 ^ 23); (satN 40 r, satN 40 r != r)

/-- Take one sample through the half-band stages: new delay lines, saturation, and the output of the last stage when one is
due. `a` is the sample's number at this stage. -/
def runStages : List Nat → List (List Int) → Nat → Int → List (List Int) × Bool × Option Int
  | [], _, _, v => ([], false, some v)
  | r :: rs, ls, a, v =>
    let line := (v :: ls.headD []).take (tapCount r)
    if (a + 1) % 2 = 0 then
      let o := stageOut (dotTaps (halfTap r) 0 line)
      let z := runStages rs ls.tail ((a + 1) / 2 - 1) o.1
      (line :: z.1, o.2 || z.2.1, z.2.2)
    else (line :: (ls.tail ++ List.replicate (rs.length - ls.tail.length) []), false, none)

/-- Take one scaled sample through the chain. -/
def runChain (x : ChainCfg) (ls : List (List Int)) (a : Nat) (v : Int) : List (List Int) × Bool × Option Int :=
  if x.scs then
    let l := decim x
    let line := (v :: ls.headD []).take l
    if (a + 1) % l = 0 then
      let o := stageOut (dotTaps (fun i => (windowTaps (0x14 + x.win) l).getD (l - 1 - i) 0) 0 line)
      ([line], o.2, some o.1)
    else ([line], false, none)
  else runStages (x.resp.take x.nstage) ls a v

/-- Magnitude of R126. -/
def thMag (abs : Bool) (v : Int) : Int := if abs then min (Int.ofNat v.natAbs) 0x7FFFFFFF else v

/-- What an intake produces: scaled samples, outputs and triggers of the slot. -/
structure ChainOut where
  scaled : List (Nat × Smp) := []
  outs : List COut := []
  trigs : List Trig := []
  deriving DecidableEq, Repr

/-- Start a chain's history anew (R130). -/
def chainRestart (z : ChainRt) : ChainRt :=
  { z with hist := z.hist + 1, taken := 0, settled := false, lines := [], span := [], outs := 0, above := false, thSet := false,
           thQ := 0 }

/-- Placement of a trigger (R136, R137): instant and INTERP_NONE. -/
def trigPlace (rise : Bool) (hi lo v0 v1 : Int) (prev : Bool) (t16 num den : Nat) : Nat × Bool :=
  let c (a b : Int) : Int := if b ≤ 0 then 256 else clampI 1 256 ((256 * a + b - 1) / b)
  let q : Int := if !prev then 256 else if rise then c (hi - v0) (v1 - v0) else c (v0 - lo) (v0 - v1)
  (t16 - ceilDiv ((256 - q.toNat) * num) (256 * den), !prev)

/-- Threshold evaluation of one output (R126 to R128, R131): the chain, and the trigger it raises. -/
def thEval (x : ChainCfg) (per ce : Nat) (z : ChainRt) (o : COut) (prev : Option COut) (at_ : Nat) : ChainRt × Option Trig :=
  if !o.settled || qInvalid o.q then (z, none)
  else
    let v := thMag x.abs o.v
    if !z.thSet then ({ z with thSet := true, above := decide (v ≥ x.hi), thQ := o.q }, none)
    else
      let rise := !z.above && decide (v ≥ x.hi)
      let fall := z.above && decide (v < x.lo)
      if rise || fall then
        let ok : Bool := match prev with | some p => p.hist == o.hist && !qInvalid p.q | none => false
        let v0 := match prev with | some p => thMag x.abs p.v | none => 0
        let t := trigPlace rise x.hi x.lo v0 v ok o.t16 (decim x * sec16 1) (4800 * per)
        ({ z with above := rise, thQ := o.q },
         some { t16 := t.1, tq := o.tq, unit := ce, rise := rise, noInterp := t.2, at_ := at_, v := o.v, vq := o.q, vt := o.t16 })
      else (z, none)

/-- Take in one sample of a channel (R113 to R127). -/
def chainSample (x : ChainCfg) (per ce : Nat) (tq : BitVec 16) (bell : Nat) (acc : ChainRt × ChainOut) (as : Nat × Smp) :
    ChainRt × ChainOut :=
  let a := as.1
  let m := as.2
  let z0 := acc.1
  let sc := scaleSample x m.v
  let r := runChain x z0.lines a sc.1
  let sl := settleLen x
  let span := ((m.q, sc.2 || r.2.1) :: z0.span).take sl
  let z := { z0 with lines := r.1, span := span, taken := z0.taken + 1 }
  let scaledSat := satN 32 sc.1 != sc.1
  let scaled : Smp := { v := satN 32 sc.1, q := if sc.2 || scaledSat then worsen m.q ||| qOverflow else m.q }
  let rate := 4800 * per
  match r.2.2, decide ((a + 1) % decim x = 0) with
  | some v40, true =>
    let v := satN 32 v40
    let settled := decide (z.taken ≥ sl)
    let overBudget := v != v40 || span.any Prod.snd
    let q0 := mergeQ (span.map Prod.fst)
    let q1 := if overBudget then worsen q0 ||| qOverflow else q0
    let q2 := if settled then q1 else worsen q1 ||| qOldData
    let o : COut := { v := v, q := q2, t16 := (2 * a - delay2 x) * sec16 1 / (2 * rate), tq := tq, seq := z.outs % 65536,
                      settled := settled, at_ := a * sec16 1 / rate, slot := a / per, bell := bell, hist := z.hist }
    let t := thEval x per ce z o z0.last (a * sec16 1 / rate)
    ({ t.1 with outs := z.outs + 1, last := some o, recent := (o :: z.recent).take 17,
                satCnt := if overBudget then inc32 z.satCnt else z.satCnt },
     { scaled := acc.2.scaled ++ [(a, scaled)], outs := acc.2.outs ++ [o], trigs := acc.2.trigs ++ t.2.toList })
  | _, _ => (z, { acc.2 with scaled := acc.2.scaled ++ [(a, scaled)] })

/-- Intake of a channel's slot (R113), with the restarts that fall at it (R130, R132). -/
def chainIntake (c k j : Nat) (s : State) (ch : Nat × List Smp) : State × Nat × ChainOut :=
  let ce := ch.1
  let x := chainCfgAt s c ce k
  let per := ch.2.length
  let z := s.chain c ce
  let due := z.restart.any (fun r => r ≤ k)
  let z1 := { (if due then chainRestart z else z) with restart := z.restart.filter (fun r => k < r), olds := z.olds.filter (fun o => k < o.1) }
  if !x.en then (s.updChain c ce (fun _ => { z1 with last := none, recent := [] }), ce, {})
  else
    let r := ((List.range per).map (fun n => (k * per + n, ch.2.getD n {}))).foldl
      (chainSample x per ce (edgeQuality s k) j) (z1, {})
    let s1 := s.updChain c ce (fun _ => r.1)
    let s2 := if x.evt then r.2.trigs.foldl (fun b t =>
        record b (ceOwner s c ce) 0x09 (BitVec.ofNat 32 ((if t.rise then 0x51 else 0x52) + ce * 65536 + c * 2 ^ 28))
          [(2, word t.v), (3, t.vq)] { t16 := t.vt, q := t.tq }) s1
      else s1
    (s2, ce, r.2)

/-- CHAIN_SETTLED (R124). -/
def chainSettled (c ce : Nat) (s : State) : State :=
  let x := chainLive s c ce
  if x.en && (s.chain c ce).taken ≥ settleLen x && (placerOf s c ce).isSome then
    s.updChain c ce (fun z => { z with settled := true })
  else s

/-- Does a chain work under the settings of its croft's latest closed slot (R125, R129)? -/
def tapOn (s : State) (c ce : Nat) : Bool :=
  (chainLive s c ce).en && (placerOf s c ce).isSome

/-- The output tap of a chain as a reader sees it (R116, R125). DESIGN CHOICE (log 90): before the first output of an enabled chain it reads
0 with the quality of an output without history (R35): questionable, oldData. -/
def tapOf (s : State) (c ce : Nat) : COut :=
  match tapOn s c ce, (s.chain c ce).last with
  | true, some o => o
  | true, none => { v := 0, q := setValidity qOldData 3 }
  | false, _ => { v := 0, q := 1 }

/-! Surge triggers (R138). -/

def surgeTrigCfg (s : State) (sc : Nat) : Bool × Bool × Int × Int :=
  let w0 := s.cfg 0x30640 sc
  let w1 := s.cfg 0x30644 sc
  (bit w0 31, bit w0 30, signed 16 (fld w1 31 16), signed 16 (fld w1 15 0))

def surgeTrigStep (en abs : Bool) (hi lo : Int) (sc : Nat) (acc : SurgeTrig × List Trig) (p : SurgePt) : SurgeTrig × List Trig :=
  match p.vals.find? (fun v => v.1 == sc) with
  | none => acc
  | some m =>
    let z := acc.1
    if !en then ({}, acc.2)
    else if qInvalid m.2.2.1 then ({ z with prev := none }, acc.2)
    else
      let v := if abs then min (Int.ofNat m.2.1.natAbs) 32767 else m.2.1
      if !z.armed then ({ above := decide (v ≥ hi), armed := true, prev := some v }, acc.2)
      else
        let rise := !z.above && decide (v ≥ hi)
        let fall := z.above && decide (v < lo)
        if rise || fall then
          let t := trigPlace rise hi lo (z.prev.getD 0) v z.prev.isSome p.t16 (ns16 p.per) 1
          ({ z with above := rise, prev := some v },
           acc.2 ++ [{ t16 := t.1, tq := p.q, unit := sc, rise := rise, noInterp := t.2, at_ := p.t16 }])
        else ({ z with prev := some v }, acc.2)

/-- Surge triggers of the samples of a hamlet's closed slot; the units of streams that entered RUNNING are armed anew (R138). -/
def surgeTriggers (hamlet : Nat) (pts : List SurgePt) (fresh : List Nat) (s : State) : State × List Trig :=
  ((List.range 16).map (16 * hamlet + ·)).foldl (fun (acc : State × List Trig) sc =>
    let x := surgeTrigCfg acc.1 sc
    let z0 := if fresh.contains sc then {} else Tbl.get {} acc.1.tg.surge sc
    let r := pts.foldl (surgeTrigStep x.1 x.2.1 x.2.2.1 x.2.2.2 sc) (z0, [])
    ({ acc.1 with tg.surge := Tbl.set {} acc.1.tg.surge sc r.1 }, acc.2 ++ r.2)) (s, [])

/-! Combined triggers (R139 to R142). -/

structure CtCfg where
  valid : Bool
  owner : Nat
  mode : Nat
  k : Nat
  nmem : Nat
  window : Nat
  members : List (Nat × Nat)
  deriving DecidableEq, Repr

def ctSel (c n : Nat) : Nat := 16 * c + n
/-- Members as channel-equivalent and EDGE. -/
def ctOf (w : Nat → BitVec 32) : CtCfg :=
  let n := fld (w 0) 7 0
  { valid := bit (w 0) 31, owner := fld (w 0) 28 24, mode := fld (w 0) 23 22, k := fld (w 0) 15 8, nmem := n,
    window := fld (w 1) 7 0,
    members := (List.range n).map (fun i =>
      let h := if i % 2 = 0 then fld (w (2 + i / 2)) 15 0 else fld (w (2 + i / 2)) 31 16
      (h % 2048, h / 16384)) }
def ctCfg (s : State) (c n : Nat) : CtCfg := ctOf (fun i => s.cfg (0x30540 + 4 * i) (ctSel c n))

def edgeHit (edge : Nat) (rise : Bool) : Bool := if rise then edge % 2 == 1 else edge / 2 == 1
def memberHits (m : Nat × Nat) (t : Trig) : Bool := m.1 == t.unit && edgeHit m.2 t.rise
/-- W in 2^-16 ns times 3, so that it is exact. -/
def withinW (window earlier later : Nat) : Bool := earlier ≤ later && 3 * (later - earlier) ≤ window * 625000 * 65536

/-- One trigger presented to a combined trigger: runtime and, when it fires, the latest instant (R141). -/
def ctTake (x : CtCfg) (z : CtRt) (t : Trig) : CtRt × Option Nat :=
  match x.mode with
  | 0 => (z, if x.members.any (fun m => memberHits m t) then some t.t16 else none)
  | 1 =>
    let hits := (List.range x.nmem).filter (fun i => memberHits (x.members.getD i (0, 0)) t)
    if hits.isEmpty then (z, none)
    else
      let m1 := hits.foldl (fun a i => Tbl.set 0 a i (t.t16 + 1)) z.marks
      let newest := (m1.map Prod.snd).foldl max 0 - 1
      let n := (m1.filter (fun e => withinW x.window (e.2 - 1) newest)).length
      if n ≥ x.k then ({ z with marks := [] }, some newest) else ({ z with marks := m1 }, none)
  | _ =>
    let cur := x.members.getD z.step (0, 0)
    let hit := memberHits cur t && (z.step == 0 || withinW x.window z.prev t.t16)
    if hit then
      (if z.step + 1 ≥ x.nmem then ({ z with step := 0, prev := 0 }, some t.t16)
       else ({ z with step := z.step + 1, prev := t.t16 }, none))
    else if z.step != 0 && memberHits (x.members.getD 0 (0, 0)) t then ({ z with step := 1, prev := t.t16 }, none)
    else (z, none)

def trigLe (a b : Trig) : Bool :=
  a.t16 < b.t16 || (a.t16 == b.t16 && (a.unit < b.unit || (a.unit == b.unit && (a.rise || !b.rise))))

/-- The combined triggers of croft c take the channel triggers of the edge (R140, R142): the firings, with their number as
unit. -/
def combined (c : Nat) (ts : List Trig) (s : State) : State × List Trig :=
  let order := sortBy trigLe ts
  (List.range 16).foldl (fun (acc : State × List Trig) n =>
    let x := ctCfg acc.1 c n
    if !x.valid then acc
    else
      let z0 := Tbl.get {} acc.1.tg.cts (ctSel c n)
      let r := order.foldl (fun (a : CtRt × List Trig) t =>
        let y := ctTake x a.1 t
        match y.2 with
        | some i => ({ y.1 with fired := slotT16 (slotOf i) :: y.1.fired.filter (fun u => t.at_ ≤ u + sec16 3) },
                     a.2 ++ [{ t16 := slotT16 (slotOf i), tq := t.tq, unit := n, rise := true, at_ := t.at_ }])
        | none => (y.1, a.2)) (z0, [])
      ({ acc.1 with tg.cts := Tbl.set {} acc.1.tg.cts (ctSel c n) r.1 }, acc.2 ++ r.2)) (s, [])

end Sys2Proof.Machine
end

