-- ==== Sys2Proof/Machine/Capture.lean ====
section
/-! DEFINITION. Capture units (R143 to R157) and their export as COMTRADE records (R158 to R161). -/

namespace Sys2Proof.Machine

/-! Profiles and records (R144 to R148). -/

def profWords (s : State) (g : Nat) : List (BitVec 32) := (List.range 16).map (fun i => s.cfg (0x30440 + 4 * i) g)
def capOwner (s : State) (g : Nat) : Nat := fld (s.cfg (0x30000 + 4 * g) 0) 4 0
def State.updCap (s : State) (g : Nat) (f : CapUnit → CapUnit) : State := { s with tg.caps := Tbl.upd {} s.tg.caps g f }

def CapProf.segLen (x : CapProf) : Nat := x.pages * 4096 / x.nseg
/-- Record slots of a segment, C (R147). -/
def capSlots (g : Nat) (x : CapProf) : Nat := (x.segLen - 256) / recSize (isSurge g) x.na x.nd
/-- Is any unit ARMED, in POST or in CLOSING (R151)? -/
def anyCapture (s : State) : Bool := s.tg.caps.any (fun e => e.2.st == .armed || e.2.st == .post || e.2.st == .closing)

def segBase (u : CapUnit) : Nat := u.prf.buf + u.seg * u.prf.segLen
def recAddr (g : Nat) (u : CapUnit) (n : Nat) : Nat :=
  segBase u + 256 + n % capSlots g u.prf * recSize (isSurge g) u.prf.na u.prf.nd

/-- Bits packed 16 to a 16-bit word, the first in bit 0. -/
def packBits : Nat → List Bool → Bytes
  | 0, _ => []
  | n + 1, l =>
    leBytes 2 ((List.range 16).foldl (fun a i => a + b2n (l.getD i false) * 2 ^ i) 0) ++ packBits n (l.drop 16)

/-- Bytes of a record (R146). -/
def recBytesOf (g : Nat) (x : CapProf) (idx : Nat) (vals : List (Int × BitVec 32)) (bins : List Bool) : Bytes :=
  let body :=
    if isSurge g then
      leBytes 4 idx ++ (vals.map (fun v => leBytes 2 (v.1 % 65536).toNat)).flatten
        ++ packBits 1 (vals.map (fun v => !qGood v.2))
    else
      leBytes 4 idx ++ leBytes 4 0 ++ (vals.map (fun v => leBytes 4 (word v.1).toNat ++ leBytes 4 v.2.toNat)).flatten
        ++ packBits (ceilDiv x.nd 16) bins
  padTo (recSize (isSurge g) x.na x.nd) body

/-! The life of a capture (R152 to R157). -/

/-- All records of the capture are taken. -/
def capDone (u : CapUnit) : Bool :=
  u.st == .post && (match u.trigRec with | some n => n + u.post ≤ u.taken | none => false)

/-- Binary values for a record sample: those of the slot that holds it (R145). -/
def binsFor (u : CapUnit) (t16 : Nat) : List Bool :=
  match u.bins.find? (fun b => b.1 ≤ slotOf t16) with
  | some b => b.2
  | none => (u.bins.getLast?.map Prod.snd).getD []

/-- Take one record sample (R152): written into the ring of the segment. A missing sample has no SCALE of its own: its channel's last one
stays (R147). -/
def capSample (g : Nat) (t : Stamp) (vals : List (Int × BitVec 32)) (new : List (Option (BitVec 32))) (s : State) : State :=
  let u := s.cap g
  let n := u.taken
  let old := (u.marks.head?.map (·.scales)).getD []
  let changed : Bool := (List.range new.length).any (fun i =>
    match old.getD i none, new.getD i none with
    | some a, some b => a != b
    | _, _ => false)
  let scales := (List.range new.length).map (fun i => (new.getD i none).orElse (fun _ => old.getD i none))
  let isTrig : Bool := u.st == .post && u.trigRec.isNone &&
    (match u.trig with | some x => decide (x.t16 ≤ t.t16) | none => false)
  let s1 := devWrite s (capOwner s g) (recAddr g u n) (recBytesOf g u.prf n vals (binsFor u t.t16))
  s1.updCap g (fun y => { y with
    taken := n + 1, marks := ({ n := n, t := t, scales := scales } :: y.marks).take (capSlots g y.prf),
    scaleAt := if changed then some n else y.scaleAt,
    trigRec := if isTrig then some n else y.trigRec, trigScales := if isTrig then scales.map (·.getD 0) else y.trigScales })

/-- A trigger presented (R152, R154). -/
def capTrigger (g : Nat) (t : Stamp) (flags : BitVec 32) (s : State) : State :=
  s.updCap g (fun y =>
    match y.st with
    | .armed =>
      let m := (y.marks.filter (fun m => t.t16 ≤ m.t.t16)).getLast?
      { y with st := .post, trig := some t, flags := flags, inPost := 0, trigRec := m.map (·.n),
               trigScales := ((m.map (·.scales)).getD []).map (·.getD 0) }
    | .post => { y with inPost := y.inPost + 1 }
    | .closing => { y with inPost := y.inPost + 1 }
    | _ => { y with missed := y.missed + 1 })

/-- Take samples and triggers in order until the capture's last post record (R152). -/
def capRun : List CapItem → Nat → State → State
  | [], g, s => s.updCap g (fun y => { y with todo := [] })
  | it :: rest, g, s =>
    let u := s.cap g
    if capDone u then s.updCap g (fun y => { y with todo := it :: rest })
    else
      match it with
      | .trg t f => capRun rest g (capTrigger g t f s)
      | .smp t v sc =>
        if u.st = .armed ∨ u.st = .post then capRun rest g (capSample g t v sc s) else capRun rest g s

def capFeed (g : Nat) (items : List CapItem) (s : State) : State := capRun ((s.cap g).todo ++ items) g s

/-- Lowest FREE segment (R147). -/
def freeSeg (u : CapUnit) : Option Nat := (List.range u.prf.nseg).find? (fun i => Tbl.get .free u.segs i == .free)

/-- Arm the unit into its lowest FREE segment, or wait for one; `dead` is the dead time before the capture, ns. -/
def capEnter (g dead : Nat) (s : State) : State :=
  s.updCap g (fun y =>
    match freeSeg y with
    | some i => { y with st := .armed, seg := i, segs := Tbl.set .free y.segs i .filling, taken := 0, marks := [], trig := none,
                         trigRec := none, flags := 0, scaleAt := none, trigScales := [], inPost := 0, dead := dead, deadFrom := none }
    | none => { y with st := .waitSeg })

/-- A segment became FREE: a unit that waits for one is ARMED; its dead time ran from the last completion (R154). -/
def capWake (g : Nat) (s : State) : State :=
  let u := s.cap g
  if u.st = .waitSeg ∧ (freeSeg u).isSome then
    capEnter g (match u.deadFrom with | some e => min ((s.tb.edge - e) * 4) 0xFFFFFFFF | none => 0) s
  else s

/-- First record of the capture, its PRE_ACT and POST_ACT. -/
def capSpan (u : CapUnit) : Nat × Nat × Nat :=
  let tr := u.trigRec.getD u.taken
  let pre := min u.pre tr
  (tr - pre, pre, min u.post (u.taken - tr))

def capFlags (g : Nat) (u : CapUnit) (cut : Bool) : BitVec 32 :=
  let sp := capSpan u
  u.flags ||| (if sp.2.1 < u.pre then 1 else 0) ||| (if cut then 2 else 0) ||| (if isSurge g then 4 else 0)
    ||| (match u.scaleAt with | some n => if sp.1 < n then 0x40 else 0 | none => 0)

/-- The capture header (R147). -/
def capHeader (g : Nat) (u : CapUnit) (cut : Bool) : Bytes :=
  let sp := capSpan u
  let first := ((u.marks.find? (fun m => m.n == sp.1)).map (·.t)).getD {}
  let x := u.prf
  let sc := (List.range 16).map (fun i => if isSurge g then (u.trigScales.getD i 0).toNat else 0)
  let h := leBytes 16 (u.trig.getD {}).word.toNat ++ leBytes 16 first.word.toNat ++ leBytes 4 sp.2.1 ++ leBytes 4 sp.2.2
    ++ leBytes 4 (recSize (isSurge g) x.na x.nd) ++ leBytes 4 u.rate ++ leBytes 2 x.na ++ leBytes 2 x.nd
    ++ leBytes 4 (sp.1 % capSlots g x) ++ leBytes 4 (capFlags g u cut).toNat ++ leBytes 4 u.dead ++ leBytes 4 u.missed
    ++ leBytes 4 u.inPost ++ leBytes 4 u.serial ++ leBytes 4 (u.prof.getD 0 0).toNat ++ leBytes 4 (g + u.seg * 256)
    ++ (sc.map (leBytes 4)).flatten ++ List.replicate 104 0
  h ++ leBytes 4 (crc32c h)

/-- Close the capture: record indices from 0 at its first record, the header, a HELD segment and the CAP_RECORD (R146, R147,
R155). -/
def capClose (g : Nat) (cut : Bool) (s : State) : State :=
  let u := s.cap g
  let p := capOwner s g
  let sp := capSpan u
  let s1 := (List.range (sp.2.1 + sp.2.2)).foldl (fun a i => devWrite a p (recAddr g u (sp.1 + i)) (leBytes 4 i)) s
  let s2 := devWrite s1 p (segBase u) (capHeader g u cut)
  let s3 := s2.updCap g (fun y => { y with
    segs := Tbl.set .free y.segs u.seg .held, serial := u.serial + 1, missed := 0, inPost := 0 })
  record s3 p 0x07 (BitVec.ofNat 32 (0x66 + g * 65536))
    [(2, BitVec.ofNat 32 u.seg), (3, BitVec.ofNat 32 u.serial), (4, BitVec.ofNat 32 sp.2.1), (5, BitVec.ofNat 32 sp.2.2),
     (6, capFlags g u cut)] (u.trig.getD {})

/-- Leave service: the arm's descriptor ends with a status. -/
def capLeave (g : Nat) (b : Wb) (s : State) : State :=
  let u := s.cap g
  completeKey (s.updCap g (fun y => { y with st := .idle, todo := [], cut := none, deadFrom := none, bins := [] })) u.ring u.flight b

/-- Free the segment being filled. -/
def capDiscard (g : Nat) (s : State) : State :=
  s.updCap g (fun y => if y.st = .armed ∨ y.st = .post then { y with segs := Tbl.set .free y.segs y.seg .free } else y)

/-- CAPTURE_COMPLETE (R151 to R155): the last post record is in DRAM. The dead time of a unit that re-arms at once averages
92 ns and its value is not stated: free (log 22). -/
def captureComplete (g : Nat) (s : State) : State :=
  let u := s.cap g
  if capDone u then
    let s1 := capClose g false s
    if u.left = some 1 then
      capRun u.todo g (capLeave g { status := stDone, flags := b2n (resetNow s (fun c => c == .capture g)), stamp := u.trig } s1)
    else
      let d := s1.draw
      let s2 := d.2.updCap g (fun y => { y with left := y.left.map (· - 1), deadFrom := some s.tb.edge })
      let s3 := capEnter g (Config.freeNat d.1 g % 2 ^ 32) s2
      capRun u.todo g s3
  else s

/-- End of service under a changed chain (R157). -/
def capCut (g : Nat) (s : State) : State :=
  let s0 := captureComplete g s
  let u := s0.cap g
  match u.st with
  | .idle => s0
  | .post => capLeave g { status := stAborted, stamp := some (stampNow s0) } (capClose g true s0)
  | _ => capLeave g { status := stAborted, stamp := some (stampNow s0) } (capDiscard g s0)

/-- Stop the service as CAP_ABORT does (R156, R157). -/
def capStop (g : Nat) (s : State) : State :=
  if (s.cap g).st = .idle then s
  else capLeave g { status := stAborted, stamp := some (stampNow s) } (capDiscard g s)

/-! Delivery at a bell edge. -/

/-- What a croft's chains delivered at a bell: scaled samples and outputs by channel-equivalent. -/
abbrev Delivered := List (Nat × ChainOut)

def binaryOf (s : State) (c : Nat) (u : CapUnit) : List Bool :=
  ((u.list.drop u.prf.na).take u.prf.nd).map (fun w => (s.point c (fld w 12 0)).1 != 0)

/-- Record samples of a unit in the slot, with their arrival instants. -/
def capSamples (c k : Nat) (u : CapUnit) (d : Delivered) (s : State) : List (Nat × CapItem) :=
  let an := u.list.take u.prf.na
  match an with
  | [] => [(slotT16 k, .smp { t16 := slotT16 k, q := edgeQuality s k } [] [])]
  | _ :: _ =>
    let rate := (placedRate s c (fld (an.headD 0) 12 0)).getD 1
    let get (w : BitVec 32) : List (Nat × Stamp × Int × BitVec 32) :=
      let o := ((d.find? (fun e => e.1 == fld w 12 0)).map Prod.snd).getD {}
      if bit w 30 then o.outs.map (fun x => (x.at_, ⟨x.t16, x.tq⟩, x.v, x.q))
      else o.scaled.map (fun x =>
        (x.1 * sec16 1 / (4800 * rate), ⟨x.1 * sec16 1 / (4800 * rate), edgeQuality s k⟩, x.2.v, x.2.q))
    let cols := an.map get
    (List.range (cols.headD []).length).map (fun i =>
      let h := (cols.headD []).getD i (0, {}, 0, 1)
      (h.1, .smp h.2.1 (cols.map (fun l => (l.getD i (0, {}, 0, 1)).2.2)) []))

/-- Does a channel trigger belong to the profile? -/
def profHits (x : CapProf) (unit : Nat) (rise : Bool) : Bool :=
  x.valid && x.src == unit && (x.kind == 2 || (x.kind == 0 && rise) || (x.kind == 1 && !rise))

/-- Profile that selects triggers: the one in force, or the committed one of an IDLE unit. -/
def capProfNow (s : State) (g : Nat) : CapProf := if capInService (s.cap g) then (s.cap g).prf else profList (profWords s g)

def trigItem (t : Trig) : Nat × CapItem := (t.at_, .trg ⟨t.t16, t.tq⟩ (if t.noInterp then 8 else 0))
def itemLe (a b : Nat × CapItem) : Bool := a.1 ≤ b.1

/-- The capture units of croft c take slot k: its record samples and triggers (R145, R152). -/
def capSlot (c k : Nat) (d : Delivered) (chan comb : List Trig) (s : State) : State :=
  (List.range 8).foldl (fun a i =>
    let g := 8 * c + i
    let a1 := match (a.cap g).cut with
      | some m => if m ≤ k then capCut g a else a
      | none => a
    let x := capProfNow a1 g
    let ts := if x.kind = 3 then comb.filter (fun t => x.valid && t.unit == x.src)
      else (sortBy trigLe chan).filter (fun t => profHits x t.unit t.rise)
    let a2 := if capInService (a1.cap g) then
        a1.updCap g (fun y => { y with bins := ((k, binaryOf a1 c y) :: y.bins).take 4096 })
      else a1
    let sm := if capInService (a2.cap g) then capSamples c k (a2.cap g) d a2 else []
    if ts.isEmpty && sm.isEmpty then a2
    else capFeed g ((sortBy itemLe (ts.map trigItem ++ sm)).map Prod.snd) a2) s

/-- Record samples of a surge unit: the instants at which its first channel has a sample. -/
def surgeSamples (h : Nat) (u : CapUnit) (pts : List SurgePt) : List (Nat × CapItem) :=
  let chs := (u.list.take u.prf.na).map (fun w => 16 * h + fld w 12 0)
  let first := chs.headD 0
  (pts.filter (fun p => p.vals.any (fun v => v.1 == first))).map (fun p =>
    let val (ch : Nat) : Int × BitVec 32 × BitVec 32 :=
      (((pts.filter (fun y => y.t16 == p.t16)).map (·.vals)).flatten.find? (fun v => v.1 == ch)).map (·.2) |>.getD (0, qLost ||| 1, 0)
    let scale (v : Int × BitVec 32 × BitVec 32) : Option (BitVec 32) := if v.2.1 &&& (qMissing ||| qLost) = 0 then some v.2.2 else none
    (p.t16, .smp ⟨p.t16, p.q⟩ (chs.map (fun ch => ((val ch).1, (val ch).2.1))) (chs.map (fun ch => scale (val ch)))))

/-- The surge capture units of hamlet h take the surge samples of a closed slot. -/
def capSurge (h : Nat) (pts : List SurgePt) (ts : List Trig) (s : State) : State :=
  (List.range 4).foldl (fun a i =>
    let g := 128 + 4 * h + i
    let x := capProfNow a g
    let mine := (sortBy trigLe ts).filter (fun t => profHits x (t.unit % 16) t.rise && t.unit / 16 == h)
    let sm := if capInService (a.cap g) then surgeSamples h (a.cap g) pts else []
    if mine.isEmpty && sm.isEmpty then a
    else capFeed g ((sortBy itemLe (mine.map trigItem ++ sm)).map Prod.snd) a) s

/-- A time-trigger firing at the capture of croft c (R153). -/
def capTimeInput (c u at_ : Nat) (s : State) : State :=
  (List.range 8).foldl (fun a i =>
    let g := 8 * c + i
    let x := capProfNow a g
    if x.valid && x.kind == 4 && x.src == u then capTrigger g ⟨at_, a.quality⟩ 0x20 a else a) s

/-- TTU_FIRING (R68, R153). -/
def ttuFiring (u : Nat) (s : State) : State :=
  if (s.ttu u).armed then
    let at_ := (s.ttu u).next
    let target := (s.ttu u).target
    let s1 := s.waitUntil at_
    let s2 := if target ≠ 0 then capTimeInput (target - 0x10) u at_ s1 else s1
    ttuFire u s2
  else s

/-! Descriptors (R150). -/

/-- Unit that UNIT_SEL names; none when a reserved bit is set or the hamlet or unit does not exist. -/
def capSel (ws : List (BitVec 32)) : Option Nat :=
  let w := dw ws 0
  let home := fld w 27 24
  let unit := fld w 18 16
  if (w &&& 0x70F80000) != 0 then none
  else if bit w 31 then (if home < 4 ∧ unit < 4 then some (128 + 4 * home + unit) else none)
  else some (8 * home + unit)

/-- Reserved bits of a capture descriptor. -/
def capResOk (ws : List (BitVec 32)) : Bool :=
  let m : BitVec 32 := 0xFFFF0000
  match opcodeOf ws with
  | 0x61 => reservedOk ws m [(2, 0xFFFFFF), (3, 0xFFFFFF), (4, 0xFFFF)]
  | 0x62 => reservedOk ws (m ||| 0x200) [(2, 0xF)]
  | 0x63 => reservedOk ws m []
  | 0x64 => reservedOk ws m [(2, 0xF)]
  | 0x65 => reservedOk ws (m ||| 0x600) [(2, 0xF), (4, 0xFFFFFFFF), (5, 0xFFFF), (6, 0xFFFF)]
  | _ => false

/-- A profile that R144 allows. -/
def profOk (g : Nat) (x : CapProf) : Bool :=
  x.valid && x.kind < 6 && 1 ≤ x.post && x.pages % x.nseg == 0 && x.buf % 4096 == 0 && x.chl % 4 == 0 &&
  (if isSurge g then x.kind != 3 && x.kind != 4 && x.nd == 0 && 1 ≤ x.na && x.na ≤ 16 && (x.kind == 5 || x.src < 16)
   else x.nd ≤ 1024 && x.na ≤ 256 && (x.kind == 5 || (x.kind ≤ 2 && x.src < 2048) || (x.kind == 3 && x.src < 16)
     || (x.kind == 4 && x.src < 32)))

/-- Rate and twice the delay of a channel-list entry's time words, in parts of an input sample (R145). -/
def entryTime (s : State) (c : Nat) (w : BitVec 32) : Option (Nat × Nat × Nat) :=
  let ce := fld w 12 0
  match placedRate s c ce with
  | none => none
  | some per =>
    let x := chainCfg s c ce
    if !x.en then none
    else if bit w 30 then some (4800 * per, decim x, delay2 x) else some (4800 * per, 1, 0)

/-- The record rate of a channel list, none where an entry is malformed or the time-word rule fails (R145, R151). -/
def listRate (s : State) (g : Nat) (x : CapProf) (l : List (BitVec 32)) : Option Nat :=
  let an := l.take x.na
  let bn := l.drop x.na
  let shape := an.all (fun w => !bit w 31 && (w &&& 0x3FFFE000) == 0)
    && bn.all (fun w => bit w 31 && (w &&& 0x7FFFE000) == 0 && fld w 12 0 < 6144)
  if !shape then none
  else if isSurge g then
    if !(an.all (fun w => !bit w 30 && fld w 12 0 < 16)) then none
    else
      let pers := an.map (fun w =>
        let sc := 16 * capHome g + fld w 12 0
        ((steValid s).find? (fun e => (ste s e).kind == 2 && (ste s e).base ≤ sc && sc < (ste s e).base + (ste s e).nch)).map
          (fun e => (s.stream e).sper))
      match pers.head? with
      | some (some n) => if pers.all (· == some n) then some (1000000000 / n) else none
      | _ => none
  else
    match an.map (entryTime s (capHome g)) with
    | [] => some 4800
    | none :: _ => none
    | some t :: r => if r.all (· == some t) then some (t.1 / t.2.1) else none

/-- Does partition p own every channel, point and surge channel of a list (R151)? -/
def listOwned (s : State) (g p : Nat) (l : List (BitVec 32)) : Bool :=
  l.all (fun w =>
    if isSurge g then scOwner s (16 * capHome g + fld w 12 0) == p
    else if bit w 31 then pointOwner s (capHome g) (fld w 12 0) == p else ceOwner s (capHome g) (fld w 12 0) == p)

def capArmAct (p r : Nat) (s : State) (f : Flight) : State :=
  let ws := f.words
  match capSel ws with
  | none => finish s p r f.id stBadDesc
  | some g =>
    let pw := profWords s g
    let x := profList pw
    let bytes := devRead s (capOwner s g) x.chl (4 * (x.na + x.nd))
    let l := bytesWords (bytes.getD [])
    let rate := if profOk g x && bytes.isSome then listRate s g x l else none
    let pre := if fld (dw ws 2) 23 0 = 0 then x.pre else fld (dw ws 2) 23 0
    let post := if fld (dw ws 3) 23 0 = 0 then x.post else fld (dw ws 3) 23 0
    let count := fld (dw ws 4) 15 0
    if !capResOk ws || rate.isNone then
      finish (if capResOk ws && profOk g x && bytes.isNone then s.winFault (capOwner s g) else s) p r f.id stBadDesc
    else if capOwner s g ≠ p ∨ !listOwned s g p l then finish s p r f.id stNotPermitted
    else if !s.timeValid then finish s p r f.id stTimeNotValid
    else if (s.cap g).st ≠ .idle ∨ capShare s g + recSize (isSurge g) x.na x.nd * rate.getD 0 > 80000000 then
      finish s p r f.id stRefusedFull
    else if pre + post > capSlots g x then finish s p r f.id stExceeds
    else
      capEnter g 0 (s.updCap g (fun y => { y with
        prof := pw, pre := pre, post := post, list := l, rate := rate.getD 0, left := if count = 0 then none else some count,
        ring := 64 * p + r, flight := f.id, todo := [], bins := [], cut := none, deadFrom := none }))

def capAbortAct (p r : Nat) (s : State) (f : Flight) : State :=
  match capSel f.words with
  | none => finish s p r f.id stBadDesc
  | some g =>
    if !capResOk f.words then finish s p r f.id stBadDesc
    else if capOwner s g ≠ p then finish s p r f.id stNotPermitted
    else if (s.cap g).st = .idle then finishIgn s p r f.id
    else finish (capStop g s) p r f.id stDone

/-- The export under way of a segment. -/
def exportOf (s : State) (g seg : Nat) : Option StOp :=
  s.st.ops.find? (fun o => o.kind == .export_ && o.unit % 256 == g && o.seg == seg)

def capAbortExportAct (p r : Nat) (s : State) (f : Flight) : State :=
  match capSel f.words with
  | none => finish s p r f.id stBadDesc
  | some g =>
    if !capResOk f.words then finish s p r f.id stBadDesc
    else if capOwner s g ≠ p then finish s p r f.id stNotPermitted
    else
      match exportOf s g (fld (dw f.words 2) 3 0) with
      | some o => finish (abortOp s o stAborted) p r f.id stDone
      | none => finishIgn s p r f.id

def capForceAct (p r : Nat) (s : State) (f : Flight) : State :=
  match capSel f.words with
  | none => finish s p r f.id stBadDesc
  | some g =>
    if !capResOk f.words then finish s p r f.id stBadDesc
    else if capOwner s g ≠ p then finish s p r f.id stNotPermitted
    else
      let was := (s.cap g).st
      finish (capTrigger g (stampNow s) 0x10 s) p r f.id (if was = .armed then stDone else stNotReady)

def segState (u : CapUnit) (i : Nat) : SegSt := Tbl.get .free u.segs i
/-- Free a HELD segment. -/
def segFree (g i : Nat) (s : State) : State := capWake g (s.updCap g (fun y => { y with segs := Tbl.set .free y.segs i .free }))

def capReleaseAct (p r : Nat) (s : State) (f : Flight) : State :=
  match capSel f.words with
  | none => finish s p r f.id stBadDesc
  | some g =>
    let i := fld (dw f.words 2) 3 0
    if !capResOk f.words then finish s p r f.id stBadDesc
    else if capOwner s g ≠ p then finish s p r f.id stNotPermitted
    else
      match segState (s.cap g) i with
      | .free => finish s p r f.id stDone
      | .filling => finish s p r f.id stNotReady
      | .held => if (exportOf s g i).isSome then finish s p r f.id stNotReady else finish (segFree g i s) p r f.id stDone

/-! COMTRADE (R158 to R160). -/

def crlf : Bytes := [0x0D, 0x0A]
/-- Lines of a text whose every line ends CR LF; none when the last does not. -/
def linesOf : Bytes → Bytes → Option (List Bytes)
  | [], [] => some []
  | [], _ :: _ => none
  | 0x0D :: 0x0A :: r, acc => (linesOf r []).map (acc.reverse :: ·)
  | b :: r, acc => linesOf r (b :: acc)
def fieldsOf : Bytes → Bytes → List Bytes
  | [], acc => [acc.reverse]
  | 0x2C :: r, acc => acc.reverse :: fieldsOf r []
  | b :: r, acc => fieldsOf r (b :: acc)

/-- The template of R159 for the given numbers of analogue and digital channels. -/
def templateOk (t : Bytes) (na nd : Nat) : Bool :=
  t.all (fun b => b.toNat < 0x80) &&
  (match linesOf t [] with
   | some (l1 :: l2 :: rest) =>
     let f := fieldsOf l1 []
     f.length == 3 && f.getD 2 [] == ascii "2013"
       && l2 == decText (na + nd) ++ ascii "," ++ decText na ++ ascii "A," ++ decText nd ++ ascii "D"
       && rest.length == na + nd + 1
   | _ => false)

/-- UTC date and time of an instant, dd/mm/yyyy,hh:mm:ss.ssssss, truncated, with the offset in force at that instant (R52). -/
def comtradeTime (s : State) (t16 : Nat) : Bytes :=
  let l := utcLabel s t16
  let d := monthDay l.1
  decDigits 2 d.2.2 ++ ascii "/" ++ decDigits 2 d.2.1 ++ ascii "/" ++ decDigits 4 d.1 ++ ascii ","
    ++ decDigits 2 l.2.1 ++ ascii ":" ++ decDigits 2 l.2.2.1 ++ ascii ":" ++ decDigits 2 l.2.2.2 ++ ascii "."
    ++ decDigits 6 (t16 % sec16 1 / us16 1)

/-- Hexadecimal digit of a time-quality code. -/
def hexDigit (n : Nat) : Bytes := [BitVec.ofNat 8 (if n < 10 then 48 + n else 55 + n)]

/-- Leap second that falls within a record (R159): 1 an inserted one, 2 a deleted one, past or pending. -/
def leapWithin (s : State) (first last : Nat) : Nat :=
  let hits (leap at_ : Nat) : Bool := first < at_ && (if leap = 1 then at_ - sec16 1 ≤ last else at_ ≤ last)
  match s.tu.utcPast.find? (fun e => e.leap != 0 && hits e.leap e.at_) with
  | some e => e.leap
  | none =>
    let w := s.cfg 0x44 0
    let n := if bit w 18 then 2 else 1
    if bit w 17 && hits n (sec16 (leapTai s)) then n else 0

/-- The lines appended to the .cfg file. -/
def cfgTail (s : State) (rate pre post : Nat) (first trig : Stamp) : Bytes :=
  let last := first.t16 + (pre + post - 1) * sec16 1 / rate
  ascii "1" ++ crlf ++ decText rate ++ ascii "," ++ decText (pre + post) ++ crlf ++ comtradeTime s first.t16 ++ crlf
    ++ comtradeTime s trig.t16 ++ crlf ++ ascii "BINARY32" ++ crlf ++ ascii (if rate = 2000000 then "0.5" else "1") ++ crlf
    ++ ascii "0,0" ++ crlf ++ hexDigit (irigQuality (trig.q.toNat / 256 % 16)) ++ ascii "," ++ decText (leapWithin s first.t16 last)
    ++ crlf

/-- One .dat sample (R160) from record i's bytes. -/
def datSample (surge : Bool) (na nd : Nat) (qch : Bool) (rate i : Nat) (b : Bytes) : Bytes :=
  let ts := if rate = 2000000 then roundUpTie (Int.ofNat (2 * i * 1000000)) rate else roundUpTie (Int.ofNat (i * 1000000)) rate
  let vals : List Int := (List.range na).map (fun j => if surge then signed 16 (le b (4 + 2 * j) 2) else signed 32 (le b (8 + 8 * j) 4))
  let bins : List Bool := if surge then [] else (List.range nd).map (fun j => le b (8 + 8 * na + 2 * (j / 16)) 2 / 2 ^ (j % 16) % 2 == 1)
  let qs : List Bool := if !qch then [] else
    (List.range na).map (fun j => if surge then le b (4 + 2 * na) 2 / 2 ^ j % 2 == 1
      else !qGood (BitVec.ofNat 32 (le b (12 + 8 * j) 4)))
  let n := (bins ++ qs).length
  leBytes 4 (i + 1) ++ leBytes 4 ts.toNat ++ (vals.map (fun v => leBytes 4 (FV.ofInt f32 v).word.toNat)).flatten
    ++ packBits (ceilDiv n 16) (bins ++ qs)

/-- Time word held in 16 bytes. -/
def stampOfBytes (b : Bytes) : Stamp :=
  { t16 := t16Of (le b 8 8) (le b 4 4) (le b 2 2), q := BitVec.ofNat 16 (le b 0 2) }

/-- The two files of an export (R158 to R160), none where a buffer cannot be read, the header CRC or the template fails. -/
def exportFiles (s : State) (g i : Nat) (qch : Bool) (tmpl : Option Bytes) : Option (Stamp × List (Bytes × Bytes)) :=
  let u := s.cap g
  let x := u.prf
  let p := capOwner s g
  let base := x.buf + i * x.segLen
  match devRead s p base 256, tmpl with
  | some h, some t =>
    let na := le h 48 2
    let nd := le h 50 2
    let q := if qch then na else 0
    if le h 252 4 != crc32c (h.take 252) || !templateOk t na (nd + q) then none
    else
      let rs := le h 40 4
      let n := le h 32 4 + le h 36 4
      let c := (x.segLen - 256) / rs
      let recs := (List.range n).map (fun j => devRead s p (base + 256 + (le h 52 4 + j) % c * rs) rs)
      if recs.any Option.isNone then none
      else
        let name := ascii "U" ++ decDigits 3 g ++ ascii "_S" ++ decDigits 10 (le h 72 4)
        let first := stampOfBytes (octs h 16 16)
        let trig := stampOfBytes (octs h 0 16)
        let cfg := t ++ cfgTail s (le h 44 4) (le h 32 4) (le h 36 4) first trig
        let dat := ((List.range n).map (fun j =>
          datSample (isSurge g) na nd qch (le h 44 4) j ((recs.getD j none).getD []))).flatten
        some (trig, [(name ++ ascii ".cfg", cfg), (name ++ ascii ".dat", dat)])
  | _, _ => none

def capExportAct (p r : Nat) (s : State) (f : Flight) : State :=
  let ws := f.words
  match capSel ws with
  | none => finish s p r f.id stBadDesc
  | some g =>
    let i := fld (dw ws 2) 3 0
    let len := fld (dw ws 6) 15 0
    if !capResOk ws || len == 0 then finish s p r f.id stBadDesc
    else if capOwner s g ≠ p then finish s p r f.id stNotPermitted
    else
      match segState (s.cap g) i with
      | .filling => finish s p r f.id stNotReady
      | .free => finish s p r f.id stBadDesc
      | .held =>
        let tmpl := devRead s p (addr48 ws 4) len
        match exportFiles s g i (bit (dw ws 0) 10) tmpl with
        | none =>
          let lost := tmpl.isNone || !canAccess s p .devRead ((s.cap g).prf.buf + i * (s.cap g).prf.segLen) (s.cap g).prf.segLen
          finish (if lost then s.winFault p else s) p r f.id stBadDesc
        | some (trig, files) =>
          let pages := (files.map (fun e => pagesOf e.2.length)).foldl (· + ·) 0
          if !trig.q.getLsbD 6 then finish s p r f.id stTimeNotValid
          else if stBusy s || (exportOf s g i).isSome then finish s p r f.id stNotReady
          else if freePages s 4 < pages then finish s p r f.id stMediaFull
          else openOp s { id := 0, kind := .export_, ring := 64 * p + r, flight := f.id, tag := dw ws 1, region := 4, objs := files,
                          pages := pages, unit := g + 256 * b2n (bit (dw ws 0) 9), seg := i }

/-- What the commit of an export does to its segment (R161). -/
def exportDone (o : StOp) (s : State) : State :=
  if o.kind = .export_ ∧ o.unit / 256 = 1 then segFree (o.unit % 256) o.seg s else s

/-- Reset of a capture unit (R296): its service stops as CAP_ABORT stops it, its exports end ABORTED, and HELD segments stay. -/
def capReset (g : Nat) (s : State) : State :=
  capStop g ((s.st.ops.filter (fun o => o.kind == .export_ && o.unit % 256 == g)).foldl (fun a o => abortOp a o stAborted) s)

end Sys2Proof.Machine
end

