-- ==== Sys2Proof/Machine/Release.lean ====
section
/-! DEFINITION. The release of output frames (R254, R413, R416, R417, R422): redundancy trailers and tags, the standby's withheld
frames, and the signing of published frames (R255, R256). -/

namespace Sys2Proof.Machine

/-- Class of express frames of the publisher, and of other internal frames: the manual names neither (log 23). -/
def expressClass : Nat := 7
def internalClass : Nat := 3

/-- Octets from the first after the source address to the last, a VLAN tag not counted (R80). -/
def lsduSize (o : Bytes) : Nat := o.length - 12 - (if (vlanTag o).isSome then 4 else 0)

/-- The frame with a redundancy control trailer for a LAN (R80, R254). -/
def withTrailer (o : Bytes) (seq lan : Nat) : Bytes :=
  let p := padFrame 54 o
  p ++ beBytes 2 seq ++ beBytes 2 (lan * 4096 + (lsduSize p + 6) % 4096) ++ [0x88, 0xFB]

/-- The frame with an HSR tag: path 0, and the size of the tag and of what the frame's own EtherType announces (R81, R254; log 87). -/
def withHsrTag (o : Bytes) (seq : Nat) : Bytes :=
  let i := (etherAt o).2 - 2
  o.take i ++ [0x89, 0x2F] ++ beBytes 2 ((lsduSize o + 4) % 4096) ++ beBytes 2 seq ++ o.drop i

/-- Ports of a PORTS code (R75). -/
def portsOf (code : Nat) : List Nat := if code < 8 then [code] else [2 * (code - 8), 2 * (code - 8) + 1]

/-- A data frame sent counts in PH_WS_FRAMES of its stream (R189). -/
def countSent (f : OutFrame) (s : State) : State :=
  match f.stream with
  | some n => { s with ph.ws := Tbl.upd {} s.ph.ws n (fun z => { z with frames := inc32 z.frames }) }
  | none => s

/-- Pass a released frame to its ports (R254). -/
def sendOut (f : OutFrame) (s0 : State) : State :=
  let s := countSent f s0
  let put (o : Bytes) (q : Nat) (a : State) : State :=
    enqueue { id := 0, octets := o, src := .internal (some f.id), cls := f.cls, rx := stampNow s, evt := Int.ofNat (now16 s) } [q] a
  let q := (f.ports.headD 0) / 2
  let mode := if f.redundant && f.ports.length == 2 then pairMode s (f.ports.headD 0) else 0
  if mode = 0 then f.ports.foldl (fun a p => put f.octets p a) s
  else
    let seq := Tbl.get 0 s.pb.pairSeq q
    let s1 := { s with pb.pairSeq := Tbl.set 0 s.pb.pairSeq q ((seq + 1) % 65536) }
    if mode = 1 then f.ports.foldl (fun a p => put (withTrailer f.octets seq (if p % 2 = 0 then 0xA else 0xB)) p a) s1
    else f.ports.foldl (fun a p => put (withHsrTag f.octets seq) p a) (dupEnter s1 q (srcMac f.octets) seq .own)

/-- A frame built: its decision is recorded, and it is released on the active unit and withheld on the standby (R413, R416). -/
def releaseFrame (f : OutFrame) (s : State) : State :=
  let s1 := decide_ (.frame f.id (crc32c f.octets)) s
  if gatesOpen s then sendOut f s1
  else if isStandby s then
    (if settledSince s1 f.id s1.pu.early then { s1 with pu.early := s1.pu.early.filter (fun x => x.1 != f.id) }
     else { s1 with pu.held := s1.pu.held ++ [f] })
  else s1

/-- Release every withheld frame in the order in which it was built (R422). -/
def releaseHeld (s : State) : State := s.pu.held.foldl (fun a f => sendOut f a) { s with pu.held := [], pu.early := [] }

/-- A key slot's node and identifier. -/
structure SignKey where
  valid : Bool
  node : Nat
  keyId : BitVec 32
  deriving DecidableEq, Repr

/-- The octets after the goosePdu or savPdu with the authentication extension (R255); `i` is the offset of APPID and `o` holds the
frame with Reserved 2 in place. The MAC covers the octets from APPID to the last before the MAC value (R84), those of the extension
among them. -/
def authExt (alg : Nat) (k : SignKey) (key : Bytes) (i : Nat) (o : Bytes) : Bytes :=
  let cover := o.drop i ++ Config.authHead alg k.keyId
  let mac :=
    if alg = 1 then finBytes (Config.gmacTag key (Config.authIv cover) cover)
    else if alg = 2 then (hmac key cover).take 10 else (hmac key cover).take 16
  Config.authHead alg k.keyId ++ mac ++ Config.authTail alg k.keyId

/-- Octets of the extension of a signed frame (log 8). -/
def extLen (alg : Nat) (keyId : BitVec 32) : Nat :=
  if alg = 0 then 0 else (Config.authHead alg keyId).length + (if alg = 2 then 10 else 16) + (Config.authTail alg keyId).length

/-- The status with which signing under a key slot ends (R256). -/
def signStatus (s : State) (alg : Nat) (k : SignKey) (owner : Nat) : Nat :=
  if !k.valid then stRevoked
  else
    let st := useStatus s k.node owner (if alg = 1 then 0 else 1)
    if st = stDone ∨ st = stExhausted then st else stRevoked

end Sys2Proof.Machine
end

