-- ==== Sys2Proof/Machine/Phasor.lean ====
section
/-! DEFINITION. The phasor engine (R162 to R181) and the synchrophasor frame builder (R182 to R189). -/

namespace Sys2Proof.Machine

/-! Groups (R163 to R165). -/

structure GrpCfg where
  valid : Bool
  mClass : Bool
  hz60 : Bool
  owner : Nat
  rate : Nat
  fsrc : Nat
  recIrq : Bool
  trigEn : Bool
  trigCt : Nat
  first : Nat
  last : Nat
  a : Nat
  b : Nat
  c : Nat
  buf : Nat
  pages : Nat
  deriving DecidableEq, Repr

def grpOf (w : Nat → BitVec 32) : GrpCfg :=
  { valid := bit (w 0) 31, mClass := bit (w 0) 30, hz60 := bit (w 0) 29, owner := fld (w 0) 28 24, rate := fld (w 0) 23 20,
    fsrc := fld (w 0) 19 18, recIrq := bit (w 0) 17, trigEn := bit (w 0) 16, trigCt := fld (w 0) 15 12, first := fld (w 1) 10 0,
    last := fld (w 1) 26 16, a := fld (w 2) 10 0, b := fld (w 2) 26 16, c := fld (w 3) 10 0,
    buf := (w 4).toNat + fld (w 5) 15 0 * 2 ^ 32, pages := fld (w 6) 17 0 }

/-- Selector value of a group: croft and number. -/
def grpSel (c g : Nat) : Nat := 256 * c + g
def grpWords (s : State) (sel : Nat) : List (BitVec 32) := (List.range 8).map (fun i => s.cfg (0x40020 + 4 * i) sel)
def grpCfg (s : State) (sel : Nat) : GrpCfg := grpOf (fun i => s.cfg (0x40020 + 4 * i) sel)
def grpValid (s : State) : List Nat := (listedSel s 0x40020).filter (fun k => bit (s.cfg 0x40020 k) 31)
def State.updGrp (s : State) (sel : Nat) (f : PhRt → PhRt) : State := { s with ph.groups := Tbl.upd {} s.ph.groups sel f }

/-- Reporting period in slots; none for a code R165 does not define. -/
def ratePeriod (hz60 : Bool) (rate : Nat) : Option Nat :=
  if hz60 then ([480, 400, 320, 240, 160, 80, 40, 20] : List Nat)[rate]? else ([480, 192, 96, 48, 24] : List Nat)[rate]?
def GrpCfg.period (x : GrpCfg) : Nat := (ratePeriod x.hz60 x.rate).getD 480
def GrpCfg.f0 (x : GrpCfg) : Nat := if x.hz60 then 60 else 50
/-- Slots between base instants (R167). -/
def GrpCfg.base (x : GrpCfg) : Nat := if x.hz60 then 20 else 24
/-- T_w in slots (R168). -/
def GrpCfg.tw (x : GrpCfg) : Nat := if x.mClass then 4 * x.period else (if x.hz60 then 160 else 192)
/-- K of R172. -/
def GrpCfg.k (x : GrpCfg) : Nat := if x.mClass then x.period / x.base else 1
/-- Channel-equivalents whose outputs the group's reference phasor uses. -/
def GrpCfg.sources (x : GrpCfg) : List Nat := if x.fsrc = 1 then [x.a, x.b, x.c] else [x.a]

/-- First channel-equivalents of the placed channels of a croft, rising (R93). -/
def placedChans (s : State) (c : Nat) : List Nat :=
  (((steValid s).filter (fun e => (ste s e).kind == 0 && (ste s e).croft == c)).map (fun e => steChannels (ste s e))).flatten.foldl
    addRising []
/-- Placed channels that a group covers (R162). -/
def covered (s : State) (c : Nat) (x : GrpCfg) : List Nat := (placedChans s c).filter (fun ce => x.first ≤ ce && ce ≤ x.last)
/-- Report block length RB (R177). -/
def blockLen (nph : Nat) : Nat := ceilDiv (64 + 16 * nph) 64 * 64

/-! Windows (R168, R169). -/

/-- A slot times three, 2^-16 ns. -/
def slot3 : Nat := 625000 * 65536
def absDiff (a b : Nat) : Nat := if a ≤ b then b - a else a - b
/-- Is the time word inside the window (R168)? -/
def inWin (tw tn t : Nat) : Bool := 6 * absDiff t tn < tw * slot3
/-- Does the time word lie at or past the window's end? -/
def pastWin (tw tn t : Nat) : Bool := tn ≤ t && !inWin tw tn t

/-- Weight w(u) at 96 fraction bits. -/
def winWeight (m : Bool) (tw : Nat) (d : Int) : Int :=
  let u := fxOfRat (3 * d) (tw * slot3)
  if m then fxOfRat 42 100 + fxCosTurn u / 2 + 8 * fxCosTurn (2 * u) / 100
  else fxOne - 2 * (if u < 0 then -u else u)

/-- Time word of the chain output one period after (+1) or before (−1) the output at t: outputs lie on half sampling instants (R115). -/
def outNear (s : State) (c ce t : Nat) (dir : Int) : Nat :=
  let r := 9600 * (placedRate s c ce).getD 1
  (Int.ofNat (ceilDiv (t * r) (sec16 1)) + dir * Int.ofNat (2 * decim (chainLive s c ce))).toNat * sec16 1 / r

/-- The outputs of a window, oldest first. -/
def winOuts (x : GrpCfg) (tn : Nat) (outs : List COut) : List COut := (outs.filter (fun o => inWin x.tw tn o.t16)).reverse

/-- Has the window at t_n closed (R171): no later output of the chain belongs to it? The window of a chain that makes no output closes
when its croft's slots up to the window's end have closed (DESIGN CHOICE, log 91). -/
def winClosed (s : State) (c ce : Nat) (x : GrpCfg) (tn : Nat) (outs : List COut) : Bool :=
  if (chainLive s c ce).en then
    match outs.head? with
    | some o => pastWin x.tw tn (outNear s c ce o.t16 1)
    | none => false
  else pastWin x.tw tn (slotT16 (Tbl.get 0 s.ig.closed c + 1))

/-- Σ w and Σ w·x·exp(−j2πf0τ), τ from the top of the second of t_n. -/
def winSum (x : GrpCfg) (tn : Nat) : List COut → Int × Cx
  | [] => (0, ⟨0, 0⟩)
  | o :: r =>
    let z := winSum x tn r
    let w := winWeight x.mClass x.tw (Int.ofNat o.t16 - Int.ofNat tn)
    let tau := Int.ofNat o.t16 - Int.ofNat (tn / sec16 1 * sec16 1)
    (z.1 + w, z.2.add (Cx.smul (w * o.v) (Cx.turn (fxOfRat (-(Int.ofNat x.f0) * tau) (sec16 1)))))
/-- Z (R169). -/
def phZ (x : GrpCfg) (tn : Nat) (l : List COut) : Cx :=
  let z := winSum x tn l
  let k := fxDiv (fxSqrt (2 * fxOne)) z.1
  Cx.smul k z.2
/-- G for the frequency F (R169, R173). -/
def phG (x : GrpCfg) (tn : Nat) (f : Int) (l : List COut) : Int :=
  let num := (l.map (fun o =>
    let d := Int.ofNat o.t16 - Int.ofNat tn
    fxMul (winWeight x.mClass x.tw d) (fxCosTurn ((f - fxOfInt (Int.ofNat x.f0)) * d / Int.ofNat (sec16 1))))).foldl (· + ·) 0
  fxDiv num (winSum x tn l).1

/-- Is a window settled (R175)? -/
def winSettled (s : State) (c ce : Nat) (x : GrpCfg) (tn : Nat) (l : List COut) : Bool :=
  let h := (s.chain c ce).hist
  match l.head? with
  | some o => l.all (fun y => y.settled && y.hist == h) && !inWin x.tw tn (outNear s c ce o.t16 (-1))
  | none => false
/-- Quality of a window (R123, R174); a channel that does no work is invalid (R125). -/
def winQ (l : List COut) : BitVec 32 := if l.isEmpty then 1 else mergeQ (l.map (·.q))
/-- An unsettled value's quality (R175). -/
def unsettledQ (q : BitVec 32) : BitVec 32 := worsen q ||| qOldData

/-! Frequency and ROCOF (R172). -/

/-- The reference phasor at a base instant. -/
def refPhasor (s : State) (c : Nat) (x : GrpCfg) (rt : PhRt) (slot : Nat) : RefPh :=
  let tn := slotT16 slot
  let ws := x.sources.map (fun ce => (ce, winOuts x tn (Tbl.get [] rt.outs ce)))
  let zs := ws.map (fun w => phZ x tn w.2)
  let y :=
    if x.fsrc = 1 then
      let third := fxOne / 3
      let sum := ((zs.getD 0 ⟨0, 0⟩).add ((Cx.turn third).mul (zs.getD 1 ⟨0, 0⟩))).add ((Cx.turn (2 * third)).mul (zs.getD 2 ⟨0, 0⟩))
      ⟨sum.re / 3, sum.im / 3⟩
    else zs.getD 0 ⟨0, 0⟩
  { slot := slot, y := y, q := mergeQ (ws.map (fun w => winQ w.2)), settled := ws.all (fun w => winSettled s c w.1 x tn w.2) }

/-- f_n from the reference phasors at n and n − 1, newest first. -/
def freqs (x : GrpCfg) : List RefPh → List Int
  | a :: b :: r =>
    (fxOfInt (Int.ofNat x.f0) + fxDiv ((a.y.mul b.y.conj).arg * (4 * Int.ofNat x.f0)) (2 * fxPi)) :: freqs x (b :: r)
  | _ => []
def meanFx (l : List Int) : Int := sumI l / Int.ofNat l.length

/-- F_n, none where a reference phasor that its formula uses does not exist yet: n back to n − K. -/
def freqOf (x : GrpCfg) (refs : List RefPh) : Option Int :=
  let f := freqs x (refs.take (x.k + 1))
  if f.length < x.k then none else some (meanFx f)
/-- R_n, none where a reference phasor that its formula uses does not exist yet: n back to n − 2K. -/
def rocofOf (x : GrpCfg) (refs : List RefPh) : Option Int :=
  let f := freqs x (refs.take (2 * x.k + 1))
  if f.length < 2 * x.k then none
  else some ((meanFx (f.take x.k) - meanFx (f.drop x.k)) * (4 * Int.ofNat x.f0) / Int.ofNat x.k)

/-! Reports (R173 to R179). -/

/-- One phasor of a report (R169, R173 to R175). -/
def phasorOf (s : State) (c ce : Nat) (x : GrpCfg) (rt : PhRt) (tn : Nat) (f : Int) (oob : Bool) : PhVal :=
  let l := winOuts x tn (Tbl.get [] rt.outs ce)
  let ok := winSettled s c ce x tn l
  let g := phG x tn f l
  let z := phZ x tn l
  let q0 := if ok then winQ l else unsettledQ (winQ l)
  { ce := ce, re := fxWord (fxDiv z.re g), im := fxWord (fxDiv z.im g), q := if oob then worsen q0 ||| qOutOfRange else q0, settled := ok }

/-- Is the combined trigger of the group fired within the window (R178)? -/
def phTriggered (s : State) (c : Nat) (x : GrpCfg) (tn : Nat) : Bool :=
  x.trigEn && (Tbl.get {} s.tg.cts (ctSel c x.trigCt)).fired.any (fun t => inWin x.tw tn t)

/-- The bytes of a report block (R178). -/
def phBlock (c g seq : Nat) (r : PhRep) : Bytes :=
  let n := r.phs.length
  leBytes 4 seq ++ leBytes 4 (c * 2 ^ 28 + n * 65536 + g)
    ++ leBytes 16 (Stamp.word ⟨slotT16 r.slot, r.edge.q⟩).toNat ++ leBytes 4 r.freq.toNat ++ leBytes 4 r.rocof.toNat
    ++ leBytes 4 r.fq.toNat ++ leBytes 4 r.flags.toNat ++ List.replicate 20 0 ++ leBytes 4 seq
    ++ (r.phs.map (fun p => leBytes 4 p.re.toNat ++ leBytes 4 p.im.toNat ++ leBytes 4 p.q.toNat ++ leBytes 4 p.ce)).flatten

/-- Write a report: its block, and the PH_REPORT record (R177 to R179). -/
def phWrite (c g : Nat) (x : GrpCfg) (r : PhRep) (s : State) : State :=
  let sel := grpSel c g
  let seq := (s.grp sel).seq
  let rb := blockLen r.phs.length
  let nb := x.pages * 4096 / rb
  let i := if nb = 0 then 0 else seq % nb
  let s1 := devWrite s x.owner (x.buf + i * rb) (phBlock c g seq r)
  let s2 := s1.updGrp sel (fun y => { y with
    seq := if seq ≥ 0xFFFFFFFE then 0 else seq + 1, last := seq, reps := r :: (y.reps.filter (fun o => r.slot < o.slot + 14400)),
    phSettled := bit r.flags 3, fqSettled := bit r.flags 4, oob := bit r.flags 1 })
  record s2 x.owner 0x0A (BitVec.ofNat 32 (0x71 + 256 * b2n x.recIrq + g * 65536 + c * 2 ^ 28))
    [(2, BitVec.ofNat 32 seq), (3, BitVec.ofNat 32 i), (4, r.flags)] ⟨slotT16 r.slot, r.edge.q⟩

/-- Time since LOCKED was last held (R187). -/
def lockAge (s : State) : Nat :=
  if s.tb.st = .locked then 0
  else
    match s.tb.lockedAt with
    | none => 3
    | some e =>
      let n := s.tb.edge - e
      if n < secEdges 10 then 0 else if n ≤ secEdges 100 then 1 else if n ≤ secEdges 1000 then 2 else 3
/-- Did UTC_OFFSET change within the 86,400 s before slot edge j (R186)? -/
def leapDone (j : Nat) (s : State) : Bool :=
  match s.tu.utcPast with | e :: _ => decide (slotT16 j < e.at_ + sec16 86400) | [] => false
/-- What slot edge j leaves for the reports of that instant. -/
def edgeOf (j : Nat) (s : State) : PhEdge := ⟨j, s.quality, s.cfg 0x44 0, lockAge s, leapDone j s⟩
def noteEdge (j : Nat) (s : State) : State :=
  { s with ph.edges := edgeOf j s :: s.ph.edges.filter (fun o => o.slot < j && j < o.slot + 14400) }

/-- A base instant whose windows have closed: the reference phasor, and at a reporting instant the report. Where the formulas of
R172 lack a reference phasor, F_n or R_n is a free value (log 9). -/
def phBase (c g j : Nat) (x : GrpCfg) (s : State) : State :=
  let sel := grpSel c g
  let rt := s.grp sel
  let slot := rt.next
  let ref := refPhasor s c x rt slot
  let refs := (ref :: rt.refs).take (2 * x.k + 1)
  let e := (s.ph.edges.find? (fun e => e.slot == slot)).getD (edgeOf slot s)
  let s1 := s.updGrp sel (fun y => { y with refs := refs, next := slot + x.base })
  if slot % x.period ≠ 0 then s1
  else
    let tn := slotT16 slot
    let d := s1.draw
    let have_ := rocofOf x refs
    let fr := ((freqOf x refs).getD (Int.ofNat (Config.freeNat d.1 0)),
      have_.getD (Int.ofNat (Config.freeNat d.1 1) - Int.ofNat (Config.freeNat d.1 2)))
    let s2 := if have_.isSome then s1 else d.2
    let f0 := fxOfInt (Int.ofNat x.f0)
    let oob : Bool := decide (fr.1 - f0 > fxOfInt 5) || decide (f0 - fr.1 > fxOfInt 5)
    let fc := clampI (f0 - fxOfInt 5) (f0 + fxOfInt 5) fr.1
    let phs := (covered s2 c x).map (fun ce => phasorOf s2 c ce x rt tn fc oob)
    let fOk := have_.isSome && refs.all (·.settled)
    let fq0 := mergeQ (refs.map (·.q))
    let fq1 := if fOk then fq0 else unsettledQ fq0
    let fq := if oob then worsen fq1 ||| qOutOfRange else fq1
    let flags := b2n x.mClass + 2 * b2n oob + 4 * b2n (phTriggered s2 c x tn) + 8 * b2n (phs.all (·.settled)) + 16 * b2n fOk
    phWrite c g x { slot := slot, edge := e, freq := fxWord fr.1, rocof := fxWord fr.2, fq := fq, flags := BitVec.ofNat 32 flags,
                    phs := phs, close := j } s2

/-- Have the windows that the group's next base instant needs closed (R171)? -/
def phReady (s : State) (c g : Nat) (x : GrpCfg) : Bool :=
  let rt := s.grp (grpSel c g)
  let tn := slotT16 rt.next
  let need := if rt.next % x.period = 0 then x.sources ++ covered s c x else x.sources
  need.all (fun ce => winClosed s c ce x tn (Tbl.get [] rt.outs ce))

def phLoop (c g j : Nat) (x : GrpCfg) : Nat → State → State
  | 0, s => s
  | n + 1, s => if phReady s c g x then phLoop c g j x n (phBase c g j x s) else s

/-- Start a group's history at the edge of a slot (R180, R181). -/
def phStart (sel slot : Nat) (s : State) : State :=
  let x := grpCfg s sel
  (if slot + 1 = s.tu.nextSlot then noteEdge slot s else s).updGrp sel (fun y => { y with
    active := x.valid, hist0 := slotT16 slot, seq := 0, next := ceilDiv slot x.base * x.base, refs := [], outs := [] })

/-- A croft's groups take the outputs delivered at the bell edge j (R167 to R179). -/
def phSlot (c j : Nat) (d : List (Nat × ChainOut)) (s : State) : State :=
  ((grpValid s).filter (fun k => k / 256 == c)).foldl (fun a sel =>
    let x := grpCfg a sel
    let a1 := a.updGrp sel (fun y => { y with
      outs := d.foldl (fun o e =>
        if x.first ≤ e.1 ∧ e.1 ≤ x.last ∧ !e.2.outs.isEmpty then
          Tbl.upd [] o e.1 (fun l => (e.2.outs.reverse.filter (fun z => y.hist0 ≤ z.t16)) ++
            l.filter (fun z => slotT16 y.next ≤ z.t16 + x.tw * slot3 / 6 + sec16 1))
        else o) y.outs })
    if (a1.grp sel).active then phLoop c (sel % 256) j x 64 a1 else a1) s

/-- What a slot edge leaves where it is a base instant of a valid group (R178, R186, R187). -/
def phEdge (j : Nat) (s : State) : State :=
  if (grpValid s).any (fun sel => j % (grpCfg s sel).base == 0) then noteEdge j s else s

/-! Wire streams (R182 to R189). -/

def wsOwner (s : State) (n : Nat) : Nat := fld (s.cfg (0x40100 + 4 * n) 0) 4 0
def State.pws (s : State) (n : Nat) : PwsRt := Tbl.get {} s.ph.ws n
def State.updPws (s : State) (n : Nat) (f : PwsRt → PwsRt) : State := { s with ph.ws := Tbl.upd {} s.ph.ws n f }

/-- One PMU block of a CFG-2 frame (layout of IEEE C37.118.2-2011: log 24). -/
structure PmuBlk where
  idcode : Nat
  format : Nat
  ph : Nat
  an : Nat
  dg : Nat
  units : List Nat
  fnom : Nat
  /-- Map words: header, channel-equivalents, scales, points. -/
  hdr : BitVec 32
  ces : List Nat
  scales : List (BitVec 32)
  pts : List Nat
  deriving DecidableEq, Repr

/-- Blocks from octet i of a CFG-2 frame with the map words that belong to them; the offset after them. -/
def pmuBlocks (cfg : Bytes) : Nat → Nat → List (BitVec 32) → List PmuBlk × Nat
  | 0, i, _ => ([], i)
  | n + 1, i, m =>
    let ph := be cfg (i + 20) 2
    let an := be cfg (i + 22) 2
    let dg := be cfg (i + 24) 2
    let u := i + 26 + 16 * (ph + an + 16 * dg)
    let stop := u + 4 * (ph + an + dg) + 4
    let b : PmuBlk :=
      { idcode := be cfg (i + 16) 2, format := be cfg (i + 18) 2, ph := ph, an := an, dg := dg,
        units := (List.range (min ph 64)).map (fun k => be cfg (u + 4 * k + 1) 3), fnom := be cfg (stop - 4) 2 % 2,
        hdr := m.getD 0 0, ces := ((m.drop 1).take ph).map (fun w => fld w 10 0), scales := (m.drop (1 + ph)).take ph,
        pts := ((m.drop (1 + 2 * ph)).take dg).map (fun w => fld w 12 0) }
    let z := pmuBlocks cfg n stop (m.drop (1 + 2 * ph + dg))
    (b :: z.1, z.2)
/-- Blocks of a frame, none where the numbers leave R182 or the fields do not fit FRAMESIZE. -/
def cfgBlocks (cfg : Bytes) (m : List (BitVec 32)) : List PmuBlk × Nat := pmuBlocks cfg (min (be cfg 18 2) 8) 20 m
def mapWords (bs : List PmuBlk) : Nat := (bs.map (fun b => 1 + 2 * b.ph + b.dg)).foldl (· + ·) 0
def PmuBlk.sel (b : PmuBlk) : Nat := grpSel (fld b.hdr 31 28) (fld b.hdr 20 16)

/-- Step 1 of R184 on the frame alone. -/
def cfgFrameOk (cfg : Bytes) : Bool :=
  let n := cfg.length
  let z := cfgBlocks cfg []
  n ≥ 24 && be cfg 0 2 == 0xAA32 && be cfg 2 2 == n && be cfg (n - 2) 2 == crcCcitt (cfg.take (n - 2))
    && be cfg 15 3 != 0 && 1 ≤ be cfg 18 2 && be cfg 18 2 ≤ 8 && z.2 + 4 == n
    && z.1.all (fun b => b.format < 16 && 1 ≤ b.ph && b.ph ≤ 64 && b.an == 0 && b.dg ≤ 4
         && (b.format / 2 % 2 == 1 || b.units.all (· != 0)))
/-- Step 1 of R184 on the map. -/
def cfgMapOk (s : State) (cfg : Bytes) (bs : List PmuBlk) : Bool :=
  bs.all (fun b =>
    let x := grpCfg s b.sel
    let cov := covered s (b.sel / 256) x
    x.valid && (b.fnom == 1) == !x.hz60 && be cfg (cfg.length - 4) 2 * x.period == 4800 && b.ces.all (cov.contains ·)
      && b.pts.all (· ≤ 6128))
def cfgOwned (s : State) (n p : Nat) (bs : List PmuBlk) : Bool :=
  wsOwner s n == p && bs.all (fun b => (grpCfg s b.sel).owner == p &&
    b.pts.all (fun pt => pointOwner s (b.sel / 256) pt == p && pointOwner s (b.sel / 256) (pt + 15) == p))

/-- First reporting instant of a stream's groups at or after an instant, as a slot. -/
def firstReport (s : State) (bs : List PmuBlk) (t16 : Nat) : Nat :=
  let per := match bs.head? with | some b => (grpCfg s b.sel).period | none => 480
  ceilDiv (slotCeil t16) per * per

def phStreamStartAct (p r : Nat) (s : State) (f : Flight) : State :=
  let ws := f.words
  let n := fld (dw ws 0) 31 16
  let res := reservedOk ws 0xFFFF0000 [(2, 0xFFFFFFFF), (3, 0xFFFF), (4, 0xFFFF), (5, 0xFFFFFFFF), (6, 0xFFFF), (7, 0xFFFFFFFF),
    (8, 0xFFFF), (9, 0xFFF)]
  let hl := fld (dw ws 9) 7 0
  let port := fld (dw ws 9) 11 8
  let rd := devRead s p (addr48 ws 2) (fld (dw ws 4) 15 0)
  let cfg := rd.getD []
  let map := devRead s p (addr48 ws 5) (4 * mapWords (cfgBlocks cfg []).1)
  let m := bytesWords (map.getD [])
  let hdr := devRead s p (addr48 ws 7) hl
  let bs := (cfgBlocks cfg m).1
  if !res || n ≥ 64 || !(hl == 42 || hl == 46) || !(port < 8 || (10 ≤ port && port ≤ 12)) || !cfgFrameOk cfg || map.isNone
      || hdr.isNone || !cfgMapOk s cfg bs then
    finish (if res && (rd.isNone || map.isNone || hdr.isNone) then s.winFault p else s) p r f.id stBadDesc
  else if !cfgOwned s n p bs then finish s p r f.id stNotPermitted
  else if (s.pws n).running then finish s p r f.id stRefusedFull
  else
    finish (s.updPws n (fun y => { y with
      running := true, cfg := cfg, map := m, hdr := hdr.getD [], port := port, next := firstReport s bs (now16 s + 1),
      digs := [], until_ := 0 })) p r f.id stDone

/-- After a step the groups start anew at the next slot edge, slot j, and the streams go on with its reports; reports and digital words of
later instants of the time before a backward step are gone (R181, R186; log 91). -/
def phStepped (s : State) : State :=
  let j := s.tu.nextSlot
  let s1 := (grpValid s).foldl (fun a sel => phStart sel j a) s
  { s1 with
    ph.groups := s1.ph.groups.map (fun e => (e.1, { e.2 with reps := e.2.reps.filter (fun r => r.slot < j) }))
    ph.ws := s1.ph.ws.map (fun e => (e.1, { e.2 with
      next := min e.2.next j, until_ := min e.2.until_ j, digs := e.2.digs.filter (fun d => d.1 < j) }))
    ph.edges := s1.ph.edges.filter (fun o => o.slot < j) }

/-- Last reporting instant at or before the present, as a slot, plus one. -/
def phStop (n : Nat) (s : State) : State :=
  s.updPws n (fun y => { y with running := false, until_ := slotOf (now16 s) + 1 })

def phStreamStopAct (p r : Nat) (s : State) (f : Flight) : State :=
  let n := fld (dw f.words 0) 31 16
  if !reservedOk f.words 0xFFFF0000 [] || n ≥ 64 then finish s p r f.id stBadDesc
  else if wsOwner s n ≠ p then finish s p r f.id stNotPermitted
  else if (s.pws n).running then finish (phStop n s) p r f.id stDone
  else finish s p r f.id stDone

def phStreamMarkAct (p r : Nat) (s : State) (f : Flight) : State :=
  let n := fld (dw f.words 0) 31 16
  if !reservedOk f.words 0xFFFF0200 [] || n ≥ 64 then finish s p r f.id stBadDesc
  else if wsOwner s n ≠ p then finish s p r f.id stNotPermitted
  else finish (s.updPws n (fun y => { y with mark := bit (dw f.words 0) 9 })) p r f.id stDone

/-- At the close of slot k of croft c: the digital words of the streams whose reporting instant it begins at (R185). -/
def phDigitals (c k : Nat) (s : State) : State :=
  (s.ph.ws.keys).foldl (fun a n =>
    let y := a.pws n
    if y.running || k < y.until_ then
      let bs := (cfgBlocks y.cfg y.map).1
      (List.range bs.length).foldl (fun b i =>
        match bs[i]? with
        | some blk =>
          if blk.sel / 256 = c ∧ k % (grpCfg b blk.sel).period = 0 then
            let words := blk.pts.map (fun pt =>
              BitVec.ofNat 16 ((List.range 16).foldl (fun acc j => acc + b2n ((b.point c (pt + j)).1 != 0) * 2 ^ j) 0))
            b.updPws n (fun z => { z with digs := (k, i, words) :: (z.digs.filter (fun d => k < d.1 + 14400)) })
          else b
        | none => b) a
    else a) s

/-- STAT of a block (R187). -/
def pmuStat (mark : Bool) (r : PhRep) (phs : List PhVal) : Nat :=
  let qs := r.fq :: phs.map (·.q)
  let trig := bit r.flags 2
  let cls := r.edge.q.toNat / 256 % 16
  (if qs.any (fun q => q &&& (qTest ||| qSim) != 0) then 2 * 2 ^ 14
   else if qs.any qInvalid || phs.any (fun p => !p.settled) || !bit r.flags 4 then 3 * 2 ^ 14 else 0)
    + (if r.edge.q.getLsbD 0 then 0 else 2 ^ 13) + b2n trig * 2 ^ 11 + b2n mark * 2 ^ 10
    + b2n (phs.any (fun p => p.q &&& (qHeld ||| qSubst) != 0)) * 2 ^ 9
    + (if cls ≤ 1 then 1 else if cls ≤ 5 then cls else 7) * 2 ^ 6 + r.edge.age * 16 + (if trig then 8 else 0)

/-- Round to nearest even of x / (k × 10^-5), saturated to signed or unsigned 16 bits. -/
def toInt16 (signed_ : Bool) (num : Int) (den : Nat) : Bytes :=
  let v := roundEven num den
  beBytes 2 ((if signed_ then satN 16 v else clampI 0 65535 v) % 65536).toNat

/-- A phasor in the block's format (R188). -/
def phasorOctets (format unit : Nat) (scale : BitVec 32) (p : PhVal) : Bytes :=
  let flt := format / 2 % 2 == 1
  let polar := format % 2 == 1
  if qInvalid p.q then (if flt then beBytes 4 0x7FC00000 ++ beBytes 4 0x7FC00000 else [0x80, 0, 0x80, 0])
  else
    let sc := realFx scale
    let v : Cx := ⟨fxMul (realFx p.re) sc, fxMul (realFx p.im) sc⟩
    if flt then
      (if polar then beBytes 4 (fxWord v.abs).toNat ++ beBytes 4 (fxWord v.arg).toNat
       else beBytes 4 (FV.mul f32 (real p.re) (real scale)).word.toNat ++ beBytes 4 (FV.mul f32 (real p.im) (real scale)).word.toNat)
    else if polar then toInt16 false (v.abs * 100000) (unit * 2 ^ 96) ++ toInt16 true (v.arg * 10000) (2 ^ 96)
    else toInt16 true (v.re * 100000) (unit * 2 ^ 96) ++ toInt16 true (v.im * 100000) (unit * 2 ^ 96)

/-- FREQ and DFREQ (R188). -/
def freqOctets (format f0 : Nat) (r : PhRep) : Bytes :=
  let flt := format / 8 % 2 == 1
  if qInvalid r.fq then (if flt then beBytes 4 0x7FC00000 ++ beBytes 4 0x7FC00000 else [0x80, 0, 0x80, 0])
  else if flt then beBytes 4 r.freq.toNat ++ beBytes 4 r.rocof.toNat
  else toInt16 true ((realFx r.freq - fxOfInt (Int.ofNat f0)) * 1000) (2 ^ 96) ++ toInt16 true (realFx r.rocof * 100) (2 ^ 96)

/-- One block of a data frame. -/
def blockOctets (s : State) (y : PwsRt) (slot i : Nat) (b : PmuBlk) : Bytes :=
  match (s.grp b.sel).reps.find? (fun r => r.slot == slot) with
  | none => []
  | some r =>
    let phs := b.ces.map (fun ce => (r.phs.find? (fun p => p.ce == ce)).getD ⟨ce, 0, 0, 1, false⟩)
    let digs := ((y.digs.find? (fun d => d.1 == slot && d.2.1 == i)).map (·.2.2)).getD (List.replicate b.dg 0)
    beBytes 2 (pmuStat y.mark r phs)
      ++ ((List.range b.ph).map (fun k => phasorOctets b.format (b.units.getD k 1) (b.scales.getD k 0) (phs.getD k ⟨0, 0, 0, 1, false⟩))).flatten
      ++ freqOctets b.format (grpCfg s b.sel).f0 r ++ (digs.map (fun d => beBytes 2 d.toNat)).flatten

/-- The data frame of C37.118.2 for a reporting instant (R186). -/
def dataFrame (s : State) (y : PwsRt) (bs : List PmuBlk) (slot : Nat) (e : PhEdge) : Bytes :=
  let body := ((List.range bs.length).map (fun i => match bs[i]? with | some b => blockOctets s y slot i b | none => [])).flatten
  let soc := (Int.ofNat (slot / 4800) - signed 16 (fld e.utc 15 0)) % 2 ^ 32
  let frac := slot % 4800 * be y.cfg 15 3 / 4800 % 2 ^ 24
  let fs := frac + irigQuality (e.q.toNat / 256 % 16) * 2 ^ 24 + b2n (bit e.utc 17) * 2 ^ 28 + b2n e.leapDone * 2 ^ 29
    + b2n (bit e.utc 18) * 2 ^ 30
  let o := [0xAA, 0x02] ++ beBytes 2 (16 + body.length) ++ octs y.cfg 4 2 ++ beBytes 4 soc.toNat ++ beBytes 4 fs ++ body
  o ++ beBytes 2 (crcCcitt o)

/-- Fill a header template of Ethernet, IPv4 and UDP for a payload (R186, R200); the identification is free (log 9). -/
def udpFrame (hdr payload : Bytes) (ident : Nat) : Bytes :=
  let i := hdr.length - 28
  let h1 := patch hdr (i + 2) (beBytes 2 (28 + payload.length) ++ beBytes 2 ident)
  let h2 := patch h1 (i + 10) [0, 0]
  let h3 := patch h2 (i + 10) (beBytes 2 (ipChecksum (octs h2 i 20)))
  patch h3 (i + 24) (beBytes 2 (8 + payload.length) ++ [0, 0]) ++ payload

/-- Reporting instants for which every mapped group has its report, from the stream's next one. -/
def commonReport (s : State) (y : PwsRt) (bs : List PmuBlk) : Option Nat :=
  match bs with
  | [] => none
  | b :: _ =>
    let l := ((s.grp b.sel).reps.map (·.slot)).filter (fun k =>
      y.next ≤ k && (y.running || k < y.until_) && bs.all (fun x => (s.grp x.sel).reps.any (fun r => r.slot == k)))
    l.foldl (fun a k => match a with | none => some k | some m => some (min m k)) none

/-- DATA_FRAME_BUILD (R186); the frame counts when it is sent (R189). -/
def dataFrameBuild (n : Nat) (s : State) : State :=
  let y := s.pws n
  let bs := (cfgBlocks y.cfg y.map).1
  match commonReport s y bs with
  | none => s
  | some slot =>
    let b0 := (bs.head?.map (·.sel)).getD 0
    let e := (((s.grp b0).reps.find? (fun r => r.slot == slot)).map (·.edge)).getD ⟨slot, 0, 0, 3, false⟩
    let s1 := s.updPws n (fun z => { z with next := slot + 1, digs := z.digs.filter (fun d => slot < d.1) })
    if e.q.toNat % 8 == 0 || !e.q.getLsbD 6 then s1.updPws n (fun z => { z with supp := inc32 z.supp })
    else
      let o := udpFrame y.hdr (dataFrame s y bs slot e) (Config.freeNat slot (256 + n) % 65536)
      releaseFrame { id := .phasor (be y.cfg 4 2) (slotT16 slot), octets := o, ports := [y.port], cls := internalClass,
                     owner := wsOwner s n, stream := some n } s1

end Sys2Proof.Machine
end

