-- ==== Sys2Proof/Machine/FaultLoc.lean ====
section
/-! DEFINITION. Fault location (chapter 07): arrival detection, events, arrival messages, the four methods and their records. -/

namespace Sys2Proof.Machine

/-! Lines (R190 to R192). -/

def lineWords (s : State) (l : Nat) : List (BitVec 32) := (List.range 40).map (fun i => s.cfg (0x50040 + 4 * i) l)
def linesValid (s : State) : List Nat := (listedSel s 0x50040).filter (fun l => bit (s.cfg 0x50040 l) 31)
def State.updLine (s : State) (l : Nat) (f : LineRt → LineRt) : State := { s with fl.lines := Tbl.upd {} s.fl.lines l f }
def flCount (s : State) (l i : Nat) : State := { s with fl.cnt := Tbl.upd 0 s.fl.cnt (16 * l + i) inc32 }
/-- LAST_REASON. -/
def flLast (s : State) (l reason : Nat) : State := { s with fl.cnt := Tbl.set 0 s.fl.cnt (16 * l + 11) reason }
def flReason (s : State) (l reason : Nat) : State := flCount (flLast s l reason) l 6
/-- EVENT_SEQ and the held messages of a line go to the standby (R210). -/
def lineDelta (l : Nat) (s : State) : State := deltaSend (.line l (s.line l).evSeq (s.line l).held) stDone s

def LineCfg.len (x : LineCfg) : Int := sumI (x.secs.map Prod.fst)
/-- Distance at travel time τ along sections, in binary64 m and µs (R192). -/
def distWalk : List (Int × Int) → FV → FV
  | [], _ => FV.zero
  | c :: r, tau =>
    if FV.le tau (secTime c) then FV.mul f64 tau (FV.ofFx f64 c.2)
    else FV.add f64 (FV.ofFx f64 c.1) (distWalk r (FV.sub f64 tau (secTime c)))
/-- Distance in m at τ in ns, both with 96 fraction bits (R192). -/
def distAt (secs : List (Int × Int)) (tau : Int) : Int := (distWalk secs (FV.ofRat f64 tau (1000 * 2 ^ 96))).fx f64
/-- Distance at τ measured from the remote end: the sections in the reverse order (R192). -/
def distFromRemote (secs : List (Int × Int)) (tau : Int) : Int := distAt secs.reverse tau
/-- An instant difference in 2^-16 ns as ns with 96 fraction bits, and back. -/
def nsFx (d : Int) : Int := d * fxOne / 65536
/-- 2T + 10 µs in 2^-16 ns, rounded up. -/
def LineCfg.cover (x : LineCfg) : Nat := (ceil16 (2 * x.t)).toNat + us16 10

/-! Arrival detection (R194 to R197). -/

/-- Position of the largest |d| from place 8 down to place 1, the earliest sample on a tie. -/
def peakPos (d : List Int) : Nat :=
  ((List.range 8).map (8 - ·)).foldl (fun m p => if (d.getD p 0).natAbs > (d.getD m 0).natAbs then p else m) 8

/-- One new difference of a signal: its detector, and the place of sample m when an arrival's lookahead is complete. -/
def sigStep (x : LineCfg) (quiet hist : Bool) (z : SigDet) (dn : Int) : SigDet × Option Nat :=
  let d := (dn :: z.d).take 12
  let dq := (dn * dn :: z.dq).take 1040
  let sum := z.sum + dq.getD 16 0 - z.dq.getD 1039 0
  let z1 := { z with d := d, dq := dq, sum := sum, sig := if quiet then sum else z.sig }
  match z.cand with
  | some c =>
    if c + 1 = 8 then
      let pm := peakPos d
      ({ z1 with cand := none, skip := 8 - pm }, some pm)
    else ({ z1 with cand := some (c + 1) }, none)
  | none =>
    if z.skip > 0 then ({ z1 with skip := z.skip - 1 }, none)
    else if hist && decide (dn * dn * (1024 * 65536) ≥ (x.kSig * x.kSig : Nat) * z1.sig) && decide ((dn.natAbs : Int) ≥ x.dMin) then ({ z1 with cand := some 0 }, none)
    else (z1, none)

/-- The arrival of signal i whose sample m lies at place pm of the recent samples (R195, R196); the instant is truncated once. A parabola
without curvature places it at a free point within the sample, and the polarity of a difference of 0 is free (log 9). -/
def arrivalOf (x : LineCfg) (recent : List LineSmp) (z : SigDet) (i pm : Nat) : Option Arr :=
  let span := (List.range (11 - pm)).map (fun j => recent[pm - 1 + j]?)
  let qs := span.filterMap (fun o => o.map (fun m => m.q.getD i 1))
  match recent[pm]? with
  | none => none
  | some m =>
    if qs.any qInvalid then none
    else
      let g (p : Nat) : Int := ((z.d.getD p 0).natAbs : Int)
      let a := g (pm + 1)
      let b := g pm
      let c := g (pm - 1)
      let p16 : Int := Int.ofNat (ns16 m.per)
      let den := 2 * (a - 2 * b + c)
      let off : Int :=
        if den = 0 then
          (if a = c then Int.ofNat (Config.freeNat m.t16 (16 + i) % (ns16 m.per + 1)) - p16 / 2
           else if a > c then p16 / 2 else -(p16 / 2))
        else clampI (-(p16 / 2)) (p16 / 2) (p16 * (a - c) * den.sign / Int.ofNat den.natAbs)
      some { t16 := (Int.ofNat m.t16 - p16 / 2 + off - x.cal * 4096).toNat, tq := m.tq, sig := i,
             pos := if z.d.getD pm 0 = 0 then Config.freeNat m.t16 (32 + i) % 2 == 1 else decide (z.d.getD pm 0 > 0),
             amp := b, q := mergeQ qs }

/-! Records (R208). -/

def evT1 (z : LineRt) : Option Arr := z.t1
/-- t2 of R204: the first later arrival on the signal of t1 with its polarity, from 2 µs to 2T after it. -/
def evT2 (x : LineCfg) (z : LineRt) : Option Arr :=
  (evT1 z).bind (fun t1 => z.arrs.find? (fun a => a.sig == t1.sig && a.pos == t1.pos && t1.t16 + us16 2 ≤ a.t16 &&
    decide (nsFx (Int.ofNat a.t16 - Int.ofNat t1.t16) ≤ 2 * x.t)))
def resOf (z : LineRt) (m : Nat) : Option FlRes := Tbl.get none z.res m
def resDone (z : LineRt) (m : Nat) : Bool := match resOf z m with | some r => r.status == stDone | none => false
def resFlag (z : LineRt) (m i : Nat) : Bool := match resOf z m with | some r => r.flags.getLsbD i | none => false

/-- SIM and TEST of the inputs of a method (R208): t1 and tR; t1, t2 and the phasors behind SE_IMP; the fault phasors of both ends or of
the local end. The summary's are those of all. -/
def inputBits (x : LineCfg) (z : LineRt) (m : Nat) : BitVec 16 :=
  let tr := z.remote.bind (fun y => y.arrs.head?)
  let qs := (if m ≤ 2 then (evT1 z).toList.map (·.q) else [])
    ++ (if m = 2 ∨ m = 0 then (evT2 x z).toList.map (·.q) else [])
    ++ (if m = 1 ∨ m = 0 then tr.toList.map (·.q) else [])
    ++ (if m ≠ 1 ∧ (m ≠ 2 ∨ resDone z 4) then z.fault.toList.map (·.q) else [])
    ++ (if m = 3 ∨ m = 0 then (z.remotePh.bind (·.ph)).toList.map (·.q) else [])
  (if qs.any (fun q => q &&& qSim != 0) || ((m = 1 ∨ m = 0) && z.remote.any (·.sim)) then 0x400 else 0)
    ||| (if qs.any (fun q => q &&& qTest != 0) then 0x800 else 0)

/-- The record's time word: t0 when DE_TW has status DONE, else t1. -/
def recStamp (z : LineRt) : Stamp :=
  let t1 := (evT1 z).getD { t16 := 0, tq := 0, sig := 0, pos := false, amp := 0, q := 0 }
  match resOf z 1 with
  | some r =>
    if r.status = stDone then { t16 := (Int.ofNat t1.t16 - ceil16 (r.tau.getD 0)).toNat, q := t1.tq } else { t16 := t1.t16, q := t1.tq }
  | none => { t16 := t1.t16, q := t1.tq }

def doneMask (z : LineRt) : Nat :=
  ((List.range 4).map (fun i => if resDone z (i + 1) then 2 ^ i else 0)).foldl (· + ·) 0

/-- Write a FL_RESULT or FL_SUMMARY record (R208); on a standby the records are gated (R210). A value that the rules do not state for
a result without a distance is free (log 9). -/
def flRecord (l m : Nat) (summary : Bool) (r : FlRes) (flags : BitVec 16) (s : State) : State :=
  if isStandby s then s
  else
    let z := s.line l
    let d := s.draw
    let tauW : BitVec 32 := if m = 1 ∨ m = 2 then (match r.tau with | some t => fxWord t | none => Config.free32 d.1 1) else 0
    let distW : BitVec 32 := match r.dist with | some t => fxWord t | none => Config.free32 d.1 0
    let fl := flags ||| inputBits (lineCfg s l) z (if summary then 0 else m) ||| (if z.ovf then 0x200 else 0)
    record d.2 (lineCfg s l).owner 0x0C (BitVec.ofNat 32 ((if summary then 0x182 else 0x81) + 65536 * l))
      [(2, BitVec.ofNat 32 (fl.toNat * 65536 + m * 256 + r.status)), (3, BitVec.ofNat 32 z.evSeq), (4, distW),
       (5, if m = 2 then fxWord r.alt else 0), (6, tauW),
       (7, BitVec.ofNat 32 (((z.remote.map (fun x => x.arrs.length)).getD 0) * 2 ^ 24 + z.arrs.length * 65536
            + ((z.remote.map (·.evSeq)).getD 0) % 65536)),
       (8, if summary then BitVec.ofNat 32 (256 * doneMask z) else 0)] (recStamp z)

/-- The preferred method (R208). -/
def preferred (z : LineRt) : Nat :=
  if resDone z 1 && !resFlag z 1 0 then 1
  else if resDone z 2 && !resFlag z 2 0 && !resFlag z 2 2 then 2
  else if resDone z 3 && !resFlag z 3 0 then 3
  else if resDone z 4 && !resFlag z 4 0 then 4
  else if resDone z 2 && !resFlag z 2 0 then 2 else 0

/-- The messages that an event has not sent (R200). -/
def owedOf (x : LineCfg) (z : LineRt) : List FlOwed :=
  (match evT1 z with
   | some t1 => if x.send && !z.arrSent then [{ phasors := false, evSeq := z.evSeq, stop := t1.t16 + x.cover, arrs := z.arrs }] else []
   | none => [])
  ++ (if x.send && x.imp && !z.phSent && z.fault.isSome then [{ phasors := true, evSeq := z.evSeq, fault := z.fault }] else [])

/-- Close the event (R199, R208): the summary, and the line is QUIET. Messages still due are sent after the close (R200). -/
def flClose (l closeT16 : Nat) (s : State) : State :=
  let z := s.line l
  let m := preferred z
  let r := (resOf z m).getD { status := stNotReady }
  let s1 := flRecord l m true r (r.flags ||| (if z.cut then 0x100 else 0)) (s.updLine l (fun y => { y with st := .closing }))
  s1.updLine l (fun y => { y with
    st := .quiet, t1 := none, arrs := [], ovf := false, closedAt := closeT16, remote := none, remotePh := none, matched := [], tRef := none,
    fault := none, res := [], arrSent := false, phSent := false, cut := false, owed := y.owed ++ owedOf (lineCfg s l) z })

/-- Does every method that the line runs have a result? -/
def allDone (x : LineCfg) (z : LineRt) : Bool :=
  (resOf z 1).isSome && (resOf z 2).isSome && (!x.imp || ((resOf z 3).isSome && (resOf z 4).isSome))

/-- A method ends: its FL_RESULT record, and the close once every method has a result. -/
def flResult (l m : Nat) (r : FlRes) (s : State) : State :=
  if (s.line l).st ≠ .open_ ∨ (resOf (s.line l) m).isSome then s
  else
    let s1 := s.updLine l (fun y => { y with res := Tbl.set none y.res m (some r) })
    let s2 := flRecord l m false r r.flags s1
    if allDone (lineCfg s l) (s2.line l) then flClose l (now16 s2) s2 else s2

/-! The methods (R203 to R207). -/

/-- SE_TW (R204). -/
def seTw (l : Nat) (s : State) : State :=
  let x := lineCfg s l
  let z := s.line l
  match evT1 z with
  | none => s
  | some t1 =>
    match evT2 x z with
    | none => flResult l 2 { status := stNotReady } s
    | some t2 =>
      let tau := nsFx (Int.ofNat t2.t16 - Int.ofNat t1.t16) / 2
      let d1 := distAt x.secs tau
      let d2 := distAt x.secs (x.t - tau)
      match resOf z 4 with
      | some i =>
        if i.status = stDone then
          let di := i.dist.getD 0
          let near1 : Bool := decide ((d1 - di).natAbs ≤ (d2 - di).natAbs)
          let dist := if near1 then d1 else d2
          let amb : Bool := decide (Int.ofNat ((dist - di).natAbs) * 10 > x.len)
          flResult l 2 { status := stDone, flags := if amb then 4 else 0, dist := some dist, alt := if near1 then d2 else d1,
                         tau := some tau } s
        else flResult l 2 { status := stDone, flags := 4, dist := some d1, alt := d2, tau := some tau } s
      | none => flResult l 2 { status := stDone, flags := 4, dist := some d1, alt := d2, tau := some tau } s

/-- Fix the reference instant (R205). -/
def fixRef (l : Nat) (s : State) : State :=
  s.updLine l (fun y =>
    let t1 := (evT1 y).map (·.t16)
    let t0 : Option Nat := match resOf y 1 with
      | some r => if r.status = stDone ∧ !r.flags.getLsbD 0 then
          t1.map (fun t => (Int.ofNat t - ceil16 (r.tau.getD 0)).toNat) else t1
      | none => t1
    { y with tRef := if y.tRef.isSome then y.tRef else t0 })

def timeOk (x : LineCfg) (q : BitVec 16) : Bool := q.getLsbD 0 && q.toNat / 256 % 16 ≤ x.maxErr

/-- DE_TW for a matched message (R203). -/
def deTw (l : Nat) (s : State) : State :=
  let x := lineCfg s l
  let z := s.line l
  match evT1 z, z.remote.bind (fun m => m.arrs.head?) with
  | some t1, some tr =>
    let lOk := timeOk x t1.tq
    let rOk := timeOk x tr.tq
    if !lOk || !rOk then
      fixRef l (flResult l 1 { status := stTimeNotValid, flags := (if lOk then 0 else 0x20) ||| (if rOk then 0 else 0x10) } (fixRef l s))
    else
      let tau0 := (x.t + nsFx (Int.ofNat t1.t16 - Int.ofNat tr.t16)) / 2
      let us2 := fxOfInt 2000
      let bus : Bool := (decide (tau0 < 0) && decide (-us2 ≤ tau0)) || (decide (x.t < tau0) && decide (tau0 ≤ x.t + us2))
      let out : Bool := decide (tau0 < -us2) || decide (tau0 > x.t + us2)
      let tau := if out then tau0 else clampI 0 x.t tau0
      let r : FlRes := { status := stDone, flags := (if out then 1 else 0) ||| (if bus then 2 else 0),
                         dist := if out then none else some (distAt x.secs tau), tau := some tau }
      let s1 := s.updLine l (fun y => { y with
        tRef := if y.tRef.isSome then y.tRef
                else some (if out then t1.t16 else (Int.ofNat t1.t16 - ceil16 tau).toNat) })
      flResult l 1 r s1
  | _, _ => s

/-- Phasors of the line from a report: VA, VB, VC, IA, IB, IC in V and A, quality, settled. -/
def linePhs (x : LineCfg) (r : PhRep) : List Cx × BitVec 32 × Bool :=
  let ps := x.ces.map (fun ce => (r.phs.find? (fun p => p.ce == ce)).getD ⟨ce, 0, 0, 1, false⟩)
  let conv (i : Nat) (p : PhVal) : Cx :=
    let k := if i < 3 then x.vScale else x.iScale
    ⟨fxMul (realFx p.re) k, fxMul (realFx p.im) k⟩
  ((List.range 6).map (fun i => conv i (ps.getD i ⟨0, 0, 0, 1, false⟩)), mergeQ (ps.map (·.q)), ps.all (·.settled))

def aOp : Cx := Cx.turn (fxOne / 3)
def aOp2 : Cx := Cx.turn (2 * (fxOne / 3))
/-- Positive and negative sequence of three phasors. -/
def seqPos (a b c : Cx) : Cx := let y := (a.add (aOp.mul b)).add (aOp2.mul c); ⟨y.re / 3, y.im / 3⟩
def seqNeg (a b c : Cx) : Cx := let y := (a.add (aOp2.mul b)).add (aOp.mul c); ⟨y.re / 3, y.im / 3⟩
def cxAt (l : List Cx) (i : Nat) : Cx := l.getD i ⟨0, 0⟩

/-- T_PRE and T_F as slots (R205). -/
def preSlot (g : GrpCfg) (tRef : Nat) : Nat := (tRef - g.tw * slot3 / 6) * 3 / slot3 / g.period * g.period
def faultSlot (g : GrpCfg) (tRef delay : Nat) : Nat :=
  ceilDiv (slotCeil (tRef + ms16 delay + ceilDiv (g.tw * slot3) 6)) g.period * g.period

/-- Loop voltage, current and superimposed current of the faulted phases (R206); none where k0 has no value. -/
def faultLoop (x : LineCfg) (f p : List Cx) : Option (Cx × Cx × Cx) :=
  let di (i : Nat) : Cx := (cxAt f (3 + i)).sub (cxAt p (3 + i))
  let mags := (List.range 3).map (fun i => (di i).abs)
  let big := mags.foldl max 0
  let hit := (List.range 3).filter (fun i => decide (2 * mags.getD i 0 ≥ big))
  let two (a b : Nat) : Cx × Cx × Cx :=
    ((cxAt f a).sub (cxAt f b), (cxAt f (3 + a)).sub (cxAt f (3 + b)), (di a).sub (di b))
  match hit with
  | [a] =>
    (Cx.div (x.z0.sub x.z1) ⟨3 * x.z1.re, 3 * x.z1.im⟩).map (fun k0 =>
      let i3 := ((cxAt f 3).add (cxAt f 4)).add (cxAt f 5)
      let d3 := ((di 0).add (di 1)).add (di 2)
      (cxAt f a, (cxAt f (3 + a)).add (k0.mul i3), (di a).add (k0.mul d3)))
  | [a, b] => some (two a b)
  | _ => some (two 0 1)

/-- Impedance of the whole line (R206). -/
def LineCfg.z1L (x : LineCfg) : Cx := Cx.smul (x.len / 1000) x.z1

/-- An impedance result for m (R206, R207); a quotient by zero has no stated value, so m is then free (log 9). -/
def impResult (x : LineCfg) (m : Option Int) (tag : Nat) (flags : BitVec 16) : FlRes :=
  let m' := m.getD (Int.ofNat (Config.freeNat tag 0) - Int.ofNat (Config.freeNat tag 1))
  let out : Bool := decide (m' < -(fxOne / 20)) || decide (m' > fxOfRat 12 10)
  { status := stDone, flags := flags ||| (if out then 1 else 0), dist := some (fxMul m' x.len) }

/-- INPUT_INVALID of DE_IMP: an invalid phasor of either end (R205). -/
def deInvalid (z : LineRt) : BitVec 16 :=
  if z.fault.any (fun p => qInvalid p.q) || (z.remotePh.bind (·.ph)).any (fun p => qInvalid p.q) then 0x40 else 0

/-- DE_IMP once both ends' fault phasors are there (R207). -/
def deImp (l : Nat) (s : State) : State :=
  let x := lineCfg s l
  let z := s.line l
  match z.fault, z.remotePh.bind (·.ph) with
  | some a, some b =>
    if a.tF ≠ b.tF then flResult l 3 { status := stNotReady, flags := 0x80 ||| deInvalid z } s
    else if qInvalid a.q || qInvalid b.q then flResult l 3 { status := stNotReady, flags := 0x40 } s
    else if !a.ok then flResult l 3 { status := stNotReady } s
    else
      let weak (p : FaultPh) : Bool := decide (p.i2.abs * 20 < p.di1.abs)
      let pos := weak a || weak b
      let va := if pos then a.dv1 else a.v2
      let vb := if pos then b.dv1 else b.v2
      let ia := if pos then a.di1 else a.i2
      let ib := if pos then b.di1 else b.i2
      let m := (Cx.div ((va.sub vb).add (x.z1L.mul ib)) (x.z1L.mul (ia.add ib))).map (·.re)
      let d := s.draw
      flResult l 3 (impResult x m d.1 0) (if m.isSome then s else d.2)
  | _, _ => s

/-- The report of a group for a slot. -/
def repAt (s : State) (sel slot : Nat) : Option PhRep := (s.grp sel).reps.find? (fun r => r.slot == slot)

/-- End of SE_IMP, then SE_TW, then DE_IMP when the remote phasors are there. -/
def seImpEnd (l : Nat) (r : FlRes) (s : State) : State := deImp l (seTw l (flResult l 4 r s))

/-- SE_IMP (R205, R206): the report for T_F exists. -/
def seImp (l : Nat) (s : State) : State :=
  let x := lineCfg s l
  let z := s.line l
  let g := grpCfg s x.grp
  match z.tRef with
  | none => s
  | some tr =>
    if !x.imp || z.st != .open_ || (resOf z 4).isSome then s
    else
      let kf := faultSlot g tr x.phDelay
      let kp := preSlot g tr
      match repAt s x.grp kf with
      | none => s
      | some rf =>
        match repAt s x.grp kp with
        | none => seImpEnd l { status := stNotReady, flags := if qInvalid (linePhs x rf).2.1 then 0x40 else 0 } s
        | some rp =>
          let f := linePhs x rf
          let p := linePhs x rp
          let q := mergeQ [f.2.1, p.2.1]
          let ok := f.2.2 && p.2.2
          let v1 (y : List Cx) := seqPos (cxAt y 0) (cxAt y 1) (cxAt y 2)
          let i1 (y : List Cx) := seqPos (cxAt y 3) (cxAt y 4) (cxAt y 5)
          let fp : FaultPh :=
            { tF := slotT16 kf, tPre := slotT16 kp, fq := rf.edge.q, pq := rp.edge.q,
              v2 := seqNeg (cxAt f.1 0) (cxAt f.1 1) (cxAt f.1 2), i2 := seqNeg (cxAt f.1 3) (cxAt f.1 4) (cxAt f.1 5),
              dv1 := (v1 f.1).sub (v1 p.1), di1 := (i1 f.1).sub (i1 p.1), q := q, ok := ok }
          let s1 := s.updLine l (fun y => { y with fault := some fp })
          if qInvalid q then seImpEnd l { status := stNotReady, flags := 0x40 } s1
          else if !ok then seImpEnd l { status := stNotReady } s1
          else
            let m := (faultLoop x f.1 p.1).bind (fun c =>
              let num := (c.1.mul c.2.2.conj).im
              let den := ((x.z1L.mul c.2.1).mul c.2.2.conj).im
              if den = 0 then none else some (fxDiv num den))
            let d := s1.draw
            seImpEnd l (impResult x m d.1 0) (if m.isSome then s1 else d.2)

/-! Messages (R200 to R202). -/

/-- Does the message's first arrival lie within T + 10 µs of t1 (R202)? -/
def flNear (x : LineCfg) (t1 : Arr) (m : ArrMsg) : Bool :=
  match m.arrs.head? with
  | some a => decide (nsFx (Int.ofNat (absDiff a.t16 t1.t16)) ≤ x.t + fxOfInt 10000)
  | none => false
def flMatches (x : LineCfg) (t1 : Arr) (m : ArrMsg) : Bool := flNear x t1 m && m.sim == (t1.q &&& qSim != 0)

/-- A message matches the open event (R202); the first one gives DE_TW its tR, unless its wait has ended. -/
def flMatch (l : Nat) (m : ArrMsg) (s : State) : State :=
  let z := s.line l
  let s1 := s.updLine l (fun y => { y with remote := some (y.remote.getD m), matched := m.evSeq :: y.matched })
  if z.remote.isNone && (resOf z 1).isNone then deTw l s1 else s1

/-- Match held messages to a newly opened event (R202). -/
def matchHeld (l : Nat) (s : State) : State :=
  let x := lineCfg s l
  let z := s.line l
  match evT1 z with
  | none => s
  | some t1 =>
    (z.held.filter (flMatches x t1)).foldl (fun a m => flMatch l m a)
      (s.updLine l (fun y => { y with held := y.held.filter (fun o => !flMatches x t1 o) }))

/-- A local arrival (R199): one before the last close belongs to no new event; the first opens the event, and the event keeps the first
16 in order of instant. -/
def flArrival (l : Nat) (a : Arr) (s : State) : State :=
  let z := s.line l
  let s0 := flCount s l 0
  if a.t16 < z.closedAt then s0
  else
    match z.st with
    | .quiet => flCount (s0.updLine l (fun y => { y with st := .open_, evSeq := (y.evSeq + 1) % 2 ^ 32, arrs := [a] })) l 1
    | _ =>
      let as := insertBy (fun p q => decide (p.t16 < q.t16)) a z.arrs
      let s1 := s0.updLine l (fun y => { y with arrs := as.take 16, ovf := y.ovf || decide (16 < as.length) })
      if 16 < as.length then flCount s1 l 9 else s1

/-- At the end of the closed slot in which an event opened: its earliest arrival is t1, and held messages are matched (R199, R202; log 92). -/
def eventOpened (l : Nat) (s : State) : State :=
  let z := s.line l
  if z.st == .open_ && z.t1.isNone then lineDelta l (matchHeld l (s.updLine l (fun y => { y with t1 := y.arrs.head? }))) else s

/-- One sample of a line's three channels. -/
def lineStep (l : Nat) (x : LineCfg) (m : LineSmp) (s : State) : State :=
  let z := s.line l
  let ok := !(m.q.any qInvalid)
  let valid := if z.valid ≥ 1024 then 1024 else if ok then z.valid + 1 else 0
  let quiet := z.st == .quiet
  let prev := z.recent.head?
  let dOf (i : Nat) : Int := match prev with | some p => m.y.getD i 0 - p.y.getD i 0 | none => 0
  let steps := (List.range 3).map (fun i => sigStep x quiet (decide (valid ≥ 1024)) (z.sigs.getD i {}) (dOf i))
  let recent := (m :: z.recent).take 12
  let found := (List.range 3).filterMap (fun i =>
    match steps[i]? with
    | some (sd, some pm) => arrivalOf x recent sd i pm
    | _ => none)
  let s1 := s.updLine l (fun y => { y with valid := valid, recent := recent, sigs := steps.map Prod.fst })
  (sortBy (fun (a b : Arr) => decide (a.t16 ≤ b.t16)) found).foldl (fun b a => flArrival l a b) s1

/-- Restart a detector's history (R197, R209). -/
def detReset (l : Nat) (s : State) : State :=
  s.updLine l (fun y => { y with valid := 0, armed := false, recent := [], sigs := [{}, {}, {}] })

/-- The Griuz entry that serves a surge channel. -/
def surgeEntry (s : State) (sc : Nat) : Option Nat :=
  (steValid s).find? (fun e => (ste s e).kind == 2 && (ste s e).base ≤ sc && sc < (ste s e).base + (ste s e).nch)

/-- Samples of a line from the surge samples of a slot; none where its channels differ in rate (R194). -/
def lineSamples (x : LineCfg) (pts : List SurgePt) : Option (List LineSmp) :=
  let of_ (sc : Nat) := pts.filter (fun p => p.vals.any (fun v => v.1 == sc))
  let pers := (x.sc.map (fun sc => (of_ sc).head?.map (·.per))).filterMap id
  if pers.any (fun n => n != pers.headD 0) then none
  else
    some ((of_ (x.sc.getD 0 0)).map (fun p =>
      let val (sc : Nat) : Int × BitVec 32 :=
        match ((pts.filter (fun y => y.t16 == p.t16)).map (·.vals)).flatten.find? (fun v => v.1 == sc) with
        | some v => (v.2.1 * realFx v.2.2.2, v.2.2.1)
        | none => (0, 1)
      let v := x.sc.map val
      let y := v.map Prod.fst
      let q := v.map Prod.snd
      let a := y.getD 0 0
      let b := y.getD 1 0
      let c := y.getD 2 0
      { t16 := p.t16, tq := p.q, per := p.per,
        y := if x.aerial then [(2 * a - b - c) / 3, (2 * b - c - a) / 3, (2 * c - a - b) / 3] else y,
        q := if x.aerial then List.replicate 3 (mergeQ q) else q }))

/-- Do the closed slots of the line's hamlet cover an instant? -/
def flCovers (s : State) (x : LineCfg) (t16 : Nat) : Bool :=
  t16 ≤ slotT16 (Tbl.get 0 s.ig.closed (4 * x.hamlet) + 1)

/-- SE_TW at once without the impedance methods: when its second arrival is there, or can no longer come. -/
def seTwAtOnce (l : Nat) (s : State) : State :=
  let x := lineCfg s l
  let z := s.line l
  match evT1 z with
  | some t1 =>
    if !x.imp && z.st == .open_ && (resOf z 2).isNone &&
        ((evT2 x z).isSome || flCovers s x (t1.t16 + x.cover))
    then seTw l s else s
  | none => s

/-- The detectors of a hamlet's lines take a closed slot's surge samples (R193); entries in `returned` came back from LOST. -/
def flSlot (h : Nat) (pts : List SurgePt) (returned : List Nat) (s : State) : State :=
  ((linesValid s).filter (fun l => (lineCfg s l).hamlet == h)).foldl (fun a l =>
    let x := lineCfg a l
    let es := x.sc.filterMap (surgeEntry a)
    let lost := es.any (fun e => (a.stream e).st != .running)
    let a1 := if lost || es.any (returned.contains ·) then detReset l a else a
    if lost then a1
    else
      match lineSamples x pts with
      | none => flCount a1 l 10
      | some l' => seTwAtOnce l (eventOpened l (l'.foldl (fun b m => lineStep l x m b) a1))) s

/-- DETECTOR_ARMED (R197). -/
def detectorArmed (l : Nat) (s : State) : State :=
  if (s.line l).valid ≥ 1024 then s.updLine l (fun y => { y with armed := true }) else s

/-- Sixteen octets of a time word, in the order of R104. -/
def timeOctets (t : Stamp) : Bytes :=
  beBytes 8 (t.t16 / sec16 1) ++ beBytes 4 (t.t16 / 65536 % 1000000000) ++ beBytes 2 (t.t16 % 65536) ++ beBytes 2 t.q.toNat
def cxOctets (c : Cx) : Bytes := beBytes 4 (fxWord c.re).toNat ++ beBytes 4 (fxWord c.im).toNat

/-- The unit number that the module sends: the manual names no setting for it (log 9). -/
def ownUnit : Nat := Config.freeNat 0x201 0 % 65536

/-- Message octets up to the trailer, with SEQ 0 (R201). -/
def flMessage (x : LineCfg) (evSeq : Nat) (sim test phasors : Bool) (narr : Nat) (body : Bytes) (t : Stamp) : Bytes :=
  let auth := x.auth != 0
  let n := 40 + body.length + (if auth then 20 else 0)
  [0x47, 0x5A, 1, 2] ++ beBytes 2 n ++ beBytes 2 ownUnit ++ beBytes 4 0 ++ timeOctets t
    ++ [BitVec.ofNat 8 (128 * b2n sim + 64 * b2n test + b2n auth), if phasors then 2 else 1] ++ beBytes 2 x.id ++ beBytes 4 evSeq
    ++ [BitVec.ofNat 8 narr, BitVec.ofNat 8 (b2n x.aerial), 0, 0] ++ body

/-- Send one copy: SEQ, the trailer, the header template, and the release (R200, R201). A copy whose key or header cannot be used is
not sent. -/
def flSendCopy (l : Nat) (m : FlSend) (s : State) : State :=
  let x := lineCfg s l
  let b0 := patch m.octets 8 (beBytes 4 s.fl.seq)
  let usable : Bool := x.auth == 0 || useStatus s x.kNode x.owner (if x.auth = 1 then 0 else 1) == stDone
  let key := (s.node x.kNode).key
  let iv := octs b0 6 2 ++ [0, 0] ++ octs b0 8 4 ++ octs b0 20 4
  let tag := if x.auth = 1 then finBytes (Config.gmacTag key iv b0) else (hmac key b0).take 16
  let b := if x.auth = 0 then b0 else b0 ++ beBytes 4 x.kId.toNat ++ tag
  match devRead s x.owner x.hdr x.hdrLen with
  | none => s.winFault x.owner
  | some hdr =>
    if !usable then s
    else
      let s1 := { (if x.auth = 0 then s else takeUse s x.kNode) with fl.seq := (s.fl.seq + 1) % 2 ^ 32 }
      releaseFrame { id := .arrival l m.evSeq m.copy (b2n m.phasors), octets := udpFrame hdr b (Config.freeNat s.fl.seq 0x202 % 65536),
                     ports := [x.port], cls := internalClass, owner := x.owner } (flCount s1 l 2)

/-- Start a message of an event: its first copy goes, and REPEAT − 1 copies follow 1 ms apart. -/
def flStart (l : Nat) (phasors : Bool) (evSeq : Nat) (oct : Bytes) (s : State) : State :=
  let x := lineCfg s l
  let m : FlSend := { octets := oct, left := x.repeats - 1, next := now16 s + ms16 1, phasors := phasors, evSeq := evSeq, copy := 1 }
  let s1 := flSendCopy l { m with copy := 0 } s
  if m.left = 0 then s1 else s1.updLine l (fun y => { y with sends := y.sends ++ [m] })

/-- The ARRIVALS message of an event (R200). -/
def sendArrivals (l : Nat) (o : FlOwed) (s : State) : State :=
  let as := o.arrs.filter (fun a => a.t16 ≤ o.stop)
  let body := (as.map (fun a => timeOctets ⟨a.t16, a.tq⟩ ++ [BitVec.ofNat 8 a.sig, if a.pos then 0x01 else 0xFF]
    ++ beBytes 2 (a.q.toNat % 2 ^ 14) ++ beBytes 4 (fxWord a.amp).toNat)).flatten
  flStart l false o.evSeq (flMessage (lineCfg s l) o.evSeq (as.any (fun a => a.q &&& qSim != 0)) (as.any (fun a => a.q &&& qTest != 0)) false
    as.length body (stampNow s)) s
/-- The PHASORS message of an event (R200). -/
def sendPhasors (l : Nat) (o : FlOwed) (s : State) : State :=
  match o.fault with
  | none => s
  | some f =>
    let body := timeOctets ⟨f.tF, f.fq⟩ ++ timeOctets ⟨f.tPre, f.pq⟩ ++ cxOctets f.v2 ++ cxOctets f.i2 ++ cxOctets f.dv1 ++ cxOctets f.di1
      ++ beBytes 4 f.q.toNat
    flStart l true o.evSeq (flMessage (lineCfg s l) o.evSeq (f.q &&& qSim != 0) (f.q &&& qTest != 0) true 0 body (stampNow s)) s

/-- Is a message still owed by an event that has closed? -/
def owedMsg (l : Nat) (phasors : Bool) (s : State) : Option FlOwed := (s.line l).owed.find? (fun o => o.phasors == phasors)
def dropOwed (l : Nat) (o : FlOwed) (s : State) : State := s.updLine l (fun y => { y with owed := y.owed.filter (fun x => x != o) })

/-- ARRIVALS_SEND (R200): the closed slots cover t1 + 2T + 10 µs. An event that has closed before it goes first. -/
def arrivalsSend (l : Nat) (s : State) : State :=
  let x := lineCfg s l
  let z := s.line l
  match owedMsg l false s with
  | some o =>
    if !(x.valid && x.send) then dropOwed l o s
    else if flCovers s x o.stop then sendArrivals l o (dropOwed l o s) else s
  | none =>
    match evT1 z with
    | none => s
    | some t1 =>
      if !x.send || z.arrSent || z.st != .open_ || !flCovers s x (t1.t16 + x.cover) then s
      else sendArrivals l { phasors := false, evSeq := z.evSeq, stop := t1.t16 + x.cover, arrs := z.arrs }
        (s.updLine l (fun y => { y with arrSent := true }))

/-- PHASORS_SEND (R200): the fault phasors exist. An event that has closed before it goes first. -/
def phasorsSend (l : Nat) (s : State) : State :=
  let x := lineCfg s l
  let z := s.line l
  match owedMsg l true s with
  | some o => if x.valid && x.send && x.imp then sendPhasors l o (dropOwed l o s) else dropOwed l o s
  | none =>
    if !x.send || !x.imp || z.phSent || z.st != .open_ || z.fault.isNone then s
    else sendPhasors l { phasors := true, evSeq := z.evSeq, fault := z.fault } (s.updLine l (fun y => { y with phSent := true }))

/-- MESSAGE_REPEAT (R200): the next copy that is due. -/
def messageRepeat (l : Nat) (s : State) : State :=
  let z := s.line l
  match z.sends.foldl (fun (a : Option FlSend) m => match a with | none => some m | some b => some (if m.next < b.next then m else b)) none with
  | none => s
  | some m =>
    let s1 := s.waitUntil m.next
    let m1 := { m with left := m.left - 1, next := m.next + ms16 1, copy := m.copy + 1 }
    flSendCopy l m (s1.updLine l (fun y => { y with
      sends := (y.sends.map (fun o => if o = m then m1 else o)).filter (fun o => 0 < o.left) }))

/-- Checks of R201 before the line is known: the reason of the first that fails. -/
def arrHead (b : Bytes) : Option Nat :=
  let kind := be b 29 1
  let tail := if be b 28 1 % 2 = 1 then 20 else 0
  match griuzHead b [2] with
  | some r => some r
  | none =>
    if (kind = 1 ∧ b.length ≠ 40 + 24 * be b 36 1 + tail) ∨ (kind = 2 ∧ b.length ≠ 108 + tail) ∨ b.length < 40 then some 0x44
    else if !(griuzTime b 12).2.2 then some 0x45
    else if be b 28 1 / 2 % 32 ≠ 0 then some 0x46
    else if kind ≠ 1 ∧ kind ≠ 2 then some 0x4D else none
/-- Checks of R201 on the rest. -/
def arrTail (x : LineCfg) (b : Bytes) : Option Nat :=
  let kind := be b 29 1
  let n := be b 36 1
  if (kind = 1 ∧ (n = 0 ∨ n > 16)) ∨ (kind = 2 ∧ n ≠ 0) ∨ be b 37 1 ≠ b2n x.aerial then some 0x4F
  else if be b 38 2 ≠ 0 then some 0x46
  else if kind = 1 ∧ (List.range n).any (fun a =>
      !(griuzTime b (40 + 24 * a)).2.2 || be b (56 + 24 * a) 1 > 2 || !(be b (57 + 24 * a) 1 == 1 || be b (57 + 24 * a) 1 == 0xFF)) then some 0x50
  else if kind = 2 ∧ (!(griuzTime b 40).2.2 ∨ !(griuzTime b 56).2.2) then some 0x50
  else if (be b 28 1 % 2 == 1) != (x.auth != 0) then some 0x4C else none

def cxOf (b : Bytes) (i : Nat) : Cx := ⟨realFx (BitVec.ofNat 32 (be b i 4)), realFx (BitVec.ofNat 32 (be b (i + 4) 4))⟩

/-- The message that the octets carry. -/
def msgOf (b : Bytes) (rx : Nat) : ArrMsg :=
  let base : ArrMsg := { phasors := be b 29 1 == 2, evSeq := be b 32 4, sim := be b 28 1 / 128 == 1, test := be b 28 1 / 64 % 2 == 1, rx := rx }
  if base.phasors then
    { base with ph := some { tF := (griuzTime b 40).1, tPre := (griuzTime b 56).1, fq := (griuzTime b 40).2.1, pq := (griuzTime b 56).2.1,
                             v2 := cxOf b 72, i2 := cxOf b 80, dv1 := cxOf b 88, di1 := cxOf b 96, q := BitVec.ofNat 32 (be b 104 4), ok := true } }
  else
    { base with arrs := (List.range (be b 36 1)).map (fun a =>
        let t := griuzTime b (40 + 24 * a)
        { t16 := t.1, tq := t.2.1, sig := be b (56 + 24 * a) 1, pos := be b (57 + 24 * a) 1 == 1,
          amp := realFx (BitVec.ofNat 32 (be b (60 + 24 * a) 4)), q := BitVec.ofNat 32 (be b (58 + 24 * a) 2 % 2 ^ 14) }) }

/-- A message that passed its checks (R202). A PHASORS message that matches no event is discarded, and a later copy of it is a duplicate
(DESIGN CHOICE, log 92). -/
def flTake (l : Nat) (m : ArrMsg) (s : State) : State :=
  let x := lineCfg s l
  let z := s.line l
  if z.taken.contains (m.phasors, m.evSeq) then flCount s l 4
  else
    let s1 := s.updLine l (fun y => { y with taken := (m.phasors, m.evSeq) :: y.taken })
    if m.phasors then
      (if z.st == .open_ && z.matched.contains m.evSeq && z.remotePh.isNone then
        deImp l (s1.updLine l (fun y => { y with remotePh := some m }))
       else flCount s1 l 7)
    else
      let hold (a : State) : State := lineDelta l (a.updLine l (fun y => { y with held := y.held ++ [m] }))
      match z.st, evT1 z with
      | .open_, some t1 =>
        if flMatches x t1 m then flMatch l m s1 else if flNear x t1 m then hold s1 else hold (flCount s1 l 7)
      | _, _ => hold s1

/-- The tag of an authenticated message (R201). -/
def flAuth (x : LineCfg) (b : Bytes) (s : State) : State × Bool :=
  if x.auth = 0 then (s, true)
  else
    let n := b.length - 20
    let iv := octs b 6 2 ++ [0, 0] ++ octs b 8 4 ++ octs b 20 4
    if be b n 4 ≠ x.kId.toNat ∨ useStatus s x.kNode x.owner (if x.auth = 1 then 0 else 1) ≠ stDone then (s, false)
    else (takeUse s x.kNode, macIs (if x.auth = 1 then 1 else 3) (s.node x.kNode).key iv (b.take n) (octs b (n + 4) 16))

/-- An arrival message received (R201, R202). -/
def flArrivalMessage (f : IgFrame) (b : Bytes) (s : State) : State :=
  let ip := be f.o ((etherAt f.o).2 + 12) 4
  match arrHead b with
  | some r => flReason (flCount s 0 3) 0 r
  | none =>
    match (linesValid s).find? (fun l =>
        (lineCfg s l).id == be b 30 2 && (lineCfg s l).remote == be b 6 2 && (lineCfg s l).ip == ip) with
    | none => flReason (flCount s 0 3) 0 0x4E
    | some l =>
      let x := lineCfg s l
      let s0 := flCount s l 3
      match arrTail x b with
      | some r => flReason s0 l r
      | none =>
        let a := flAuth x b s0
        if a.2 then flTake l (msgOf b f.stamp.t16) a.1 else flCount (flLast a.1 l 0x52) l 5

/-- REMOTE_WAIT_EXPIRY (R202, R203): the earliest of a held message and the open event to reach its wait. -/
def remoteWait (l : Nat) (s : State) : State :=
  let x := lineCfg s l
  let z := s.line l
  let ev : Option Nat := match z.st, evT1 z, resOf z 1 with
    | .open_, some t1, none => some (t1.t16 + ms16 x.wait)
    | _, _, _ => none
  let hd : Option ArrMsg := z.held.head?
  let doEv (a : State) : State :=
    flResult l 1 { status := stNotReady, flags := 8 } (fixRef l a)
  let doHd (m : ArrMsg) (a : State) : State :=
    lineDelta l (flCount (a.updLine l (fun y => { y with held := y.held.filter (fun o => o != m) })) l 8)
  match ev, hd with
  | some e, some m => if e ≤ m.rx + ms16 x.wait then doEv (s.waitUntil e) else doHd m (s.waitUntil (m.rx + ms16 x.wait))
  | some e, none => doEv (s.waitUntil e)
  | none, some m => doHd m (s.waitUntil (m.rx + ms16 x.wait))
  | none, none => s

/-- Results of the methods that have none when the event closes. -/
def flForce (l : Nat) (s : State) : State :=
  let x := lineCfg s l
  let s1 := flResult l 1 { status := stNotReady, flags := 8 } s
  let s2 := if x.imp then flResult l 4 { status := stNotReady } s1 else s1
  let s3 := seTw l s2
  if x.imp then flResult l 3 { status := stNotReady, flags := deInvalid (s3.line l) ||| (if (s3.line l).remotePh.isNone then 8 else 0) } s3
  else s3

/-- EVENT_CLOSE (R199): the bell edge at or after t1 + CLOSE. -/
def eventClose (l : Nat) (s : State) : State :=
  let x := lineCfg s l
  let z := s.line l
  match z.st, evT1 z with
  | .open_, some t1 =>
    let k := slotCeil (t1.t16 + ms16 x.close)
    let s1 := flForce l (s.waitSlot k)
    if (s1.line l).st = .open_ then flClose l (slotT16 k) s1 else s1.updLine l (fun y => { y with closedAt := slotT16 k })
  | _, _ => s

/-- Close an open event early: a committed change at the edge of slot k, or a step (R209). The methods without a result write the
status that they have reached, and the summary carries CUT_CONFIG. -/
def flCut (l k : Nat) (s : State) : State :=
  if (s.line l).st = .open_ then
    let s1 := flForce l (s.updLine l (fun y => { y with cut := true }))
    if (s1.line l).st = .open_ then flClose l (slotT16 k) s1 else s1.updLine l (fun y => { y with closedAt := slotT16 k })
  else s

/-- A counter step closes events, restarts detectors and discards held messages (R209). Copies still to be sent are at most 1 ms away in
the new time, and no arrival of the new time lies before a close of the old. -/
def flStepped (k : Nat) (s : State) : State :=
  (s.fl.lines.keys).foldl (fun a l => (detReset l (flCut l k a)).updLine l (fun y => { y with
    held := [], closedAt := 0, sends := y.sends.map (fun m => { m with next := min m.next (now16 s + ms16 1) }) })) s

end Sys2Proof.Machine
end

