-- ==== Sys2Proof/Machine/FbeLib.lean ====
section
/-! DEFINITION. The block library's shapes (R224), program images and their checks (R215 to R221, R231). -/

namespace Sys2Proof.Machine

/-- Types of values (R219); any matches any. -/
inductive FbTy where
  | bool | int | real | any | list
  deriving DecidableEq, Repr

/-- One row of the block library: inputs, outputs, parameters, state words, cycles. -/
structure LibRow where
  ins : List FbTy
  outs : List FbTy
  npar : Nat := 0
  nst : Nat := 0
  cyc : Nat
  deriving DecidableEq, Repr

/-- n of the variants of AND_n, OR_n and KOFN_n, in code order. -/
def fbVariant (i : Nat) : Nat := ([2, 3, 4, 5, 6, 8, 12, 16] : List Nat).getD i 2
def bools (n : Nat) : List FbTy := List.replicate n .bool
def ints (n : Nat) : List FbTy := List.replicate n .int
def reals (n : Nat) : List FbTy := List.replicate n .real
def anys (n : Nat) : List FbTy := List.replicate n .any

/-- Codes 0x01 to 0x34: logic, timers, counters, comparisons. -/
def libLow (t : Nat) : Option LibRow :=
  if 1 ≤ t ∧ t ≤ 0x08 then some ⟨bools (fbVariant (t - 1)), [.bool], 0, 0, 4 + fbVariant (t - 1)⟩
  else if 0x09 ≤ t ∧ t ≤ 0x10 then some ⟨bools (fbVariant (t - 9)), [.bool], 0, 0, 4 + fbVariant (t - 9)⟩
  else if 0x11 ≤ t ∧ t ≤ 0x18 then some ⟨bools (fbVariant (t - 0x11)), [.bool], 1, 0, 6 + fbVariant (t - 0x11)⟩
  else if t = 0x19 then some ⟨bools 2, [.bool], 0, 0, 5⟩
  else if t = 0x1A then some ⟨bools 1, [.bool], 0, 0, 3⟩
  else if t = 0x1B ∨ t = 0x1C then some ⟨bools 2, [.bool], 0, 0, 5⟩
  else if 0x1D ≤ t ∧ t ≤ 0x1F then some ⟨bools 1, [.bool], 0, 1, 5⟩
  else if 0x20 ≤ t ∧ t ≤ 0x22 then some ⟨[.bool, .int], [.bool, .int], 0, 2, 10⟩
  else if t = 0x23 then some ⟨[.bool, .int, .int], [.bool], 0, 2, 10⟩
  else if t = 0x24 then some ⟨[.bool, .bool, .int], [.bool, .int], 0, 2, 10⟩
  else if t = 0x25 ∨ t = 0x26 then some ⟨[.bool, .bool, .int], [.bool, .int], 0, 1, 10⟩
  else if t = 0x27 then some ⟨[.bool, .bool, .bool, .bool, .int], [.bool, .bool, .int], 0, 1, 14⟩
  else if 0x28 ≤ t ∧ t ≤ 0x2D then some ⟨ints 2, [.bool], 0, 0, 4⟩
  else if 0x2E ≤ t ∧ t ≤ 0x33 then some ⟨reals 2, [.bool], 0, 0, 4⟩
  else if t = 0x34 then some ⟨reals 3, [.bool], 0, 0, 6⟩
  else none

/-- Codes 0x38 to 0x5C: arithmetic, selection, quality, packing. -/
def libMid (t : Nat) : Option LibRow :=
  if 0x38 ≤ t ∧ t ≤ 0x3B then some ⟨ints 2, [.int], 0, 0, 5⟩
  else if 0x3C ≤ t ∧ t ≤ 0x3F then some ⟨reals 2, [.real], 0, 0, 6⟩
  else if 0x40 ≤ t ∧ t ≤ 0x42 then some ⟨reals 1, [.real], 0, 0, 6⟩
  else if t = 0x43 ∨ t = 0x44 then some ⟨reals 2, [.real], 0, 0, 5⟩
  else if t = 0x45 then some ⟨reals 3, [.real], 0, 0, 6⟩
  else if t = 0x46 then some ⟨ints 1, [.real], 0, 0, 4⟩
  else if t = 0x47 then some ⟨reals 1, [.int], 0, 0, 4⟩
  else if t = 0x48 ∨ t = 0x49 then some ⟨reals 2, [.real], 0, 0, 12⟩
  else if t = 0x4A then some ⟨reals 1, [.real], 2, 0, 6⟩
  else if t = 0x4B then some ⟨reals 1, [.real], 1, 0, 6⟩
  else if t = 0x4C then some ⟨reals 1, [.real], 1, 0, 10⟩
  else if t = 0x4D then some ⟨reals 1, [.real], 1, 0, 8⟩
  else if t = 0x4E then some ⟨[.real, .bool], [.real], 0, 0, 8⟩
  else if t = 0x4F then some ⟨reals 1, [.real], 0, 1, 8⟩
  else if t = 0x50 then some ⟨[.bool, .any, .any], [.any], 0, 0, 4⟩
  else if t = 0x51 then some ⟨.int :: anys 4, [.any], 0, 0, 5⟩
  else if t = 0x52 then some ⟨.int :: anys 8, [.any], 0, 0, 6⟩
  else if 0x54 ≤ t ∧ t ≤ 0x56 then some ⟨anys 1, [.bool], 0, 0, 3⟩
  else if t = 0x57 ∨ t = 0x58 then some ⟨anys 2, [.any], 0, 0, 4⟩
  else if t = 0x59 then some ⟨bools 16, [.int], 0, 0, 20⟩
  else if t = 0x5A then some ⟨ints 1, bools 16, 0, 0, 20⟩
  else if t = 0x5B then some ⟨bools 2, [.int], 0, 0, 5⟩
  else if t = 0x5C then some ⟨ints 1, bools 2, 0, 0, 5⟩
  else none

/-- Codes 0x60 to 0x82: signal processing and protection; the histories of NS values are added to the state words below. -/
def libHigh (t : Nat) : Option LibRow :=
  if t = 0x60 ∨ t = 0x61 then some ⟨[.list], reals 2, 1, 2, 152⟩
  else if t = 0x62 then some ⟨[.list], reals 1, 1, 2, 152⟩
  else if t = 0x63 then some ⟨[.list], reals 2, 1, 2, 200⟩
  else if t = 0x64 then some ⟨reals 6, reals 6, 0, 0, 30⟩
  else if 0x70 ≤ t ∧ t ≤ 0x76 then some ⟨[.real, .bool], bools 2, 3, 2, 24⟩
  else if t = 0x77 then some ⟨reals 4 ++ [.bool], bools 2, 3, 0, 30⟩
  else if t = 0x78 then some ⟨reals 4 ++ [.bool], bools 2, 3, 2, 40⟩
  else if t = 0x79 then some ⟨reals 4 ++ [.bool], bools 2, 4, 2, 44⟩
  else if t = 0x7A then some ⟨reals 4 ++ [.bool], bools 2, 4, 0, 36⟩
  else if t = 0x7B then some ⟨[.bool, .real, .bool], bools 2, 3, 2, 16⟩
  else if 0x7C ≤ t ∧ t ≤ 0x80 then some ⟨[.real, .bool], bools 2, 2, 2, 14⟩
  else if t = 0x81 then some ⟨reals 6, bools 1, 3, 0, 40⟩
  else if t = 0x82 then some ⟨reals 1, bools 2, 3, 2, 20⟩
  else none

/-- The library (R224), EXPR (0x90) apart. -/
def libRow (t : Nat) : Option LibRow :=
  if t ≤ 0x34 then libLow t else if t ≤ 0x5C then libMid t else libHigh t

/-- Types that keep NS values (R224). -/
def keepsNs (t : Nat) : Bool := 0x60 ≤ t && t ≤ 0x63

/-! EXPR bytecode (R231). -/

/-- Operand bytes, pops and pushes of an opcode. -/
def exprOp (op : Nat) : Option (Nat × Nat × Nat) :=
  if 1 ≤ op ∧ op ≤ 3 then some (1, 0, 1)
  else if op = 4 then some (4, 0, 1)
  else if op = 5 ∨ op = 6 then some (1, 1, 0)
  else if op = 0x14 ∨ op = 0x15 ∨ op = 0x18 ∨ op = 0x23 then some (0, 1, 1)
  else if 0x10 ≤ op ∧ op ≤ 0x17 then some (0, 2, 1)
  else if 0x20 ≤ op ∧ op ≤ 0x25 then some (0, 2, 1)
  else if op = 0x26 then some (0, 3, 1)
  else none

/-- Check bytecode: the remaining bytes, the stack depth, the outputs stored so far; at END, each output is stored once. -/
def exprCheck (nin nout : Nat) : Nat → Bytes → Nat → List Nat → Bool
  | 0, _, _, _ => false
  | n + 1, b, depth, stored =>
    match b with
    | [] => false
    | o :: r =>
      if o.toNat = 0 then
        r.isEmpty && (List.range nout).all (fun i => (stored.filter (· == i)).length == 1)
      else
        match exprOp o.toNat with
        | none => false
        | some (len, pops, pushes) =>
          let arg := (r.headD 0).toNat
          if r.length ≤ len then false
          else if depth < pops ∨ depth - pops + pushes > 16 then false
          else if o.toNat ≤ 3 ∧ arg ≥ nin then false
          else if (o.toNat = 5 ∨ o.toNat = 6) ∧ arg ≥ nout then false
          else
            exprCheck nin nout n (r.drop len) (depth - pops + pushes)
              (if o.toNat = 5 ∨ o.toNat = 6 then arg :: stored else stored)

/-- Types of an EXPR's outputs: REAL or BOOL as its bytecode stores them. -/
def exprOuts : Nat → Bytes → List (Nat × FbTy)
  | 0, _ => []
  | n + 1, b =>
    match b with
    | [] => []
    | o :: r =>
      let rest := exprOuts n (r.drop (((exprOp o.toNat).map (fun x => x.1)).getD 0))
      if o.toNat = 5 then ((r.headD 0).toNat, .real) :: rest
      else if o.toNat = 6 then ((r.headD 0).toNat, .bool) :: rest
      else rest

/-! Records (R217). -/

def exprType : Nat := 0x90

/-- EXPR bytecode in instance data. -/
def codeOf (ws : List (BitVec 32)) (at_ n : Nat) : Bytes := (wordsBytes ((ws.drop at_).take ((n + 3) / 4))).take n

/-- A record read at a word index: the instance, its words, its cycles; none where TYPE is unknown, it runs beyond the data,
or its bytecode or a parameter is refused. -/
def fbRecord (ws : List (BitVec 32)) (at_ : Nat) : Option (FbInst × Nat × Nat) :=
  let h := ws.getD at_ 0
  let t := fld h 7 0
  let head : FbInst := { hdr := at_, id := fld h 31 16, typ := t, nocarry := bit h 9, rebase := bit h 8 }
  if t = exprType then
    let h2 := ws.getD (at_ + 1) 0
    let nin := fld h2 7 0
    let nout := fld h2 15 8
    let len := fld h2 31 16
    let code := at_ + 2 + nin + 2 * nout
    let total := 2 + nin + 2 * nout + (len + 3) / 4
    if nin < 1 ∨ nin > 16 ∨ nout < 1 ∨ nout > 4 ∨ at_ + total > ws.length then none
    else if !exprCheck nin nout (len + 1) (codeOf ws code len) 0 [] then none
    else some ({ head with
      inAt := at_ + 2, nin := nin, out := at_ + 2 + nin, nout := nout, parAt := code, stAt := code, codeAt := code,
      codeN := len }, total, 8 + 2 * len)
  else
    match libRow t with
    | none => none
    | some r =>
      let nin := r.ins.length
      let nout := r.outs.length
      let par := at_ + 1 + nin + 2 * nout
      let k := ws.getD par 0
      let nst := r.nst + (if keepsNs t then k.toNat else 0)
      let total := 1 + nin + 2 * nout + r.npar + nst
      let parOk : Bool :=
        if 0x11 ≤ t ∧ t ≤ 0x18 then 1 ≤ k.toNat && k.toNat ≤ nin
        else if keepsNs t then 8 ≤ k.toNat && k.toNat ≤ 96 && ((t != 0x60 && t != 0x61) || k.toNat % 2 == 0)
        else true
      if !parOk ∨ at_ + total > ws.length then none
      else some ({ head with
        inAt := at_ + 1, nin := nin, out := at_ + 1 + nin, nout := nout, parAt := par, npar := r.npar, stAt := par + r.npar,
        stN := nst }, total, r.cyc)

def instIns (i : FbInst) : List FbTy :=
  if i.typ = exprType then anys i.nin else ((libRow i.typ).map (·.ins)).getD []
def instOuts (ws : List (BitVec 32)) (i : FbInst) : List FbTy :=
  if i.typ = exprType then
    (let l := exprOuts (i.codeN + 1) (codeOf ws i.codeAt i.codeN)
     (List.range i.nout).map (fun n => ((l.find? (fun e => e.1 == n)).map Prod.snd).getD .any))
  else ((libRow i.typ).map (·.outs)).getD []

/-- Output value words of the instances, with their types. -/
def outWords (ws : List (BitVec 32)) (l : List FbInst) : List (Nat × FbTy) :=
  l.flatMap (fun i => (instOuts ws i).zipIdx.map (fun e => (i.out + 2 * e.2, e.1)))

/-! References (R218 to R220). -/

def refSpace (r : BitVec 32) : Nat := fld r 31 28
def refList (r : BitVec 32) : Bool := refSpace r == 1 && bit r 27
def refIndex (r : BitVec 32) : Nat :=
  match refSpace r with
  | 0 => fld r 14 0
  | 1 => fld r 10 0
  | 2 => fld r 10 0
  | 3 => fld r 12 0
  | 4 => fld r 11 0
  | 5 => fld r 8 0
  | 6 => fld r 7 0
  | _ => fld r 27 0

/-- Is a reference well formed? Bits that R218 gives no meaning must be 0 (DEDUCED). -/
def refOk (r : BitVec 32) : Bool :=
  let w := fld r 27 0
  match refSpace r with
  | 0 => w < 2 ^ 15
  | 1 => w % 2 ^ 27 < 2048
  | 2 => w < 2048
  | 3 => w < 6144
  | 4 => w < 4096
  | 5 => w % 256 < 32 && w < 512
  | 6 => w ≤ 6
  | 7 => true
  | 8 => true
  | _ => false

def tyMatch (a b : FbTy) : Bool := a == .any || b == .any || a == b

/-- The check of one input reference (R218, R219): well formed, and an INST reference names an output of its type. -/
def inputOk (outs : List (Nat × FbTy)) (want : FbTy) (r : BitVec 32) : Bool :=
  refOk r &&
  (if refSpace r = 0 then
     (match outs.find? (fun e => e.1 == refIndex r) with
      | some e => want != .list && tyMatch want e.2
      | none => false)
   else !refList r || want == .list)

def instRefs (ws : List (BitVec 32)) (i : FbInst) : List (BitVec 32) := (ws.drop i.inAt).take i.nin
def distinct (l : List Nat) : List Nat := l.foldl addRising []

/-! Images (R215, R216). -/

structure FbImage where
  cls : Nat
  cycle : Nat
  nout : Nat
  prog : FbProg
  refs : List (BitVec 32)
  deriving DecidableEq, Repr

def noOverlap : List (Nat × Nat) → Bool
  | a :: b :: r => a.2 ≤ b.1 && noOverlap (b :: r)
  | _ => true

/-- Read an image (R215 to R219, step 1 of R221); none for BAD_DESC. -/
def fbParse (b : Bytes) : Option FbImage :=
  let nstep := le b 16 2
  let nout := le b 18 2
  let ib := le b 20 4
  let so := le b 24 4
  let io := le b 28 4
  let oo := le b 32 4
  let body := b.take 60 ++ List.replicate 4 0 ++ b.drop 64
  if b.length < 64 ∨ le b 0 4 ≠ 0x46425047 ∨ le b 4 2 ≠ 1 ∨ le b 7 1 > 4 ∨ crc32c body ≠ le b 60 4 then none
  else if nstep = 0 ∨ ib % 4 ≠ 0 ∨ so + 2 * nstep > b.length ∨ io + ib > b.length ∨ oo + 4 * nout > b.length then none
  else
    let ws := bytesWords (octs b io ib)
    let heads := (List.range nstep).map (fun i => le b (so + 2 * i) 2)
    let recs := heads.map (fun h => if h < ws.length then fbRecord ws h else none)
    let l := recs.filterMap (fun r => r)
    let insts := l.map (fun r => r.1)
    let outs := outWords ws insts
    let omap := (List.range nout).map (fun i => le b (oo + 4 * i) 4)
    let spans := sortBy (fun a b => a.1 ≤ b.1) (l.map (fun r => (r.1.hdr, r.1.hdr + r.2.1)))
    if l.length ≠ nstep ∨ !noOverlap spans then none
    else if (distinct (insts.map (·.id))).length ≠ nstep then none
    else if !insts.all (fun i => ((instIns i).zip (instRefs ws i)).all (fun e => inputOk outs e.1 e.2)) then none
    else if !omap.all (fun w => outs.any (fun e => e.1 == w)) then none
    else some {
      cls := le b 6 1, cycle := le b 7 1, nout := nout, refs := insts.flatMap (instRefs ws),
      prog := { prot := le b 6 1 == 1, cycle := le b 7 1, pid := BitVec.ofNat 32 (le b 8 4), rev := BitVec.ofNat 32 (le b 12 4),
                insts := insts, outMap := omap, idata := ws,
                cyc := 40 + (l.map (fun r => r.2.2)).foldl (· + ·) 0 + 2 * nout } }

/-- Slots of a program's cycle. -/
def FbProg.n (x : FbProg) : Nat := 2 ^ x.cycle

/-- Does partition p own what a reference names in croft c (R20, R221)? -/
def refOwned (s : State) (p c : Nat) (r : BitVec 32) : Bool :=
  match refSpace r with
  | 1 => ceOwner s c (refIndex r) == p
  | 2 => ceOwner s c (refIndex r) == p
  | 3 => pointOwner s c (refIndex r) == p
  | 4 => let x := ste s (refIndex r); x.croft == c && x.owner == p
  | 5 => (grpCfg s (256 * c + refIndex r % 32)).owner == p
  | _ => true

/-- The capacities of R220. -/
def refsFit (l : List (BitVec 32)) : Bool :=
  (distinct ((l.filter (fun r => refSpace r == 1 || refSpace r == 2)).map refIndex)).length ≤ 512 &&
  (distinct ((l.filter refList).map refIndex)).length ≤ 64 &&
  (distinct ((l.filter (fun r => 3 ≤ refSpace r && refSpace r ≤ 5)).map (fun r => refSpace r * 65536 + refIndex r % 8192 %
    (if refSpace r = 5 then 32 else 8192)))).length ≤ 2048

/-- FB_LOAD's status (R221), step 5 apart. -/
def loadStatus (s : State) (p h : Nat) (img : Option Bytes) : Nat × Option FbProg :=
  match img.bind fbParse with
  | none => (stBadDesc, none)
  | some x =>
    let cls := partClass s p
    if hearthOwner s h ≠ p ∨ (cls ≠ 1 ∧ cls ≠ 2) ∨ x.cls > 1 ∨ (x.cls = 1) ≠ (cls = 1) then (stNotPermitted, none)
    else if !x.refs.all (refOwned s p (h / 4)) then (stNotPermitted, none)
    else if x.prog.idata.length * 4 > 98304 ∨ x.prog.insts.length > 8192 ∨ x.nout > 1024 ∨ !refsFit x.refs then (stExceeds, none)
    else if x.prog.cyc > 90000 * x.prog.n then (stRefusedFull, none)
    else (stDone, some x.prog)

/-! Instances carried by an exchange (R238). -/

/-- The old instance that a new one continues, with its place in program order. -/
def carriedFrom (old : List FbInst) (i : FbInst) : Option (FbInst × Nat) :=
  old.zipIdx.find? (fun o => o.1.id == i.id && o.1.typ == i.typ && !i.nocarry &&
    (i.typ != exprType || (o.1.nin == i.nin && o.1.nout == i.nout)))
def carryCount (old : Option FbProg) (new : FbProg) : Nat :=
  match old with
  | none => 0
  | some o => (new.insts.filter (fun i => (carriedFrom o.insts i).isSome)).length

end Sys2Proof.Machine
end

