-- ==== Sys2Proof/Machine/FbeEval.lean ====
section
/-! DEFINITION. The functions of the block library (R222, R224 to R231). A result that the chapter does not state is a free value
(log 9); how sums and products inside one block are rounded is this model's choice (log 20). -/

namespace Sys2Proof.Machine

/-- What one input reads: the value word, its quality, whether it came from CHAN (R219), and the values of a list (one value where the reference is no list). -/
structure FbIn where
  v : BitVec 32 := 0
  q : BitVec 32 := 0
  chan : Bool := false
  list : List (BitVec 32 × BitVec 32) := []
  deriving DecidableEq, Repr

def FbIn.b (x : FbIn) : Bool := x.v != 0
def FbIn.i (x : FbIn) : Int := x.v.toInt
/-- Read by a REAL input: an INT32 of CHAN is converted (R219). -/
def FbIn.r (x : FbIn) : FV := if x.chan then FV.ofInt f32 x.v.toInt else real x.v

abbrev FbOut := List (BitVec 32 × BitVec 32)

/-- Everything a block's function may use: slots per cycle, inputs, parameters, its outputs of the scan before, and a key that
makes its free values its own. -/
structure FbCtx where
  n : Nat
  ins : List FbIn
  pars : List (BitVec 32)
  prev : FbOut
  key : Nat
  deriving DecidableEq, Repr

namespace FbCtx
def x (c : FbCtx) (i : Nat) : FbIn := c.ins.getD i {}
def p (c : FbCtx) (i : Nat) : BitVec 32 := c.pars.getD i 0
def pr (c : FbCtx) (i : Nat) : FV := real (c.p i)
def pi (c : FbCtx) (i : Nat) : Int := (c.p i).toInt
/-- Quality merged from all inputs (R222). -/
def q (c : FbCtx) : BitVec 32 := mergeQ (c.ins.map (·.q))
def old (c : FbCtx) (i : Nat) : BitVec 32 := (c.prev.getD i (0, 0)).1
def free (c : FbCtx) (i : Nat) : BitVec 32 := Config.free32 c.key i
def freeB (c : FbCtx) (i : Nat) : Bool := Config.freeNat c.key i % 2 == 1
end FbCtx

def boolW (b : Bool) : BitVec 32 := if b then 1 else 0
/-- Invalid with DETAIL overflow (R222). -/
def qBad (q : BitVec 32) : BitVec 32 := toInvalid q ||| qOverflow
def realOut (x : FV) (q : BitVec 32) : BitVec 32 × BitVec 32 := (x.word, if x.finite then q else qBad q)
def intOut (i : Int) (q : BitVec 32) : BitVec 32 × BitVec 32 := (word (satN 32 i), if satN 32 i = i then q else qBad q)

/-! Logic and latches. -/

def countTrue (l : List FbIn) : Nat := (l.filter FbIn.b).length

/-- Codes 0x01 to 0x1C: no state but the output. -/
def fbLogic (t : Nat) (c : FbCtx) : Bool :=
  if t ≤ 0x08 then c.ins.all FbIn.b
  else if t ≤ 0x10 then c.ins.any FbIn.b
  else if t ≤ 0x18 then decide ((c.p 0).toNat ≤ countTrue c.ins)
  else if t = 0x19 then (c.x 0).b != (c.x 1).b
  else if t = 0x1A then !(c.x 0).b
  else if t = 0x1B then (c.x 0).b || (!(c.x 1).b && c.old 0 != 0)
  else !(c.x 1).b && ((c.x 0).b || c.old 0 != 0)

/-- Edge detectors (R228); PREV is flag f. -/
def fbEdge (t : Nat) (c : FbCtx) (z : FbSt) : Bool × FbSt :=
  let clk := (c.x 0).b
  let prev := if z.started then z.f else clk
  (if t = 0x1D then clk && !prev else if t = 0x1E then !clk && prev else clk != prev, { z with f := clk })

/-! Timers (R226): E is e, the timing flag f, Q or the held state g; TP and TPD keep IN in e2. -/

def fbReached (e p : Int) : Bool := decide (e * 625 ≥ max p 0 * 3)
def fbET (e : Int) : Int := min (e * 625 / 3) (2 ^ 31 - 1)
def fbAdd (e : Int) (n : Nat) : Int := min (e + n) (2 ^ 31 - 1)

def fbTon (c : FbCtx) (z : FbSt) : Bool × Int × FbSt :=
  let e := if (c.x 0).b && z.f then fbAdd z.e c.n else 0
  ((c.x 0).b && fbReached e (c.x 1).i, fbET e, { z with e := e, f := (c.x 0).b })

def fbTof (c : FbCtx) (z : FbSt) : Bool × Int × FbSt :=
  if (c.x 0).b then (true, 0, { z with e := 0, f := false, g := true })
  else if !z.g then (false, fbET z.e, z)
  else
    let e := if z.f then fbAdd z.e c.n else 0
    if fbReached e (c.x 1).i then (false, fbET e, { z with e := e, f := false, g := false })
    else (true, fbET e, { z with e := e, f := true })

def fbTp (c : FbCtx) (z : FbSt) : Bool × Int × FbSt :=
  let inp := (c.x 0).b
  let pt := (c.x 1).i
  let prev := if z.started then z.e2 == 1 else inp
  let e1 := if z.f then fbAdd z.e c.n else z.e
  let fell := z.f && fbReached e1 pt
  let start := !z.f && !z.g && inp && !prev && decide (pt > 0)
  let f := (z.f && !fell) || start
  let held := (z.g || fell) && inp
  let e2 : Int := if start || ((z.g || fell) && !inp) then 0 else e1
  (f, if held then min (max pt 0) (2 ^ 31 - 1) else fbET e2,
   { z with e := e2, f := f, g := held, e2 := if inp then 1 else 0 })

def fbTpd (c : FbCtx) (z : FbSt) : Bool × FbSt :=
  let inp := (c.x 0).b
  let e := if z.started && (z.e2 == 1) == inp then fbAdd z.e c.n else 0
  let q := if inp && fbReached e (c.x 1).i then true else if !inp && fbReached e (c.x 2).i then false else z.g
  (q, { z with e := e, g := q, e2 := if inp then 1 else 0 })

def fbAcc (c : FbCtx) (z : FbSt) : Bool × Int × FbSt :=
  let e := if (c.x 1).b then 0 else if (c.x 0).b then fbAdd z.e c.n else z.e
  (fbReached e (c.x 2).i, fbET e, { z with e := e })

/-! Counters (R227): CV is e; the previous inputs are f and g. The CV output is given before it saturates (R222). -/

def fbCounter (t : Nat) (c : FbCtx) (z : FbSt) : List (Bool ⊕ Int) × FbSt :=
  let a := (c.x 0).b
  let up := z.started && a && !z.f
  if t = 0x25 then
    let cv := if (c.x 1).b then 0 else if up then z.e + 1 else z.e
    ([.inl (decide (satN 32 cv ≥ (c.x 2).i)), .inr cv], { z with e := satN 32 cv, f := a })
  else if t = 0x26 then
    let cv := if (c.x 1).b then (c.x 2).i else if up then z.e - 1 else z.e
    ([.inl (decide (satN 32 cv ≤ 0)), .inr cv], { z with e := satN 32 cv, f := a })
  else
    let d := (c.x 1).b
    let down := z.started && d && !z.g
    let cv := if (c.x 2).b then 0 else if (c.x 3).b then (c.x 4).i
      else if up && !down then z.e + 1 else if down && !up then z.e - 1 else z.e
    ([.inl (decide (satN 32 cv ≥ (c.x 4).i)), .inl (decide (satN 32 cv ≤ 0)), .inr cv], { z with e := satN 32 cv, f := a, g := d })

/-! Comparisons and arithmetic. -/

def fbCmpI (op : Nat) (a b : Int) : Bool :=
  match op with
  | 0 => decide (a > b) | 1 => decide (a ≥ b) | 2 => decide (a = b) | 3 => decide (a ≠ b) | 4 => decide (a ≤ b)
  | _ => decide (a < b)
/-- NaN gives false (R224). -/
def fbCmpF (op : Nat) (a b : FV) : Bool :=
  match op with
  | 0 => FV.lt b a | 1 => FV.le b a | 2 => FV.eq a b | 3 => FV.lt a b || FV.lt b a | 4 => FV.le a b | _ => FV.lt a b

def fbHys (c : FbCtx) : Bool :=
  let hi := FV.le (c.x 1).r (c.x 0).r
  let lo := FV.lt (c.x 0).r (c.x 2).r
  if hi && lo then c.freeB 0 else if hi then true else if lo then false else c.old 0 != 0

/-- ADD_I to DIV_I; the quotient by 0 is open. -/
def fbArithI (op : Nat) (c : FbCtx) : BitVec 32 × BitVec 32 :=
  let a := (c.x 0).i
  let b := (c.x 1).i
  match op with
  | 0 => intOut (a + b) c.q
  | 1 => intOut (a - b) c.q
  | 2 => intOut (a * b) c.q
  | _ => if b = 0 then (c.free 0, qBad c.q) else intOut (Int.tdiv a b) c.q

def FV.minMax (mx : Bool) (a b : FV) : FV :=
  if a == .nan || b == .nan then .nan else if FV.lt a b then (if mx then b else a) else if FV.lt b a then (if mx then a else b) else a

/-- Magnitude of two REALs, rounded once. -/
def FV.hyp (a b : FV) : FV :=
  match a, b with
  | .nan, _ => .nan
  | _, .nan => .nan
  | .fin _ m, .fin _ n =>
    let x := (m * m + n * n) * 2 ^ 128
    let r := isqrt x
    FV.round f32 false (2 * r + (if r * r = x then 0 else 1)) (2 ^ 214)
  | _, _ => .inf false

/-- Cycle time in µs and in s, as a binary64 (R225). -/
def tcUs (n : Nat) : FV := FV.ofRat f64 (Int.ofNat (n * 625)) 3
def tcS (n : Nat) : FV := FV.ofRat f64 (Int.ofNat (n * 625)) 3000000
def add64 (a b : FV) : FV := FV.add f64 a b
def sub64 (a b : FV) : FV := FV.sub f64 a b
def mul64 (a b : FV) : FV := FV.mul f64 a b
def div64 (a b : FV) : FV := FV.div f64 a b

/-- Codes 0x3C to 0x4E: REAL results without state but the output. -/
def fbReal (t : Nat) (c : FbCtx) : BitVec 32 × BitVec 32 :=
  let a := (c.x 0).r
  let b := (c.x 1).r
  let y := real (c.old 0)
  let o (v : FV) := realOut v c.q
  match t with
  | 0x3C => o (FV.add f32 a b)
  | 0x3D => o (FV.sub f32 a b)
  | 0x3E => o (FV.mul f32 a b)
  | 0x3F => (let r := o (FV.div f32 a b); if FV.eq b FV.zero then (r.1, qBad c.q) else r)
  | 0x40 => o a.abs
  | 0x41 => o a.neg
  | 0x42 => o (FV.sqrt f32 a)
  | 0x43 => o (FV.minMax false a b)
  | 0x44 => o (FV.minMax true a b)
  | 0x45 =>
    let mx := (c.x 2).r
    if FV.lt mx b then (c.free 0, c.q) else o (FV.minMax false (FV.minMax true a b) mx)
  | 0x46 => o (FV.ofInt f32 (c.x 0).i)
  | 0x48 => o (FV.hyp a b)
  | 0x49 =>
    if !(a.finite && b.finite) then (if a == .nan || b == .nan then o .nan else (c.free 0, c.q))
    else if a.num = 0 ∧ b.num = 0 then (c.free 0, c.q)
    else o (FV.ofFx f32 (fxAtan2 b.num a.num))
  | 0x4A => o (FV.add f32 (FV.mul f32 (c.pr 0) a) (c.pr 1))
  | 0x4B => o (if FV.lt (c.pr 0) (FV.sub f32 a y).abs then a else y)
  | 0x4C =>
    let tc := tcUs c.n
    o (add64 y.widen (div64 (mul64 (sub64 a.widen y.widen) tc) (add64 (FV.ofInt f64 (c.pi 0)) tc))).narrow
  | 0x4D =>
    let d := mul64 (c.pr 0).widen (tcS c.n)
    let up := (add64 y.widen d).narrow
    let dn := (sub64 y.widen d).narrow
    o (if FV.lt y a then FV.minMax false a up else FV.minMax true a dn)
  | _ => if (c.x 1).b then (FV.zero.word, c.q) else o (add64 y.widen (mul64 a.widen (tcS c.n))).narrow

/-- FTOI: an out-of-range value saturates; a NaN's result is open. -/
def fbFtoi (c : FbCtx) : BitVec 32 × BitVec 32 :=
  match (c.x 0).r with
  | .nan => (c.free 0, qBad c.q)
  | .inf n => intOut (if n then -(2 ^ 32) else 2 ^ 32) c.q
  | .fin n m => intOut (roundEven (FV.fin n m).num (2 ^ 149)) c.q

/-- DERIV_F: without a previous X the value is open and old (R36). The previous X is the first of prev. -/
def fbDeriv (c : FbCtx) (z : FbSt) : BitVec 32 × BitVec 32 :=
  if z.started then realOut (div64 (sub64 (c.x 0).r.widen (real (z.prev.headD 0)).widen) (tcS c.n)).narrow c.q
  else (c.free 0, worsen c.q ||| qOldData)

def fbMux (n : Nat) (c : FbCtx) : BitVec 32 × BitVec 32 :=
  if 0 ≤ (c.x 0).i ∧ (c.x 0).i < n then ((c.x (1 + (c.x 0).i.toNat)).v, c.q) else (c.free 0, toInvalid c.q)

/-- Quality blocks (R222, R224): Q's quality is good with X's TEST; a quality that passes carries invalid in place of 0b10 (R95). -/
def fbQual (t : Nat) (c : FbCtx) : BitVec 32 × BitVec 32 :=
  let q := (c.x 0).q
  let test := (mergeQ (c.ins.map (·.q))) &&& qTest
  match t with
  | 0x54 => (boolW (qGood q), q &&& qTest)
  | 0x55 => (boolW (q &&& qTest != 0), q &&& qTest)
  | 0x56 => (boolW (q &&& qLost != 0), q &&& qTest)
  | 0x57 => if qGood q then ((c.x 0).v, q ||| test) else ((c.x 1).v, mergeQ [(c.x 1).q] ||| qSubst ||| test)
  | _ => if qGood q || !qGood (c.x 1).q then ((c.x 0).v, mergeQ [q] ||| test) else ((c.x 1).v, (c.x 1).q ||| test)

/-! Signal processing (R225): hist holds the values taken, newest first, hq their qualities, e their number since history
started. -/

def fbTake (c : FbCtx) (z : FbSt) : FbSt :=
  let ns := (c.p 0).toNat
  let l := (c.x 0).list
  { z with
    hist := (l.reverse.map (fun v => v.1.toInt) ++ z.hist).take ns
    hq := (l.reverse.map Prod.snd ++ z.hq).take ns
    e := min (z.e + l.length) (2 ^ 31) }

def fbDft (vs : List Int) (ns h : Nat) : Cx :=
  (vs.zipIdx.map (fun e => Cx.smul (fxOfInt e.1) (Cx.turn (-(fxOfRat (Int.ofNat (h * e.2)) ns))))).foldl Cx.add {}
def fxSqrt2 : Int := fxSqrt (fxOfInt 2)

/-- Quality of a window of w values (R222, R225). -/
def fbWinQ (c : FbCtx) (z : FbSt) (w : Nat) : BitVec 32 :=
  let q := mergeQ ((c.x 0).q :: z.hq.take w)
  if z.e < w then worsen q ||| qOldData else q

def fbSignal (t : Nat) (c : FbCtx) (z0 : FbSt) : FbOut × FbSt :=
  let z := fbTake c z0
  let ns := (c.p 0).toNat
  let w := if t = 0x61 then ns / 2 else ns
  let q := fbWinQ c z w
  let vs := z.hist.take w
  let o (v : Int) := realOut (FV.ofFx f32 v) q
  if t = 0x60 ∨ t = 0x61 then
    let d := Cx.smul (fxSqrt2 / (max w 1 : Nat)) (fbDft vs ns 1)
    ([o d.re, o d.im], z)
  else if t = 0x62 then
    let sq := (vs.map (fun v => v * v)).foldl (· + ·) 0
    ([o (fxSqrt (fxOfRat sq (max ns 1)))], z)
  else
    let d1 := (fbDft vs ns 1).abs
    let h (n : Nat) := if d1 = 0 then (c.free n, qBad q) else o (fxDiv (fbDft vs ns n).abs d1)
    ([h 2, h 5], z)

/-- A complex input, none where a part is not finite. -/
def fbCx (c : FbCtx) (i : Nat) : Option Cx :=
  let a := (c.x i).r
  let b := (c.x (i + 1)).r
  if a.finite && b.finite then some ⟨a.fx f32, b.fx f32⟩ else none

/-- SEQ: zero, positive and negative sequence (R224). -/
def fbSeq (c : FbCtx) : FbOut :=
  match fbCx c 0, fbCx c 2, fbCx c 4 with
  | some a, some b, some d =>
    let u := Cx.turn (fxOfRat 1 3)
    let v := Cx.turn (fxOfRat 2 3)
    let th (z : Cx) : FbOut := [realOut (FV.ofFx f32 (z.re / 3)) c.q, realOut (FV.ofFx f32 (z.im / 3)) c.q]
    th (a.add (b.add d)) ++ th (a.add ((u.mul b).add (v.mul d))) ++ th (a.add ((v.mul b).add (u.mul d)))
  | _, _, _ => List.replicate 6 (realOut .nan c.q)

/-! Protection (R229, R230): e counts the slots of the delay, f the timing flag, g START. -/

/-- A delay counted from the first scan on which its condition holds: E where it holds. -/
def fbDelay (on : Bool) (n : Nat) (z : FbSt) : FbSt :=
  { z with e := if on && z.f then fbAdd z.e n else 0, f := on }
def fbAfter (z : FbSt) (p : Int) : Bool := z.f && fbReached z.e p

/-- Curve constants of R230: k, the power as a fraction, c; over 10,000. -/
def fbCurve : Nat → Nat × (Nat × Nat) × Nat
  | 0x71 => (1400, (2, 100), 0)
  | 0x72 => (135000, (1, 1), 0)
  | 0x73 => (800000, (2, 1), 0)
  | 0x74 => (515, (2, 100), 1140)
  | 0x75 => (196100, (2, 1), 4910)
  | _ => (282000, (2, 1), 1217)

/-- N / (4,800 × t(G)), as a binary64 (R230): negative where t(G) is, 0 where t(G) has no end, open where it is 0. -/
def fbOcStep (t : Nat) (g tms : FV) (c : FbCtx) : FV :=
  let k := fbCurve t
  let gg := match g with
    | .inf _ => fxOfInt 20
    | x => min (x.fx f64) (fxOfInt 20)
  let den := fxPow gg k.2.1.1 k.2.1.2 - fxOne
  if den = 0 then FV.zero
  else
    let u := fxDiv (fxOfRat k.1 10000) den + fxOfRat k.2.2 10000
    match tms with
    | .nan => .nan
    | .inf _ => if u = 0 then .nan else FV.zero
    | x =>
      let tt := fxMul (x.fx f32) u
      if tt = 0 then FV.ofBits f64 (Config.freeNat c.key 7 % 2 ^ 64) else FV.ofFx f64 (fxDiv (fxOfRat (Int.ofNat c.n) 4800) tt)

def fbOc (t : Nat) (c : FbCtx) (z : FbSt) : List Bool × FbSt :=
  let g := div64 (c.x 0).r.widen (c.pr 0).widen
  let ge (num den : Nat) : Bool := match g with
    | .nan => false
    | .inf n => !n
    | x => x.num * den ≥ num * 2 ^ 1074
  let start := if z.g then ge 95 100 else ge 1 1
  let z1 := fbDelay start c.n { z with g := start }
  let acc := if !start then FV.zero else if t = 0x70 then z.acc else add64 z.acc (fbOcStep t g (c.pr 1) c)
  let z2 := { z1 with acc := acc }
  ([start, if t = 0x70 then fbAfter z2 (c.pi 2) else FV.le (FV.ofInt f64 1) acc && fbAfter z2 (c.pi 2)], z2)

/-- cot of an angle in radians; none where its sine is 0. -/
def fxCot (a : Int) : Option Int :=
  let t := fxDiv a (2 * fxPi)
  let sn := fxSinTurn t
  if sn = 0 then none else some (fxDiv (fxCosTurn t) sn)

/-- The start condition of DIR (forward, reverse), MHO, QUAD and DIFF_L; open where an input or parameter is not a finite number
or I is 0. -/
def fbDir (c : FbCtx) : List Bool :=
  match fbCx c 0, fbCx c 2, decide ((c.pr 0).finite ∧ (c.pr 1).finite ∧ (c.pr 2).finite) with
  | some v, some i, true =>
    let m := ((i.mul v.conj).mul (Cx.turn (-(fxDiv ((c.pr 0).fx f32) (2 * fxPi))))).re
    let ok := decide (v.abs ≥ (c.pr 1).fx f32) && decide (i.abs ≥ (c.pr 2).fx f32)
    [ok && decide (m > 0), ok && decide (m < 0)]
  | _, _, _ => [c.freeB 0, c.freeB 1]
def fbZ (c : FbCtx) : Option Cx :=
  match fbCx c 0, fbCx c 2 with
  | some v, some i => v.div i
  | _, _ => none
def fbMho (c : FbCtx) : Bool :=
  match fbZ c, decide ((c.pr 0).finite ∧ (c.pr 1).finite) with
  | some z, true =>
    let r : Cx := ⟨(c.pr 0).fx f32 / 2, (c.pr 1).fx f32 / 2⟩
    decide ((z.sub r).abs ≤ r.abs)
  | _, _ => c.freeB 0
def fbQuad (c : FbCtx) : Bool :=
  match fbZ c, fxCot ((c.pr 2).fx f32), decide ((c.pr 0).finite ∧ (c.pr 1).finite ∧ (c.pr 2).finite) with
  | some z, some ct, true =>
    let x := (c.pr 1).fx f32
    decide (-x / 10 ≤ z.im) && decide (z.im ≤ x) && decide (Int.ofNat (z.re - fxMul z.im ct).natAbs ≤ (c.pr 0).fx f32)
  | _, _, _ => c.freeB 0
def fbDiff (c : FbCtx) : Bool :=
  match fbCx c 0, fbCx c 2, decide ((c.pr 0).finite ∧ (c.pr 1).finite ∧ (c.pr 2).finite ∧ (c.pr 3).finite) with
  | some a, some b, true =>
    let id := (a.add b).abs
    let ir := (a.abs + b.abs) / 2
    let br := (c.pr 3).fx f32
    let lim := if ir ≤ br then fxMul ((c.pr 1).fx f32) ir
      else fxMul ((c.pr 1).fx f32) br + fxMul ((c.pr 2).fx f32) (ir - br)
    decide (id ≥ (c.pr 0).fx f32) && decide (id ≥ lim)
  | _, _, _ => c.freeB 0

/-- UV, OV, UF, OF, ROCOF: x against num / (den · 2^149). -/
def fvLtRat (x : FV) (num : Int) (den : Nat) : Bool :=
  match x with
  | .nan => false
  | .inf n => n
  | y => y.num * den < num
def fvGtRat (x : FV) (num : Int) (den : Nat) : Bool :=
  match x with
  | .nan => false
  | .inf n => !n
  | y => y.num * den > num
def fbLevel (t : Nat) (c : FbCtx) (z : FbSt) : Bool :=
  let set := c.pr 0
  let x := if t = 0x80 then (c.x 0).r.abs else (c.x 0).r
  let n := set.num
  let d : Int := if !z.g then 0 else if t = 0x7C ∨ t = 0x7D then 2 * n.natAbs else if t = 0x80 then 5 * n else 2 * 2 ^ 149
  if !set.finite then c.freeB 0
  else if t = 0x7C ∨ t = 0x7E then fvLtRat x (100 * n + d) 100
  else fvGtRat x (100 * n - d) 100

def fbSynck (c : FbCtx) : Bool :=
  match fbCx c 0, fbCx c 2, decide ((c.pr 0).finite ∧ (c.pr 1).finite ∧ (c.pr 2).finite ∧ (c.x 4).r.finite ∧ (c.x 5).r.finite) with
  | some a, some b, true =>
    let d : Int := (a.arg - b.arg).natAbs
    let w := if d > fxPi then 2 * fxPi - d else d
    let angle := if a.abs = 0 ∨ b.abs = 0 then c.freeB 0 else decide (w ≤ (c.pr 1).fx f32)
    decide (Int.ofNat (a.abs - b.abs).natAbs ≤ (c.pr 0).fx f32) && angle
      && decide (Int.ofNat ((c.x 4).r.fx f32 - (c.x 5).r.fx f32).natAbs ≤ (c.pr 2).fx f32)
  | _, _, _ => c.freeB 0

/-- THERM: θ in binary64, with TAU in s (R229). -/
def fbTherm (c : FbCtx) (z : FbSt) : List Bool × FbSt :=
  let r := div64 (c.x 0).r.widen (c.pr 0).widen
  let th := add64 z.acc (mul64 (div64 (tcS c.n) (c.pr 1).widen) (sub64 (mul64 r r) z.acc))
  ([FV.le (c.pr 2).widen th, FV.le (FV.ofInt f64 1) th], { z with acc := th })

/-- The block input of an element, by place. -/
def fbBlk (t : Nat) : Option Nat :=
  if 0x70 ≤ t ∧ t ≤ 0x76 then some 1 else if 0x77 ≤ t ∧ t ≤ 0x7A then some 4 else if 0x7C ≤ t ∧ t ≤ 0x80 then some 1 else none

/-- One protection element without its blocking: outputs and state. -/
def fbElement (t : Nat) (c : FbCtx) (z : FbSt) : List Bool × FbSt :=
  let timed (start : Bool) (td : Int) : List Bool × FbSt :=
    let z1 := fbDelay start c.n { z with g := start }
    ([start, fbAfter z1 td], z1)
  if t ≤ 0x76 then fbOc t c z
  else if t = 0x77 then (fbDir c, z)
  else if t = 0x78 then timed (fbMho c) (c.pi 2)
  else if t = 0x79 then timed (fbQuad c) (c.pi 3)
  else if t = 0x7A then ([fbDiff c, fbDiff c], z)
  else if t = 0x7B then
    let z1 := fbDelay ((c.x 0).b && (FV.le (c.pr 0) (c.x 1).r || (c.x 2).b)) c.n z
    ([fbAfter z1 (c.pi 1), fbAfter z1 (c.pi 2)], z1)
  else if t ≤ 0x80 then timed (fbLevel t c z) (c.pi 1)
  else if t = 0x81 then ([fbSynck c], z)
  else fbTherm c z

/-- A protection element (R229): blocked or fed by an invalid input, its outputs are false and its timing is reset; θ stays. -/
def fbProt (t : Nat) (c : FbCtx) (z : FbSt) : FbOut × FbSt :=
  let bad := c.ins.any (fun x => qInvalid x.q)
  let blk := match fbBlk t with
    | some i => (c.x i).b
    | none => false
  let test := c.q &&& qTest
  if bad || blk then
    (List.replicate (if t = 0x81 then 1 else 2) (0, (if bad then toInvalid 0 else 0) ||| test),
     if t = 0x82 then z else { z with e := 0, f := false, g := false, acc := FV.zero })
  else (let r := fbElement t c z; (r.1.map (fun b => (boolW b, c.q)), r.2))

/-! EXPR (R231). A result that is not finite, or a division by zero, marks what is formed from it (R222). -/

structure ExprSt where
  stack : List (FV × Bool) := []
  outs : List (Nat × BitVec 32 × Bool) := []
  deriving DecidableEq, Repr

def exprBin (op : Nat) (a b : FV) : FV :=
  let t (x : Bool) : FV := if x then FV.ofInt f32 1 else FV.zero
  match op with
  | 0x10 => FV.add f32 a b
  | 0x11 => FV.sub f32 a b
  | 0x12 => FV.mul f32 a b
  | 0x13 => FV.div f32 a b
  | 0x16 => FV.minMax false a b
  | 0x17 => FV.minMax true a b
  | 0x20 => t (FV.lt a b)
  | 0x21 => t (FV.le a b)
  | 0x22 => t (FV.eq a b)
  | 0x24 => t (!FV.eq a FV.zero && !FV.eq b FV.zero)
  | _ => t (!FV.eq a FV.zero || !FV.eq b FV.zero)
def exprUn (op : Nat) (a : FV) : FV :=
  match op with
  | 0x14 => a.neg
  | 0x15 => a.abs
  | 0x18 => FV.sqrt f32 a
  | _ => if FV.eq a FV.zero then FV.ofInt f32 1 else FV.zero

/-- One opcode with its operand bytes. -/
def exprStep (c : FbCtx) (op : Nat) (arg : Bytes) (z : ExprSt) : ExprSt :=
  let i := (arg.headD 0).toNat
  let push (v : FV) (bad : Bool) (r : List (FV × Bool)) : ExprSt := { z with stack := (v, bad) :: r }
  if op = 1 then push (c.x i).r false z.stack
  else if op = 2 then push (if (c.x i).b then FV.ofInt f32 1 else FV.zero) false z.stack
  else if op = 3 then push (FV.ofInt f32 (c.x i).i) false z.stack
  else if op = 4 then push (FV.ofBits f32 (leNat arg)) false z.stack
  else
    match z.stack with
    | [] => z
    | (a, ba) :: r =>
      if op = 5 then { stack := r, outs := (i, a.word, ba) :: z.outs }
      else if op = 6 then { stack := r, outs := (i, boolW (!FV.eq a FV.zero), ba) :: z.outs }
      else if op = 0x14 ∨ op = 0x15 ∨ op = 0x18 ∨ op = 0x23 then
        push (exprUn op a) (ba || !(exprUn op a).finite) r
      else
        match r with
        | [] => z
        | (b, bb) :: r2 =>
          if op = 0x26 then
            match r2 with
            | [] => z
            | (d, bd) :: r3 => if !FV.eq a FV.zero then push d (bd || ba) r3 else push b (bb || ba) r3
          else
            let v := exprBin op b a
            push v (ba || bb || !v.finite || (op == 0x13 && FV.eq a FV.zero)) r2

def exprRun (c : FbCtx) : Nat → Bytes → ExprSt → ExprSt
  | 0, _, z => z
  | n + 1, b, z =>
    match b with
    | [] => z
    | o :: r =>
      if o.toNat = 0 then z
      else
        let len := ((exprOp o.toNat).map (fun x => x.1)).getD 0
        exprRun c n (r.drop len) (exprStep c o.toNat (r.take len) z)

/-- Outputs of an EXPR; an output that its bytecode does not store is open (only an FB_POKE of the bytecode leaves one). -/
def fbExpr (nout : Nat) (code : Bytes) (c : FbCtx) : FbOut :=
  let z := exprRun c (code.length + 1) code {}
  (List.range nout).map (fun i =>
    match z.outs.find? (fun e => e.1 == i) with
    | some e => (e.2.1, if e.2.2 then qBad c.q else c.q)
    | none => (c.free i, c.q))

/-! One instance. -/

def bOut (b : Bool) (c : FbCtx) : BitVec 32 × BitVec 32 := (boolW b, c.q)
def iOut (i : Int) (c : FbCtx) : BitVec 32 × BitVec 32 := (word i, c.q)

/-- Run one instance of a type: outputs and state. -/
def fbRun (t nout : Nat) (code : Bytes) (c : FbCtx) (z : FbSt) : FbOut × FbSt :=
  let r : FbOut × FbSt :=
    if t = exprType then (fbExpr nout code c, z)
    else if t ≤ 0x1C then ([bOut (fbLogic t c) c], z)
    else if t ≤ 0x1F then (let y := fbEdge t c z; ([bOut y.1 c], y.2))
    else if t = 0x20 then (let y := fbTon c z; ([bOut y.1 c, iOut y.2.1 c], y.2.2))
    else if t = 0x21 then (let y := fbTof c z; ([bOut y.1 c, iOut y.2.1 c], y.2.2))
    else if t = 0x22 then (let y := fbTp c z; ([bOut y.1 c, iOut y.2.1 c], y.2.2))
    else if t = 0x23 then (let y := fbTpd c z; ([bOut y.1 c], y.2))
    else if t = 0x24 then (let y := fbAcc c z; ([bOut y.1 c, iOut y.2.1 c], y.2.2))
    else if t ≤ 0x27 then
      (let y := fbCounter t c z
       (y.1.map (fun e => match e with | .inl b => bOut b c | .inr i => intOut i c.q), y.2))
    else if t ≤ 0x2D then ([bOut (fbCmpI (t - 0x28) (c.x 0).i (c.x 1).i) c], z)
    else if t ≤ 0x33 then ([bOut (fbCmpF (t - 0x2E) (c.x 0).r (c.x 1).r) c], z)
    else if t = 0x34 then ([bOut (fbHys c) c], z)
    else if t ≤ 0x3B then ([fbArithI (t - 0x38) c], z)
    else if t = 0x47 then ([fbFtoi c], z)
    else if t ≤ 0x4E then ([fbReal t c], z)
    else if t = 0x4F then ([fbDeriv c z], { z with prev := [(c.x 0).r.word] })
    else if t = 0x50 then ([(if (c.x 0).b then (c.x 2).v else (c.x 1).v, c.q)], z)
    else if t = 0x51 then ([fbMux 4 c], z)
    else if t = 0x52 then ([fbMux 8 c], z)
    else if t ≤ 0x58 then ([fbQual t c], z)
    else if t = 0x59 then
      ([(BitVec.ofNat 32 ((c.ins.zipIdx.map (fun e => if e.1.b then 2 ^ e.2 else 0)).foldl (· + ·) 0), c.q)], z)
    else if t = 0x5A then ((List.range 16).map (fun i => bOut (bit (c.x 0).v i) c), z)
    else if t = 0x5B then ([(boolW (c.x 0).b + 2 * boolW (c.x 1).b, c.q)], z)
    else if t = 0x5C then ([bOut (bit (c.x 0).v 0) c, bOut (bit (c.x 0).v 1) c], z)
    else if t ≤ 0x63 then fbSignal t c z
    else if t = 0x64 then (fbSeq c, z)
    else fbProt t c z
  (r.1, { r.2 with started := true })

end Sys2Proof.Machine
end

