-- ==== Sys2Proof/Machine/Fbe.lean ====
section
/-! DEFINITION. The function-block engines: snapshot, scan and output set (R211 to R214, R216, R218, R223), commands, test mode
and forces (R232 to R236), exchange (R237 to R240), and the FBE descriptors (R221, R241). -/

namespace Sys2Proof.Machine

def State.fbe (s : State) (h : Nat) : FbRt := Tbl.get {} s.fb.fbes h
def State.updFbe (s : State) (h : Nat) (f : FbRt → FbRt) : State := { s with fb.fbes := Tbl.upd {} s.fb.fbes h f }

def FbRt.bank (x : FbRt) (i : Nat) : Option FbProg := if i = 0 then x.bank0 else x.bank1
/-- The program that runs, none in an empty hearth. -/
def FbRt.prog (x : FbRt) : Option FbProg := if x.mode = .none then none else x.bank x.act
def putBank (i : Nat) (v : Option FbProg) (x : FbRt) : FbRt := if i = 0 then { x with bank0 := v } else { x with bank1 := v }

/-- Does any hearth hold a program that runs (R55)? -/
def anyProgram (s : State) : Bool := s.fb.fbes.any (fun e => e.2.mode != .none)
/-- Front TEST indicator (R236): 0 dark, 1 lit, 2 flashing at 2 Hz. -/
def testIndicator (s : State) : Nat := if forcedTotal s ≠ 0 then 2 else if anyTest s then 1 else 0

/-! The snapshot (R212, R218 to R220, R223). -/

/-- A reference without its LIST bit, as a force names it. -/
def refBare (r : BitVec 32) : BitVec 32 := if refSpace r = 1 then r &&& 0xF7FFFFFF else r
def forceOf (x : FbRt) (r : BitVec 32) : Option (BitVec 32) := (x.forces.find? (fun f => f.target == refBare r)).map (·.value)
def qForced : BitVec 32 := qTest ||| qSubst

/-- Threshold state and its quality (R127). -/
def thrOf (s : State) (c ce : Nat) : BitVec 32 × BitVec 32 :=
  let z := s.chain c ce
  if (placerOf s c ce).isNone then (0, 1)
  else if !tapOn s c ce then (0, toInvalid qOldData)
  else (boolW z.above, if z.thSet then z.thQ else if z.outs = 0 then toInvalid qOldData else (tapOf s c ce).q)

/-- The sample list of a LIST reference (R220): the outputs of the cycle that starts at slot cs, oldest first, at most 16. -/
def listOf (s : State) (c ce cs n : Nat) : List (BitVec 32 × BitVec 32) × BitVec 32 :=
  let l := (s.chain c ce).recent.filter (fun o => cs ≤ o.slot && o.slot < cs + n)
  let q := match l with
    | o :: _ => o.q
    | [] => (tapOf s c ce).q
  (((l.take 16).reverse).map (fun o => (word o.v, o.q)), if l.length > 16 then q ||| qInconsistent else q)

/-- FREQ or ROCOF of the group's latest report that is available at the bell edge (R26, R218); none: open and old. -/
def phgOf (s : State) (c i bell : Nat) : BitVec 32 × BitVec 32 :=
  match (s.grp (256 * c + i % 32)).reps.find? (fun r => r.close + 2 ≤ bell) with
  | some r => (if i < 256 then r.freq else r.rocof, r.fq)
  | none => (Config.free32 (0x810000 + 256 * c + i) bell, setValidity qOldData 3)

/-- SYS items (R218). -/
def sysItem (s : State) (x : FbRt) (bell i : Nat) : BitVec 32 :=
  let q := (edgeQuality s bell).toNat
  match i with
  | 0 => boolW x.first
  | 1 => boolW x.test
  | 2 => BitVec.ofNat 32 (q % 2)
  | 3 => BitVec.ofNat 32 (q / 256 % 16)
  | 4 => boolW (s.pr.role == .active)
  | 5 => BitVec.ofNat 32 x.scans
  | 6 => BitVec.ofNat 32 x.forces.length
  | _ => 0

/-- What a reference reads in the scan of the cycle that starts at slot cs, at bell edge `bell`; a malformed reference, which only
FB_POKE can leave, reads an open value. -/
def fbRead (s : State) (h : Nat) (x : FbRt) (cs n bell : Nat) (ws : List (BitVec 32)) (r : BitVec 32) : FbIn :=
  let c := h / 4
  let i := refIndex r
  let one (v : BitVec 32 × BitVec 32) (chan : Bool) : FbIn := { v := v.1, q := v.2, chan := chan, list := [v] }
  if refSpace r = 0 then one (ws.getD i 0, ws.getD (i + 1) 0) false
  else if refSpace r = 7 then one (BitVec.ofInt 32 (signed 28 (fld r 27 0)), 0) false
  else if refSpace r = 8 then one (BitVec.ofNat 32 (fld r 27 0 * 16), 0) false
  else if refSpace r = 6 then one (sysItem s x bell i, 0) false
  else if refSpace r > 8 then one (Config.free32 (0x820000 + h) r.toNat, 1) false
  else
    match forceOf x r with
    | some v =>
      let l := if refList r then (listOf s c i cs n).1.map (fun _ => (v, qForced)) else [(v, qForced)]
      { v := v, q := qForced, chan := refSpace r == 1, list := l }
    | none =>
      if refList r then (let l := listOf s c i cs n; { v := word (tapOf s c i).v, q := l.2, chan := true, list := l.1 })
      else if refSpace r = 1 then one (word (tapOf s c i).v, (tapOf s c i).q) true
      else if refSpace r = 2 then one (thrOf s c i) false
      else if refSpace r = 3 then one (s.point c i) false
      else if refSpace r = 4 then one (boolW (streamUp s i), 0) false
      else one (phgOf s c i bell) false

/-! The scan (R211). -/

def setWords : List (BitVec 32) → Nat → List (BitVec 32) → List (BitVec 32)
  | l, _, [] => l
  | l, i, v :: r => setWords (setNth l i v) (i + 1) r

/-- The output words of an instance. -/
def outsOf (ws : List (BitVec 32)) (i : FbInst) : FbOut :=
  (List.range i.nout).map (fun k => (ws.getD (i.out + 2 * k) 0, ws.getD (i.out + 2 * k + 1) 0))

/-- Run the instances in program order over instance data and states. -/
def fbScanGo (rd : List (BitVec 32) → BitVec 32 → FbIn) (n key : Nat) :
    List (FbInst × Nat) → List (BitVec 32) × Tbl FbSt → List (BitVec 32) × Tbl FbSt
  | [], a => a
  | (i, k) :: r, a =>
    let ws := a.1
    let c : FbCtx := {
      n := n, ins := (instRefs ws i).map (rd ws), pars := (ws.drop i.parAt).take i.npar, prev := outsOf ws i, key := key + k }
    let y := fbRun i.typ i.nout (codeOf ws i.codeAt i.codeN) c (Tbl.get {} a.2 k)
    fbScanGo rd n key r (setWords ws i.out (y.1.flatMap (fun e => [e.1, e.2])), Tbl.set {} a.2 k y.2)

/-- The output set of instance data (R216), with output forces and test mode (R234, R235). -/
def outSet (p : FbProg) (ws : List (BitVec 32)) (x : FbRt) : List (Nat × BitVec 32 × BitVec 32) :=
  p.outMap.zipIdx.map (fun e =>
    match forceOf x (BitVec.ofNat 32 (0xF0000000 + e.2)) with
    | some v => (e.2, v, qForced)
    | none => (e.2, ws.getD e.1 0, ws.getD (e.1 + 1) 0 ||| (if x.test then qTest else 0)))

/-- Dropped points on their last hand-off (R240): the flags of the last value, a force's among them (R236), stand beside invalid
and oldData. -/
def droppedSet (h : Nat) (s : State) : List (Nat × BitVec 32 × BitVec 32) :=
  (s.fbe h).dropped.map (fun d =>
    (d.1, d.2, toInvalid (Tbl.get {} s.pb.pts (1024 * h + d.1)).q ||| qOldData ||| (if (s.fbe h).test then qTest else 0)))

/-- Hand an output set on: it reaches the publisher at HAND_OFF. -/
def giveSet (h cs j n : Nat) (scan : Bool) (outs : List (Nat × BitVec 32 × BitVec 32)) (s : State) : State :=
  s.updFbe h (fun x => { x with
    handing := some { bell := j, cycle := cs, n := n, q := edgeQuality s j, outs := outs ++ droppedSet h s, scan := scan }
    dropped := [] })

/-- The scan of the cycle that starts at slot cs, at bell edge j. -/
def fbScan (h cs j : Nat) (p : FbProg) (s : State) : State :=
  let x := s.fbe h
  let r := fbScanGo (fbRead s h x cs p.n j) p.n ((0x1000000 + 64 * j + h) * 8192) p.insts.zipIdx (x.words, x.sts)
  let outs := outSet p r.1 x
  giveSet h cs j p.n true outs (s.updFbe h (fun y => { y with
    words := r.1, sts := r.2, first := false, scans := (y.scans + 1) % 2 ^ 32, last := outs }))

/-- The last output set again (R232): invalid at a STOP, questionable in HOLD, and old. -/
def fbHeld (h cs j : Nat) (p : FbProg) (stop : Bool) (s : State) : State :=
  let x := s.fbe h
  let base := if x.last.isEmpty then outSet p x.words x else x.last
  giveSet h cs j p.n false (base.map (fun o =>
    (o.1, o.2.1, setValidity o.2.2 (if stop then 1 else 3) ||| qOldData ||| (if x.test then qTest else 0)))) s

/-! History and commands. -/

/-- History starts from the image (R232, R243): the publisher's held points of the hearth start anew. -/
def fbRestart (h : Nat) (s : State) : State :=
  match (s.fbe h).prog with
  | none => s
  | some p =>
    { s with pb.pts := s.pb.pts.filter (fun e => e.1 / 1024 != h) }.updFbe h (fun x => { x with
      words := p.idata, sts := [], first := true, scans := 0, last := [], dropped := [] })

/-- A command's effect at the cycle where it acts (R232 to R234): state, whether it performs STOP or STEP, and its status. -/
def fbApply (h : Nat) (k : FbCmdKind) (s : State) : State × Nat :=
  let x := s.fbe h
  match k with
  | .run => ((if x.mode = .stop then fbRestart h s else s).updFbe h (fun y => { y with mode := .run }), stDone)
  | .stop => (s.updFbe h (fun y => { y with mode := .stop }), stDone)
  | .hold => (s.updFbe h (fun y => { y with mode := .hold }), stDone)
  | .step => (s, if x.mode = .hold then stDone else stNotReady)
  | .testOn => (raiseFlag (s.updFbe h (fun y => { y with test := true })) 15, stDone)
  | .testOff => (s.updFbe h (fun y => { y with test := false, forces := [] }), stDone)

/-- Apply the waiting commands whose first cycle this is, in order; whether a STEP acted. -/
def fbCommands (h : Nat) : List FbCmd → State × Bool → State × Bool
  | [], a => a
  | m :: r, a =>
    let y := fbApply h m.kind a.1
    fbCommands h r (finishKey y.1 m.key m.flight y.2, a.2 || (m.kind == .step && y.2 == stDone))

/-- The cycle that starts at slot cs comes to its bell edge j. -/
def fbCycle (h cs j : Nat) (s : State) : State :=
  let due := (s.fbe h).cmds.filter (fun m => m.slot ≤ cs)
  let was := (s.fbe h).mode
  let s1 := s.updFbe h (fun x => { x with cmds := x.cmds.filter (fun m => cs < m.slot) })
  let a := fbCommands h due (s1, false)
  let x := a.1.fbe h
  match x.prog, x.mode with
  | some p, .run => fbScan h cs j p a.1
  | some p, .hold => if a.2 then fbScan h cs j p a.1 else fbHeld h cs j p false a.1
  | some p, .stop => if was = .stop then a.1 else fbHeld h cs j p true a.1
  | _, _ => a.1

/-! The exchange (R237 to R240). -/

/-- First slot past the old program's last cycle, for an exchange committed at slot m. -/
def oldEnd (x : FbRt) (m : Nat) : Nat :=
  match x.prog with
  | some p => ceilDiv m p.n * p.n
  | none => m
/-- First slot of the new program's first cycle. -/
def newStart (x : FbRt) (m : Nat) : Nat :=
  match x.bank (1 - x.act) with
  | some p => ceilDiv (oldEnd x m) p.n * p.n
  | none => oldEnd x m

/-- Types whose state words an exchange carries (R239): edge detectors, timers, counters, those with histories, DERIV_F, THERM
and the protection elements. -/
def carriesState (t : Nat) : Bool :=
  (0x1D ≤ t && t ≤ 0x27) || t == 0x4F || keepsNs t || (0x70 ≤ t && t ≤ 0x76) || t == 0x78 || t == 0x79 ||
  (0x7B ≤ t && t ≤ 0x80) || t == 0x82

/-- State of a carried instance in the new program. -/
def carriedState (ows nws : List (BitVec 32)) (o i : FbInst) (z : FbSt) : FbSt :=
  if !carriesState i.typ then { started := z.started }
  else if keepsNs i.typ then
    (if ows.getD o.parAt 0 = nws.getD i.parAt 0 ∧ ows.getD o.inAt 0 = nws.getD i.inAt 0 then z else {})
  else if i.typ ≤ 0x1F ∧ i.rebase then { z with started := false }
  else z

/-- Carry the old instances into the new data (R238). -/
def carryGo (old : List FbInst) (ows : List (BitVec 32)) (osts : Tbl FbSt) :
    List (FbInst × Nat) → List (BitVec 32) × Tbl FbSt × Nat → List (BitVec 32) × Tbl FbSt × Nat
  | [], a => a
  | (i, k) :: r, a =>
    match carriedFrom old i with
    | some (o, ok) =>
      carryGo old ows osts r
        (setWords a.1 i.out ((outsOf ows o).flatMap (fun e => [e.1, e.2])),
         Tbl.set {} a.2.1 k (carriedState ows a.1 o i (Tbl.get {} osts ok)), a.2.2 + 1)
    | none =>
      carryGo old ows osts r
        (setWords a.1 i.out ((outsOf a.1 i).flatMap (fun e => [e.1, toInvalid e.2 ||| qOldData])), a.2.1, a.2.2)

/-- The exchange itself: the bank changes, instances are carried or start without history. -/
def fbExchange (h : Nat) (s : State) : State :=
  let x := s.fbe h
  match x.xchg, x.bank (1 - x.act) with
  | some m, some np =>
    let from_ := max x.from_ (newStart x m)
    match x.prog with
    | none =>
      fbRestart h (s.updFbe h (fun y => { y with
        act := 1 - y.act, mode := .run, xchg := none, from_ := from_, carried := 0, fresh := np.insts.length }))
    | some op =>
      let r := carryGo op.insts x.words x.sts np.insts.zipIdx (np.idata, [], 0)
      let test := x.test && op.prot == np.prot
      let gone := (List.range op.outMap.length).filter (fun p => np.outMap.length ≤ p)
      let held (p : Nat) : BitVec 32 := (Tbl.get {} s.pb.pts (1024 * h + p)).v
      let forces := if op.prot != np.prot then [] else
        x.forces.filter (fun f => refSpace f.target != 0xF || fld f.target 9 0 < np.outMap.length)
      s.updFbe h (fun y => { y with
        act := 1 - y.act, words := r.1, sts := r.2.1, first := false, test := test, forces := forces, xchg := none
        from_ := from_, carried := r.2.2, fresh := np.insts.length - r.2.2
        dropped := y.dropped.filter (fun d => np.outMap.length ≤ d.1) ++ gone.map (fun p => (p, held p))
        last := if y.last.isEmpty then [] else (outSet np r.1 { y with forces := [], test := false }).map (fun o =>
          ((y.last.find? (fun e => e.1 == o.1)).getD o)) })
  | _, _ => s

/-- PROGRAM_EXCHANGE (R237): after the old program's last hand-off. -/
def programExchange (h : Nat) (s : State) : State :=
  let x := s.fbe h
  match x.xchg with
  | some m =>
    if x.handing.isNone && slotCounter m ≤ s.tb.counter &&
        (x.prog.isNone || oldEnd x m ≤ Tbl.get 0 s.ig.closed (h / 4) + 1) then fbExchange h s else s
  | none => s

/-! The bell (R64, R211). -/

/-- The latest cycle that ends in one of the slots closed, with whether it is the new program's. -/
def dueCycle (x : FbRt) : List Nat → Option (Nat × Bool) → Option (Nat × Bool)
  | [], a => a
  | k :: r, a =>
    let old : Option (Nat × Bool) := match x.prog with
      | some p =>
        let before : Bool := match x.xchg with
          | some m => decide (k + 1 - p.n < m)
          | none => true
        if (k + 1) % p.n = 0 ∧ p.n ≤ k + 1 ∧ before then some (k + 1 - p.n, false) else a
      | none => a
    let new : Option (Nat × Bool) := match x.xchg, x.bank (1 - x.act) with
      | some m, some p => if (k + 1) % p.n = 0 ∧ newStart x m + p.n ≤ k + 1 then some (k + 1 - p.n, true) else old
      | _, _ => old
    dueCycle x r new

/-- May the hearth's engine scan: its partition runs and no reset of its scope is at work? -/
def fbServed (s : State) (h : Nat) : Bool :=
  (s.part (hearthOwner s h)).state == .running && !inResetOf s h &&
  !s.pt.resets.any (fun x => x.draining && x.scope == .fbe h)

/-- One hearth at a bell edge j that closed the slots ks (FBE_SCAN). -/
def fbBell (h j : Nat) (ks : List Nat) (s : State) : State :=
  let x := s.fbe h
  match dueCycle x ks none with
  | none => s
  | some (cs, new) =>
    if cs < x.from_ ∨ !fbServed s h ∨ x.handing.isSome then s
    else fbCycle h cs j (if new then fbExchange h s else s)

/-- Instant at which a set has been handed off: the bell edge, exactly CYC cycles at 600 MHz of a scan, and the snapshot and the
hand-off, together an open time within 5 µs (R213, R26; log 26). -/
def handInstant (s : State) (h : Nat) (x : HandSet) : Nat :=
  let cyc := match (s.fbe h).prog with
    | some p => if x.scan then p.cyc else 0
    | none => 0
  slotT16 x.bell + cyc * 5 * 65536 / 3 + Config.freeNat (0x830000 + h) x.bell % us16 5

/-- Reset (R296, R297): history from the shadow copy; commands in flight end ABORTED; a running scan is dropped, and a hand-off
begun, within its bound of 3 µs, completes. -/
def fbReset (h : Nat) (s : State) : State :=
  let x := s.fbe h
  let begun : Bool := match x.handing with
    | some y => handInstant s h y ≤ now16 s + us16 3
    | none => false
  let s1 := x.cmds.foldl (fun a m => finishKey a m.key m.flight stAborted) s
  let s2 := x.loads.foldl (fun a m => finishKey a m.key m.flight stAborted) s1
  let s3 := s2.updFbe h (fun y => { y with
    cmds := [], loads := [], test := false, forces := [], handing := if begun then y.handing else none, from_ := slotCeil (now16 s) })
  let s4 := match x.xchg, x.bank (1 - x.act) with
    | some m, some _ => s3.updFbe h (fun y => { y with
        act := 1 - y.act, xchg := none, from_ := max y.from_ (newStart x m), mode := if y.mode = .none then .run else y.mode })
    | _, _ => s3
  let s5 := if partClass s (hearthOwner s h) = 1 then s4.updFbe h (fun y => { y with mode := if y.mode = .none then .none else .run }) else s4
  fbRestart h s5

/-- A reassigned hearth loses its program banks (R286). -/
def fbClear (h : Nat) (s : State) : State :=
  (fbReset h s).updFbe h (fun y => { act := y.act, from_ := y.from_, scans := 0 })

/-! Descriptors (R241). -/

def fbHearth (ws : List (BitVec 32)) : Nat := fld (dw ws 0) 21 16
def fbMask0 : BitVec 32 := 0x3F0000

/-- End a descriptor and, on a pair, send it in the delta (R414). -/
def fbEnd (p r : Nat) (f : Flight) (status : Nat) (s : State) : State :=
  deltaSend (.fbe (64 * p + r) (fbHearth f.words) f.words none) status (finish s p r f.id status)

def loadOk (ws : List (BitVec 32)) : Bool := reservedOk ws fbMask0 [(2, 0xFFFFFFFF), (3, 0xFFFF), (4, 0xFFFFFFFF)]

/-- FB_LOAD with its image: an accepted load waits for its copy, on a pair for the standby's acknowledgement. -/
def fbLoadWith (p key id : Nat) (ws : List (BitVec 32)) (img : Option Bytes) (s : State) : State × Nat :=
  let h := fbHearth ws
  let x := s.fbe h
  if !loadOk ws then (s, stBadDesc)
  else
    match loadStatus s p h img with
    | (st, some prog) =>
      if x.xchg.isSome then (s, stNotReady)
      else (s.updFbe h (fun y => { y with
        loads := y.loads ++ [{ bank := 1 - y.act, prog := prog, key := key, flight := id, acked := !mateSynced s }] }), st)
    | (st, none) => (s, st)

def fbLoadAct (p r : Nat) (s : State) (f : Flight) : State :=
  let h := fbHearth f.words
  if isStandby s then finish s p r f.id (if loadOk f.words then stNotPermitted else stBadDesc)
  else
    let img := devRead s p (addr48 f.words 2) (dw f.words 4).toNat
    let x := fbLoadWith p (64 * p + r) f.id f.words img s
    let y := if img.isNone && loadOk f.words then x.1.winFault p else x.1
    let s1 := if x.2 = stDone then (if mateSynced s then mateSend x.1 (.image h) else x.1) else finish y p r f.id x.2
    deltaSend (.fbe (64 * p + r) h f.words img) x.2 s1

/-- FB_LOAD_COMPLETE (R221): the inactive bank is replaced; CYC in word 4, the instances an exchange would carry in word 5. -/
def fbLoadComplete (h : Nat) (s : State) : State :=
  let x := s.fbe h
  match x.loads with
  | [] => s
  | l :: r =>
    if !l.acked && mateSynced s then s
    else
      let s1 := s.updFbe h (fun y => { y with loads := r })
      if x.xchg.isSome ∨ (l.bank = x.act ∧ x.mode ≠ .none) then finishKey s1 l.key l.flight stNotReady
      else
        completeKey (s1.updFbe h (putBank l.bank (some l.prog))) l.key l.flight {
          status := stDone, stamp := some (stampNow s)
          flags := b2n (resetNow s (fun c => c == .hearth h || c == .fbe h))
          words := [(4, BitVec.ofNat 32 l.prog.cyc), (5, BitVec.ofNat 32 (carryCount x.prog l.prog))] }

/-- IMAGE_ACKNOWLEDGED (R414). -/
def imageAcknowledged (h : Nat) (s : State) : State :=
  s.updFbe h (fun y =>
    match indexOf (fun l => !l.acked) y.loads with
    | some i => { y with loads := y.loads.zipIdx.map (fun e => if e.2 = i then { e.1 with acked := true } else e.1) }
    | none => y)

def fbCmdKind (ws : List (BitVec 32)) : Option FbCmdKind :=
  match fld (dw ws 2) 3 0 with
  | 1 => some .run | 2 => some .stop | 3 => some .hold | 4 => some .step | 5 => some .testOn | 6 => some .testOff | _ => none

/-- First slot that begins after this instant. -/
def nextSlotOf (s : State) : Nat := slotOf (now16 s) + 1

/-- The status that refuses an FB_CMD at its fetch (R232, R233, R241). -/
def cmdStatus (p h : Nat) (k : FbCmdKind) (s : State) : Nat :=
  let x := s.fbe h
  let own := hearthOwner s h
  let prot := partClass s own == 1
  let stopped := x.mode == .stop || x.cmds.any (fun m => m.kind == .stop)
  if own ≠ p ∧ !(p = 0 ∧ prot ∧ (k = .run ∨ k = .stop)) then stNotPermitted
  else if prot && (k == .hold || k == .step || (k == .stop && p != 0) || (k == .run && p != 0 && stopped)) then stNotPermitted
  else if x.prog.isNone && x.xchg.isNone then stNotReady
  else stDone

def fbCmdWith (p key id : Nat) (ws : List (BitVec 32)) (s : State) : State × Nat :=
  let h := fbHearth ws
  match reservedOk ws fbMask0 [(2, 0xF)], fbCmdKind ws with
  | true, some k =>
    let st := cmdStatus p h k s
    if st = stDone then
      (s.updFbe h (fun y => { y with cmds := y.cmds ++ [{ kind := k, key := key, flight := id, slot := nextSlotOf s }] }), st)
    else (s, st)
  | _, _ => (s, stBadDesc)

/-- Status of a descriptor on the standby's own rings (R414). -/
def standbyStatus (bad : Bool) : Nat := if bad then stBadDesc else stNotPermitted

/-- FB_CMD (R232 to R234): it writes back when it takes effect. -/
def fbCmdAct (p r : Nat) (s : State) (f : Flight) : State :=
  let x := fbCmdWith p (64 * p + r) f.id f.words s
  if isStandby s then finish s p r f.id (standbyStatus (x.2 == stBadDesc))
  else if x.2 = stDone then deltaSend (.fbe (64 * p + r) (fbHearth f.words) f.words none) x.2 x.1
  else fbEnd p r f x.2 s

def forceTargetOk (r : BitVec 32) : Bool :=
  if refSpace r = 0xF then fld r 27 0 < 1024 else 1 ≤ refSpace r && refSpace r ≤ 5 && refOk r

/-- FB_FORCE, set or released (R235). -/
def fbForceWith (p : Nat) (ws : List (BitVec 32)) (s : State) : State × Nat :=
  let h := fbHearth ws
  let x := s.fbe h
  let t := refBare (dw ws 2)
  if !reservedOk ws fbMask0 [(2, 0xFFFFFFFF), (3, 0xFFFFFFFF), (4, 1)] ∨ !forceTargetOk (dw ws 2) then (s, stBadDesc)
  else if hearthOwner s h ≠ p ∨ partClass s p ≠ 1 ∨ !x.test then (s, stNotPermitted)
  else if bit (dw ws 4) 0 then
    (s.updFbe h (fun y => { y with forces := y.forces.filter (fun f => f.target != t) }), stDone)
  else if x.forces.any (fun f => f.target == t) then
    (s.updFbe h (fun y => { y with
      forces := y.forces.map (fun f => if f.target = t then { f with value := dw ws 3, at_ := s.tb.edge } else f) }), stDone)
  else if x.forces.length ≥ 64 then (s, stRefusedFull)
  else (raiseFlag (s.updFbe h (fun y => { y with forces := y.forces ++ [{ target := t, value := dw ws 3, at_ := s.tb.edge }] })) 14, stDone)

def fbForceAct (p r : Nat) (s : State) (f : Flight) : State :=
  let x := fbForceWith p f.words s
  if isStandby s then finish s p r f.id (standbyStatus (x.2 == stBadDesc)) else fbEnd p r f x.2 x.1

/-- The instance whose state words hold a word, with its place. -/
def stateAt (p : FbProg) (w : Nat) : Option Nat := indexOf (fun i => i.stAt ≤ w && w < i.stAt + i.stN) p.insts

/-- Are the fields well formed, and do the words lie in the hearth's data (R241)? -/
def peekForm (ws : List (BitVec 32)) (poke : Bool) : Bool :=
  reservedOk ws fbMask0 ([(2, 0x7FFF), (3, 0xF)] ++ (if poke then (List.range 8).map (fun i => (8 + i, 0xFFFFFFFF)) else [])) &&
  1 ≤ (dw ws 3).toNat && (dw ws 3).toNat ≤ 8
def peekOk (ws : List (BitVec 32)) (x : FbRt) : Bool := (dw ws 2).toNat + (dw ws 3).toNat ≤ x.words.length

/-- FB_PEEK (R241): state words read open values (log 6). -/
def fbPeekAct (p r : Nat) (s : State) (f : Flight) : State :=
  let h := fbHearth f.words
  let x := s.fbe h
  let w := (dw f.words 2).toNat
  let n := (dw f.words 3).toNat
  if !peekForm f.words false then finish s p r f.id stBadDesc
  else if hearthOwner s h ≠ p then finish s p r f.id stNotPermitted
  else if !peekOk f.words x then finish s p r f.id stBadDesc
  else
    let d := s.draw
    let val (i : Nat) : BitVec 32 :=
      match x.prog.bind (fun g => stateAt g i) with
      | some _ => Config.stateWord h i d.1
      | none => x.words.getD i 0
    -- The words past COUNT in place of a time word are open (log 6).
    let past (i : Nat) : List (Nat × BitVec 32) := if n > 4 ∧ 4 ≤ i then [(8 + i, Config.free32 (0x840000 + i) d.1)] else []
    complete d.2 p r f.id { status := stDone, words := (List.range 8).flatMap (fun i => if i < n then [(8 + i, val (w + i))] else past i),
                            stamp := if n > 4 then none else some (stampNow s) }

/-- FB_POKE's writes: a state word written leaves its instance's state open (log 6). -/
def pokeGo (g : Option FbProg) (draw : Nat) : List (Nat × BitVec 32) → FbRt → FbRt
  | [], x => x
  | (w, v) :: r, x =>
    match g.bind (fun p => stateAt p w) with
    | some k =>
      pokeGo g draw r { x with sts := Tbl.upd {} x.sts k (fun z => {
        started := Config.pokedState w v (8 * draw) % 2 == 1, e := Config.pokedState w v (8 * draw + 1)
        e2 := Config.pokedState w v (8 * draw + 2), f := Config.pokedState w v (8 * draw + 3) % 2 == 1
        g := Config.pokedState w v (8 * draw + 4) % 2 == 1
        prev := z.prev.map (fun _ => BitVec.ofInt 32 (Config.pokedState w v (8 * draw + 5)))
        hist := z.hist.map (fun h => Config.pokedState w v (8 * draw + 6) + h), hq := z.hq
        acc := FV.ofBits f64 (Config.pokedState w v (8 * draw + 7)).natAbs }) }
    | none => pokeGo g draw r { x with words := setNth x.words w v }

def fbPokeWith (p : Nat) (ws : List (BitVec 32)) (s : State) : State × Nat :=
  let h := fbHearth ws
  let x := s.fbe h
  let w := (dw ws 2).toNat
  if !peekForm ws true then (s, stBadDesc)
  else if hearthOwner s h ≠ p ∨ partClass s p = 1 then (s, stNotPermitted)
  else if !peekOk ws x then (s, stBadDesc)
  else if x.mode ≠ .hold ∧ x.mode ≠ .stop then (s, stNotReady)
  else
    let d := s.draw
    (d.2.updFbe h (pokeGo x.prog d.1 ((List.range (dw ws 3).toNat).map (fun i => (w + i, dw ws (8 + i))))), stDone)

def fbPokeAct (p r : Nat) (s : State) (f : Flight) : State :=
  let x := fbPokeWith p f.words s
  if isStandby s then finish s p r f.id (standbyStatus (x.2 == stBadDesc)) else fbEnd p r f x.2 x.1

end Sys2Proof.Machine
end

