-- ==== Sys2Proof/Machine/Publish.lean ====
section
/-! DEFINITION. The publisher (chapter 09): held points, evaluation of control blocks, frames and their numbering, derived
sampled-value streams, and the checks of their entries. -/

namespace Sys2Proof.Machine

/-! Entries (R245, R258). -/

structure GcbCfg where
  valid : Bool
  sim : Bool
  fixlen : Bool
  owner : Nat
  croft : Nat
  ports : Nat
  appid : Nat
  t0 : Nat
  t1 : Nat
  hdrAt : Nat
  hdrLen : Nat
  idAt : Nat
  idLen : Nat
  confRev : Nat
  mapAt : Nat
  nmem : Nat
  auth : Nat
  key : SignKey
  deriving DecidableEq, Repr

def keySlot (w v : BitVec 32) : SignKey := { valid := bit w 31, node := fld w 11 0, keyId := v }
def gcbOf (w : Nat → BitVec 32) : GcbCfg :=
  { valid := bit (w 0) 31, sim := bit (w 0) 30, fixlen := bit (w 0) 29, owner := fld (w 0) 28 24, croft := fld (w 0) 23 20,
    ports := fld (w 0) 19 16, appid := fld (w 0) 15 0, t0 := fld (w 1) 31 16, t1 := fld (w 1) 15 0,
    hdrAt := (w 2).toNat + fld (w 3) 15 0 * 2 ^ 32, hdrLen := fld (w 3) 31 24,
    idAt := (w 4).toNat + fld (w 5) 15 0 * 2 ^ 32, idLen := fld (w 5) 31 16, confRev := (w 6).toNat,
    mapAt := (w 7).toNat + fld (w 8) 15 0 * 2 ^ 32, nmem := fld (w 8) 31 24, auth := fld (w 8) 23 22,
    key := if bit (w 8) 21 then keySlot (w 11) (w 12) else keySlot (w 9) (w 10) }
def gcbCfg (s : State) (g : Nat) : GcbCfg := gcbOf (fun i => s.cfg (0x70040 + 4 * i) g)
def gcbValid (s : State) : List Nat := (listedSel s 0x70040).filter (fun g => bit (s.cfg 0x70040 g) 31)
def State.gcb (s : State) (g : Nat) : GcbRt := Tbl.get {} s.pb.gcbs g
def State.updGcb (s : State) (g : Nat) (f : GcbRt → GcbRt) : State := { s with pb.gcbs := Tbl.upd {} s.pb.gcbs g f }

structure DsvCfg where
  valid : Bool
  sim : Bool
  owner : Nat
  croft : Nat
  ports : Nat
  appid : Nat
  rate : Nat
  noAsdu : Nat
  nch : Nat
  auth : Nat
  hdrAt : Nat
  hdrLen : Nat
  idAt : Nat
  idLen : Nat
  confRev : Nat
  mapAt : Nat
  key : SignKey
  deriving DecidableEq, Repr

def dsvOf (w : Nat → BitVec 32) : DsvCfg :=
  { valid := bit (w 0) 31, sim := bit (w 0) 30, owner := fld (w 0) 28 24, croft := fld (w 0) 23 20, ports := fld (w 0) 19 16,
    appid := fld (w 0) 15 0, rate := fld (w 1) 31 30, noAsdu := fld (w 1) 27 24, nch := fld (w 1) 23 16, auth := fld (w 1) 15 14,
    hdrAt := (w 2).toNat + fld (w 3) 15 0 * 2 ^ 32, hdrLen := fld (w 3) 31 24,
    idAt := (w 4).toNat + fld (w 5) 15 0 * 2 ^ 32, idLen := fld (w 5) 31 16, confRev := (w 6).toNat,
    mapAt := (w 7).toNat + fld (w 8) 15 0 * 2 ^ 32,
    key := if bit (w 1) 13 then keySlot (w 11) (w 12) else keySlot (w 9) (w 10) }
def dsvCfg (s : State) (n : Nat) : DsvCfg := dsvOf (fun i => s.cfg (0x70140 + 4 * i) n)
def dsvValid (s : State) : List Nat := (listedSel s 0x70140).filter (fun n => bit (s.cfg 0x70140 n) 31)
def State.dsv (s : State) (n : Nat) : DsvRt := Tbl.get {} s.pb.dsvs n
def State.updDsv (s : State) (n : Nat) (f : DsvRt → DsvRt) : State := { s with pb.dsvs := Tbl.upd {} s.pb.dsvs n f }

/-! Member maps (R246, R258). -/

def memType (m : BitVec 32) : Nat := fld m 31 28
def memHearth (c : Nat) (m : BitVec 32) : Nat := 4 * c + fld m 27 26
def memPoint (m : BitVec 32) : Nat := fld m 9 0
def isValueMember (m : BitVec 32) : Bool := memType m ≤ 4
def valueMembers (l : List (BitVec 32)) : List (BitVec 32) := l.filter isValueMember
/-- Hearths of the value members. -/
def gcbSources (c : Nat) (l : List (BitVec 32)) : List Nat := distinct ((valueMembers l).map (memHearth c))

/-! BER (R248, R249). -/

def berLen (n : Nat) : Bytes := if n < 128 then leBytes 1 n else if n < 256 then 0x81 :: leBytes 1 n else 0x82 :: beBytes 2 n
def berTlv (tag : BitVec 8) (c : Bytes) : Bytes := tag :: berLen c.length ++ c
/-- Fewest octets of an unsigned and of a signed integer. -/
def uintOctets (n : Nat) : Nat := if n < 2 ^ 7 then 1 else if n < 2 ^ 15 then 2 else if n < 2 ^ 23 then 3 else if n < 2 ^ 31 then 4 else 5
def intOctets (i : Int) : Nat :=
  if -(2 ^ 7) ≤ i ∧ i < 2 ^ 7 then 1 else if -(2 ^ 15) ≤ i ∧ i < 2 ^ 15 then 2 else if -(2 ^ 23) ≤ i ∧ i < 2 ^ 23 then 3 else 4
def berUint (fixed : Bool) (n : Nat) : Bytes := beBytes (if fixed then 5 else uintOctets n) n
def berInt (fixed : Bool) (w : BitVec 32) : Bytes := beBytes (if fixed then 4 else intOctets w.toInt) w.toNat
def berBool (b : Bool) : Bytes := [if b then 0xFF else 0]

/-- TimeAccuracy by ERR_CLASS (R249); the classes between 0x5 and 0xF do not occur. -/
def timeAccuracy (c : Nat) : Nat := ([25, 23, 19, 16, 13, 9] : List Nat).getD c 31
/-- A time word as UtcTime (R249), with the UTC offset in force at it (R52) and its own QUALITY. -/
def utcTime (s : State) (t : Stamp) : Bytes :=
  let sec := (Int.ofNat (t.t16 / sec16 1) - utcOffAt s t.t16) % 2 ^ 32
  let q := t.q.toNat
  beBytes 4 sec.toNat ++ beBytes 3 (t.t16 % sec16 1 * 2 ^ 24 / sec16 1)
    ++ leBytes 1 (b2n (t.q.getLsbD 6) * 128 + b2n (q % 8 == 0) * 64 + b2n (q % 2 == 0) * 32 + timeAccuracy (q / 256 % 16))

/-- Bit string of the low n bits, bit 0 first. -/
def bitString (n : Nat) (x : Nat) : Bytes :=
  let k := (n + 7) / 8
  leBytes 1 (8 * k - n) ++ beBytes k (((List.range n).map (fun i => x / 2 ^ i % 2 * 2 ^ (8 * k - 1 - i))).foldl (· + ·) 0)

/-- One value member. -/
def memberTlv (fixed : Bool) (t : Nat) (v : BitVec 32) : Bytes :=
  match t with
  | 0 => berTlv 0x83 (berBool (v != 0))
  | 1 => berTlv 0x84 (6 :: leBytes 1 (fld v 1 0 * 64))
  | 2 => berTlv 0x85 (berInt fixed v)
  | 3 => berTlv 0x86 (berUint fixed v.toNat)
  | _ => berTlv 0x87 (8 :: beBytes 4 v.toNat)

/-- allData: the members in order, each quality and UtcTime with the value member before it. A member that never changed since its
hearth's history started has no time word: its octets are open (log 9). -/
def allData (s : State) (fixed : Bool) (key : Nat) :
    List (BitVec 32) → List ((BitVec 32 × BitVec 32) × Option Stamp) → (BitVec 32 × BitVec 32) × Option Stamp → Bytes
  | [], _, _ => []
  | m :: r, l, cur =>
    if isValueMember m then
      (let x := l.headD ((0, 0x81), none)
       memberTlv fixed (memType m) x.1.1 ++ allData s fixed key r l.tail x)
    else if memType m = 5 then berTlv 0x84 (bitString 13 cur.1.2.toNat) ++ allData s fixed key r l cur
    else
      berTlv 0x91 (match cur.2 with
        | some t => utcTime s t
        | none => beBytes 8 (Config.freeNat 0x248 key)) ++ allData s fixed key r l cur

/-- The three TLVs of the identity template. -/
def identTlvs (b : Bytes) : List Bytes := ((tlvAll b).getD []).map (fun e => berTlv (BitVec.ofNat 8 e.1) e.2)

/-- The goosePdu (R248). -/
def goosePdu (s : State) (g : Nat) (x : GcbCfg) (z : GcbRt) (tal sqNum : Nat) : Bytes :=
  let id := identTlvs z.ident
  let f := x.fixlen
  berTlv 0x61 (id.getD 0 [] ++ berTlv 0x81 (berUint f tal) ++ id.getD 1 [] ++ id.getD 2 [] ++ berTlv 0x84 (utcTime s z.t)
    ++ berTlv 0x85 (berUint f z.stNum) ++ berTlv 0x86 (berUint f sqNum) ++ berTlv 0x87 (berBool z.sim)
    ++ berTlv 0x88 (berUint f x.confRev) ++ berTlv 0x89 [0] ++ berTlv 0x8A (berUint false x.nmem)
    ++ berTlv 0xAB (allData s f g z.map (z.vals.zip z.chg) ((0, 0x81), none)))

/-- Header template, EtherType, APPID, Length, Reserved 1 and 2, the PDU, and the authentication extension (R248, R255). -/
def pubFrame (s : State) (hdr : Bytes) (ether appid : Nat) (sim : Bool) (auth : Nat) (k : SignKey) (pdu : Bytes) : Bytes :=
  let key := (s.node k.node).key
  let res1 := beBytes 2 (if sim then 0x8000 else 0)
  let build (ext : Bytes) (r2 : Nat) : Bytes :=
    hdr ++ beBytes 2 ether ++ beBytes 2 appid ++ beBytes 2 (8 + pdu.length + ext.length) ++ res1 ++ beBytes 2 r2 ++ pdu
  if auth = 0 then build [] 0
  else
    let n := extLen auth k.keyId
    let r2 := (Config.authReserved2 n).toNat
    let ext := authExt auth k key (hdr.length + 2) (build (List.replicate n 0) r2)
    build ext r2 ++ ext

/-- PB_KEY_FAIL (R256): the first failure in each TAI second writes the record. -/
def pbKeyFail (owner unit : Nat) (last : Option Nat) (status : Nat) (n1 n2 : Nat) (s : State) : State :=
  let sec := now16 s / sec16 1
  if last = some sec then s
  else record s owner 0x0E (BitVec.ofNat 32 (0xA1 + 65536 * unit))
    [(2, BitVec.ofNat 32 status), (3, BitVec.ofNat 32 n1), (4, BitVec.ofNat 32 n2)] (stampNow s)

def wrapNum (n : Nat) : Nat := if n = 0xFFFFFFFF then 1 else n + 1

/-- The numbering, t and schedule of a control block go to the standby (R257). -/
def gcbDelta (g : Nat) (s : State) : State :=
  let z := s.gcb g
  deltaSend (.gcb g { stNum := z.stNum, sqNum := z.sqNum, t := z.t, d := z.d, due := z.due }) stDone s

/-- Build one frame of a control block, scheduled at an instant, with its sqNum and the interval to the next, in µs, and pass it to its
release; a frame whose key is not usable is not sent (R252, R255, R256). -/
def gooseFrame (g : Nat) (sqNum interval at16 : Nat) (s : State) : State :=
  let x := gcbCfg s g
  let z := s.gcb g
  let st := if x.auth = 0 then stDone else signStatus s x.auth x.key x.owner
  let s1 := s.updGcb g (fun y => { y with sqNum := sqNum, d := interval, due := some (at16 + us16 interval), built := inc32 y.built })
  gcbDelta g <|
  if st = stDone then
    let s2 := if x.auth = 0 then s1 else takeUse s1 x.key.node
    let o := pubFrame s z.hdr 0x88B8 x.appid z.sim x.auth x.key (goosePdu s g x z (ceilDiv (2 * interval) 1000) sqNum)
    let ref := (((tlvAll z.ident).getD []).headD (0, [])).2
    releaseFrame { id := .goose x.appid ref z.stNum sqNum, octets := o, ports := portsOf x.ports, cls := expressClass,
                   owner := x.owner, redundant := true } s2
  else
    let s2 := pbKeyFail x.owner g z.failSec st z.stNum sqNum s1
    s2.updGcb g (fun y => { y with keyFail := inc32 y.keyFail, failSec := some (now16 s / sec16 1) })

def heldPt (s : State) (h p : Nat) : HeldPt := Tbl.get {} s.pb.pts (1024 * h + p)

/-- The held points of a control block's value members. -/
def gcbPoints (s : State) (g : Nat) : List HeldPt :=
  (valueMembers (s.gcb g).map).map (fun m => heldPt s (memHearth (gcbCfg s g).croft m) (memPoint m))

/-- A new state (R250, R251) with the given time word, and its first frame. -/
def gcbState (g : Nat) (t : Stamp) (s : State) : State :=
  let x := gcbCfg s g
  let pts := gcbPoints s g
  gooseFrame g 0 x.t1 (now16 s) (s.updGcb g (fun z => { z with
    started := true, fresh := false, stNum := if z.fresh || !z.started then 1 else wrapNum z.stNum
    t := t, vals := pts.map (fun p => (p.v, p.q)), chg := pts.map (·.chg), sim := x.sim, states := inc32 z.states }))

/-- One evaluation (R250, R251) at the bell edge with the given time word. -/
def gcbEvaluate (g : Nat) (t : Stamp) (s : State) : State :=
  let z := s.gcb g
  if !z.fresh && z.started && (gcbPoints s g).map (fun p => (p.v, p.q)) == z.vals && z.sim == (gcbCfg s g).sim then s else gcbState g t s

/-- A committed change of SIM makes a new state at the commit's slot edge (R250). -/
def gcbSim (g : Nat) (t : Stamp) (s : State) : State :=
  let z := s.gcb g
  if !z.fresh && z.started && z.sim != (gcbCfg s g).sim then gcbState g t s else s

/-- Does a numbering lie before another, wraps apart? -/
def numBefore (z : GcbRt) (r : GcbRel) : Bool := decide (z.stNum < r.stNum) || (z.stNum == r.stNum && decide (z.sqNum < r.sqNum))
/-- A unit that becomes ACTIVE goes on from the last frame released by the unit before it (R257). -/
def gcbResume (s : State) : State :=
  { s with pb.gcbs := s.pb.gcbs.map (fun e =>
      (e.1, match e.2.rel with
        | some r => if numBefore e.2 r then { e.2 with stNum := r.stNum, sqNum := r.sqNum, t := r.t, d := r.d, due := r.due, rel := none }
                    else { e.2 with rel := none }
        | none => e.2)) }

/-- After a step of the counter, from one instant to another, the intervals go on (R252). -/
def gcbStepped (from_ to_ : Nat) (s : State) : State :=
  { s with pb.gcbs := s.pb.gcbs.map (fun e => (e.1, { e.2 with due := e.2.due.map (fun t => t + to_ - from_) })) }

/-- GOOSE_RETRANSMISSION (R252). -/
def gooseRetransmission (g : Nat) (s : State) : State :=
  let x := gcbCfg s g
  let z := s.gcb g
  match z.due with
  | some t =>
    if x.valid && z.started then gooseFrame g (wrapNum z.sqNum) (min (2 * z.d) (x.t0 * 1000)) t (s.waitUntil t) else s
  | none => s

/-- The control blocks of croft c that are now to be evaluated at bell edge j (R244): a source hearth h has handed off or dropped out,
some source has handed off at that edge, and none is still to. -/
def evaluateCroft (c j h : Nat) (q : BitVec 16) (s : State) : State :=
  let gave := Tbl.get (0, []) s.pb.gave c
  let waits (k : Nat) : Bool := match (s.fbe k).handing with
    | some y => y.bell == j
    | none => false
  let due (g : Nat) : Bool :=
    let src := gcbSources c (s.gcb g).map
    (gcbCfg s g).croft == c && src.contains h && !src.any waits && gave.1 == j && src.any (fun k => gave.2.contains k)
  ((gcbValid s).filter due).foldl (fun a g => gcbEvaluate g ⟨slotT16 j, q⟩ a) s

/-- Output points of a hearth that a control block, a derived stream or a loop set-point maps (R417). -/
def mappedPoints (s : State) (h : Nat) : List Nat :=
  let c := h / 4
  let g := (gcbValid s).flatMap (fun n => if (gcbCfg s n).croft = c then
    (valueMembers (s.gcb n).map).filterMap (fun m => if memHearth c m = h then some (memPoint m) else none) else [])
  let d := (dsvValid s).flatMap (fun n => if (dsvCfg s n).croft = c then
    (s.dsv n).map.filterMap (fun m => if bit m 31 ∧ memHearth c m = h then some (memPoint m) else none) else [])
  let l := (listedSel s 0x80040).filterMap (fun n =>
    let x := loopCfg s n
    if x.valid ∧ x.spSrc = 2 ∧ 4 * x.croft + x.spHearth = h then some x.spPoint else none)
  distinct (g ++ d ++ l)

/-- HAND_OFF (R214): the set is held, the control blocks are evaluated, HANDOFF tasks are released. -/
def handOff (h : Nat) (s0 : State) : State :=
  match (s0.fbe h).handing with
  | none => s0
  | some y =>
    let s := s0.waitUntil (handInstant s0 h y)
    let c := h / 4
    let t : Stamp := { t16 := slotT16 y.bell, q := y.q }
    let gave := Tbl.get (0, []) s.pb.gave c
    let s1 := { s with
      pb.pts := y.outs.foldl (fun (a : Tbl HeldPt) (o : Nat × BitVec 32 × BitVec 32) =>
        Tbl.upd {} a (1024 * h + o.1) (fun p =>
          { v := o.2.1, q := o.2.2, t := t, chg := if p.v = o.2.1 ∧ p.q = o.2.2 then p.chg else some t })) s.pb.pts
      pb.sets := Tbl.upd [] s.pb.sets h (fun l => (y :: l).take 8)
      pb.gave := Tbl.set (0, []) s.pb.gave c (y.bell, if gave.1 = y.bell then gave.2 ++ [h] else [h]) }
    let s2 := s1.updFbe h (fun x => { x with handing := none })
    let body := (mappedPoints s2 h).flatMap (fun p => let x := heldPt s2 h p; leBytes 4 x.v.toNat ++ leBytes 4 x.q.toNat)
    let s3 := decide_ (.handOff h y.cycle (crc32c body)) s2
    let s4 := evaluateCroft c y.bell h y.q s3
    if y.scan then
      withDispatch s4 h (fun a => ((tasksOf a h).filter (fun n => (taskCfg a h n).valid && (taskCfg a h n).src == 3)).foldl (fun b n =>
        releaseOrOverrun b h n (now16 b)) (tickDue h a))
    else s4

/-- A hearth's reset with its effect on the publisher: a control block that waited for the dropped hand-off is evaluated (R244). -/
def fbResetPub (h : Nat) (s : State) : State :=
  let s1 := fbReset h s
  match (s.fbe h).handing, (s1.fbe h).handing with
  | some y, none => evaluateCroft (h / 4) y.bell h y.q s1
  | _, _ => s1

/-! Derived streams (R258 to R260). -/

def dsvPer (x : DsvCfg) : Nat := if x.rate = 0 then 1 else 3

/-- smpSynch of a slot's quality (R260). -/
def smpSynch (q : BitVec 16) : Nat :=
  let c := q.toNat / 256 % 16
  if q.toNat % 2 = 1 then (if c ≤ 1 then 2 else 1) else if q.toNat / 2 % 2 = 1 ∧ c ≤ 2 then 1 else 0

/-- Value and quality of one channel for sample a (R259). -/
def dsvValue (s : State) (c : Nat) (d : List (Nat × List (Nat × Smp) × List COut)) (a per : Nat) (m : BitVec 32) : BitVec 32 × BitVec 32 :=
  let r : BitVec 32 × BitVec 32 :=
    if bit m 31 then (let p := heldPt s (memHearth c m) (memPoint m); (p.v, p.q))
    else
      match d.find? (fun e => e.1 == fld m 10 0) with
      | none => (0, 1)
      | some e =>
        if bit m 30 then
          (match e.2.2.find? (fun o => o.t16 == a * sec16 1 / (4800 * per)) with
           | some o => (word o.v, o.q)
           | none => (0, 1))
        else
          (match e.2.1.find? (fun o => o.1 == a) with
           | some o => (word o.2.v, o.2.q)
           | none => (0, 1))
  (r.1, r.2 &&& 0x3FFF)

def dsvAsdu (x : DsvCfg) (id : List Bytes) (per : Nat) (e : Nat × Nat × List (BitVec 32 × BitVec 32)) : Bytes :=
  berTlv 0x30 (id.getD 0 [] ++ id.getD 1 [] ++ berTlv 0x82 (beBytes 2 (e.1 % (4800 * per))) ++ berTlv 0x83 (beBytes 4 x.confRev)
    ++ berTlv 0x85 (leBytes 1 e.2.1) ++ berTlv 0x87 (e.2.2.flatMap (fun v => beBytes 4 v.1.toNat ++ beBytes 4 v.2.toNat)))

/-- Build and release the frame of the samples taken. -/
def dsvFrame (n : Nat) (s : State) : State :=
  let x := dsvCfg s n
  let z := s.dsv n
  let per := dsvPer x
  let id := identTlvs z.ident
  let pdu := berTlv 0x60 (berTlv 0x80 (leBytes 1 x.noAsdu) ++ berTlv 0xA2 (z.acc.flatMap (dsvAsdu x id per)))
  let cnt := (z.acc.headD (0, 0, [])).1 % (4800 * per)
  let st := if x.auth = 0 then stDone else signStatus s x.auth x.key x.owner
  let s1 := s.updDsv n (fun y => { y with acc := [], built := inc32 y.built })
  if st = stDone then
    let s2 := if x.auth = 0 then s1 else takeUse s1 x.key.node
    releaseFrame { id := .sv x.appid cnt, octets := pubFrame s z.hdr 0x88BA x.appid x.sim x.auth x.key pdu, ports := portsOf x.ports,
                   cls := expressClass, owner := x.owner, redundant := true } s2
  else
    let s2 := pbKeyFail x.owner n z.failSec st cnt 0 s1
    s2.updDsv n (fun y => { y with keyFail := inc32 y.keyFail, failSec := some (now16 s / sec16 1) })

/-- QUALITY at a sampling instant of slot k: that of the slot edge before it, or of the next where LOCKED was entered or left between
(R260; log 94). -/
def sampleQuality (s : State) (k t16 : Nat) : BitVec 16 :=
  if slotT16 k < s.tb.lockT ∧ s.tb.lockT ≤ t16 then edgeQuality s (k + 1) else edgeQuality s k

/-- Take sample a; the last of a frame builds it (R260). -/
def dsvSample (n c : Nat) (d : List (Nat × List (Nat × Smp) × List COut)) (q : BitVec 16) (a : Nat) (s : State) : State :=
  let x := dsvCfg s n
  let z := s.dsv n
  let vals := z.map.map (dsvValue s c d a (dsvPer x))
  let acc := (if a % x.noAsdu = 0 then [] else z.acc) ++ [(a, smpSynch q, vals)]
  let s1 := s.updDsv n (fun y => { y with acc := acc })
  if (a + 1) % x.noAsdu = 0 then (if acc.length = x.noAsdu then dsvFrame n s1 else s1.updDsv n (fun y => { y with acc := [] })) else s1

/-- The derived streams of croft c at the close of slot k (DERIVED_SV_FRAME). -/
def dsvSlot (c k : Nat) (d : List (Nat × ChainOut)) (s : State) : State :=
  let l := d.map (fun e => (e.1, e.2.scaled, e.2.outs))
  ((dsvValid s).filter (fun n => (dsvCfg s n).croft == c)).foldl (fun a n =>
    let per := dsvPer (dsvCfg a n)
    ((List.range per).map (fun i => k * per + i)).foldl (fun b i =>
      dsvSample n c l (sampleQuality b k (i * sec16 1 / (4800 * per))) i b) a) s

/-! Checks of a commit (R247, R258). -/

def portsCodeOk (s : State) (code : Nat) : Bool := code < 8 || (code < 12 && pairMode s (2 * (code - 8)) != 0)
def headerOk (hdr : Bytes) : Bool := hdr.length == 12 || (hdr.length == 16 && (vlanTag hdr).isSome)

/-- Words of a map, little-endian (R9). -/
def readMap (s : State) (p a n : Nat) : Option (List (BitVec 32)) := (devRead s p a (4 * n)).map bytesWords

def tlvLenOk (c : Bytes) : Bool := 1 ≤ c.length && c.length ≤ 129

def gooseIdOk (b : Bytes) : Bool :=
  match tlvAll b with
  | some [(0x80, x), (0x82, y), (0x83, z)] => tlvLenOk x && tlvLenOk y && tlvLenOk z
  | _ => false
def svIdOk (b : Bytes) : Bool :=
  match tlvAll b with
  | some [(0x80, x)] => tlvLenOk x
  | some [(0x80, x), (0x81, y)] => tlvLenOk x && tlvLenOk y
  | _ => false

def gooseMapOk (l : List (BitVec 32)) : Bool :=
  l.all (fun m => memType m ≤ 6 && fld m 25 10 == 0 && (isValueMember m || fld m 27 0 == 0)) &&
  (match l with
   | m :: _ => isValueMember m
   | [] => false)

/-- Octets around the PDU of the largest frame: header, EtherType, the eight octets, the extension, a trailer or tag, the FCS. -/
def frameOver (hdrLen auth : Nat) (keyId : BitVec 32) (ports : Nat) : Nat :=
  hdrLen + 2 + 8 + extLen auth keyId + (if ports ≥ 8 then 6 else 0) + 4

def memMax (t : Nat) : Nat := ([3, 4, 6, 7, 7, 5, 10] : List Nat).getD t 10
def goosePduMax (x : GcbCfg) (id : Bytes) (l : List (BitVec 32)) : Nat :=
  let ints := if x.fixlen then 5 else 0
  let data := (l.map (fun m => memMax (memType m))).foldl (· + ·) 0
  let inner := ((identTlvs id).map List.length).foldl (· + ·) 0 + (2 + max ints (uintOctets (2 * max x.t0 (ceilDiv x.t1 1000))))
    + 10 + 7 + 7 + 3 + (2 + max ints (uintOctets x.confRev)) + 3 + (2 + uintOctets x.nmem) + (1 + (berLen data).length + data)
  1 + (berLen inner).length + inner

/-- The runtime of a control block's entry as a commit leaves it; none for BAD_DESC. -/
def gcbCheck (s : State) (x : GcbCfg) : Option (Bytes × Bytes × List (BitVec 32)) :=
  match devRead s x.owner x.hdrAt x.hdrLen, devRead s x.owner x.idAt x.idLen, readMap s x.owner x.mapAt x.nmem with
  | some h, some i, some m =>
    if x.appid ≤ 0x3FFF && 100 ≤ x.t0 && x.t0 ≤ 60000 && 1000 ≤ x.t1 && headerOk h && 9 ≤ x.idLen && x.idLen ≤ 396 && gooseIdOk i &&
        gooseMapOk m && (gcbSources x.croft m).all (fun k => hearthOwner s k == x.owner) && portsCodeOk s x.ports &&
        frameOver x.hdrLen x.auth x.key.keyId x.ports + goosePduMax x i m ≤ 1522 then some (h, i, m)
    else none
  | _, _, _ => none
/-- Are the three buffers of an entry readable for its owner? -/
def entryReads (s : State) (owner : Nat) (l : List (Nat × Nat)) : Bool := l.all (fun b => canAccess s owner .devRead b.1 b.2)
def gcbReads (s : State) (x : GcbCfg) : Bool := entryReads s x.owner [(x.hdrAt, x.hdrLen), (x.idAt, x.idLen), (x.mapAt, 4 * x.nmem)]
/-- What stays to be checked of an entry that a commit does not touch. -/
def gcbStays (s : State) (g : Nat) : Bool :=
  let x := gcbCfg s g
  (gcbSources x.croft (s.gcb g).map).all (fun k => hearthOwner s k == x.owner) && portsCodeOk s x.ports

def svSourceOk (s : State) (x : DsvCfg) (m : BitVec 32) : Bool :=
  fld m 29 28 == 0 && fld m 25 11 == 0 &&
  (if bit m 31 then fld m 30 30 == 0 && fld m 10 10 == 0 && hearthOwner s (memHearth x.croft m) == x.owner
   else
     let ce := fld m 10 0
     fld m 27 26 == 0 && ceOwner s x.croft ce == x.owner &&
     (match placedRate s x.croft ce with
      | some per => (if bit m 30 then per == dsvPer x * decim (chainCfg s x.croft ce) else per == dsvPer x)
      | none => false))

def savPduMax (x : DsvCfg) (id : Bytes) : Nat :=
  let seq := 1 + (berLen (8 * x.nch)).length + 8 * x.nch
  let asdu := ((identTlvs id).map List.length).foldl (· + ·) 0 + 4 + 6 + 3 + seq
  let all := x.noAsdu * (1 + (berLen asdu).length + asdu)
  let inner := 3 + 1 + (berLen all).length + all
  1 + (berLen inner).length + inner

def dsvCheck (s : State) (x : DsvCfg) : Option (Bytes × Bytes × List (BitVec 32)) :=
  match devRead s x.owner x.hdrAt x.hdrLen, devRead s x.owner x.idAt x.idLen, readMap s x.owner x.mapAt x.nch with
  | some h, some i, some m =>
    if 0x4000 ≤ x.appid && x.appid ≤ 0x7FFF && x.rate ≤ 1 && 1 ≤ x.noAsdu && x.noAsdu ≤ 8 && (4800 * dsvPer x) % x.noAsdu == 0 &&
        1 ≤ x.nch && x.nch ≤ 64 && headerOk h && svIdOk i && m.all (svSourceOk s x) && portsCodeOk s x.ports &&
        frameOver x.hdrLen x.auth x.key.keyId x.ports + savPduMax x i ≤ 1522 then some (h, i, m)
    else none
  | _, _, _ => none
def dsvReads (s : State) (x : DsvCfg) : Bool := entryReads s x.owner [(x.hdrAt, x.hdrLen), (x.idAt, x.idLen), (x.mapAt, 4 * x.nch)]
def dsvStays (s : State) (n : Nat) : Bool :=
  let x := dsvCfg s n
  (s.dsv n).map.all (svSourceOk s x) && portsCodeOk s x.ports

/-- Fields whose change leaves a control block's history in place (R251): T0, T1, SIM and the key fields. -/
def gcbSameHistory (a b : List (BitVec 32)) : Bool :=
  let m : List (BitVec 32) := [0xBFFFFFFF, 0, 0xFFFFFFFF, 0xFFFFFFFF, 0xFFFFFFFF, 0xFFFFFFFF, 0xFFFFFFFF, 0xFFFFFFFF, 0xFFDFFFFF]
  ((a.zip b).zip m).all (fun e => (e.1.1 &&& e.2) == (e.1.2 &&& e.2))

def gcbWords (s : State) (g : Nat) : List (BitVec 32) := (List.range 16).map (fun i => s.cfg (0x70040 + 4 * i) g)
def dsvWords (s : State) (n : Nat) : List (BitVec 32) := (List.range 16).map (fun i => s.cfg (0x70140 + 4 * i) n)

/-- Put a checked commit of a control block into force: the copies, and a new history where R251 starts one. -/
def gcbCommit (old : List (BitVec 32)) (g : Nat) (c : Bytes × Bytes × List (BitVec 32)) (s : State) : State :=
  let same := gcbSameHistory old (gcbWords s g) && (s.gcb g).hdr == c.1 && (s.gcb g).ident == c.2.1 && (s.gcb g).map == c.2.2
  s.updGcb g (fun y =>
    if same then { y with hdr := c.1, ident := c.2.1, map := c.2.2 }
    else { y with hdr := c.1, ident := c.2.1, map := c.2.2, fresh := true, started := false, due := none, stNum := 0 })
def dsvCommit (n : Nat) (c : Bytes × Bytes × List (BitVec 32)) (s : State) : State :=
  s.updDsv n (fun y => { y with hdr := c.1, ident := c.2.1, map := c.2.2, acc := [] })

end Sys2Proof.Machine
end

