-- ==== Sys2Proof/Machine/Resets.lean ====
section
/-! DEFINITION. Resets of partition, hearth and engine scope (R296 to R301), and accesses of the cores to DRAM and to the
interrupt pages (R289, R294). -/

namespace Sys2Proof.Machine

/-! Requests (R297, R299). -/

def loopOwner (s : State) (l : Nat) : Nat := (loopCfg s l).owner

/-- Partition that owns the units of a scope. -/
def scopeOwner (s : State) : RScope → Nat
  | .partition p => p
  | .hearth h => hearthOwner s h
  | .fbe h => hearthOwner s h
  | .loop l => loopOwner s l
  | .capture g => capOwner s g

/-- Does scope a lie within scope b? -/
def scopeIn (s : State) (a b : RScope) : Bool :=
  a == b ||
  (match b, a with
   | .partition _, .partition _ => false
   | .partition p, _ => scopeOwner s a == p
   | .hearth h, .fbe k => h == k
   | _, _ => false)

/-- May partition p request this reset (R299)? -/
def mayReset (s : State) (p : Nat) (c : RScope) : Bool := p == 0 || scopeOwner s c == p

def refuseReset (s : State) : State := { s with pt.refused := true }

/-- A request through PT_RESET by partition p; none is a KIND or TARGET that does not exist. It takes effect 10 µs on. -/
def resetRequest (p : Nat) (c : Option RScope) (s : State) : State :=
  match c with
  | none => refuseReset s
  | some c =>
    if !mayReset s p c || isStandby s then refuseReset s
    else if s.pt.resets.any (fun x => scopeIn s c x.scope) then s
    else
      let e := s.tb.edge + usEdges 10
      deltaSend (.reset c e) stDone { s with pt.resets := s.pt.resets ++ [{ scope := c, reqEdge := s.tb.edge, effEdge := e }] }

/-- The scope that a word written to PT_RESET names; the module scope is none of these. -/
def resetScope (v : BitVec 32) : Option RScope :=
  let t := fld v 7 0
  match fld v 31 30, fld v 13 12 with
  | 1, _ => if t < 32 then some (.partition t) else none
  | 2, _ => if t < 64 then some (.hearth t) else none
  | 3, 0 => if t < 64 then some (.fbe t) else none
  | 3, 1 => some (.loop t)
  | 3, 2 => if t < 144 then some (.capture t) else none
  | _, _ => none

/-! The effective instant (R296 to R298). -/

/-- Discard the pending interrupts of a hearth's files, counted to a partition (R296). -/
def discardFiles (p h : Nat) (s : State) : State :=
  (List.range 6).foldl (fun a f =>
    let n := (a.file h f).pend.length
    (a.updFile h f (fun y => { y with pend := [], src := [] })).updPart p (fun x => { x with irqDisc := add32 x.irqDisc n })) s

/-- Discard the identities whose only pending assertions come from a unit of a block (R296). -/
def discardFrom (p block unit : Nat) (s : State) : State :=
  let h := irqHearth s p
  let file := s.file h 0
  let from_ (x : Nat × Nat × Nat) : Bool := x.2.1 == block && x.2.2 == unit
  let gone := file.pend.filter (fun i => file.src.any (fun x => x.1 == i && from_ x) && file.src.all (fun x => x.1 != i || from_ x))
  (s.updFile h 0 (fun y => { y with
    pend := y.pend.filter (fun i => !gone.contains i), src := y.src.filter (fun x => !gone.contains x.1) })).updPart p
    (fun x => { x with irqDisc := add32 x.irqDisc gone.length })

/-- A loop without history (R270): results that wait are dropped. -/
def loopReset (l : Nat) (s : State) : State := loopRestart l (s.updLoop l (fun z => { z with results := [], why := [], run := 0, limited := false }))

/-- A hearth at the effective instant: the engine, the scheduler and the core stop, and its latch of TB_NOW takes its reset value (R44). -/
def hearthStop (h : Nat) (s : State) : State :=
  let s1 := (resetSched (fbResetPub h s) h).updCore h (fun _ => {})
  { s1 with tu.now := Tbl.set 0 s1.tu.now h 0 }
/-- It stops, and then its files are cleared (R297). -/
def hearthBegin (p h : Nat) (s : State) : State := discardFiles p h (hearthStop h s)

/-- End the operations of the orchard on the rings q: their uses and their open key changes. -/
def cutKeyOps (q : Nat → Bool) (s : State) : State :=
  let us := s.ok.uses.filter (fun u => q u.ring)
  let ks := s.ok.pends.filter (fun x => q x.ring)
  let fs := s.ok.fusing.filter (fun x => q x.ring)
  let s1 := { s with
    ok.uses := s.ok.uses.filter (fun u => !q u.ring), ok.pends := s.ok.pends.filter (fun x => !q x.ring)
    ok.fusing := s.ok.fusing.filter (fun x => !q x.ring) }
  let s2 := (us.map (fun u => (u.ring, u.flight)) ++ ks.map (fun x => (x.ring, x.flight)) ++ fs.map (fun x => (x.ring, x.flight))).foldl
    (fun a x => finishKey a x.1 x.2 stAborted) s1
  freeDying s2 (us.flatMap (·.nodes))

/-- End the flash operations on the rings q (R442); a fetched tally clear cannot be aborted (R452). -/
def cutFlash (q : Nat → Bool) (s : State) : State :=
  let s1 := (s.st.ops.filter (fun o => q o.ring && o.kind != .clear)).foldl (fun a o => abortOp a o stAborted) s
  (s1.st.reads.filter (fun o => q o.ring)).foldl (fun a o => abortRead a o stAborted) s1

/-- Is the flight that of a tally clear on its way (R452)? -/
def clearFlight (s : State) (k id : Nat) : Bool := s.st.ops.any (fun o => o.kind == .clear && o.ring == k && o.flight == id)

/-- Frames that the TX rings q hold in the green leave it, but for those being sent. -/
def cutFramesOf (q : Nat → Bool) (s : State) : State :=
  let mine (f : GFrame) : Bool := match f.src with
    | .ring k _ _ => q k
    | _ => false
  { s with
    gn.frames := (s.gn.frames.map (fun f =>
      if mine f then { f with src := .internal none, outs := f.outs.filter (·.going) } else f)).filter (fun f => !f.outs.isEmpty) }

/-- End every other descriptor of partition p in flight with ABORTED; a commit whose application edge has come wins (R298). -/
def cutFlights (p : Nat) (s : State) : State :=
  let x := s.txn p
  let keep (r id : Nat) : Bool := (applyCame s x && x.ring == 64 * p + r && x.flight == id) || clearFlight s (64 * p + r) id
  (List.range 64).foldl (fun a r =>
    (a.ring p r).flights.foldl (fun b f => if f.res.isSome || f.fence || keep r f.id then b else finish b p r f.id stAborted) a) s

/-- Selectors of a partition take their reset values (R478). -/
def resetSelectors (p : Nat) (s : State) : State :=
  let isSel (k : Nat) : Bool :=
    k % 65536 == p && k / 65536 != 0x90100 && k / 65536 != 0x90104 &&
    (match regInfo (k / 65536) with | some i => i.sel == .own | none => false)
  { s with regs := s.regs.filter (fun e => !isSel e.1) }

/-- Lanes of a partition: the running period ends and the lane is dark; forces are released (R278, R296). -/
def laneReset (g : Nat) (s : State) : State :=
  s.updLane g (fun z => { z with ending := z.running, cmds := [], force := 0, wait := false })

/-- Chains, phasor groups and detectors of a partition restart without history (R34). -/
def rangesRestart (p : Nat) (s : State) : State :=
  let k := slotCeil (now16 s)
  let s1 := { s with
    fc.chains := s.fc.chains.map (fun e =>
      if ceOwner s (e.1 / 2048) (e.1 % 2048) = p then (e.1, { e.2 with restart := e.2.restart ++ [k], settled := false }) else e) }
  let s2 := ((grpValid s1).filter (fun sel => (grpCfg s1 sel).owner == p)).foldl (fun a sel => phStart sel k a) s1
  let s3 := ((linesValid s2).filter (fun l => (lineCfg s2 l).owner == p)).foldl (fun a l => detReset l a) s2
  let s4 := { s3 with tg.surge := s3.tg.surge.filter (fun e => scOwner s3 e.1 != p) }
  { s4 with tg.cts := s4.tg.cts.map (fun e =>
      if (ctCfg s4 (e.1 / 16) (e.1 % 16)).owner = p then (e.1, { e.2 with marks := [], step := 0, prev := 0 }) else e) }

/-- EXP_RESET nodes of a partition expire (R401). -/
def expireNodes (p : Nat) (s : State) : State :=
  (s.ok.nodes.keys.filter (fun n => (s.node n).st == .live && (s.node n).owner == p && bit (s.node n).attr 12)).foldl
    (fun a n => if (a.node n).st = .live then invalidate a n else a) s

def hearthsOf (s : State) (p : Nat) : List Nat := (List.range 64).filter (fun h => hearthOwner s h == p)

/-- A partition reset at its effective instant: steps 1, 2 and 4 of R297, the pending interrupts last. -/
def partitionBegin (p : Nat) (s : State) : State :=
  let s0 := s.updPart p (fun x => { x with state := .resetting })
  let s1 := (List.range 32).foldl (fun a u => if (a.ttu u).armed ∧ (a.ttu u).ring / 64 = p then ttStop a u else a) (keysDue s0)
  let s2 := (s1.tg.caps.keys.filter (fun g => capOwner s1 g == p)).foldl (fun a g => capReset g a) s1
  let s3 := (hearthsOf s2 p).foldl (fun a h => hearthStop h a) s2
  let s4 := if applyCame s3 (s3.txn p) then s3 else rollTxn p s3
  let s5 := cutFlights p (cutFramesOf (· / 64 == p) (cutFlash (· / 64 == p) (cutKeyOps (· / 64 == p) s4)))
  let s6 := expireNodes p s5
  let s7 := ((loopsValid s6).filter (fun l => loopOwner s6 l == p)).foldl (fun a l => loopReset l a) s6
  let s8 := ((List.range 24).filter (fun g => (laneCfg s7 g).valid && laneOwner s7 g == p)).foldl (fun a g => laneReset g a)
    { s7 with lp.gos := s7.lp.gos.filter (fun x => x.part != p) }
  (hearthsOf s p).foldl (fun a h => discardFiles p h a) (resetSelectors p (rangesRestart p s8))

/-- What a scope does at the effective instant. -/
def scopeBegin (c : RScope) (s : State) : State :=
  match c with
  | .partition p => partitionBegin p s
  | .hearth h => hearthBegin (hearthOwner s h) h s
  | .fbe h => discardFrom (hearthOwner s h) 6 h (fbResetPub h s)
  | .loop l => discardFrom (loopOwner s l) 8 l (loopReset l s)
  | .capture g => discardFrom (capOwner s g) 3 g (capReset g s)

/-- Begin a reset: a running reset within it becomes part of it (R299). -/
def resetBegin (x : ResetRun) (s : State) : State :=
  scopeBegin x.scope { s with
    pt.resets := (s.pt.resets.filter (fun y => !scopeIn s y.scope x.scope)) ++ [{ x with draining := true }] }

/-- RESET_EFFECTIVE: the earliest request reaches its effective instant. -/
def resetEffective (s : State) : State :=
  match sortBy (fun a b => decide (a.effEdge ≤ b.effEdge)) (s.pt.resets.filter (fun x => !x.draining)) with
  | [] => s
  | x :: _ => resetBegin x (s.runTo x.effEdge)

/-! The end of the drain: step 5 of R297. -/

/-- Start a hearth's core at its partition's entry point, the hearth number in a0 (R464). -/
def startCore (h : Nat) (s : State) : State :=
  s.updCore h (fun _ => { started := true, entry := Tbl.get 0 s.pw.entries (hearthOwner s h), a0 := h })

/-- Start a partition: its state and its cores (R284). -/
def startPartition (p : Nat) (s : State) : State :=
  (hearthsOf s p).foldl (fun a h => startCore h a) (s.updPart p (fun x => { x with state := .running }))

/-- Restart the enabled rings of a partition and write their index blocks. -/
def restartRings (p : Nat) (s : State) : State :=
  (enabledRings s p).foldl (fun a r =>
    indexBlock (a.updRing p r (fun y => { nextId := y.nextId, flights := y.flights, drop := y.drop, badDb := y.badDb })) p r) s

def partitionEnd (p : Nat) (stop : Bool) (s : State) : State :=
  let s1 := (restartRings p s).updPart p (fun x => { x with state := .stopped, resets := x.resets + 1 })
  if partEn s p && !stop then startPartition p s1 else s1

def scopeCode : RScope → BitVec 2
  | .partition _ => 1
  | .hearth _ => 2
  | _ => 3

/-- RESET_DRAIN_COMPLETE: the drain of the oldest running reset ends. -/
def drainComplete (s : State) : State :=
  match s.pt.resets.find? (·.draining) with
  | none => s
  | some x =>
    let s1 := { s with
      pt.resets := s.pt.resets.filter (fun y => y != x), pt.lastScope := scopeCode x.scope
      pt.lastDrain := BitVec.ofNat 16 (min (s.tb.edge - x.reqEdge) 65535) }
    match x.scope with
    | .partition p => partitionEnd p x.stop s1
    | .hearth h => if (s1.part (hearthOwner s1 h)).state = .running then startCore h s1 else s1
    | _ => s1

/-! Interrupt pages (R292, R294). -/

/-- A core's write of seteipnum in an interrupt page. -/
def seteipnum (h tgt file : Nat) (be_ : Bool) (v : BitVec 32) (s : State) : State :=
  let p := hearthOwner s h
  if p ≠ 0 ∧ hearthOwner s tgt ≠ p then s.winFault p
  else if file > 5 then s
  else
    let id := if be_ then beNat (leBytes 4 v.toNat) else v.toNat
    if 1 ≤ id ∧ id ≤ 255 then assertIrq 256 s tgt file id (BitVec.ofNat 32 (0xFF * 2 ^ 24 + h)) else s

end Sys2Proof.Machine
end

