-- ==== Sys2Proof/Machine/Power.lean ====
section
/-! DEFINITION. Power, feeds and the module reset (R453 to R460, R296, R443); the steps of start-up from the domains on are
in Machine/Boot.lean. -/

namespace Sys2Proof.Machine

/-- Is the module powered, so that commands from outside reach it (R460)? -/
def powered (s : State) : Bool := s.pw.st == .warm || s.pw.st == .run
/-- Is it in no loss shutdown either (R455)? -/
def alive (s : State) : Bool := powered s && s.pw.lossAt.isNone

/-- Power that IEEE 802.3bt allocates at the PD to a class, 0.1 W (R453; the figures below class 8 are presumed: log 32). -/
def grantOf (cls : Nat) : Nat := ([129, 38, 64, 129, 255, 400, 510, 620, 713] : List Nat).getD cls 0

def feedSum (s : State) : Nat := (s.pw.feeds.map (fun e => if e.2.present then e.2.grant else 0)).foldl (· + ·) 0
def anyFeed (s : State) : Bool := s.pw.feeds.any (fun e => e.2.present)

/-- A message to FEED_IRQ of partition 0 (PW_CFG). -/
def feedIrq (s : State) : State := devIrq s 0 (fld (s.cfg 0x140024 0) 7 0) 20 0

/-- BUDGET_LOW follows the grants; its rise while the module runs sends a message (R454). -/
def budget (s : State) : State :=
  let low : Bool := decide (feedSum s < 680)
  let s1 := { s with pw.budgetLow := low }
  if low && !s.pw.budgetLow && s.pw.st == .run then feedIrq s1 else s1

/-! What survives (R296, R460). -/

/-- Registers that PD0 keeps: PREF and TIME_WAIT. -/
def keptRegs (s : State) : Tbl (BitVec 32) :=
  (({ s with regs := [] }.setCfg 0x140020 0 (s.cfg 0x140020 0)).setCfg 0x140024 0 (s.cfg 0x140024 0 &&& 0xFF00)).regs

/-- The counter over a reset or a start: it runs on with its addend, in FREE_RUN with a kept value (R42, R45). DESIGN CHOICE (log 61): a
counter that was never valid is no kept value and stays not valid. -/
def keptTime (t : TbState) : TbState :=
  { counter := t.counter, edge := t.edge, addend := t.addend, corr := t.corr, refTcxo := t.refTcxo, ocxoOk := t.ocxoOk
    ocxoSince := t.ocxoSince, tcxoOk := true, st := if t.st = .notValid then .notValid else .freeRun
    lockedAt := if t.st = .locked then some t.edge else t.lockedAt }

/-- Everything but the PD0 counter, flash, the tally and the life-cycle state takes its reset value (R296); the queue, the
counts of free values and the record of what has left the module are the model's. -/
def volatileReset (s : State) : State :=
  { pending := s.pending, tb := keptTime s.tb, tu := { nextSlot := s.tu.nextSlot }
    ptp := { own := s.ptp.own, sent := s.ptp.sent }
    regs := keptRegs s
    pw := { feeds := s.pw.feeds, budgetLow := s.pw.budgetLow, holdupOk := s.pw.holdupOk, retries := s.pw.retries
            fromOne := s.pw.fromOne, stepAt := s.tb.edge }
    st := { objects := s.st.objects, blocks := s.st.blocks, fill := s.st.fill, nextVer := s.st.nextVer, ops := s.st.ops
            nextId := s.st.nextId, discards := s.st.discards }
    ty := { open_ := s.ty.open_, recs := s.ty.recs, full := s.ty.full, lost := s.ty.lost, hours := s.ty.hours
            hoursAt := s.ty.hoursAt, hoursPart := s.ty.hoursPart, cycles := s.ty.cycles, savedHours := s.ty.savedHours
            savedCycles := s.ty.savedCycles, savedPref := s.ty.savedPref }
    ok := { fused := s.ok.fused, ownerHash := s.ok.ownerHash, secret := s.ok.secret, latched := s.ok.latched
            active := s.ok.active, seen := s.ok.seen, tword := s.ok.tword, owed := s.ok.owed, nonce := s.draws }
    pr := { position := s.pr.position, beacons := s.pr.beacons }
    pu := { out := s.pu.out }
    mc := { wire := s.mc.wire, macs := s.mc.macs.filterMap (fun e =>
              if e.2.optics = {} then none else some (e.1, { optics := e.2.optics })) }
    lp := { pins := s.lp.pins }
    draws := s.draws + 1 }

/-- Difference between the references as last measured, within the ±5 ppm of R41: a free value (2^-12 ppb). -/
def refDiff (s : State) : Int := Int.ofNat (Config.freeNat 0x42 s.draws % (2 * 5000 * 4096 + 1)) - 5000 * 4096

/-- The counter runs on the always-on clock with the last addend corrected for the TCXO (R42). -/
def keepTime (s : State) : State :=
  let d := if s.tb.refTcxo then 0 else refDiff s
  { s with tb.addend := if s.tb.refTcxo then s.tb.addend else addendBy s.tb.addend d, tb.corr := s.tb.corr + d, tb.refTcxo := true,
           tb.ocxoOk := false }

/-- KEEP: PD0 alone is powered, without the OCXO; the running 225 s of HOURS16 pauses (R448). -/
def enterKeep (s : State) : State :=
  let z := volatileReset (keepTime s)
  { z with
    ty.hoursPart := z.tb.edge - z.ty.hoursAt
    pw.st := .keep, pw.step := 1, pw.doms := [(0, .run)], pt.parts := [] }

/-- WARM is entered from KEEP or OFF: the OCXO is powered from step 2, and the running 225 s of HOURS16 goes on (R448, R463). -/
def ocxoOn (s : State) : State := { s with tb.ocxoSince := s.tb.edge, ty.hoursAt := s.tb.edge - s.ty.hoursPart }

/-- Step 3 begins: WARM, no other domain up yet (R296, R463). -/
def startStep3 (s : State) : State := volatileReset s

/-- PD0 without supercapacitor and cell (R457): the kept counter value, LATCHED and SEEN are lost; HOURS16 and CYCLES come back
from the last journal entry. The time word of the tamper latch is not stated then: a free value (log 60). -/
def loseKept (s : State) : State :=
  { s with
    tb.counter := 0, tb.addend := 2 ^ 42, tb.corr := 0, tb.st := .notValid, tu.nextSlot := 0, ok.latched := false, ok.seen := 0, ok.owed := false,
    ok.tword := BitVec.ofNat 128 (Config.freeNat 0x457 (4 * s.draws + 1)),
    ty.hours := s.ty.savedHours, ty.hoursPart := 0, ty.cycles := s.ty.savedCycles }

/-- Steps 1 and 2: with grants of at least 68 W the always-on sequencer runs, which reads the cell (R454, R457, R463). After OFF
the kept values may be lost. -/
def startUp (s : State) : State :=
  if feedSum s < 680 then { s with pw.step := 1 }
  else
    let mv := Config.freeNat 0x457 (4 * s.draws) % 4096
    let s0 := if s.pw.st = .off ∧ Config.cellLost s.draws then loseKept s else s
    let s1 := startStep3 { ocxoOn s0 with draws := s0.draws + 1, pw.fromOne := true, pw.retries := 0, pw.budgetLow := false }
    { s1 with pw.cellMv := mv, pw.cellLow := decide (mv < 2500) }

/-! Feeds (R453 to R455). -/

def feedPresent (f cls : Nat) (s : State) : State :=
  if cls > 8 then s
  else
    let s1 := { s with pw.feeds := Tbl.set {} s.pw.feeds f { present := true, cls := cls, grant := grantOf cls } }
    if powered s then budget s1
    else if s.pw.haltAt.isSome then s1
    else startUp s1

/-- The loss edge (R455 steps 1 to 3). -/
def lossEdge (s : State) : State :=
  let s1 := fallSilent s
  let s2 := (List.range 13).foldl (fun a q => if (a.mac q).link then linkLoss q false a else a) s1
  stLoss { s2 with
    pw.lossAt := some s.tb.edge
    pw.doms := s2.pw.doms.filter (fun e => e.1 < 3 || e.1 == 11)
    cores := [], files := [], sq := {}, ig := {}, fc := {}, tg := {}, ph := {}, fl := {}, fb := {}, pb := {}
    lp := { pins := s2.lp.pins } }

def feedLoss (f : Nat) (s : State) : State :=
  if !(Tbl.get ({} : Feed) s.pw.feeds f).present then s
  else
    let s1 := { s with pw.feeds := Tbl.set {} s.pw.feeds f {} }
    if powered s then
      if anyFeed s1 then budget s1 else if s.pw.lossAt.isSome then s1 else lossEdge { s1 with pw.budgetLow := true }
    else if anyFeed s1 then s1
    else { s1 with pw.haltAt := none, pw.dead := false, pw.retries := 0 }

/-- SHUTDOWN_EXPIRY: the storage controller stops and the module enters KEEP (R443, R455 step 4). -/
def shutdownExpiry (s : State) : State :=
  match s.pw.lossAt with
  | none => s
  | some e =>
    let s1 := s.runTo (e + msEdges (fld (s.cfg 0x120034 0) 7 0))
    let s2 := enterKeep (stShutdown s1)
    if anyFeed s2 then startUp s2 else s2

/-- SUPERCAPACITOR_LOW: the module enters OFF (R457). The cell powers neither PREF, which comes back from the last journal entry, nor
TIME_WAIT, which takes its reset value, nor an open tally record, which is lost (R449; log 60). -/
def supercapLow (s : State) : State :=
  if s.pw.st = .keep ∧ !anyFeed s then
    { (s.setCfg 0x140020 0 (BitVec.ofNat 32 (flag s.ty.savedPref 31))).setCfg 0x140024 0 0x1E00 with
      pw.st := .off, pw.holdupOk := false, ty.open_ := none }
  else s

/-! Halts (R463). -/

/-- A halt: KEEP, for good after the third retry. -/
def halt (s : State) : State :=
  let z := enterKeep s
  { z with pw.haltAt := some s.tb.edge, pw.dead := decide (3 ≤ s.pw.retries) }

/-- HALT_RETRY after 60 s. -/
def haltRetry (s : State) : State :=
  match s.pw.haltAt with
  | none => s
  | some e =>
    if s.pw.dead || s.pw.st != .keep then s
    else
      let s1 := s.runTo (e + secEdges 60)
      startStep3 { ocxoOn s1 with pw.retries := s1.pw.retries + 1 }

/-! Module reset (R296, R421, R446, R449). -/

/-- A module reset; cause 0 PT_RESET, 1 fell silent, 2 the supervisor. A reset during a loss shutdown or out of power does not
happen. The open record is programmed first (R449). -/
def moduleReset (cause : Nat) (s : State) : State :=
  if !alive s then s
  else
    let c := if s.pr.silent then 1 else cause
    let s1 := fallSilent (tallyEvent (programOpen s) 0x02 (BitVec.ofNat 32 c))
    startStep3 { s1 with pw.fromOne := false }

end Sys2Proof.Machine
end

