-- ==== Sys2Proof/Machine/Setup.lean ====
section
/-! DEFINITION. Accesses of cores to the set-up registers (R10 to R12, R341, R458, R475 to R479, R493): what a store does, the
effects of a read, and the permissions each chapter gives. -/

namespace Sys2Proof.Machine

/-! Permissions of stores. -/

/-- Who may store to a register: everyone, nobody but partition 0 (ignored otherwise), partition 0 with ignored stores
counted in FC_WIN_IGN of a croft, an owner with ignored stores counted so, or a partition of a ring entry. -/
inductive WriteRule where
  | any
  | supervisor
  | supervisorCounted (croft : Nat)
  | owner (p croft : Nat)
  | ownerQuiet (p : Nat)
  | ring (p : Nat)
  deriving DecidableEq, Repr

/-- The rule for the register at an offset under a selector value (R64, R76, R134, R139, R148, R164, R190, R247, R261, R303,
R324, R367, R389, and the closing sentences of the register chapters). -/
def writeRule (s : State) (off sel : Nat) : WriteRule :=
  let o := off % 65536
  match off / 65536 with
  | 0 => if onGrid o 0x400 4 16 then .supervisorCounted 0 else if o = 0x100 then .supervisor else .any
  | 1 => if o < 0x10 then .supervisorCounted 0
         else if onGrid o 0x40 4 16 then .owner (ste s sel).owner 0 else .any
  | 2 => if onGrid o 0x20 4 8 then .owner (ceOwner s (sel / 4096) (sel % 2048)) (sel / 4096) else .any
  | 3 => if onGrid o 0x440 4 16 then .owner (fld (s.cfg (0x30000 + 4 * sel) 0) 4 0) 0
         else if onGrid o 0x540 4 34 then .owner (fld (s.cfg 0x30540 sel) 28 24) (sel / 16)
         else if o = 0x640 ∨ o = 0x644 then .owner (scOwner s sel) (sel / 16 * 4) else .any
  | 4 => if onGrid o 0x20 4 8 then .owner (fld (s.cfg 0x40020 sel) 28 24) (sel / 256) else .any
  | 5 => if onGrid o 0x40 4 40 then .owner (fld (s.cfg 0x50040 sel) 28 24) 0 else .any
  | 6 => if o = 0x10 then .ownerQuiet (hearthOwner s sel) else .any
  | 7 => if onGrid o 0x40 4 16 then .owner (fld (s.cfg 0x70040 sel) 28 24) 0
         else if onGrid o 0x140 4 16 then .owner (fld (s.cfg 0x70140 sel) 28 24) 0 else .any
  | 8 => if onGrid o 0x40 4 16 then .owner (fld (s.cfg 0x80040 sel) 28 24) 0 else .any
  | 9 => if onGrid o 0x40 4 12 then .owner (fld (s.cfg 0x90040 sel) 28 24) 0
         else if onGrid o 0x200 4 4 then .supervisor else .any
  | 10 => if o = 0x3004 then .supervisor else .any
  | 11 => if o = 0x8 ∨ onGrid o 0x40 4 4 then .owner (hearthOwner s (sel / 256)) (sel / 256 / 4) else .any
  | 12 => if onGrid o 0x10 4 3 then .ring (sel / 256) else .any
  | 14 => if onGrid o 0x140 4 8 then .supervisorCounted 0 else .any
  | n => if 15 ≤ n then .supervisor else .any

/-- Is the store let through, and what an ignored one counts. -/
def WriteRule.allows (r : WriteRule) (p : Nat) : Bool :=
  p == 0 || (match r with
    | .any => true | .supervisor => false | .supervisorCounted _ => false
    | .owner q _ => p == q | .ownerQuiet q => p == q | .ring q => p == q)
def WriteRule.count (r : WriteRule) (p : Nat) (s : State) : State :=
  match r with
  | .supervisorCounted c => winIgn s c
  | .owner _ c => winIgn s c
  | .ring _ => s.dbErr p
  | _ => s

/-! Stored fields. -/

/-- The value a store gives an RW field (R70, R493). -/
def clampStore (off : Nat) (v : BitVec 32) : BitVec 32 :=
  if off = 0x24 then
    b32 (v.toNat / 65536 * 65536 + clampN 1 200 (fld v 15 8) * 256 + clampN 1 15 (fld v 7 4) * 16 + clampN 1 15 (fld v 3 0))
  else if onGrid off 0x204 0x10 8 then b32 (clampN 20 999999999 v.toNat)
  else v

def setMasked (s : State) (off sel : Nat) (mask v : BitVec 32) : State :=
  s.setCfg off sel ((s.cfg off sel &&& ~~~mask) ||| (v &&& mask))

/-- A change of POL of a block input may assert it (R280). -/
def storePol (b : Nat) (mask v : BitVec 32) (s : State) : State :=
  blockCut b (pinAsserted s b) (setMasked s (0x90200 + 4 * b) 0 mask v)

/-- A store to the RW fields of a register, with what follows at once: TB_UTC takes one only with SRC = 0b01 (R52), and FW_TMO counts
from the choice of that source (R56). -/
def storeRw (off sel : Nat) (mask v : BitVec 32) (s : State) : State :=
  if mask = 0 ∨ (off = 0x44 ∧ srcSel s ≠ 1) then s
  else if onGrid off 0x90200 4 4 then storePol ((off - 0x90200) / 4) mask v s
  else if onGrid off 0x200 0x10 8 then setMasked (holdMode s ((off - 0x200) / 16) (fld v 3 0)) off sel mask v
  else
    let s1 := if off = 0x44 then setUtc (now16 s) 0 ((s.cfg 0x44 0 &&& ~~~mask) ||| (v &&& mask)) s
      else setMasked s off sel mask (clampStore off v)
    let s2 := if off = 0 ∧ srcSel s ≠ 1 ∧ srcSel s1 = 1 then { s1 with tb.lastFwOffset := s1.tb.edge } else s1
    if off = 0 ∧ s2.tb.st = .locked then refreshEst s2 else s2

/-- W1C bits (R10). -/
def storeW1c (p off : Nat) (v : BitVec 32) (s : State) : State :=
  let lane := (s.cfg 0x90000 p).toNat
  let loop := (s.cfg 0x80000 p).toNat
  if off = 0x4 then
    { s with tb.fwIgnored := s.tb.fwIgnored && !bit v 16, tb.stepRefused := s.tb.stepRefused && !bit v 13,
             tb.stepped := s.tb.stepped && !bit v 12 }
  else if off = 0x80004 then
    { s with lp.loops := Tbl.upd {} s.lp.loops loop (fun z =>
        { z with missed := z.missed && !bit v 30, limit := z.limit && !bit v 29 }) }
  else if off = 0x90004 then
    { s with lp.lanes := Tbl.upd {} s.lp.lanes lane (fun z => { z with lateFlag := z.lateFlag && !bit v 30 }) }
  else if off = 0xA3004 then { s with pt.refused := s.pt.refused && !bit v 30 }
  else if off = 0xB0004 then
    s.updSched ((s.cfg 0xB0000 p).toNat / 256) (fun z =>
      { z with miss := z.miss && !bit v 30, refusedFlag := z.refusedFlag && !bit v 29 })
  else if off = 0xC0004 then
    (let sel := (s.cfg 0xC0000 p).toNat
     s.updRing (sel / 256) (sel % 256) (fun z => { z with drop := z.drop && !bit v 31, badDb := z.badDb && !bit v 30 }))
  else if off = 0xE000C then { s with gn.imbal := s.gn.imbal && !bit v 31 }
  else if off = 0x100040 then tamperClearAct p v s
  else s

/-- No program, loop, capture or time trigger stands in the way of a step (R55). -/
def stepOk (s : State) : Bool :=
  !(s.fb.fbes.any (fun e => e.2.mode == .run)) && !(s.lp.loops.any (fun e => e.2.first.isSome)) && !anyCapture s && !anyTtuArmed s

/-- A write to PT_RESET (R296, R299). -/
def resetWrite (p : Nat) (v : BitVec 32) (s : State) : State :=
  if fld v 31 30 = 0 then (if p = 0 then moduleReset 0 s else refuseReset s) else resetRequest p (resetScope v) s

/-- A request of a planned switchover travels in the delta when it is accepted (R414, R427). -/
def switchWrite (p : Nat) (v : BitVec 32) (s : State) : State :=
  let s1 := prSwitchWrite p v s
  if s.pr.sw.isNone && s1.pr.sw.isSome then deltaSend .switch stDone s1 else s1

/-- A firmware event for the tally (R446). -/
def tyEventWrite (p : Nat) (v : BitVec 32) (s : State) : State :=
  if p = 0 then tallyEvent s (0x80 + fld v 19 16) (b32 (fld v 15 0)) else s

/-- WO fields: what a store acts on. -/
def storeWo (p off : Nat) (v : BitVec 32) (s : State) : State :=
  if off = 0 then (if bit v 4 then stepRequest (stepOk s) p s else s)
  else if off = 0x28 then fwOffset (stepOk s) p v s
  else if off = 0x90108 then forceGo p v s
  else if off = 0xA3000 then resetWrite p v s
  else if off = 0x110014 then switchWrite p v s
  else if off = 0x130014 then tyEventWrite p v s
  else s

/-- Selector value that keys a staged write: the whole of SQ_SEL for SQ_CFG too, which uses its HEARTH alone (R342). -/
def stageSel (s : State) (p off sel : Nat) : Nat := if off = 0xB0008 then (s.cfg 0xB0000 p).toNat else sel

/-- A store of /T bits (R341 to R345, R353): the standby stages nothing of its own. -/
def storeTx (p off sel : Nat) (v : BitVec 32) (s : State) : State :=
  let key := regKey off (stageSel s p off sel)
  let open_ : Bool := (s.txn p).st == .open_ && !isStandby s
  if open_ then
    let s1 := stageKey p key v s
    if (s1.txn p).keys.any (fun k => k == (key, v)) && !claimedByOther s p key then deltaSend (.staged p key v) stDone s1 else s1
  else
    let s1 := s.txIgn p
    if onGrid off 0x20020 4 8 then winIgn s1 (sel / 4096) else s1

/-- TX_IGN counts an ignored store to /T bits outside an OPEN transaction (R11, R341). -/
def countTx (p : Nat) (tx : BitVec 32) (s : State) : State := if tx ≠ 0 ∧ (s.txn p).st ≠ .open_ then s.txIgn p else s

/-- A store that its chapter's permissions ignore. -/
def storeDenied (r : WriteRule) (p : Nat) (tx : BitVec 32) (s : State) : State := countTx p tx (r.count p s)

/-- A 32-bit store by partition p to the set-up offset (R10, R11, R341, R458, R475). -/
def storeSetup (p off : Nat) (v : BitVec 32) (s : State) : State :=
  match regInfo off with
  | none => s
  | some i =>
    let sel := selValue s p i
    let r := writeRule s off sel
    if !domOn s off (sliceSel s p off) then countTx p i.tx s
    else if (off / 65536 == 15 && off != 0xF0000 && off != 0xF0010 && (s.cfg 0xF0000 p).toNat > 12) then countTx p i.tx s
    else if !r.allows p then storeDenied r p i.tx s
    else if off = 0x10 then writeAddendLo v s
    else if off = 0x14 then writeAddendHi v s
    else
      let s1 := if i.tx ≠ 0 then storeTx p off sel (v &&& i.tx) s else s
      storeWo p off v (storeW1c p off v (storeRw off sel i.rw v s1))

/-! Effects of a read (R10, R44, R60). -/

/-- Clear an RC register that partition p has read; LAST_REASON, EXEC_MAX and CRED are no RC fields. -/
def clearRc (p off : Nat) (s : State) : State :=
  let o := off % 65536
  let sel (so : Nat) : Nat := (s.cfg so p).toNat
  match off / 65536 with
  | 0 => if o = 0x118 then { s with tu.tsqOvf := 0 } else s
  | 1 =>
    if o = 0x24 then { s with ig.cnt := Tbl.upd 0 s.ig.cnt (sel 0x10020 % 65536) (fun c => if sel 0x10020 % 16 = 15 then c % 65536 else 0) }
    else if onGrid o 0x100 4 8 ∨ onGrid o 0x140 4 8 then { s with ig.other := Tbl.set 0 s.ig.other off 0 } else s
  | 2 =>
    if o = 0x8 then s.updChain (fld (s.cfg 0x20000 p) 15 12) (fld (s.cfg 0x20000 p) 10 0) (fun z => { z with satCnt := 0 })
    else if o = 0xC then { s with fc.winIgn := Tbl.set 0 s.fc.winIgn (fld (s.cfg 0x20000 p) 15 12) 0 } else s
  | 4 =>
    if o = 0x208 then { s with ph.ws := Tbl.upd {} s.ph.ws (sel 0x40200) (fun z => { z with frames := 0 }) }
    else if o = 0x20C then { s with ph.ws := Tbl.upd {} s.ph.ws (sel 0x40200) (fun z => { z with supp := 0 }) } else s
  | 5 =>
    if o = 0x14 ∧ sel 0x50010 ≠ 11 then { s with fl.cnt := Tbl.set 0 s.fl.cnt (16 * sel 0x50000 + sel 0x50010) 0 } else s
  | 7 =>
    if o = 0x14 then
      (match sel 0x70010 with
       | 0 => { s with pb.gcbs := Tbl.upd {} s.pb.gcbs (sel 0x70000) (fun z => { z with built := 0 }) }
       | 1 => { s with pb.gcbs := Tbl.upd {} s.pb.gcbs (sel 0x70000) (fun z => { z with states := 0 }) }
       | 2 => { s with pb.gcbs := Tbl.upd {} s.pb.gcbs (sel 0x70000) (fun z => { z with keyFail := 0 }) }
       | 4 => { s with pb.dsvs := Tbl.upd {} s.pb.dsvs (sel 0x70100) (fun z => { z with built := 0 }) }
       | 6 => { s with pb.dsvs := Tbl.upd {} s.pb.dsvs (sel 0x70100) (fun z => { z with keyFail := 0 }) }
       | _ => s)
    else s
  | 8 =>
    if o = 0x8 then { s with lp.loops := Tbl.upd {} s.lp.loops (sel 0x80000) (fun z => { z with missCnt := 0 }) }
    else if o = 0xC then { s with lp.loops := Tbl.upd {} s.lp.loops (sel 0x80000) (fun z => { z with satCnt := 0 }) } else s
  | 9 =>
    if o = 0xC then
      { s with lp.lanes := Tbl.upd {} s.lp.lanes (sel 0x90000) (fun z => { z with cnt := Tbl.set 0 z.cnt (sel 0x90008) 0 }) }
    else if o = 0x10C then { s with lp.forceIgn := 0 } else s
  | 10 =>
    if onGrid o 0xC 0x10 32 then s.updPart (o / 16) (fun z => { z with irqDisc := 0 })
    else if o = 0x2020 then s.updPart (sel 0xA2000 / 256) (fun z => { z with winFault := 0 }) else s
  | 11 =>
    if o = 0x14 then
      (let k := sel 0xB0000
       let up (f : Task → Task) : State := { s with sq.tasks := Tbl.upd {} s.sq.tasks k f }
       let us (f : Sched → Sched) : State := s.updSched (k / 256) f
       match sel 0xB0010 with
       | 0 => up (fun z => { z with releases := 0 }) | 1 => up (fun z => { z with misses := 0 })
       | 2 => up (fun z => { z with overrun := 0 }) | 3 => up (fun z => { z with budgetOvr := 0 })
       | 8 => us (fun z => { z with refused := (0, z.refused.2.1, z.refused.2.2) })
       | 9 => us (fun z => { z with refused := (z.refused.1, 0, z.refused.2.2) })
       | 10 => us (fun z => { z with refused := (z.refused.1, z.refused.2.1, 0) })
       | 11 => us (fun z => { z with discarded := 0 })
       | _ => s)
    else s
  | 12 =>
    if o = 0x8 then { s with db.err := Tbl.set 0 s.db.err (sel 0xC0000 / 256) 0 }
    else if o = 0xC then s.updRing (sel 0xC0000 / 256) (sel 0xC0000 % 256) (fun z => { z with dbDrop := 0 }) else s
  | 13 =>
    if o = 0xC then s.updTxn (sel 0xD0000) (fun z => { z with ign := 0 })
    else if o = 0x10 then s.updTxn (sel 0xD0000) (fun z => { z with claimRef := 0 }) else s
  | 14 =>
    if o = 0x34 then
      (let c := s.cfg 0xE0030 p
       { s with gn.cnt := Tbl.set 0 s.gn.cnt (fld c 19 16 * 65536 + fld c 12 8 * 256 + (if fld c 19 16 < 3 then fld c 2 0 else 0)) 0 })
    else s
  | 15 =>
    if o = 0x14 ∧ sel 0xF0000 ≤ 12 then
      (if sel 0xF0010 = 11 then { s with ptp.discards := Tbl.set 0 s.ptp.discards (sel 0xF0000) 0 }
       else { s with mc.cnt := Tbl.set 0 s.mc.cnt (32 * sel 0xF0000 + sel 0xF0010) 0 })
    else s
  | 17 => if o = 0x24 then { s with pr.cnt := Tbl.set 0 s.pr.cnt (sel 0x110020) 0 } else s
  | 18 => if o = 0x24 then { s with st.cnt := Tbl.set 0 s.st.cnt (sel 0x120020) 0 } else s
  | _ => s

/-- A load of a set-up register by the core of hearth h: the value goes to the core. -/
def loadSetup (h off : Nat) (s : State) : State :=
  let p := hearthOwner s h
  if off = 0x30 then readNow0 h s
  else if off = 0x114 then readTsqT3 h p s
  else
    let v := readReg s p h off
    let live : Bool := mayRead s p off && domOn s off (sliceSel s p off)
    (if live then clearRc p off s else s).updCore h (fun c => { c with result := v.setWidth 64, trap := none })

end Sys2Proof.Machine
end

