-- ==== Sys2Proof/Machine/CoreAccess.lean ====
section
/-! DEFINITION. Accesses of the cores over the physical map (R289, R473, R475): DRAM through windows, the set-up space, the
doorbell pages (R328, R329), the tally window (R451) and the interrupt pages (R294). -/

namespace Sys2Proof.Machine

/-- Can the core of hearth h reach the module: it is powered, and in SAFE only partition 0 on H00 runs (R455, R466)? -/
def corePowered (s : State) (h : Nat) : Bool := alive s && (!s.pw.safe || h == 0)
/-- Does the core of hearth h execute: its partition is RUNNING and no reset holds the hearth (R284, R297)? -/
def coreRuns (s : State) (h : Nat) : Bool :=
  corePowered s h && (s.part (hearthOwner s h)).state == .running && !inResetOf s h

/-- An access fault on the core, counted for partitions 1 to 31 (R289, R475). -/
def coreFault (h : Nat) (t : Trap) (s : State) : State :=
  let p := hearthOwner s h
  (if p = 0 then s else s.winFault p).updCore h (fun c => { c with trap := some t })
def coreLoaded (h v : Nat) (s : State) : State := s.updCore h (fun c => { c with result := BitVec.ofNat 64 v, trap := none })
def coreDone (h : Nat) (s : State) : State := s.updCore h (fun c => { c with trap := none })

/-! Doorbells. -/

/-- Are partition p's doorbells accepted (R297, R329)? -/
def doorbellsOpen (s : State) (p : Nat) : Bool := ringsServed s p

def badDoorbell (p ring : Nat) (s : State) : State :=
  let s1 := s.dbErr p
  if ring < 64 then s1.updRing p ring (fun x => { x with badDb := true }) else s1


/-- Does the doorbell with this index break a rule of R329? -/
def doorbellBad (s : State) (p : Nat) (producer : Bool) (w : BitVec 32) : Bool :=
  let r := fld w 23 16
  let i := fld w 15 0
  let c := ringCfg s p r
  let x := s.ring p r
  fld w 31 24 != 0 || decide (r > 63) || !c.en || (producer && !c.submission) || decide (c.size ≤ i)
    || (if producer then decide (ringDist c.size x.ci i < ringDist c.size x.ci x.pi)
        else decide (ringDist c.size x.ci (if c.submission then x.wi else x.pi) < ringDist c.size x.ci i))

/-- A doorbell store by the core of hearth h in the page of partition p. -/
def doorbell (h p : Nat) (producer : Bool) (w : BitVec 32) (s : State) : State :=
  if hearthOwner s h ≠ p ∨ !doorbellsOpen s p then s.dbErr p
  else if doorbellBad s p producer w then badDoorbell p (fld w 23 16) s
  else s.updRing p (fld w 23 16) (fun x => if producer then { x with pi := fld w 15 0 } else { x with ci := fld w 15 0 })

/-! Ranges above DRAM. -/

/-- A store at offset o of a doorbell page. -/
def doorbellStore (h page o size : Nat) (v : BitVec 64) (s : State) : State :=
  if size = 4 ∧ (o = 0 ∨ o = 4) then doorbell h page (o == 0) (v.setWidth 32) s else s.dbErr page

/-- A store in the interrupt pages at offset o of the range. -/
def irqPageStore (h o size : Nat) (v : BitVec 64) (s : State) : State :=
  let tgt := o / 0x8000
  let file := o % 0x8000 / 0x1000
  let at_ := o % 0x1000
  let p := hearthOwner s h
  if p ≠ 0 ∧ hearthOwner s tgt ≠ p then s.winFault p
  else if size = 4 ∧ (at_ = 0 ∨ at_ = 4) then seteipnum h tgt file (at_ == 4) (v.setWidth 32) s else s

def setupBase : Nat := 0x1000000000
def doorbellBase : Nat := 0x1100000000
def tallyBase : Nat := 0x1200000000
def irqBase : Nat := 0x1300000000

/-- Does an access lie within the doorbell pages? -/
def doorbellHits (a size : Nat) : Bool := doorbellBase ≤ a && a + size ≤ doorbellBase + 0x20000
/-- Does an access lie within the interrupt pages and outside their holes (R473, R475)? -/
def irqHits (a size : Nat) : Bool :=
  irqBase ≤ a && a + size ≤ irqBase + 0x200000 && (a - irqBase) % 0x8000 + size ≤ 0x6000

/-- A load at or above the set-up space. -/
def ioLoad (h a size : Nat) (s : State) : State :=
  if setupBase ≤ a ∧ a < setupBase + 0x150000 then
    (if size = 4 ∧ a % 4 = 0 then loadSetup h (a - setupBase) s else coreFault h (.loadFault a) s)
  else if doorbellHits a size then coreLoaded h 0 s
  else if tallyBase ≤ a ∧ a + size ≤ tallyBase + 0x1000 then
    (let x := windowRead (hearthOwner s h) (a - tallyBase) size s
     coreLoaded h x.1 x.2)
  else if irqHits a size then coreLoaded h 0 s
  else coreFault h (.loadFault a) s

/-- A store at or above the set-up space. -/
def ioStore (h a size : Nat) (v : BitVec 64) (s : State) : State :=
  if setupBase ≤ a ∧ a < setupBase + 0x150000 then
    (if size = 4 ∧ a % 4 = 0 then coreDone h (storeSetup (hearthOwner s h) (a - setupBase) (v.setWidth 32) s)
     else coreFault h (.storeFault a) s)
  else if doorbellHits a size then
    coreDone h (doorbellStore h ((a - doorbellBase) / 0x1000) ((a - doorbellBase) % 0x1000) size v s)
  else if tallyBase ≤ a ∧ a + size ≤ tallyBase + 0x1000 then coreDone h s
  else if irqHits a size then
    coreDone h (irqPageStore h (a - irqBase) size v s)
  else coreFault h (.storeFault a) s

/-- The sizes of a core access in bytes. -/
def accessSize (n : Nat) : Bool := n == 1 || n == 2 || n == 4 || n == 8

/-- A load (R289, R475). -/
def memLoad (h a size : Nat) (s : State) : State :=
  if setupBase ≤ a then ioLoad h a size s
  else
    match readBytes s (hearthOwner s h) .coreRead a size with
    | some bs => coreLoaded h (leNat bs) s
    | none => coreFault h (.loadFault a) s

/-- A store (R289, R475). -/
def memStore (h a size : Nat) (v : BitVec 64) (s : State) : State :=
  if setupBase ≤ a then ioStore h a size v s
  else
    match writeMem s (hearthOwner s h) .coreWrite a (leBytes size v.toNat) with
    | some m => coreDone h { s with dram := m }
    | none => coreFault h (.storeFault a) s

/-- A fetch: nothing at or above the set-up space is executable (R289; log 62). -/
def memFetch (h a size : Nat) (s : State) : State :=
  if setupBase ≤ a then coreFault h (.fetchFault a) s
  else
    match readBytes s (hearthOwner s h) .coreFetch a size with
    | some bs => coreLoaded h (leNat bs) s
    | none => coreFault h (.fetchFault a) s

/-- An access of a core: to memory, or a read of the CSR sqnext (R289, R313). -/
def coreAccess (h : Nat) (kind : AccessKind) (a size : Nat) (v : BitVec 64) (s : State) : State :=
  match kind with
  | .sqnext m => csrAccess s h m (sqnextRead h)
  | .load => if accessSize size then memLoad h a size s else s
  | .store => if accessSize size then memStore h a size v s else s
  | .fetch => if accessSize size then memFetch h a size s else s

/-- A 32-bit store to a set-up register by its address. -/
def setupStore (h a : Nat) (v : BitVec 32) (s : State) : State :=
  if setupBase ≤ a ∧ a < setupBase + 0x150000 then ioStore h a 4 (v.setWidth 64) s else s

end Sys2Proof.Machine
end

