-- ==== Sys2Proof/Machine/Checks.lean ====
section
/-! DEFINITION. The checks of a commit at its application edge (R347): each chapter's own, over the settings that the commit
would leave. `o` is the state before, `n` the same state with the staged keys in place. -/

namespace Sys2Proof.Machine

/-- A check that failed: its status, and the entry it is about (first offset, words, selector value). -/
structure Fail where
  status : Nat
  lo : Nat
  n : Nat
  sel : Nat
  deriving DecidableEq, Repr

def bad (lo n sel : Nat) (ok : Bool) : List Fail := if ok then [] else [⟨stBadDesc, lo, n, sel⟩]

/-- Transactional bits of a key's register. -/
def keyMask (k : Nat) : BitVec 32 := ((regInfo (k / 65536)).map (·.tx)).getD 0
/-- Selector value under which a staged key's register is stored: SQ_CFG has one for each hearth. -/
def keySel (k : Nat) : Nat := if k / 65536 = 0xB0008 then k % 65536 / 256 * 256 else k % 65536
/-- The settings with staged keys in place. -/
def putKeys (ks : List (Nat × BitVec 32)) (s : State) : State :=
  ks.foldl (fun a k => a.setCfg (k.1 / 65536) (keySel k.1)
    ((a.cfg (k.1 / 65536) (keySel k.1) &&& ~~~(keyMask k.1)) ||| (k.2 &&& keyMask k.1))) s

/-- Does a key lie in a window of n words from an offset? -/
def inEntry (lo n k : Nat) : Bool := lo ≤ k / 65536 && k / 65536 < lo + 4 * n
/-- Selector values of the staged keys of a window, rising. -/
def touched (lo n : Nat) (ks : List Nat) : List Nat := ((ks.filter (inEntry lo n)).map (· % 65536)).foldl addRising []

def winWords (s : State) (lo n sel : Nat) : List (BitVec 32) := (List.range n).map (fun i => s.cfg (lo + 4 * i) sel)

/-! Keys (R355, R286). -/

/-- Windows whose word 0 holds an OWNER field in bits 28:24 (R285). -/
def ownerWindows : List Nat := [0x10040, 0x30540, 0x40020, 0x50040, 0x70040, 0x70140, 0x80040, 0x90040]

/-- Does a key name something that only partition 0 changes: a register of the partition block, an owner register, or an OWNER
field (R284, R286, R287)? -/
def ownerKey (k : Nat) : Bool :=
  let off := k / 65536
  off / 65536 == 10 || onGrid off 0x300 4 32 || onGrid off 0x30000 4 144 || onGrid off 0x40100 4 64

def keyFail (o n : State) (p k : Nat) : List Fail :=
  let off := k / 65536
  let sel := keySel k
  let x := o.cfg off sel ^^^ n.cfg off sel
  if !domOn o off sel then [⟨stNotReady, off, 1, sel⟩]
  else if p ≠ 0 && ((ownerKey k && x != 0) || (ownerWindows.contains off && x &&& 0x1F000000 != 0)) then
    [⟨stNotPermitted, off, 1, sel⟩]
  else []

/-! Ranges. -/

def ownsCes (s : State) (p c lo hi : Nat) : Bool :=
  hi < 2048 && (List.range 32).all (fun r => !(lo / 64 ≤ r && r ≤ hi / 64) || ceOwner s c (64 * r) == p)
def ownsPts (s : State) (p c lo hi : Nat) : Bool :=
  hi < 6144 && (List.range 32).all (fun r => !(lo / 192 ≤ r && r ≤ hi / 192) || pointOwner s c (192 * r) == p)

/-! Time base and ingest (R64, R76, R79). -/

def lagFails (n : State) (ks : List Nat) : List Fail :=
  (List.range 16).flatMap (fun c =>
    bad (0x400 + 4 * c) 1 0 (!ks.contains (regKey (0x400 + 4 * c) 0) || (1 ≤ bellLag n c && bellLag n c ≤ 8)))

/-- Defined bits of the stream-table entry (R75). -/
def steReservedOk (x : Ste) (ws : List (BitVec 32)) : Bool :=
  (ws.zip steMasks).all (fun e => e.1 &&& ~~~e.2 == 0) && (x.kind != 2 || x.confRev == 0)

def sameSteKey (x y : Ste) : Bool :=
  x.kind == y.kind && x.appid == y.appid && x.mac == y.mac && x.vlanReq == y.vlanReq && (!x.vlanReq || x.vlan == y.vlan) &&
  (x.kind != 2 || x.idCrc == y.idCrc)

def steOk (n : State) (e : Nat) : Bool :=
  let x := ste n e
  let ws := steWords n e
  x.kind != 3 && x.ports < 12 && x.overlap ≤ 60 && x.margin ≤ 1000 && 1 ≤ x.loss && steReservedOk x ws &&
  (match x.kind with
   | 0 => x.rate != 3 && x.syncReq != 3 && 1 ≤ x.nch && x.nch ≤ 64 && 1 ≤ x.noAsdu && x.noAsdu ≤ 8 && 1 ≤ x.idLen && x.idLen ≤ 129 &&
          ownsCes n x.owner x.croft x.base (x.base + x.span - 1)
   | 1 => 1 ≤ x.nch && 1 ≤ x.idLen && x.idLen ≤ 129 && ownsPts n x.owner x.croft x.base (x.base + x.nch - 1)
   | _ => 1 ≤ x.nch && x.nch ≤ 4 && x.idLen == 0 && x.base / 16 == (x.base + x.nch - 1) / 16 && x.base + x.nch ≤ 64 &&
          (List.range x.nch).all (fun i => scOwner n (x.base + i) == x.owner))

def steFails (n : State) : List Fail :=
  let es := steValid n
  es.flatMap (fun e =>
    bad 0x10040 16 e (steOk n e && !es.any (fun d => d != e && sameSteKey (ste n d) (ste n e))))

def pairModeOk (n : State) : Bool := (List.range 4).all (fun q => fld (n.cfg 0x10004 0) (2 * q + 1) (2 * q) != 3)

/-! Chains, triggers and capture (R134, R138, R139, R148). -/

def chainOk (x : ChainCfg) : Bool :=
  x.nstage != 7 && x.shift ≤ 8 && x.lo ≤ x.hi && (x.scs || (x.resp.take x.nstage).all (fun r => r ≤ 0x13))
def chainFails (n : State) (ks : List Nat) : List Fail :=
  (touched 0x20020 8 ks).flatMap (fun k => bad 0x20020 8 k (chainOk (chainCfg n (k / 4096) (k % 4096))))

def surgeTrigFails (n : State) (ks : List Nat) : List Fail :=
  (touched 0x30640 2 ks).flatMap (fun k => bad 0x30640 2 k ((surgeTrigCfg n k).2.2.2 ≤ (surgeTrigCfg n k).2.2.1))

def ctOk (n : State) (k : Nat) : Bool :=
  let x := ctCfg n (k / 16) (k % 16)
  1 ≤ x.nmem && x.nmem ≤ 64 && 1 ≤ x.k && x.k ≤ x.nmem && (x.window != 0 || !(x.mode == 1 || x.mode == 2)) &&
  x.members.all (fun m => ceOwner n (k / 16) m.1 == x.owner && (placerOf n (k / 16) m.1).isSome)
def ctFails (n : State) : List Fail :=
  ((listedSel n 0x30540).filter (fun k => bit (n.cfg 0x30540 k) 31)).flatMap (fun k => bad 0x30540 34 k (ctOk n k))

def profFails (n : State) (ks : List Nat) : List Fail :=
  (touched 0x30440 16 ks).flatMap (fun g =>
    let x := profList (profWords n g)
    if x.valid && capSlots g x < x.pre + x.post then [⟨stExceeds, 0x30440, 16, g⟩] else [])

/-! Phasor groups (R164). -/

def wsUses (s : State) (sel : Nat) : Bool :=
  s.ph.ws.any (fun e => e.2.running && (cfgBlocks e.2.cfg e.2.map).1.any (fun b => b.sel == sel))

def grpOk (n : State) (sel : Nat) : Bool :=
  let x := grpCfg n sel
  let c := sel / 256
  let cov := covered n c x
  x.first ≤ x.last && ownsCes n x.owner c x.first x.last && x.sources.all (fun ce => ceOwner n c ce == x.owner && cov.contains ce) &&
  !(grpValid n).any (fun k => k != sel && k / 256 == c && (grpCfg n k).first ≤ x.last && x.first ≤ (grpCfg n k).last) &&
  (ratePeriod x.hz60 x.rate).isSome && (!x.mClass || 4800 ≤ 2 * x.f0 * x.period) &&
  cov.all (fun ce =>
    let d := decim (chainCfg n c ce)
    let r := 4800 * (placedRate n c ce).getD 1
    960 * d ≤ r && r ≤ 7200 * d)

def grpFails (o n : State) (ks : List Nat) : List Fail :=
  (grpValid n).flatMap (fun sel =>
    let x := grpCfg n sel
    bad 0x40020 8 sel (grpOk n sel) ++
    (if x.pages * 4096 < 2 * blockLen (covered n (sel / 256) x).length then [⟨stExceeds, 0x40020, 8, sel⟩] else [])) ++
  (touched 0x40020 8 ks).flatMap (fun sel =>
    bad 0x40020 8 sel (!wsUses n sel || (o.cfg 0x40020 sel ^^^ n.cfg 0x40020 sel) &&& 0xA0F00000 == 0))

/-! Lines (R191). -/

def lineOk (n : State) (l : Nat) : Bool :=
  let x := lineCfg n l
  x.sc.all (fun c => c / 16 == x.hamlet && scOwner n c == x.owner) &&
  !(linesValid n).any (fun k => k != l && (lineCfg n k).sc.any (fun c => x.sc.contains c)) &&
  x.secs.all (fun c => 0 < c.1 && fxOfInt 100 ≤ c.2 && c.2 ≤ fxOfInt 300) && x.t ≤ fxOfInt 4000000 &&
  1024 ≤ x.kSig && 1 ≤ x.wait && x.wait ≤ 1000 && 100 ≤ x.close && x.close ≤ 5000 && x.wait + x.phDelay + 100 ≤ x.close &&
  (!x.send || (x.repeats != 0 && (x.hdrLen == 42 || x.hdrLen == 46) && (x.auth == 0 || x.kValid))) &&
  (!x.imp || ((grpCfg n x.grp).valid && (grpCfg n x.grp).owner == x.owner &&
    x.ces.all (fun ce => (covered n (x.grp / 256) (grpCfg n x.grp)).contains ce)))
def lineFails (n : State) : List Fail := (linesValid n).flatMap (fun l => bad 0x50040 40 l (lineOk n l))

/-! Program banks (R237). -/

def bankFails (o n : State) (ks : List Nat) : List Fail :=
  (touched 0x60010 1 ks).flatMap (fun h =>
    bad 0x60010 1 h (o.cfg 0x60010 h == n.cfg 0x60010 h || ((o.fbe h).bank (fld (n.cfg 0x60010 h) 0 0)).isSome))

/-! Publisher (R247, R258). -/

def gcbFails (n : State) (ks : List Nat) : List Fail :=
  let t := touched 0x70040 16 ks
  (gcbValid n).flatMap (fun g =>
    bad 0x70040 16 g (if t.contains g then (gcbCheck n (gcbCfg n g)).isSome else gcbStays n g)) ++
  (if ((gcbValid n).map (fun g => (gcbCfg n g).nmem)).foldl (· + ·) 0 > 131072 then
    [⟨stExceeds, 0x70040, 16, t.headD 0⟩] else [])
def dsvFails (n : State) (ks : List Nat) : List Fail :=
  let t := touched 0x70140 16 ks
  (dsvValid n).flatMap (fun g =>
    bad 0x70140 16 g (if t.contains g then (dsvCheck n (dsvCfg n g)).isSome else dsvStays n g))

/-! Loops and lanes (R263, R273). -/

def loopOk (n : State) (l : Nat) : Bool :=
  let x := loopCfg n l
  ceOwner n x.croft x.ce == x.owner && (placerOf n x.croft x.ce).isSome && 20000 ≤ x.deadline && x.deadline ≤ 833333 &&
  x.umin ≤ x.umax && x.spSrc != 3 && (x.spSrc != 1 || (loopCfg n x.spLoop).valid) &&
  (x.spSrc != 2 || hearthOwner n (4 * x.croft + x.spHearth) == x.owner) &&
  (!x.toLane || ((laneCfg n x.lane).valid && laneOwner n x.lane == x.owner && laneHead n x.lane == x.lane &&
    !(loopsValid n).any (fun k => k != l && (loopCfg n k).toLane && (loopCfg n k).lane == x.lane)))
def loopFails (n : State) : List Fail := (loopsValid n).flatMap (fun l => bad 0x80040 16 l (loopOk n l))

def laneOk (n : State) (g : Nat) : Bool :=
  let x := laneCfg n g
  (fld (n.cfg 0x90040 g) 30 29 == 1 || fld (n.cfg 0x90040 g) 30 29 == 2) && 40 ≤ x.minPulse && x.pmin ≤ x.pmax &&
  x.fixed < x.pmin && (!x.onTime || x.wmin ≤ x.fixed) && 2 * x.wmin + (if x.pair then 2 * x.gap else 0) ≤ x.pmin &&
  !(x.pair && (g % 2 == 1 || (laneCfg n (g + 1)).valid))
def laneFails (n : State) : List Fail :=
  ((listedSel n 0x90040).filter (fun g => (laneCfg n g).valid)).flatMap (fun g => bad 0x90040 12 g (laneOk n g))

/-! Partitions and windows (R284, R290, R293, R476). -/

def holdsProgram (s : State) (h : Nat) : Bool := (s.fbe h).bank0.isSome || (s.fbe h).bank1.isSome

def partFails (o n : State) (ks : List Nat) : List Fail :=
  (List.range 32).flatMap (fun p =>
    let off := 0xA0000 + 16 * p
    bad off 1 0 (p == 0 || !ks.contains (regKey off 0) || partClass o p == partClass n p ||
      ((partClass n p == 1 || partClass n p == 2) && (hearthsOf o p).all (fun h => !holdsProgram o h))) ++
    bad off 1 0 (!partEn n p || hearthOwner n (irqHearth n p) == p))

/-- Buffers that a descriptor in flight uses, as address, length and the permissions needed (R290). -/
def flightBufs (s : State) (f : Flight) : List (Nat × Nat × List Need) :=
  let ws := f.words
  let rd := [Need.devRead]
  let wr := [Need.devWrite]
  match opcodeOf ws with
  | 0x11 => [(addr48 ws 2, fld (dw ws 4) 15 0, rd)]
  | 0x12 => [(addr48 ws 2, fld (dw ws 4) 15 0, wr)]
  | 0x32 => [(if s.pr.position = 0 then addr48 ws 6 else addr48 ws 8, fld (dw ws 10) 7 0, rd)]
  | 0x33 => [(addr48 ws 3, 28 + klenBytes (s.node (keyNode ws)).attr, wr)]
  | 0x35 => [(addr48 ws 3, fld (dw ws 5) 15 0, rd)]
  | 0x36 => [(addr48 ws 2, fld (dw ws 4) 15 0, rd), (addr48 ws 6, fld (dw ws 4) 15 0 - fld (dw ws 5) 15 0, wr)]
  | 0x37 => [(addr48 ws 2, 48, rd), (addr48 ws 4, 96, wr)]
  | 0x65 => [(addr48 ws 4, fld (dw ws 6) 15 0, rd)]
  | 0x91 => [(addr48 ws 2, (dw ws 4).toNat, rd)]
  | 0xC1 => [(addr48 ws 2, (dw ws 4).toNat, rd)]
  | 0xC2 => [(addr48 ws 2, (dw ws 4).toNat, wr)]
  | _ => []

/-- Buffers of partition p in use, as address, length and the permissions needed. -/
def buffersOf (s : State) (p : Nat) : List (Nat × Nat × List Need) :=
  let rw := [Need.devRead, Need.devWrite]
  let rings := (enabledRings s p).map (fun r => ((ringCfg s p r).base, (ringCfg s p r).size * (ringCfg s p r).slot, rw))
  let idx := if rings.isEmpty then []
    else [((s.cfg (0xC1000 + 8 * p) 0).toNat + fld (s.cfg (0xC1004 + 8 * p) 0) 15 0 * 2 ^ 32, 1024, [Need.devWrite])]
  let caps := (s.tg.caps.filter (fun e => capOwner s e.1 == p && (e.2.st != .idle || e.2.segs.any (fun g => g.2 != .free)))).map
    (fun e => (e.2.prf.buf, e.2.prf.pages * 4096, rw))
  let reps := ((grpValid s).filter (fun k => (grpCfg s k).owner == p)).map (fun k =>
    ((grpCfg s k).buf, (grpCfg s k).pages * 4096, [Need.devWrite]))
  let mir := if bit (s.cfg (0x80400 + 8 * p) 0) 0 then
      [((s.cfg (0x80400 + 8 * p) 0).toNat / 8192 * 8192 + fld (s.cfg (0x80404 + 8 * p) 0) 15 0 * 2 ^ 32, 8192, [Need.devWrite])]
    else []
  let heads := ((linesValid s).filter (fun l => (lineCfg s l).owner == p)).map (fun l => ((lineCfg s l).hdr, (lineCfg s l).hdrLen, [Need.devRead]))
  let open_ := (enabledRings s p).flatMap (fun r => ((s.ring p r).flights.filter (·.res.isNone)).flatMap (flightBufs s))
  rings ++ idx ++ caps ++ reps ++ mir ++ heads ++ open_

def windowOk (n : State) (p e : Nat) : Bool :=
  match windowAt n p e with
  | none => true
  | some w =>
    (w.dpn + w.pages) * 4096 ≤ dramTop && (w.ppn + w.pages) * 4096 ≤ 0x1000000000 &&
    (List.range 64).all (fun i => i == e || (match windowAt n p i with
      | some v => decide (w.ppn + w.pages ≤ v.ppn) || decide (v.ppn + v.pages ≤ w.ppn)
      | none => true))

def windowFails (n : State) (ks : List Nat) : List Fail :=
  (touched 0xA2010 4 ks).flatMap (fun k =>
    bad 0xA2010 4 k (windowOk n (k / 256) (k % 256) &&
      (k / 256 == 0 || (buffersOf n (k / 256)).all (fun b => b.2.2.all (fun need => canAccess n (k / 256) need b.1 b.2.1)))))

/-! Tasks (R304). -/

def taskOk (c : TaskCfg) : Bool :=
  1 ≤ c.deadline && c.deadline ≤ 1000000 && 1 ≤ c.budget && c.budget ≤ c.deadline &&
  (match c.src with
   | 0 => 10 ≤ c.period && c.phase < c.period
   | 1 => c.period % 8 ≤ 4
   | 2 => 1 ≤ c.period
   | _ => true)

/-- T of R304, in thirds of a µs. -/
def taskT3 (c : TaskCfg) : Nat :=
  match c.src with
  | 1 => 2 ^ (c.period % 8) * 625
  | 3 => 625
  | _ => 3 * c.period

/-- Is Σ BUDGET / T at most 1.0? -/
def utilOk (cs : List TaskCfg) : Bool :=
  let u := cs.foldl (fun (a : Nat × Nat) c => (a.1 * taskT3 c + 3 * c.budget * a.2, a.2 * taskT3 c)) (0, 1)
  u.1 ≤ u.2

def validTasks (s : State) (h : Nat) : List Nat := (tasksOf s h).filter (fun t => (taskCfg s h t).valid)

def taskFails (n : State) (ks : List Nat) : List Fail :=
  let t := touched 0xB0040 4 ks
  t.flatMap (fun k =>
    let h := k / 256
    let vs := validTasks n h
    let c := taskCfg n h (k % 256)
    bad 0xB0040 4 k ((!c.valid || (taskOk c && (c.evt == 0 || !vs.any (fun v => v != k % 256 && (taskCfg n h v).evt == c.evt)))) &&
      utilOk (vs.map (taskCfg n h))))

/-! Rings (R324, R290). -/

def ringPortOk (c : RingCfg) : Bool :=
  if c.type == 1 || c.type == 3 then 10 ≤ c.port && c.port ≤ 12
  else if c.type == 2 || c.type == 4 then c.port ≤ 9 else c.port == 0

/-- DRAM intervals, first byte and length, behind an area of partition p. -/
def dramSpans (n : State) (p a len : Nat) : List (Nat × Nat) :=
  if p = 0 then [(a, len)]
  else (List.range 64).filterMap (fun i => match windowAt n p i with
    | some w =>
      let lo := max a (w.ppn * 4096)
      let hi := min (a + len) ((w.ppn + w.pages) * 4096)
      if lo < hi then some (w.dpn * 4096 + (lo - w.ppn * 4096), hi - lo) else none
    | none => none)
/-- Do two areas share a byte of DRAM? -/
def spansMeet (x y : List (Nat × Nat)) : Bool := x.any (fun a => y.any (fun b => decide (a.1 < b.1 + b.2) && decide (b.1 < a.1 + a.2)))
def ringSpans (n : State) (p r : Nat) : List (Nat × Nat) := dramSpans n p (ringCfg n p r).base ((ringCfg n p r).size * (ringCfg n p r).slot)

def ringOk (o n : State) (p r : Nat) : Bool :=
  let c := ringCfg n p r
  let b := ringCfg o p r
  let area := c.size * c.slot
  !c.en ||
  ((ringType c.type).isSome && 4 ≤ c.log2 && c.log2 ≤ 16 && ringPortOk c && (c.cls == 0 || c.type == 1 || c.type == 2) &&
   (!b.en || (b.type == c.type && b.log2 == c.log2 && b.base == c.base && b.port == c.port && b.cls == c.cls)) &&
   (List.range 32).all (fun u => (enabledRings n u).all (fun q => (u == p && q == r) || !spansMeet (ringSpans n p r) (ringSpans n u q))) &&
   (p == 0 || (canAccess n p .devRead c.base area && canAccess n p .devWrite c.base area)) &&
   (b.en || p == 0 ||
     canAccess n p .devWrite ((n.cfg (0xC1000 + 8 * p) 0).toNat + fld (n.cfg (0xC1004 + 8 * p) 0) 15 0 * 2 ^ 32) 1024))

def ringFails (o n : State) (ks : List Nat) : List Fail :=
  (touched 0xC0010 3 ks).flatMap (fun k => bad 0xC0010 3 k (ringOk o n (k / 256) (k % 256)))

/-! Green, ports, pair, storage and power (R361, R368, R389, R419, R423, R443, R459). -/

def clsOk (n : State) (i : Nat) : Bool :=
  let w5 := n.cfg 0xE0154 i
  let outs := fld w5 19 0
  !bit (n.cfg 0xE0140 i) 31 ||
  (fld w5 18 13 == 0 && (if bit w5 30 then outs == 0x80000 else !bit w5 19) && (!bit w5 31 || (!bit w5 30 && outs == 0)))
def greenFails (n : State) (ks : List Nat) : List Fail :=
  bad 0xE0008 1 0 (poolX n ≤ 8192) ++ (touched 0xE0140 8 ks).flatMap (fun i => bad 0xE0140 8 i (clsOk n i))

def portOk (n : State) (q : Nat) : Bool :=
  let c := macCfg n q
  let sp := fld c 30 28
  let half := bit c 27
  ((sp == 0 && !isFibre q) || (sp != 0 && speedOk q sp)) &&
  (!half || (10 ≤ q && sp ≤ 2)) && !(bit c 25 && half && sp != 0) && (!bit c 26 || (8 ≤ q && q ≤ 9 && sp == 6)) &&
  !(bit c 22 && bit c 21) && macHold n q ≤ 10000
def portFails (n : State) (ks : List Nat) : List Fail :=
  (touched 0xF0004 2 ks).flatMap (fun q => bad 0xF0004 2 q (q > 12 || portOk n q))

def pairFails (n : State) : List Fail :=
  bad 0x110000 1 0 ((List.range 8).all (fun q => !bit (n.cfg 0x110000 0) q || fld (macCfg n q) 30 28 ≥ 3)) ++
  let w := n.cfg 0x110004 0
  let hb := fld w 11 8
  let bcn := fld w 19 14
  bad 0x110004 1 0 (hb + 2 ≤ bcn && 2 ≤ hb && hb ≤ 10 && 12 ≤ bcn && bcn ≤ 40 && 10 ≤ fld w 31 20 && fld w 31 20 ≤ 3600)

def storeFails (n : State) : List Fail :=
  bad 0x120034 1 0 (1 ≤ fld (n.cfg 0x120034 0) 7 0 && fld (n.cfg 0x120034 0) 7 0 ≤ 100)

/-- Does a port code of a single port or a pair name a port from lo to lo + 3? -/
def namesPort (code lo : Nat) : Bool :=
  if code < 8 then lo ≤ code && code < lo + 4 else code < 12 && lo ≤ 2 * (code - 8) && 2 * (code - 8) < lo + 4

/-- May domain d be switched off under the settings n (R459)? -/
def domainFree (n : State) (d : Nat) : Bool :=
  let other (p : Nat) : Bool := p != 0 && partEn n p
  if d = 3 ∨ d = 4 then
    let lo := if d = 3 then 0 else 4
    !(steValid n).any (fun e => namesPort (ste n e).ports lo) && !(gcbValid n).any (fun g => namesPort (gcbCfg n g).ports lo) &&
    !(dsvValid n).any (fun g => namesPort (dsvCfg n g).ports lo) && !(linesValid n).any (fun l => namesPort (lineCfg n l).port lo) &&
    !(List.range 32).any (fun p => (enabledRings n p).any (fun r =>
      let c := ringCfg n p r
      2 ≤ c.type && c.type ≤ 4 && c.type != 3 && lo ≤ c.port && c.port < lo + 4))
  else if d = 10 then
    !(List.range 256).any (fun l => other (loopOwner n l)) && !(List.range 24).any (fun g => other (laneOwner n g))
  else
    !(List.range 16).any (fun i => other (hearthOwner n (16 * (d - 6) + i)) || other (scOwner n (16 * (d - 6) + i)))

def powerFails (o n : State) (ks : List Nat) : List Fail :=
  if !ks.contains (regKey 0x140010 0) then []
  else
    (List.range 12).flatMap (fun d =>
      bad 0x140010 1 0 (!(bit (o.cfg 0x140010 0) d && !bit (n.cfg 0x140010 0) d) || domainFree n d))

/-! All of them. -/

/-- The checks that fail, those of single keys first. -/
def commitFails (o n : State) (p : Nat) (ks : List Nat) : List Fail :=
  ks.flatMap (keyFail o n p) ++ lagFails n ks ++ steFails n ++ bad 0x10004 1 0 (pairModeOk n) ++ chainFails n ks ++
  surgeTrigFails n ks ++ ctFails n ++ profFails n ks ++ grpFails o n ks ++ lineFails n ++ bankFails o n ks ++ gcbFails n ks ++
  dsvFails n ks ++ loopFails n ++ laneFails n ++ partFails o n ks ++ windowFails n ks ++ taskFails n ks ++ ringFails o n ks ++
  greenFails n ks ++ portFails n ks ++ pairFails n ++ storeFails n ++ powerFails o n ks

/-- The first key that a failed check is about: one of its own entry, else the first staged key (R348). -/
def failedKey (f : Fail) (ks : List Nat) : Option Nat :=
  match ks.find? (fun k => inEntry f.lo f.n k && k % 65536 == f.sel) with
  | some k => some k
  | none => ks.head?

end Sys2Proof.Machine
end

