-- ==== Sys2Proof/Machine/Apply.lean ====
section
/-! DEFINITION. TXN_APPLY (R347 to R351): the application of a commit at its slot edge, with what each chapter makes of a
committed change: histories that start again, units that stop, rings that start or end. `m` is the slot whose edge applies
it, `o` the state before and `s` the state being changed. -/

namespace Sys2Proof.Machine

/-- Did the words of an entry change? -/
def changedAt (o s : State) (lo n sel : Nat) : Bool := winWords o lo n sel != winWords s lo n sel
/-- Staged single registers on a grid whose value changed, by place on the grid. -/
def changedRegs (o s : State) (base stride n : Nat) (ks : List Nat) : List Nat :=
  (List.range n).filter (fun i =>
    ks.contains (regKey (base + stride * i) 0) && o.cfg (base + stride * i) 0 != s.cfg (base + stride * i) 0)

/-! Rings (R324, R351). -/

/-- A ring stops: what it carries ends ABORTED, its partition's pending commit too unless its edge has come, and the indices
read 0. -/
def ringOff (p r : Nat) (s : State) : State :=
  let key := 64 * p + r
  let q (k : Nat) : Bool := k == key
  let s1 := (List.range 32).foldl (fun a u => if (a.ttu u).armed ∧ (a.ttu u).ring = key then ttStop a u else a) (keysDue s)
  let s2 := (s1.tg.caps.keys.filter (fun g => (s1.cap g).st != .idle && (s1.cap g).ring == key)).foldl (fun a g => capStop g a) s1
  let x := s2.txn p
  let s3 := if x.st == .pending && x.ring == key && !applyCame s2 x then rollTxn p s2 else s2
  let s4 := { s3 with fb.fbes := s3.fb.fbes.map (fun e =>
    (e.1, { e.2 with cmds := e.2.cmds.filter (fun c => c.key != key), loads := e.2.loads.filter (fun c => c.key != key) })) }
  let s5 := cutFramesOf q (cutFlash q (cutKeyOps q s4))
  let keep (id : Nat) : Bool := (x.st == .pending && applyCame s2 x && x.ring == key && x.flight == id) || clearFlight s5 key id
  let s6 := (s5.ring p r).flights.foldl (fun b f => if f.res.isSome || f.fence || keep f.id then b else finish b p r f.id stAborted) s5
  if (s6.ring p r).flights.isEmpty then s6.updRing p r ringZero else s6

/-- Flight number of a transaction that came over the mate link: no descriptor of this unit carries it (R353). -/
def deltaFlight : Nat := 2 ^ 64

/-- A commit's write-back; on a ring that a commit disabled at the same edge it carries ABORT_IGNORED (R351). -/
def endCommit (x : Txn) (b : Wb) (s : State) : State :=
  if x.flight = deltaFlight then s else completeWon s x.ring x.flight b

/-! Before the settings change. -/

/-- A loop's fields whose change restarts its history (R270). -/
def loopSame (a b : LoopCfg) : Bool :=
  a.valid == b.valid && a.three == b.three && a.ce == b.ce && a.croft == b.croft && a.owner == b.owner && a.toLane == b.toLane

/-- A reassigned hearth undergoes a hearth reset and loses its banks; its interrupts are counted to the old owner (R286). -/
def hearthMoved (o : State) (h : Nat) (s : State) : State :=
  let run : ResetRun := { scope := .hearth h, reqEdge := s.tb.edge, effEdge := s.tb.edge, draining := true }
  fbClear h (hearthBegin (hearthOwner o h) h { s with
    pt.resets := s.pt.resets.filter (fun y => y.scope != .hearth h && y.scope != .fbe h) ++ [run] })

def applyBefore (m : Nat) (ks : List Nat) (n s : State) : State :=
  let o := s
  let s1 := ((touched 0x50040 40 ks).filter (changedAt o n 0x50040 40)).foldl (fun a l => flCut l m a) s
  let s2 := ((touched 0x80040 16 ks).filter (fun l => !loopSame (loopCfg o l) (loopCfg n l))).foldl (fun a l => loopReset l a) s1
  let s3 := (changedRegs o n 0x300 4 32 ks).foldl (fun a u => ttStop a u) s2
  let s4 := (changedRegs o n 0x30000 4 144 ks).foldl (fun a g => (capReset g a).updCap g (fun u => { u with segs := [] })) s3
  let s5 := (changedRegs o n 0x40100 4 64 ks).foldl (fun a i =>
    if (a.pws i).running then a.updPws i (fun y => { y with running := false, until_ := m }) else a) s4
  let s6 := ((touched 0xC0010 3 ks).filter (fun k =>
    (ringCfg o (k / 256) (k % 256)).en && !(ringCfg n (k / 256) (k % 256)).en)).foldl (fun a k => ringOff (k / 256) (k % 256) a) s5
  (changedRegs o n 0xA0400 4 64 ks).foldl (fun a h => hearthMoved o h a) s6

/-! Streams and chains (R98, R129, R130, R157). -/

/-- Simulated operation ends with SIM_ACCEPT = 0 (R87), and a key slot that replaces the previous one may be verified anew (R85). -/
def steKeys (old new : List (BitVec 32)) (y : StreamRt) : StreamRt :=
  let other := if y.keyB then [8, 9] else [10, 11]
  { y with sim := y.sim && (steOfList new).simAccept
           prevEnd := if other.all (fun i => old.getD i 0 == new.getD i 0) then y.prevEnd else none }

/-- Fields of a stream entry whose change returns it to WAITING (R98). -/
def steSame (a b : List (BitVec 32)) : Bool :=
  let m : List (BitVec 32) := [0xFFFCFFFF, 0xFFFFFFFF, 0xFFFFFFFF, 0xFFFFFFFF, 0xFFFFFFFF, 0xFFFFFFFF, 0xFFFFFFFF, 0xFFF00000]
  ((a.zip b).zip m).all (fun e => (e.1.1 &&& e.2) == (e.1.2 &&& e.2))

/-- Does a capture unit in service record the chain's tap? -/
def recordsChain (s : State) (g c ce : Nat) : Bool :=
  !isSurge g && capHome g == c && capInService (s.cap g) &&
  ((s.cap g).list.take (s.cap g).prf.na).any (fun w => fld w 12 0 == ce)

/-- A chain's history starts anew at the first sample of slot m (R130, R132): the loops on the channel restart (R34, R270), and captures of
its tap under the old settings end (R157). -/
def chainAnew (m c ce : Nat) (s : State) : State :=
  let s1 := s.updChain c ce (fun z => { z with restart := if z.restart.contains m then z.restart else z.restart ++ [m] })
  let s2 := (s1.tg.caps.keys.filter (fun g => recordsChain s1 g c ce)).foldl (fun a g =>
    a.updCap g (fun u => { u with cut := some (u.cut.getD m) })) s1
  restartLoops c ce s2

/-- The chains of an entry's channels restart at the first sample of slot m (R34, R132). -/
def restartChains (m : Nat) (x : Ste) (s : State) : State :=
  if x.valid && x.kind == 0 then (steChannels x).foldl (fun a ce => chainAnew m x.croft ce a) s else s


def steCommit (m : Nat) (o : State) (e : Nat) (s : State) : State :=
  let old := steWords o e
  let new := steWords s e
  let was := steOfList old
  let now := steOfList new
  let sk := s.updStream e (steKeys old new)
  if steSame old new || !(was.valid || now.valid) then sk
  else
    let s1 := if was.valid then
        { sk with ig.olds := s.ig.olds ++ [{ entry := e, until_ := m, words := old, rt := o.stream e }] } else sk
    let s2 := streamTo s1 e (if now.valid then .waiting else .idle) ⟨slotT16 m, s.quality⟩
    let s3 := s2.updStream e (fun y =>
      if now.valid then { st := y.st, keyB := y.keyB, prevEnd := y.prevEnd, failSec := y.failSec,
                          layout := if was.valid && was.confRev == now.confRev then y.layout else none } else {})
    restartChains m now (restartChains m was s3)

/-- Does a changed chain entry start the chain's history again (R130)? -/
def chainRestarts (x y : ChainCfg) : Bool :=
  x.en != y.en || x.scs != y.scs || x.nstage != y.nstage || x.gain != y.gain || x.shift != y.shift ||
  (!y.scs && x.resp.take y.nstage != y.resp.take y.nstage) || (y.scs && x.win != y.win)

def chainCommit (m : Nat) (o : State) (k : Nat) (s : State) : State :=
  let c := k / 4096
  let ce := k % 4096
  let old := winWords o 0x20020 8 k
  if !changedAt o s 0x20020 8 k then s
  else
    let again := chainRestarts (chainOf (fun i => old.getD i 0)) (chainCfg s c ce)
    let s1 := s.updChain c ce (fun z => { z with
      olds := z.olds ++ [(m, old)] })
    if again then chainAnew m c ce s1 else s1

/-- A channel range with a new owner starts its chains anew (R286). -/
def rangeMoved (m c r : Nat) (s : State) : State :=
  (s.fc.chains.keys.filter (fun k => k / 2048 == c && k % 2048 / 64 == r)).foldl (fun a k => chainAnew m c (k % 2048) a) s

/-- A surge channel with a new owner: its trigger unit and the detectors on it restart. -/
def surgeMoved (sc : Nat) (s : State) : State :=
  let s1 := { s with tg.surge := Tbl.set {} s.tg.surge sc {} }
  ((linesValid s1).filter (fun l => (lineCfg s1 l).sc.contains sc)).foldl (fun a l => detReset l a) s1

/-! Groups, lines, publisher, regulation, programs (R180, R209, R237, R245, R251, R270). -/

def grpCommit (m : Nat) (o : State) (sel : Nat) (s : State) : State :=
  let a := winWords o 0x40020 8 sel
  let b := winWords s 0x40020 8 sel
  if (a.headD 0 ^^^ b.headD 0) &&& 0xFFFC0FFF == 0 && a.drop 1 == b.drop 1 then s else phStart sel m s

def lineCommit (o : State) (l : Nat) (s : State) : State :=
  let a := lineCfg o l
  let b := lineCfg s l
  if a.valid = b.valid ∧ a.sc = b.sc ∧ a.aerial = b.aerial ∧ a.kSig = b.kSig ∧ s.cfg 0x5004C l = o.cfg 0x5004C l then s else detReset l s

def gcbPut (m : Nat) (o : State) (g : Nat) (s : State) : State :=
  if (gcbCfg s g).valid then
    match gcbCheck s (gcbCfg s g) with
    | some c => gcbSim g { t16 := slotT16 m, q := edgeQuality s m } (gcbCommit (gcbWords o g) g c s)
    | none => s
  else s.updGcb g (fun y => { built := y.built, states := y.states, keyFail := y.keyFail })
def dsvPut (g : Nat) (s : State) : State :=
  if (dsvCfg s g).valid then
    match dsvCheck s (dsvCfg s g) with
    | some c => dsvCommit g c s
    | none => s
  else s.updDsv g (fun y => { built := y.built, keyFail := y.keyFail })

def loopCommit (m : Nat) (o : State) (l : Nat) (s : State) : State :=
  let x := loopCfg s l
  if !changedAt o s 0x80040 16 l then s
  else if loopSame (loopCfg o l) x then
    let s1 := s.updLoop l (fun z => { z with
      olds := z.olds ++ [(m, loopWords o l)], next := if m ≤ z.next then ceilDiv m x.div * x.div else z.next })
    let y := loopCfg o l
    if y.toLane && y.lane != x.lane then s1.updLane y.lane (fun z => { z with ending := z.running }) else s1
  else s.updLoop l (fun z => { z with olds := [], next := ceilDiv m x.div * x.div, out := x.safe })

def laneCommit (o : State) (g : Nat) (s : State) : State :=
  let a := laneCfg o g
  let b := laneCfg s g
  if a.valid = b.valid ∧ a.owner = b.owner ∧ a.pair = b.pair then s else laneReset g s

def bankCommit (m : Nat) (o : State) (h : Nat) (s : State) : State :=
  if o.cfg 0x60010 h = s.cfg 0x60010 h then s
  else s.updFbe h (fun y => { y with
    xchg := if fld (s.cfg 0x60010 h) 0 0 = y.act then none else some m })

/-! Tasks (R305). -/

def taskCommit (o : State) (k : Nat) (s : State) : State :=
  let h := k / 256
  let t := k % 256
  let a := taskCfg o h t
  let c := taskCfg s h t
  if a.valid = c.valid ∧ a.src = c.src ∧ a.period = c.period ∧ a.phase = c.phase ∧ a.evt = c.evt then s
  else if (s.task h t).st = .ready ∨ (s.task h t).st = .running then
    s.updTask h t (fun x => { x with
      first := true, hist0 := edgeInstant s, hist := false, execMax := 0
      wake := if c.valid ∧ c.src = 0 then some (timerFrom c (edgeInstant s)) else none })
  else if c.valid then postRelease (startHistory s h t) h t
  else
    let n := ((s.sched h).posts.filter (fun q => q.task == t)).length
    startHistory (s.updSched h (fun x =>
      { x with posts := x.posts.filter (fun q => q.task != t), discarded := add32 x.discarded n })) h t

/-! Partitions and power domains (R284, R458, R459). -/

/-- A commit that sets or clears EN (R284). The programs of a started partition scan first the first cycle that begins at or after
the edge, as after a reset (R297). -/
def partCommit (o : State) (p : Nat) (s : State) : State :=
  if partEn s p && !partEn o p then
    (hearthsOf s p).foldl (fun a h => a.updFbe h (fun y => { y with from_ := max y.from_ (slotCeil (now16 s)) })) (startPartition p s)
  else if partEn o p && !partEn s p then
    resetBegin { scope := .partition p, reqEdge := s.tb.edge, effEdge := s.tb.edge, stop := true } s
  else s

/-- A domain switched off; one that FAILED stays so until the next module reset (R458). -/
def domOff (d : Nat) (s : State) : State :=
  if domSt s d = .failed then s else { s with pw.doms := Tbl.set .off s.pw.doms d .off }

/-- Domain d stops at the edge: its links, engines and hearths. -/
def domainStops (d : Nat) (s : State) : State :=
  let s0 := domOff d s
  if d = 3 ∨ d = 4 then
    (List.range 4).foldl (fun a i => if (a.mac (4 * (d - 3) + i)).link then linkLoss (4 * (d - 3) + i) false a else a) s0
  else if d = 10 then { s0 with lp := { pins := s.lp.pins } }
  else
    let w := d - 6
    let s1 := (List.range 16).foldl (fun a i => hearthBegin (hearthOwner a (16 * w + i)) (16 * w + i) a) s0
    let s2 := (s1.tg.caps.keys.filter (fun g => capHome g / (if isSurge g then 1 else 4) == w)).foldl (fun a g => capStop g a) s1
    { s2 with
      fc.chains := s2.fc.chains.filter (fun e => e.1 / 2048 / 4 != w)
      ph.groups := s2.ph.groups.filter (fun e => e.1 / 256 / 4 != w)
      tg.cts := s2.tg.cts.filter (fun e => e.1 / 16 / 4 != w), tg.surge := s2.tg.surge.filter (fun e => e.1 / 16 != w)
      fl.lines := s2.fl.lines.filter (fun e => (lineCfg s2 e.1).hamlet != w)
      ig.opens := s2.ig.opens.filter (fun e => e.1 / 4 != w) }

def domCommit (o : State) (s : State) : State :=
  let was := o.cfg 0x140010 0
  let now := s.cfg 0x140010 0
  (List.range 12).foldl (fun a d =>
    if bit now d && !bit was d && domSt a d != .failed then { a with pw.doms := Tbl.set .off a.pw.doms d .starting }
    else if bit was d && !bit now d then domainStops d a else a) s

/-! After the settings change. -/

/-- The classification table was staged: a new epoch (R369). -/
def clsCommit (o : State) (ks : List Nat) (s : State) : State :=
  if ks.any isClsKey then
    { s with gn.epoch := (s.gn.epoch + 1) % 65536, gn.oldBank := o.regs.filter (fun x => isClsKey x.1), gn.swapAt := s.tb.edge }
  else s

/-- Rings that a commit enables start with every index at 0 (R324), before anything of the same edge is recorded in them. -/
def ringsStart (ks : List Nat) (o s : State) : State :=
  ((touched 0xC0010 3 ks).filter (fun k =>
    !(ringCfg o (k / 256) (k % 256)).en && (ringCfg s (k / 256) (k % 256)).en)).foldl (fun a k =>
      a.updRing (k / 256) (k % 256) (fun y => { nextId := y.nextId, drop := y.drop, badDb := y.badDb, dbDrop := y.dbDrop })) s

def applyAfter (m : Nat) (ks : List Nat) (o s : State) : State :=
  let s0 := (changedRegs o s 0x400 4 16 ks).foldl (fun a c =>
    { a with ig.lagOld := Tbl.set (0, 0) a.ig.lagOld c (m, bellLag o c) }) (ringsStart ks o s)
  let s1 := (touched 0x10040 16 ks).foldl (fun a e => steCommit m o e a) s0
  let s2 := (touched 0x20020 8 ks).foldl (fun a k => chainCommit m o k a) s1
  let s3 := (changedRegs o s 0xA0800 4 512 ks).foldl (fun a i =>
    if (o.cfg (0xA0800 + 4 * i) 0 ^^^ s.cfg (0xA0800 + 4 * i) 0) &&& 0x1F = 0 then a else rangeMoved m (i / 32) (i % 32) a) s2
  let s4 := (changedRegs o s 0xA1800 4 64 ks).foldl (fun a c => surgeMoved c a) s3
  let s5 := (touched 0x30540 34 ks).foldl (fun a k =>
    if changedAt o s 0x30540 34 k then { a with tg.cts := Tbl.upd {} a.tg.cts k (fun z => { z with marks := [], step := 0, prev := 0 }) }
    else a) s4
  let s6 := (touched 0x40020 8 ks).foldl (fun a k => grpCommit m o k a) s5
  let s7 := (touched 0x50040 40 ks).foldl (fun a l => lineCommit o l a) s6
  let s8 := (touched 0x60010 1 ks).foldl (fun a h => bankCommit m o h a) s7
  let s9 := (touched 0x70140 16 ks).foldl (fun a g => dsvPut g a) ((touched 0x70040 16 ks).foldl (fun a g => gcbPut m o g a) s8)
  let s10 := (touched 0x80040 16 ks).foldl (fun a l => loopCommit m o l a) s9
  let s11 := (touched 0x90040 12 ks).foldl (fun a g => laneCommit o g a) s10
  let ts := touched 0xB0040 4 ks
  let s12 := ((ts.map (· / 256)).foldl addRising []).foldl (fun a h => dispatchIf (dispatchHead o h) a h)
    (ts.foldl (fun a k => taskCommit o k a) s11)
  let s13 := (touched 0xF0004 1 ks).foldl (fun a q => portChanged q (o.cfg 0xF0004 q) a) (clsCommit o ks s12)
  let s14 := (changedRegs o s 0xA0000 16 32 ks).foldl (fun a p => partCommit o p a) s13
  if ks.contains (regKey 0x140010 0) then domCommit o s14 else s14

/-- Reserved fields of a stream-table entry read 0 (R12). -/
def steMasked (ks : List (Nat × BitVec 32)) : List (Nat × BitVec 32) :=
  ks.map (fun k => if inEntry 0x10040 16 k.1 then (k.1, k.2 &&& steMasks.getD ((k.1 / 65536 - 0x10040) / 4) 0) else k)

/-- Every staged key takes effect at the edge of slot m. -/
def applyKeys (m : Nat) (kv : List (Nat × BitVec 32)) (s : State) : State :=
  let ks := kv.map Prod.fst
  let kept := steMasked kv
  let s1 := applyBefore m ks (putKeys kept s) s
  applyAfter m ks s (putKeys kept s1)

/-! The command. -/

/-- The pending commit to be applied next: among those whose edge has come the first fetched, else the earliest edge (R347,
R349). -/
def nextCommit (s : State) : Option (Nat × Txn) :=
  let l := s.tx.txns.filter (fun e => e.2.st == .pending)
  let due := l.filter (fun e => applyCame s e.2)
  if due.isEmpty then (sortBy (fun a b => decide (a.2.applySlot < b.2.applySlot) ||
      (a.2.applySlot == b.2.applySlot && decide (a.2.order ≤ b.2.order))) l).head?
  else (sortBy (fun a b => decide (a.2.order ≤ b.2.order)) due).head?

/-- Time passes to the commit's application edge: its own, or after a step past it the first edge from there (R349). -/
def toApplyEdge (x : Txn) (s : State) : State :=
  if s.tb.counter < slotCounter x.applySlot then s.waitSlot x.applySlot
  else if s.tb.counter < slotCounter (edgeNow s) + s.tb.addend then s
  else s.waitSlot (edgeNow s + 1)

/-- Write-back of a commit that a check ends (R348). -/
def failWb (s : State) (x : Txn) (f : Fail) : Wb :=
  let k := failedKey f (x.keys.map Prod.fst)
  { status := f.status, res16 := x.txid.toNat, stamp := some (stampNow s)
    words := match k with
      | some k => [(4, b32 (0x1000000000 + k / 65536)), (5, b32 (k % 256))]
      | none => [] }

/-- A publisher entry whose buffer cannot be read ends the commit and counts against its owner (R289, R247, R258); `n` holds the
staged keys in place. -/
def failReads (n : State) (ks : List Nat) (f : Fail) (s : State) : State :=
  if f.lo = 0x70040 ∧ ks.any (fun k => inEntry f.lo f.n k && k % 65536 == f.sel) ∧ !gcbReads n (gcbCfg n f.sel) then
    s.winFault (gcbCfg n f.sel).owner
  else if f.lo = 0x70140 ∧ ks.any (fun k => inEntry f.lo f.n k && k % 65536 == f.sel) ∧ !dsvReads n (dsvCfg n f.sel) then
    s.winFault (dsvCfg n f.sel).owner
  else s

/-- Note how a commit ended, and send it to the standby (R353). -/
def txnEnded (p m status : Nat) (s : State) : State :=
  deltaSend (.txnEnd p m) status (s.updTxn p (fun y => { y with ended := some (m, status) }))

/-- TXN_APPLY, with the partition and the status of the commit that was applied or ended. -/
def txnApply (s0 : State) : State × Option (Nat × Nat) :=
  match nextCommit s0 with
  | none => (s0, none)
  | some (p, x) =>
    let s := toApplyEdge x s0
    let m := edgeNow s
    match commitFails s (putKeys x.keys s) p (x.keys.map Prod.fst) with
    | f :: _ =>
      let s1 := failReads (putKeys x.keys s) (x.keys.map Prod.fst) f s
      (endCommit x (failWb s1 x f) (txnEnded p m f.status (dropTxn p s1)), some (p, f.status))
    | [] =>
      (endCommit x { status := stDone, res16 := x.txid.toNat, words := [(3, b32 x.keys.length)], stamp := some ⟨slotT16 m, s.quality⟩ }
        (txnEnded p m stDone (dropTxn p (applyKeys m x.keys s))), some (p, stDone))

end Sys2Proof.Machine
end

