-- ==== Sys2Proof/Machine/Delta.lean ====
section
/-! DEFINITION. The state delta and resynchronisation of a pair (R353, R398, R300, R414, R426). -/

namespace Sys2Proof.Machine

/-! Items of the state delta. -/

/-- A commit that the active unit made PENDING. -/
def deltaCommit (it : DeltaItem) (p slot ring : Nat) (s : State) : State :=
  if it.status ≠ stDone then dropTxn p s
  else if (s.txn p).st = .open_ then
    { s with tx.nextOrder := s.tx.nextOrder + 1 }.updTxn p (fun y =>
      { y with st := .pending, applySlot := slot, order := s.tx.nextOrder, ring := ring, flight := deltaFlight })
  else diverge 3 it.seq s

/-- An FBE descriptor that the active unit fetched: the standby's own status is compared with the active unit's (R414). -/
def deltaFbe (it : DeltaItem) (key h : Nat) (ws : List (BitVec 32)) (img : Option Bytes) (s : State) : State :=
  let p := key / 64
  let x : State × Nat := match opcodeOf ws with
    | 0x91 => fbLoadWith p key deltaFlight ws img s
    | 0x92 => fbCmdWith p key deltaFlight ws s
    | 0x93 => fbForceWith p ws s
    | _ => fbPokeWith p ws s
  let s1 := if opcodeOf ws = 0x91 ∧ x.2 = stDone then
      mateSend (x.1.updFbe h (fun y => { y with loads := y.loads.map (fun l => { l with acked := true }) })) (.imageAck h) else x.1
  if x.2 = it.status then s1 else diverge 3 it.seq s1

/-- A key change that the active unit accepted (R398): the parent's use is taken as there. -/
def deltaKey (ring node applyEdge : Nat) (k : KeyPendKind) (s : State) : State :=
  let par : Option Nat := match k with
    | .derive_ q _ _ _ _ => some q
    | .import_ q _ _ _ _ _ => some q
    | .revoke => none
  let s1 := match par with
    | some q => takeUse s q
    | none => s
  { s1 with
    ok.pends := s1.ok.pends ++ [{ ring := ring, flight := deltaFlight, node := node, applyEdge := applyEdge, order := s1.ok.nextOrder, kind := k }]
    ok.nextOrder := s1.ok.nextOrder + 1 }

/-- One item takes effect on the standby as it did on the active unit. -/
def deltaApply (it : DeltaItem) (s : State) : State :=
  match it.kind with
  | .txnBegin p =>
    if it.status ≠ stDone then s
    else if (s.txn p).st = .idle ∧ openTxns s < 8 then openTxn p s else diverge 3 it.seq s
  | .staged p key v =>
    if (s.txn p).st = .open_ ∧ !claimedByOther s p key then stageKey p key v s else diverge 3 it.seq s
  | .txnCommit p slot ring => deltaCommit it p slot ring s
  | .txnRollback p late => if late then s else if rollbackLate s p then diverge 3 it.seq s else rollTxn p s
  | .txnEnd p slot =>
    (match (s.txn p).ended with
     | some (k, st) => if k = slot ∧ st ≠ it.status then diverge 3 it.seq s else s
     | none => s)
  | .key ring node e k => deltaKey ring node e k s
  | .keyEnd node e =>
    (match s.ok.lastEnd with
     | some (n, a, st) => if n = node ∧ a = e ∧ st ≠ it.status then diverge 3 it.seq s else s
     | none => s)
  | .reset c e =>
    if s.pt.resets.any (fun x => scopeIn s c x.scope) then s
    else { s with pt.resets := s.pt.resets ++ [{ scope := c, reqEdge := e - usEdges 10, effEdge := e }] }
  | .fbe ring h ws img => deltaFbe it ring h ws img s
  | .switch => s
  | .gcb g rel => s.updGcb g (fun y => { y with rel := some rel })
  | .line l n held => s.updLine l (fun y => { y with evSeq := n, held := held })

/-- One item in sequence: a copy that has come before is dropped, and a gap is a divergence (R415, R417). -/
def deltaNext (it : DeltaItem) (s : State) : State :=
  if it.seq < s.pu.inSeq then s
  else if s.pu.inSeq < it.seq then diverge 4 it.seq { s with pu.inSeq := it.seq + 1 }
  else deltaApply it { s with pu.inSeq := it.seq + 1 }

/-- STATE_DELTA_ITEM: on a standby whose state follows the active unit's; one that waits for that state keeps the item (R426). -/
def stateDeltaItem (it : DeltaItem) (s : State) : State :=
  if s.pr.role ≠ .standby then s
  else
    match s.pr.sync, s.pu.since with
    | .synced, _ => deltaNext it s
    | .syncing, some _ => deltaNext it s
    | .syncing, none => { s with pu.items := s.pu.items ++ [it] }
    | .cold, _ => s

/-! Resynchronisation. -/

/-- The state that travels (R426). -/
def snapOf (s : State) (k : Nat) : Snap :=
  { slot := k, seq := s.pu.outSeq, regs := s.regs, ig := s.ig, fc := s.fc, ph := s.ph, fl := s.fl, fb := s.fb, pb := s.pb,
    lp := s.lp, tx := s.tx, journal := s.ok.journal }

/-- RESYNC_SNAPSHOT: the active unit captures the state at the snapshot edge S. -/
def resyncSnapshot (s : State) : State :=
  match s.pu.snapSlot with
  | none => s
  | some k =>
    if s.pr.role ≠ .active then s
    else
      let s1 := s.waitSlot k
      mateSend { s1 with snap := some (snapOf s1 k), pu.snapSlot := none } (.snapshot k)

/-- The committed settings in which the snapshot differs; this unit's own fields that no transaction holds stay. -/
def snapKeys (z : Snap) (s : State) : List (Nat × BitVec 32) :=
  let src : State := { s with regs := z.regs }
  (((s.regs ++ z.regs).map Prod.fst).map (fun k => (k, src.cfg (k / 65536) (k % 65536)))).filter (fun e =>
    s.cfg (e.1 / 65536) (e.1 % 65536) != e.2)
/-- The committed settings of the snapshot are applied as a commit applies them; while the partitions wait for the state to start
(R465) there is nothing yet that they could stop or start. -/
def snapRegs (z : Snap) (s : State) : State :=
  if s.pw.step = 9 then putKeys (snapKeys z s) s else applyKeys (edgeNow s) (snapKeys z s) s

/-- The orchard as the journal makes it: every node but the root is made again in order. -/
def snapOrchard (z : Snap) (s : State) : State :=
  let s1 := { s with ok.nodes := s.ok.nodes.filter (fun e => e.1 == 0), ok.pends := [], ok.journal := [] }
  z.journal.foldl (fun a x =>
    let y := { x with flight := deltaFlight }
    match x.kind with
    | .derive_ q _ _ _ _ => applyKey y (takeUse a q)
    | .import_ q _ _ _ _ _ => applyKey y (takeUse a q)
    | .revoke => applyKey y a) s1

/-- Transactions and FBE commands of the active unit: no descriptor of this unit carries them. -/
def snapTx (t : TxState) : TxState :=
  { t with txns := t.txns.map (fun e => (e.1, { e.2 with flight := deltaFlight })) }
def snapFb (b : FbState) : FbState :=
  { fbes := b.fbes.map (fun e => (e.1, { e.2 with
      cmds := e.2.cmds.map (fun c => { c with flight := deltaFlight })
      loads := e.2.loads.map (fun l => { l with flight := deltaFlight, acked := true }) })) }

/-- RESYNC_STATE_APPLY: the standby takes the state as of S and then the items that followed it; its partitions that wait for the
state start at the next slot multiple of 16 (R426, R465). The time base, the pair's own state, counters and the pins are this unit's own. -/
def resyncStateApply (z : Snap) (s : State) : State :=
  if s.pr.role ≠ .standby ∨ s.pr.sync ≠ .syncing ∨ s.pu.since.isSome then s
  else
    let s1 := snapOrchard z (snapRegs z s)
    let s2 := { s1 with
      tb := s.tb, pr := s.pr
      ig := { z.ig with cnt := s.ig.cnt, other := s.ig.other, dup := s.ig.dup }, fc := { z.fc with winIgn := s.fc.winIgn }
      ph := z.ph, fl := { z.fl with cnt := s.fl.cnt }, fb := snapFb z.fb, pb := z.pb, lp := { z.lp with pins := s.lp.pins }
      tx := snapTx z.tx, pu.since := some z.slot, pu.inSeq := z.seq, pu.items := [], pu.mine := [], pu.theirs := []
      pw.startAt := if s.pw.step = 9 then some (ceilDiv (edgeNow s + 1) 16 * 16) else s.pw.startAt }
    prCount (s.pu.items.foldl (fun a it => stateDeltaItem it a) s2) 5

end Sys2Proof.Machine
end

