-- ==== Sys2Proof/Machine/Boot.lean ====
section
/-! DEFINITION. Start-up from step 3 on, Darlum images and SAFE (R458, R463 to R472). -/

namespace Sys2Proof.Machine

/-! Images (R467 to R470). -/

/-- A Darlum image that passed R468. -/
structure Image where
  kind : Nat
  cls : Nat
  part : Nat
  load : Nat
  entry : Nat
  payload : Bytes
  deriving DecidableEq, Repr

def imageMagic : Nat := 0x4D4C5244
/-- Public-key hash that an image of this signer must match: the boot ROM's or the fused one (R468). -/
def signerHash (s : State) (signer : Nat) : Option Bytes :=
  if signer = 0 then some Config.marfodaHash else if signer = 1 then s.ok.ownerHash else none

/-- Verify an object as an image of one of the kinds (R468). -/
def verifyImage (s : State) (kinds : List Nat) (o : Obj) : Option Image :=
  let d := o.data
  let kind := le d 6 1
  let signer := le d 7 1
  let len := le d 32 4
  let payload := octs d 512 len
  if !o.bad.isEmpty || d.length < 512 + len || len < 1 || 536870400 < len then none
  else if le d 0 4 ≠ imageMagic ∨ le d 4 2 ≠ 1 ∨ !kinds.contains kind ∨ signer ≠ (if kind ≤ 3 then 0 else 1) then none
  else if signerHash s signer ≠ some (finBytes (Config.sha384 (octs d 96 97))) then none
  else if !Config.ecdsaVerify (octs d 96 97) (finBytes (Config.sha384 (octs d 0 200))) (octs d 200 96) then none
  else if finBytes (Config.sha384 payload) ≠ octs d 48 48 then none
  else if le d 40 8 ≠ 0 ∧ le d 40 8 ≠ Config.serial.toNat then none
  else some { kind := kind, cls := le d 8 2, part := le d 10 1, load := le d 16 8, entry := le d 24 8, payload := payload }

def loadImage (s : State) (region : Nat) (name : Bytes) (kinds : List Nat) : Option Image :=
  (findObj s region name).bind (verifyImage s kinds)

/-- A name of 32 bytes without its padding (R469). -/
def nameField (bs : Bytes) (o : Nat) : Bytes := (octs bs o 32).takeWhile (· != 0)
/-- Bundle name and image names of a manifest's payload; none when the payload does not hold them (R469). -/
def manifestNames (bs : Bytes) : Option (Bytes × List Bytes) :=
  let n := le bs 0 4
  if bs.length < 36 + 32 * n then none
  else some (nameField bs 4, (List.range n).map (fun i => nameField bs (36 + 32 * i)))

/-- The tested-combination matrix at the head of a PLATFORM payload (R470). -/
def matrixOf (bs : Bytes) : List ((Nat × Nat) × (Nat × Nat)) :=
  (List.range (min (le bs 0 4) (bs.length / 8))).map (fun i =>
    ((le bs (4 + 8 * i) 1, le bs (6 + 8 * i) 2), (le bs (8 + 8 * i) 1, le bs (10 + 8 * i) 2)))
/-- Are two (KIND, CLASS) paired: equal, or in the matrix in either order (R470)? -/
def pairedIn (m : List ((Nat × Nat) × (Nat × Nat))) (a b : Nat × Nat) : Bool :=
  a == b || m.contains (a, b) || m.contains (b, a)

/-- Why a bank failed: ENTRY and CAUSE of R471. -/
abbrev BankFail := Nat × Nat

/-- What a bank that passed gives: its images in manifest order. -/
structure BankSet where
  stage1 : Image
  bundle : Bytes
  images : List Image
  deriving DecidableEq, Repr

/-- Does the set hold exactly one PLATFORM image and at most one PARTITION image of each partition (R469)? -/
def setShape (is : List Image) : Bool :=
  (is.filter (fun x => x.kind == 2)).length == 1 &&
  (List.range 256).all (fun p => (is.filter (fun x => x.kind == 4 && x.part == p)).length ≤ 1)

/-- ENTRY of the n-th image of a set listed as stage 1, the manifest's images and the bundle (R471). -/
def setEntry (count n : Nat) : Nat := if n = 0 then 0xFF else if n ≤ count then min (n - 1) 0xFD else 0xFE

/-- The first image of a list that some image before it is not paired with (R470). -/
def firstUntested (m : List ((Nat × Nat) × (Nat × Nat))) (xs : List (Nat × Nat)) : Option Nat :=
  (List.range xs.length).find? (fun n =>
    (xs.take n).any (fun a => !pairedIn m a (xs.getD n (0, 0))))

/-- The checks of one bank's set after its stage 1 (R471 points 2 and 3). -/
def checkSet (s : State) (bank : Nat) (st1 : Image) : Sum BankFail BankSet :=
  match (loadImage s bank (ascii "set") [6]).bind (fun m => manifestNames m.payload) with
  | none => .inl (0xFF, 4)
  | some (bname, names) =>
    let imgs := names.map (fun n => loadImage s bank n [2, 3, 4])
    match indexOf (fun x : Option Image => x.isNone) imgs with
    | some i => .inl (min i 0xFD, 2)
    | none =>
      match loadImage s 2 bname [5] with
      | none => .inl (0xFE, 2)
      | some bun =>
        let is := imgs.filterMap id
        let mx := matrixOf ((is.find? (fun x => x.kind == 2)).map (·.payload) |>.getD [])
        if !setShape is then .inl (0xFF, 4)
        else
          match firstUntested mx (([st1] ++ is ++ [bun]).map (fun x => (x.kind, x.cls))) with
          | some n => .inl (setEntry is.length n, 3)
          | none => .inr { stage1 := st1, bundle := bname, images := is }

/-! SAFE and the IMAGE event (R466, R471). -/

def detailOf (entry cause booted : Nat) : BitVec 16 := BitVec.ofNat 16 (entry * 256 + cause * 16 + booted)
def imageEvent (d : BitVec 16) (s : State) : State := tallyEvent s 0x09 (d.setWidth 32)

/-- Entry of partition 0's program, which no chapter states. -/
def withEntry0 (s : State) : State :=
  { s with pw.entries := Tbl.set 0 s.pw.entries 0 (Config.freeNat 0x466 s.draws), draws := s.draws + 1 }

/-- The module enters SAFE: partition 0 runs on H00 and every port but S0 is disabled (R466). -/
def enterSafe (entry cause : Nat) (s : State) : State :=
  let d := detailOf entry cause 3
  let s1 := (List.range 12).foldl (fun a q => linkLoss q false a) (dropTxn 0 (withEntry0 s))
  let s2 := { s1 with
    pw.safe := true, pw.st := .run, pw.step := 0, pw.bundle := false, pw.startAt := none, pw.detail := d
    pw.doms := Tbl.set .off s1.pw.doms 0 .run }
  let s3 := (List.range 32).foldl (fun a p => a.updPart p (fun x => { x with state := if p = 0 then .running else .stopped })) s2
  imageEvent d (startCore 0 { s3 with cores := [] })

/-! Steps 4 to 9 (R463). -/

def bankPref (s : State) : Nat := if bit (s.cfg 0x140020 0) 31 then 1 else 0
/-- OWNER_SET (R390). -/
def ownerSet (s : State) : Bool := s.ok.ownerHash.isSome

def negotiationBegin (s : State) : State :=
  { s with pw.step := 8, pw.stepAt := s.tb.edge, pr.negAt := s.tb.edge, pr.seen := false, pr.seenActive := false }
/-- Step 7 ends when the counter is LOCKED. -/
def lockedCheck (s : State) : State := if s.pw.step = 7 ∧ s.tb.st = .locked then negotiationBegin s else s

/-- The set of a bank is booted: step 7 begins. -/
def bootBank (bank : Nat) (fail : Option BankFail) (x : BankSet) (s : State) : State :=
  let d := match fail with
    | some (e, c) => detailOf e c bank
    | none => detailOf 0xFF 0 bank
  let plat := x.images.find? (fun i => i.kind == 2)
  let s1 := withEntry0 { s with
    pw.step := 7, pw.stepAt := s.tb.edge, pw.bank := bank, pw.detail := d
    pw.platform := (plat.map (·.cls)).getD 0, pw.matrix := matrixOf ((plat.map (·.payload)).getD [])
    pw.entries := (x.images.filter (fun i => i.kind == 4)).foldl (fun t i => Tbl.set 0 t i.part i.entry) [] }
  lockedCheck (if fail.isSome then imageEvent d s1 else s1)

/-- Steps 5 and 6: the bank PREF first, then the other (R471). -/
def selectImages (s : State) : State :=
  let b0 := bankPref s
  let st1 (b : Nat) := loadImage s b (ascii "stage1") [1]
  match st1 b0, st1 (1 - b0) with
  | none, none => halt s
  | x0, x1 =>
    if !ownerSet s then enterSafe 0xFF 0xA s
    else
      let try_ (b : Nat) (x : Option Image) : Sum BankFail BankSet :=
        match x with
        | none => .inl (0xFF, 1)
        | some i => checkSet s b i
      match try_ b0 x0 with
      | .inr y => bootBank b0 none y s
      | .inl f =>
        match try_ (1 - b0) x1 with
        | .inr y => bootBank (1 - b0) (some f) y s
        | .inl _ => enterSafe f.1 9 s

/-- Step 4, then 5 and 6 (R391, R463). -/
def afterDomains (s : State) : State :=
  let s1 := { s with pw.doms := Tbl.set .off s.pw.doms 0 .run, pw.step := 4, pw.stepAt := s.tb.edge }
  let s2 := if domSt s1 1 = .run then unsealRoot s1 else { s1 with ok.unsealed := false, ok.unsealFail := true }
  if s2.ok.unsealed then selectImages { s2 with pw.step := 5 } else enterSafe 0xFF 8 s2

/-- Order of the domains in step 3. -/
def domOrder : List Nat := [1, 11, 2, 5, 3, 4, 6, 7, 8, 9, 10]

/-- The domain that comes next in step 3: the first enabled one with no result. -/
def nextDomain (s : State) : Option Nat :=
  domOrder.find? (fun d => bit (s.cfg 0x140010 0) d && (domSt s d == .off || domSt s d == .starting))

/-- PD11 in RUN: DRAM is zero, the count of starts from step 1 goes up and the journal is replayed (R444, R448, R492). -/
def pd11Up (s : State) : State :=
  let s1 := { s with dram := [], ty.cycles := if s.pw.fromOne then (s.ty.cycles + 1) % 2 ^ 32 else s.ty.cycles, pw.fromOne := false }
  replay s.pw.fromOne s1

/-- The phasor groups of a hamlet whose domain has come into RUN start their history (R34). -/
def groupsUp (d : Nat) (s : State) : State :=
  ((grpValid s).filter (fun sel => sel / 1024 + 6 == d)).foldl (fun a sel => phStart sel a.tu.nextSlot a) s

/-- DOMAIN_BIST_COMPLETE: the self-test of a starting domain ends (R458, R463 step 3). -/
def domainBistComplete (d : Nat) (pass : Bool) (s : State) : State :=
  if s.pw.st = .warm ∧ s.pw.step = 3 then
    if nextDomain s ≠ some d then s
    else
      let s1 := { s with pw.doms := Tbl.set .off s.pw.doms d (if pass then .run else .failed) }
      if !pass && (d == 2 || d == 5 || d == 6 || d == 11) then halt s1
      else
        let s2 := if d = 11 then pd11Up s1 else s1
        match nextDomain s2 with
        | some e => { s2 with pw.doms := Tbl.set .off s2.pw.doms e .starting }
        | none => afterDomains s2
  else if alive s ∧ domSt s d = .starting then
    let s1 := { s with pw.doms := Tbl.set .off s.pw.doms d (if pass then .run else .failed) }
    if pass then groupsUp d s1 else s1
  else s

/-- TIME_WAIT_EXPIRY: step 7 ends without LOCKED. -/
def timeWaitExpiry (s : State) : State :=
  if s.pw.step = 7 then negotiationBegin (s.runTo (s.pw.stepAt + secEdges (fld (s.cfg 0x140024 0) 15 8))) else s

/-! Step 9 (R464, R465, R472). -/

/-- The DRAM after a partition image is copied to where the staged windows map LOAD_ADDR; a byte that no window maps is dropped. -/
def copyImage (ws : List Window) (x : Image) (m : List Host.Cell) : List Host.Cell :=
  match ws.find? (fun w => w.hits x.load) with
  | none => m
  | some w =>
    let n := min x.payload.length ((w.ppn + w.pages) * 4096 - x.load)
    dramStores m (w.dpn * 4096 + (x.load - w.ppn * 4096)) (x.payload.take n)

/-- The bundle of the booted set and the set's images, verified again when they are read. -/
def readBundle (s : State) : Option (List (Nat × BitVec 32) × List Image) :=
  match (loadImage s s.pw.bank (ascii "set") [6]).bind (fun m => manifestNames m.payload) with
  | none => none
  | some (bname, names) =>
    (loadImage s 2 bname [5]).bind (fun b =>
      (Config.bundleEntries b.payload).map (fun es => (es, names.filterMap (fun n => loadImage s s.pw.bank n [2, 3, 4]))))

/-- BUNDLE_APPLY: stores of partition 0 in a transaction, the partition images, and a commit with AT = 0 (R464). -/
def applyBundle (s : State) : State :=
  match readBundle s with
  | none => enterSafe 0xFE 0xB s
  | some (es, imgs) =>
    let s1 := es.foldl (fun a e => storeSetup 0 e.1 e.2 a) (openTxn 0 s)
    let x := s1.txn 0
    let n := putKeys x.keys s1
    let parts : List Image := imgs.filter (fun i => i.kind == 4)
    let noImage : Bool := (List.range 32).any (fun p => p != 0 && partEn n p && !parts.any (fun (i : Image) => i.part == p))
    if noImage || x.conflict || x.overflow then enterSafe 0xFE 0xB s1
    else
      let s2 := { s1 with
        dram := parts.foldl (fun m (i : Image) => copyImage (windowsOf n i.part) i m) s1.dram
        tx.nextOrder := s1.tx.nextOrder + 1, pw.bundle := true }
      s2.updTxn 0 (fun y => { y with
        st := .pending, applySlot := slotCeil (now16 s2 + us16 20), order := s1.tx.nextOrder, ring := 0, flight := deltaFlight })

/-- The bundle's commit came to its end. -/
def bundleEnd (status : Nat) (s : State) : State :=
  if status = stDone then startPartition 0 { s with pw.bundle := false, pw.st := .run, pw.step := 0 }
  else enterSafe 0xFE 0xB s

/-- Are this unit's PLATFORM image and the neighbour's paired by this unit's matrix (R470, R472)? -/
def platformsPaired (s : State) : Bool :=
  match s.pr.neighCls with
  | some c => pairedIn s.pw.matrix (2, s.pw.platform) (2, c)
  | none => false

/-- Step 9: once HOLDUP_OK is set the active unit applies its bundle and a standby asks for the state (R463 to R465). -/
def step9 (s : State) : State :=
  if s.pw.step ≠ 9 ∨ !s.pw.holdupOk ∨ s.pw.bundle then s
  else
    match s.pr.role with
    | .active => applyBundle s
    | .standby => resyncRequest (platformsPaired s) s
    | .negotiating => s

/-- NEGOTIATION_END, with the IMAGE event of a standby whose platforms are not paired (R411, R472). -/
def negotiated (s : State) : State :=
  if s.pr.role ≠ .negotiating ∨ s.pw.step ≠ 8 ∨ s.pw.safe then s
  else
    let s1 := negotiationEnd s
    let d := detailOf 0xFF 5 s1.pw.bank
    let unpaired : Bool := s1.pr.role == .standby && s1.pr.neighCls.isSome && !platformsPaired s1
    step9 (if unpaired then imageEvent d { s1 with pw.detail := d } else s1)

/-- The partitions of a standby whose state has been applied start at their slot edge (R465). -/
def startWaiting (k : Nat) (s : State) : State :=
  let due : Bool := match s.pw.startAt with
    | some m => decide (m ≤ k)
    | none => false
  if due then
    let s1 := { s with pw.startAt := none, pw.st := .run, pw.step := 0 }
    (List.range 32).foldl (fun a p => if partEn a p then startPartition p a else a) s1
  else s

/-- HOLDUP_CHANGE (R456). -/
def holdupChange (ok : Bool) (s : State) : State :=
  if s.pw.holdupOk = ok then s
  else
    let s1 := { s with pw.holdupOk := ok }
    if ok then step9 s1 else if s.pw.st = .run ∧ alive s then feedIrq s1 else s1

end Sys2Proof.Machine
end

