-- ==== Sys2Proof/Machine/SlotEdge.lean ====
section
/-! DEFINITION. SLOT_EDGE and what comes about at a bell edge (R62 to R64, R24, R113, R126, R138, R141, R152, R169, R195,
R211, R260, R307, R318), the check of the conserved sums (R29), and the addend, the step and the forces of a slot edge. -/

namespace Sys2Proof.Machine

/-! One croft's bell. -/

/-- What one closed slot gave: content, chain outputs, surge triggers, and the points of its snapshot. -/
structure SlotWork where
  k : Nat
  out : SlotOut
  chans : Delivered := []
  surge : List Trig := []
  points : Tbl (BitVec 32 × BitVec 32) := []
  deriving DecidableEq, Repr

/-- The surge channels of entries. -/
def surgeChannels (s : State) (es : List Nat) : List Nat :=
  es.flatMap (fun e => if (ste s e).kind = 2 then (List.range (ste s e).nch).map ((ste s e).base + ·) else [])

/-- The chains of an entry that returned from LOST start anew at slot k (R99). -/
def returnRestart (k : Nat) (s : State) (e : Nat) : State :=
  let x := ste s e
  if x.kind = 0 then
    (steChannels x).foldl (fun a ce => a.updChain x.croft ce (fun z => { z with restart := z.restart ++ [k] })) s
  else s

/-- SLOT_CLOSE and CHAIN_INTAKE of slot k at the bell edge j: content, chains, surge triggers (R24, R113, R138). -/
def closeWork (c j : Nat) (acc : State × List SlotWork) (k : Nat) : State × List SlotWork :=
  let r := closeSlot c k j acc.1
  let s1 := r.2.returned.foldl (returnRestart k) r.1
  let t := r.2.chans.foldl (fun (a : State × Delivered) ch =>
    let y := chainIntake c k j a.1 ch
    (y.1, a.2 ++ [y.2])) (s1, [])
  let g := if c % 4 = 0 then surgeTriggers (c / 4) r.2.surge (surgeChannels t.1 r.2.entered) t.1 else (t.1, [])
  (g.1, acc.2 ++ [{ k := k, out := r.2, chans := t.2, surge := g.2, points := g.1.ig.points }])

/-- What the slot's content gives to captures, phasor groups, wire streams, detectors and derived streams, over the points of the
slot's own snapshot. -/
def slotReaders (c j : Nat) (comb : List Trig) (s : State) (w : SlotWork) : State :=
  let chan := w.chans.flatMap (fun e => e.2.trigs)
  let s1 := capSlot c w.k w.chans chan (comb.filter (fun t => slotOf t.at_ == w.k)) { s with ig.points := w.points }
  let s2 := phSlot c j w.chans (phDigitals c w.k s1)
  let s3 := if c % 4 = 0 then
      flSlot (c / 4) w.out.surge w.out.returned (capSurge (c / 4) w.out.surge w.surge s2)
    else s2
  dsvSlot c w.k w.chans s3

/-- BELL releases of a hearth at the bell edge j that closed the slots ks, after those of the tick (R307, R317); the first one of a
history comes at or after its start (R321). -/
def bellRelease (h j : Nat) (ks : List Nat) (s : State) : State :=
  withDispatch s h (fun a => ((tasksOf a h).filter (fun n =>
      let x := taskCfg a h n
      x.valid && x.src == 1 && (!(a.task h n).first || decide ((a.task h n).hist0 ≤ slotT16 j)) &&
        ks.any (fun k => (k + 1) % 2 ^ (x.period % 8) == 0))).foldl
    (fun b n => releaseOrOverrun b h n (slotT16 j)) (tickDue h a))

/-- BELL_EDGE of croft c at slot edge j, which closes the slots ks (R63, R318). -/
def bellEdge (c j : Nat) (ks : List Nat) (s : State) : State :=
  let w := ks.foldl (closeWork c j) (s, [])
  let all := w.2.flatMap (fun x => x.chans.flatMap (fun e => e.2.trigs))
  let cb := combined c all w.1
  let s1 := w.2.foldl (slotReaders c j cb.2) cb.1
  let hs := (List.range 4).map (4 * c + ·)
  let s2 := hs.foldl (fun a h => fbBell h j ks a) s1
  hs.foldl (fun a h => bellRelease h j ks a) s2

/-- One croft at slot edge j: slot j opens, and the slots that close now ring the bell (R24, R64). -/
def croftEdge (j : Nat) (s : State) (c : Nat) : State :=
  if domSt s (6 + c / 4) ≠ .run then s
  else
    let l := (Tbl.get [] s.ig.opens c).filter (· < j) ++ [j]
    let ks := l.filter (fun k => closeEdge s c k ≤ j)
    let s1 := { s with ig.opens := Tbl.set [] s.ig.opens c (l.filter (fun k => j < closeEdge s c k)) }
    if ks.isEmpty then s1 else bellEdge c j ks s1

/-! The slot edge. -/

/-- After a forward step from the edge of slot j, a commit whose edge the step passed waits for the first edge after it (R349). -/
def txnStepped (j : Nat) (s : State) : State :=
  { s with tx.txns := s.tx.txns.map (fun e =>
      (e.1, if e.2.st == .pending && decide (j < e.2.applySlot) && decide (e.2.applySlot < s.tu.nextSlot) then
        { e.2 with applySlot := s.tu.nextSlot } else e.2)) }

/-- A step of the counter, if its conditions hold at the edge too, restarts the phasor groups and closes the events of lines (R55, R151,
R181, R209). -/
def stepAtEdge (j : Nat) (s : State) : State :=
  if s.tb.stepBy.isNone then s
  else if !stepOk s then stepRefuse s
  else
    let s1 := counterStep s
    flStepped j (phStepped (txnStepped j (gcbStepped (now16 s) (now16 s1) s1)))

/-- A slot edge up to the point at which a step is made: the slots that close do their work and a staged addend comes into force. A
module in SAFE or without power does the work of no slot (R455, R466). -/
def edgeWork (s0 : State) : State :=
  let j := s0.tu.nextSlot
  let s := s0.waitSlot j
  let s1 := { s with tu.nextSlot := j + 1, ig.edges := ((j, s.quality) :: s.ig.edges.filter (fun e => e.1 < j)).take 32 }
  let s2 := if alive s1 && !s1.pw.safe then
      checkRows [1, 2, 3, 4, 5, 6] (phEdge j ((List.range 16).foldl (croftEdge j) s1))
    else s1
  addendLoad s2

/-- SLOT_EDGE: the next slot edge comes (R62). -/
def slotEdge (s : State) : State :=
  startWaiting s.tu.nextSlot (forceApply s.tu.nextSlot (stepAtEdge s.tu.nextSlot (edgeWork s)))

end Sys2Proof.Machine
end

