-- ==== Sys2Proof/Machine/TimeCmds.lean ====
section
/-! DEFINITION. The gates through which commands reach the module, and the commands of the time base, PTP, time triggers and
timing outputs (chapter 02), and SLOT_EDGE. -/

namespace Sys2Proof.Machine

/-! Gates (R455, R458, R460, R466). -/

/-- An access of the core of hearth h at edge t. -/
def byCore (t h : Nat) (f : State → State) (s : State) : State :=
  let x := s.runTo t
  if coreRuns x h then f x else x
/-- A doorbell store of the core of hearth h at edge t: those that reach a stopped partition or a ring in a reset are counted
(R329), so only power is asked here. -/
def byBell (t h : Nat) (f : State → State) (s : State) : State :=
  let x := s.runTo t
  if corePowered x h then f x else x
/-- A store of the core of hearth h to a set-up offset. -/
def coreStore (t h off : Nat) (v : BitVec 32) (s : State) : State := byCore t h (setupStore h (setupBase + off) v) s
/-- A load of the core of hearth h from a set-up offset. -/
def coreLoad (t h off : Nat) (s : State) : State := byCore t h (coreAccess h .load (setupBase + off) 4 0) s

/-- The domain that holds a port's PHY (R458). -/
def portDomain (q : Nat) : Nat := if q < 4 then 3 else if q < 8 then 4 else 5
/-- Does a port work: its domain runs, and in SAFE it is S0? -/
def portLive (s : State) (q : Nat) : Bool := alive s && (!s.pw.safe || q == 12) && domSt s (portDomain q) == .run
/-- Something that happens at a port at edge t. -/
def byPort (t q : Nat) (f : State → State) (s : State) : State :=
  let x := s.runTo t
  if portLive x q then f x else x
/-- Something that the module does by itself while it is powered. -/
def live (f : State → State) (s : State) : State := if alive s then f s else s

def opIs (op : Nat) : RingCfg → List (BitVec 32) → Bool := fun _ ws => opcodeOf ws == op

/-! Chapter 02. -/

def execSlotEdge (s : State) : Res := .next (slotEdge s)
def execTbAddendLoWrite (t : Nat) (h : Hearth) (v : BitVec 32) (s : State) : Res := .next (coreStore t h 0x10 v s)
def execTbAddendHiWrite (t : Nat) (h : Hearth) (v : BitVec 32) (s : State) : Res := .next (coreStore t h 0x14 v s)
def execStep (t : Nat) (h : Hearth) (v : BitVec 32) (s : State) : Res := .next (coreStore t h 0 v s)
def execTbFwOffsetWrite (t : Nat) (h : Hearth) (v : BitVec 32) (s : State) : Res := .next (lockedCheck (coreStore t h 0x28 v s))
def execTbNow0Read (t : Nat) (h : Hearth) (s : State) : Res := .next (coreLoad t h 0x30 s)
def execTbTsqT3Read (t : Nat) (h : Hearth) (s : State) : Res := .next (coreLoad t h 0x114 s)
def execRefSwitchTcxo (t : Nat) (diff : Int) (s : State) : Res := .next (refToTcxo diff (s.runTo t))

/-- The counter returns to the OCXO, which is powered while the module is (R41). -/
def execRefReturnOcxo (diff : Int) (s : State) : Res := .next (if powered s then refToOcxo diff s else s)

def execStimecmpInterrupt (h : Hearth) (virt : Bool) (cmp : BitVec 64) (s : State) : Res :=
  .next (if coreRuns s h then stimecmpAct h virt cmp s else s)
def execPtpMessageRx (t : Nat) (port : Port) (msg : PtpMsg) (s : State) : Res :=
  .next (lockedCheck (byPort t port (fun x => ptpRx (stepOk x) port msg x) s))
def execPtpMessageTx (t : Nat) (port : Port) (kind : PtpTxKind) (s : State) : Res := .next (byPort t port (ptpTx port kind) s)
def execAnnounceReceiptTimeout (s : State) : Res := .next (live announceTimeout s)
def execSyncReceiptTimeout (s : State) : Res := .next (live syncTimeout s)
def execFwTmoExpiry (s : State) : Res := .next (live fwTimeout s)
def execLeapSecond (s : State) : Res := .next (live leapSecond s)
def execTtArm (t : Nat) (p : PartId) (r : RingNo) (s : State) : Res := .next (withDesc (s.runTo t) p r (opIs 1) (ttArmAct p r))
def execTtCancel (t : Nat) (p : PartId) (r : RingNo) (s : State) : Res :=
  .next (withDesc (s.runTo t) p r (opIs 2) (ttCancelAct p r))
def execTtuFiring (u : Fin 32) (s : State) : Res := .next (live (ttuFiring u) s)
def execPpsPulse (n : Fin 8) (s : State) : Res := .next (live (ppsPulse n) s)
def execIrigBFrame (n : Fin 8) (s : State) : Res := .next (live (irigBFrame n) s)

end Sys2Proof.Machine
end

