-- ==== Sys2Proof/Machine/CoreCmds.lean ====
section
/-! DEFINITION. The commands of resets, interrupts, the cores, the scheduler, doorbells, frame rings, transactions and set-up stores (chapters
11 to 14 and 21). -/

namespace Sys2Proof.Machine

/-! Resets and interrupts (11). -/

/-- A core's request through PT_RESET (R296). -/
def resetStore (t h : Nat) (v : Nat) (s : State) : State := coreStore t h 0xA3000 (BitVec.ofNat 32 v) s

def execModuleReset (t : Nat) (h : Hearth) (s : State) : Res := .next (resetStore t h 0 s)
def execPartitionReset (t : Nat) (h : Hearth) (target : PartId) (s : State) : Res :=
  .next (resetStore t h (0x40000000 + target) s)
def execHearthReset (t : Nat) (h : Hearth) (target : Hearth) (s : State) : Res :=
  .next (resetStore t h (0x80000000 + target) s)
def execEngineResetFbe (t : Nat) (h : Hearth) (target : Hearth) (s : State) : Res :=
  .next (resetStore t h (0xC0000000 + target) s)
def execEngineResetLoop (t : Nat) (h : Hearth) (target : LoopNo) (s : State) : Res :=
  .next (resetStore t h (0xC0001000 + target) s)
def execEngineResetCapture (t : Nat) (h : Hearth) (target : Fin 144) (s : State) : Res :=
  .next (resetStore t h (0xC0002000 + target) s)
def execResetEffective (s : State) : Res := .next (live resetEffective s)
def execResetDrainComplete (t : Nat) (s : State) : Res := .next (live drainComplete (s.runTo t))

def execSeteipnum (t : Nat) (h : Hearth) (target : Hearth) (file : Fin 8) (be : Bool) (v : BitVec 32) (s : State) : Res :=
  .next (byCore t h (seteipnum h target file be v) s)
def execCoreDramAccess (t : Nat) (h : Hearth) (kind : AccessKind) (addr : Nat) (size : Nat) (data : BitVec 64) (s : State) : Res :=
  .next (byCore t h (coreAccess h kind addr size data) s)

/-! Scheduler (12). -/

/-- A scheduler CSR instruction of the core of hearth h. -/
def byCsr (t h : Nat) (m : CMode) (f : State → State) (s : State) : State := byCore t h (fun x => csrAccess x h m f) s
def execSqrun (t : Nat) (h : Hearth) (m : CMode) (task : Fin 256) (s : State) : Res := .next (byCsr t h m (fun x => withDispatch x h (sqrunAct h task)) s)
def execSqrunIdle (t : Nat) (h : Hearth) (m : CMode) (s : State) : Res :=
  .next (byCsr t h m (sqrunIdle h) s)
def execSqdone (t : Nat) (h : Hearth) (m : CMode) (s : State) : Res :=
  .next (byCsr t h m (fun x => withDispatch x h (sqdoneAct h)) s)
def execSqpost (t : Nat) (h : Hearth) (m : CMode) (tgt : Hearth) (task : Fin 256) (payload : BitVec 32) (s : State) : Res :=
  .next (byCsr t h m (fun x => checkRows [4] (withDispatch x tgt (sqpostAct h tgt task payload))) s)
def execSqtake (t : Nat) (h : Hearth) (m : CMode) (s : State) : Res := .next (byCsr t h m (fun x => checkRows [4] (sqtakeAct h x)) s)
def execDelayListRelease (h : Hearth) (s : State) : Res := .next (live (delayRelease h) s)
def execDeadlineMiss (h : Hearth) (task : Fin 256) (s : State) : Res := .next (live (deadlineMiss h task) s)
def execBudgetOverrun (h : Hearth) (s : State) : Res := .next (live (budgetOverrun h) s)

/-! Rings (13). -/

def execProducerDoorbell (t : Nat) (h : Hearth) (page : PartId) (word : BitVec 32) (s : State) : Res :=
  .next (byBell t h (fun x => checkRows [3] (doorbell h page true word x)) s)
def execConsumerDoorbell (t : Nat) (h : Hearth) (page : PartId) (word : BitVec 32) (s : State) : Res :=
  .next (byBell t h (fun x => checkRows [3] (doorbell h page false word x)) s)
def execNop (t : Nat) (p : PartId) (r : RingNo) (s : State) : Res := .next (withDesc (s.runTo t) p r (opIs 0xE0) (nopAct p r))
def execFence (t : Nat) (p : PartId) (r : RingNo) (s : State) : Res := .next (withDesc (s.runTo t) p r (opIs 0xE1) (fenceAct p r))
def execTxFrame (t : Nat) (p : PartId) (r : RingNo) (s : State) : Res := .next (withDesc (s.runTo t) p r (opIs 0x11) (txFrameAct p r))
def execRxBuf (t : Nat) (p : PartId) (r : RingNo) (s : State) : Res := .next (withDesc (s.runTo t) p r (opIs 0x12) (rxBufAct p r))

/-! Transactions (14). The active unit of a pair sends what it accepts in the state delta (R353). -/

def txnBeginSend (p r : Nat) (s : State) (f : Flight) : State :=
  let x := txnBeginAct (isStandby s) p r s f
  if (s.txn p).st = .idle ∧ (x.txn p).st = .open_ then deltaSend (.txnBegin p) stDone x else x
def txnCommitSend (p r : Nat) (s : State) (f : Flight) : State :=
  let x := txnCommitAct (isStandby s) p r s f
  if (s.txn p).st = .open_ ∧ (x.txn p).st = .pending then deltaSend (.txnCommit p (x.txn p).applySlot (64 * p + r)) stDone x
  else if (s.txn p).st = .open_ ∧ (x.txn p).st = .idle then deltaSend (.txnCommit p 0 (64 * p + r)) stConflict x
  else x
def txnRollbackSend (p r : Nat) (s : State) (f : Flight) : State :=
  let x := txnRollbackAct (isStandby s) p r s f
  if reservedOk f.words 0 [] && !isStandby s then deltaSend (.txnRollback p (rollbackLate s p)) stDone x else x

def execTxnBegin (t : Nat) (p : PartId) (r : RingNo) (s : State) : Res :=
  .next (withDesc (s.runTo t) p r (opIs 0x21) (txnBeginSend p r))
def execTxnCommit (t : Nat) (p : PartId) (r : RingNo) (s : State) : Res :=
  .next (withDesc (s.runTo t) p r (opIs 0x22) (txnCommitSend p r))
def execTxnRollback (t : Nat) (p : PartId) (r : RingNo) (s : State) : Res :=
  .next (withDesc (s.runTo t) p r (opIs 0x23) (txnRollbackSend p r))
def execStagedWrite (t : Nat) (h : Hearth) (addr : Nat) (v : BitVec 32) (s : State) : Res :=
  .next (byCore t h (setupStore h addr v) s)
def execRegisterWrite (t : Nat) (h : Hearth) (addr : Nat) (v : BitVec 32) (s : State) : Res :=
  .next (byCore t h (setupStore h addr v) s)

/-- TXN_APPLY; the end of the bundle's commit ends step 9 of start-up (R347, R464). -/
def execTxnApply (s : State) : Res :=
  let x := txnApply s
  .next (match x.2 with
    | some (p, st) => if s.pw.bundle && p == 0 then bundleEnd st x.1 else x.1
    | none => x.1)

end Sys2Proof.Machine
end

