-- ==== Sys2Proof/Machine/EngineCmds.lean ====
section
/-! DEFINITION. The commands of ingest, chains, capture, the phasor engine, fault location, the function-block engine, the
publisher and the regulation section (chapters 03 to 10). -/

namespace Sys2Proof.Machine

/-! Ingest (03). -/

/-- The ingest kind of a frame on a P port, its HSR tag removed. -/
def rowKind (s : State) (port : Nat) (o : Bytes) : Option IgKind :=
  if pairMode s port = 2 then
    (match hsrTag o with
     | some (_, o') => igKind s o'
     | none => igKind s o)
  else igKind s o
/-- Does the redundancy controller take part: from negotiation on, and not in SAFE (R411, R466)? -/
def pairLive (s : State) : Bool := alive s && !s.pw.safe && (s.pw.step == 0 || 8 ≤ s.pw.step)
/-- The beacon that a frame on a P port carries (R418, R419). -/
def beaconOf (s : State) (port : Nat) (o : Bytes) : Option Beacon :=
  let i := (etherAt o).2
  let r := be o (i + 3) 1
  let y := be o (i + 4) 1
  if port < 8 ∧ pairLive s ∧ (etherAt o).1 = 0x88B5 ∧ be o 0 2 = fld (s.cfg 0x11000C 0) 15 0 ∧ be o 2 4 = (s.cfg 0x110008 0).toNat ∧
      be o i 2 = 0x4942 ∧ be o (i + 2) 1 = 1 then
    some { position := r / 128, role := if r % 4 = 1 then .active else if r % 4 = 2 then .standby else .negotiating,
           sync := if y % 4 = 1 then .syncing else if y % 4 = 2 then .synced else .cold, fit := y / 4 % 2 == 1,
           mateUp := y / 8 % 2 == 1, pairId := be o (i + 6) 2, seq := be o (i + 8) 4, sent := stampOfBytes (octs o (i + 12) 16).reverse,
           flags := BitVec.ofNat 32 (be o (i + 28) 4) }
  else none
/-- What a port's MAC does with a frame that it receives: it takes beacons, ingest takes its kinds and the green the rest. -/
def portFrame (port : Nat) (o : Bytes) (fl : RxFlags) (s : State) : State :=
  frameRx (fun q b x => match beaconOf x q b with
    | some z => (beaconRx z x, none)
    | none => igFrameRx flArrivalMessage fl.since q b x) port o fl s
/-- A frame of one ingest kind on a P port. -/
def igRow (t port : Nat) (k : IgKind) (o : Bytes) (s : State) : State :=
  byPort t port (fun x => if rowKind x port o = some k then portFrame port o {} x else x) s

def execSvFrame (t : Nat) (port : PPort) (octets : List (BitVec 8)) (s : State) : Res := .next (igRow t port .sv octets s)
def execGooseFrame (t : Nat) (port : PPort) (octets : List (BitVec 8)) (s : State) : Res := .next (igRow t port .goose octets s)
def execGriuzSurgeFrame (t : Nat) (port : PPort) (octets : List (BitVec 8)) (s : State) : Res :=
  .next (igRow t port .surge octets s)
def execGriuzArrivalMessage (t : Nat) (port : PPort) (octets : List (BitVec 8)) (s : State) : Res :=
  .next (igRow t port .arrival octets s)
def execPrpSupervisionFrame (t : Nat) (port : PPort) (octets : List (BitVec 8)) (s : State) : Res :=
  .next (byPort t port (fun x => if (etherAt octets).1 = 0x88FB then portFrame port octets {} x else x) s)
def execKeyOverlapEnd (e : Fin 4096) (s : State) : Res := .next (live (overlapEnd e) s)
def execDuplicateEntryForgotten (q : Fin 4) (mac : Nat) (s : State) : Res := .next (live (dupForget q mac) s)
def execStreamLost (e : Fin 4096) (s : State) : Res := .next (live (streamLost e) s)
def execGooseTalExpiry (e : Fin 4096) (s : State) : Res := .next (live (talExpiry e) s)
def execChainSettled (c : Croft) (ce : Fin 2048) (s : State) : Res := .next (live (chainSettled c ce) s)

/-! Capture (05). -/

def execCapArm (t : Nat) (p : PartId) (r : RingNo) (s : State) : Res := .next (withDesc (s.runTo t) p r (opIs 0x61) (capArmAct p r))
def execCapAbort (t : Nat) (p : PartId) (r : RingNo) (s : State) : Res :=
  .next (withDesc (s.runTo t) p r (fun _ ws => opcodeOf ws == 0x62 && !bit (dw ws 0) 9) (capAbortAct p r))
def execCapAbortExport (t : Nat) (p : PartId) (r : RingNo) (s : State) : Res :=
  .next (withDesc (s.runTo t) p r (fun _ ws => opcodeOf ws == 0x62 && bit (dw ws 0) 9) (capAbortExportAct p r))
def execCapForce (t : Nat) (p : PartId) (r : RingNo) (s : State) : Res :=
  .next (withDesc (s.runTo t) p r (opIs 0x63) (capForceAct p r))
def execCapRelease (t : Nat) (p : PartId) (r : RingNo) (s : State) : Res :=
  .next (withDesc (s.runTo t) p r (opIs 0x64) (capReleaseAct p r))
def execCapExport (t : Nat) (p : PartId) (r : RingNo) (s : State) : Res :=
  .next (withDesc (s.runTo t) p r (opIs 0x65) (capExportAct p r))
def execCaptureComplete (g : Fin 144) (s : State) : Res := .next (live (captureComplete g) s)

/-! Phasor streams (06). -/

def execPhStreamStart (t : Nat) (p : PartId) (r : RingNo) (s : State) : Res :=
  .next (withDesc (s.runTo t) p r (opIs 0x72) (phStreamStartAct p r))
def execPhStreamStop (t : Nat) (p : PartId) (r : RingNo) (s : State) : Res :=
  .next (withDesc (s.runTo t) p r (opIs 0x73) (phStreamStopAct p r))
def execPhStreamMark (t : Nat) (p : PartId) (r : RingNo) (s : State) : Res :=
  .next (withDesc (s.runTo t) p r (opIs 0x74) (phStreamMarkAct p r))
def execDataFrameBuild (n : Fin 64) (s : State) : Res := .next (live (dataFrameBuild n) s)

/-! Fault location (07). -/

def execDetectorArmed (l : Fin 32) (s : State) : Res := .next (live (detectorArmed l) s)
def execArrivalsSend (l : Fin 32) (s : State) : Res := .next (live (arrivalsSend l) s)
def execPhasorsSend (l : Fin 32) (s : State) : Res := .next (live (phasorsSend l) s)
def execMessageRepeat (l : Fin 32) (s : State) : Res := .next (live (messageRepeat l) s)
def execRemoteWaitExpiry (l : Fin 32) (s : State) : Res := .next (live (remoteWait l) s)
def execSeImp (l : Fin 32) (s : State) : Res := .next (live (seImp l) s)
def execEventClose (l : Fin 32) (s : State) : Res := .next (live (eventClose l) s)

/-! Function-block engine and publisher (08, 09). -/

def execHandOff (h : Hearth) (s : State) : Res := .next (live (handOff h) s)
def execProgramExchange (h : Hearth) (s : State) : Res := .next (live (programExchange h) s)
def execFbLoad (t : Nat) (p : PartId) (r : RingNo) (s : State) : Res := .next (withDesc (s.runTo t) p r (opIs 0x91) (fbLoadAct p r))

/-- An FB_CMD of one kind; one whose CMD is none of R241's is any kind's and ends BAD_DESC. -/
def fbCmdIs (k : FbCmdKind) : RingCfg → List (BitVec 32) → Bool :=
  fun _ ws => opcodeOf ws == 0x92 && (fbCmdKind ws == some k || fbCmdKind ws == none)
def execFbCmdRun (t : Nat) (p : PartId) (r : RingNo) (s : State) : Res :=
  .next (withDesc (s.runTo t) p r (fbCmdIs .run) (fbCmdAct p r))
def execFbCmdStop (t : Nat) (p : PartId) (r : RingNo) (s : State) : Res :=
  .next (withDesc (s.runTo t) p r (fbCmdIs .stop) (fbCmdAct p r))
def execFbCmdHold (t : Nat) (p : PartId) (r : RingNo) (s : State) : Res :=
  .next (withDesc (s.runTo t) p r (fbCmdIs .hold) (fbCmdAct p r))
def execFbCmdStep (t : Nat) (p : PartId) (r : RingNo) (s : State) : Res :=
  .next (withDesc (s.runTo t) p r (fbCmdIs .step) (fbCmdAct p r))
def execFbCmdTestOn (t : Nat) (p : PartId) (r : RingNo) (s : State) : Res :=
  .next (withDesc (s.runTo t) p r (fbCmdIs .testOn) (fbCmdAct p r))
def execFbCmdTestOff (t : Nat) (p : PartId) (r : RingNo) (s : State) : Res :=
  .next (withDesc (s.runTo t) p r (fbCmdIs .testOff) (fbCmdAct p r))
def execFbForce (t : Nat) (p : PartId) (r : RingNo) (s : State) : Res :=
  .next (withDesc (s.runTo t) p r (fun _ ws => opcodeOf ws == 0x93 && !bit (dw ws 4) 0) (fbForceAct p r))
def execFbForceRelease (t : Nat) (p : PartId) (r : RingNo) (s : State) : Res :=
  .next (withDesc (s.runTo t) p r (fun _ ws => opcodeOf ws == 0x93 && bit (dw ws 4) 0) (fbForceAct p r))
def execFbPeek (t : Nat) (p : PartId) (r : RingNo) (s : State) : Res := .next (withDesc (s.runTo t) p r (opIs 0x94) (fbPeekAct p r))
def execFbPoke (t : Nat) (p : PartId) (r : RingNo) (s : State) : Res := .next (withDesc (s.runTo t) p r (opIs 0x95) (fbPokeAct p r))
def execFbLoadComplete (t : Nat) (h : Hearth) (s : State) : Res := .next (live (fbLoadComplete h) (s.runTo t))
def execImageAcknowledged (t : Nat) (h : Hearth) (s : State) : Res := .next (live (imageAcknowledged h) (s.runTo t))
def execGooseRetransmission (gcb : Fin 2048) (s : State) : Res := .next (live (gooseRetransmission gcb) s)

/-! Regulation (10). -/

def execLoopRelease (l : LoopNo) (s : State) : Res := .next (live (loopRelease l) s)
def execMissLimit (l : LoopNo) (s : State) : Res := .next (live (missLimit l) s)
def execLaneReload (g : Lane) (s : State) : Res := .next (live (laneReload g) s)
def execLaneCompare (g : Lane) (n : Fin 2) (s : State) : Res := .next (live (laneCompare g n) s)
def execBlockInputAssert (t : Nat) (b : Fin 4) (s : State) : Res := .next (blockAssert b (s.runTo t))
def execBlockInputRelease (t : Nat) (b : Fin 4) (s : State) : Res := .next (blockRelease b (s.runTo t))
def execGlForceGo (t : Nat) (h : Hearth) (v : BitVec 32) (s : State) : Res := .next (coreStore t h 0x90108 v s)

end Sys2Proof.Machine
end

