-- ==== Sys2Proof/Machine/PortCmds.lean ====
section
/-! DEFINITION. The commands of the green, the ports and the orchard (chapters 15 to 17). -/

namespace Sys2Proof.Machine

/-! Frames and ports (15, 16). -/

def execFrameTxStart (t : Nat) (port : Port) (s : State) : Res := .next (byPort t port (fun x => checkRows [2] (frameTxStart port x)) s)
def execFrameTxComplete (t : Nat) (port : Port) (s : State) : Res := .next (byPort t port (fun x => checkRows [1, 2] (frameTxComplete port x)) s)
def execFrameRx (t : Nat) (port : Port) (octets : List (BitVec 8)) (flags : RxFlags) (s : State) : Res :=
  .next (byPort t port (portFrame port octets flags) s)
def execFrameDelivery (t : Nat) (s : State) : Res := .next (live (fun x => checkRows [1, 3] (frameDelivery x)) (s.runTo t))
def execFollowUpTimeout (k : Nat) (s : State) : Res := .next (live (fun x => checkRows [1] (followUpTimeout k x)) s)
def execLinkLoss (t : Nat) (port : Port) (receiving : Bool) (s : State) : Res := .next (byPort t port (fun x => checkRows [1, 2] (linkLoss port receiving x)) s)
def execLinkUp (t : Nat) (port : Port) (speed : Fin 8) (half : Bool) (s : State) : Res :=
  .next (byPort t port (linkUp port speed half) s)
def execHoldExpiry (port : Port) (s : State) : Res := .next (live (fun x => checkRows [1] (holdExpiry port x)) s)
def execCollision (t : Nat) (port : Port) (late : Bool) (s : State) : Res := .next (byPort t port (fun x => checkRows [1, 2] (collision port late x)) s)
def execBackoffExpiry (port : Port) (s : State) : Res := .next (live (backoffExpiry port) s)
def execVerifyTimeout (port : Port) (s : State) : Res := .next (live (verifyTimeout port) s)
def execPause (t : Nat) (port : Port) (quanta : Fin 65536) (s : State) : Res := .next (byPort t port (pauseRx port quanta) s)
def execPfc (t : Nat) (port : Port) (vec : Fin 256) (times : List Nat) (s : State) : Res :=
  .next (byPort t port (pfcRx port vec times) s)
def execPauseExpiry (port : Port) (s : State) : Res := .next (live (pauseExpiry port) s)
def execPreemptionVerificationRx (t : Nat) (port : Port) (kind : VerifyKind) (s : State) : Res :=
  .next (byPort t port (verifyRx port kind) s)
/-- Test OPTICS after a poll of port q (R428): LOS on every enabled P port is FATAL, ALARM or LOS on a port that carries beacons or a stream
is a WARN. The detail is the port (log 98). -/
def opticsTest (q : Nat) (s : State) : State :=
  let los (p : Nat) : Bool := bit (s.mac p).optics.diag2 6
  let on := (List.range 8).filter (macEn s)
  if los q && q < 8 && macEn s q && on.all los then selftest 3 true (BitVec.ofNat 32 q) s
  else if (los q || bit (s.mac q).optics.diag2 3) && (decide (bcnPorts s / 2 ^ q % 2 = 1) || (steValid s).any (fun e => (portsOf (ste s e).ports).contains q)) then
    selftest 3 false (BitVec.ofNat 32 q) s
  else s
def execOpticsPoll (t : Nat) (port : Port) (reading : Option (List (BitVec 8))) (s : State) : Res :=
  .next (byPort t port (fun x => opticsTest port (opticsPoll port reading x)) s)
/-- A transceiver goes in whether the port is powered or not. -/
def execTransceiverInsertion (t : Nat) (port : Port) (a0 : List (BitVec 8)) (a2 : List (BitVec 8)) (s : State) : Res :=
  .next (transceiverIn port a0 a2 (s.runTo t))
def execTransceiverRemoval (t : Nat) (port : Port) (s : State) : Res := .next (transceiverOut port (s.runTo t))

/-! Keys (17). The active unit of a pair sends what it accepts of derives, imports and revokes in the state delta (R398). -/

/-- Send the key change that a descriptor opened. -/
def keySend (before x : State) : State :=
  if before.ok.pends.length < x.ok.pends.length then
    (match x.ok.pends.getLast? with
     | some k => deltaSend (.key k.ring k.node k.applyEdge k.kind) stDone x
     | none => x)
  else x

def execKeyDerive (t : Nat) (p : PartId) (r : RingNo) (s : State) : Res :=
  .next (withDesc (s.runTo t) p r (opIs 0x31) (fun x f => keySend x (keyDeriveAct (isStandby x) p r x f)))
def execKeyImport (t : Nat) (p : PartId) (r : RingNo) (s : State) : Res :=
  .next (withDesc (s.runTo t) p r (opIs 0x32) (fun x f => keySend x (keyImportAct (isStandby x) x.pr.position p r x f)))
def execKeyExport (t : Nat) (p : PartId) (r : RingNo) (s : State) : Res :=
  .next (withDesc (s.runTo t) p r (opIs 0x33) (keyExportAct p r))
def execKeyRevoke (t : Nat) (p : PartId) (r : RingNo) (s : State) : Res :=
  .next (withDesc (s.runTo t) p r (opIs 0x34) (fun x f => keySend x (keyRevokeAct (isStandby x) p r x f)))

/-- KEY_APPLICATION, with its check of the node slots (R29, R398). -/
def execKeyApplication (s : State) : Res :=
  .next (if s.ok.pends.isEmpty then s
    else
      let x := keyApplication s
      checkRows [5] (match x.ok.lastEnd with
        | some (n, e, st) => deltaSend (.keyEnd n e) st x
        | none => x))
def execKeyMac (t : Nat) (p : PartId) (r : RingNo) (s : State) : Res := .next (withDesc (s.runTo t) p r (opIs 0x35) (keyMacAct p r))
def execKeyAead (t : Nat) (p : PartId) (r : RingNo) (s : State) : Res :=
  .next (withDesc (s.runTo t) p r (fun _ ws => opcodeOf ws == 0x36 && !bit (dw ws 0) 9) (keyAeadAct p r))
def execKeyAeadDecrypt (t : Nat) (p : PartId) (r : RingNo) (s : State) : Res :=
  .next (withDesc (s.runTo t) p r (fun _ ws => opcodeOf ws == 0x36 && bit (dw ws 0) 9) (keyAeadAct p r))
def execKeySign (t : Nat) (p : PartId) (r : RingNo) (s : State) : Res := .next (withDesc (s.runTo t) p r (opIs 0x37) (keySignAct p r))
def execKeyPub (t : Nat) (p : PartId) (r : RingNo) (s : State) : Res := .next (withDesc (s.runTo t) p r (opIs 0x38) (keyPubAct p r))
def execKeyInfo (t : Nat) (p : PartId) (r : RingNo) (s : State) : Res := .next (withDesc (s.runTo t) p r (opIs 0x39) (keyInfoAct p r))
def execLcRequest (t : Nat) (p : PartId) (r : RingNo) (s : State) : Res :=
  .next (withDesc (s.runTo t) p r (opIs 0x3A) (lcRequestAct p r))
def execKeyUseComplete (t : Nat) (use : Nat) (s : State) : Res := .next (live (fun x => checkRows [5] (keyUseComplete use x)) (s.runTo t))
def execFuseProgrammingComplete (t : Nat) (s : State) : Res := .next (live fuseComplete (s.runTo t))

/-- TAMPER: its first edge is a FATAL self-test of a module that runs, so an active unit whose neighbour can take over falls silent (R408,
R421, R428). -/
def execTamper (t : Nat) (src : Fin 5) (s : State) : Res :=
  let x := s.runTo t
  let y := tamperEdge src x
  .next (if x.ok.latched || !alive y then y else selftest 6 true (BitVec.ofNat 32 y.ok.seen.toNat) y)
def execOkTamperWrite (t : Nat) (h : Hearth) (v : BitVec 32) (s : State) : Res := .next (coreStore t h 0x100040 v s)
def execTamperSourceClear (t : Nat) (src : Fin 5) (s : State) : Res := .next (tamperSourceClear src (s.runTo t))

end Sys2Proof.Machine
end

