-- ==== Sys2Proof/Machine/PairCmds.lean ====
section
/-! DEFINITION. The commands of the redundant pair, storage, the tally and power (chapters 18 to 20). -/

namespace Sys2Proof.Machine

/-! The pair (18). -/

def byPair (t : Nat) (f : State → State) (s : State) : State :=
  let x := s.runTo t
  if pairLive x then f x else x
def whenPair (f : State → State) (s : State) : State := if pairLive s then f s else s

def execHeartbeatSend (t : Nat) (s : State) : Res := .next (byPair t heartbeatSend s)
def execHeartbeatRx (t : Nat) (port : Fin 2) (hb : Heartbeat) (s : State) : Res := .next (byPair t (heartbeatRx port hb) s)
def execBeaconSend (t : Nat) (port : PPort) (s : State) : Res := .next (byPair t (beaconSend port) s)
def execBeaconRx (t : Nat) (port : PPort) (beacon : Beacon) (s : State) : Res :=
  .next (byPair t (fun x => if portLive x port then beaconRx beacon x else x) s)
def execHeartbeatWindowExpiry (s : State) : Res := .next (whenPair hbExpiry s)
def execBeaconWindowExpiry (s : State) : Res := .next (whenPair bcnExpiry s)
/-- What follows on the unit that becomes ACTIVE at an instant: the withheld frames that are not settled leave in the order in which
they were built, GOOSE numbering goes on from the unit before it, and the lanes emit from their next reload (R257, R282, R422, R427). -/
def outputsResume (t16 : Nat) (s : State) : State := lanesHold .dark t16 (gcbResume (releaseHeld s))

/-- TAKEOVER; a unit that still waits at step 9 becomes ACTIVE there (R420, R464). -/
def execTakeover (s : State) : Res := .next (whenPair (fun x => step9 (takeover (fun y => outputsResume (now16 y) y) x)) s)
def execNegotiationEnd (s : State) : Res := .next (live negotiated s)
def execStateDeltaItem (t : Nat) (item : DeltaItem) (s : State) : Res := .next (byPair t (stateDeltaItem item) s)
def execDecisionRecord (t : Nat) (record : Decision) (s : State) : Res := .next (byPair t (decisionRx record) s)
def execCounterpartTimeout (s : State) : Res := .next (whenPair counterpartTimeout s)
def execConfirmation (t : Nat) (id : FrameId) (s : State) : Res := .next (byPair t (settleFrame id) s)

/-- May a standby ask for the state: its platforms are paired, and in step 9 HOLDUP_OK is set (R465, R472)? -/
def mayResync (s : State) : Bool := platformsPaired s && (s.pw.step != 9 || s.pw.holdupOk)
def execResyncRequest (t : Nat) (s : State) : Res := .next (byPair t (fun x => resyncRequest (mayResync x) x) s)
def execResyncSnapshot (s : State) : Res := .next (whenPair resyncSnapshot s)
def execResyncStateApply (t : Nat) (snap : Snap) (s : State) : Res := .next (byPair t (resyncStateApply snap) s)
def execSynced (s : State) : Res := .next (whenPair synced s)
def execPrSwitch (t : Nat) (h : Hearth) (v : BitVec 32) (s : State) : Res := .next (coreStore t h 0x110014 v s)
def execRevertHoldoff (s : State) : Res := .next (whenPair revertHoldoff s)
def execSwitch (t : Nat) (at_ : Nat) (s : State) : Res := .next (byPair t (switchRx at_) s)
def execSwitchAcknowledged (t : Nat) (s : State) : Res := .next (byPair t switchAcked s)
def execGo (s : State) : Res := .next (whenPair goAct s)
def execGoAck (t : Nat) (s : State) : Res := .next (byPair t goAckRx s)
def execGoReceived (t : Nat) (s : State) : Res := .next (byPair t goRx s)
def execSwitchover (s : State) : Res := .next (whenPair (switchover outputsResume (lanesHold .lit)) s)
def execSelftest (t : Nat) (test : Fin 8) (fatal : Bool) (detail : BitVec 32) (s : State) : Res :=
  .next (live (selftest test fatal detail) (s.runTo t))
def execHealth (s : State) : Res := .next (live health s)

/-! Storage and the tally (19). -/

def execStWrite (t : Nat) (p : PartId) (r : RingNo) (s : State) : Res := .next (withDesc (s.runTo t) p r (opIs 0xC1) (stWriteAct p r))
def execStRead (t : Nat) (p : PartId) (r : RingNo) (s : State) : Res := .next (withDesc (s.runTo t) p r (opIs 0xC2) (stReadAct p r))
def execStDelete (t : Nat) (p : PartId) (r : RingNo) (s : State) : Res :=
  .next (withDesc (s.runTo t) p r (opIs 0xC3) (stDeleteAct p r))
def execStList (t : Nat) (p : PartId) (r : RingNo) (s : State) : Res := .next (withDesc (s.runTo t) p r (opIs 0xC4) (stListAct p r))
def execStAbort (t : Nat) (p : PartId) (r : RingNo) (s : State) : Res := .next (withDesc (s.runTo t) p r (opIs 0xC5) (stAbortAct p r))
def execStTallyClear (t : Nat) (p : PartId) (r : RingNo) (s : State) : Res :=
  .next (withDesc (s.runTo t) p r (opIs 0xC6) (stTallyClearAct p r))
/-- Storage goes on in the loss shutdown (R443). -/
def stored (f : State → State) (s : State) : State := if powered s then f s else s
/-- JOURNAL_COMMIT: an export frees or keeps its segment, and the sums are checked (R29, R161, R440). -/
def execJournalCommit (t : Nat) (op : Nat) (fails : Nat) (s : State) : Res :=
  .next (stored (fun x => checkRows [6] (journalCommit exportDone op fails x)) (s.runTo t))
def execStReadComplete (t : Nat) (read : Nat) (s : State) : Res := .next (stored (stReadComplete read) (s.runTo t))
def execEraseComplete (t : Nat) (blk : Nat) (ok : Bool) (s : State) : Res :=
  .next (stored (fun x => checkRows [6] (eraseComplete blk ok x)) (s.runTo t))
def execWearLevelingMove (t : Nat) (s : State) : Res := .next (live wearMove (s.runTo t))
def execBackgroundScrub (t : Nat) (blk : Nat) (codeword : Nat) (corrected : Nat) (s : State) : Res :=
  .next (live (scrub blk codeword corrected) (s.runTo t))
def execTyEvent (t : Nat) (h : Hearth) (v : BitVec 32) (s : State) : Res := .next (coreStore t h 0x130014 v s)
def execTallyWindowRead (t : Nat) (h : Hearth) (off : Nat) (size : Nat) (s : State) : Res :=
  .next (if off < 0x1000 then byCore t h (coreAccess h .load (tallyBase + off) size 0) s else s.runTo t)
def execHours16Advance (s : State) : Res := .next (hoursAdvance s)

/-! Power and start-up (20). -/

def execFeedPresent (t : Nat) (feed : Fin 2) (cls : Fin 16) (s : State) : Res := .next (feedPresent feed cls (s.runTo t))
def execFeedLoss (t : Nat) (feed : Fin 2) (s : State) : Res := .next (feedLoss feed (s.runTo t))
def execHoldupChange (t : Nat) (ok : Bool) (s : State) : Res := .next (holdupChange ok (s.runTo t))
def execSupercapacitorLow (t : Nat) (s : State) : Res := .next (supercapLow (s.runTo t))
def execShutdownExpiry (s : State) : Res := .next (shutdownExpiry s)
def execDomainBistComplete (t : Nat) (domain : Fin 12) (pass : Bool) (s : State) : Res :=
  .next (domainBistComplete domain pass (s.runTo t))
def execTimeWaitExpiry (s : State) : Res := .next (live timeWaitExpiry s)
def execHaltRetry (s : State) : Res := .next (haltRetry s)
def execSupervisorModuleReset (t : Nat) (s : State) : Res := .next (moduleReset 2 (s.runTo t))

end Sys2Proof.Machine
end

