-- ==== Sys2Proof/Machine/Dispatch.lean ====
section
/-! DEFINITION. One arm per command: its meaning, called directly. -/

namespace Sys2Proof.Machine

def exec (i : Instr) (s : State) : Host.Outcome State Fault Refusal :=
  match i with
  | .slotEdge => Sys2Proof.Machine.execSlotEdge s
  | .tbAddendLoWrite t h v => Sys2Proof.Machine.execTbAddendLoWrite t h v s
  | .tbAddendHiWrite t h v => Sys2Proof.Machine.execTbAddendHiWrite t h v s
  | .step t h v => Sys2Proof.Machine.execStep t h v s
  | .tbFwOffsetWrite t h v => Sys2Proof.Machine.execTbFwOffsetWrite t h v s
  | .tbNow0Read t h => Sys2Proof.Machine.execTbNow0Read t h s
  | .tbTsqT3Read t h => Sys2Proof.Machine.execTbTsqT3Read t h s
  | .refSwitchTcxo t diff => Sys2Proof.Machine.execRefSwitchTcxo t diff s
  | .refReturnOcxo diff => Sys2Proof.Machine.execRefReturnOcxo diff s
  | .stimecmpInterrupt h virt cmp => Sys2Proof.Machine.execStimecmpInterrupt h virt cmp s
  | .ptpMessageRx t port msg => Sys2Proof.Machine.execPtpMessageRx t port msg s
  | .ptpMessageTx t port kind => Sys2Proof.Machine.execPtpMessageTx t port kind s
  | .announceReceiptTimeout => Sys2Proof.Machine.execAnnounceReceiptTimeout s
  | .syncReceiptTimeout => Sys2Proof.Machine.execSyncReceiptTimeout s
  | .fwTmoExpiry => Sys2Proof.Machine.execFwTmoExpiry s
  | .leapSecond => Sys2Proof.Machine.execLeapSecond s
  | .ttArm t p r => Sys2Proof.Machine.execTtArm t p r s
  | .ttCancel t p r => Sys2Proof.Machine.execTtCancel t p r s
  | .ttuFiring u => Sys2Proof.Machine.execTtuFiring u s
  | .ppsPulse n => Sys2Proof.Machine.execPpsPulse n s
  | .irigBFrame n => Sys2Proof.Machine.execIrigBFrame n s
  | .svFrame t port octets => Sys2Proof.Machine.execSvFrame t port octets s
  | .gooseFrame t port octets => Sys2Proof.Machine.execGooseFrame t port octets s
  | .griuzSurgeFrame t port octets => Sys2Proof.Machine.execGriuzSurgeFrame t port octets s
  | .griuzArrivalMessage t port octets => Sys2Proof.Machine.execGriuzArrivalMessage t port octets s
  | .prpSupervisionFrame t port octets => Sys2Proof.Machine.execPrpSupervisionFrame t port octets s
  | .keyOverlapEnd e => Sys2Proof.Machine.execKeyOverlapEnd e s
  | .duplicateEntryForgotten q mac => Sys2Proof.Machine.execDuplicateEntryForgotten q mac s
  | .streamLost e => Sys2Proof.Machine.execStreamLost e s
  | .gooseTalExpiry e => Sys2Proof.Machine.execGooseTalExpiry e s
  | .chainSettled c ce => Sys2Proof.Machine.execChainSettled c ce s
  | .capArm t p r => Sys2Proof.Machine.execCapArm t p r s
  | .capAbort t p r => Sys2Proof.Machine.execCapAbort t p r s
  | .capAbortExport t p r => Sys2Proof.Machine.execCapAbortExport t p r s
  | .capForce t p r => Sys2Proof.Machine.execCapForce t p r s
  | .capRelease t p r => Sys2Proof.Machine.execCapRelease t p r s
  | .capExport t p r => Sys2Proof.Machine.execCapExport t p r s
  | .captureComplete g => Sys2Proof.Machine.execCaptureComplete g s
  | .phStreamStart t p r => Sys2Proof.Machine.execPhStreamStart t p r s
  | .phStreamStop t p r => Sys2Proof.Machine.execPhStreamStop t p r s
  | .phStreamMark t p r => Sys2Proof.Machine.execPhStreamMark t p r s
  | .dataFrameBuild n => Sys2Proof.Machine.execDataFrameBuild n s
  | .detectorArmed l => Sys2Proof.Machine.execDetectorArmed l s
  | .arrivalsSend l => Sys2Proof.Machine.execArrivalsSend l s
  | .phasorsSend l => Sys2Proof.Machine.execPhasorsSend l s
  | .messageRepeat l => Sys2Proof.Machine.execMessageRepeat l s
  | .remoteWaitExpiry l => Sys2Proof.Machine.execRemoteWaitExpiry l s
  | .seImp l => Sys2Proof.Machine.execSeImp l s
  | .eventClose l => Sys2Proof.Machine.execEventClose l s
  | .handOff h => Sys2Proof.Machine.execHandOff h s
  | .programExchange h => Sys2Proof.Machine.execProgramExchange h s
  | .fbLoad t p r => Sys2Proof.Machine.execFbLoad t p r s
  | .fbCmdRun t p r => Sys2Proof.Machine.execFbCmdRun t p r s
  | .fbCmdStop t p r => Sys2Proof.Machine.execFbCmdStop t p r s
  | .fbCmdHold t p r => Sys2Proof.Machine.execFbCmdHold t p r s
  | .fbCmdStep t p r => Sys2Proof.Machine.execFbCmdStep t p r s
  | .fbCmdTestOn t p r => Sys2Proof.Machine.execFbCmdTestOn t p r s
  | .fbCmdTestOff t p r => Sys2Proof.Machine.execFbCmdTestOff t p r s
  | .fbForce t p r => Sys2Proof.Machine.execFbForce t p r s
  | .fbForceRelease t p r => Sys2Proof.Machine.execFbForceRelease t p r s
  | .fbPeek t p r => Sys2Proof.Machine.execFbPeek t p r s
  | .fbPoke t p r => Sys2Proof.Machine.execFbPoke t p r s
  | .gooseRetransmission gcb => Sys2Proof.Machine.execGooseRetransmission gcb s
  | .loopRelease l => Sys2Proof.Machine.execLoopRelease l s
  | .missLimit l => Sys2Proof.Machine.execMissLimit l s
  | .laneReload g => Sys2Proof.Machine.execLaneReload g s
  | .laneCompare g n => Sys2Proof.Machine.execLaneCompare g n s
  | .blockInputAssert t b => Sys2Proof.Machine.execBlockInputAssert t b s
  | .blockInputRelease t b => Sys2Proof.Machine.execBlockInputRelease t b s
  | .glForceGo t h v => Sys2Proof.Machine.execGlForceGo t h v s
  | .moduleReset t h => Sys2Proof.Machine.execModuleReset t h s
  | .partitionReset t h target => Sys2Proof.Machine.execPartitionReset t h target s
  | .hearthReset t h target => Sys2Proof.Machine.execHearthReset t h target s
  | .engineResetFbe t h target => Sys2Proof.Machine.execEngineResetFbe t h target s
  | .engineResetLoop t h target => Sys2Proof.Machine.execEngineResetLoop t h target s
  | .engineResetCapture t h target => Sys2Proof.Machine.execEngineResetCapture t h target s
  | .resetEffective => Sys2Proof.Machine.execResetEffective s
  | .resetDrainComplete t => Sys2Proof.Machine.execResetDrainComplete t s
  | .seteipnum t h target file be v => Sys2Proof.Machine.execSeteipnum t h target file be v s
  | .coreDramAccess t h kind addr size data => Sys2Proof.Machine.execCoreDramAccess t h kind addr size data s
  | .delayListRelease h => Sys2Proof.Machine.execDelayListRelease h s
  | .deadlineMiss h task => Sys2Proof.Machine.execDeadlineMiss h task s
  | .budgetOverrun h => Sys2Proof.Machine.execBudgetOverrun h s
  | .sqrun t h mode task => Sys2Proof.Machine.execSqrun t h mode task s
  | .sqrunIdle t h mode => Sys2Proof.Machine.execSqrunIdle t h mode s
  | .sqdone t h mode => Sys2Proof.Machine.execSqdone t h mode s
  | .sqpost t h mode tgt task payload => Sys2Proof.Machine.execSqpost t h mode tgt task payload s
  | .sqtake t h mode => Sys2Proof.Machine.execSqtake t h mode s
  | .producerDoorbell t h page word => Sys2Proof.Machine.execProducerDoorbell t h page word s
  | .consumerDoorbell t h page word => Sys2Proof.Machine.execConsumerDoorbell t h page word s
  | .nop t p r => Sys2Proof.Machine.execNop t p r s
  | .fence t p r => Sys2Proof.Machine.execFence t p r s
  | .txFrame t p r => Sys2Proof.Machine.execTxFrame t p r s
  | .rxBuf t p r => Sys2Proof.Machine.execRxBuf t p r s
  | .frameTxStart t port => Sys2Proof.Machine.execFrameTxStart t port s
  | .frameTxComplete t port => Sys2Proof.Machine.execFrameTxComplete t port s
  | .txnBegin t p r => Sys2Proof.Machine.execTxnBegin t p r s
  | .txnCommit t p r => Sys2Proof.Machine.execTxnCommit t p r s
  | .txnRollback t p r => Sys2Proof.Machine.execTxnRollback t p r s
  | .stagedWrite t h addr v => Sys2Proof.Machine.execStagedWrite t h addr v s
  | .txnApply => Sys2Proof.Machine.execTxnApply s
  | .registerWrite t h addr v => Sys2Proof.Machine.execRegisterWrite t h addr v s
  | .frameRx t port octets flags => Sys2Proof.Machine.execFrameRx t port octets flags s
  | .frameDelivery t => Sys2Proof.Machine.execFrameDelivery t s
  | .followUpTimeout k => Sys2Proof.Machine.execFollowUpTimeout k s
  | .linkLoss t port receiving => Sys2Proof.Machine.execLinkLoss t port receiving s
  | .linkUp t port speed half => Sys2Proof.Machine.execLinkUp t port speed half s
  | .holdExpiry port => Sys2Proof.Machine.execHoldExpiry port s
  | .collision t port late => Sys2Proof.Machine.execCollision t port late s
  | .backoffExpiry port => Sys2Proof.Machine.execBackoffExpiry port s
  | .verifyTimeout port => Sys2Proof.Machine.execVerifyTimeout port s
  | .pause t port quanta => Sys2Proof.Machine.execPause t port quanta s
  | .pfc t port vec times => Sys2Proof.Machine.execPfc t port vec times s
  | .pauseExpiry port => Sys2Proof.Machine.execPauseExpiry port s
  | .opticsPoll t port reading => Sys2Proof.Machine.execOpticsPoll t port reading s
  | .transceiverInsertion t port a0 a2 => Sys2Proof.Machine.execTransceiverInsertion t port a0 a2 s
  | .keyDerive t p r => Sys2Proof.Machine.execKeyDerive t p r s
  | .keyImport t p r => Sys2Proof.Machine.execKeyImport t p r s
  | .keyExport t p r => Sys2Proof.Machine.execKeyExport t p r s
  | .keyRevoke t p r => Sys2Proof.Machine.execKeyRevoke t p r s
  | .keyApplication => Sys2Proof.Machine.execKeyApplication s
  | .keyMac t p r => Sys2Proof.Machine.execKeyMac t p r s
  | .keyAead t p r => Sys2Proof.Machine.execKeyAead t p r s
  | .keyAeadDecrypt t p r => Sys2Proof.Machine.execKeyAeadDecrypt t p r s
  | .keySign t p r => Sys2Proof.Machine.execKeySign t p r s
  | .keyPub t p r => Sys2Proof.Machine.execKeyPub t p r s
  | .keyInfo t p r => Sys2Proof.Machine.execKeyInfo t p r s
  | .lcRequest t p r => Sys2Proof.Machine.execLcRequest t p r s
  | .fuseProgrammingComplete t => Sys2Proof.Machine.execFuseProgrammingComplete t s
  | .tamper t src => Sys2Proof.Machine.execTamper t src s
  | .okTamperWrite t h v => Sys2Proof.Machine.execOkTamperWrite t h v s
  | .heartbeatSend t => Sys2Proof.Machine.execHeartbeatSend t s
  | .heartbeatRx t port hb => Sys2Proof.Machine.execHeartbeatRx t port hb s
  | .beaconSend t port => Sys2Proof.Machine.execBeaconSend t port s
  | .beaconRx t port beacon => Sys2Proof.Machine.execBeaconRx t port beacon s
  | .heartbeatWindowExpiry => Sys2Proof.Machine.execHeartbeatWindowExpiry s
  | .beaconWindowExpiry => Sys2Proof.Machine.execBeaconWindowExpiry s
  | .takeover => Sys2Proof.Machine.execTakeover s
  | .negotiationEnd => Sys2Proof.Machine.execNegotiationEnd s
  | .stateDeltaItem t item => Sys2Proof.Machine.execStateDeltaItem t item s
  | .decisionRecord t record => Sys2Proof.Machine.execDecisionRecord t record s
  | .counterpartTimeout => Sys2Proof.Machine.execCounterpartTimeout s
  | .confirmation t id => Sys2Proof.Machine.execConfirmation t id s
  | .resyncRequest t => Sys2Proof.Machine.execResyncRequest t s
  | .resyncSnapshot => Sys2Proof.Machine.execResyncSnapshot s
  | .resyncStateApply t snap => Sys2Proof.Machine.execResyncStateApply t snap s
  | .synced => Sys2Proof.Machine.execSynced s
  | .prSwitch t h v => Sys2Proof.Machine.execPrSwitch t h v s
  | .revertHoldoff => Sys2Proof.Machine.execRevertHoldoff s
  | .switch t at_ => Sys2Proof.Machine.execSwitch t at_ s
  | .go => Sys2Proof.Machine.execGo s
  | .goAck t => Sys2Proof.Machine.execGoAck t s
  | .switchover => Sys2Proof.Machine.execSwitchover s
  | .selftest t test fatal detail => Sys2Proof.Machine.execSelftest t test fatal detail s
  | .health => Sys2Proof.Machine.execHealth s
  | .stWrite t p r => Sys2Proof.Machine.execStWrite t p r s
  | .stRead t p r => Sys2Proof.Machine.execStRead t p r s
  | .stDelete t p r => Sys2Proof.Machine.execStDelete t p r s
  | .stList t p r => Sys2Proof.Machine.execStList t p r s
  | .stAbort t p r => Sys2Proof.Machine.execStAbort t p r s
  | .stTallyClear t p r => Sys2Proof.Machine.execStTallyClear t p r s
  | .journalCommit t op fails => Sys2Proof.Machine.execJournalCommit t op fails s
  | .wearLevelingMove t => Sys2Proof.Machine.execWearLevelingMove t s
  | .backgroundScrub t blk codeword corrected => Sys2Proof.Machine.execBackgroundScrub t blk codeword corrected s
  | .shutdownExpiry => Sys2Proof.Machine.execShutdownExpiry s
  | .tyEvent t h v => Sys2Proof.Machine.execTyEvent t h v s
  | .tallyWindowRead t h off size => Sys2Proof.Machine.execTallyWindowRead t h off size s
  | .feedPresent t feed cls => Sys2Proof.Machine.execFeedPresent t feed cls s
  | .feedLoss t feed => Sys2Proof.Machine.execFeedLoss t feed s
  | .holdupChange t ok => Sys2Proof.Machine.execHoldupChange t ok s
  | .supercapacitorLow t => Sys2Proof.Machine.execSupercapacitorLow t s
  | .domainBistComplete t domain pass => Sys2Proof.Machine.execDomainBistComplete t domain pass s
  | .timeWaitExpiry => Sys2Proof.Machine.execTimeWaitExpiry s
  | .haltRetry => Sys2Proof.Machine.execHaltRetry s
  | .preemptionVerificationRx t port kind => Sys2Proof.Machine.execPreemptionVerificationRx t port kind s
  | .transceiverRemoval t port => Sys2Proof.Machine.execTransceiverRemoval t port s
  | .keyUseComplete t use => Sys2Proof.Machine.execKeyUseComplete t use s
  | .stReadComplete t read => Sys2Proof.Machine.execStReadComplete t read s
  | .fbLoadComplete t h => Sys2Proof.Machine.execFbLoadComplete t h s
  | .imageAcknowledged t h => Sys2Proof.Machine.execImageAcknowledged t h s
  | .eraseComplete t blk ok => Sys2Proof.Machine.execEraseComplete t blk ok s
  | .tamperSourceClear t src => Sys2Proof.Machine.execTamperSourceClear t src s
  | .hours16Advance => Sys2Proof.Machine.execHours16Advance s
  | .supervisorModuleReset t => Sys2Proof.Machine.execSupervisorModuleReset t s
  | .switchAcknowledged t => Sys2Proof.Machine.execSwitchAcknowledged t s
  | .goReceived t => Sys2Proof.Machine.execGoReceived t s

end Sys2Proof.Machine
end

