-- ==== Sys2Proof/Safety.lean ====
section
/-! DEFINITION. What counts as a safe step, and the conditions in which statements are made: which core executes, and which descriptor
a ring gives next. -/

namespace Sys2Proof.Machine

/-- The step of a state answers a next state. -/
def State.runs (s : State) : Prop := ∃ t, step s = .next t

/-- The core of hearth h executes and belongs to partition p. -/
def CoreOf (s : State) (h p : Nat) : Prop := coreRuns s h = true ∧ hearthOwner s h = p

/-- Ring r of partition p gives a descriptor with opcode op, which the ring accepts: y is the state after the fetch and the
descriptor in flight. -/
def Fetches (s : State) (p r op : Nat) (y : State × Flight) : Prop :=
  fetchDesc s p r = some y ∧ (ringCfg s p r).accepts op = true ∧ opcodeOf y.2.words = op

/-- A frame of ingest's EtherTypes that a P port outside PRP and HSR receives whole, while ingest is enabled: k is its kind. -/
def Ingests (s : State) (port : Nat) (o : List (BitVec 8)) (k : IgKind) : Prop :=
  portLive s port = true ∧ macEn s port = true ∧ pairMode s port = 0 ∧ 60 ≤ o.length ∧ o.length ≤ 1518 ∧
    bit (s.cfg 0x10000 0) 0 = true ∧ igKind s o = some k

/-- Neither simulated nor in simulated operation, and not authenticated: the frame is admitted as it is (R84, R87). -/
def Admitted (s : State) (e : Nat) (sim : Bool) : Prop := sim = false ∧ (ste s e).simAccept = false ∧ (ste s e).auth = 0

/-- A per-stream counter (R108). -/
def igCntOf (s : State) (e i : Nat) : Nat := Tbl.get 0 s.ig.cnt (16 * e + i)

/-- The ingress stamp of a frame whose last bit arrives at this edge. -/
def ingress (s : State) (port : Nat) : Nat := (rxEvent s port).toNat

/-- A counter of a port's MAC (R386). -/
def macCntOf (s : State) (q i : Nat) : Nat := Tbl.get 0 s.mc.cnt (32 * q + i)

/-- A counter of the redundancy controller (R430). -/
def prCntOf (s : State) (i : Nat) : Nat := Tbl.get 0 s.pr.cnt i

/-- A frame for the tables of cores: only hearth h's trap is cleared. -/
def State.cleared (s : State) (h : Nat) : State := s.updCore h (fun c => { c with trap := none })

/-- A reset of scope c that partition p may ask for, and that no reset in progress takes in (R296, R299). -/
def ResetAsked (x : State) (p : Nat) (c : RScope) : Prop :=
  mayReset x p c = true ∧ x.pt.resets.any (fun z => scopeIn x c z.scope) = false

/-- The request is noted: the reset takes effect 10 µs, 2,500 edges, later (R297). -/
def ResetNoted (x y : State) (c : RScope) : Prop :=
  y.pt.resets = x.pt.resets ++ [{ scope := c, reqEdge := x.tb.edge, effEdge := x.tb.edge + 2500 }] ∧ y.regs = x.regs ∧ y.dram = x.dram

/-- An FB_CMD of kind k that its hearth accepts is fetched (R241). -/
def CmdFetched (x : State) (p r : Nat) (y : State × Flight) (k : FbCmdKind) : Prop :=
  Fetches x p r 0x92 y ∧ reservedOk y.2.words fbMask0 [(2, 0xF)] = true ∧ fbCmdKind y.2.words = some k ∧
    cmdStatus p (fbHearth y.2.words) k y.1 = stDone

/-- It waits for the first cycle that starts after its fetch, and nothing has changed yet (R232). -/
def CmdWaits (y : State × Flight) (p r : Nat) (k : FbCmdKind) (z : State) : Prop :=
  (z.fbe (fbHearth y.2.words)).cmds = (y.1.fbe (fbHearth y.2.words)).cmds ++ [FbCmd.mk k (64 * p + r) y.2.id (nextSlotOf y.1)] ∧
    (z.fbe (fbHearth y.2.words)).mode = (y.1.fbe (fbHearth y.2.words)).mode ∧
    (∀ g, g ≠ fbHearth y.2.words → z.fbe g = y.1.fbe g) ∧ z.db = y.1.db ∧ z.regs = y.1.regs

end Sys2Proof.Machine
end

