-- ==== Sys2Proof/Certificates/Slice0/Obligations.lean ====
section
/-! DEFINITION. The statements for the provers: what the commands of the PN-840 do, by the numbered rules of the manual. A statement
that ends in `exec c s = .next …` says that the command completes under its premises, and with what state. -/

section
open Sys2Proof Sys2Proof.Machine

/-- The queue of the block (the model's own form of the sender of R3: log 1): a step takes the command at the front and runs it with the
queue's rest; with no command waiting one counter-clock edge passes (R38), as State.pass says. -/
def Obligations.StepRunsFront : Prop :=
  ∀ (s : State) (c : Instr) (q : List Instr),
    step { s with pending := c :: q } = exec c { s with pending := q } ∧
    step { s with pending := [] } = .next { s with
      pending := [], tb.counter := s.tb.counter + s.tb.addend, tb.edge := s.tb.edge + 1 }

/-- R296, R463: after reset the module is WARM at step 3 of start-up with the counter NOT_VALID; no transaction is open, no record stands in
the tally, DRAM reads 0 (R492), no ring, chain, program or loop is enabled (R12: a register reads its reset value), and the queue, memory
and registers are in their canonical form. -/
def Obligations.ResetState : Prop :=
  State.reset.pw.st = .warm ∧ State.reset.pw.step = 3 ∧ State.reset.tb.st = .notValid ∧ State.reset.pending = [] ∧
    (∀ p, (State.reset.txn p).st = .idle) ∧ State.reset.ty.recs = [] ∧ (∀ a, dramByte State.reset.dram a = 0) ∧
    (∀ off sel, State.reset.cfg off sel = regReset off sel) ∧ Memory.wf State.reset.dram ∧ Tbl.wf 0 State.reset.regs = true

/-- Every step, whatever the state and the command at the front, answers a next state; it takes that command from the queue, keeps memory
and the register table in their canonical form, and never lets time go back. -/
def Obligations.StepInvariant : Prop :=
  ∀ s : State, ∃ t, step s = .next t ∧ t.pending = s.pending.tail ∧ (Memory.wf s.dram → Memory.wf t.dram) ∧
    (Tbl.wf 0 s.regs = true → Tbl.wf 0 t.regs = true) ∧ s.tb.edge ≤ t.tb.edge

/-- R390: "The life-cycle states are fused", so no command takes back what a fuse holds: the fused state never falls, and the owner hash and
the fused secret, once programmed, stay. -/
def Obligations.FusesStay : Prop :=
  ∀ (c : Instr) (s : State), ∃ t, exec c s = .next t ∧ s.ok.fused ≤ t.ok.fused ∧ (∀ h, s.ok.ownerHash = some h → t.ok.ownerHash = some h) ∧
    (∀ d, s.ok.secret = some d → t.ok.secret = some d)
/-- R39: the addend of a rate correction c (here in 2^-12 ppb) is 2^42 × (1 + c × 10^-9) to the nearest whole number, ties rounded up, with c
clamped to ±200,000 ppb; it fits 48 bits and is 0x400_0000_0000 for c = 0. R41: at a change of the reference the correction and the
integral take the measured difference, and the addend of the new correction (with SERVO_EN = 0 the addend in force corrected by the
difference: log 88) waits for the next slot edge. A switch on the TCXO changes nothing; a return to the OCXO comes at a slot edge, 60 s
after the OCXO left its limits at the earliest, and not while REF_FORCE_TCXO is 1. Completes: REF_SWITCH_TCXO, REF_RETURN_OCXO. -/
def Obligations.ReferenceChange : Prop :=
  (∀ c k : Int, k = max (-200000 * 4096) (min c (200000 * 4096)) →
    (2 * (addendOf c : Int) - 1) * 10 ^ 9 ≤ 2 * (2 ^ 42 * 10 ^ 9 + k * 2 ^ 30) ∧
    2 * (2 ^ 42 * 10 ^ 9 + k * 2 ^ 30) < (2 * (addendOf c : Int) + 1) * 10 ^ 9 ∧ addendOf c < 2 ^ 48) ∧ addendOf 0 = 0x40000000000 ∧
  (∀ (s : State) (t : Nat) (diff : Int),
    (s.tb.refTcxo = false → ∃ x, exec (.refSwitchTcxo t diff) s = .next x ∧ x = { s.runTo t with tb := x.tb } ∧ x.tb.refTcxo = true ∧
      x.tb.corr = s.tb.corr + diff ∧ x.tb.integ = s.tb.integ.map (· + diff) ∧
      x.tb.nextAddend = some (if servoEn s then addendOf (s.tb.corr + diff) else addendBy (s.tb.nextAddend.getD s.tb.addend) diff) ∧
      x.tb.counter = (s.runTo t).tb.counter ∧ x.tb.st = s.tb.st ∧ (bit (s.cfg 0 0) 0 = false → x.tb.ocxoOk = false)) ∧
    (s.tb.refTcxo = true → exec (.refSwitchTcxo t diff) s = .next (s.runTo t)) ∧
    (∀ e, powered s = true → s.tb.refTcxo = true → bit (s.cfg 0 0) 0 = false → e = s.runTo (s.tb.ocxoSince + secEdges 60) →
      ∃ x, exec (.refReturnOcxo diff) s = .next x ∧ x.tb.counter = (e.waitSlot (slotCeil (now16 e))).tb.counter ∧
        x.tb.refTcxo = false ∧ x.tb.ocxoOk = true ∧ x.tb.corr = s.tb.corr + diff ∧ x.tb.integ = s.tb.integ.map (· + diff) ∧
        x.tb.nextAddend = some (if servoEn s then addendOf (s.tb.corr + diff) else addendBy (s.tb.nextAddend.getD s.tb.addend) diff)) ∧
    (s.tb.refTcxo = false ∨ bit (s.cfg 0 0) 0 = true → exec (.refReturnOcxo diff) s = .next s))

/-- R48: a message with an option that the engine does not support is counted and dropped; a Pdelay_Req at a one-step port is answered
with a Pdelay_Resp at once; a Pdelay_Req that the engine sends takes the port's sequence number and keeps its transmit stamp. Completes:
PTP_MESSAGE_RX, PTP_MESSAGE_TX. -/
def Obligations.PtpMessages : Prop :=
  ∀ (s x : State) (t : Nat) (port : Port), x = s.runTo t → portLive x port = true → ptpEnabled x port = true → x.pw.step ≠ 7 →
    (∀ m : PtpMsg, ptpUnsupported m = true →
      exec (.ptpMessageRx t port m) s = .next { x with ptp.discards := Tbl.upd 0 x.ptp.discards port inc32 }) ∧
    (∀ m : PtpMsg, ptpUnsupported m = false → m.domain = fld (x.cfg 0x40 0) 31 24 → m.body = .pdelayReq → port.val < 8 →
      ∃ a, exec (.ptpMessageRx t port m) s = .next { x with ptp.sent := x.ptp.sent ++ [a] } ∧ a.port = port ∧
        a.edge = x.tb.edge ∧ a.msg.seq = m.seq ∧ a.msg.body = .pdelayResp false 0 m.src) ∧
    (∃ y a, exec (.ptpMessageTx t port .pdelay) s = .next y ∧ y.ptp.sent = x.ptp.sent ++ [a] ∧ a.msg.body = .pdelayReq ∧
      a.msg.seq = (ptpPort x port).pdSeq ∧ (ptpPort y port).pdSeq = ((ptpPort x port).pdSeq + 1) % 65536 ∧
      (ptpPort y port).run = some { seq := (ptpPort x port).pdSeq, t1 := txEvent x port } ∧
      (∀ q, q ≠ port.val → ptpPort y q = ptpPort x q) ∧ y = { x with ptp := y.ptp })

/-- R45, R56: in LOCKED, the loss of the grandmaster's Announce or Sync messages with the PTP engine as the source, and the time-out of
TB_FW_OFFSET with that source, each begin HOLDOVER, with the correction frozen at the integral. Completes: ANNOUNCE_RECEIPT_TIMEOUT,
SYNC_RECEIPT_TIMEOUT, FW_TMO_EXPIRY. -/
def Obligations.HoldoverEntries : Prop :=
  ∀ (s : State), alive s = true → s.tb.st = .locked →
    (srcSel s = 0 → (∀ a, s.ptp.gm = some a → ∃ x, exec .announceReceiptTimeout s = .next x ∧ x.tb.st = .holdover ∧
        x.tb.corr = servoI s ∧ (s.runTo (s.ptp.lastAnnounce + secEdges 3)).tb.edge = x.tb.edge) ∧
      (∀ q, s.ptp.slavePort = some q → ∃ x, exec .syncReceiptTimeout s = .next x ∧ x.tb.st = .holdover ∧ x.tb.corr = servoI s ∧
        x.ptp.qualRun = 0)) ∧
    (srcSel s = 1 → ∃ x, exec .fwTmoExpiry s = .next x ∧ x.tb.st = .holdover ∧ x.tb.corr = servoI s ∧
      x.tb.edge = max s.tb.edge (s.tb.lastFwOffset + secEdges (fld (s.cfg 0x24 0) 7 4)))

/-- R54: an offset that partition 0 writes to TB_FW_OFFSET with SRC = 0b01 reaches the servo in units of 2^-8 ns; a write with another
source, or by another partition, is ignored and sets FW_IGNORED. Completes: TB_FW_OFFSET_WRITE. -/
def Obligations.FirmwareOffset : Prop :=
  ∀ (s x : State) (t : Nat) (h : Hearth) (v : BitVec 32) (p : Nat), x = s.runTo t → CoreOf x h p →
    (p = 0 ∧ srcSel x = 1 → ∃ y, exec (.tbFwOffsetWrite t h v) s = .next y ∧ y.tb.latest = some (v.toInt * 256) ∧
      y.tb.firstOffset = false ∧ y.tb.lastFwOffset = x.tb.edge ∧ y.tb.fwIgnored = x.tb.fwIgnored ∧ y.tb.counter = x.tb.counter) ∧
    (¬(p = 0 ∧ srcSel x = 1) → ∃ y, exec (.tbFwOffsetWrite t h v) s = .next y ∧ y.tb = { x.tb with fwIgnored := true } ∧
      y.regs = x.regs ∧ y.ptp = x.ptp ∧ (x.pw.step ≠ 7 → y = State.cleared { x with tb.fwIgnored := true } h))

/-- R67: TT_ARM of an idle unit by its owner with valid fields arms it; the unit fires first at START when that lies at least 1 µs ahead.
R69: TT_CANCEL of an armed unit before its last firing ends the arming descriptor ABORTED and writes back DONE; one that comes with the
last firing or later, or finds the unit idle, leaves the unit to that firing and writes back DONE with ABORT_IGNORED; one of a unit that
another partition owns ends NOT_PERMITTED and leaves the unit alone. R68: the last firing of an armed unit without target writes back
DONE and leaves it idle. Completes: TT_ARM, TT_CANCEL, TTU_FIRING. -/
def Obligations.TimeTriggers : Prop :=
  (∀ (s : State) (t : Nat) (p : PartId) (r : RingNo) (y : State × Flight) (u : Nat), Fetches (s.runTo t) p r 1 y →
    u = fld (dw y.2.words 0) 31 16 → u < 32 → dw y.2.words 0 &&& 0xFE00 = 0 → dw y.2.words 5 &&& 0xFFFF = 0 →
    (dw y.2.words 4).toNat < 1000000000 → dw y.2.words 6 = 0 → dw y.2.words 7 = 1 → y.1.timeValid = true → ttuOwner y.1 u = p →
    (y.1.ttu u).armed = false → now16 y.1 + us16 1 ≤ t16Of (dword64 y.2.words 2) (dw y.2.words 4).toNat (fld (dw y.2.words 5) 31 16) →
    ∃ x, exec (.ttArm t p r) s = .next x ∧ (x.ttu u).armed = true ∧ (x.ttu u).flight = y.2.id ∧ (x.ttu u).left = 1 ∧
      (x.ttu u).next = t16Of (dword64 y.2.words 2) (dw y.2.words 4).toNat (fld (dw y.2.words 5) 31 16) ∧
      (∀ w, w ≠ u → x.ttu w = y.1.ttu w) ∧ x = { y.1 with tu := x.tu }) ∧
  (∀ (s : State) (t : Nat) (p : PartId) (r : RingNo) (y : State × Flight) (u : Nat), Fetches (s.runTo t) p r 2 y →
    u = fld (dw y.2.words 0) 31 16 → u < 32 → dw y.2.words 0 &&& 0xFF00 = 0 →
    (ttuOwner y.1 u ≠ p → exec (.ttCancel t p r) s = .next (finish y.1 p r y.2.id stNotPermitted)) ∧
    (ttuOwner y.1 u = p → (y.1.ttu u).armed = true →
      (y.1.ttu u).forever = true ∨ 1 < (y.1.ttu u).left ∨ now16 y.1 < (y.1.ttu u).next →
      exec (.ttCancel t p r) s = .next (finish (finishKey (y.1.updTtu u (fun z => { z with armed := false })) (y.1.ttu u).ring
        (y.1.ttu u).flight stAborted) p r y.2.id stDone)) ∧
    (ttuOwner y.1 u = p → (y.1.ttu u).armed = false ∨
      ((y.1.ttu u).forever = false ∧ (y.1.ttu u).left ≤ 1 ∧ (y.1.ttu u).next ≤ now16 y.1) →
      exec (.ttCancel t p r) s = .next (finishIgn y.1 p r y.2.id))) ∧
  (∀ (s : State) (u : Fin 32), alive s = true → (s.ttu u).armed = true → (s.ttu u).target = 0 → (s.ttu u).irqEach = false →
    (s.ttu u).forever = false → (s.ttu u).left = 1 → ∃ x, exec (.ttuFiring u) s = .next x ∧
      x = finishKey ((touchOutputs u (s.ttu u).next (s.waitUntil (s.ttu u).next)).updTtu u (fun z => { z with
        armed := false, left := 0, lastFire := some (s.waitUntil (s.ttu u).next).tb.edge })) (s.ttu u).ring (s.ttu u).flight stDone)
/-- R62, R40, R55: at a slot edge without a step the next slot number goes up by one, a staged addend comes into force and the counter
has reached the edge; with a step the counter moves by the offset and the slots are numbered from its new value. A step whose conditions
the edge does not find is refused there: STEP_REFUSED is set and the counter goes on. Completes: SLOT_EDGE. -/
def Obligations.SlotEdgeClock : Prop :=
  ∀ (s w : State), w = s.waitSlot s.tu.nextSlot →
    (0 < s.tb.addend → slotCounter s.tu.nextSlot ≤ w.tb.counter) ∧
    (w.tb.stepBy = none → ∃ y, exec .slotEdge s = .next y ∧ y.tu.nextSlot = s.tu.nextSlot + 1 ∧
      y.tb = { w.tb with addend := w.tb.nextAddend.getD w.tb.addend, nextAddend := none }) ∧
    (∀ th, w.tb.stepBy = some th → stepOk (edgeWork s) = false → ∃ y, exec .slotEdge s = .next y ∧ y.tb.counter = w.tb.counter ∧
      y.tu.nextSlot = s.tu.nextSlot + 1 ∧ y.tb.stepBy = none ∧ y.tb.stepRefused = true ∧ y.tb.edge = w.tb.edge) ∧
    (∀ th, w.tb.stepBy = some th → stepOk (edgeWork s) = true → ∃ y, exec .slotEdge s = .next y ∧
      y.tb.counter = (Int.ofNat w.tb.counter - th * 2 ^ 24).toNat ∧ y.tu.nextSlot = 3 * y.tb.counter / (625000 * 2 ^ 40) + 1 ∧
      y.tb.stepBy = none ∧ y.tb.latest = none ∧ y.tb.stepped = true ∧ y.tb.edge = w.tb.edge ∧
      y.tb.addend = w.tb.nextAddend.getD w.tb.addend ∧ (w.tb.st = .notValid → y.tb.st = .freeRun))

/-- R296, R463: a module reset, from PT_RESET by partition 0 or from the supervisor, begins start-up at step 3 with an empty
configuration; the counter, the flash and the fuses go on. Completes: SUPERVISOR_MODULE_RESET, MODULE_RESET. -/
def Obligations.ModuleResets : Prop :=
  ∀ (s x : State) (t : Nat), x = s.runTo t → alive x = true →
    (∃ y, exec (.supervisorModuleReset t) s = .next y ∧ y.pw.st = .warm ∧ y.pw.step = 3 ∧ y.pw.doms = [] ∧ y.tx = {} ∧ y.db = {} ∧
      y.dram = [] ∧ y.tb.counter = x.tb.counter ∧ y.st.objects = x.st.objects ∧ y.ok.fused = x.ok.fused) ∧
    (∀ h : Hearth, CoreOf x h 0 → ∃ y, exec (.moduleReset t h) s = .next y ∧ y.pw.st = .warm ∧ y.pw.step = 3 ∧ y.pw.doms = [] ∧
      y.tx = {} ∧ y.db = {} ∧ y.dram = [] ∧ y.tb.counter = x.tb.counter ∧ y.st.objects = x.st.objects ∧ y.ok.fused = x.ok.fused)

/-- R294: a core writes the interrupt pages of its own partition's hearths, and cores of partition 0 those of any; another's write is
ignored and counted in PT_WIN_FAULT of the writer's partition. R292: a permitted write of an identity from 1 to 255, in either byte
order, pends it in the file (in a supervisor file unless the identity is bound to a task); identity 0 and those above 255 are ignored.
Completes: SETEIPNUM. -/
def Obligations.InterruptStores : Prop :=
  ∀ (s x : State) (t : Nat) (h target : Hearth) (file : Fin 8) (big : Bool) (v : BitVec 32) (p id : Nat), x = s.runTo t → CoreOf x h p →
    id = (if big then beNat (leBytes 4 v.toNat) else v.toNat) →
    (p = 0 ∨ hearthOwner x target = p → file.val ≤ 5 →
      (1 ≤ id → id ≤ 255 → 1 ≤ file.val ∨ boundTask x target id = none → ∃ y, exec (.seteipnum t h target file big v) s = .next y ∧
        (y.file target file).pend = addRising (x.file target file).pend id ∧
        (∀ k f, (k ≠ target.val ∨ f ≠ file.val) → k < 64 → f < 8 → y.file k f = x.file k f) ∧ y.regs = x.regs ∧ y.tb = x.tb) ∧
      (id = 0 ∨ 255 < id → exec (.seteipnum t h target file big v) s = .next x)) ∧
    (p ≠ 0 → hearthOwner x target ≠ p → exec (.seteipnum t h target file big v) s = .next (x.winFault p))

/-- R287, R289, R473: an access of a core to DRAM that its windows grant at every byte is made; one that they do not grant leaves memory
as it was and ends in an access fault, counted for partitions 1 to 31. Completes: CORE_DRAM_ACCESS. -/
def Obligations.CoreAccesses : Prop :=
  ∀ (s x : State) (t : Nat) (h : Hearth) (p a size : Nat) (v : BitVec 64), x = s.runTo t → CoreOf x h p → a < setupBase →
    size = 1 ∨ size = 2 ∨ size = 4 ∨ size = 8 →
    (∀ m, writeMem x p .coreWrite a (leBytes size v.toNat) = some m →
      exec (.coreDramAccess t h .store a size v) s = .next (State.cleared { x with dram := m } h)) ∧
    (∀ b, readBytes x p .coreRead a size = some b → exec (.coreDramAccess t h .load a size v) s =
      .next (x.updCore h (fun c => { c with result := BitVec.ofNat 64 (leNat b), trap := none }))) ∧
    (writeMem x p .coreWrite a (leBytes size v.toNat) = none → exec (.coreDramAccess t h .store a size v) s =
      .next ((if p = 0 then x else x.winFault p).updCore h (fun c => { c with trap := some (.storeFault a) }))) ∧
    (readBytes x p .coreRead a size = none → exec (.coreDramAccess t h .load a size v) s =
      .next ((if p = 0 then x else x.winFault p).updCore h (fun c => { c with trap := some (.loadFault a) })))

/-- R287 to R289: a granted write of a partition puts its bytes where the windows map them, each byte then reads as written, and every
byte of memory that the windows map none of them to reads as before. -/
def Obligations.GrantedWrite : Prop :=
  ∀ (s : State) (p a : Nat) (need : Need) (bs : List (BitVec 8)) (m : List Host.Cell), p ≠ 0 → writeMem s p need a bs = some m →
    ∃ l, translateAll (windowsOf s p) p need a bs.length = some l ∧ l.length = bs.length ∧
      (∀ b, b ∉ l → dramByte m b = dramByte s.dram b) ∧
      (l.Nodup → ∀ i (h : i < l.length), dramByte m l[i] = bs.getD i 0) ∧ (∀ b ∈ l, b < dramTop)

/-- R313: in HS-mode sqrun of a READY task runs it and gives DONE, of another gives NOT_READY and changes no task; sqrun of none stops
the running job, sqdone ends it and gives DONE, sqtake gives the oldest post of the running task, a read of sqnext gives VALID with the
head of the ready list or 0; in VS-mode and U-mode each traps and changes nothing else. R314, R316: sqpost of a
permitted post to a valid task with a free slot queues it and gives DONE. R29: the post slots are checked at the end of sqpost and sqtake.
Completes: SQRUN, SQRUN_IDLE, SQDONE, SQPOST, SQTAKE. -/
def Obligations.SchedulerInstructions : Prop :=
  ∀ (s x : State) (t : Nat) (h : Hearth), x = s.runTo t → coreRuns x h = true →
    (∀ task : Fin 256, (x.task h task).st = .ready → ∃ y, exec (.sqrun t h .hs task) s = .next y ∧
      (y.sched h).running = some task.val ∧ (y.task h task).st = .running ∧ (y.task h task).from_ = x.tb.edge ∧
      (y.core h).result = BitVec.ofNat 64 stDone ∧ (y.core h).trap = none) ∧
    (∀ task : Fin 256, (x.task h task).st ≠ .ready → ∃ y, exec (.sqrun t h .hs task) s = .next y ∧ y.sq = x.sq ∧
      (y.core h).result = BitVec.ofNat 64 stNotReady ∧ (y.core h).trap = none) ∧
    (∃ y, exec (.sqrunIdle t h .hs) s = .next y ∧ (y.sched h).running = none ∧ (y.core h).result = BitVec.ofNat 64 stDone) ∧
    (∀ a size v, ∃ y, exec (.coreDramAccess t h (.sqnext .hs) a size v) s = .next y ∧ (y.core h).trap = none ∧ y.sq = x.sq ∧
      (y.core h).result = (match readyHead x h with | some k => BitVec.ofNat 64 (2 ^ 63 + k) | none => 0)) ∧
    (∀ k, (x.sched h).running = some k → ∃ y, exec (.sqdone t h .hs) s = .next y ∧ (y.core h).result = BitVec.ofNat 64 stDone ∧
      (y.sched h).running = none) ∧
    (∀ k z, (x.sched h).running = some k → takePost k (x.sched h).posts = some z → ∃ y, exec (.sqtake t h .hs) s =
        .next ((checkRows [4] y).updCore h (fun c => { c with trap := none })) ∧
      (y.sched h).posts = z.2 ∧ (y.core h).result =
        BitVec.ofNat 64 (postClsNat z.1.cls * 2 ^ 62 + z.1.src % 64 * 2 ^ 56 + z.1.ident % 256 * 2 ^ 48 + z.1.payload.toNat)) ∧
    (∀ (g : Hearth) (task : Fin 256) (w : BitVec 32), hearthOwner x g = hearthOwner x h → (taskCfg x g task).valid = true →
      inResetOf x g = false → freeSlots (x.sched g) (if g.val = h.val then .local_ else .peer) ≠ 0 →
      ∃ y q, exec (.sqpost t h .hs g task w) s = .next ((checkRows [4] y).updCore h (fun c => { c with trap := none })) ∧ q ∈ (y.sched g).posts ∧ q.task = task.val ∧ q.payload = w ∧ q.src = h.val ∧
        (y.core h).result = BitVec.ofNat 64 stDone) ∧
    (∀ (g : Hearth) (task : Fin 256) (w : BitVec 32) (a size : Nat) (v : BitVec 64) (i : Instr), i ∈ [Instr.sqrunIdle t h .vs, .sqdone t h .vs, .sqtake t h .vs, .sqrun t h .vs task, .sqpost t h .vs g task w,
        .coreDramAccess t h (.sqnext .vs) a size v] →
      exec i s = .next (x.updCore h (fun c => { c with trap := some .virtualInstruction }))) ∧
    (∀ (g : Hearth) (task : Fin 256) (w : BitVec 32) (a size : Nat) (v : BitVec 64) (i : Instr), i ∈ [Instr.sqrunIdle t h .u, .sqdone t h .u, .sqtake t h .u, .sqrun t h .u task, .sqpost t h .u g task w,
        .coreDramAccess t h (.sqnext .u) a size v] →
      exec i s = .next (x.updCore h (fun c => { c with trap := some .illegalInstruction })))

/-- R309: a tick of the delay list comes at the first whole microsecond at or past its first entry, and its one entry's task becomes
ready there with the entry's instant. R319: when the tick passes d of a job that has not completed, MISSES counts once, MISS is set and a
MISS_ID other than 0 is asserted; the job keeps its deadline and its state. R320: a job past its budget is counted once. Completes:
DELAY_LIST_RELEASE, DEADLINE_MISS, BUDGET_OVERRUN. -/
def Obligations.SchedulerEvents : Prop :=
  ∀ (s : State) (h : Hearth), alive s = true →
    (∀ e, delayList s h = [e] → (taskCfg s h e.2).src ≠ 0 ∨ (s.task h e.2).st = .waiting → 0 < s.tb.addend → ∃ y z, exec (.delayListRelease h) s = .next y ∧
      y = dispatchIf (dispatchHead (s.waitUntil (us16 (ceilDiv e.1 65536000))) h) z h ∧ (z.task h e.2).st = .ready ∧
      (z.task h e.2).r = e.1 ∧ (z.task h e.2).d = e.1 + us16 (taskCfg s h e.2).deadline ∧
      z.tb = (s.waitUntil (us16 (ceilDiv e.1 65536000))).tb) ∧
    (∀ task : Fin 256, ((s.task h task).st = .ready ∨ (s.task h task).st = .running) → (s.task h task).missed = false →
      ∃ w : State, w.tb = (s.waitUntil (us16 (ceilDiv (s.task h task).d 65536000))).tb ∧ (w.sched h).miss = true ∧
        (w.task h task).misses = inc32 (s.task h task).misses ∧ (w.task h task).missed = true ∧ (w.task h task).d = (s.task h task).d ∧
        (w.task h task).st = (s.task h task).st ∧ exec (.deadlineMiss h task) s = .next
          (if fld (s.cfg 0xB0008 (256 * h)) 15 8 = 0 then w
           else assertIrq 256 w h 0 (fld (s.cfg 0xB0008 (256 * h)) 15 8) (devSrc 11 h))) ∧
    (∀ k, (s.sched h).running = some k → (s.task h k).overBudget = false → ∃ y, exec (.budgetOverrun h) s = .next y ∧
      (y.task h k).overBudget = true ∧ (y.task h k).budgetOvr = inc32 (s.task h k).budgetOvr ∧ (∀ j, j ≠ k → y.task h j = s.task h j) ∧
      s.tb.edge ≤ y.tb.edge)

/-- R328, R329: a doorbell that breaks no rule moves PI or CI of its ring; one in another partition's page, or of a partition whose
doorbells are closed, is counted in DB_ERR; both change nothing else but what the check of the ring slots finds after them (R29).
Completes: PRODUCER_DOORBELL, CONSUMER_DOORBELL. -/
def Obligations.Doorbells : Prop :=
  ∀ (s x : State) (t : Nat) (h : Hearth) (page : PartId) (w : BitVec 32), x = s.runTo t → corePowered x h = true →
    (hearthOwner x h = page → doorbellsOpen x page = true →
      (doorbellBad x page true w = false → exec (.producerDoorbell t h page w) s =
        .next (checkRows [3] (x.updRing page (fld w 23 16) (fun z => { z with pi := fld w 15 0 })))) ∧
      (doorbellBad x page false w = false → exec (.consumerDoorbell t h page w) s =
        .next (checkRows [3] (x.updRing page (fld w 23 16) (fun z => { z with ci := fld w 15 0 }))))) ∧
    (hearthOwner x h ≠ page ∨ doorbellsOpen x page = false →
      exec (.producerDoorbell t h page w) s = .next (checkRows [3] (x.dbErr page)) ∧
        exec (.consumerDoorbell t h page w) s = .next (checkRows [3] (x.dbErr page)))

/-- R330, R337: a NOP whose reserved fields are 0 writes back DONE, another BAD_DESC; a FENCE alone on its ring writes back DONE at once
and one behind a descriptor that has not ended is held in flight and writes nothing back. R340: a TX_FRAME whose buffer can be read hands its octets to the green in the ring's class and for
its port; an RX_BUF whose buffer can be written is held. Completes: NOP, FENCE, TX_FRAME, RX_BUF. -/
def Obligations.RingCommands : Prop :=
  ∀ (s x : State) (t : Nat) (p : PartId) (r : RingNo) (y : State × Flight), x = s.runTo t →
    (Fetches x p r 0xE0 y → exec (.nop t p r) s =
      .next (finish y.1 p r y.2.id (if reservedOk y.2.words 0 [] then stDone else stBadDesc))) ∧
    (Fetches x p r 0xE1 y → reservedOk y.2.words 0 [] = true → (y.1.ring p r).flights = [y.2] →
      ∃ z, z = putWb (y.1.updRing p r (fun w => { w with flights := [{ y.2 with fence := true }] })) p r { y.2 with fence := true }
          { status := stDone, stamp := some (stampNow y.1) } ∧
        exec (.fence t p r) s = .next (ringIrq (indexBlock z p r) p r (bit (dw y.2.words 0) 8))) ∧
    (∀ f l, Fetches x p r 0xE1 y → reservedOk y.2.words 0 [] = true → (y.1.ring p r).flights = f :: l → f.id ≠ y.2.id →
      f.fence = false → f.res = none → exec (.fence t p r) s = .next (y.1.updRing p r (fun z =>
        { z with flights := z.flights.map (fun g => if g.id = y.2.id then { g with fence := true } else g) }))) ∧
    (∀ o, Fetches x p r 0x11 y → (ringCfg y.1 p r).ts = false →
      reservedOk y.2.words 0x200 [(2, 0xFFFFFFFF), (3, 0xFFFF), (4, 0xFFFF)] = true → 14 ≤ fld (dw y.2.words 4) 15 0 →
      fld (dw y.2.words 4) 15 0 ≤ 1518 → devRead y.1 p (addr48 y.2.words 2) (fld (dw y.2.words 4) 15 0) = some o →
      exec (.txFrame t p r) s = .next (enqueue
        { id := 0, octets := o, src := .ring (64 * p + r) y.2.id (bit (dw y.2.words 0) 9),
          cls := (ringCfg y.1 p r).cls, epoch := y.1.gn.epoch, expiry := 0 } [(ringCfg y.1 p r).port] y.1)) ∧
    (Fetches x p r 0x12 y → reservedOk y.2.words 0 [(2, 0xFFFFFFFF), (3, 0xFFFF), (4, 0xFFFF)] = true →
      1536 ≤ fld (dw y.2.words 4) 15 0 → canAccess y.1 p .devWrite (addr48 y.2.words 2) (fld (dw y.2.words 4) 15 0) = true →
      exec (.rxBuf t p r) s = .next y.1)

/-- R344: TXN_BEGIN of a partition without a transaction opens one with the next TXID, which its write-back carries, and no keys; a
partition with one OPEN or PENDING gets TXN_CONFLICT, and the ninth of the module REFUSED_FULL. R346: TXN_COMMIT of an open transaction
without conflict or overflow sets its application slot. R350: TXN_ROLLBACK of an open transaction discards it. Completes: TXN_BEGIN,
TXN_COMMIT, TXN_ROLLBACK. -/
def Obligations.TransactionCommands : Prop :=
  ∀ (s x : State) (t : Nat) (p : PartId) (r : RingNo) (y : State × Flight), x = s.runTo t → isStandby y.1 = false →
    (Fetches x p r 0x21 y → reservedOk y.2.words 0 [] = true → (y.1.txn p).st = .idle → openTxns y.1 < 8 →
      ∃ z, exec (.txnBegin t p r) s = .next z ∧ (z.txn p).st = .open_ ∧ (z.txn p).keys = [] ∧ (z.txn p).txid = y.1.tx.nextId + 1 ∧
        z.regs = y.1.regs ∧ (∀ q, q ≠ p.val → z.txn q = y.1.txn q) ∧ z.db = (complete (openTxn p y.1) p r y.2.id
          (Wb.mk stDone 0 (y.1.tx.nextId + 1).toNat [] (some (stampNow y.1)) none)).db ∧ z.dram = (complete (openTxn p y.1) p r y.2.id
          (Wb.mk stDone 0 (y.1.tx.nextId + 1).toNat [] (some (stampNow y.1)) none)).dram) ∧
    (Fetches x p r 0x21 y → reservedOk y.2.words 0 [] = true → (y.1.txn p).st ≠ .idle →
      exec (.txnBegin t p r) s = .next (finish y.1 p r y.2.id stConflict)) ∧
    (Fetches x p r 0x21 y → reservedOk y.2.words 0 [] = true → (y.1.txn p).st = .idle → 8 ≤ openTxns y.1 →
      exec (.txnBegin t p r) s = .next (finish y.1 p r y.2.id stRefusedFull)) ∧
    (∀ slot, Fetches x p r 0x22 y →
      reservedOk y.2.words 0x200 [(2, 0xFFFFFFFF), (3, 0xFFFFFFFF), (4, 0xFFFFFFFF), (5, 0xFFFFFFFF)] = true →
      (y.1.txn p).st = .open_ → commitCheck y.1 (y.1.txn p) y.2.words = .inr slot →
      ∃ z, exec (.txnCommit t p r) s = .next z ∧ (z.txn p).st = .pending ∧ (z.txn p).applySlot = slot ∧
        (z.txn p).keys = (y.1.txn p).keys ∧ z.regs = y.1.regs ∧ (∀ q, q ≠ p.val → z.txn q = y.1.txn q)) ∧
    (Fetches x p r 0x23 y → reservedOk y.2.words 0 [] = true → (y.1.txn p).st = .open_ →
      ∃ z, exec (.txnRollback t p r) s = .next z ∧ (z.txn p).st = .idle ∧ (z.txn p).keys = [] ∧ z.regs = y.1.regs ∧
        (∀ q, q ≠ p.val → z.txn q = y.1.txn q))

/-- R347, R349: at the application edge of the next commit, every key of the transaction takes its staged value and every other setting
keeps its own; or, when a check fails, every setting keeps its value. Either way the transaction is over and holds no key. Completes:
TXN_APPLY. -/
def Obligations.CommitAllOrNothing : Prop :=
  ∀ (s w : State) (p : Nat) (c : Txn), nextCommit s = some (p, c) → w = toApplyEdge c s → s.pw.bundle = false →
    ∃ y, exec .txnApply s = .next y ∧ (y.txn p).st = .idle ∧ (y.txn p).keys = [] ∧
      (commitFails w (putKeys c.keys w) p (c.keys.map Prod.fst) ≠ [] →
        ∀ off sel, sel < 65536 → (regInfo off).all (fun i => i.sel != .own) = true → y.cfg off sel = w.cfg off sel) ∧
      (commitFails w (putKeys c.keys w) p (c.keys.map Prod.fst) = [] →
        ∀ off sel, sel < 65536 → (regInfo off).all (fun i => i.sel != .own) = true →
          y.cfg off sel = (putKeys (steMasked c.keys) w).cfg off sel)


/-- R40: a store by partition 0 to TB_ADDEND_LO or TB_ADDEND_HI with SERVO_EN = 0 stages the addend and changes nothing else; with
SERVO_EN = 1 it changes nothing. R55: STEP = 1 written by partition 0 with an offset at hand orders a step of the counter when nothing
stands in its way, and is refused with STEP_REFUSED otherwise. Completes: TB_ADDEND_LO_WRITE, TB_ADDEND_HI_WRITE, STEP. -/
def Obligations.TimeBaseStores : Prop :=
  (∀ (s x : State) (t : Nat) (h : Hearth) (v : BitVec 32), x = s.runTo t → CoreOf x h 0 →
    (servoEn x = false →
      exec (.tbAddendLoWrite t h v) s = .next (State.cleared { x with tb.stagedLo := some v.toNat } h) ∧
      exec (.tbAddendHiWrite t h v) s = .next (State.cleared { x with
        tb.nextAddend := some (fld v 15 0 * 2 ^ 32 + x.tb.stagedLo.getD (x.tb.addend % 2 ^ 32)), tb.stagedLo := none } h)) ∧
    (servoEn x = true →
      exec (.tbAddendLoWrite t h v) s = .next (State.cleared x h) ∧ exec (.tbAddendHiWrite t h v) s = .next (State.cleared x h))) ∧
  (∀ (s x : State) (t : Nat) (h : Hearth) (v : BitVec 32), x = s.runTo t → CoreOf x h 0 → bit v 4 = true →
    (∀ th, x.tb.latest = some th → stepOk x = true →
      ∃ y, exec (.step t h v) s = .next y ∧ y.tb.stepBy = some th ∧ y.tb.counter = x.tb.counter) ∧
    (x.tb.latest = none ∨ stepOk x = false →
      ∃ y, exec (.step t h v) s = .next y ∧ y.tb.stepRefused = true ∧ y.tb.stepBy = x.tb.stepBy))

/-- R44, R60: a load of TB_NOW_0 latches the time word for the core and gives its low word; a load of TB_TSQ_T3 by partition 0 gives the
high word of the head of the stamp queue and removes the head. R43: the Sstc interrupt pends at the first counter-clock edge at which the
whole nanoseconds of the counter reach the compare value: they have reached it then, and had not one edge before. Completes:
TB_NOW0_READ, TB_TSQ_T3_READ, STIMECMP_INTERRUPT. -/
def Obligations.CoreTime : Prop :=
  (∀ (s x : State) (t : Nat) (h : Hearth), x = s.runTo t → coreRuns x h = true →
    exec (.tbNow0Read t h) s = .next ({ x with tu.now := Tbl.set 0 x.tu.now h (stampNow x).word }.updCore h
      (fun c => { c with result := BitVec.ofNat 64 ((stampNow x).word.toNat % 2 ^ 32), trap := none })) ∧
    (∀ e r, hearthOwner x h = 0 → x.tu.tsq = e :: r →
      exec (.tbTsqT3Read t h) s = .next ({ x with tu.tsq := r }.updCore h
        (fun c => { c with result := BitVec.ofNat 64 (e.stamp.word.toNat / 2 ^ 96), trap := none })))) ∧
  (∀ (s : State) (h : Hearth) (virt : Bool) (cmp : BitVec 64), coreRuns s h = true → 0 < s.tb.addend →
    ∃ x n, exec (.stimecmpInterrupt h virt cmp) s = .next x ∧
      x = (s.pass n).updCore h (fun c => if virt then { c with vstimecmp := cmp, vstip := true } else { c with stimecmp := cmp, stip := true }) ∧
      cmp.toNat ≤ x.tb.counter / 2 ^ 40 ∧ (∀ m, m < n → (s.pass m).tb.counter / 2 ^ 40 < cmp.toNat))

/-- R52: while LEAP_PENDING is set, the leap second changes UTC_OFFSET by one second and clears LEAP_PENDING, and the offset before it stays
that of earlier instants; nothing else changes but time. R70, R71: at the top of a second an output in mode 1 whose error gate passes begins a pulse of its width, and an output in mode 2
sends an IRIG-B frame when the UTC offset is valid; both do nothing to other outputs. Completes: LEAP_SECOND, PPS_PULSE, IRIG_B_FRAME. -/
def Obligations.SecondsAndOutputs : Prop :=
  (∀ (s : State), alive s = true → bit (s.cfg 0x44 0) 17 = true → ∃ x, exec .leapSecond s = .next x ∧
    x = { (s.waitUntil (sec16 (leapTai s))).setCfg 0x44 0 (x.cfg 0x44 0) with tu.utcPast := x.tu.utcPast } ∧
    x.tu.utcPast = { at_ := sec16 (leapTai s), off := signed 16 (fld (s.cfg 0x44 0) 15 0),
                     leap := if bit (s.cfg 0x44 0) 18 then 2 else 1 } :: s.tu.utcPast ∧ bit (x.cfg 0x44 0) 17 = false ∧
    bit (x.cfg 0x44 0) 16 = bit (s.cfg 0x44 0) 16 ∧ bit (x.cfg 0x44 0) 18 = bit (s.cfg 0x44 0) 18 ∧
    (x.cfg 0x44 0).toNat % 65536 = (fld (s.cfg 0x44 0) 15 0 + (if bit (s.cfg 0x44 0) 18 then 65535 else 1)) % 65536) ∧
  (∀ (s : State) (n : Fin 8), alive s = true → gateOk (waitTop s) n = true → toutsDriven (waitTop s) = true →
    (toutMode (waitTop s) n = 1 → ∃ x, exec (.ppsPulse n) s = .next x ∧
      (x.tout n).pulse = some (sec16 (topOf s), sec16 (topOf s) + toutWidth (waitTop s) n) ∧
      (∀ m, m ≠ n.val → x.tout m = s.tout m) ∧ x = { waitTop s with tu := x.tu }) ∧
    (toutMode (waitTop s) n = 2 → bit (s.cfg 0x44 0) 16 = true → ∃ x, exec (.irigBFrame n) s = .next x ∧
      (x.tout n).irig = irigFrame (waitTop s) n (topOf s) ∧ (x.tout n).irigAt = sec16 (topOf s) ∧
      (∀ m, m ≠ n.val → x.tout m = s.tout m) ∧ x = { waitTop s with tu := x.tu }))

/-- R341, R343: a store to a register of staged bits in an open transaction stages its key and leaves the committed value. R11: with no
transaction open the store is ignored and counted in TX_IGN. R343: a store past 4,096 keys of the transaction or 16,384 of the module is
not staged and sets OVERFLOW; the commit of a transaction with OVERFLOW ends it with EXCEEDS_MEMORY and no register changes. R10, R478: a
store by a partition to one of its own selectors takes at once the bits that the register has, and changes no other register. Completes:
STAGED_WRITE, REGISTER_WRITE. -/
def Obligations.RegisterStores : Prop :=
  (∀ (s x : State) (t : Nat) (h : Hearth) (p off : Nat) (v : BitVec 32) (i : RegInfo), x = s.runTo t → CoreOf x h p →
    off < 0x150000 → off % 4 = 0 → off / 65536 ≠ 15 → regInfo off = some i → i.tx ≠ 0 → i.rw = 0 →
    domOn x off (sliceSel x p off) = true → (writeRule x off (selValue x p i)).allows p = true → isStandby x = false →
    ((x.txn p).st = .open_ → claimedByOther x p (regKey off (stageSel x p off (selValue x p i))) = false →
      ((x.txn p).keys.any (fun k => k.1 == regKey off (stageSel x p off (selValue x p i)))) = false → (x.txn p).keys.length < 4096 →
      stagedTotal x < 16384 → ∃ y, exec (.stagedWrite t h (setupBase + off) v) s = .next y ∧
        (y.txn p).keys = (x.txn p).keys ++ [(regKey off (stageSel x p off (selValue x p i)), v &&& i.tx)] ∧ y.regs = x.regs) ∧
    ((x.txn p).st ≠ .open_ → ∃ y, exec (.stagedWrite t h (setupBase + off) v) s = .next y ∧
        (y.txn p).ign = inc32 (x.txn p).ign ∧ (y.txn p).keys = (x.txn p).keys ∧ y.regs = x.regs) ∧
    ((x.txn p).st = .open_ → claimedByOther x p (regKey off (stageSel x p off (selValue x p i))) = false →
      ((x.txn p).keys.any (fun k => k.1 == regKey off (stageSel x p off (selValue x p i)))) = false → 4096 ≤ (x.txn p).keys.length ∨ 16384 ≤ stagedTotal x →
      ∃ y, exec (.stagedWrite t h (setupBase + off) v) s = .next y ∧
        (y.txn p).overflow = true ∧ (y.txn p).keys = (x.txn p).keys ∧ y.regs = x.regs)) ∧
  (∀ (s : State) (t : Nat) (p : PartId) (r : RingNo) (y : State × Flight), Fetches (s.runTo t) p r 0x22 y → isStandby y.1 = false →
    reservedOk y.2.words 0x200 [(2, 0xFFFFFFFF), (3, 0xFFFFFFFF), (4, 0xFFFFFFFF), (5, 0xFFFFFFFF)] = true →
    (y.1.txn p).st = .open_ → (y.1.txn p).conflict = false → (y.1.txn p).overflow = true →
    ∃ z, exec (.txnCommit t p r) s = .next z ∧ (z.txn p).st = .idle ∧ z.regs = y.1.regs ∧
      z.db = (finishTxn (dropTxn p y.1) (64 * p + r) y.2.id stExceeds (y.1.txn p).txid).db ∧
      z.dram = (finishTxn (dropTxn p y.1) (64 * p + r) y.2.id stExceeds (y.1.txn p).txid).dram) ∧
  (∀ (s x : State) (t : Nat) (h : Hearth) (p off : Nat) (v m : BitVec 32), x = s.runTo t → CoreOf x h p → p < 32 →
    off < 0x150000 → off % 4 = 0 → regInfo off = some { rw := m, sel := .own } → m ≠ 0 → off / 65536 ≠ 0 → off / 65536 ≠ 15 →
    domOn x off (sliceSel x p off) = true → (writeRule x off p).allows p = true →
    ∃ y, exec (.registerWrite t h (setupBase + off) v) s = .next y ∧ y.cfg off p = ((x.cfg off p &&& ~~~m) ||| (v &&& m)) ∧
      (∀ o k, k < 65536 → (o ≠ off ∨ k ≠ p) → y.cfg o k = x.cfg o k) ∧ y.tx = x.tx ∧ y.dram = x.dram)

/-- R296, R297, R299: a reset of partition, hearth or engine scope that the requester owns, outside any reset that runs, is noted and
takes effect 10 µs (2,500 edges) later; a request by a partition that does not own the scope is refused. R297, R298, R478: the earliest
request takes effect at its instant; a partition's own selectors then read their reset values. The end of the drain ends the reset, and a
partition that is enabled and was not stopped runs again. Completes: PARTITION_RESET, HEARTH_RESET, the three ENGINE_RESETs,
RESET_EFFECTIVE, RESET_DRAIN_COMPLETE. -/
def Obligations.PartialResets : Prop :=
  (∀ (s x : State) (t : Nat) (h : Hearth) (p : Nat), x = s.runTo t → CoreOf x h p → isStandby x = false →
    (∀ k : PartId, ResetAsked x p (.partition k) → ∃ y, exec (.partitionReset t h k) s = .next y ∧ ResetNoted x y (.partition k)) ∧
    (∀ k : Hearth, ResetAsked x p (.hearth k) → ∃ y, exec (.hearthReset t h k) s = .next y ∧ ResetNoted x y (.hearth k)) ∧
    (∀ k : Hearth, ResetAsked x p (.fbe k) → ∃ y, exec (.engineResetFbe t h k) s = .next y ∧ ResetNoted x y (.fbe k)) ∧
    (∀ k : LoopNo, ResetAsked x p (.loop k) → ∃ y, exec (.engineResetLoop t h k) s = .next y ∧ ResetNoted x y (.loop k)) ∧
    (∀ k : Fin 144, ResetAsked x p (.capture k) → ∃ y, exec (.engineResetCapture t h k) s = .next y ∧ ResetNoted x y (.capture k))) ∧
  (∀ (s x : State) (t : Nat) (h : Hearth) (p : Nat) (c : RScope) (i : Instr), x = s.runTo t → CoreOf x h p → isStandby x = false →
    ((∃ k : PartId, c = .partition k ∧ i = .partitionReset t h k) ∨ (∃ k : Hearth, c = .hearth k ∧ i = .hearthReset t h k) ∨
      (∃ k : Hearth, c = .fbe k ∧ i = .engineResetFbe t h k) ∨ (∃ k : LoopNo, c = .loop k ∧ i = .engineResetLoop t h k) ∨
      (∃ k : Fin 144, c = .capture k ∧ i = .engineResetCapture t h k)) →
    mayReset x p c = false → exec i s = .next (State.cleared { x with pt.refused := true } h)) ∧
  ((∀ (s : State) (z : ResetRun) (r : List ResetRun), alive s = true →
    sortBy (fun a b => decide (a.effEdge ≤ b.effEdge)) (s.pt.resets.filter (fun z => !z.draining)) = z :: r →
    ∃ y, exec .resetEffective s = .next y ∧ z.effEdge ≤ y.tb.edge ∧
      (∀ p off, z.scope = .partition p → p < 65536 → off ≠ 0x90100 → off ≠ 0x90104 →
        (∃ i, regInfo off = some i ∧ i.sel = .own) → y.cfg off p = regReset off p)) ∧
  (∀ (s x : State) (t : Nat) (z : ResetRun), x = s.runTo t → alive x = true → x.pt.resets.find? (·.draining) = some z →
    ∃ y, exec (.resetDrainComplete t) s = .next y ∧ y.pt.resets = x.pt.resets.filter (fun w => w != z) ∧
      y.pt.lastScope = scopeCode z.scope ∧ y.pt.lastDrain = BitVec.ofNat 16 (min (x.tb.edge - z.reqEdge) 65535) ∧
      (∀ p, z.scope = .partition p → (y.part p).state = if partEn x p && !z.stop then .running else .stopped)))


/-- R74, R77, R90, R91, R94, R108: an SV frame of one ASDU with a matching entry, admitted and well formed, whose sample is neither
stale, nor late, nor older than the last placed one, places its channels, moves the last sample number and counts as received and
accepted, and samples that it skips are placed by nothing; one whose sampling instant is not later than the last placed one is discarded
and counted as SEQ_OLD; other streams keep their state. R78: with no matching entry it is counted unmatched. R99: an APPID out of range
is counted with its reason and places nothing. Completes: SV_FRAME. -/
def Obligations.SampledValues : Prop :=
  ∀ (s x : State) (t : Nat) (port : PPort) (o : List (BitVec 8)), x = s.runTo t → Ingests x port o .sv →
    (∀ e l cb a, classifySte x port .sv (be o (etherAt o).2 2) 0 o = some e → Admitted x e (simBit1 o (etherAt o).2) →
      0x4000 ≤ be o (etherAt o).2 2 → be o (etherAt o).2 2 ≤ 0x7FFF → lengthOk o (etherAt o).2 = true →
      reserved1Ok o (etherAt o).2 = true → svParse (ste x e) (apdu o (etherAt o).2) = .inr [l] → tlvGet l 0x82 = some cb →
      cb.length = 2 → beNat cb < 4800 * perSlot (ste x e).rate →
      (∀ c ∈ svChans ((tlvGet l 0x87).getD []), c.2.toNat < 2 ^ 14) →
      sampleNumber (4800 * perSlot (ste x e).rate) (beNat cb) (ingress x port + us16 10) = some a →
      ingress x port ≤ a * sec16 1 / (4800 * perSlot (ste x e).rate) + ms16 500 →
      (∀ b, (x.stream e).last = some b → b < a) → ingress x port < cutoff x (ste x e).croft (a / perSlot (ste x e).rate) →
      (ste x e).syncReq ≤ synchRank (beNat ((tlvGet l 0x85).getD [])) →
      ∃ y, exec (.svFrame t port o) s = .next y ∧ (y.stream e).last = some a ∧
        (y.stream e).pend = (x.stream e).pend ++
          [{ a := a, asdu := 0, vals := (svChans ((tlvGet l 0x87).getD [])).map (fun c => { v := c.1, q := c.2 }) }] ∧
        igCntOf y e 0 = add32 (igCntOf x e 0) 1 ∧ igCntOf y e 1 = add32 (igCntOf x e 1) 1 ∧
        (∀ k, k ≠ e → y.stream k = x.stream k) ∧ y.regs = x.regs ∧ y.tb = x.tb) ∧
    (∀ e l cb a b, classifySte x port .sv (be o (etherAt o).2 2) 0 o = some e → Admitted x e (simBit1 o (etherAt o).2) →
      0x4000 ≤ be o (etherAt o).2 2 → be o (etherAt o).2 2 ≤ 0x7FFF → lengthOk o (etherAt o).2 = true →
      reserved1Ok o (etherAt o).2 = true → svParse (ste x e) (apdu o (etherAt o).2) = .inr [l] → tlvGet l 0x82 = some cb →
      cb.length = 2 → beNat cb < 4800 * perSlot (ste x e).rate → (∀ c ∈ svChans ((tlvGet l 0x87).getD []), c.2.toNat < 2 ^ 14) →
      sampleNumber (4800 * perSlot (ste x e).rate) (beNat cb) (ingress x port + us16 10) = some a →
      ingress x port ≤ a * sec16 1 / (4800 * perSlot (ste x e).rate) + ms16 500 → (x.stream e).last = some b → a ≤ b →
      ∃ y, exec (.svFrame t port o) s = .next y ∧ y.ig.streams = x.ig.streams ∧ igCntOf y e 6 = add32 (igCntOf x e 6) 1 ∧
        y.regs = x.regs) ∧
    (classifySte x port .sv (be o (etherAt o).2 2) 0 o = none → ∃ y, exec (.svFrame t port o) s = .next y ∧
      Tbl.get 0 y.ig.other (0x10100 + 4 * port) = inc32 (Tbl.get 0 x.ig.other (0x10100 + 4 * port)) ∧
      y.ig.streams = x.ig.streams ∧ y.ig.cnt = x.ig.cnt) ∧
    (∀ e, classifySte x port .sv (be o (etherAt o).2 2) 0 o = some e → Admitted x e (simBit1 o (etherAt o).2) →
      be o (etherAt o).2 2 < 0x4000 ∨ 0x7FFF < be o (etherAt o).2 2 → ∃ y, exec (.svFrame t port o) s = .next y ∧
        y.ig.streams = x.ig.streams ∧ igCntOf y e 0 = add32 (igCntOf x e 0) 1 ∧ igCntOf y e 4 = add32 (igCntOf x e 4) 1 ∧
        igCntOf y e 15 % 65536 = 1)

/-- R100 to R102: a well-formed GOOSE frame whose stNum is later than the last one accepted renews the time allowed to live and gives new
points from the first slot whose cutoff it precedes; one with the same stNum and a later sqNum renews the time only; one with neither is
an old frame and changes no stream. Completes: GOOSE_FRAME. -/
def Obligations.GooseStates : Prop :=
  ∀ (s x : State) (t : Nat) (port : PPort) (o : List (BitVec 8)) (e : Nat) (g : GoosePdu) (pdu : List (Nat × List (BitVec 8)))
    (c r : List (BitVec 8)) (k : Nat),
    x = s.runTo t → Ingests x port o .goose → classifySte x port .goose (be o (etherAt o).2 2) 0 o = some e →
    Admitted x e (simBit1 o (etherAt o).2) → tlv (apdu o (etherAt o).2) = some (k, c, r) → tlvAll c = some pdu → tlvGet pdu 0x87 = none →
    be o (etherAt o).2 2 ≤ 0x3FFF → lengthOk o (etherAt o).2 = true → reserved1Ok o (etherAt o).2 = true →
    gooseParse (ste x e) (x.stream e).layout (apdu o (etherAt o).2) = .inr g →
    (later32 g.stNum (x.stream e).stNum = true → ∃ y, exec (.gooseFrame t port o) s = .next y ∧
      (y.stream e).stNum = g.stNum ∧ (y.stream e).sqNum = g.sqNum ∧ (y.stream e).goose = g.pts ∧
      (y.stream e).expiry = ingress x port + ms16 (g.tal + (ste x e).margin) ∧
      (y.stream e).pts = (x.stream e).pts ++ [PointSet.mk (effSlot x (ste x e).croft (ingress x port))
        ((List.range g.pts.length).map (fun j => ((ste x e).base + j, g.pts.getD j (0, 1))))] ∧
      (∀ j, j ≠ e → y.stream j = x.stream j) ∧ y.regs = x.regs ∧ y.tb = x.tb) ∧
    ((x.stream e).st = .running → g.stNum = (x.stream e).stNum → later32 g.sqNum (x.stream e).sqNum = true →
      ∃ y, exec (.gooseFrame t port o) s = .next y ∧ (y.stream e).sqNum = g.sqNum ∧ (y.stream e).pts = (x.stream e).pts ∧
        (y.stream e).expiry = ingress x port + ms16 (g.tal + (ste x e).margin)) ∧
    ((x.stream e).st = .running → later32 g.stNum (x.stream e).stNum = false →
      g.stNum ≠ (x.stream e).stNum ∨ later32 g.sqNum (x.stream e).sqNum = false →
      ∃ y, exec (.gooseFrame t port o) s = .next y ∧ y.ig.streams = x.ig.streams ∧ igCntOf y e 6 = add32 (igCntOf x e 6) 1)

/-- R104 to R107: a well-formed surge frame places each sample that comes before its slot's cutoff, takes the frame's sequence number and
counts what comes late; a frame that starts before the end of the last one is old and places nothing. R103: a datagram whose header or
checksum is wrong is discarded whole. Completes: GRIUZ_SURGE_FRAME. -/
def Obligations.SurgeFrames : Prop :=
  ∀ (s x : State) (t : Nat) (port : PPort) (o : List (BitVec 8)) (u : Nat), x = s.runTo t → Ingests x port o .surge →
    griuzAt x o = some u →
    (∀ e per, griuzIpOk o u = true → classifySte x port .surge (be (griuzPayload o u) 6 2) (be o ((etherAt o).2 + 12) 4) o = some e →
      Admitted x e (be (griuzPayload o u) 28 1 / 128 == 1) → surgeCheck (ste x e) (griuzPayload o u) = none →
      surgePeriod (be (griuzPayload o u) 30 1) = some per →
      ((∀ l, (x.stream e).last = some l → l ≤ (griuzTime (griuzPayload o u) 12).1) →
        ∃ y, exec (.griuzSurgeFrame t port o) s = .next y ∧ (y.stream e).seq = some (be (griuzPayload o u) 8 4) ∧ (y.stream e).sper = per ∧
          (y.stream e).surge = (x.stream e).surge ++ ((List.range (be (griuzPayload o u) 32 2)).map
            (surgePt (ste x e) (griuzPayload o u) per)).filter (fun z => ingress x port < cutoff x (ste x e).bell (slotOf z.t16)) ∧
          (∀ k, k ≠ e → y.stream k = x.stream k) ∧ y.regs = x.regs) ∧
      (∀ l, (x.stream e).last = some l → (griuzTime (griuzPayload o u) 12).1 < l →
        ∃ y, exec (.griuzSurgeFrame t port o) s = .next y ∧ y.ig.streams = x.ig.streams ∧ igCntOf y e 6 = add32 (igCntOf x e 6) 1)) ∧
    (griuzIpOk o u = false → ∃ y, exec (.griuzSurgeFrame t port o) s = .next y ∧ y.ig = x.ig ∧ y.fl = x.fl)

/-- R201, R202: an arrival message of a line without authentication, well formed, sent by the line's remote end and not yet taken, is
counted, remembered by its event number, and held while no event of the line is open. Completes: GRIUZ_ARRIVAL_MESSAGE. -/
def Obligations.ArrivalMessages : Prop :=
  ∀ (s x : State) (t : Nat) (port : PPort) (o : List (BitVec 8)) (u l : Nat), x = s.runTo t → Ingests x port o .arrival →
    griuzAt x o = some u → griuzIpOk o u = true → arrHead (griuzPayload o u) = none →
    (linesValid x).find? (fun l => (lineCfg x l).id == be (griuzPayload o u) 30 2 &&
      (lineCfg x l).remote == be (griuzPayload o u) 6 2 && (lineCfg x l).ip == be o ((etherAt o).2 + 12) 4) = some l →
    arrTail (lineCfg x l) (griuzPayload o u) = none → (lineCfg x l).auth = 0 →
    (msgOf (griuzPayload o u) (ingress x port)).phasors = false → (x.line l).st ≠ .open_ →
    (x.line l).taken.contains (false, (msgOf (griuzPayload o u) (ingress x port)).evSeq) = false →
    ∃ y, exec (.griuzArrivalMessage t port o) s = .next y ∧
      (y.line l).held = (x.line l).held ++ [msgOf (griuzPayload o u) (ingress x port)] ∧
      (y.line l).taken = (false, (msgOf (griuzPayload o u) (ingress x port)).evSeq) :: (x.line l).taken ∧
      (∀ k, k ≠ l → y.line k = x.line k) ∧ y.regs = x.regs ∧ y.ig.streams = x.ig.streams

/-- R80: in PRP mode a supervision frame is counted and goes no further. R83: a source of the duplicate record is forgotten 400 ms
after its last use. R85: the previous key slot is accepted to the end of its overlap; time reaches that end, and a later frame under that
slot's identifier fails with KEY_OLD. Completes: PRP_SUPERVISION_FRAME, DUPLICATE_ENTRY_FORGOTTEN, KEY_OVERLAP_END. -/
def Obligations.RedundancyRecords : Prop :=
  (∀ (s x : State) (t : Nat) (port : PPort) (o : List (BitVec 8)), x = s.runTo t → portLive x port = true → macEn x port = true →
    pairMode x port = 1 → (etherAt o).1 = 0x88FB → 60 ≤ o.length → o.length ≤ 1518 →
    exec (.prpSupervisionFrame t port o) s =
      .next (igOther (macCount (macCount x port 0 1) port 1 (o.length + 4)) (0x10140 + 8 * (port / 2)))) ∧
  (∀ (s : State) (q : Fin 4) (mac : Nat) (d : DupSrc), alive s = true →
    (Tbl.get [] s.ig.dup q).find? (fun d => d.mac == mac) = some d → ∃ y, exec (.duplicateEntryForgotten q mac) s = .next y ∧
      Tbl.get [] y.ig.dup q = (Tbl.get [] s.ig.dup q).filter (fun z => z.mac != mac) ∧
      y.tb.edge = max s.tb.edge (d.last + 100000000) ∧ y.regs = s.regs ∧ (∀ k, k ≠ q.val → Tbl.get [] y.ig.dup k = Tbl.get [] s.ig.dup k)) ∧
  (∀ (s : State) (e : Fin 4096) (u : Nat), alive s = true → (s.stream e).prevEnd = some u → ∃ y, exec (.keyOverlapEnd e) s = .next y ∧
    y = s.waitUntil u ∧ (0 < s.tb.addend → u * 2 ^ 24 ≤ y.tb.counter) ∧
    (∀ (alg keyAlg stamp : Nat) (id : BitVec 32) (iv o mac : List (BitVec 8)), u < stamp →
      ((ste s e).aValid = true ∧ (ste s e).aKey = id ∧ (s.stream e).keyB = true) ∨
      (¬((ste s e).aValid = true ∧ (ste s e).aKey = id) ∧ (ste s e).bValid = true ∧ (ste s e).bKey = id ∧ (s.stream e).keyB = false) →
      verifySlots e alg keyAlg id iv o mac stamp y = (y, some rsOld)))

/-- R97, R98: an SV stream whose misses reach LOSS, and a running GOOSE stream at the expiry of its time allowed to live, go to LOST and
are counted. R124: a chain that has taken its settling length of samples is settled. Completes: STREAM_LOST, GOOSE_TAL_EXPIRY,
CHAIN_SETTLED. -/
def Obligations.StreamLosses : Prop :=
  ∀ (s : State) (e : Fin 4096), alive s = true →
    ((s.stream e).st = .running → (ste s e).kind ≠ 1 → (ste s e).loss ≤ (s.stream e).miss → ∃ y, exec (.streamLost e) s = .next y ∧
      (y.stream e).st = .lost ∧ (y.stream e).vals = [] ∧ igCntOf y e 11 = add32 (igCntOf s e 11) 1 ∧ y.regs = s.regs ∧
      (∀ k, k ≠ e.val → y.stream k = s.stream k)) ∧
    ((s.stream e).st = .running → (ste s e).kind = 1 → ∃ y, exec (.gooseTalExpiry e) s = .next y ∧
      (y.stream e).st = .lost ∧ igCntOf y e 11 = add32 (igCntOf s e 11) 1 ∧ y.regs = s.regs ∧ (y.stream e).goose = (s.stream e).goose ∧
      (∀ k, k ≠ e.val → y.stream k = s.stream k)) ∧
    (∀ (c : Croft) (ce : Fin 2048), (chainLive s c ce).en = true → settleLen (chainLive s c ce) ≤ (s.chain c ce).taken →
      (placerOf s c ce).isSome = true →
      exec (.chainSettled c ce) s = .next (s.updChain c ce (fun z => { z with settled := true })))

/-- R151, R153, R154, R156: CAP_ARM of an idle unit with a valid profile and list, owned channels and capacity left puts the unit in
service with the spans asked for and writes nothing back; CAP_FORCE triggers an armed unit; CAP_ABORT makes a unit in service IDLE;
CAP_RELEASE frees a HELD segment. Other units keep their state. Completes: CAP_ARM, CAP_FORCE, CAP_ABORT, CAP_RELEASE. -/
def Obligations.CaptureCommands : Prop :=
  ∀ (s x : State) (t : Nat) (p : PartId) (r : RingNo) (y : State × Flight) (g : Nat), x = s.runTo t → capSel y.2.words = some g →
    capResOk y.2.words = true → capOwner y.1 g = p →
    (∀ (c : CapProf) b rate pre post, Fetches x p r 0x61 y → c = profList (profWords y.1 g) → profOk g c = true →
      devRead y.1 p c.chl (4 * (c.na + c.nd)) = some b → listRate y.1 g c (bytesWords b) = some rate →
      listOwned y.1 g p (bytesWords b) = true → y.1.timeValid = true → (y.1.cap g).st = .idle →
      capShare y.1 g + recSize (isSurge g) c.na c.nd * rate ≤ 80000000 →
      pre = (if fld (dw y.2.words 2) 23 0 = 0 then c.pre else fld (dw y.2.words 2) 23 0) →
      post = (if fld (dw y.2.words 3) 23 0 = 0 then c.post else fld (dw y.2.words 3) 23 0) → pre + post ≤ capSlots g c →
      ∃ z, exec (.capArm t p r) s = .next z ∧
        (z.cap g).st = (if (List.range c.nseg).any (fun i => segState (y.1.cap g) i == .free) then .armed else .waitSeg) ∧
        (z.cap g).pre = pre ∧ (z.cap g).post = post ∧ (z.cap g).rate = rate ∧ (z.cap g).flight = y.2.id ∧
        (z.cap g).list = bytesWords b ∧ (∀ k, k ≠ g → z.cap k = y.1.cap k) ∧ z.db = y.1.db ∧ z.regs = y.1.regs) ∧
    (Fetches x p r 0x63 y → (y.1.cap g).st = .armed → ∃ z, exec (.capForce t p r) s = .next (finish z p r y.2.id stDone) ∧
      (z.cap g).st = .post ∧ (z.cap g).trig = some (stampNow y.1) ∧ (z.cap g).flags = 0x10 ∧ (∀ k, k ≠ g → z.cap k = y.1.cap k)) ∧
    (Fetches x p r 0x62 y → bit (dw y.2.words 0) 9 = false → (y.1.cap g).st ≠ .idle → ∃ z, exec (.capAbort t p r) s = .next z ∧
      (z.cap g).st = .idle ∧ (z.cap g).todo = [] ∧ (∀ k, k ≠ g → z.cap k = y.1.cap k) ∧ z.regs = y.1.regs ∧
      ((y.1.cap g).st = .armed ∨ (y.1.cap g).st = .post → segState (z.cap g) (y.1.cap g).seg = .free)) ∧
    (Fetches x p r 0x64 y → segState (y.1.cap g) (fld (dw y.2.words 2) 3 0) = .held →
      exportOf y.1 g (fld (dw y.2.words 2) 3 0) = none → (y.1.cap g).st ≠ .waitSeg → ∃ z, exec (.capRelease t p r) s =
        .next (finish z p r y.2.id stDone) ∧ segState (z.cap g) (fld (dw y.2.words 2) 3 0) = .free ∧ (∀ k, k ≠ g → z.cap k = y.1.cap k))

/-- R152, R155: a capture whose last post record is taken is HELD in its segment and its serial number goes up; the last one of the
service leaves the unit IDLE. R158, R161: CAP_EXPORT of a HELD segment with a readable template and room opens an operation with the two
files; CAP_ABORT with EXPORT set ends it ABORTED. Completes: CAPTURE_COMPLETE, CAP_EXPORT, CAP_ABORT_EXPORT. -/
def Obligations.CaptureExports : Prop :=
  (∀ (s : State) (g : Fin 144), alive s = true → capDone (s.cap g) = true → ∃ y, exec (.captureComplete g) s = .next y ∧
    (y.cap g).serial = (s.cap g).serial + 1 ∧ segState (y.cap g) (s.cap g).seg = .held ∧
    ((s.cap g).left = some 1 → (y.cap g).st = .idle) ∧ (∀ k, k ≠ g.val → y.cap k = s.cap k) ∧ y.regs = s.regs) ∧
  (∀ (s x : State) (t : Nat) (p : PartId) (r : RingNo) (y : State × Flight) (g : Nat), x = s.runTo t → capSel y.2.words = some g →
    capResOk y.2.words = true → capOwner y.1 g = p →
    (∀ tb trig files, Fetches x p r 0x65 y → fld (dw y.2.words 6) 15 0 ≠ 0 →
      segState (y.1.cap g) (fld (dw y.2.words 2) 3 0) = .held → devRead y.1 p (addr48 y.2.words 4) (fld (dw y.2.words 6) 15 0) = some tb →
      exportFiles y.1 g (fld (dw y.2.words 2) 3 0) (bit (dw y.2.words 0) 10) (some tb) = some (trig, files) →
      trig.q.getLsbD 6 = true → stBusy y.1 = false → exportOf y.1 g (fld (dw y.2.words 2) 3 0) = none →
      (files.map (fun e => pagesOf e.2.length)).foldl (· + ·) 0 ≤ freePages y.1 4 →
      ∃ z o, exec (.capExport t p r) s = .next z ∧ z.st.ops = y.1.st.ops ++ [o] ∧ o.kind = .export_ ∧ o.objs = files ∧ o.region = 4 ∧
        o.flight = y.2.id ∧ z.db = y.1.db ∧ z.st.objects = y.1.st.objects) ∧
    (∀ o, Fetches x p r 0x62 y → bit (dw y.2.words 0) 9 = true → exportOf y.1 g (fld (dw y.2.words 2) 3 0) = some o →
      exec (.capAbortExport t p r) s = .next (finish (abortOp y.1 o stAborted) p r y.2.id stDone)))

/-- R184: PH_STREAM_START of a stopped stream with a valid configuration frame, map and header starts it with the first reporting instant
after now; PH_STREAM_STOP stops it, PH_STREAM_MARK sets its mark. R186, R189: a data frame for the next instant whose reports are all there
is built, and counted when it is sent, or without usable time counted as suppressed. Completes: PH_STREAM_START, PH_STREAM_STOP,
PH_STREAM_MARK, DATA_FRAME_BUILD. -/
def Obligations.PhasorStreams : Prop :=
  (∀ (s x : State) (t : Nat) (p : PartId) (r : RingNo) (y : State × Flight) (n : Nat), x = s.runTo t →
    n = fld (dw y.2.words 0) 31 16 → n < 64 →
    (∀ cfg map hdr, Fetches x p r 0x72 y →
      reservedOk y.2.words 0xFFFF0000 [(2, 0xFFFFFFFF), (3, 0xFFFF), (4, 0xFFFF), (5, 0xFFFFFFFF), (6, 0xFFFF), (7, 0xFFFFFFFF),
        (8, 0xFFFF), (9, 0xFFF)] = true →
      fld (dw y.2.words 9) 7 0 = 42 ∨ fld (dw y.2.words 9) 7 0 = 46 →
      fld (dw y.2.words 9) 11 8 < 8 ∨ (10 ≤ fld (dw y.2.words 9) 11 8 ∧ fld (dw y.2.words 9) 11 8 ≤ 12) →
      devRead y.1 p (addr48 y.2.words 2) (fld (dw y.2.words 4) 15 0) = some cfg → cfgFrameOk cfg = true →
      devRead y.1 p (addr48 y.2.words 5) (4 * mapWords (cfgBlocks cfg []).1) = some map →
      devRead y.1 p (addr48 y.2.words 7) (fld (dw y.2.words 9) 7 0) = some hdr →
      cfgMapOk y.1 cfg (cfgBlocks cfg (bytesWords map)).1 = true → cfgOwned y.1 n p (cfgBlocks cfg (bytesWords map)).1 = true →
      (y.1.pws n).running = false → ∃ z, exec (.phStreamStart t p r) s = .next (finish z p r y.2.id stDone) ∧
        (z.pws n).running = true ∧ (z.pws n).cfg = cfg ∧ (z.pws n).hdr = hdr ∧ (z.pws n).port = fld (dw y.2.words 9) 11 8 ∧
        (z.pws n).next = firstReport y.1 (cfgBlocks cfg (bytesWords map)).1 (now16 y.1 + 1) ∧ (∀ k, k ≠ n → z.pws k = y.1.pws k)) ∧
    (Fetches x p r 0x73 y → reservedOk y.2.words 0xFFFF0000 [] = true → wsOwner y.1 n = p → (y.1.pws n).running = true →
      ∃ z, exec (.phStreamStop t p r) s = .next (finish z p r y.2.id stDone) ∧ (z.pws n).running = false ∧
        (z.pws n).until_ = slotOf (now16 y.1) + 1 ∧ (∀ k, k ≠ n → z.pws k = y.1.pws k)) ∧
    (Fetches x p r 0x74 y → reservedOk y.2.words 0xFFFF0200 [] = true → wsOwner y.1 n = p → exec (.phStreamMark t p r) s =
      .next (finish (y.1.updPws n (fun z => { z with mark := bit (dw y.2.words 0) 9 })) p r y.2.id stDone))) ∧
  (∀ (s : State) (n : Fin 64) (slot : Nat) (rep : PhRep) (b : PmuBlk) (bs : List PmuBlk), alive s = true →
    (cfgBlocks (s.pws n).cfg (s.pws n).map).1 = b :: bs → commonReport s (s.pws n) (b :: bs) = some slot →
    (s.grp b.sel).reps.find? (fun q => q.slot == slot) = some rep → ∃ y, exec (.dataFrameBuild n) s = .next y ∧
      (y.pws n).next = slot + 1 ∧ (∀ k, k ≠ n.val → y.pws k = s.pws k) ∧ y.tb = s.tb ∧
      (if rep.edge.q.toNat % 8 = 0 ∨ rep.edge.q.getLsbD 6 = false
        then (y.pws n).supp = inc32 (s.pws n).supp ∧ (y.pws n).frames = (s.pws n).frames ∧ y.gn = s.gn
        else (y.pws n).supp = (s.pws n).supp ∧ (gatesOpen s = true → (y.pws n).frames = inc32 (s.pws n).frames) ∧
          (gatesOpen s = false → (y.pws n).frames = (s.pws n).frames)))

/-- R197, R200: 1,024 valid samples arm a line's detector; the arrivals and the fault phasors of an open event are sent once each, as a
message that takes the next sequence number; a message still owed by an event that has closed goes first, once the slots cover it; a
repeated message goes again when its copy is due, until its copies are used up. Completes: DETECTOR_ARMED, ARRIVALS_SEND, PHASORS_SEND,
MESSAGE_REPEAT. -/
def Obligations.FaultMessages : Prop :=
  ∀ (s : State) (l : Fin 32), alive s = true →
    (1024 ≤ (s.line l).valid → exec (.detectorArmed l) s = .next (s.updLine l (fun y => { y with armed := true }))) ∧
    (∀ o, (s.line l).owed.find? (fun z => z.phasors == false) = some o → (lineCfg s l).valid = true → (lineCfg s l).send = true →
      flCovers s (lineCfg s l) o.stop = true → ∃ y, exec (.arrivalsSend l) s = .next y ∧ (y.line l).owed = (s.line l).owed.filter (fun z => z != o) ∧
        (y.line l).sends.length = (s.line l).sends.length + min 1 ((lineCfg s l).repeats - 1) ∧ (∀ k, k ≠ l.val → y.line k = s.line k)) ∧
    (∀ a, (s.line l).owed = [] → evT1 (s.line l) = some a → (lineCfg s l).send = true → (s.line l).arrSent = false → (s.line l).st = .open_ →
      flCovers s (lineCfg s l) (a.t16 + (lineCfg s l).cover) = true → ∃ y, exec (.arrivalsSend l) s = .next y ∧
        (y.line l).arrSent = true ∧ (y.line l).sends.length = (s.line l).sends.length + min 1 ((lineCfg s l).repeats - 1) ∧
        (∀ k, k ≠ l.val → y.line k = s.line k) ∧
        ((lineCfg s l).auth = 0 → (devRead s (lineCfg s l).owner (lineCfg s l).hdr (lineCfg s l).hdrLen).isSome = true →
          y.fl.seq = (s.fl.seq + 1) % 2 ^ 32)) ∧
    ((s.line l).owed = [] → (s.line l).fault.isSome = true → (lineCfg s l).send = true → (lineCfg s l).imp = true → (s.line l).phSent = false →
      (s.line l).st = .open_ → ∃ y, exec (.phasorsSend l) s = .next y ∧
        (y.line l).phSent = true ∧ (y.line l).sends.length = (s.line l).sends.length + min 1 ((lineCfg s l).repeats - 1) ∧
        (∀ k, k ≠ l.val → y.line k = s.line k) ∧
        ((lineCfg s l).auth = 0 → (devRead s (lineCfg s l).owner (lineCfg s l).hdr (lineCfg s l).hdrLen).isSome = true →
          y.fl.seq = (s.fl.seq + 1) % 2 ^ 32)) ∧
    (∀ m r, (s.line l).sends = m :: r → (∀ o ∈ r, m.next ≤ o.next) → m ∉ r → (∀ o ∈ r, 0 < o.left) →
      ∃ y, exec (.messageRepeat l) s = .next y ∧ y.tb = (s.waitUntil m.next).tb ∧
      (y.line l).sends = (if 1 < m.left then [{ m with left := m.left - 1, next := m.next + ms16 1, copy := m.copy + 1 }] else []) ++ r)

/-- R199, R202, R203: an open event without a counterpart ends DE_TW with status NOT_READY after WAIT; a held message that no event takes
is discarded after WAIT and counted. R205, R206: SE_IMP ends when the report for its fault instant exists. The close of an event makes
the line quiet. Completes: REMOTE_WAIT_EXPIRY, SE_IMP, EVENT_CLOSE. -/
def Obligations.FaultResults : Prop :=
  ∀ (s : State) (l : Fin 32), alive s = true →
    (∀ a, (s.line l).st = .open_ → evT1 (s.line l) = some a → resOf (s.line l) 1 = none → resOf (s.line l) 2 = none → (s.line l).held = [] →
      ∃ y, exec (.remoteWaitExpiry l) s = .next y ∧ resOf (y.line l) 1 = some { status := stNotReady, flags := 8 } ∧
        y.tb = (s.waitUntil (a.t16 + ms16 (lineCfg s l).wait)).tb ∧ (∀ k, k ≠ l.val → y.line k = s.line k)) ∧
    (∀ m r, (s.line l).st ≠ .open_ → (s.line l).held = m :: r → ∃ y, exec (.remoteWaitExpiry l) s = .next y ∧
      (y.line l).held = r.filter (fun o => o != m) ∧ y.tb = (s.waitUntil (m.rx + ms16 (lineCfg s l).wait)).tb ∧
      Tbl.get 0 y.fl.cnt (16 * l + 8) = inc32 (Tbl.get 0 s.fl.cnt (16 * l + 8))) ∧
    (∀ tr rf, (s.line l).tRef = some tr → (lineCfg s l).imp = true → (s.line l).st = .open_ → resOf (s.line l) 1 = none →
      resOf (s.line l) 4 = none →
      repAt s (lineCfg s l).grp (faultSlot (grpCfg s (lineCfg s l).grp) tr (lineCfg s l).phDelay) = some rf →
      (repAt s (lineCfg s l).grp (preSlot (grpCfg s (lineCfg s l).grp) tr) = none → ∃ y, exec (.seImp l) s = .next y ∧
        resOf (y.line l) 4 = some { status := stNotReady, flags := if qInvalid (linePhs (lineCfg s l) rf).2.1 then 0x40 else 0 } ∧ y.tb = s.tb) ∧
      (∀ rp, repAt s (lineCfg s l).grp (preSlot (grpCfg s (lineCfg s l).grp) tr) = some rp →
        qInvalid (mergeQ [(linePhs (lineCfg s l) rf).2.1, (linePhs (lineCfg s l) rp).2.1]) = false →
        (linePhs (lineCfg s l) rf).2.2 = true → (linePhs (lineCfg s l) rp).2.2 = true → ∃ y a, exec (.seImp l) s = .next y ∧
        resOf (y.line l) 4 = some a ∧ a.status = stDone ∧ a.dist.isSome = true ∧ (y.line l).fault.isSome = true ∧ y.tb = s.tb)) ∧
    (∀ a, (s.line l).st = .open_ → evT1 (s.line l) = some a → ∃ y, exec (.eventClose l) s = .next y ∧ (y.line l).st = .quiet ∧
      (y.line l).arrs = [] ∧ (y.line l).closedAt = slotT16 (slotCeil (a.t16 + ms16 (lineCfg s l).close)) ∧
      y.tb = (s.waitSlot (slotCeil (a.t16 + ms16 (lineCfg s l).close))).tb)

/-- R232 to R235, R241: an FB_CMD that its hearth accepts waits for the first cycle that starts after its fetch; FB_FORCE in test mode of a
protection hearth adds a force, and with RELEASE takes the target's force away. Completes: FB_CMD with RUN, STOP, HOLD, STEP, TEST_ON and
TEST_OFF, FB_FORCE, FB_FORCE with RELEASE. -/
def Obligations.FunctionBlockCommands : Prop :=
  ∀ (s x : State) (t : Nat) (p : PartId) (r : RingNo) (y : State × Flight) (h : Nat), x = s.runTo t → h = fbHearth y.2.words →
    isStandby y.1 = false →
    (CmdFetched x p r y .run → ∃ z, exec (.fbCmdRun t p r) s = .next z ∧ CmdWaits y p r .run z) ∧
    (CmdFetched x p r y .stop → ∃ z, exec (.fbCmdStop t p r) s = .next z ∧ CmdWaits y p r .stop z) ∧
    (CmdFetched x p r y .hold → ∃ z, exec (.fbCmdHold t p r) s = .next z ∧ CmdWaits y p r .hold z) ∧
    (CmdFetched x p r y .step → ∃ z, exec (.fbCmdStep t p r) s = .next z ∧ CmdWaits y p r .step z) ∧
    (CmdFetched x p r y .testOn → ∃ z, exec (.fbCmdTestOn t p r) s = .next z ∧ CmdWaits y p r .testOn z) ∧
    (CmdFetched x p r y .testOff → ∃ z, exec (.fbCmdTestOff t p r) s = .next z ∧ CmdWaits y p r .testOff z) ∧
    (Fetches x p r 0x93 y → reservedOk y.2.words fbMask0 [(2, 0xFFFFFFFF), (3, 0xFFFFFFFF), (4, 1)] = true →
      forceTargetOk (dw y.2.words 2) = true → hearthOwner y.1 h = p → partClass y.1 p = 1 → (y.1.fbe h).test = true →
      (bit (dw y.2.words 4) 0 = false → (y.1.fbe h).forces.any (fun f => f.target == refBare (dw y.2.words 2)) = false →
        (y.1.fbe h).forces.length < 64 → ∃ z, exec (.fbForce t p r) s = .next z ∧ (z.fbe h).forces = (y.1.fbe h).forces ++
          [{ target := refBare (dw y.2.words 2), value := dw y.2.words 3, at_ := y.1.tb.edge }] ∧ (∀ g, g ≠ h → z.fbe g = y.1.fbe g)) ∧
      (bit (dw y.2.words 4) 0 = true → ∃ z, exec (.fbForceRelease t p r) s = .next z ∧
        (z.fbe h).forces = (y.1.fbe h).forces.filter (fun f => f.target != refBare (dw y.2.words 2)) ∧
        (∀ g, g ≠ h → z.fbe g = y.1.fbe g)))

/-- R221, R237, R241: FB_PEEK of words that hold no instance state writes them back; FB_POKE of such words of a hearth in HOLD or STOP writes
them; an accepted FB_LOAD waits for its copy and replaces the inactive bank when the copy is complete; an acknowledgement reaches the oldest
load without one. Completes: FB_PEEK, FB_POKE, FB_LOAD, FB_LOAD_COMPLETE, IMAGE_ACKNOWLEDGED. -/
def Obligations.FunctionBlockData : Prop :=
  (∀ (s x : State) (t : Nat) (p : PartId) (r : RingNo) (y : State × Flight) (h : Nat), x = s.runTo t → h = fbHearth y.2.words →
    hearthOwner y.1 h = p →
    (Fetches x p r 0x94 y → peekForm y.2.words false = true → peekOk y.2.words (y.1.fbe h) = true → (dw y.2.words 3).toNat ≤ 4 →
      (∀ g i, (y.1.fbe h).prog = some g → i < (dw y.2.words 3).toNat → stateAt g ((dw y.2.words 2).toNat + i) = none) →
      exec (.fbPeek t p r) s = .next (complete { y.1 with draws := y.1.draws + 1 } p r y.2.id
        (Wb.mk stDone 0 0 ((List.range (dw y.2.words 3).toNat).map (fun i =>
          (8 + i, (y.1.fbe h).words.getD ((dw y.2.words 2).toNat + i) 0))) (some (stampNow y.1)) none))) ∧
    (Fetches x p r 0x95 y → isStandby y.1 = false → peekForm y.2.words true = true → peekOk y.2.words (y.1.fbe h) = true → partClass y.1 p ≠ 1 →
      (y.1.fbe h).mode = .hold ∨ (y.1.fbe h).mode = .stop →
      (∀ g i, (y.1.fbe h).prog = some g → i < (dw y.2.words 3).toNat → stateAt g ((dw y.2.words 2).toNat + i) = none) →
      ∃ z, exec (.fbPoke t p r) s = .next z ∧ (z.fbe h).words = (List.range (dw y.2.words 3).toNat).foldl
        (fun l i => setNth l ((dw y.2.words 2).toNat + i) (dw y.2.words (8 + i))) (y.1.fbe h).words ∧
        (∀ g, g ≠ h → z.fbe g = y.1.fbe g) ∧ z.regs = y.1.regs) ∧
    (∀ img prog, Fetches x p r 0x91 y → isStandby y.1 = false → loadOk y.2.words = true → mateSynced y.1 = false →
      devRead y.1 p (addr48 y.2.words 2) (dw y.2.words 4).toNat = some img → loadStatus y.1 p h (some img) = (stDone, some prog) →
      (y.1.fbe h).xchg = none → ∃ z, exec (.fbLoad t p r) s = .next z ∧
        (z.fbe h).loads = (y.1.fbe h).loads ++ [FbLoad.mk (1 - (y.1.fbe h).act) prog (64 * p + r) y.2.id true] ∧
        (z.fbe h).prog = (y.1.fbe h).prog ∧ (∀ g, g ≠ h → z.fbe g = y.1.fbe g) ∧ z.db = y.1.db)) ∧
  (∀ (s x : State) (t : Nat) (h : Hearth) (l : FbLoad) (r : List FbLoad), x = s.runTo t → alive x = true → (x.fbe h).loads = l :: r →
    (l.acked = true ∨ mateSynced x = false → (x.fbe h).xchg = none → l.bank ≠ (x.fbe h).act ∨ (x.fbe h).mode = .none → l.bank < 2 →
      ∃ y, exec (.fbLoadComplete t h) s = .next y ∧ (y.fbe h).bank l.bank = some l.prog ∧ (y.fbe h).loads = r ∧
        (y.fbe h).act = (x.fbe h).act ∧ (∀ g, g ≠ h.val → y.fbe g = x.fbe g)) ∧
    (l.acked = false → exec (.imageAcknowledged t h) s = .next (x.updFbe h (fun z => { z with loads := { l with acked := true } :: r }))))

/-- R214: a hand-off holds every point of the set in the publisher and ends. R237: a committed exchange whose slot has come and whose old
program has handed off its last cycle makes the other bank the active one. R252: a retransmission carries the next sqNum and doubles the
interval up to T0, and the next one is due that interval after this one's own instant. Completes: HAND_OFF, PROGRAM_EXCHANGE,
GOOSE_RETRANSMISSION. -/
def Obligations.Publishing : Prop :=
  (∀ (s : State) (h : Hearth) (a : HandSet), alive s = true → (s.fbe h).handing = some a → (a.outs.map Prod.fst).Nodup →
    ∃ y, exec (.handOff h) s = .next y ∧ (y.fbe h).handing = none ∧ y.tb = (s.waitUntil (handInstant s h a)).tb ∧
      (∀ o ∈ a.outs, (heldPt y h o.1).v = o.2.1 ∧ (heldPt y h o.1).q = o.2.2) ∧ (∀ g, g ≠ h.val → y.fbe g = s.fbe g)) ∧
  (∀ (s : State) (h : Hearth) (m : Nat) (q : FbProg), alive s = true → (s.fbe h).xchg = some m →
    (s.fbe h).bank (1 - (s.fbe h).act) = some q → (s.fbe h).handing = none → slotCounter m ≤ s.tb.counter →
    (s.fbe h).prog = none ∨ oldEnd (s.fbe h) m ≤ Tbl.get 0 s.ig.closed (h / 4) + 1 →
    ∃ y, exec (.programExchange h) s = .next y ∧ (y.fbe h).act = 1 - (s.fbe h).act ∧ (y.fbe h).xchg = none ∧ y.tb = s.tb ∧
      (∀ g, g ≠ h.val → y.fbe g = s.fbe g)) ∧
  (∀ (s : State) (g : Fin 2048) (u : Nat), alive s = true → (s.gcb g).due = some u → (gcbCfg s g).valid = true → (s.gcb g).started = true →
    ∃ y, exec (.gooseRetransmission g) s = .next y ∧ (y.gcb g).sqNum = wrapNum (s.gcb g).sqNum ∧ (y.gcb g).stNum = (s.gcb g).stNum ∧
      (y.gcb g).d = min (2 * (s.gcb g).d) ((gcbCfg s g).t0 * 1000) ∧ (y.gcb g).due = some (u + us16 (y.gcb g).d) ∧ y.tb = (s.waitUntil u).tb ∧
      (∀ k, k ≠ g.val → y.gcb k = s.gcb k))

/-- R265, R269: at t_k + DEADLINE a loop releases the result of slot k, or repeats its last output with the quality of a held one and
counts a miss; without a history, and after MISS_LIMIT, the miss gives SAFE with quality invalid. R269: MISS_LIMIT misses in a row start
the loop again, once. Completes: LOOP_RELEASE, MISS_LIMIT. -/
def Obligations.LoopReleases : Prop :=
  ∀ (s : State) (l : LoopNo) (k : Nat), alive s = true → k = (s.loop l).next → (loopCfgAt s l k).valid = true →
    (∀ a, (s.loop l).results.find? (fun z => z.slot == k) = some a → ∃ y, exec (.loopRelease l) s = .next y ∧
      (y.loop l).out = a.y ∧ (y.loop l).buf = { v := a.y, q := a.q } ∧ (y.loop l).run = 0 ∧ (y.loop l).missCnt = (s.loop l).missCnt ∧
      y.tb = (s.waitUntil (slotT16 k + ns16 (loopCfgAt s l k).deadline)).tb ∧ (∀ j, j ≠ l.val → y.loop j = s.loop j) ∧ y.regs = s.regs) ∧
    ((s.loop l).results.find? (fun z => z.slot == k) = none → (s.loop l).again = false → (s.loop l).hist k = true →
      ∃ y, exec (.loopRelease l) s = .next y ∧ (y.loop l).out = (s.loop l).out ∧
        (y.loop l).buf = { v := (s.loop l).out, q := 0x10083 } ∧ (y.loop l).missed = true ∧
        (y.loop l).missCnt = inc32 (s.loop l).missCnt ∧ (y.loop l).run = min 255 ((s.loop l).run + 1) ∧
        y.tb = (s.waitUntil (slotT16 k + ns16 (loopCfgAt s l k).deadline)).tb) ∧
    ((s.loop l).results.find? (fun z => z.slot == k) = none → (s.loop l).again = true ∨ (s.loop l).hist k = false →
      ∃ y, exec (.loopRelease l) s = .next y ∧ (y.loop l).out = (loopCfgAt s l k).safe ∧
        (y.loop l).buf = { v := (loopCfgAt s l k).safe, q := 0x81 } ∧ (y.loop l).missed = true ∧
        (y.loop l).missCnt = inc32 (s.loop l).missCnt ∧ (y.loop l).run = min 255 ((s.loop l).run + 1)) ∧
    ((loopCfg s l).valid = true → (loopCfg s l).missLimit ≠ 0 → (loopCfg s l).missLimit ≤ (s.loop l).run → (s.loop l).limited = false →
      exec (.missLimit l) s = .next (s.updLoop l (fun z => { z with again := true, limited := true })))

/-- R274, R276, R279: a running lane reloads one period after its start, and an ending one stops there; a compare value within the period
raises its event. R280: a block input that becomes asserted cuts the running lanes that name it, and its release cuts none. R281: at a
reload the released outputs follow the pattern again; GL_FORCE_GO takes the staged forces of the writer's masked lanes for the first slot
edge at least 2 µs on. Completes: LANE_RELOAD, LANE_COMPARE, BLOCK_INPUT_ASSERT, BLOCK_INPUT_RELEASE, GL_FORCE_GO. -/
def Obligations.Lanes : Prop :=
  (∀ (s : State) (g : Lane), alive s = true → (s.lane g).running = true →
    (∃ y, exec (.laneReload g) s = .next y ∧ y.tb = (s.waitUntil (((s.lane g).start + (s.lane g).period) * 32768)).tb ∧
      (y.lane g).running = !(s.lane g).ending ∧
      ((s.lane g).ending = false → (y.lane g).start = (s.lane g).start + (s.lane g).period) ∧
      (∀ k, k ≠ g.val → laneHead s k ≠ g.val → y.lane k = s.lane k) ∧
      (∀ k, k < 24 → laneHead s k = g.val → (y.lane k).wait = false)) ∧
    (∀ (n : Fin 2) (c : Nat), c = (if n = 0 then (laneCfg s g).cmp0 else (laneCfg s g).cmp1) → c < (s.lane g).period →
      exec (.laneCompare g n) s = .next (laneEvent (s.waitUntil (((s.lane g).start + c) * 32768)) g (2 + n)))) ∧
  (∀ (s x : State) (t : Nat) (b : Fin 4), x = s.runTo t →
    (pinAsserted x b = false → ∃ y, exec (.blockInputAssert t b) s = .next y ∧ pinAsserted y b = true ∧
      (∀ k, k < 24 → (laneCfg x k).valid = true → (laneCfg x k).mask / 2 ^ b.val % 2 = 1 → (x.lane k).running = true →
        (y.lane k).cut = true) ∧ y.regs = x.regs) ∧
    (∃ y, exec (.blockInputRelease t b) s = .next y ∧ pinAsserted y b = false ∧ y = { x with lp.pins := y.lp.pins })) ∧
  (∀ (s x : State) (t : Nat) (h : Hearth) (p : Nat) (v : BitVec 32), x = s.runTo t → CoreOf x h p → domSt x 10 = .run →
    (∀ k, k < 24 → bit v k = true → laneHead x (k / 2 * 2 + 1) ≠ k / 2 * 2) → ∃ y, exec (.glForceGo t h v) s = .next y ∧
      y.lp.gos = x.lp.gos ++ [GlGo.mk p (slotCeil (now16 x + us16 2))
        (((List.range 24).filter (fun k => bit v k && laneOwner x k == p)).map (fun k =>
          (k, (if k < 16 then fld (x.cfg 0x90100 p) (2 * k + 1) (2 * k)
            else fld (x.cfg 0x90104 p) (2 * (k - 16) + 1) (2 * (k - 16))) % 3)))] ∧
      y.lp.lanes = x.lp.lanes ∧ y.regs = x.regs)

/-- R361, R371, R386: a frame that comes to the green joins the queue of every output that admits it and whose port is enabled with its link
up; where no output admits it, it is discarded and the buffer is as before. -/
def Obligations.Admission : Prop :=
  ∀ (s : State) (f : GFrame) (wants : List Nat),
    (wants.filter (fun q => admits s q f.cls) ≠ [] → (∀ q ∈ wants, q < 13 → macEn s q = true ∧ pastHold s q = false) →
      ∃ g, (enqueue f wants s).gn.frames = s.gn.frames ++ [g] ∧ g.octets = f.octets ∧ g.cls = f.cls ∧ g.src = f.src ∧ g.id = s.gn.nextId ∧
        g.outs.map (·.port) = wants.filter (fun q => admits s q f.cls) ∧ g.xp + g.sp = cellsOf f.octets.length ∧
        (enqueue f wants s).mc = s.mc ∧ (enqueue f wants s).db = s.db) ∧
    (wants.filter (fun q => admits s q f.cls) = [] → (enqueue f wants s).gn.frames = s.gn.frames ∧ (enqueue f wants s).mc = s.mc)

/-- R363, R365, R378: a free port whose link is up begins the frame that the order of classes and the deficits choose, unless it is
stale; the end of a frame counts it, takes it off the port and leaves its octets on the wire. Completes: FRAME_TX_START,
FRAME_TX_COMPLETE. -/
def Obligations.FrameTransmission : Prop :=
  ∀ (s x : State) (t : Nat) (q : Port), x = s.runTo t → portLive x q = true →
    (∀ f d n, (x.mac q).link = true → (x.mac q).backoff = none → (x.mac q).tx = none → (x.mac q).susp = none →
      chooseFrame x q = some (f, d, n) → staleAt x q f = false → ∃ y w, exec (.frameTxStart t q) s = .next y ∧
        (y.mac q).tx = some w ∧ w.id = f.id ∧ w.start = x.tb.edge ∧ w.sent = 0 ∧ (y.mac q).deficit = d ∧ (y.mac q).turn = n ∧
        y.tb = x.tb ∧ y.regs = x.regs ∧ (∀ k, k ≠ q.val → y.mac k = x.mac k)) ∧
    (∀ w, (x.mac q).tx = some w → (x.mac q).half = false → ∃ y, exec (.frameTxComplete t q) s = .next y ∧ (y.mac q).tx = none ∧
      y.tb = (x.runTo (w.start + bitEdges (x.mac q).speed ((w.total - w.sent) * 8))).tb ∧
      y.mc.wire = x.mc.wire ++ [(q.val, y.tb.edge, .frame w.evt w.out)] ∧
      macCntOf y q 12 = add32 (macCntOf x q 12) 1 ∧ macCntOf y q 13 = (macCntOf x q 13 + w.total) % 2 ^ 32 ∧
      (∀ k, k ≠ q.val → y.mac k = x.mac k))

/-- R375: a frame with a fault is counted by its first fault and goes no further. R367 to R369: a frame without fault on a port outside
ingest is counted and, unless PTP takes it, forwarded to the outputs of its classification entry or discarded by it. R340: FRAME_DELIVERY
writes the frame into the oldest fetched buffer of its ring. R29: the cells are checked at the end of each. Completes: FRAME_RX,
FRAME_DELIVERY. -/
def Obligations.FrameReception : Prop :=
  (∀ (s x : State) (t : Nat) (q : Port) (o : List (BitVec 8)) (fl : RxFlags), x = s.runTo t → portLive x q = true → macEn x q = true →
    fl.fragErr = false → fl.smd = false ∨ (x.mac q).preempt = true →
    (fl.codeErr = true → exec (.frameRx t q o fl) s = .next (macCount x q 3 1)) ∧
    (fl.codeErr = false → fl.fcsErr = true → exec (.frameRx t q o fl) s = .next (macCount x q (if fl.smd then 7 else 2) 1)) ∧
    (fl.codeErr = false → fl.fcsErr = false → o.length < 60 → exec (.frameRx t q o fl) s = .next (macCount x q 4 1)) ∧
    (fl.codeErr = false → fl.fcsErr = false → 1518 < o.length → exec (.frameRx t q o fl) s = .next (macCount x q 5 1)) ∧
    (∀ i, fl.codeErr = false → fl.fcsErr = false → 60 ≤ o.length → o.length ≤ 1518 → 8 ≤ q.val → be o 12 2 ≠ 0x8808 → ptpOff o = none →
      x.gn.swapAt ≤ x.tb.edge - fl.since → classify (bankAt x (x.tb.edge - fl.since)) q o = some i →
      (bit (clsWord (bankAt x (x.tb.edge - fl.since)) i 5) 31 = true → ∃ y, exec (.frameRx t q o fl) s = .next y ∧
        y.gn.frames = x.gn.frames ∧ macCntOf y q 0 = add32 (macCntOf x q 0) 1) ∧
      (bit (clsWord (bankAt x (x.tb.edge - fl.since)) i 5) 31 = false → bit (clsWord (bankAt x (x.tb.edge - fl.since)) i 5) 30 = false →
        (List.range 13).filter (fun k => bit (clsWord (bankAt x (x.tb.edge - fl.since)) i 5) k && k != q) ≠ [] →
        ∃ f : GFrame, f.octets = o ∧ f.src = .ext q ∧ f.epoch = x.gn.epoch ∧ exec (.frameRx t q o fl) s = .next (checkRows [1] (enqueue f
          ((List.range 13).filter (fun k => bit (clsWord (bankAt x (x.tb.edge - fl.since)) i 5) k && k != q))
          (macCount (macCount x q 0 1) q 1 (o.length + 4))))))) ∧
  (∀ (s x : State) (t : Nat) (f : GFrame) (d : Tbl Nat × Nat) (q p r : Nat) (g : Flight), x = s.runTo t → alive x = true →
    chooseFrame x 19 = some (f, d) →
    f.target = some (p, r) → f.src = .ext q → (ringCfg x p r).en = true → (ringCfg x p r).type = 3 ∨ (ringCfg x p r).type = 4 →
    f.waived = true ∨ (ringCfg x p r).port = q →
    (x.ring p r).flights.find? (fun g => !g.fence && g.res.isNone && opcodeOf g.words == 0x12) = some g →
    ∃ w3, exec (.frameDelivery t) s = .next (checkRows [1, 3] (complete (devWrite (dropOut (setTurn 19 d x) f.id 19) p (addr48 g.words 2)
      f.octets) p r g.id (Wb.mk stDone 0 f.octets.length [(3, w3)] (some f.rx) none))))

/-- R373, R382 to R385: a loss takes the link down, empties the MAC and begins HOLD; the end of HOLD discards what waits; an enabled port
comes up at a speed that R373 gives it. R377: a port with PREEMPT_EN verifies up to three times, and a response makes preemption active.
Completes: LINK_LOSS, LINK_UP, HOLD_EXPIRY, PREEMPTION_VERIFICATION_RX, VERIFY_TIMEOUT. -/
def Obligations.Links : Prop :=
  ∀ (s x : State) (t : Nat) (q : Port), x = s.runTo t →
    (portLive x q = true → ∀ rc, (x.mac q).link = true → ∃ y, exec (.linkLoss t q rc) s = .next y ∧ (y.mac q).link = false ∧
      (y.mac q).tx = none ∧ (y.mac q).susp = none ∧ (y.mac q).preempt = false ∧
      (y.mac q).downAt = (if macHold x q = 0 then none else some x.tb.edge) ∧ macCntOf y q 20 = add32 (macCntOf x q 20) 1 ∧
      (∀ k, k ≠ q.val → y.mac k = x.mac k) ∧ y.regs = x.regs) ∧
    (portLive x q = true → ∀ (v : Fin 8) (hd : Bool), (x.mac q).link = false → macEn x q = true → fld (macCfg x q) 30 28 = 0 →
      speedOk q v = true → (x.mac q).optics.lowPower = false → ∃ y, exec (.linkUp t q v hd) s = .next y ∧ (y.mac q).link = true ∧
      (y.mac q).speed = v ∧ (y.mac q).downAt = none ∧ (y.mac q).half = (bit (macCfg x q) 27 && decide (v.val ≤ 2) && hd) ∧
      (y.mac q).verify = (if bit (macCfg x q) 25 = true ∧ (y.mac q).half = false then some 1 else none) ∧
      (∀ k, k ≠ q.val → y.mac k = x.mac k)) ∧
    (alive s = true → ∀ e, (s.mac q).downAt = some e → ∃ y, exec (.holdExpiry q) s = .next y ∧ waitingAt y q = [] ∧
      (y.mac q).downAt = none ∧ y.tb.edge = max s.tb.edge (e + usEdges (macHold s q))) ∧
    (portLive x q = true → (x.mac q).link = true → (x.mac q).half = false → bit (macCfg x q) 25 = true →
      exec (.preemptionVerificationRx t q .verify) s = .next (wireOut x q .respond) ∧
      ((x.mac q).verify.isSome = true → exec (.preemptionVerificationRx t q .response) s =
        .next (x.updMac q (fun y => { y with verify := none, preempt := true })))) ∧
    (alive s = true → ∀ n, (s.mac q).verify = some n → ∃ y, exec (.verifyTimeout q) s = .next y ∧
      y.tb.edge = max s.tb.edge ((s.mac q).verifyAt + 2500000) ∧ (y.mac q).verify = (if n < 3 then some (n + 1) else none) ∧
      (n < 3 → y.mc.wire = s.mc.wire ++ [(q.val, y.tb.edge, .verify)]) ∧ (3 ≤ n → macCntOf y q 21 = add32 (macCntOf s q 21) 1))

/-- R379, R380: a PAUSE frame stops the port for its quanta, a PFC frame the classes that it names and the port lets it stop; the end of a
pause lifts it. R376: an early collision on a half-duplex port sends a jam and lets the frame wait for its back-off, after which it is
tried again; a late one discards it. R372: a Follow_Up that waits is discarded after 1 s. Completes: PAUSE, PFC, PAUSE_EXPIRY, COLLISION,
BACKOFF_EXPIRY, FOLLOW_UP_TIMEOUT. -/
def Obligations.PausesAndCollisions : Prop :=
  ∀ (s x : State) (t : Nat) (q : Port), x = s.runTo t →
    (portLive x q = true → (x.mac q).half = false →
      (∀ n : Fin 65536, bit (macCfg x q) 22 = true → exec (.pause t q n) s = .next ((macCount x q 8 1).updMac q (fun y =>
        { y with pause := if n.val = 0 then none else some (x.tb.edge + bitEdges (x.mac q).speed (512 * n)) }))) ∧
      (∀ (v : Fin 256) (l : List Nat) (c : Nat), bit (macCfg x q) 21 = true → c < 8 → v.val / 2 ^ c % 2 = 1 → bit (macCfg x q) c = true →
        ∃ y, exec (.pfc t q v l) s = .next y ∧ macCntOf y q 9 = add32 (macCntOf x q 9) 1 ∧ Tbl.get 0 (y.mac q).pfc c =
          (if l.getD c 0 = 0 then 0 else x.tb.edge + bitEdges (x.mac q).speed (512 * l.getD c 0)))) ∧
    (alive s = true → ∀ e, (s.mac q).pause = some e → (∀ z ∈ (s.mac q).pfc, e ≤ z.2) → ∃ y, exec (.pauseExpiry q) s = .next y ∧
      y.tb.edge = max s.tb.edge e ∧ (y.mac q).pause = none ∧ (y.mac q).pfc = (s.mac q).pfc.filter (fun z => z.2 > y.tb.edge)) ∧
    (portLive x q = true → ∀ w, (x.mac q).tx = some w → (x.mac q).half = true →
      (octetsIn (x.mac q).speed (x.tb.edge - w.start) < 64 → (x.mac q).tries < 15 → ∃ y, exec (.collision t q false) s = .next y ∧
        (y.mac q).tx = none ∧ (y.mac q).backoff = some w.id ∧ (y.mac q).tries = (x.mac q).tries + 1 ∧
        y.mc.wire = x.mc.wire ++ [(q.val, x.tb.edge, .jam)] ∧ macCntOf y q 17 = add32 (macCntOf x q 17) 1) ∧
      (∀ f, findFrame x w.id = some f → ∃ y, exec (.collision t q true) s = .next y ∧ (y.mac q).tx = none ∧ (y.mac q).tries = 0 ∧
        macCntOf y q 19 = add32 (macCntOf x q 19) 1 ∧ y.mc.wire = x.mc.wire ++ [(q.val, x.tb.edge, .jam)])) ∧
    (alive s = true → ∀ id f, (s.mac q).backoff = some id → findFrame s id = some f → (s.mac q).link = true → (s.mac q).tx = none →
      staleAt s q f = false → ∃ y w, exec (.backoffExpiry q) s = .next y ∧ (y.mac q).tx = some w ∧ w.id = f.id ∧
        (y.mac q).backoff = none) ∧
    (alive s = true → ∀ k f o, (s.gn.frames.flatMap (fun f =>
        (f.outs.filter (fun o => !o.going && followUpWaits s f o.port)).map (fun o => (f, o))))[k]? = some (f, o) →
      exec (.followUpTimeout k) s = .next (checkRows [1] (dropOut (s.runTo (o.at_ + 250000000)) f.id o.port)))

/-- R387, R481: a transceiver put into a fibre port is present with its pages read; one taken out is absent and the link is down; a poll
of one with diagnostics takes its values and flags, and a failed one sets the read error. Completes: TRANSCEIVER_INSERTION,
TRANSCEIVER_REMOVAL, OPTICS_POLL. -/
def Obligations.Optics : Prop :=
  ∀ (s x : State) (t : Nat) (q : Port), x = s.runTo t → q.val < 10 →
    (∀ a0 a2, ∃ y, exec (.transceiverInsertion t q a0 a2) s = .next y ∧ modAbs (y.mac q).optics = false ∧
      (y.mac q).optics.pageA0 = octs a0 0 128 ∧ (∀ k, k ≠ q.val → y.mac k = x.mac k) ∧ y.regs = x.regs) ∧
    (∃ y, exec (.transceiverRemoval t q) s = .next y ∧ modAbs (y.mac q).optics = true ∧ ((x.mac q).link = true → (y.mac q).link = false) ∧
      (∀ k, k ≠ q.val → y.mac k = x.mac k)) ∧
    (portLive x q = true → modAbs (x.mac q).optics = false →
      (∃ y, exec (.opticsPoll t q none) s = .next y ∧ bit (y.mac q).optics.diag2 1 = true ∧
        (y.mac q).optics.diag0 = (x.mac q).optics.diag0) ∧
      (∀ a2, be (x.mac q).optics.pageA0 92 1 / 64 % 2 = 1 → ∃ y, exec (.opticsPoll t q (some a2)) s = .next y ∧
        bit (y.mac q).optics.diag2 0 = true ∧ bit (y.mac q).optics.diag2 1 = false ∧ (y.mac q).optics.pageA2 = octs a2 0 128 ∧
        (y.mac q).optics.diag0 = BitVec.ofNat 32 ((ddmValues (x.mac q).optics.pageA0 a2).getD 0 0 * 65536 +
          (ddmValues (x.mac q).optics.pageA0 a2).getD 1 0)))

/-- R396 to R398, R405: a derive, import or revoke that passes its checks waits for its application instant, 10 µs after the fetch, and
writes nothing back until then; an import keeps the blob of either position. At the application the next one makes its node, one level
below a live parent, or makes the revoked node's subtree unusable. Completes: KEY_DERIVE, KEY_IMPORT, KEY_REVOKE, KEY_APPLICATION. -/
def Obligations.KeyChanges : Prop :=
  (∀ (s x : State) (t : Nat) (p : PartId) (r : RingNo) (y : State × Flight), x = s.runTo t → isStandby y.1 = false →
    (Fetches x p r 0x31 y → makeCheck y.1 p y.2.words 3
        (1 ≤ fld (dw y.2.words 5) 5 0 && fld (dw y.2.words 5) 5 0 ≤ 32) = stDone →
      ∃ z k, exec (.keyDerive t p r) s = .next z ∧ z.ok.pends = y.1.ok.pends ++ [k] ∧ k.node = keyNode y.2.words ∧
        k.applyEdge = y.1.tb.edge + 2500 ∧ k.flight = y.2.id ∧
        k.kind = .derive_ (fld (dw y.2.words 2) 11 0) (dw y.2.words 3) (dw y.2.words 4).toNat
          (if p.val = 0 then fld (dw y.2.words 5) 28 24 else p) ((wordsBytes (y.2.words.drop 8)).take (fld (dw y.2.words 5) 5 0)) ∧
        (∀ n, n ≠ fld (dw y.2.words 2) 11 0 → z.node n = y.1.node n) ∧ z.db = y.1.db ∧ z.regs = y.1.regs) ∧
    (∀ blob, Fetches x p r 0x32 y →
      devRead y.1 p (if y.1.pr.position = 0 then addr48 y.2.words 6 else addr48 y.2.words 8) (fld (dw y.2.words 10) 7 0) = some blob →
      makeCheck y.1 p y.2.words 2 (fld (dw y.2.words 10) 7 0 == 44 || fld (dw y.2.words 10) 7 0 == 60 ||
        fld (dw y.2.words 10) 7 0 == 76) = stDone →
      ∃ z k a b, exec (.keyImport t p r) s = .next z ∧ z.ok.pends = y.1.ok.pends ++ [k] ∧ k.node = keyNode y.2.words ∧
        k.applyEdge = y.1.tb.edge + 2500 ∧ k.flight = y.2.id ∧
        k.kind = .import_ (fld (dw y.2.words 2) 11 0) (dw y.2.words 3) (dw y.2.words 4).toNat
          (if p.val = 0 then fld (dw y.2.words 5) 28 24 else p) a b ∧
        blob = (if y.1.pr.position = 0 then a else b) ∧ z.db = y.1.db ∧ z.regs = y.1.regs) ∧
    (Fetches x p r 0x34 y → y.1.ok.latched = false → keyResOk y.2.words = true → keyNode y.2.words ≠ 0 → lcState y.1 ≠ 4 →
      p.val = 0 ∨ (y.1.node (keyNode y.2.words)).owner = p → (y.1.node (keyNode y.2.words)).st = .live →
      ∃ z k, exec (.keyRevoke t p r) s = .next z ∧ z.ok.pends = y.1.ok.pends ++ [k] ∧ k.node = keyNode y.2.words ∧ k.kind = .revoke ∧
        k.applyEdge = y.1.tb.edge + 2500 ∧ z.ok.nodes = y.1.ok.nodes ∧ z.db = y.1.db)) ∧
  (∀ (s : State) (k : KeyPend) (r : List KeyPend), sortBy pendBefore s.ok.pends = k :: r →
    ∃ y, exec .keyApplication s = .next y ∧ y.tb.edge = max s.tb.edge k.applyEdge ∧
      y.ok.pends = s.ok.pends.filter (fun z => z.order != k.order) ∧ y.ok.journal = s.ok.journal ++ [k] ∧
      (∀ par attr uses owner label, k.kind = .derive_ par attr uses owner label → (s.node par).st = .live →
        (y.node k.node).st = .live ∧ (y.node k.node).parent = par ∧ (y.node k.node).depth = (s.node par).depth + 1 ∧
        (y.node k.node).attr = attr ∧ (y.node k.node).owner = owner ∧ (y.node k.node).imported = false ∧
        (y.node k.node).key = deriveKey (s.node par).key label attr ∧ (∀ n, n ≠ k.node → y.node n = s.node n)) ∧
      (k.kind = .revoke → ∀ n, isUnder s 8 k.node n = true → (y.node n).st ≠ .live))

/-- R400, R402, R405, R406: a use of a key that its partition may make runs under the key's value, taking one of its uses, and writes
back when it completes with what its kind produces; KEY_PUB and KEY_INFO end at once. Completes: KEY_MAC, KEY_AEAD, KEY_AEAD_DECRYPT,
KEY_SIGN, KEY_EXPORT, KEY_PUB, KEY_INFO, KEY_USE_COMPLETE. -/
def Obligations.KeyUses : Prop :=
  (∀ (s x : State) (t : Nat) (p : PartId) (r : RingNo) (y : State × Flight) (n : Nat), x = s.runTo t → n = keyNode y.2.words →
    keyResOk y.2.words = true →
    (∀ m, Fetches x p r 0x35 y → devRead y.1 p (addr48 y.2.words 3) (fld (dw y.2.words 5) 15 0) = some m →
      ringUse y.1 p n (if bit (dw y.2.words 2) 0 then 0 else 1) false = stDone → ∃ z u, exec (.keyMac t p r) s = .next z ∧
        z.ok.uses = y.1.ok.uses ++ [u] ∧ u.flight = y.2.id ∧ u.nodes = [n] ∧ u.key = (y.1.node n).key ∧ z.db = y.1.db ∧
        u.kind = (if bit (dw y.2.words 2) 0 then .gmac (keyIv y.2.words) m else .hmac m)) ∧
    (∀ m, devRead y.1 p (addr48 y.2.words 2) (fld (dw y.2.words 4) 15 0) = some m → fld (dw y.2.words 5) 15 0 ≤ fld (dw y.2.words 4) 15 0 →
      canAccess y.1 p .devWrite (addr48 y.2.words 6) (fld (dw y.2.words 4) 15 0 - fld (dw y.2.words 5) 15 0) = true →
      ringUse y.1 p n 2 false = stDone →
      (Fetches x p r 0x36 y → bit (dw y.2.words 0) 9 = false → ∃ z u, exec (.keyAead t p r) s = .next z ∧ z.ok.uses = y.1.ok.uses ++ [u] ∧
        u.kind = .encrypt (keyIv y.2.words) (m.take (fld (dw y.2.words 5) 15 0)) (m.drop (fld (dw y.2.words 5) 15 0)) (addr48 y.2.words 6) ∧
        u.key = (y.1.node n).key ∧ z.db = y.1.db) ∧
      (Fetches x p r 0x36 y → bit (dw y.2.words 0) 9 = true → ∃ z u, exec (.keyAeadDecrypt t p r) s = .next z ∧
        z.ok.uses = y.1.ok.uses ++ [u] ∧ u.kind = .decrypt (keyIv y.2.words) (m.take (fld (dw y.2.words 5) 15 0))
          (m.drop (fld (dw y.2.words 5) 15 0)) (wordsBytes [dw y.2.words 11, dw y.2.words 12, dw y.2.words 13, dw y.2.words 14])
          (addr48 y.2.words 6) ∧ u.key = (y.1.node n).key ∧ z.db = y.1.db)) ∧
    (∀ d, Fetches x p r 0x37 y → devRead y.1 p (addr48 y.2.words 2) 48 = some d → canAccess y.1 p .devWrite (addr48 y.2.words 4) 96 = true →
      ringUse y.1 p n 4 false = stDone → ∃ z u, exec (.keySign t p r) s = .next z ∧ z.ok.uses = y.1.ok.uses ++ [u] ∧
        u.kind = .sign d (addr48 y.2.words 4) ∧ u.key = (y.1.node n).key ∧ z.db = y.1.db) ∧
    (∀ w, Fetches x p r 0x33 y → w = fld (dw y.2.words 2) 11 0 →
      canAccess y.1 p .devWrite (addr48 y.2.words 3) (28 + klenBytes (y.1.node n).attr) = true →
      ringUse y.1 p n 5 false = stDone → ringUse y.1 p w 2 false = stDone → ∃ z u, exec (.keyExport t p r) s = .next z ∧
        z.ok.uses = y.1.ok.uses ++ [u] ∧ u.nodes = [n, w] ∧ u.key = (y.1.node w).key ∧ z.db = y.1.db ∧
        u.kind = .wrap (keyIv y.2.words) (y.1.node n).attr (y.1.node n).key (addr48 y.2.words 3)) ∧
    (Fetches x p r 0x38 y → canAccess y.1 p .devWrite (addr48 y.2.words 4) 97 = true → ringUse y.1 p n 4 false = stDone →
      exec (.keyPub t p r) s = .next (finish (devWrite (takeUse y.1 n) p (addr48 y.2.words 4)
        (finBytes (Config.ecdsaPublic (y.1.node n).key))) p r y.2.id stDone)) ∧
    (Fetches x p r 0x39 y → y.1.ok.latched = false → lcState y.1 ≠ 4 → (y.1.node n).owner = p → (y.1.node n).st = .live →
      exec (.keyInfo t p r) s = .next (complete y.1 p r y.2.id (Wb.mk stDone 0 0 [(3, nodeStat (y.1.node n)),
        (4, (y.1.node n).attr), (5, nodeUses (y.1.node n))] (some (stampNow y.1)) none)))) ∧
  (∀ (s x : State) (t id : Nat) (u : KeyUse), x = s.runTo t → alive x = true → x.ok.uses.find? (fun u => u.id == id) = some u →
    ∃ z, exec (.keyUseComplete t id) s = .next (checkRows [5] (completeKey z u.ring u.flight
        (Wb.mk stDone 0 0 (useOutput u x).2 (some (stampNow x)) none))) ∧
      z.ok.uses = x.ok.uses.filter (fun v => v.id != id) ∧ z.dram = (useOutput u x).1.dram ∧ z.regs = x.regs ∧
      (∀ m, u.kind = .hmac m → (useOutput u x).2 = bytesAsWords 3 (hmac u.key m) ∧ z.dram = x.dram))

/-- R390, R393: an LC_REQUEST of partition 0 along an edge without a token begins to program the fuses and renews the nonce; one along no
edge is refused with only the nonce renewed. When the fuses are programmed the state follows, never back from RETIRED, and no node but
the root is LIVE. Completes: LC_REQUEST, FUSE_PROGRAMMING_COMPLETE. -/
def Obligations.LifeCycle : Prop :=
  (∀ (s x : State) (t : Nat) (p : PartId) (r : RingNo) (y : State × Flight) (dest : Nat), x = s.runTo t → Fetches x p r 0x3A y →
    dest = fld (dw y.2.words 2) 2 0 → y.1.ok.latched = false → keyResOk y.2.words = true →
    (lcPermitted (lcState y.1) dest = some (false, false) → p.val = 0 → ∃ z, exec (.lcRequest t p r) s = .next z ∧
      z.ok.fusing = y.1.ok.fusing ++ [LcReq.mk (64 * p + r) y.2.id dest none] ∧ z.ok.nonce = y.1.draws ∧ z.ok.fused = y.1.ok.fused ∧
      z.ok.nodes = y.1.ok.nodes ∧ z.db = y.1.db) ∧
    (lcPermitted (lcState y.1) dest = none → exec (.lcRequest t p r) s = .next (finish (newNonce y.1) p r y.2.id stNotPermitted))) ∧
  (∀ (s x : State) (t : Nat) (q : LcReq) (r : List LcReq), x = s.runTo t → alive x = true → x.ok.fusing = q :: r →
    ∃ y, exec (.fuseProgrammingComplete t) s = .next y ∧ y.ok.fusing = r ∧
      y.ok.fused = (if q.dest = 3 then x.ok.fused else max x.ok.fused q.dest) ∧ (∀ n, n ≠ 0 → (y.node n).st ≠ .live) ∧
      (q.dest = 4 → y.ok.unsealed = false ∧ (y.node 0).st = .free) ∧ y.regs = x.regs)

/-- R407, R408: an edge of a tamper source latches it, makes every node unusable and seals the orchard; on the backup cell only LID and
MESH are sensed. R428: the first one is a FATAL self-test of a module that runs. R409: partition 0 clears the latch in SERVICE once no
source is active; while one is, the write changes nothing. Completes: TAMPER, TAMPER_SOURCE_CLEAR, OK_TAMPER_WRITE. -/
def Obligations.Tampering : Prop :=
  ∀ (s x : State) (t : Nat), x = s.runTo t →
    (∀ src : Fin 5, x.pw.st = .off → 2 ≤ src.val → exec (.tamper t src) s = .next x) ∧
    (∀ src : Fin 5, alive x = true → x.ok.latched = false → ∃ y, exec (.tamper t src) s = .next y ∧ y.pu.failed.getLsbD 6 = true ∧
      y.pr.fit = false) ∧
    (∀ src : Fin 5, x.pw.st ≠ .off ∨ src.val < 2 → ∃ y, exec (.tamper t src) s = .next y ∧ y.ok.latched = true ∧ y.ok.active.getLsbD src = true ∧
      y.ok.seen.getLsbD src = true ∧ y.ok.nodes = [] ∧ y.ok.uses = [] ∧ y.ok.pends = [] ∧ y.ok.unsealed = false ∧
      y.ok.fused = x.ok.fused ∧ (x.ok.latched = true → y.ok.tword = x.ok.tword)) ∧
    (∀ src : Fin 5, exec (.tamperSourceClear t src) s = .next { x with ok.active := x.ok.active &&& ~~~((1 : BitVec 5) <<< src.val) }) ∧
    (∀ (h : Hearth) (v : BitVec 32), CoreOf x h 0 → domSt x 1 = .run → bit v 31 = true →
      (lcState x = 3 → x.ok.active = 0 → ∃ y, exec (.okTamperWrite t h v) s = .next y ∧ y.ok.latched = false ∧ y.ok.seen = 0 ∧
        y.ok.nodes = x.ok.nodes ∧ y.regs = x.regs) ∧
      (lcState x ≠ 3 ∨ x.ok.active ≠ 0 → ∃ y, exec (.okTamperWrite t h v) s = .next y ∧ y.ok = x.ok ∧ y.regs = x.regs))

/-- R415, R424: a heartbeat goes out on each mate port whose link is up; one that comes marks its port alive; none for HB_WIN marks it
lost. R418, R419: a beacon goes out with the next sequence number of its port; one of the other position with this pair's identifier is
taken, one of another pair or with this unit's own position is counted; none for the beacon window marks the beacons lost. R425: the loss
of the beacons changes neither the role nor the sync state, and no takeover comes before HB_WIN has passed since a heartbeat. R412: an
active unit that hears an active neighbour counts and flags DUAL_ACTIVE; position B closes its gates and becomes STANDBY COLD at that
edge, position A goes on. Completes: HEARTBEAT_SEND, HEARTBEAT_RX, HEARTBEAT_WINDOW_EXPIRY, BEACON_SEND, BEACON_RX, BEACON_WINDOW_EXPIRY.
-/
def Obligations.MateLink : Prop :=
  ∀ (s x : State) (t : Nat), x = s.runTo t →
    (pairLive x = true → outputsLive x = true → (x.mac 8).link = true →
      ((x.mac 9).link = true → exec (.heartbeatSend t) s = .next (mateSend (mateSend
        { x with pr.hbSentAt := x.tb.edge } (.heartbeat 0 x.pr.role)) (.heartbeat 1 x.pr.role))) ∧
      ((x.mac 9).link = false → exec (.heartbeatSend t) s = .next (mateSend
        { x with pr.hbSentAt := x.tb.edge } (.heartbeat 0 x.pr.role)))) ∧
    (∀ (port : Fin 2) (hb : Heartbeat), pairLive x = true → x.pr.role ≠ .active ∨ hb.role ≠ .active →
      ∃ y, exec (.heartbeatRx t port hb) s = .next y ∧ (port = 0 → y.pr.hb0 = some x.tb.edge ∧ y.pr.m0Up = true ∧ y.pr.hb1 = x.pr.hb1) ∧
        (port = 1 → y.pr.hb1 = some x.tb.edge ∧ y.pr.m1Up = true ∧ y.pr.hb0 = x.pr.hb0) ∧ y.pr.mateLost = false ∧
        y.pr.role = x.pr.role ∧ y = { x with pr := y.pr }) ∧
    (∀ a, pairLive s = true → s.pr.hb0 = some a → s.pr.m0Up = true → s.pr.m1Up = false →
      ∃ y, exec .heartbeatWindowExpiry s = .next y ∧ y.pr.m0Up = false ∧ y.tb.edge = max s.tb.edge (a + hbWin s) ∧
        y.pu.flags.getLsbD 3 = true) ∧
    (∀ port : PPort, pairLive x = true → outputsLive x = true → (bcnPorts x / 2 ^ port.val) % 2 = 1 →
      ∃ y, exec (.beaconSend t port) s = .next y ∧ y.pr.beacons = x.pr.beacons ++ [(port.val, ownBeacon x port)] ∧
        Tbl.get 0 y.pr.bcnSeq port = (Tbl.get 0 x.pr.bcnSeq port + 1) % 2 ^ 32 ∧ y.pr.role = x.pr.role) ∧
    (∀ (port : PPort) (b : Beacon), pairLive x = true → portLive x port = true → b.magic = 0x4942 → b.version = 1 →
      (b.pairId ≠ pairId x → exec (.beaconRx t port b) s = .next (prCount x 7)) ∧
      (b.pairId = pairId x → b.position = x.pr.position → exec (.beaconRx t port b) s = .next (raiseFlag (prCount x 7) 13)) ∧
      (b.pairId = pairId x → b.position ≠ x.pr.position → x.pr.role ≠ .active ∨ b.role ≠ .active →
        ∃ y, exec (.beaconRx t port b) s = .next y ∧ y.pr.bcnAt = some x.tb.edge ∧ y.pr.neigh = some b ∧ y.pr.beaconLost = false ∧
          y.pr.role = x.pr.role ∧ y.tb = x.tb)) ∧
    (∀ e, pairLive s = true → s.pr.bcnAt = some e → s.pr.beaconLost = false → ∃ y, exec .beaconWindowExpiry s = .next y ∧
      y.pr.beaconLost = true ∧ y.tb.edge = max s.tb.edge (e + bcnWin s) ∧ y.pr.role = s.pr.role ∧ y.pr.sync = s.pr.sync) ∧
    (∀ y a, pairLive s = true → s.pr.role = .standby → s.pw.step ≠ 9 → exec .takeover s = .next y → y.pr.role = .active →
      s.pr.hb0 = some a ∨ s.pr.hb1 = some a → a + hbWin s ≤ y.tb.edge) ∧
    (∀ (port : Fin 2) (hb : Heartbeat), pairLive x = true → x.pr.role = .active → hb.role = .active →
      ∃ y, exec (.heartbeatRx t port hb) s = .next y ∧ prCntOf y 8 = inc32 (prCntOf x 8) ∧ y.pu.flags.getLsbD 12 = true ∧ y.tb = x.tb ∧
        (x.pr.position = 1 → y.pr.role = .standby ∧ y.pr.sync = .cold ∧ gatesOpen y = false) ∧
        (x.pr.position ≠ 1 → y.pr.role = .active ∧ y.pr.sync = x.pr.sync)) ∧
    (∀ (port : PPort) (b : Beacon), pairLive x = true → portLive x port = true → b.magic = 0x4942 → b.version = 1 →
      b.pairId = pairId x → b.position ≠ x.pr.position → x.pr.role = .active → b.role = .active →
      ∃ y, exec (.beaconRx t port b) s = .next y ∧ prCntOf y 8 = inc32 (prCntOf x 8) ∧ y.pu.flags.getLsbD 12 = true ∧ y.tb = x.tb ∧
        (x.pr.position = 1 → y.pr.role = .standby ∧ y.pr.sync = .cold ∧ gatesOpen y = false) ∧
        (x.pr.position ≠ 1 → y.pr.role = .active ∧ y.pr.sync = x.pr.sync))

/-- R411: the negotiation makes a unit that saw an active neighbour STANDBY, the only unit ACTIVE, and of two that see each other A ACTIVE.
R420, R422: a standby that has seen neither beacons nor heartbeats for their windows becomes ACTIVE, counts the takeover and withholds no
frame any more. R428: a failed self-test is noted, and a FATAL one makes the unit UNFIT. R429: HEALTH at the top of a second ends the
flags of that second and begins the next with the conditions that hold. R29: a check that finds every sum in balance changes nothing, and
one that finds a sum out of balance raises its flag for good and fails the self-test. Completes: NEGOTIATION_END, TAKEOVER, SELFTEST,
HEALTH. -/
def Obligations.Roles : Prop :=
  (∀ (s : State), alive s = true → s.pr.role = .negotiating → s.pw.step = 8 → s.pw.safe = false → s.pw.holdupOk = false →
    ∃ y, exec .negotiationEnd s = .next y ∧ y.pw.step = 9 ∧ y.tb.edge = max s.tb.edge (s.pr.negAt + 12500000) ∧ y.pr.sync = .cold ∧
      y.pr.role = (if s.pr.seenActive = true ∨ (s.pr.seen = true ∧ s.pr.position ≠ 0) then .standby else .active)) ∧
  (∀ (s : State) (e : Nat), pairLive s = true → s.pr.role = .standby → bcnPorts s ≠ 0 → takeoverEdge s = some e → s.pw.step ≠ 9 →
    ∃ y, exec .takeover s = .next y ∧ y.pr.role = .active ∧ y.tb.edge = max s.tb.edge e ∧ y.pu.held = [] ∧
      prCntOf y 0 = inc32 (prCntOf s 0) ∧
      prCntOf y 1 = (if s.pr.sync = .synced ∧ s.pr.fit = true then prCntOf s 1 else inc32 (prCntOf s 1))) ∧
  (∀ (s x : State) (t : Nat) (n : Fin 8) (fatal : Bool) (d : BitVec 32), x = s.runTo t → alive x = true → n.val ≤ 6 →
    ∃ y, exec (.selftest t n fatal d) s = .next y ∧ y.pu.failed.getLsbD n = true ∧ y.pr.fit = (x.pr.fit && !fatal) ∧
      y.pu.flags.getLsbD (if fatal then 7 else 8) = true ∧ y.regs = x.regs) ∧
  (∀ (s : State), alive s = true → ∃ y, exec .health s = .next y ∧ y.tb = (waitTop s).tb ∧ y.pu.flags = liveFlags (waitTop s) ∧
    y.pu.failed = 0 ∧ y.pu.sticky = s.pu.sticky ∧ y.pr = s.pr ∧ y.regs = s.regs) ∧
  (∀ (s : State) (rows : List Nat), (∀ r ∈ rows, uneven s r = false) → checkRows rows s = s) ∧
  (∀ (s : State) (r : Nat), uneven s r = true → ∃ y, checkRows [r] s = y ∧ y.pu.sticky.getLsbD 0 = true ∧ y.pu.failed.getLsbD 5 = true ∧
    y.pr.fit = false ∧ prCntOf y 9 = inc32 (prCntOf s 9) ∧ y.regs = s.regs ∧ y.tb = s.tb)

/-- R353, R414, R417: a standby that follows takes the items of the state delta in sequence, drops one that it has taken, and on a gap falls
back to COLD; it compares its decisions with those of the active unit, and one that differs or finds no counterpart is a divergence that
makes it COLD. R416: a confirmation discards the withheld frame, once; one that comes before the frame is built is kept for it. Completes:
STATE_DELTA_ITEM, DECISION_RECORD, COUNTERPART_TIMEOUT, CONFIRMATION. -/
def Obligations.StateDelta : Prop :=
  ∀ (s x : State) (t : Nat), x = s.runTo t → pairLive x = true → x.pr.role = .standby →
    (∀ it : DeltaItem, x.pr.sync = .synced →
      (it.seq < x.pu.inSeq → exec (.stateDeltaItem t it) s = .next x) ∧
      (it.seq = x.pu.inSeq → exec (.stateDeltaItem t it) s = .next (deltaApply it { x with pu.inSeq := it.seq + 1 })) ∧
      (∀ p, it.seq = x.pu.inSeq → it.kind = .txnBegin p → it.status = stDone → (x.txn p).st = .idle → openTxns x < 8 →
        ∃ y, exec (.stateDeltaItem t it) s = .next y ∧ (y.txn p).st = .open_ ∧ y.pu.inSeq = it.seq + 1 ∧ y.regs = x.regs) ∧
      (x.pu.inSeq < it.seq → ∃ y, exec (.stateDeltaItem t it) s = .next y ∧ y.pr.sync = .cold ∧
        prCntOf y 4 = inc32 (prCntOf x 4) ∧ y.regs = x.regs)) ∧
    (∀ it : DeltaItem, x.pr.sync = .syncing → x.pu.since = none →
      exec (.stateDeltaItem t it) s = .next { x with pu.items := x.pu.items ++ [it] }) ∧
    (∀ (d : Decision) (z : Decision × Nat), x.pu.mine.find? (fun z => sameDecision z.1 d) = some z →
      (z.1 = d → exec (.decisionRecord t d) s = .next { x with pu.mine := x.pu.mine.filter (fun w => !sameDecision w.1 d) }) ∧
      (z.1 ≠ d → ∃ y, exec (.decisionRecord t d) s = .next y ∧ y.pr.sync = .cold ∧ prCntOf y 4 = inc32 (prCntOf x 4))) ∧
    (∀ d : Decision, x.pu.mine.find? (fun z => sameDecision z.1 d) = none →
      exec (.decisionRecord t d) s = .next { x with pu.theirs := x.pu.theirs ++ [(d, slotOf (now16 x))] }) ∧
    (∀ z r, s.pu.theirs = z :: r → ∃ y, exec .counterpartTimeout s = .next y ∧ y.tb = (s.waitSlot (z.2 + 3)).tb ∧ y.pr.sync = .cold ∧
      prCntOf y 4 = inc32 (prCntOf s 4)) ∧
    (∀ id : FrameId, (x.pu.held.any (fun f => f.id == id) = true → exec (.confirmation t id) s =
        .next { x with pu.held := x.pu.held.filter (fun f => f.id != id), pu.done_ := noteSettled x id x.pu.done_ }) ∧
      (x.pu.held.any (fun f => f.id == id) = false → settledSince x id x.pu.done_ = true → exec (.confirmation t id) s = .next x) ∧
      (x.pu.held.any (fun f => f.id == id) = false → settledSince x id x.pu.done_ = false → exec (.confirmation t id) s =
        .next { x with pu.early := noteSettled x id x.pu.early }))

/-- R426: a COLD standby asks for the state, the active unit chooses the slot of its snapshot at least 1 ms ahead and takes it at that
slot's edge; the standby takes the state over with its own counters kept and is SYNCED 4,800 slots later. Completes: RESYNC_REQUEST,
RESYNC_STATE_APPLY, RESYNC_SNAPSHOT, SYNCED. -/
def Obligations.Resynchronisation : Prop :=
  (∀ (s x : State) (t : Nat), x = s.runTo t → pairLive x = true →
    (x.pr.role = .standby → x.pr.sync = .cold → mateUp x = true → platformsPaired x = true → x.pw.step ≠ 9 ∨ x.pw.holdupOk = true →
      exec (.resyncRequest t) s = .next (mateSend { x with pr.sync := .syncing, pu.asked := true } .resyncRequest)) ∧
    (x.pr.role = .active → ∃ k, exec (.resyncRequest t) s = .next { x with pu.snapSlot := some k } ∧ k % 16 = 0 ∧
      now16 x + ms16 1 ≤ slotT16 k) ∧
    (∀ z : Snap, x.pr.role = .standby → x.pr.sync = .syncing → x.pu.since = none → x.pu.items = [] →
      ∃ y, exec (.resyncStateApply t z) s = .next y ∧ y.pu.since = some z.slot ∧ y.pu.inSeq = z.seq ∧ y.ig.streams = z.ig.streams ∧
        y.ig.cnt = x.ig.cnt ∧ y.fc.chains = z.fc.chains ∧ y.ph = z.ph ∧ y.fl.lines = z.fl.lines ∧ y.pb = z.pb ∧
        y.lp.loops = z.lp.loops ∧ y.tb = x.tb ∧ prCntOf y 5 = inc32 (prCntOf x 5))) ∧
  (∀ (s : State) (k : Nat), pairLive s = true → s.pr.role = .active → s.pu.snapSlot = some k → ∃ y, exec .resyncSnapshot s = .next y ∧
    y.tb = (s.waitSlot k).tb ∧ y.pu.snapSlot = none ∧ (∃ z, y.snap = some z ∧ z.slot = k ∧ z.regs = s.regs ∧ z.ig = s.ig ∧ z.fb = s.fb ∧
      z.seq = s.pu.outSeq ∧ z.journal = s.ok.journal)) ∧
  (∀ (s : State) (k : Nat), pairLive s = true → s.pr.role = .standby → s.pr.sync = .syncing → s.pu.since = some k →
    exec .synced s = .next { s.waitSlot (k + 4800) with pr.sync := .synced })

/-- R427: PR_SWITCH with a fit synced neighbour, and the end of the revertive hold-off, plan a switchover for a top of a second at least
2 ms ahead; it is acknowledged, confirmed by GO 100 µs before or abandoned and counted, and at its instant the units whose GO was seen
change roles. Completes: PR_SWITCH, REVERT_HOLDOFF, SWITCH, SWITCH_ACKNOWLEDGED, GO_ACK, GO_RECEIVED, GO, SWITCHOVER. -/
def Obligations.Switchovers : Prop :=
  (∀ (s x : State) (t : Nat) (h : Hearth) (v : BitVec 32), x = s.runTo t → CoreOf x h 0 → domSt x 2 = .run → bit v 0 = true →
    x.pr.role = .active →
    (neighReady x = true → mateUp x = true → x.pr.sw = none → ∃ y k, exec (.prSwitch t h v) s = .next y ∧
      y.pr.sw = some { at_ := sec16 k } ∧ now16 x + ms16 2 ≤ sec16 k ∧ sec16 k < now16 x + ms16 2 + sec16 1 ∧
      (∃ l, y.pu.out = x.pu.out ++ (x.tb.edge, .switch (sec16 k)) :: l) ∧ y.regs = x.regs) ∧
    (neighReady x = false ∨ mateUp x = false ∨ x.pr.sw ≠ none → ∃ y, exec (.prSwitch t h v) s = .next y ∧ y.pr.sw = x.pr.sw ∧
      prCntOf y 3 = inc32 (prCntOf x 3) ∧ y.regs = x.regs)) ∧
  (∀ (s w : State) (e : Nat), pairLive s = true → s.pu.holdFrom = some e → bit (s.cfg 0x110000 0) 15 = true →
    w = s.runTo (e + secEdges (holdOff s)) → s.pr.role = .active → s.pr.position = 1 → neighReady w = true → mateUp s = true →
    s.pr.sw = none → ∃ k, exec .revertHoldoff s = .next (mateSend { w with pr.sw := some { at_ := sec16 k } } (.switch (sec16 k))) ∧
      now16 w + ms16 2 ≤ sec16 k) ∧
  (∀ (s x : State) (t : Nat), x = s.runTo t → pairLive x = true →
    (∀ a, x.pr.role = .standby → exec (.switch t a) s =
      .next (mateSend { x with pr.sw := some { at_ := a, acked := true } } (.switchAck a))) ∧
    (∀ z, x.pr.role = .active → x.pr.sw = some z → exec (.switchAcknowledged t) s =
      .next { x with pr.sw := some { z with acked := true } }) ∧
    (∀ z, x.pr.role = .active → x.pr.sw = some z → now16 x < z.at_ → exec (.goAck t) s =
      .next { x with pr.sw := some { z with goAcked := true } }) ∧
    (∀ z, x.pr.role = .standby → x.pr.sw = some z → exec (.goReceived t) s =
      .next (mateSend { x with pr.sw := some { z with goReceived := true } } .goAck))) ∧
  (∀ (s : State) (z : Switchover), pairLive s = true → s.pr.sw = some z →
    (s.pr.role = .active → z.goSent = false → (z.acked = true → exec .go s = .next (mateSend
        { s.waitUntil (z.at_ - us16 100) with pr.sw := some { z with goSent := true } } .go)) ∧
      (z.acked = false → ∃ y, exec .go s = .next y ∧ y.pr.sw = none ∧ prCntOf y 3 = inc32 (prCntOf s 3))) ∧
    (∃ y, exec .switchover s = .next y ∧ y.pr.sw = none ∧ y.tb = (s.waitUntil z.at_).tb ∧
      (s.pr.role = .active → y.pr.role = (if z.goAcked then .standby else .active)) ∧
      (s.pr.role = .standby → y.pr.role = (if z.goReceived then .active else .standby)) ∧
      (s.pr.role = .standby → z.goReceived = true → y.pu.held = [])))

/-- R438, R439: a storage descriptor of partition 0 that passes its checks opens its operation without a write-back; ST_LIST writes back
the name and the length of the object at its index; ST_ABORT ends the write that it names ABORTED. R452: a permitted clear of the tally
holds back the events until it ends. Completes: ST_WRITE, ST_READ, ST_DELETE, ST_LIST, ST_ABORT, ST_TALLY_CLEAR. -/
def Obligations.StorageCommands : Prop :=
  ∀ (s x : State) (t : Nat) (p : PartId) (r : RingNo) (y : State × Flight) (reg : Nat), x = s.runTo t → p.val = 0 →
    reg = stRegion y.2.words → stResOk y.2.words = true → stBusy y.1 = false →
    (∀ d, Fetches x p r 0xC1 y → nameOk y.2.words = true → reg ≤ 4 → reg ≠ 3 → reg ≠ 4 → (dw y.2.words 4).toNat ≠ 0 →
      (dw y.2.words 4).toNat ≤ min 536870912 (regionCapacity reg) → devRead y.1 p (addr48 y.2.words 2) (dw y.2.words 4).toNat = some d →
      pagesOf (dw y.2.words 4).toNat ≤ freePages y.1 reg → ∃ z o, exec (.stWrite t p r) s = .next z ∧ z.st.ops = y.1.st.ops ++ [o] ∧
        o.kind = .write ∧ o.objs = [(stName y.2.words, d)] ∧ o.region = reg ∧ o.flight = y.2.id ∧ z.st.objects = y.1.st.objects ∧
        z.db = y.1.db) ∧
    (∀ q, Fetches x p r 0xC2 y → nameOk y.2.words = true → reg ≤ 4 → reg ≠ 3 → (dw y.2.words 4).toNat ≠ 0 →
      (dw y.2.words 4).toNat ≤ regionCapacity reg → findObj y.1 reg (stName y.2.words) = some q →
      canAccess y.1 p .devWrite (addr48 y.2.words 2) (dw y.2.words 4).toNat = true → ∃ z o, exec (.stRead t p r) s = .next z ∧
        z.st.reads = y.1.st.reads ++ [o] ∧ o.ver = q.ver ∧ o.dst = addr48 y.2.words 2 ∧
        o.data = octs q.data (dw y.2.words 6).toNat (min (dw y.2.words 4).toNat (q.data.length - (dw y.2.words 6).toNat)) ∧
        z.db = y.1.db) ∧
    (Fetches x p r 0xC3 y → nameOk y.2.words = true → reg < 3 → (findObj y.1 reg (stName y.2.words)).isSome = true →
      ∃ z o, exec (.stDelete t p r) s = .next z ∧ z.st.ops = y.1.st.ops ++ [o] ∧ o.kind = .delete ∧ o.name = stName y.2.words ∧
        o.region = reg ∧ z.st.objects = y.1.st.objects ∧ z.db = y.1.db) ∧
    (∀ o, Fetches x p r 0xC4 y → reg ≤ 4 → reg ≠ 3 → (objectsOf y.1 reg)[fld (dw y.2.words 2) 15 0]? = some o →
      exec (.stList t p r) s = .next (complete y.1 p r y.2.id (Wb.mk stDone 0 0
        (bytesAsWords 3 (padTo 32 o.name) ++ [(11, BitVec.ofNat 32 o.data.length)]) (some (stampNow y.1)) none))) ∧
    (∀ o, Fetches x p r 0xC5 y → y.1.st.ops.find? (fun o => o.kind == .write && o.ring == 64 * p.val + r.val && o.tag == dw y.2.words 2) = some o →
      exec (.stAbort t p r) s = .next (finish (abortOp y.1 o stAborted) p r y.2.id stDone)) ∧
    (Fetches x p r 0xC6 y → clearStatus y.1 (fld (dw y.2.words 2) 11 0) = stDone → ∃ z o, exec (.stTallyClear t p r) s = .next z ∧
      z.st.ops = y.1.st.ops ++ [o] ∧ o.kind = .clear ∧ z.ty.clearing = true ∧ z.ty.recs = y.1.ty.recs ∧ z.db = y.1.db)

/-- R440: at its commit a write's object stands in its region and a delete's does not, and the operation is over. R441: a finished ST_READ
delivers the version that it began with, or ends MEDIA_ERROR. R434 to R436: an erased block is free with one more erase, one whose erase
failed is retired; a wear-leveling move frees the block that it empties, where its region has a free one, and so does a scrub that corrects
40 bits or more; a scrub counts what it corrects and what it cannot. R29: the flash pages are checked at a commit and an erase. Completes:
JOURNAL_COMMIT, ST_READ_COMPLETE, ERASE_COMPLETE, WEAR_LEVELING_MOVE, BACKGROUND_SCRUB. -/
def Obligations.StorageProgress : Prop :=
  ∀ (s x : State) (t : Nat), x = s.runTo t → alive x = true →
    (∀ o name d, x.st.ops.find? (fun z => z.id == o.id) = some o → o.kind = .write → o.objs = [(name, d)] →
      ∃ y q, exec (.journalCommit t o.id 0) s = .next y ∧ y.st.ops = x.st.ops.filter (fun z => z.id != o.id) ∧
        findObj y o.region name = some q ∧ q.data = d) ∧
    (∀ o, x.st.ops.find? (fun z => z.id == o.id) = some o → o.kind = .delete →
      ∃ y, exec (.journalCommit t o.id 0) s = .next y ∧ y.st.ops = x.st.ops.filter (fun z => z.id != o.id) ∧
        findObj y o.region o.name = none) ∧
    (∀ o, x.st.reads.find? (fun z => z.id == o.id) = some o →
      (o.bad = false → ∃ z, exec (.stReadComplete t o.id) s = .next (completeKey z o.ring o.flight
          (Wb.mk stDone 0 0 [(3, BitVec.ofNat 32 o.data.length)] (some (stampNow x)) none)) ∧
        z.st.reads = x.st.reads.filter (fun w => w.id != o.id) ∧ z.dram = (devWrite x o.part o.dst o.data).dram) ∧
      (o.bad = true → ∃ z, exec (.stReadComplete t o.id) s = .next (finishKey z o.ring o.flight stMediaError) ∧ z.dram = x.dram ∧
        z.st.reads = x.st.reads.filter (fun w => w.id != o.id))) ∧
    (∀ b, (x.blk b).st = .awaiting →
      exec (.eraseComplete t b true) s = .next (checkRows [6] (x.updBlk b (fun z => { z with st := .free, erase := z.erase + 1 }))) ∧
      (∃ y, exec (.eraseComplete t b false) s = .next y ∧ (y.blk b).st = .retired)) ∧
    (∀ e r n, sortBy (fun a b : Nat × Blk => decide (a.2.erase ≤ b.2.erase))
        ((x.st.blocks.filter (fun e => e.2.st != .retired)).filter (fun e => e.2.st == .data &&
          decide (e.2.erase + 1000 < (x.st.blocks.filter (fun e => e.2.st != .retired)).foldl (fun a e => max a e.2.erase) 0))) = e :: r →
      (lowestErase x (regionBlockList x (blkRegion x e.1)) = none → exec (.wearLevelingMove t) s = .next x) ∧
      (lowestErase x (regionBlockList x (blkRegion x e.1)) = some n → ∃ y, exec (.wearLevelingMove t) s = .next y ∧
        (y.blk e.1).st = .awaiting ∧ (n ≠ e.1 → (y.blk n).st = .data) ∧ Tbl.get 0 y.st.cnt 4 = inc32 (Tbl.get 0 x.st.cnt 4))) ∧
    (∀ b cw n, (x.blk b).st = .data →
      (n = 0 → exec (.backgroundScrub t b cw n) s = .next x) ∧
      (0 < n → n < 40 → exec (.backgroundScrub t b cw n) s = .next (stCount x 0)) ∧
      (∀ m, 40 ≤ n → n ≤ 72 → lowestErase x (regionBlockList x (blkRegion x b)) = some m → ∃ y, exec (.backgroundScrub t b cw n) s = .next y ∧
        (y.blk b).st = .awaiting ∧ (y.blk m).st = .data ∧ Tbl.get 0 y.st.cnt 0 = inc32 (Tbl.get 0 x.st.cnt 0) ∧
        Tbl.get 0 y.st.cnt 2 = inc32 (Tbl.get 0 x.st.cnt 2)) ∧
      (72 < n → ∃ y, exec (.backgroundScrub t b cw n) s = .next y ∧ Tbl.get 0 y.st.cnt 1 = inc32 (Tbl.get 0 x.st.cnt 1) ∧ y.regs = x.regs))

/-- R446, R449, R450: a firmware event of partition 0 opens a record of its type, repeats the open one of the same type and detail, and
while no room is left is counted as lost. R451: partition 0 reads the record at the cursor through the window and the last word moves an
automatic cursor on; other partitions read 0. R448: the hour counter goes up every 225 s. Completes: TY_EVENT, TALLY_WINDOW_READ,
HOURS16_ADVANCE. -/
def Obligations.Tally : Prop :=
  (∀ (s x : State) (t : Nat) (h : Hearth) (v : BitVec 32), x = s.runTo t → CoreOf x h 0 → domSt x 11 = .run → x.ty.clearing = false →
    (x.ty.open_ = none → x.ty.full = false → ∃ y z, exec (.tyEvent t h v) s = .next y ∧ y.ty.open_ = some z ∧
      z.type = 0x80 + fld v 19 16 ∧ z.detail = BitVec.ofNat 32 (fld v 15 0) ∧ z.index = x.ty.recs.length ∧ z.repeats = 0 ∧
      z.hours = x.ty.hours ∧ y.ty.recs = x.ty.recs ∧ y.regs = x.regs) ∧
    (∀ z, x.ty.open_ = some z → z.type = 0x80 + fld v 19 16 → z.detail = BitVec.ofNat 32 (fld v 15 0) →
      ∃ y w, exec (.tyEvent t h v) s = .next y ∧ y.ty.open_ = some w ∧ w.repeats = inc32 z.repeats ∧ w.time = z.time ∧ w.regs = z.regs ∧
        y.ty.recs = x.ty.recs) ∧
    (x.ty.open_ = none → x.ty.full = true → ∃ y, exec (.tyEvent t h v) s = .next y ∧ y.ty.lost = inc32 x.ty.lost ∧ y.ty.open_ = none ∧
      y.ty.recs = x.ty.recs)) ∧
  (∀ (s x : State) (t : Nat) (h : Hearth) (p off size : Nat), x = s.runTo t → CoreOf x h p → size = 1 ∨ size = 2 ∨ size = 4 ∨ size = 8 →
    off + size ≤ 0x1000 → ∃ y, exec (.tallyWindowRead t h off size) s = .next y ∧
      (p ≠ 0 → (y.core h).result = 0 ∧ y.regs = x.regs) ∧
      (p = 0 → (y.core h).result = BitVec.ofNat 64 (leNat ((List.range size).map (fun k =>
          if off + k < 256 then (windowBytes x).getD (off + k) 0 else 0))) ∧
        (bit (x.cfg 0x130004 0) 31 = true → off ≤ 255 → 252 < off + size →
          y.cfg 0x130004 0 = BitVec.ofNat 32 (2 ^ 31 + (fld (x.cfg 0x130004 0) 17 0 + 1) % 2 ^ 18)) ∧
        (bit (x.cfg 0x130004 0) 31 = false ∨ 255 < off ∨ off + size ≤ 252 → y.regs = x.regs))) ∧
  (∀ (s x : State), x = s.runTo (s.ty.hoursAt + 56250000000) → alive s = true →
    exec .hours16Advance s = .next { x with ty.hours := (x.ty.hours + 1) % 2 ^ 32, ty.hoursAt := x.tb.edge })

/-- R453 to R457, R463: a feed whose grant brings the sum to 68 W starts the module at step 3, from KEEP with its counter; the loss of
the last feed begins the loss sequence and its end leaves KEEP; the supercapacitor's end leaves OFF, in which PREF is that of the last
journal entry and the tally keeps its programmed records (TIME_WAIT at its reset value and the loss of the open record are the model's
choice: log 60). R458, R463: the self-tests bring the domains up in order, and the failure of a
domain that start-up needs halts it; the wait for time ends in the negotiation; a halt is retried after 60 s. Completes: FEED_PRESENT, FEED_LOSS, HOLDUP_CHANGE,
SUPERCAPACITOR_LOW, SHUTDOWN_EXPIRY, DOMAIN_BIST_COMPLETE, TIME_WAIT_EXPIRY, HALT_RETRY. -/
def Obligations.PowerAndStartUp : Prop :=
  ∀ (s x : State) (t : Nat), x = s.runTo t →
    (∀ (f : Fin 2) (c : Fin 16), c.val ≤ 8 →
      (powered x = true → ∃ y, exec (.feedPresent t f c) s = .next y ∧ Tbl.get ({} : Feed) y.pw.feeds f = Feed.mk true c (grantOf c) ∧
        y.pw.st = x.pw.st ∧ y.pw.budgetLow = decide (feedSum y < 680) ∧ y.regs = x.regs) ∧
      (powered x = false → x.pw.haltAt = none → 680 ≤ feedSum { x with pw.feeds := Tbl.set {} x.pw.feeds f (Feed.mk true c (grantOf c)) } →
        ∃ y, exec (.feedPresent t f c) s = .next y ∧ y.pw.st = .warm ∧ y.pw.step = 3 ∧ y.pw.fromOne = true ∧ y.pw.doms = [] ∧
          y.tb.edge = x.tb.edge ∧ (x.pw.st = .keep → y.tb.counter = x.tb.counter) ∧ y.st.objects = x.st.objects ∧
          y.ok.fused = x.ok.fused)) ∧
    (∀ f : Fin 2, (Tbl.get ({} : Feed) x.pw.feeds f).present = true → alive x = true →
      (anyFeed { x with pw.feeds := Tbl.set {} x.pw.feeds f {} } = true → ∃ y, exec (.feedLoss t f) s = .next y ∧ y.pw.lossAt = none ∧
        (Tbl.get ({} : Feed) y.pw.feeds f).present = false ∧ y.pw.st = x.pw.st ∧ y.regs = x.regs) ∧
      (anyFeed { x with pw.feeds := Tbl.set {} x.pw.feeds f {} } = false → ∃ y, exec (.feedLoss t f) s = .next y ∧
        y.pw.lossAt = some x.tb.edge ∧ y.st.shutdown = true ∧ y.cores = [] ∧ y.st.objects = x.st.objects ∧
        (∀ d, 3 ≤ d → d ≠ 11 → Tbl.get DomSt.off y.pw.doms d = .off))) ∧
    (∀ ok : Bool, x.pw.holdupOk ≠ ok → x.pw.step ≠ 9 → ∃ y, exec (.holdupChange t ok) s = .next y ∧ y.pw.holdupOk = ok ∧
      y.pw.st = x.pw.st ∧ y.tb = x.tb ∧ y.regs = x.regs) ∧
    (x.pw.st = .keep → anyFeed x = false → ∃ y, exec (.supercapacitorLow t) s = .next y ∧ y.pw.st = .off ∧ y.pw.holdupOk = false ∧
      bit (y.cfg 0x140020 0) 31 = x.ty.savedPref ∧ y.cfg 0x140024 0 = 0x1E00 ∧ y.ty.open_ = none ∧ y.ty.recs = x.ty.recs ∧ y.tb = x.tb ∧
      y.ok = x.ok ∧ y.st = x.st) ∧
    (∀ e, s.pw.lossAt = some e → anyFeed s = false → ∃ y, exec .shutdownExpiry s = .next y ∧ y.pw.st = .keep ∧
      y.tb.edge = max s.tb.edge (e + msEdges (fld (s.cfg 0x120034 0) 7 0)) ∧ y.st.ops = [] ∧ y.st.objects = s.st.objects ∧ y.dram = [] ∧
      y.ok.fused = s.ok.fused) ∧
    (∀ d : Fin 12, x.pw.st = .warm → x.pw.step = 3 → nextDomain x = some d.val →
      (∀ e, d.val ≠ 11 → nextDomain { x with pw.doms := Tbl.set .off x.pw.doms d .run } = some e → exec (.domainBistComplete t d true) s =
        .next { x with pw.doms := Tbl.set .off (Tbl.set .off x.pw.doms d .run) e .starting }) ∧
      (d.val = 2 ∨ d.val = 5 ∨ d.val = 6 ∨ d.val = 11 → ∃ y, exec (.domainBistComplete t d false) s = .next y ∧ y.pw.st = .keep ∧
        y.pw.haltAt = some x.tb.edge ∧ y.tb.edge = x.tb.edge)) ∧
    (alive s = true → s.pw.step = 7 → ∃ y, exec .timeWaitExpiry s = .next y ∧ y.pw.step = 8 ∧
      y.tb.edge = max s.tb.edge (s.pw.stepAt + secEdges (fld (s.cfg 0x140024 0) 15 8)) ∧ y.pr.negAt = y.tb.edge) ∧
    (∀ e, s.pw.haltAt = some e → s.pw.dead = false → s.pw.st = .keep → ∃ y, exec .haltRetry s = .next y ∧ y.pw.st = .warm ∧
      y.pw.step = 3 ∧ y.pw.retries = s.pw.retries + 1 ∧ y.tb.edge = max s.tb.edge (e + 15000000000) ∧ y.st.objects = s.st.objects)
end
end

