-- ==== Sys2Proof/Laws/Tables.lean ====
section
/-! SUPPORT. What reading and writing a sparse table do: a read after a write to the same key gives the value, every other
key reads as before, and the canonical form is kept. -/

namespace Sys2Proof.Machine

variable {β : Type}

theorem Tbl.get_put (d : β) (k : Nat) (v : β) (t : Tbl β) (j : Nat) :
    Tbl.get d (Tbl.put t k v) j = if j = k then v else Tbl.get d t j := by
  induction t with
  | nil => rfl
  | cons e r ih =>
    obtain ⟨a, w⟩ := e
    unfold Tbl.put
    split
    · rfl
    · split
      · rename_i h; subst h
        by_cases h : j = k <;> simp [Tbl.get, h]
      · rename_i h
        by_cases hj : j = a
        · subst hj
          have : ¬ j = k := fun x => h x.symm
          simp [Tbl.get, this]
        · simp [Tbl.get, hj, ih]

theorem Tbl.get_remove (d : β) (k : Nat) (t : Tbl β) (j : Nat) :
    Tbl.get d (t.filter (fun e => e.1 != k)) j = if j = k then d else Tbl.get d t j := by
  induction t with
  | nil => simp [Tbl.get]
  | cons e r ih =>
    obtain ⟨a, w⟩ := e
    by_cases ha : a = k
    · subst ha
      simp only [List.filter_cons, bne_self_eq_false, Bool.false_eq_true, if_false, ih]
      by_cases hj : j = a <;> simp [Tbl.get, hj]
    · have hb : (a != k) = true := by simp [ha]
      simp only [List.filter_cons, hb, if_true]
      by_cases hj : j = a
      · subst hj; simp [Tbl.get, ha]
      · simp [Tbl.get, hj, ih]

variable [DecidableEq β]

/-- A read after a write: the written key gives the value, every other key reads as before. -/
@[simp] theorem Tbl.get_set (d : β) (k : Nat) (v : β) (t : Tbl β) (j : Nat) :
    Tbl.get d (Tbl.set d t k v) j = if j = k then v else Tbl.get d t j := by
  unfold Tbl.set
  split
  · rename_i h; subst h; exact Tbl.get_remove v k t j
  · exact Tbl.get_put d k v t j

/-- A read after a change of one entry. -/
@[simp] theorem Tbl.get_upd (d : β) (k : Nat) (f : β → β) (t : Tbl β) (j : Nat) :
    Tbl.get d (Tbl.upd d t k f) j = if j = k then f (Tbl.get d t k) else Tbl.get d t j :=
  Tbl.get_set d k _ t j

/-! The canonical form. -/

omit [DecidableEq β] in
/-- The lower bound of a rising table may be dropped or lowered. -/
theorem Tbl.risingFrom_weaken {t : Tbl β} {l : Nat} {m : Option Nat} (h : Tbl.risingFrom (some l) t = true)
    (hm : ∀ x, m = some x → x ≤ l) : Tbl.risingFrom m t = true := by
  cases t with
  | nil => cases m <;> rfl
  | cons e r =>
    obtain ⟨a, v⟩ := e
    simp only [Tbl.risingFrom, Bool.and_eq_true, decide_eq_true_eq] at h
    cases m with
    | none => simpa [Tbl.risingFrom] using h.2
    | some x =>
      have := hm x rfl
      simp only [Tbl.risingFrom, Bool.and_eq_true, decide_eq_true_eq]
      exact ⟨by omega, h.2⟩

omit [DecidableEq β] in
/-- The two parts of a rising table that is not empty. -/
theorem Tbl.risingFrom_cons {a : Nat} {w : β} {r : Tbl β} {m : Option Nat} :
    Tbl.risingFrom m ((a, w) :: r) = true ↔ (∀ x, m = some x → x < a) ∧ Tbl.risingFrom (some a) r = true := by
  cases m with
  | none => simp [Tbl.risingFrom]
  | some x => simp [Tbl.risingFrom]

omit [DecidableEq β] in
theorem Tbl.put_rising (k : Nat) (v : β) : ∀ {t : Tbl β} {m : Option Nat}, Tbl.risingFrom m t = true →
    (∀ x, m = some x → x < k) → Tbl.risingFrom m (Tbl.put t k v) = true := by
  intro t
  induction t with
  | nil => intro m _ hm; exact Tbl.risingFrom_cons.2 ⟨hm, rfl⟩
  | cons e r ih =>
    obtain ⟨a, w⟩ := e
    intro m h hm
    have hc := Tbl.risingFrom_cons.1 h
    unfold Tbl.put
    split
    · rename_i hk
      exact Tbl.risingFrom_cons.2 ⟨hm, Tbl.risingFrom_cons.2 ⟨by rintro x ⟨rfl⟩; exact hk, hc.2⟩⟩
    · split
      · exact Tbl.risingFrom_cons.2 hc
      · exact Tbl.risingFrom_cons.2 ⟨hc.1, ih hc.2 (by rintro x ⟨rfl⟩; omega)⟩

theorem Tbl.put_noDefault (d : β) (k : Nat) (v : β) (hv : v ≠ d) {t : Tbl β} (h : Tbl.noDefault d t = true) :
    Tbl.noDefault d (Tbl.put t k v) = true := by
  induction t with
  | nil => simp [Tbl.put, Tbl.noDefault, hv]
  | cons e r ih =>
    obtain ⟨a, w⟩ := e
    have h' := h
    simp only [Tbl.noDefault, Bool.and_eq_true] at h
    unfold Tbl.put
    split
    · simp only [Tbl.noDefault, Bool.and_eq_true]
      exact ⟨by simp [hv], h⟩
    · split
      · simp only [Tbl.noDefault, Bool.and_eq_true]
        exact ⟨by simp [hv], h.2⟩
      · simp only [Tbl.noDefault, Bool.and_eq_true]
        exact ⟨h.1, ih h.2⟩

omit [DecidableEq β] in
theorem Tbl.filter_rising (q : Nat × β → Bool) : ∀ {t : Tbl β} {m : Option Nat}, Tbl.risingFrom m t = true →
    Tbl.risingFrom m (t.filter q) = true := by
  intro t
  induction t with
  | nil => intro m h; exact h
  | cons e r ih =>
    obtain ⟨a, w⟩ := e
    intro m h
    have hc := Tbl.risingFrom_cons.1 h
    rw [List.filter_cons]
    split
    · exact Tbl.risingFrom_cons.2 ⟨hc.1, ih hc.2⟩
    · exact Tbl.risingFrom_weaken (ih hc.2) (fun x hx => le_of_lt (hc.1 x hx))

theorem Tbl.filter_noDefault (d : β) (q : Nat × β → Bool) {t : Tbl β} (h : Tbl.noDefault d t = true) :
    Tbl.noDefault d (t.filter q) = true := by
  induction t with
  | nil => rfl
  | cons e r ih =>
    obtain ⟨a, w⟩ := e
    simp only [Tbl.noDefault, Bool.and_eq_true] at h
    rw [List.filter_cons]
    split
    · simp only [Tbl.noDefault, Bool.and_eq_true]
      exact ⟨h.1, ih h.2⟩
    · exact ih h.2

/-- Dropping entries keeps the canonical form. -/
theorem Tbl.filter_wf (d : β) (q : Nat × β → Bool) {t : Tbl β} (h : Tbl.wf d t = true) : Tbl.wf d (t.filter q) = true := by
  simp only [Tbl.wf, Bool.and_eq_true] at h ⊢
  exact ⟨Tbl.filter_rising q h.1, Tbl.filter_noDefault d q h.2⟩

/-- A write keeps the canonical form. -/
theorem Tbl.set_wf (d : β) (k : Nat) (v : β) {t : Tbl β} (h : Tbl.wf d t = true) : Tbl.wf d (Tbl.set d t k v) = true := by
  unfold Tbl.set
  split
  · exact Tbl.filter_wf d _ h
  · rename_i hv
    simp only [Tbl.wf, Bool.and_eq_true] at h ⊢
    exact ⟨Tbl.put_rising k v h.1 (by rintro x ⟨⟩), Tbl.put_noDefault d k v hv h.2⟩

theorem Tbl.upd_wf (d : β) (k : Nat) (f : β → β) {t : Tbl β} (h : Tbl.wf d t = true) : Tbl.wf d (Tbl.upd d t k f) = true :=
  Tbl.set_wf d k _ h

end Sys2Proof.Machine
end

