-- ==== Sys2Proof/Laws/Access.lean ====
section
/-! SUPPORT. The gates through which commands reach the module: what a core's store to a set-up register, a descriptor command and a
command at a port or of the module itself come to once their gate is open. -/

namespace Sys2Proof.Machine

/-! The passing of time changes the counter and the edge only. -/

@[simp] theorem State.pass_cfg (s : State) (n off sel : Nat) : (s.pass n).cfg off sel = s.cfg off sel := rfl
@[simp] theorem State.runTo_cfg (s : State) (n off sel : Nat) : (s.runTo n).cfg off sel = s.cfg off sel := rfl

/-- A store of an executing core to an aligned set-up offset. -/
theorem coreStore_eq {t h off : Nat} {v : BitVec 32} {s : State} {p : Nat} (hc : CoreOf (s.runTo t) h p)
    (ho : off < 0x150000) (h4 : off % 4 = 0) : coreStore t h off v s = coreDone h (storeSetup p off v (s.runTo t)) := by
  obtain ⟨h1, h2⟩ := hc
  have e1 : setupBase ≤ setupBase + off ∧ setupBase + off < setupBase + 0x150000 := by constructor <;> omega
  have e2 : (setupBase + off) % 4 = 0 := by unfold setupBase; omega
  have e3 : (v.setWidth 64).setWidth 32 = v := by
    apply BitVec.eq_of_toNat_eq
    simp only [BitVec.toNat_setWidth]
    have := v.isLt
    omega
  simp only [coreStore, byCore, h1, if_true, setupStore, e1, ioStore, e2, and_self, h2, Nat.add_sub_cancel_left, e3]

/-- A load of an executing core from an aligned set-up offset. -/
theorem coreLoad_eq {t h off : Nat} {s : State} (hc : coreRuns (s.runTo t) h = true) (ho : off < 0x150000) (h4 : off % 4 = 0) :
    coreLoad t h off s = loadSetup h off (s.runTo t) := by
  have e1 : setupBase ≤ setupBase + off := by omega
  have e0 : setupBase ≤ setupBase + off ∧ setupBase + off < setupBase + 0x150000 := by constructor <;> omega
  have e2 : (setupBase + off) % 4 = 0 := by unfold setupBase; omega
  simp [coreLoad, byCore, hc, coreAccess, accessSize, memLoad, ioLoad, e2, ho]

/-- A register outside every switched domain takes partition 0's store. -/
theorem storeSetup_zero {off : Nat} {v : BitVec 32} {s : State} {i : RegInfo} (hi : regInfo off = some i)
    (hd : domOn s off (sliceSel s 0 off) = true) (h15 : off / 65536 ≠ 15) (h1 : off ≠ 0x10) (h2 : off ≠ 0x14) (ht : i.tx = 0) :
    storeSetup 0 off v s = storeWo 0 off v (storeW1c 0 off v (storeRw off (selValue s 0 i) i.rw v s)) := by
  simp [storeSetup, hi, hd, h15, h1, h2, ht, WriteRule.allows]

/-- A descriptor command on a ring that gives its opcode. -/
theorem withDesc_eq {s : State} {p r : Nat} {mine : RingCfg → List (BitVec 32) → Bool} {act : State → Flight → State} {op : Nat}
    {y : State × Flight} (h : Fetches s p r op y) (hm : mine (ringCfg s p r) y.2.words = true) :
    withDesc s p r mine act = act y.1 y.2 := by
  obtain ⟨h1, h2, h3⟩ := h
  have hp : peekDesc s p r = some y.2.words := by
    have h0 := h1
    unfold fetchDesc at h0
    dsimp only at h0
    split at h0
    · rename_i hc
      simp only [Bool.and_eq_true] at hc
      obtain ⟨⟨⟨⟨a, b⟩, c⟩, _⟩, _⟩ := hc
      cases h0
      simp [peekDesc, a, b, c]
    · cases h0
  simp [withDesc, hp, h3, h2, hm, h1]

theorem live_eq {f : State → State} {s : State} (h : alive s = true) : live f s = f s := by simp [live, h]
theorem byPort_eq {f : State → State} {s : State} {t q : Nat} (h : portLive (s.runTo t) q = true) : byPort t q f s = f (s.runTo t) := by
  simp [byPort, h]

end Sys2Proof.Machine
end

