-- ==== Sys2Proof/Laws/Keeps.lean ====
section
/-! SUPPORT. What every operation of the block keeps: the queue is untouched, memory and the register table stay canonical,
time does not go back, and no fuse loses what it holds. -/

namespace Sys2Proof.Machine

/-- From state a, state b holds the same queue, canonical memory and registers where a has them, no earlier an edge, and
every fuse that a has programmed. -/
structure Keeps (a b : State) : Prop where
  pending : b.pending = a.pending
  dram : Memory.wf a.dram → Memory.wf b.dram
  regs : Tbl.wf 0 a.regs = true → Tbl.wf 0 b.regs = true
  edge : a.tb.edge ≤ b.tb.edge
  fused : a.ok.fused ≤ b.ok.fused
  owner : ∀ h, a.ok.ownerHash = some h → b.ok.ownerHash = some h
  secret : ∀ d, a.ok.secret = some d → b.ok.secret = some d

theorem Keeps.refl (s : State) : Keeps s s :=
  ⟨rfl, id, id, le_refl _, le_refl _, fun _ h => h, fun _ h => h⟩

theorem Keeps.trans {a b c : State} (h : Keeps a b) (k : Keeps b c) : Keeps a c :=
  ⟨k.pending.trans h.pending, fun w => k.dram (h.dram w), fun w => k.regs (h.regs w), le_trans h.edge k.edge,
   le_trans h.fused k.fused, fun z w => k.owner z (h.owner z w), fun z w => k.secret z (h.secret z w)⟩

/-- An update of other fields. -/
theorem Keeps.of_eq {a x y : State} (h : Keeps a x) (h1 : y.pending = x.pending) (h2 : y.dram = x.dram)
    (h3 : y.regs = x.regs) (h4 : y.tb.edge = x.tb.edge) (h5 : y.ok.fused = x.ok.fused)
    (h6 : y.ok.ownerHash = x.ok.ownerHash) (h7 : y.ok.secret = x.ok.secret) : Keeps a y :=
  ⟨h1.trans h.pending, fun w => h2 ▸ h.dram w, fun w => h3 ▸ h.regs w, h4 ▸ h.edge, h5 ▸ h.fused,
   fun z w => h6 ▸ h.owner z w, fun z w => h7 ▸ h.secret z w⟩

/-- An update of other fields. -/
theorem Keeps.of_mk {a x : State}
    {f_pending : List Instr}
    {f_tb : TbState}
    {f_tu : TbUnits}
    {f_ptp : PtpState}
    {f_regs : Tbl (BitVec 32)}
    {f_dram : List Host.Cell}
    {f_pt : PtState}
    {f_files : Tbl IFile}
    {f_cores : Tbl CoreSt}
    {f_db : DbState}
    {f_tx : TxState}
    {f_sq : SqState}
    {f_pw : PwState}
    {f_st : StState}
    {f_ty : TyState}
    {f_ok : OkState}
    {f_pr : PrState}
    {f_pu : PrRun}
    {f_snap : Option Snap}
    {f_gn : GnState}
    {f_mc : McState}
    {f_ig : IgState}
    {f_fc : FcState}
    {f_tg : TgState}
    {f_ph : PhState}
    {f_fl : FlState}
    {f_fb : FbState}
    {f_pb : PbState}
    {f_lp : LpState}
    {f_draws : Nat}
    (h : Keeps a x) (h1 : f_pending = x.pending) (h2 : f_dram = x.dram) (h3 : f_regs = x.regs)
    (h4 : f_tb.edge = x.tb.edge) (h5 : f_ok.fused = x.ok.fused) (h6 : f_ok.ownerHash = x.ok.ownerHash)
    (h7 : f_ok.secret = x.ok.secret) :
    Keeps a (State.mk f_pending f_tb f_tu f_ptp f_regs f_dram f_pt f_files f_cores f_db f_tx f_sq f_pw f_st f_ty f_ok f_pr f_pu f_snap f_gn f_mc f_ig f_fc f_tg f_ph f_fl f_fb f_pb f_lp f_draws) :=
  Keeps.of_eq h h1 h2 h3 h4 h5 h6 h7

/-- An update of memory and other fields. -/
theorem Keeps.of_mk_dram {a x : State}
    {f_pending : List Instr}
    {f_tb : TbState}
    {f_tu : TbUnits}
    {f_ptp : PtpState}
    {f_regs : Tbl (BitVec 32)}
    {f_dram : List Host.Cell}
    {f_pt : PtState}
    {f_files : Tbl IFile}
    {f_cores : Tbl CoreSt}
    {f_db : DbState}
    {f_tx : TxState}
    {f_sq : SqState}
    {f_pw : PwState}
    {f_st : StState}
    {f_ty : TyState}
    {f_ok : OkState}
    {f_pr : PrState}
    {f_pu : PrRun}
    {f_snap : Option Snap}
    {f_gn : GnState}
    {f_mc : McState}
    {f_ig : IgState}
    {f_fc : FcState}
    {f_tg : TgState}
    {f_ph : PhState}
    {f_fl : FlState}
    {f_fb : FbState}
    {f_pb : PbState}
    {f_lp : LpState}
    {f_draws : Nat}
    (h : Keeps a x) (h1 : f_pending = x.pending) (h2 : Memory.wf x.dram → Memory.wf f_dram) (h3 : f_regs = x.regs)
    (h4 : f_tb.edge = x.tb.edge) (h5 : f_ok.fused = x.ok.fused) (h6 : f_ok.ownerHash = x.ok.ownerHash)
    (h7 : f_ok.secret = x.ok.secret) :
    Keeps a (State.mk f_pending f_tb f_tu f_ptp f_regs f_dram f_pt f_files f_cores f_db f_tx f_sq f_pw f_st f_ty f_ok f_pr f_pu f_snap f_gn f_mc f_ig f_fc f_tg f_ph f_fl f_fb f_pb f_lp f_draws) :=
  ⟨h1.trans h.pending, fun w => h2 (h.dram w), fun w => h3 ▸ h.regs w, h4 ▸ h.edge, h5 ▸ h.fused,
   fun z w => h6 ▸ h.owner z w, fun z w => h7 ▸ h.secret z w⟩

theorem optPair_keeps {base s1 : State} {x : Option State × State} (h : (∀ y, x.1 = some y → Keeps base y) ∧ Keeps base x.2)
    (e : x.1 = some s1) : Keeps base s1 := h.1 s1 e

theorem optPair_keeps_snd {base : State} {x : Option State × State} (h : (∀ y, x.1 = some y → Keeps base y) ∧ Keeps base x.2) :
    Keeps base x.2 := h.2

theorem ite_keeps {base : State} {c : Prop} [Decidable c] {a b : State} (ha : Keeps base a) (hb : Keeps base b) :
    Keeps base (if c then a else b) := by
  split
  · exact ha
  · exact hb

theorem ite_keeps_fst {base : State} {γ : Type} {c : Prop} [Decidable c] {a b : State × γ} (ha : Keeps base a.1) (hb : Keeps base b.1) :
    Keeps base (if c then a else b).1 := by
  split
  · exact ha
  · exact hb

theorem ite_keeps_snd {base : State} {γ : Type} {c : Prop} [Decidable c] {a b : γ × State} (ha : Keeps base a.2) (hb : Keeps base b.2) :
    Keeps base (if c then a else b).2 := by
  split
  · exact ha
  · exact hb

theorem foldl_keeps {base : State} {β : Type} {f : State → β → State} {l : List β} {s : State} (h : Keeps base s)
    (hf : ∀ a b, Keeps base a → Keeps base (f a b)) : Keeps base (l.foldl f s) := by
  induction l generalizing s with
  | nil => exact h
  | cons b l ih => exact ih (hf s b h)

theorem foldl_keeps_fst {base : State} {β γ : Type} {f : State × γ → β → State × γ} {l : List β} {s : State × γ}
    (h : Keeps base s.1) (hf : ∀ a b, Keeps base a.1 → Keeps base (f a b).1) : Keeps base (l.foldl f s).1 := by
  induction l generalizing s with
  | nil => exact h
  | cons b l ih => exact ih (hf s b h)

theorem foldl_keeps_snd {base : State} {β γ : Type} {f : γ × State → β → γ × State} {l : List β} {s : γ × State}
    (h : Keeps base s.2) (hf : ∀ a b, Keeps base a.2 → Keeps base (f a b).2) : Keeps base (l.foldl f s).2 := by
  induction l generalizing s with
  | nil => exact h
  | cons b l ih => exact ih (hf s b h)

end Sys2Proof.Machine
end

