-- ==== Sys2Proof/Laws/Flags.lean ====
section
/-! SUPPORT. What the operations of Machine/Flags.lean keep (`Keeps` of Laws/Keeps.lean). -/

set_option linter.all false

namespace Sys2Proof.Machine

theorem State.setCfg_keeps {base s : State} {off sel : Nat} {v : BitVec 32} (h_s : Keeps base s) : Keeps base (s.setCfg off sel v) :=
  ⟨h_s.pending, h_s.dram, fun w => Tbl.set_wf _ _ _ (h_s.regs w), h_s.edge, h_s.fused, h_s.owner, h_s.secret⟩

end Sys2Proof.Machine
end

