-- ==== Sys2Proof/Laws/Ops.lean ====
section
/-! SUPPORT. What the operations of Machine/Ops.lean keep (`Keeps` of Laws/Keeps.lean). -/

set_option linter.all false

namespace Sys2Proof.Machine

/-! Memory keeps its canonical form. -/

theorem dramStore_wf {m : List Host.Cell} {a : Nat} {b : BitVec 8} (h : Memory.wf m) : Memory.wf (dramStore m a b) :=
  Tbl.set_wf _ _ _ h

theorem dramStores_wf {bs : List (BitVec 8)} : ∀ {m : List Host.Cell} {a : Nat}, Memory.wf m → Memory.wf (dramStores m a bs) := by
  induction bs with
  | nil => intro m a h; exact h
  | cons b bs ih => intro m a h; exact ih (dramStore_wf h)

theorem storeAll_wf : ∀ {l : List Nat} {m : List Host.Cell} {bs : List (BitVec 8)}, Memory.wf m → Memory.wf (storeAll m l bs)
  | [], _, _, h => h
  | _ :: _, _, [], h => h
  | _ :: l, _, _ :: bs, h => storeAll_wf (l := l) (bs := bs) (dramStore_wf h)

/-- A write that is granted leaves a canonical memory. -/
theorem writeMem_wf {s : State} {p : Nat} {need : Need} {a : Nat} {bs : List (BitVec 8)} {m : List Host.Cell}
    (h : Memory.wf s.dram) (hm : writeMem s p need a bs = some m) : Memory.wf m := by
  unfold writeMem at hm
  split at hm
  · split at hm
    · cases hm; exact dramStores_wf h
    · cases hm
  · cases ht : translateAll (windowsOf s p) p need a bs.length with
    | none => simp [ht] at hm
    | some l =>
      simp only [ht, Option.map_some, Option.some.injEq] at hm
      exact hm ▸ storeAll_wf h

theorem Keeps.set_dram {base s : State} {m : List Host.Cell} (h : Keeps base s) (hm : Memory.wf s.dram → Memory.wf m) :
    Keeps base { s with dram := m } :=
  ⟨h.pending, fun w => hm (h.dram w), h.regs, h.edge, h.fused, h.owner, h.secret⟩

theorem State.pass_keeps {base s : State} {n : Nat} (h_s : Keeps base s) : Keeps base (s.pass n) :=
  ⟨h_s.pending, h_s.dram, h_s.regs, le_trans h_s.edge (Nat.le_add_right _ _), h_s.fused, h_s.owner, h_s.secret⟩

theorem State.runTo_keeps {base : State} {s : State} {t : Nat} (h_s : Keeps base s) :
    Keeps base (State.runTo s t) := by
  unfold State.runTo
  repeat' first
    | with_reducible assumption
    | with_reducible apply State.pass_keeps

theorem State.waitUntil_keeps {base : State} {s : State} {t16 : Nat} (h_s : Keeps base s) :
    Keeps base (State.waitUntil s t16) := by
  unfold State.waitUntil
  repeat' first
    | with_reducible assumption
    | with_reducible apply State.pass_keeps

theorem State.waitSlot_keeps {base : State} {s : State} {k : Nat} (h_s : Keeps base s) :
    Keeps base (State.waitSlot s k) := by
  unfold State.waitSlot
  repeat' first
    | with_reducible assumption
    | with_reducible apply State.pass_keeps

theorem State.draw_keeps {base : State} {s : State} (h_s : Keeps base s) :
    Keeps base (State.draw s).2 := by
  unfold State.draw
  repeat' first
    | with_reducible assumption
    | intro _
    | fail_if_no_progress (with_reducible refine Keeps.of_mk ?_ rfl rfl rfl rfl rfl rfl rfl)

theorem State.updPart_keeps {base : State} {s : State} {p : Nat} {f : PartRun → PartRun} (h_s : Keeps base s) :
    Keeps base (State.updPart s p f) := by
  unfold State.updPart
  repeat' first
    | with_reducible assumption
    | intro _
    | fail_if_no_progress (with_reducible refine Keeps.of_mk ?_ rfl rfl rfl rfl rfl rfl rfl)

theorem State.updCore_keeps {base : State} {s : State} {h : Nat} {f : CoreSt → CoreSt} (h_s : Keeps base s) :
    Keeps base (State.updCore s h f) := by
  unfold State.updCore
  repeat' first
    | with_reducible assumption
    | intro _
    | fail_if_no_progress (with_reducible refine Keeps.of_mk ?_ rfl rfl rfl rfl rfl rfl rfl)

theorem State.updRing_keeps {base : State} {s : State} {p : Nat} {r : Nat} {f : RingRun → RingRun} (h_s : Keeps base s) :
    Keeps base (State.updRing s p r f) := by
  unfold State.updRing
  repeat' first
    | with_reducible assumption
    | intro _
    | fail_if_no_progress (with_reducible refine Keeps.of_mk ?_ rfl rfl rfl rfl rfl rfl rfl)

theorem State.updFile_keeps {base : State} {s : State} {h : Nat} {f : Nat} {g : IFile → IFile} (h_s : Keeps base s) :
    Keeps base (State.updFile s h f g) := by
  unfold State.updFile
  repeat' first
    | with_reducible assumption
    | intro _
    | fail_if_no_progress (with_reducible refine Keeps.of_mk ?_ rfl rfl rfl rfl rfl rfl rfl)

theorem State.updTxn_keeps {base : State} {s : State} {p : Nat} {f : Txn → Txn} (h_s : Keeps base s) :
    Keeps base (State.updTxn s p f) := by
  unfold State.updTxn
  repeat' first
    | with_reducible assumption
    | intro _
    | fail_if_no_progress (with_reducible refine Keeps.of_mk ?_ rfl rfl rfl rfl rfl rfl rfl)

theorem State.winFault_keeps {base s : State} {p : Nat} (h_s : Keeps base s) : Keeps base (s.winFault p) :=
  State.updPart_keeps h_s

theorem State.dbErr_keeps {base : State} {s : State} {p : Nat} (h_s : Keeps base s) :
    Keeps base (State.dbErr s p) := by
  unfold State.dbErr
  repeat' first
    | with_reducible assumption
    | intro _
    | fail_if_no_progress (with_reducible refine Keeps.of_mk ?_ rfl rfl rfl rfl rfl rfl rfl)

theorem State.txIgn_keeps {base : State} {s : State} {p : Nat} (h_s : Keeps base s) :
    Keeps base (State.txIgn s p) := by
  unfold State.txIgn
  repeat' first
    | with_reducible assumption
    | with_reducible apply State.updTxn_keeps
    | intro _
    | fail_if_no_progress (with_reducible refine Keeps.of_mk ?_ rfl rfl rfl rfl rfl rfl rfl)

theorem devWrite_keeps {base s : State} {p a : Nat} {bs : List (BitVec 8)} (h_s : Keeps base s) : Keeps base (devWrite s p a bs) := by
  unfold devWrite
  split
  · rename_i m hm; exact h_s.set_dram (fun w => writeMem_wf w hm)
  · exact State.winFault_keeps h_s

theorem indexBlock_keeps {base : State} {s : State} {p : Nat} {r : Nat} (h_s : Keeps base s) :
    Keeps base (indexBlock s p r) := by
  unfold indexBlock
  repeat' first
    | with_reducible assumption
    | with_reducible apply devWrite_keeps
    | with_reducible refine ite_keeps ?_ ?_
    | split

theorem offerRecord_keeps {base : State} {s : State} {p : Nat} {r : Nat} {w0 : BitVec 32} {body : List (Nat × BitVec 32)} {st : Stamp} (h_s : Keeps base s) :
    Keeps base (offerRecord s p r w0 body st).1 := by
  unfold offerRecord
  repeat' first
    | with_reducible assumption
    | with_reducible apply State.updRing_keeps
    | with_reducible apply devWrite_keeps
    | with_reducible apply indexBlock_keeps
    | (intro x
       first
         | (have hx : Keeps base x := ?_; clear_value x; on_goal 2 => subst x)
         | clear_value x
         | subst x)
    | intro _
    | lift_lets -underBinder
    | with_reducible refine ite_keeps ?_ ?_
    | with_reducible refine ite_keeps_fst ?_ ?_
    | with_reducible refine ite_keeps_snd ?_ ?_
    | split
    | dsimp -zeta only
    | fail_if_no_progress (with_reducible refine Keeps.of_mk ?_ rfl rfl rfl rfl rfl rfl rfl)

theorem putWb_keeps {base : State} {s : State} {p : Nat} {r : Nat} {f : Flight} {b : Wb} (h_s : Keeps base s) :
    Keeps base (putWb s p r f b) := by
  unfold putWb
  repeat' first
    | with_reducible assumption
    | with_reducible apply State.updRing_keeps
    | with_reducible apply devWrite_keeps
    | intro _
    | fail_if_no_progress (with_reducible refine Keeps.of_mk ?_ rfl rfl rfl rfl rfl rfl rfl)

theorem putGroup_keeps {base : State} {s : State} {p : Nat} {r : Nat} {f : Flight} {b : Wb} (h_s : Keeps base s) :
    Keeps base (putGroup s p r f b) := by
  unfold putGroup
  repeat' first
    | with_reducible assumption
    | with_reducible apply State.updRing_keeps
    | with_reducible apply devWrite_keeps
    | with_reducible apply foldl_keeps
    | with_reducible apply foldl_keeps_fst
    | with_reducible apply foldl_keeps_snd
    | intro _
    | with_reducible refine ite_keeps ?_ ?_
    | split
    | fail_if_no_progress (with_reducible refine Keeps.of_mk ?_ rfl rfl rfl rfl rfl rfl rfl)

theorem drain_keeps {base : State} {a0 : Nat} {a1 : State} {a2 : Nat} {a3 : Nat} {a4 : List Flight} (h_a1 : Keeps base a1) :
    Keeps base (drain a0 a1 a2 a3 a4).1 := by
  unfold drain
  repeat' first
    | with_reducible assumption
    | with_reducible apply putWb_keeps
    | with_reducible apply drain_keeps
    | intro _
    | with_reducible refine ite_keeps ?_ ?_
    | split
    | fail_if_no_progress (with_reducible refine Keeps.of_mk ?_ rfl rfl rfl rfl rfl rfl rfl)

theorem settle_keeps {base : State} {s : State} {p : Nat} {r : Nat} {id : Nat} {b0 : Wb} (h_s : Keeps base s) :
    Keeps base (settle s p r id b0).1 := by
  unfold settle
  repeat' first
    | with_reducible assumption
    | with_reducible apply State.updRing_keeps
    | with_reducible apply putGroup_keeps
    | with_reducible apply drain_keeps
    | intro _
    | with_reducible refine ite_keeps ?_ ?_
    | split
    | fail_if_no_progress (with_reducible refine Keeps.of_mk ?_ rfl rfl rfl rfl rfl rfl rfl)

theorem fetchDesc_keeps {base s : State} {p r : Nat} {y_ : State × Flight} (heq : fetchDesc s p r = some y_) (h_s : Keeps base s) :
    Keeps base y_.1 := by
  unfold fetchDesc at heq
  dsimp only at heq
  split at heq
  · cases heq
    refine State.updRing_keeps ?_
    split
    · exact State.winFault_keeps h_s
    · exact h_s
  · cases heq

end Sys2Proof.Machine
end

