-- ==== Sys2Proof/Laws/SchedOps.lean ====
section
/-! SUPPORT. What the operations of Machine/SchedOps.lean keep (`Keeps` of Laws/Keeps.lean). -/

set_option linter.all false

namespace Sys2Proof.Machine

theorem State.updTask_keeps {base : State} {s : State} {h : Nat} {t : Nat} {f : Task → Task} (h_s : Keeps base s) :
    Keeps base (State.updTask s h t f) := by
  unfold State.updTask
  repeat' first
    | with_reducible assumption
    | intro _
    | fail_if_no_progress (with_reducible refine Keeps.of_mk ?_ rfl rfl rfl rfl rfl rfl rfl)

theorem State.updSched_keeps {base : State} {s : State} {h : Nat} {f : Sched → Sched} (h_s : Keeps base s) :
    Keeps base (State.updSched s h f) := by
  unfold State.updSched
  repeat' first
    | with_reducible assumption
    | intro _
    | fail_if_no_progress (with_reducible refine Keeps.of_mk ?_ rfl rfl rfl rfl rfl rfl rfl)

theorem startHistory_keeps {base : State} {s : State} {h : Nat} {t : Nat} (h_s : Keeps base s) :
    Keeps base (startHistory s h t) := by
  unfold startHistory
  repeat' first
    | with_reducible assumption
    | with_reducible apply State.updTask_keeps
    | intro _
    | with_reducible refine ite_keeps ?_ ?_
    | split
    | fail_if_no_progress (with_reducible refine Keeps.of_mk ?_ rfl rfl rfl rfl rfl rfl rfl)

theorem makeReady_keeps {base : State} {s : State} {h : Nat} {t : Nat} {r : Nat} (h_s : Keeps base s) :
    Keeps base (makeReady s h t r) := by
  unfold makeReady
  repeat' first
    | with_reducible assumption
    | with_reducible apply State.updTask_keeps
    | intro _
    | with_reducible refine ite_keeps ?_ ?_
    | split
    | fail_if_no_progress (with_reducible refine Keeps.of_mk ?_ rfl rfl rfl rfl rfl rfl rfl)

theorem releaseOrOverrun_keeps {base : State} {s : State} {h : Nat} {t : Nat} {r : Nat} (h_s : Keeps base s) :
    Keeps base (releaseOrOverrun s h t r) := by
  unfold releaseOrOverrun
  repeat' first
    | with_reducible assumption
    | with_reducible apply State.updTask_keeps
    | with_reducible apply makeReady_keeps
    | intro _
    | split
    | fail_if_no_progress (with_reducible refine Keeps.of_mk ?_ rfl rfl rfl rfl rfl rfl rfl)

theorem postRelease_keeps {base : State} {s : State} {h : Nat} {t : Nat} (h_s : Keeps base s) :
    Keeps base (postRelease s h t) := by
  unfold postRelease
  repeat' first
    | with_reducible assumption
    | with_reducible apply State.updTask_keeps
    | with_reducible apply makeReady_keeps
    | intro _
    | with_reducible refine ite_keeps ?_ ?_
    | split
    | fail_if_no_progress (with_reducible refine Keeps.of_mk ?_ rfl rfl rfl rfl rfl rfl rfl)

theorem tickEntry_keeps {base : State} {h : Nat} {m : Nat} {s : State} {e : Nat × Nat} (h_s : Keeps base s) :
    Keeps base (tickEntry h m s e) := by
  unfold tickEntry
  repeat' first
    | with_reducible assumption
    | with_reducible apply State.updTask_keeps
    | with_reducible apply makeReady_keeps
    | with_reducible apply releaseOrOverrun_keeps
    | intro _
    | with_reducible refine ite_keeps ?_ ?_
    | split
    | fail_if_no_progress (with_reducible refine Keeps.of_mk ?_ rfl rfl rfl rfl rfl rfl rfl)

theorem tickDue_keeps {base : State} {h : Nat} {s : State} (h_s : Keeps base s) :
    Keeps base (tickDue h s) := by
  unfold tickDue
  repeat' first
    | with_reducible assumption
    | with_reducible apply tickEntry_keeps
    | with_reducible apply foldl_keeps
    | with_reducible apply foldl_keeps_fst
    | with_reducible apply foldl_keeps_snd
    | intro _

theorem queuePost_keeps {base : State} {s : State} {h : Nat} {q : Post} {permitted : Bool} (h_s : Keeps base s) :
    Keeps base (queuePost s h q permitted).2 := by
  unfold queuePost
  repeat' first
    | with_reducible assumption
    | with_reducible apply State.updSched_keeps
    | with_reducible apply postRelease_keeps
    | intro _
    | with_reducible refine ite_keeps ?_ ?_
    | split
    | fail_if_no_progress (with_reducible refine Keeps.of_mk ?_ rfl rfl rfl rfl rfl rfl rfl)

theorem stopRunning_keeps {base : State} {s : State} {h : Nat} {dest : TaskSt} (h_s : Keeps base s) :
    Keeps base (stopRunning s h dest) := by
  unfold stopRunning
  repeat' first
    | with_reducible assumption
    | with_reducible apply State.updTask_keeps
    | with_reducible apply State.updSched_keeps
    | intro _
    | split
    | fail_if_no_progress (with_reducible refine Keeps.of_mk ?_ rfl rfl rfl rfl rfl rfl rfl)

theorem resetSched_keeps {base : State} {s : State} {h : Nat} (h_s : Keeps base s) :
    Keeps base (resetSched s h) := by
  unfold resetSched
  repeat' first
    | with_reducible assumption
    | with_reducible apply State.updSched_keeps
    | with_reducible apply startHistory_keeps
    | with_reducible apply foldl_keeps
    | with_reducible apply foldl_keeps_fst
    | with_reducible apply foldl_keeps_snd
    | intro _
    | fail_if_no_progress (with_reducible refine Keeps.of_mk ?_ rfl rfl rfl rfl rfl rfl rfl)

end Sys2Proof.Machine
end

