-- ==== Sys2Proof/Laws/Irq.lean ====
section
/-! SUPPORT. What the operations of Machine/Irq.lean keep (`Keeps` of Laws/Keeps.lean). -/

set_option linter.all false

namespace Sys2Proof.Machine

theorem irqStamp_keeps {base : State} {s : State} {h : Nat} {f : Nat} {id : Nat} {src : BitVec 32} (h_s : Keeps base s) :
    Keeps base (irqStamp s h f id src) := by
  unfold irqStamp
  repeat' first
    | with_reducible assumption
    | with_reducible apply State.dbErr_keeps
    | with_reducible apply offerRecord_keeps
    | (intro x
       first
         | (have hx : Keeps base x := ?_; clear_value x; on_goal 2 => subst x)
         | clear_value x
         | subst x)
    | intro _
    | lift_lets -underBinder
    | split
    | dsimp -zeta only
    | fail_if_no_progress (with_reducible refine Keeps.of_mk ?_ rfl rfl rfl rfl rfl rfl rfl)

theorem assertIrq_keeps {base : State} {a0 : Nat} {a1 : State} {a2 : Nat} {a3 : Nat} {a4 : Nat} {a5 : BitVec 32} (h_a1 : Keeps base a1) :
    Keeps base (assertIrq a0 a1 a2 a3 a4 a5) := by
  unfold assertIrq
  repeat' first
    | with_reducible assumption
    | with_reducible apply State.updFile_keeps
    | with_reducible apply queuePost_keeps
    | with_reducible apply irqStamp_keeps
    | with_reducible apply assertIrq_keeps
    | intro _
    | with_reducible refine ite_keeps ?_ ?_
    | split
    | fail_if_no_progress (with_reducible refine Keeps.of_mk ?_ rfl rfl rfl rfl rfl rfl rfl)

theorem devIrq_keeps {base : State} {s : State} {p : Nat} {id : Nat} {block : Nat} {unit : Nat} (h_s : Keeps base s) :
    Keeps base (devIrq s p id block unit) := by
  unfold devIrq
  repeat' first
    | with_reducible assumption
    | with_reducible apply assertIrq_keeps
    | with_reducible refine ite_keeps ?_ ?_
    | split

theorem dispatchIf_keeps {base : State} {before : Option Nat} {s : State} {h : Nat} (h_s : Keeps base s) :
    Keeps base (dispatchIf before s h) := by
  unfold dispatchIf
  repeat' first
    | with_reducible assumption
    | with_reducible apply assertIrq_keeps
    | with_reducible refine ite_keeps ?_ ?_
    | split

theorem withDispatch_keeps {base : State} {s : State} {h : Nat} {f : State → State} (h_s : Keeps base s) (h_f : ∀ y0, Keeps base y0 → Keeps base (f y0)) :
    Keeps base (withDispatch s h f) := by
  unfold withDispatch
  repeat' first
    | with_reducible assumption
    | with_reducible apply dispatchIf_keeps
    | apply h_f
    | intro _

theorem ringIrq_keeps {base : State} {s : State} {p : Nat} {r : Nat} {flagged : Bool} (h_s : Keeps base s) :
    Keeps base (ringIrq s p r flagged) := by
  unfold ringIrq
  repeat' first
    | with_reducible assumption
    | with_reducible apply devIrq_keeps
    | with_reducible refine ite_keeps ?_ ?_
    | split

theorem recordTo_keeps {base : State} {s : State} {p : Nat} {r : Nat} {w0 : BitVec 32} {body : List (Nat × BitVec 32)} {st : Stamp} (h_s : Keeps base s) :
    Keeps base (recordTo s p r w0 body st) := by
  unfold recordTo
  repeat' first
    | with_reducible assumption
    | with_reducible apply offerRecord_keeps
    | with_reducible apply ringIrq_keeps
    | with_reducible refine ite_keeps ?_ ?_
    | split

theorem record_keeps {base : State} {s : State} {p : Nat} {type : Nat} {w0 : BitVec 32} {body : List (Nat × BitVec 32)} {st : Stamp} (h_s : Keeps base s) :
    Keeps base (record s p type w0 body st) := by
  unfold record
  repeat' first
    | with_reducible assumption
    | with_reducible apply State.dbErr_keeps
    | with_reducible apply recordTo_keeps
    | intro _
    | split
    | fail_if_no_progress (with_reducible refine Keeps.of_mk ?_ rfl rfl rfl rfl rfl rfl rfl)

theorem recordAll_keeps {base : State} {s : State} {w0 : BitVec 32} {body : List (Nat × BitVec 32)} {st : Stamp} (h_s : Keeps base s) :
    Keeps base (recordAll s w0 body st) := by
  unfold recordAll
  repeat' first
    | with_reducible assumption
    | with_reducible apply State.dbErr_keeps
    | with_reducible apply recordTo_keeps
    | with_reducible apply foldl_keeps
    | with_reducible apply foldl_keeps_fst
    | with_reducible apply foldl_keeps_snd
    | intro _
    | with_reducible refine ite_keeps ?_ ?_
    | split

theorem complete_keeps {base : State} {s : State} {p : Nat} {r : Nat} {id : Nat} {b : Wb} (h_s : Keeps base s) :
    Keeps base (complete s p r id b) := by
  unfold complete
  repeat' first
    | with_reducible assumption
    | with_reducible apply indexBlock_keeps
    | with_reducible apply settle_keeps
    | with_reducible apply ringIrq_keeps
    | intro _
    | with_reducible refine ite_keeps ?_ ?_
    | split

theorem finish_keeps {base : State} {s : State} {p : Nat} {r : Nat} {id : Nat} {status : Nat} (h_s : Keeps base s) :
    Keeps base (finish s p r id status) := by
  unfold finish
  repeat' first
    | with_reducible assumption
    | with_reducible apply complete_keeps

theorem finishIgn_keeps {base : State} {s : State} {p : Nat} {r : Nat} {id : Nat} (h_s : Keeps base s) :
    Keeps base (finishIgn s p r id) := by
  unfold finishIgn
  repeat' first
    | with_reducible assumption
    | with_reducible apply complete_keeps

theorem finishKey_keeps {base : State} {s : State} {k : Nat} {id : Nat} {status : Nat} (h_s : Keeps base s) :
    Keeps base (finishKey s k id status) := by
  unfold finishKey
  repeat' first
    | with_reducible assumption
    | with_reducible apply finish_keeps

theorem completeKey_keeps {base : State} {s : State} {k : Nat} {id : Nat} {b : Wb} (h_s : Keeps base s) :
    Keeps base (completeKey s k id b) := by
  unfold completeKey
  repeat' first
    | with_reducible assumption
    | with_reducible apply complete_keeps

theorem completeWon_keeps {base : State} {s : State} {k : Nat} {id : Nat} {b : Wb} (h_s : Keeps base s) :
    Keeps base (completeWon s k id b) := by
  unfold completeWon
  repeat' first
    | with_reducible assumption
    | with_reducible apply State.updRing_keeps
    | with_reducible apply completeKey_keeps
    | intro _
    | with_reducible refine ite_keeps ?_ ?_
    | split
    | fail_if_no_progress (with_reducible refine Keeps.of_mk ?_ rfl rfl rfl rfl rfl rfl rfl)

theorem withDesc_keeps {base : State} {s : State} {p : Nat} {r : Nat} {mine : RingCfg → List (BitVec 32) → Bool} {act : State → Flight → State} (h_s : Keeps base s) (h_act : ∀ y0 y1, Keeps base y0 → Keeps base (act y0 y1)) :
    Keeps base (withDesc s p r mine act) := by
  unfold withDesc
  repeat' first
    | with_reducible assumption
    | (refine fetchDesc_keeps (by with_reducible assumption) ?_)
    | with_reducible apply finish_keeps
    | apply h_act
    | intro _
    | with_reducible refine ite_keeps ?_ ?_
    | split
    | fail_if_no_progress (with_reducible refine Keeps.of_mk ?_ rfl rfl rfl rfl rfl rfl rfl)

theorem nopAct_keeps {base : State} {p : Nat} {r : Nat} {s : State} {f : Flight} (h_s : Keeps base s) :
    Keeps base (nopAct p r s f) := by
  unfold nopAct
  repeat' first
    | with_reducible assumption
    | with_reducible apply finish_keeps
    | with_reducible refine ite_keeps ?_ ?_
    | split

theorem fenceAct_keeps {base : State} {p : Nat} {r : Nat} {s : State} {f : Flight} (h_s : Keeps base s) :
    Keeps base (fenceAct p r s f) := by
  unfold fenceAct
  repeat' first
    | with_reducible assumption
    | with_reducible apply State.updRing_keeps
    | with_reducible apply indexBlock_keeps
    | with_reducible apply drain_keeps
    | with_reducible apply ringIrq_keeps
    | with_reducible apply finish_keeps
    | intro _
    | with_reducible refine ite_keeps ?_ ?_
    | split
    | fail_if_no_progress (with_reducible refine Keeps.of_mk ?_ rfl rfl rfl rfl rfl rfl rfl)

end Sys2Proof.Machine
end

