-- ==== Sys2Proof/Laws/AcqOps.lean ====
section
/-! SUPPORT. What the operations of Machine/AcqOps.lean keep (`Keeps` of Laws/Keeps.lean). -/

set_option linter.all false

namespace Sys2Proof.Machine

theorem State.updStream_keeps {base : State} {s : State} {e : Nat} {f : StreamRt → StreamRt} (h_s : Keeps base s) :
    Keeps base (State.updStream s e f) := by
  unfold State.updStream
  repeat' first
    | with_reducible assumption
    | intro _
    | fail_if_no_progress (with_reducible refine Keeps.of_mk ?_ rfl rfl rfl rfl rfl rfl rfl)

theorem igCountN_keeps {base : State} {s : State} {e : Nat} {i : Nat} {n : Nat} (h_s : Keeps base s) :
    Keeps base (igCountN s e i n) := by
  unfold igCountN
  repeat' first
    | with_reducible assumption
    | intro _
    | fail_if_no_progress (with_reducible refine Keeps.of_mk ?_ rfl rfl rfl rfl rfl rfl rfl)

theorem igCount_keeps {base : State} {s : State} {e : Nat} {i : Nat} (h_s : Keeps base s) :
    Keeps base (igCount s e i) := by
  unfold igCount
  repeat' first
    | with_reducible assumption
    | with_reducible apply igCountN_keeps

theorem igReason_keeps {base : State} {s : State} {e : Nat} {reason : Nat} (h_s : Keeps base s) :
    Keeps base (igReason s e reason) := by
  unfold igReason
  repeat' first
    | with_reducible assumption
    | intro _
    | fail_if_no_progress (with_reducible refine Keeps.of_mk ?_ rfl rfl rfl rfl rfl rfl rfl)

theorem igInconsistent_keeps {base : State} {s : State} {e : Nat} (h_s : Keeps base s) :
    Keeps base (igInconsistent s e) := by
  unfold igInconsistent
  repeat' first
    | with_reducible assumption
    | intro _
    | with_reducible refine ite_keeps ?_ ?_
    | split
    | fail_if_no_progress (with_reducible refine Keeps.of_mk ?_ rfl rfl rfl rfl rfl rfl rfl)

theorem igOther_keeps {base : State} {s : State} {off : Nat} (h_s : Keeps base s) :
    Keeps base (igOther s off) := by
  unfold igOther
  repeat' first
    | with_reducible assumption
    | intro _
    | fail_if_no_progress (with_reducible refine Keeps.of_mk ?_ rfl rfl rfl rfl rfl rfl rfl)

theorem winIgn_keeps {base : State} {s : State} {c : Nat} (h_s : Keeps base s) :
    Keeps base (winIgn s c) := by
  unfold winIgn
  repeat' first
    | with_reducible assumption
    | intro _
    | fail_if_no_progress (with_reducible refine Keeps.of_mk ?_ rfl rfl rfl rfl rfl rfl rfl)

theorem streamTo_keeps {base : State} {s : State} {e : Nat} {new : StreamSt} {stamp : Stamp} (h_s : Keeps base s) :
    Keeps base (streamTo s e new stamp) := by
  unfold streamTo
  repeat' first
    | with_reducible assumption
    | with_reducible apply record_keeps
    | with_reducible apply State.updStream_keeps
    | intro _
    | with_reducible refine ite_keeps ?_ ?_
    | split
    | fail_if_no_progress (with_reducible refine Keeps.of_mk ?_ rfl rfl rfl rfl rfl rfl rfl)

theorem State.updChain_keeps {base : State} {s : State} {c : Nat} {ce : Nat} {f : ChainRt → ChainRt} (h_s : Keeps base s) :
    Keeps base (State.updChain s c ce f) := by
  unfold State.updChain
  repeat' first
    | with_reducible assumption
    | intro _
    | fail_if_no_progress (with_reducible refine Keeps.of_mk ?_ rfl rfl rfl rfl rfl rfl rfl)

end Sys2Proof.Machine
end

