-- ==== Sys2Proof/Laws/TxnOps.lean ====
section
/-! SUPPORT. What the operations of Machine/TxnOps.lean keep (`Keeps` of Laws/Keeps.lean). -/

set_option linter.all false

namespace Sys2Proof.Machine

theorem stageKey_keeps {base : State} {p : Nat} {key : Nat} {v : BitVec 32} {s : State} (h_s : Keeps base s) :
    Keeps base (stageKey p key v s) := by
  unfold stageKey
  repeat' first
    | with_reducible assumption
    | with_reducible apply State.updTxn_keeps
    | intro _
    | with_reducible refine ite_keeps ?_ ?_
    | split
    | fail_if_no_progress (with_reducible refine Keeps.of_mk ?_ rfl rfl rfl rfl rfl rfl rfl)

theorem storeT_keeps {base : State} {p : Nat} {key : Nat} {v : BitVec 32} {s : State} (h_s : Keeps base s) :
    Keeps base (storeT p key v s) := by
  unfold storeT
  repeat' first
    | with_reducible assumption
    | with_reducible apply State.txIgn_keeps
    | with_reducible apply stageKey_keeps
    | with_reducible refine ite_keeps ?_ ?_
    | split

theorem dropTxn_keeps {base : State} {p : Nat} {s : State} (h_s : Keeps base s) :
    Keeps base (dropTxn p s) := by
  unfold dropTxn
  repeat' first
    | with_reducible assumption
    | with_reducible apply State.updTxn_keeps
    | intro _
    | fail_if_no_progress (with_reducible refine Keeps.of_mk ?_ rfl rfl rfl rfl rfl rfl rfl)

theorem openTxn_keeps {base : State} {p : Nat} {s : State} (h_s : Keeps base s) :
    Keeps base (openTxn p s) := by
  unfold openTxn
  repeat' first
    | with_reducible assumption
    | with_reducible apply State.updTxn_keeps
    | intro _
    | fail_if_no_progress (with_reducible refine Keeps.of_mk ?_ rfl rfl rfl rfl rfl rfl rfl)

theorem txnBeginAct_keeps {base : State} {standby : Bool} {p : Nat} {r : Nat} {s : State} {f : Flight} (h_s : Keeps base s) :
    Keeps base (txnBeginAct standby p r s f) := by
  unfold txnBeginAct
  repeat' first
    | with_reducible assumption
    | with_reducible apply complete_keeps
    | with_reducible apply finish_keeps
    | with_reducible apply openTxn_keeps
    | with_reducible refine ite_keeps ?_ ?_
    | split

theorem finishTxn_keeps {base : State} {s : State} {k : Nat} {id : Nat} {status : Nat} {txid : BitVec 16} (h_s : Keeps base s) :
    Keeps base (finishTxn s k id status txid) := by
  unfold finishTxn
  repeat' first
    | with_reducible assumption
    | with_reducible apply completeKey_keeps

theorem txnCommitAct_keeps {base : State} {standby : Bool} {p : Nat} {r : Nat} {s : State} {f : Flight} (h_s : Keeps base s) :
    Keeps base (txnCommitAct standby p r s f) := by
  unfold txnCommitAct
  repeat' first
    | with_reducible assumption
    | with_reducible apply State.updTxn_keeps
    | with_reducible apply finish_keeps
    | with_reducible apply dropTxn_keeps
    | with_reducible apply finishTxn_keeps
    | intro _
    | with_reducible refine ite_keeps ?_ ?_
    | split
    | fail_if_no_progress (with_reducible refine Keeps.of_mk ?_ rfl rfl rfl rfl rfl rfl rfl)

theorem rollTxn_keeps {base : State} {p : Nat} {s : State} (h_s : Keeps base s) :
    Keeps base (rollTxn p s) := by
  unfold rollTxn
  repeat' first
    | with_reducible assumption
    | with_reducible apply dropTxn_keeps
    | with_reducible apply finishTxn_keeps
    | (intro x
       first
         | (have hx : Keeps base x := ?_; clear_value x; on_goal 2 => subst x)
         | clear_value x
         | subst x)
    | intro _
    | lift_lets -underBinder
    | split
    | dsimp -zeta only
    | fail_if_no_progress (with_reducible refine Keeps.of_mk ?_ rfl rfl rfl rfl rfl rfl rfl)

theorem txnRollbackAct_keeps {base : State} {standby : Bool} {p : Nat} {r : Nat} {s : State} {f : Flight} (h_s : Keeps base s) :
    Keeps base (txnRollbackAct standby p r s f) := by
  unfold txnRollbackAct
  repeat' first
    | with_reducible assumption
    | with_reducible apply finish_keeps
    | with_reducible apply finishIgn_keeps
    | with_reducible apply rollTxn_keeps
    | with_reducible refine ite_keeps ?_ ?_
    | split

end Sys2Proof.Machine
end

