-- ==== Sys2Proof/Laws/Tally.lean ====
section
/-! SUPPORT. What the operations of Machine/Tally.lean keep (`Keeps` of Laws/Keeps.lean). -/

set_option linter.all false

namespace Sys2Proof.Machine

theorem programOpen_keeps {base : State} {s : State} (h_s : Keeps base s) :
    Keeps base (programOpen s) := by
  unfold programOpen
  repeat' first
    | with_reducible assumption
    | intro _
    | with_reducible refine ite_keeps ?_ ?_
    | split
    | fail_if_no_progress (with_reducible refine Keeps.of_mk ?_ rfl rfl rfl rfl rfl rfl rfl)

theorem tallyEvent_keeps {base : State} {s : State} {type : Nat} {detail : BitVec 32} (h_s : Keeps base s) :
    Keeps base (tallyEvent s type detail) := by
  unfold tallyEvent
  repeat' first
    | with_reducible assumption
    | with_reducible apply programOpen_keeps
    | intro _
    | with_reducible refine ite_keeps ?_ ?_
    | split
    | fail_if_no_progress (with_reducible refine Keeps.of_mk ?_ rfl rfl rfl rfl rfl rfl rfl)

theorem clearEnd_keeps {base : State} {s : State} (h_s : Keeps base s) :
    Keeps base (clearEnd s) := by
  unfold clearEnd
  repeat' first
    | with_reducible assumption
    | with_reducible apply tallyEvent_keeps
    | with_reducible apply foldl_keeps
    | with_reducible apply foldl_keeps_fst
    | with_reducible apply foldl_keeps_snd
    | intro _
    | with_reducible refine ite_keeps ?_ ?_
    | split
    | fail_if_no_progress (with_reducible refine Keeps.of_mk ?_ rfl rfl rfl rfl rfl rfl rfl)

theorem windowRead_keeps {base : State} {p : Nat} {o : Nat} {n : Nat} {s : State} (h_s : Keeps base s) :
    Keeps base (windowRead p o n s).2 := by
  unfold windowRead
  repeat' first
    | with_reducible assumption
    | with_reducible apply State.setCfg_keeps
    | (intro x
       first
         | (have hx : Keeps base x := ?_; clear_value x; on_goal 2 => subst x)
         | clear_value x
         | subst x)
    | intro _
    | lift_lets -underBinder
    | with_reducible refine ite_keeps ?_ ?_
    | with_reducible refine ite_keeps_fst ?_ ?_
    | with_reducible refine ite_keeps_snd ?_ ?_
    | split
    | dsimp -zeta only

theorem hoursAdvance_keeps {base : State} {s : State} (h_s : Keeps base s) :
    Keeps base (hoursAdvance s) := by
  unfold hoursAdvance
  repeat' first
    | with_reducible assumption
    | with_reducible apply State.runTo_keeps
    | intro _
    | with_reducible refine ite_keeps ?_ ?_
    | split
    | fail_if_no_progress (with_reducible refine Keeps.of_mk ?_ rfl rfl rfl rfl rfl rfl rfl)

end Sys2Proof.Machine
end

