-- ==== Sys2Proof/Laws/Orchard.lean ====
section
/-! SUPPORT. What the operations of Machine/Orchard.lean keep (`Keeps` of Laws/Keeps.lean). -/

set_option linter.all false

namespace Sys2Proof.Machine

/-- What the fuses hold: they only gain. -/
theorem Keeps.set_fuses {base s : State} {k : OkState} {d : Nat} (h : Keeps base s) (h1 : s.ok.fused ≤ k.fused)
    (h2 : ∀ x, s.ok.ownerHash = some x → k.ownerHash = some x) (h3 : ∀ x, s.ok.secret = some x → k.secret = some x) :
    Keeps base { s with ok := k, draws := d } :=
  ⟨h.pending, h.dram, h.regs, h.edge, le_trans h.fused h1, fun z w => h2 z (h.owner z w), fun z w => h3 z (h.secret z w)⟩

theorem State.setNode_keeps {base : State} {s : State} {n : Nat} {x : Node} (h_s : Keeps base s) :
    Keeps base (State.setNode s n x) := by
  unfold State.setNode
  repeat' first
    | with_reducible assumption
    | intro _
    | fail_if_no_progress (with_reducible refine Keeps.of_mk ?_ rfl rfl rfl rfl rfl rfl rfl)

theorem takeUse_keeps {base : State} {s : State} {n : Nat} (h_s : Keeps base s) :
    Keeps base (takeUse s n) := by
  unfold takeUse
  repeat' first
    | with_reducible assumption
    | with_reducible apply State.setNode_keeps
    | intro _
    | fail_if_no_progress (with_reducible refine Keeps.of_mk ?_ rfl rfl rfl rfl rfl rfl rfl)

theorem invalidate_keeps {base : State} {s : State} {n : Nat} (h_s : Keeps base s) :
    Keeps base (invalidate s n) := by
  unfold invalidate
  repeat' first
    | with_reducible assumption
    | with_reducible apply State.setNode_keeps
    | with_reducible apply foldl_keeps
    | with_reducible apply foldl_keeps_fst
    | with_reducible apply foldl_keeps_snd
    | intro _
    | with_reducible refine ite_keeps ?_ ?_
    | split
    | fail_if_no_progress (with_reducible refine Keeps.of_mk ?_ rfl rfl rfl rfl rfl rfl rfl)

theorem freeDying_keeps {base : State} {s : State} {ns : List Nat} (h_s : Keeps base s) :
    Keeps base (freeDying s ns) := by
  unfold freeDying
  repeat' first
    | with_reducible assumption
    | with_reducible apply State.setNode_keeps
    | with_reducible apply foldl_keeps
    | with_reducible apply foldl_keeps_fst
    | with_reducible apply foldl_keeps_snd
    | intro _
    | with_reducible refine ite_keeps ?_ ?_
    | split

theorem pendKey_keeps {base : State} {s : State} {p : Nat} {r : Nat} {id : Nat} {node : Nat} {k : KeyPendKind} (h_s : Keeps base s) :
    Keeps base (pendKey s p r id node k) := by
  unfold pendKey
  repeat' first
    | with_reducible assumption
    | intro _
    | fail_if_no_progress (with_reducible refine Keeps.of_mk ?_ rfl rfl rfl rfl rfl rfl rfl)

theorem keyDeriveAct_keeps {base : State} {standby : Bool} {p : Nat} {r : Nat} {s : State} {f : Flight} (h_s : Keeps base s) :
    Keeps base (keyDeriveAct standby p r s f) := by
  unfold keyDeriveAct
  repeat' first
    | with_reducible assumption
    | with_reducible apply finish_keeps
    | with_reducible apply takeUse_keeps
    | with_reducible apply pendKey_keeps
    | with_reducible refine ite_keeps ?_ ?_
    | split

theorem keyImportAct_keeps {base : State} {standby : Bool} {pos : Nat} {p : Nat} {r : Nat} {s : State} {f : Flight} (h_s : Keeps base s) :
    Keeps base (keyImportAct standby pos p r s f) := by
  unfold keyImportAct
  repeat' first
    | with_reducible assumption
    | with_reducible apply State.winFault_keeps
    | with_reducible apply finish_keeps
    | with_reducible apply takeUse_keeps
    | with_reducible apply pendKey_keeps
    | with_reducible refine ite_keeps ?_ ?_
    | split

theorem keyRevokeAct_keeps {base : State} {standby : Bool} {p : Nat} {r : Nat} {s : State} {f : Flight} (h_s : Keeps base s) :
    Keeps base (keyRevokeAct standby p r s f) := by
  unfold keyRevokeAct
  repeat' first
    | with_reducible assumption
    | with_reducible apply finish_keeps
    | with_reducible apply pendKey_keeps
    | with_reducible refine ite_keeps ?_ ?_
    | split

theorem makeNode_keeps {base : State} {s : State} {n : Nat} {par : Nat} {attr : BitVec 32} {uses : Nat} {owner : Nat} {imp : Bool} {key : Bytes} (h_s : Keeps base s) :
    Keeps base (makeNode s n par attr uses owner imp key) := by
  unfold makeNode
  repeat' first
    | with_reducible assumption
    | with_reducible apply State.setNode_keeps
    | with_reducible refine ite_keeps ?_ ?_
    | split

theorem keyEffect_keeps {base : State} {x : KeyPend} {s : State} (h_s : Keeps base s) :
    Keeps base (keyEffect x s).1 := by
  unfold keyEffect
  repeat' first
    | with_reducible assumption
    | with_reducible apply invalidate_keeps
    | with_reducible apply makeNode_keeps
    | intro _
    | with_reducible refine ite_keeps ?_ ?_
    | split
    | fail_if_no_progress (with_reducible refine Keeps.of_mk ?_ rfl rfl rfl rfl rfl rfl rfl)

theorem applyKey_keeps {base : State} {x : KeyPend} {s : State} (h_s : Keeps base s) :
    Keeps base (applyKey x s) := by
  unfold applyKey
  repeat' first
    | with_reducible assumption
    | with_reducible apply finishKey_keeps
    | with_reducible apply keyEffect_keeps
    | intro _
    | fail_if_no_progress (with_reducible refine Keeps.of_mk ?_ rfl rfl rfl rfl rfl rfl rfl)

theorem keyApplication_keeps {base : State} {s : State} (h_s : Keeps base s) :
    Keeps base (keyApplication s) := by
  unfold keyApplication
  repeat' first
    | with_reducible assumption
    | with_reducible apply State.runTo_keeps
    | with_reducible apply applyKey_keeps
    | intro _
    | split
    | fail_if_no_progress (with_reducible refine Keeps.of_mk ?_ rfl rfl rfl rfl rfl rfl rfl)

theorem startUse_keeps {base : State} {s : State} {p : Nat} {r : Nat} {id : Nat} {nodes : List Nat} {key : Bytes} {k : UseKind} (h_s : Keeps base s) :
    Keeps base (startUse s p r id nodes key k) := by
  unfold startUse
  repeat' first
    | with_reducible assumption
    | with_reducible apply takeUse_keeps
    | with_reducible apply foldl_keeps
    | with_reducible apply foldl_keeps_fst
    | with_reducible apply foldl_keeps_snd
    | intro _
    | fail_if_no_progress (with_reducible refine Keeps.of_mk ?_ rfl rfl rfl rfl rfl rfl rfl)

theorem keyMacAct_keeps {base : State} {p : Nat} {r : Nat} {s : State} {f : Flight} (h_s : Keeps base s) :
    Keeps base (keyMacAct p r s f) := by
  unfold keyMacAct
  repeat' first
    | with_reducible assumption
    | with_reducible apply State.winFault_keeps
    | with_reducible apply finish_keeps
    | with_reducible apply startUse_keeps
    | with_reducible refine ite_keeps ?_ ?_
    | split

theorem keyAeadAct_keeps {base : State} {p : Nat} {r : Nat} {s : State} {f : Flight} (h_s : Keeps base s) :
    Keeps base (keyAeadAct p r s f) := by
  unfold keyAeadAct
  repeat' first
    | with_reducible assumption
    | with_reducible apply State.winFault_keeps
    | with_reducible apply devWrite_keeps
    | with_reducible apply finish_keeps
    | with_reducible apply startUse_keeps
    | with_reducible refine ite_keeps ?_ ?_
    | split

theorem keySignAct_keeps {base : State} {p : Nat} {r : Nat} {s : State} {f : Flight} (h_s : Keeps base s) :
    Keeps base (keySignAct p r s f) := by
  unfold keySignAct
  repeat' first
    | with_reducible assumption
    | with_reducible apply State.winFault_keeps
    | with_reducible apply devWrite_keeps
    | with_reducible apply finish_keeps
    | with_reducible apply startUse_keeps
    | with_reducible refine ite_keeps ?_ ?_
    | split

theorem keyPubAct_keeps {base : State} {p : Nat} {r : Nat} {s : State} {f : Flight} (h_s : Keeps base s) :
    Keeps base (keyPubAct p r s f) := by
  unfold keyPubAct
  repeat' first
    | with_reducible assumption
    | with_reducible apply State.winFault_keeps
    | with_reducible apply devWrite_keeps
    | with_reducible apply finish_keeps
    | with_reducible apply takeUse_keeps
    | with_reducible refine ite_keeps ?_ ?_
    | split

theorem keyExportAct_keeps {base : State} {p : Nat} {r : Nat} {s : State} {f : Flight} (h_s : Keeps base s) :
    Keeps base (keyExportAct p r s f) := by
  unfold keyExportAct
  repeat' first
    | with_reducible assumption
    | with_reducible apply State.winFault_keeps
    | with_reducible apply devWrite_keeps
    | with_reducible apply finish_keeps
    | with_reducible apply startUse_keeps
    | intro _
    | with_reducible refine ite_keeps ?_ ?_
    | split

theorem keyInfoAct_keeps {base : State} {p : Nat} {r : Nat} {s : State} {f : Flight} (h_s : Keeps base s) :
    Keeps base (keyInfoAct p r s f) := by
  unfold keyInfoAct
  repeat' first
    | with_reducible assumption
    | with_reducible apply complete_keeps
    | with_reducible apply finish_keeps
    | with_reducible refine ite_keeps ?_ ?_
    | split

theorem useOutput_keeps {base : State} {u : KeyUse} {s : State} (h_s : Keeps base s) :
    Keeps base (useOutput u s).1 := by
  unfold useOutput
  repeat' first
    | with_reducible assumption
    | with_reducible apply devWrite_keeps
    | intro _
    | with_reducible refine ite_keeps ?_ ?_
    | split
    | fail_if_no_progress (with_reducible refine Keeps.of_mk ?_ rfl rfl rfl rfl rfl rfl rfl)

theorem keyUseComplete_keeps {base : State} {id : Nat} {s : State} (h_s : Keeps base s) :
    Keeps base (keyUseComplete id s) := by
  unfold keyUseComplete
  repeat' first
    | with_reducible assumption
    | with_reducible apply completeKey_keeps
    | with_reducible apply freeDying_keeps
    | with_reducible apply useOutput_keeps
    | intro _
    | split
    | fail_if_no_progress (with_reducible refine Keeps.of_mk ?_ rfl rfl rfl rfl rfl rfl rfl)

theorem newNonce_keeps {base : State} {s : State} (h_s : Keeps base s) :
    Keeps base (newNonce s) := by
  unfold newNonce
  repeat' first
    | with_reducible assumption
    | intro _
    | fail_if_no_progress (with_reducible refine Keeps.of_mk ?_ rfl rfl rfl rfl rfl rfl rfl)

theorem lcRequestAct_keeps {base : State} {p : Nat} {r : Nat} {s : State} {f : Flight} (h_s : Keeps base s) :
    Keeps base (lcRequestAct p r s f) := by
  unfold lcRequestAct
  repeat' first
    | with_reducible assumption
    | with_reducible apply State.winFault_keeps
    | with_reducible apply finish_keeps
    | with_reducible apply newNonce_keeps
    | intro _
    | with_reducible refine ite_keeps ?_ ?_
    | split
    | fail_if_no_progress (with_reducible refine Keeps.of_mk ?_ rfl rfl rfl rfl rfl rfl rfl)

theorem fuseComplete_keeps {base s : State} (h_s : Keeps base s) : Keeps base (fuseComplete s) := by
  unfold fuseComplete
  split
  · exact h_s
  · rename_i q rest _
    extract_lets old ok1 s1 s2 z zk s3
    have h1 : Keeps base s1 := by
      refine Keeps.set_fuses h_s ?_ ?_ ?_
      · dsimp only
        split
        · exact le_refl _
        · exact le_max_left _ _
      · intro x hx
        simp only [hx]
      · intro x hx
        simp only [hx]
    have h2 : Keeps base s2 := by
      refine foldl_keeps h1 (fun a b ha => ?_)
      split <;> exact State.setNode_keeps ha
    have hz : Keeps base z := State.setNode_keeps h2
    have h3 : Keeps base s3 := by
      show Keeps base (if q.dest = 4 then _ else _)
      split
      · exact Keeps.of_eq hz rfl rfl rfl rfl rfl rfl rfl
      · split
        · exact State.setNode_keeps h2
        · exact h2
    exact tallyEvent_keeps (finishKey_keeps h3)

theorem unsealRoot_keeps {base : State} {s : State} (h_s : Keeps base s) :
    Keeps base (unsealRoot s) := by
  unfold unsealRoot
  repeat' first
    | with_reducible assumption
    | with_reducible apply State.setNode_keeps
    | intro _
    | with_reducible refine ite_keeps ?_ ?_
    | split
    | fail_if_no_progress (with_reducible refine Keeps.of_mk ?_ rfl rfl rfl rfl rfl rfl rfl)

theorem cutUses_keeps {base : State} {s : State} (h_s : Keeps base s) :
    Keeps base (cutUses s) := by
  unfold cutUses
  repeat' first
    | with_reducible assumption
    | with_reducible apply finishKey_keeps
    | with_reducible apply foldl_keeps
    | with_reducible apply foldl_keeps_fst
    | with_reducible apply foldl_keeps_snd
    | intro _
    | fail_if_no_progress (with_reducible refine Keeps.of_mk ?_ rfl rfl rfl rfl rfl rfl rfl)

theorem tamperRecord_keeps {base : State} {s : State} (h_s : Keeps base s) :
    Keeps base (tamperRecord s) := by
  unfold tamperRecord
  repeat' first
    | with_reducible assumption
    | with_reducible apply tallyEvent_keeps
    | intro _
    | with_reducible refine ite_keeps ?_ ?_
    | split
    | fail_if_no_progress (with_reducible refine Keeps.of_mk ?_ rfl rfl rfl rfl rfl rfl rfl)

theorem tamperEdge_keeps {base : State} {src : Fin 5} {s : State} (h_s : Keeps base s) :
    Keeps base (tamperEdge src s) := by
  unfold tamperEdge
  repeat' first
    | with_reducible assumption
    | with_reducible apply cutUses_keeps
    | with_reducible apply tamperRecord_keeps
    | intro _
    | with_reducible refine ite_keeps ?_ ?_
    | split
    | fail_if_no_progress (with_reducible refine Keeps.of_mk ?_ rfl rfl rfl rfl rfl rfl rfl)

theorem tamperClearAct_keeps {base : State} {p : Nat} {v : BitVec 32} {s : State} (h_s : Keeps base s) :
    Keeps base (tamperClearAct p v s) := by
  unfold tamperClearAct
  repeat' first
    | with_reducible assumption
    | intro _
    | with_reducible refine ite_keeps ?_ ?_
    | split
    | fail_if_no_progress (with_reducible refine Keeps.of_mk ?_ rfl rfl rfl rfl rfl rfl rfl)

theorem tamperSourceClear_keeps {base : State} {src : Fin 5} {s : State} (h_s : Keeps base s) :
    Keeps base (tamperSourceClear src s) := by
  unfold tamperSourceClear
  repeat' first
    | with_reducible assumption
    | intro _
    | fail_if_no_progress (with_reducible refine Keeps.of_mk ?_ rfl rfl rfl rfl rfl rfl rfl)

end Sys2Proof.Machine
end

