-- ==== Sys2Proof/Laws/Store.lean ====
section
/-! SUPPORT. What the operations of Machine/Store.lean keep (`Keeps` of Laws/Keeps.lean). -/

set_option linter.all false

namespace Sys2Proof.Machine

theorem State.updBlk_keeps {base : State} {s : State} {b : Nat} {f : Blk → Blk} (h_s : Keeps base s) :
    Keeps base (State.updBlk s b f) := by
  unfold State.updBlk
  repeat' first
    | with_reducible assumption
    | intro _
    | fail_if_no_progress (with_reducible refine Keeps.of_mk ?_ rfl rfl rfl rfl rfl rfl rfl)

theorem stCount_keeps {base : State} {s : State} {i : Nat} (h_s : Keeps base s) :
    Keeps base (stCount s i) := by
  unfold stCount
  repeat' first
    | with_reducible assumption
    | intro _
    | fail_if_no_progress (with_reducible refine Keeps.of_mk ?_ rfl rfl rfl rfl rfl rfl rfl)

theorem retireBlock_keeps {base : State} {s : State} {b : Nat} (h_s : Keeps base s) :
    Keeps base (retireBlock s b).1 := by
  unfold retireBlock
  repeat' first
    | with_reducible assumption
    | with_reducible apply tallyEvent_keeps
    | with_reducible apply State.updBlk_keeps
    | with_reducible apply stCount_keeps
    | intro _
    | with_reducible refine ite_keeps ?_ ?_
    | split
    | fail_if_no_progress (with_reducible refine Keeps.of_mk ?_ rfl rfl rfl rfl rfl rfl rfl)

theorem placePages_keeps {base : State} {a0 : Nat} {a1 : State} {a2 : Nat} {a3 : Nat} {a4 : List (Nat × Nat)} (h_a1 : Keeps base a1) :
    Keeps base (placePages a0 a1 a2 a3 a4).1 := by
  unfold placePages
  repeat' first
    | with_reducible assumption
    | with_reducible apply State.updBlk_keeps
    | with_reducible apply placePages_keeps
    | (intro x
       first
         | (have hx : Keeps base x := ?_; clear_value x; on_goal 2 => subst x)
         | clear_value x
         | subst x)
    | intro _
    | lift_lets -underBinder
    | with_reducible refine ite_keeps ?_ ?_
    | with_reducible refine ite_keeps_fst ?_ ?_
    | with_reducible refine ite_keeps_snd ?_ ?_
    | split
    | dsimp -zeta only
    | fail_if_no_progress (with_reducible refine Keeps.of_mk ?_ rfl rfl rfl rfl rfl rfl rfl)

theorem releaseExtents_keeps {base : State} {s : State} {ex : List (Nat × Nat)} (h_s : Keeps base s) :
    Keeps base (releaseExtents s ex) := by
  unfold releaseExtents
  repeat' first
    | with_reducible assumption
    | with_reducible apply State.updBlk_keeps
    | with_reducible apply foldl_keeps
    | with_reducible apply foldl_keeps_fst
    | with_reducible apply foldl_keeps_snd
    | intro _
    | with_reducible refine ite_keeps ?_ ?_
    | split
    | fail_if_no_progress (with_reducible refine Keeps.of_mk ?_ rfl rfl rfl rfl rfl rfl rfl)

theorem putObject_keeps {base : State} {s : State} {r : Nat} {name : Bytes} {data : Bytes} (h_s : Keeps base s) :
    Keeps base (putObject s r name data) := by
  unfold putObject
  repeat' first
    | with_reducible assumption
    | with_reducible exact Keeps.refl _
    | with_reducible apply placePages_keeps
    | with_reducible apply releaseExtents_keeps
    | (intro x
       first
         | (have hx_ : Prop := x; clear hx_; subst x)
         | (have hx_ : _ → _ := x; clear hx_; subst x)
         | (have hx_ : TbState := x; clear hx_; subst x)
         | (have hx_ : OkState := x; clear hx_; subst x)
         | (have hx : Keeps base x := ?_; clear_value x; on_goal 2 => subst x)
         | (have hx : (∀ y, x.1 = some y → Keeps base y) ∧ Keeps base x.2 := ?_; clear_value x; on_goal 2 => subst x)
         | (have hx : Keeps base x.1 := ?_; clear_value x; on_goal 2 => subst x)
         | (have hx : Keeps base x.2 := ?_; clear_value x; on_goal 2 => subst x)
         | clear_value x)
    | intro _
    | lift_lets -underBinder
    | split
    | dsimp -zeta only
    | fail_if_no_progress (with_reducible refine Keeps.of_mk ?_ rfl rfl rfl rfl rfl rfl rfl)

theorem dropObject_keeps {base : State} {s : State} {r : Nat} {name : Bytes} (h_s : Keeps base s) :
    Keeps base (dropObject s r name) := by
  unfold dropObject
  repeat' first
    | with_reducible assumption
    | with_reducible apply releaseExtents_keeps
    | intro _
    | split
    | fail_if_no_progress (with_reducible refine Keeps.of_mk ?_ rfl rfl rfl rfl rfl rfl rfl)

theorem openOp_keeps {base : State} {s : State} {o : StOp} (h_s : Keeps base s) :
    Keeps base (openOp s o) := by
  unfold openOp
  repeat' first
    | with_reducible assumption
    | intro _
    | fail_if_no_progress (with_reducible refine Keeps.of_mk ?_ rfl rfl rfl rfl rfl rfl rfl)

theorem stWriteAct_keeps {base : State} {p : Nat} {r : Nat} {s : State} {f : Flight} (h_s : Keeps base s) :
    Keeps base (stWriteAct p r s f) := by
  unfold stWriteAct
  repeat' first
    | with_reducible assumption
    | with_reducible apply State.winFault_keeps
    | with_reducible apply finish_keeps
    | with_reducible apply openOp_keeps
    | with_reducible refine ite_keeps ?_ ?_
    | split

theorem stReadAct_keeps {base : State} {p : Nat} {r : Nat} {s : State} {f : Flight} (h_s : Keeps base s) :
    Keeps base (stReadAct p r s f) := by
  unfold stReadAct
  repeat' first
    | with_reducible assumption
    | with_reducible apply State.winFault_keeps
    | with_reducible apply devWrite_keeps
    | with_reducible apply finish_keeps
    | intro _
    | with_reducible refine ite_keeps ?_ ?_
    | split
    | fail_if_no_progress (with_reducible refine Keeps.of_mk ?_ rfl rfl rfl rfl rfl rfl rfl)

theorem stDeleteAct_keeps {base : State} {p : Nat} {r : Nat} {s : State} {f : Flight} (h_s : Keeps base s) :
    Keeps base (stDeleteAct p r s f) := by
  unfold stDeleteAct
  repeat' first
    | with_reducible assumption
    | with_reducible apply finish_keeps
    | with_reducible apply openOp_keeps
    | with_reducible refine ite_keeps ?_ ?_
    | split

theorem stListAct_keeps {base : State} {p : Nat} {r : Nat} {s : State} {f : Flight} (h_s : Keeps base s) :
    Keeps base (stListAct p r s f) := by
  unfold stListAct
  repeat' first
    | with_reducible assumption
    | with_reducible apply complete_keeps
    | with_reducible apply finish_keeps
    | (intro x
       first
         | (have hx : Keeps base x := ?_; clear_value x; on_goal 2 => subst x)
         | clear_value x
         | subst x)
    | intro _
    | lift_lets -underBinder
    | with_reducible refine ite_keeps ?_ ?_
    | split
    | dsimp -zeta only
    | fail_if_no_progress (with_reducible refine Keeps.of_mk ?_ rfl rfl rfl rfl rfl rfl rfl)

theorem abortOp_keeps {base : State} {s : State} {o : StOp} {status : Nat} (h_s : Keeps base s) :
    Keeps base (abortOp s o status) := by
  unfold abortOp
  repeat' first
    | with_reducible assumption
    | with_reducible apply finishKey_keeps
    | intro _
    | fail_if_no_progress (with_reducible refine Keeps.of_mk ?_ rfl rfl rfl rfl rfl rfl rfl)

theorem endRead_keeps {base : State} {s : State} {o : StRead} (h_s : Keeps base s) : Keeps base (endRead s o) :=
  releaseExtents_keeps (Keeps.of_mk h_s rfl rfl rfl rfl rfl rfl rfl)

theorem abortRead_keeps {base : State} {s : State} {o : StRead} {status : Nat} (h_s : Keeps base s) :
    Keeps base (abortRead s o status) := finishKey_keeps (endRead_keeps h_s)

theorem stAbortAct_keeps {base : State} {p : Nat} {r : Nat} {s : State} {f : Flight} (h_s : Keeps base s) :
    Keeps base (stAbortAct p r s f) := by
  unfold stAbortAct
  repeat' first
    | with_reducible assumption
    | with_reducible apply finish_keeps
    | with_reducible apply finishIgn_keeps
    | with_reducible apply abortOp_keeps
    | with_reducible apply abortRead_keeps
    | intro _
    | with_reducible refine ite_keeps ?_ ?_
    | split
    | fail_if_no_progress (with_reducible refine Keeps.of_mk ?_ rfl rfl rfl rfl rfl rfl rfl)

theorem stTallyClearAct_keeps {base : State} {p : Nat} {r : Nat} {s : State} {f : Flight} (h_s : Keeps base s) :
    Keeps base (stTallyClearAct p r s f) := by
  unfold stTallyClearAct
  repeat' first
    | with_reducible assumption
    | with_reducible apply finish_keeps
    | with_reducible apply takeUse_keeps
    | with_reducible apply openOp_keeps
    | intro _
    | with_reducible refine ite_keeps ?_ ?_
    | split
    | fail_if_no_progress (with_reducible refine Keeps.of_mk ?_ rfl rfl rfl rfl rfl rfl rfl)

theorem moveBlock_keeps {base : State} {s : State} {b : Nat} {dest : BlkSt} {y_ : State} (heq : moveBlock s b dest = some y_)
    (h_s : Keeps base s) : Keeps base y_ := by
  unfold moveBlock at heq
  simp only [Option.map_eq_some_iff] at heq
  obtain ⟨n, _, rfl⟩ := heq
  exact State.updBlk_keeps (State.updBlk_keeps (Keeps.of_mk h_s rfl rfl rfl rfl rfl rfl rfl))

theorem retireMoving_keeps {base : State} {s : State} {b : Nat} (h_s : Keeps base s) : Keeps base (retireMoving s b).1 := by
  have h := retireBlock_keeps (b := b) h_s
  unfold retireMoving
  generalize retireBlock s b = x at h ⊢
  dsimp only
  split
  · cases hm : moveBlock x.1 b .retired with
    | none => exact h
    | some y => exact moveBlock_keeps hm h
  · exact h

theorem retireN_keeps {base : State} {k : Nat} : ∀ {s : State} {o : StOp}, Keeps base s → Keeps base (retireN k s o).1 := by
  induction k with
  | zero => intro s o h_s; exact h_s
  | succ k ih =>
    intro s o h_s
    unfold retireN
    split
    · exact h_s
    · dsimp only
      split
      · exact ih (retireMoving_keeps h_s)
      · exact retireMoving_keeps h_s

theorem tallyCleared_keeps {base : State} {s : State} (h_s : Keeps base s) :
    Keeps base (tallyCleared s) := by
  unfold tallyCleared
  repeat' first
    | with_reducible assumption
    | with_reducible apply programOpen_keeps
    | with_reducible apply tallyEvent_keeps
    | with_reducible apply foldl_keeps
    | with_reducible apply foldl_keeps_fst
    | with_reducible apply foldl_keeps_snd
    | intro _
    | with_reducible refine ite_keeps ?_ ?_
    | split
    | fail_if_no_progress (with_reducible refine Keeps.of_mk ?_ rfl rfl rfl rfl rfl rfl rfl)

theorem journalSaves_keeps {base : State} {s : State} (h_s : Keeps base s) :
    Keeps base (journalSaves s) := by
  unfold journalSaves
  repeat' first
    | with_reducible assumption
    | intro _
    | fail_if_no_progress (with_reducible refine Keeps.of_mk ?_ rfl rfl rfl rfl rfl rfl rfl)

theorem commitOp_keeps {base : State} {s : State} {o : StOp} (h_s : Keeps base s) :
    Keeps base (commitOp s o) := by
  unfold commitOp
  repeat' first
    | with_reducible assumption
    | with_reducible apply putObject_keeps
    | with_reducible apply dropObject_keeps
    | with_reducible apply tallyCleared_keeps
    | with_reducible apply foldl_keeps
    | with_reducible apply foldl_keeps_fst
    | with_reducible apply foldl_keeps_snd
    | intro _
    | split
    | fail_if_no_progress (with_reducible refine Keeps.of_mk ?_ rfl rfl rfl rfl rfl rfl rfl)

theorem journalCommit_keeps {base : State} {after : StOp → State → State} {id : Nat} {fails : Nat} {s : State} (h_after : ∀ y0 y1, Keeps base y1 → Keeps base (after y0 y1)) (h_s : Keeps base s) :
    Keeps base (journalCommit after id fails s) := by
  unfold journalCommit
  repeat' first
    | with_reducible assumption
    | with_reducible apply completeWon_keeps
    | with_reducible apply clearEnd_keeps
    | with_reducible apply abortOp_keeps
    | with_reducible apply retireN_keeps
    | with_reducible apply journalSaves_keeps
    | with_reducible apply commitOp_keeps
    | apply h_after
    | intro _
    | with_reducible refine ite_keeps ?_ ?_
    | split
    | fail_if_no_progress (with_reducible refine Keeps.of_mk ?_ rfl rfl rfl rfl rfl rfl rfl)

theorem stReadComplete_keeps {base : State} {id : Nat} {s : State} (h_s : Keeps base s) :
    Keeps base (stReadComplete id s) := by
  unfold stReadComplete
  repeat' first
    | with_reducible assumption
    | with_reducible apply devWrite_keeps
    | with_reducible apply finishKey_keeps
    | with_reducible apply completeKey_keeps
    | with_reducible apply tallyEvent_keeps
    | with_reducible apply endRead_keeps
    | intro _
    | with_reducible refine ite_keeps ?_ ?_
    | split
    | fail_if_no_progress (with_reducible refine Keeps.of_mk ?_ rfl rfl rfl rfl rfl rfl rfl)

theorem eraseComplete_keeps {base : State} {b : Nat} {ok : Bool} {s : State} (h_s : Keeps base s) :
    Keeps base (eraseComplete b ok s) := by
  unfold eraseComplete
  repeat' first
    | with_reducible assumption
    | with_reducible apply State.updBlk_keeps
    | with_reducible apply retireBlock_keeps
    | intro _
    | with_reducible refine ite_keeps ?_ ?_
    | split
    | fail_if_no_progress (with_reducible refine Keeps.of_mk ?_ rfl rfl rfl rfl rfl rfl rfl)

theorem moveCounted_keeps {base : State} {s : State} {b : Nat} {i : Nat} (h_s : Keeps base s) :
    Keeps base (moveCounted s b i) := by
  unfold moveCounted
  repeat' first
    | with_reducible assumption
    | with_reducible apply stCount_keeps
    | (refine moveBlock_keeps (by with_reducible assumption) ?_)
    | intro _
    | split
    | fail_if_no_progress (with_reducible refine Keeps.of_mk ?_ rfl rfl rfl rfl rfl rfl rfl)

theorem wearMove_keeps {base : State} {s : State} (h_s : Keeps base s) :
    Keeps base (wearMove s) := by
  unfold wearMove
  repeat' first
    | with_reducible assumption
    | with_reducible apply moveCounted_keeps
    | with_reducible apply foldl_keeps
    | with_reducible apply foldl_keeps_fst
    | with_reducible apply foldl_keeps_snd
    | (intro x
       first
         | (have hx : Keeps base x := ?_; clear_value x; on_goal 2 => subst x)
         | clear_value x
         | subst x)
    | intro _
    | lift_lets -underBinder
    | split
    | dsimp -zeta only
    | fail_if_no_progress (with_reducible refine Keeps.of_mk ?_ rfl rfl rfl rfl rfl rfl rfl)

theorem scrub_keeps {base : State} {b : Nat} {cw : Nat} {corr : Nat} {s : State} (h_s : Keeps base s) :
    Keeps base (scrub b cw corr s) := by
  unfold scrub
  repeat' first
    | with_reducible assumption
    | with_reducible apply tallyEvent_keeps
    | with_reducible apply stCount_keeps
    | with_reducible apply retireMoving_keeps
    | with_reducible apply moveCounted_keeps
    | intro _
    | with_reducible refine ite_keeps ?_ ?_
    | split
    | fail_if_no_progress (with_reducible refine Keeps.of_mk ?_ rfl rfl rfl rfl rfl rfl rfl)

theorem stLoss_keeps {base : State} {s : State} (h_s : Keeps base s) :
    Keeps base (stLoss s) := by
  unfold stLoss
  repeat' first
    | with_reducible assumption
    | intro _
    | fail_if_no_progress (with_reducible refine Keeps.of_mk ?_ rfl rfl rfl rfl rfl rfl rfl)

theorem stShutdown_keeps {base : State} {s : State} (h_s : Keeps base s) :
    Keeps base (stShutdown s) := by
  unfold stShutdown
  repeat' first
    | with_reducible assumption
    | with_reducible apply programOpen_keeps
    | with_reducible apply clearEnd_keeps
    | with_reducible apply abortOp_keeps
    | with_reducible apply abortRead_keeps
    | with_reducible apply foldl_keeps
    | with_reducible apply foldl_keeps_fst
    | with_reducible apply foldl_keeps_snd
    | intro _
    | fail_if_no_progress (with_reducible refine Keeps.of_mk ?_ rfl rfl rfl rfl rfl rfl rfl)

theorem replay_keeps {base : State} {powerUp : Bool} {s : State} (h_s : Keeps base s) :
    Keeps base (replay powerUp s) := by
  unfold replay
  repeat' first
    | with_reducible assumption
    | with_reducible apply tallyEvent_keeps
    | with_reducible apply stCount_keeps
    | intro _
    | with_reducible refine ite_keeps ?_ ?_
    | split
    | fail_if_no_progress (with_reducible refine Keeps.of_mk ?_ rfl rfl rfl rfl rfl rfl rfl)

end Sys2Proof.Machine
end

