-- ==== Sys2Proof/Laws/Sched.lean ====
section
/-! SUPPORT. What the operations of Machine/Sched.lean keep (`Keeps` of Laws/Keeps.lean). -/

set_option linter.all false

namespace Sys2Proof.Machine

theorem csrAccess_keeps {base : State} {s : State} {h : Nat} {m : CMode} {act : State → State} (h_s : Keeps base s) (h_act : ∀ y0, Keeps base y0 → Keeps base (act y0)) :
    Keeps base (csrAccess s h m act) := by
  unfold csrAccess
  repeat' first
    | with_reducible assumption
    | with_reducible apply State.updCore_keeps
    | apply h_act
    | intro _
    | split
    | fail_if_no_progress (with_reducible refine Keeps.of_mk ?_ rfl rfl rfl rfl rfl rfl rfl)

theorem csrResult_keeps {base : State} {s : State} {h : Nat} {v : Nat} (h_s : Keeps base s) :
    Keeps base (csrResult s h v) := by
  unfold csrResult
  repeat' first
    | with_reducible assumption
    | with_reducible apply State.updCore_keeps
    | intro _
    | fail_if_no_progress (with_reducible refine Keeps.of_mk ?_ rfl rfl rfl rfl rfl rfl rfl)

theorem sqrunAct_keeps {base : State} {h : Nat} {task : Nat} {s : State} (h_s : Keeps base s) :
    Keeps base (sqrunAct h task s) := by
  unfold sqrunAct
  repeat' first
    | with_reducible assumption
    | with_reducible apply State.updTask_keeps
    | with_reducible apply State.updSched_keeps
    | with_reducible apply stopRunning_keeps
    | with_reducible apply csrResult_keeps
    | intro _
    | with_reducible refine ite_keeps ?_ ?_
    | split
    | fail_if_no_progress (with_reducible refine Keeps.of_mk ?_ rfl rfl rfl rfl rfl rfl rfl)

theorem sqrunIdle_keeps {base : State} {h : Nat} {s : State} (h_s : Keeps base s) :
    Keeps base (sqrunIdle h s) := by
  unfold sqrunIdle
  repeat' first
    | with_reducible assumption
    | with_reducible apply stopRunning_keeps
    | with_reducible apply dispatchIf_keeps
    | with_reducible apply csrResult_keeps

theorem sqnextRead_keeps {base : State} {h : Nat} {s : State} (h_s : Keeps base s) :
    Keeps base (sqnextRead h s) := by
  unfold sqnextRead
  repeat' first
    | with_reducible assumption
    | with_reducible apply State.updCore_keeps
    | intro _
    | fail_if_no_progress (with_reducible refine Keeps.of_mk ?_ rfl rfl rfl rfl rfl rfl rfl)

theorem countBudget_keeps {base : State} {s : State} {h : Nat} {task : Nat} (h_s : Keeps base s) :
    Keeps base (countBudget s h task) := by
  unfold countBudget
  repeat' first
    | with_reducible assumption
    | with_reducible apply State.updTask_keeps
    | intro _
    | with_reducible refine ite_keeps ?_ ?_
    | split
    | fail_if_no_progress (with_reducible refine Keeps.of_mk ?_ rfl rfl rfl rfl rfl rfl rfl)

theorem afterJob_keeps {base : State} {s : State} {h : Nat} {task : Nat} (h_s : Keeps base s) :
    Keeps base (afterJob s h task) := by
  unfold afterJob
  repeat' first
    | with_reducible assumption
    | with_reducible apply State.updTask_keeps
    | with_reducible apply State.updSched_keeps
    | with_reducible apply startHistory_keeps
    | with_reducible apply postRelease_keeps
    | intro _
    | with_reducible refine ite_keeps ?_ ?_
    | split
    | fail_if_no_progress (with_reducible refine Keeps.of_mk ?_ rfl rfl rfl rfl rfl rfl rfl)

theorem sqdoneAct_keeps {base : State} {h : Nat} {s : State} (h_s : Keeps base s) :
    Keeps base (sqdoneAct h s) := by
  unfold sqdoneAct
  repeat' first
    | with_reducible assumption
    | with_reducible apply State.updTask_keeps
    | with_reducible apply stopRunning_keeps
    | with_reducible apply csrResult_keeps
    | with_reducible apply countBudget_keeps
    | with_reducible apply afterJob_keeps
    | intro _
    | split
    | fail_if_no_progress (with_reducible refine Keeps.of_mk ?_ rfl rfl rfl rfl rfl rfl rfl)

theorem sqpostAct_keeps {base : State} {h : Nat} {tgt : Nat} {task : Nat} {payload : BitVec 32} {s : State} (h_s : Keeps base s) :
    Keeps base (sqpostAct h tgt task payload s) := by
  unfold sqpostAct
  repeat' first
    | with_reducible assumption
    | with_reducible apply queuePost_keeps
    | with_reducible apply csrResult_keeps
    | with_reducible refine ite_keeps ?_ ?_
    | split

theorem sqtakeAct_keeps {base : State} {h : Nat} {s : State} (h_s : Keeps base s) :
    Keeps base (sqtakeAct h s) := by
  unfold sqtakeAct
  repeat' first
    | with_reducible assumption
    | with_reducible apply State.updSched_keeps
    | with_reducible apply csrResult_keeps
    | intro _
    | split
    | fail_if_no_progress (with_reducible refine Keeps.of_mk ?_ rfl rfl rfl rfl rfl rfl rfl)

theorem delayRelease_keeps {base : State} {h : Nat} {s : State} (h_s : Keeps base s) :
    Keeps base (delayRelease h s) := by
  unfold delayRelease
  repeat' first
    | with_reducible assumption
    | with_reducible apply State.waitUntil_keeps
    | with_reducible apply tickDue_keeps
    | with_reducible apply withDispatch_keeps
    | intro _
    | split
    | fail_if_no_progress (with_reducible refine Keeps.of_mk ?_ rfl rfl rfl rfl rfl rfl rfl)

theorem deadlineMiss_keeps {base : State} {h : Nat} {task : Nat} {s : State} (h_s : Keeps base s) :
    Keeps base (deadlineMiss h task s) := by
  unfold deadlineMiss
  repeat' first
    | with_reducible assumption
    | with_reducible apply State.waitUntil_keeps
    | with_reducible apply State.updTask_keeps
    | with_reducible apply State.updSched_keeps
    | with_reducible apply assertIrq_keeps
    | intro _
    | with_reducible refine ite_keeps ?_ ?_
    | split
    | fail_if_no_progress (with_reducible refine Keeps.of_mk ?_ rfl rfl rfl rfl rfl rfl rfl)

theorem budgetOverrun_keeps {base : State} {h : Nat} {s : State} (h_s : Keeps base s) :
    Keeps base (budgetOverrun h s) := by
  unfold budgetOverrun
  repeat' first
    | with_reducible assumption
    | with_reducible apply State.runTo_keeps
    | with_reducible apply State.updTask_keeps
    | intro _
    | with_reducible refine ite_keeps ?_ ?_
    | split
    | fail_if_no_progress (with_reducible refine Keeps.of_mk ?_ rfl rfl rfl rfl rfl rfl rfl)

end Sys2Proof.Machine
end

