-- ==== Sys2Proof/Laws/TimeBase.lean ====
section
/-! SUPPORT. What the operations of Machine/TimeBase.lean keep (`Keeps` of Laws/Keeps.lean). -/

set_option linter.all false

namespace Sys2Proof.Machine

theorem refreshEst_keeps {base : State} {s : State} (h_s : Keeps base s) :
    Keeps base (refreshEst s) := by
  unfold refreshEst
  repeat' first
    | with_reducible assumption
    | intro _
    | split
    | fail_if_no_progress (with_reducible refine Keeps.of_mk ?_ rfl rfl rfl rfl rfl rfl rfl)

theorem stageAddend_keeps {base : State} {s : State} {c : Int} (h_s : Keeps base s) :
    Keeps base (stageAddend s c) := by
  unfold stageAddend
  repeat' first
    | with_reducible assumption
    | intro _
    | with_reducible refine ite_keeps ?_ ?_
    | split
    | fail_if_no_progress (with_reducible refine Keeps.of_mk ?_ rfl rfl rfl rfl rfl rfl rfl)

theorem enterHoldover_keeps {base : State} {s : State} (h_s : Keeps base s) :
    Keeps base (enterHoldover s) := by
  unfold enterHoldover
  repeat' first
    | with_reducible assumption
    | with_reducible apply stageAddend_keeps
    | intro _
    | fail_if_no_progress (with_reducible refine Keeps.of_mk ?_ rfl rfl rfl rfl rfl rfl rfl)

theorem holdoverIfLocked_keeps {base : State} {s : State} (h_s : Keeps base s) :
    Keeps base (holdoverIfLocked s) := by
  unfold holdoverIfLocked
  repeat' first
    | with_reducible assumption
    | with_reducible apply enterHoldover_keeps
    | with_reducible refine ite_keeps ?_ ?_
    | split

theorem servoProcess_keeps {base : State} {s : State} {th : Int} (h_s : Keeps base s) :
    Keeps base (servoProcess s th) := by
  unfold servoProcess
  repeat' first
    | with_reducible assumption
    | with_reducible exact Keeps.refl _
    | with_reducible apply refreshEst_keeps
    | with_reducible apply stageAddend_keeps
    | with_reducible apply enterHoldover_keeps
    | (intro x
       first
         | (have hx_ : Prop := x; clear hx_; subst x)
         | (have hx_ : _ → _ := x; clear hx_; subst x)
         | (have hx_ : TbState := x; clear hx_; subst x)
         | (have hx_ : OkState := x; clear hx_; subst x)
         | (have hx : Keeps base x := ?_; clear_value x; on_goal 2 => subst x)
         | (have hx : (∀ y, x.1 = some y → Keeps base y) ∧ Keeps base x.2 := ?_; clear_value x; on_goal 2 => subst x)
         | (have hx : Keeps base x.1 := ?_; clear_value x; on_goal 2 => subst x)
         | (have hx : Keeps base x.2 := ?_; clear_value x; on_goal 2 => subst x)
         | clear_value x)
    | intro _
    | lift_lets -underBinder
    | with_reducible refine ite_keeps ?_ ?_
    | split
    | dsimp -zeta only
    | fail_if_no_progress (with_reducible refine Keeps.of_mk ?_ rfl rfl rfl rfl rfl rfl rfl)

theorem servoOffset_keeps {base : State} {ok : Bool} {th : Int} {s : State} (h_s : Keeps base s) :
    Keeps base (servoOffset ok th s) := by
  unfold servoOffset
  repeat' first
    | with_reducible assumption
    | with_reducible apply servoProcess_keeps
    | intro _
    | with_reducible refine ite_keeps ?_ ?_
    | split
    | fail_if_no_progress (with_reducible refine Keeps.of_mk ?_ rfl rfl rfl rfl rfl rfl rfl)

theorem stepRequest_keeps {base : State} {ok : Bool} {p : Nat} {s : State} (h_s : Keeps base s) :
    Keeps base (stepRequest ok p s) := by
  unfold stepRequest
  repeat' first
    | with_reducible assumption
    | intro _
    | with_reducible refine ite_keeps ?_ ?_
    | split
    | fail_if_no_progress (with_reducible refine Keeps.of_mk ?_ rfl rfl rfl rfl rfl rfl rfl)

theorem counterStep_keeps {base : State} {s : State} (h_s : Keeps base s) :
    Keeps base (counterStep s) := by
  unfold counterStep
  repeat' first
    | with_reducible assumption
    | intro _
    | with_reducible refine ite_keeps ?_ ?_
    | split
    | fail_if_no_progress (with_reducible refine Keeps.of_mk ?_ rfl rfl rfl rfl rfl rfl rfl)

theorem stepRefuse_keeps {base : State} {s : State} (h_s : Keeps base s) :
    Keeps base (stepRefuse s) := by
  unfold stepRefuse
  repeat' first
    | with_reducible assumption
    | with_reducible apply servoProcess_keeps
    | intro _
    | with_reducible refine ite_keeps ?_ ?_
    | split
    | fail_if_no_progress (with_reducible refine Keeps.of_mk ?_ rfl rfl rfl rfl rfl rfl rfl)

theorem addendLoad_keeps {base : State} {s : State} (h_s : Keeps base s) :
    Keeps base (addendLoad s) := by
  unfold addendLoad
  repeat' first
    | with_reducible assumption
    | intro _
    | split
    | fail_if_no_progress (with_reducible refine Keeps.of_mk ?_ rfl rfl rfl rfl rfl rfl rfl)

theorem writeAddendLo_keeps {base : State} {v : BitVec 32} {s : State} (h_s : Keeps base s) :
    Keeps base (writeAddendLo v s) := by
  unfold writeAddendLo
  repeat' first
    | with_reducible assumption
    | intro _
    | with_reducible refine ite_keeps ?_ ?_
    | split
    | fail_if_no_progress (with_reducible refine Keeps.of_mk ?_ rfl rfl rfl rfl rfl rfl rfl)

theorem writeAddendHi_keeps {base : State} {v : BitVec 32} {s : State} (h_s : Keeps base s) :
    Keeps base (writeAddendHi v s) := by
  unfold writeAddendHi
  repeat' first
    | with_reducible assumption
    | intro _
    | with_reducible refine ite_keeps ?_ ?_
    | split
    | fail_if_no_progress (with_reducible refine Keeps.of_mk ?_ rfl rfl rfl rfl rfl rfl rfl)

theorem fwOffset_keeps {base : State} {ok : Bool} {p : Nat} {v : BitVec 32} {s : State} (h_s : Keeps base s) :
    Keeps base (fwOffset ok p v s) := by
  unfold fwOffset
  repeat' first
    | with_reducible assumption
    | with_reducible apply servoOffset_keeps
    | intro _
    | with_reducible refine ite_keeps ?_ ?_
    | split
    | fail_if_no_progress (with_reducible refine Keeps.of_mk ?_ rfl rfl rfl rfl rfl rfl rfl)

theorem readNow0_keeps {base : State} {h : Nat} {s : State} (h_s : Keeps base s) :
    Keeps base (readNow0 h s) := by
  unfold readNow0
  repeat' first
    | with_reducible assumption
    | with_reducible apply State.updCore_keeps
    | intro _
    | fail_if_no_progress (with_reducible refine Keeps.of_mk ?_ rfl rfl rfl rfl rfl rfl rfl)

theorem readTsqT3_keeps {base : State} {h : Nat} {p : Nat} {s : State} (h_s : Keeps base s) :
    Keeps base (readTsqT3 h p s) := by
  unfold readTsqT3
  repeat' first
    | with_reducible assumption
    | with_reducible apply State.updCore_keeps
    | intro _
    | with_reducible refine ite_keeps ?_ ?_
    | split
    | fail_if_no_progress (with_reducible refine Keeps.of_mk ?_ rfl rfl rfl rfl rfl rfl rfl)

theorem pushTsq_keeps {base : State} {s : State} {port : Nat} {ident : Nat} {st : Stamp} (h_s : Keeps base s) :
    Keeps base (pushTsq s port ident st) := by
  unfold pushTsq
  repeat' first
    | with_reducible assumption
    | with_reducible apply devIrq_keeps
    | intro _
    | with_reducible refine ite_keeps ?_ ?_
    | split
    | fail_if_no_progress (with_reducible refine Keeps.of_mk ?_ rfl rfl rfl rfl rfl rfl rfl)

theorem refSwitch_keeps {base : State} {tcxo : Bool} {diff : Int} {s : State} (h_s : Keeps base s) :
    Keeps base (refSwitch tcxo diff s) := by
  unfold refSwitch
  repeat' first
    | with_reducible assumption
    | intro _
    | with_reducible refine ite_keeps ?_ ?_
    | split
    | fail_if_no_progress (with_reducible refine Keeps.of_mk ?_ rfl rfl rfl rfl rfl rfl rfl)

theorem refToTcxo_keeps {base : State} {diff : Int} {s : State} (h_s : Keeps base s) :
    Keeps base (refToTcxo diff s) := by
  unfold refToTcxo
  repeat' first
    | with_reducible assumption
    | with_reducible apply refSwitch_keeps
    | intro _
    | with_reducible refine ite_keeps ?_ ?_
    | split
    | fail_if_no_progress (with_reducible refine Keeps.of_mk ?_ rfl rfl rfl rfl rfl rfl rfl)

theorem refToOcxo_keeps {base : State} {diff : Int} {s : State} (h_s : Keeps base s) :
    Keeps base (refToOcxo diff s) := by
  unfold refToOcxo
  repeat' first
    | with_reducible assumption
    | with_reducible apply State.runTo_keeps
    | with_reducible apply State.waitSlot_keeps
    | with_reducible apply refSwitch_keeps
    | intro _
    | with_reducible refine ite_keeps ?_ ?_
    | split
    | fail_if_no_progress (with_reducible refine Keeps.of_mk ?_ rfl rfl rfl rfl rfl rfl rfl)

theorem updPtpPort_keeps {base : State} {s : State} {p : Nat} {f : PtpPort → PtpPort} (h_s : Keeps base s) :
    Keeps base (updPtpPort s p f) := by
  unfold updPtpPort
  repeat' first
    | with_reducible assumption
    | intro _
    | fail_if_no_progress (with_reducible refine Keeps.of_mk ?_ rfl rfl rfl rfl rfl rfl rfl)

theorem runBmca_keeps {base : State} {s : State} (h_s : Keeps base s) :
    Keeps base (runBmca s) := by
  unfold runBmca
  repeat' first
    | with_reducible assumption
    | with_reducible apply holdoverIfLocked_keeps
    | intro _
    | with_reducible refine ite_keeps ?_ ?_
    | split
    | fail_if_no_progress (with_reducible refine Keeps.of_mk ?_ rfl rfl rfl rfl rfl rfl rfl)

theorem setUtc_keeps {base : State} {at_ : Nat} {leap : Nat} {v : BitVec 32} {s : State} (h_s : Keeps base s) :
    Keeps base (setUtc at_ leap v s) := by
  unfold setUtc
  repeat' first
    | with_reducible assumption
    | with_reducible apply State.setCfg_keeps
    | intro _
    | with_reducible refine ite_keeps ?_ ?_
    | split
    | fail_if_no_progress (with_reducible refine Keeps.of_mk ?_ rfl rfl rfl rfl rfl rfl rfl)

theorem applyAnnounce_keeps {base : State} {s : State} {a : Announce} (h_s : Keeps base s) :
    Keeps base (applyAnnounce s a) := by
  unfold applyAnnounce
  repeat' first
    | with_reducible assumption
    | with_reducible apply refreshEst_keeps
    | with_reducible apply setUtc_keeps
    | intro _
    | with_reducible refine ite_keeps ?_ ?_
    | split
    | fail_if_no_progress (with_reducible refine Keeps.of_mk ?_ rfl rfl rfl rfl rfl rfl rfl)

theorem ptpSend_keeps {base : State} {s : State} {p : Nat} {m : PtpMsg} (h_s : Keeps base s) :
    Keeps base (ptpSend s p m) := by
  unfold ptpSend
  repeat' first
    | with_reducible assumption
    | intro _
    | fail_if_no_progress (with_reducible refine Keeps.of_mk ?_ rfl rfl rfl rfl rfl rfl rfl)

theorem ptpOffset_keeps {base : State} {ok : Bool} {s : State} {p : Nat} {t2 : Int} {origin : Int} {corr : Int} (h_s : Keeps base s) :
    Keeps base (ptpOffset ok s p t2 origin corr) := by
  unfold ptpOffset
  repeat' first
    | with_reducible assumption
    | with_reducible apply servoOffset_keeps
    | intro _
    | with_reducible refine ite_keeps ?_ ?_
    | split
    | fail_if_no_progress (with_reducible refine Keeps.of_mk ?_ rfl rfl rfl rfl rfl rfl rfl)

theorem countSync_keeps {base : State} {s : State} (h_s : Keeps base s) :
    Keeps base (countSync s) := by
  unfold countSync
  repeat' first
    | with_reducible assumption
    | with_reducible apply applyAnnounce_keeps
    | (intro x
       first
         | (have hx : Keeps base x := ?_; clear_value x; on_goal 2 => subst x)
         | clear_value x
         | subst x)
    | intro _
    | lift_lets -underBinder
    | with_reducible refine ite_keeps ?_ ?_
    | split
    | dsimp -zeta only
    | fail_if_no_progress (with_reducible refine Keeps.of_mk ?_ rfl rfl rfl rfl rfl rfl rfl)

theorem pdelayDone_keeps {base : State} {s : State} {p : Nat} {r : PdelayRun} {t3 : Option Int} {corr : Int} (h_s : Keeps base s) :
    Keeps base (pdelayDone s p r t3 corr) := by
  unfold pdelayDone
  repeat' first
    | with_reducible assumption
    | with_reducible apply updPtpPort_keeps
    | intro _
    | with_reducible refine ite_keeps ?_ ?_
    | split
    | fail_if_no_progress (with_reducible refine Keeps.of_mk ?_ rfl rfl rfl rfl rfl rfl rfl)

theorem ptpRx_keeps {base : State} {ok : Bool} {p : Nat} {m : PtpMsg} {s : State} (h_s : Keeps base s) :
    Keeps base (ptpRx ok p m s) := by
  unfold ptpRx
  repeat' first
    | with_reducible assumption
    | with_reducible apply updPtpPort_keeps
    | with_reducible apply runBmca_keeps
    | with_reducible apply applyAnnounce_keeps
    | with_reducible apply ptpSend_keeps
    | with_reducible apply ptpOffset_keeps
    | with_reducible apply countSync_keeps
    | with_reducible apply pdelayDone_keeps
    | (intro x
       first
         | (have hx : Keeps base x := ?_; clear_value x; on_goal 2 => subst x)
         | clear_value x
         | subst x)
    | intro _
    | lift_lets -underBinder
    | with_reducible refine ite_keeps ?_ ?_
    | split
    | dsimp -zeta only
    | fail_if_no_progress (with_reducible refine Keeps.of_mk ?_ rfl rfl rfl rfl rfl rfl rfl)

theorem ptpTx_keeps {base : State} {p : Nat} {k : PtpTxKind} {s : State} (h_s : Keeps base s) :
    Keeps base (ptpTx p k s) := by
  unfold ptpTx
  repeat' first
    | with_reducible assumption
    | with_reducible apply updPtpPort_keeps
    | with_reducible apply ptpSend_keeps
    | intro _
    | with_reducible refine ite_keeps ?_ ?_
    | split
    | fail_if_no_progress (with_reducible refine Keeps.of_mk ?_ rfl rfl rfl rfl rfl rfl rfl)

theorem announceTimeout_keeps {base : State} {s : State} (h_s : Keeps base s) :
    Keeps base (announceTimeout s) := by
  unfold announceTimeout
  repeat' first
    | with_reducible assumption
    | with_reducible apply State.runTo_keeps
    | with_reducible apply holdoverIfLocked_keeps
    | with_reducible apply updPtpPort_keeps
    | with_reducible apply runBmca_keeps
    | with_reducible apply foldl_keeps
    | with_reducible apply foldl_keeps_fst
    | with_reducible apply foldl_keeps_snd
    | intro _
    | with_reducible refine ite_keeps ?_ ?_
    | split
    | fail_if_no_progress (with_reducible refine Keeps.of_mk ?_ rfl rfl rfl rfl rfl rfl rfl)

theorem syncTimeout_keeps {base : State} {s : State} (h_s : Keeps base s) :
    Keeps base (syncTimeout s) := by
  unfold syncTimeout
  repeat' first
    | with_reducible assumption
    | with_reducible apply State.runTo_keeps
    | with_reducible apply holdoverIfLocked_keeps
    | intro _
    | with_reducible refine ite_keeps ?_ ?_
    | split
    | fail_if_no_progress (with_reducible refine Keeps.of_mk ?_ rfl rfl rfl rfl rfl rfl rfl)

theorem fwTimeout_keeps {base : State} {s : State} (h_s : Keeps base s) :
    Keeps base (fwTimeout s) := by
  unfold fwTimeout
  repeat' first
    | with_reducible assumption
    | with_reducible apply State.runTo_keeps
    | with_reducible apply holdoverIfLocked_keeps
    | with_reducible refine ite_keeps ?_ ?_
    | split

theorem waitTop_keeps {base : State} {s : State} (h_s : Keeps base s) :
    Keeps base (waitTop s) := by
  unfold waitTop
  repeat' first
    | with_reducible assumption
    | with_reducible apply State.waitUntil_keeps

theorem leapSecond_keeps {base : State} {s : State} (h_s : Keeps base s) :
    Keeps base (leapSecond s) := by
  unfold leapSecond
  repeat' first
    | with_reducible assumption
    | with_reducible apply State.waitUntil_keeps
    | with_reducible apply setUtc_keeps
    | with_reducible refine ite_keeps ?_ ?_
    | split

theorem State.updTout_keeps {base : State} {s : State} {n : Nat} {f : TOut → TOut} (h_s : Keeps base s) :
    Keeps base (State.updTout s n f) := by
  unfold State.updTout
  repeat' first
    | with_reducible assumption
    | intro _
    | fail_if_no_progress (with_reducible refine Keeps.of_mk ?_ rfl rfl rfl rfl rfl rfl rfl)

theorem holdMode_keeps {base : State} {s : State} {n : Nat} {mode : Nat} (h_s : Keeps base s) :
    Keeps base (holdMode s n mode) := by
  unfold holdMode
  repeat' first
    | with_reducible assumption
    | with_reducible apply State.updTout_keeps
    | intro _
    | with_reducible refine ite_keeps ?_ ?_
    | split
    | fail_if_no_progress (with_reducible refine Keeps.of_mk ?_ rfl rfl rfl rfl rfl rfl rfl)

theorem ppsPulse_keeps {base : State} {n : Nat} {s : State} (h_s : Keeps base s) :
    Keeps base (ppsPulse n s) := by
  unfold ppsPulse
  repeat' first
    | with_reducible assumption
    | with_reducible apply waitTop_keeps
    | with_reducible apply State.updTout_keeps
    | intro _
    | with_reducible refine ite_keeps ?_ ?_
    | split
    | fail_if_no_progress (with_reducible refine Keeps.of_mk ?_ rfl rfl rfl rfl rfl rfl rfl)

theorem irigBFrame_keeps {base : State} {n : Nat} {s : State} (h_s : Keeps base s) :
    Keeps base (irigBFrame n s) := by
  unfold irigBFrame
  repeat' first
    | with_reducible assumption
    | with_reducible apply waitTop_keeps
    | with_reducible apply State.updTout_keeps
    | intro _
    | with_reducible refine ite_keeps ?_ ?_
    | split
    | fail_if_no_progress (with_reducible refine Keeps.of_mk ?_ rfl rfl rfl rfl rfl rfl rfl)

theorem touchOutputs_keeps {base : State} {u : Nat} {at_ : Nat} {s : State} (h_s : Keeps base s) :
    Keeps base (touchOutputs u at_ s) := by
  unfold touchOutputs
  repeat' first
    | with_reducible assumption
    | with_reducible apply State.updTout_keeps
    | with_reducible apply foldl_keeps
    | with_reducible apply foldl_keeps_fst
    | with_reducible apply foldl_keeps_snd
    | intro _
    | with_reducible refine ite_keeps ?_ ?_
    | split
    | fail_if_no_progress (with_reducible refine Keeps.of_mk ?_ rfl rfl rfl rfl rfl rfl rfl)

theorem State.updTtu_keeps {base : State} {s : State} {u : Nat} {f : Ttu → Ttu} (h_s : Keeps base s) :
    Keeps base (State.updTtu s u f) := by
  unfold State.updTtu
  repeat' first
    | with_reducible assumption
    | intro _
    | fail_if_no_progress (with_reducible refine Keeps.of_mk ?_ rfl rfl rfl rfl rfl rfl rfl)

theorem ttArmAct_keeps {base : State} {p : Nat} {r : Nat} {s : State} {f : Flight} (h_s : Keeps base s) :
    Keeps base (ttArmAct p r s f) := by
  unfold ttArmAct
  repeat' first
    | with_reducible assumption
    | with_reducible apply finish_keeps
    | with_reducible apply State.updTtu_keeps
    | intro _
    | with_reducible refine ite_keeps ?_ ?_
    | split

theorem ttStop_keeps {base : State} {s : State} {u : Nat} (h_s : Keeps base s) :
    Keeps base (ttStop s u) := by
  unfold ttStop
  repeat' first
    | with_reducible assumption
    | with_reducible apply finishKey_keeps
    | with_reducible apply State.updTtu_keeps
    | intro _
    | with_reducible refine ite_keeps ?_ ?_
    | split
    | fail_if_no_progress (with_reducible refine Keeps.of_mk ?_ rfl rfl rfl rfl rfl rfl rfl)

theorem ttCancelAct_keeps {base : State} {p : Nat} {r : Nat} {s : State} {f : Flight} (h_s : Keeps base s) :
    Keeps base (ttCancelAct p r s f) := by
  unfold ttCancelAct
  repeat' first
    | with_reducible assumption
    | with_reducible apply finish_keeps
    | with_reducible apply finishIgn_keeps
    | with_reducible apply ttStop_keeps
    | with_reducible refine ite_keeps ?_ ?_
    | split

theorem ttuFire_keeps {base : State} {u : Nat} {s : State} (h_s : Keeps base s) :
    Keeps base (ttuFire u s) := by
  unfold ttuFire
  repeat' first
    | with_reducible assumption
    | with_reducible apply devIrq_keeps
    | with_reducible apply finishKey_keeps
    | with_reducible apply touchOutputs_keeps
    | with_reducible apply State.updTtu_keeps
    | intro _
    | with_reducible refine ite_keeps ?_ ?_
    | split
    | fail_if_no_progress (with_reducible refine Keeps.of_mk ?_ rfl rfl rfl rfl rfl rfl rfl)

theorem stimecmpAct_keeps {base : State} {h : Nat} {virt : Bool} {cmp : BitVec 64} {s : State} (h_s : Keeps base s) :
    Keeps base (stimecmpAct h virt cmp s) := by
  unfold stimecmpAct
  repeat' first
    | with_reducible assumption
    | with_reducible apply State.pass_keeps
    | with_reducible apply State.updCore_keeps
    | intro _
    | with_reducible refine ite_keeps ?_ ?_
    | split
    | fail_if_no_progress (with_reducible refine Keeps.of_mk ?_ rfl rfl rfl rfl rfl rfl rfl)

end Sys2Proof.Machine
end

