-- ==== Sys2Proof/Laws/PairOps.lean ====
section
/-! SUPPORT. What the operations of Machine/PairOps.lean keep (`Keeps` of Laws/Keeps.lean). -/

set_option linter.all false

namespace Sys2Proof.Machine

theorem prCount_keeps {base : State} {s : State} {i : Nat} (h_s : Keeps base s) :
    Keeps base (prCount s i) := by
  unfold prCount
  repeat' first
    | with_reducible assumption
    | intro _
    | fail_if_no_progress (with_reducible refine Keeps.of_mk ?_ rfl rfl rfl rfl rfl rfl rfl)

theorem raiseFlag_keeps {base : State} {s : State} {i : Nat} (h_s : Keeps base s) :
    Keeps base (raiseFlag s i) := by
  unfold raiseFlag
  repeat' first
    | with_reducible assumption
    | intro _
    | fail_if_no_progress (with_reducible refine Keeps.of_mk ?_ rfl rfl rfl rfl rfl rfl rfl)

theorem raiseSticky_keeps {base : State} {s : State} {i : Nat} (h_s : Keeps base s) :
    Keeps base (raiseSticky s i) := by
  unfold raiseSticky
  repeat' first
    | with_reducible assumption
    | intro _
    | fail_if_no_progress (with_reducible refine Keeps.of_mk ?_ rfl rfl rfl rfl rfl rfl rfl)

theorem mateSend_keeps {base : State} {s : State} {x : MateSent} (h_s : Keeps base s) :
    Keeps base (mateSend s x) := by
  unfold mateSend
  repeat' first
    | with_reducible assumption
    | intro _
    | fail_if_no_progress (with_reducible refine Keeps.of_mk ?_ rfl rfl rfl rfl rfl rfl rfl)

theorem deltaSend_keeps {base : State} {k : DeltaKind} {status : Nat} {s : State} (h_s : Keeps base s) :
    Keeps base (deltaSend k status s) := by
  unfold deltaSend
  repeat' first
    | with_reducible assumption
    | with_reducible apply mateSend_keeps
    | intro _
    | with_reducible refine ite_keeps ?_ ?_
    | split
    | fail_if_no_progress (with_reducible refine Keeps.of_mk ?_ rfl rfl rfl rfl rfl rfl rfl)

theorem keyApplied_keeps {base : State} {s : State} {x : KeyPend} (h_s : Keeps base s) :
    Keeps base (keyApplied s x) := by
  unfold keyApplied
  repeat' first
    | with_reducible assumption
    | with_reducible apply applyKey_keeps
    | with_reducible apply deltaSend_keeps
    | (intro x
       first
         | (have hx : Keeps base x := ?_; clear_value x; on_goal 2 => subst x)
         | clear_value x
         | subst x)
    | intro _
    | lift_lets -underBinder
    | split
    | dsimp -zeta only
    | fail_if_no_progress (with_reducible refine Keeps.of_mk ?_ rfl rfl rfl rfl rfl rfl rfl)

theorem keysDue_keeps {base : State} {s : State} (h_s : Keeps base s) :
    Keeps base (keysDue s) := by
  unfold keysDue
  repeat' first
    | with_reducible assumption
    | with_reducible apply keyApplied_keeps
    | with_reducible apply foldl_keeps
    | with_reducible apply foldl_keeps_fst
    | with_reducible apply foldl_keeps_snd
    | intro _

theorem changeRole_keeps {base : State} {s : State} {new : PRole} {cause : Nat} (h_s : Keeps base s) :
    Keeps base (changeRole s new cause) := by
  unfold changeRole
  repeat' first
    | with_reducible assumption
    | with_reducible apply recordAll_keeps
    | with_reducible apply tallyEvent_keeps
    | intro _
    | fail_if_no_progress (with_reducible refine Keeps.of_mk ?_ rfl rfl rfl rfl rfl rfl rfl)

theorem fallSilent_keeps {base : State} {s : State} (h_s : Keeps base s) :
    Keeps base (fallSilent s) := by
  unfold fallSilent
  repeat' first
    | with_reducible assumption
    | with_reducible apply changeRole_keeps
    | with_reducible apply synced_keeps
    | intro _
    | with_reducible refine ite_keeps ?_ ?_
    | split
    | fail_if_no_progress (with_reducible refine Keeps.of_mk ?_ rfl rfl rfl rfl rfl rfl rfl)

theorem selftest_keeps {base : State} {bitNo : Nat} {fatal : Bool} {detail : BitVec 32} {s : State} (h_s : Keeps base s) :
    Keeps base (selftest bitNo fatal detail s) := by
  unfold selftest
  repeat' first
    | with_reducible assumption
    | with_reducible apply recordAll_keeps
    | with_reducible apply tallyEvent_keeps
    | with_reducible apply prCount_keeps
    | with_reducible apply raiseFlag_keeps
    | with_reducible apply fallSilent_keeps
    | intro _
    | with_reducible refine ite_keeps ?_ ?_
    | split
    | fail_if_no_progress (with_reducible refine Keeps.of_mk ?_ rfl rfl rfl rfl rfl rfl rfl)

theorem conservation_keeps {base : State} {row : Nat} {s : State} (h_s : Keeps base s) :
    Keeps base (conservation row s) := by
  unfold conservation
  repeat' first
    | with_reducible assumption
    | with_reducible apply tallyEvent_keeps
    | with_reducible apply raiseSticky_keeps
    | with_reducible apply selftest_keeps

theorem checkRows_keeps {base : State} {rows : List Nat} {s : State} (h_s : Keeps base s) :
    Keeps base (checkRows rows s) := by
  unfold checkRows
  repeat' first
    | with_reducible assumption
    | with_reducible apply conservation_keeps
    | with_reducible apply foldl_keeps
    | with_reducible apply foldl_keeps_fst
    | with_reducible apply foldl_keeps_snd
    | intro _
    | with_reducible refine ite_keeps ?_ ?_
    | split
    | fail_if_no_progress (with_reducible refine Keeps.of_mk ?_ rfl rfl rfl rfl rfl rfl rfl)

theorem diverge_keeps {base : State} {kind : Nat} {ident : Nat} {s : State} (h_s : Keeps base s) :
    Keeps base (diverge kind ident s) := by
  unfold diverge
  repeat' first
    | with_reducible assumption
    | with_reducible apply recordAll_keeps
    | with_reducible apply prCount_keeps
    | with_reducible apply raiseFlag_keeps
    | intro _
    | fail_if_no_progress (with_reducible refine Keeps.of_mk ?_ rfl rfl rfl rfl rfl rfl rfl)

theorem dualActive_keeps {base : State} {s : State} (h_s : Keeps base s) :
    Keeps base (dualActive s) := by
  unfold dualActive
  repeat' first
    | with_reducible assumption
    | with_reducible apply prCount_keeps
    | with_reducible apply raiseFlag_keeps
    | with_reducible apply changeRole_keeps
    | intro _
    | with_reducible refine ite_keeps ?_ ?_
    | split
    | fail_if_no_progress (with_reducible refine Keeps.of_mk ?_ rfl rfl rfl rfl rfl rfl rfl)

theorem heartbeatRx_keeps {base : State} {port : Nat} {hb : Heartbeat} {s : State} (h_s : Keeps base s) :
    Keeps base (heartbeatRx port hb s) := by
  unfold heartbeatRx
  repeat' first
    | with_reducible assumption
    | with_reducible apply dualActive_keeps
    | intro _
    | with_reducible refine ite_keeps ?_ ?_
    | split
    | fail_if_no_progress (with_reducible refine Keeps.of_mk ?_ rfl rfl rfl rfl rfl rfl rfl)

theorem heartbeatSend_keeps {base : State} {s : State} (h_s : Keeps base s) :
    Keeps base (heartbeatSend s) := by
  unfold heartbeatSend
  repeat' first
    | with_reducible assumption
    | with_reducible apply mateSend_keeps
    | with_reducible apply foldl_keeps
    | with_reducible apply foldl_keeps_fst
    | with_reducible apply foldl_keeps_snd
    | intro _
    | with_reducible refine ite_keeps ?_ ?_
    | split
    | fail_if_no_progress (with_reducible refine Keeps.of_mk ?_ rfl rfl rfl rfl rfl rfl rfl)

theorem mateLinkLoss_keeps {base : State} {s : State} (h_s : Keeps base s) :
    Keeps base (mateLinkLoss s) := by
  unfold mateLinkLoss
  repeat' first
    | with_reducible assumption
    | with_reducible apply prCount_keeps
    | with_reducible apply raiseFlag_keeps
    | intro _
    | with_reducible refine ite_keeps ?_ ?_
    | split
    | fail_if_no_progress (with_reducible refine Keeps.of_mk ?_ rfl rfl rfl rfl rfl rfl rfl)

theorem mateLossCheck_keeps {base : State} {s : State} (h_s : Keeps base s) :
    Keeps base (mateLossCheck s) := by
  unfold mateLossCheck
  repeat' first
    | with_reducible assumption
    | with_reducible apply mateLinkLoss_keeps
    | with_reducible refine ite_keeps ?_ ?_
    | split

theorem hbExpiry_keeps {base : State} {s : State} (h_s : Keeps base s) :
    Keeps base (hbExpiry s) := by
  unfold hbExpiry
  repeat' first
    | with_reducible assumption
    | with_reducible apply State.runTo_keeps
    | with_reducible apply raiseFlag_keeps
    | with_reducible apply mateLossCheck_keeps
    | (intro x
       first
         | (have hx : Keeps base x := ?_; clear_value x; on_goal 2 => subst x)
         | clear_value x
         | subst x)
    | intro _
    | lift_lets -underBinder
    | with_reducible refine ite_keeps ?_ ?_
    | split
    | dsimp -zeta only
    | fail_if_no_progress (with_reducible refine Keeps.of_mk ?_ rfl rfl rfl rfl rfl rfl rfl)

theorem bcnExpiry_keeps {base : State} {s : State} (h_s : Keeps base s) :
    Keeps base (bcnExpiry s) := by
  unfold bcnExpiry
  repeat' first
    | with_reducible assumption
    | with_reducible apply State.runTo_keeps
    | with_reducible apply raiseFlag_keeps
    | intro _
    | with_reducible refine ite_keeps ?_ ?_
    | split
    | fail_if_no_progress (with_reducible refine Keeps.of_mk ?_ rfl rfl rfl rfl rfl rfl rfl)

theorem beaconSend_keeps {base : State} {port : Nat} {s : State} (h_s : Keeps base s) :
    Keeps base (beaconSend port s) := by
  unfold beaconSend
  repeat' first
    | with_reducible assumption
    | intro _
    | with_reducible refine ite_keeps ?_ ?_
    | split
    | fail_if_no_progress (with_reducible refine Keeps.of_mk ?_ rfl rfl rfl rfl rfl rfl rfl)

theorem beaconRx_keeps {base : State} {b : Beacon} {s : State} (h_s : Keeps base s) :
    Keeps base (beaconRx b s) := by
  unfold beaconRx
  repeat' first
    | with_reducible assumption
    | with_reducible apply prCount_keeps
    | with_reducible apply raiseFlag_keeps
    | with_reducible apply dualActive_keeps
    | with_reducible apply mateLossCheck_keeps
    | intro _
    | with_reducible refine ite_keeps ?_ ?_
    | split
    | fail_if_no_progress (with_reducible refine Keeps.of_mk ?_ rfl rfl rfl rfl rfl rfl rfl)

theorem negotiationEnd_keeps {base : State} {s : State} (h_s : Keeps base s) :
    Keeps base (negotiationEnd s) := by
  unfold negotiationEnd
  repeat' first
    | with_reducible assumption
    | with_reducible apply State.runTo_keeps
    | with_reducible apply changeRole_keeps
    | intro _
    | with_reducible refine ite_keeps ?_ ?_
    | split
    | fail_if_no_progress (with_reducible refine Keeps.of_mk ?_ rfl rfl rfl rfl rfl rfl rfl)

theorem takeover_keeps {base : State} {resume : State → State} {s : State} (h_resume : ∀ y0, Keeps base y0 → Keeps base (resume y0)) (h_s : Keeps base s) :
    Keeps base (takeover resume s) := by
  unfold takeover
  repeat' first
    | with_reducible assumption
    | with_reducible apply State.runTo_keeps
    | with_reducible apply prCount_keeps
    | with_reducible apply raiseSticky_keeps
    | with_reducible apply changeRole_keeps
    | with_reducible apply synced_keeps
    | apply h_resume
    | intro _
    | with_reducible refine ite_keeps ?_ ?_
    | split
    | fail_if_no_progress (with_reducible refine Keeps.of_mk ?_ rfl rfl rfl rfl rfl rfl rfl)

theorem startSwitch_keeps {base : State} {s : State} (h_s : Keeps base s) :
    Keeps base (startSwitch s) := by
  unfold startSwitch
  repeat' first
    | with_reducible assumption
    | with_reducible apply mateSend_keeps
    | intro _
    | fail_if_no_progress (with_reducible refine Keeps.of_mk ?_ rfl rfl rfl rfl rfl rfl rfl)

theorem prSwitchWrite_keeps {base : State} {p : Nat} {v : BitVec 32} {s : State} (h_s : Keeps base s) :
    Keeps base (prSwitchWrite p v s) := by
  unfold prSwitchWrite
  repeat' first
    | with_reducible assumption
    | with_reducible apply prCount_keeps
    | with_reducible apply startSwitch_keeps
    | with_reducible refine ite_keeps ?_ ?_
    | split

theorem revertHoldoff_keeps {base : State} {s : State} (h_s : Keeps base s) :
    Keeps base (revertHoldoff s) := by
  unfold revertHoldoff
  repeat' first
    | with_reducible assumption
    | with_reducible apply State.runTo_keeps
    | with_reducible apply startSwitch_keeps
    | intro _
    | with_reducible refine ite_keeps ?_ ?_
    | split
    | fail_if_no_progress (with_reducible refine Keeps.of_mk ?_ rfl rfl rfl rfl rfl rfl rfl)

theorem switchRx_keeps {base : State} {at_ : Nat} {s : State} (h_s : Keeps base s) :
    Keeps base (switchRx at_ s) := by
  unfold switchRx
  repeat' first
    | with_reducible assumption
    | with_reducible apply mateSend_keeps
    | intro _
    | with_reducible refine ite_keeps ?_ ?_
    | split
    | fail_if_no_progress (with_reducible refine Keeps.of_mk ?_ rfl rfl rfl rfl rfl rfl rfl)

theorem switchAcked_keeps {base : State} {s : State} (h_s : Keeps base s) :
    Keeps base (switchAcked s) := by
  unfold switchAcked
  repeat' first
    | with_reducible assumption
    | intro _
    | with_reducible refine ite_keeps ?_ ?_
    | split
    | fail_if_no_progress (with_reducible refine Keeps.of_mk ?_ rfl rfl rfl rfl rfl rfl rfl)

theorem goAct_keeps {base : State} {s : State} (h_s : Keeps base s) :
    Keeps base (goAct s) := by
  unfold goAct
  repeat' first
    | with_reducible assumption
    | with_reducible apply State.waitUntil_keeps
    | with_reducible apply prCount_keeps
    | with_reducible apply mateSend_keeps
    | intro _
    | with_reducible refine ite_keeps ?_ ?_
    | split
    | fail_if_no_progress (with_reducible refine Keeps.of_mk ?_ rfl rfl rfl rfl rfl rfl rfl)

theorem goAckRx_keeps {base : State} {s : State} (h_s : Keeps base s) :
    Keeps base (goAckRx s) := by
  unfold goAckRx
  repeat' first
    | with_reducible assumption
    | intro _
    | with_reducible refine ite_keeps ?_ ?_
    | split
    | fail_if_no_progress (with_reducible refine Keeps.of_mk ?_ rfl rfl rfl rfl rfl rfl rfl)

theorem goRx_keeps {base : State} {s : State} (h_s : Keeps base s) :
    Keeps base (goRx s) := by
  unfold goRx
  repeat' first
    | with_reducible assumption
    | with_reducible apply mateSend_keeps
    | intro _
    | with_reducible refine ite_keeps ?_ ?_
    | split
    | fail_if_no_progress (with_reducible refine Keeps.of_mk ?_ rfl rfl rfl rfl rfl rfl rfl)

theorem switchover_keeps {base : State} {resume : Nat → State → State} {leave : Nat → State → State} {s : State} (h_resume : ∀ y0 y1, Keeps base y1 → Keeps base (resume y0 y1)) (h_leave : ∀ y0 y1, Keeps base y1 → Keeps base (leave y0 y1)) (h_s : Keeps base s) :
    Keeps base (switchover resume leave s) := by
  unfold switchover
  repeat' first
    | with_reducible assumption
    | with_reducible apply State.waitUntil_keeps
    | with_reducible apply prCount_keeps
    | with_reducible apply changeRole_keeps
    | with_reducible apply synced_keeps
    | apply h_resume
    | apply h_leave
    | intro _
    | with_reducible refine ite_keeps ?_ ?_
    | split
    | fail_if_no_progress (with_reducible refine Keeps.of_mk ?_ rfl rfl rfl rfl rfl rfl rfl)

theorem health_keeps {base : State} {s : State} (h_s : Keeps base s) :
    Keeps base (health s) := by
  unfold health
  repeat' first
    | with_reducible assumption
    | with_reducible apply recordAll_keeps
    | with_reducible apply waitTop_keeps
    | intro _
    | with_reducible refine ite_keeps ?_ ?_
    | split
    | fail_if_no_progress (with_reducible refine Keeps.of_mk ?_ rfl rfl rfl rfl rfl rfl rfl)

theorem decide__keeps {base : State} {d : Decision} {s : State} (h_s : Keeps base s) :
    Keeps base (decide_ d s) := by
  unfold decide_
  repeat' first
    | with_reducible assumption
    | with_reducible apply mateSend_keeps
    | with_reducible apply diverge_keeps
    | intro _
    | with_reducible refine ite_keeps ?_ ?_
    | split
    | fail_if_no_progress (with_reducible refine Keeps.of_mk ?_ rfl rfl rfl rfl rfl rfl rfl)

theorem decisionRx_keeps {base : State} {d : Decision} {s : State} (h_s : Keeps base s) :
    Keeps base (decisionRx d s) := by
  unfold decisionRx
  repeat' first
    | with_reducible assumption
    | with_reducible apply diverge_keeps
    | intro _
    | with_reducible refine ite_keeps ?_ ?_
    | split
    | fail_if_no_progress (with_reducible refine Keeps.of_mk ?_ rfl rfl rfl rfl rfl rfl rfl)

theorem counterpartTimeout_keeps {base : State} {s : State} (h_s : Keeps base s) :
    Keeps base (counterpartTimeout s) := by
  unfold counterpartTimeout
  repeat' first
    | with_reducible assumption
    | with_reducible apply State.waitSlot_keeps
    | with_reducible apply diverge_keeps
    | intro _
    | split
    | fail_if_no_progress (with_reducible refine Keeps.of_mk ?_ rfl rfl rfl rfl rfl rfl rfl)

theorem settleFrame_keeps {base : State} {id : FrameId} {s : State} (h_s : Keeps base s) :
    Keeps base (settleFrame id s) := by
  unfold settleFrame
  repeat' first
    | with_reducible assumption
    | intro _
    | with_reducible refine ite_keeps ?_ ?_
    | split
    | fail_if_no_progress (with_reducible refine Keeps.of_mk ?_ rfl rfl rfl rfl rfl rfl rfl)

theorem synced_keeps {base : State} {s : State} (h_s : Keeps base s) :
    Keeps base (synced s) := by
  unfold synced
  repeat' first
    | with_reducible assumption
    | with_reducible apply State.waitSlot_keeps
    | intro _
    | with_reducible refine ite_keeps ?_ ?_
    | split
    | fail_if_no_progress (with_reducible refine Keeps.of_mk ?_ rfl rfl rfl rfl rfl rfl rfl)

theorem resyncRequest_keeps {base : State} {paired : Bool} {s : State} (h_s : Keeps base s) :
    Keeps base (resyncRequest paired s) := by
  unfold resyncRequest
  repeat' first
    | with_reducible assumption
    | with_reducible apply mateSend_keeps
    | intro _
    | with_reducible refine ite_keeps ?_ ?_
    | split
    | fail_if_no_progress (with_reducible refine Keeps.of_mk ?_ rfl rfl rfl rfl rfl rfl rfl)

end Sys2Proof.Machine
end

