-- ==== Sys2Proof/Laws/GreenOps.lean ====
section
/-! SUPPORT. What the operations of Machine/GreenOps.lean keep (`Keeps` of Laws/Keeps.lean). -/

set_option linter.all false

namespace Sys2Proof.Machine

theorem State.updMac_keeps {base : State} {s : State} {q : Nat} {f : Mac → Mac} (h_s : Keeps base s) :
    Keeps base (State.updMac s q f) := by
  unfold State.updMac
  repeat' first
    | with_reducible assumption
    | intro _
    | fail_if_no_progress (with_reducible refine Keeps.of_mk ?_ rfl rfl rfl rfl rfl rfl rfl)

theorem macCount_keeps {base : State} {s : State} {q : Nat} {i : Nat} {n : Nat} (h_s : Keeps base s) :
    Keeps base (macCount s q i n) := by
  unfold macCount
  repeat' first
    | with_reducible assumption
    | intro _
    | with_reducible refine ite_keeps ?_ ?_
    | split
    | fail_if_no_progress (with_reducible refine Keeps.of_mk ?_ rfl rfl rfl rfl rfl rfl rfl)

theorem gnCount_keeps {base : State} {s : State} {index : Nat} {port : Nat} {cls : Nat} (h_s : Keeps base s) :
    Keeps base (gnCount s index port cls) := by
  unfold gnCount
  repeat' first
    | with_reducible assumption
    | intro _
    | fail_if_no_progress (with_reducible refine Keeps.of_mk ?_ rfl rfl rfl rfl rfl rfl rfl)

theorem dropOut_keeps {base : State} {s : State} {id : Nat} {q : Nat} (h_s : Keeps base s) :
    Keeps base (dropOut s id q) := by
  unfold dropOut
  repeat' first
    | with_reducible assumption
    | intro _
    | with_reducible refine ite_keeps ?_ ?_
    | split
    | fail_if_no_progress (with_reducible refine Keeps.of_mk ?_ rfl rfl rfl rfl rfl rfl rfl)

theorem updFrame_keeps {base : State} {s : State} {id : Nat} {g : GFrame → GFrame} (h_s : Keeps base s) :
    Keeps base (updFrame s id g) := by
  unfold updFrame
  repeat' first
    | with_reducible assumption
    | intro _
    | with_reducible refine ite_keeps ?_ ?_
    | split
    | fail_if_no_progress (with_reducible refine Keeps.of_mk ?_ rfl rfl rfl rfl rfl rfl rfl)

theorem discardAt_keeps {base : State} {q : Nat} {reason : Nat} {f : GFrame} {s : State} (h_s : Keeps base s) :
    Keeps base (discardAt q reason f s) := by
  unfold discardAt
  repeat' first
    | with_reducible assumption
    | with_reducible apply completeKey_keeps
    | with_reducible apply macCount_keeps
    | with_reducible apply dropOut_keeps
    | intro _
    | split
    | fail_if_no_progress (with_reducible refine Keeps.of_mk ?_ rfl rfl rfl rfl rfl rfl rfl)

theorem discardWaiting_keeps {base : State} {q : Nat} {reason : Nat} {s : State} (h_s : Keeps base s) :
    Keeps base (discardWaiting q reason s) := by
  unfold discardWaiting
  repeat' first
    | with_reducible assumption
    | with_reducible apply discardAt_keeps
    | with_reducible apply foldl_keeps
    | with_reducible apply foldl_keeps_fst
    | with_reducible apply foldl_keeps_snd
    | intro _

theorem enqueue_keeps {base : State} {f0 : GFrame} {wants : List Nat} {s : State} (h_s : Keeps base s) :
    Keeps base (enqueue f0 wants s) := by
  unfold enqueue
  repeat' first
    | with_reducible assumption
    | with_reducible apply finishKey_keeps
    | with_reducible apply gnCount_keeps
    | with_reducible apply discardAt_keeps
    | with_reducible apply foldl_keeps
    | with_reducible apply foldl_keeps_fst
    | with_reducible apply foldl_keeps_snd
    | intro _
    | with_reducible refine ite_keeps ?_ ?_
    | split
    | fail_if_no_progress (with_reducible refine Keeps.of_mk ?_ rfl rfl rfl rfl rfl rfl rfl)

theorem setTurn_keeps {base : State} {q : Nat} {d : Tbl Nat × Nat} {s : State} (h_s : Keeps base s) :
    Keeps base (setTurn q d s) := by
  unfold setTurn
  repeat' first
    | with_reducible assumption
    | with_reducible apply State.updMac_keeps
    | intro _
    | with_reducible refine ite_keeps ?_ ?_
    | split
    | fail_if_no_progress (with_reducible refine Keeps.of_mk ?_ rfl rfl rfl rfl rfl rfl rfl)

theorem noteSync_keeps {base : State} {q : Nat} {f : GFrame} {evt : Stamp} {s : State} (h_s : Keeps base s) :
    Keeps base (noteSync q f evt s) := by
  unfold noteSync
  repeat' first
    | with_reducible assumption
    | intro _
    | with_reducible refine ite_keeps ?_ ?_
    | split
    | fail_if_no_progress (with_reducible refine Keeps.of_mk ?_ rfl rfl rfl rfl rfl rfl rfl)

theorem dropPair_keeps {base : State} {q : Nat} {f : GFrame} {s : State} (h_s : Keeps base s) :
    Keeps base (dropPair q f s) := by
  unfold dropPair
  repeat' first
    | with_reducible assumption
    | intro _
    | with_reducible refine ite_keeps ?_ ?_
    | split
    | fail_if_no_progress (with_reducible refine Keeps.of_mk ?_ rfl rfl rfl rfl rfl rfl rfl)

theorem wireOut_keeps {base : State} {s : State} {q : Nat} {w : WireOut} (h_s : Keeps base s) :
    Keeps base (wireOut s q w) := by
  unfold wireOut
  repeat' first
    | with_reducible assumption
    | intro _
    | fail_if_no_progress (with_reducible refine Keeps.of_mk ?_ rfl rfl rfl rfl rfl rfl rfl)

theorem takeIdent_keeps {base : State} {s : State} {q : Nat} {f : GFrame} (h_s : Keeps base s) :
    Keeps base (takeIdent s q f) := by
  unfold takeIdent
  repeat' first
    | with_reducible assumption
    | with_reducible apply updFrame_keeps
    | intro _
    | split
    | fail_if_no_progress (with_reducible refine Keeps.of_mk ?_ rfl rfl rfl rfl rfl rfl rfl)

theorem stampQueue_keeps {base : State} {s : State} {q : Nat} {id : Nat} {evt : Stamp} (h_s : Keeps base s) :
    Keeps base (stampQueue s q id evt) := by
  unfold stampQueue
  repeat' first
    | with_reducible assumption
    | with_reducible apply pushTsq_keeps
    | intro _
    | split
    | fail_if_no_progress (with_reducible refine Keeps.of_mk ?_ rfl rfl rfl rfl rfl rfl rfl)

theorem beginFrame_keeps {base : State} {q : Nat} {f : GFrame} {s : State} (h_s : Keeps base s) :
    Keeps base (beginFrame q f s) := by
  unfold beginFrame
  repeat' first
    | with_reducible assumption
    | with_reducible apply State.updMac_keeps
    | with_reducible apply updFrame_keeps
    | with_reducible apply noteSync_keeps
    | with_reducible apply takeIdent_keeps
    | with_reducible apply stampQueue_keeps
    | intro _
    | with_reducible refine ite_keeps ?_ ?_
    | split
    | fail_if_no_progress (with_reducible refine Keeps.of_mk ?_ rfl rfl rfl rfl rfl rfl rfl)

theorem startNext_keeps {base : State} {q : Nat} {a0 : Nat} {a1 : State} (h_a1 : Keeps base a1) :
    Keeps base (startNext q a0 a1) := by
  unfold startNext
  repeat' first
    | with_reducible assumption
    | with_reducible apply State.updMac_keeps
    | with_reducible apply discardAt_keeps
    | with_reducible apply setTurn_keeps
    | with_reducible apply beginFrame_keeps
    | with_reducible apply startNext_keeps
    | (intro x
       first
         | (have hx : Keeps base x := ?_; clear_value x; on_goal 2 => subst x)
         | clear_value x
         | subst x)
    | intro _
    | lift_lets -underBinder
    | with_reducible refine ite_keeps ?_ ?_
    | split
    | dsimp -zeta only
    | fail_if_no_progress (with_reducible refine Keeps.of_mk ?_ rfl rfl rfl rfl rfl rfl rfl)

theorem frameTxStart_keeps {base : State} {q : Nat} {s : State} (h_s : Keeps base s) :
    Keeps base (frameTxStart q s) := by
  unfold frameTxStart
  repeat' first
    | with_reducible assumption
    | with_reducible apply State.updMac_keeps
    | with_reducible apply macCount_keeps
    | with_reducible apply startNext_keeps
    | intro _
    | with_reducible refine ite_keeps ?_ ?_
    | split
    | fail_if_no_progress (with_reducible refine Keeps.of_mk ?_ rfl rfl rfl rfl rfl rfl rfl)

theorem txDone_keeps {base : State} {q : Nat} {x : TxRun} {f : GFrame} {s : State} (h_s : Keeps base s) :
    Keeps base (txDone q x f s) := by
  unfold txDone
  repeat' first
    | with_reducible assumption
    | with_reducible apply completeKey_keeps
    | intro _
    | with_reducible refine ite_keeps ?_ ?_
    | split
    | fail_if_no_progress (with_reducible refine Keeps.of_mk ?_ rfl rfl rfl rfl rfl rfl rfl)

theorem frameTxComplete_keeps {base : State} {q : Nat} {s : State} (h_s : Keeps base s) :
    Keeps base (frameTxComplete q s) := by
  unfold frameTxComplete
  repeat' first
    | with_reducible assumption
    | with_reducible apply State.runTo_keeps
    | with_reducible apply State.updMac_keeps
    | with_reducible apply macCount_keeps
    | with_reducible apply dropOut_keeps
    | with_reducible apply noteSync_keeps
    | with_reducible apply dropPair_keeps
    | with_reducible apply wireOut_keeps
    | with_reducible apply stampQueue_keeps
    | with_reducible apply txDone_keeps
    | (intro x
       first
         | (have hx : Keeps base x := ?_; clear_value x; on_goal 2 => subst x)
         | clear_value x
         | subst x)
    | intro _
    | lift_lets -underBinder
    | with_reducible refine ite_keeps ?_ ?_
    | split
    | dsimp -zeta only
    | fail_if_no_progress (with_reducible refine Keeps.of_mk ?_ rfl rfl rfl rfl rfl rfl rfl)

theorem collision_keeps {base : State} {q : Nat} {late : Bool} {s : State} (h_s : Keeps base s) :
    Keeps base (collision q late s) := by
  unfold collision
  repeat' first
    | with_reducible assumption
    | with_reducible exact Keeps.refl _
    | with_reducible apply State.updMac_keeps
    | with_reducible apply macCount_keeps
    | with_reducible apply discardAt_keeps
    | with_reducible apply wireOut_keeps
    | (intro x
       first
         | (have hx_ : Prop := x; clear hx_; subst x)
         | (have hx_ : _ → _ := x; clear hx_; subst x)
         | (have hx_ : TbState := x; clear hx_; subst x)
         | (have hx_ : OkState := x; clear hx_; subst x)
         | (have hx : Keeps base x := ?_; clear_value x; on_goal 2 => subst x)
         | (have hx : (∀ y, x.1 = some y → Keeps base y) ∧ Keeps base x.2 := ?_; clear_value x; on_goal 2 => subst x)
         | (have hx : Keeps base x.1 := ?_; clear_value x; on_goal 2 => subst x)
         | (have hx : Keeps base x.2 := ?_; clear_value x; on_goal 2 => subst x)
         | clear_value x)
    | intro _
    | lift_lets -underBinder
    | with_reducible refine ite_keeps ?_ ?_
    | split
    | dsimp -zeta only
    | fail_if_no_progress (with_reducible refine Keeps.of_mk ?_ rfl rfl rfl rfl rfl rfl rfl)

theorem backoffExpiry_keeps {base : State} {q : Nat} {s : State} (h_s : Keeps base s) :
    Keeps base (backoffExpiry q s) := by
  unfold backoffExpiry
  repeat' first
    | with_reducible assumption
    | with_reducible apply State.updMac_keeps
    | with_reducible apply discardAt_keeps
    | with_reducible apply beginFrame_keeps
    | (intro x
       first
         | (have hx : Keeps base x := ?_; clear_value x; on_goal 2 => subst x)
         | clear_value x
         | subst x)
    | intro _
    | lift_lets -underBinder
    | with_reducible refine ite_keeps ?_ ?_
    | split
    | dsimp -zeta only
    | fail_if_no_progress (with_reducible refine Keeps.of_mk ?_ rfl rfl rfl rfl rfl rfl rfl)

theorem pauseRx_keeps {base : State} {q : Nat} {n : Nat} {s : State} (h_s : Keeps base s) :
    Keeps base (pauseRx q n s) := by
  unfold pauseRx
  repeat' first
    | with_reducible assumption
    | with_reducible apply State.updMac_keeps
    | with_reducible apply macCount_keeps
    | intro _
    | with_reducible refine ite_keeps ?_ ?_
    | split
    | fail_if_no_progress (with_reducible refine Keeps.of_mk ?_ rfl rfl rfl rfl rfl rfl rfl)

theorem pfcRx_keeps {base : State} {q : Nat} {vec : Nat} {times : List Nat} {s : State} (h_s : Keeps base s) :
    Keeps base (pfcRx q vec times s) := by
  unfold pfcRx
  repeat' first
    | with_reducible assumption
    | with_reducible apply State.updMac_keeps
    | with_reducible apply macCount_keeps
    | with_reducible apply foldl_keeps
    | with_reducible apply foldl_keeps_fst
    | with_reducible apply foldl_keeps_snd
    | intro _
    | with_reducible refine ite_keeps ?_ ?_
    | split
    | fail_if_no_progress (with_reducible refine Keeps.of_mk ?_ rfl rfl rfl rfl rfl rfl rfl)

theorem pauseExpiry_keeps {base : State} {q : Nat} {s : State} (h_s : Keeps base s) :
    Keeps base (pauseExpiry q s) := by
  unfold pauseExpiry
  repeat' first
    | with_reducible assumption
    | with_reducible apply State.runTo_keeps
    | with_reducible apply State.updMac_keeps
    | with_reducible apply foldl_keeps
    | with_reducible apply foldl_keeps_fst
    | with_reducible apply foldl_keeps_snd
    | (intro x
       first
         | (have hx : Keeps base x := ?_; clear_value x; on_goal 2 => subst x)
         | clear_value x
         | subst x)
    | intro _
    | lift_lets -underBinder
    | with_reducible refine ite_keeps ?_ ?_
    | split
    | dsimp -zeta only
    | fail_if_no_progress (with_reducible refine Keeps.of_mk ?_ rfl rfl rfl rfl rfl rfl rfl)

theorem cutFrames_keeps {base : State} {q : Nat} {s : State} (h_s : Keeps base s) :
    Keeps base (cutFrames q s) := by
  unfold cutFrames
  repeat' first
    | with_reducible assumption
    | with_reducible apply State.updMac_keeps
    | with_reducible apply discardAt_keeps
    | with_reducible apply foldl_keeps
    | with_reducible apply foldl_keeps_fst
    | with_reducible apply foldl_keeps_snd
    | intro _
    | split
    | fail_if_no_progress (with_reducible refine Keeps.of_mk ?_ rfl rfl rfl rfl rfl rfl rfl)

theorem holdEnd_keeps {base : State} {q : Nat} {s : State} (h_s : Keeps base s) :
    Keeps base (holdEnd q s) := by
  unfold holdEnd
  repeat' first
    | with_reducible assumption
    | with_reducible apply State.updMac_keeps
    | with_reducible apply discardWaiting_keeps
    | intro _
    | fail_if_no_progress (with_reducible refine Keeps.of_mk ?_ rfl rfl rfl rfl rfl rfl rfl)

theorem linkLoss_keeps {base : State} {q : Nat} {receiving : Bool} {s : State} (h_s : Keeps base s) :
    Keeps base (linkLoss q receiving s) := by
  unfold linkLoss
  repeat' first
    | with_reducible assumption
    | with_reducible apply devIrq_keeps
    | with_reducible apply State.updMac_keeps
    | with_reducible apply macCount_keeps
    | with_reducible apply cutFrames_keeps
    | with_reducible apply holdEnd_keeps
    | intro _
    | with_reducible refine ite_keeps ?_ ?_
    | split
    | fail_if_no_progress (with_reducible refine Keeps.of_mk ?_ rfl rfl rfl rfl rfl rfl rfl)

theorem holdExpiry_keeps {base : State} {q : Nat} {s : State} (h_s : Keeps base s) :
    Keeps base (holdExpiry q s) := by
  unfold holdExpiry
  repeat' first
    | with_reducible assumption
    | with_reducible apply State.runTo_keeps
    | with_reducible apply holdEnd_keeps
    | intro _
    | split
    | fail_if_no_progress (with_reducible refine Keeps.of_mk ?_ rfl rfl rfl rfl rfl rfl rfl)

theorem linkUp_keeps {base : State} {q : Nat} {speed : Nat} {half : Bool} {s : State} (h_s : Keeps base s) :
    Keeps base (linkUp q speed half s) := by
  unfold linkUp
  repeat' first
    | with_reducible assumption
    | with_reducible apply State.updMac_keeps
    | with_reducible apply wireOut_keeps
    | with_reducible apply holdEnd_keeps
    | intro _
    | with_reducible refine ite_keeps ?_ ?_
    | split
    | fail_if_no_progress (with_reducible refine Keeps.of_mk ?_ rfl rfl rfl rfl rfl rfl rfl)

theorem verifyTimeout_keeps {base : State} {q : Nat} {s : State} (h_s : Keeps base s) :
    Keeps base (verifyTimeout q s) := by
  unfold verifyTimeout
  repeat' first
    | with_reducible assumption
    | with_reducible apply State.runTo_keeps
    | with_reducible apply State.updMac_keeps
    | with_reducible apply macCount_keeps
    | with_reducible apply wireOut_keeps
    | intro _
    | with_reducible refine ite_keeps ?_ ?_
    | split
    | fail_if_no_progress (with_reducible refine Keeps.of_mk ?_ rfl rfl rfl rfl rfl rfl rfl)

theorem verifyRx_keeps {base : State} {q : Nat} {k : VerifyKind} {s : State} (h_s : Keeps base s) :
    Keeps base (verifyRx q k s) := by
  unfold verifyRx
  repeat' first
    | with_reducible assumption
    | with_reducible apply State.updMac_keeps
    | with_reducible apply wireOut_keeps
    | intro _
    | with_reducible refine ite_keeps ?_ ?_
    | split
    | fail_if_no_progress (with_reducible refine Keeps.of_mk ?_ rfl rfl rfl rfl rfl rfl rfl)

theorem portChanged_keeps {base : State} {q : Nat} {old : BitVec 32} {s : State} (h_s : Keeps base s) :
    Keeps base (portChanged q old s) := by
  unfold portChanged
  repeat' first
    | with_reducible assumption
    | with_reducible apply State.updMac_keeps
    | with_reducible apply discardWaiting_keeps
    | with_reducible apply linkLoss_keeps
    | intro _
    | with_reducible refine ite_keeps ?_ ?_
    | split
    | fail_if_no_progress (with_reducible refine Keeps.of_mk ?_ rfl rfl rfl rfl rfl rfl rfl)

theorem tcOutputs_keeps {base : State} {port : Nat} {o : Bytes} {outs : List Nat} {s : State} (h_s : Keeps base s) :
    Keeps base (tcOutputs port o outs s).2 := by
  unfold tcOutputs
  repeat' first
    | with_reducible assumption
    | with_reducible apply gnCount_keeps
    | with_reducible apply foldl_keeps
    | with_reducible apply foldl_keeps_fst
    | with_reducible apply foldl_keeps_snd
    | intro _
    | with_reducible refine ite_keeps ?_ ?_
    | split
    | fail_if_no_progress (with_reducible refine Keeps.of_mk ?_ rfl rfl rfl rfl rfl rfl rfl)

theorem toGreen_keeps {base : State} {port : Nat} {o : Bytes} {since : Nat} {s : State} (h_s : Keeps base s) :
    Keeps base (toGreen port o since s) := by
  unfold toGreen
  repeat' first
    | with_reducible assumption
    | with_reducible apply gnCount_keeps
    | with_reducible apply enqueue_keeps
    | with_reducible apply tcOutputs_keeps
    | intro _
    | with_reducible refine ite_keeps ?_ ?_
    | split
    | fail_if_no_progress (with_reducible refine Keeps.of_mk ?_ rfl rfl rfl rfl rfl rfl rfl)

theorem frameRx_keeps {base : State} {hook : Nat → Bytes → State → State × Option Bytes} {port : Nat} {o : Bytes} {fl : RxFlags} {s : State} (h_hook : ∀ y0 y1 y2, Keeps base y2 → Keeps base (hook y0 y1 y2).1) (h_s : Keeps base s) :
    Keeps base (frameRx hook port o fl s) := by
  unfold frameRx
  repeat' first
    | with_reducible assumption
    | with_reducible exact Keeps.refl _
    | with_reducible apply checkRows_keeps
    | with_reducible apply macCount_keeps
    | with_reducible apply pauseRx_keeps
    | with_reducible apply pfcRx_keeps
    | with_reducible apply toGreen_keeps
    | apply h_hook
    | (intro x
       first
         | (have hx_ : Prop := x; clear hx_; subst x)
         | (have hx_ : _ → _ := x; clear hx_; subst x)
         | (have hx_ : TbState := x; clear hx_; subst x)
         | (have hx_ : OkState := x; clear hx_; subst x)
         | (have hx : Keeps base x := ?_; clear_value x; on_goal 2 => subst x)
         | (have hx : (∀ y, x.1 = some y → Keeps base y) ∧ Keeps base x.2 := ?_; clear_value x; on_goal 2 => subst x)
         | (have hx : Keeps base x.1 := ?_; clear_value x; on_goal 2 => subst x)
         | (have hx : Keeps base x.2 := ?_; clear_value x; on_goal 2 => subst x)
         | clear_value x)
    | intro _
    | lift_lets -underBinder
    | with_reducible refine ite_keeps ?_ ?_
    | split
    | dsimp -zeta only
    | fail_if_no_progress (with_reducible refine Keeps.of_mk ?_ rfl rfl rfl rfl rfl rfl rfl)

theorem txFrameAct_keeps {base : State} {p : Nat} {r : Nat} {s : State} {f : Flight} (h_s : Keeps base s) :
    Keeps base (txFrameAct p r s f) := by
  unfold txFrameAct
  repeat' first
    | with_reducible assumption
    | with_reducible apply State.winFault_keeps
    | with_reducible apply finish_keeps
    | with_reducible apply enqueue_keeps
    | intro _
    | with_reducible refine ite_keeps ?_ ?_
    | split
    | fail_if_no_progress (with_reducible refine Keeps.of_mk ?_ rfl rfl rfl rfl rfl rfl rfl)

theorem rxBufAct_keeps {base : State} {p : Nat} {r : Nat} {s : State} {f : Flight} (h_s : Keeps base s) :
    Keeps base (rxBufAct p r s f) := by
  unfold rxBufAct
  repeat' first
    | with_reducible assumption
    | with_reducible apply State.winFault_keeps
    | with_reducible apply devWrite_keeps
    | with_reducible apply finish_keeps
    | with_reducible refine ite_keeps ?_ ?_
    | split

theorem ringDrop_keeps {base : State} {s : State} {p : Nat} {r : Nat} (h_s : Keeps base s) :
    Keeps base (ringDrop s p r) := by
  unfold ringDrop
  repeat' first
    | with_reducible assumption
    | with_reducible apply State.updRing_keeps
    | intro _
    | fail_if_no_progress (with_reducible refine Keeps.of_mk ?_ rfl rfl rfl rfl rfl rfl rfl)

theorem frameDelivery_keeps {base : State} {s : State} (h_s : Keeps base s) :
    Keeps base (frameDelivery s) := by
  unfold frameDelivery
  repeat' first
    | with_reducible assumption
    | with_reducible apply devWrite_keeps
    | with_reducible apply complete_keeps
    | with_reducible apply gnCount_keeps
    | with_reducible apply dropOut_keeps
    | with_reducible apply setTurn_keeps
    | with_reducible apply ringDrop_keeps
    | intro _
    | with_reducible refine ite_keeps ?_ ?_
    | split
    | fail_if_no_progress (with_reducible refine Keeps.of_mk ?_ rfl rfl rfl rfl rfl rfl rfl)

theorem followUpTimeout_keeps {base : State} {k : Nat} {s : State} (h_s : Keeps base s) :
    Keeps base (followUpTimeout k s) := by
  unfold followUpTimeout
  repeat' first
    | with_reducible assumption
    | with_reducible apply State.runTo_keeps
    | with_reducible apply dropOut_keeps
    | (intro x
       first
         | (have hx : Keeps base x := ?_; clear_value x; on_goal 2 => subst x)
         | clear_value x
         | subst x)
    | intro _
    | lift_lets -underBinder
    | split
    | dsimp -zeta only
    | fail_if_no_progress (with_reducible refine Keeps.of_mk ?_ rfl rfl rfl rfl rfl rfl rfl)

theorem opticsPoll_keeps {base : State} {q : Nat} {reading : Option Bytes} {s : State} (h_s : Keeps base s) :
    Keeps base (opticsPoll q reading s) := by
  unfold opticsPoll
  repeat' first
    | with_reducible assumption
    | with_reducible apply State.updMac_keeps
    | intro _
    | with_reducible refine ite_keeps ?_ ?_
    | split
    | fail_if_no_progress (with_reducible refine Keeps.of_mk ?_ rfl rfl rfl rfl rfl rfl rfl)

theorem transceiverIn_keeps {base : State} {q : Nat} {a0 : Bytes} {a2 : Bytes} {s : State} (h_s : Keeps base s) :
    Keeps base (transceiverIn q a0 a2 s) := by
  unfold transceiverIn
  repeat' first
    | with_reducible assumption
    | with_reducible apply State.updMac_keeps
    | intro _
    | with_reducible refine ite_keeps ?_ ?_
    | split
    | fail_if_no_progress (with_reducible refine Keeps.of_mk ?_ rfl rfl rfl rfl rfl rfl rfl)

theorem transceiverOut_keeps {base : State} {q : Nat} {s : State} (h_s : Keeps base s) :
    Keeps base (transceiverOut q s) := by
  unfold transceiverOut
  repeat' first
    | with_reducible assumption
    | with_reducible apply State.updMac_keeps
    | with_reducible apply linkLoss_keeps
    | intro _
    | with_reducible refine ite_keeps ?_ ?_
    | split
    | fail_if_no_progress (with_reducible refine Keeps.of_mk ?_ rfl rfl rfl rfl rfl rfl rfl)

end Sys2Proof.Machine
end

