-- ==== Sys2Proof/Laws/Loops.lean ====
section
/-! SUPPORT. What the operations of Machine/Loops.lean keep (`Keeps` of Laws/Keeps.lean). -/

set_option linter.all false

namespace Sys2Proof.Machine

theorem State.updLane_keeps {base : State} {s : State} {g : Nat} {f : LaneRt → LaneRt} (h_s : Keeps base s) :
    Keeps base (State.updLane s g f) := by
  unfold State.updLane
  repeat' first
    | with_reducible assumption
    | intro _
    | fail_if_no_progress (with_reducible refine Keeps.of_mk ?_ rfl rfl rfl rfl rfl rfl rfl)

theorem laneCount_keeps {base : State} {s : State} {g : Nat} {i : Nat} (h_s : Keeps base s) :
    Keeps base (laneCount s g i) := by
  unfold laneCount
  repeat' first
    | with_reducible assumption
    | with_reducible apply State.updLane_keeps
    | intro _
    | fail_if_no_progress (with_reducible refine Keeps.of_mk ?_ rfl rfl rfl rfl rfl rfl rfl)

theorem laneEvent_keeps {base : State} {s : State} {g : Nat} {kind : Nat} (h_s : Keeps base s) :
    Keeps base (laneEvent s g kind) := by
  unfold laneEvent
  repeat' first
    | with_reducible assumption
    | with_reducible apply devIrq_keeps
    | with_reducible apply State.updLane_keeps
    | intro _
    | with_reducible refine ite_keeps ?_ ?_
    | split
    | fail_if_no_progress (with_reducible refine Keeps.of_mk ?_ rfl rfl rfl rfl rfl rfl rfl)

theorem laneCut_keeps {base : State} {s : State} {g : Nat} (h_s : Keeps base s) :
    Keeps base (laneCut s g) := by
  unfold laneCut
  repeat' first
    | with_reducible assumption
    | with_reducible apply devIrq_keeps
    | with_reducible apply State.updLane_keeps
    | with_reducible apply laneCount_keeps
    | intro _
    | with_reducible refine ite_keeps ?_ ?_
    | split
    | fail_if_no_progress (with_reducible refine Keeps.of_mk ?_ rfl rfl rfl rfl rfl rfl rfl)

theorem laneFollow_keeps {base : State} {s : State} {g : Nat} (h_s : Keeps base s) :
    Keeps base (laneFollow s g) := by
  unfold laneFollow
  repeat' first
    | with_reducible assumption
    | with_reducible apply State.updLane_keeps
    | with_reducible apply foldl_keeps
    | with_reducible apply foldl_keeps_fst
    | with_reducible apply foldl_keeps_snd
    | intro _
    | fail_if_no_progress (with_reducible refine Keeps.of_mk ?_ rfl rfl rfl rfl rfl rfl rfl)

theorem startPeriod_keeps {base : State} {s : State} {g : Nat} {at_ : Nat} {isNew : Bool} (h_s : Keeps base s) :
    Keeps base (startPeriod s g at_ isNew) := by
  unfold startPeriod
  repeat' first
    | with_reducible assumption
    | with_reducible apply State.updLane_keeps
    | with_reducible apply laneCount_keeps
    | with_reducible apply laneEvent_keeps
    | with_reducible apply laneCut_keeps
    | with_reducible apply laneFollow_keeps
    | with_reducible apply foldl_keeps
    | with_reducible apply foldl_keeps_fst
    | with_reducible apply foldl_keeps_snd
    | intro _
    | with_reducible refine ite_keeps ?_ ?_
    | split
    | fail_if_no_progress (with_reducible refine Keeps.of_mk ?_ rfl rfl rfl rfl rfl rfl rfl)

theorem laneRelease_keeps {base : State} {s : State} {g : Nat} {y : Int} {t16 : Nat} {computed : Bool} (h_s : Keeps base s) :
    Keeps base (laneRelease s g y t16 computed) := by
  unfold laneRelease
  repeat' first
    | with_reducible assumption
    | with_reducible apply State.updLane_keeps
    | with_reducible apply laneCount_keeps
    | with_reducible apply startPeriod_keeps
    | intro _
    | with_reducible refine ite_keeps ?_ ?_
    | split
    | fail_if_no_progress (with_reducible refine Keeps.of_mk ?_ rfl rfl rfl rfl rfl rfl rfl)

theorem laneReload_keeps {base : State} {g : Nat} {s : State} (h_s : Keeps base s) :
    Keeps base (laneReload g s) := by
  unfold laneReload
  repeat' first
    | with_reducible assumption
    | with_reducible apply State.waitUntil_keeps
    | with_reducible apply State.updLane_keeps
    | with_reducible apply laneCount_keeps
    | with_reducible apply laneEvent_keeps
    | with_reducible apply laneFollow_keeps
    | with_reducible apply startPeriod_keeps
    | intro _
    | with_reducible refine ite_keeps ?_ ?_
    | split
    | fail_if_no_progress (with_reducible refine Keeps.of_mk ?_ rfl rfl rfl rfl rfl rfl rfl)

theorem laneCompare_keeps {base : State} {g : Nat} {n : Nat} {s : State} (h_s : Keeps base s) :
    Keeps base (laneCompare g n s) := by
  unfold laneCompare
  repeat' first
    | with_reducible assumption
    | with_reducible apply State.waitUntil_keeps
    | with_reducible apply laneEvent_keeps
    | with_reducible refine ite_keeps ?_ ?_
    | split

theorem blockCut_keeps {base : State} {b : Nat} {was : Bool} {s : State} (h_s : Keeps base s) :
    Keeps base (blockCut b was s) := by
  unfold blockCut
  repeat' first
    | with_reducible assumption
    | with_reducible apply laneCut_keeps
    | with_reducible apply foldl_keeps
    | with_reducible apply foldl_keeps_fst
    | with_reducible apply foldl_keeps_snd
    | intro _
    | with_reducible refine ite_keeps ?_ ?_
    | split

theorem setAsserted_keeps {base : State} {b : Nat} {v : Bool} {s : State} (h_s : Keeps base s) :
    Keeps base (setAsserted b v s) := by
  unfold setAsserted
  repeat' first
    | with_reducible assumption
    | intro _
    | fail_if_no_progress (with_reducible refine Keeps.of_mk ?_ rfl rfl rfl rfl rfl rfl rfl)

theorem blockAssert_keeps {base : State} {b : Nat} {s : State} (h_s : Keeps base s) :
    Keeps base (blockAssert b s) := by
  unfold blockAssert
  repeat' first
    | with_reducible assumption
    | with_reducible apply blockCut_keeps
    | with_reducible apply setAsserted_keeps

theorem blockRelease_keeps {base : State} {b : Nat} {s : State} (h_s : Keeps base s) :
    Keeps base (blockRelease b s) := by
  unfold blockRelease
  repeat' first
    | with_reducible assumption
    | with_reducible apply setAsserted_keeps

theorem lanesHold_keeps {base : State} {w : LaneGate} {t16 : Nat} {s : State} (h_s : Keeps base s) :
    Keeps base (lanesHold w t16 s) := by
  unfold lanesHold
  repeat' first
    | with_reducible assumption
    | with_reducible apply State.updLane_keeps
    | with_reducible apply foldl_keeps
    | with_reducible apply foldl_keeps_fst
    | with_reducible apply foldl_keeps_snd
    | intro _
    | fail_if_no_progress (with_reducible refine Keeps.of_mk ?_ rfl rfl rfl rfl rfl rfl rfl)

theorem forceGo_keeps {base : State} {p : Nat} {v : BitVec 32} {s : State} (h_s : Keeps base s) :
    Keeps base (forceGo p v s) := by
  unfold forceGo
  repeat' first
    | with_reducible assumption
    | intro _
    | with_reducible refine ite_keeps ?_ ?_
    | split
    | fail_if_no_progress (with_reducible refine Keeps.of_mk ?_ rfl rfl rfl rfl rfl rfl rfl)

theorem forceLane_keeps {base : State} {s : State} {g : Nat} {v : Nat} (h_s : Keeps base s) :
    Keeps base (forceLane s g v) := by
  unfold forceLane
  repeat' first
    | with_reducible assumption
    | with_reducible apply State.updLane_keeps
    | intro _
    | with_reducible refine ite_keeps ?_ ?_
    | split
    | fail_if_no_progress (with_reducible refine Keeps.of_mk ?_ rfl rfl rfl rfl rfl rfl rfl)

theorem forceApply_keeps {base : State} {j : Nat} {s : State} (h_s : Keeps base s) :
    Keeps base (forceApply j s) := by
  unfold forceApply
  repeat' first
    | with_reducible assumption
    | with_reducible apply forceLane_keeps
    | with_reducible apply foldl_keeps
    | with_reducible apply foldl_keeps_fst
    | with_reducible apply foldl_keeps_snd
    | intro _
    | fail_if_no_progress (with_reducible refine Keeps.of_mk ?_ rfl rfl rfl rfl rfl rfl rfl)

theorem State.updLoop_keeps {base : State} {s : State} {l : Nat} {f : LoopRt → LoopRt} (h_s : Keeps base s) :
    Keeps base (State.updLoop s l f) := by
  unfold State.updLoop
  repeat' first
    | with_reducible assumption
    | intro _
    | fail_if_no_progress (with_reducible refine Keeps.of_mk ?_ rfl rfl rfl rfl rfl rfl rfl)

theorem loopRestart_keeps {base : State} {l : Nat} {s : State} (h_s : Keeps base s) :
    Keeps base (loopRestart l s) := by
  unfold loopRestart
  repeat' first
    | with_reducible assumption
    | with_reducible apply State.updLane_keeps
    | with_reducible apply State.updLoop_keeps
    | intro _
    | with_reducible refine ite_keeps ?_ ?_
    | split
    | fail_if_no_progress (with_reducible refine Keeps.of_mk ?_ rfl rfl rfl rfl rfl rfl rfl)

theorem restartLoops_keeps {base : State} {c : Nat} {ce : Nat} {s : State} (h_s : Keeps base s) :
    Keeps base (restartLoops c ce s) := by
  unfold restartLoops
  repeat' first
    | with_reducible assumption
    | with_reducible apply loopRestart_keeps
    | with_reducible apply foldl_keeps
    | with_reducible apply foldl_keeps_fst
    | with_reducible apply foldl_keeps_snd
    | intro _

theorem loopSample_keeps {base : State} {l : Nat} {k : Nat} {v : Int} {q : BitVec 32} {stamp : Nat} {s : State} (h_s : Keeps base s) :
    Keeps base (loopSample l k v q stamp s) := by
  unfold loopSample
  repeat' first
    | with_reducible assumption
    | with_reducible apply State.updLoop_keeps
    | with_reducible apply loopRestart_keeps
    | intro _
    | with_reducible refine ite_keeps ?_ ?_
    | split
    | fail_if_no_progress (with_reducible refine Keeps.of_mk ?_ rfl rfl rfl rfl rfl rfl rfl)

theorem loopsPlaced_keeps {base : State} {c : Nat} {ce : Nat} {per : Nat} {a : Nat} {v : Int} {q : BitVec 32} {stamp : Nat} {s : State} (h_s : Keeps base s) :
    Keeps base (loopsPlaced c ce per a v q stamp s) := by
  unfold loopsPlaced
  repeat' first
    | with_reducible assumption
    | with_reducible apply loopSample_keeps
    | with_reducible apply foldl_keeps
    | with_reducible apply foldl_keeps_fst
    | with_reducible apply foldl_keeps_snd
    | intro _
    | with_reducible refine ite_keeps ?_ ?_
    | split

theorem loopMirror_keeps {base : State} {s : State} {p : Nat} {l : Nat} {k : Nat} {y : Int} {q : BitVec 32} (h_s : Keeps base s) :
    Keeps base (loopMirror s p l k y q) := by
  unfold loopMirror
  repeat' first
    | with_reducible assumption
    | with_reducible apply devWrite_keeps
    | with_reducible refine ite_keeps ?_ ?_
    | split

theorem loopRelAt_keeps {base : State} {l : Nat} {k : Nat} {s0 : State} (h_s0 : Keeps base s0) :
    Keeps base (loopRelAt l k s0) := by
  unfold loopRelAt
  repeat' first
    | with_reducible assumption
    | with_reducible apply decide__keeps
    | with_reducible apply laneRelease_keeps
    | with_reducible apply State.updLoop_keeps
    | with_reducible apply loopRestart_keeps
    | with_reducible apply loopMirror_keeps
    | intro _
    | with_reducible refine ite_keeps ?_ ?_
    | split
    | fail_if_no_progress (with_reducible refine Keeps.of_mk ?_ rfl rfl rfl rfl rfl rfl rfl)

theorem loopRelease_keeps {base : State} {l : Nat} {s : State} (h_s : Keeps base s) :
    Keeps base (loopRelease l s) := by
  unfold loopRelease
  repeat' first
    | with_reducible assumption
    | with_reducible apply State.waitUntil_keeps
    | with_reducible apply loopRelAt_keeps
    | with_reducible refine ite_keeps ?_ ?_
    | split

theorem missLimit_keeps {base : State} {l : Nat} {s : State} (h_s : Keeps base s) :
    Keeps base (missLimit l s) := by
  unfold missLimit
  repeat' first
    | with_reducible assumption
    | with_reducible apply State.updLoop_keeps
    | intro _
    | with_reducible refine ite_keeps ?_ ?_
    | split
    | fail_if_no_progress (with_reducible refine Keeps.of_mk ?_ rfl rfl rfl rfl rfl rfl rfl)

end Sys2Proof.Machine
end

