-- ==== Sys2Proof/Laws/Ingest.lean ====
section
/-! SUPPORT. What the operations of Machine/Ingest.lean keep (`Keeps` of Laws/Keeps.lean). -/

set_option linter.all false

namespace Sys2Proof.Machine

theorem dupEnter_keeps {base : State} {s : State} {q : Nat} {mac : Nat} {n : Nat} {m : DupMark} (h_s : Keeps base s) :
    Keeps base (dupEnter s q mac n m) := by
  unfold dupEnter
  repeat' first
    | with_reducible assumption
    | with_reducible apply igOther_keeps
    | with_reducible apply foldl_keeps
    | with_reducible apply foldl_keeps_fst
    | with_reducible apply foldl_keeps_snd
    | (intro x
       first
         | (have hx : Keeps base x := ?_; clear_value x; on_goal 2 => subst x)
         | clear_value x
         | subst x)
    | intro _
    | lift_lets -underBinder
    | with_reducible refine ite_keeps ?_ ?_
    | split
    | dsimp -zeta only
    | fail_if_no_progress (with_reducible refine Keeps.of_mk ?_ rfl rfl rfl rfl rfl rfl rfl)

theorem dupTouch_keeps {base : State} {s : State} {q : Nat} {mac : Nat} (h_s : Keeps base s) :
    Keeps base (dupTouch s q mac) := by
  unfold dupTouch
  repeat' first
    | with_reducible assumption
    | intro _
    | with_reducible refine ite_keeps ?_ ?_
    | split
    | fail_if_no_progress (with_reducible refine Keeps.of_mk ?_ rfl rfl rfl rfl rfl rfl rfl)

theorem dupForget_keeps {base : State} {q : Nat} {mac : Nat} {s : State} (h_s : Keeps base s) :
    Keeps base (dupForget q mac s) := by
  unfold dupForget
  repeat' first
    | with_reducible assumption
    | with_reducible apply State.runTo_keeps
    | intro _
    | split
    | fail_if_no_progress (with_reducible refine Keeps.of_mk ?_ rfl rfl rfl rfl rfl rfl rfl)

theorem verifySlots_keeps {base : State} {e : Nat} {alg : Nat} {keyAlg : Nat} {keyId : BitVec 32} {iv : Bytes} {octets : Bytes} {mac : Bytes} {stamp : Nat} {s : State} (h_s : Keeps base s) :
    Keeps base (verifySlots e alg keyAlg keyId iv octets mac stamp s).1 := by
  unfold verifySlots
  repeat' first
    | with_reducible assumption
    | with_reducible apply State.updStream_keeps
    | with_reducible apply takeUse_keeps
    | (intro x
       first
         | (have hx : Keeps base x := ?_; clear_value x; on_goal 2 => subst x)
         | clear_value x
         | subst x)
    | intro _
    | lift_lets -underBinder
    | with_reducible refine ite_keeps ?_ ?_
    | with_reducible refine ite_keeps_fst ?_ ?_
    | with_reducible refine ite_keeps_snd ?_ ?_
    | split
    | dsimp -zeta only
    | fail_if_no_progress (with_reducible refine Keeps.of_mk ?_ rfl rfl rfl rfl rfl rfl rfl)

theorem authFail_keeps {base : State} {e : Nat} {reason : Nat} {stamp : Stamp} {s : State} (h_s : Keeps base s) :
    Keeps base (authFail e reason stamp s) := by
  unfold authFail
  repeat' first
    | with_reducible assumption
    | with_reducible apply record_keeps
    | with_reducible apply State.updStream_keeps
    | with_reducible apply igCount_keeps
    | intro _
    | with_reducible refine ite_keeps ?_ ?_
    | split
    | fail_if_no_progress (with_reducible refine Keeps.of_mk ?_ rfl rfl rfl rfl rfl rfl rfl)

theorem checkFail_keeps {base : State} {e : Nat} {reason : Nat} {s : State} (h_s : Keeps base s) :
    Keeps base (checkFail e reason s) := by
  unfold checkFail
  repeat' first
    | with_reducible assumption
    | with_reducible apply igCount_keeps
    | with_reducible apply igReason_keeps

theorem igAccept_keeps {base : State} {f : IgFrame} {e : Nat} {s : State} (h_s : Keeps base s) :
    Keeps base (igAccept f e s) := by
  unfold igAccept
  repeat' first
    | with_reducible assumption
    | with_reducible apply igCount_keeps
    | with_reducible apply dupEnter_keeps
    | intro _
    | split
    | fail_if_no_progress (with_reducible refine Keeps.of_mk ?_ rfl rfl rfl rfl rfl rfl rfl)

theorem igDiscardDup_keeps {base : State} {f : IgFrame} {e : Nat} {s : State} (h_s : Keeps base s) :
    Keeps base (igDiscardDup f e s) := by
  unfold igDiscardDup
  repeat' first
    | with_reducible assumption
    | with_reducible apply igCount_keeps
    | with_reducible apply dupTouch_keeps

theorem igAdmit_keeps {base : State} {f : IgFrame} {e : Nat} {sim : Bool} {auth : State → State × Option Nat} {s : State}
    (h_auth : ∀ y, Keeps base y → Keeps base (auth y).1) (h_s : Keeps base s) :
    (∀ y, (igAdmit f e sim auth s).1 = some y → Keeps base y) ∧ Keeps base (igAdmit f e sim auth s).2 := by
  unfold igAdmit
  extract_lets x
  split
  · exact ⟨by rintro y ⟨⟩, igCount_keeps h_s⟩
  · split
    · exact ⟨by rintro y ⟨⟩, authFail_keeps (h_auth s h_s)⟩
    · refine ⟨?_, h_auth s h_s⟩
      intro y hy
      cases hy
      exact h_auth s h_s

theorem igAuth_keeps {base : State} {f : IgFrame} {e : Nat} {i : Nat} {s : State} (h_s : Keeps base s) :
    Keeps base (igAuth f e i s).1 := by
  unfold igAuth
  repeat' first
    | with_reducible assumption
    | with_reducible apply verifySlots_keeps
    | (intro x
       first
         | (have hx : Keeps base x := ?_; clear_value x; on_goal 2 => subst x)
         | clear_value x
         | subst x)
    | intro _
    | lift_lets -underBinder
    | with_reducible refine ite_keeps ?_ ?_
    | with_reducible refine ite_keeps_fst ?_ ?_
    | with_reducible refine ite_keeps_snd ?_ ?_
    | split
    | dsimp -zeta only
    | fail_if_no_progress (with_reducible refine Keeps.of_mk ?_ rfl rfl rfl rfl rfl rfl rfl)

theorem igSim_keeps {base : State} {e : Nat} {sim : Bool} {s : State} (h_s : Keeps base s) :
    Keeps base (igSim e sim s) := by
  unfold igSim
  repeat' first
    | with_reducible assumption
    | with_reducible apply State.updStream_keeps
    | intro _
    | with_reducible refine ite_keeps ?_ ?_
    | split
    | fail_if_no_progress (with_reducible refine Keeps.of_mk ?_ rfl rfl rfl rfl rfl rfl rfl)

theorem returnLoops_keeps {base : State} {e : Nat} {s : State} (h_s : Keeps base s) :
    Keeps base (returnLoops e s) := by
  unfold returnLoops
  repeat' first
    | with_reducible assumption
    | with_reducible apply restartLoops_keeps
    | with_reducible apply foldl_keeps
    | with_reducible apply foldl_keeps_fst
    | with_reducible apply foldl_keeps_snd
    | intro _
    | with_reducible refine ite_keeps ?_ ?_
    | split

theorem asduPlaced_keeps {base : State} {f : IgFrame} {e : Nat} {i : Nat} {a : Nat} {vals : List Smp} {s : State} (h_s : Keeps base s) :
    Keeps base (asduPlaced f e i a vals s) := by
  unfold asduPlaced
  repeat' first
    | with_reducible assumption
    | with_reducible apply State.updStream_keeps
    | with_reducible apply loopsPlaced_keeps
    | with_reducible apply returnLoops_keeps
    | with_reducible apply foldl_keeps
    | with_reducible apply foldl_keeps_fst
    | with_reducible apply foldl_keeps_snd
    | intro _
    | fail_if_no_progress (with_reducible refine Keeps.of_mk ?_ rfl rfl rfl rfl rfl rfl rfl)

theorem placeAsdu_keeps {base : State} {f : IgFrame} {e : Nat} {sim : Bool} {i : Nat} {l : List (Nat × Bytes)} {s : State}
    (h_s : Keeps base s) : Keeps base (placeAsdu f e sim i l s).1 := by
  have hc (k : Nat) : Keeps base (igCount s e k) := igCount_keeps h_s
  unfold placeAsdu
  generalize asduFate f e l s = z
  cases z with
  | inl k => exact hc k
  | inr a =>
    dsimp only [Sum.elim_inr]
    rw [apply_ite Prod.fst]
    exact ite_keeps (ite_keeps (hc 12) h_s) (asduPlaced_keeps (ite_keeps (hc 12) h_s))

theorem placeAsdus_keeps {base : State} {f : IgFrame} {e : Nat} {sim : Bool} {as : List (List (Nat × Bytes))} {ok : List Nat} :
    ∀ {s : State}, Keeps base s → Keeps base (placeAsdus f e sim as ok s).1 := by
  induction ok with
  | nil => exact id
  | cons j js ih =>
    intro s h
    unfold placeAsdus
    exact ih (placeAsdu_keeps h)

theorem svAsdus_keeps {base : State} {f : IgFrame} {e : Nat} {sim : Bool} {as : List (List (Nat × Bytes))} {s : State} (h_s : Keeps base s) :
    Keeps base (svAsdus f e sim as s) := by
  unfold svAsdus
  repeat' first
    | with_reducible assumption
    | with_reducible apply checkFail_keeps
    | with_reducible apply igAccept_keeps
    | with_reducible apply igDiscardDup_keeps
    | with_reducible apply igSim_keeps
    | with_reducible apply placeAsdus_keeps
    | intro _
    | with_reducible refine ite_keeps ?_ ?_
    | split
    | fail_if_no_progress (with_reducible refine Keeps.of_mk ?_ rfl rfl rfl rfl rfl rfl rfl)

theorem svIn_keeps {base : State} {f : IgFrame} {e : Nat} {i : Nat} {s : State} (h_s : Keeps base s) :
    Keeps base (svIn f e i s) := by
  unfold svIn
  repeat' first
    | exact optPair_keeps (by with_reducible assumption) (by with_reducible assumption)
    | exact optPair_keeps_snd (by with_reducible assumption)
    | with_reducible assumption
    | with_reducible exact Keeps.refl _
    | with_reducible apply checkFail_keeps
    | with_reducible apply igAdmit_keeps
    | with_reducible apply igAuth_keeps
    | with_reducible apply svAsdus_keeps
    | (intro x
       first
         | (have hx_ : Prop := x; clear hx_; subst x)
         | (have hx_ : _ → _ := x; clear hx_; subst x)
         | (have hx_ : TbState := x; clear hx_; subst x)
         | (have hx_ : OkState := x; clear hx_; subst x)
         | (have hx : Keeps base x := ?_; clear_value x; on_goal 2 => subst x)
         | (have hx : (∀ y, x.1 = some y → Keeps base y) ∧ Keeps base x.2 := ?_; clear_value x; on_goal 2 => subst x)
         | (have hx : Keeps base x.1 := ?_; clear_value x; on_goal 2 => subst x)
         | (have hx : Keeps base x.2 := ?_; clear_value x; on_goal 2 => subst x)
         | clear_value x)
    | intro _
    | lift_lets -underBinder
    | with_reducible refine ite_keeps ?_ ?_
    | split
    | dsimp -zeta only
    | fail_if_no_progress (with_reducible refine Keeps.of_mk ?_ rfl rfl rfl rfl rfl rfl rfl)

theorem gooseRenew_keeps {base : State} {f : IgFrame} {e : Nat} {g : GoosePdu} {s : State} (h_s : Keeps base s) :
    Keeps base (gooseRenew f e g s) := by
  unfold gooseRenew
  repeat' first
    | with_reducible assumption
    | with_reducible apply State.updStream_keeps
    | intro _
    | fail_if_no_progress (with_reducible refine Keeps.of_mk ?_ rfl rfl rfl rfl rfl rfl rfl)

theorem gooseIn_keeps {base : State} {f : IgFrame} {e : Nat} {i : Nat} {s : State} (h_s : Keeps base s) :
    Keeps base (gooseIn f e i s) := by
  unfold gooseIn
  repeat' first
    | exact optPair_keeps (by with_reducible assumption) (by with_reducible assumption)
    | exact optPair_keeps_snd (by with_reducible assumption)
    | with_reducible assumption
    | with_reducible exact Keeps.refl _
    | with_reducible apply State.updStream_keeps
    | with_reducible apply igCount_keeps
    | with_reducible apply igInconsistent_keeps
    | with_reducible apply checkFail_keeps
    | with_reducible apply igAccept_keeps
    | with_reducible apply igDiscardDup_keeps
    | with_reducible apply igAdmit_keeps
    | with_reducible apply igAuth_keeps
    | with_reducible apply igSim_keeps
    | with_reducible apply gooseRenew_keeps
    | (intro x
       first
         | (have hx_ : Prop := x; clear hx_; subst x)
         | (have hx_ : _ → _ := x; clear hx_; subst x)
         | (have hx_ : TbState := x; clear hx_; subst x)
         | (have hx_ : OkState := x; clear hx_; subst x)
         | (have hx : Keeps base x := ?_; clear_value x; on_goal 2 => subst x)
         | (have hx : (∀ y, x.1 = some y → Keeps base y) ∧ Keeps base x.2 := ?_; clear_value x; on_goal 2 => subst x)
         | (have hx : Keeps base x.1 := ?_; clear_value x; on_goal 2 => subst x)
         | (have hx : Keeps base x.2 := ?_; clear_value x; on_goal 2 => subst x)
         | clear_value x)
    | intro _
    | lift_lets -underBinder
    | with_reducible refine ite_keeps ?_ ?_
    | split
    | dsimp -zeta only
    | fail_if_no_progress (with_reducible refine Keeps.of_mk ?_ rfl rfl rfl rfl rfl rfl rfl)

theorem griuzAuth_keeps {base : State} {f : IgFrame} {e : Nat} {b : Bytes} {s : State} (h_s : Keeps base s) :
    Keeps base (griuzAuth f e b s).1 := by
  unfold griuzAuth
  repeat' first
    | with_reducible assumption
    | with_reducible apply verifySlots_keeps
    | (intro x
       first
         | (have hx : Keeps base x := ?_; clear_value x; on_goal 2 => subst x)
         | clear_value x
         | subst x)
    | intro _
    | lift_lets -underBinder
    | with_reducible refine ite_keeps ?_ ?_
    | with_reducible refine ite_keeps_fst ?_ ?_
    | with_reducible refine ite_keeps_snd ?_ ?_
    | split
    | dsimp -zeta only

theorem surgeIn_keeps {base : State} {f : IgFrame} {e : Nat} {b : Bytes} {s : State} (h_s : Keeps base s) :
    Keeps base (surgeIn f e b s) := by
  unfold surgeIn
  repeat' first
    | exact optPair_keeps (by with_reducible assumption) (by with_reducible assumption)
    | exact optPair_keeps_snd (by with_reducible assumption)
    | with_reducible assumption
    | with_reducible exact Keeps.refl _
    | with_reducible apply State.updStream_keeps
    | with_reducible apply igCountN_keeps
    | with_reducible apply igCount_keeps
    | with_reducible apply checkFail_keeps
    | with_reducible apply igAccept_keeps
    | with_reducible apply igDiscardDup_keeps
    | with_reducible apply igAdmit_keeps
    | with_reducible apply igSim_keeps
    | with_reducible apply griuzAuth_keeps
    | (intro x
       first
         | (have hx_ : Prop := x; clear hx_; subst x)
         | (have hx_ : _ → _ := x; clear hx_; subst x)
         | (have hx_ : TbState := x; clear hx_; subst x)
         | (have hx_ : OkState := x; clear hx_; subst x)
         | (have hx : Keeps base x := ?_; clear_value x; on_goal 2 => subst x)
         | (have hx : (∀ y, x.1 = some y → Keeps base y) ∧ Keeps base x.2 := ?_; clear_value x; on_goal 2 => subst x)
         | (have hx : Keeps base x.1 := ?_; clear_value x; on_goal 2 => subst x)
         | (have hx : Keeps base x.2 := ?_; clear_value x; on_goal 2 => subst x)
         | clear_value x)
    | intro _
    | lift_lets -underBinder
    | with_reducible refine ite_keeps ?_ ?_
    | split
    | dsimp -zeta only
    | fail_if_no_progress (with_reducible refine Keeps.of_mk ?_ rfl rfl rfl rfl rfl rfl rfl)

theorem igUnmatched_keeps {base : State} {f : IgFrame} {s : State} (h_s : Keeps base s) :
    Keeps base (igUnmatched f s) := by
  unfold igUnmatched
  repeat' first
    | with_reducible assumption
    | with_reducible apply igOther_keeps
    | with_reducible apply enqueue_keeps
    | with_reducible refine ite_keeps ?_ ?_
    | split

theorem igHandled_keeps {base : State} {arrival : IgFrame → Bytes → State → State} {f : IgFrame} {k : IgKind} {wrongLan : Bool} {s : State} (h_arrival : ∀ y0 y1 y2, Keeps base y2 → Keeps base (arrival y0 y1 y2)) (h_s : Keeps base s) :
    Keeps base (igHandled arrival f k wrongLan s) := by
  unfold igHandled
  repeat' first
    | with_reducible assumption
    | with_reducible exact Keeps.refl _
    | with_reducible apply igCount_keeps
    | with_reducible apply svIn_keeps
    | with_reducible apply gooseIn_keeps
    | with_reducible apply surgeIn_keeps
    | with_reducible apply igUnmatched_keeps
    | apply h_arrival
    | (intro x
       first
         | (have hx_ : Prop := x; clear hx_; subst x)
         | (have hx_ : _ → _ := x; clear hx_; subst x)
         | (have hx_ : TbState := x; clear hx_; subst x)
         | (have hx_ : OkState := x; clear hx_; subst x)
         | (have hx : Keeps base x := ?_; clear_value x; on_goal 2 => subst x)
         | (have hx : (∀ y, x.1 = some y → Keeps base y) ∧ Keeps base x.2 := ?_; clear_value x; on_goal 2 => subst x)
         | (have hx : Keeps base x.1 := ?_; clear_value x; on_goal 2 => subst x)
         | (have hx : Keeps base x.2 := ?_; clear_value x; on_goal 2 => subst x)
         | clear_value x)
    | intro _
    | lift_lets -underBinder
    | with_reducible refine ite_keeps ?_ ?_
    | split
    | dsimp -zeta only
    | fail_if_no_progress (with_reducible refine Keeps.of_mk ?_ rfl rfl rfl rfl rfl rfl rfl)

theorem igFrameRx_keeps {base : State} {arrival : IgFrame → Bytes → State → State} {since : Nat} {port : Nat} {o : Bytes} {s : State} (h_arrival : ∀ y0 y1 y2, Keeps base y2 → Keeps base (arrival y0 y1 y2)) (h_s : Keeps base s) :
    Keeps base (igFrameRx arrival since port o s).1 := by
  unfold igFrameRx
  repeat' first
    | with_reducible assumption
    | with_reducible exact Keeps.refl _
    | with_reducible apply igOther_keeps
    | with_reducible apply settleFrame_keeps
    | with_reducible apply enqueue_keeps
    | with_reducible apply dupEnter_keeps
    | with_reducible apply dupTouch_keeps
    | with_reducible apply igHandled_keeps
    | with_reducible apply foldl_keeps
    | with_reducible apply foldl_keeps_fst
    | with_reducible apply foldl_keeps_snd
    | apply h_arrival
    | (intro x
       first
         | (have hx_ : Prop := x; clear hx_; subst x)
         | (have hx_ : _ → _ := x; clear hx_; subst x)
         | (have hx_ : TbState := x; clear hx_; subst x)
         | (have hx_ : OkState := x; clear hx_; subst x)
         | (have hx : Keeps base x := ?_; clear_value x; on_goal 2 => subst x)
         | (have hx : (∀ y, x.1 = some y → Keeps base y) ∧ Keeps base x.2 := ?_; clear_value x; on_goal 2 => subst x)
         | (have hx : Keeps base x.1 := ?_; clear_value x; on_goal 2 => subst x)
         | (have hx : Keeps base x.2 := ?_; clear_value x; on_goal 2 => subst x)
         | clear_value x)
    | intro _
    | lift_lets -underBinder
    | with_reducible refine ite_keeps ?_ ?_
    | with_reducible refine ite_keeps_fst ?_ ?_
    | with_reducible refine ite_keeps_snd ?_ ?_
    | split
    | dsimp -zeta only
    | fail_if_no_progress (with_reducible refine Keeps.of_mk ?_ rfl rfl rfl rfl rfl rfl rfl)

theorem overlapEnd_keeps {base : State} {e : Nat} {s : State} (h_s : Keeps base s) :
    Keeps base (overlapEnd e s) := by
  unfold overlapEnd
  repeat' first
    | with_reducible assumption
    | with_reducible apply State.waitUntil_keeps
    | intro _
    | split
    | fail_if_no_progress (with_reducible refine Keeps.of_mk ?_ rfl rfl rfl rfl rfl rfl rfl)

theorem streamLost_keeps {base : State} {e : Nat} {s : State} (h_s : Keeps base s) :
    Keeps base (streamLost e s) := by
  unfold streamLost
  repeat' first
    | with_reducible assumption
    | with_reducible apply State.updStream_keeps
    | with_reducible apply igCount_keeps
    | with_reducible apply streamTo_keeps
    | intro _
    | with_reducible refine ite_keeps ?_ ?_
    | split
    | fail_if_no_progress (with_reducible refine Keeps.of_mk ?_ rfl rfl rfl rfl rfl rfl rfl)

theorem talExpiry_keeps {base : State} {e : Nat} {s : State} (h_s : Keeps base s) :
    Keeps base (talExpiry e s) := by
  unfold talExpiry
  repeat' first
    | with_reducible assumption
    | with_reducible apply State.waitSlot_keeps
    | with_reducible apply igCount_keeps
    | with_reducible apply streamTo_keeps
    | with_reducible refine ite_keeps ?_ ?_
    | split

end Sys2Proof.Machine
end

