-- ==== Sys2Proof/Laws/Chains.lean ====
section
/-! SUPPORT. What the operations of Machine/Chains.lean keep (`Keeps` of Laws/Keeps.lean). -/

set_option linter.all false

namespace Sys2Proof.Machine

theorem setPoint_keeps {base : State} {s : State} {c : Nat} {pt : Nat} {v : BitVec 32 × BitVec 32} (h_s : Keeps base s) :
    Keeps base (setPoint s c pt v) := by
  unfold setPoint
  repeat' first
    | with_reducible assumption
    | intro _
    | fail_if_no_progress (with_reducible refine Keeps.of_mk ?_ rfl rfl rfl rfl rfl rfl rfl)

theorem closePoints_keeps {base : State} {x : Ste} {rt : StreamRt} {st : StreamSt} {k : Nat} {s : State} (h_s : Keeps base s) :
    Keeps base (closePoints x rt st k s) := by
  unfold closePoints
  repeat' first
    | with_reducible assumption
    | with_reducible apply setPoint_keeps
    | with_reducible apply foldl_keeps
    | with_reducible apply foldl_keeps_fst
    | with_reducible apply foldl_keeps_snd
    | intro _
    | split
    | fail_if_no_progress (with_reducible refine Keeps.of_mk ?_ rfl rfl rfl rfl rfl rfl rfl)

theorem closeEntry_keeps {base : State} {k : Nat} {j : Nat} {e : Nat} {acc : State × SlotOut} (h_acc : Keeps base acc.1) :
    Keeps base (closeEntry k j e acc).1 := by
  unfold closeEntry
  repeat' first
    | with_reducible assumption
    | with_reducible exact Keeps.refl _
    | with_reducible apply State.updStream_keeps
    | with_reducible apply igCountN_keeps
    | with_reducible apply igCount_keeps
    | with_reducible apply streamTo_keeps
    | with_reducible apply closePoints_keeps
    | (intro x
       first
         | (have hx_ : Prop := x; clear hx_; subst x)
         | (have hx_ : _ → _ := x; clear hx_; subst x)
         | (have hx_ : TbState := x; clear hx_; subst x)
         | (have hx_ : OkState := x; clear hx_; subst x)
         | (have hx : Keeps base x := ?_; clear_value x; on_goal 2 => subst x)
         | (have hx : (∀ y, x.1 = some y → Keeps base y) ∧ Keeps base x.2 := ?_; clear_value x; on_goal 2 => subst x)
         | (have hx : Keeps base x.1 := ?_; clear_value x; on_goal 2 => subst x)
         | (have hx : Keeps base x.2 := ?_; clear_value x; on_goal 2 => subst x)
         | clear_value x)
    | intro _
    | lift_lets -underBinder
    | with_reducible refine ite_keeps ?_ ?_
    | with_reducible refine ite_keeps_fst ?_ ?_
    | with_reducible refine ite_keeps_snd ?_ ?_
    | split
    | dsimp -zeta only
    | fail_if_no_progress (with_reducible refine Keeps.of_mk ?_ rfl rfl rfl rfl rfl rfl rfl)

theorem closeOld_keeps {base : State} {k : Nat} {acc : State × SlotOut} {o : OldStream} (h_acc : Keeps base acc.1) :
    Keeps base (closeOld k acc o).1 := by
  unfold closeOld
  repeat' first
    | with_reducible assumption
    | with_reducible exact Keeps.refl _
    | with_reducible apply closePoints_keeps
    | (intro x
       first
         | (have hx_ : Prop := x; clear hx_; subst x)
         | (have hx_ : _ → _ := x; clear hx_; subst x)
         | (have hx_ : TbState := x; clear hx_; subst x)
         | (have hx_ : OkState := x; clear hx_; subst x)
         | (have hx : Keeps base x := ?_; clear_value x; on_goal 2 => subst x)
         | (have hx : (∀ y, x.1 = some y → Keeps base y) ∧ Keeps base x.2 := ?_; clear_value x; on_goal 2 => subst x)
         | (have hx : Keeps base x.1 := ?_; clear_value x; on_goal 2 => subst x)
         | (have hx : Keeps base x.2 := ?_; clear_value x; on_goal 2 => subst x)
         | clear_value x)
    | intro _
    | lift_lets -underBinder
    | with_reducible refine ite_keeps ?_ ?_
    | with_reducible refine ite_keeps_fst ?_ ?_
    | with_reducible refine ite_keeps_snd ?_ ?_
    | split
    | dsimp -zeta only
    | fail_if_no_progress (with_reducible refine Keeps.of_mk ?_ rfl rfl rfl rfl rfl rfl rfl)

theorem dropOlds_keeps {base : State} {c : Nat} {k : Nat} {s : State} (h_s : Keeps base s) :
    Keeps base (dropOlds c k s) := by
  unfold dropOlds
  repeat' first
    | with_reducible assumption
    | with_reducible apply setPoint_keeps
    | with_reducible apply foldl_keeps
    | with_reducible apply foldl_keeps_fst
    | with_reducible apply foldl_keeps_snd
    | intro _
    | with_reducible refine ite_keeps ?_ ?_
    | split
    | fail_if_no_progress (with_reducible refine Keeps.of_mk ?_ rfl rfl rfl rfl rfl rfl rfl)

theorem closeSlot_keeps {base : State} {c : Nat} {k : Nat} {j : Nat} {s : State} (h_s : Keeps base s) :
    Keeps base (closeSlot c k j s).1 := by
  unfold closeSlot
  repeat' first
    | with_reducible assumption
    | with_reducible apply closeEntry_keeps
    | with_reducible apply closeOld_keeps
    | with_reducible apply dropOlds_keeps
    | with_reducible apply foldl_keeps
    | with_reducible apply foldl_keeps_fst
    | with_reducible apply foldl_keeps_snd
    | intro _
    | fail_if_no_progress (with_reducible refine Keeps.of_mk ?_ rfl rfl rfl rfl rfl rfl rfl)

theorem chainIntake_keeps {base : State} {c : Nat} {k : Nat} {j : Nat} {s : State} {ch : Nat × List Smp} (h_s : Keeps base s) :
    Keeps base (chainIntake c k j s ch).1 := by
  unfold chainIntake
  repeat' first
    | with_reducible assumption
    | with_reducible apply record_keeps
    | with_reducible apply State.updChain_keeps
    | with_reducible apply foldl_keeps
    | with_reducible apply foldl_keeps_fst
    | with_reducible apply foldl_keeps_snd
    | (intro x
       first
         | (have hx : Keeps base x := ?_; clear_value x; on_goal 2 => subst x)
         | clear_value x
         | subst x)
    | intro _
    | lift_lets -underBinder
    | with_reducible refine ite_keeps ?_ ?_
    | with_reducible refine ite_keeps_fst ?_ ?_
    | with_reducible refine ite_keeps_snd ?_ ?_
    | split
    | dsimp -zeta only
    | fail_if_no_progress (with_reducible refine Keeps.of_mk ?_ rfl rfl rfl rfl rfl rfl rfl)

theorem chainSettled_keeps {base : State} {c : Nat} {ce : Nat} {s : State} (h_s : Keeps base s) :
    Keeps base (chainSettled c ce s) := by
  unfold chainSettled
  repeat' first
    | with_reducible assumption
    | with_reducible apply State.updChain_keeps
    | intro _
    | with_reducible refine ite_keeps ?_ ?_
    | split
    | fail_if_no_progress (with_reducible refine Keeps.of_mk ?_ rfl rfl rfl rfl rfl rfl rfl)

theorem surgeTriggers_keeps {base : State} {hamlet : Nat} {pts : List SurgePt} {fresh : List Nat} {s : State} (h_s : Keeps base s) :
    Keeps base (surgeTriggers hamlet pts fresh s).1 := by
  unfold surgeTriggers
  repeat' first
    | with_reducible assumption
    | with_reducible apply foldl_keeps
    | with_reducible apply foldl_keeps_fst
    | with_reducible apply foldl_keeps_snd
    | intro _
    | with_reducible refine ite_keeps ?_ ?_
    | split
    | fail_if_no_progress (with_reducible refine Keeps.of_mk ?_ rfl rfl rfl rfl rfl rfl rfl)

theorem combined_keeps {base : State} {c : Nat} {ts : List Trig} {s : State} (h_s : Keeps base s) :
    Keeps base (combined c ts s).1 := by
  unfold combined
  repeat' first
    | with_reducible assumption
    | with_reducible apply foldl_keeps
    | with_reducible apply foldl_keeps_fst
    | with_reducible apply foldl_keeps_snd
    | (intro x
       first
         | (have hx : Keeps base x := ?_; clear_value x; on_goal 2 => subst x)
         | clear_value x
         | subst x)
    | intro _
    | lift_lets -underBinder
    | with_reducible refine ite_keeps ?_ ?_
    | with_reducible refine ite_keeps_fst ?_ ?_
    | with_reducible refine ite_keeps_snd ?_ ?_
    | split
    | dsimp -zeta only
    | fail_if_no_progress (with_reducible refine Keeps.of_mk ?_ rfl rfl rfl rfl rfl rfl rfl)

end Sys2Proof.Machine
end

