-- ==== Sys2Proof/Laws/Capture.lean ====
section
/-! SUPPORT. What the operations of Machine/Capture.lean keep (`Keeps` of Laws/Keeps.lean). -/

set_option linter.all false

namespace Sys2Proof.Machine

theorem State.updCap_keeps {base : State} {s : State} {g : Nat} {f : CapUnit → CapUnit} (h_s : Keeps base s) :
    Keeps base (State.updCap s g f) := by
  unfold State.updCap
  repeat' first
    | with_reducible assumption
    | intro _
    | fail_if_no_progress (with_reducible refine Keeps.of_mk ?_ rfl rfl rfl rfl rfl rfl rfl)

theorem capSample_keeps {base : State} {g : Nat} {t : Stamp} {vals : List (Int × BitVec 32)} {new : List (Option (BitVec 32))} {s : State} (h_s : Keeps base s) :
    Keeps base (capSample g t vals new s) := by
  unfold capSample
  repeat' first
    | with_reducible assumption
    | with_reducible apply devWrite_keeps
    | with_reducible apply State.updCap_keeps
    | intro _
    | with_reducible refine ite_keeps ?_ ?_
    | split
    | fail_if_no_progress (with_reducible refine Keeps.of_mk ?_ rfl rfl rfl rfl rfl rfl rfl)

theorem capTrigger_keeps {base : State} {g : Nat} {t : Stamp} {flags : BitVec 32} {s : State} (h_s : Keeps base s) :
    Keeps base (capTrigger g t flags s) := by
  unfold capTrigger
  repeat' first
    | with_reducible assumption
    | with_reducible apply State.updCap_keeps
    | intro _
    | split
    | fail_if_no_progress (with_reducible refine Keeps.of_mk ?_ rfl rfl rfl rfl rfl rfl rfl)

theorem capRun_keeps {base : State} {a0 : List CapItem} {a1 : Nat} {a2 : State} (h_a2 : Keeps base a2) :
    Keeps base (capRun a0 a1 a2) := by
  unfold capRun
  repeat' first
    | with_reducible assumption
    | with_reducible apply State.updCap_keeps
    | with_reducible apply capSample_keeps
    | with_reducible apply capTrigger_keeps
    | with_reducible apply capRun_keeps
    | intro _
    | with_reducible refine ite_keeps ?_ ?_
    | split
    | fail_if_no_progress (with_reducible refine Keeps.of_mk ?_ rfl rfl rfl rfl rfl rfl rfl)

theorem capFeed_keeps {base : State} {g : Nat} {items : List CapItem} {s : State} (h_s : Keeps base s) :
    Keeps base (capFeed g items s) := by
  unfold capFeed
  repeat' first
    | with_reducible assumption
    | with_reducible apply capRun_keeps

theorem capEnter_keeps {base : State} {g : Nat} {dead : Nat} {s : State} (h_s : Keeps base s) :
    Keeps base (capEnter g dead s) := by
  unfold capEnter
  repeat' first
    | with_reducible assumption
    | with_reducible apply State.updCap_keeps
    | intro _
    | split
    | fail_if_no_progress (with_reducible refine Keeps.of_mk ?_ rfl rfl rfl rfl rfl rfl rfl)

theorem capWake_keeps {base : State} {g : Nat} {s : State} (h_s : Keeps base s) :
    Keeps base (capWake g s) := by
  unfold capWake
  repeat' first
    | with_reducible assumption
    | with_reducible apply capEnter_keeps
    | intro _
    | with_reducible refine ite_keeps ?_ ?_
    | split
    | fail_if_no_progress (with_reducible refine Keeps.of_mk ?_ rfl rfl rfl rfl rfl rfl rfl)

theorem capClose_keeps {base : State} {g : Nat} {cut : Bool} {s : State} (h_s : Keeps base s) :
    Keeps base (capClose g cut s) := by
  unfold capClose
  repeat' first
    | with_reducible assumption
    | with_reducible apply devWrite_keeps
    | with_reducible apply record_keeps
    | with_reducible apply State.updCap_keeps
    | with_reducible apply foldl_keeps
    | with_reducible apply foldl_keeps_fst
    | with_reducible apply foldl_keeps_snd
    | intro _
    | fail_if_no_progress (with_reducible refine Keeps.of_mk ?_ rfl rfl rfl rfl rfl rfl rfl)

theorem capLeave_keeps {base : State} {g : Nat} {b : Wb} {s : State} (h_s : Keeps base s) :
    Keeps base (capLeave g b s) := by
  unfold capLeave
  repeat' first
    | with_reducible assumption
    | with_reducible apply completeKey_keeps
    | with_reducible apply State.updCap_keeps
    | intro _
    | fail_if_no_progress (with_reducible refine Keeps.of_mk ?_ rfl rfl rfl rfl rfl rfl rfl)

theorem capDiscard_keeps {base : State} {g : Nat} {s : State} (h_s : Keeps base s) :
    Keeps base (capDiscard g s) := by
  unfold capDiscard
  repeat' first
    | with_reducible assumption
    | with_reducible apply State.updCap_keeps
    | intro _
    | with_reducible refine ite_keeps ?_ ?_
    | split
    | fail_if_no_progress (with_reducible refine Keeps.of_mk ?_ rfl rfl rfl rfl rfl rfl rfl)

theorem captureComplete_keeps {base : State} {g : Nat} {s : State} (h_s : Keeps base s) :
    Keeps base (captureComplete g s) := by
  unfold captureComplete
  repeat' first
    | with_reducible assumption
    | with_reducible apply State.draw_keeps
    | with_reducible apply State.updCap_keeps
    | with_reducible apply capRun_keeps
    | with_reducible apply capEnter_keeps
    | with_reducible apply capClose_keeps
    | with_reducible apply capLeave_keeps
    | intro _
    | with_reducible refine ite_keeps ?_ ?_
    | split
    | fail_if_no_progress (with_reducible refine Keeps.of_mk ?_ rfl rfl rfl rfl rfl rfl rfl)

theorem capCut_keeps {base : State} {g : Nat} {s : State} (h_s : Keeps base s) :
    Keeps base (capCut g s) := by
  unfold capCut
  repeat' first
    | with_reducible assumption
    | with_reducible apply capClose_keeps
    | with_reducible apply capLeave_keeps
    | with_reducible apply capDiscard_keeps
    | with_reducible apply captureComplete_keeps
    | (intro x
       first
         | (have hx : Keeps base x := ?_; clear_value x; on_goal 2 => subst x)
         | clear_value x
         | subst x)
    | intro _
    | lift_lets -underBinder
    | split
    | dsimp -zeta only
    | fail_if_no_progress (with_reducible refine Keeps.of_mk ?_ rfl rfl rfl rfl rfl rfl rfl)

theorem capStop_keeps {base : State} {g : Nat} {s : State} (h_s : Keeps base s) :
    Keeps base (capStop g s) := by
  unfold capStop
  repeat' first
    | with_reducible assumption
    | with_reducible apply capLeave_keeps
    | with_reducible apply capDiscard_keeps
    | with_reducible refine ite_keeps ?_ ?_
    | split

theorem capSlot_keeps {base : State} {c : Nat} {k : Nat} {d : Delivered} {chan : List Trig} {comb : List Trig} {s : State} (h_s : Keeps base s) :
    Keeps base (capSlot c k d chan comb s) := by
  unfold capSlot
  repeat' first
    | with_reducible assumption
    | with_reducible apply State.updCap_keeps
    | with_reducible apply capFeed_keeps
    | with_reducible apply capCut_keeps
    | with_reducible apply foldl_keeps
    | with_reducible apply foldl_keeps_fst
    | with_reducible apply foldl_keeps_snd
    | intro _
    | with_reducible refine ite_keeps ?_ ?_
    | split
    | fail_if_no_progress (with_reducible refine Keeps.of_mk ?_ rfl rfl rfl rfl rfl rfl rfl)

theorem capSurge_keeps {base : State} {h : Nat} {pts : List SurgePt} {ts : List Trig} {s : State} (h_s : Keeps base s) :
    Keeps base (capSurge h pts ts s) := by
  unfold capSurge
  repeat' first
    | with_reducible assumption
    | with_reducible apply capFeed_keeps
    | with_reducible apply foldl_keeps
    | with_reducible apply foldl_keeps_fst
    | with_reducible apply foldl_keeps_snd
    | intro _
    | with_reducible refine ite_keeps ?_ ?_
    | split

theorem capTimeInput_keeps {base : State} {c : Nat} {u : Nat} {at_ : Nat} {s : State} (h_s : Keeps base s) :
    Keeps base (capTimeInput c u at_ s) := by
  unfold capTimeInput
  repeat' first
    | with_reducible assumption
    | with_reducible apply capTrigger_keeps
    | with_reducible apply foldl_keeps
    | with_reducible apply foldl_keeps_fst
    | with_reducible apply foldl_keeps_snd
    | intro _
    | with_reducible refine ite_keeps ?_ ?_
    | split

theorem ttuFiring_keeps {base : State} {u : Nat} {s : State} (h_s : Keeps base s) :
    Keeps base (ttuFiring u s) := by
  unfold ttuFiring
  repeat' first
    | with_reducible assumption
    | with_reducible apply State.waitUntil_keeps
    | with_reducible apply ttuFire_keeps
    | with_reducible apply capTimeInput_keeps
    | with_reducible refine ite_keeps ?_ ?_
    | split

theorem capArmAct_keeps {base : State} {p : Nat} {r : Nat} {s : State} {f : Flight} (h_s : Keeps base s) :
    Keeps base (capArmAct p r s f) := by
  unfold capArmAct
  repeat' first
    | with_reducible assumption
    | with_reducible apply State.winFault_keeps
    | with_reducible apply finish_keeps
    | with_reducible apply State.updCap_keeps
    | with_reducible apply capEnter_keeps
    | (intro x
       first
         | (have hx : Keeps base x := ?_; clear_value x; on_goal 2 => subst x)
         | clear_value x
         | subst x)
    | intro _
    | lift_lets -underBinder
    | with_reducible refine ite_keeps ?_ ?_
    | split
    | dsimp -zeta only
    | fail_if_no_progress (with_reducible refine Keeps.of_mk ?_ rfl rfl rfl rfl rfl rfl rfl)

theorem capAbortAct_keeps {base : State} {p : Nat} {r : Nat} {s : State} {f : Flight} (h_s : Keeps base s) :
    Keeps base (capAbortAct p r s f) := by
  unfold capAbortAct
  repeat' first
    | with_reducible assumption
    | with_reducible apply finish_keeps
    | with_reducible apply finishIgn_keeps
    | with_reducible apply capStop_keeps
    | intro _
    | with_reducible refine ite_keeps ?_ ?_
    | split
    | fail_if_no_progress (with_reducible refine Keeps.of_mk ?_ rfl rfl rfl rfl rfl rfl rfl)

theorem capAbortExportAct_keeps {base : State} {p : Nat} {r : Nat} {s : State} {f : Flight} (h_s : Keeps base s) :
    Keeps base (capAbortExportAct p r s f) := by
  unfold capAbortExportAct
  repeat' first
    | with_reducible assumption
    | with_reducible apply finish_keeps
    | with_reducible apply finishIgn_keeps
    | with_reducible apply abortOp_keeps
    | intro _
    | with_reducible refine ite_keeps ?_ ?_
    | split
    | fail_if_no_progress (with_reducible refine Keeps.of_mk ?_ rfl rfl rfl rfl rfl rfl rfl)

theorem capForceAct_keeps {base : State} {p : Nat} {r : Nat} {s : State} {f : Flight} (h_s : Keeps base s) :
    Keeps base (capForceAct p r s f) := by
  unfold capForceAct
  repeat' first
    | with_reducible assumption
    | with_reducible apply finish_keeps
    | with_reducible apply capTrigger_keeps
    | intro _
    | with_reducible refine ite_keeps ?_ ?_
    | split
    | fail_if_no_progress (with_reducible refine Keeps.of_mk ?_ rfl rfl rfl rfl rfl rfl rfl)

theorem segFree_keeps {base : State} {g : Nat} {i : Nat} {s : State} (h_s : Keeps base s) :
    Keeps base (segFree g i s) := by
  unfold segFree
  repeat' first
    | with_reducible assumption
    | with_reducible apply State.updCap_keeps
    | with_reducible apply capWake_keeps
    | intro _
    | fail_if_no_progress (with_reducible refine Keeps.of_mk ?_ rfl rfl rfl rfl rfl rfl rfl)

theorem capReleaseAct_keeps {base : State} {p : Nat} {r : Nat} {s : State} {f : Flight} (h_s : Keeps base s) :
    Keeps base (capReleaseAct p r s f) := by
  unfold capReleaseAct
  repeat' first
    | with_reducible assumption
    | with_reducible apply finish_keeps
    | with_reducible apply segFree_keeps
    | intro _
    | with_reducible refine ite_keeps ?_ ?_
    | split
    | fail_if_no_progress (with_reducible refine Keeps.of_mk ?_ rfl rfl rfl rfl rfl rfl rfl)

theorem capExportAct_keeps {base : State} {p : Nat} {r : Nat} {s : State} {f : Flight} (h_s : Keeps base s) :
    Keeps base (capExportAct p r s f) := by
  unfold capExportAct
  repeat' first
    | with_reducible assumption
    | with_reducible apply State.winFault_keeps
    | with_reducible apply finish_keeps
    | with_reducible apply openOp_keeps
    | with_reducible apply foldl_keeps
    | with_reducible apply foldl_keeps_fst
    | with_reducible apply foldl_keeps_snd
    | (intro x
       first
         | (have hx : Keeps base x := ?_; clear_value x; on_goal 2 => subst x)
         | clear_value x
         | subst x)
    | intro _
    | lift_lets -underBinder
    | with_reducible refine ite_keeps ?_ ?_
    | split
    | dsimp -zeta only
    | fail_if_no_progress (with_reducible refine Keeps.of_mk ?_ rfl rfl rfl rfl rfl rfl rfl)

theorem exportDone_keeps {base : State} {o : StOp} {s : State} (h_s : Keeps base s) :
    Keeps base (exportDone o s) := by
  unfold exportDone
  repeat' first
    | with_reducible assumption
    | with_reducible apply segFree_keeps
    | with_reducible refine ite_keeps ?_ ?_
    | split

theorem capReset_keeps {base : State} {g : Nat} {s : State} (h_s : Keeps base s) :
    Keeps base (capReset g s) := by
  unfold capReset
  repeat' first
    | with_reducible assumption
    | with_reducible apply abortOp_keeps
    | with_reducible apply capStop_keeps
    | with_reducible apply foldl_keeps
    | with_reducible apply foldl_keeps_fst
    | with_reducible apply foldl_keeps_snd
    | intro _

end Sys2Proof.Machine
end

