-- ==== Sys2Proof/Laws/Release.lean ====
section
/-! SUPPORT. What the operations of Machine/Release.lean keep (`Keeps` of Laws/Keeps.lean). -/

set_option linter.all false

namespace Sys2Proof.Machine

theorem countSent_keeps {base : State} {f : OutFrame} {s : State} (h_s : Keeps base s) :
    Keeps base (countSent f s) := by
  unfold countSent
  repeat' first
    | with_reducible assumption
    | intro _
    | split
    | fail_if_no_progress (with_reducible refine Keeps.of_mk ?_ rfl rfl rfl rfl rfl rfl rfl)

theorem sendOut_keeps {base : State} {f : OutFrame} {s0 : State} (h_s0 : Keeps base s0) :
    Keeps base (sendOut f s0) := by
  unfold sendOut
  repeat' first
    | with_reducible assumption
    | with_reducible apply enqueue_keeps
    | with_reducible apply dupEnter_keeps
    | with_reducible apply countSent_keeps
    | with_reducible apply foldl_keeps
    | with_reducible apply foldl_keeps_fst
    | with_reducible apply foldl_keeps_snd
    | intro _
    | with_reducible refine ite_keeps ?_ ?_
    | split
    | fail_if_no_progress (with_reducible refine Keeps.of_mk ?_ rfl rfl rfl rfl rfl rfl rfl)

theorem releaseFrame_keeps {base : State} {f : OutFrame} {s : State} (h_s : Keeps base s) :
    Keeps base (releaseFrame f s) := by
  unfold releaseFrame
  repeat' first
    | with_reducible assumption
    | with_reducible apply decide__keeps
    | with_reducible apply sendOut_keeps
    | intro _
    | with_reducible refine ite_keeps ?_ ?_
    | split
    | fail_if_no_progress (with_reducible refine Keeps.of_mk ?_ rfl rfl rfl rfl rfl rfl rfl)

theorem releaseHeld_keeps {base : State} {s : State} (h_s : Keeps base s) :
    Keeps base (releaseHeld s) := by
  unfold releaseHeld
  repeat' first
    | with_reducible assumption
    | with_reducible apply sendOut_keeps
    | with_reducible apply foldl_keeps
    | with_reducible apply foldl_keeps_fst
    | with_reducible apply foldl_keeps_snd
    | intro _
    | fail_if_no_progress (with_reducible refine Keeps.of_mk ?_ rfl rfl rfl rfl rfl rfl rfl)

end Sys2Proof.Machine
end

