-- ==== Sys2Proof/Laws/Phasor.lean ====
section
/-! SUPPORT. What the operations of Machine/Phasor.lean keep (`Keeps` of Laws/Keeps.lean). -/

set_option linter.all false

namespace Sys2Proof.Machine

theorem State.updGrp_keeps {base : State} {s : State} {sel : Nat} {f : PhRt → PhRt} (h_s : Keeps base s) :
    Keeps base (State.updGrp s sel f) := by
  unfold State.updGrp
  repeat' first
    | with_reducible assumption
    | intro _
    | fail_if_no_progress (with_reducible refine Keeps.of_mk ?_ rfl rfl rfl rfl rfl rfl rfl)

theorem phWrite_keeps {base : State} {c : Nat} {g : Nat} {x : GrpCfg} {r : PhRep} {s : State} (h_s : Keeps base s) :
    Keeps base (phWrite c g x r s) := by
  unfold phWrite
  repeat' first
    | with_reducible assumption
    | with_reducible apply devWrite_keeps
    | with_reducible apply record_keeps
    | with_reducible apply State.updGrp_keeps
    | intro _
    | with_reducible refine ite_keeps ?_ ?_
    | split
    | fail_if_no_progress (with_reducible refine Keeps.of_mk ?_ rfl rfl rfl rfl rfl rfl rfl)

theorem noteEdge_keeps {base : State} {j : Nat} {s : State} (h_s : Keeps base s) :
    Keeps base (noteEdge j s) := by
  unfold noteEdge
  repeat' first
    | with_reducible assumption
    | intro _
    | fail_if_no_progress (with_reducible refine Keeps.of_mk ?_ rfl rfl rfl rfl rfl rfl rfl)

theorem phBase_keeps {base : State} {c : Nat} {g : Nat} {j : Nat} {x : GrpCfg} {s : State} (h_s : Keeps base s) :
    Keeps base (phBase c g j x s) := by
  unfold phBase
  repeat' first
    | with_reducible assumption
    | with_reducible apply State.draw_keeps
    | with_reducible apply State.updGrp_keeps
    | with_reducible apply phWrite_keeps
    | intro _
    | with_reducible refine ite_keeps ?_ ?_
    | split
    | fail_if_no_progress (with_reducible refine Keeps.of_mk ?_ rfl rfl rfl rfl rfl rfl rfl)

theorem phLoop_keeps {base : State} {c : Nat} {g : Nat} {j : Nat} {x : GrpCfg} {a0 : Nat} {a1 : State} (h_a1 : Keeps base a1) :
    Keeps base (phLoop c g j x a0 a1) := by
  unfold phLoop
  repeat' first
    | with_reducible assumption
    | with_reducible apply phBase_keeps
    | with_reducible apply phLoop_keeps
    | with_reducible refine ite_keeps ?_ ?_
    | split

theorem phStart_keeps {base : State} {sel : Nat} {slot : Nat} {s : State} (h_s : Keeps base s) :
    Keeps base (phStart sel slot s) := by
  unfold phStart
  repeat' first
    | with_reducible assumption
    | with_reducible apply State.updGrp_keeps
    | with_reducible apply noteEdge_keeps
    | intro _
    | with_reducible refine ite_keeps ?_ ?_
    | split
    | fail_if_no_progress (with_reducible refine Keeps.of_mk ?_ rfl rfl rfl rfl rfl rfl rfl)

theorem phSlot_keeps {base : State} {c : Nat} {j : Nat} {d : List (Nat × ChainOut)} {s : State} (h_s : Keeps base s) :
    Keeps base (phSlot c j d s) := by
  unfold phSlot
  repeat' first
    | with_reducible assumption
    | with_reducible apply State.updGrp_keeps
    | with_reducible apply phLoop_keeps
    | with_reducible apply foldl_keeps
    | with_reducible apply foldl_keeps_fst
    | with_reducible apply foldl_keeps_snd
    | intro _
    | with_reducible refine ite_keeps ?_ ?_
    | split
    | fail_if_no_progress (with_reducible refine Keeps.of_mk ?_ rfl rfl rfl rfl rfl rfl rfl)

theorem phEdge_keeps {base : State} {j : Nat} {s : State} (h_s : Keeps base s) :
    Keeps base (phEdge j s) := by
  unfold phEdge
  repeat' first
    | with_reducible assumption
    | with_reducible apply noteEdge_keeps
    | intro _
    | with_reducible refine ite_keeps ?_ ?_
    | split

theorem State.updPws_keeps {base : State} {s : State} {n : Nat} {f : PwsRt → PwsRt} (h_s : Keeps base s) :
    Keeps base (State.updPws s n f) := by
  unfold State.updPws
  repeat' first
    | with_reducible assumption
    | intro _
    | fail_if_no_progress (with_reducible refine Keeps.of_mk ?_ rfl rfl rfl rfl rfl rfl rfl)

theorem phStreamStartAct_keeps {base : State} {p : Nat} {r : Nat} {s : State} {f : Flight} (h_s : Keeps base s) :
    Keeps base (phStreamStartAct p r s f) := by
  unfold phStreamStartAct
  repeat' first
    | with_reducible assumption
    | with_reducible apply State.winFault_keeps
    | with_reducible apply finish_keeps
    | with_reducible apply State.updPws_keeps
    | intro _
    | with_reducible refine ite_keeps ?_ ?_
    | split
    | fail_if_no_progress (with_reducible refine Keeps.of_mk ?_ rfl rfl rfl rfl rfl rfl rfl)

theorem phStepped_keeps {base : State} {s : State} (h_s : Keeps base s) :
    Keeps base (phStepped s) := by
  unfold phStepped
  repeat' first
    | with_reducible assumption
    | with_reducible apply phStart_keeps
    | with_reducible apply foldl_keeps
    | with_reducible apply foldl_keeps_fst
    | with_reducible apply foldl_keeps_snd
    | intro _
    | fail_if_no_progress (with_reducible refine Keeps.of_mk ?_ rfl rfl rfl rfl rfl rfl rfl)

theorem phStop_keeps {base : State} {n : Nat} {s : State} (h_s : Keeps base s) :
    Keeps base (phStop n s) := by
  unfold phStop
  repeat' first
    | with_reducible assumption
    | with_reducible apply State.updPws_keeps
    | intro _
    | fail_if_no_progress (with_reducible refine Keeps.of_mk ?_ rfl rfl rfl rfl rfl rfl rfl)

theorem phStreamStopAct_keeps {base : State} {p : Nat} {r : Nat} {s : State} {f : Flight} (h_s : Keeps base s) :
    Keeps base (phStreamStopAct p r s f) := by
  unfold phStreamStopAct
  repeat' first
    | with_reducible assumption
    | with_reducible apply finish_keeps
    | with_reducible apply phStop_keeps
    | with_reducible refine ite_keeps ?_ ?_
    | split

theorem phStreamMarkAct_keeps {base : State} {p : Nat} {r : Nat} {s : State} {f : Flight} (h_s : Keeps base s) :
    Keeps base (phStreamMarkAct p r s f) := by
  unfold phStreamMarkAct
  repeat' first
    | with_reducible assumption
    | with_reducible apply finish_keeps
    | with_reducible apply State.updPws_keeps
    | intro _
    | with_reducible refine ite_keeps ?_ ?_
    | split
    | fail_if_no_progress (with_reducible refine Keeps.of_mk ?_ rfl rfl rfl rfl rfl rfl rfl)

theorem phDigitals_keeps {base : State} {c : Nat} {k : Nat} {s : State} (h_s : Keeps base s) :
    Keeps base (phDigitals c k s) := by
  unfold phDigitals
  repeat' first
    | with_reducible assumption
    | with_reducible apply State.updPws_keeps
    | with_reducible apply foldl_keeps
    | with_reducible apply foldl_keeps_fst
    | with_reducible apply foldl_keeps_snd
    | intro _
    | with_reducible refine ite_keeps ?_ ?_
    | split
    | fail_if_no_progress (with_reducible refine Keeps.of_mk ?_ rfl rfl rfl rfl rfl rfl rfl)

theorem dataFrameBuild_keeps {base : State} {n : Nat} {s : State} (h_s : Keeps base s) :
    Keeps base (dataFrameBuild n s) := by
  unfold dataFrameBuild
  repeat' first
    | with_reducible assumption
    | with_reducible apply releaseFrame_keeps
    | with_reducible apply State.updPws_keeps
    | (intro x
       first
         | (have hx : Keeps base x := ?_; clear_value x; on_goal 2 => subst x)
         | clear_value x
         | subst x)
    | intro _
    | lift_lets -underBinder
    | with_reducible refine ite_keeps ?_ ?_
    | split
    | dsimp -zeta only
    | fail_if_no_progress (with_reducible refine Keeps.of_mk ?_ rfl rfl rfl rfl rfl rfl rfl)

end Sys2Proof.Machine
end

