-- ==== Sys2Proof/Laws/FaultLoc.lean ====
section
/-! SUPPORT. What the operations of Machine/FaultLoc.lean keep (`Keeps` of Laws/Keeps.lean). -/

set_option linter.all false

namespace Sys2Proof.Machine

theorem State.updLine_keeps {base : State} {s : State} {l : Nat} {f : LineRt → LineRt} (h_s : Keeps base s) :
    Keeps base (State.updLine s l f) := by
  unfold State.updLine
  repeat' first
    | with_reducible assumption
    | intro _
    | fail_if_no_progress (with_reducible refine Keeps.of_mk ?_ rfl rfl rfl rfl rfl rfl rfl)

theorem flCount_keeps {base : State} {s : State} {l : Nat} {i : Nat} (h_s : Keeps base s) :
    Keeps base (flCount s l i) := by
  unfold flCount
  repeat' first
    | with_reducible assumption
    | intro _
    | fail_if_no_progress (with_reducible refine Keeps.of_mk ?_ rfl rfl rfl rfl rfl rfl rfl)

theorem flLast_keeps {base : State} {s : State} {l : Nat} {reason : Nat} (h_s : Keeps base s) :
    Keeps base (flLast s l reason) := by
  unfold flLast
  repeat' first
    | with_reducible assumption
    | intro _
    | fail_if_no_progress (with_reducible refine Keeps.of_mk ?_ rfl rfl rfl rfl rfl rfl rfl)

theorem flReason_keeps {base : State} {s : State} {l : Nat} {reason : Nat} (h_s : Keeps base s) :
    Keeps base (flReason s l reason) := by
  unfold flReason
  repeat' first
    | with_reducible assumption
    | with_reducible apply flCount_keeps
    | with_reducible apply flLast_keeps

theorem lineDelta_keeps {base : State} {l : Nat} {s : State} (h_s : Keeps base s) :
    Keeps base (lineDelta l s) := by
  unfold lineDelta
  repeat' first
    | with_reducible assumption
    | with_reducible apply deltaSend_keeps

theorem flRecord_keeps {base : State} {l : Nat} {m : Nat} {summary : Bool} {r : FlRes} {flags : BitVec 16} {s : State} (h_s : Keeps base s) :
    Keeps base (flRecord l m summary r flags s) := by
  unfold flRecord
  repeat' first
    | with_reducible assumption
    | with_reducible apply State.draw_keeps
    | with_reducible apply record_keeps
    | intro _
    | with_reducible refine ite_keeps ?_ ?_
    | split
    | fail_if_no_progress (with_reducible refine Keeps.of_mk ?_ rfl rfl rfl rfl rfl rfl rfl)

theorem flClose_keeps {base : State} {l : Nat} {closeT16 : Nat} {s : State} (h_s : Keeps base s) :
    Keeps base (flClose l closeT16 s) := by
  unfold flClose
  repeat' first
    | with_reducible assumption
    | with_reducible apply State.updLine_keeps
    | with_reducible apply flRecord_keeps
    | intro _
    | with_reducible refine ite_keeps ?_ ?_
    | split
    | fail_if_no_progress (with_reducible refine Keeps.of_mk ?_ rfl rfl rfl rfl rfl rfl rfl)

theorem flResult_keeps {base : State} {l : Nat} {m : Nat} {r : FlRes} {s : State} (h_s : Keeps base s) :
    Keeps base (flResult l m r s) := by
  unfold flResult
  repeat' first
    | with_reducible assumption
    | with_reducible apply State.updLine_keeps
    | with_reducible apply flRecord_keeps
    | with_reducible apply flClose_keeps
    | intro _
    | with_reducible refine ite_keeps ?_ ?_
    | split
    | fail_if_no_progress (with_reducible refine Keeps.of_mk ?_ rfl rfl rfl rfl rfl rfl rfl)

theorem seTw_keeps {base : State} {l : Nat} {s : State} (h_s : Keeps base s) :
    Keeps base (seTw l s) := by
  unfold seTw
  repeat' first
    | with_reducible assumption
    | with_reducible apply flResult_keeps
    | (intro x
       first
         | (have hx : Keeps base x := ?_; clear_value x; on_goal 2 => subst x)
         | clear_value x
         | subst x)
    | intro _
    | lift_lets -underBinder
    | with_reducible refine ite_keeps ?_ ?_
    | split
    | dsimp -zeta only
    | fail_if_no_progress (with_reducible refine Keeps.of_mk ?_ rfl rfl rfl rfl rfl rfl rfl)

theorem fixRef_keeps {base : State} {l : Nat} {s : State} (h_s : Keeps base s) :
    Keeps base (fixRef l s) := by
  unfold fixRef
  repeat' first
    | with_reducible assumption
    | with_reducible apply State.updLine_keeps
    | intro _
    | with_reducible refine ite_keeps ?_ ?_
    | split
    | fail_if_no_progress (with_reducible refine Keeps.of_mk ?_ rfl rfl rfl rfl rfl rfl rfl)

theorem deTw_keeps {base : State} {l : Nat} {s : State} (h_s : Keeps base s) :
    Keeps base (deTw l s) := by
  unfold deTw
  repeat' first
    | with_reducible assumption
    | with_reducible apply State.updLine_keeps
    | with_reducible apply flResult_keeps
    | with_reducible apply fixRef_keeps
    | (intro x
       first
         | (have hx : Keeps base x := ?_; clear_value x; on_goal 2 => subst x)
         | clear_value x
         | subst x)
    | intro _
    | lift_lets -underBinder
    | with_reducible refine ite_keeps ?_ ?_
    | split
    | dsimp -zeta only
    | fail_if_no_progress (with_reducible refine Keeps.of_mk ?_ rfl rfl rfl rfl rfl rfl rfl)

theorem deImp_keeps {base : State} {l : Nat} {s : State} (h_s : Keeps base s) :
    Keeps base (deImp l s) := by
  unfold deImp
  repeat' first
    | with_reducible assumption
    | with_reducible exact Keeps.refl _
    | with_reducible apply State.draw_keeps
    | with_reducible apply flResult_keeps
    | (intro x
       first
         | (have hx_ : Prop := x; clear hx_; subst x)
         | (have hx_ : _ → _ := x; clear hx_; subst x)
         | (have hx_ : TbState := x; clear hx_; subst x)
         | (have hx_ : OkState := x; clear hx_; subst x)
         | (have hx : Keeps base x := ?_; clear_value x; on_goal 2 => subst x)
         | (have hx : (∀ y, x.1 = some y → Keeps base y) ∧ Keeps base x.2 := ?_; clear_value x; on_goal 2 => subst x)
         | (have hx : Keeps base x.1 := ?_; clear_value x; on_goal 2 => subst x)
         | (have hx : Keeps base x.2 := ?_; clear_value x; on_goal 2 => subst x)
         | clear_value x)
    | intro _
    | lift_lets -underBinder
    | with_reducible refine ite_keeps ?_ ?_
    | split
    | dsimp -zeta only
    | fail_if_no_progress (with_reducible refine Keeps.of_mk ?_ rfl rfl rfl rfl rfl rfl rfl)

theorem seImpEnd_keeps {base : State} {l : Nat} {r : FlRes} {s : State} (h_s : Keeps base s) :
    Keeps base (seImpEnd l r s) := by
  unfold seImpEnd
  repeat' first
    | with_reducible assumption
    | with_reducible apply flResult_keeps
    | with_reducible apply seTw_keeps
    | with_reducible apply deImp_keeps

theorem seImp_keeps {base : State} {l : Nat} {s : State} (h_s : Keeps base s) :
    Keeps base (seImp l s) := by
  unfold seImp
  repeat' first
    | with_reducible assumption
    | with_reducible exact Keeps.refl _
    | with_reducible apply State.draw_keeps
    | with_reducible apply State.updLine_keeps
    | with_reducible apply seImpEnd_keeps
    | (intro x
       first
         | (have hx_ : Prop := x; clear hx_; subst x)
         | (have hx_ : _ → _ := x; clear hx_; subst x)
         | (have hx_ : TbState := x; clear hx_; subst x)
         | (have hx_ : OkState := x; clear hx_; subst x)
         | (have hx : Keeps base x := ?_; clear_value x; on_goal 2 => subst x)
         | (have hx : (∀ y, x.1 = some y → Keeps base y) ∧ Keeps base x.2 := ?_; clear_value x; on_goal 2 => subst x)
         | (have hx : Keeps base x.1 := ?_; clear_value x; on_goal 2 => subst x)
         | (have hx : Keeps base x.2 := ?_; clear_value x; on_goal 2 => subst x)
         | clear_value x)
    | intro _
    | lift_lets -underBinder
    | with_reducible refine ite_keeps ?_ ?_
    | split
    | dsimp -zeta only
    | fail_if_no_progress (with_reducible refine Keeps.of_mk ?_ rfl rfl rfl rfl rfl rfl rfl)

theorem flMatch_keeps {base : State} {l : Nat} {m : ArrMsg} {s : State} (h_s : Keeps base s) :
    Keeps base (flMatch l m s) := by
  unfold flMatch
  repeat' first
    | with_reducible assumption
    | with_reducible apply State.updLine_keeps
    | with_reducible apply deTw_keeps
    | intro _
    | with_reducible refine ite_keeps ?_ ?_
    | split
    | fail_if_no_progress (with_reducible refine Keeps.of_mk ?_ rfl rfl rfl rfl rfl rfl rfl)

theorem matchHeld_keeps {base : State} {l : Nat} {s : State} (h_s : Keeps base s) :
    Keeps base (matchHeld l s) := by
  unfold matchHeld
  repeat' first
    | with_reducible assumption
    | with_reducible apply State.updLine_keeps
    | with_reducible apply flMatch_keeps
    | with_reducible apply foldl_keeps
    | with_reducible apply foldl_keeps_fst
    | with_reducible apply foldl_keeps_snd
    | (intro x
       first
         | (have hx : Keeps base x := ?_; clear_value x; on_goal 2 => subst x)
         | clear_value x
         | subst x)
    | intro _
    | lift_lets -underBinder
    | split
    | dsimp -zeta only
    | fail_if_no_progress (with_reducible refine Keeps.of_mk ?_ rfl rfl rfl rfl rfl rfl rfl)

theorem flArrival_keeps {base : State} {l : Nat} {a : Arr} {s : State} (h_s : Keeps base s) :
    Keeps base (flArrival l a s) := by
  unfold flArrival
  repeat' first
    | with_reducible assumption
    | with_reducible apply State.updLine_keeps
    | with_reducible apply flCount_keeps
    | (intro x
       first
         | (have hx : Keeps base x := ?_; clear_value x; on_goal 2 => subst x)
         | clear_value x
         | subst x)
    | intro _
    | lift_lets -underBinder
    | with_reducible refine ite_keeps ?_ ?_
    | split
    | dsimp -zeta only
    | fail_if_no_progress (with_reducible refine Keeps.of_mk ?_ rfl rfl rfl rfl rfl rfl rfl)

theorem eventOpened_keeps {base : State} {l : Nat} {s : State} (h_s : Keeps base s) :
    Keeps base (eventOpened l s) := by
  unfold eventOpened
  repeat' first
    | with_reducible assumption
    | with_reducible apply State.updLine_keeps
    | with_reducible apply lineDelta_keeps
    | with_reducible apply matchHeld_keeps
    | intro _
    | with_reducible refine ite_keeps ?_ ?_
    | split
    | fail_if_no_progress (with_reducible refine Keeps.of_mk ?_ rfl rfl rfl rfl rfl rfl rfl)

theorem lineStep_keeps {base : State} {l : Nat} {x : LineCfg} {m : LineSmp} {s : State} (h_s : Keeps base s) :
    Keeps base (lineStep l x m s) := by
  unfold lineStep
  repeat' first
    | with_reducible assumption
    | with_reducible apply State.updLine_keeps
    | with_reducible apply flArrival_keeps
    | with_reducible apply foldl_keeps
    | with_reducible apply foldl_keeps_fst
    | with_reducible apply foldl_keeps_snd
    | intro _
    | with_reducible refine ite_keeps ?_ ?_
    | split
    | fail_if_no_progress (with_reducible refine Keeps.of_mk ?_ rfl rfl rfl rfl rfl rfl rfl)

theorem detReset_keeps {base : State} {l : Nat} {s : State} (h_s : Keeps base s) :
    Keeps base (detReset l s) := by
  unfold detReset
  repeat' first
    | with_reducible assumption
    | with_reducible apply State.updLine_keeps
    | intro _
    | fail_if_no_progress (with_reducible refine Keeps.of_mk ?_ rfl rfl rfl rfl rfl rfl rfl)

theorem seTwAtOnce_keeps {base : State} {l : Nat} {s : State} (h_s : Keeps base s) :
    Keeps base (seTwAtOnce l s) := by
  unfold seTwAtOnce
  repeat' first
    | with_reducible assumption
    | with_reducible apply seTw_keeps
    | (intro x
       first
         | (have hx : Keeps base x := ?_; clear_value x; on_goal 2 => subst x)
         | clear_value x
         | subst x)
    | intro _
    | lift_lets -underBinder
    | with_reducible refine ite_keeps ?_ ?_
    | split
    | dsimp -zeta only
    | fail_if_no_progress (with_reducible refine Keeps.of_mk ?_ rfl rfl rfl rfl rfl rfl rfl)

theorem flSlot_keeps {base : State} {h : Nat} {pts : List SurgePt} {returned : List Nat} {s : State} (h_s : Keeps base s) :
    Keeps base (flSlot h pts returned s) := by
  unfold flSlot
  repeat' first
    | with_reducible assumption
    | with_reducible apply flCount_keeps
    | with_reducible apply eventOpened_keeps
    | with_reducible apply lineStep_keeps
    | with_reducible apply detReset_keeps
    | with_reducible apply seTwAtOnce_keeps
    | with_reducible apply foldl_keeps
    | with_reducible apply foldl_keeps_fst
    | with_reducible apply foldl_keeps_snd
    | intro _
    | with_reducible refine ite_keeps ?_ ?_
    | split
    | fail_if_no_progress (with_reducible refine Keeps.of_mk ?_ rfl rfl rfl rfl rfl rfl rfl)

theorem detectorArmed_keeps {base : State} {l : Nat} {s : State} (h_s : Keeps base s) :
    Keeps base (detectorArmed l s) := by
  unfold detectorArmed
  repeat' first
    | with_reducible assumption
    | with_reducible apply State.updLine_keeps
    | intro _
    | with_reducible refine ite_keeps ?_ ?_
    | split
    | fail_if_no_progress (with_reducible refine Keeps.of_mk ?_ rfl rfl rfl rfl rfl rfl rfl)

theorem flSendCopy_keeps {base : State} {l : Nat} {m : FlSend} {s : State} (h_s : Keeps base s) :
    Keeps base (flSendCopy l m s) := by
  unfold flSendCopy
  repeat' first
    | with_reducible assumption
    | with_reducible apply State.winFault_keeps
    | with_reducible apply takeUse_keeps
    | with_reducible apply releaseFrame_keeps
    | with_reducible apply flCount_keeps
    | (intro x
       first
         | (have hx : Keeps base x := ?_; clear_value x; on_goal 2 => subst x)
         | clear_value x
         | subst x)
    | intro _
    | lift_lets -underBinder
    | with_reducible refine ite_keeps ?_ ?_
    | split
    | dsimp -zeta only
    | fail_if_no_progress (with_reducible refine Keeps.of_mk ?_ rfl rfl rfl rfl rfl rfl rfl)

theorem flStart_keeps {base : State} {l : Nat} {phasors : Bool} {evSeq : Nat} {oct : Bytes} {s : State} (h_s : Keeps base s) :
    Keeps base (flStart l phasors evSeq oct s) := by
  unfold flStart
  repeat' first
    | with_reducible assumption
    | with_reducible apply State.updLine_keeps
    | with_reducible apply flSendCopy_keeps
    | intro _
    | with_reducible refine ite_keeps ?_ ?_
    | split
    | fail_if_no_progress (with_reducible refine Keeps.of_mk ?_ rfl rfl rfl rfl rfl rfl rfl)

theorem sendArrivals_keeps {base : State} {l : Nat} {o : FlOwed} {s : State} (h_s : Keeps base s) :
    Keeps base (sendArrivals l o s) := by
  unfold sendArrivals
  repeat' first
    | with_reducible assumption
    | with_reducible apply flStart_keeps
    | intro _
    | with_reducible refine ite_keeps ?_ ?_
    | split

theorem sendPhasors_keeps {base : State} {l : Nat} {o : FlOwed} {s : State} (h_s : Keeps base s) :
    Keeps base (sendPhasors l o s) := by
  unfold sendPhasors
  repeat' first
    | with_reducible assumption
    | with_reducible apply flStart_keeps
    | intro _
    | split
    | fail_if_no_progress (with_reducible refine Keeps.of_mk ?_ rfl rfl rfl rfl rfl rfl rfl)

theorem dropOwed_keeps {base : State} {l : Nat} {o : FlOwed} {s : State} (h_s : Keeps base s) :
    Keeps base (dropOwed l o s) := by
  unfold dropOwed
  repeat' first
    | with_reducible assumption
    | with_reducible apply State.updLine_keeps
    | intro _
    | fail_if_no_progress (with_reducible refine Keeps.of_mk ?_ rfl rfl rfl rfl rfl rfl rfl)

theorem arrivalsSend_keeps {base : State} {l : Nat} {s : State} (h_s : Keeps base s) :
    Keeps base (arrivalsSend l s) := by
  unfold arrivalsSend
  repeat' first
    | with_reducible assumption
    | with_reducible apply State.updLine_keeps
    | with_reducible apply sendArrivals_keeps
    | with_reducible apply dropOwed_keeps
    | (intro x
       first
         | (have hx : Keeps base x := ?_; clear_value x; on_goal 2 => subst x)
         | clear_value x
         | subst x)
    | intro _
    | lift_lets -underBinder
    | with_reducible refine ite_keeps ?_ ?_
    | split
    | dsimp -zeta only
    | fail_if_no_progress (with_reducible refine Keeps.of_mk ?_ rfl rfl rfl rfl rfl rfl rfl)

theorem phasorsSend_keeps {base : State} {l : Nat} {s : State} (h_s : Keeps base s) :
    Keeps base (phasorsSend l s) := by
  unfold phasorsSend
  repeat' first
    | with_reducible assumption
    | with_reducible apply State.updLine_keeps
    | with_reducible apply sendPhasors_keeps
    | with_reducible apply dropOwed_keeps
    | (intro x
       first
         | (have hx : Keeps base x := ?_; clear_value x; on_goal 2 => subst x)
         | clear_value x
         | subst x)
    | intro _
    | lift_lets -underBinder
    | with_reducible refine ite_keeps ?_ ?_
    | split
    | dsimp -zeta only
    | fail_if_no_progress (with_reducible refine Keeps.of_mk ?_ rfl rfl rfl rfl rfl rfl rfl)

theorem messageRepeat_keeps {base : State} {l : Nat} {s : State} (h_s : Keeps base s) :
    Keeps base (messageRepeat l s) := by
  unfold messageRepeat
  repeat' first
    | with_reducible assumption
    | with_reducible apply State.waitUntil_keeps
    | with_reducible apply State.updLine_keeps
    | with_reducible apply flSendCopy_keeps
    | with_reducible apply foldl_keeps
    | with_reducible apply foldl_keeps_fst
    | with_reducible apply foldl_keeps_snd
    | (intro x
       first
         | (have hx : Keeps base x := ?_; clear_value x; on_goal 2 => subst x)
         | clear_value x
         | subst x)
    | intro _
    | lift_lets -underBinder
    | with_reducible refine ite_keeps ?_ ?_
    | split
    | dsimp -zeta only
    | fail_if_no_progress (with_reducible refine Keeps.of_mk ?_ rfl rfl rfl rfl rfl rfl rfl)

theorem flTake_keeps {base : State} {l : Nat} {m : ArrMsg} {s : State} (h_s : Keeps base s) :
    Keeps base (flTake l m s) := by
  unfold flTake
  repeat' first
    | with_reducible assumption
    | with_reducible apply State.updLine_keeps
    | with_reducible apply flCount_keeps
    | with_reducible apply lineDelta_keeps
    | with_reducible apply deImp_keeps
    | with_reducible apply flMatch_keeps
    | intro _
    | with_reducible refine ite_keeps ?_ ?_
    | split
    | fail_if_no_progress (with_reducible refine Keeps.of_mk ?_ rfl rfl rfl rfl rfl rfl rfl)

theorem flAuth_keeps {base : State} {x : LineCfg} {b : Bytes} {s : State} (h_s : Keeps base s) :
    Keeps base (flAuth x b s).1 := by
  unfold flAuth
  repeat' first
    | with_reducible assumption
    | with_reducible apply takeUse_keeps
    | (intro x
       first
         | (have hx : Keeps base x := ?_; clear_value x; on_goal 2 => subst x)
         | clear_value x
         | subst x)
    | intro _
    | lift_lets -underBinder
    | with_reducible refine ite_keeps ?_ ?_
    | with_reducible refine ite_keeps_fst ?_ ?_
    | with_reducible refine ite_keeps_snd ?_ ?_
    | split
    | dsimp -zeta only

theorem flArrivalMessage_keeps {base : State} {f : IgFrame} {b : Bytes} {s : State} (h_s : Keeps base s) :
    Keeps base (flArrivalMessage f b s) := by
  unfold flArrivalMessage
  repeat' first
    | with_reducible assumption
    | with_reducible exact Keeps.refl _
    | with_reducible apply flCount_keeps
    | with_reducible apply flLast_keeps
    | with_reducible apply flReason_keeps
    | with_reducible apply flTake_keeps
    | with_reducible apply flAuth_keeps
    | (intro x
       first
         | (have hx_ : Prop := x; clear hx_; subst x)
         | (have hx_ : _ → _ := x; clear hx_; subst x)
         | (have hx_ : TbState := x; clear hx_; subst x)
         | (have hx_ : OkState := x; clear hx_; subst x)
         | (have hx : Keeps base x := ?_; clear_value x; on_goal 2 => subst x)
         | (have hx : (∀ y, x.1 = some y → Keeps base y) ∧ Keeps base x.2 := ?_; clear_value x; on_goal 2 => subst x)
         | (have hx : Keeps base x.1 := ?_; clear_value x; on_goal 2 => subst x)
         | (have hx : Keeps base x.2 := ?_; clear_value x; on_goal 2 => subst x)
         | clear_value x)
    | intro _
    | lift_lets -underBinder
    | with_reducible refine ite_keeps ?_ ?_
    | split
    | dsimp -zeta only
    | fail_if_no_progress (with_reducible refine Keeps.of_mk ?_ rfl rfl rfl rfl rfl rfl rfl)

theorem remoteWait_keeps {base : State} {l : Nat} {s : State} (h_s : Keeps base s) :
    Keeps base (remoteWait l s) := by
  unfold remoteWait
  repeat' first
    | with_reducible assumption
    | with_reducible exact Keeps.refl _
    | with_reducible apply State.waitUntil_keeps
    | with_reducible apply State.updLine_keeps
    | with_reducible apply flCount_keeps
    | with_reducible apply lineDelta_keeps
    | with_reducible apply flResult_keeps
    | with_reducible apply fixRef_keeps
    | (intro x
       first
         | (have hx_ : Prop := x; clear hx_; subst x)
         | (have hx_ : _ → _ := x; clear hx_; subst x)
         | (have hx_ : TbState := x; clear hx_; subst x)
         | (have hx_ : OkState := x; clear hx_; subst x)
         | (have hx : Keeps base x := ?_; clear_value x; on_goal 2 => subst x)
         | (have hx : (∀ y, x.1 = some y → Keeps base y) ∧ Keeps base x.2 := ?_; clear_value x; on_goal 2 => subst x)
         | (have hx : Keeps base x.1 := ?_; clear_value x; on_goal 2 => subst x)
         | (have hx : Keeps base x.2 := ?_; clear_value x; on_goal 2 => subst x)
         | clear_value x)
    | intro _
    | lift_lets -underBinder
    | with_reducible refine ite_keeps ?_ ?_
    | split
    | dsimp -zeta only
    | fail_if_no_progress (with_reducible refine Keeps.of_mk ?_ rfl rfl rfl rfl rfl rfl rfl)

theorem flForce_keeps {base : State} {l : Nat} {s : State} (h_s : Keeps base s) :
    Keeps base (flForce l s) := by
  unfold flForce
  repeat' first
    | with_reducible assumption
    | with_reducible apply flResult_keeps
    | with_reducible apply seTw_keeps
    | with_reducible refine ite_keeps ?_ ?_
    | split

theorem eventClose_keeps {base : State} {l : Nat} {s : State} (h_s : Keeps base s) :
    Keeps base (eventClose l s) := by
  unfold eventClose
  repeat' first
    | with_reducible assumption
    | with_reducible apply State.waitSlot_keeps
    | with_reducible apply State.updLine_keeps
    | with_reducible apply flClose_keeps
    | with_reducible apply flForce_keeps
    | (intro x
       first
         | (have hx : Keeps base x := ?_; clear_value x; on_goal 2 => subst x)
         | clear_value x
         | subst x)
    | intro _
    | lift_lets -underBinder
    | with_reducible refine ite_keeps ?_ ?_
    | split
    | dsimp -zeta only
    | fail_if_no_progress (with_reducible refine Keeps.of_mk ?_ rfl rfl rfl rfl rfl rfl rfl)

theorem flCut_keeps {base : State} {l : Nat} {k : Nat} {s : State} (h_s : Keeps base s) :
    Keeps base (flCut l k s) := by
  unfold flCut
  repeat' first
    | with_reducible assumption
    | with_reducible apply State.updLine_keeps
    | with_reducible apply flClose_keeps
    | with_reducible apply flForce_keeps
    | intro _
    | with_reducible refine ite_keeps ?_ ?_
    | split
    | fail_if_no_progress (with_reducible refine Keeps.of_mk ?_ rfl rfl rfl rfl rfl rfl rfl)

theorem flStepped_keeps {base : State} {k : Nat} {s : State} (h_s : Keeps base s) :
    Keeps base (flStepped k s) := by
  unfold flStepped
  repeat' first
    | with_reducible assumption
    | with_reducible apply State.updLine_keeps
    | with_reducible apply detReset_keeps
    | with_reducible apply flCut_keeps
    | with_reducible apply foldl_keeps
    | with_reducible apply foldl_keeps_fst
    | with_reducible apply foldl_keeps_snd
    | intro _
    | fail_if_no_progress (with_reducible refine Keeps.of_mk ?_ rfl rfl rfl rfl rfl rfl rfl)

end Sys2Proof.Machine
end

