-- ==== Sys2Proof/Laws/Fbe.lean ====
section
/-! SUPPORT. What the operations of Machine/Fbe.lean keep (`Keeps` of Laws/Keeps.lean). -/

set_option linter.all false

namespace Sys2Proof.Machine

theorem State.updFbe_keeps {base : State} {s : State} {h : Nat} {f : FbRt → FbRt} (h_s : Keeps base s) :
    Keeps base (State.updFbe s h f) := by
  unfold State.updFbe
  repeat' first
    | with_reducible assumption
    | intro _
    | fail_if_no_progress (with_reducible refine Keeps.of_mk ?_ rfl rfl rfl rfl rfl rfl rfl)

theorem giveSet_keeps {base : State} {h : Nat} {cs : Nat} {j : Nat} {n : Nat} {scan : Bool} {outs : List (Nat × BitVec 32 × BitVec 32)} {s : State} (h_s : Keeps base s) :
    Keeps base (giveSet h cs j n scan outs s) := by
  unfold giveSet
  repeat' first
    | with_reducible assumption
    | with_reducible apply State.updFbe_keeps
    | intro _
    | fail_if_no_progress (with_reducible refine Keeps.of_mk ?_ rfl rfl rfl rfl rfl rfl rfl)

theorem fbScan_keeps {base : State} {h : Nat} {cs : Nat} {j : Nat} {p : FbProg} {s : State} (h_s : Keeps base s) :
    Keeps base (fbScan h cs j p s) := by
  unfold fbScan
  repeat' first
    | with_reducible assumption
    | with_reducible apply State.updFbe_keeps
    | with_reducible apply giveSet_keeps
    | intro _
    | fail_if_no_progress (with_reducible refine Keeps.of_mk ?_ rfl rfl rfl rfl rfl rfl rfl)

theorem fbHeld_keeps {base : State} {h : Nat} {cs : Nat} {j : Nat} {p : FbProg} {stop : Bool} {s : State} (h_s : Keeps base s) :
    Keeps base (fbHeld h cs j p stop s) := by
  unfold fbHeld
  repeat' first
    | with_reducible assumption
    | with_reducible apply giveSet_keeps
    | intro _
    | with_reducible refine ite_keeps ?_ ?_
    | split

theorem fbRestart_keeps {base : State} {h : Nat} {s : State} (h_s : Keeps base s) :
    Keeps base (fbRestart h s) := by
  unfold fbRestart
  repeat' first
    | with_reducible assumption
    | with_reducible apply State.updFbe_keeps
    | intro _
    | split
    | fail_if_no_progress (with_reducible refine Keeps.of_mk ?_ rfl rfl rfl rfl rfl rfl rfl)

theorem fbApply_keeps {base : State} {h : Nat} {k : FbCmdKind} {s : State} (h_s : Keeps base s) :
    Keeps base (fbApply h k s).1 := by
  unfold fbApply
  repeat' first
    | with_reducible assumption
    | with_reducible apply raiseFlag_keeps
    | with_reducible apply State.updFbe_keeps
    | with_reducible apply fbRestart_keeps
    | intro _
    | with_reducible refine ite_keeps ?_ ?_
    | split
    | fail_if_no_progress (with_reducible refine Keeps.of_mk ?_ rfl rfl rfl rfl rfl rfl rfl)

theorem fbCommands_keeps {base : State} {h : Nat} {a0 : List FbCmd} {a1 : State × Bool} (h_a1 : Keeps base a1.1) :
    Keeps base (fbCommands h a0 a1).1 := by
  unfold fbCommands
  repeat' first
    | with_reducible assumption
    | with_reducible exact Keeps.refl _
    | with_reducible apply finishKey_keeps
    | with_reducible apply fbApply_keeps
    | with_reducible apply fbCommands_keeps
    | (intro x
       first
         | (have hx_ : Prop := x; clear hx_; subst x)
         | (have hx_ : _ → _ := x; clear hx_; subst x)
         | (have hx_ : TbState := x; clear hx_; subst x)
         | (have hx_ : OkState := x; clear hx_; subst x)
         | (have hx : Keeps base x := ?_; clear_value x; on_goal 2 => subst x)
         | (have hx : (∀ y, x.1 = some y → Keeps base y) ∧ Keeps base x.2 := ?_; clear_value x; on_goal 2 => subst x)
         | (have hx : Keeps base x.1 := ?_; clear_value x; on_goal 2 => subst x)
         | (have hx : Keeps base x.2 := ?_; clear_value x; on_goal 2 => subst x)
         | clear_value x)
    | intro _
    | lift_lets -underBinder
    | split
    | dsimp -zeta only
    | fail_if_no_progress (with_reducible refine Keeps.of_mk ?_ rfl rfl rfl rfl rfl rfl rfl)

theorem fbCycle_keeps {base : State} {h : Nat} {cs : Nat} {j : Nat} {s : State} (h_s : Keeps base s) :
    Keeps base (fbCycle h cs j s) := by
  unfold fbCycle
  repeat' first
    | with_reducible assumption
    | with_reducible exact Keeps.refl _
    | with_reducible apply State.updFbe_keeps
    | with_reducible apply fbScan_keeps
    | with_reducible apply fbHeld_keeps
    | with_reducible apply fbCommands_keeps
    | (intro x
       first
         | (have hx_ : Prop := x; clear hx_; subst x)
         | (have hx_ : _ → _ := x; clear hx_; subst x)
         | (have hx_ : TbState := x; clear hx_; subst x)
         | (have hx_ : OkState := x; clear hx_; subst x)
         | (have hx : Keeps base x := ?_; clear_value x; on_goal 2 => subst x)
         | (have hx : (∀ y, x.1 = some y → Keeps base y) ∧ Keeps base x.2 := ?_; clear_value x; on_goal 2 => subst x)
         | (have hx : Keeps base x.1 := ?_; clear_value x; on_goal 2 => subst x)
         | (have hx : Keeps base x.2 := ?_; clear_value x; on_goal 2 => subst x)
         | clear_value x)
    | intro _
    | lift_lets -underBinder
    | with_reducible refine ite_keeps ?_ ?_
    | split
    | dsimp -zeta only
    | fail_if_no_progress (with_reducible refine Keeps.of_mk ?_ rfl rfl rfl rfl rfl rfl rfl)

theorem fbExchange_keeps {base : State} {h : Nat} {s : State} (h_s : Keeps base s) :
    Keeps base (fbExchange h s) := by
  unfold fbExchange
  repeat' first
    | with_reducible assumption
    | with_reducible apply State.updFbe_keeps
    | with_reducible apply fbRestart_keeps
    | (intro x
       first
         | (have hx : Keeps base x := ?_; clear_value x; on_goal 2 => subst x)
         | clear_value x
         | subst x)
    | intro _
    | lift_lets -underBinder
    | with_reducible refine ite_keeps ?_ ?_
    | split
    | dsimp -zeta only
    | fail_if_no_progress (with_reducible refine Keeps.of_mk ?_ rfl rfl rfl rfl rfl rfl rfl)

theorem programExchange_keeps {base : State} {h : Nat} {s : State} (h_s : Keeps base s) :
    Keeps base (programExchange h s) := by
  unfold programExchange
  repeat' first
    | with_reducible assumption
    | with_reducible apply fbExchange_keeps
    | (intro x
       first
         | (have hx : Keeps base x := ?_; clear_value x; on_goal 2 => subst x)
         | clear_value x
         | subst x)
    | intro _
    | lift_lets -underBinder
    | with_reducible refine ite_keeps ?_ ?_
    | split
    | dsimp -zeta only
    | fail_if_no_progress (with_reducible refine Keeps.of_mk ?_ rfl rfl rfl rfl rfl rfl rfl)

theorem fbBell_keeps {base : State} {h : Nat} {j : Nat} {ks : List Nat} {s : State} (h_s : Keeps base s) :
    Keeps base (fbBell h j ks s) := by
  unfold fbBell
  repeat' first
    | with_reducible assumption
    | with_reducible apply fbCycle_keeps
    | with_reducible apply fbExchange_keeps
    | (intro x
       first
         | (have hx : Keeps base x := ?_; clear_value x; on_goal 2 => subst x)
         | clear_value x
         | subst x)
    | intro _
    | lift_lets -underBinder
    | with_reducible refine ite_keeps ?_ ?_
    | split
    | dsimp -zeta only
    | fail_if_no_progress (with_reducible refine Keeps.of_mk ?_ rfl rfl rfl rfl rfl rfl rfl)

theorem fbReset_keeps {base : State} {h : Nat} {s : State} (h_s : Keeps base s) :
    Keeps base (fbReset h s) := by
  unfold fbReset
  repeat' first
    | with_reducible assumption
    | with_reducible apply finishKey_keeps
    | with_reducible apply State.updFbe_keeps
    | with_reducible apply fbRestart_keeps
    | with_reducible apply foldl_keeps
    | with_reducible apply foldl_keeps_fst
    | with_reducible apply foldl_keeps_snd
    | intro _
    | with_reducible refine ite_keeps ?_ ?_
    | split
    | fail_if_no_progress (with_reducible refine Keeps.of_mk ?_ rfl rfl rfl rfl rfl rfl rfl)

theorem fbClear_keeps {base : State} {h : Nat} {s : State} (h_s : Keeps base s) :
    Keeps base (fbClear h s) := by
  unfold fbClear
  repeat' first
    | with_reducible assumption
    | with_reducible apply State.updFbe_keeps
    | with_reducible apply fbReset_keeps
    | intro _

theorem fbEnd_keeps {base : State} {p : Nat} {r : Nat} {f : Flight} {status : Nat} {s : State} (h_s : Keeps base s) :
    Keeps base (fbEnd p r f status s) := by
  unfold fbEnd
  repeat' first
    | with_reducible assumption
    | with_reducible apply finish_keeps
    | with_reducible apply deltaSend_keeps

theorem fbLoadWith_keeps {base : State} {p : Nat} {key : Nat} {id : Nat} {ws : List (BitVec 32)} {img : Option Bytes} {s : State} (h_s : Keeps base s) :
    Keeps base (fbLoadWith p key id ws img s).1 := by
  unfold fbLoadWith
  repeat' first
    | with_reducible assumption
    | with_reducible apply State.updFbe_keeps
    | (intro x
       first
         | (have hx : Keeps base x := ?_; clear_value x; on_goal 2 => subst x)
         | clear_value x
         | subst x)
    | intro _
    | lift_lets -underBinder
    | with_reducible refine ite_keeps ?_ ?_
    | with_reducible refine ite_keeps_fst ?_ ?_
    | with_reducible refine ite_keeps_snd ?_ ?_
    | split
    | dsimp -zeta only
    | fail_if_no_progress (with_reducible refine Keeps.of_mk ?_ rfl rfl rfl rfl rfl rfl rfl)

theorem fbLoadAct_keeps {base : State} {p : Nat} {r : Nat} {s : State} {f : Flight} (h_s : Keeps base s) :
    Keeps base (fbLoadAct p r s f) := by
  unfold fbLoadAct
  repeat' first
    | with_reducible assumption
    | with_reducible apply State.winFault_keeps
    | with_reducible apply finish_keeps
    | with_reducible apply mateSend_keeps
    | with_reducible apply deltaSend_keeps
    | with_reducible apply fbLoadWith_keeps
    | with_reducible refine ite_keeps ?_ ?_
    | split

theorem fbLoadComplete_keeps {base : State} {h : Nat} {s : State} (h_s : Keeps base s) :
    Keeps base (fbLoadComplete h s) := by
  unfold fbLoadComplete
  repeat' first
    | with_reducible assumption
    | with_reducible apply finishKey_keeps
    | with_reducible apply completeKey_keeps
    | with_reducible apply State.updFbe_keeps
    | (intro x
       first
         | (have hx : Keeps base x := ?_; clear_value x; on_goal 2 => subst x)
         | clear_value x
         | subst x)
    | intro _
    | lift_lets -underBinder
    | with_reducible refine ite_keeps ?_ ?_
    | split
    | dsimp -zeta only
    | fail_if_no_progress (with_reducible refine Keeps.of_mk ?_ rfl rfl rfl rfl rfl rfl rfl)

theorem imageAcknowledged_keeps {base : State} {h : Nat} {s : State} (h_s : Keeps base s) :
    Keeps base (imageAcknowledged h s) := by
  unfold imageAcknowledged
  repeat' first
    | with_reducible assumption
    | with_reducible apply State.updFbe_keeps
    | intro _
    | with_reducible refine ite_keeps ?_ ?_
    | split
    | fail_if_no_progress (with_reducible refine Keeps.of_mk ?_ rfl rfl rfl rfl rfl rfl rfl)

theorem fbCmdWith_keeps {base : State} {p : Nat} {key : Nat} {id : Nat} {ws : List (BitVec 32)} {s : State} (h_s : Keeps base s) :
    Keeps base (fbCmdWith p key id ws s).1 := by
  unfold fbCmdWith
  repeat' first
    | with_reducible assumption
    | with_reducible apply State.updFbe_keeps
    | (intro x
       first
         | (have hx : Keeps base x := ?_; clear_value x; on_goal 2 => subst x)
         | clear_value x
         | subst x)
    | intro _
    | lift_lets -underBinder
    | with_reducible refine ite_keeps ?_ ?_
    | with_reducible refine ite_keeps_fst ?_ ?_
    | with_reducible refine ite_keeps_snd ?_ ?_
    | split
    | dsimp -zeta only
    | fail_if_no_progress (with_reducible refine Keeps.of_mk ?_ rfl rfl rfl rfl rfl rfl rfl)

theorem fbCmdAct_keeps {base : State} {p : Nat} {r : Nat} {s : State} {f : Flight} (h_s : Keeps base s) :
    Keeps base (fbCmdAct p r s f) := by
  unfold fbCmdAct
  repeat' first
    | with_reducible assumption
    | with_reducible apply finish_keeps
    | with_reducible apply deltaSend_keeps
    | with_reducible apply fbEnd_keeps
    | with_reducible apply fbCmdWith_keeps
    | with_reducible refine ite_keeps ?_ ?_
    | split

theorem fbForceWith_keeps {base : State} {p : Nat} {ws : List (BitVec 32)} {s : State} (h_s : Keeps base s) :
    Keeps base (fbForceWith p ws s).1 := by
  unfold fbForceWith
  repeat' first
    | with_reducible assumption
    | with_reducible apply raiseFlag_keeps
    | with_reducible apply State.updFbe_keeps
    | (intro x
       first
         | (have hx : Keeps base x := ?_; clear_value x; on_goal 2 => subst x)
         | clear_value x
         | subst x)
    | intro _
    | lift_lets -underBinder
    | with_reducible refine ite_keeps ?_ ?_
    | with_reducible refine ite_keeps_fst ?_ ?_
    | with_reducible refine ite_keeps_snd ?_ ?_
    | split
    | dsimp -zeta only
    | fail_if_no_progress (with_reducible refine Keeps.of_mk ?_ rfl rfl rfl rfl rfl rfl rfl)

theorem fbForceAct_keeps {base : State} {p : Nat} {r : Nat} {s : State} {f : Flight} (h_s : Keeps base s) :
    Keeps base (fbForceAct p r s f) := by
  unfold fbForceAct
  repeat' first
    | with_reducible assumption
    | with_reducible apply finish_keeps
    | with_reducible apply fbEnd_keeps
    | with_reducible apply fbForceWith_keeps
    | with_reducible refine ite_keeps ?_ ?_
    | split

theorem fbPeekAct_keeps {base : State} {p : Nat} {r : Nat} {s : State} {f : Flight} (h_s : Keeps base s) :
    Keeps base (fbPeekAct p r s f) := by
  unfold fbPeekAct
  repeat' first
    | with_reducible assumption
    | with_reducible apply State.draw_keeps
    | with_reducible apply complete_keeps
    | with_reducible apply finish_keeps
    | intro _
    | with_reducible refine ite_keeps ?_ ?_
    | split
    | fail_if_no_progress (with_reducible refine Keeps.of_mk ?_ rfl rfl rfl rfl rfl rfl rfl)

theorem fbPokeWith_keeps {base : State} {p : Nat} {ws : List (BitVec 32)} {s : State} (h_s : Keeps base s) :
    Keeps base (fbPokeWith p ws s).1 := by
  unfold fbPokeWith
  repeat' first
    | with_reducible assumption
    | with_reducible exact Keeps.refl _
    | with_reducible apply State.draw_keeps
    | with_reducible apply State.updFbe_keeps
    | (intro x
       first
         | (have hx_ : Prop := x; clear hx_; subst x)
         | (have hx_ : _ → _ := x; clear hx_; subst x)
         | (have hx_ : TbState := x; clear hx_; subst x)
         | (have hx_ : OkState := x; clear hx_; subst x)
         | (have hx : Keeps base x := ?_; clear_value x; on_goal 2 => subst x)
         | (have hx : (∀ y, x.1 = some y → Keeps base y) ∧ Keeps base x.2 := ?_; clear_value x; on_goal 2 => subst x)
         | (have hx : Keeps base x.1 := ?_; clear_value x; on_goal 2 => subst x)
         | (have hx : Keeps base x.2 := ?_; clear_value x; on_goal 2 => subst x)
         | clear_value x)
    | intro _
    | lift_lets -underBinder
    | with_reducible refine ite_keeps ?_ ?_
    | with_reducible refine ite_keeps_fst ?_ ?_
    | with_reducible refine ite_keeps_snd ?_ ?_
    | split
    | dsimp -zeta only
    | fail_if_no_progress (with_reducible refine Keeps.of_mk ?_ rfl rfl rfl rfl rfl rfl rfl)

theorem fbPokeAct_keeps {base : State} {p : Nat} {r : Nat} {s : State} {f : Flight} (h_s : Keeps base s) :
    Keeps base (fbPokeAct p r s f) := by
  unfold fbPokeAct
  repeat' first
    | with_reducible assumption
    | with_reducible apply finish_keeps
    | with_reducible apply fbEnd_keeps
    | with_reducible apply fbPokeWith_keeps
    | with_reducible refine ite_keeps ?_ ?_
    | split

end Sys2Proof.Machine
end

