-- ==== Sys2Proof/Laws/Publish.lean ====
section
/-! SUPPORT. What the operations of Machine/Publish.lean keep (`Keeps` of Laws/Keeps.lean). -/

set_option linter.all false

namespace Sys2Proof.Machine

theorem State.updGcb_keeps {base : State} {s : State} {g : Nat} {f : GcbRt → GcbRt} (h_s : Keeps base s) :
    Keeps base (State.updGcb s g f) := by
  unfold State.updGcb
  repeat' first
    | with_reducible assumption
    | intro _
    | fail_if_no_progress (with_reducible refine Keeps.of_mk ?_ rfl rfl rfl rfl rfl rfl rfl)

theorem State.updDsv_keeps {base : State} {s : State} {n : Nat} {f : DsvRt → DsvRt} (h_s : Keeps base s) :
    Keeps base (State.updDsv s n f) := by
  unfold State.updDsv
  repeat' first
    | with_reducible assumption
    | intro _
    | fail_if_no_progress (with_reducible refine Keeps.of_mk ?_ rfl rfl rfl rfl rfl rfl rfl)

theorem pbKeyFail_keeps {base : State} {owner : Nat} {unit : Nat} {last : Option Nat} {status : Nat} {n1 : Nat} {n2 : Nat} {s : State} (h_s : Keeps base s) :
    Keeps base (pbKeyFail owner unit last status n1 n2 s) := by
  unfold pbKeyFail
  repeat' first
    | with_reducible assumption
    | with_reducible apply record_keeps
    | with_reducible refine ite_keeps ?_ ?_
    | split

theorem gcbDelta_keeps {base : State} {g : Nat} {s : State} (h_s : Keeps base s) :
    Keeps base (gcbDelta g s) := by
  unfold gcbDelta
  repeat' first
    | with_reducible assumption
    | with_reducible apply deltaSend_keeps

theorem gooseFrame_keeps {base : State} {g : Nat} {sqNum : Nat} {interval : Nat} {at16 : Nat} {s : State} (h_s : Keeps base s) :
    Keeps base (gooseFrame g sqNum interval at16 s) := by
  unfold gooseFrame
  repeat' first
    | with_reducible assumption
    | with_reducible apply takeUse_keeps
    | with_reducible apply releaseFrame_keeps
    | with_reducible apply State.updGcb_keeps
    | with_reducible apply pbKeyFail_keeps
    | with_reducible apply gcbDelta_keeps
    | intro _
    | with_reducible refine ite_keeps ?_ ?_
    | split
    | fail_if_no_progress (with_reducible refine Keeps.of_mk ?_ rfl rfl rfl rfl rfl rfl rfl)

theorem gcbState_keeps {base : State} {g : Nat} {t : Stamp} {s : State} (h_s : Keeps base s) :
    Keeps base (gcbState g t s) := by
  unfold gcbState
  repeat' first
    | with_reducible assumption
    | with_reducible apply State.updGcb_keeps
    | with_reducible apply gooseFrame_keeps
    | intro _
    | with_reducible refine ite_keeps ?_ ?_
    | split
    | fail_if_no_progress (with_reducible refine Keeps.of_mk ?_ rfl rfl rfl rfl rfl rfl rfl)

theorem gcbEvaluate_keeps {base : State} {g : Nat} {t : Stamp} {s : State} (h_s : Keeps base s) :
    Keeps base (gcbEvaluate g t s) := by
  unfold gcbEvaluate
  repeat' first
    | with_reducible assumption
    | with_reducible apply gcbState_keeps
    | intro _
    | with_reducible refine ite_keeps ?_ ?_
    | split

theorem gcbSim_keeps {base : State} {g : Nat} {t : Stamp} {s : State} (h_s : Keeps base s) :
    Keeps base (gcbSim g t s) := by
  unfold gcbSim
  repeat' first
    | with_reducible assumption
    | with_reducible apply gcbState_keeps
    | with_reducible refine ite_keeps ?_ ?_
    | split

theorem gcbResume_keeps {base : State} {s : State} (h_s : Keeps base s) :
    Keeps base (gcbResume s) := by
  unfold gcbResume
  repeat' first
    | with_reducible assumption
    | intro _
    | with_reducible refine ite_keeps ?_ ?_
    | split
    | fail_if_no_progress (with_reducible refine Keeps.of_mk ?_ rfl rfl rfl rfl rfl rfl rfl)

theorem gcbStepped_keeps {base : State} {from_ : Nat} {to_ : Nat} {s : State} (h_s : Keeps base s) :
    Keeps base (gcbStepped from_ to_ s) := by
  unfold gcbStepped
  repeat' first
    | with_reducible assumption
    | intro _
    | fail_if_no_progress (with_reducible refine Keeps.of_mk ?_ rfl rfl rfl rfl rfl rfl rfl)

theorem gooseRetransmission_keeps {base : State} {g : Nat} {s : State} (h_s : Keeps base s) :
    Keeps base (gooseRetransmission g s) := by
  unfold gooseRetransmission
  repeat' first
    | with_reducible assumption
    | with_reducible apply State.waitUntil_keeps
    | with_reducible apply gooseFrame_keeps
    | (intro x
       first
         | (have hx : Keeps base x := ?_; clear_value x; on_goal 2 => subst x)
         | clear_value x
         | subst x)
    | intro _
    | lift_lets -underBinder
    | with_reducible refine ite_keeps ?_ ?_
    | split
    | dsimp -zeta only
    | fail_if_no_progress (with_reducible refine Keeps.of_mk ?_ rfl rfl rfl rfl rfl rfl rfl)

theorem evaluateCroft_keeps {base : State} {c : Nat} {j : Nat} {h : Nat} {q : BitVec 16} {s : State} (h_s : Keeps base s) :
    Keeps base (evaluateCroft c j h q s) := by
  unfold evaluateCroft
  repeat' first
    | with_reducible assumption
    | with_reducible apply gcbEvaluate_keeps
    | with_reducible apply foldl_keeps
    | with_reducible apply foldl_keeps_fst
    | with_reducible apply foldl_keeps_snd
    | intro _
    | split
    | fail_if_no_progress (with_reducible refine Keeps.of_mk ?_ rfl rfl rfl rfl rfl rfl rfl)

theorem handOff_keeps {base : State} {h : Nat} {s0 : State} (h_s0 : Keeps base s0) :
    Keeps base (handOff h s0) := by
  unfold handOff
  repeat' first
    | with_reducible assumption
    | with_reducible apply State.waitUntil_keeps
    | with_reducible apply releaseOrOverrun_keeps
    | with_reducible apply tickDue_keeps
    | with_reducible apply withDispatch_keeps
    | with_reducible apply decide__keeps
    | with_reducible apply State.updFbe_keeps
    | with_reducible apply evaluateCroft_keeps
    | with_reducible apply foldl_keeps
    | with_reducible apply foldl_keeps_fst
    | with_reducible apply foldl_keeps_snd
    | intro _
    | with_reducible refine ite_keeps ?_ ?_
    | split
    | fail_if_no_progress (with_reducible refine Keeps.of_mk ?_ rfl rfl rfl rfl rfl rfl rfl)

theorem fbResetPub_keeps {base : State} {h : Nat} {s : State} (h_s : Keeps base s) :
    Keeps base (fbResetPub h s) := by
  unfold fbResetPub
  repeat' first
    | with_reducible assumption
    | with_reducible apply fbReset_keeps
    | with_reducible apply evaluateCroft_keeps
    | (intro x
       first
         | (have hx : Keeps base x := ?_; clear_value x; on_goal 2 => subst x)
         | clear_value x
         | subst x)
    | intro _
    | lift_lets -underBinder
    | split
    | dsimp -zeta only
    | fail_if_no_progress (with_reducible refine Keeps.of_mk ?_ rfl rfl rfl rfl rfl rfl rfl)

theorem dsvFrame_keeps {base : State} {n : Nat} {s : State} (h_s : Keeps base s) :
    Keeps base (dsvFrame n s) := by
  unfold dsvFrame
  repeat' first
    | with_reducible assumption
    | with_reducible apply takeUse_keeps
    | with_reducible apply releaseFrame_keeps
    | with_reducible apply State.updDsv_keeps
    | with_reducible apply pbKeyFail_keeps
    | intro _
    | with_reducible refine ite_keeps ?_ ?_
    | split
    | fail_if_no_progress (with_reducible refine Keeps.of_mk ?_ rfl rfl rfl rfl rfl rfl rfl)

theorem dsvSample_keeps {base : State} {n : Nat} {c : Nat} {d : List (Nat × List (Nat × Smp) × List COut)} {q : BitVec 16} {a : Nat} {s : State} (h_s : Keeps base s) :
    Keeps base (dsvSample n c d q a s) := by
  unfold dsvSample
  repeat' first
    | with_reducible assumption
    | with_reducible apply State.updDsv_keeps
    | with_reducible apply dsvFrame_keeps
    | intro _
    | with_reducible refine ite_keeps ?_ ?_
    | split
    | fail_if_no_progress (with_reducible refine Keeps.of_mk ?_ rfl rfl rfl rfl rfl rfl rfl)

theorem dsvSlot_keeps {base : State} {c : Nat} {k : Nat} {d : List (Nat × ChainOut)} {s : State} (h_s : Keeps base s) :
    Keeps base (dsvSlot c k d s) := by
  unfold dsvSlot
  repeat' first
    | with_reducible assumption
    | with_reducible apply dsvSample_keeps
    | with_reducible apply foldl_keeps
    | with_reducible apply foldl_keeps_fst
    | with_reducible apply foldl_keeps_snd
    | intro _

theorem gcbCommit_keeps {base : State} {old : List (BitVec 32)} {g : Nat} {c : Bytes × Bytes × List (BitVec 32)} {s : State} (h_s : Keeps base s) :
    Keeps base (gcbCommit old g c s) := by
  unfold gcbCommit
  repeat' first
    | with_reducible assumption
    | with_reducible apply State.updGcb_keeps
    | intro _
    | with_reducible refine ite_keeps ?_ ?_
    | split
    | fail_if_no_progress (with_reducible refine Keeps.of_mk ?_ rfl rfl rfl rfl rfl rfl rfl)

theorem dsvCommit_keeps {base : State} {n : Nat} {c : Bytes × Bytes × List (BitVec 32)} {s : State} (h_s : Keeps base s) :
    Keeps base (dsvCommit n c s) := by
  unfold dsvCommit
  repeat' first
    | with_reducible assumption
    | with_reducible apply State.updDsv_keeps
    | intro _
    | fail_if_no_progress (with_reducible refine Keeps.of_mk ?_ rfl rfl rfl rfl rfl rfl rfl)

end Sys2Proof.Machine
end

