-- ==== Sys2Proof/Laws/Resets.lean ====
section
/-! SUPPORT. What the operations of Machine/Resets.lean keep (`Keeps` of Laws/Keeps.lean). -/

set_option linter.all false

namespace Sys2Proof.Machine

theorem refuseReset_keeps {base : State} {s : State} (h_s : Keeps base s) :
    Keeps base (refuseReset s) := by
  unfold refuseReset
  repeat' first
    | with_reducible assumption
    | intro _
    | fail_if_no_progress (with_reducible refine Keeps.of_mk ?_ rfl rfl rfl rfl rfl rfl rfl)

theorem resetRequest_keeps {base : State} {p : Nat} {c : Option RScope} {s : State} (h_s : Keeps base s) :
    Keeps base (resetRequest p c s) := by
  unfold resetRequest
  repeat' first
    | with_reducible assumption
    | with_reducible apply deltaSend_keeps
    | with_reducible apply refuseReset_keeps
    | intro _
    | with_reducible refine ite_keeps ?_ ?_
    | split
    | fail_if_no_progress (with_reducible refine Keeps.of_mk ?_ rfl rfl rfl rfl rfl rfl rfl)

theorem discardFiles_keeps {base : State} {p : Nat} {h : Nat} {s : State} (h_s : Keeps base s) :
    Keeps base (discardFiles p h s) := by
  unfold discardFiles
  repeat' first
    | with_reducible assumption
    | with_reducible apply State.updPart_keeps
    | with_reducible apply State.updFile_keeps
    | with_reducible apply foldl_keeps
    | with_reducible apply foldl_keeps_fst
    | with_reducible apply foldl_keeps_snd
    | intro _
    | fail_if_no_progress (with_reducible refine Keeps.of_mk ?_ rfl rfl rfl rfl rfl rfl rfl)

theorem discardFrom_keeps {base : State} {p : Nat} {block : Nat} {unit : Nat} {s : State} (h_s : Keeps base s) :
    Keeps base (discardFrom p block unit s) := by
  unfold discardFrom
  repeat' first
    | with_reducible assumption
    | with_reducible apply State.updPart_keeps
    | with_reducible apply State.updFile_keeps
    | intro _
    | fail_if_no_progress (with_reducible refine Keeps.of_mk ?_ rfl rfl rfl rfl rfl rfl rfl)

theorem loopReset_keeps {base : State} {l : Nat} {s : State} (h_s : Keeps base s) :
    Keeps base (loopReset l s) := by
  unfold loopReset
  repeat' first
    | with_reducible assumption
    | with_reducible apply State.updLoop_keeps
    | with_reducible apply loopRestart_keeps
    | intro _
    | fail_if_no_progress (with_reducible refine Keeps.of_mk ?_ rfl rfl rfl rfl rfl rfl rfl)

theorem hearthStop_keeps {base : State} {h : Nat} {s : State} (h_s : Keeps base s) :
    Keeps base (hearthStop h s) := by
  unfold hearthStop
  repeat' first
    | with_reducible assumption
    | with_reducible apply State.updCore_keeps
    | with_reducible apply resetSched_keeps
    | with_reducible apply fbResetPub_keeps
    | intro _
    | fail_if_no_progress (with_reducible refine Keeps.of_mk ?_ rfl rfl rfl rfl rfl rfl rfl)

theorem hearthBegin_keeps {base : State} {p : Nat} {h : Nat} {s : State} (h_s : Keeps base s) :
    Keeps base (hearthBegin p h s) := by
  unfold hearthBegin
  repeat' first
    | with_reducible assumption
    | with_reducible apply discardFiles_keeps
    | with_reducible apply hearthStop_keeps

theorem cutKeyOps_keeps {base : State} {q : Nat → Bool} {s : State} (h_s : Keeps base s) :
    Keeps base (cutKeyOps q s) := by
  unfold cutKeyOps
  repeat' first
    | with_reducible assumption
    | with_reducible apply finishKey_keeps
    | with_reducible apply freeDying_keeps
    | with_reducible apply foldl_keeps
    | with_reducible apply foldl_keeps_fst
    | with_reducible apply foldl_keeps_snd
    | intro _
    | fail_if_no_progress (with_reducible refine Keeps.of_mk ?_ rfl rfl rfl rfl rfl rfl rfl)

theorem cutFlash_keeps {base : State} {q : Nat → Bool} {s : State} (h_s : Keeps base s) :
    Keeps base (cutFlash q s) := by
  unfold cutFlash
  repeat' first
    | with_reducible assumption
    | with_reducible apply abortOp_keeps
    | with_reducible apply abortRead_keeps
    | with_reducible apply foldl_keeps
    | with_reducible apply foldl_keeps_fst
    | with_reducible apply foldl_keeps_snd
    | intro _

theorem cutFramesOf_keeps {base : State} {q : Nat → Bool} {s : State} (h_s : Keeps base s) :
    Keeps base (cutFramesOf q s) := by
  unfold cutFramesOf
  repeat' first
    | with_reducible assumption
    | intro _
    | with_reducible refine ite_keeps ?_ ?_
    | split
    | fail_if_no_progress (with_reducible refine Keeps.of_mk ?_ rfl rfl rfl rfl rfl rfl rfl)

theorem cutFlights_keeps {base : State} {p : Nat} {s : State} (h_s : Keeps base s) :
    Keeps base (cutFlights p s) := by
  unfold cutFlights
  repeat' first
    | with_reducible assumption
    | with_reducible apply finish_keeps
    | with_reducible apply foldl_keeps
    | with_reducible apply foldl_keeps_fst
    | with_reducible apply foldl_keeps_snd
    | intro _
    | with_reducible refine ite_keeps ?_ ?_
    | split

theorem resetSelectors_keeps {base : State} {p : Nat} {s : State} (h_s : Keeps base s) : Keeps base (resetSelectors p s) :=
  ⟨h_s.pending, h_s.dram, fun w => Tbl.filter_wf _ _ (h_s.regs w), h_s.edge, h_s.fused, h_s.owner, h_s.secret⟩

theorem laneReset_keeps {base : State} {g : Nat} {s : State} (h_s : Keeps base s) :
    Keeps base (laneReset g s) := by
  unfold laneReset
  repeat' first
    | with_reducible assumption
    | with_reducible apply State.updLane_keeps
    | intro _
    | fail_if_no_progress (with_reducible refine Keeps.of_mk ?_ rfl rfl rfl rfl rfl rfl rfl)

theorem rangesRestart_keeps {base : State} {p : Nat} {s : State} (h_s : Keeps base s) :
    Keeps base (rangesRestart p s) := by
  unfold rangesRestart
  repeat' first
    | with_reducible assumption
    | with_reducible apply phStart_keeps
    | with_reducible apply detReset_keeps
    | with_reducible apply foldl_keeps
    | with_reducible apply foldl_keeps_fst
    | with_reducible apply foldl_keeps_snd
    | intro _
    | with_reducible refine ite_keeps ?_ ?_
    | split
    | fail_if_no_progress (with_reducible refine Keeps.of_mk ?_ rfl rfl rfl rfl rfl rfl rfl)

theorem expireNodes_keeps {base : State} {p : Nat} {s : State} (h_s : Keeps base s) :
    Keeps base (expireNodes p s) := by
  unfold expireNodes
  repeat' first
    | with_reducible assumption
    | with_reducible apply invalidate_keeps
    | with_reducible apply foldl_keeps
    | with_reducible apply foldl_keeps_fst
    | with_reducible apply foldl_keeps_snd
    | intro _
    | with_reducible refine ite_keeps ?_ ?_
    | split

theorem partitionBegin_keeps {base : State} {p : Nat} {s : State} (h_s : Keeps base s) :
    Keeps base (partitionBegin p s) := by
  unfold partitionBegin
  repeat' first
    | with_reducible assumption
    | with_reducible apply State.updPart_keeps
    | with_reducible apply rollTxn_keeps
    | with_reducible apply ttStop_keeps
    | with_reducible apply keysDue_keeps
    | with_reducible apply capReset_keeps
    | with_reducible apply discardFiles_keeps
    | with_reducible apply loopReset_keeps
    | with_reducible apply hearthStop_keeps
    | with_reducible apply cutKeyOps_keeps
    | with_reducible apply cutFlash_keeps
    | with_reducible apply cutFramesOf_keeps
    | with_reducible apply cutFlights_keeps
    | with_reducible apply resetSelectors_keeps
    | with_reducible apply laneReset_keeps
    | with_reducible apply rangesRestart_keeps
    | with_reducible apply expireNodes_keeps
    | with_reducible apply foldl_keeps
    | with_reducible apply foldl_keeps_fst
    | with_reducible apply foldl_keeps_snd
    | intro _
    | with_reducible refine ite_keeps ?_ ?_
    | split
    | fail_if_no_progress (with_reducible refine Keeps.of_mk ?_ rfl rfl rfl rfl rfl rfl rfl)

theorem scopeBegin_keeps {base : State} {c : RScope} {s : State} (h_s : Keeps base s) :
    Keeps base (scopeBegin c s) := by
  unfold scopeBegin
  repeat' first
    | with_reducible assumption
    | with_reducible apply capReset_keeps
    | with_reducible apply fbResetPub_keeps
    | with_reducible apply discardFrom_keeps
    | with_reducible apply loopReset_keeps
    | with_reducible apply hearthBegin_keeps
    | with_reducible apply partitionBegin_keeps
    | intro _
    | split
    | fail_if_no_progress (with_reducible refine Keeps.of_mk ?_ rfl rfl rfl rfl rfl rfl rfl)

theorem resetBegin_keeps {base : State} {x : ResetRun} {s : State} (h_s : Keeps base s) :
    Keeps base (resetBegin x s) := by
  unfold resetBegin
  repeat' first
    | with_reducible assumption
    | with_reducible apply scopeBegin_keeps
    | intro _
    | fail_if_no_progress (with_reducible refine Keeps.of_mk ?_ rfl rfl rfl rfl rfl rfl rfl)

theorem resetEffective_keeps {base : State} {s : State} (h_s : Keeps base s) :
    Keeps base (resetEffective s) := by
  unfold resetEffective
  repeat' first
    | with_reducible assumption
    | with_reducible apply State.runTo_keeps
    | with_reducible apply resetBegin_keeps
    | intro _
    | split
    | fail_if_no_progress (with_reducible refine Keeps.of_mk ?_ rfl rfl rfl rfl rfl rfl rfl)

theorem startCore_keeps {base : State} {h : Nat} {s : State} (h_s : Keeps base s) :
    Keeps base (startCore h s) := by
  unfold startCore
  repeat' first
    | with_reducible assumption
    | with_reducible apply State.updCore_keeps
    | intro _

theorem startPartition_keeps {base : State} {p : Nat} {s : State} (h_s : Keeps base s) :
    Keeps base (startPartition p s) := by
  unfold startPartition
  repeat' first
    | with_reducible assumption
    | with_reducible apply State.updPart_keeps
    | with_reducible apply startCore_keeps
    | with_reducible apply foldl_keeps
    | with_reducible apply foldl_keeps_fst
    | with_reducible apply foldl_keeps_snd
    | intro _
    | fail_if_no_progress (with_reducible refine Keeps.of_mk ?_ rfl rfl rfl rfl rfl rfl rfl)

theorem restartRings_keeps {base : State} {p : Nat} {s : State} (h_s : Keeps base s) :
    Keeps base (restartRings p s) := by
  unfold restartRings
  repeat' first
    | with_reducible assumption
    | with_reducible apply State.updRing_keeps
    | with_reducible apply indexBlock_keeps
    | with_reducible apply foldl_keeps
    | with_reducible apply foldl_keeps_fst
    | with_reducible apply foldl_keeps_snd
    | intro _

theorem partitionEnd_keeps {base : State} {p : Nat} {stop : Bool} {s : State} (h_s : Keeps base s) :
    Keeps base (partitionEnd p stop s) := by
  unfold partitionEnd
  repeat' first
    | with_reducible assumption
    | with_reducible apply State.updPart_keeps
    | with_reducible apply startPartition_keeps
    | with_reducible apply restartRings_keeps
    | intro _
    | with_reducible refine ite_keeps ?_ ?_
    | split
    | fail_if_no_progress (with_reducible refine Keeps.of_mk ?_ rfl rfl rfl rfl rfl rfl rfl)

theorem drainComplete_keeps {base : State} {s : State} (h_s : Keeps base s) :
    Keeps base (drainComplete s) := by
  unfold drainComplete
  repeat' first
    | with_reducible assumption
    | with_reducible apply startCore_keeps
    | with_reducible apply partitionEnd_keeps
    | intro _
    | with_reducible refine ite_keeps ?_ ?_
    | split
    | fail_if_no_progress (with_reducible refine Keeps.of_mk ?_ rfl rfl rfl rfl rfl rfl rfl)

theorem seteipnum_keeps {base : State} {h : Nat} {tgt : Nat} {file : Nat} {be_ : Bool} {v : BitVec 32} {s : State} (h_s : Keeps base s) :
    Keeps base (seteipnum h tgt file be_ v s) := by
  unfold seteipnum
  repeat' first
    | with_reducible assumption
    | with_reducible apply State.winFault_keeps
    | with_reducible apply assertIrq_keeps
    | with_reducible refine ite_keeps ?_ ?_
    | split

end Sys2Proof.Machine
end

