-- ==== Sys2Proof/Laws/Power.lean ====
section
/-! SUPPORT. What the operations of Machine/Power.lean keep (`Keeps` of Laws/Keeps.lean). -/

set_option linter.all false

namespace Sys2Proof.Machine

theorem feedIrq_keeps {base : State} {s : State} (h_s : Keeps base s) :
    Keeps base (feedIrq s) := by
  unfold feedIrq
  repeat' first
    | with_reducible assumption
    | with_reducible apply devIrq_keeps

theorem budget_keeps {base : State} {s : State} (h_s : Keeps base s) :
    Keeps base (budget s) := by
  unfold budget
  repeat' first
    | with_reducible assumption
    | with_reducible apply feedIrq_keeps
    | intro _
    | with_reducible refine ite_keeps ?_ ?_
    | split
    | fail_if_no_progress (with_reducible refine Keeps.of_mk ?_ rfl rfl rfl rfl rfl rfl rfl)

theorem keptRegs_wf (s : State) : Tbl.wf 0 (keptRegs s) = true := by
  unfold keptRegs
  exact Tbl.set_wf _ _ _ (Tbl.set_wf _ _ _ rfl)

theorem volatileReset_keeps {base s : State} (h_s : Keeps base s) : Keeps base (volatileReset s) :=
  ⟨h_s.pending, fun _ => rfl, fun _ => keptRegs_wf s, h_s.edge, h_s.fused, h_s.owner, h_s.secret⟩

theorem keepTime_keeps {base : State} {s : State} (h_s : Keeps base s) :
    Keeps base (keepTime s) := by
  unfold keepTime
  repeat' first
    | with_reducible assumption
    | intro _
    | with_reducible refine ite_keeps ?_ ?_
    | split
    | fail_if_no_progress (with_reducible refine Keeps.of_mk ?_ rfl rfl rfl rfl rfl rfl rfl)

theorem enterKeep_keeps {base : State} {s : State} (h_s : Keeps base s) :
    Keeps base (enterKeep s) := by
  unfold enterKeep
  repeat' first
    | with_reducible assumption
    | with_reducible apply volatileReset_keeps
    | with_reducible apply keepTime_keeps
    | intro _
    | fail_if_no_progress (with_reducible refine Keeps.of_mk ?_ rfl rfl rfl rfl rfl rfl rfl)

theorem ocxoOn_keeps {base : State} {s : State} (h_s : Keeps base s) :
    Keeps base (ocxoOn s) := by
  unfold ocxoOn
  repeat' first
    | with_reducible assumption
    | intro _
    | fail_if_no_progress (with_reducible refine Keeps.of_mk ?_ rfl rfl rfl rfl rfl rfl rfl)

theorem startStep3_keeps {base : State} {s : State} (h_s : Keeps base s) :
    Keeps base (startStep3 s) := by
  unfold startStep3
  repeat' first
    | with_reducible assumption
    | with_reducible apply volatileReset_keeps

theorem loseKept_keeps {base : State} {s : State} (h_s : Keeps base s) :
    Keeps base (loseKept s) := by
  unfold loseKept
  repeat' first
    | with_reducible assumption
    | intro _
    | fail_if_no_progress (with_reducible refine Keeps.of_mk ?_ rfl rfl rfl rfl rfl rfl rfl)

theorem startUp_keeps {base : State} {s : State} (h_s : Keeps base s) :
    Keeps base (startUp s) := by
  unfold startUp
  repeat' first
    | with_reducible assumption
    | with_reducible apply ocxoOn_keeps
    | with_reducible apply startStep3_keeps
    | with_reducible apply loseKept_keeps
    | intro _
    | with_reducible refine ite_keeps ?_ ?_
    | split
    | fail_if_no_progress (with_reducible refine Keeps.of_mk ?_ rfl rfl rfl rfl rfl rfl rfl)

theorem feedPresent_keeps {base : State} {f : Nat} {cls : Nat} {s : State} (h_s : Keeps base s) :
    Keeps base (feedPresent f cls s) := by
  unfold feedPresent
  repeat' first
    | with_reducible assumption
    | with_reducible apply budget_keeps
    | with_reducible apply startUp_keeps
    | intro _
    | with_reducible refine ite_keeps ?_ ?_
    | split
    | fail_if_no_progress (with_reducible refine Keeps.of_mk ?_ rfl rfl rfl rfl rfl rfl rfl)

theorem lossEdge_keeps {base : State} {s : State} (h_s : Keeps base s) :
    Keeps base (lossEdge s) := by
  unfold lossEdge
  repeat' first
    | with_reducible assumption
    | with_reducible apply stLoss_keeps
    | with_reducible apply fallSilent_keeps
    | with_reducible apply linkLoss_keeps
    | with_reducible apply foldl_keeps
    | with_reducible apply foldl_keeps_fst
    | with_reducible apply foldl_keeps_snd
    | intro _
    | with_reducible refine ite_keeps ?_ ?_
    | split
    | fail_if_no_progress (with_reducible refine Keeps.of_mk ?_ rfl rfl rfl rfl rfl rfl rfl)

theorem feedLoss_keeps {base : State} {f : Nat} {s : State} (h_s : Keeps base s) :
    Keeps base (feedLoss f s) := by
  unfold feedLoss
  repeat' first
    | with_reducible assumption
    | with_reducible apply budget_keeps
    | with_reducible apply lossEdge_keeps
    | intro _
    | with_reducible refine ite_keeps ?_ ?_
    | split
    | fail_if_no_progress (with_reducible refine Keeps.of_mk ?_ rfl rfl rfl rfl rfl rfl rfl)

theorem shutdownExpiry_keeps {base : State} {s : State} (h_s : Keeps base s) :
    Keeps base (shutdownExpiry s) := by
  unfold shutdownExpiry
  repeat' first
    | with_reducible assumption
    | with_reducible apply State.runTo_keeps
    | with_reducible apply stShutdown_keeps
    | with_reducible apply enterKeep_keeps
    | with_reducible apply startUp_keeps
    | intro _
    | with_reducible refine ite_keeps ?_ ?_
    | split
    | fail_if_no_progress (with_reducible refine Keeps.of_mk ?_ rfl rfl rfl rfl rfl rfl rfl)

theorem supercapLow_keeps {base : State} {s : State} (h_s : Keeps base s) :
    Keeps base (supercapLow s) := by
  unfold supercapLow
  repeat' first
    | with_reducible assumption
    | with_reducible apply State.setCfg_keeps
    | intro _
    | with_reducible refine ite_keeps ?_ ?_
    | split
    | fail_if_no_progress (with_reducible refine Keeps.of_mk ?_ rfl rfl rfl rfl rfl rfl rfl)

theorem halt_keeps {base : State} {s : State} (h_s : Keeps base s) :
    Keeps base (halt s) := by
  unfold halt
  repeat' first
    | with_reducible assumption
    | with_reducible apply enterKeep_keeps
    | intro _
    | fail_if_no_progress (with_reducible refine Keeps.of_mk ?_ rfl rfl rfl rfl rfl rfl rfl)

theorem haltRetry_keeps {base : State} {s : State} (h_s : Keeps base s) :
    Keeps base (haltRetry s) := by
  unfold haltRetry
  repeat' first
    | with_reducible assumption
    | with_reducible apply State.runTo_keeps
    | with_reducible apply ocxoOn_keeps
    | with_reducible apply startStep3_keeps
    | intro _
    | with_reducible refine ite_keeps ?_ ?_
    | split
    | fail_if_no_progress (with_reducible refine Keeps.of_mk ?_ rfl rfl rfl rfl rfl rfl rfl)

theorem moduleReset_keeps {base : State} {cause : Nat} {s : State} (h_s : Keeps base s) :
    Keeps base (moduleReset cause s) := by
  unfold moduleReset
  repeat' first
    | with_reducible assumption
    | with_reducible apply programOpen_keeps
    | with_reducible apply tallyEvent_keeps
    | with_reducible apply fallSilent_keeps
    | with_reducible apply startStep3_keeps
    | intro _
    | with_reducible refine ite_keeps ?_ ?_
    | split
    | fail_if_no_progress (with_reducible refine Keeps.of_mk ?_ rfl rfl rfl rfl rfl rfl rfl)

end Sys2Proof.Machine
end

