-- ==== Sys2Proof/Laws/Setup.lean ====
section
/-! SUPPORT. What the operations of Machine/Setup.lean keep (`Keeps` of Laws/Keeps.lean). -/

set_option linter.all false

namespace Sys2Proof.Machine

theorem WriteRule.count_keeps {base : State} {r : WriteRule} {p : Nat} {s : State} (h_s : Keeps base s) :
    Keeps base (WriteRule.count r p s) := by
  unfold WriteRule.count
  repeat' first
    | with_reducible assumption
    | with_reducible apply State.dbErr_keeps
    | with_reducible apply winIgn_keeps
    | intro _
    | split
    | fail_if_no_progress (with_reducible refine Keeps.of_mk ?_ rfl rfl rfl rfl rfl rfl rfl)

theorem setMasked_keeps {base : State} {s : State} {off : Nat} {sel : Nat} {mask : BitVec 32} {v : BitVec 32} (h_s : Keeps base s) :
    Keeps base (setMasked s off sel mask v) := by
  unfold setMasked
  repeat' first
    | with_reducible assumption
    | with_reducible apply State.setCfg_keeps

theorem storePol_keeps {base : State} {b : Nat} {mask : BitVec 32} {v : BitVec 32} {s : State} (h_s : Keeps base s) :
    Keeps base (storePol b mask v s) := by
  unfold storePol
  repeat' first
    | with_reducible assumption
    | with_reducible apply blockCut_keeps
    | with_reducible apply setMasked_keeps

theorem storeRw_keeps {base : State} {off : Nat} {sel : Nat} {mask : BitVec 32} {v : BitVec 32} {s : State} (h_s : Keeps base s) :
    Keeps base (storeRw off sel mask v s) := by
  unfold storeRw
  repeat' first
    | with_reducible assumption
    | with_reducible apply refreshEst_keeps
    | with_reducible apply setUtc_keeps
    | with_reducible apply holdMode_keeps
    | with_reducible apply setMasked_keeps
    | with_reducible apply storePol_keeps
    | intro _
    | with_reducible refine ite_keeps ?_ ?_
    | split
    | fail_if_no_progress (with_reducible refine Keeps.of_mk ?_ rfl rfl rfl rfl rfl rfl rfl)

theorem storeW1c_keeps {base : State} {p : Nat} {off : Nat} {v : BitVec 32} {s : State} (h_s : Keeps base s) :
    Keeps base (storeW1c p off v s) := by
  unfold storeW1c
  repeat' first
    | with_reducible assumption
    | with_reducible apply State.updRing_keeps
    | with_reducible apply State.updSched_keeps
    | with_reducible apply tamperClearAct_keeps
    | intro _
    | with_reducible refine ite_keeps ?_ ?_
    | split
    | fail_if_no_progress (with_reducible refine Keeps.of_mk ?_ rfl rfl rfl rfl rfl rfl rfl)

theorem resetWrite_keeps {base : State} {p : Nat} {v : BitVec 32} {s : State} (h_s : Keeps base s) :
    Keeps base (resetWrite p v s) := by
  unfold resetWrite
  repeat' first
    | with_reducible assumption
    | with_reducible apply refuseReset_keeps
    | with_reducible apply resetRequest_keeps
    | with_reducible apply moduleReset_keeps
    | with_reducible refine ite_keeps ?_ ?_
    | split

theorem switchWrite_keeps {base : State} {p : Nat} {v : BitVec 32} {s : State} (h_s : Keeps base s) :
    Keeps base (switchWrite p v s) := by
  unfold switchWrite
  repeat' first
    | with_reducible assumption
    | with_reducible apply deltaSend_keeps
    | with_reducible apply prSwitchWrite_keeps
    | with_reducible refine ite_keeps ?_ ?_
    | split

theorem tyEventWrite_keeps {base : State} {p : Nat} {v : BitVec 32} {s : State} (h_s : Keeps base s) :
    Keeps base (tyEventWrite p v s) := by
  unfold tyEventWrite
  repeat' first
    | with_reducible assumption
    | with_reducible apply tallyEvent_keeps
    | with_reducible refine ite_keeps ?_ ?_
    | split

theorem storeWo_keeps {base : State} {p : Nat} {off : Nat} {v : BitVec 32} {s : State} (h_s : Keeps base s) :
    Keeps base (storeWo p off v s) := by
  unfold storeWo
  repeat' first
    | with_reducible assumption
    | with_reducible apply stepRequest_keeps
    | with_reducible apply fwOffset_keeps
    | with_reducible apply forceGo_keeps
    | with_reducible apply resetWrite_keeps
    | with_reducible apply switchWrite_keeps
    | with_reducible apply tyEventWrite_keeps
    | with_reducible refine ite_keeps ?_ ?_
    | split

theorem storeTx_keeps {base : State} {p : Nat} {off : Nat} {sel : Nat} {v : BitVec 32} {s : State} (h_s : Keeps base s) :
    Keeps base (storeTx p off sel v s) := by
  unfold storeTx
  repeat' first
    | with_reducible assumption
    | with_reducible apply State.txIgn_keeps
    | with_reducible apply winIgn_keeps
    | with_reducible apply stageKey_keeps
    | with_reducible apply deltaSend_keeps
    | intro _
    | with_reducible refine ite_keeps ?_ ?_
    | split

theorem countTx_keeps {base : State} {p : Nat} {tx : BitVec 32} {s : State} (h_s : Keeps base s) :
    Keeps base (countTx p tx s) := by
  unfold countTx
  repeat' first
    | with_reducible assumption
    | with_reducible apply State.txIgn_keeps
    | with_reducible refine ite_keeps ?_ ?_
    | split

theorem storeDenied_keeps {base : State} {r : WriteRule} {p : Nat} {tx : BitVec 32} {s : State} (h_s : Keeps base s) :
    Keeps base (storeDenied r p tx s) := by
  unfold storeDenied
  repeat' first
    | with_reducible assumption
    | with_reducible apply WriteRule.count_keeps
    | with_reducible apply countTx_keeps

theorem storeSetup_keeps {base : State} {p : Nat} {off : Nat} {v : BitVec 32} {s : State} (h_s : Keeps base s) :
    Keeps base (storeSetup p off v s) := by
  unfold storeSetup
  repeat' first
    | with_reducible assumption
    | with_reducible apply writeAddendLo_keeps
    | with_reducible apply writeAddendHi_keeps
    | with_reducible apply storeRw_keeps
    | with_reducible apply storeW1c_keeps
    | with_reducible apply storeWo_keeps
    | with_reducible apply storeTx_keeps
    | with_reducible apply countTx_keeps
    | with_reducible apply storeDenied_keeps
    | intro _
    | with_reducible refine ite_keeps ?_ ?_
    | split
    | fail_if_no_progress (with_reducible refine Keeps.of_mk ?_ rfl rfl rfl rfl rfl rfl rfl)

theorem clearRc_keeps {base : State} {p : Nat} {off : Nat} {s : State} (h_s : Keeps base s) :
    Keeps base (clearRc p off s) := by
  unfold clearRc
  repeat' first
    | with_reducible assumption
    | with_reducible apply State.updPart_keeps
    | with_reducible apply State.updRing_keeps
    | with_reducible apply State.updTxn_keeps
    | with_reducible apply State.winFault_keeps
    | with_reducible apply State.updSched_keeps
    | with_reducible apply winIgn_keeps
    | with_reducible apply State.updChain_keeps
    | intro _
    | with_reducible refine ite_keeps ?_ ?_
    | split
    | fail_if_no_progress (with_reducible refine Keeps.of_mk ?_ rfl rfl rfl rfl rfl rfl rfl)

theorem loadSetup_keeps {base : State} {h : Nat} {off : Nat} {s : State} (h_s : Keeps base s) :
    Keeps base (loadSetup h off s) := by
  unfold loadSetup
  repeat' first
    | with_reducible assumption
    | with_reducible apply State.updCore_keeps
    | with_reducible apply readNow0_keeps
    | with_reducible apply readTsqT3_keeps
    | with_reducible apply clearRc_keeps
    | intro _
    | with_reducible refine ite_keeps ?_ ?_
    | split
    | fail_if_no_progress (with_reducible refine Keeps.of_mk ?_ rfl rfl rfl rfl rfl rfl rfl)

end Sys2Proof.Machine
end

