-- ==== Sys2Proof/Laws/Checks.lean ====
section
/-! SUPPORT. What the operations of Machine/Checks.lean keep (`Keeps` of Laws/Keeps.lean). -/

set_option linter.all false

namespace Sys2Proof.Machine

theorem putKeys_keeps {base : State} {ks : List (Nat × BitVec 32)} {s : State} (h_s : Keeps base s) :
    Keeps base (putKeys ks s) := by
  unfold putKeys
  repeat' first
    | with_reducible assumption
    | with_reducible apply State.setCfg_keeps
    | with_reducible apply foldl_keeps
    | with_reducible apply foldl_keeps_fst
    | with_reducible apply foldl_keeps_snd
    | intro _

end Sys2Proof.Machine
end

