-- ==== Sys2Proof/Laws/Apply.lean ====
section
/-! SUPPORT. What the operations of Machine/Apply.lean keep (`Keeps` of Laws/Keeps.lean). -/

set_option linter.all false

namespace Sys2Proof.Machine

theorem ringOff_keeps {base : State} {p : Nat} {r : Nat} {s : State} (h_s : Keeps base s) :
    Keeps base (ringOff p r s) := by
  unfold ringOff
  repeat' first
    | with_reducible assumption
    | with_reducible apply State.updRing_keeps
    | with_reducible apply finish_keeps
    | with_reducible apply rollTxn_keeps
    | with_reducible apply ttStop_keeps
    | with_reducible apply keysDue_keeps
    | with_reducible apply capStop_keeps
    | with_reducible apply cutKeyOps_keeps
    | with_reducible apply cutFlash_keeps
    | with_reducible apply cutFramesOf_keeps
    | with_reducible apply foldl_keeps
    | with_reducible apply foldl_keeps_fst
    | with_reducible apply foldl_keeps_snd
    | intro _
    | with_reducible refine ite_keeps ?_ ?_
    | split
    | fail_if_no_progress (with_reducible refine Keeps.of_mk ?_ rfl rfl rfl rfl rfl rfl rfl)

theorem endCommit_keeps {base : State} {x : Txn} {b : Wb} {s : State} (h_s : Keeps base s) :
    Keeps base (endCommit x b s) := by
  unfold endCommit
  repeat' first
    | with_reducible assumption
    | with_reducible apply completeWon_keeps
    | with_reducible refine ite_keeps ?_ ?_
    | split

theorem hearthMoved_keeps {base : State} {o : State} {h : Nat} {s : State} (h_s : Keeps base s) :
    Keeps base (hearthMoved o h s) := by
  unfold hearthMoved
  repeat' first
    | with_reducible assumption
    | with_reducible apply fbClear_keeps
    | with_reducible apply hearthBegin_keeps
    | intro _
    | fail_if_no_progress (with_reducible refine Keeps.of_mk ?_ rfl rfl rfl rfl rfl rfl rfl)

theorem applyBefore_keeps {base : State} {m : Nat} {ks : List Nat} {n : State} {s : State} (h_n : Keeps base n) (h_s : Keeps base s) :
    Keeps base (applyBefore m ks n s) := by
  unfold applyBefore
  repeat' first
    | with_reducible assumption
    | with_reducible apply ttStop_keeps
    | with_reducible apply State.updCap_keeps
    | with_reducible apply capReset_keeps
    | with_reducible apply State.updPws_keeps
    | with_reducible apply flCut_keeps
    | with_reducible apply loopReset_keeps
    | with_reducible apply ringOff_keeps
    | with_reducible apply hearthMoved_keeps
    | with_reducible apply foldl_keeps
    | with_reducible apply foldl_keeps_fst
    | with_reducible apply foldl_keeps_snd
    | intro _
    | with_reducible refine ite_keeps ?_ ?_
    | split
    | fail_if_no_progress (with_reducible refine Keeps.of_mk ?_ rfl rfl rfl rfl rfl rfl rfl)

theorem chainAnew_keeps {base : State} {m : Nat} {c : Nat} {ce : Nat} {s : State} (h_s : Keeps base s) :
    Keeps base (chainAnew m c ce s) := by
  unfold chainAnew
  repeat' first
    | with_reducible assumption
    | with_reducible apply State.updChain_keeps
    | with_reducible apply restartLoops_keeps
    | with_reducible apply State.updCap_keeps
    | with_reducible apply foldl_keeps
    | with_reducible apply foldl_keeps_fst
    | with_reducible apply foldl_keeps_snd
    | intro _
    | with_reducible refine ite_keeps ?_ ?_
    | split
    | fail_if_no_progress (with_reducible refine Keeps.of_mk ?_ rfl rfl rfl rfl rfl rfl rfl)

theorem restartChains_keeps {base : State} {m : Nat} {x : Ste} {s : State} (h_s : Keeps base s) :
    Keeps base (restartChains m x s) := by
  unfold restartChains
  repeat' first
    | with_reducible assumption
    | with_reducible apply chainAnew_keeps
    | with_reducible apply foldl_keeps
    | with_reducible apply foldl_keeps_fst
    | with_reducible apply foldl_keeps_snd
    | intro _
    | with_reducible refine ite_keeps ?_ ?_
    | split

theorem steCommit_keeps {base : State} {m : Nat} {o : State} {e : Nat} {s : State} (h_s : Keeps base s) :
    Keeps base (steCommit m o e s) := by
  unfold steCommit
  repeat' first
    | with_reducible assumption
    | with_reducible apply State.updStream_keeps
    | with_reducible apply streamTo_keeps
    | with_reducible apply restartChains_keeps
    | intro _
    | with_reducible refine ite_keeps ?_ ?_
    | split
    | fail_if_no_progress (with_reducible refine Keeps.of_mk ?_ rfl rfl rfl rfl rfl rfl rfl)

theorem chainCommit_keeps {base : State} {m : Nat} {o : State} {k : Nat} {s : State} (h_s : Keeps base s) :
    Keeps base (chainCommit m o k s) := by
  unfold chainCommit
  repeat' first
    | with_reducible assumption
    | with_reducible apply State.updChain_keeps
    | with_reducible apply chainAnew_keeps
    | intro _
    | with_reducible refine ite_keeps ?_ ?_
    | split
    | fail_if_no_progress (with_reducible refine Keeps.of_mk ?_ rfl rfl rfl rfl rfl rfl rfl)

theorem rangeMoved_keeps {base : State} {m : Nat} {c : Nat} {r : Nat} {s : State} (h_s : Keeps base s) :
    Keeps base (rangeMoved m c r s) := by
  unfold rangeMoved
  repeat' first
    | with_reducible assumption
    | with_reducible apply chainAnew_keeps
    | with_reducible apply foldl_keeps
    | with_reducible apply foldl_keeps_fst
    | with_reducible apply foldl_keeps_snd
    | intro _

theorem surgeMoved_keeps {base : State} {sc : Nat} {s : State} (h_s : Keeps base s) :
    Keeps base (surgeMoved sc s) := by
  unfold surgeMoved
  repeat' first
    | with_reducible assumption
    | with_reducible apply detReset_keeps
    | with_reducible apply foldl_keeps
    | with_reducible apply foldl_keeps_fst
    | with_reducible apply foldl_keeps_snd
    | intro _
    | fail_if_no_progress (with_reducible refine Keeps.of_mk ?_ rfl rfl rfl rfl rfl rfl rfl)

theorem grpCommit_keeps {base : State} {m : Nat} {o : State} {sel : Nat} {s : State} (h_s : Keeps base s) :
    Keeps base (grpCommit m o sel s) := by
  unfold grpCommit
  repeat' first
    | with_reducible assumption
    | with_reducible apply phStart_keeps
    | with_reducible refine ite_keeps ?_ ?_
    | split

theorem lineCommit_keeps {base : State} {o : State} {l : Nat} {s : State} (h_s : Keeps base s) :
    Keeps base (lineCommit o l s) := by
  unfold lineCommit
  repeat' first
    | with_reducible assumption
    | with_reducible apply detReset_keeps
    | with_reducible refine ite_keeps ?_ ?_
    | split

theorem gcbPut_keeps {base : State} {m : Nat} {o : State} {g : Nat} {s : State} (h_s : Keeps base s) :
    Keeps base (gcbPut m o g s) := by
  unfold gcbPut
  repeat' first
    | with_reducible assumption
    | with_reducible apply State.updGcb_keeps
    | with_reducible apply gcbSim_keeps
    | with_reducible apply gcbCommit_keeps
    | intro _
    | with_reducible refine ite_keeps ?_ ?_
    | split
    | fail_if_no_progress (with_reducible refine Keeps.of_mk ?_ rfl rfl rfl rfl rfl rfl rfl)

theorem dsvPut_keeps {base : State} {g : Nat} {s : State} (h_s : Keeps base s) :
    Keeps base (dsvPut g s) := by
  unfold dsvPut
  repeat' first
    | with_reducible assumption
    | with_reducible apply State.updDsv_keeps
    | with_reducible apply dsvCommit_keeps
    | intro _
    | with_reducible refine ite_keeps ?_ ?_
    | split
    | fail_if_no_progress (with_reducible refine Keeps.of_mk ?_ rfl rfl rfl rfl rfl rfl rfl)

theorem loopCommit_keeps {base : State} {m : Nat} {o : State} {l : Nat} {s : State} (h_s : Keeps base s) :
    Keeps base (loopCommit m o l s) := by
  unfold loopCommit
  repeat' first
    | with_reducible assumption
    | with_reducible apply State.updLane_keeps
    | with_reducible apply State.updLoop_keeps
    | intro _
    | with_reducible refine ite_keeps ?_ ?_
    | split
    | fail_if_no_progress (with_reducible refine Keeps.of_mk ?_ rfl rfl rfl rfl rfl rfl rfl)

theorem laneCommit_keeps {base : State} {o : State} {g : Nat} {s : State} (h_s : Keeps base s) :
    Keeps base (laneCommit o g s) := by
  unfold laneCommit
  repeat' first
    | with_reducible assumption
    | with_reducible apply laneReset_keeps
    | with_reducible refine ite_keeps ?_ ?_
    | split

theorem bankCommit_keeps {base : State} {m : Nat} {o : State} {h : Nat} {s : State} (h_s : Keeps base s) :
    Keeps base (bankCommit m o h s) := by
  unfold bankCommit
  repeat' first
    | with_reducible assumption
    | with_reducible apply State.updFbe_keeps
    | intro _
    | with_reducible refine ite_keeps ?_ ?_
    | split
    | fail_if_no_progress (with_reducible refine Keeps.of_mk ?_ rfl rfl rfl rfl rfl rfl rfl)

theorem taskCommit_keeps {base : State} {o : State} {k : Nat} {s : State} (h_s : Keeps base s) :
    Keeps base (taskCommit o k s) := by
  unfold taskCommit
  repeat' first
    | with_reducible assumption
    | with_reducible apply State.updTask_keeps
    | with_reducible apply State.updSched_keeps
    | with_reducible apply startHistory_keeps
    | with_reducible apply postRelease_keeps
    | intro _
    | with_reducible refine ite_keeps ?_ ?_
    | split
    | fail_if_no_progress (with_reducible refine Keeps.of_mk ?_ rfl rfl rfl rfl rfl rfl rfl)

theorem partCommit_keeps {base : State} {o : State} {p : Nat} {s : State} (h_s : Keeps base s) :
    Keeps base (partCommit o p s) := by
  unfold partCommit
  repeat' first
    | with_reducible assumption
    | with_reducible apply State.updFbe_keeps
    | with_reducible apply resetBegin_keeps
    | with_reducible apply startPartition_keeps
    | with_reducible apply foldl_keeps
    | with_reducible apply foldl_keeps_fst
    | with_reducible apply foldl_keeps_snd
    | intro _
    | with_reducible refine ite_keeps ?_ ?_
    | split
    | fail_if_no_progress (with_reducible refine Keeps.of_mk ?_ rfl rfl rfl rfl rfl rfl rfl)

theorem domOff_keeps {base : State} {d : Nat} {s : State} (h_s : Keeps base s) :
    Keeps base (domOff d s) := by
  unfold domOff
  repeat' first
    | with_reducible assumption
    | intro _
    | with_reducible refine ite_keeps ?_ ?_
    | split
    | fail_if_no_progress (with_reducible refine Keeps.of_mk ?_ rfl rfl rfl rfl rfl rfl rfl)

theorem domainStops_keeps {base : State} {d : Nat} {s : State} (h_s : Keeps base s) :
    Keeps base (domainStops d s) := by
  unfold domainStops
  repeat' first
    | with_reducible assumption
    | with_reducible apply linkLoss_keeps
    | with_reducible apply capStop_keeps
    | with_reducible apply hearthBegin_keeps
    | with_reducible apply domOff_keeps
    | with_reducible apply foldl_keeps
    | with_reducible apply foldl_keeps_fst
    | with_reducible apply foldl_keeps_snd
    | intro _
    | with_reducible refine ite_keeps ?_ ?_
    | split
    | fail_if_no_progress (with_reducible refine Keeps.of_mk ?_ rfl rfl rfl rfl rfl rfl rfl)

theorem domCommit_keeps {base : State} {o : State} {s : State} (h_s : Keeps base s) :
    Keeps base (domCommit o s) := by
  unfold domCommit
  repeat' first
    | with_reducible assumption
    | with_reducible apply domainStops_keeps
    | with_reducible apply foldl_keeps
    | with_reducible apply foldl_keeps_fst
    | with_reducible apply foldl_keeps_snd
    | intro _
    | with_reducible refine ite_keeps ?_ ?_
    | split
    | fail_if_no_progress (with_reducible refine Keeps.of_mk ?_ rfl rfl rfl rfl rfl rfl rfl)

theorem clsCommit_keeps {base : State} {o : State} {ks : List Nat} {s : State} (h_s : Keeps base s) :
    Keeps base (clsCommit o ks s) := by
  unfold clsCommit
  repeat' first
    | with_reducible assumption
    | intro _
    | with_reducible refine ite_keeps ?_ ?_
    | split
    | fail_if_no_progress (with_reducible refine Keeps.of_mk ?_ rfl rfl rfl rfl rfl rfl rfl)

theorem ringsStart_keeps {base : State} {ks : List Nat} {o : State} {s : State} (h_s : Keeps base s) :
    Keeps base (ringsStart ks o s) := by
  unfold ringsStart
  repeat' first
    | with_reducible assumption
    | with_reducible apply State.updRing_keeps
    | with_reducible apply foldl_keeps
    | with_reducible apply foldl_keeps_fst
    | with_reducible apply foldl_keeps_snd
    | intro _

theorem applyAfter_keeps {base : State} {m : Nat} {ks : List Nat} {o : State} {s : State} (h_s : Keeps base s) :
    Keeps base (applyAfter m ks o s) := by
  unfold applyAfter
  repeat' first
    | with_reducible assumption
    | with_reducible apply dispatchIf_keeps
    | with_reducible apply portChanged_keeps
    | with_reducible apply steCommit_keeps
    | with_reducible apply chainCommit_keeps
    | with_reducible apply rangeMoved_keeps
    | with_reducible apply surgeMoved_keeps
    | with_reducible apply grpCommit_keeps
    | with_reducible apply lineCommit_keeps
    | with_reducible apply gcbPut_keeps
    | with_reducible apply dsvPut_keeps
    | with_reducible apply loopCommit_keeps
    | with_reducible apply laneCommit_keeps
    | with_reducible apply bankCommit_keeps
    | with_reducible apply taskCommit_keeps
    | with_reducible apply partCommit_keeps
    | with_reducible apply domCommit_keeps
    | with_reducible apply clsCommit_keeps
    | with_reducible apply ringsStart_keeps
    | with_reducible apply foldl_keeps
    | with_reducible apply foldl_keeps_fst
    | with_reducible apply foldl_keeps_snd
    | intro _
    | with_reducible refine ite_keeps ?_ ?_
    | split
    | fail_if_no_progress (with_reducible refine Keeps.of_mk ?_ rfl rfl rfl rfl rfl rfl rfl)

theorem applyKeys_keeps {base : State} {m : Nat} {kv : List (Nat × BitVec 32)} {s : State} (h_s : Keeps base s) :
    Keeps base (applyKeys m kv s) := by
  unfold applyKeys
  repeat' first
    | with_reducible assumption
    | with_reducible apply putKeys_keeps
    | with_reducible apply applyBefore_keeps
    | with_reducible apply applyAfter_keeps

theorem toApplyEdge_keeps {base : State} {x : Txn} {s : State} (h_s : Keeps base s) :
    Keeps base (toApplyEdge x s) := by
  unfold toApplyEdge
  repeat' first
    | with_reducible assumption
    | with_reducible apply State.waitSlot_keeps
    | with_reducible refine ite_keeps ?_ ?_
    | split

theorem failReads_keeps {base : State} {n : State} {ks : List Nat} {f : Fail} {s : State} (h_n : Keeps base n) (h_s : Keeps base s) :
    Keeps base (failReads n ks f s) := by
  unfold failReads
  repeat' first
    | with_reducible assumption
    | with_reducible apply State.winFault_keeps
    | intro _
    | with_reducible refine ite_keeps ?_ ?_
    | split

theorem txnEnded_keeps {base : State} {p : Nat} {m : Nat} {status : Nat} {s : State} (h_s : Keeps base s) :
    Keeps base (txnEnded p m status s) := by
  unfold txnEnded
  repeat' first
    | with_reducible assumption
    | with_reducible apply State.updTxn_keeps
    | with_reducible apply deltaSend_keeps
    | intro _
    | fail_if_no_progress (with_reducible refine Keeps.of_mk ?_ rfl rfl rfl rfl rfl rfl rfl)

theorem txnApply_keeps {base : State} {s0 : State} (h_s0 : Keeps base s0) :
    Keeps base (txnApply s0).1 := by
  unfold txnApply
  repeat' first
    | with_reducible assumption
    | with_reducible apply dropTxn_keeps
    | with_reducible apply putKeys_keeps
    | with_reducible apply endCommit_keeps
    | with_reducible apply applyKeys_keeps
    | with_reducible apply toApplyEdge_keeps
    | with_reducible apply failReads_keeps
    | with_reducible apply txnEnded_keeps
    | (intro x
       first
         | (have hx : Keeps base x := ?_; clear_value x; on_goal 2 => subst x)
         | clear_value x
         | subst x)
    | intro _
    | lift_lets -underBinder
    | split
    | dsimp -zeta only
    | fail_if_no_progress (with_reducible refine Keeps.of_mk ?_ rfl rfl rfl rfl rfl rfl rfl)

end Sys2Proof.Machine
end

