-- ==== Sys2Proof/Laws/Delta.lean ====
section
/-! SUPPORT. What the operations of Machine/Delta.lean keep (`Keeps` of Laws/Keeps.lean). -/

set_option linter.all false

namespace Sys2Proof.Machine

theorem deltaCommit_keeps {base : State} {it : DeltaItem} {p : Nat} {slot : Nat} {ring : Nat} {s : State} (h_s : Keeps base s) :
    Keeps base (deltaCommit it p slot ring s) := by
  unfold deltaCommit
  repeat' first
    | with_reducible assumption
    | with_reducible apply State.updTxn_keeps
    | with_reducible apply dropTxn_keeps
    | with_reducible apply diverge_keeps
    | intro _
    | with_reducible refine ite_keeps ?_ ?_
    | split
    | fail_if_no_progress (with_reducible refine Keeps.of_mk ?_ rfl rfl rfl rfl rfl rfl rfl)

theorem deltaFbe_keeps {base : State} {it : DeltaItem} {key : Nat} {h : Nat} {ws : List (BitVec 32)} {img : Option Bytes} {s : State} (h_s : Keeps base s) :
    Keeps base (deltaFbe it key h ws img s) := by
  unfold deltaFbe
  repeat' first
    | with_reducible assumption
    | with_reducible apply mateSend_keeps
    | with_reducible apply diverge_keeps
    | with_reducible apply State.updFbe_keeps
    | with_reducible apply fbLoadWith_keeps
    | with_reducible apply fbCmdWith_keeps
    | with_reducible apply fbForceWith_keeps
    | with_reducible apply fbPokeWith_keeps
    | intro _
    | with_reducible refine ite_keeps ?_ ?_
    | split
    | fail_if_no_progress (with_reducible refine Keeps.of_mk ?_ rfl rfl rfl rfl rfl rfl rfl)

theorem deltaKey_keeps {base : State} {ring : Nat} {node : Nat} {applyEdge : Nat} {k : KeyPendKind} {s : State} (h_s : Keeps base s) :
    Keeps base (deltaKey ring node applyEdge k s) := by
  unfold deltaKey
  repeat' first
    | with_reducible assumption
    | with_reducible apply takeUse_keeps
    | intro _
    | split
    | fail_if_no_progress (with_reducible refine Keeps.of_mk ?_ rfl rfl rfl rfl rfl rfl rfl)

theorem deltaApply_keeps {base : State} {it : DeltaItem} {s : State} (h_s : Keeps base s) :
    Keeps base (deltaApply it s) := by
  unfold deltaApply
  repeat' first
    | with_reducible assumption
    | with_reducible apply stageKey_keeps
    | with_reducible apply openTxn_keeps
    | with_reducible apply rollTxn_keeps
    | with_reducible apply diverge_keeps
    | with_reducible apply State.updLine_keeps
    | with_reducible apply State.updGcb_keeps
    | with_reducible apply deltaCommit_keeps
    | with_reducible apply deltaFbe_keeps
    | with_reducible apply deltaKey_keeps
    | intro _
    | with_reducible refine ite_keeps ?_ ?_
    | split
    | fail_if_no_progress (with_reducible refine Keeps.of_mk ?_ rfl rfl rfl rfl rfl rfl rfl)

theorem deltaNext_keeps {base : State} {it : DeltaItem} {s : State} (h_s : Keeps base s) :
    Keeps base (deltaNext it s) := by
  unfold deltaNext
  repeat' first
    | with_reducible assumption
    | with_reducible apply diverge_keeps
    | with_reducible apply deltaApply_keeps
    | intro _
    | with_reducible refine ite_keeps ?_ ?_
    | split
    | fail_if_no_progress (with_reducible refine Keeps.of_mk ?_ rfl rfl rfl rfl rfl rfl rfl)

theorem stateDeltaItem_keeps {base : State} {it : DeltaItem} {s : State} (h_s : Keeps base s) :
    Keeps base (stateDeltaItem it s) := by
  unfold stateDeltaItem
  repeat' first
    | with_reducible assumption
    | with_reducible apply synced_keeps
    | with_reducible apply deltaNext_keeps
    | intro _
    | with_reducible refine ite_keeps ?_ ?_
    | split
    | fail_if_no_progress (with_reducible refine Keeps.of_mk ?_ rfl rfl rfl rfl rfl rfl rfl)

theorem resyncSnapshot_keeps {base : State} {s : State} (h_s : Keeps base s) :
    Keeps base (resyncSnapshot s) := by
  unfold resyncSnapshot
  repeat' first
    | with_reducible assumption
    | with_reducible apply State.waitSlot_keeps
    | with_reducible apply mateSend_keeps
    | intro _
    | with_reducible refine ite_keeps ?_ ?_
    | split
    | fail_if_no_progress (with_reducible refine Keeps.of_mk ?_ rfl rfl rfl rfl rfl rfl rfl)

theorem snapRegs_keeps {base : State} {z : Snap} {s : State} (h_s : Keeps base s) :
    Keeps base (snapRegs z s) := by
  unfold snapRegs
  repeat' first
    | with_reducible assumption
    | with_reducible apply putKeys_keeps
    | with_reducible apply applyKeys_keeps
    | intro _
    | with_reducible refine ite_keeps ?_ ?_
    | split
    | fail_if_no_progress (with_reducible refine Keeps.of_mk ?_ rfl rfl rfl rfl rfl rfl rfl)

theorem snapOrchard_keeps {base : State} {z : Snap} {s : State} (h_s : Keeps base s) :
    Keeps base (snapOrchard z s) := by
  unfold snapOrchard
  repeat' first
    | with_reducible assumption
    | with_reducible apply takeUse_keeps
    | with_reducible apply applyKey_keeps
    | with_reducible apply foldl_keeps
    | with_reducible apply foldl_keeps_fst
    | with_reducible apply foldl_keeps_snd
    | intro _
    | split
    | fail_if_no_progress (with_reducible refine Keeps.of_mk ?_ rfl rfl rfl rfl rfl rfl rfl)

theorem resyncStateApply_keeps {base : State} {z : Snap} {s : State} (h_s : Keeps base s) :
    Keeps base (resyncStateApply z s) := by
  have h := snapOrchard_keeps (z := z) (snapRegs_keeps (z := z) h_s)
  unfold resyncStateApply
  split
  · exact h_s
  · exact prCount_keeps (foldl_keeps ⟨h.pending, h.dram, h.regs, h_s.edge, h.fused, h.owner, h.secret⟩
      (fun _ _ hx => stateDeltaItem_keeps hx))

end Sys2Proof.Machine
end

