-- ==== Sys2Proof/Laws/Boot.lean ====
section
/-! SUPPORT. What the operations of Machine/Boot.lean keep (`Keeps` of Laws/Keeps.lean). -/

set_option linter.all false

namespace Sys2Proof.Machine

theorem copyImage_wf {ws : List Window} {x : Image} {m : List Host.Cell} (h : Memory.wf m) : Memory.wf (copyImage ws x m) := by
  unfold copyImage
  split
  · exact h
  · exact dramStores_wf h

theorem copyImages_wf {ws : Image → List Window} {l : List Image} : ∀ {m : List Host.Cell}, Memory.wf m →
    Memory.wf (l.foldl (fun m i => copyImage (ws i) i m) m) := by
  induction l with
  | nil => intro m h; exact h
  | cons i l ih => intro m h; exact ih (copyImage_wf h)

theorem imageEvent_keeps {base : State} {d : BitVec 16} {s : State} (h_s : Keeps base s) :
    Keeps base (imageEvent d s) := by
  unfold imageEvent
  repeat' first
    | with_reducible assumption
    | with_reducible apply tallyEvent_keeps

theorem withEntry0_keeps {base : State} {s : State} (h_s : Keeps base s) :
    Keeps base (withEntry0 s) := by
  unfold withEntry0
  repeat' first
    | with_reducible assumption
    | intro _
    | fail_if_no_progress (with_reducible refine Keeps.of_mk ?_ rfl rfl rfl rfl rfl rfl rfl)

theorem enterSafe_keeps {base : State} {entry : Nat} {cause : Nat} {s : State} (h_s : Keeps base s) :
    Keeps base (enterSafe entry cause s) := by
  unfold enterSafe
  repeat' first
    | with_reducible assumption
    | with_reducible apply State.updPart_keeps
    | with_reducible apply dropTxn_keeps
    | with_reducible apply linkLoss_keeps
    | with_reducible apply startCore_keeps
    | with_reducible apply imageEvent_keeps
    | with_reducible apply withEntry0_keeps
    | with_reducible apply foldl_keeps
    | with_reducible apply foldl_keeps_fst
    | with_reducible apply foldl_keeps_snd
    | intro _
    | with_reducible refine ite_keeps ?_ ?_
    | split
    | fail_if_no_progress (with_reducible refine Keeps.of_mk ?_ rfl rfl rfl rfl rfl rfl rfl)

theorem negotiationBegin_keeps {base : State} {s : State} (h_s : Keeps base s) :
    Keeps base (negotiationBegin s) := by
  unfold negotiationBegin
  repeat' first
    | with_reducible assumption
    | intro _
    | fail_if_no_progress (with_reducible refine Keeps.of_mk ?_ rfl rfl rfl rfl rfl rfl rfl)

theorem lockedCheck_keeps {base : State} {s : State} (h_s : Keeps base s) :
    Keeps base (lockedCheck s) := by
  unfold lockedCheck
  repeat' first
    | with_reducible assumption
    | with_reducible apply negotiationBegin_keeps
    | with_reducible refine ite_keeps ?_ ?_
    | split

theorem bootBank_keeps {base : State} {bank : Nat} {fail : Option BankFail} {x : BankSet} {s : State} (h_s : Keeps base s) :
    Keeps base (bootBank bank fail x s) := by
  unfold bootBank
  repeat' first
    | with_reducible assumption
    | with_reducible apply imageEvent_keeps
    | with_reducible apply withEntry0_keeps
    | with_reducible apply lockedCheck_keeps
    | with_reducible apply foldl_keeps
    | with_reducible apply foldl_keeps_fst
    | with_reducible apply foldl_keeps_snd
    | intro _
    | with_reducible refine ite_keeps ?_ ?_
    | split
    | fail_if_no_progress (with_reducible refine Keeps.of_mk ?_ rfl rfl rfl rfl rfl rfl rfl)

theorem selectImages_keeps {base : State} {s : State} (h_s : Keeps base s) :
    Keeps base (selectImages s) := by
  unfold selectImages
  repeat' first
    | with_reducible assumption
    | with_reducible apply halt_keeps
    | with_reducible apply enterSafe_keeps
    | with_reducible apply bootBank_keeps
    | (intro x
       first
         | (have hx : Keeps base x := ?_; clear_value x; on_goal 2 => subst x)
         | clear_value x
         | subst x)
    | intro _
    | lift_lets -underBinder
    | with_reducible refine ite_keeps ?_ ?_
    | split
    | dsimp -zeta only
    | fail_if_no_progress (with_reducible refine Keeps.of_mk ?_ rfl rfl rfl rfl rfl rfl rfl)

theorem afterDomains_keeps {base : State} {s : State} (h_s : Keeps base s) :
    Keeps base (afterDomains s) := by
  unfold afterDomains
  repeat' first
    | with_reducible assumption
    | with_reducible apply unsealRoot_keeps
    | with_reducible apply enterSafe_keeps
    | with_reducible apply selectImages_keeps
    | intro _
    | with_reducible refine ite_keeps ?_ ?_
    | split
    | fail_if_no_progress (with_reducible refine Keeps.of_mk ?_ rfl rfl rfl rfl rfl rfl rfl)

theorem pd11Up_keeps {base s : State} (h_s : Keeps base s) : Keeps base (pd11Up s) := by
  unfold pd11Up
  exact replay_keeps (Keeps.of_eq (h_s.set_dram (m := []) (fun _ => rfl)) rfl rfl rfl rfl rfl rfl rfl)

theorem groupsUp_keeps {base : State} {d : Nat} {s : State} (h_s : Keeps base s) :
    Keeps base (groupsUp d s) := by
  unfold groupsUp
  repeat' first
    | with_reducible assumption
    | with_reducible apply phStart_keeps
    | with_reducible apply foldl_keeps
    | with_reducible apply foldl_keeps_fst
    | with_reducible apply foldl_keeps_snd
    | intro _

theorem domainBistComplete_keeps {base : State} {d : Nat} {pass : Bool} {s : State} (h_s : Keeps base s) :
    Keeps base (domainBistComplete d pass s) := by
  unfold domainBistComplete
  repeat' first
    | with_reducible assumption
    | with_reducible apply State.pass_keeps
    | with_reducible apply halt_keeps
    | with_reducible apply afterDomains_keeps
    | with_reducible apply pd11Up_keeps
    | with_reducible apply groupsUp_keeps
    | (intro x
       first
         | (have hx : Keeps base x := ?_; clear_value x; on_goal 2 => subst x)
         | clear_value x
         | subst x)
    | intro _
    | lift_lets -underBinder
    | with_reducible refine ite_keeps ?_ ?_
    | split
    | dsimp -zeta only
    | fail_if_no_progress (with_reducible refine Keeps.of_mk ?_ rfl rfl rfl rfl rfl rfl rfl)

theorem timeWaitExpiry_keeps {base : State} {s : State} (h_s : Keeps base s) :
    Keeps base (timeWaitExpiry s) := by
  unfold timeWaitExpiry
  repeat' first
    | with_reducible assumption
    | with_reducible apply State.runTo_keeps
    | with_reducible apply negotiationBegin_keeps
    | with_reducible refine ite_keeps ?_ ?_
    | split

theorem applyBundle_keeps {base s : State} (h_s : Keeps base s) : Keeps base (applyBundle s) := by
  unfold applyBundle
  split
  · exact enterSafe_keeps h_s
  · extract_lets s1 x n parts noImage tx0 pw0 s2
    have h1 : Keeps base s1 := foldl_keeps (openTxn_keeps h_s) (fun a b ha => storeSetup_keeps ha)
    have h2 : Keeps base s2 := Keeps.of_eq (h1.set_dram copyImages_wf) rfl rfl rfl rfl rfl rfl rfl
    clear_value s1 s2
    split
    · exact enterSafe_keeps h1
    · exact State.updTxn_keeps h2

theorem bundleEnd_keeps {base : State} {status : Nat} {s : State} (h_s : Keeps base s) :
    Keeps base (bundleEnd status s) := by
  unfold bundleEnd
  repeat' first
    | with_reducible assumption
    | with_reducible apply startPartition_keeps
    | with_reducible apply enterSafe_keeps
    | intro _
    | with_reducible refine ite_keeps ?_ ?_
    | split
    | fail_if_no_progress (with_reducible refine Keeps.of_mk ?_ rfl rfl rfl rfl rfl rfl rfl)

theorem step9_keeps {base : State} {s : State} (h_s : Keeps base s) :
    Keeps base (step9 s) := by
  unfold step9
  repeat' first
    | with_reducible assumption
    | with_reducible apply resyncRequest_keeps
    | with_reducible apply applyBundle_keeps
    | intro _
    | with_reducible refine ite_keeps ?_ ?_
    | split
    | fail_if_no_progress (with_reducible refine Keeps.of_mk ?_ rfl rfl rfl rfl rfl rfl rfl)

theorem negotiated_keeps {base : State} {s : State} (h_s : Keeps base s) :
    Keeps base (negotiated s) := by
  unfold negotiated
  repeat' first
    | with_reducible assumption
    | with_reducible apply negotiationEnd_keeps
    | with_reducible apply imageEvent_keeps
    | with_reducible apply step9_keeps
    | intro _
    | with_reducible refine ite_keeps ?_ ?_
    | split
    | fail_if_no_progress (with_reducible refine Keeps.of_mk ?_ rfl rfl rfl rfl rfl rfl rfl)

theorem startWaiting_keeps {base : State} {k : Nat} {s : State} (h_s : Keeps base s) :
    Keeps base (startWaiting k s) := by
  unfold startWaiting
  repeat' first
    | with_reducible assumption
    | with_reducible apply startPartition_keeps
    | with_reducible apply foldl_keeps
    | with_reducible apply foldl_keeps_fst
    | with_reducible apply foldl_keeps_snd
    | intro _
    | with_reducible refine ite_keeps ?_ ?_
    | split
    | fail_if_no_progress (with_reducible refine Keeps.of_mk ?_ rfl rfl rfl rfl rfl rfl rfl)

theorem holdupChange_keeps {base : State} {ok : Bool} {s : State} (h_s : Keeps base s) :
    Keeps base (holdupChange ok s) := by
  unfold holdupChange
  repeat' first
    | with_reducible assumption
    | with_reducible apply feedIrq_keeps
    | with_reducible apply step9_keeps
    | intro _
    | with_reducible refine ite_keeps ?_ ?_
    | split
    | fail_if_no_progress (with_reducible refine Keeps.of_mk ?_ rfl rfl rfl rfl rfl rfl rfl)

end Sys2Proof.Machine
end

