-- ==== Sys2Proof/Laws/Calm.lean ====
section
/-! SUPPORT. What write-backs, event records, interrupts, tally records and messages to the other unit leave alone: every part of
the state but memory, the rings, the interrupt files, the scheduler, the tally and the run of the pair (R289, R295, R326, R332, R335). -/

set_option linter.all false

namespace Sys2Proof.Machine

/-- State b differs from state a at most in memory, ring indices, counts of partitions, interrupt files, the scheduler, the tally, the
run of the pair and the number of draws. -/
structure Calm (a b : State) : Prop where
  pending : b.pending = a.pending
  tb : b.tb = a.tb
  tu : b.tu = a.tu
  ptp : b.ptp = a.ptp
  regs : b.regs = a.regs
  cores : b.cores = a.cores
  tx : b.tx = a.tx
  pw : b.pw = a.pw
  st : b.st = a.st
  ok : b.ok = a.ok
  pr : b.pr = a.pr
  snap : b.snap = a.snap
  gn : b.gn = a.gn
  mc : b.mc = a.mc
  ig : b.ig = a.ig
  fc : b.fc = a.fc
  tg : b.tg = a.tg
  ph : b.ph = a.ph
  fl : b.fl = a.fl
  fb : b.fb = a.fb
  pb : b.pb = a.pb
  lp : b.lp = a.lp

theorem Calm.refl (s : State) : Calm s s := ⟨rfl, rfl, rfl, rfl, rfl, rfl, rfl, rfl, rfl, rfl, rfl, rfl, rfl, rfl, rfl, rfl, rfl, rfl, rfl, rfl, rfl, rfl⟩

theorem Calm.of_mk {a x : State}
    {f_pending : List Instr}
    {f_tb : TbState}
    {f_tu : TbUnits}
    {f_ptp : PtpState}
    {f_regs : Tbl (BitVec 32)}
    {f_dram : List Host.Cell}
    {f_pt : PtState}
    {f_files : Tbl IFile}
    {f_cores : Tbl CoreSt}
    {f_db : DbState}
    {f_tx : TxState}
    {f_sq : SqState}
    {f_pw : PwState}
    {f_st : StState}
    {f_ty : TyState}
    {f_ok : OkState}
    {f_pr : PrState}
    {f_pu : PrRun}
    {f_snap : Option Snap}
    {f_gn : GnState}
    {f_mc : McState}
    {f_ig : IgState}
    {f_fc : FcState}
    {f_tg : TgState}
    {f_ph : PhState}
    {f_fl : FlState}
    {f_fb : FbState}
    {f_pb : PbState}
    {f_lp : LpState}
    {f_draws : Nat}
    (h : Calm a x) (h_pending : f_pending = x.pending) (h_tb : f_tb = x.tb) (h_tu : f_tu = x.tu) (h_ptp : f_ptp = x.ptp) (h_regs : f_regs = x.regs) (h_cores : f_cores = x.cores) (h_tx : f_tx = x.tx) (h_pw : f_pw = x.pw) (h_st : f_st = x.st) (h_ok : f_ok = x.ok) (h_pr : f_pr = x.pr) (h_snap : f_snap = x.snap) (h_gn : f_gn = x.gn) (h_mc : f_mc = x.mc) (h_ig : f_ig = x.ig) (h_fc : f_fc = x.fc) (h_tg : f_tg = x.tg) (h_ph : f_ph = x.ph) (h_fl : f_fl = x.fl) (h_fb : f_fb = x.fb) (h_pb : f_pb = x.pb) (h_lp : f_lp = x.lp) :
    Calm a (State.mk f_pending f_tb f_tu f_ptp f_regs f_dram f_pt f_files f_cores f_db f_tx f_sq f_pw f_st f_ty f_ok f_pr f_pu f_snap f_gn f_mc f_ig f_fc f_tg f_ph f_fl f_fb f_pb f_lp f_draws) :=
  ⟨h_pending.trans h.pending, h_tb.trans h.tb, h_tu.trans h.tu, h_ptp.trans h.ptp, h_regs.trans h.regs, h_cores.trans h.cores, h_tx.trans h.tx, h_pw.trans h.pw, h_st.trans h.st, h_ok.trans h.ok, h_pr.trans h.pr, h_snap.trans h.snap, h_gn.trans h.gn, h_mc.trans h.mc, h_ig.trans h.ig, h_fc.trans h.fc, h_tg.trans h.tg, h_ph.trans h.ph, h_fl.trans h.fl, h_fb.trans h.fb, h_pb.trans h.pb, h_lp.trans h.lp⟩

theorem optPair_calm {base s1 : State} {x : Option State × State} (h : (∀ y, x.1 = some y → Calm base y) ∧ Calm base x.2)
    (e : x.1 = some s1) : Calm base s1 := h.1 s1 e

theorem optPair_calm_snd {base : State} {x : Option State × State} (h : (∀ y, x.1 = some y → Calm base y) ∧ Calm base x.2) :
    Calm base x.2 := h.2

theorem ite_calm {base : State} {c : Prop} [Decidable c] {a b : State} (ha : Calm base a) (hb : Calm base b) :
    Calm base (if c then a else b) := by
  split
  · exact ha
  · exact hb

theorem ite_calm_fst {base : State} {γ : Type} {c : Prop} [Decidable c] {a b : State × γ} (ha : Calm base a.1) (hb : Calm base b.1) :
    Calm base (if c then a else b).1 := by
  split
  · exact ha
  · exact hb

theorem ite_calm_snd {base : State} {γ : Type} {c : Prop} [Decidable c] {a b : γ × State} (ha : Calm base a.2) (hb : Calm base b.2) :
    Calm base (if c then a else b).2 := by
  split
  · exact ha
  · exact hb

theorem foldl_calm {base : State} {β : Type} {f : State → β → State} {l : List β} {s : State} (h : Calm base s)
    (hf : ∀ a b, Calm base a → Calm base (f a b)) : Calm base (l.foldl f s) := by
  induction l generalizing s with
  | nil => exact h
  | cons b l ih => exact ih (hf s b h)

theorem foldl_calm_fst {base : State} {β γ : Type} {f : State × γ → β → State × γ} {l : List β} {s : State × γ}
    (h : Calm base s.1) (hf : ∀ a b, Calm base a.1 → Calm base (f a b).1) : Calm base (l.foldl f s).1 := by
  induction l generalizing s with
  | nil => exact h
  | cons b l ih => exact ih (hf s b h)

theorem foldl_calm_snd {base : State} {β γ : Type} {f : γ × State → β → γ × State} {l : List β} {s : γ × State}
    (h : Calm base s.2) (hf : ∀ a b, Calm base a.2 → Calm base (f a b).2) : Calm base (l.foldl f s).2 := by
  induction l generalizing s with
  | nil => exact h
  | cons b l ih => exact ih (hf s b h)

theorem State.updPart_calm {base : State} {s : State} {p : Nat} {f : PartRun → PartRun} (h_s : Calm base s) :
    Calm base (State.updPart s p f) := by
  unfold State.updPart
  repeat' first
    | with_reducible assumption
    | intro _
    | fail_if_no_progress (with_reducible refine Calm.of_mk ?_ rfl rfl rfl rfl rfl rfl rfl rfl rfl rfl rfl rfl rfl rfl rfl rfl rfl rfl rfl rfl rfl rfl)

theorem State.updRing_calm {base : State} {s : State} {p : Nat} {r : Nat} {f : RingRun → RingRun} (h_s : Calm base s) :
    Calm base (State.updRing s p r f) := by
  unfold State.updRing
  repeat' first
    | with_reducible assumption
    | intro _
    | fail_if_no_progress (with_reducible refine Calm.of_mk ?_ rfl rfl rfl rfl rfl rfl rfl rfl rfl rfl rfl rfl rfl rfl rfl rfl rfl rfl rfl rfl rfl rfl)

theorem State.updFile_calm {base : State} {s : State} {h : Nat} {f : Nat} {g : IFile → IFile} (h_s : Calm base s) :
    Calm base (State.updFile s h f g) := by
  unfold State.updFile
  repeat' first
    | with_reducible assumption
    | intro _
    | fail_if_no_progress (with_reducible refine Calm.of_mk ?_ rfl rfl rfl rfl rfl rfl rfl rfl rfl rfl rfl rfl rfl rfl rfl rfl rfl rfl rfl rfl rfl rfl)

theorem State.winFault_calm {base s : State} {p : Nat} (h_s : Calm base s) : Calm base (s.winFault p) :=
  State.updPart_calm h_s

theorem State.dbErr_calm {base : State} {s : State} {p : Nat} (h_s : Calm base s) :
    Calm base (State.dbErr s p) := by
  unfold State.dbErr
  repeat' first
    | with_reducible assumption
    | intro _
    | fail_if_no_progress (with_reducible refine Calm.of_mk ?_ rfl rfl rfl rfl rfl rfl rfl rfl rfl rfl rfl rfl rfl rfl rfl rfl rfl rfl rfl rfl rfl rfl)

theorem devWrite_calm {base s : State} {p a : Nat} {bs : List (BitVec 8)} (h_s : Calm base s) : Calm base (devWrite s p a bs) := by
  unfold devWrite
  split
  · exact ⟨h_s.pending, h_s.tb, h_s.tu, h_s.ptp, h_s.regs, h_s.cores, h_s.tx, h_s.pw, h_s.st, h_s.ok, h_s.pr, h_s.snap, h_s.gn, h_s.mc, h_s.ig, h_s.fc, h_s.tg, h_s.ph, h_s.fl, h_s.fb, h_s.pb, h_s.lp⟩
  · exact State.winFault_calm h_s

theorem indexBlock_calm {base : State} {s : State} {p : Nat} {r : Nat} (h_s : Calm base s) :
    Calm base (indexBlock s p r) := by
  unfold indexBlock
  repeat' first
    | with_reducible assumption
    | with_reducible apply devWrite_calm
    | with_reducible refine ite_calm ?_ ?_
    | split

theorem offerRecord_calm {base : State} {s : State} {p : Nat} {r : Nat} {w0 : BitVec 32} {body : List (Nat × BitVec 32)} {st : Stamp} (h_s : Calm base s) :
    Calm base (offerRecord s p r w0 body st).1 := by
  unfold offerRecord
  repeat' first
    | with_reducible assumption
    | with_reducible apply State.updRing_calm
    | with_reducible apply devWrite_calm
    | with_reducible apply indexBlock_calm
    | (intro x
       first
         | (have hx : Calm base x := ?_; clear_value x; on_goal 2 => subst x)
         | clear_value x
         | subst x)
    | intro _
    | lift_lets -underBinder
    | with_reducible refine ite_calm ?_ ?_
    | with_reducible refine ite_calm_fst ?_ ?_
    | with_reducible refine ite_calm_snd ?_ ?_
    | split
    | dsimp -zeta only
    | fail_if_no_progress (with_reducible refine Calm.of_mk ?_ rfl rfl rfl rfl rfl rfl rfl rfl rfl rfl rfl rfl rfl rfl rfl rfl rfl rfl rfl rfl rfl rfl)

theorem putWb_calm {base : State} {s : State} {p : Nat} {r : Nat} {f : Flight} {b : Wb} (h_s : Calm base s) :
    Calm base (putWb s p r f b) := by
  unfold putWb
  repeat' first
    | with_reducible assumption
    | with_reducible apply State.updRing_calm
    | with_reducible apply devWrite_calm
    | intro _
    | fail_if_no_progress (with_reducible refine Calm.of_mk ?_ rfl rfl rfl rfl rfl rfl rfl rfl rfl rfl rfl rfl rfl rfl rfl rfl rfl rfl rfl rfl rfl rfl)

theorem putGroup_calm {base : State} {s : State} {p : Nat} {r : Nat} {f : Flight} {b : Wb} (h_s : Calm base s) :
    Calm base (putGroup s p r f b) := by
  unfold putGroup
  repeat' first
    | with_reducible assumption
    | with_reducible apply State.updRing_calm
    | with_reducible apply devWrite_calm
    | with_reducible apply foldl_calm
    | with_reducible apply foldl_calm_fst
    | with_reducible apply foldl_calm_snd
    | intro _
    | with_reducible refine ite_calm ?_ ?_
    | split
    | fail_if_no_progress (with_reducible refine Calm.of_mk ?_ rfl rfl rfl rfl rfl rfl rfl rfl rfl rfl rfl rfl rfl rfl rfl rfl rfl rfl rfl rfl rfl rfl)

theorem drain_calm {base : State} {a0 : Nat} {a1 : State} {a2 : Nat} {a3 : Nat} {a4 : List Flight} (h_a1 : Calm base a1) :
    Calm base (drain a0 a1 a2 a3 a4).1 := by
  unfold drain
  repeat' first
    | with_reducible assumption
    | with_reducible apply putWb_calm
    | with_reducible apply drain_calm
    | intro _
    | with_reducible refine ite_calm ?_ ?_
    | split
    | fail_if_no_progress (with_reducible refine Calm.of_mk ?_ rfl rfl rfl rfl rfl rfl rfl rfl rfl rfl rfl rfl rfl rfl rfl rfl rfl rfl rfl rfl rfl rfl)

theorem settle_calm {base : State} {s : State} {p : Nat} {r : Nat} {id : Nat} {b0 : Wb} (h_s : Calm base s) :
    Calm base (settle s p r id b0).1 := by
  unfold settle
  repeat' first
    | with_reducible assumption
    | with_reducible apply State.updRing_calm
    | with_reducible apply putGroup_calm
    | with_reducible apply drain_calm
    | intro _
    | with_reducible refine ite_calm ?_ ?_
    | split
    | fail_if_no_progress (with_reducible refine Calm.of_mk ?_ rfl rfl rfl rfl rfl rfl rfl rfl rfl rfl rfl rfl rfl rfl rfl rfl rfl rfl rfl rfl rfl rfl)

theorem State.updTask_calm {base : State} {s : State} {h : Nat} {t : Nat} {f : Task → Task} (h_s : Calm base s) :
    Calm base (State.updTask s h t f) := by
  unfold State.updTask
  repeat' first
    | with_reducible assumption
    | intro _
    | fail_if_no_progress (with_reducible refine Calm.of_mk ?_ rfl rfl rfl rfl rfl rfl rfl rfl rfl rfl rfl rfl rfl rfl rfl rfl rfl rfl rfl rfl rfl rfl)

theorem State.updSched_calm {base : State} {s : State} {h : Nat} {f : Sched → Sched} (h_s : Calm base s) :
    Calm base (State.updSched s h f) := by
  unfold State.updSched
  repeat' first
    | with_reducible assumption
    | intro _
    | fail_if_no_progress (with_reducible refine Calm.of_mk ?_ rfl rfl rfl rfl rfl rfl rfl rfl rfl rfl rfl rfl rfl rfl rfl rfl rfl rfl rfl rfl rfl rfl)

theorem makeReady_calm {base : State} {s : State} {h : Nat} {t : Nat} {r : Nat} (h_s : Calm base s) :
    Calm base (makeReady s h t r) := by
  unfold makeReady
  repeat' first
    | with_reducible assumption
    | with_reducible apply State.updTask_calm
    | intro _
    | with_reducible refine ite_calm ?_ ?_
    | split
    | fail_if_no_progress (with_reducible refine Calm.of_mk ?_ rfl rfl rfl rfl rfl rfl rfl rfl rfl rfl rfl rfl rfl rfl rfl rfl rfl rfl rfl rfl rfl rfl)

theorem postRelease_calm {base : State} {s : State} {h : Nat} {t : Nat} (h_s : Calm base s) :
    Calm base (postRelease s h t) := by
  unfold postRelease
  repeat' first
    | with_reducible assumption
    | with_reducible apply State.updTask_calm
    | with_reducible apply makeReady_calm
    | intro _
    | with_reducible refine ite_calm ?_ ?_
    | split
    | fail_if_no_progress (with_reducible refine Calm.of_mk ?_ rfl rfl rfl rfl rfl rfl rfl rfl rfl rfl rfl rfl rfl rfl rfl rfl rfl rfl rfl rfl rfl rfl)

theorem queuePost_calm {base : State} {s : State} {h : Nat} {q : Post} {permitted : Bool} (h_s : Calm base s) :
    Calm base (queuePost s h q permitted).2 := by
  unfold queuePost
  repeat' first
    | with_reducible assumption
    | with_reducible apply State.updSched_calm
    | with_reducible apply postRelease_calm
    | intro _
    | with_reducible refine ite_calm ?_ ?_
    | split
    | fail_if_no_progress (with_reducible refine Calm.of_mk ?_ rfl rfl rfl rfl rfl rfl rfl rfl rfl rfl rfl rfl rfl rfl rfl rfl rfl rfl rfl rfl rfl rfl)

theorem irqStamp_calm {base : State} {s : State} {h : Nat} {f : Nat} {id : Nat} {src : BitVec 32} (h_s : Calm base s) :
    Calm base (irqStamp s h f id src) := by
  unfold irqStamp
  repeat' first
    | with_reducible assumption
    | with_reducible apply State.dbErr_calm
    | with_reducible apply offerRecord_calm
    | (intro x
       first
         | (have hx : Calm base x := ?_; clear_value x; on_goal 2 => subst x)
         | clear_value x
         | subst x)
    | intro _
    | lift_lets -underBinder
    | split
    | dsimp -zeta only
    | fail_if_no_progress (with_reducible refine Calm.of_mk ?_ rfl rfl rfl rfl rfl rfl rfl rfl rfl rfl rfl rfl rfl rfl rfl rfl rfl rfl rfl rfl rfl rfl)

theorem assertIrq_calm {base : State} {a0 : Nat} {a1 : State} {a2 : Nat} {a3 : Nat} {a4 : Nat} {a5 : BitVec 32} (h_a1 : Calm base a1) :
    Calm base (assertIrq a0 a1 a2 a3 a4 a5) := by
  unfold assertIrq
  repeat' first
    | with_reducible assumption
    | with_reducible apply State.updFile_calm
    | with_reducible apply queuePost_calm
    | with_reducible apply irqStamp_calm
    | with_reducible apply assertIrq_calm
    | intro _
    | with_reducible refine ite_calm ?_ ?_
    | split
    | fail_if_no_progress (with_reducible refine Calm.of_mk ?_ rfl rfl rfl rfl rfl rfl rfl rfl rfl rfl rfl rfl rfl rfl rfl rfl rfl rfl rfl rfl rfl rfl)

theorem devIrq_calm {base : State} {s : State} {p : Nat} {id : Nat} {block : Nat} {unit : Nat} (h_s : Calm base s) :
    Calm base (devIrq s p id block unit) := by
  unfold devIrq
  repeat' first
    | with_reducible assumption
    | with_reducible apply assertIrq_calm
    | with_reducible refine ite_calm ?_ ?_
    | split

theorem ringIrq_calm {base : State} {s : State} {p : Nat} {r : Nat} {flagged : Bool} (h_s : Calm base s) :
    Calm base (ringIrq s p r flagged) := by
  unfold ringIrq
  repeat' first
    | with_reducible assumption
    | with_reducible apply devIrq_calm
    | with_reducible refine ite_calm ?_ ?_
    | split

theorem recordTo_calm {base : State} {s : State} {p : Nat} {r : Nat} {w0 : BitVec 32} {body : List (Nat × BitVec 32)} {st : Stamp} (h_s : Calm base s) :
    Calm base (recordTo s p r w0 body st) := by
  unfold recordTo
  repeat' first
    | with_reducible assumption
    | with_reducible apply offerRecord_calm
    | with_reducible apply ringIrq_calm
    | with_reducible refine ite_calm ?_ ?_
    | split

theorem record_calm {base : State} {s : State} {p : Nat} {type : Nat} {w0 : BitVec 32} {body : List (Nat × BitVec 32)} {st : Stamp} (h_s : Calm base s) :
    Calm base (record s p type w0 body st) := by
  unfold record
  repeat' first
    | with_reducible assumption
    | with_reducible apply State.dbErr_calm
    | with_reducible apply recordTo_calm
    | intro _
    | split
    | fail_if_no_progress (with_reducible refine Calm.of_mk ?_ rfl rfl rfl rfl rfl rfl rfl rfl rfl rfl rfl rfl rfl rfl rfl rfl rfl rfl rfl rfl rfl rfl)

theorem recordAll_calm {base : State} {s : State} {w0 : BitVec 32} {body : List (Nat × BitVec 32)} {st : Stamp} (h_s : Calm base s) :
    Calm base (recordAll s w0 body st) := by
  unfold recordAll
  repeat' first
    | with_reducible assumption
    | with_reducible apply State.dbErr_calm
    | with_reducible apply recordTo_calm
    | with_reducible apply foldl_calm
    | with_reducible apply foldl_calm_fst
    | with_reducible apply foldl_calm_snd
    | intro _
    | with_reducible refine ite_calm ?_ ?_
    | split

theorem complete_calm {base : State} {s : State} {p : Nat} {r : Nat} {id : Nat} {b : Wb} (h_s : Calm base s) :
    Calm base (complete s p r id b) := by
  unfold complete
  repeat' first
    | with_reducible assumption
    | with_reducible apply indexBlock_calm
    | with_reducible apply settle_calm
    | with_reducible apply ringIrq_calm
    | intro _
    | with_reducible refine ite_calm ?_ ?_
    | split

theorem finish_calm {base : State} {s : State} {p : Nat} {r : Nat} {id : Nat} {status : Nat} (h_s : Calm base s) :
    Calm base (finish s p r id status) := by
  unfold finish
  repeat' first
    | with_reducible assumption
    | with_reducible apply complete_calm

theorem finishIgn_calm {base : State} {s : State} {p : Nat} {r : Nat} {id : Nat} (h_s : Calm base s) :
    Calm base (finishIgn s p r id) := by
  unfold finishIgn
  repeat' first
    | with_reducible assumption
    | with_reducible apply complete_calm

theorem finishKey_calm {base : State} {s : State} {k : Nat} {id : Nat} {status : Nat} (h_s : Calm base s) :
    Calm base (finishKey s k id status) := by
  unfold finishKey
  repeat' first
    | with_reducible assumption
    | with_reducible apply finish_calm

theorem completeKey_calm {base : State} {s : State} {k : Nat} {id : Nat} {b : Wb} (h_s : Calm base s) :
    Calm base (completeKey s k id b) := by
  unfold completeKey
  repeat' first
    | with_reducible assumption
    | with_reducible apply complete_calm

theorem programOpen_calm {base : State} {s : State} (h_s : Calm base s) :
    Calm base (programOpen s) := by
  unfold programOpen
  repeat' first
    | with_reducible assumption
    | intro _
    | with_reducible refine ite_calm ?_ ?_
    | split
    | fail_if_no_progress (with_reducible refine Calm.of_mk ?_ rfl rfl rfl rfl rfl rfl rfl rfl rfl rfl rfl rfl rfl rfl rfl rfl rfl rfl rfl rfl rfl rfl)

theorem tallyEvent_calm {base : State} {s : State} {type : Nat} {detail : BitVec 32} (h_s : Calm base s) :
    Calm base (tallyEvent s type detail) := by
  unfold tallyEvent
  repeat' first
    | with_reducible assumption
    | with_reducible apply programOpen_calm
    | intro _
    | with_reducible refine ite_calm ?_ ?_
    | split
    | fail_if_no_progress (with_reducible refine Calm.of_mk ?_ rfl rfl rfl rfl rfl rfl rfl rfl rfl rfl rfl rfl rfl rfl rfl rfl rfl rfl rfl rfl rfl rfl)

theorem mateSend_calm {base : State} {s : State} {x : MateSent} (h_s : Calm base s) :
    Calm base (mateSend s x) := by
  unfold mateSend
  repeat' first
    | with_reducible assumption
    | intro _
    | fail_if_no_progress (with_reducible refine Calm.of_mk ?_ rfl rfl rfl rfl rfl rfl rfl rfl rfl rfl rfl rfl rfl rfl rfl rfl rfl rfl rfl rfl rfl rfl)

theorem deltaSend_calm {base : State} {k : DeltaKind} {status : Nat} {s : State} (h_s : Calm base s) :
    Calm base (deltaSend k status s) := by
  unfold deltaSend
  repeat' first
    | with_reducible assumption
    | with_reducible apply mateSend_calm
    | intro _
    | with_reducible refine ite_calm ?_ ?_
    | split
    | fail_if_no_progress (with_reducible refine Calm.of_mk ?_ rfl rfl rfl rfl rfl rfl rfl rfl rfl rfl rfl rfl rfl rfl rfl rfl rfl rfl rfl rfl rfl rfl)

/-! The fields, as rewriting rules. -/

@[simp] theorem finish_pending (s : State) (p r id st : Nat) : (finish s p r id st).pending = s.pending := (finish_calm (Calm.refl s)).pending
@[simp] theorem finish_tb (s : State) (p r id st : Nat) : (finish s p r id st).tb = s.tb := (finish_calm (Calm.refl s)).tb
@[simp] theorem finish_tu (s : State) (p r id st : Nat) : (finish s p r id st).tu = s.tu := (finish_calm (Calm.refl s)).tu
@[simp] theorem finish_ptp (s : State) (p r id st : Nat) : (finish s p r id st).ptp = s.ptp := (finish_calm (Calm.refl s)).ptp
@[simp] theorem finish_regs (s : State) (p r id st : Nat) : (finish s p r id st).regs = s.regs := (finish_calm (Calm.refl s)).regs
@[simp] theorem finish_cores (s : State) (p r id st : Nat) : (finish s p r id st).cores = s.cores := (finish_calm (Calm.refl s)).cores
@[simp] theorem finish_tx (s : State) (p r id st : Nat) : (finish s p r id st).tx = s.tx := (finish_calm (Calm.refl s)).tx
@[simp] theorem finish_pw (s : State) (p r id st : Nat) : (finish s p r id st).pw = s.pw := (finish_calm (Calm.refl s)).pw
@[simp] theorem finish_st (s : State) (p r id st : Nat) : (finish s p r id st).st = s.st := (finish_calm (Calm.refl s)).st
@[simp] theorem finish_ok (s : State) (p r id st : Nat) : (finish s p r id st).ok = s.ok := (finish_calm (Calm.refl s)).ok
@[simp] theorem finish_pr (s : State) (p r id st : Nat) : (finish s p r id st).pr = s.pr := (finish_calm (Calm.refl s)).pr
@[simp] theorem finish_snap (s : State) (p r id st : Nat) : (finish s p r id st).snap = s.snap := (finish_calm (Calm.refl s)).snap
@[simp] theorem finish_gn (s : State) (p r id st : Nat) : (finish s p r id st).gn = s.gn := (finish_calm (Calm.refl s)).gn
@[simp] theorem finish_mc (s : State) (p r id st : Nat) : (finish s p r id st).mc = s.mc := (finish_calm (Calm.refl s)).mc
@[simp] theorem finish_ig (s : State) (p r id st : Nat) : (finish s p r id st).ig = s.ig := (finish_calm (Calm.refl s)).ig
@[simp] theorem finish_fc (s : State) (p r id st : Nat) : (finish s p r id st).fc = s.fc := (finish_calm (Calm.refl s)).fc
@[simp] theorem finish_tg (s : State) (p r id st : Nat) : (finish s p r id st).tg = s.tg := (finish_calm (Calm.refl s)).tg
@[simp] theorem finish_ph (s : State) (p r id st : Nat) : (finish s p r id st).ph = s.ph := (finish_calm (Calm.refl s)).ph
@[simp] theorem finish_fl (s : State) (p r id st : Nat) : (finish s p r id st).fl = s.fl := (finish_calm (Calm.refl s)).fl
@[simp] theorem finish_fb (s : State) (p r id st : Nat) : (finish s p r id st).fb = s.fb := (finish_calm (Calm.refl s)).fb
@[simp] theorem finish_pb (s : State) (p r id st : Nat) : (finish s p r id st).pb = s.pb := (finish_calm (Calm.refl s)).pb
@[simp] theorem finish_lp (s : State) (p r id st : Nat) : (finish s p r id st).lp = s.lp := (finish_calm (Calm.refl s)).lp
@[simp] theorem finishIgn_pending (s : State) (p r id : Nat) : (finishIgn s p r id).pending = s.pending := (finishIgn_calm (Calm.refl s)).pending
@[simp] theorem finishIgn_tb (s : State) (p r id : Nat) : (finishIgn s p r id).tb = s.tb := (finishIgn_calm (Calm.refl s)).tb
@[simp] theorem finishIgn_tu (s : State) (p r id : Nat) : (finishIgn s p r id).tu = s.tu := (finishIgn_calm (Calm.refl s)).tu
@[simp] theorem finishIgn_ptp (s : State) (p r id : Nat) : (finishIgn s p r id).ptp = s.ptp := (finishIgn_calm (Calm.refl s)).ptp
@[simp] theorem finishIgn_regs (s : State) (p r id : Nat) : (finishIgn s p r id).regs = s.regs := (finishIgn_calm (Calm.refl s)).regs
@[simp] theorem finishIgn_cores (s : State) (p r id : Nat) : (finishIgn s p r id).cores = s.cores := (finishIgn_calm (Calm.refl s)).cores
@[simp] theorem finishIgn_tx (s : State) (p r id : Nat) : (finishIgn s p r id).tx = s.tx := (finishIgn_calm (Calm.refl s)).tx
@[simp] theorem finishIgn_pw (s : State) (p r id : Nat) : (finishIgn s p r id).pw = s.pw := (finishIgn_calm (Calm.refl s)).pw
@[simp] theorem finishIgn_st (s : State) (p r id : Nat) : (finishIgn s p r id).st = s.st := (finishIgn_calm (Calm.refl s)).st
@[simp] theorem finishIgn_ok (s : State) (p r id : Nat) : (finishIgn s p r id).ok = s.ok := (finishIgn_calm (Calm.refl s)).ok
@[simp] theorem finishIgn_pr (s : State) (p r id : Nat) : (finishIgn s p r id).pr = s.pr := (finishIgn_calm (Calm.refl s)).pr
@[simp] theorem finishIgn_snap (s : State) (p r id : Nat) : (finishIgn s p r id).snap = s.snap := (finishIgn_calm (Calm.refl s)).snap
@[simp] theorem finishIgn_gn (s : State) (p r id : Nat) : (finishIgn s p r id).gn = s.gn := (finishIgn_calm (Calm.refl s)).gn
@[simp] theorem finishIgn_mc (s : State) (p r id : Nat) : (finishIgn s p r id).mc = s.mc := (finishIgn_calm (Calm.refl s)).mc
@[simp] theorem finishIgn_ig (s : State) (p r id : Nat) : (finishIgn s p r id).ig = s.ig := (finishIgn_calm (Calm.refl s)).ig
@[simp] theorem finishIgn_fc (s : State) (p r id : Nat) : (finishIgn s p r id).fc = s.fc := (finishIgn_calm (Calm.refl s)).fc
@[simp] theorem finishIgn_tg (s : State) (p r id : Nat) : (finishIgn s p r id).tg = s.tg := (finishIgn_calm (Calm.refl s)).tg
@[simp] theorem finishIgn_ph (s : State) (p r id : Nat) : (finishIgn s p r id).ph = s.ph := (finishIgn_calm (Calm.refl s)).ph
@[simp] theorem finishIgn_fl (s : State) (p r id : Nat) : (finishIgn s p r id).fl = s.fl := (finishIgn_calm (Calm.refl s)).fl
@[simp] theorem finishIgn_fb (s : State) (p r id : Nat) : (finishIgn s p r id).fb = s.fb := (finishIgn_calm (Calm.refl s)).fb
@[simp] theorem finishIgn_pb (s : State) (p r id : Nat) : (finishIgn s p r id).pb = s.pb := (finishIgn_calm (Calm.refl s)).pb
@[simp] theorem finishIgn_lp (s : State) (p r id : Nat) : (finishIgn s p r id).lp = s.lp := (finishIgn_calm (Calm.refl s)).lp
@[simp] theorem finishKey_pending (s : State) (k id st : Nat) : (finishKey s k id st).pending = s.pending := (finishKey_calm (Calm.refl s)).pending
@[simp] theorem finishKey_tb (s : State) (k id st : Nat) : (finishKey s k id st).tb = s.tb := (finishKey_calm (Calm.refl s)).tb
@[simp] theorem finishKey_tu (s : State) (k id st : Nat) : (finishKey s k id st).tu = s.tu := (finishKey_calm (Calm.refl s)).tu
@[simp] theorem finishKey_ptp (s : State) (k id st : Nat) : (finishKey s k id st).ptp = s.ptp := (finishKey_calm (Calm.refl s)).ptp
@[simp] theorem finishKey_regs (s : State) (k id st : Nat) : (finishKey s k id st).regs = s.regs := (finishKey_calm (Calm.refl s)).regs
@[simp] theorem finishKey_cores (s : State) (k id st : Nat) : (finishKey s k id st).cores = s.cores := (finishKey_calm (Calm.refl s)).cores
@[simp] theorem finishKey_tx (s : State) (k id st : Nat) : (finishKey s k id st).tx = s.tx := (finishKey_calm (Calm.refl s)).tx
@[simp] theorem finishKey_pw (s : State) (k id st : Nat) : (finishKey s k id st).pw = s.pw := (finishKey_calm (Calm.refl s)).pw
@[simp] theorem finishKey_st (s : State) (k id st : Nat) : (finishKey s k id st).st = s.st := (finishKey_calm (Calm.refl s)).st
@[simp] theorem finishKey_ok (s : State) (k id st : Nat) : (finishKey s k id st).ok = s.ok := (finishKey_calm (Calm.refl s)).ok
@[simp] theorem finishKey_pr (s : State) (k id st : Nat) : (finishKey s k id st).pr = s.pr := (finishKey_calm (Calm.refl s)).pr
@[simp] theorem finishKey_snap (s : State) (k id st : Nat) : (finishKey s k id st).snap = s.snap := (finishKey_calm (Calm.refl s)).snap
@[simp] theorem finishKey_gn (s : State) (k id st : Nat) : (finishKey s k id st).gn = s.gn := (finishKey_calm (Calm.refl s)).gn
@[simp] theorem finishKey_mc (s : State) (k id st : Nat) : (finishKey s k id st).mc = s.mc := (finishKey_calm (Calm.refl s)).mc
@[simp] theorem finishKey_ig (s : State) (k id st : Nat) : (finishKey s k id st).ig = s.ig := (finishKey_calm (Calm.refl s)).ig
@[simp] theorem finishKey_fc (s : State) (k id st : Nat) : (finishKey s k id st).fc = s.fc := (finishKey_calm (Calm.refl s)).fc
@[simp] theorem finishKey_tg (s : State) (k id st : Nat) : (finishKey s k id st).tg = s.tg := (finishKey_calm (Calm.refl s)).tg
@[simp] theorem finishKey_ph (s : State) (k id st : Nat) : (finishKey s k id st).ph = s.ph := (finishKey_calm (Calm.refl s)).ph
@[simp] theorem finishKey_fl (s : State) (k id st : Nat) : (finishKey s k id st).fl = s.fl := (finishKey_calm (Calm.refl s)).fl
@[simp] theorem finishKey_fb (s : State) (k id st : Nat) : (finishKey s k id st).fb = s.fb := (finishKey_calm (Calm.refl s)).fb
@[simp] theorem finishKey_pb (s : State) (k id st : Nat) : (finishKey s k id st).pb = s.pb := (finishKey_calm (Calm.refl s)).pb
@[simp] theorem finishKey_lp (s : State) (k id st : Nat) : (finishKey s k id st).lp = s.lp := (finishKey_calm (Calm.refl s)).lp
@[simp] theorem complete_pending (s : State) (p r id : Nat) (b : Wb) : (complete s p r id b).pending = s.pending := (complete_calm (Calm.refl s)).pending
@[simp] theorem complete_tb (s : State) (p r id : Nat) (b : Wb) : (complete s p r id b).tb = s.tb := (complete_calm (Calm.refl s)).tb
@[simp] theorem complete_tu (s : State) (p r id : Nat) (b : Wb) : (complete s p r id b).tu = s.tu := (complete_calm (Calm.refl s)).tu
@[simp] theorem complete_ptp (s : State) (p r id : Nat) (b : Wb) : (complete s p r id b).ptp = s.ptp := (complete_calm (Calm.refl s)).ptp
@[simp] theorem complete_regs (s : State) (p r id : Nat) (b : Wb) : (complete s p r id b).regs = s.regs := (complete_calm (Calm.refl s)).regs
@[simp] theorem complete_cores (s : State) (p r id : Nat) (b : Wb) : (complete s p r id b).cores = s.cores := (complete_calm (Calm.refl s)).cores
@[simp] theorem complete_tx (s : State) (p r id : Nat) (b : Wb) : (complete s p r id b).tx = s.tx := (complete_calm (Calm.refl s)).tx
@[simp] theorem complete_pw (s : State) (p r id : Nat) (b : Wb) : (complete s p r id b).pw = s.pw := (complete_calm (Calm.refl s)).pw
@[simp] theorem complete_st (s : State) (p r id : Nat) (b : Wb) : (complete s p r id b).st = s.st := (complete_calm (Calm.refl s)).st
@[simp] theorem complete_ok (s : State) (p r id : Nat) (b : Wb) : (complete s p r id b).ok = s.ok := (complete_calm (Calm.refl s)).ok
@[simp] theorem complete_pr (s : State) (p r id : Nat) (b : Wb) : (complete s p r id b).pr = s.pr := (complete_calm (Calm.refl s)).pr
@[simp] theorem complete_snap (s : State) (p r id : Nat) (b : Wb) : (complete s p r id b).snap = s.snap := (complete_calm (Calm.refl s)).snap
@[simp] theorem complete_gn (s : State) (p r id : Nat) (b : Wb) : (complete s p r id b).gn = s.gn := (complete_calm (Calm.refl s)).gn
@[simp] theorem complete_mc (s : State) (p r id : Nat) (b : Wb) : (complete s p r id b).mc = s.mc := (complete_calm (Calm.refl s)).mc
@[simp] theorem complete_ig (s : State) (p r id : Nat) (b : Wb) : (complete s p r id b).ig = s.ig := (complete_calm (Calm.refl s)).ig
@[simp] theorem complete_fc (s : State) (p r id : Nat) (b : Wb) : (complete s p r id b).fc = s.fc := (complete_calm (Calm.refl s)).fc
@[simp] theorem complete_tg (s : State) (p r id : Nat) (b : Wb) : (complete s p r id b).tg = s.tg := (complete_calm (Calm.refl s)).tg
@[simp] theorem complete_ph (s : State) (p r id : Nat) (b : Wb) : (complete s p r id b).ph = s.ph := (complete_calm (Calm.refl s)).ph
@[simp] theorem complete_fl (s : State) (p r id : Nat) (b : Wb) : (complete s p r id b).fl = s.fl := (complete_calm (Calm.refl s)).fl
@[simp] theorem complete_fb (s : State) (p r id : Nat) (b : Wb) : (complete s p r id b).fb = s.fb := (complete_calm (Calm.refl s)).fb
@[simp] theorem complete_pb (s : State) (p r id : Nat) (b : Wb) : (complete s p r id b).pb = s.pb := (complete_calm (Calm.refl s)).pb
@[simp] theorem complete_lp (s : State) (p r id : Nat) (b : Wb) : (complete s p r id b).lp = s.lp := (complete_calm (Calm.refl s)).lp
@[simp] theorem deltaSend_pending (k : DeltaKind) (st : Nat) (s : State) : (deltaSend k st s).pending = s.pending := (deltaSend_calm (Calm.refl s)).pending
@[simp] theorem deltaSend_tb (k : DeltaKind) (st : Nat) (s : State) : (deltaSend k st s).tb = s.tb := (deltaSend_calm (Calm.refl s)).tb
@[simp] theorem deltaSend_tu (k : DeltaKind) (st : Nat) (s : State) : (deltaSend k st s).tu = s.tu := (deltaSend_calm (Calm.refl s)).tu
@[simp] theorem deltaSend_ptp (k : DeltaKind) (st : Nat) (s : State) : (deltaSend k st s).ptp = s.ptp := (deltaSend_calm (Calm.refl s)).ptp
@[simp] theorem deltaSend_regs (k : DeltaKind) (st : Nat) (s : State) : (deltaSend k st s).regs = s.regs := (deltaSend_calm (Calm.refl s)).regs
@[simp] theorem deltaSend_cores (k : DeltaKind) (st : Nat) (s : State) : (deltaSend k st s).cores = s.cores := (deltaSend_calm (Calm.refl s)).cores
@[simp] theorem deltaSend_tx (k : DeltaKind) (st : Nat) (s : State) : (deltaSend k st s).tx = s.tx := (deltaSend_calm (Calm.refl s)).tx
@[simp] theorem deltaSend_pw (k : DeltaKind) (st : Nat) (s : State) : (deltaSend k st s).pw = s.pw := (deltaSend_calm (Calm.refl s)).pw
@[simp] theorem deltaSend_st (k : DeltaKind) (st : Nat) (s : State) : (deltaSend k st s).st = s.st := (deltaSend_calm (Calm.refl s)).st
@[simp] theorem deltaSend_ok (k : DeltaKind) (st : Nat) (s : State) : (deltaSend k st s).ok = s.ok := (deltaSend_calm (Calm.refl s)).ok
@[simp] theorem deltaSend_pr (k : DeltaKind) (st : Nat) (s : State) : (deltaSend k st s).pr = s.pr := (deltaSend_calm (Calm.refl s)).pr
@[simp] theorem deltaSend_snap (k : DeltaKind) (st : Nat) (s : State) : (deltaSend k st s).snap = s.snap := (deltaSend_calm (Calm.refl s)).snap
@[simp] theorem deltaSend_gn (k : DeltaKind) (st : Nat) (s : State) : (deltaSend k st s).gn = s.gn := (deltaSend_calm (Calm.refl s)).gn
@[simp] theorem deltaSend_mc (k : DeltaKind) (st : Nat) (s : State) : (deltaSend k st s).mc = s.mc := (deltaSend_calm (Calm.refl s)).mc
@[simp] theorem deltaSend_ig (k : DeltaKind) (st : Nat) (s : State) : (deltaSend k st s).ig = s.ig := (deltaSend_calm (Calm.refl s)).ig
@[simp] theorem deltaSend_fc (k : DeltaKind) (st : Nat) (s : State) : (deltaSend k st s).fc = s.fc := (deltaSend_calm (Calm.refl s)).fc
@[simp] theorem deltaSend_tg (k : DeltaKind) (st : Nat) (s : State) : (deltaSend k st s).tg = s.tg := (deltaSend_calm (Calm.refl s)).tg
@[simp] theorem deltaSend_ph (k : DeltaKind) (st : Nat) (s : State) : (deltaSend k st s).ph = s.ph := (deltaSend_calm (Calm.refl s)).ph
@[simp] theorem deltaSend_fl (k : DeltaKind) (st : Nat) (s : State) : (deltaSend k st s).fl = s.fl := (deltaSend_calm (Calm.refl s)).fl
@[simp] theorem deltaSend_fb (k : DeltaKind) (st : Nat) (s : State) : (deltaSend k st s).fb = s.fb := (deltaSend_calm (Calm.refl s)).fb
@[simp] theorem deltaSend_pb (k : DeltaKind) (st : Nat) (s : State) : (deltaSend k st s).pb = s.pb := (deltaSend_calm (Calm.refl s)).pb
@[simp] theorem deltaSend_lp (k : DeltaKind) (st : Nat) (s : State) : (deltaSend k st s).lp = s.lp := (deltaSend_calm (Calm.refl s)).lp
@[simp] theorem devIrq_pending (s : State) (p id block unit : Nat) : (devIrq s p id block unit).pending = s.pending := (devIrq_calm (Calm.refl s)).pending
@[simp] theorem devIrq_tb (s : State) (p id block unit : Nat) : (devIrq s p id block unit).tb = s.tb := (devIrq_calm (Calm.refl s)).tb
@[simp] theorem devIrq_tu (s : State) (p id block unit : Nat) : (devIrq s p id block unit).tu = s.tu := (devIrq_calm (Calm.refl s)).tu
@[simp] theorem devIrq_ptp (s : State) (p id block unit : Nat) : (devIrq s p id block unit).ptp = s.ptp := (devIrq_calm (Calm.refl s)).ptp
@[simp] theorem devIrq_regs (s : State) (p id block unit : Nat) : (devIrq s p id block unit).regs = s.regs := (devIrq_calm (Calm.refl s)).regs
@[simp] theorem devIrq_cores (s : State) (p id block unit : Nat) : (devIrq s p id block unit).cores = s.cores := (devIrq_calm (Calm.refl s)).cores
@[simp] theorem devIrq_tx (s : State) (p id block unit : Nat) : (devIrq s p id block unit).tx = s.tx := (devIrq_calm (Calm.refl s)).tx
@[simp] theorem devIrq_pw (s : State) (p id block unit : Nat) : (devIrq s p id block unit).pw = s.pw := (devIrq_calm (Calm.refl s)).pw
@[simp] theorem devIrq_st (s : State) (p id block unit : Nat) : (devIrq s p id block unit).st = s.st := (devIrq_calm (Calm.refl s)).st
@[simp] theorem devIrq_ok (s : State) (p id block unit : Nat) : (devIrq s p id block unit).ok = s.ok := (devIrq_calm (Calm.refl s)).ok
@[simp] theorem devIrq_pr (s : State) (p id block unit : Nat) : (devIrq s p id block unit).pr = s.pr := (devIrq_calm (Calm.refl s)).pr
@[simp] theorem devIrq_snap (s : State) (p id block unit : Nat) : (devIrq s p id block unit).snap = s.snap := (devIrq_calm (Calm.refl s)).snap
@[simp] theorem devIrq_gn (s : State) (p id block unit : Nat) : (devIrq s p id block unit).gn = s.gn := (devIrq_calm (Calm.refl s)).gn
@[simp] theorem devIrq_mc (s : State) (p id block unit : Nat) : (devIrq s p id block unit).mc = s.mc := (devIrq_calm (Calm.refl s)).mc
@[simp] theorem devIrq_ig (s : State) (p id block unit : Nat) : (devIrq s p id block unit).ig = s.ig := (devIrq_calm (Calm.refl s)).ig
@[simp] theorem devIrq_fc (s : State) (p id block unit : Nat) : (devIrq s p id block unit).fc = s.fc := (devIrq_calm (Calm.refl s)).fc
@[simp] theorem devIrq_tg (s : State) (p id block unit : Nat) : (devIrq s p id block unit).tg = s.tg := (devIrq_calm (Calm.refl s)).tg
@[simp] theorem devIrq_ph (s : State) (p id block unit : Nat) : (devIrq s p id block unit).ph = s.ph := (devIrq_calm (Calm.refl s)).ph
@[simp] theorem devIrq_fl (s : State) (p id block unit : Nat) : (devIrq s p id block unit).fl = s.fl := (devIrq_calm (Calm.refl s)).fl
@[simp] theorem devIrq_fb (s : State) (p id block unit : Nat) : (devIrq s p id block unit).fb = s.fb := (devIrq_calm (Calm.refl s)).fb
@[simp] theorem devIrq_pb (s : State) (p id block unit : Nat) : (devIrq s p id block unit).pb = s.pb := (devIrq_calm (Calm.refl s)).pb
@[simp] theorem devIrq_lp (s : State) (p id block unit : Nat) : (devIrq s p id block unit).lp = s.lp := (devIrq_calm (Calm.refl s)).lp
@[simp] theorem tallyEvent_pending (s : State) (type : Nat) (detail : BitVec 32) : (tallyEvent s type detail).pending = s.pending := (tallyEvent_calm (Calm.refl s)).pending
@[simp] theorem tallyEvent_tb (s : State) (type : Nat) (detail : BitVec 32) : (tallyEvent s type detail).tb = s.tb := (tallyEvent_calm (Calm.refl s)).tb
@[simp] theorem tallyEvent_tu (s : State) (type : Nat) (detail : BitVec 32) : (tallyEvent s type detail).tu = s.tu := (tallyEvent_calm (Calm.refl s)).tu
@[simp] theorem tallyEvent_ptp (s : State) (type : Nat) (detail : BitVec 32) : (tallyEvent s type detail).ptp = s.ptp := (tallyEvent_calm (Calm.refl s)).ptp
@[simp] theorem tallyEvent_regs (s : State) (type : Nat) (detail : BitVec 32) : (tallyEvent s type detail).regs = s.regs := (tallyEvent_calm (Calm.refl s)).regs
@[simp] theorem tallyEvent_cores (s : State) (type : Nat) (detail : BitVec 32) : (tallyEvent s type detail).cores = s.cores := (tallyEvent_calm (Calm.refl s)).cores
@[simp] theorem tallyEvent_tx (s : State) (type : Nat) (detail : BitVec 32) : (tallyEvent s type detail).tx = s.tx := (tallyEvent_calm (Calm.refl s)).tx
@[simp] theorem tallyEvent_pw (s : State) (type : Nat) (detail : BitVec 32) : (tallyEvent s type detail).pw = s.pw := (tallyEvent_calm (Calm.refl s)).pw
@[simp] theorem tallyEvent_st (s : State) (type : Nat) (detail : BitVec 32) : (tallyEvent s type detail).st = s.st := (tallyEvent_calm (Calm.refl s)).st
@[simp] theorem tallyEvent_ok (s : State) (type : Nat) (detail : BitVec 32) : (tallyEvent s type detail).ok = s.ok := (tallyEvent_calm (Calm.refl s)).ok
@[simp] theorem tallyEvent_pr (s : State) (type : Nat) (detail : BitVec 32) : (tallyEvent s type detail).pr = s.pr := (tallyEvent_calm (Calm.refl s)).pr
@[simp] theorem tallyEvent_snap (s : State) (type : Nat) (detail : BitVec 32) : (tallyEvent s type detail).snap = s.snap := (tallyEvent_calm (Calm.refl s)).snap
@[simp] theorem tallyEvent_gn (s : State) (type : Nat) (detail : BitVec 32) : (tallyEvent s type detail).gn = s.gn := (tallyEvent_calm (Calm.refl s)).gn
@[simp] theorem tallyEvent_mc (s : State) (type : Nat) (detail : BitVec 32) : (tallyEvent s type detail).mc = s.mc := (tallyEvent_calm (Calm.refl s)).mc
@[simp] theorem tallyEvent_ig (s : State) (type : Nat) (detail : BitVec 32) : (tallyEvent s type detail).ig = s.ig := (tallyEvent_calm (Calm.refl s)).ig
@[simp] theorem tallyEvent_fc (s : State) (type : Nat) (detail : BitVec 32) : (tallyEvent s type detail).fc = s.fc := (tallyEvent_calm (Calm.refl s)).fc
@[simp] theorem tallyEvent_tg (s : State) (type : Nat) (detail : BitVec 32) : (tallyEvent s type detail).tg = s.tg := (tallyEvent_calm (Calm.refl s)).tg
@[simp] theorem tallyEvent_ph (s : State) (type : Nat) (detail : BitVec 32) : (tallyEvent s type detail).ph = s.ph := (tallyEvent_calm (Calm.refl s)).ph
@[simp] theorem tallyEvent_fl (s : State) (type : Nat) (detail : BitVec 32) : (tallyEvent s type detail).fl = s.fl := (tallyEvent_calm (Calm.refl s)).fl
@[simp] theorem tallyEvent_fb (s : State) (type : Nat) (detail : BitVec 32) : (tallyEvent s type detail).fb = s.fb := (tallyEvent_calm (Calm.refl s)).fb
@[simp] theorem tallyEvent_pb (s : State) (type : Nat) (detail : BitVec 32) : (tallyEvent s type detail).pb = s.pb := (tallyEvent_calm (Calm.refl s)).pb
@[simp] theorem tallyEvent_lp (s : State) (type : Nat) (detail : BitVec 32) : (tallyEvent s type detail).lp = s.lp := (tallyEvent_calm (Calm.refl s)).lp

end Sys2Proof.Machine
end

