-- ==== Sys2Proof/Laws/Clock.lean ====
section
/-! SUPPORT. What happens at a slot edge leaves the clock alone: the counter, the addend and the number of the next slot (R38, R62). -/

set_option linter.all false

namespace Sys2Proof.Machine

/-- State b has the clock of state a. -/
structure Clock (a b : State) : Prop where
  tb : b.tb = a.tb
  slot : b.tu.nextSlot = a.tu.nextSlot

theorem Clock.refl (s : State) : Clock s s := ⟨rfl, rfl⟩

theorem Clock.of_mk {a x : State}
    {f_pending : List Instr}
    {f_tb : TbState}
    {f_tu : TbUnits}
    {f_ptp : PtpState}
    {f_regs : Tbl (BitVec 32)}
    {f_dram : List Host.Cell}
    {f_pt : PtState}
    {f_files : Tbl IFile}
    {f_cores : Tbl CoreSt}
    {f_db : DbState}
    {f_tx : TxState}
    {f_sq : SqState}
    {f_pw : PwState}
    {f_st : StState}
    {f_ty : TyState}
    {f_ok : OkState}
    {f_pr : PrState}
    {f_pu : PrRun}
    {f_snap : Option Snap}
    {f_gn : GnState}
    {f_mc : McState}
    {f_ig : IgState}
    {f_fc : FcState}
    {f_tg : TgState}
    {f_ph : PhState}
    {f_fl : FlState}
    {f_fb : FbState}
    {f_pb : PbState}
    {f_lp : LpState}
    {f_draws : Nat}
    (h : Clock a x) (h1 : f_tb = x.tb) (h2 : f_tu.nextSlot = x.tu.nextSlot) :
    Clock a (State.mk f_pending f_tb f_tu f_ptp f_regs f_dram f_pt f_files f_cores f_db f_tx f_sq f_pw f_st f_ty f_ok f_pr f_pu f_snap f_gn f_mc f_ig f_fc f_tg f_ph f_fl f_fb f_pb f_lp f_draws) :=
  ⟨h1.trans h.tb, h2.trans h.slot⟩

theorem optPair_clock {base s1 : State} {x : Option State × State} (h : (∀ y, x.1 = some y → Clock base y) ∧ Clock base x.2)
    (e : x.1 = some s1) : Clock base s1 := h.1 s1 e

theorem optPair_clock_snd {base : State} {x : Option State × State} (h : (∀ y, x.1 = some y → Clock base y) ∧ Clock base x.2) :
    Clock base x.2 := h.2

theorem ite_clock {base : State} {c : Prop} [Decidable c] {a b : State} (ha : Clock base a) (hb : Clock base b) :
    Clock base (if c then a else b) := by
  split
  · exact ha
  · exact hb

theorem ite_clock_fst {base : State} {γ : Type} {c : Prop} [Decidable c] {a b : State × γ} (ha : Clock base a.1) (hb : Clock base b.1) :
    Clock base (if c then a else b).1 := by
  split
  · exact ha
  · exact hb

theorem ite_clock_snd {base : State} {γ : Type} {c : Prop} [Decidable c] {a b : γ × State} (ha : Clock base a.2) (hb : Clock base b.2) :
    Clock base (if c then a else b).2 := by
  split
  · exact ha
  · exact hb

theorem foldl_clock {base : State} {β : Type} {f : State → β → State} {l : List β} {s : State} (h : Clock base s)
    (hf : ∀ a b, Clock base a → Clock base (f a b)) : Clock base (l.foldl f s) := by
  induction l generalizing s with
  | nil => exact h
  | cons b l ih => exact ih (hf s b h)

theorem foldl_clock_fst {base : State} {β γ : Type} {f : State × γ → β → State × γ} {l : List β} {s : State × γ}
    (h : Clock base s.1) (hf : ∀ a b, Clock base a.1 → Clock base (f a b).1) : Clock base (l.foldl f s).1 := by
  induction l generalizing s with
  | nil => exact h
  | cons b l ih => exact ih (hf s b h)

theorem foldl_clock_snd {base : State} {β γ : Type} {f : γ × State → β → γ × State} {l : List β} {s : γ × State}
    (h : Clock base s.2) (hf : ∀ a b, Clock base a.2 → Clock base (f a b).2) : Clock base (l.foldl f s).2 := by
  induction l generalizing s with
  | nil => exact h
  | cons b l ih => exact ih (hf s b h)

theorem State.draw_clock {base : State} {s : State} (h_s : Clock base s) :
    Clock base (State.draw s).2 := by
  unfold State.draw
  repeat' first
    | with_reducible assumption
    | intro _
    | fail_if_no_progress (with_reducible refine Clock.of_mk ?_ rfl rfl)

theorem State.updPart_clock {base : State} {s : State} {p : Nat} {f : PartRun → PartRun} (h_s : Clock base s) :
    Clock base (State.updPart s p f) := by
  unfold State.updPart
  repeat' first
    | with_reducible assumption
    | intro _
    | fail_if_no_progress (with_reducible refine Clock.of_mk ?_ rfl rfl)

theorem State.updCore_clock {base : State} {s : State} {h : Nat} {f : CoreSt → CoreSt} (h_s : Clock base s) :
    Clock base (State.updCore s h f) := by
  unfold State.updCore
  repeat' first
    | with_reducible assumption
    | intro _
    | fail_if_no_progress (with_reducible refine Clock.of_mk ?_ rfl rfl)

theorem State.updRing_clock {base : State} {s : State} {p : Nat} {r : Nat} {f : RingRun → RingRun} (h_s : Clock base s) :
    Clock base (State.updRing s p r f) := by
  unfold State.updRing
  repeat' first
    | with_reducible assumption
    | intro _
    | fail_if_no_progress (with_reducible refine Clock.of_mk ?_ rfl rfl)

theorem State.updFile_clock {base : State} {s : State} {h : Nat} {f : Nat} {g : IFile → IFile} (h_s : Clock base s) :
    Clock base (State.updFile s h f g) := by
  unfold State.updFile
  repeat' first
    | with_reducible assumption
    | intro _
    | fail_if_no_progress (with_reducible refine Clock.of_mk ?_ rfl rfl)

theorem State.winFault_clock {base s : State} {p : Nat} (h_s : Clock base s) : Clock base (s.winFault p) :=
  State.updPart_clock h_s

theorem State.dbErr_clock {base : State} {s : State} {p : Nat} (h_s : Clock base s) :
    Clock base (State.dbErr s p) := by
  unfold State.dbErr
  repeat' first
    | with_reducible assumption
    | intro _
    | fail_if_no_progress (with_reducible refine Clock.of_mk ?_ rfl rfl)

theorem devWrite_clock {base : State} {s : State} {p : Nat} {a : Nat} {bs : List (BitVec 8)} (h_s : Clock base s) :
    Clock base (devWrite s p a bs) := by
  unfold devWrite
  repeat' first
    | with_reducible assumption
    | with_reducible apply State.winFault_clock
    | intro _
    | split
    | fail_if_no_progress (with_reducible refine Clock.of_mk ?_ rfl rfl)

theorem indexBlock_clock {base : State} {s : State} {p : Nat} {r : Nat} (h_s : Clock base s) :
    Clock base (indexBlock s p r) := by
  unfold indexBlock
  repeat' first
    | with_reducible assumption
    | with_reducible apply devWrite_clock
    | with_reducible refine ite_clock ?_ ?_
    | split

theorem offerRecord_clock {base : State} {s : State} {p : Nat} {r : Nat} {w0 : BitVec 32} {body : List (Nat × BitVec 32)} {st : Stamp} (h_s : Clock base s) :
    Clock base (offerRecord s p r w0 body st).1 := by
  unfold offerRecord
  repeat' first
    | with_reducible assumption
    | with_reducible apply State.updRing_clock
    | with_reducible apply devWrite_clock
    | with_reducible apply indexBlock_clock
    | (intro x
       first
         | (have hx : Clock base x := ?_; clear_value x; on_goal 2 => subst x)
         | clear_value x
         | subst x)
    | intro _
    | lift_lets -underBinder
    | with_reducible refine ite_clock ?_ ?_
    | with_reducible refine ite_clock_fst ?_ ?_
    | with_reducible refine ite_clock_snd ?_ ?_
    | split
    | dsimp -zeta only
    | fail_if_no_progress (with_reducible refine Clock.of_mk ?_ rfl rfl)

theorem putWb_clock {base : State} {s : State} {p : Nat} {r : Nat} {f : Flight} {b : Wb} (h_s : Clock base s) :
    Clock base (putWb s p r f b) := by
  unfold putWb
  repeat' first
    | with_reducible assumption
    | with_reducible apply State.updRing_clock
    | with_reducible apply devWrite_clock
    | intro _
    | fail_if_no_progress (with_reducible refine Clock.of_mk ?_ rfl rfl)

theorem putGroup_clock {base : State} {s : State} {p : Nat} {r : Nat} {f : Flight} {b : Wb} (h_s : Clock base s) :
    Clock base (putGroup s p r f b) := by
  unfold putGroup
  repeat' first
    | with_reducible assumption
    | with_reducible apply State.updRing_clock
    | with_reducible apply devWrite_clock
    | with_reducible apply foldl_clock
    | with_reducible apply foldl_clock_fst
    | with_reducible apply foldl_clock_snd
    | intro _
    | with_reducible refine ite_clock ?_ ?_
    | split
    | fail_if_no_progress (with_reducible refine Clock.of_mk ?_ rfl rfl)

theorem drain_clock {base : State} {a0 : Nat} {a1 : State} {a2 : Nat} {a3 : Nat} {a4 : List Flight} (h_a1 : Clock base a1) :
    Clock base (drain a0 a1 a2 a3 a4).1 := by
  unfold drain
  repeat' first
    | with_reducible assumption
    | with_reducible apply putWb_clock
    | with_reducible apply drain_clock
    | intro _
    | with_reducible refine ite_clock ?_ ?_
    | split
    | fail_if_no_progress (with_reducible refine Clock.of_mk ?_ rfl rfl)

theorem settle_clock {base : State} {s : State} {p : Nat} {r : Nat} {id : Nat} {b0 : Wb} (h_s : Clock base s) :
    Clock base (settle s p r id b0).1 := by
  unfold settle
  repeat' first
    | with_reducible assumption
    | with_reducible apply State.updRing_clock
    | with_reducible apply putGroup_clock
    | with_reducible apply drain_clock
    | intro _
    | with_reducible refine ite_clock ?_ ?_
    | split
    | fail_if_no_progress (with_reducible refine Clock.of_mk ?_ rfl rfl)

theorem State.updTask_clock {base : State} {s : State} {h : Nat} {t : Nat} {f : Task → Task} (h_s : Clock base s) :
    Clock base (State.updTask s h t f) := by
  unfold State.updTask
  repeat' first
    | with_reducible assumption
    | intro _
    | fail_if_no_progress (with_reducible refine Clock.of_mk ?_ rfl rfl)

theorem State.updSched_clock {base : State} {s : State} {h : Nat} {f : Sched → Sched} (h_s : Clock base s) :
    Clock base (State.updSched s h f) := by
  unfold State.updSched
  repeat' first
    | with_reducible assumption
    | intro _
    | fail_if_no_progress (with_reducible refine Clock.of_mk ?_ rfl rfl)

theorem makeReady_clock {base : State} {s : State} {h : Nat} {t : Nat} {r : Nat} (h_s : Clock base s) :
    Clock base (makeReady s h t r) := by
  unfold makeReady
  repeat' first
    | with_reducible assumption
    | with_reducible apply State.updTask_clock
    | intro _
    | with_reducible refine ite_clock ?_ ?_
    | split
    | fail_if_no_progress (with_reducible refine Clock.of_mk ?_ rfl rfl)

theorem releaseOrOverrun_clock {base : State} {s : State} {h : Nat} {t : Nat} {r : Nat} (h_s : Clock base s) :
    Clock base (releaseOrOverrun s h t r) := by
  unfold releaseOrOverrun
  repeat' first
    | with_reducible assumption
    | with_reducible apply State.updTask_clock
    | with_reducible apply makeReady_clock
    | intro _
    | split
    | fail_if_no_progress (with_reducible refine Clock.of_mk ?_ rfl rfl)

theorem postRelease_clock {base : State} {s : State} {h : Nat} {t : Nat} (h_s : Clock base s) :
    Clock base (postRelease s h t) := by
  unfold postRelease
  repeat' first
    | with_reducible assumption
    | with_reducible apply State.updTask_clock
    | with_reducible apply makeReady_clock
    | intro _
    | with_reducible refine ite_clock ?_ ?_
    | split
    | fail_if_no_progress (with_reducible refine Clock.of_mk ?_ rfl rfl)

theorem tickEntry_clock {base : State} {h : Nat} {m : Nat} {s : State} {e : Nat × Nat} (h_s : Clock base s) :
    Clock base (tickEntry h m s e) := by
  unfold tickEntry
  repeat' first
    | with_reducible assumption
    | with_reducible apply State.updTask_clock
    | with_reducible apply makeReady_clock
    | with_reducible apply releaseOrOverrun_clock
    | intro _
    | with_reducible refine ite_clock ?_ ?_
    | split
    | fail_if_no_progress (with_reducible refine Clock.of_mk ?_ rfl rfl)

theorem tickDue_clock {base : State} {h : Nat} {s : State} (h_s : Clock base s) :
    Clock base (tickDue h s) := by
  unfold tickDue
  repeat' first
    | with_reducible assumption
    | with_reducible apply tickEntry_clock
    | with_reducible apply foldl_clock
    | with_reducible apply foldl_clock_fst
    | with_reducible apply foldl_clock_snd
    | intro _

theorem queuePost_clock {base : State} {s : State} {h : Nat} {q : Post} {permitted : Bool} (h_s : Clock base s) :
    Clock base (queuePost s h q permitted).2 := by
  unfold queuePost
  repeat' first
    | with_reducible assumption
    | with_reducible apply State.updSched_clock
    | with_reducible apply postRelease_clock
    | intro _
    | with_reducible refine ite_clock ?_ ?_
    | split
    | fail_if_no_progress (with_reducible refine Clock.of_mk ?_ rfl rfl)

theorem irqStamp_clock {base : State} {s : State} {h : Nat} {f : Nat} {id : Nat} {src : BitVec 32} (h_s : Clock base s) :
    Clock base (irqStamp s h f id src) := by
  unfold irqStamp
  repeat' first
    | with_reducible assumption
    | with_reducible apply State.dbErr_clock
    | with_reducible apply offerRecord_clock
    | (intro x
       first
         | (have hx : Clock base x := ?_; clear_value x; on_goal 2 => subst x)
         | clear_value x
         | subst x)
    | intro _
    | lift_lets -underBinder
    | split
    | dsimp -zeta only
    | fail_if_no_progress (with_reducible refine Clock.of_mk ?_ rfl rfl)

theorem assertIrq_clock {base : State} {a0 : Nat} {a1 : State} {a2 : Nat} {a3 : Nat} {a4 : Nat} {a5 : BitVec 32} (h_a1 : Clock base a1) :
    Clock base (assertIrq a0 a1 a2 a3 a4 a5) := by
  unfold assertIrq
  repeat' first
    | with_reducible assumption
    | with_reducible apply State.updFile_clock
    | with_reducible apply queuePost_clock
    | with_reducible apply irqStamp_clock
    | with_reducible apply assertIrq_clock
    | intro _
    | with_reducible refine ite_clock ?_ ?_
    | split
    | fail_if_no_progress (with_reducible refine Clock.of_mk ?_ rfl rfl)

theorem devIrq_clock {base : State} {s : State} {p : Nat} {id : Nat} {block : Nat} {unit : Nat} (h_s : Clock base s) :
    Clock base (devIrq s p id block unit) := by
  unfold devIrq
  repeat' first
    | with_reducible assumption
    | with_reducible apply assertIrq_clock
    | with_reducible refine ite_clock ?_ ?_
    | split

theorem dispatchIf_clock {base : State} {before : Option Nat} {s : State} {h : Nat} (h_s : Clock base s) :
    Clock base (dispatchIf before s h) := by
  unfold dispatchIf
  repeat' first
    | with_reducible assumption
    | with_reducible apply assertIrq_clock
    | with_reducible refine ite_clock ?_ ?_
    | split

theorem withDispatch_clock {base : State} {s : State} {h : Nat} {f : State → State} (h_s : Clock base s) (h_f : ∀ y0, Clock base y0 → Clock base (f y0)) :
    Clock base (withDispatch s h f) := by
  unfold withDispatch
  repeat' first
    | with_reducible assumption
    | with_reducible apply dispatchIf_clock
    | apply h_f
    | intro _

theorem ringIrq_clock {base : State} {s : State} {p : Nat} {r : Nat} {flagged : Bool} (h_s : Clock base s) :
    Clock base (ringIrq s p r flagged) := by
  unfold ringIrq
  repeat' first
    | with_reducible assumption
    | with_reducible apply devIrq_clock
    | with_reducible refine ite_clock ?_ ?_
    | split

theorem recordTo_clock {base : State} {s : State} {p : Nat} {r : Nat} {w0 : BitVec 32} {body : List (Nat × BitVec 32)} {st : Stamp} (h_s : Clock base s) :
    Clock base (recordTo s p r w0 body st) := by
  unfold recordTo
  repeat' first
    | with_reducible assumption
    | with_reducible apply offerRecord_clock
    | with_reducible apply ringIrq_clock
    | with_reducible refine ite_clock ?_ ?_
    | split

theorem record_clock {base : State} {s : State} {p : Nat} {type : Nat} {w0 : BitVec 32} {body : List (Nat × BitVec 32)} {st : Stamp} (h_s : Clock base s) :
    Clock base (record s p type w0 body st) := by
  unfold record
  repeat' first
    | with_reducible assumption
    | with_reducible apply State.dbErr_clock
    | with_reducible apply recordTo_clock
    | intro _
    | split
    | fail_if_no_progress (with_reducible refine Clock.of_mk ?_ rfl rfl)

theorem recordAll_clock {base : State} {s : State} {w0 : BitVec 32} {body : List (Nat × BitVec 32)} {st : Stamp} (h_s : Clock base s) :
    Clock base (recordAll s w0 body st) := by
  unfold recordAll
  repeat' first
    | with_reducible assumption
    | with_reducible apply State.dbErr_clock
    | with_reducible apply recordTo_clock
    | with_reducible apply foldl_clock
    | with_reducible apply foldl_clock_fst
    | with_reducible apply foldl_clock_snd
    | intro _
    | with_reducible refine ite_clock ?_ ?_
    | split

theorem complete_clock {base : State} {s : State} {p : Nat} {r : Nat} {id : Nat} {b : Wb} (h_s : Clock base s) :
    Clock base (complete s p r id b) := by
  unfold complete
  repeat' first
    | with_reducible assumption
    | with_reducible apply indexBlock_clock
    | with_reducible apply settle_clock
    | with_reducible apply ringIrq_clock
    | intro _
    | with_reducible refine ite_clock ?_ ?_
    | split

theorem finish_clock {base : State} {s : State} {p : Nat} {r : Nat} {id : Nat} {status : Nat} (h_s : Clock base s) :
    Clock base (finish s p r id status) := by
  unfold finish
  repeat' first
    | with_reducible assumption
    | with_reducible apply complete_clock

theorem finishKey_clock {base : State} {s : State} {k : Nat} {id : Nat} {status : Nat} (h_s : Clock base s) :
    Clock base (finishKey s k id status) := by
  unfold finishKey
  repeat' first
    | with_reducible assumption
    | with_reducible apply finish_clock

theorem completeKey_clock {base : State} {s : State} {k : Nat} {id : Nat} {b : Wb} (h_s : Clock base s) :
    Clock base (completeKey s k id b) := by
  unfold completeKey
  repeat' first
    | with_reducible assumption
    | with_reducible apply complete_clock

theorem State.updStream_clock {base : State} {s : State} {e : Nat} {f : StreamRt → StreamRt} (h_s : Clock base s) :
    Clock base (State.updStream s e f) := by
  unfold State.updStream
  repeat' first
    | with_reducible assumption
    | intro _
    | fail_if_no_progress (with_reducible refine Clock.of_mk ?_ rfl rfl)

theorem igCountN_clock {base : State} {s : State} {e : Nat} {i : Nat} {n : Nat} (h_s : Clock base s) :
    Clock base (igCountN s e i n) := by
  unfold igCountN
  repeat' first
    | with_reducible assumption
    | intro _
    | fail_if_no_progress (with_reducible refine Clock.of_mk ?_ rfl rfl)

theorem igCount_clock {base : State} {s : State} {e : Nat} {i : Nat} (h_s : Clock base s) :
    Clock base (igCount s e i) := by
  unfold igCount
  repeat' first
    | with_reducible assumption
    | with_reducible apply igCountN_clock

theorem igOther_clock {base : State} {s : State} {off : Nat} (h_s : Clock base s) :
    Clock base (igOther s off) := by
  unfold igOther
  repeat' first
    | with_reducible assumption
    | intro _
    | fail_if_no_progress (with_reducible refine Clock.of_mk ?_ rfl rfl)

theorem streamTo_clock {base : State} {s : State} {e : Nat} {new : StreamSt} {stamp : Stamp} (h_s : Clock base s) :
    Clock base (streamTo s e new stamp) := by
  unfold streamTo
  repeat' first
    | with_reducible assumption
    | with_reducible apply record_clock
    | with_reducible apply State.updStream_clock
    | intro _
    | with_reducible refine ite_clock ?_ ?_
    | split
    | fail_if_no_progress (with_reducible refine Clock.of_mk ?_ rfl rfl)

theorem State.updChain_clock {base : State} {s : State} {c : Nat} {ce : Nat} {f : ChainRt → ChainRt} (h_s : Clock base s) :
    Clock base (State.updChain s c ce f) := by
  unfold State.updChain
  repeat' first
    | with_reducible assumption
    | intro _
    | fail_if_no_progress (with_reducible refine Clock.of_mk ?_ rfl rfl)

theorem programOpen_clock {base : State} {s : State} (h_s : Clock base s) :
    Clock base (programOpen s) := by
  unfold programOpen
  repeat' first
    | with_reducible assumption
    | intro _
    | with_reducible refine ite_clock ?_ ?_
    | split
    | fail_if_no_progress (with_reducible refine Clock.of_mk ?_ rfl rfl)

theorem tallyEvent_clock {base : State} {s : State} {type : Nat} {detail : BitVec 32} (h_s : Clock base s) :
    Clock base (tallyEvent s type detail) := by
  unfold tallyEvent
  repeat' first
    | with_reducible assumption
    | with_reducible apply programOpen_clock
    | intro _
    | with_reducible refine ite_clock ?_ ?_
    | split
    | fail_if_no_progress (with_reducible refine Clock.of_mk ?_ rfl rfl)

theorem State.setNode_clock {base : State} {s : State} {n : Nat} {x : Node} (h_s : Clock base s) :
    Clock base (State.setNode s n x) := by
  unfold State.setNode
  repeat' first
    | with_reducible assumption
    | intro _
    | fail_if_no_progress (with_reducible refine Clock.of_mk ?_ rfl rfl)

theorem takeUse_clock {base : State} {s : State} {n : Nat} (h_s : Clock base s) :
    Clock base (takeUse s n) := by
  unfold takeUse
  repeat' first
    | with_reducible assumption
    | with_reducible apply State.setNode_clock
    | intro _
    | fail_if_no_progress (with_reducible refine Clock.of_mk ?_ rfl rfl)

theorem prCount_clock {base : State} {s : State} {i : Nat} (h_s : Clock base s) :
    Clock base (prCount s i) := by
  unfold prCount
  repeat' first
    | with_reducible assumption
    | intro _
    | fail_if_no_progress (with_reducible refine Clock.of_mk ?_ rfl rfl)

theorem raiseFlag_clock {base : State} {s : State} {i : Nat} (h_s : Clock base s) :
    Clock base (raiseFlag s i) := by
  unfold raiseFlag
  repeat' first
    | with_reducible assumption
    | intro _
    | fail_if_no_progress (with_reducible refine Clock.of_mk ?_ rfl rfl)

theorem raiseSticky_clock {base : State} {s : State} {i : Nat} (h_s : Clock base s) :
    Clock base (raiseSticky s i) := by
  unfold raiseSticky
  repeat' first
    | with_reducible assumption
    | intro _
    | fail_if_no_progress (with_reducible refine Clock.of_mk ?_ rfl rfl)

theorem mateSend_clock {base : State} {s : State} {x : MateSent} (h_s : Clock base s) :
    Clock base (mateSend s x) := by
  unfold mateSend
  repeat' first
    | with_reducible assumption
    | intro _
    | fail_if_no_progress (with_reducible refine Clock.of_mk ?_ rfl rfl)

theorem deltaSend_clock {base : State} {k : DeltaKind} {status : Nat} {s : State} (h_s : Clock base s) :
    Clock base (deltaSend k status s) := by
  unfold deltaSend
  repeat' first
    | with_reducible assumption
    | with_reducible apply mateSend_clock
    | intro _
    | with_reducible refine ite_clock ?_ ?_
    | split
    | fail_if_no_progress (with_reducible refine Clock.of_mk ?_ rfl rfl)

theorem changeRole_clock {base : State} {s : State} {new : PRole} {cause : Nat} (h_s : Clock base s) :
    Clock base (changeRole s new cause) := by
  unfold changeRole
  repeat' first
    | with_reducible assumption
    | with_reducible apply recordAll_clock
    | with_reducible apply tallyEvent_clock
    | intro _
    | fail_if_no_progress (with_reducible refine Clock.of_mk ?_ rfl rfl)

theorem fallSilent_clock {base : State} {s : State} (h_s : Clock base s) :
    Clock base (fallSilent s) := by
  unfold fallSilent
  repeat' first
    | with_reducible assumption
    | with_reducible apply changeRole_clock
    | intro _
    | with_reducible refine ite_clock ?_ ?_
    | split
    | fail_if_no_progress (with_reducible refine Clock.of_mk ?_ rfl rfl)

theorem selftest_clock {base : State} {bitNo : Nat} {fatal : Bool} {detail : BitVec 32} {s : State} (h_s : Clock base s) :
    Clock base (selftest bitNo fatal detail s) := by
  unfold selftest
  repeat' first
    | with_reducible assumption
    | with_reducible apply recordAll_clock
    | with_reducible apply tallyEvent_clock
    | with_reducible apply prCount_clock
    | with_reducible apply raiseFlag_clock
    | with_reducible apply fallSilent_clock
    | intro _
    | with_reducible refine ite_clock ?_ ?_
    | split
    | fail_if_no_progress (with_reducible refine Clock.of_mk ?_ rfl rfl)

theorem conservation_clock {base : State} {row : Nat} {s : State} (h_s : Clock base s) :
    Clock base (conservation row s) := by
  unfold conservation
  repeat' first
    | with_reducible assumption
    | with_reducible apply tallyEvent_clock
    | with_reducible apply raiseSticky_clock
    | with_reducible apply selftest_clock

theorem checkRows_clock {base : State} {rows : List Nat} {s : State} (h_s : Clock base s) :
    Clock base (checkRows rows s) := by
  unfold checkRows
  repeat' first
    | with_reducible assumption
    | with_reducible apply conservation_clock
    | with_reducible apply foldl_clock
    | with_reducible apply foldl_clock_fst
    | with_reducible apply foldl_clock_snd
    | intro _
    | with_reducible refine ite_clock ?_ ?_
    | split
    | fail_if_no_progress (with_reducible refine Clock.of_mk ?_ rfl rfl)

theorem diverge_clock {base : State} {kind : Nat} {ident : Nat} {s : State} (h_s : Clock base s) :
    Clock base (diverge kind ident s) := by
  unfold diverge
  repeat' first
    | with_reducible assumption
    | with_reducible apply recordAll_clock
    | with_reducible apply prCount_clock
    | with_reducible apply raiseFlag_clock
    | intro _
    | fail_if_no_progress (with_reducible refine Clock.of_mk ?_ rfl rfl)

theorem decide__clock {base : State} {d : Decision} {s : State} (h_s : Clock base s) :
    Clock base (decide_ d s) := by
  unfold decide_
  repeat' first
    | with_reducible assumption
    | with_reducible apply mateSend_clock
    | with_reducible apply diverge_clock
    | intro _
    | with_reducible refine ite_clock ?_ ?_
    | split
    | fail_if_no_progress (with_reducible refine Clock.of_mk ?_ rfl rfl)

theorem macCount_clock {base : State} {s : State} {q : Nat} {i : Nat} {n : Nat} (h_s : Clock base s) :
    Clock base (macCount s q i n) := by
  unfold macCount
  repeat' first
    | with_reducible assumption
    | intro _
    | with_reducible refine ite_clock ?_ ?_
    | split
    | fail_if_no_progress (with_reducible refine Clock.of_mk ?_ rfl rfl)

theorem gnCount_clock {base : State} {s : State} {index : Nat} {port : Nat} {cls : Nat} (h_s : Clock base s) :
    Clock base (gnCount s index port cls) := by
  unfold gnCount
  repeat' first
    | with_reducible assumption
    | intro _
    | fail_if_no_progress (with_reducible refine Clock.of_mk ?_ rfl rfl)

theorem dropOut_clock {base : State} {s : State} {id : Nat} {q : Nat} (h_s : Clock base s) :
    Clock base (dropOut s id q) := by
  unfold dropOut
  repeat' first
    | with_reducible assumption
    | intro _
    | with_reducible refine ite_clock ?_ ?_
    | split
    | fail_if_no_progress (with_reducible refine Clock.of_mk ?_ rfl rfl)

theorem discardAt_clock {base : State} {q : Nat} {reason : Nat} {f : GFrame} {s : State} (h_s : Clock base s) :
    Clock base (discardAt q reason f s) := by
  unfold discardAt
  repeat' first
    | with_reducible assumption
    | with_reducible apply completeKey_clock
    | with_reducible apply macCount_clock
    | with_reducible apply dropOut_clock
    | intro _
    | split
    | fail_if_no_progress (with_reducible refine Clock.of_mk ?_ rfl rfl)

theorem enqueue_clock {base : State} {f0 : GFrame} {wants : List Nat} {s : State} (h_s : Clock base s) :
    Clock base (enqueue f0 wants s) := by
  unfold enqueue
  repeat' first
    | with_reducible assumption
    | with_reducible apply finishKey_clock
    | with_reducible apply gnCount_clock
    | with_reducible apply discardAt_clock
    | with_reducible apply foldl_clock
    | with_reducible apply foldl_clock_fst
    | with_reducible apply foldl_clock_snd
    | intro _
    | with_reducible refine ite_clock ?_ ?_
    | split
    | fail_if_no_progress (with_reducible refine Clock.of_mk ?_ rfl rfl)

theorem State.updLane_clock {base : State} {s : State} {g : Nat} {f : LaneRt → LaneRt} (h_s : Clock base s) :
    Clock base (State.updLane s g f) := by
  unfold State.updLane
  repeat' first
    | with_reducible assumption
    | intro _
    | fail_if_no_progress (with_reducible refine Clock.of_mk ?_ rfl rfl)

theorem forceLane_clock {base : State} {s : State} {g : Nat} {v : Nat} (h_s : Clock base s) :
    Clock base (forceLane s g v) := by
  unfold forceLane
  repeat' first
    | with_reducible assumption
    | with_reducible apply State.updLane_clock
    | intro _
    | with_reducible refine ite_clock ?_ ?_
    | split
    | fail_if_no_progress (with_reducible refine Clock.of_mk ?_ rfl rfl)

theorem forceApply_clock {base : State} {j : Nat} {s : State} (h_s : Clock base s) :
    Clock base (forceApply j s) := by
  unfold forceApply
  repeat' first
    | with_reducible assumption
    | with_reducible apply forceLane_clock
    | with_reducible apply foldl_clock
    | with_reducible apply foldl_clock_fst
    | with_reducible apply foldl_clock_snd
    | intro _
    | fail_if_no_progress (with_reducible refine Clock.of_mk ?_ rfl rfl)

theorem dupEnter_clock {base : State} {s : State} {q : Nat} {mac : Nat} {n : Nat} {m : DupMark} (h_s : Clock base s) :
    Clock base (dupEnter s q mac n m) := by
  unfold dupEnter
  repeat' first
    | with_reducible assumption
    | with_reducible apply igOther_clock
    | with_reducible apply foldl_clock
    | with_reducible apply foldl_clock_fst
    | with_reducible apply foldl_clock_snd
    | (intro x
       first
         | (have hx : Clock base x := ?_; clear_value x; on_goal 2 => subst x)
         | clear_value x
         | subst x)
    | intro _
    | lift_lets -underBinder
    | with_reducible refine ite_clock ?_ ?_
    | split
    | dsimp -zeta only
    | fail_if_no_progress (with_reducible refine Clock.of_mk ?_ rfl rfl)

theorem setPoint_clock {base : State} {s : State} {c : Nat} {pt : Nat} {v : BitVec 32 × BitVec 32} (h_s : Clock base s) :
    Clock base (setPoint s c pt v) := by
  unfold setPoint
  repeat' first
    | with_reducible assumption
    | intro _
    | fail_if_no_progress (with_reducible refine Clock.of_mk ?_ rfl rfl)

theorem closePoints_clock {base : State} {x : Ste} {rt : StreamRt} {st : StreamSt} {k : Nat} {s : State} (h_s : Clock base s) :
    Clock base (closePoints x rt st k s) := by
  unfold closePoints
  repeat' first
    | with_reducible assumption
    | with_reducible apply setPoint_clock
    | with_reducible apply foldl_clock
    | with_reducible apply foldl_clock_fst
    | with_reducible apply foldl_clock_snd
    | intro _
    | split
    | fail_if_no_progress (with_reducible refine Clock.of_mk ?_ rfl rfl)

theorem closeEntry_clock {base : State} {k : Nat} {j : Nat} {e : Nat} {acc : State × SlotOut} (h_acc : Clock base acc.1) :
    Clock base (closeEntry k j e acc).1 := by
  unfold closeEntry
  repeat' first
    | with_reducible assumption
    | with_reducible exact Clock.refl _
    | with_reducible apply State.updStream_clock
    | with_reducible apply igCountN_clock
    | with_reducible apply igCount_clock
    | with_reducible apply streamTo_clock
    | with_reducible apply closePoints_clock
    | (intro x
       first
         | (have hx_ : Prop := x; clear hx_; subst x)
         | (have hx_ : _ → _ := x; clear hx_; subst x)
         | (have hx_ : TbState := x; clear hx_; subst x)
         | (have hx_ : OkState := x; clear hx_; subst x)
         | (have hx : Clock base x := ?_; clear_value x; on_goal 2 => subst x)
         | (have hx : (∀ y, x.1 = some y → Clock base y) ∧ Clock base x.2 := ?_; clear_value x; on_goal 2 => subst x)
         | (have hx : Clock base x.1 := ?_; clear_value x; on_goal 2 => subst x)
         | (have hx : Clock base x.2 := ?_; clear_value x; on_goal 2 => subst x)
         | clear_value x)
    | intro _
    | lift_lets -underBinder
    | with_reducible refine ite_clock ?_ ?_
    | with_reducible refine ite_clock_fst ?_ ?_
    | with_reducible refine ite_clock_snd ?_ ?_
    | split
    | dsimp -zeta only
    | fail_if_no_progress (with_reducible refine Clock.of_mk ?_ rfl rfl)

theorem closeOld_clock {base : State} {k : Nat} {acc : State × SlotOut} {o : OldStream} (h_acc : Clock base acc.1) :
    Clock base (closeOld k acc o).1 := by
  unfold closeOld
  repeat' first
    | with_reducible assumption
    | with_reducible exact Clock.refl _
    | with_reducible apply closePoints_clock
    | (intro x
       first
         | (have hx_ : Prop := x; clear hx_; subst x)
         | (have hx_ : _ → _ := x; clear hx_; subst x)
         | (have hx_ : TbState := x; clear hx_; subst x)
         | (have hx_ : OkState := x; clear hx_; subst x)
         | (have hx : Clock base x := ?_; clear_value x; on_goal 2 => subst x)
         | (have hx : (∀ y, x.1 = some y → Clock base y) ∧ Clock base x.2 := ?_; clear_value x; on_goal 2 => subst x)
         | (have hx : Clock base x.1 := ?_; clear_value x; on_goal 2 => subst x)
         | (have hx : Clock base x.2 := ?_; clear_value x; on_goal 2 => subst x)
         | clear_value x)
    | intro _
    | lift_lets -underBinder
    | with_reducible refine ite_clock ?_ ?_
    | with_reducible refine ite_clock_fst ?_ ?_
    | with_reducible refine ite_clock_snd ?_ ?_
    | split
    | dsimp -zeta only
    | fail_if_no_progress (with_reducible refine Clock.of_mk ?_ rfl rfl)

theorem dropOlds_clock {base : State} {c : Nat} {k : Nat} {s : State} (h_s : Clock base s) :
    Clock base (dropOlds c k s) := by
  unfold dropOlds
  repeat' first
    | with_reducible assumption
    | with_reducible apply setPoint_clock
    | with_reducible apply foldl_clock
    | with_reducible apply foldl_clock_fst
    | with_reducible apply foldl_clock_snd
    | intro _
    | with_reducible refine ite_clock ?_ ?_
    | split
    | fail_if_no_progress (with_reducible refine Clock.of_mk ?_ rfl rfl)

theorem closeSlot_clock {base : State} {c : Nat} {k : Nat} {j : Nat} {s : State} (h_s : Clock base s) :
    Clock base (closeSlot c k j s).1 := by
  unfold closeSlot
  repeat' first
    | with_reducible assumption
    | with_reducible apply closeEntry_clock
    | with_reducible apply closeOld_clock
    | with_reducible apply dropOlds_clock
    | with_reducible apply foldl_clock
    | with_reducible apply foldl_clock_fst
    | with_reducible apply foldl_clock_snd
    | intro _
    | fail_if_no_progress (with_reducible refine Clock.of_mk ?_ rfl rfl)

theorem chainIntake_clock {base : State} {c : Nat} {k : Nat} {j : Nat} {s : State} {ch : Nat × List Smp} (h_s : Clock base s) :
    Clock base (chainIntake c k j s ch).1 := by
  unfold chainIntake
  repeat' first
    | with_reducible assumption
    | with_reducible apply record_clock
    | with_reducible apply State.updChain_clock
    | with_reducible apply foldl_clock
    | with_reducible apply foldl_clock_fst
    | with_reducible apply foldl_clock_snd
    | (intro x
       first
         | (have hx : Clock base x := ?_; clear_value x; on_goal 2 => subst x)
         | clear_value x
         | subst x)
    | intro _
    | lift_lets -underBinder
    | with_reducible refine ite_clock ?_ ?_
    | with_reducible refine ite_clock_fst ?_ ?_
    | with_reducible refine ite_clock_snd ?_ ?_
    | split
    | dsimp -zeta only
    | fail_if_no_progress (with_reducible refine Clock.of_mk ?_ rfl rfl)

theorem surgeTriggers_clock {base : State} {hamlet : Nat} {pts : List SurgePt} {fresh : List Nat} {s : State} (h_s : Clock base s) :
    Clock base (surgeTriggers hamlet pts fresh s).1 := by
  unfold surgeTriggers
  repeat' first
    | with_reducible assumption
    | with_reducible apply foldl_clock
    | with_reducible apply foldl_clock_fst
    | with_reducible apply foldl_clock_snd
    | intro _
    | with_reducible refine ite_clock ?_ ?_
    | split
    | fail_if_no_progress (with_reducible refine Clock.of_mk ?_ rfl rfl)

theorem combined_clock {base : State} {c : Nat} {ts : List Trig} {s : State} (h_s : Clock base s) :
    Clock base (combined c ts s).1 := by
  unfold combined
  repeat' first
    | with_reducible assumption
    | with_reducible apply foldl_clock
    | with_reducible apply foldl_clock_fst
    | with_reducible apply foldl_clock_snd
    | (intro x
       first
         | (have hx : Clock base x := ?_; clear_value x; on_goal 2 => subst x)
         | clear_value x
         | subst x)
    | intro _
    | lift_lets -underBinder
    | with_reducible refine ite_clock ?_ ?_
    | with_reducible refine ite_clock_fst ?_ ?_
    | with_reducible refine ite_clock_snd ?_ ?_
    | split
    | dsimp -zeta only
    | fail_if_no_progress (with_reducible refine Clock.of_mk ?_ rfl rfl)

theorem State.updCap_clock {base : State} {s : State} {g : Nat} {f : CapUnit → CapUnit} (h_s : Clock base s) :
    Clock base (State.updCap s g f) := by
  unfold State.updCap
  repeat' first
    | with_reducible assumption
    | intro _
    | fail_if_no_progress (with_reducible refine Clock.of_mk ?_ rfl rfl)

theorem capSample_clock {base : State} {g : Nat} {t : Stamp} {vals : List (Int × BitVec 32)} {new : List (Option (BitVec 32))} {s : State} (h_s : Clock base s) :
    Clock base (capSample g t vals new s) := by
  unfold capSample
  repeat' first
    | with_reducible assumption
    | with_reducible apply devWrite_clock
    | with_reducible apply State.updCap_clock
    | intro _
    | with_reducible refine ite_clock ?_ ?_
    | split
    | fail_if_no_progress (with_reducible refine Clock.of_mk ?_ rfl rfl)

theorem capTrigger_clock {base : State} {g : Nat} {t : Stamp} {flags : BitVec 32} {s : State} (h_s : Clock base s) :
    Clock base (capTrigger g t flags s) := by
  unfold capTrigger
  repeat' first
    | with_reducible assumption
    | with_reducible apply State.updCap_clock
    | intro _
    | split
    | fail_if_no_progress (with_reducible refine Clock.of_mk ?_ rfl rfl)

theorem capRun_clock {base : State} {a0 : List CapItem} {a1 : Nat} {a2 : State} (h_a2 : Clock base a2) :
    Clock base (capRun a0 a1 a2) := by
  unfold capRun
  repeat' first
    | with_reducible assumption
    | with_reducible apply State.updCap_clock
    | with_reducible apply capSample_clock
    | with_reducible apply capTrigger_clock
    | with_reducible apply capRun_clock
    | intro _
    | with_reducible refine ite_clock ?_ ?_
    | split
    | fail_if_no_progress (with_reducible refine Clock.of_mk ?_ rfl rfl)

theorem capFeed_clock {base : State} {g : Nat} {items : List CapItem} {s : State} (h_s : Clock base s) :
    Clock base (capFeed g items s) := by
  unfold capFeed
  repeat' first
    | with_reducible assumption
    | with_reducible apply capRun_clock

theorem capEnter_clock {base : State} {g : Nat} {dead : Nat} {s : State} (h_s : Clock base s) :
    Clock base (capEnter g dead s) := by
  unfold capEnter
  repeat' first
    | with_reducible assumption
    | with_reducible apply State.updCap_clock
    | intro _
    | split
    | fail_if_no_progress (with_reducible refine Clock.of_mk ?_ rfl rfl)

theorem capClose_clock {base : State} {g : Nat} {cut : Bool} {s : State} (h_s : Clock base s) :
    Clock base (capClose g cut s) := by
  unfold capClose
  repeat' first
    | with_reducible assumption
    | with_reducible apply devWrite_clock
    | with_reducible apply record_clock
    | with_reducible apply State.updCap_clock
    | with_reducible apply foldl_clock
    | with_reducible apply foldl_clock_fst
    | with_reducible apply foldl_clock_snd
    | intro _
    | fail_if_no_progress (with_reducible refine Clock.of_mk ?_ rfl rfl)

theorem capLeave_clock {base : State} {g : Nat} {b : Wb} {s : State} (h_s : Clock base s) :
    Clock base (capLeave g b s) := by
  unfold capLeave
  repeat' first
    | with_reducible assumption
    | with_reducible apply completeKey_clock
    | with_reducible apply State.updCap_clock
    | intro _
    | fail_if_no_progress (with_reducible refine Clock.of_mk ?_ rfl rfl)

theorem capDiscard_clock {base : State} {g : Nat} {s : State} (h_s : Clock base s) :
    Clock base (capDiscard g s) := by
  unfold capDiscard
  repeat' first
    | with_reducible assumption
    | with_reducible apply State.updCap_clock
    | intro _
    | with_reducible refine ite_clock ?_ ?_
    | split
    | fail_if_no_progress (with_reducible refine Clock.of_mk ?_ rfl rfl)

theorem captureComplete_clock {base : State} {g : Nat} {s : State} (h_s : Clock base s) :
    Clock base (captureComplete g s) := by
  unfold captureComplete
  repeat' first
    | with_reducible assumption
    | with_reducible apply State.draw_clock
    | with_reducible apply State.updCap_clock
    | with_reducible apply capRun_clock
    | with_reducible apply capEnter_clock
    | with_reducible apply capClose_clock
    | with_reducible apply capLeave_clock
    | intro _
    | with_reducible refine ite_clock ?_ ?_
    | split
    | fail_if_no_progress (with_reducible refine Clock.of_mk ?_ rfl rfl)

theorem capCut_clock {base : State} {g : Nat} {s : State} (h_s : Clock base s) :
    Clock base (capCut g s) := by
  unfold capCut
  repeat' first
    | with_reducible assumption
    | with_reducible apply capClose_clock
    | with_reducible apply capLeave_clock
    | with_reducible apply capDiscard_clock
    | with_reducible apply captureComplete_clock
    | (intro x
       first
         | (have hx : Clock base x := ?_; clear_value x; on_goal 2 => subst x)
         | clear_value x
         | subst x)
    | intro _
    | lift_lets -underBinder
    | split
    | dsimp -zeta only
    | fail_if_no_progress (with_reducible refine Clock.of_mk ?_ rfl rfl)

theorem capSlot_clock {base : State} {c : Nat} {k : Nat} {d : Delivered} {chan : List Trig} {comb : List Trig} {s : State} (h_s : Clock base s) :
    Clock base (capSlot c k d chan comb s) := by
  unfold capSlot
  repeat' first
    | with_reducible assumption
    | with_reducible apply State.updCap_clock
    | with_reducible apply capFeed_clock
    | with_reducible apply capCut_clock
    | with_reducible apply foldl_clock
    | with_reducible apply foldl_clock_fst
    | with_reducible apply foldl_clock_snd
    | intro _
    | with_reducible refine ite_clock ?_ ?_
    | split
    | fail_if_no_progress (with_reducible refine Clock.of_mk ?_ rfl rfl)

theorem capSurge_clock {base : State} {h : Nat} {pts : List SurgePt} {ts : List Trig} {s : State} (h_s : Clock base s) :
    Clock base (capSurge h pts ts s) := by
  unfold capSurge
  repeat' first
    | with_reducible assumption
    | with_reducible apply capFeed_clock
    | with_reducible apply foldl_clock
    | with_reducible apply foldl_clock_fst
    | with_reducible apply foldl_clock_snd
    | intro _
    | with_reducible refine ite_clock ?_ ?_
    | split

theorem countSent_clock {base : State} {f : OutFrame} {s : State} (h_s : Clock base s) :
    Clock base (countSent f s) := by
  unfold countSent
  repeat' first
    | with_reducible assumption
    | intro _
    | split
    | fail_if_no_progress (with_reducible refine Clock.of_mk ?_ rfl rfl)

theorem sendOut_clock {base : State} {f : OutFrame} {s0 : State} (h_s0 : Clock base s0) :
    Clock base (sendOut f s0) := by
  unfold sendOut
  repeat' first
    | with_reducible assumption
    | with_reducible apply enqueue_clock
    | with_reducible apply dupEnter_clock
    | with_reducible apply countSent_clock
    | with_reducible apply foldl_clock
    | with_reducible apply foldl_clock_fst
    | with_reducible apply foldl_clock_snd
    | intro _
    | with_reducible refine ite_clock ?_ ?_
    | split
    | fail_if_no_progress (with_reducible refine Clock.of_mk ?_ rfl rfl)

theorem releaseFrame_clock {base : State} {f : OutFrame} {s : State} (h_s : Clock base s) :
    Clock base (releaseFrame f s) := by
  unfold releaseFrame
  repeat' first
    | with_reducible assumption
    | with_reducible apply decide__clock
    | with_reducible apply sendOut_clock
    | intro _
    | with_reducible refine ite_clock ?_ ?_
    | split
    | fail_if_no_progress (with_reducible refine Clock.of_mk ?_ rfl rfl)

theorem State.updGrp_clock {base : State} {s : State} {sel : Nat} {f : PhRt → PhRt} (h_s : Clock base s) :
    Clock base (State.updGrp s sel f) := by
  unfold State.updGrp
  repeat' first
    | with_reducible assumption
    | intro _
    | fail_if_no_progress (with_reducible refine Clock.of_mk ?_ rfl rfl)

theorem phWrite_clock {base : State} {c : Nat} {g : Nat} {x : GrpCfg} {r : PhRep} {s : State} (h_s : Clock base s) :
    Clock base (phWrite c g x r s) := by
  unfold phWrite
  repeat' first
    | with_reducible assumption
    | with_reducible apply devWrite_clock
    | with_reducible apply record_clock
    | with_reducible apply State.updGrp_clock
    | intro _
    | with_reducible refine ite_clock ?_ ?_
    | split
    | fail_if_no_progress (with_reducible refine Clock.of_mk ?_ rfl rfl)

theorem noteEdge_clock {base : State} {j : Nat} {s : State} (h_s : Clock base s) :
    Clock base (noteEdge j s) := by
  unfold noteEdge
  repeat' first
    | with_reducible assumption
    | intro _
    | fail_if_no_progress (with_reducible refine Clock.of_mk ?_ rfl rfl)

theorem phBase_clock {base : State} {c : Nat} {g : Nat} {j : Nat} {x : GrpCfg} {s : State} (h_s : Clock base s) :
    Clock base (phBase c g j x s) := by
  unfold phBase
  repeat' first
    | with_reducible assumption
    | with_reducible apply State.draw_clock
    | with_reducible apply State.updGrp_clock
    | with_reducible apply phWrite_clock
    | intro _
    | with_reducible refine ite_clock ?_ ?_
    | split
    | fail_if_no_progress (with_reducible refine Clock.of_mk ?_ rfl rfl)

theorem phLoop_clock {base : State} {c : Nat} {g : Nat} {j : Nat} {x : GrpCfg} {a0 : Nat} {a1 : State} (h_a1 : Clock base a1) :
    Clock base (phLoop c g j x a0 a1) := by
  unfold phLoop
  repeat' first
    | with_reducible assumption
    | with_reducible apply phBase_clock
    | with_reducible apply phLoop_clock
    | with_reducible refine ite_clock ?_ ?_
    | split

theorem phSlot_clock {base : State} {c : Nat} {j : Nat} {d : List (Nat × ChainOut)} {s : State} (h_s : Clock base s) :
    Clock base (phSlot c j d s) := by
  unfold phSlot
  repeat' first
    | with_reducible assumption
    | with_reducible apply State.updGrp_clock
    | with_reducible apply phLoop_clock
    | with_reducible apply foldl_clock
    | with_reducible apply foldl_clock_fst
    | with_reducible apply foldl_clock_snd
    | intro _
    | with_reducible refine ite_clock ?_ ?_
    | split
    | fail_if_no_progress (with_reducible refine Clock.of_mk ?_ rfl rfl)

theorem phEdge_clock {base : State} {j : Nat} {s : State} (h_s : Clock base s) :
    Clock base (phEdge j s) := by
  unfold phEdge
  repeat' first
    | with_reducible assumption
    | with_reducible apply noteEdge_clock
    | intro _
    | with_reducible refine ite_clock ?_ ?_
    | split

theorem State.updPws_clock {base : State} {s : State} {n : Nat} {f : PwsRt → PwsRt} (h_s : Clock base s) :
    Clock base (State.updPws s n f) := by
  unfold State.updPws
  repeat' first
    | with_reducible assumption
    | intro _
    | fail_if_no_progress (with_reducible refine Clock.of_mk ?_ rfl rfl)

theorem phDigitals_clock {base : State} {c : Nat} {k : Nat} {s : State} (h_s : Clock base s) :
    Clock base (phDigitals c k s) := by
  unfold phDigitals
  repeat' first
    | with_reducible assumption
    | with_reducible apply State.updPws_clock
    | with_reducible apply foldl_clock
    | with_reducible apply foldl_clock_fst
    | with_reducible apply foldl_clock_snd
    | intro _
    | with_reducible refine ite_clock ?_ ?_
    | split
    | fail_if_no_progress (with_reducible refine Clock.of_mk ?_ rfl rfl)

theorem State.updLine_clock {base : State} {s : State} {l : Nat} {f : LineRt → LineRt} (h_s : Clock base s) :
    Clock base (State.updLine s l f) := by
  unfold State.updLine
  repeat' first
    | with_reducible assumption
    | intro _
    | fail_if_no_progress (with_reducible refine Clock.of_mk ?_ rfl rfl)

theorem flCount_clock {base : State} {s : State} {l : Nat} {i : Nat} (h_s : Clock base s) :
    Clock base (flCount s l i) := by
  unfold flCount
  repeat' first
    | with_reducible assumption
    | intro _
    | fail_if_no_progress (with_reducible refine Clock.of_mk ?_ rfl rfl)

theorem lineDelta_clock {base : State} {l : Nat} {s : State} (h_s : Clock base s) :
    Clock base (lineDelta l s) := by
  unfold lineDelta
  repeat' first
    | with_reducible assumption
    | with_reducible apply deltaSend_clock

theorem flRecord_clock {base : State} {l : Nat} {m : Nat} {summary : Bool} {r : FlRes} {flags : BitVec 16} {s : State} (h_s : Clock base s) :
    Clock base (flRecord l m summary r flags s) := by
  unfold flRecord
  repeat' first
    | with_reducible assumption
    | with_reducible apply State.draw_clock
    | with_reducible apply record_clock
    | intro _
    | with_reducible refine ite_clock ?_ ?_
    | split
    | fail_if_no_progress (with_reducible refine Clock.of_mk ?_ rfl rfl)

theorem flClose_clock {base : State} {l : Nat} {closeT16 : Nat} {s : State} (h_s : Clock base s) :
    Clock base (flClose l closeT16 s) := by
  unfold flClose
  repeat' first
    | with_reducible assumption
    | with_reducible apply State.updLine_clock
    | with_reducible apply flRecord_clock
    | intro _
    | with_reducible refine ite_clock ?_ ?_
    | split
    | fail_if_no_progress (with_reducible refine Clock.of_mk ?_ rfl rfl)

theorem flResult_clock {base : State} {l : Nat} {m : Nat} {r : FlRes} {s : State} (h_s : Clock base s) :
    Clock base (flResult l m r s) := by
  unfold flResult
  repeat' first
    | with_reducible assumption
    | with_reducible apply State.updLine_clock
    | with_reducible apply flRecord_clock
    | with_reducible apply flClose_clock
    | intro _
    | with_reducible refine ite_clock ?_ ?_
    | split
    | fail_if_no_progress (with_reducible refine Clock.of_mk ?_ rfl rfl)

theorem seTw_clock {base : State} {l : Nat} {s : State} (h_s : Clock base s) :
    Clock base (seTw l s) := by
  unfold seTw
  repeat' first
    | with_reducible assumption
    | with_reducible apply flResult_clock
    | (intro x
       first
         | (have hx : Clock base x := ?_; clear_value x; on_goal 2 => subst x)
         | clear_value x
         | subst x)
    | intro _
    | lift_lets -underBinder
    | with_reducible refine ite_clock ?_ ?_
    | split
    | dsimp -zeta only
    | fail_if_no_progress (with_reducible refine Clock.of_mk ?_ rfl rfl)

theorem fixRef_clock {base : State} {l : Nat} {s : State} (h_s : Clock base s) :
    Clock base (fixRef l s) := by
  unfold fixRef
  repeat' first
    | with_reducible assumption
    | with_reducible apply State.updLine_clock
    | intro _
    | with_reducible refine ite_clock ?_ ?_
    | split
    | fail_if_no_progress (with_reducible refine Clock.of_mk ?_ rfl rfl)

theorem deTw_clock {base : State} {l : Nat} {s : State} (h_s : Clock base s) :
    Clock base (deTw l s) := by
  unfold deTw
  repeat' first
    | with_reducible assumption
    | with_reducible apply State.updLine_clock
    | with_reducible apply flResult_clock
    | with_reducible apply fixRef_clock
    | (intro x
       first
         | (have hx : Clock base x := ?_; clear_value x; on_goal 2 => subst x)
         | clear_value x
         | subst x)
    | intro _
    | lift_lets -underBinder
    | with_reducible refine ite_clock ?_ ?_
    | split
    | dsimp -zeta only
    | fail_if_no_progress (with_reducible refine Clock.of_mk ?_ rfl rfl)

theorem flMatch_clock {base : State} {l : Nat} {m : ArrMsg} {s : State} (h_s : Clock base s) :
    Clock base (flMatch l m s) := by
  unfold flMatch
  repeat' first
    | with_reducible assumption
    | with_reducible apply State.updLine_clock
    | with_reducible apply deTw_clock
    | intro _
    | with_reducible refine ite_clock ?_ ?_
    | split
    | fail_if_no_progress (with_reducible refine Clock.of_mk ?_ rfl rfl)

theorem matchHeld_clock {base : State} {l : Nat} {s : State} (h_s : Clock base s) :
    Clock base (matchHeld l s) := by
  unfold matchHeld
  repeat' first
    | with_reducible assumption
    | with_reducible apply State.updLine_clock
    | with_reducible apply flMatch_clock
    | with_reducible apply foldl_clock
    | with_reducible apply foldl_clock_fst
    | with_reducible apply foldl_clock_snd
    | (intro x
       first
         | (have hx : Clock base x := ?_; clear_value x; on_goal 2 => subst x)
         | clear_value x
         | subst x)
    | intro _
    | lift_lets -underBinder
    | split
    | dsimp -zeta only
    | fail_if_no_progress (with_reducible refine Clock.of_mk ?_ rfl rfl)

theorem flArrival_clock {base : State} {l : Nat} {a : Arr} {s : State} (h_s : Clock base s) :
    Clock base (flArrival l a s) := by
  unfold flArrival
  repeat' first
    | with_reducible assumption
    | with_reducible apply State.updLine_clock
    | with_reducible apply flCount_clock
    | (intro x
       first
         | (have hx : Clock base x := ?_; clear_value x; on_goal 2 => subst x)
         | clear_value x
         | subst x)
    | intro _
    | lift_lets -underBinder
    | with_reducible refine ite_clock ?_ ?_
    | split
    | dsimp -zeta only
    | fail_if_no_progress (with_reducible refine Clock.of_mk ?_ rfl rfl)

theorem eventOpened_clock {base : State} {l : Nat} {s : State} (h_s : Clock base s) :
    Clock base (eventOpened l s) := by
  unfold eventOpened
  repeat' first
    | with_reducible assumption
    | with_reducible apply State.updLine_clock
    | with_reducible apply lineDelta_clock
    | with_reducible apply matchHeld_clock
    | intro _
    | with_reducible refine ite_clock ?_ ?_
    | split
    | fail_if_no_progress (with_reducible refine Clock.of_mk ?_ rfl rfl)

theorem lineStep_clock {base : State} {l : Nat} {x : LineCfg} {m : LineSmp} {s : State} (h_s : Clock base s) :
    Clock base (lineStep l x m s) := by
  unfold lineStep
  repeat' first
    | with_reducible assumption
    | with_reducible apply State.updLine_clock
    | with_reducible apply flArrival_clock
    | with_reducible apply foldl_clock
    | with_reducible apply foldl_clock_fst
    | with_reducible apply foldl_clock_snd
    | intro _
    | with_reducible refine ite_clock ?_ ?_
    | split
    | fail_if_no_progress (with_reducible refine Clock.of_mk ?_ rfl rfl)

theorem detReset_clock {base : State} {l : Nat} {s : State} (h_s : Clock base s) :
    Clock base (detReset l s) := by
  unfold detReset
  repeat' first
    | with_reducible assumption
    | with_reducible apply State.updLine_clock
    | intro _
    | fail_if_no_progress (with_reducible refine Clock.of_mk ?_ rfl rfl)

theorem seTwAtOnce_clock {base : State} {l : Nat} {s : State} (h_s : Clock base s) :
    Clock base (seTwAtOnce l s) := by
  unfold seTwAtOnce
  repeat' first
    | with_reducible assumption
    | with_reducible apply seTw_clock
    | (intro x
       first
         | (have hx : Clock base x := ?_; clear_value x; on_goal 2 => subst x)
         | clear_value x
         | subst x)
    | intro _
    | lift_lets -underBinder
    | with_reducible refine ite_clock ?_ ?_
    | split
    | dsimp -zeta only
    | fail_if_no_progress (with_reducible refine Clock.of_mk ?_ rfl rfl)

theorem flSlot_clock {base : State} {h : Nat} {pts : List SurgePt} {returned : List Nat} {s : State} (h_s : Clock base s) :
    Clock base (flSlot h pts returned s) := by
  unfold flSlot
  repeat' first
    | with_reducible assumption
    | with_reducible apply flCount_clock
    | with_reducible apply eventOpened_clock
    | with_reducible apply lineStep_clock
    | with_reducible apply detReset_clock
    | with_reducible apply seTwAtOnce_clock
    | with_reducible apply foldl_clock
    | with_reducible apply foldl_clock_fst
    | with_reducible apply foldl_clock_snd
    | intro _
    | with_reducible refine ite_clock ?_ ?_
    | split
    | fail_if_no_progress (with_reducible refine Clock.of_mk ?_ rfl rfl)

theorem State.updFbe_clock {base : State} {s : State} {h : Nat} {f : FbRt → FbRt} (h_s : Clock base s) :
    Clock base (State.updFbe s h f) := by
  unfold State.updFbe
  repeat' first
    | with_reducible assumption
    | intro _
    | fail_if_no_progress (with_reducible refine Clock.of_mk ?_ rfl rfl)

theorem giveSet_clock {base : State} {h : Nat} {cs : Nat} {j : Nat} {n : Nat} {scan : Bool} {outs : List (Nat × BitVec 32 × BitVec 32)} {s : State} (h_s : Clock base s) :
    Clock base (giveSet h cs j n scan outs s) := by
  unfold giveSet
  repeat' first
    | with_reducible assumption
    | with_reducible apply State.updFbe_clock
    | intro _
    | fail_if_no_progress (with_reducible refine Clock.of_mk ?_ rfl rfl)

theorem fbScan_clock {base : State} {h : Nat} {cs : Nat} {j : Nat} {p : FbProg} {s : State} (h_s : Clock base s) :
    Clock base (fbScan h cs j p s) := by
  unfold fbScan
  repeat' first
    | with_reducible assumption
    | with_reducible apply State.updFbe_clock
    | with_reducible apply giveSet_clock
    | intro _
    | fail_if_no_progress (with_reducible refine Clock.of_mk ?_ rfl rfl)

theorem fbHeld_clock {base : State} {h : Nat} {cs : Nat} {j : Nat} {p : FbProg} {stop : Bool} {s : State} (h_s : Clock base s) :
    Clock base (fbHeld h cs j p stop s) := by
  unfold fbHeld
  repeat' first
    | with_reducible assumption
    | with_reducible apply giveSet_clock
    | intro _
    | with_reducible refine ite_clock ?_ ?_
    | split

theorem fbRestart_clock {base : State} {h : Nat} {s : State} (h_s : Clock base s) :
    Clock base (fbRestart h s) := by
  unfold fbRestart
  repeat' first
    | with_reducible assumption
    | with_reducible apply State.updFbe_clock
    | intro _
    | split
    | fail_if_no_progress (with_reducible refine Clock.of_mk ?_ rfl rfl)

theorem fbApply_clock {base : State} {h : Nat} {k : FbCmdKind} {s : State} (h_s : Clock base s) :
    Clock base (fbApply h k s).1 := by
  unfold fbApply
  repeat' first
    | with_reducible assumption
    | with_reducible apply raiseFlag_clock
    | with_reducible apply State.updFbe_clock
    | with_reducible apply fbRestart_clock
    | intro _
    | with_reducible refine ite_clock ?_ ?_
    | split
    | fail_if_no_progress (with_reducible refine Clock.of_mk ?_ rfl rfl)

theorem fbCommands_clock {base : State} {h : Nat} {a0 : List FbCmd} {a1 : State × Bool} (h_a1 : Clock base a1.1) :
    Clock base (fbCommands h a0 a1).1 := by
  unfold fbCommands
  repeat' first
    | with_reducible assumption
    | with_reducible exact Clock.refl _
    | with_reducible apply finishKey_clock
    | with_reducible apply fbApply_clock
    | with_reducible apply fbCommands_clock
    | (intro x
       first
         | (have hx_ : Prop := x; clear hx_; subst x)
         | (have hx_ : _ → _ := x; clear hx_; subst x)
         | (have hx_ : TbState := x; clear hx_; subst x)
         | (have hx_ : OkState := x; clear hx_; subst x)
         | (have hx : Clock base x := ?_; clear_value x; on_goal 2 => subst x)
         | (have hx : (∀ y, x.1 = some y → Clock base y) ∧ Clock base x.2 := ?_; clear_value x; on_goal 2 => subst x)
         | (have hx : Clock base x.1 := ?_; clear_value x; on_goal 2 => subst x)
         | (have hx : Clock base x.2 := ?_; clear_value x; on_goal 2 => subst x)
         | clear_value x)
    | intro _
    | lift_lets -underBinder
    | split
    | dsimp -zeta only
    | fail_if_no_progress (with_reducible refine Clock.of_mk ?_ rfl rfl)

theorem fbCycle_clock {base : State} {h : Nat} {cs : Nat} {j : Nat} {s : State} (h_s : Clock base s) :
    Clock base (fbCycle h cs j s) := by
  unfold fbCycle
  repeat' first
    | with_reducible assumption
    | with_reducible exact Clock.refl _
    | with_reducible apply State.updFbe_clock
    | with_reducible apply fbScan_clock
    | with_reducible apply fbHeld_clock
    | with_reducible apply fbCommands_clock
    | (intro x
       first
         | (have hx_ : Prop := x; clear hx_; subst x)
         | (have hx_ : _ → _ := x; clear hx_; subst x)
         | (have hx_ : TbState := x; clear hx_; subst x)
         | (have hx_ : OkState := x; clear hx_; subst x)
         | (have hx : Clock base x := ?_; clear_value x; on_goal 2 => subst x)
         | (have hx : (∀ y, x.1 = some y → Clock base y) ∧ Clock base x.2 := ?_; clear_value x; on_goal 2 => subst x)
         | (have hx : Clock base x.1 := ?_; clear_value x; on_goal 2 => subst x)
         | (have hx : Clock base x.2 := ?_; clear_value x; on_goal 2 => subst x)
         | clear_value x)
    | intro _
    | lift_lets -underBinder
    | with_reducible refine ite_clock ?_ ?_
    | split
    | dsimp -zeta only
    | fail_if_no_progress (with_reducible refine Clock.of_mk ?_ rfl rfl)

theorem fbExchange_clock {base : State} {h : Nat} {s : State} (h_s : Clock base s) :
    Clock base (fbExchange h s) := by
  unfold fbExchange
  repeat' first
    | with_reducible assumption
    | with_reducible apply State.updFbe_clock
    | with_reducible apply fbRestart_clock
    | (intro x
       first
         | (have hx : Clock base x := ?_; clear_value x; on_goal 2 => subst x)
         | clear_value x
         | subst x)
    | intro _
    | lift_lets -underBinder
    | with_reducible refine ite_clock ?_ ?_
    | split
    | dsimp -zeta only
    | fail_if_no_progress (with_reducible refine Clock.of_mk ?_ rfl rfl)

theorem fbBell_clock {base : State} {h : Nat} {j : Nat} {ks : List Nat} {s : State} (h_s : Clock base s) :
    Clock base (fbBell h j ks s) := by
  unfold fbBell
  repeat' first
    | with_reducible assumption
    | with_reducible apply fbCycle_clock
    | with_reducible apply fbExchange_clock
    | (intro x
       first
         | (have hx : Clock base x := ?_; clear_value x; on_goal 2 => subst x)
         | clear_value x
         | subst x)
    | intro _
    | lift_lets -underBinder
    | with_reducible refine ite_clock ?_ ?_
    | split
    | dsimp -zeta only
    | fail_if_no_progress (with_reducible refine Clock.of_mk ?_ rfl rfl)

theorem State.updDsv_clock {base : State} {s : State} {n : Nat} {f : DsvRt → DsvRt} (h_s : Clock base s) :
    Clock base (State.updDsv s n f) := by
  unfold State.updDsv
  repeat' first
    | with_reducible assumption
    | intro _
    | fail_if_no_progress (with_reducible refine Clock.of_mk ?_ rfl rfl)

theorem pbKeyFail_clock {base : State} {owner : Nat} {unit : Nat} {last : Option Nat} {status : Nat} {n1 : Nat} {n2 : Nat} {s : State} (h_s : Clock base s) :
    Clock base (pbKeyFail owner unit last status n1 n2 s) := by
  unfold pbKeyFail
  repeat' first
    | with_reducible assumption
    | with_reducible apply record_clock
    | with_reducible refine ite_clock ?_ ?_
    | split

theorem dsvFrame_clock {base : State} {n : Nat} {s : State} (h_s : Clock base s) :
    Clock base (dsvFrame n s) := by
  unfold dsvFrame
  repeat' first
    | with_reducible assumption
    | with_reducible apply takeUse_clock
    | with_reducible apply releaseFrame_clock
    | with_reducible apply State.updDsv_clock
    | with_reducible apply pbKeyFail_clock
    | intro _
    | with_reducible refine ite_clock ?_ ?_
    | split
    | fail_if_no_progress (with_reducible refine Clock.of_mk ?_ rfl rfl)

theorem dsvSample_clock {base : State} {n : Nat} {c : Nat} {d : List (Nat × List (Nat × Smp) × List COut)} {q : BitVec 16} {a : Nat} {s : State} (h_s : Clock base s) :
    Clock base (dsvSample n c d q a s) := by
  unfold dsvSample
  repeat' first
    | with_reducible assumption
    | with_reducible apply State.updDsv_clock
    | with_reducible apply dsvFrame_clock
    | intro _
    | with_reducible refine ite_clock ?_ ?_
    | split
    | fail_if_no_progress (with_reducible refine Clock.of_mk ?_ rfl rfl)

theorem dsvSlot_clock {base : State} {c : Nat} {k : Nat} {d : List (Nat × ChainOut)} {s : State} (h_s : Clock base s) :
    Clock base (dsvSlot c k d s) := by
  unfold dsvSlot
  repeat' first
    | with_reducible assumption
    | with_reducible apply dsvSample_clock
    | with_reducible apply foldl_clock
    | with_reducible apply foldl_clock_fst
    | with_reducible apply foldl_clock_snd
    | intro _

theorem startCore_clock {base : State} {h : Nat} {s : State} (h_s : Clock base s) :
    Clock base (startCore h s) := by
  unfold startCore
  repeat' first
    | with_reducible assumption
    | with_reducible apply State.updCore_clock
    | intro _

theorem startPartition_clock {base : State} {p : Nat} {s : State} (h_s : Clock base s) :
    Clock base (startPartition p s) := by
  unfold startPartition
  repeat' first
    | with_reducible assumption
    | with_reducible apply State.updPart_clock
    | with_reducible apply startCore_clock
    | with_reducible apply foldl_clock
    | with_reducible apply foldl_clock_fst
    | with_reducible apply foldl_clock_snd
    | intro _
    | fail_if_no_progress (with_reducible refine Clock.of_mk ?_ rfl rfl)

theorem startWaiting_clock {base : State} {k : Nat} {s : State} (h_s : Clock base s) :
    Clock base (startWaiting k s) := by
  unfold startWaiting
  repeat' first
    | with_reducible assumption
    | with_reducible apply startPartition_clock
    | with_reducible apply foldl_clock
    | with_reducible apply foldl_clock_fst
    | with_reducible apply foldl_clock_snd
    | intro _
    | with_reducible refine ite_clock ?_ ?_
    | split
    | fail_if_no_progress (with_reducible refine Clock.of_mk ?_ rfl rfl)

theorem returnRestart_clock {base : State} {k : Nat} {s : State} {e : Nat} (h_s : Clock base s) :
    Clock base (returnRestart k s e) := by
  unfold returnRestart
  repeat' first
    | with_reducible assumption
    | with_reducible apply State.updChain_clock
    | with_reducible apply foldl_clock
    | with_reducible apply foldl_clock_fst
    | with_reducible apply foldl_clock_snd
    | intro _
    | with_reducible refine ite_clock ?_ ?_
    | split
    | fail_if_no_progress (with_reducible refine Clock.of_mk ?_ rfl rfl)

theorem closeWork_clock {base : State} {c : Nat} {j : Nat} {acc : State × List SlotWork} {k : Nat} (h_acc : Clock base acc.1) :
    Clock base (closeWork c j acc k).1 := by
  unfold closeWork
  repeat' first
    | with_reducible assumption
    | with_reducible apply closeSlot_clock
    | with_reducible apply chainIntake_clock
    | with_reducible apply surgeTriggers_clock
    | with_reducible apply returnRestart_clock
    | with_reducible apply foldl_clock
    | with_reducible apply foldl_clock_fst
    | with_reducible apply foldl_clock_snd
    | intro _
    | with_reducible refine ite_clock ?_ ?_
    | split

theorem slotReaders_clock {base : State} {c : Nat} {j : Nat} {comb : List Trig} {s : State} {w : SlotWork} (h_s : Clock base s) :
    Clock base (slotReaders c j comb s w) := by
  unfold slotReaders
  repeat' first
    | with_reducible assumption
    | with_reducible apply capSlot_clock
    | with_reducible apply capSurge_clock
    | with_reducible apply phSlot_clock
    | with_reducible apply phDigitals_clock
    | with_reducible apply flSlot_clock
    | with_reducible apply dsvSlot_clock
    | intro _
    | with_reducible refine ite_clock ?_ ?_
    | split
    | fail_if_no_progress (with_reducible refine Clock.of_mk ?_ rfl rfl)

theorem bellRelease_clock {base : State} {h : Nat} {j : Nat} {ks : List Nat} {s : State} (h_s : Clock base s) :
    Clock base (bellRelease h j ks s) := by
  unfold bellRelease
  repeat' first
    | with_reducible assumption
    | with_reducible apply releaseOrOverrun_clock
    | with_reducible apply tickDue_clock
    | with_reducible apply withDispatch_clock
    | with_reducible apply foldl_clock
    | with_reducible apply foldl_clock_fst
    | with_reducible apply foldl_clock_snd
    | intro _

theorem bellEdge_clock {base : State} {c : Nat} {j : Nat} {ks : List Nat} {s : State} (h_s : Clock base s) :
    Clock base (bellEdge c j ks s) := by
  unfold bellEdge
  repeat' first
    | with_reducible assumption
    | with_reducible apply combined_clock
    | with_reducible apply fbBell_clock
    | with_reducible apply closeWork_clock
    | with_reducible apply slotReaders_clock
    | with_reducible apply bellRelease_clock
    | with_reducible apply foldl_clock
    | with_reducible apply foldl_clock_fst
    | with_reducible apply foldl_clock_snd
    | intro _

theorem croftEdge_clock {base : State} {j : Nat} {s : State} {c : Nat} (h_s : Clock base s) :
    Clock base (croftEdge j s c) := by
  unfold croftEdge
  repeat' first
    | with_reducible assumption
    | with_reducible apply bellEdge_clock
    | intro _
    | with_reducible refine ite_clock ?_ ?_
    | split
    | fail_if_no_progress (with_reducible refine Clock.of_mk ?_ rfl rfl)


end Sys2Proof.Machine
end

