-- ==== Sys2Proof/Laws/CoreAccess.lean ====
section
/-! SUPPORT. What the operations of Machine/CoreAccess.lean keep (`Keeps` of Laws/Keeps.lean). -/

set_option linter.all false

namespace Sys2Proof.Machine

theorem coreFault_keeps {base : State} {h : Nat} {t : Trap} {s : State} (h_s : Keeps base s) :
    Keeps base (coreFault h t s) := by
  unfold coreFault
  repeat' first
    | with_reducible assumption
    | with_reducible apply State.updCore_keeps
    | with_reducible apply State.winFault_keeps
    | intro _
    | with_reducible refine ite_keeps ?_ ?_
    | split
    | fail_if_no_progress (with_reducible refine Keeps.of_mk ?_ rfl rfl rfl rfl rfl rfl rfl)

theorem coreLoaded_keeps {base : State} {h : Nat} {v : Nat} {s : State} (h_s : Keeps base s) :
    Keeps base (coreLoaded h v s) := by
  unfold coreLoaded
  repeat' first
    | with_reducible assumption
    | with_reducible apply State.updCore_keeps
    | intro _
    | fail_if_no_progress (with_reducible refine Keeps.of_mk ?_ rfl rfl rfl rfl rfl rfl rfl)

theorem coreDone_keeps {base : State} {h : Nat} {s : State} (h_s : Keeps base s) :
    Keeps base (coreDone h s) := by
  unfold coreDone
  repeat' first
    | with_reducible assumption
    | with_reducible apply State.updCore_keeps
    | intro _
    | fail_if_no_progress (with_reducible refine Keeps.of_mk ?_ rfl rfl rfl rfl rfl rfl rfl)

theorem badDoorbell_keeps {base : State} {p : Nat} {ring : Nat} {s : State} (h_s : Keeps base s) :
    Keeps base (badDoorbell p ring s) := by
  unfold badDoorbell
  repeat' first
    | with_reducible assumption
    | with_reducible apply State.updRing_keeps
    | with_reducible apply State.dbErr_keeps
    | intro _
    | with_reducible refine ite_keeps ?_ ?_
    | split
    | fail_if_no_progress (with_reducible refine Keeps.of_mk ?_ rfl rfl rfl rfl rfl rfl rfl)

theorem doorbell_keeps {base : State} {h : Nat} {p : Nat} {producer : Bool} {w : BitVec 32} {s : State} (h_s : Keeps base s) :
    Keeps base (doorbell h p producer w s) := by
  unfold doorbell
  repeat' first
    | with_reducible assumption
    | with_reducible apply State.updRing_keeps
    | with_reducible apply State.dbErr_keeps
    | with_reducible apply badDoorbell_keeps
    | intro _
    | with_reducible refine ite_keeps ?_ ?_
    | split
    | fail_if_no_progress (with_reducible refine Keeps.of_mk ?_ rfl rfl rfl rfl rfl rfl rfl)

theorem doorbellStore_keeps {base : State} {h : Nat} {page : Nat} {o : Nat} {size : Nat} {v : BitVec 64} {s : State} (h_s : Keeps base s) :
    Keeps base (doorbellStore h page o size v s) := by
  unfold doorbellStore
  repeat' first
    | with_reducible assumption
    | with_reducible apply State.dbErr_keeps
    | with_reducible apply doorbell_keeps
    | with_reducible refine ite_keeps ?_ ?_
    | split

theorem irqPageStore_keeps {base : State} {h : Nat} {o : Nat} {size : Nat} {v : BitVec 64} {s : State} (h_s : Keeps base s) :
    Keeps base (irqPageStore h o size v s) := by
  unfold irqPageStore
  repeat' first
    | with_reducible assumption
    | with_reducible apply State.winFault_keeps
    | with_reducible apply seteipnum_keeps
    | with_reducible refine ite_keeps ?_ ?_
    | split

theorem ioLoad_keeps {base : State} {h : Nat} {a : Nat} {size : Nat} {s : State} (h_s : Keeps base s) :
    Keeps base (ioLoad h a size s) := by
  unfold ioLoad
  repeat' first
    | with_reducible assumption
    | with_reducible apply windowRead_keeps
    | with_reducible apply loadSetup_keeps
    | with_reducible apply coreFault_keeps
    | with_reducible apply coreLoaded_keeps
    | with_reducible refine ite_keeps ?_ ?_
    | split

theorem ioStore_keeps {base : State} {h : Nat} {a : Nat} {size : Nat} {v : BitVec 64} {s : State} (h_s : Keeps base s) :
    Keeps base (ioStore h a size v s) := by
  unfold ioStore
  repeat' first
    | with_reducible assumption
    | with_reducible apply storeSetup_keeps
    | with_reducible apply coreFault_keeps
    | with_reducible apply coreDone_keeps
    | with_reducible apply doorbellStore_keeps
    | with_reducible apply irqPageStore_keeps
    | with_reducible refine ite_keeps ?_ ?_
    | split

theorem memLoad_keeps {base : State} {h : Nat} {a : Nat} {size : Nat} {s : State} (h_s : Keeps base s) :
    Keeps base (memLoad h a size s) := by
  unfold memLoad
  repeat' first
    | with_reducible assumption
    | with_reducible apply coreFault_keeps
    | with_reducible apply coreLoaded_keeps
    | with_reducible apply ioLoad_keeps
    | intro _
    | with_reducible refine ite_keeps ?_ ?_
    | split
    | fail_if_no_progress (with_reducible refine Keeps.of_mk ?_ rfl rfl rfl rfl rfl rfl rfl)

theorem memStore_keeps {base : State} {h : Nat} {a : Nat} {size : Nat} {v : BitVec 64} {s : State} (h_s : Keeps base s) :
    Keeps base (memStore h a size v s) := by
  unfold memStore
  repeat' first
    | exact Keeps.set_dram h_s (fun w => writeMem_wf w (by assumption))
    | with_reducible assumption
    | with_reducible apply coreFault_keeps
    | with_reducible apply coreDone_keeps
    | with_reducible apply ioStore_keeps
    | intro _
    | with_reducible refine ite_keeps ?_ ?_
    | split
    | fail_if_no_progress (with_reducible refine Keeps.of_mk ?_ rfl rfl rfl rfl rfl rfl rfl)

theorem memFetch_keeps {base : State} {h : Nat} {a : Nat} {size : Nat} {s : State} (h_s : Keeps base s) :
    Keeps base (memFetch h a size s) := by
  unfold memFetch
  repeat' first
    | with_reducible assumption
    | with_reducible apply coreFault_keeps
    | with_reducible apply coreLoaded_keeps
    | intro _
    | with_reducible refine ite_keeps ?_ ?_
    | split
    | fail_if_no_progress (with_reducible refine Keeps.of_mk ?_ rfl rfl rfl rfl rfl rfl rfl)

theorem coreAccess_keeps {base : State} {h : Nat} {kind : AccessKind} {a : Nat} {size : Nat} {v : BitVec 64} {s : State} (h_s : Keeps base s) :
    Keeps base (coreAccess h kind a size v s) := by
  unfold coreAccess
  repeat' first
    | with_reducible assumption
    | with_reducible apply csrAccess_keeps
    | with_reducible apply sqnextRead_keeps
    | with_reducible apply memLoad_keeps
    | with_reducible apply memStore_keeps
    | with_reducible apply memFetch_keeps
    | intro _
    | with_reducible refine ite_keeps ?_ ?_
    | split
    | fail_if_no_progress (with_reducible refine Keeps.of_mk ?_ rfl rfl rfl rfl rfl rfl rfl)

theorem setupStore_keeps {base : State} {h : Nat} {a : Nat} {v : BitVec 32} {s : State} (h_s : Keeps base s) :
    Keeps base (setupStore h a v s) := by
  unfold setupStore
  repeat' first
    | with_reducible assumption
    | with_reducible apply ioStore_keeps
    | with_reducible refine ite_keeps ?_ ?_
    | split

end Sys2Proof.Machine
end

