-- ==== Sys2Proof/Laws/SlotEdge.lean ====
section
/-! SUPPORT. What the operations of Machine/SlotEdge.lean keep (`Keeps` of Laws/Keeps.lean). -/

set_option linter.all false

namespace Sys2Proof.Machine

theorem returnRestart_keeps {base : State} {k : Nat} {s : State} {e : Nat} (h_s : Keeps base s) :
    Keeps base (returnRestart k s e) := by
  unfold returnRestart
  repeat' first
    | with_reducible assumption
    | with_reducible apply State.updChain_keeps
    | with_reducible apply foldl_keeps
    | with_reducible apply foldl_keeps_fst
    | with_reducible apply foldl_keeps_snd
    | intro _
    | with_reducible refine ite_keeps ?_ ?_
    | split
    | fail_if_no_progress (with_reducible refine Keeps.of_mk ?_ rfl rfl rfl rfl rfl rfl rfl)

theorem closeWork_keeps {base : State} {c : Nat} {j : Nat} {acc : State × List SlotWork} {k : Nat} (h_acc : Keeps base acc.1) :
    Keeps base (closeWork c j acc k).1 := by
  unfold closeWork
  repeat' first
    | with_reducible assumption
    | with_reducible apply closeSlot_keeps
    | with_reducible apply chainIntake_keeps
    | with_reducible apply surgeTriggers_keeps
    | with_reducible apply returnRestart_keeps
    | with_reducible apply foldl_keeps
    | with_reducible apply foldl_keeps_fst
    | with_reducible apply foldl_keeps_snd
    | intro _
    | with_reducible refine ite_keeps ?_ ?_
    | split

theorem slotReaders_keeps {base : State} {c : Nat} {j : Nat} {comb : List Trig} {s : State} {w : SlotWork} (h_s : Keeps base s) :
    Keeps base (slotReaders c j comb s w) := by
  unfold slotReaders
  repeat' first
    | with_reducible assumption
    | with_reducible apply capSlot_keeps
    | with_reducible apply capSurge_keeps
    | with_reducible apply phSlot_keeps
    | with_reducible apply phDigitals_keeps
    | with_reducible apply flSlot_keeps
    | with_reducible apply dsvSlot_keeps
    | intro _
    | with_reducible refine ite_keeps ?_ ?_
    | split
    | fail_if_no_progress (with_reducible refine Keeps.of_mk ?_ rfl rfl rfl rfl rfl rfl rfl)

theorem bellRelease_keeps {base : State} {h : Nat} {j : Nat} {ks : List Nat} {s : State} (h_s : Keeps base s) :
    Keeps base (bellRelease h j ks s) := by
  unfold bellRelease
  repeat' first
    | with_reducible assumption
    | with_reducible apply releaseOrOverrun_keeps
    | with_reducible apply tickDue_keeps
    | with_reducible apply withDispatch_keeps
    | with_reducible apply foldl_keeps
    | with_reducible apply foldl_keeps_fst
    | with_reducible apply foldl_keeps_snd
    | intro _

theorem bellEdge_keeps {base : State} {c : Nat} {j : Nat} {ks : List Nat} {s : State} (h_s : Keeps base s) :
    Keeps base (bellEdge c j ks s) := by
  unfold bellEdge
  repeat' first
    | with_reducible assumption
    | with_reducible apply combined_keeps
    | with_reducible apply fbBell_keeps
    | with_reducible apply closeWork_keeps
    | with_reducible apply slotReaders_keeps
    | with_reducible apply bellRelease_keeps
    | with_reducible apply foldl_keeps
    | with_reducible apply foldl_keeps_fst
    | with_reducible apply foldl_keeps_snd
    | intro _

theorem croftEdge_keeps {base : State} {j : Nat} {s : State} {c : Nat} (h_s : Keeps base s) :
    Keeps base (croftEdge j s c) := by
  unfold croftEdge
  repeat' first
    | with_reducible assumption
    | with_reducible apply bellEdge_keeps
    | intro _
    | with_reducible refine ite_keeps ?_ ?_
    | split
    | fail_if_no_progress (with_reducible refine Keeps.of_mk ?_ rfl rfl rfl rfl rfl rfl rfl)

theorem txnStepped_keeps {base : State} {j : Nat} {s : State} (h_s : Keeps base s) :
    Keeps base (txnStepped j s) := by
  unfold txnStepped
  repeat' first
    | with_reducible assumption
    | intro _
    | with_reducible refine ite_keeps ?_ ?_
    | split
    | fail_if_no_progress (with_reducible refine Keeps.of_mk ?_ rfl rfl rfl rfl rfl rfl rfl)

theorem stepAtEdge_keeps {base : State} {j : Nat} {s : State} (h_s : Keeps base s) :
    Keeps base (stepAtEdge j s) := by
  unfold stepAtEdge
  repeat' first
    | with_reducible assumption
    | with_reducible apply counterStep_keeps
    | with_reducible apply stepRefuse_keeps
    | with_reducible apply phStepped_keeps
    | with_reducible apply flStepped_keeps
    | with_reducible apply gcbStepped_keeps
    | with_reducible apply txnStepped_keeps
    | with_reducible refine ite_keeps ?_ ?_
    | split

theorem edgeWork_keeps {base s0 : State} (h_s0 : Keeps base s0) : Keeps base (edgeWork s0) := by
  unfold edgeWork
  extract_lets j s tu1 ig1 s1 s2
  have h1 : Keeps base s1 := Keeps.of_eq (State.waitSlot_keeps h_s0) rfl rfl rfl rfl rfl rfl rfl
  have h2 : Keeps base s2 := ite_keeps
    (checkRows_keeps (phEdge_keeps (foldl_keeps h1 (fun a b ha => croftEdge_keeps ha)))) h1
  exact addendLoad_keeps h2

theorem slotEdge_keeps {base s : State} (h_s : Keeps base s) : Keeps base (slotEdge s) :=
  startWaiting_keeps (forceApply_keeps (stepAtEdge_keeps (edgeWork_keeps h_s)))

end Sys2Proof.Machine
end

