-- ==== Sys2Proof/Laws/TimeCmds.lean ====
section
/-! SUPPORT. What the operations of Machine/TimeCmds.lean keep (`Keeps` of Laws/Keeps.lean). -/

set_option linter.all false

namespace Sys2Proof.Machine

theorem byCore_keeps {base : State} {t : Nat} {h : Nat} {f : State → State} {s : State} (h_f : ∀ y0, Keeps base y0 → Keeps base (f y0)) (h_s : Keeps base s) :
    Keeps base (byCore t h f s) := by
  unfold byCore
  repeat' first
    | with_reducible assumption
    | with_reducible apply State.runTo_keeps
    | apply h_f
    | intro _
    | with_reducible refine ite_keeps ?_ ?_
    | split

theorem byBell_keeps {base : State} {t : Nat} {h : Nat} {f : State → State} {s : State} (h_f : ∀ y0, Keeps base y0 → Keeps base (f y0)) (h_s : Keeps base s) :
    Keeps base (byBell t h f s) := by
  unfold byBell
  repeat' first
    | with_reducible assumption
    | with_reducible apply State.runTo_keeps
    | apply h_f
    | intro _
    | with_reducible refine ite_keeps ?_ ?_
    | split

theorem coreStore_keeps {base : State} {t : Nat} {h : Nat} {off : Nat} {v : BitVec 32} {s : State} (h_s : Keeps base s) :
    Keeps base (coreStore t h off v s) := by
  unfold coreStore
  repeat' first
    | with_reducible assumption
    | with_reducible apply setupStore_keeps
    | with_reducible apply byCore_keeps

theorem coreLoad_keeps {base : State} {t : Nat} {h : Nat} {off : Nat} {s : State} (h_s : Keeps base s) :
    Keeps base (coreLoad t h off s) := by
  unfold coreLoad
  repeat' first
    | with_reducible assumption
    | with_reducible apply coreAccess_keeps
    | with_reducible apply byCore_keeps

theorem byPort_keeps {base : State} {t : Nat} {q : Nat} {f : State → State} {s : State} (h_f : ∀ y0, Keeps base y0 → Keeps base (f y0)) (h_s : Keeps base s) :
    Keeps base (byPort t q f s) := by
  unfold byPort
  repeat' first
    | with_reducible assumption
    | with_reducible apply State.runTo_keeps
    | apply h_f
    | intro _
    | with_reducible refine ite_keeps ?_ ?_
    | split

theorem live_keeps {base : State} {f : State → State} {s : State} (h_f : ∀ y0, Keeps base y0 → Keeps base (f y0)) (h_s : Keeps base s) :
    Keeps base (live f s) := by
  unfold live
  repeat' first
    | with_reducible assumption
    | apply h_f
    | intro _
    | with_reducible refine ite_keeps ?_ ?_
    | split

theorem execSlotEdge_next (s : State) : ∃ x, execSlotEdge s = .next x ∧ Keeps s x := by
  unfold execSlotEdge
  refine ⟨_, rfl, ?_⟩
  repeat' first
    | with_reducible assumption
    | with_reducible exact Keeps.refl _
    | with_reducible apply slotEdge_keeps

theorem execTbAddendLoWrite_next (t : Nat) (h : Hearth) (v : BitVec 32) (s : State) : ∃ x, execTbAddendLoWrite t h v s = .next x ∧ Keeps s x := by
  unfold execTbAddendLoWrite
  refine ⟨_, rfl, ?_⟩
  repeat' first
    | with_reducible assumption
    | with_reducible exact Keeps.refl _
    | with_reducible apply coreStore_keeps

theorem execTbAddendHiWrite_next (t : Nat) (h : Hearth) (v : BitVec 32) (s : State) : ∃ x, execTbAddendHiWrite t h v s = .next x ∧ Keeps s x := by
  unfold execTbAddendHiWrite
  refine ⟨_, rfl, ?_⟩
  repeat' first
    | with_reducible assumption
    | with_reducible exact Keeps.refl _
    | with_reducible apply coreStore_keeps

theorem execStep_next (t : Nat) (h : Hearth) (v : BitVec 32) (s : State) : ∃ x, execStep t h v s = .next x ∧ Keeps s x := by
  unfold execStep
  refine ⟨_, rfl, ?_⟩
  repeat' first
    | with_reducible assumption
    | with_reducible exact Keeps.refl _
    | with_reducible apply coreStore_keeps

theorem execTbFwOffsetWrite_next (t : Nat) (h : Hearth) (v : BitVec 32) (s : State) : ∃ x, execTbFwOffsetWrite t h v s = .next x ∧ Keeps s x := by
  unfold execTbFwOffsetWrite
  refine ⟨_, rfl, ?_⟩
  repeat' first
    | with_reducible assumption
    | with_reducible exact Keeps.refl _
    | with_reducible apply lockedCheck_keeps
    | with_reducible apply coreStore_keeps

theorem execTbNow0Read_next (t : Nat) (h : Hearth) (s : State) : ∃ x, execTbNow0Read t h s = .next x ∧ Keeps s x := by
  unfold execTbNow0Read
  refine ⟨_, rfl, ?_⟩
  repeat' first
    | with_reducible assumption
    | with_reducible exact Keeps.refl _
    | with_reducible apply coreLoad_keeps

theorem execTbTsqT3Read_next (t : Nat) (h : Hearth) (s : State) : ∃ x, execTbTsqT3Read t h s = .next x ∧ Keeps s x := by
  unfold execTbTsqT3Read
  refine ⟨_, rfl, ?_⟩
  repeat' first
    | with_reducible assumption
    | with_reducible exact Keeps.refl _
    | with_reducible apply coreLoad_keeps

theorem execRefSwitchTcxo_next (t : Nat) (diff : Int) (s : State) : ∃ x, execRefSwitchTcxo t diff s = .next x ∧ Keeps s x := by
  unfold execRefSwitchTcxo
  refine ⟨_, rfl, ?_⟩
  repeat' first
    | with_reducible assumption
    | with_reducible exact Keeps.refl _
    | with_reducible apply State.runTo_keeps
    | with_reducible apply refToTcxo_keeps

theorem execRefReturnOcxo_next (diff : Int) (s : State) : ∃ x, execRefReturnOcxo diff s = .next x ∧ Keeps s x := by
  unfold execRefReturnOcxo
  refine ⟨_, rfl, ?_⟩
  repeat' first
    | with_reducible assumption
    | with_reducible exact Keeps.refl _
    | with_reducible apply refToOcxo_keeps
    | with_reducible refine ite_keeps ?_ ?_
    | split

theorem execStimecmpInterrupt_next (h : Hearth) (virt : Bool) (cmp : BitVec 64) (s : State) : ∃ x, execStimecmpInterrupt h virt cmp s = .next x ∧ Keeps s x := by
  unfold execStimecmpInterrupt
  refine ⟨_, rfl, ?_⟩
  repeat' first
    | with_reducible assumption
    | with_reducible exact Keeps.refl _
    | with_reducible apply stimecmpAct_keeps
    | with_reducible refine ite_keeps ?_ ?_
    | split

theorem execPtpMessageRx_next (t : Nat) (port : Port) (msg : PtpMsg) (s : State) : ∃ x, execPtpMessageRx t port msg s = .next x ∧ Keeps s x := by
  unfold execPtpMessageRx
  refine ⟨_, rfl, ?_⟩
  repeat' first
    | with_reducible assumption
    | with_reducible exact Keeps.refl _
    | with_reducible apply ptpRx_keeps
    | with_reducible apply lockedCheck_keeps
    | with_reducible apply byPort_keeps
    | intro _

theorem execPtpMessageTx_next (t : Nat) (port : Port) (kind : PtpTxKind) (s : State) : ∃ x, execPtpMessageTx t port kind s = .next x ∧ Keeps s x := by
  unfold execPtpMessageTx
  refine ⟨_, rfl, ?_⟩
  repeat' first
    | with_reducible assumption
    | with_reducible exact Keeps.refl _
    | with_reducible apply ptpTx_keeps
    | with_reducible apply byPort_keeps

theorem execAnnounceReceiptTimeout_next (s : State) : ∃ x, execAnnounceReceiptTimeout s = .next x ∧ Keeps s x := by
  unfold execAnnounceReceiptTimeout
  refine ⟨_, rfl, ?_⟩
  repeat' first
    | with_reducible assumption
    | with_reducible exact Keeps.refl _
    | with_reducible apply announceTimeout_keeps
    | with_reducible apply live_keeps

theorem execSyncReceiptTimeout_next (s : State) : ∃ x, execSyncReceiptTimeout s = .next x ∧ Keeps s x := by
  unfold execSyncReceiptTimeout
  refine ⟨_, rfl, ?_⟩
  repeat' first
    | with_reducible assumption
    | with_reducible exact Keeps.refl _
    | with_reducible apply syncTimeout_keeps
    | with_reducible apply live_keeps

theorem execFwTmoExpiry_next (s : State) : ∃ x, execFwTmoExpiry s = .next x ∧ Keeps s x := by
  unfold execFwTmoExpiry
  refine ⟨_, rfl, ?_⟩
  repeat' first
    | with_reducible assumption
    | with_reducible exact Keeps.refl _
    | with_reducible apply fwTimeout_keeps
    | with_reducible apply live_keeps

theorem execLeapSecond_next (s : State) : ∃ x, execLeapSecond s = .next x ∧ Keeps s x := by
  unfold execLeapSecond
  refine ⟨_, rfl, ?_⟩
  repeat' first
    | with_reducible assumption
    | with_reducible exact Keeps.refl _
    | with_reducible apply leapSecond_keeps
    | with_reducible apply live_keeps

theorem execTtArm_next (t : Nat) (p : PartId) (r : RingNo) (s : State) : ∃ x, execTtArm t p r s = .next x ∧ Keeps s x := by
  unfold execTtArm
  refine ⟨_, rfl, ?_⟩
  repeat' first
    | with_reducible assumption
    | with_reducible exact Keeps.refl _
    | with_reducible apply State.runTo_keeps
    | with_reducible apply withDesc_keeps
    | with_reducible apply ttArmAct_keeps

theorem execTtCancel_next (t : Nat) (p : PartId) (r : RingNo) (s : State) : ∃ x, execTtCancel t p r s = .next x ∧ Keeps s x := by
  unfold execTtCancel
  refine ⟨_, rfl, ?_⟩
  repeat' first
    | with_reducible assumption
    | with_reducible exact Keeps.refl _
    | with_reducible apply State.runTo_keeps
    | with_reducible apply withDesc_keeps
    | with_reducible apply ttCancelAct_keeps

theorem execTtuFiring_next (u : Fin 32) (s : State) : ∃ x, execTtuFiring u s = .next x ∧ Keeps s x := by
  unfold execTtuFiring
  refine ⟨_, rfl, ?_⟩
  repeat' first
    | with_reducible assumption
    | with_reducible exact Keeps.refl _
    | with_reducible apply ttuFiring_keeps
    | with_reducible apply live_keeps

theorem execPpsPulse_next (n : Fin 8) (s : State) : ∃ x, execPpsPulse n s = .next x ∧ Keeps s x := by
  unfold execPpsPulse
  refine ⟨_, rfl, ?_⟩
  repeat' first
    | with_reducible assumption
    | with_reducible exact Keeps.refl _
    | with_reducible apply ppsPulse_keeps
    | with_reducible apply live_keeps

theorem execIrigBFrame_next (n : Fin 8) (s : State) : ∃ x, execIrigBFrame n s = .next x ∧ Keeps s x := by
  unfold execIrigBFrame
  refine ⟨_, rfl, ?_⟩
  repeat' first
    | with_reducible assumption
    | with_reducible exact Keeps.refl _
    | with_reducible apply irigBFrame_keeps
    | with_reducible apply live_keeps

end Sys2Proof.Machine
end

