-- ==== Sys2Proof/Laws/CoreCmds.lean ====
section
/-! SUPPORT. What the operations of Machine/CoreCmds.lean keep (`Keeps` of Laws/Keeps.lean). -/

set_option linter.all false

namespace Sys2Proof.Machine

theorem resetStore_keeps {base : State} {t : Nat} {h : Nat} {v : Nat} {s : State} (h_s : Keeps base s) :
    Keeps base (resetStore t h v s) := by
  unfold resetStore
  repeat' first
    | with_reducible assumption
    | with_reducible apply coreStore_keeps

theorem execModuleReset_next (t : Nat) (h : Hearth) (s : State) : ∃ x, execModuleReset t h s = .next x ∧ Keeps s x := by
  unfold execModuleReset
  refine ⟨_, rfl, ?_⟩
  repeat' first
    | with_reducible assumption
    | with_reducible exact Keeps.refl _
    | with_reducible apply resetStore_keeps

theorem execPartitionReset_next (t : Nat) (h : Hearth) (target : PartId) (s : State) : ∃ x, execPartitionReset t h target s = .next x ∧ Keeps s x := by
  unfold execPartitionReset
  refine ⟨_, rfl, ?_⟩
  repeat' first
    | with_reducible assumption
    | with_reducible exact Keeps.refl _
    | with_reducible apply resetStore_keeps

theorem execHearthReset_next (t : Nat) (h : Hearth) (target : Hearth) (s : State) : ∃ x, execHearthReset t h target s = .next x ∧ Keeps s x := by
  unfold execHearthReset
  refine ⟨_, rfl, ?_⟩
  repeat' first
    | with_reducible assumption
    | with_reducible exact Keeps.refl _
    | with_reducible apply resetStore_keeps

theorem execEngineResetFbe_next (t : Nat) (h : Hearth) (target : Hearth) (s : State) : ∃ x, execEngineResetFbe t h target s = .next x ∧ Keeps s x := by
  unfold execEngineResetFbe
  refine ⟨_, rfl, ?_⟩
  repeat' first
    | with_reducible assumption
    | with_reducible exact Keeps.refl _
    | with_reducible apply resetStore_keeps

theorem execEngineResetLoop_next (t : Nat) (h : Hearth) (target : LoopNo) (s : State) : ∃ x, execEngineResetLoop t h target s = .next x ∧ Keeps s x := by
  unfold execEngineResetLoop
  refine ⟨_, rfl, ?_⟩
  repeat' first
    | with_reducible assumption
    | with_reducible exact Keeps.refl _
    | with_reducible apply resetStore_keeps

theorem execEngineResetCapture_next (t : Nat) (h : Hearth) (target : Fin 144) (s : State) : ∃ x, execEngineResetCapture t h target s = .next x ∧ Keeps s x := by
  unfold execEngineResetCapture
  refine ⟨_, rfl, ?_⟩
  repeat' first
    | with_reducible assumption
    | with_reducible exact Keeps.refl _
    | with_reducible apply resetStore_keeps

theorem execResetEffective_next (s : State) : ∃ x, execResetEffective s = .next x ∧ Keeps s x := by
  unfold execResetEffective
  refine ⟨_, rfl, ?_⟩
  repeat' first
    | with_reducible assumption
    | with_reducible exact Keeps.refl _
    | with_reducible apply resetEffective_keeps
    | with_reducible apply live_keeps

theorem execResetDrainComplete_next (t : Nat) (s : State) : ∃ x, execResetDrainComplete t s = .next x ∧ Keeps s x := by
  unfold execResetDrainComplete
  refine ⟨_, rfl, ?_⟩
  repeat' first
    | with_reducible assumption
    | with_reducible exact Keeps.refl _
    | with_reducible apply State.runTo_keeps
    | with_reducible apply drainComplete_keeps
    | with_reducible apply live_keeps

theorem execSeteipnum_next (t : Nat) (h : Hearth) (target : Hearth) (file : Fin 8) (be : Bool) (v : BitVec 32) (s : State) : ∃ x, execSeteipnum t h target file be v s = .next x ∧ Keeps s x := by
  unfold execSeteipnum
  refine ⟨_, rfl, ?_⟩
  repeat' first
    | with_reducible assumption
    | with_reducible exact Keeps.refl _
    | with_reducible apply seteipnum_keeps
    | with_reducible apply byCore_keeps

theorem execCoreDramAccess_next (t : Nat) (h : Hearth) (kind : AccessKind) (addr : Nat) (size : Nat) (data : BitVec 64) (s : State) : ∃ x, execCoreDramAccess t h kind addr size data s = .next x ∧ Keeps s x := by
  unfold execCoreDramAccess
  refine ⟨_, rfl, ?_⟩
  repeat' first
    | with_reducible assumption
    | with_reducible exact Keeps.refl _
    | with_reducible apply coreAccess_keeps
    | with_reducible apply byCore_keeps

theorem byCsr_keeps {base : State} {t : Nat} {h : Nat} {m : CMode} {f : State → State} {s : State} (h_f : ∀ y0, Keeps base y0 → Keeps base (f y0)) (h_s : Keeps base s) :
    Keeps base (byCsr t h m f s) := by
  unfold byCsr
  repeat' first
    | with_reducible assumption
    | with_reducible apply csrAccess_keeps
    | with_reducible apply byCore_keeps
    | apply h_f
    | intro _

theorem execSqrun_next (t : Nat) (h : Hearth) (m : CMode) (task : Fin 256) (s : State) : ∃ x, execSqrun t h m task s = .next x ∧ Keeps s x := by
  unfold execSqrun
  refine ⟨_, rfl, ?_⟩
  repeat' first
    | with_reducible assumption
    | with_reducible exact Keeps.refl _
    | with_reducible apply withDispatch_keeps
    | with_reducible apply sqrunAct_keeps
    | with_reducible apply byCsr_keeps
    | intro _

theorem execSqrunIdle_next (t : Nat) (h : Hearth) (m : CMode) (s : State) : ∃ x, execSqrunIdle t h m s = .next x ∧ Keeps s x := by
  unfold execSqrunIdle
  refine ⟨_, rfl, ?_⟩
  repeat' first
    | with_reducible assumption
    | with_reducible exact Keeps.refl _
    | with_reducible apply sqrunIdle_keeps
    | with_reducible apply byCsr_keeps

theorem execSqdone_next (t : Nat) (h : Hearth) (m : CMode) (s : State) : ∃ x, execSqdone t h m s = .next x ∧ Keeps s x := by
  unfold execSqdone
  refine ⟨_, rfl, ?_⟩
  repeat' first
    | with_reducible assumption
    | with_reducible exact Keeps.refl _
    | with_reducible apply withDispatch_keeps
    | with_reducible apply sqdoneAct_keeps
    | with_reducible apply byCsr_keeps
    | intro _

theorem execSqpost_next (t : Nat) (h : Hearth) (m : CMode) (tgt : Hearth) (task : Fin 256) (payload : BitVec 32) (s : State) : ∃ x, execSqpost t h m tgt task payload s = .next x ∧ Keeps s x := by
  unfold execSqpost
  refine ⟨_, rfl, ?_⟩
  repeat' first
    | with_reducible assumption
    | with_reducible exact Keeps.refl _
    | with_reducible apply withDispatch_keeps
    | with_reducible apply sqpostAct_keeps
    | with_reducible apply checkRows_keeps
    | with_reducible apply byCsr_keeps
    | intro _

theorem execSqtake_next (t : Nat) (h : Hearth) (m : CMode) (s : State) : ∃ x, execSqtake t h m s = .next x ∧ Keeps s x := by
  unfold execSqtake
  refine ⟨_, rfl, ?_⟩
  repeat' first
    | with_reducible assumption
    | with_reducible exact Keeps.refl _
    | with_reducible apply sqtakeAct_keeps
    | with_reducible apply checkRows_keeps
    | with_reducible apply byCsr_keeps
    | intro _

theorem execDelayListRelease_next (h : Hearth) (s : State) : ∃ x, execDelayListRelease h s = .next x ∧ Keeps s x := by
  unfold execDelayListRelease
  refine ⟨_, rfl, ?_⟩
  repeat' first
    | with_reducible assumption
    | with_reducible exact Keeps.refl _
    | with_reducible apply delayRelease_keeps
    | with_reducible apply live_keeps

theorem execDeadlineMiss_next (h : Hearth) (task : Fin 256) (s : State) : ∃ x, execDeadlineMiss h task s = .next x ∧ Keeps s x := by
  unfold execDeadlineMiss
  refine ⟨_, rfl, ?_⟩
  repeat' first
    | with_reducible assumption
    | with_reducible exact Keeps.refl _
    | with_reducible apply deadlineMiss_keeps
    | with_reducible apply live_keeps

theorem execBudgetOverrun_next (h : Hearth) (s : State) : ∃ x, execBudgetOverrun h s = .next x ∧ Keeps s x := by
  unfold execBudgetOverrun
  refine ⟨_, rfl, ?_⟩
  repeat' first
    | with_reducible assumption
    | with_reducible exact Keeps.refl _
    | with_reducible apply budgetOverrun_keeps
    | with_reducible apply live_keeps

theorem execProducerDoorbell_next (t : Nat) (h : Hearth) (page : PartId) (word : BitVec 32) (s : State) : ∃ x, execProducerDoorbell t h page word s = .next x ∧ Keeps s x := by
  unfold execProducerDoorbell
  refine ⟨_, rfl, ?_⟩
  repeat' first
    | with_reducible assumption
    | with_reducible exact Keeps.refl _
    | with_reducible apply checkRows_keeps
    | with_reducible apply doorbell_keeps
    | with_reducible apply byBell_keeps
    | intro _

theorem execConsumerDoorbell_next (t : Nat) (h : Hearth) (page : PartId) (word : BitVec 32) (s : State) : ∃ x, execConsumerDoorbell t h page word s = .next x ∧ Keeps s x := by
  unfold execConsumerDoorbell
  refine ⟨_, rfl, ?_⟩
  repeat' first
    | with_reducible assumption
    | with_reducible exact Keeps.refl _
    | with_reducible apply checkRows_keeps
    | with_reducible apply doorbell_keeps
    | with_reducible apply byBell_keeps
    | intro _

theorem execNop_next (t : Nat) (p : PartId) (r : RingNo) (s : State) : ∃ x, execNop t p r s = .next x ∧ Keeps s x := by
  unfold execNop
  refine ⟨_, rfl, ?_⟩
  repeat' first
    | with_reducible assumption
    | with_reducible exact Keeps.refl _
    | with_reducible apply State.runTo_keeps
    | with_reducible apply withDesc_keeps
    | with_reducible apply nopAct_keeps

theorem execFence_next (t : Nat) (p : PartId) (r : RingNo) (s : State) : ∃ x, execFence t p r s = .next x ∧ Keeps s x := by
  unfold execFence
  refine ⟨_, rfl, ?_⟩
  repeat' first
    | with_reducible assumption
    | with_reducible exact Keeps.refl _
    | with_reducible apply State.runTo_keeps
    | with_reducible apply withDesc_keeps
    | with_reducible apply fenceAct_keeps

theorem execTxFrame_next (t : Nat) (p : PartId) (r : RingNo) (s : State) : ∃ x, execTxFrame t p r s = .next x ∧ Keeps s x := by
  unfold execTxFrame
  refine ⟨_, rfl, ?_⟩
  repeat' first
    | with_reducible assumption
    | with_reducible exact Keeps.refl _
    | with_reducible apply State.runTo_keeps
    | with_reducible apply withDesc_keeps
    | with_reducible apply txFrameAct_keeps

theorem execRxBuf_next (t : Nat) (p : PartId) (r : RingNo) (s : State) : ∃ x, execRxBuf t p r s = .next x ∧ Keeps s x := by
  unfold execRxBuf
  refine ⟨_, rfl, ?_⟩
  repeat' first
    | with_reducible assumption
    | with_reducible exact Keeps.refl _
    | with_reducible apply State.runTo_keeps
    | with_reducible apply withDesc_keeps
    | with_reducible apply rxBufAct_keeps

theorem txnBeginSend_keeps {base : State} {p : Nat} {r : Nat} {s : State} {f : Flight} (h_s : Keeps base s) :
    Keeps base (txnBeginSend p r s f) := by
  unfold txnBeginSend
  repeat' first
    | with_reducible assumption
    | with_reducible apply txnBeginAct_keeps
    | with_reducible apply deltaSend_keeps
    | with_reducible refine ite_keeps ?_ ?_
    | split

theorem txnCommitSend_keeps {base : State} {p : Nat} {r : Nat} {s : State} {f : Flight} (h_s : Keeps base s) :
    Keeps base (txnCommitSend p r s f) := by
  unfold txnCommitSend
  repeat' first
    | with_reducible assumption
    | with_reducible apply txnCommitAct_keeps
    | with_reducible apply deltaSend_keeps
    | with_reducible refine ite_keeps ?_ ?_
    | split

theorem txnRollbackSend_keeps {base : State} {p : Nat} {r : Nat} {s : State} {f : Flight} (h_s : Keeps base s) :
    Keeps base (txnRollbackSend p r s f) := by
  unfold txnRollbackSend
  repeat' first
    | with_reducible assumption
    | with_reducible apply txnRollbackAct_keeps
    | with_reducible apply deltaSend_keeps
    | with_reducible refine ite_keeps ?_ ?_
    | split

theorem execTxnBegin_next (t : Nat) (p : PartId) (r : RingNo) (s : State) : ∃ x, execTxnBegin t p r s = .next x ∧ Keeps s x := by
  unfold execTxnBegin
  refine ⟨_, rfl, ?_⟩
  repeat' first
    | with_reducible assumption
    | with_reducible exact Keeps.refl _
    | with_reducible apply State.runTo_keeps
    | with_reducible apply withDesc_keeps
    | with_reducible apply txnBeginSend_keeps

theorem execTxnCommit_next (t : Nat) (p : PartId) (r : RingNo) (s : State) : ∃ x, execTxnCommit t p r s = .next x ∧ Keeps s x := by
  unfold execTxnCommit
  refine ⟨_, rfl, ?_⟩
  repeat' first
    | with_reducible assumption
    | with_reducible exact Keeps.refl _
    | with_reducible apply State.runTo_keeps
    | with_reducible apply withDesc_keeps
    | with_reducible apply txnCommitSend_keeps

theorem execTxnRollback_next (t : Nat) (p : PartId) (r : RingNo) (s : State) : ∃ x, execTxnRollback t p r s = .next x ∧ Keeps s x := by
  unfold execTxnRollback
  refine ⟨_, rfl, ?_⟩
  repeat' first
    | with_reducible assumption
    | with_reducible exact Keeps.refl _
    | with_reducible apply State.runTo_keeps
    | with_reducible apply withDesc_keeps
    | with_reducible apply txnRollbackSend_keeps

theorem execStagedWrite_next (t : Nat) (h : Hearth) (addr : Nat) (v : BitVec 32) (s : State) : ∃ x, execStagedWrite t h addr v s = .next x ∧ Keeps s x := by
  unfold execStagedWrite
  refine ⟨_, rfl, ?_⟩
  repeat' first
    | with_reducible assumption
    | with_reducible exact Keeps.refl _
    | with_reducible apply setupStore_keeps
    | with_reducible apply byCore_keeps

theorem execRegisterWrite_next (t : Nat) (h : Hearth) (addr : Nat) (v : BitVec 32) (s : State) : ∃ x, execRegisterWrite t h addr v s = .next x ∧ Keeps s x := by
  unfold execRegisterWrite
  refine ⟨_, rfl, ?_⟩
  repeat' first
    | with_reducible assumption
    | with_reducible exact Keeps.refl _
    | with_reducible apply setupStore_keeps
    | with_reducible apply byCore_keeps

theorem execTxnApply_next (s : State) : ∃ x, execTxnApply s = .next x ∧ Keeps s x := by
  unfold execTxnApply
  refine ⟨_, rfl, ?_⟩
  repeat' first
    | with_reducible assumption
    | with_reducible exact Keeps.refl _
    | with_reducible apply txnApply_keeps
    | with_reducible apply bundleEnd_keeps
    | intro _
    | with_reducible refine ite_keeps ?_ ?_
    | split
    | fail_if_no_progress (with_reducible refine Keeps.of_mk ?_ rfl rfl rfl rfl rfl rfl rfl)

end Sys2Proof.Machine
end

