-- ==== Sys2Proof/Laws/EngineCmds.lean ====
section
/-! SUPPORT. What the operations of Machine/EngineCmds.lean keep (`Keeps` of Laws/Keeps.lean). -/

set_option linter.all false

namespace Sys2Proof.Machine

theorem portFrame_keeps {base : State} {port : Nat} {o : Bytes} {fl : RxFlags} {s : State} (h_s : Keeps base s) :
    Keeps base (portFrame port o fl s) := by
  unfold portFrame
  repeat' first
    | with_reducible assumption
    | with_reducible apply beaconRx_keeps
    | with_reducible apply frameRx_keeps
    | with_reducible apply igFrameRx_keeps
    | with_reducible apply flArrivalMessage_keeps
    | (intro x
       first
         | (have hx : Keeps base x := ?_; clear_value x; on_goal 2 => subst x)
         | clear_value x
         | subst x)
    | intro _
    | lift_lets -underBinder
    | split
    | dsimp -zeta only
    | fail_if_no_progress (with_reducible refine Keeps.of_mk ?_ rfl rfl rfl rfl rfl rfl rfl)

theorem igRow_keeps {base : State} {t : Nat} {port : Nat} {k : IgKind} {o : Bytes} {s : State} (h_s : Keeps base s) :
    Keeps base (igRow t port k o s) := by
  unfold igRow
  repeat' first
    | with_reducible assumption
    | with_reducible apply byPort_keeps
    | with_reducible apply portFrame_keeps
    | intro _
    | with_reducible refine ite_keeps ?_ ?_
    | split

theorem execSvFrame_next (t : Nat) (port : PPort) (octets : List (BitVec 8)) (s : State) : ∃ x, execSvFrame t port octets s = .next x ∧ Keeps s x := by
  unfold execSvFrame
  refine ⟨_, rfl, ?_⟩
  repeat' first
    | with_reducible assumption
    | with_reducible exact Keeps.refl _
    | with_reducible apply igRow_keeps

theorem execGooseFrame_next (t : Nat) (port : PPort) (octets : List (BitVec 8)) (s : State) : ∃ x, execGooseFrame t port octets s = .next x ∧ Keeps s x := by
  unfold execGooseFrame
  refine ⟨_, rfl, ?_⟩
  repeat' first
    | with_reducible assumption
    | with_reducible exact Keeps.refl _
    | with_reducible apply igRow_keeps

theorem execGriuzSurgeFrame_next (t : Nat) (port : PPort) (octets : List (BitVec 8)) (s : State) : ∃ x, execGriuzSurgeFrame t port octets s = .next x ∧ Keeps s x := by
  unfold execGriuzSurgeFrame
  refine ⟨_, rfl, ?_⟩
  repeat' first
    | with_reducible assumption
    | with_reducible exact Keeps.refl _
    | with_reducible apply igRow_keeps

theorem execGriuzArrivalMessage_next (t : Nat) (port : PPort) (octets : List (BitVec 8)) (s : State) : ∃ x, execGriuzArrivalMessage t port octets s = .next x ∧ Keeps s x := by
  unfold execGriuzArrivalMessage
  refine ⟨_, rfl, ?_⟩
  repeat' first
    | with_reducible assumption
    | with_reducible exact Keeps.refl _
    | with_reducible apply igRow_keeps

theorem execPrpSupervisionFrame_next (t : Nat) (port : PPort) (octets : List (BitVec 8)) (s : State) : ∃ x, execPrpSupervisionFrame t port octets s = .next x ∧ Keeps s x := by
  unfold execPrpSupervisionFrame
  refine ⟨_, rfl, ?_⟩
  repeat' first
    | with_reducible assumption
    | with_reducible exact Keeps.refl _
    | with_reducible apply byPort_keeps
    | with_reducible apply portFrame_keeps
    | intro _
    | with_reducible refine ite_keeps ?_ ?_
    | split

theorem execKeyOverlapEnd_next (e : Fin 4096) (s : State) : ∃ x, execKeyOverlapEnd e s = .next x ∧ Keeps s x := by
  unfold execKeyOverlapEnd
  refine ⟨_, rfl, ?_⟩
  repeat' first
    | with_reducible assumption
    | with_reducible exact Keeps.refl _
    | with_reducible apply overlapEnd_keeps
    | with_reducible apply live_keeps

theorem execDuplicateEntryForgotten_next (q : Fin 4) (mac : Nat) (s : State) : ∃ x, execDuplicateEntryForgotten q mac s = .next x ∧ Keeps s x := by
  unfold execDuplicateEntryForgotten
  refine ⟨_, rfl, ?_⟩
  repeat' first
    | with_reducible assumption
    | with_reducible exact Keeps.refl _
    | with_reducible apply dupForget_keeps
    | with_reducible apply live_keeps

theorem execStreamLost_next (e : Fin 4096) (s : State) : ∃ x, execStreamLost e s = .next x ∧ Keeps s x := by
  unfold execStreamLost
  refine ⟨_, rfl, ?_⟩
  repeat' first
    | with_reducible assumption
    | with_reducible exact Keeps.refl _
    | with_reducible apply streamLost_keeps
    | with_reducible apply live_keeps

theorem execGooseTalExpiry_next (e : Fin 4096) (s : State) : ∃ x, execGooseTalExpiry e s = .next x ∧ Keeps s x := by
  unfold execGooseTalExpiry
  refine ⟨_, rfl, ?_⟩
  repeat' first
    | with_reducible assumption
    | with_reducible exact Keeps.refl _
    | with_reducible apply talExpiry_keeps
    | with_reducible apply live_keeps

theorem execChainSettled_next (c : Croft) (ce : Fin 2048) (s : State) : ∃ x, execChainSettled c ce s = .next x ∧ Keeps s x := by
  unfold execChainSettled
  refine ⟨_, rfl, ?_⟩
  repeat' first
    | with_reducible assumption
    | with_reducible exact Keeps.refl _
    | with_reducible apply chainSettled_keeps
    | with_reducible apply live_keeps

theorem execCapArm_next (t : Nat) (p : PartId) (r : RingNo) (s : State) : ∃ x, execCapArm t p r s = .next x ∧ Keeps s x := by
  unfold execCapArm
  refine ⟨_, rfl, ?_⟩
  repeat' first
    | with_reducible assumption
    | with_reducible exact Keeps.refl _
    | with_reducible apply State.runTo_keeps
    | with_reducible apply withDesc_keeps
    | with_reducible apply capArmAct_keeps

theorem execCapAbort_next (t : Nat) (p : PartId) (r : RingNo) (s : State) : ∃ x, execCapAbort t p r s = .next x ∧ Keeps s x := by
  unfold execCapAbort
  refine ⟨_, rfl, ?_⟩
  repeat' first
    | with_reducible assumption
    | with_reducible exact Keeps.refl _
    | with_reducible apply State.runTo_keeps
    | with_reducible apply withDesc_keeps
    | with_reducible apply capAbortAct_keeps
    | intro _

theorem execCapAbortExport_next (t : Nat) (p : PartId) (r : RingNo) (s : State) : ∃ x, execCapAbortExport t p r s = .next x ∧ Keeps s x := by
  unfold execCapAbortExport
  refine ⟨_, rfl, ?_⟩
  repeat' first
    | with_reducible assumption
    | with_reducible exact Keeps.refl _
    | with_reducible apply State.runTo_keeps
    | with_reducible apply withDesc_keeps
    | with_reducible apply capAbortExportAct_keeps
    | intro _

theorem execCapForce_next (t : Nat) (p : PartId) (r : RingNo) (s : State) : ∃ x, execCapForce t p r s = .next x ∧ Keeps s x := by
  unfold execCapForce
  refine ⟨_, rfl, ?_⟩
  repeat' first
    | with_reducible assumption
    | with_reducible exact Keeps.refl _
    | with_reducible apply State.runTo_keeps
    | with_reducible apply withDesc_keeps
    | with_reducible apply capForceAct_keeps

theorem execCapRelease_next (t : Nat) (p : PartId) (r : RingNo) (s : State) : ∃ x, execCapRelease t p r s = .next x ∧ Keeps s x := by
  unfold execCapRelease
  refine ⟨_, rfl, ?_⟩
  repeat' first
    | with_reducible assumption
    | with_reducible exact Keeps.refl _
    | with_reducible apply State.runTo_keeps
    | with_reducible apply withDesc_keeps
    | with_reducible apply capReleaseAct_keeps

theorem execCapExport_next (t : Nat) (p : PartId) (r : RingNo) (s : State) : ∃ x, execCapExport t p r s = .next x ∧ Keeps s x := by
  unfold execCapExport
  refine ⟨_, rfl, ?_⟩
  repeat' first
    | with_reducible assumption
    | with_reducible exact Keeps.refl _
    | with_reducible apply State.runTo_keeps
    | with_reducible apply withDesc_keeps
    | with_reducible apply capExportAct_keeps

theorem execCaptureComplete_next (g : Fin 144) (s : State) : ∃ x, execCaptureComplete g s = .next x ∧ Keeps s x := by
  unfold execCaptureComplete
  refine ⟨_, rfl, ?_⟩
  repeat' first
    | with_reducible assumption
    | with_reducible exact Keeps.refl _
    | with_reducible apply captureComplete_keeps
    | with_reducible apply live_keeps

theorem execPhStreamStart_next (t : Nat) (p : PartId) (r : RingNo) (s : State) : ∃ x, execPhStreamStart t p r s = .next x ∧ Keeps s x := by
  unfold execPhStreamStart
  refine ⟨_, rfl, ?_⟩
  repeat' first
    | with_reducible assumption
    | with_reducible exact Keeps.refl _
    | with_reducible apply State.runTo_keeps
    | with_reducible apply withDesc_keeps
    | with_reducible apply phStreamStartAct_keeps

theorem execPhStreamStop_next (t : Nat) (p : PartId) (r : RingNo) (s : State) : ∃ x, execPhStreamStop t p r s = .next x ∧ Keeps s x := by
  unfold execPhStreamStop
  refine ⟨_, rfl, ?_⟩
  repeat' first
    | with_reducible assumption
    | with_reducible exact Keeps.refl _
    | with_reducible apply State.runTo_keeps
    | with_reducible apply withDesc_keeps
    | with_reducible apply phStreamStopAct_keeps

theorem execPhStreamMark_next (t : Nat) (p : PartId) (r : RingNo) (s : State) : ∃ x, execPhStreamMark t p r s = .next x ∧ Keeps s x := by
  unfold execPhStreamMark
  refine ⟨_, rfl, ?_⟩
  repeat' first
    | with_reducible assumption
    | with_reducible exact Keeps.refl _
    | with_reducible apply State.runTo_keeps
    | with_reducible apply withDesc_keeps
    | with_reducible apply phStreamMarkAct_keeps

theorem execDataFrameBuild_next (n : Fin 64) (s : State) : ∃ x, execDataFrameBuild n s = .next x ∧ Keeps s x := by
  unfold execDataFrameBuild
  refine ⟨_, rfl, ?_⟩
  repeat' first
    | with_reducible assumption
    | with_reducible exact Keeps.refl _
    | with_reducible apply dataFrameBuild_keeps
    | with_reducible apply live_keeps

theorem execDetectorArmed_next (l : Fin 32) (s : State) : ∃ x, execDetectorArmed l s = .next x ∧ Keeps s x := by
  unfold execDetectorArmed
  refine ⟨_, rfl, ?_⟩
  repeat' first
    | with_reducible assumption
    | with_reducible exact Keeps.refl _
    | with_reducible apply detectorArmed_keeps
    | with_reducible apply live_keeps

theorem execArrivalsSend_next (l : Fin 32) (s : State) : ∃ x, execArrivalsSend l s = .next x ∧ Keeps s x := by
  unfold execArrivalsSend
  refine ⟨_, rfl, ?_⟩
  repeat' first
    | with_reducible assumption
    | with_reducible exact Keeps.refl _
    | with_reducible apply arrivalsSend_keeps
    | with_reducible apply live_keeps

theorem execPhasorsSend_next (l : Fin 32) (s : State) : ∃ x, execPhasorsSend l s = .next x ∧ Keeps s x := by
  unfold execPhasorsSend
  refine ⟨_, rfl, ?_⟩
  repeat' first
    | with_reducible assumption
    | with_reducible exact Keeps.refl _
    | with_reducible apply phasorsSend_keeps
    | with_reducible apply live_keeps

theorem execMessageRepeat_next (l : Fin 32) (s : State) : ∃ x, execMessageRepeat l s = .next x ∧ Keeps s x := by
  unfold execMessageRepeat
  refine ⟨_, rfl, ?_⟩
  repeat' first
    | with_reducible assumption
    | with_reducible exact Keeps.refl _
    | with_reducible apply messageRepeat_keeps
    | with_reducible apply live_keeps

theorem execRemoteWaitExpiry_next (l : Fin 32) (s : State) : ∃ x, execRemoteWaitExpiry l s = .next x ∧ Keeps s x := by
  unfold execRemoteWaitExpiry
  refine ⟨_, rfl, ?_⟩
  repeat' first
    | with_reducible assumption
    | with_reducible exact Keeps.refl _
    | with_reducible apply remoteWait_keeps
    | with_reducible apply live_keeps

theorem execSeImp_next (l : Fin 32) (s : State) : ∃ x, execSeImp l s = .next x ∧ Keeps s x := by
  unfold execSeImp
  refine ⟨_, rfl, ?_⟩
  repeat' first
    | with_reducible assumption
    | with_reducible exact Keeps.refl _
    | with_reducible apply seImp_keeps
    | with_reducible apply live_keeps

theorem execEventClose_next (l : Fin 32) (s : State) : ∃ x, execEventClose l s = .next x ∧ Keeps s x := by
  unfold execEventClose
  refine ⟨_, rfl, ?_⟩
  repeat' first
    | with_reducible assumption
    | with_reducible exact Keeps.refl _
    | with_reducible apply eventClose_keeps
    | with_reducible apply live_keeps

theorem execHandOff_next (h : Hearth) (s : State) : ∃ x, execHandOff h s = .next x ∧ Keeps s x := by
  unfold execHandOff
  refine ⟨_, rfl, ?_⟩
  repeat' first
    | with_reducible assumption
    | with_reducible exact Keeps.refl _
    | with_reducible apply handOff_keeps
    | with_reducible apply live_keeps

theorem execProgramExchange_next (h : Hearth) (s : State) : ∃ x, execProgramExchange h s = .next x ∧ Keeps s x := by
  unfold execProgramExchange
  refine ⟨_, rfl, ?_⟩
  repeat' first
    | with_reducible assumption
    | with_reducible exact Keeps.refl _
    | with_reducible apply programExchange_keeps
    | with_reducible apply live_keeps

theorem execFbLoad_next (t : Nat) (p : PartId) (r : RingNo) (s : State) : ∃ x, execFbLoad t p r s = .next x ∧ Keeps s x := by
  unfold execFbLoad
  refine ⟨_, rfl, ?_⟩
  repeat' first
    | with_reducible assumption
    | with_reducible exact Keeps.refl _
    | with_reducible apply State.runTo_keeps
    | with_reducible apply withDesc_keeps
    | with_reducible apply fbLoadAct_keeps

theorem execFbCmdRun_next (t : Nat) (p : PartId) (r : RingNo) (s : State) : ∃ x, execFbCmdRun t p r s = .next x ∧ Keeps s x := by
  unfold execFbCmdRun
  refine ⟨_, rfl, ?_⟩
  repeat' first
    | with_reducible assumption
    | with_reducible exact Keeps.refl _
    | with_reducible apply State.runTo_keeps
    | with_reducible apply withDesc_keeps
    | with_reducible apply fbCmdAct_keeps

theorem execFbCmdStop_next (t : Nat) (p : PartId) (r : RingNo) (s : State) : ∃ x, execFbCmdStop t p r s = .next x ∧ Keeps s x := by
  unfold execFbCmdStop
  refine ⟨_, rfl, ?_⟩
  repeat' first
    | with_reducible assumption
    | with_reducible exact Keeps.refl _
    | with_reducible apply State.runTo_keeps
    | with_reducible apply withDesc_keeps
    | with_reducible apply fbCmdAct_keeps

theorem execFbCmdHold_next (t : Nat) (p : PartId) (r : RingNo) (s : State) : ∃ x, execFbCmdHold t p r s = .next x ∧ Keeps s x := by
  unfold execFbCmdHold
  refine ⟨_, rfl, ?_⟩
  repeat' first
    | with_reducible assumption
    | with_reducible exact Keeps.refl _
    | with_reducible apply State.runTo_keeps
    | with_reducible apply withDesc_keeps
    | with_reducible apply fbCmdAct_keeps

theorem execFbCmdStep_next (t : Nat) (p : PartId) (r : RingNo) (s : State) : ∃ x, execFbCmdStep t p r s = .next x ∧ Keeps s x := by
  unfold execFbCmdStep
  refine ⟨_, rfl, ?_⟩
  repeat' first
    | with_reducible assumption
    | with_reducible exact Keeps.refl _
    | with_reducible apply State.runTo_keeps
    | with_reducible apply withDesc_keeps
    | with_reducible apply fbCmdAct_keeps

theorem execFbCmdTestOn_next (t : Nat) (p : PartId) (r : RingNo) (s : State) : ∃ x, execFbCmdTestOn t p r s = .next x ∧ Keeps s x := by
  unfold execFbCmdTestOn
  refine ⟨_, rfl, ?_⟩
  repeat' first
    | with_reducible assumption
    | with_reducible exact Keeps.refl _
    | with_reducible apply State.runTo_keeps
    | with_reducible apply withDesc_keeps
    | with_reducible apply fbCmdAct_keeps

theorem execFbCmdTestOff_next (t : Nat) (p : PartId) (r : RingNo) (s : State) : ∃ x, execFbCmdTestOff t p r s = .next x ∧ Keeps s x := by
  unfold execFbCmdTestOff
  refine ⟨_, rfl, ?_⟩
  repeat' first
    | with_reducible assumption
    | with_reducible exact Keeps.refl _
    | with_reducible apply State.runTo_keeps
    | with_reducible apply withDesc_keeps
    | with_reducible apply fbCmdAct_keeps

theorem execFbForce_next (t : Nat) (p : PartId) (r : RingNo) (s : State) : ∃ x, execFbForce t p r s = .next x ∧ Keeps s x := by
  unfold execFbForce
  refine ⟨_, rfl, ?_⟩
  repeat' first
    | with_reducible assumption
    | with_reducible exact Keeps.refl _
    | with_reducible apply State.runTo_keeps
    | with_reducible apply withDesc_keeps
    | with_reducible apply fbForceAct_keeps
    | intro _

theorem execFbForceRelease_next (t : Nat) (p : PartId) (r : RingNo) (s : State) : ∃ x, execFbForceRelease t p r s = .next x ∧ Keeps s x := by
  unfold execFbForceRelease
  refine ⟨_, rfl, ?_⟩
  repeat' first
    | with_reducible assumption
    | with_reducible exact Keeps.refl _
    | with_reducible apply State.runTo_keeps
    | with_reducible apply withDesc_keeps
    | with_reducible apply fbForceAct_keeps
    | intro _

theorem execFbPeek_next (t : Nat) (p : PartId) (r : RingNo) (s : State) : ∃ x, execFbPeek t p r s = .next x ∧ Keeps s x := by
  unfold execFbPeek
  refine ⟨_, rfl, ?_⟩
  repeat' first
    | with_reducible assumption
    | with_reducible exact Keeps.refl _
    | with_reducible apply State.runTo_keeps
    | with_reducible apply withDesc_keeps
    | with_reducible apply fbPeekAct_keeps

theorem execFbPoke_next (t : Nat) (p : PartId) (r : RingNo) (s : State) : ∃ x, execFbPoke t p r s = .next x ∧ Keeps s x := by
  unfold execFbPoke
  refine ⟨_, rfl, ?_⟩
  repeat' first
    | with_reducible assumption
    | with_reducible exact Keeps.refl _
    | with_reducible apply State.runTo_keeps
    | with_reducible apply withDesc_keeps
    | with_reducible apply fbPokeAct_keeps

theorem execFbLoadComplete_next (t : Nat) (h : Hearth) (s : State) : ∃ x, execFbLoadComplete t h s = .next x ∧ Keeps s x := by
  unfold execFbLoadComplete
  refine ⟨_, rfl, ?_⟩
  repeat' first
    | with_reducible assumption
    | with_reducible exact Keeps.refl _
    | with_reducible apply State.runTo_keeps
    | with_reducible apply fbLoadComplete_keeps
    | with_reducible apply live_keeps

theorem execImageAcknowledged_next (t : Nat) (h : Hearth) (s : State) : ∃ x, execImageAcknowledged t h s = .next x ∧ Keeps s x := by
  unfold execImageAcknowledged
  refine ⟨_, rfl, ?_⟩
  repeat' first
    | with_reducible assumption
    | with_reducible exact Keeps.refl _
    | with_reducible apply State.runTo_keeps
    | with_reducible apply imageAcknowledged_keeps
    | with_reducible apply live_keeps

theorem execGooseRetransmission_next (gcb : Fin 2048) (s : State) : ∃ x, execGooseRetransmission gcb s = .next x ∧ Keeps s x := by
  unfold execGooseRetransmission
  refine ⟨_, rfl, ?_⟩
  repeat' first
    | with_reducible assumption
    | with_reducible exact Keeps.refl _
    | with_reducible apply gooseRetransmission_keeps
    | with_reducible apply live_keeps

theorem execLoopRelease_next (l : LoopNo) (s : State) : ∃ x, execLoopRelease l s = .next x ∧ Keeps s x := by
  unfold execLoopRelease
  refine ⟨_, rfl, ?_⟩
  repeat' first
    | with_reducible assumption
    | with_reducible exact Keeps.refl _
    | with_reducible apply loopRelease_keeps
    | with_reducible apply live_keeps

theorem execMissLimit_next (l : LoopNo) (s : State) : ∃ x, execMissLimit l s = .next x ∧ Keeps s x := by
  unfold execMissLimit
  refine ⟨_, rfl, ?_⟩
  repeat' first
    | with_reducible assumption
    | with_reducible exact Keeps.refl _
    | with_reducible apply missLimit_keeps
    | with_reducible apply live_keeps

theorem execLaneReload_next (g : Lane) (s : State) : ∃ x, execLaneReload g s = .next x ∧ Keeps s x := by
  unfold execLaneReload
  refine ⟨_, rfl, ?_⟩
  repeat' first
    | with_reducible assumption
    | with_reducible exact Keeps.refl _
    | with_reducible apply laneReload_keeps
    | with_reducible apply live_keeps

theorem execLaneCompare_next (g : Lane) (n : Fin 2) (s : State) : ∃ x, execLaneCompare g n s = .next x ∧ Keeps s x := by
  unfold execLaneCompare
  refine ⟨_, rfl, ?_⟩
  repeat' first
    | with_reducible assumption
    | with_reducible exact Keeps.refl _
    | with_reducible apply laneCompare_keeps
    | with_reducible apply live_keeps

theorem execBlockInputAssert_next (t : Nat) (b : Fin 4) (s : State) : ∃ x, execBlockInputAssert t b s = .next x ∧ Keeps s x := by
  unfold execBlockInputAssert
  refine ⟨_, rfl, ?_⟩
  repeat' first
    | with_reducible assumption
    | with_reducible exact Keeps.refl _
    | with_reducible apply State.runTo_keeps
    | with_reducible apply blockAssert_keeps

theorem execBlockInputRelease_next (t : Nat) (b : Fin 4) (s : State) : ∃ x, execBlockInputRelease t b s = .next x ∧ Keeps s x := by
  unfold execBlockInputRelease
  refine ⟨_, rfl, ?_⟩
  repeat' first
    | with_reducible assumption
    | with_reducible exact Keeps.refl _
    | with_reducible apply State.runTo_keeps
    | with_reducible apply blockRelease_keeps

theorem execGlForceGo_next (t : Nat) (h : Hearth) (v : BitVec 32) (s : State) : ∃ x, execGlForceGo t h v s = .next x ∧ Keeps s x := by
  unfold execGlForceGo
  refine ⟨_, rfl, ?_⟩
  repeat' first
    | with_reducible assumption
    | with_reducible exact Keeps.refl _
    | with_reducible apply coreStore_keeps

end Sys2Proof.Machine
end

