-- ==== Sys2Proof/Laws/Float.lean ====
section
/-! SUPPORT. The NaN of a REAL result (Machine/Float.lean, log 5). -/

namespace Sys2Proof.Machine

/-- A word with exponent all ones and a fraction that is not 0 reads as a NaN. -/
theorem ofBits_nan_field (x y : Nat) (h2 : y < 8388607) (h1 : x < 4294967296) :
    FV.ofBits f32 ((x / 2147483648 * 2147483648 + 2139095041 + y) % 4294967296) = .nan := by
  have e : (x / 2147483648 * 2147483648 + 2139095041 + y) % 4294967296 = x / 2147483648 * 2147483648 + 2139095041 + y := by omega
  rw [e]
  have e2 : (x / 2147483648 * 2147483648 + 2139095041 + y) / 8388608 % 256 = 255 := by omega
  have e3 : (x / 2147483648 * 2147483648 + 2139095041 + y) % 8388608 ≠ 0 := by omega
  generalize x / 2147483648 * 2147483648 + 2139095041 + y = z at *
  have p1 : (2 : Nat) ^ (f32.p - 1) = 8388608 := rfl
  have p2 : (2 : Nat) ^ f32.eb = 256 := rfl
  simp only [FV.ofBits, p1, p2, e2]
  rw [if_pos trivial, if_neg e3]

/-- Whatever the open bits, the NaN that a REAL result stores is read as a NaN (R224, R225). -/
theorem real_nanWord : real nanWord = .nan := by
  have h1 := Config.nanBits.isLt
  unfold real nanWord
  rw [BitVec.toNat_ofNat]
  generalize Config.nanBits.toNat = x at *
  exact ofBits_nan_field x _ (Nat.mod_lt _ (Nat.zero_lt_succ _)) h1

end Sys2Proof.Machine
end

