-- ==== Sys2Proof/Laws/PortCmds.lean ====
section
/-! SUPPORT. What the operations of Machine/PortCmds.lean keep (`Keeps` of Laws/Keeps.lean). -/

set_option linter.all false

namespace Sys2Proof.Machine

theorem execFrameTxStart_next (t : Nat) (port : Port) (s : State) : ∃ x, execFrameTxStart t port s = .next x ∧ Keeps s x := by
  unfold execFrameTxStart
  refine ⟨_, rfl, ?_⟩
  repeat' first
    | with_reducible assumption
    | with_reducible exact Keeps.refl _
    | with_reducible apply checkRows_keeps
    | with_reducible apply frameTxStart_keeps
    | with_reducible apply byPort_keeps
    | intro _

theorem execFrameTxComplete_next (t : Nat) (port : Port) (s : State) : ∃ x, execFrameTxComplete t port s = .next x ∧ Keeps s x := by
  unfold execFrameTxComplete
  refine ⟨_, rfl, ?_⟩
  repeat' first
    | with_reducible assumption
    | with_reducible exact Keeps.refl _
    | with_reducible apply checkRows_keeps
    | with_reducible apply frameTxComplete_keeps
    | with_reducible apply byPort_keeps
    | intro _

theorem execFrameRx_next (t : Nat) (port : Port) (octets : List (BitVec 8)) (flags : RxFlags) (s : State) : ∃ x, execFrameRx t port octets flags s = .next x ∧ Keeps s x := by
  unfold execFrameRx
  refine ⟨_, rfl, ?_⟩
  repeat' first
    | with_reducible assumption
    | with_reducible exact Keeps.refl _
    | with_reducible apply byPort_keeps
    | with_reducible apply portFrame_keeps

theorem execFrameDelivery_next (t : Nat) (s : State) : ∃ x, execFrameDelivery t s = .next x ∧ Keeps s x := by
  unfold execFrameDelivery
  refine ⟨_, rfl, ?_⟩
  repeat' first
    | with_reducible assumption
    | with_reducible exact Keeps.refl _
    | with_reducible apply State.runTo_keeps
    | with_reducible apply checkRows_keeps
    | with_reducible apply frameDelivery_keeps
    | with_reducible apply live_keeps
    | intro _

theorem execFollowUpTimeout_next (k : Nat) (s : State) : ∃ x, execFollowUpTimeout k s = .next x ∧ Keeps s x := by
  unfold execFollowUpTimeout
  refine ⟨_, rfl, ?_⟩
  repeat' first
    | with_reducible assumption
    | with_reducible exact Keeps.refl _
    | with_reducible apply checkRows_keeps
    | with_reducible apply followUpTimeout_keeps
    | with_reducible apply live_keeps
    | intro _

theorem execLinkLoss_next (t : Nat) (port : Port) (receiving : Bool) (s : State) : ∃ x, execLinkLoss t port receiving s = .next x ∧ Keeps s x := by
  unfold execLinkLoss
  refine ⟨_, rfl, ?_⟩
  repeat' first
    | with_reducible assumption
    | with_reducible exact Keeps.refl _
    | with_reducible apply checkRows_keeps
    | with_reducible apply linkLoss_keeps
    | with_reducible apply byPort_keeps
    | intro _

theorem execLinkUp_next (t : Nat) (port : Port) (speed : Fin 8) (half : Bool) (s : State) : ∃ x, execLinkUp t port speed half s = .next x ∧ Keeps s x := by
  unfold execLinkUp
  refine ⟨_, rfl, ?_⟩
  repeat' first
    | with_reducible assumption
    | with_reducible exact Keeps.refl _
    | with_reducible apply linkUp_keeps
    | with_reducible apply byPort_keeps

theorem execHoldExpiry_next (port : Port) (s : State) : ∃ x, execHoldExpiry port s = .next x ∧ Keeps s x := by
  unfold execHoldExpiry
  refine ⟨_, rfl, ?_⟩
  repeat' first
    | with_reducible assumption
    | with_reducible exact Keeps.refl _
    | with_reducible apply checkRows_keeps
    | with_reducible apply holdExpiry_keeps
    | with_reducible apply live_keeps
    | intro _

theorem execCollision_next (t : Nat) (port : Port) (late : Bool) (s : State) : ∃ x, execCollision t port late s = .next x ∧ Keeps s x := by
  unfold execCollision
  refine ⟨_, rfl, ?_⟩
  repeat' first
    | with_reducible assumption
    | with_reducible exact Keeps.refl _
    | with_reducible apply checkRows_keeps
    | with_reducible apply collision_keeps
    | with_reducible apply byPort_keeps
    | intro _

theorem execBackoffExpiry_next (port : Port) (s : State) : ∃ x, execBackoffExpiry port s = .next x ∧ Keeps s x := by
  unfold execBackoffExpiry
  refine ⟨_, rfl, ?_⟩
  repeat' first
    | with_reducible assumption
    | with_reducible exact Keeps.refl _
    | with_reducible apply backoffExpiry_keeps
    | with_reducible apply live_keeps

theorem execVerifyTimeout_next (port : Port) (s : State) : ∃ x, execVerifyTimeout port s = .next x ∧ Keeps s x := by
  unfold execVerifyTimeout
  refine ⟨_, rfl, ?_⟩
  repeat' first
    | with_reducible assumption
    | with_reducible exact Keeps.refl _
    | with_reducible apply verifyTimeout_keeps
    | with_reducible apply live_keeps

theorem execPause_next (t : Nat) (port : Port) (quanta : Fin 65536) (s : State) : ∃ x, execPause t port quanta s = .next x ∧ Keeps s x := by
  unfold execPause
  refine ⟨_, rfl, ?_⟩
  repeat' first
    | with_reducible assumption
    | with_reducible exact Keeps.refl _
    | with_reducible apply pauseRx_keeps
    | with_reducible apply byPort_keeps

theorem execPfc_next (t : Nat) (port : Port) (vec : Fin 256) (times : List Nat) (s : State) : ∃ x, execPfc t port vec times s = .next x ∧ Keeps s x := by
  unfold execPfc
  refine ⟨_, rfl, ?_⟩
  repeat' first
    | with_reducible assumption
    | with_reducible exact Keeps.refl _
    | with_reducible apply pfcRx_keeps
    | with_reducible apply byPort_keeps

theorem execPauseExpiry_next (port : Port) (s : State) : ∃ x, execPauseExpiry port s = .next x ∧ Keeps s x := by
  unfold execPauseExpiry
  refine ⟨_, rfl, ?_⟩
  repeat' first
    | with_reducible assumption
    | with_reducible exact Keeps.refl _
    | with_reducible apply pauseExpiry_keeps
    | with_reducible apply live_keeps

theorem execPreemptionVerificationRx_next (t : Nat) (port : Port) (kind : VerifyKind) (s : State) : ∃ x, execPreemptionVerificationRx t port kind s = .next x ∧ Keeps s x := by
  unfold execPreemptionVerificationRx
  refine ⟨_, rfl, ?_⟩
  repeat' first
    | with_reducible assumption
    | with_reducible exact Keeps.refl _
    | with_reducible apply verifyRx_keeps
    | with_reducible apply byPort_keeps

theorem opticsTest_keeps {base : State} {q : Nat} {s : State} (h_s : Keeps base s) :
    Keeps base (opticsTest q s) := by
  unfold opticsTest
  repeat' first
    | with_reducible assumption
    | with_reducible apply selftest_keeps
    | intro _
    | with_reducible refine ite_keeps ?_ ?_
    | split

theorem execOpticsPoll_next (t : Nat) (port : Port) (reading : Option (List (BitVec 8))) (s : State) : ∃ x, execOpticsPoll t port reading s = .next x ∧ Keeps s x := by
  unfold execOpticsPoll
  refine ⟨_, rfl, ?_⟩
  repeat' first
    | with_reducible assumption
    | with_reducible exact Keeps.refl _
    | with_reducible apply opticsPoll_keeps
    | with_reducible apply byPort_keeps
    | with_reducible apply opticsTest_keeps
    | intro _

theorem execTransceiverInsertion_next (t : Nat) (port : Port) (a0 : List (BitVec 8)) (a2 : List (BitVec 8)) (s : State) : ∃ x, execTransceiverInsertion t port a0 a2 s = .next x ∧ Keeps s x := by
  unfold execTransceiverInsertion
  refine ⟨_, rfl, ?_⟩
  repeat' first
    | with_reducible assumption
    | with_reducible exact Keeps.refl _
    | with_reducible apply State.runTo_keeps
    | with_reducible apply transceiverIn_keeps

theorem execTransceiverRemoval_next (t : Nat) (port : Port) (s : State) : ∃ x, execTransceiverRemoval t port s = .next x ∧ Keeps s x := by
  unfold execTransceiverRemoval
  refine ⟨_, rfl, ?_⟩
  repeat' first
    | with_reducible assumption
    | with_reducible exact Keeps.refl _
    | with_reducible apply State.runTo_keeps
    | with_reducible apply transceiverOut_keeps

theorem keySend_keeps {base : State} {before : State} {x : State} (h_x : Keeps base x) :
    Keeps base (keySend before x) := by
  unfold keySend
  repeat' first
    | with_reducible assumption
    | with_reducible apply deltaSend_keeps
    | intro _
    | with_reducible refine ite_keeps ?_ ?_
    | split
    | fail_if_no_progress (with_reducible refine Keeps.of_mk ?_ rfl rfl rfl rfl rfl rfl rfl)

theorem execKeyDerive_next (t : Nat) (p : PartId) (r : RingNo) (s : State) : ∃ x, execKeyDerive t p r s = .next x ∧ Keeps s x := by
  unfold execKeyDerive
  refine ⟨_, rfl, ?_⟩
  repeat' first
    | with_reducible assumption
    | with_reducible exact Keeps.refl _
    | with_reducible apply State.runTo_keeps
    | with_reducible apply withDesc_keeps
    | with_reducible apply keyDeriveAct_keeps
    | with_reducible apply keySend_keeps
    | intro _

theorem execKeyImport_next (t : Nat) (p : PartId) (r : RingNo) (s : State) : ∃ x, execKeyImport t p r s = .next x ∧ Keeps s x := by
  unfold execKeyImport
  refine ⟨_, rfl, ?_⟩
  repeat' first
    | with_reducible assumption
    | with_reducible exact Keeps.refl _
    | with_reducible apply State.runTo_keeps
    | with_reducible apply withDesc_keeps
    | with_reducible apply keyImportAct_keeps
    | with_reducible apply keySend_keeps
    | intro _

theorem execKeyExport_next (t : Nat) (p : PartId) (r : RingNo) (s : State) : ∃ x, execKeyExport t p r s = .next x ∧ Keeps s x := by
  unfold execKeyExport
  refine ⟨_, rfl, ?_⟩
  repeat' first
    | with_reducible assumption
    | with_reducible exact Keeps.refl _
    | with_reducible apply State.runTo_keeps
    | with_reducible apply withDesc_keeps
    | with_reducible apply keyExportAct_keeps

theorem execKeyRevoke_next (t : Nat) (p : PartId) (r : RingNo) (s : State) : ∃ x, execKeyRevoke t p r s = .next x ∧ Keeps s x := by
  unfold execKeyRevoke
  refine ⟨_, rfl, ?_⟩
  repeat' first
    | with_reducible assumption
    | with_reducible exact Keeps.refl _
    | with_reducible apply State.runTo_keeps
    | with_reducible apply withDesc_keeps
    | with_reducible apply keyRevokeAct_keeps
    | with_reducible apply keySend_keeps
    | intro _

theorem execKeyApplication_next (s : State) : ∃ x, execKeyApplication s = .next x ∧ Keeps s x := by
  unfold execKeyApplication
  refine ⟨_, rfl, ?_⟩
  repeat' first
    | with_reducible assumption
    | with_reducible exact Keeps.refl _
    | with_reducible apply keyApplication_keeps
    | with_reducible apply deltaSend_keeps
    | with_reducible apply checkRows_keeps
    | intro _
    | with_reducible refine ite_keeps ?_ ?_
    | split
    | fail_if_no_progress (with_reducible refine Keeps.of_mk ?_ rfl rfl rfl rfl rfl rfl rfl)

theorem execKeyMac_next (t : Nat) (p : PartId) (r : RingNo) (s : State) : ∃ x, execKeyMac t p r s = .next x ∧ Keeps s x := by
  unfold execKeyMac
  refine ⟨_, rfl, ?_⟩
  repeat' first
    | with_reducible assumption
    | with_reducible exact Keeps.refl _
    | with_reducible apply State.runTo_keeps
    | with_reducible apply withDesc_keeps
    | with_reducible apply keyMacAct_keeps

theorem execKeyAead_next (t : Nat) (p : PartId) (r : RingNo) (s : State) : ∃ x, execKeyAead t p r s = .next x ∧ Keeps s x := by
  unfold execKeyAead
  refine ⟨_, rfl, ?_⟩
  repeat' first
    | with_reducible assumption
    | with_reducible exact Keeps.refl _
    | with_reducible apply State.runTo_keeps
    | with_reducible apply withDesc_keeps
    | with_reducible apply keyAeadAct_keeps
    | intro _

theorem execKeyAeadDecrypt_next (t : Nat) (p : PartId) (r : RingNo) (s : State) : ∃ x, execKeyAeadDecrypt t p r s = .next x ∧ Keeps s x := by
  unfold execKeyAeadDecrypt
  refine ⟨_, rfl, ?_⟩
  repeat' first
    | with_reducible assumption
    | with_reducible exact Keeps.refl _
    | with_reducible apply State.runTo_keeps
    | with_reducible apply withDesc_keeps
    | with_reducible apply keyAeadAct_keeps
    | intro _

theorem execKeySign_next (t : Nat) (p : PartId) (r : RingNo) (s : State) : ∃ x, execKeySign t p r s = .next x ∧ Keeps s x := by
  unfold execKeySign
  refine ⟨_, rfl, ?_⟩
  repeat' first
    | with_reducible assumption
    | with_reducible exact Keeps.refl _
    | with_reducible apply State.runTo_keeps
    | with_reducible apply withDesc_keeps
    | with_reducible apply keySignAct_keeps

theorem execKeyPub_next (t : Nat) (p : PartId) (r : RingNo) (s : State) : ∃ x, execKeyPub t p r s = .next x ∧ Keeps s x := by
  unfold execKeyPub
  refine ⟨_, rfl, ?_⟩
  repeat' first
    | with_reducible assumption
    | with_reducible exact Keeps.refl _
    | with_reducible apply State.runTo_keeps
    | with_reducible apply withDesc_keeps
    | with_reducible apply keyPubAct_keeps

theorem execKeyInfo_next (t : Nat) (p : PartId) (r : RingNo) (s : State) : ∃ x, execKeyInfo t p r s = .next x ∧ Keeps s x := by
  unfold execKeyInfo
  refine ⟨_, rfl, ?_⟩
  repeat' first
    | with_reducible assumption
    | with_reducible exact Keeps.refl _
    | with_reducible apply State.runTo_keeps
    | with_reducible apply withDesc_keeps
    | with_reducible apply keyInfoAct_keeps

theorem execLcRequest_next (t : Nat) (p : PartId) (r : RingNo) (s : State) : ∃ x, execLcRequest t p r s = .next x ∧ Keeps s x := by
  unfold execLcRequest
  refine ⟨_, rfl, ?_⟩
  repeat' first
    | with_reducible assumption
    | with_reducible exact Keeps.refl _
    | with_reducible apply State.runTo_keeps
    | with_reducible apply withDesc_keeps
    | with_reducible apply lcRequestAct_keeps

theorem execKeyUseComplete_next (t : Nat) (use : Nat) (s : State) : ∃ x, execKeyUseComplete t use s = .next x ∧ Keeps s x := by
  unfold execKeyUseComplete
  refine ⟨_, rfl, ?_⟩
  repeat' first
    | with_reducible assumption
    | with_reducible exact Keeps.refl _
    | with_reducible apply State.runTo_keeps
    | with_reducible apply keyUseComplete_keeps
    | with_reducible apply checkRows_keeps
    | with_reducible apply live_keeps
    | intro _

theorem execFuseProgrammingComplete_next (t : Nat) (s : State) : ∃ x, execFuseProgrammingComplete t s = .next x ∧ Keeps s x := by
  unfold execFuseProgrammingComplete
  refine ⟨_, rfl, ?_⟩
  repeat' first
    | with_reducible assumption
    | with_reducible exact Keeps.refl _
    | with_reducible apply State.runTo_keeps
    | with_reducible apply fuseComplete_keeps
    | with_reducible apply live_keeps

theorem execTamper_next (t : Nat) (src : Fin 5) (s : State) : ∃ x, execTamper t src s = .next x ∧ Keeps s x := by
  unfold execTamper
  refine ⟨_, rfl, ?_⟩
  repeat' first
    | with_reducible assumption
    | with_reducible exact Keeps.refl _
    | with_reducible apply State.runTo_keeps
    | with_reducible apply tamperEdge_keeps
    | with_reducible apply selftest_keeps
    | with_reducible refine ite_keeps ?_ ?_
    | split

theorem execOkTamperWrite_next (t : Nat) (h : Hearth) (v : BitVec 32) (s : State) : ∃ x, execOkTamperWrite t h v s = .next x ∧ Keeps s x := by
  unfold execOkTamperWrite
  refine ⟨_, rfl, ?_⟩
  repeat' first
    | with_reducible assumption
    | with_reducible exact Keeps.refl _
    | with_reducible apply coreStore_keeps

theorem execTamperSourceClear_next (t : Nat) (src : Fin 5) (s : State) : ∃ x, execTamperSourceClear t src s = .next x ∧ Keeps s x := by
  unfold execTamperSourceClear
  refine ⟨_, rfl, ?_⟩
  repeat' first
    | with_reducible assumption
    | with_reducible exact Keeps.refl _
    | with_reducible apply State.runTo_keeps
    | with_reducible apply tamperSourceClear_keeps

end Sys2Proof.Machine
end

