-- ==== Sys2Proof/Laws/PairCmds.lean ====
section
/-! SUPPORT. What the operations of Machine/PairCmds.lean keep (`Keeps` of Laws/Keeps.lean). -/

set_option linter.all false

namespace Sys2Proof.Machine

theorem byPair_keeps {base : State} {t : Nat} {f : State → State} {s : State} (h_f : ∀ y0, Keeps base y0 → Keeps base (f y0)) (h_s : Keeps base s) :
    Keeps base (byPair t f s) := by
  unfold byPair
  repeat' first
    | with_reducible assumption
    | with_reducible apply State.runTo_keeps
    | apply h_f
    | intro _
    | with_reducible refine ite_keeps ?_ ?_
    | split

theorem whenPair_keeps {base : State} {f : State → State} {s : State} (h_f : ∀ y0, Keeps base y0 → Keeps base (f y0)) (h_s : Keeps base s) :
    Keeps base (whenPair f s) := by
  unfold whenPair
  repeat' first
    | with_reducible assumption
    | apply h_f
    | intro _
    | with_reducible refine ite_keeps ?_ ?_
    | split

theorem execHeartbeatSend_next (t : Nat) (s : State) : ∃ x, execHeartbeatSend t s = .next x ∧ Keeps s x := by
  unfold execHeartbeatSend
  refine ⟨_, rfl, ?_⟩
  repeat' first
    | with_reducible assumption
    | with_reducible exact Keeps.refl _
    | with_reducible apply heartbeatSend_keeps
    | with_reducible apply byPair_keeps

theorem execHeartbeatRx_next (t : Nat) (port : Fin 2) (hb : Heartbeat) (s : State) : ∃ x, execHeartbeatRx t port hb s = .next x ∧ Keeps s x := by
  unfold execHeartbeatRx
  refine ⟨_, rfl, ?_⟩
  repeat' first
    | with_reducible assumption
    | with_reducible exact Keeps.refl _
    | with_reducible apply heartbeatRx_keeps
    | with_reducible apply byPair_keeps

theorem execBeaconSend_next (t : Nat) (port : PPort) (s : State) : ∃ x, execBeaconSend t port s = .next x ∧ Keeps s x := by
  unfold execBeaconSend
  refine ⟨_, rfl, ?_⟩
  repeat' first
    | with_reducible assumption
    | with_reducible exact Keeps.refl _
    | with_reducible apply beaconSend_keeps
    | with_reducible apply byPair_keeps

theorem execBeaconRx_next (t : Nat) (port : PPort) (beacon : Beacon) (s : State) : ∃ x, execBeaconRx t port beacon s = .next x ∧ Keeps s x := by
  unfold execBeaconRx
  refine ⟨_, rfl, ?_⟩
  repeat' first
    | with_reducible assumption
    | with_reducible exact Keeps.refl _
    | with_reducible apply beaconRx_keeps
    | with_reducible apply byPair_keeps
    | intro _
    | with_reducible refine ite_keeps ?_ ?_
    | split

theorem execHeartbeatWindowExpiry_next (s : State) : ∃ x, execHeartbeatWindowExpiry s = .next x ∧ Keeps s x := by
  unfold execHeartbeatWindowExpiry
  refine ⟨_, rfl, ?_⟩
  repeat' first
    | with_reducible assumption
    | with_reducible exact Keeps.refl _
    | with_reducible apply hbExpiry_keeps
    | with_reducible apply whenPair_keeps

theorem execBeaconWindowExpiry_next (s : State) : ∃ x, execBeaconWindowExpiry s = .next x ∧ Keeps s x := by
  unfold execBeaconWindowExpiry
  refine ⟨_, rfl, ?_⟩
  repeat' first
    | with_reducible assumption
    | with_reducible exact Keeps.refl _
    | with_reducible apply bcnExpiry_keeps
    | with_reducible apply whenPair_keeps

theorem outputsResume_keeps {base : State} {t16 : Nat} {s : State} (h_s : Keeps base s) :
    Keeps base (outputsResume t16 s) := by
  unfold outputsResume
  repeat' first
    | with_reducible assumption
    | with_reducible apply lanesHold_keeps
    | with_reducible apply releaseHeld_keeps
    | with_reducible apply gcbResume_keeps

theorem execTakeover_next (s : State) : ∃ x, execTakeover s = .next x ∧ Keeps s x := by
  unfold execTakeover
  refine ⟨_, rfl, ?_⟩
  repeat' first
    | with_reducible assumption
    | with_reducible exact Keeps.refl _
    | with_reducible apply takeover_keeps
    | with_reducible apply step9_keeps
    | with_reducible apply whenPair_keeps
    | with_reducible apply outputsResume_keeps
    | intro _

theorem execNegotiationEnd_next (s : State) : ∃ x, execNegotiationEnd s = .next x ∧ Keeps s x := by
  unfold execNegotiationEnd
  refine ⟨_, rfl, ?_⟩
  repeat' first
    | with_reducible assumption
    | with_reducible exact Keeps.refl _
    | with_reducible apply negotiated_keeps
    | with_reducible apply live_keeps

theorem execStateDeltaItem_next (t : Nat) (item : DeltaItem) (s : State) : ∃ x, execStateDeltaItem t item s = .next x ∧ Keeps s x := by
  unfold execStateDeltaItem
  refine ⟨_, rfl, ?_⟩
  repeat' first
    | with_reducible assumption
    | with_reducible exact Keeps.refl _
    | with_reducible apply stateDeltaItem_keeps
    | with_reducible apply byPair_keeps

theorem execDecisionRecord_next (t : Nat) (record : Decision) (s : State) : ∃ x, execDecisionRecord t record s = .next x ∧ Keeps s x := by
  unfold execDecisionRecord
  refine ⟨_, rfl, ?_⟩
  repeat' first
    | with_reducible assumption
    | with_reducible exact Keeps.refl _
    | with_reducible apply record_keeps
    | with_reducible apply decisionRx_keeps
    | with_reducible apply byPair_keeps

theorem execCounterpartTimeout_next (s : State) : ∃ x, execCounterpartTimeout s = .next x ∧ Keeps s x := by
  unfold execCounterpartTimeout
  refine ⟨_, rfl, ?_⟩
  repeat' first
    | with_reducible assumption
    | with_reducible exact Keeps.refl _
    | with_reducible apply counterpartTimeout_keeps
    | with_reducible apply whenPair_keeps

theorem execConfirmation_next (t : Nat) (id : FrameId) (s : State) : ∃ x, execConfirmation t id s = .next x ∧ Keeps s x := by
  unfold execConfirmation
  refine ⟨_, rfl, ?_⟩
  repeat' first
    | with_reducible assumption
    | with_reducible exact Keeps.refl _
    | with_reducible apply settleFrame_keeps
    | with_reducible apply byPair_keeps

theorem execResyncRequest_next (t : Nat) (s : State) : ∃ x, execResyncRequest t s = .next x ∧ Keeps s x := by
  unfold execResyncRequest
  refine ⟨_, rfl, ?_⟩
  repeat' first
    | with_reducible assumption
    | with_reducible exact Keeps.refl _
    | with_reducible apply resyncRequest_keeps
    | with_reducible apply byPair_keeps
    | intro _

theorem execResyncSnapshot_next (s : State) : ∃ x, execResyncSnapshot s = .next x ∧ Keeps s x := by
  unfold execResyncSnapshot
  refine ⟨_, rfl, ?_⟩
  repeat' first
    | with_reducible assumption
    | with_reducible exact Keeps.refl _
    | with_reducible apply resyncSnapshot_keeps
    | with_reducible apply whenPair_keeps

theorem execResyncStateApply_next (t : Nat) (snap : Snap) (s : State) : ∃ x, execResyncStateApply t snap s = .next x ∧ Keeps s x := by
  unfold execResyncStateApply
  refine ⟨_, rfl, ?_⟩
  repeat' first
    | with_reducible assumption
    | with_reducible exact Keeps.refl _
    | with_reducible apply resyncStateApply_keeps
    | with_reducible apply byPair_keeps

theorem execSynced_next (s : State) : ∃ x, execSynced s = .next x ∧ Keeps s x := by
  unfold execSynced
  refine ⟨_, rfl, ?_⟩
  repeat' first
    | with_reducible assumption
    | with_reducible exact Keeps.refl _
    | with_reducible apply synced_keeps
    | with_reducible apply whenPair_keeps

theorem execPrSwitch_next (t : Nat) (h : Hearth) (v : BitVec 32) (s : State) : ∃ x, execPrSwitch t h v s = .next x ∧ Keeps s x := by
  unfold execPrSwitch
  refine ⟨_, rfl, ?_⟩
  repeat' first
    | with_reducible assumption
    | with_reducible exact Keeps.refl _
    | with_reducible apply coreStore_keeps

theorem execRevertHoldoff_next (s : State) : ∃ x, execRevertHoldoff s = .next x ∧ Keeps s x := by
  unfold execRevertHoldoff
  refine ⟨_, rfl, ?_⟩
  repeat' first
    | with_reducible assumption
    | with_reducible exact Keeps.refl _
    | with_reducible apply revertHoldoff_keeps
    | with_reducible apply whenPair_keeps

theorem execSwitch_next (t : Nat) (at_ : Nat) (s : State) : ∃ x, execSwitch t at_ s = .next x ∧ Keeps s x := by
  unfold execSwitch
  refine ⟨_, rfl, ?_⟩
  repeat' first
    | with_reducible assumption
    | with_reducible exact Keeps.refl _
    | with_reducible apply switchRx_keeps
    | with_reducible apply byPair_keeps

theorem execSwitchAcknowledged_next (t : Nat) (s : State) : ∃ x, execSwitchAcknowledged t s = .next x ∧ Keeps s x := by
  unfold execSwitchAcknowledged
  refine ⟨_, rfl, ?_⟩
  repeat' first
    | with_reducible assumption
    | with_reducible exact Keeps.refl _
    | with_reducible apply switchAcked_keeps
    | with_reducible apply byPair_keeps

theorem execGo_next (s : State) : ∃ x, execGo s = .next x ∧ Keeps s x := by
  unfold execGo
  refine ⟨_, rfl, ?_⟩
  repeat' first
    | with_reducible assumption
    | with_reducible exact Keeps.refl _
    | with_reducible apply goAct_keeps
    | with_reducible apply whenPair_keeps

theorem execGoAck_next (t : Nat) (s : State) : ∃ x, execGoAck t s = .next x ∧ Keeps s x := by
  unfold execGoAck
  refine ⟨_, rfl, ?_⟩
  repeat' first
    | with_reducible assumption
    | with_reducible exact Keeps.refl _
    | with_reducible apply goAckRx_keeps
    | with_reducible apply byPair_keeps

theorem execGoReceived_next (t : Nat) (s : State) : ∃ x, execGoReceived t s = .next x ∧ Keeps s x := by
  unfold execGoReceived
  refine ⟨_, rfl, ?_⟩
  repeat' first
    | with_reducible assumption
    | with_reducible exact Keeps.refl _
    | with_reducible apply goRx_keeps
    | with_reducible apply byPair_keeps

theorem execSwitchover_next (s : State) : ∃ x, execSwitchover s = .next x ∧ Keeps s x := by
  unfold execSwitchover
  refine ⟨_, rfl, ?_⟩
  repeat' first
    | with_reducible assumption
    | with_reducible exact Keeps.refl _
    | with_reducible apply switchover_keeps
    | with_reducible apply lanesHold_keeps
    | with_reducible apply whenPair_keeps
    | with_reducible apply outputsResume_keeps
    | (intro x
       first
         | (have hx : Keeps s x := ?_; clear_value x; on_goal 2 => subst x)
         | clear_value x
         | subst x)
    | intro _
    | lift_lets -underBinder
    | dsimp -zeta only

theorem execSelftest_next (t : Nat) (test : Fin 8) (fatal : Bool) (detail : BitVec 32) (s : State) : ∃ x, execSelftest t test fatal detail s = .next x ∧ Keeps s x := by
  unfold execSelftest
  refine ⟨_, rfl, ?_⟩
  repeat' first
    | with_reducible assumption
    | with_reducible exact Keeps.refl _
    | with_reducible apply State.runTo_keeps
    | with_reducible apply selftest_keeps
    | with_reducible apply live_keeps

theorem execHealth_next (s : State) : ∃ x, execHealth s = .next x ∧ Keeps s x := by
  unfold execHealth
  refine ⟨_, rfl, ?_⟩
  repeat' first
    | with_reducible assumption
    | with_reducible exact Keeps.refl _
    | with_reducible apply health_keeps
    | with_reducible apply live_keeps

theorem execStWrite_next (t : Nat) (p : PartId) (r : RingNo) (s : State) : ∃ x, execStWrite t p r s = .next x ∧ Keeps s x := by
  unfold execStWrite
  refine ⟨_, rfl, ?_⟩
  repeat' first
    | with_reducible assumption
    | with_reducible exact Keeps.refl _
    | with_reducible apply State.runTo_keeps
    | with_reducible apply withDesc_keeps
    | with_reducible apply stWriteAct_keeps

theorem execStRead_next (t : Nat) (p : PartId) (r : RingNo) (s : State) : ∃ x, execStRead t p r s = .next x ∧ Keeps s x := by
  unfold execStRead
  refine ⟨_, rfl, ?_⟩
  repeat' first
    | with_reducible assumption
    | with_reducible exact Keeps.refl _
    | with_reducible apply State.runTo_keeps
    | with_reducible apply withDesc_keeps
    | with_reducible apply stReadAct_keeps

theorem execStDelete_next (t : Nat) (p : PartId) (r : RingNo) (s : State) : ∃ x, execStDelete t p r s = .next x ∧ Keeps s x := by
  unfold execStDelete
  refine ⟨_, rfl, ?_⟩
  repeat' first
    | with_reducible assumption
    | with_reducible exact Keeps.refl _
    | with_reducible apply State.runTo_keeps
    | with_reducible apply withDesc_keeps
    | with_reducible apply stDeleteAct_keeps

theorem execStList_next (t : Nat) (p : PartId) (r : RingNo) (s : State) : ∃ x, execStList t p r s = .next x ∧ Keeps s x := by
  unfold execStList
  refine ⟨_, rfl, ?_⟩
  repeat' first
    | with_reducible assumption
    | with_reducible exact Keeps.refl _
    | with_reducible apply State.runTo_keeps
    | with_reducible apply withDesc_keeps
    | with_reducible apply stListAct_keeps

theorem execStAbort_next (t : Nat) (p : PartId) (r : RingNo) (s : State) : ∃ x, execStAbort t p r s = .next x ∧ Keeps s x := by
  unfold execStAbort
  refine ⟨_, rfl, ?_⟩
  repeat' first
    | with_reducible assumption
    | with_reducible exact Keeps.refl _
    | with_reducible apply State.runTo_keeps
    | with_reducible apply withDesc_keeps
    | with_reducible apply stAbortAct_keeps

theorem execStTallyClear_next (t : Nat) (p : PartId) (r : RingNo) (s : State) : ∃ x, execStTallyClear t p r s = .next x ∧ Keeps s x := by
  unfold execStTallyClear
  refine ⟨_, rfl, ?_⟩
  repeat' first
    | with_reducible assumption
    | with_reducible exact Keeps.refl _
    | with_reducible apply State.runTo_keeps
    | with_reducible apply withDesc_keeps
    | with_reducible apply stTallyClearAct_keeps

theorem stored_keeps {base : State} {f : State → State} {s : State} (h_f : ∀ y0, Keeps base y0 → Keeps base (f y0)) (h_s : Keeps base s) :
    Keeps base (stored f s) := by
  unfold stored
  repeat' first
    | with_reducible assumption
    | apply h_f
    | intro _
    | with_reducible refine ite_keeps ?_ ?_
    | split

theorem execJournalCommit_next (t : Nat) (op : Nat) (fails : Nat) (s : State) : ∃ x, execJournalCommit t op fails s = .next x ∧ Keeps s x := by
  unfold execJournalCommit
  refine ⟨_, rfl, ?_⟩
  repeat' first
    | with_reducible assumption
    | with_reducible exact Keeps.refl _
    | with_reducible apply State.runTo_keeps
    | with_reducible apply journalCommit_keeps
    | with_reducible apply checkRows_keeps
    | with_reducible apply exportDone_keeps
    | with_reducible apply stored_keeps
    | intro _

theorem execStReadComplete_next (t : Nat) (read : Nat) (s : State) : ∃ x, execStReadComplete t read s = .next x ∧ Keeps s x := by
  unfold execStReadComplete
  refine ⟨_, rfl, ?_⟩
  repeat' first
    | with_reducible assumption
    | with_reducible exact Keeps.refl _
    | with_reducible apply State.runTo_keeps
    | with_reducible apply stReadComplete_keeps
    | with_reducible apply stored_keeps

theorem execEraseComplete_next (t : Nat) (blk : Nat) (ok : Bool) (s : State) : ∃ x, execEraseComplete t blk ok s = .next x ∧ Keeps s x := by
  unfold execEraseComplete
  refine ⟨_, rfl, ?_⟩
  repeat' first
    | with_reducible assumption
    | with_reducible exact Keeps.refl _
    | with_reducible apply State.runTo_keeps
    | with_reducible apply eraseComplete_keeps
    | with_reducible apply checkRows_keeps
    | with_reducible apply stored_keeps
    | intro _

theorem execWearLevelingMove_next (t : Nat) (s : State) : ∃ x, execWearLevelingMove t s = .next x ∧ Keeps s x := by
  unfold execWearLevelingMove
  refine ⟨_, rfl, ?_⟩
  repeat' first
    | with_reducible assumption
    | with_reducible exact Keeps.refl _
    | with_reducible apply State.runTo_keeps
    | with_reducible apply wearMove_keeps
    | with_reducible apply live_keeps

theorem execBackgroundScrub_next (t : Nat) (blk : Nat) (codeword : Nat) (corrected : Nat) (s : State) : ∃ x, execBackgroundScrub t blk codeword corrected s = .next x ∧ Keeps s x := by
  unfold execBackgroundScrub
  refine ⟨_, rfl, ?_⟩
  repeat' first
    | with_reducible assumption
    | with_reducible exact Keeps.refl _
    | with_reducible apply State.runTo_keeps
    | with_reducible apply scrub_keeps
    | with_reducible apply live_keeps

theorem execTyEvent_next (t : Nat) (h : Hearth) (v : BitVec 32) (s : State) : ∃ x, execTyEvent t h v s = .next x ∧ Keeps s x := by
  unfold execTyEvent
  refine ⟨_, rfl, ?_⟩
  repeat' first
    | with_reducible assumption
    | with_reducible exact Keeps.refl _
    | with_reducible apply coreStore_keeps

theorem execTallyWindowRead_next (t : Nat) (h : Hearth) (off : Nat) (size : Nat) (s : State) : ∃ x, execTallyWindowRead t h off size s = .next x ∧ Keeps s x := by
  unfold execTallyWindowRead
  refine ⟨_, rfl, ?_⟩
  repeat' first
    | with_reducible assumption
    | with_reducible exact Keeps.refl _
    | with_reducible apply State.runTo_keeps
    | with_reducible apply coreAccess_keeps
    | with_reducible apply byCore_keeps
    | with_reducible refine ite_keeps ?_ ?_
    | split

theorem execHours16Advance_next (s : State) : ∃ x, execHours16Advance s = .next x ∧ Keeps s x := by
  unfold execHours16Advance
  refine ⟨_, rfl, ?_⟩
  repeat' first
    | with_reducible assumption
    | with_reducible exact Keeps.refl _
    | with_reducible apply hoursAdvance_keeps

theorem execFeedPresent_next (t : Nat) (feed : Fin 2) (cls : Fin 16) (s : State) : ∃ x, execFeedPresent t feed cls s = .next x ∧ Keeps s x := by
  unfold execFeedPresent
  refine ⟨_, rfl, ?_⟩
  repeat' first
    | with_reducible assumption
    | with_reducible exact Keeps.refl _
    | with_reducible apply State.runTo_keeps
    | with_reducible apply feedPresent_keeps

theorem execFeedLoss_next (t : Nat) (feed : Fin 2) (s : State) : ∃ x, execFeedLoss t feed s = .next x ∧ Keeps s x := by
  unfold execFeedLoss
  refine ⟨_, rfl, ?_⟩
  repeat' first
    | with_reducible assumption
    | with_reducible exact Keeps.refl _
    | with_reducible apply State.runTo_keeps
    | with_reducible apply feedLoss_keeps

theorem execHoldupChange_next (t : Nat) (ok : Bool) (s : State) : ∃ x, execHoldupChange t ok s = .next x ∧ Keeps s x := by
  unfold execHoldupChange
  refine ⟨_, rfl, ?_⟩
  repeat' first
    | with_reducible assumption
    | with_reducible exact Keeps.refl _
    | with_reducible apply State.runTo_keeps
    | with_reducible apply holdupChange_keeps

theorem execSupercapacitorLow_next (t : Nat) (s : State) : ∃ x, execSupercapacitorLow t s = .next x ∧ Keeps s x := by
  unfold execSupercapacitorLow
  refine ⟨_, rfl, ?_⟩
  repeat' first
    | with_reducible assumption
    | with_reducible exact Keeps.refl _
    | with_reducible apply State.runTo_keeps
    | with_reducible apply supercapLow_keeps

theorem execShutdownExpiry_next (s : State) : ∃ x, execShutdownExpiry s = .next x ∧ Keeps s x := by
  unfold execShutdownExpiry
  refine ⟨_, rfl, ?_⟩
  repeat' first
    | with_reducible assumption
    | with_reducible exact Keeps.refl _
    | with_reducible apply shutdownExpiry_keeps

theorem execDomainBistComplete_next (t : Nat) (domain : Fin 12) (pass : Bool) (s : State) : ∃ x, execDomainBistComplete t domain pass s = .next x ∧ Keeps s x := by
  unfold execDomainBistComplete
  refine ⟨_, rfl, ?_⟩
  repeat' first
    | with_reducible assumption
    | with_reducible exact Keeps.refl _
    | with_reducible apply State.pass_keeps
    | with_reducible apply State.runTo_keeps
    | with_reducible apply domainBistComplete_keeps

theorem execTimeWaitExpiry_next (s : State) : ∃ x, execTimeWaitExpiry s = .next x ∧ Keeps s x := by
  unfold execTimeWaitExpiry
  refine ⟨_, rfl, ?_⟩
  repeat' first
    | with_reducible assumption
    | with_reducible exact Keeps.refl _
    | with_reducible apply timeWaitExpiry_keeps
    | with_reducible apply live_keeps

theorem execHaltRetry_next (s : State) : ∃ x, execHaltRetry s = .next x ∧ Keeps s x := by
  unfold execHaltRetry
  refine ⟨_, rfl, ?_⟩
  repeat' first
    | with_reducible assumption
    | with_reducible exact Keeps.refl _
    | with_reducible apply haltRetry_keeps

theorem execSupervisorModuleReset_next (t : Nat) (s : State) : ∃ x, execSupervisorModuleReset t s = .next x ∧ Keeps s x := by
  unfold execSupervisorModuleReset
  refine ⟨_, rfl, ?_⟩
  repeat' first
    | with_reducible assumption
    | with_reducible exact Keeps.refl _
    | with_reducible apply State.runTo_keeps
    | with_reducible apply moduleReset_keeps

end Sys2Proof.Machine
end

