-- ==== Sys2Proof/Laws/Settings.lean ====
section
/-! SUPPORT. What the application of a commit does around the staged keys leaves every register alone but the partitions' own
selectors (R347, R478). -/

set_option Elab.async false

set_option linter.all false

namespace Sys2Proof.Machine

/-- State b has the settings of state a: every register but a partition's own selector reads the same. -/
structure Settings (a b : State) : Prop where
  get : ∀ k, (regInfo (k / 65536)).all (fun i => i.sel != .own) = true → Tbl.get 0 b.regs k = Tbl.get 0 a.regs k

theorem Settings.refl (s : State) : Settings s s := ⟨fun _ _ => rfl⟩

theorem Settings.of_mk {a x : State}
    {f_pending : List Instr}
    {f_tb : TbState}
    {f_tu : TbUnits}
    {f_ptp : PtpState}
    {f_regs : Tbl (BitVec 32)}
    {f_dram : List Host.Cell}
    {f_pt : PtState}
    {f_files : Tbl IFile}
    {f_cores : Tbl CoreSt}
    {f_db : DbState}
    {f_tx : TxState}
    {f_sq : SqState}
    {f_pw : PwState}
    {f_st : StState}
    {f_ty : TyState}
    {f_ok : OkState}
    {f_pr : PrState}
    {f_pu : PrRun}
    {f_snap : Option Snap}
    {f_gn : GnState}
    {f_mc : McState}
    {f_ig : IgState}
    {f_fc : FcState}
    {f_tg : TgState}
    {f_ph : PhState}
    {f_fl : FlState}
    {f_fb : FbState}
    {f_pb : PbState}
    {f_lp : LpState}
    {f_draws : Nat}
    (h : Settings a x) (h1 : f_regs = x.regs) :
    Settings a (State.mk f_pending f_tb f_tu f_ptp f_regs f_dram f_pt f_files f_cores f_db f_tx f_sq f_pw f_st f_ty f_ok f_pr f_pu f_snap f_gn f_mc f_ig f_fc f_tg f_ph f_fl f_fb f_pb f_lp f_draws) :=
  ⟨fun k hk => h1 ▸ h.get k hk⟩

/-- Reading a table from which entries of other keys were dropped. -/
theorem Tbl.get_filter {β : Type} (d : β) (q : Nat × β → Bool) (t : Tbl β) (k : Nat) (hq : ∀ v, q (k, v) = true) :
    Tbl.get d (t.filter q) k = Tbl.get d t k := by
  induction t with
  | nil => rfl
  | cons e r ih =>
    obtain ⟨a, w⟩ := e
    rw [List.filter_cons]
    by_cases hk : k = a
    · subst hk; simp [hq, Tbl.get]
    · split
      · simp [Tbl.get, hk, ih]
      · simp [Tbl.get, hk, ih]

theorem optPair_settings {base s1 : State} {x : Option State × State} (h : (∀ y, x.1 = some y → Settings base y) ∧ Settings base x.2)
    (e : x.1 = some s1) : Settings base s1 := h.1 s1 e

theorem optPair_settings_snd {base : State} {x : Option State × State} (h : (∀ y, x.1 = some y → Settings base y) ∧ Settings base x.2) :
    Settings base x.2 := h.2

theorem ite_settings {base : State} {c : Prop} [Decidable c] {a b : State} (ha : Settings base a) (hb : Settings base b) :
    Settings base (if c then a else b) := by
  split
  · exact ha
  · exact hb

theorem ite_settings_fst {base : State} {γ : Type} {c : Prop} [Decidable c] {a b : State × γ} (ha : Settings base a.1) (hb : Settings base b.1) :
    Settings base (if c then a else b).1 := by
  split
  · exact ha
  · exact hb

theorem ite_settings_snd {base : State} {γ : Type} {c : Prop} [Decidable c] {a b : γ × State} (ha : Settings base a.2) (hb : Settings base b.2) :
    Settings base (if c then a else b).2 := by
  split
  · exact ha
  · exact hb

theorem foldl_settings {base : State} {β : Type} {f : State → β → State} {l : List β} {s : State} (h : Settings base s)
    (hf : ∀ a b, Settings base a → Settings base (f a b)) : Settings base (l.foldl f s) := by
  induction l generalizing s with
  | nil => exact h
  | cons b l ih => exact ih (hf s b h)

theorem foldl_settings_fst {base : State} {β γ : Type} {f : State × γ → β → State × γ} {l : List β} {s : State × γ}
    (h : Settings base s.1) (hf : ∀ a b, Settings base a.1 → Settings base (f a b).1) : Settings base (l.foldl f s).1 := by
  induction l generalizing s with
  | nil => exact h
  | cons b l ih => exact ih (hf s b h)

theorem foldl_settings_snd {base : State} {β γ : Type} {f : γ × State → β → γ × State} {l : List β} {s : γ × State}
    (h : Settings base s.2) (hf : ∀ a b, Settings base a.2 → Settings base (f a b).2) : Settings base (l.foldl f s).2 := by
  induction l generalizing s with
  | nil => exact h
  | cons b l ih => exact ih (hf s b h)

theorem State.draw_settings {base : State} {s : State} (h_s : Settings base s) :
    Settings base (State.draw s).2 := by
  unfold State.draw
  repeat' first
    | with_reducible assumption
    | intro _
    | fail_if_no_progress (with_reducible refine Settings.of_mk ?_ rfl)

theorem State.updPart_settings {base : State} {s : State} {p : Nat} {f : PartRun → PartRun} (h_s : Settings base s) :
    Settings base (State.updPart s p f) := by
  unfold State.updPart
  repeat' first
    | with_reducible assumption
    | intro _
    | fail_if_no_progress (with_reducible refine Settings.of_mk ?_ rfl)

theorem State.updCore_settings {base : State} {s : State} {h : Nat} {f : CoreSt → CoreSt} (h_s : Settings base s) :
    Settings base (State.updCore s h f) := by
  unfold State.updCore
  repeat' first
    | with_reducible assumption
    | intro _
    | fail_if_no_progress (with_reducible refine Settings.of_mk ?_ rfl)

theorem State.updRing_settings {base : State} {s : State} {p : Nat} {r : Nat} {f : RingRun → RingRun} (h_s : Settings base s) :
    Settings base (State.updRing s p r f) := by
  unfold State.updRing
  repeat' first
    | with_reducible assumption
    | intro _
    | fail_if_no_progress (with_reducible refine Settings.of_mk ?_ rfl)

theorem State.updFile_settings {base : State} {s : State} {h : Nat} {f : Nat} {g : IFile → IFile} (h_s : Settings base s) :
    Settings base (State.updFile s h f g) := by
  unfold State.updFile
  repeat' first
    | with_reducible assumption
    | intro _
    | fail_if_no_progress (with_reducible refine Settings.of_mk ?_ rfl)

theorem State.updTxn_settings {base : State} {s : State} {p : Nat} {f : Txn → Txn} (h_s : Settings base s) :
    Settings base (State.updTxn s p f) := by
  unfold State.updTxn
  repeat' first
    | with_reducible assumption
    | intro _
    | fail_if_no_progress (with_reducible refine Settings.of_mk ?_ rfl)

theorem State.winFault_settings {base s : State} {p : Nat} (h_s : Settings base s) : Settings base (s.winFault p) :=
  State.updPart_settings h_s

theorem State.dbErr_settings {base : State} {s : State} {p : Nat} (h_s : Settings base s) :
    Settings base (State.dbErr s p) := by
  unfold State.dbErr
  repeat' first
    | with_reducible assumption
    | intro _
    | fail_if_no_progress (with_reducible refine Settings.of_mk ?_ rfl)

theorem devWrite_settings {base : State} {s : State} {p : Nat} {a : Nat} {bs : List (BitVec 8)} (h_s : Settings base s) :
    Settings base (devWrite s p a bs) := by
  unfold devWrite
  repeat' first
    | with_reducible assumption
    | with_reducible apply State.winFault_settings
    | intro _
    | split
    | fail_if_no_progress (with_reducible refine Settings.of_mk ?_ rfl)

theorem indexBlock_settings {base : State} {s : State} {p : Nat} {r : Nat} (h_s : Settings base s) :
    Settings base (indexBlock s p r) := by
  unfold indexBlock
  repeat' first
    | with_reducible assumption
    | with_reducible apply devWrite_settings
    | with_reducible refine ite_settings ?_ ?_
    | split

theorem offerRecord_settings {base : State} {s : State} {p : Nat} {r : Nat} {w0 : BitVec 32} {body : List (Nat × BitVec 32)} {st : Stamp} (h_s : Settings base s) :
    Settings base (offerRecord s p r w0 body st).1 := by
  unfold offerRecord
  repeat' first
    | with_reducible assumption
    | with_reducible apply State.updRing_settings
    | with_reducible apply devWrite_settings
    | with_reducible apply indexBlock_settings
    | (intro x
       first
         | (have hx : Settings base x := ?_; clear_value x; on_goal 2 => subst x)
         | clear_value x
         | subst x)
    | intro _
    | lift_lets -underBinder
    | with_reducible refine ite_settings ?_ ?_
    | with_reducible refine ite_settings_fst ?_ ?_
    | with_reducible refine ite_settings_snd ?_ ?_
    | split
    | dsimp -zeta only
    | fail_if_no_progress (with_reducible refine Settings.of_mk ?_ rfl)

theorem putWb_settings {base : State} {s : State} {p : Nat} {r : Nat} {f : Flight} {b : Wb} (h_s : Settings base s) :
    Settings base (putWb s p r f b) := by
  unfold putWb
  repeat' first
    | with_reducible assumption
    | with_reducible apply State.updRing_settings
    | with_reducible apply devWrite_settings
    | intro _
    | fail_if_no_progress (with_reducible refine Settings.of_mk ?_ rfl)

theorem putGroup_settings {base : State} {s : State} {p : Nat} {r : Nat} {f : Flight} {b : Wb} (h_s : Settings base s) :
    Settings base (putGroup s p r f b) := by
  unfold putGroup
  repeat' first
    | with_reducible assumption
    | with_reducible apply State.updRing_settings
    | with_reducible apply devWrite_settings
    | with_reducible apply foldl_settings
    | with_reducible apply foldl_settings_fst
    | with_reducible apply foldl_settings_snd
    | intro _
    | with_reducible refine ite_settings ?_ ?_
    | split
    | fail_if_no_progress (with_reducible refine Settings.of_mk ?_ rfl)

theorem drain_settings {base : State} {a0 : Nat} {a1 : State} {a2 : Nat} {a3 : Nat} {a4 : List Flight} (h_a1 : Settings base a1) :
    Settings base (drain a0 a1 a2 a3 a4).1 := by
  unfold drain
  repeat' first
    | with_reducible assumption
    | with_reducible apply putWb_settings
    | with_reducible apply drain_settings
    | intro _
    | with_reducible refine ite_settings ?_ ?_
    | split
    | fail_if_no_progress (with_reducible refine Settings.of_mk ?_ rfl)

theorem settle_settings {base : State} {s : State} {p : Nat} {r : Nat} {id : Nat} {b0 : Wb} (h_s : Settings base s) :
    Settings base (settle s p r id b0).1 := by
  unfold settle
  repeat' first
    | with_reducible assumption
    | with_reducible apply State.updRing_settings
    | with_reducible apply putGroup_settings
    | with_reducible apply drain_settings
    | intro _
    | with_reducible refine ite_settings ?_ ?_
    | split
    | fail_if_no_progress (with_reducible refine Settings.of_mk ?_ rfl)

theorem State.updTask_settings {base : State} {s : State} {h : Nat} {t : Nat} {f : Task → Task} (h_s : Settings base s) :
    Settings base (State.updTask s h t f) := by
  unfold State.updTask
  repeat' first
    | with_reducible assumption
    | intro _
    | fail_if_no_progress (with_reducible refine Settings.of_mk ?_ rfl)

theorem State.updSched_settings {base : State} {s : State} {h : Nat} {f : Sched → Sched} (h_s : Settings base s) :
    Settings base (State.updSched s h f) := by
  unfold State.updSched
  repeat' first
    | with_reducible assumption
    | intro _
    | fail_if_no_progress (with_reducible refine Settings.of_mk ?_ rfl)

theorem startHistory_settings {base : State} {s : State} {h : Nat} {t : Nat} (h_s : Settings base s) :
    Settings base (startHistory s h t) := by
  unfold startHistory
  repeat' first
    | with_reducible assumption
    | with_reducible apply State.updTask_settings
    | intro _
    | with_reducible refine ite_settings ?_ ?_
    | split
    | fail_if_no_progress (with_reducible refine Settings.of_mk ?_ rfl)

theorem makeReady_settings {base : State} {s : State} {h : Nat} {t : Nat} {r : Nat} (h_s : Settings base s) :
    Settings base (makeReady s h t r) := by
  unfold makeReady
  repeat' first
    | with_reducible assumption
    | with_reducible apply State.updTask_settings
    | intro _
    | with_reducible refine ite_settings ?_ ?_
    | split
    | fail_if_no_progress (with_reducible refine Settings.of_mk ?_ rfl)

theorem postRelease_settings {base : State} {s : State} {h : Nat} {t : Nat} (h_s : Settings base s) :
    Settings base (postRelease s h t) := by
  unfold postRelease
  repeat' first
    | with_reducible assumption
    | with_reducible apply State.updTask_settings
    | with_reducible apply makeReady_settings
    | intro _
    | with_reducible refine ite_settings ?_ ?_
    | split
    | fail_if_no_progress (with_reducible refine Settings.of_mk ?_ rfl)

theorem queuePost_settings {base : State} {s : State} {h : Nat} {q : Post} {permitted : Bool} (h_s : Settings base s) :
    Settings base (queuePost s h q permitted).2 := by
  unfold queuePost
  repeat' first
    | with_reducible assumption
    | with_reducible apply State.updSched_settings
    | with_reducible apply postRelease_settings
    | intro _
    | with_reducible refine ite_settings ?_ ?_
    | split
    | fail_if_no_progress (with_reducible refine Settings.of_mk ?_ rfl)

theorem resetSched_settings {base : State} {s : State} {h : Nat} (h_s : Settings base s) :
    Settings base (resetSched s h) := by
  unfold resetSched
  repeat' first
    | with_reducible assumption
    | with_reducible apply State.updSched_settings
    | with_reducible apply startHistory_settings
    | with_reducible apply foldl_settings
    | with_reducible apply foldl_settings_fst
    | with_reducible apply foldl_settings_snd
    | intro _
    | fail_if_no_progress (with_reducible refine Settings.of_mk ?_ rfl)

theorem irqStamp_settings {base : State} {s : State} {h : Nat} {f : Nat} {id : Nat} {src : BitVec 32} (h_s : Settings base s) :
    Settings base (irqStamp s h f id src) := by
  unfold irqStamp
  repeat' first
    | with_reducible assumption
    | with_reducible apply State.dbErr_settings
    | with_reducible apply offerRecord_settings
    | (intro x
       first
         | (have hx : Settings base x := ?_; clear_value x; on_goal 2 => subst x)
         | clear_value x
         | subst x)
    | intro _
    | lift_lets -underBinder
    | split
    | dsimp -zeta only
    | fail_if_no_progress (with_reducible refine Settings.of_mk ?_ rfl)

theorem assertIrq_settings {base : State} {a0 : Nat} {a1 : State} {a2 : Nat} {a3 : Nat} {a4 : Nat} {a5 : BitVec 32} (h_a1 : Settings base a1) :
    Settings base (assertIrq a0 a1 a2 a3 a4 a5) := by
  unfold assertIrq
  repeat' first
    | with_reducible assumption
    | with_reducible apply State.updFile_settings
    | with_reducible apply queuePost_settings
    | with_reducible apply irqStamp_settings
    | with_reducible apply assertIrq_settings
    | intro _
    | with_reducible refine ite_settings ?_ ?_
    | split
    | fail_if_no_progress (with_reducible refine Settings.of_mk ?_ rfl)

theorem devIrq_settings {base : State} {s : State} {p : Nat} {id : Nat} {block : Nat} {unit : Nat} (h_s : Settings base s) :
    Settings base (devIrq s p id block unit) := by
  unfold devIrq
  repeat' first
    | with_reducible assumption
    | with_reducible apply assertIrq_settings
    | with_reducible refine ite_settings ?_ ?_
    | split

theorem dispatchIf_settings {base : State} {before : Option Nat} {s : State} {h : Nat} (h_s : Settings base s) :
    Settings base (dispatchIf before s h) := by
  unfold dispatchIf
  repeat' first
    | with_reducible assumption
    | with_reducible apply assertIrq_settings
    | with_reducible refine ite_settings ?_ ?_
    | split

theorem ringIrq_settings {base : State} {s : State} {p : Nat} {r : Nat} {flagged : Bool} (h_s : Settings base s) :
    Settings base (ringIrq s p r flagged) := by
  unfold ringIrq
  repeat' first
    | with_reducible assumption
    | with_reducible apply devIrq_settings
    | with_reducible refine ite_settings ?_ ?_
    | split

theorem recordTo_settings {base : State} {s : State} {p : Nat} {r : Nat} {w0 : BitVec 32} {body : List (Nat × BitVec 32)} {st : Stamp} (h_s : Settings base s) :
    Settings base (recordTo s p r w0 body st) := by
  unfold recordTo
  repeat' first
    | with_reducible assumption
    | with_reducible apply offerRecord_settings
    | with_reducible apply ringIrq_settings
    | with_reducible refine ite_settings ?_ ?_
    | split

theorem record_settings {base : State} {s : State} {p : Nat} {type : Nat} {w0 : BitVec 32} {body : List (Nat × BitVec 32)} {st : Stamp} (h_s : Settings base s) :
    Settings base (record s p type w0 body st) := by
  unfold record
  repeat' first
    | with_reducible assumption
    | with_reducible apply State.dbErr_settings
    | with_reducible apply recordTo_settings
    | intro _
    | split
    | fail_if_no_progress (with_reducible refine Settings.of_mk ?_ rfl)

theorem recordAll_settings {base : State} {s : State} {w0 : BitVec 32} {body : List (Nat × BitVec 32)} {st : Stamp} (h_s : Settings base s) :
    Settings base (recordAll s w0 body st) := by
  unfold recordAll
  repeat' first
    | with_reducible assumption
    | with_reducible apply State.dbErr_settings
    | with_reducible apply recordTo_settings
    | with_reducible apply foldl_settings
    | with_reducible apply foldl_settings_fst
    | with_reducible apply foldl_settings_snd
    | intro _
    | with_reducible refine ite_settings ?_ ?_
    | split

theorem complete_settings {base : State} {s : State} {p : Nat} {r : Nat} {id : Nat} {b : Wb} (h_s : Settings base s) :
    Settings base (complete s p r id b) := by
  unfold complete
  repeat' first
    | with_reducible assumption
    | with_reducible apply indexBlock_settings
    | with_reducible apply settle_settings
    | with_reducible apply ringIrq_settings
    | intro _
    | with_reducible refine ite_settings ?_ ?_
    | split

theorem finish_settings {base : State} {s : State} {p : Nat} {r : Nat} {id : Nat} {status : Nat} (h_s : Settings base s) :
    Settings base (finish s p r id status) := by
  unfold finish
  repeat' first
    | with_reducible assumption
    | with_reducible apply complete_settings

theorem finishKey_settings {base : State} {s : State} {k : Nat} {id : Nat} {status : Nat} (h_s : Settings base s) :
    Settings base (finishKey s k id status) := by
  unfold finishKey
  repeat' first
    | with_reducible assumption
    | with_reducible apply finish_settings

theorem completeKey_settings {base : State} {s : State} {k : Nat} {id : Nat} {b : Wb} (h_s : Settings base s) :
    Settings base (completeKey s k id b) := by
  unfold completeKey
  repeat' first
    | with_reducible assumption
    | with_reducible apply complete_settings

theorem State.updStream_settings {base : State} {s : State} {e : Nat} {f : StreamRt → StreamRt} (h_s : Settings base s) :
    Settings base (State.updStream s e f) := by
  unfold State.updStream
  repeat' first
    | with_reducible assumption
    | intro _
    | fail_if_no_progress (with_reducible refine Settings.of_mk ?_ rfl)

theorem igOther_settings {base : State} {s : State} {off : Nat} (h_s : Settings base s) :
    Settings base (igOther s off) := by
  unfold igOther
  repeat' first
    | with_reducible assumption
    | intro _
    | fail_if_no_progress (with_reducible refine Settings.of_mk ?_ rfl)

theorem streamTo_settings {base : State} {s : State} {e : Nat} {new : StreamSt} {stamp : Stamp} (h_s : Settings base s) :
    Settings base (streamTo s e new stamp) := by
  unfold streamTo
  repeat' first
    | with_reducible assumption
    | with_reducible apply record_settings
    | with_reducible apply State.updStream_settings
    | intro _
    | with_reducible refine ite_settings ?_ ?_
    | split
    | fail_if_no_progress (with_reducible refine Settings.of_mk ?_ rfl)

theorem State.updChain_settings {base : State} {s : State} {c : Nat} {ce : Nat} {f : ChainRt → ChainRt} (h_s : Settings base s) :
    Settings base (State.updChain s c ce f) := by
  unfold State.updChain
  repeat' first
    | with_reducible assumption
    | intro _
    | fail_if_no_progress (with_reducible refine Settings.of_mk ?_ rfl)

theorem dropTxn_settings {base : State} {p : Nat} {s : State} (h_s : Settings base s) :
    Settings base (dropTxn p s) := by
  unfold dropTxn
  repeat' first
    | with_reducible assumption
    | with_reducible apply State.updTxn_settings
    | intro _
    | fail_if_no_progress (with_reducible refine Settings.of_mk ?_ rfl)

theorem finishTxn_settings {base : State} {s : State} {k : Nat} {id : Nat} {status : Nat} {txid : BitVec 16} (h_s : Settings base s) :
    Settings base (finishTxn s k id status txid) := by
  unfold finishTxn
  repeat' first
    | with_reducible assumption
    | with_reducible apply completeKey_settings

theorem rollTxn_settings {base : State} {p : Nat} {s : State} (h_s : Settings base s) :
    Settings base (rollTxn p s) := by
  unfold rollTxn
  repeat' first
    | with_reducible assumption
    | with_reducible apply dropTxn_settings
    | with_reducible apply finishTxn_settings
    | (intro x
       first
         | (have hx : Settings base x := ?_; clear_value x; on_goal 2 => subst x)
         | clear_value x
         | subst x)
    | intro _
    | lift_lets -underBinder
    | split
    | dsimp -zeta only
    | fail_if_no_progress (with_reducible refine Settings.of_mk ?_ rfl)

theorem State.setNode_settings {base : State} {s : State} {n : Nat} {x : Node} (h_s : Settings base s) :
    Settings base (State.setNode s n x) := by
  unfold State.setNode
  repeat' first
    | with_reducible assumption
    | intro _
    | fail_if_no_progress (with_reducible refine Settings.of_mk ?_ rfl)

theorem takeUse_settings {base : State} {s : State} {n : Nat} (h_s : Settings base s) :
    Settings base (takeUse s n) := by
  unfold takeUse
  repeat' first
    | with_reducible assumption
    | with_reducible apply State.setNode_settings
    | intro _
    | fail_if_no_progress (with_reducible refine Settings.of_mk ?_ rfl)

theorem invalidate_settings {base : State} {s : State} {n : Nat} (h_s : Settings base s) :
    Settings base (invalidate s n) := by
  unfold invalidate
  repeat' first
    | with_reducible assumption
    | with_reducible apply State.setNode_settings
    | with_reducible apply foldl_settings
    | with_reducible apply foldl_settings_fst
    | with_reducible apply foldl_settings_snd
    | intro _
    | with_reducible refine ite_settings ?_ ?_
    | split
    | fail_if_no_progress (with_reducible refine Settings.of_mk ?_ rfl)

theorem freeDying_settings {base : State} {s : State} {ns : List Nat} (h_s : Settings base s) :
    Settings base (freeDying s ns) := by
  unfold freeDying
  repeat' first
    | with_reducible assumption
    | with_reducible apply State.setNode_settings
    | with_reducible apply foldl_settings
    | with_reducible apply foldl_settings_fst
    | with_reducible apply foldl_settings_snd
    | intro _
    | with_reducible refine ite_settings ?_ ?_
    | split

theorem makeNode_settings {base : State} {s : State} {n : Nat} {par : Nat} {attr : BitVec 32} {uses : Nat} {owner : Nat} {imp : Bool} {key : Bytes} (h_s : Settings base s) :
    Settings base (makeNode s n par attr uses owner imp key) := by
  unfold makeNode
  repeat' first
    | with_reducible assumption
    | with_reducible apply State.setNode_settings
    | with_reducible refine ite_settings ?_ ?_
    | split

theorem keyEffect_settings {base : State} {x : KeyPend} {s : State} (h_s : Settings base s) :
    Settings base (keyEffect x s).1 := by
  unfold keyEffect
  repeat' first
    | with_reducible assumption
    | with_reducible apply invalidate_settings
    | with_reducible apply makeNode_settings
    | intro _
    | with_reducible refine ite_settings ?_ ?_
    | split
    | fail_if_no_progress (with_reducible refine Settings.of_mk ?_ rfl)

theorem applyKey_settings {base : State} {x : KeyPend} {s : State} (h_s : Settings base s) :
    Settings base (applyKey x s) := by
  unfold applyKey
  repeat' first
    | with_reducible assumption
    | with_reducible apply finishKey_settings
    | with_reducible apply keyEffect_settings
    | intro _
    | fail_if_no_progress (with_reducible refine Settings.of_mk ?_ rfl)

theorem abortOp_settings {base : State} {s : State} {o : StOp} {status : Nat} (h_s : Settings base s) :
    Settings base (abortOp s o status) := by
  unfold abortOp
  repeat' first
    | with_reducible assumption
    | with_reducible apply finishKey_settings
    | intro _
    | fail_if_no_progress (with_reducible refine Settings.of_mk ?_ rfl)

theorem State.updBlk_settings {base : State} {s : State} {b : Nat} {f : Blk → Blk} (h_s : Settings base s) :
    Settings base (State.updBlk s b f) := by
  unfold State.updBlk
  repeat' first
    | with_reducible assumption
    | intro _
    | fail_if_no_progress (with_reducible refine Settings.of_mk ?_ rfl)

theorem endRead_settings {base : State} {s : State} {o : StRead} (h_s : Settings base s) : Settings base (endRead s o) := by
  unfold endRead releaseExtents
  refine foldl_settings (Settings.of_mk h_s rfl) fun a x h => ?_
  split
  · exact h
  · exact State.updBlk_settings h

theorem abortRead_settings {base : State} {s : State} {o : StRead} {status : Nat} (h_s : Settings base s) :
    Settings base (abortRead s o status) := finishKey_settings (endRead_settings h_s)

theorem State.updTtu_settings {base : State} {s : State} {u : Nat} {f : Ttu → Ttu} (h_s : Settings base s) :
    Settings base (State.updTtu s u f) := by
  unfold State.updTtu
  repeat' first
    | with_reducible assumption
    | intro _
    | fail_if_no_progress (with_reducible refine Settings.of_mk ?_ rfl)

theorem ttStop_settings {base : State} {s : State} {u : Nat} (h_s : Settings base s) :
    Settings base (ttStop s u) := by
  unfold ttStop
  repeat' first
    | with_reducible assumption
    | with_reducible apply finishKey_settings
    | with_reducible apply State.updTtu_settings
    | intro _
    | with_reducible refine ite_settings ?_ ?_
    | split
    | fail_if_no_progress (with_reducible refine Settings.of_mk ?_ rfl)

theorem prCount_settings {base : State} {s : State} {i : Nat} (h_s : Settings base s) :
    Settings base (prCount s i) := by
  unfold prCount
  repeat' first
    | with_reducible assumption
    | intro _
    | fail_if_no_progress (with_reducible refine Settings.of_mk ?_ rfl)

theorem raiseFlag_settings {base : State} {s : State} {i : Nat} (h_s : Settings base s) :
    Settings base (raiseFlag s i) := by
  unfold raiseFlag
  repeat' first
    | with_reducible assumption
    | intro _
    | fail_if_no_progress (with_reducible refine Settings.of_mk ?_ rfl)

theorem mateSend_settings {base : State} {s : State} {x : MateSent} (h_s : Settings base s) :
    Settings base (mateSend s x) := by
  unfold mateSend
  repeat' first
    | with_reducible assumption
    | intro _
    | fail_if_no_progress (with_reducible refine Settings.of_mk ?_ rfl)

theorem deltaSend_settings {base : State} {k : DeltaKind} {status : Nat} {s : State} (h_s : Settings base s) :
    Settings base (deltaSend k status s) := by
  unfold deltaSend
  repeat' first
    | with_reducible assumption
    | with_reducible apply mateSend_settings
    | intro _
    | with_reducible refine ite_settings ?_ ?_
    | split
    | fail_if_no_progress (with_reducible refine Settings.of_mk ?_ rfl)

theorem keyApplied_settings {base : State} {s : State} {x : KeyPend} (h_s : Settings base s) :
    Settings base (keyApplied s x) := by
  unfold keyApplied
  repeat' first
    | with_reducible assumption
    | with_reducible apply applyKey_settings
    | with_reducible apply deltaSend_settings
    | (intro x
       first
         | (have hx : Settings base x := ?_; clear_value x; on_goal 2 => subst x)
         | clear_value x
         | subst x)
    | intro _
    | lift_lets -underBinder
    | split
    | dsimp -zeta only
    | fail_if_no_progress (with_reducible refine Settings.of_mk ?_ rfl)

theorem keysDue_settings {base : State} {s : State} (h_s : Settings base s) :
    Settings base (keysDue s) := by
  unfold keysDue
  repeat' first
    | with_reducible assumption
    | with_reducible apply keyApplied_settings
    | with_reducible apply foldl_settings
    | with_reducible apply foldl_settings_fst
    | with_reducible apply foldl_settings_snd
    | intro _

theorem diverge_settings {base : State} {kind : Nat} {ident : Nat} {s : State} (h_s : Settings base s) :
    Settings base (diverge kind ident s) := by
  unfold diverge
  repeat' first
    | with_reducible assumption
    | with_reducible apply recordAll_settings
    | with_reducible apply prCount_settings
    | with_reducible apply raiseFlag_settings
    | intro _
    | fail_if_no_progress (with_reducible refine Settings.of_mk ?_ rfl)

theorem decide__settings {base : State} {d : Decision} {s : State} (h_s : Settings base s) :
    Settings base (decide_ d s) := by
  unfold decide_
  repeat' first
    | with_reducible assumption
    | with_reducible apply mateSend_settings
    | with_reducible apply diverge_settings
    | intro _
    | with_reducible refine ite_settings ?_ ?_
    | split
    | fail_if_no_progress (with_reducible refine Settings.of_mk ?_ rfl)

theorem State.updMac_settings {base : State} {s : State} {q : Nat} {f : Mac → Mac} (h_s : Settings base s) :
    Settings base (State.updMac s q f) := by
  unfold State.updMac
  repeat' first
    | with_reducible assumption
    | intro _
    | fail_if_no_progress (with_reducible refine Settings.of_mk ?_ rfl)

theorem macCount_settings {base : State} {s : State} {q : Nat} {i : Nat} {n : Nat} (h_s : Settings base s) :
    Settings base (macCount s q i n) := by
  unfold macCount
  repeat' first
    | with_reducible assumption
    | intro _
    | with_reducible refine ite_settings ?_ ?_
    | split
    | fail_if_no_progress (with_reducible refine Settings.of_mk ?_ rfl)

theorem gnCount_settings {base : State} {s : State} {index : Nat} {port : Nat} {cls : Nat} (h_s : Settings base s) :
    Settings base (gnCount s index port cls) := by
  unfold gnCount
  repeat' first
    | with_reducible assumption
    | intro _
    | fail_if_no_progress (with_reducible refine Settings.of_mk ?_ rfl)

theorem dropOut_settings {base : State} {s : State} {id : Nat} {q : Nat} (h_s : Settings base s) :
    Settings base (dropOut s id q) := by
  unfold dropOut
  repeat' first
    | with_reducible assumption
    | intro _
    | with_reducible refine ite_settings ?_ ?_
    | split
    | fail_if_no_progress (with_reducible refine Settings.of_mk ?_ rfl)

theorem discardAt_settings {base : State} {q : Nat} {reason : Nat} {f : GFrame} {s : State} (h_s : Settings base s) :
    Settings base (discardAt q reason f s) := by
  unfold discardAt
  repeat' first
    | with_reducible assumption
    | with_reducible apply completeKey_settings
    | with_reducible apply macCount_settings
    | with_reducible apply dropOut_settings
    | intro _
    | split
    | fail_if_no_progress (with_reducible refine Settings.of_mk ?_ rfl)

theorem discardWaiting_settings {base : State} {q : Nat} {reason : Nat} {s : State} (h_s : Settings base s) :
    Settings base (discardWaiting q reason s) := by
  unfold discardWaiting
  repeat' first
    | with_reducible assumption
    | with_reducible apply discardAt_settings
    | with_reducible apply foldl_settings
    | with_reducible apply foldl_settings_fst
    | with_reducible apply foldl_settings_snd
    | intro _

theorem enqueue_settings {base : State} {f0 : GFrame} {wants : List Nat} {s : State} (h_s : Settings base s) :
    Settings base (enqueue f0 wants s) := by
  unfold enqueue
  repeat' first
    | with_reducible assumption
    | with_reducible apply finishKey_settings
    | with_reducible apply gnCount_settings
    | with_reducible apply discardAt_settings
    | with_reducible apply foldl_settings
    | with_reducible apply foldl_settings_fst
    | with_reducible apply foldl_settings_snd
    | intro _
    | with_reducible refine ite_settings ?_ ?_
    | split
    | fail_if_no_progress (with_reducible refine Settings.of_mk ?_ rfl)

theorem cutFrames_settings {base : State} {q : Nat} {s : State} (h_s : Settings base s) :
    Settings base (cutFrames q s) := by
  unfold cutFrames
  repeat' first
    | with_reducible assumption
    | with_reducible apply State.updMac_settings
    | with_reducible apply discardAt_settings
    | with_reducible apply foldl_settings
    | with_reducible apply foldl_settings_fst
    | with_reducible apply foldl_settings_snd
    | intro _
    | split
    | fail_if_no_progress (with_reducible refine Settings.of_mk ?_ rfl)

theorem holdEnd_settings {base : State} {q : Nat} {s : State} (h_s : Settings base s) :
    Settings base (holdEnd q s) := by
  unfold holdEnd
  repeat' first
    | with_reducible assumption
    | with_reducible apply State.updMac_settings
    | with_reducible apply discardWaiting_settings
    | intro _
    | fail_if_no_progress (with_reducible refine Settings.of_mk ?_ rfl)

theorem linkLoss_settings {base : State} {q : Nat} {receiving : Bool} {s : State} (h_s : Settings base s) :
    Settings base (linkLoss q receiving s) := by
  unfold linkLoss
  repeat' first
    | with_reducible assumption
    | with_reducible apply devIrq_settings
    | with_reducible apply State.updMac_settings
    | with_reducible apply macCount_settings
    | with_reducible apply cutFrames_settings
    | with_reducible apply holdEnd_settings
    | intro _
    | with_reducible refine ite_settings ?_ ?_
    | split
    | fail_if_no_progress (with_reducible refine Settings.of_mk ?_ rfl)

theorem portChanged_settings {base : State} {q : Nat} {old : BitVec 32} {s : State} (h_s : Settings base s) :
    Settings base (portChanged q old s) := by
  unfold portChanged
  repeat' first
    | with_reducible assumption
    | with_reducible apply State.updMac_settings
    | with_reducible apply discardWaiting_settings
    | with_reducible apply linkLoss_settings
    | intro _
    | with_reducible refine ite_settings ?_ ?_
    | split
    | fail_if_no_progress (with_reducible refine Settings.of_mk ?_ rfl)

theorem State.updLane_settings {base : State} {s : State} {g : Nat} {f : LaneRt → LaneRt} (h_s : Settings base s) :
    Settings base (State.updLane s g f) := by
  unfold State.updLane
  repeat' first
    | with_reducible assumption
    | intro _
    | fail_if_no_progress (with_reducible refine Settings.of_mk ?_ rfl)

theorem State.updLoop_settings {base : State} {s : State} {l : Nat} {f : LoopRt → LoopRt} (h_s : Settings base s) :
    Settings base (State.updLoop s l f) := by
  unfold State.updLoop
  repeat' first
    | with_reducible assumption
    | intro _
    | fail_if_no_progress (with_reducible refine Settings.of_mk ?_ rfl)

theorem loopRestart_settings {base : State} {l : Nat} {s : State} (h_s : Settings base s) :
    Settings base (loopRestart l s) := by
  unfold loopRestart
  repeat' first
    | with_reducible assumption
    | with_reducible apply State.updLane_settings
    | with_reducible apply State.updLoop_settings
    | intro _
    | with_reducible refine ite_settings ?_ ?_
    | split
    | fail_if_no_progress (with_reducible refine Settings.of_mk ?_ rfl)

theorem restartLoops_settings {base : State} {c : Nat} {ce : Nat} {s : State} (h_s : Settings base s) :
    Settings base (restartLoops c ce s) := by
  unfold restartLoops
  repeat' first
    | with_reducible assumption
    | with_reducible apply loopRestart_settings
    | with_reducible apply foldl_settings
    | with_reducible apply foldl_settings_fst
    | with_reducible apply foldl_settings_snd
    | intro _

theorem dupEnter_settings {base : State} {s : State} {q : Nat} {mac : Nat} {n : Nat} {m : DupMark} (h_s : Settings base s) :
    Settings base (dupEnter s q mac n m) := by
  unfold dupEnter
  repeat' first
    | with_reducible assumption
    | with_reducible apply igOther_settings
    | with_reducible apply foldl_settings
    | with_reducible apply foldl_settings_fst
    | with_reducible apply foldl_settings_snd
    | (intro x
       first
         | (have hx : Settings base x := ?_; clear_value x; on_goal 2 => subst x)
         | clear_value x
         | subst x)
    | intro _
    | lift_lets -underBinder
    | with_reducible refine ite_settings ?_ ?_
    | split
    | dsimp -zeta only
    | fail_if_no_progress (with_reducible refine Settings.of_mk ?_ rfl)

theorem State.updCap_settings {base : State} {s : State} {g : Nat} {f : CapUnit → CapUnit} (h_s : Settings base s) :
    Settings base (State.updCap s g f) := by
  unfold State.updCap
  repeat' first
    | with_reducible assumption
    | intro _
    | fail_if_no_progress (with_reducible refine Settings.of_mk ?_ rfl)

theorem capLeave_settings {base : State} {g : Nat} {b : Wb} {s : State} (h_s : Settings base s) :
    Settings base (capLeave g b s) := by
  unfold capLeave
  repeat' first
    | with_reducible assumption
    | with_reducible apply completeKey_settings
    | with_reducible apply State.updCap_settings
    | intro _
    | fail_if_no_progress (with_reducible refine Settings.of_mk ?_ rfl)

theorem capDiscard_settings {base : State} {g : Nat} {s : State} (h_s : Settings base s) :
    Settings base (capDiscard g s) := by
  unfold capDiscard
  repeat' first
    | with_reducible assumption
    | with_reducible apply State.updCap_settings
    | intro _
    | with_reducible refine ite_settings ?_ ?_
    | split
    | fail_if_no_progress (with_reducible refine Settings.of_mk ?_ rfl)

theorem capStop_settings {base : State} {g : Nat} {s : State} (h_s : Settings base s) :
    Settings base (capStop g s) := by
  unfold capStop
  repeat' first
    | with_reducible assumption
    | with_reducible apply capLeave_settings
    | with_reducible apply capDiscard_settings
    | with_reducible refine ite_settings ?_ ?_
    | split

theorem capReset_settings {base : State} {g : Nat} {s : State} (h_s : Settings base s) :
    Settings base (capReset g s) := by
  unfold capReset
  repeat' first
    | with_reducible assumption
    | with_reducible apply abortOp_settings
    | with_reducible apply capStop_settings
    | with_reducible apply foldl_settings
    | with_reducible apply foldl_settings_fst
    | with_reducible apply foldl_settings_snd
    | intro _

theorem countSent_settings {base : State} {f : OutFrame} {s : State} (h_s : Settings base s) :
    Settings base (countSent f s) := by
  unfold countSent
  repeat' first
    | with_reducible assumption
    | intro _
    | split
    | fail_if_no_progress (with_reducible refine Settings.of_mk ?_ rfl)

theorem sendOut_settings {base : State} {f : OutFrame} {s0 : State} (h_s0 : Settings base s0) :
    Settings base (sendOut f s0) := by
  unfold sendOut
  repeat' first
    | with_reducible assumption
    | with_reducible apply enqueue_settings
    | with_reducible apply dupEnter_settings
    | with_reducible apply countSent_settings
    | with_reducible apply foldl_settings
    | with_reducible apply foldl_settings_fst
    | with_reducible apply foldl_settings_snd
    | intro _
    | with_reducible refine ite_settings ?_ ?_
    | split
    | fail_if_no_progress (with_reducible refine Settings.of_mk ?_ rfl)

theorem releaseFrame_settings {base : State} {f : OutFrame} {s : State} (h_s : Settings base s) :
    Settings base (releaseFrame f s) := by
  unfold releaseFrame
  repeat' first
    | with_reducible assumption
    | with_reducible apply decide__settings
    | with_reducible apply sendOut_settings
    | intro _
    | with_reducible refine ite_settings ?_ ?_
    | split
    | fail_if_no_progress (with_reducible refine Settings.of_mk ?_ rfl)

theorem State.updGrp_settings {base : State} {s : State} {sel : Nat} {f : PhRt → PhRt} (h_s : Settings base s) :
    Settings base (State.updGrp s sel f) := by
  unfold State.updGrp
  repeat' first
    | with_reducible assumption
    | intro _
    | fail_if_no_progress (with_reducible refine Settings.of_mk ?_ rfl)

theorem noteEdge_settings {base : State} {j : Nat} {s : State} (h_s : Settings base s) :
    Settings base (noteEdge j s) := by
  unfold noteEdge
  repeat' first
    | with_reducible assumption
    | intro _
    | fail_if_no_progress (with_reducible refine Settings.of_mk ?_ rfl)

theorem phStart_settings {base : State} {sel : Nat} {slot : Nat} {s : State} (h_s : Settings base s) :
    Settings base (phStart sel slot s) := by
  unfold phStart
  repeat' first
    | with_reducible assumption
    | with_reducible apply State.updGrp_settings
    | with_reducible apply noteEdge_settings
    | intro _
    | with_reducible refine ite_settings ?_ ?_
    | split
    | fail_if_no_progress (with_reducible refine Settings.of_mk ?_ rfl)

theorem State.updPws_settings {base : State} {s : State} {n : Nat} {f : PwsRt → PwsRt} (h_s : Settings base s) :
    Settings base (State.updPws s n f) := by
  unfold State.updPws
  repeat' first
    | with_reducible assumption
    | intro _
    | fail_if_no_progress (with_reducible refine Settings.of_mk ?_ rfl)

theorem State.updLine_settings {base : State} {s : State} {l : Nat} {f : LineRt → LineRt} (h_s : Settings base s) :
    Settings base (State.updLine s l f) := by
  unfold State.updLine
  repeat' first
    | with_reducible assumption
    | intro _
    | fail_if_no_progress (with_reducible refine Settings.of_mk ?_ rfl)

theorem flRecord_settings {base : State} {l : Nat} {m : Nat} {summary : Bool} {r : FlRes} {flags : BitVec 16} {s : State} (h_s : Settings base s) :
    Settings base (flRecord l m summary r flags s) := by
  unfold flRecord
  repeat' first
    | with_reducible assumption
    | with_reducible apply State.draw_settings
    | with_reducible apply record_settings
    | intro _
    | with_reducible refine ite_settings ?_ ?_
    | split
    | fail_if_no_progress (with_reducible refine Settings.of_mk ?_ rfl)

theorem flClose_settings {base : State} {l : Nat} {closeT16 : Nat} {s : State} (h_s : Settings base s) :
    Settings base (flClose l closeT16 s) := by
  unfold flClose
  repeat' first
    | with_reducible assumption
    | with_reducible apply State.updLine_settings
    | with_reducible apply flRecord_settings
    | intro _
    | with_reducible refine ite_settings ?_ ?_
    | split
    | fail_if_no_progress (with_reducible refine Settings.of_mk ?_ rfl)

theorem flResult_settings {base : State} {l : Nat} {m : Nat} {r : FlRes} {s : State} (h_s : Settings base s) :
    Settings base (flResult l m r s) := by
  unfold flResult
  repeat' first
    | with_reducible assumption
    | with_reducible apply State.updLine_settings
    | with_reducible apply flRecord_settings
    | with_reducible apply flClose_settings
    | intro _
    | with_reducible refine ite_settings ?_ ?_
    | split
    | fail_if_no_progress (with_reducible refine Settings.of_mk ?_ rfl)

theorem seTw_settings {base : State} {l : Nat} {s : State} (h_s : Settings base s) :
    Settings base (seTw l s) := by
  unfold seTw
  repeat' first
    | with_reducible assumption
    | with_reducible apply flResult_settings
    | (intro x
       first
         | (have hx : Settings base x := ?_; clear_value x; on_goal 2 => subst x)
         | clear_value x
         | subst x)
    | intro _
    | lift_lets -underBinder
    | with_reducible refine ite_settings ?_ ?_
    | split
    | dsimp -zeta only
    | fail_if_no_progress (with_reducible refine Settings.of_mk ?_ rfl)

theorem detReset_settings {base : State} {l : Nat} {s : State} (h_s : Settings base s) :
    Settings base (detReset l s) := by
  unfold detReset
  repeat' first
    | with_reducible assumption
    | with_reducible apply State.updLine_settings
    | intro _
    | fail_if_no_progress (with_reducible refine Settings.of_mk ?_ rfl)

theorem flForce_settings {base : State} {l : Nat} {s : State} (h_s : Settings base s) :
    Settings base (flForce l s) := by
  unfold flForce
  repeat' first
    | with_reducible assumption
    | with_reducible apply flResult_settings
    | with_reducible apply seTw_settings
    | with_reducible refine ite_settings ?_ ?_
    | split

theorem flCut_settings {base : State} {l : Nat} {k : Nat} {s : State} (h_s : Settings base s) :
    Settings base (flCut l k s) := by
  unfold flCut
  repeat' first
    | with_reducible assumption
    | with_reducible apply State.updLine_settings
    | with_reducible apply flClose_settings
    | with_reducible apply flForce_settings
    | intro _
    | with_reducible refine ite_settings ?_ ?_
    | split
    | fail_if_no_progress (with_reducible refine Settings.of_mk ?_ rfl)

theorem State.updFbe_settings {base : State} {s : State} {h : Nat} {f : FbRt → FbRt} (h_s : Settings base s) :
    Settings base (State.updFbe s h f) := by
  unfold State.updFbe
  repeat' first
    | with_reducible assumption
    | intro _
    | fail_if_no_progress (with_reducible refine Settings.of_mk ?_ rfl)

theorem fbRestart_settings {base : State} {h : Nat} {s : State} (h_s : Settings base s) :
    Settings base (fbRestart h s) := by
  unfold fbRestart
  repeat' first
    | with_reducible assumption
    | with_reducible apply State.updFbe_settings
    | intro _
    | split
    | fail_if_no_progress (with_reducible refine Settings.of_mk ?_ rfl)

theorem fbReset_settings {base : State} {h : Nat} {s : State} (h_s : Settings base s) :
    Settings base (fbReset h s) := by
  unfold fbReset
  repeat' first
    | with_reducible assumption
    | with_reducible apply finishKey_settings
    | with_reducible apply State.updFbe_settings
    | with_reducible apply fbRestart_settings
    | with_reducible apply foldl_settings
    | with_reducible apply foldl_settings_fst
    | with_reducible apply foldl_settings_snd
    | intro _
    | with_reducible refine ite_settings ?_ ?_
    | split
    | fail_if_no_progress (with_reducible refine Settings.of_mk ?_ rfl)

theorem fbClear_settings {base : State} {h : Nat} {s : State} (h_s : Settings base s) :
    Settings base (fbClear h s) := by
  unfold fbClear
  repeat' first
    | with_reducible assumption
    | with_reducible apply State.updFbe_settings
    | with_reducible apply fbReset_settings
    | intro _

theorem State.updGcb_settings {base : State} {s : State} {g : Nat} {f : GcbRt → GcbRt} (h_s : Settings base s) :
    Settings base (State.updGcb s g f) := by
  unfold State.updGcb
  repeat' first
    | with_reducible assumption
    | intro _
    | fail_if_no_progress (with_reducible refine Settings.of_mk ?_ rfl)

theorem State.updDsv_settings {base : State} {s : State} {n : Nat} {f : DsvRt → DsvRt} (h_s : Settings base s) :
    Settings base (State.updDsv s n f) := by
  unfold State.updDsv
  repeat' first
    | with_reducible assumption
    | intro _
    | fail_if_no_progress (with_reducible refine Settings.of_mk ?_ rfl)

theorem pbKeyFail_settings {base : State} {owner : Nat} {unit : Nat} {last : Option Nat} {status : Nat} {n1 : Nat} {n2 : Nat} {s : State} (h_s : Settings base s) :
    Settings base (pbKeyFail owner unit last status n1 n2 s) := by
  unfold pbKeyFail
  repeat' first
    | with_reducible assumption
    | with_reducible apply record_settings
    | with_reducible refine ite_settings ?_ ?_
    | split

theorem gcbDelta_settings {base : State} {g : Nat} {s : State} (h_s : Settings base s) :
    Settings base (gcbDelta g s) := by
  unfold gcbDelta
  repeat' first
    | with_reducible assumption
    | with_reducible apply deltaSend_settings

theorem gooseFrame_settings {base : State} {g : Nat} {sqNum : Nat} {interval : Nat} {at16 : Nat} {s : State} (h_s : Settings base s) :
    Settings base (gooseFrame g sqNum interval at16 s) := by
  unfold gooseFrame
  repeat' first
    | with_reducible assumption
    | with_reducible apply takeUse_settings
    | with_reducible apply releaseFrame_settings
    | with_reducible apply State.updGcb_settings
    | with_reducible apply pbKeyFail_settings
    | with_reducible apply gcbDelta_settings
    | intro _
    | with_reducible refine ite_settings ?_ ?_
    | split
    | fail_if_no_progress (with_reducible refine Settings.of_mk ?_ rfl)

theorem gcbState_settings {base : State} {g : Nat} {t : Stamp} {s : State} (h_s : Settings base s) :
    Settings base (gcbState g t s) := by
  unfold gcbState
  repeat' first
    | with_reducible assumption
    | with_reducible apply State.updGcb_settings
    | with_reducible apply gooseFrame_settings
    | intro _
    | with_reducible refine ite_settings ?_ ?_
    | split
    | fail_if_no_progress (with_reducible refine Settings.of_mk ?_ rfl)

theorem gcbEvaluate_settings {base : State} {g : Nat} {t : Stamp} {s : State} (h_s : Settings base s) :
    Settings base (gcbEvaluate g t s) := by
  unfold gcbEvaluate
  repeat' first
    | with_reducible assumption
    | with_reducible apply gcbState_settings
    | intro _
    | with_reducible refine ite_settings ?_ ?_
    | split

theorem gcbSim_settings {base : State} {g : Nat} {t : Stamp} {s : State} (h_s : Settings base s) :
    Settings base (gcbSim g t s) := by
  unfold gcbSim
  repeat' first
    | with_reducible assumption
    | with_reducible apply gcbState_settings
    | with_reducible refine ite_settings ?_ ?_
    | split

theorem evaluateCroft_settings {base : State} {c : Nat} {j : Nat} {h : Nat} {q : BitVec 16} {s : State} (h_s : Settings base s) :
    Settings base (evaluateCroft c j h q s) := by
  unfold evaluateCroft
  repeat' first
    | with_reducible assumption
    | with_reducible apply gcbEvaluate_settings
    | with_reducible apply foldl_settings
    | with_reducible apply foldl_settings_fst
    | with_reducible apply foldl_settings_snd
    | intro _
    | split
    | fail_if_no_progress (with_reducible refine Settings.of_mk ?_ rfl)

theorem fbResetPub_settings {base : State} {h : Nat} {s : State} (h_s : Settings base s) :
    Settings base (fbResetPub h s) := by
  unfold fbResetPub
  repeat' first
    | with_reducible assumption
    | with_reducible apply fbReset_settings
    | with_reducible apply evaluateCroft_settings
    | (intro x
       first
         | (have hx : Settings base x := ?_; clear_value x; on_goal 2 => subst x)
         | clear_value x
         | subst x)
    | intro _
    | lift_lets -underBinder
    | split
    | dsimp -zeta only
    | fail_if_no_progress (with_reducible refine Settings.of_mk ?_ rfl)

theorem gcbCommit_settings {base : State} {old : List (BitVec 32)} {g : Nat} {c : Bytes × Bytes × List (BitVec 32)} {s : State} (h_s : Settings base s) :
    Settings base (gcbCommit old g c s) := by
  unfold gcbCommit
  repeat' first
    | with_reducible assumption
    | with_reducible apply State.updGcb_settings
    | intro _
    | with_reducible refine ite_settings ?_ ?_
    | split
    | fail_if_no_progress (with_reducible refine Settings.of_mk ?_ rfl)

theorem dsvCommit_settings {base : State} {n : Nat} {c : Bytes × Bytes × List (BitVec 32)} {s : State} (h_s : Settings base s) :
    Settings base (dsvCommit n c s) := by
  unfold dsvCommit
  repeat' first
    | with_reducible assumption
    | with_reducible apply State.updDsv_settings
    | intro _
    | fail_if_no_progress (with_reducible refine Settings.of_mk ?_ rfl)

theorem discardFiles_settings {base : State} {p : Nat} {h : Nat} {s : State} (h_s : Settings base s) :
    Settings base (discardFiles p h s) := by
  unfold discardFiles
  repeat' first
    | with_reducible assumption
    | with_reducible apply State.updPart_settings
    | with_reducible apply State.updFile_settings
    | with_reducible apply foldl_settings
    | with_reducible apply foldl_settings_fst
    | with_reducible apply foldl_settings_snd
    | intro _
    | fail_if_no_progress (with_reducible refine Settings.of_mk ?_ rfl)

theorem discardFrom_settings {base : State} {p : Nat} {block : Nat} {unit : Nat} {s : State} (h_s : Settings base s) :
    Settings base (discardFrom p block unit s) := by
  unfold discardFrom
  repeat' first
    | with_reducible assumption
    | with_reducible apply State.updPart_settings
    | with_reducible apply State.updFile_settings
    | intro _
    | fail_if_no_progress (with_reducible refine Settings.of_mk ?_ rfl)

theorem loopReset_settings {base : State} {l : Nat} {s : State} (h_s : Settings base s) :
    Settings base (loopReset l s) := by
  unfold loopReset
  repeat' first
    | with_reducible assumption
    | with_reducible apply State.updLoop_settings
    | with_reducible apply loopRestart_settings
    | intro _
    | fail_if_no_progress (with_reducible refine Settings.of_mk ?_ rfl)

theorem hearthStop_settings {base : State} {h : Nat} {s : State} (h_s : Settings base s) :
    Settings base (hearthStop h s) := by
  unfold hearthStop
  repeat' first
    | with_reducible assumption
    | with_reducible apply State.updCore_settings
    | with_reducible apply resetSched_settings
    | with_reducible apply fbResetPub_settings
    | intro _
    | fail_if_no_progress (with_reducible refine Settings.of_mk ?_ rfl)

theorem hearthBegin_settings {base : State} {p : Nat} {h : Nat} {s : State} (h_s : Settings base s) :
    Settings base (hearthBegin p h s) := by
  unfold hearthBegin
  repeat' first
    | with_reducible assumption
    | with_reducible apply discardFiles_settings
    | with_reducible apply hearthStop_settings

theorem cutKeyOps_settings {base : State} {q : Nat → Bool} {s : State} (h_s : Settings base s) :
    Settings base (cutKeyOps q s) := by
  unfold cutKeyOps
  repeat' first
    | with_reducible assumption
    | with_reducible apply finishKey_settings
    | with_reducible apply freeDying_settings
    | with_reducible apply foldl_settings
    | with_reducible apply foldl_settings_fst
    | with_reducible apply foldl_settings_snd
    | intro _
    | fail_if_no_progress (with_reducible refine Settings.of_mk ?_ rfl)

theorem cutFlash_settings {base : State} {q : Nat → Bool} {s : State} (h_s : Settings base s) :
    Settings base (cutFlash q s) := by
  unfold cutFlash
  repeat' first
    | with_reducible assumption
    | with_reducible apply abortOp_settings
    | with_reducible apply abortRead_settings
    | with_reducible apply foldl_settings
    | with_reducible apply foldl_settings_fst
    | with_reducible apply foldl_settings_snd
    | intro _

theorem cutFramesOf_settings {base : State} {q : Nat → Bool} {s : State} (h_s : Settings base s) :
    Settings base (cutFramesOf q s) := by
  unfold cutFramesOf
  repeat' first
    | with_reducible assumption
    | intro _
    | with_reducible refine ite_settings ?_ ?_
    | split
    | fail_if_no_progress (with_reducible refine Settings.of_mk ?_ rfl)

theorem cutFlights_settings {base : State} {p : Nat} {s : State} (h_s : Settings base s) :
    Settings base (cutFlights p s) := by
  unfold cutFlights
  repeat' first
    | with_reducible assumption
    | with_reducible apply finish_settings
    | with_reducible apply foldl_settings
    | with_reducible apply foldl_settings_fst
    | with_reducible apply foldl_settings_snd
    | intro _
    | with_reducible refine ite_settings ?_ ?_
    | split

theorem resetSelectors_settings {base : State} {p : Nat} {s : State} (h_s : Settings base s) : Settings base (resetSelectors p s) := by
  refine ⟨fun k hk => ?_⟩
  rw [← h_s.get k hk]
  refine Tbl.get_filter 0 _ s.regs k (fun v => ?_)
  cases hr : regInfo (k / 65536) with
  | none => simp [hr]
  | some i =>
    have : (i.sel == SelKind.own) = false := by simpa [hr] using hk
    simp [hr, this]

theorem laneReset_settings {base : State} {g : Nat} {s : State} (h_s : Settings base s) :
    Settings base (laneReset g s) := by
  unfold laneReset
  repeat' first
    | with_reducible assumption
    | with_reducible apply State.updLane_settings
    | intro _
    | fail_if_no_progress (with_reducible refine Settings.of_mk ?_ rfl)

theorem rangesRestart_settings {base : State} {p : Nat} {s : State} (h_s : Settings base s) :
    Settings base (rangesRestart p s) := by
  unfold rangesRestart
  repeat' first
    | with_reducible assumption
    | with_reducible apply phStart_settings
    | with_reducible apply detReset_settings
    | with_reducible apply foldl_settings
    | with_reducible apply foldl_settings_fst
    | with_reducible apply foldl_settings_snd
    | intro _
    | with_reducible refine ite_settings ?_ ?_
    | split
    | fail_if_no_progress (with_reducible refine Settings.of_mk ?_ rfl)

theorem expireNodes_settings {base : State} {p : Nat} {s : State} (h_s : Settings base s) :
    Settings base (expireNodes p s) := by
  unfold expireNodes
  repeat' first
    | with_reducible assumption
    | with_reducible apply invalidate_settings
    | with_reducible apply foldl_settings
    | with_reducible apply foldl_settings_fst
    | with_reducible apply foldl_settings_snd
    | intro _
    | with_reducible refine ite_settings ?_ ?_
    | split

theorem partitionBegin_settings {base : State} {p : Nat} {s : State} (h_s : Settings base s) :
    Settings base (partitionBegin p s) := by
  unfold partitionBegin
  repeat' first
    | with_reducible assumption
    | with_reducible apply State.updPart_settings
    | with_reducible apply rollTxn_settings
    | with_reducible apply ttStop_settings
    | with_reducible apply keysDue_settings
    | with_reducible apply capReset_settings
    | with_reducible apply discardFiles_settings
    | with_reducible apply loopReset_settings
    | with_reducible apply hearthStop_settings
    | with_reducible apply cutKeyOps_settings
    | with_reducible apply cutFlash_settings
    | with_reducible apply cutFramesOf_settings
    | with_reducible apply cutFlights_settings
    | with_reducible apply resetSelectors_settings
    | with_reducible apply laneReset_settings
    | with_reducible apply rangesRestart_settings
    | with_reducible apply expireNodes_settings
    | with_reducible apply foldl_settings
    | with_reducible apply foldl_settings_fst
    | with_reducible apply foldl_settings_snd
    | intro _
    | with_reducible refine ite_settings ?_ ?_
    | split
    | fail_if_no_progress (with_reducible refine Settings.of_mk ?_ rfl)

theorem scopeBegin_settings {base : State} {c : RScope} {s : State} (h_s : Settings base s) :
    Settings base (scopeBegin c s) := by
  unfold scopeBegin
  repeat' first
    | with_reducible assumption
    | with_reducible apply capReset_settings
    | with_reducible apply fbResetPub_settings
    | with_reducible apply discardFrom_settings
    | with_reducible apply loopReset_settings
    | with_reducible apply hearthBegin_settings
    | with_reducible apply partitionBegin_settings
    | intro _
    | split
    | fail_if_no_progress (with_reducible refine Settings.of_mk ?_ rfl)

theorem resetBegin_settings {base : State} {x : ResetRun} {s : State} (h_s : Settings base s) :
    Settings base (resetBegin x s) := by
  unfold resetBegin
  repeat' first
    | with_reducible assumption
    | with_reducible apply scopeBegin_settings
    | intro _
    | fail_if_no_progress (with_reducible refine Settings.of_mk ?_ rfl)

theorem startCore_settings {base : State} {h : Nat} {s : State} (h_s : Settings base s) :
    Settings base (startCore h s) := by
  unfold startCore
  repeat' first
    | with_reducible assumption
    | with_reducible apply State.updCore_settings
    | intro _

theorem startPartition_settings {base : State} {p : Nat} {s : State} (h_s : Settings base s) :
    Settings base (startPartition p s) := by
  unfold startPartition
  repeat' first
    | with_reducible assumption
    | with_reducible apply State.updPart_settings
    | with_reducible apply startCore_settings
    | with_reducible apply foldl_settings
    | with_reducible apply foldl_settings_fst
    | with_reducible apply foldl_settings_snd
    | intro _
    | fail_if_no_progress (with_reducible refine Settings.of_mk ?_ rfl)

theorem ringOff_settings {base : State} {p : Nat} {r : Nat} {s : State} (h_s : Settings base s) :
    Settings base (ringOff p r s) := by
  unfold ringOff
  repeat' first
    | with_reducible assumption
    | with_reducible apply State.updRing_settings
    | with_reducible apply finish_settings
    | with_reducible apply rollTxn_settings
    | with_reducible apply ttStop_settings
    | with_reducible apply keysDue_settings
    | with_reducible apply capStop_settings
    | with_reducible apply cutKeyOps_settings
    | with_reducible apply cutFlash_settings
    | with_reducible apply cutFramesOf_settings
    | with_reducible apply foldl_settings
    | with_reducible apply foldl_settings_fst
    | with_reducible apply foldl_settings_snd
    | intro _
    | with_reducible refine ite_settings ?_ ?_
    | split
    | fail_if_no_progress (with_reducible refine Settings.of_mk ?_ rfl)

theorem hearthMoved_settings {base : State} {o : State} {h : Nat} {s : State} (h_s : Settings base s) :
    Settings base (hearthMoved o h s) := by
  unfold hearthMoved
  repeat' first
    | with_reducible assumption
    | with_reducible apply fbClear_settings
    | with_reducible apply hearthBegin_settings
    | intro _
    | fail_if_no_progress (with_reducible refine Settings.of_mk ?_ rfl)

theorem applyBefore_settings {base : State} {m : Nat} {ks : List Nat} {n : State} {s : State} (h_n : Settings base n) (h_s : Settings base s) :
    Settings base (applyBefore m ks n s) := by
  unfold applyBefore
  repeat' first
    | with_reducible assumption
    | with_reducible apply ttStop_settings
    | with_reducible apply State.updCap_settings
    | with_reducible apply capReset_settings
    | with_reducible apply State.updPws_settings
    | with_reducible apply flCut_settings
    | with_reducible apply loopReset_settings
    | with_reducible apply ringOff_settings
    | with_reducible apply hearthMoved_settings
    | with_reducible apply foldl_settings
    | with_reducible apply foldl_settings_fst
    | with_reducible apply foldl_settings_snd
    | intro _
    | with_reducible refine ite_settings ?_ ?_
    | split
    | fail_if_no_progress (with_reducible refine Settings.of_mk ?_ rfl)

theorem chainAnew_settings {base : State} {m : Nat} {c : Nat} {ce : Nat} {s : State} (h_s : Settings base s) :
    Settings base (chainAnew m c ce s) := by
  unfold chainAnew
  repeat' first
    | with_reducible assumption
    | with_reducible apply State.updChain_settings
    | with_reducible apply restartLoops_settings
    | with_reducible apply State.updCap_settings
    | with_reducible apply foldl_settings
    | with_reducible apply foldl_settings_fst
    | with_reducible apply foldl_settings_snd
    | intro _
    | with_reducible refine ite_settings ?_ ?_
    | split
    | fail_if_no_progress (with_reducible refine Settings.of_mk ?_ rfl)

theorem restartChains_settings {base : State} {m : Nat} {x : Ste} {s : State} (h_s : Settings base s) :
    Settings base (restartChains m x s) := by
  unfold restartChains
  repeat' first
    | with_reducible assumption
    | with_reducible apply chainAnew_settings
    | with_reducible apply foldl_settings
    | with_reducible apply foldl_settings_fst
    | with_reducible apply foldl_settings_snd
    | intro _
    | with_reducible refine ite_settings ?_ ?_
    | split

theorem steCommit_settings {base : State} {m : Nat} {o : State} {e : Nat} {s : State} (h_s : Settings base s) :
    Settings base (steCommit m o e s) := by
  unfold steCommit
  repeat' first
    | with_reducible assumption
    | with_reducible apply State.updStream_settings
    | with_reducible apply streamTo_settings
    | with_reducible apply restartChains_settings
    | intro _
    | with_reducible refine ite_settings ?_ ?_
    | split
    | fail_if_no_progress (with_reducible refine Settings.of_mk ?_ rfl)

theorem chainCommit_settings {base : State} {m : Nat} {o : State} {k : Nat} {s : State} (h_s : Settings base s) :
    Settings base (chainCommit m o k s) := by
  unfold chainCommit
  repeat' first
    | with_reducible assumption
    | with_reducible apply State.updChain_settings
    | with_reducible apply chainAnew_settings
    | intro _
    | with_reducible refine ite_settings ?_ ?_
    | split
    | fail_if_no_progress (with_reducible refine Settings.of_mk ?_ rfl)

theorem rangeMoved_settings {base : State} {m : Nat} {c : Nat} {r : Nat} {s : State} (h_s : Settings base s) :
    Settings base (rangeMoved m c r s) := by
  unfold rangeMoved
  repeat' first
    | with_reducible assumption
    | with_reducible apply chainAnew_settings
    | with_reducible apply foldl_settings
    | with_reducible apply foldl_settings_fst
    | with_reducible apply foldl_settings_snd
    | intro _

theorem surgeMoved_settings {base : State} {sc : Nat} {s : State} (h_s : Settings base s) :
    Settings base (surgeMoved sc s) := by
  unfold surgeMoved
  repeat' first
    | with_reducible assumption
    | with_reducible apply detReset_settings
    | with_reducible apply foldl_settings
    | with_reducible apply foldl_settings_fst
    | with_reducible apply foldl_settings_snd
    | intro _
    | fail_if_no_progress (with_reducible refine Settings.of_mk ?_ rfl)

theorem grpCommit_settings {base : State} {m : Nat} {o : State} {sel : Nat} {s : State} (h_s : Settings base s) :
    Settings base (grpCommit m o sel s) := by
  unfold grpCommit
  repeat' first
    | with_reducible assumption
    | with_reducible apply phStart_settings
    | with_reducible refine ite_settings ?_ ?_
    | split

theorem lineCommit_settings {base : State} {o : State} {l : Nat} {s : State} (h_s : Settings base s) :
    Settings base (lineCommit o l s) := by
  unfold lineCommit
  repeat' first
    | with_reducible assumption
    | with_reducible apply detReset_settings
    | with_reducible refine ite_settings ?_ ?_
    | split

theorem gcbPut_settings {base : State} {m : Nat} {o : State} {g : Nat} {s : State} (h_s : Settings base s) :
    Settings base (gcbPut m o g s) := by
  unfold gcbPut
  repeat' first
    | with_reducible assumption
    | with_reducible apply State.updGcb_settings
    | with_reducible apply gcbSim_settings
    | with_reducible apply gcbCommit_settings
    | intro _
    | with_reducible refine ite_settings ?_ ?_
    | split
    | fail_if_no_progress (with_reducible refine Settings.of_mk ?_ rfl)

theorem dsvPut_settings {base : State} {g : Nat} {s : State} (h_s : Settings base s) :
    Settings base (dsvPut g s) := by
  unfold dsvPut
  repeat' first
    | with_reducible assumption
    | with_reducible apply State.updDsv_settings
    | with_reducible apply dsvCommit_settings
    | intro _
    | with_reducible refine ite_settings ?_ ?_
    | split
    | fail_if_no_progress (with_reducible refine Settings.of_mk ?_ rfl)

theorem loopCommit_settings {base : State} {m : Nat} {o : State} {l : Nat} {s : State} (h_s : Settings base s) :
    Settings base (loopCommit m o l s) := by
  unfold loopCommit
  repeat' first
    | with_reducible assumption
    | with_reducible apply State.updLane_settings
    | with_reducible apply State.updLoop_settings
    | intro _
    | with_reducible refine ite_settings ?_ ?_
    | split
    | fail_if_no_progress (with_reducible refine Settings.of_mk ?_ rfl)

theorem laneCommit_settings {base : State} {o : State} {g : Nat} {s : State} (h_s : Settings base s) :
    Settings base (laneCommit o g s) := by
  unfold laneCommit
  repeat' first
    | with_reducible assumption
    | with_reducible apply laneReset_settings
    | with_reducible refine ite_settings ?_ ?_
    | split

theorem bankCommit_settings {base : State} {m : Nat} {o : State} {h : Nat} {s : State} (h_s : Settings base s) :
    Settings base (bankCommit m o h s) := by
  unfold bankCommit
  repeat' first
    | with_reducible assumption
    | with_reducible apply State.updFbe_settings
    | intro _
    | with_reducible refine ite_settings ?_ ?_
    | split
    | fail_if_no_progress (with_reducible refine Settings.of_mk ?_ rfl)

theorem taskCommit_settings {base : State} {o : State} {k : Nat} {s : State} (h_s : Settings base s) :
    Settings base (taskCommit o k s) := by
  unfold taskCommit
  repeat' first
    | with_reducible assumption
    | with_reducible apply State.updTask_settings
    | with_reducible apply State.updSched_settings
    | with_reducible apply startHistory_settings
    | with_reducible apply postRelease_settings
    | intro _
    | with_reducible refine ite_settings ?_ ?_
    | split
    | fail_if_no_progress (with_reducible refine Settings.of_mk ?_ rfl)

theorem partCommit_settings {base : State} {o : State} {p : Nat} {s : State} (h_s : Settings base s) :
    Settings base (partCommit o p s) := by
  unfold partCommit
  repeat' first
    | with_reducible assumption
    | with_reducible apply State.updFbe_settings
    | with_reducible apply resetBegin_settings
    | with_reducible apply startPartition_settings
    | with_reducible apply foldl_settings
    | with_reducible apply foldl_settings_fst
    | with_reducible apply foldl_settings_snd
    | intro _
    | with_reducible refine ite_settings ?_ ?_
    | split
    | fail_if_no_progress (with_reducible refine Settings.of_mk ?_ rfl)

theorem domOff_settings {base : State} {d : Nat} {s : State} (h_s : Settings base s) :
    Settings base (domOff d s) := by
  unfold domOff
  repeat' first
    | with_reducible assumption
    | intro _
    | with_reducible refine ite_settings ?_ ?_
    | split
    | fail_if_no_progress (with_reducible refine Settings.of_mk ?_ rfl)

theorem domainStops_settings {base : State} {d : Nat} {s : State} (h_s : Settings base s) :
    Settings base (domainStops d s) := by
  unfold domainStops
  repeat' first
    | with_reducible assumption
    | with_reducible apply linkLoss_settings
    | with_reducible apply capStop_settings
    | with_reducible apply hearthBegin_settings
    | with_reducible apply domOff_settings
    | with_reducible apply foldl_settings
    | with_reducible apply foldl_settings_fst
    | with_reducible apply foldl_settings_snd
    | intro _
    | with_reducible refine ite_settings ?_ ?_
    | split
    | fail_if_no_progress (with_reducible refine Settings.of_mk ?_ rfl)

theorem domCommit_settings {base : State} {o : State} {s : State} (h_s : Settings base s) :
    Settings base (domCommit o s) := by
  unfold domCommit
  repeat' first
    | with_reducible assumption
    | with_reducible apply domainStops_settings
    | with_reducible apply foldl_settings
    | with_reducible apply foldl_settings_fst
    | with_reducible apply foldl_settings_snd
    | intro _
    | with_reducible refine ite_settings ?_ ?_
    | split
    | fail_if_no_progress (with_reducible refine Settings.of_mk ?_ rfl)

theorem clsCommit_settings {base : State} {o : State} {ks : List Nat} {s : State} (h_s : Settings base s) :
    Settings base (clsCommit o ks s) := by
  unfold clsCommit
  repeat' first
    | with_reducible assumption
    | intro _
    | with_reducible refine ite_settings ?_ ?_
    | split
    | fail_if_no_progress (with_reducible refine Settings.of_mk ?_ rfl)

theorem ringsStart_settings {base : State} {ks : List Nat} {o : State} {s : State} (h_s : Settings base s) :
    Settings base (ringsStart ks o s) := by
  unfold ringsStart
  repeat' first
    | with_reducible assumption
    | with_reducible apply State.updRing_settings
    | with_reducible apply foldl_settings
    | with_reducible apply foldl_settings_fst
    | with_reducible apply foldl_settings_snd
    | intro _

theorem applyAfter_settings {base : State} {m : Nat} {ks : List Nat} {o : State} {s : State} (h_s : Settings base s) :
    Settings base (applyAfter m ks o s) := by
  unfold applyAfter
  repeat' first
    | with_reducible assumption
    | with_reducible apply dispatchIf_settings
    | with_reducible apply portChanged_settings
    | with_reducible apply steCommit_settings
    | with_reducible apply chainCommit_settings
    | with_reducible apply rangeMoved_settings
    | with_reducible apply surgeMoved_settings
    | with_reducible apply grpCommit_settings
    | with_reducible apply lineCommit_settings
    | with_reducible apply gcbPut_settings
    | with_reducible apply dsvPut_settings
    | with_reducible apply loopCommit_settings
    | with_reducible apply laneCommit_settings
    | with_reducible apply bankCommit_settings
    | with_reducible apply taskCommit_settings
    | with_reducible apply partCommit_settings
    | with_reducible apply domCommit_settings
    | with_reducible apply clsCommit_settings
    | with_reducible apply ringsStart_settings
    | with_reducible apply foldl_settings
    | with_reducible apply foldl_settings_fst
    | with_reducible apply foldl_settings_snd
    | intro _
    | with_reducible refine ite_settings ?_ ?_
    | split
    | fail_if_no_progress (with_reducible refine Settings.of_mk ?_ rfl)

theorem failReads_settings {base : State} {n : State} {ks : List Nat} {f : Fail} {s : State} (h_n : Settings base n) (h_s : Settings base s) :
    Settings base (failReads n ks f s) := by
  unfold failReads
  repeat' first
    | with_reducible assumption
    | with_reducible apply State.winFault_settings
    | intro _
    | with_reducible refine ite_settings ?_ ?_
    | split

theorem txnEnded_settings {base : State} {p : Nat} {m : Nat} {status : Nat} {s : State} (h_s : Settings base s) :
    Settings base (txnEnded p m status s) := by
  unfold txnEnded
  repeat' first
    | with_reducible assumption
    | with_reducible apply State.updTxn_settings
    | with_reducible apply deltaSend_settings
    | intro _
    | fail_if_no_progress (with_reducible refine Settings.of_mk ?_ rfl)


end Sys2Proof.Machine
end

