-- ==== Sys2Proof/Laws/State.lean ====
section
/-! SUPPORT. What the plain updates of State leave unchanged, field by field and true by rfl; a read of the entry that an update
changed; and a read of memory after a write. -/

set_option Elab.async false

namespace Sys2Proof.Machine

/-- Changes ig.streams alone. -/
@[simp] theorem State.updStream_frame (s : State) (e : Nat) (f : StreamRt → StreamRt) :
    (State.updStream s e f).pending = s.pending ∧ (State.updStream s e f).tb = s.tb ∧ (State.updStream s e f).tu = s.tu ∧
    (State.updStream s e f).ptp = s.ptp ∧ (State.updStream s e f).regs = s.regs ∧ (State.updStream s e f).dram = s.dram ∧
    (State.updStream s e f).pt = s.pt ∧ (State.updStream s e f).files = s.files ∧
    (State.updStream s e f).cores = s.cores ∧ (State.updStream s e f).db = s.db ∧ (State.updStream s e f).tx = s.tx ∧
    (State.updStream s e f).sq = s.sq ∧ (State.updStream s e f).pw = s.pw ∧ (State.updStream s e f).st = s.st ∧
    (State.updStream s e f).ty = s.ty ∧ (State.updStream s e f).ok = s.ok ∧ (State.updStream s e f).pr = s.pr ∧
    (State.updStream s e f).pu = s.pu ∧ (State.updStream s e f).snap = s.snap ∧ (State.updStream s e f).gn = s.gn ∧
    (State.updStream s e f).mc = s.mc ∧ (State.updStream s e f).ig.olds = s.ig.olds ∧
    (State.updStream s e f).ig.cnt = s.ig.cnt ∧ (State.updStream s e f).ig.other = s.ig.other ∧
    (State.updStream s e f).ig.dup = s.ig.dup ∧ (State.updStream s e f).ig.points = s.ig.points ∧
    (State.updStream s e f).ig.opens = s.ig.opens ∧ (State.updStream s e f).ig.lagOld = s.ig.lagOld ∧
    (State.updStream s e f).ig.closed = s.ig.closed ∧ (State.updStream s e f).ig.edges = s.ig.edges ∧
    (State.updStream s e f).fc = s.fc ∧ (State.updStream s e f).tg = s.tg ∧ (State.updStream s e f).ph = s.ph ∧
    (State.updStream s e f).fl = s.fl ∧ (State.updStream s e f).fb = s.fb ∧ (State.updStream s e f).pb = s.pb ∧
    (State.updStream s e f).lp = s.lp ∧ (State.updStream s e f).draws = s.draws :=
  by and_intros <;> rfl

/-- Changes ig.cnt alone. -/
@[simp] theorem igCountN_frame (s : State) (e i n : Nat) :
    (igCountN s e i n).pending = s.pending ∧ (igCountN s e i n).tb = s.tb ∧ (igCountN s e i n).tu = s.tu ∧
    (igCountN s e i n).ptp = s.ptp ∧ (igCountN s e i n).regs = s.regs ∧ (igCountN s e i n).dram = s.dram ∧
    (igCountN s e i n).pt = s.pt ∧ (igCountN s e i n).files = s.files ∧ (igCountN s e i n).cores = s.cores ∧
    (igCountN s e i n).db = s.db ∧ (igCountN s e i n).tx = s.tx ∧ (igCountN s e i n).sq = s.sq ∧
    (igCountN s e i n).pw = s.pw ∧ (igCountN s e i n).st = s.st ∧ (igCountN s e i n).ty = s.ty ∧
    (igCountN s e i n).ok = s.ok ∧ (igCountN s e i n).pr = s.pr ∧ (igCountN s e i n).pu = s.pu ∧
    (igCountN s e i n).snap = s.snap ∧ (igCountN s e i n).gn = s.gn ∧ (igCountN s e i n).mc = s.mc ∧
    (igCountN s e i n).ig.streams = s.ig.streams ∧ (igCountN s e i n).ig.olds = s.ig.olds ∧
    (igCountN s e i n).ig.other = s.ig.other ∧ (igCountN s e i n).ig.dup = s.ig.dup ∧
    (igCountN s e i n).ig.points = s.ig.points ∧ (igCountN s e i n).ig.opens = s.ig.opens ∧
    (igCountN s e i n).ig.lagOld = s.ig.lagOld ∧ (igCountN s e i n).ig.closed = s.ig.closed ∧
    (igCountN s e i n).ig.edges = s.ig.edges ∧ (igCountN s e i n).fc = s.fc ∧ (igCountN s e i n).tg = s.tg ∧
    (igCountN s e i n).ph = s.ph ∧ (igCountN s e i n).fl = s.fl ∧ (igCountN s e i n).fb = s.fb ∧
    (igCountN s e i n).pb = s.pb ∧ (igCountN s e i n).lp = s.lp ∧ (igCountN s e i n).draws = s.draws :=
  by and_intros <;> rfl

/-- Changes ig.cnt alone. -/
@[simp] theorem igReason_frame (s : State) (e reason : Nat) :
    (igReason s e reason).pending = s.pending ∧ (igReason s e reason).tb = s.tb ∧ (igReason s e reason).tu = s.tu ∧
    (igReason s e reason).ptp = s.ptp ∧ (igReason s e reason).regs = s.regs ∧ (igReason s e reason).dram = s.dram ∧
    (igReason s e reason).pt = s.pt ∧ (igReason s e reason).files = s.files ∧ (igReason s e reason).cores = s.cores ∧
    (igReason s e reason).db = s.db ∧ (igReason s e reason).tx = s.tx ∧ (igReason s e reason).sq = s.sq ∧
    (igReason s e reason).pw = s.pw ∧ (igReason s e reason).st = s.st ∧ (igReason s e reason).ty = s.ty ∧
    (igReason s e reason).ok = s.ok ∧ (igReason s e reason).pr = s.pr ∧ (igReason s e reason).pu = s.pu ∧
    (igReason s e reason).snap = s.snap ∧ (igReason s e reason).gn = s.gn ∧ (igReason s e reason).mc = s.mc ∧
    (igReason s e reason).ig.streams = s.ig.streams ∧ (igReason s e reason).ig.olds = s.ig.olds ∧
    (igReason s e reason).ig.other = s.ig.other ∧ (igReason s e reason).ig.dup = s.ig.dup ∧
    (igReason s e reason).ig.points = s.ig.points ∧ (igReason s e reason).ig.opens = s.ig.opens ∧
    (igReason s e reason).ig.lagOld = s.ig.lagOld ∧ (igReason s e reason).ig.closed = s.ig.closed ∧
    (igReason s e reason).ig.edges = s.ig.edges ∧ (igReason s e reason).fc = s.fc ∧ (igReason s e reason).tg = s.tg ∧
    (igReason s e reason).ph = s.ph ∧ (igReason s e reason).fl = s.fl ∧ (igReason s e reason).fb = s.fb ∧
    (igReason s e reason).pb = s.pb ∧ (igReason s e reason).lp = s.lp ∧ (igReason s e reason).draws = s.draws :=
  by and_intros <;> rfl

/-- Changes ig.cnt alone. -/
@[simp] theorem igInconsistent_frame (s : State) (e : Nat) :
    (igInconsistent s e).pending = s.pending ∧ (igInconsistent s e).tb = s.tb ∧ (igInconsistent s e).tu = s.tu ∧
    (igInconsistent s e).ptp = s.ptp ∧ (igInconsistent s e).regs = s.regs ∧ (igInconsistent s e).dram = s.dram ∧
    (igInconsistent s e).pt = s.pt ∧ (igInconsistent s e).files = s.files ∧ (igInconsistent s e).cores = s.cores ∧
    (igInconsistent s e).db = s.db ∧ (igInconsistent s e).tx = s.tx ∧ (igInconsistent s e).sq = s.sq ∧
    (igInconsistent s e).pw = s.pw ∧ (igInconsistent s e).st = s.st ∧ (igInconsistent s e).ty = s.ty ∧
    (igInconsistent s e).ok = s.ok ∧ (igInconsistent s e).pr = s.pr ∧ (igInconsistent s e).pu = s.pu ∧
    (igInconsistent s e).snap = s.snap ∧ (igInconsistent s e).gn = s.gn ∧ (igInconsistent s e).mc = s.mc ∧
    (igInconsistent s e).ig.streams = s.ig.streams ∧ (igInconsistent s e).ig.olds = s.ig.olds ∧
    (igInconsistent s e).ig.other = s.ig.other ∧ (igInconsistent s e).ig.dup = s.ig.dup ∧
    (igInconsistent s e).ig.points = s.ig.points ∧ (igInconsistent s e).ig.opens = s.ig.opens ∧
    (igInconsistent s e).ig.lagOld = s.ig.lagOld ∧ (igInconsistent s e).ig.closed = s.ig.closed ∧
    (igInconsistent s e).ig.edges = s.ig.edges ∧ (igInconsistent s e).fc = s.fc ∧ (igInconsistent s e).tg = s.tg ∧
    (igInconsistent s e).ph = s.ph ∧ (igInconsistent s e).fl = s.fl ∧ (igInconsistent s e).fb = s.fb ∧
    (igInconsistent s e).pb = s.pb ∧ (igInconsistent s e).lp = s.lp ∧ (igInconsistent s e).draws = s.draws :=
  by and_intros <;> rfl

/-- Changes ig.other alone. -/
@[simp] theorem igOther_frame (s : State) (off : Nat) :
    (igOther s off).pending = s.pending ∧ (igOther s off).tb = s.tb ∧ (igOther s off).tu = s.tu ∧
    (igOther s off).ptp = s.ptp ∧ (igOther s off).regs = s.regs ∧ (igOther s off).dram = s.dram ∧
    (igOther s off).pt = s.pt ∧ (igOther s off).files = s.files ∧ (igOther s off).cores = s.cores ∧
    (igOther s off).db = s.db ∧ (igOther s off).tx = s.tx ∧ (igOther s off).sq = s.sq ∧ (igOther s off).pw = s.pw ∧
    (igOther s off).st = s.st ∧ (igOther s off).ty = s.ty ∧ (igOther s off).ok = s.ok ∧ (igOther s off).pr = s.pr ∧
    (igOther s off).pu = s.pu ∧ (igOther s off).snap = s.snap ∧ (igOther s off).gn = s.gn ∧ (igOther s off).mc = s.mc ∧
    (igOther s off).ig.streams = s.ig.streams ∧ (igOther s off).ig.olds = s.ig.olds ∧ (igOther s off).ig.cnt = s.ig.cnt ∧
    (igOther s off).ig.dup = s.ig.dup ∧ (igOther s off).ig.points = s.ig.points ∧ (igOther s off).ig.opens = s.ig.opens ∧
    (igOther s off).ig.lagOld = s.ig.lagOld ∧ (igOther s off).ig.closed = s.ig.closed ∧
    (igOther s off).ig.edges = s.ig.edges ∧ (igOther s off).fc = s.fc ∧ (igOther s off).tg = s.tg ∧
    (igOther s off).ph = s.ph ∧ (igOther s off).fl = s.fl ∧ (igOther s off).fb = s.fb ∧ (igOther s off).pb = s.pb ∧
    (igOther s off).lp = s.lp ∧ (igOther s off).draws = s.draws :=
  by and_intros <;> rfl

/-- Changes fc.winIgn alone. -/
@[simp] theorem winIgn_frame (s : State) (c : Nat) :
    (winIgn s c).pending = s.pending ∧ (winIgn s c).tb = s.tb ∧ (winIgn s c).tu = s.tu ∧ (winIgn s c).ptp = s.ptp ∧
    (winIgn s c).regs = s.regs ∧ (winIgn s c).dram = s.dram ∧ (winIgn s c).pt = s.pt ∧ (winIgn s c).files = s.files ∧
    (winIgn s c).cores = s.cores ∧ (winIgn s c).db = s.db ∧ (winIgn s c).tx = s.tx ∧ (winIgn s c).sq = s.sq ∧
    (winIgn s c).pw = s.pw ∧ (winIgn s c).st = s.st ∧ (winIgn s c).ty = s.ty ∧ (winIgn s c).ok = s.ok ∧
    (winIgn s c).pr = s.pr ∧ (winIgn s c).pu = s.pu ∧ (winIgn s c).snap = s.snap ∧ (winIgn s c).gn = s.gn ∧
    (winIgn s c).mc = s.mc ∧ (winIgn s c).ig = s.ig ∧ (winIgn s c).fc.chains = s.fc.chains ∧ (winIgn s c).tg = s.tg ∧
    (winIgn s c).ph = s.ph ∧ (winIgn s c).fl = s.fl ∧ (winIgn s c).fb = s.fb ∧ (winIgn s c).pb = s.pb ∧
    (winIgn s c).lp = s.lp ∧ (winIgn s c).draws = s.draws :=
  by and_intros <;> rfl

/-- Changes fc.chains alone. -/
@[simp] theorem State.updChain_frame (s : State) (c ce : Nat) (f : ChainRt → ChainRt) :
    (State.updChain s c ce f).pending = s.pending ∧ (State.updChain s c ce f).tb = s.tb ∧
    (State.updChain s c ce f).tu = s.tu ∧ (State.updChain s c ce f).ptp = s.ptp ∧
    (State.updChain s c ce f).regs = s.regs ∧ (State.updChain s c ce f).dram = s.dram ∧
    (State.updChain s c ce f).pt = s.pt ∧ (State.updChain s c ce f).files = s.files ∧
    (State.updChain s c ce f).cores = s.cores ∧ (State.updChain s c ce f).db = s.db ∧
    (State.updChain s c ce f).tx = s.tx ∧ (State.updChain s c ce f).sq = s.sq ∧ (State.updChain s c ce f).pw = s.pw ∧
    (State.updChain s c ce f).st = s.st ∧ (State.updChain s c ce f).ty = s.ty ∧ (State.updChain s c ce f).ok = s.ok ∧
    (State.updChain s c ce f).pr = s.pr ∧ (State.updChain s c ce f).pu = s.pu ∧ (State.updChain s c ce f).snap = s.snap ∧
    (State.updChain s c ce f).gn = s.gn ∧ (State.updChain s c ce f).mc = s.mc ∧ (State.updChain s c ce f).ig = s.ig ∧
    (State.updChain s c ce f).fc.winIgn = s.fc.winIgn ∧ (State.updChain s c ce f).tg = s.tg ∧
    (State.updChain s c ce f).ph = s.ph ∧ (State.updChain s c ce f).fl = s.fl ∧ (State.updChain s c ce f).fb = s.fb ∧
    (State.updChain s c ce f).pb = s.pb ∧ (State.updChain s c ce f).lp = s.lp ∧
    (State.updChain s c ce f).draws = s.draws :=
  by and_intros <;> rfl

/-- Changes pw.entries, draws alone. -/
@[simp] theorem withEntry0_frame (s : State) :
    (withEntry0 s).pending = s.pending ∧ (withEntry0 s).tb = s.tb ∧ (withEntry0 s).tu = s.tu ∧
    (withEntry0 s).ptp = s.ptp ∧ (withEntry0 s).regs = s.regs ∧ (withEntry0 s).dram = s.dram ∧ (withEntry0 s).pt = s.pt ∧
    (withEntry0 s).files = s.files ∧ (withEntry0 s).cores = s.cores ∧ (withEntry0 s).db = s.db ∧
    (withEntry0 s).tx = s.tx ∧ (withEntry0 s).sq = s.sq ∧ (withEntry0 s).pw.st = s.pw.st ∧
    (withEntry0 s).pw.safe = s.pw.safe ∧ (withEntry0 s).pw.step = s.pw.step ∧ (withEntry0 s).pw.stepAt = s.pw.stepAt ∧
    (withEntry0 s).pw.feeds = s.pw.feeds ∧ (withEntry0 s).pw.budgetLow = s.pw.budgetLow ∧
    (withEntry0 s).pw.holdupOk = s.pw.holdupOk ∧ (withEntry0 s).pw.cellLow = s.pw.cellLow ∧
    (withEntry0 s).pw.cellMv = s.pw.cellMv ∧ (withEntry0 s).pw.doms = s.pw.doms ∧ (withEntry0 s).pw.detail = s.pw.detail ∧
    (withEntry0 s).pw.retries = s.pw.retries ∧ (withEntry0 s).pw.haltAt = s.pw.haltAt ∧
    (withEntry0 s).pw.dead = s.pw.dead ∧ (withEntry0 s).pw.lossAt = s.pw.lossAt ∧ (withEntry0 s).pw.kept = s.pw.kept ∧
    (withEntry0 s).pw.bank = s.pw.bank ∧ (withEntry0 s).pw.fromOne = s.pw.fromOne ∧
    (withEntry0 s).pw.bundle = s.pw.bundle ∧ (withEntry0 s).pw.startAt = s.pw.startAt ∧
    (withEntry0 s).pw.platform = s.pw.platform ∧ (withEntry0 s).pw.matrix = s.pw.matrix ∧ (withEntry0 s).st = s.st ∧
    (withEntry0 s).ty = s.ty ∧ (withEntry0 s).ok = s.ok ∧ (withEntry0 s).pr = s.pr ∧ (withEntry0 s).pu = s.pu ∧
    (withEntry0 s).snap = s.snap ∧ (withEntry0 s).gn = s.gn ∧ (withEntry0 s).mc = s.mc ∧ (withEntry0 s).ig = s.ig ∧
    (withEntry0 s).fc = s.fc ∧ (withEntry0 s).tg = s.tg ∧ (withEntry0 s).ph = s.ph ∧ (withEntry0 s).fl = s.fl ∧
    (withEntry0 s).fb = s.fb ∧ (withEntry0 s).pb = s.pb ∧ (withEntry0 s).lp = s.lp :=
  by and_intros <;> rfl

/-- Changes pw.step, pw.stepAt, pr.negAt, pr.seen, pr.seenActive alone. -/
@[simp] theorem negotiationBegin_frame (s : State) :
    (negotiationBegin s).pending = s.pending ∧ (negotiationBegin s).tb = s.tb ∧ (negotiationBegin s).tu = s.tu ∧
    (negotiationBegin s).ptp = s.ptp ∧ (negotiationBegin s).regs = s.regs ∧ (negotiationBegin s).dram = s.dram ∧
    (negotiationBegin s).pt = s.pt ∧ (negotiationBegin s).files = s.files ∧ (negotiationBegin s).cores = s.cores ∧
    (negotiationBegin s).db = s.db ∧ (negotiationBegin s).tx = s.tx ∧ (negotiationBegin s).sq = s.sq ∧
    (negotiationBegin s).pw.st = s.pw.st ∧ (negotiationBegin s).pw.safe = s.pw.safe ∧
    (negotiationBegin s).pw.feeds = s.pw.feeds ∧ (negotiationBegin s).pw.budgetLow = s.pw.budgetLow ∧
    (negotiationBegin s).pw.holdupOk = s.pw.holdupOk ∧ (negotiationBegin s).pw.cellLow = s.pw.cellLow ∧
    (negotiationBegin s).pw.cellMv = s.pw.cellMv ∧ (negotiationBegin s).pw.doms = s.pw.doms ∧
    (negotiationBegin s).pw.detail = s.pw.detail ∧ (negotiationBegin s).pw.retries = s.pw.retries ∧
    (negotiationBegin s).pw.haltAt = s.pw.haltAt ∧ (negotiationBegin s).pw.dead = s.pw.dead ∧
    (negotiationBegin s).pw.lossAt = s.pw.lossAt ∧ (negotiationBegin s).pw.kept = s.pw.kept ∧
    (negotiationBegin s).pw.bank = s.pw.bank ∧ (negotiationBegin s).pw.fromOne = s.pw.fromOne ∧
    (negotiationBegin s).pw.bundle = s.pw.bundle ∧ (negotiationBegin s).pw.startAt = s.pw.startAt ∧
    (negotiationBegin s).pw.entries = s.pw.entries ∧ (negotiationBegin s).pw.platform = s.pw.platform ∧
    (negotiationBegin s).pw.matrix = s.pw.matrix ∧ (negotiationBegin s).st = s.st ∧ (negotiationBegin s).ty = s.ty ∧
    (negotiationBegin s).ok = s.ok ∧ (negotiationBegin s).pr.position = s.pr.position ∧
    (negotiationBegin s).pr.role = s.pr.role ∧ (negotiationBegin s).pr.sync = s.pr.sync ∧
    (negotiationBegin s).pr.fit = s.pr.fit ∧ (negotiationBegin s).pr.silent = s.pr.silent ∧
    (negotiationBegin s).pr.hb0 = s.pr.hb0 ∧ (negotiationBegin s).pr.hb1 = s.pr.hb1 ∧
    (negotiationBegin s).pr.hbT16 = s.pr.hbT16 ∧ (negotiationBegin s).pr.neighCls = s.pr.neighCls ∧
    (negotiationBegin s).pr.m0Up = s.pr.m0Up ∧ (negotiationBegin s).pr.m1Up = s.pr.m1Up ∧
    (negotiationBegin s).pr.mateLost = s.pr.mateLost ∧ (negotiationBegin s).pr.bcnAt = s.pr.bcnAt ∧
    (negotiationBegin s).pr.neigh = s.pr.neigh ∧ (negotiationBegin s).pr.beaconLost = s.pr.beaconLost ∧
    (negotiationBegin s).pr.bcnSeq = s.pr.bcnSeq ∧ (negotiationBegin s).pr.hbSentAt = s.pr.hbSentAt ∧
    (negotiationBegin s).pr.bcnSentAt = s.pr.bcnSentAt ∧ (negotiationBegin s).pr.beacons = s.pr.beacons ∧
    (negotiationBegin s).pr.cnt = s.pr.cnt ∧ (negotiationBegin s).pr.lastT = s.pr.lastT ∧
    (negotiationBegin s).pr.sw = s.pr.sw ∧ (negotiationBegin s).pu = s.pu ∧ (negotiationBegin s).snap = s.snap ∧
    (negotiationBegin s).gn = s.gn ∧ (negotiationBegin s).mc = s.mc ∧ (negotiationBegin s).ig = s.ig ∧
    (negotiationBegin s).fc = s.fc ∧ (negotiationBegin s).tg = s.tg ∧ (negotiationBegin s).ph = s.ph ∧
    (negotiationBegin s).fl = s.fl ∧ (negotiationBegin s).fb = s.fb ∧ (negotiationBegin s).pb = s.pb ∧
    (negotiationBegin s).lp = s.lp ∧ (negotiationBegin s).draws = s.draws :=
  by and_intros <;> rfl

/-- Changes tg.caps alone. -/
@[simp] theorem State.updCap_frame (s : State) (g : Nat) (f : CapUnit → CapUnit) :
    (State.updCap s g f).pending = s.pending ∧ (State.updCap s g f).tb = s.tb ∧ (State.updCap s g f).tu = s.tu ∧
    (State.updCap s g f).ptp = s.ptp ∧ (State.updCap s g f).regs = s.regs ∧ (State.updCap s g f).dram = s.dram ∧
    (State.updCap s g f).pt = s.pt ∧ (State.updCap s g f).files = s.files ∧ (State.updCap s g f).cores = s.cores ∧
    (State.updCap s g f).db = s.db ∧ (State.updCap s g f).tx = s.tx ∧ (State.updCap s g f).sq = s.sq ∧
    (State.updCap s g f).pw = s.pw ∧ (State.updCap s g f).st = s.st ∧ (State.updCap s g f).ty = s.ty ∧
    (State.updCap s g f).ok = s.ok ∧ (State.updCap s g f).pr = s.pr ∧ (State.updCap s g f).pu = s.pu ∧
    (State.updCap s g f).snap = s.snap ∧ (State.updCap s g f).gn = s.gn ∧ (State.updCap s g f).mc = s.mc ∧
    (State.updCap s g f).ig = s.ig ∧ (State.updCap s g f).fc = s.fc ∧ (State.updCap s g f).tg.surge = s.tg.surge ∧
    (State.updCap s g f).tg.cts = s.tg.cts ∧ (State.updCap s g f).ph = s.ph ∧ (State.updCap s g f).fl = s.fl ∧
    (State.updCap s g f).fb = s.fb ∧ (State.updCap s g f).pb = s.pb ∧ (State.updCap s g f).lp = s.lp ∧
    (State.updCap s g f).draws = s.draws :=
  by and_intros <;> rfl

/-- Changes ig.points alone. -/
@[simp] theorem setPoint_frame (s : State) (c pt : Nat) (v : BitVec 32 × BitVec 32) :
    (setPoint s c pt v).pending = s.pending ∧ (setPoint s c pt v).tb = s.tb ∧ (setPoint s c pt v).tu = s.tu ∧
    (setPoint s c pt v).ptp = s.ptp ∧ (setPoint s c pt v).regs = s.regs ∧ (setPoint s c pt v).dram = s.dram ∧
    (setPoint s c pt v).pt = s.pt ∧ (setPoint s c pt v).files = s.files ∧ (setPoint s c pt v).cores = s.cores ∧
    (setPoint s c pt v).db = s.db ∧ (setPoint s c pt v).tx = s.tx ∧ (setPoint s c pt v).sq = s.sq ∧
    (setPoint s c pt v).pw = s.pw ∧ (setPoint s c pt v).st = s.st ∧ (setPoint s c pt v).ty = s.ty ∧
    (setPoint s c pt v).ok = s.ok ∧ (setPoint s c pt v).pr = s.pr ∧ (setPoint s c pt v).pu = s.pu ∧
    (setPoint s c pt v).snap = s.snap ∧ (setPoint s c pt v).gn = s.gn ∧ (setPoint s c pt v).mc = s.mc ∧
    (setPoint s c pt v).ig.streams = s.ig.streams ∧ (setPoint s c pt v).ig.olds = s.ig.olds ∧
    (setPoint s c pt v).ig.cnt = s.ig.cnt ∧ (setPoint s c pt v).ig.other = s.ig.other ∧
    (setPoint s c pt v).ig.dup = s.ig.dup ∧ (setPoint s c pt v).ig.opens = s.ig.opens ∧
    (setPoint s c pt v).ig.lagOld = s.ig.lagOld ∧ (setPoint s c pt v).ig.closed = s.ig.closed ∧
    (setPoint s c pt v).ig.edges = s.ig.edges ∧ (setPoint s c pt v).fc = s.fc ∧ (setPoint s c pt v).tg = s.tg ∧
    (setPoint s c pt v).ph = s.ph ∧ (setPoint s c pt v).fl = s.fl ∧ (setPoint s c pt v).fb = s.fb ∧
    (setPoint s c pt v).pb = s.pb ∧ (setPoint s c pt v).lp = s.lp ∧ (setPoint s c pt v).draws = s.draws :=
  by and_intros <;> rfl

/-- Changes fl.lines alone. -/
@[simp] theorem State.updLine_frame (s : State) (l : Nat) (f : LineRt → LineRt) :
    (State.updLine s l f).pending = s.pending ∧ (State.updLine s l f).tb = s.tb ∧ (State.updLine s l f).tu = s.tu ∧
    (State.updLine s l f).ptp = s.ptp ∧ (State.updLine s l f).regs = s.regs ∧ (State.updLine s l f).dram = s.dram ∧
    (State.updLine s l f).pt = s.pt ∧ (State.updLine s l f).files = s.files ∧ (State.updLine s l f).cores = s.cores ∧
    (State.updLine s l f).db = s.db ∧ (State.updLine s l f).tx = s.tx ∧ (State.updLine s l f).sq = s.sq ∧
    (State.updLine s l f).pw = s.pw ∧ (State.updLine s l f).st = s.st ∧ (State.updLine s l f).ty = s.ty ∧
    (State.updLine s l f).ok = s.ok ∧ (State.updLine s l f).pr = s.pr ∧ (State.updLine s l f).pu = s.pu ∧
    (State.updLine s l f).snap = s.snap ∧ (State.updLine s l f).gn = s.gn ∧ (State.updLine s l f).mc = s.mc ∧
    (State.updLine s l f).ig = s.ig ∧ (State.updLine s l f).fc = s.fc ∧ (State.updLine s l f).tg = s.tg ∧
    (State.updLine s l f).ph = s.ph ∧ (State.updLine s l f).fl.cnt = s.fl.cnt ∧ (State.updLine s l f).fl.seq = s.fl.seq ∧
    (State.updLine s l f).fb = s.fb ∧ (State.updLine s l f).pb = s.pb ∧ (State.updLine s l f).lp = s.lp ∧
    (State.updLine s l f).draws = s.draws :=
  by and_intros <;> rfl

/-- Changes fl.cnt alone. -/
@[simp] theorem flCount_frame (s : State) (l i : Nat) :
    (flCount s l i).pending = s.pending ∧ (flCount s l i).tb = s.tb ∧ (flCount s l i).tu = s.tu ∧
    (flCount s l i).ptp = s.ptp ∧ (flCount s l i).regs = s.regs ∧ (flCount s l i).dram = s.dram ∧
    (flCount s l i).pt = s.pt ∧ (flCount s l i).files = s.files ∧ (flCount s l i).cores = s.cores ∧
    (flCount s l i).db = s.db ∧ (flCount s l i).tx = s.tx ∧ (flCount s l i).sq = s.sq ∧ (flCount s l i).pw = s.pw ∧
    (flCount s l i).st = s.st ∧ (flCount s l i).ty = s.ty ∧ (flCount s l i).ok = s.ok ∧ (flCount s l i).pr = s.pr ∧
    (flCount s l i).pu = s.pu ∧ (flCount s l i).snap = s.snap ∧ (flCount s l i).gn = s.gn ∧ (flCount s l i).mc = s.mc ∧
    (flCount s l i).ig = s.ig ∧ (flCount s l i).fc = s.fc ∧ (flCount s l i).tg = s.tg ∧ (flCount s l i).ph = s.ph ∧
    (flCount s l i).fl.lines = s.fl.lines ∧ (flCount s l i).fl.seq = s.fl.seq ∧ (flCount s l i).fb = s.fb ∧
    (flCount s l i).pb = s.pb ∧ (flCount s l i).lp = s.lp ∧ (flCount s l i).draws = s.draws :=
  by and_intros <;> rfl

/-- Changes fl.cnt alone. -/
@[simp] theorem flLast_frame (s : State) (l reason : Nat) :
    (flLast s l reason).pending = s.pending ∧ (flLast s l reason).tb = s.tb ∧ (flLast s l reason).tu = s.tu ∧
    (flLast s l reason).ptp = s.ptp ∧ (flLast s l reason).regs = s.regs ∧ (flLast s l reason).dram = s.dram ∧
    (flLast s l reason).pt = s.pt ∧ (flLast s l reason).files = s.files ∧ (flLast s l reason).cores = s.cores ∧
    (flLast s l reason).db = s.db ∧ (flLast s l reason).tx = s.tx ∧ (flLast s l reason).sq = s.sq ∧
    (flLast s l reason).pw = s.pw ∧ (flLast s l reason).st = s.st ∧ (flLast s l reason).ty = s.ty ∧
    (flLast s l reason).ok = s.ok ∧ (flLast s l reason).pr = s.pr ∧ (flLast s l reason).pu = s.pu ∧
    (flLast s l reason).snap = s.snap ∧ (flLast s l reason).gn = s.gn ∧ (flLast s l reason).mc = s.mc ∧
    (flLast s l reason).ig = s.ig ∧ (flLast s l reason).fc = s.fc ∧ (flLast s l reason).tg = s.tg ∧
    (flLast s l reason).ph = s.ph ∧ (flLast s l reason).fl.lines = s.fl.lines ∧ (flLast s l reason).fl.seq = s.fl.seq ∧
    (flLast s l reason).fb = s.fb ∧ (flLast s l reason).pb = s.pb ∧ (flLast s l reason).lp = s.lp ∧
    (flLast s l reason).draws = s.draws :=
  by and_intros <;> rfl

/-- Changes fb.fbes alone. -/
@[simp] theorem State.updFbe_frame (s : State) (h : Nat) (f : FbRt → FbRt) :
    (State.updFbe s h f).pending = s.pending ∧ (State.updFbe s h f).tb = s.tb ∧ (State.updFbe s h f).tu = s.tu ∧
    (State.updFbe s h f).ptp = s.ptp ∧ (State.updFbe s h f).regs = s.regs ∧ (State.updFbe s h f).dram = s.dram ∧
    (State.updFbe s h f).pt = s.pt ∧ (State.updFbe s h f).files = s.files ∧ (State.updFbe s h f).cores = s.cores ∧
    (State.updFbe s h f).db = s.db ∧ (State.updFbe s h f).tx = s.tx ∧ (State.updFbe s h f).sq = s.sq ∧
    (State.updFbe s h f).pw = s.pw ∧ (State.updFbe s h f).st = s.st ∧ (State.updFbe s h f).ty = s.ty ∧
    (State.updFbe s h f).ok = s.ok ∧ (State.updFbe s h f).pr = s.pr ∧ (State.updFbe s h f).pu = s.pu ∧
    (State.updFbe s h f).snap = s.snap ∧ (State.updFbe s h f).gn = s.gn ∧ (State.updFbe s h f).mc = s.mc ∧
    (State.updFbe s h f).ig = s.ig ∧ (State.updFbe s h f).fc = s.fc ∧ (State.updFbe s h f).tg = s.tg ∧
    (State.updFbe s h f).ph = s.ph ∧ (State.updFbe s h f).fl = s.fl ∧ (State.updFbe s h f).pb = s.pb ∧
    (State.updFbe s h f).lp = s.lp ∧ (State.updFbe s h f).draws = s.draws :=
  by and_intros <;> rfl

/-- Changes regs alone. -/
@[simp] theorem State.setCfg_frame (s : State) (off sel : Nat) (v : BitVec 32) :
    (State.setCfg s off sel v).pending = s.pending ∧ (State.setCfg s off sel v).tb = s.tb ∧
    (State.setCfg s off sel v).tu = s.tu ∧ (State.setCfg s off sel v).ptp = s.ptp ∧
    (State.setCfg s off sel v).dram = s.dram ∧ (State.setCfg s off sel v).pt = s.pt ∧
    (State.setCfg s off sel v).files = s.files ∧ (State.setCfg s off sel v).cores = s.cores ∧
    (State.setCfg s off sel v).db = s.db ∧ (State.setCfg s off sel v).tx = s.tx ∧ (State.setCfg s off sel v).sq = s.sq ∧
    (State.setCfg s off sel v).pw = s.pw ∧ (State.setCfg s off sel v).st = s.st ∧ (State.setCfg s off sel v).ty = s.ty ∧
    (State.setCfg s off sel v).ok = s.ok ∧ (State.setCfg s off sel v).pr = s.pr ∧ (State.setCfg s off sel v).pu = s.pu ∧
    (State.setCfg s off sel v).snap = s.snap ∧ (State.setCfg s off sel v).gn = s.gn ∧
    (State.setCfg s off sel v).mc = s.mc ∧ (State.setCfg s off sel v).ig = s.ig ∧ (State.setCfg s off sel v).fc = s.fc ∧
    (State.setCfg s off sel v).tg = s.tg ∧ (State.setCfg s off sel v).ph = s.ph ∧ (State.setCfg s off sel v).fl = s.fl ∧
    (State.setCfg s off sel v).fb = s.fb ∧ (State.setCfg s off sel v).pb = s.pb ∧ (State.setCfg s off sel v).lp = s.lp ∧
    (State.setCfg s off sel v).draws = s.draws :=
  by and_intros <;> rfl

/-- Changes mc.macs alone. -/
@[simp] theorem State.updMac_frame (s : State) (q : Nat) (f : Mac → Mac) :
    (State.updMac s q f).pending = s.pending ∧ (State.updMac s q f).tb = s.tb ∧ (State.updMac s q f).tu = s.tu ∧
    (State.updMac s q f).ptp = s.ptp ∧ (State.updMac s q f).regs = s.regs ∧ (State.updMac s q f).dram = s.dram ∧
    (State.updMac s q f).pt = s.pt ∧ (State.updMac s q f).files = s.files ∧ (State.updMac s q f).cores = s.cores ∧
    (State.updMac s q f).db = s.db ∧ (State.updMac s q f).tx = s.tx ∧ (State.updMac s q f).sq = s.sq ∧
    (State.updMac s q f).pw = s.pw ∧ (State.updMac s q f).st = s.st ∧ (State.updMac s q f).ty = s.ty ∧
    (State.updMac s q f).ok = s.ok ∧ (State.updMac s q f).pr = s.pr ∧ (State.updMac s q f).pu = s.pu ∧
    (State.updMac s q f).snap = s.snap ∧ (State.updMac s q f).gn = s.gn ∧ (State.updMac s q f).mc.cnt = s.mc.cnt ∧
    (State.updMac s q f).mc.wire = s.mc.wire ∧ (State.updMac s q f).ig = s.ig ∧ (State.updMac s q f).fc = s.fc ∧
    (State.updMac s q f).tg = s.tg ∧ (State.updMac s q f).ph = s.ph ∧ (State.updMac s q f).fl = s.fl ∧
    (State.updMac s q f).fb = s.fb ∧ (State.updMac s q f).pb = s.pb ∧ (State.updMac s q f).lp = s.lp ∧
    (State.updMac s q f).draws = s.draws :=
  by and_intros <;> rfl

/-- Changes mc.cnt alone. -/
@[simp] theorem macCount_frame (s : State) (q i n : Nat) :
    (macCount s q i n).pending = s.pending ∧ (macCount s q i n).tb = s.tb ∧ (macCount s q i n).tu = s.tu ∧
    (macCount s q i n).ptp = s.ptp ∧ (macCount s q i n).regs = s.regs ∧ (macCount s q i n).dram = s.dram ∧
    (macCount s q i n).pt = s.pt ∧ (macCount s q i n).files = s.files ∧ (macCount s q i n).cores = s.cores ∧
    (macCount s q i n).db = s.db ∧ (macCount s q i n).tx = s.tx ∧ (macCount s q i n).sq = s.sq ∧
    (macCount s q i n).pw = s.pw ∧ (macCount s q i n).st = s.st ∧ (macCount s q i n).ty = s.ty ∧
    (macCount s q i n).ok = s.ok ∧ (macCount s q i n).pr = s.pr ∧ (macCount s q i n).pu = s.pu ∧
    (macCount s q i n).snap = s.snap ∧ (macCount s q i n).gn = s.gn ∧ (macCount s q i n).mc.macs = s.mc.macs ∧
    (macCount s q i n).mc.wire = s.mc.wire ∧ (macCount s q i n).ig = s.ig ∧ (macCount s q i n).fc = s.fc ∧
    (macCount s q i n).tg = s.tg ∧ (macCount s q i n).ph = s.ph ∧ (macCount s q i n).fl = s.fl ∧
    (macCount s q i n).fb = s.fb ∧ (macCount s q i n).pb = s.pb ∧ (macCount s q i n).lp = s.lp ∧
    (macCount s q i n).draws = s.draws :=
  by and_intros <;> rfl

/-- Changes gn.cnt alone. -/
@[simp] theorem gnCount_frame (s : State) (index port cls : Nat) :
    (gnCount s index port cls).pending = s.pending ∧ (gnCount s index port cls).tb = s.tb ∧
    (gnCount s index port cls).tu = s.tu ∧ (gnCount s index port cls).ptp = s.ptp ∧
    (gnCount s index port cls).regs = s.regs ∧ (gnCount s index port cls).dram = s.dram ∧
    (gnCount s index port cls).pt = s.pt ∧ (gnCount s index port cls).files = s.files ∧
    (gnCount s index port cls).cores = s.cores ∧ (gnCount s index port cls).db = s.db ∧
    (gnCount s index port cls).tx = s.tx ∧ (gnCount s index port cls).sq = s.sq ∧ (gnCount s index port cls).pw = s.pw ∧
    (gnCount s index port cls).st = s.st ∧ (gnCount s index port cls).ty = s.ty ∧ (gnCount s index port cls).ok = s.ok ∧
    (gnCount s index port cls).pr = s.pr ∧ (gnCount s index port cls).pu = s.pu ∧
    (gnCount s index port cls).snap = s.snap ∧ (gnCount s index port cls).gn.frames = s.gn.frames ∧
    (gnCount s index port cls).gn.nextId = s.gn.nextId ∧ (gnCount s index port cls).gn.epoch = s.gn.epoch ∧
    (gnCount s index port cls).gn.oldBank = s.gn.oldBank ∧ (gnCount s index port cls).gn.swapAt = s.gn.swapAt ∧
    (gnCount s index port cls).gn.imbal = s.gn.imbal ∧ (gnCount s index port cls).gn.tc = s.gn.tc ∧
    (gnCount s index port cls).gn.deficit = s.gn.deficit ∧ (gnCount s index port cls).gn.turn = s.gn.turn ∧
    (gnCount s index port cls).mc = s.mc ∧ (gnCount s index port cls).ig = s.ig ∧ (gnCount s index port cls).fc = s.fc ∧
    (gnCount s index port cls).tg = s.tg ∧ (gnCount s index port cls).ph = s.ph ∧ (gnCount s index port cls).fl = s.fl ∧
    (gnCount s index port cls).fb = s.fb ∧ (gnCount s index port cls).pb = s.pb ∧ (gnCount s index port cls).lp = s.lp ∧
    (gnCount s index port cls).draws = s.draws :=
  by and_intros <;> rfl

/-- Changes gn.frames alone. -/
@[simp] theorem dropOut_frame (s : State) (id q : Nat) :
    (dropOut s id q).pending = s.pending ∧ (dropOut s id q).tb = s.tb ∧ (dropOut s id q).tu = s.tu ∧
    (dropOut s id q).ptp = s.ptp ∧ (dropOut s id q).regs = s.regs ∧ (dropOut s id q).dram = s.dram ∧
    (dropOut s id q).pt = s.pt ∧ (dropOut s id q).files = s.files ∧ (dropOut s id q).cores = s.cores ∧
    (dropOut s id q).db = s.db ∧ (dropOut s id q).tx = s.tx ∧ (dropOut s id q).sq = s.sq ∧ (dropOut s id q).pw = s.pw ∧
    (dropOut s id q).st = s.st ∧ (dropOut s id q).ty = s.ty ∧ (dropOut s id q).ok = s.ok ∧ (dropOut s id q).pr = s.pr ∧
    (dropOut s id q).pu = s.pu ∧ (dropOut s id q).snap = s.snap ∧ (dropOut s id q).gn.nextId = s.gn.nextId ∧
    (dropOut s id q).gn.epoch = s.gn.epoch ∧ (dropOut s id q).gn.oldBank = s.gn.oldBank ∧
    (dropOut s id q).gn.swapAt = s.gn.swapAt ∧ (dropOut s id q).gn.cnt = s.gn.cnt ∧
    (dropOut s id q).gn.imbal = s.gn.imbal ∧ (dropOut s id q).gn.tc = s.gn.tc ∧
    (dropOut s id q).gn.deficit = s.gn.deficit ∧ (dropOut s id q).gn.turn = s.gn.turn ∧ (dropOut s id q).mc = s.mc ∧
    (dropOut s id q).ig = s.ig ∧ (dropOut s id q).fc = s.fc ∧ (dropOut s id q).tg = s.tg ∧ (dropOut s id q).ph = s.ph ∧
    (dropOut s id q).fl = s.fl ∧ (dropOut s id q).fb = s.fb ∧ (dropOut s id q).pb = s.pb ∧ (dropOut s id q).lp = s.lp ∧
    (dropOut s id q).draws = s.draws :=
  by and_intros <;> rfl

/-- Changes gn.frames alone. -/
@[simp] theorem updFrame_frame (s : State) (id : Nat) (g : GFrame → GFrame) :
    (updFrame s id g).pending = s.pending ∧ (updFrame s id g).tb = s.tb ∧ (updFrame s id g).tu = s.tu ∧
    (updFrame s id g).ptp = s.ptp ∧ (updFrame s id g).regs = s.regs ∧ (updFrame s id g).dram = s.dram ∧
    (updFrame s id g).pt = s.pt ∧ (updFrame s id g).files = s.files ∧ (updFrame s id g).cores = s.cores ∧
    (updFrame s id g).db = s.db ∧ (updFrame s id g).tx = s.tx ∧ (updFrame s id g).sq = s.sq ∧
    (updFrame s id g).pw = s.pw ∧ (updFrame s id g).st = s.st ∧ (updFrame s id g).ty = s.ty ∧
    (updFrame s id g).ok = s.ok ∧ (updFrame s id g).pr = s.pr ∧ (updFrame s id g).pu = s.pu ∧
    (updFrame s id g).snap = s.snap ∧ (updFrame s id g).gn.nextId = s.gn.nextId ∧
    (updFrame s id g).gn.epoch = s.gn.epoch ∧ (updFrame s id g).gn.oldBank = s.gn.oldBank ∧
    (updFrame s id g).gn.swapAt = s.gn.swapAt ∧ (updFrame s id g).gn.cnt = s.gn.cnt ∧
    (updFrame s id g).gn.imbal = s.gn.imbal ∧ (updFrame s id g).gn.tc = s.gn.tc ∧
    (updFrame s id g).gn.deficit = s.gn.deficit ∧ (updFrame s id g).gn.turn = s.gn.turn ∧ (updFrame s id g).mc = s.mc ∧
    (updFrame s id g).ig = s.ig ∧ (updFrame s id g).fc = s.fc ∧ (updFrame s id g).tg = s.tg ∧
    (updFrame s id g).ph = s.ph ∧ (updFrame s id g).fl = s.fl ∧ (updFrame s id g).fb = s.fb ∧
    (updFrame s id g).pb = s.pb ∧ (updFrame s id g).lp = s.lp ∧ (updFrame s id g).draws = s.draws :=
  by and_intros <;> rfl

/-- Changes mc.wire alone. -/
@[simp] theorem wireOut_frame (s : State) (q : Nat) (w : WireOut) :
    (wireOut s q w).pending = s.pending ∧ (wireOut s q w).tb = s.tb ∧ (wireOut s q w).tu = s.tu ∧
    (wireOut s q w).ptp = s.ptp ∧ (wireOut s q w).regs = s.regs ∧ (wireOut s q w).dram = s.dram ∧
    (wireOut s q w).pt = s.pt ∧ (wireOut s q w).files = s.files ∧ (wireOut s q w).cores = s.cores ∧
    (wireOut s q w).db = s.db ∧ (wireOut s q w).tx = s.tx ∧ (wireOut s q w).sq = s.sq ∧ (wireOut s q w).pw = s.pw ∧
    (wireOut s q w).st = s.st ∧ (wireOut s q w).ty = s.ty ∧ (wireOut s q w).ok = s.ok ∧ (wireOut s q w).pr = s.pr ∧
    (wireOut s q w).pu = s.pu ∧ (wireOut s q w).snap = s.snap ∧ (wireOut s q w).gn = s.gn ∧
    (wireOut s q w).mc.macs = s.mc.macs ∧ (wireOut s q w).mc.cnt = s.mc.cnt ∧ (wireOut s q w).ig = s.ig ∧
    (wireOut s q w).fc = s.fc ∧ (wireOut s q w).tg = s.tg ∧ (wireOut s q w).ph = s.ph ∧ (wireOut s q w).fl = s.fl ∧
    (wireOut s q w).fb = s.fb ∧ (wireOut s q w).pb = s.pb ∧ (wireOut s q w).lp = s.lp ∧ (wireOut s q w).draws = s.draws :=
  by and_intros <;> rfl

/-- Changes ig.dup alone. -/
@[simp] theorem dupTouch_frame (s : State) (q mac : Nat) :
    (dupTouch s q mac).pending = s.pending ∧ (dupTouch s q mac).tb = s.tb ∧ (dupTouch s q mac).tu = s.tu ∧
    (dupTouch s q mac).ptp = s.ptp ∧ (dupTouch s q mac).regs = s.regs ∧ (dupTouch s q mac).dram = s.dram ∧
    (dupTouch s q mac).pt = s.pt ∧ (dupTouch s q mac).files = s.files ∧ (dupTouch s q mac).cores = s.cores ∧
    (dupTouch s q mac).db = s.db ∧ (dupTouch s q mac).tx = s.tx ∧ (dupTouch s q mac).sq = s.sq ∧
    (dupTouch s q mac).pw = s.pw ∧ (dupTouch s q mac).st = s.st ∧ (dupTouch s q mac).ty = s.ty ∧
    (dupTouch s q mac).ok = s.ok ∧ (dupTouch s q mac).pr = s.pr ∧ (dupTouch s q mac).pu = s.pu ∧
    (dupTouch s q mac).snap = s.snap ∧ (dupTouch s q mac).gn = s.gn ∧ (dupTouch s q mac).mc = s.mc ∧
    (dupTouch s q mac).ig.streams = s.ig.streams ∧ (dupTouch s q mac).ig.olds = s.ig.olds ∧
    (dupTouch s q mac).ig.cnt = s.ig.cnt ∧ (dupTouch s q mac).ig.other = s.ig.other ∧
    (dupTouch s q mac).ig.points = s.ig.points ∧ (dupTouch s q mac).ig.opens = s.ig.opens ∧
    (dupTouch s q mac).ig.lagOld = s.ig.lagOld ∧ (dupTouch s q mac).ig.closed = s.ig.closed ∧
    (dupTouch s q mac).ig.edges = s.ig.edges ∧ (dupTouch s q mac).fc = s.fc ∧ (dupTouch s q mac).tg = s.tg ∧
    (dupTouch s q mac).ph = s.ph ∧ (dupTouch s q mac).fl = s.fl ∧ (dupTouch s q mac).fb = s.fb ∧
    (dupTouch s q mac).pb = s.pb ∧ (dupTouch s q mac).lp = s.lp ∧ (dupTouch s q mac).draws = s.draws :=
  by and_intros <;> rfl

/-- Changes lp.lanes alone. -/
@[simp] theorem State.updLane_frame (s : State) (g : Nat) (f : LaneRt → LaneRt) :
    (State.updLane s g f).pending = s.pending ∧ (State.updLane s g f).tb = s.tb ∧ (State.updLane s g f).tu = s.tu ∧
    (State.updLane s g f).ptp = s.ptp ∧ (State.updLane s g f).regs = s.regs ∧ (State.updLane s g f).dram = s.dram ∧
    (State.updLane s g f).pt = s.pt ∧ (State.updLane s g f).files = s.files ∧ (State.updLane s g f).cores = s.cores ∧
    (State.updLane s g f).db = s.db ∧ (State.updLane s g f).tx = s.tx ∧ (State.updLane s g f).sq = s.sq ∧
    (State.updLane s g f).pw = s.pw ∧ (State.updLane s g f).st = s.st ∧ (State.updLane s g f).ty = s.ty ∧
    (State.updLane s g f).ok = s.ok ∧ (State.updLane s g f).pr = s.pr ∧ (State.updLane s g f).pu = s.pu ∧
    (State.updLane s g f).snap = s.snap ∧ (State.updLane s g f).gn = s.gn ∧ (State.updLane s g f).mc = s.mc ∧
    (State.updLane s g f).ig = s.ig ∧ (State.updLane s g f).fc = s.fc ∧ (State.updLane s g f).tg = s.tg ∧
    (State.updLane s g f).ph = s.ph ∧ (State.updLane s g f).fl = s.fl ∧ (State.updLane s g f).fb = s.fb ∧
    (State.updLane s g f).pb = s.pb ∧ (State.updLane s g f).lp.loops = s.lp.loops ∧
    (State.updLane s g f).lp.gos = s.lp.gos ∧ (State.updLane s g f).lp.forceIgn = s.lp.forceIgn ∧
    (State.updLane s g f).lp.pins = s.lp.pins ∧ (State.updLane s g f).draws = s.draws :=
  by and_intros <;> rfl

/-- Changes lp.pins alone. -/
@[simp] theorem setAsserted_frame (b : Nat) (v : Bool) (s : State) :
    (setAsserted b v s).pending = s.pending ∧ (setAsserted b v s).tb = s.tb ∧ (setAsserted b v s).tu = s.tu ∧
    (setAsserted b v s).ptp = s.ptp ∧ (setAsserted b v s).regs = s.regs ∧ (setAsserted b v s).dram = s.dram ∧
    (setAsserted b v s).pt = s.pt ∧ (setAsserted b v s).files = s.files ∧ (setAsserted b v s).cores = s.cores ∧
    (setAsserted b v s).db = s.db ∧ (setAsserted b v s).tx = s.tx ∧ (setAsserted b v s).sq = s.sq ∧
    (setAsserted b v s).pw = s.pw ∧ (setAsserted b v s).st = s.st ∧ (setAsserted b v s).ty = s.ty ∧
    (setAsserted b v s).ok = s.ok ∧ (setAsserted b v s).pr = s.pr ∧ (setAsserted b v s).pu = s.pu ∧
    (setAsserted b v s).snap = s.snap ∧ (setAsserted b v s).gn = s.gn ∧ (setAsserted b v s).mc = s.mc ∧
    (setAsserted b v s).ig = s.ig ∧ (setAsserted b v s).fc = s.fc ∧ (setAsserted b v s).tg = s.tg ∧
    (setAsserted b v s).ph = s.ph ∧ (setAsserted b v s).fl = s.fl ∧ (setAsserted b v s).fb = s.fb ∧
    (setAsserted b v s).pb = s.pb ∧ (setAsserted b v s).lp.loops = s.lp.loops ∧
    (setAsserted b v s).lp.lanes = s.lp.lanes ∧ (setAsserted b v s).lp.gos = s.lp.gos ∧
    (setAsserted b v s).lp.forceIgn = s.lp.forceIgn ∧ (setAsserted b v s).draws = s.draws :=
  by and_intros <;> rfl

/-- Changes lp.loops alone. -/
@[simp] theorem State.updLoop_frame (s : State) (l : Nat) (f : LoopRt → LoopRt) :
    (State.updLoop s l f).pending = s.pending ∧ (State.updLoop s l f).tb = s.tb ∧ (State.updLoop s l f).tu = s.tu ∧
    (State.updLoop s l f).ptp = s.ptp ∧ (State.updLoop s l f).regs = s.regs ∧ (State.updLoop s l f).dram = s.dram ∧
    (State.updLoop s l f).pt = s.pt ∧ (State.updLoop s l f).files = s.files ∧ (State.updLoop s l f).cores = s.cores ∧
    (State.updLoop s l f).db = s.db ∧ (State.updLoop s l f).tx = s.tx ∧ (State.updLoop s l f).sq = s.sq ∧
    (State.updLoop s l f).pw = s.pw ∧ (State.updLoop s l f).st = s.st ∧ (State.updLoop s l f).ty = s.ty ∧
    (State.updLoop s l f).ok = s.ok ∧ (State.updLoop s l f).pr = s.pr ∧ (State.updLoop s l f).pu = s.pu ∧
    (State.updLoop s l f).snap = s.snap ∧ (State.updLoop s l f).gn = s.gn ∧ (State.updLoop s l f).mc = s.mc ∧
    (State.updLoop s l f).ig = s.ig ∧ (State.updLoop s l f).fc = s.fc ∧ (State.updLoop s l f).tg = s.tg ∧
    (State.updLoop s l f).ph = s.ph ∧ (State.updLoop s l f).fl = s.fl ∧ (State.updLoop s l f).fb = s.fb ∧
    (State.updLoop s l f).pb = s.pb ∧ (State.updLoop s l f).lp.lanes = s.lp.lanes ∧
    (State.updLoop s l f).lp.gos = s.lp.gos ∧ (State.updLoop s l f).lp.forceIgn = s.lp.forceIgn ∧
    (State.updLoop s l f).lp.pins = s.lp.pins ∧ (State.updLoop s l f).draws = s.draws :=
  by and_intros <;> rfl

/-- Changes tb.counter, tb.edge alone. -/
@[simp] theorem State.pass_frame (s : State) (n : Nat) :
    (State.pass s n).pending = s.pending ∧ (State.pass s n).tb.addend = s.tb.addend ∧
    (State.pass s n).tb.stagedLo = s.tb.stagedLo ∧ (State.pass s n).tb.nextAddend = s.tb.nextAddend ∧
    (State.pass s n).tb.corr = s.tb.corr ∧ (State.pass s n).tb.integ = s.tb.integ ∧ (State.pass s n).tb.st = s.tb.st ∧
    (State.pass s n).tb.refTcxo = s.tb.refTcxo ∧ (State.pass s n).tb.ocxoOk = s.tb.ocxoOk ∧
    (State.pass s n).tb.ocxoSince = s.tb.ocxoSince ∧ (State.pass s n).tb.tcxoOk = s.tb.tcxoOk ∧
    (State.pass s n).tb.accepted = s.tb.accepted ∧ (State.pass s n).tb.outliers = s.tb.outliers ∧
    (State.pass s n).tb.lockRun = s.tb.lockRun ∧ (State.pass s n).tb.latest = s.tb.latest ∧
    (State.pass s n).tb.firstOffset = s.tb.firstOffset ∧ (State.pass s n).tb.stepBy = s.tb.stepBy ∧
    (State.pass s n).tb.stepHeld = s.tb.stepHeld ∧ (State.pass s n).tb.est = s.tb.est ∧
    (State.pass s n).tb.estEdge = s.tb.estEdge ∧ (State.pass s n).tb.unknownErr = s.tb.unknownErr ∧
    (State.pass s n).tb.traceable = s.tb.traceable ∧ (State.pass s n).tb.lastFwOffset = s.tb.lastFwOffset ∧
    (State.pass s n).tb.fwIgnored = s.tb.fwIgnored ∧ (State.pass s n).tb.stepRefused = s.tb.stepRefused ∧
    (State.pass s n).tb.stepped = s.tb.stepped ∧ (State.pass s n).tb.lockedAt = s.tb.lockedAt ∧
    (State.pass s n).tb.lockT = s.tb.lockT ∧ (State.pass s n).tu = s.tu ∧ (State.pass s n).ptp = s.ptp ∧
    (State.pass s n).regs = s.regs ∧ (State.pass s n).dram = s.dram ∧ (State.pass s n).pt = s.pt ∧
    (State.pass s n).files = s.files ∧ (State.pass s n).cores = s.cores ∧ (State.pass s n).db = s.db ∧
    (State.pass s n).tx = s.tx ∧ (State.pass s n).sq = s.sq ∧ (State.pass s n).pw = s.pw ∧ (State.pass s n).st = s.st ∧
    (State.pass s n).ty = s.ty ∧ (State.pass s n).ok = s.ok ∧ (State.pass s n).pr = s.pr ∧ (State.pass s n).pu = s.pu ∧
    (State.pass s n).snap = s.snap ∧ (State.pass s n).gn = s.gn ∧ (State.pass s n).mc = s.mc ∧
    (State.pass s n).ig = s.ig ∧ (State.pass s n).fc = s.fc ∧ (State.pass s n).tg = s.tg ∧ (State.pass s n).ph = s.ph ∧
    (State.pass s n).fl = s.fl ∧ (State.pass s n).fb = s.fb ∧ (State.pass s n).pb = s.pb ∧ (State.pass s n).lp = s.lp ∧
    (State.pass s n).draws = s.draws :=
  by and_intros <;> rfl

/-- Changes pt.parts alone. -/
@[simp] theorem State.updPart_frame (s : State) (p : Nat) (f : PartRun → PartRun) :
    (State.updPart s p f).pending = s.pending ∧ (State.updPart s p f).tb = s.tb ∧ (State.updPart s p f).tu = s.tu ∧
    (State.updPart s p f).ptp = s.ptp ∧ (State.updPart s p f).regs = s.regs ∧ (State.updPart s p f).dram = s.dram ∧
    (State.updPart s p f).pt.resets = s.pt.resets ∧ (State.updPart s p f).pt.refused = s.pt.refused ∧
    (State.updPart s p f).pt.lastScope = s.pt.lastScope ∧ (State.updPart s p f).pt.lastDrain = s.pt.lastDrain ∧
    (State.updPart s p f).files = s.files ∧ (State.updPart s p f).cores = s.cores ∧ (State.updPart s p f).db = s.db ∧
    (State.updPart s p f).tx = s.tx ∧ (State.updPart s p f).sq = s.sq ∧ (State.updPart s p f).pw = s.pw ∧
    (State.updPart s p f).st = s.st ∧ (State.updPart s p f).ty = s.ty ∧ (State.updPart s p f).ok = s.ok ∧
    (State.updPart s p f).pr = s.pr ∧ (State.updPart s p f).pu = s.pu ∧ (State.updPart s p f).snap = s.snap ∧
    (State.updPart s p f).gn = s.gn ∧ (State.updPart s p f).mc = s.mc ∧ (State.updPart s p f).ig = s.ig ∧
    (State.updPart s p f).fc = s.fc ∧ (State.updPart s p f).tg = s.tg ∧ (State.updPart s p f).ph = s.ph ∧
    (State.updPart s p f).fl = s.fl ∧ (State.updPart s p f).fb = s.fb ∧ (State.updPart s p f).pb = s.pb ∧
    (State.updPart s p f).lp = s.lp ∧ (State.updPart s p f).draws = s.draws :=
  by and_intros <;> rfl

/-- Changes cores alone. -/
@[simp] theorem State.updCore_frame (s : State) (h : Nat) (f : CoreSt → CoreSt) :
    (State.updCore s h f).pending = s.pending ∧ (State.updCore s h f).tb = s.tb ∧ (State.updCore s h f).tu = s.tu ∧
    (State.updCore s h f).ptp = s.ptp ∧ (State.updCore s h f).regs = s.regs ∧ (State.updCore s h f).dram = s.dram ∧
    (State.updCore s h f).pt = s.pt ∧ (State.updCore s h f).files = s.files ∧ (State.updCore s h f).db = s.db ∧
    (State.updCore s h f).tx = s.tx ∧ (State.updCore s h f).sq = s.sq ∧ (State.updCore s h f).pw = s.pw ∧
    (State.updCore s h f).st = s.st ∧ (State.updCore s h f).ty = s.ty ∧ (State.updCore s h f).ok = s.ok ∧
    (State.updCore s h f).pr = s.pr ∧ (State.updCore s h f).pu = s.pu ∧ (State.updCore s h f).snap = s.snap ∧
    (State.updCore s h f).gn = s.gn ∧ (State.updCore s h f).mc = s.mc ∧ (State.updCore s h f).ig = s.ig ∧
    (State.updCore s h f).fc = s.fc ∧ (State.updCore s h f).tg = s.tg ∧ (State.updCore s h f).ph = s.ph ∧
    (State.updCore s h f).fl = s.fl ∧ (State.updCore s h f).fb = s.fb ∧ (State.updCore s h f).pb = s.pb ∧
    (State.updCore s h f).lp = s.lp ∧ (State.updCore s h f).draws = s.draws :=
  by and_intros <;> rfl

/-- Changes db.rings alone. -/
@[simp] theorem State.updRing_frame (s : State) (p r : Nat) (f : RingRun → RingRun) :
    (State.updRing s p r f).pending = s.pending ∧ (State.updRing s p r f).tb = s.tb ∧ (State.updRing s p r f).tu = s.tu ∧
    (State.updRing s p r f).ptp = s.ptp ∧ (State.updRing s p r f).regs = s.regs ∧ (State.updRing s p r f).dram = s.dram ∧
    (State.updRing s p r f).pt = s.pt ∧ (State.updRing s p r f).files = s.files ∧
    (State.updRing s p r f).cores = s.cores ∧ (State.updRing s p r f).db.err = s.db.err ∧
    (State.updRing s p r f).tx = s.tx ∧ (State.updRing s p r f).sq = s.sq ∧ (State.updRing s p r f).pw = s.pw ∧
    (State.updRing s p r f).st = s.st ∧ (State.updRing s p r f).ty = s.ty ∧ (State.updRing s p r f).ok = s.ok ∧
    (State.updRing s p r f).pr = s.pr ∧ (State.updRing s p r f).pu = s.pu ∧ (State.updRing s p r f).snap = s.snap ∧
    (State.updRing s p r f).gn = s.gn ∧ (State.updRing s p r f).mc = s.mc ∧ (State.updRing s p r f).ig = s.ig ∧
    (State.updRing s p r f).fc = s.fc ∧ (State.updRing s p r f).tg = s.tg ∧ (State.updRing s p r f).ph = s.ph ∧
    (State.updRing s p r f).fl = s.fl ∧ (State.updRing s p r f).fb = s.fb ∧ (State.updRing s p r f).pb = s.pb ∧
    (State.updRing s p r f).lp = s.lp ∧ (State.updRing s p r f).draws = s.draws :=
  by and_intros <;> rfl

/-- Changes files alone. -/
@[simp] theorem State.updFile_frame (s : State) (h f : Nat) (g : IFile → IFile) :
    (State.updFile s h f g).pending = s.pending ∧ (State.updFile s h f g).tb = s.tb ∧ (State.updFile s h f g).tu = s.tu ∧
    (State.updFile s h f g).ptp = s.ptp ∧ (State.updFile s h f g).regs = s.regs ∧ (State.updFile s h f g).dram = s.dram ∧
    (State.updFile s h f g).pt = s.pt ∧ (State.updFile s h f g).cores = s.cores ∧ (State.updFile s h f g).db = s.db ∧
    (State.updFile s h f g).tx = s.tx ∧ (State.updFile s h f g).sq = s.sq ∧ (State.updFile s h f g).pw = s.pw ∧
    (State.updFile s h f g).st = s.st ∧ (State.updFile s h f g).ty = s.ty ∧ (State.updFile s h f g).ok = s.ok ∧
    (State.updFile s h f g).pr = s.pr ∧ (State.updFile s h f g).pu = s.pu ∧ (State.updFile s h f g).snap = s.snap ∧
    (State.updFile s h f g).gn = s.gn ∧ (State.updFile s h f g).mc = s.mc ∧ (State.updFile s h f g).ig = s.ig ∧
    (State.updFile s h f g).fc = s.fc ∧ (State.updFile s h f g).tg = s.tg ∧ (State.updFile s h f g).ph = s.ph ∧
    (State.updFile s h f g).fl = s.fl ∧ (State.updFile s h f g).fb = s.fb ∧ (State.updFile s h f g).pb = s.pb ∧
    (State.updFile s h f g).lp = s.lp ∧ (State.updFile s h f g).draws = s.draws :=
  by and_intros <;> rfl

/-- Changes tx.txns alone. -/
@[simp] theorem State.updTxn_frame (s : State) (p : Nat) (f : Txn → Txn) :
    (State.updTxn s p f).pending = s.pending ∧ (State.updTxn s p f).tb = s.tb ∧ (State.updTxn s p f).tu = s.tu ∧
    (State.updTxn s p f).ptp = s.ptp ∧ (State.updTxn s p f).regs = s.regs ∧ (State.updTxn s p f).dram = s.dram ∧
    (State.updTxn s p f).pt = s.pt ∧ (State.updTxn s p f).files = s.files ∧ (State.updTxn s p f).cores = s.cores ∧
    (State.updTxn s p f).db = s.db ∧ (State.updTxn s p f).tx.nextId = s.tx.nextId ∧
    (State.updTxn s p f).tx.nextOrder = s.tx.nextOrder ∧ (State.updTxn s p f).sq = s.sq ∧ (State.updTxn s p f).pw = s.pw ∧
    (State.updTxn s p f).st = s.st ∧ (State.updTxn s p f).ty = s.ty ∧ (State.updTxn s p f).ok = s.ok ∧
    (State.updTxn s p f).pr = s.pr ∧ (State.updTxn s p f).pu = s.pu ∧ (State.updTxn s p f).snap = s.snap ∧
    (State.updTxn s p f).gn = s.gn ∧ (State.updTxn s p f).mc = s.mc ∧ (State.updTxn s p f).ig = s.ig ∧
    (State.updTxn s p f).fc = s.fc ∧ (State.updTxn s p f).tg = s.tg ∧ (State.updTxn s p f).ph = s.ph ∧
    (State.updTxn s p f).fl = s.fl ∧ (State.updTxn s p f).fb = s.fb ∧ (State.updTxn s p f).pb = s.pb ∧
    (State.updTxn s p f).lp = s.lp ∧ (State.updTxn s p f).draws = s.draws :=
  by and_intros <;> rfl

/-- Changes db.err alone. -/
@[simp] theorem State.dbErr_frame (s : State) (p : Nat) :
    (State.dbErr s p).pending = s.pending ∧ (State.dbErr s p).tb = s.tb ∧ (State.dbErr s p).tu = s.tu ∧
    (State.dbErr s p).ptp = s.ptp ∧ (State.dbErr s p).regs = s.regs ∧ (State.dbErr s p).dram = s.dram ∧
    (State.dbErr s p).pt = s.pt ∧ (State.dbErr s p).files = s.files ∧ (State.dbErr s p).cores = s.cores ∧
    (State.dbErr s p).db.rings = s.db.rings ∧ (State.dbErr s p).tx = s.tx ∧ (State.dbErr s p).sq = s.sq ∧
    (State.dbErr s p).pw = s.pw ∧ (State.dbErr s p).st = s.st ∧ (State.dbErr s p).ty = s.ty ∧
    (State.dbErr s p).ok = s.ok ∧ (State.dbErr s p).pr = s.pr ∧ (State.dbErr s p).pu = s.pu ∧
    (State.dbErr s p).snap = s.snap ∧ (State.dbErr s p).gn = s.gn ∧ (State.dbErr s p).mc = s.mc ∧
    (State.dbErr s p).ig = s.ig ∧ (State.dbErr s p).fc = s.fc ∧ (State.dbErr s p).tg = s.tg ∧
    (State.dbErr s p).ph = s.ph ∧ (State.dbErr s p).fl = s.fl ∧ (State.dbErr s p).fb = s.fb ∧
    (State.dbErr s p).pb = s.pb ∧ (State.dbErr s p).lp = s.lp ∧ (State.dbErr s p).draws = s.draws :=
  by and_intros <;> rfl

/-- Changes ok.nodes alone. -/
@[simp] theorem State.setNode_frame (s : State) (n : Nat) (x : Node) :
    (State.setNode s n x).pending = s.pending ∧ (State.setNode s n x).tb = s.tb ∧ (State.setNode s n x).tu = s.tu ∧
    (State.setNode s n x).ptp = s.ptp ∧ (State.setNode s n x).regs = s.regs ∧ (State.setNode s n x).dram = s.dram ∧
    (State.setNode s n x).pt = s.pt ∧ (State.setNode s n x).files = s.files ∧ (State.setNode s n x).cores = s.cores ∧
    (State.setNode s n x).db = s.db ∧ (State.setNode s n x).tx = s.tx ∧ (State.setNode s n x).sq = s.sq ∧
    (State.setNode s n x).pw = s.pw ∧ (State.setNode s n x).st = s.st ∧ (State.setNode s n x).ty = s.ty ∧
    (State.setNode s n x).ok.fused = s.ok.fused ∧ (State.setNode s n x).ok.service = s.ok.service ∧
    (State.setNode s n x).ok.ownerHash = s.ok.ownerHash ∧ (State.setNode s n x).ok.secret = s.ok.secret ∧
    (State.setNode s n x).ok.nonce = s.ok.nonce ∧ (State.setNode s n x).ok.unsealed = s.ok.unsealed ∧
    (State.setNode s n x).ok.unsealFail = s.ok.unsealFail ∧ (State.setNode s n x).ok.uses = s.ok.uses ∧
    (State.setNode s n x).ok.pends = s.ok.pends ∧ (State.setNode s n x).ok.fusing = s.ok.fusing ∧
    (State.setNode s n x).ok.nextId = s.ok.nextId ∧ (State.setNode s n x).ok.nextOrder = s.ok.nextOrder ∧
    (State.setNode s n x).ok.latched = s.ok.latched ∧ (State.setNode s n x).ok.active = s.ok.active ∧
    (State.setNode s n x).ok.seen = s.ok.seen ∧ (State.setNode s n x).ok.tword = s.ok.tword ∧
    (State.setNode s n x).ok.journal = s.ok.journal ∧ (State.setNode s n x).ok.lastEnd = s.ok.lastEnd ∧
    (State.setNode s n x).ok.owed = s.ok.owed ∧ (State.setNode s n x).pr = s.pr ∧ (State.setNode s n x).pu = s.pu ∧
    (State.setNode s n x).snap = s.snap ∧ (State.setNode s n x).gn = s.gn ∧ (State.setNode s n x).mc = s.mc ∧
    (State.setNode s n x).ig = s.ig ∧ (State.setNode s n x).fc = s.fc ∧ (State.setNode s n x).tg = s.tg ∧
    (State.setNode s n x).ph = s.ph ∧ (State.setNode s n x).fl = s.fl ∧ (State.setNode s n x).fb = s.fb ∧
    (State.setNode s n x).pb = s.pb ∧ (State.setNode s n x).lp = s.lp ∧ (State.setNode s n x).draws = s.draws :=
  by and_intros <;> rfl

/-- Changes ok.pends, ok.nextOrder alone. -/
@[simp] theorem pendKey_frame (s : State) (p r id node : Nat) (k : KeyPendKind) :
    (pendKey s p r id node k).pending = s.pending ∧ (pendKey s p r id node k).tb = s.tb ∧
    (pendKey s p r id node k).tu = s.tu ∧ (pendKey s p r id node k).ptp = s.ptp ∧
    (pendKey s p r id node k).regs = s.regs ∧ (pendKey s p r id node k).dram = s.dram ∧
    (pendKey s p r id node k).pt = s.pt ∧ (pendKey s p r id node k).files = s.files ∧
    (pendKey s p r id node k).cores = s.cores ∧ (pendKey s p r id node k).db = s.db ∧
    (pendKey s p r id node k).tx = s.tx ∧ (pendKey s p r id node k).sq = s.sq ∧ (pendKey s p r id node k).pw = s.pw ∧
    (pendKey s p r id node k).st = s.st ∧ (pendKey s p r id node k).ty = s.ty ∧
    (pendKey s p r id node k).ok.fused = s.ok.fused ∧ (pendKey s p r id node k).ok.service = s.ok.service ∧
    (pendKey s p r id node k).ok.ownerHash = s.ok.ownerHash ∧ (pendKey s p r id node k).ok.secret = s.ok.secret ∧
    (pendKey s p r id node k).ok.nonce = s.ok.nonce ∧ (pendKey s p r id node k).ok.unsealed = s.ok.unsealed ∧
    (pendKey s p r id node k).ok.unsealFail = s.ok.unsealFail ∧ (pendKey s p r id node k).ok.nodes = s.ok.nodes ∧
    (pendKey s p r id node k).ok.uses = s.ok.uses ∧ (pendKey s p r id node k).ok.fusing = s.ok.fusing ∧
    (pendKey s p r id node k).ok.nextId = s.ok.nextId ∧ (pendKey s p r id node k).ok.latched = s.ok.latched ∧
    (pendKey s p r id node k).ok.active = s.ok.active ∧ (pendKey s p r id node k).ok.seen = s.ok.seen ∧
    (pendKey s p r id node k).ok.tword = s.ok.tword ∧ (pendKey s p r id node k).ok.journal = s.ok.journal ∧
    (pendKey s p r id node k).ok.lastEnd = s.ok.lastEnd ∧ (pendKey s p r id node k).ok.owed = s.ok.owed ∧
    (pendKey s p r id node k).pr = s.pr ∧ (pendKey s p r id node k).pu = s.pu ∧ (pendKey s p r id node k).snap = s.snap ∧
    (pendKey s p r id node k).gn = s.gn ∧ (pendKey s p r id node k).mc = s.mc ∧ (pendKey s p r id node k).ig = s.ig ∧
    (pendKey s p r id node k).fc = s.fc ∧ (pendKey s p r id node k).tg = s.tg ∧ (pendKey s p r id node k).ph = s.ph ∧
    (pendKey s p r id node k).fl = s.fl ∧ (pendKey s p r id node k).fb = s.fb ∧ (pendKey s p r id node k).pb = s.pb ∧
    (pendKey s p r id node k).lp = s.lp ∧ (pendKey s p r id node k).draws = s.draws :=
  by and_intros <;> rfl

/-- Changes ok.nonce, draws alone. -/
@[simp] theorem newNonce_frame (s : State) :
    (newNonce s).pending = s.pending ∧ (newNonce s).tb = s.tb ∧ (newNonce s).tu = s.tu ∧ (newNonce s).ptp = s.ptp ∧
    (newNonce s).regs = s.regs ∧ (newNonce s).dram = s.dram ∧ (newNonce s).pt = s.pt ∧ (newNonce s).files = s.files ∧
    (newNonce s).cores = s.cores ∧ (newNonce s).db = s.db ∧ (newNonce s).tx = s.tx ∧ (newNonce s).sq = s.sq ∧
    (newNonce s).pw = s.pw ∧ (newNonce s).st = s.st ∧ (newNonce s).ty = s.ty ∧ (newNonce s).ok.fused = s.ok.fused ∧
    (newNonce s).ok.service = s.ok.service ∧ (newNonce s).ok.ownerHash = s.ok.ownerHash ∧
    (newNonce s).ok.secret = s.ok.secret ∧ (newNonce s).ok.unsealed = s.ok.unsealed ∧
    (newNonce s).ok.unsealFail = s.ok.unsealFail ∧ (newNonce s).ok.nodes = s.ok.nodes ∧ (newNonce s).ok.uses = s.ok.uses ∧
    (newNonce s).ok.pends = s.ok.pends ∧ (newNonce s).ok.fusing = s.ok.fusing ∧ (newNonce s).ok.nextId = s.ok.nextId ∧
    (newNonce s).ok.nextOrder = s.ok.nextOrder ∧ (newNonce s).ok.latched = s.ok.latched ∧
    (newNonce s).ok.active = s.ok.active ∧ (newNonce s).ok.seen = s.ok.seen ∧ (newNonce s).ok.tword = s.ok.tword ∧
    (newNonce s).ok.journal = s.ok.journal ∧ (newNonce s).ok.lastEnd = s.ok.lastEnd ∧ (newNonce s).ok.owed = s.ok.owed ∧
    (newNonce s).pr = s.pr ∧ (newNonce s).pu = s.pu ∧ (newNonce s).snap = s.snap ∧ (newNonce s).gn = s.gn ∧
    (newNonce s).mc = s.mc ∧ (newNonce s).ig = s.ig ∧ (newNonce s).fc = s.fc ∧ (newNonce s).tg = s.tg ∧
    (newNonce s).ph = s.ph ∧ (newNonce s).fl = s.fl ∧ (newNonce s).fb = s.fb ∧ (newNonce s).pb = s.pb ∧
    (newNonce s).lp = s.lp :=
  by and_intros <;> rfl

/-- Changes ok.active alone. -/
@[simp] theorem tamperSourceClear_frame (src : Fin 5) (s : State) :
    (tamperSourceClear src s).pending = s.pending ∧ (tamperSourceClear src s).tb = s.tb ∧
    (tamperSourceClear src s).tu = s.tu ∧ (tamperSourceClear src s).ptp = s.ptp ∧
    (tamperSourceClear src s).regs = s.regs ∧ (tamperSourceClear src s).dram = s.dram ∧
    (tamperSourceClear src s).pt = s.pt ∧ (tamperSourceClear src s).files = s.files ∧
    (tamperSourceClear src s).cores = s.cores ∧ (tamperSourceClear src s).db = s.db ∧
    (tamperSourceClear src s).tx = s.tx ∧ (tamperSourceClear src s).sq = s.sq ∧ (tamperSourceClear src s).pw = s.pw ∧
    (tamperSourceClear src s).st = s.st ∧ (tamperSourceClear src s).ty = s.ty ∧
    (tamperSourceClear src s).ok.fused = s.ok.fused ∧ (tamperSourceClear src s).ok.service = s.ok.service ∧
    (tamperSourceClear src s).ok.ownerHash = s.ok.ownerHash ∧ (tamperSourceClear src s).ok.secret = s.ok.secret ∧
    (tamperSourceClear src s).ok.nonce = s.ok.nonce ∧ (tamperSourceClear src s).ok.unsealed = s.ok.unsealed ∧
    (tamperSourceClear src s).ok.unsealFail = s.ok.unsealFail ∧ (tamperSourceClear src s).ok.nodes = s.ok.nodes ∧
    (tamperSourceClear src s).ok.uses = s.ok.uses ∧ (tamperSourceClear src s).ok.pends = s.ok.pends ∧
    (tamperSourceClear src s).ok.fusing = s.ok.fusing ∧ (tamperSourceClear src s).ok.nextId = s.ok.nextId ∧
    (tamperSourceClear src s).ok.nextOrder = s.ok.nextOrder ∧ (tamperSourceClear src s).ok.latched = s.ok.latched ∧
    (tamperSourceClear src s).ok.seen = s.ok.seen ∧ (tamperSourceClear src s).ok.tword = s.ok.tword ∧
    (tamperSourceClear src s).ok.journal = s.ok.journal ∧ (tamperSourceClear src s).ok.lastEnd = s.ok.lastEnd ∧
    (tamperSourceClear src s).ok.owed = s.ok.owed ∧ (tamperSourceClear src s).pr = s.pr ∧
    (tamperSourceClear src s).pu = s.pu ∧ (tamperSourceClear src s).snap = s.snap ∧ (tamperSourceClear src s).gn = s.gn ∧
    (tamperSourceClear src s).mc = s.mc ∧ (tamperSourceClear src s).ig = s.ig ∧ (tamperSourceClear src s).fc = s.fc ∧
    (tamperSourceClear src s).tg = s.tg ∧ (tamperSourceClear src s).ph = s.ph ∧ (tamperSourceClear src s).fl = s.fl ∧
    (tamperSourceClear src s).fb = s.fb ∧ (tamperSourceClear src s).pb = s.pb ∧ (tamperSourceClear src s).lp = s.lp ∧
    (tamperSourceClear src s).draws = s.draws :=
  by and_intros <;> rfl

/-- Changes pr.cnt alone. -/
@[simp] theorem prCount_frame (s : State) (i : Nat) :
    (prCount s i).pending = s.pending ∧ (prCount s i).tb = s.tb ∧ (prCount s i).tu = s.tu ∧ (prCount s i).ptp = s.ptp ∧
    (prCount s i).regs = s.regs ∧ (prCount s i).dram = s.dram ∧ (prCount s i).pt = s.pt ∧ (prCount s i).files = s.files ∧
    (prCount s i).cores = s.cores ∧ (prCount s i).db = s.db ∧ (prCount s i).tx = s.tx ∧ (prCount s i).sq = s.sq ∧
    (prCount s i).pw = s.pw ∧ (prCount s i).st = s.st ∧ (prCount s i).ty = s.ty ∧ (prCount s i).ok = s.ok ∧
    (prCount s i).pr.position = s.pr.position ∧ (prCount s i).pr.role = s.pr.role ∧ (prCount s i).pr.sync = s.pr.sync ∧
    (prCount s i).pr.fit = s.pr.fit ∧ (prCount s i).pr.silent = s.pr.silent ∧ (prCount s i).pr.negAt = s.pr.negAt ∧
    (prCount s i).pr.seen = s.pr.seen ∧ (prCount s i).pr.seenActive = s.pr.seenActive ∧ (prCount s i).pr.hb0 = s.pr.hb0 ∧
    (prCount s i).pr.hb1 = s.pr.hb1 ∧ (prCount s i).pr.hbT16 = s.pr.hbT16 ∧ (prCount s i).pr.neighCls = s.pr.neighCls ∧
    (prCount s i).pr.m0Up = s.pr.m0Up ∧ (prCount s i).pr.m1Up = s.pr.m1Up ∧ (prCount s i).pr.mateLost = s.pr.mateLost ∧
    (prCount s i).pr.bcnAt = s.pr.bcnAt ∧ (prCount s i).pr.neigh = s.pr.neigh ∧
    (prCount s i).pr.beaconLost = s.pr.beaconLost ∧ (prCount s i).pr.bcnSeq = s.pr.bcnSeq ∧
    (prCount s i).pr.hbSentAt = s.pr.hbSentAt ∧ (prCount s i).pr.bcnSentAt = s.pr.bcnSentAt ∧
    (prCount s i).pr.beacons = s.pr.beacons ∧ (prCount s i).pr.lastT = s.pr.lastT ∧ (prCount s i).pr.sw = s.pr.sw ∧
    (prCount s i).pu = s.pu ∧ (prCount s i).snap = s.snap ∧ (prCount s i).gn = s.gn ∧ (prCount s i).mc = s.mc ∧
    (prCount s i).ig = s.ig ∧ (prCount s i).fc = s.fc ∧ (prCount s i).tg = s.tg ∧ (prCount s i).ph = s.ph ∧
    (prCount s i).fl = s.fl ∧ (prCount s i).fb = s.fb ∧ (prCount s i).pb = s.pb ∧ (prCount s i).lp = s.lp ∧
    (prCount s i).draws = s.draws :=
  by and_intros <;> rfl

/-- Changes pu.flags alone. -/
@[simp] theorem raiseFlag_frame (s : State) (i : Nat) :
    (raiseFlag s i).pending = s.pending ∧ (raiseFlag s i).tb = s.tb ∧ (raiseFlag s i).tu = s.tu ∧
    (raiseFlag s i).ptp = s.ptp ∧ (raiseFlag s i).regs = s.regs ∧ (raiseFlag s i).dram = s.dram ∧
    (raiseFlag s i).pt = s.pt ∧ (raiseFlag s i).files = s.files ∧ (raiseFlag s i).cores = s.cores ∧
    (raiseFlag s i).db = s.db ∧ (raiseFlag s i).tx = s.tx ∧ (raiseFlag s i).sq = s.sq ∧ (raiseFlag s i).pw = s.pw ∧
    (raiseFlag s i).st = s.st ∧ (raiseFlag s i).ty = s.ty ∧ (raiseFlag s i).ok = s.ok ∧ (raiseFlag s i).pr = s.pr ∧
    (raiseFlag s i).pu.holdFrom = s.pu.holdFrom ∧ (raiseFlag s i).pu.divAt = s.pu.divAt ∧
    (raiseFlag s i).pu.sticky = s.pu.sticky ∧ (raiseFlag s i).pu.failed = s.pu.failed ∧
    (raiseFlag s i).pu.roleAt = s.pu.roleAt ∧ (raiseFlag s i).pu.held = s.pu.held ∧
    (raiseFlag s i).pu.early = s.pu.early ∧ (raiseFlag s i).pu.done_ = s.pu.done_ ∧ (raiseFlag s i).pu.mine = s.pu.mine ∧
    (raiseFlag s i).pu.theirs = s.pu.theirs ∧ (raiseFlag s i).pu.outSeq = s.pu.outSeq ∧
    (raiseFlag s i).pu.inSeq = s.pu.inSeq ∧ (raiseFlag s i).pu.out = s.pu.out ∧ (raiseFlag s i).pu.asked = s.pu.asked ∧
    (raiseFlag s i).pu.snapSlot = s.pu.snapSlot ∧ (raiseFlag s i).pu.since = s.pu.since ∧
    (raiseFlag s i).pu.items = s.pu.items ∧ (raiseFlag s i).snap = s.snap ∧ (raiseFlag s i).gn = s.gn ∧
    (raiseFlag s i).mc = s.mc ∧ (raiseFlag s i).ig = s.ig ∧ (raiseFlag s i).fc = s.fc ∧ (raiseFlag s i).tg = s.tg ∧
    (raiseFlag s i).ph = s.ph ∧ (raiseFlag s i).fl = s.fl ∧ (raiseFlag s i).fb = s.fb ∧ (raiseFlag s i).pb = s.pb ∧
    (raiseFlag s i).lp = s.lp ∧ (raiseFlag s i).draws = s.draws :=
  by and_intros <;> rfl

/-- Changes pu.flags, pu.sticky alone. -/
@[simp] theorem raiseSticky_frame (s : State) (i : Nat) :
    (raiseSticky s i).pending = s.pending ∧ (raiseSticky s i).tb = s.tb ∧ (raiseSticky s i).tu = s.tu ∧
    (raiseSticky s i).ptp = s.ptp ∧ (raiseSticky s i).regs = s.regs ∧ (raiseSticky s i).dram = s.dram ∧
    (raiseSticky s i).pt = s.pt ∧ (raiseSticky s i).files = s.files ∧ (raiseSticky s i).cores = s.cores ∧
    (raiseSticky s i).db = s.db ∧ (raiseSticky s i).tx = s.tx ∧ (raiseSticky s i).sq = s.sq ∧
    (raiseSticky s i).pw = s.pw ∧ (raiseSticky s i).st = s.st ∧ (raiseSticky s i).ty = s.ty ∧
    (raiseSticky s i).ok = s.ok ∧ (raiseSticky s i).pr = s.pr ∧ (raiseSticky s i).pu.holdFrom = s.pu.holdFrom ∧
    (raiseSticky s i).pu.divAt = s.pu.divAt ∧ (raiseSticky s i).pu.failed = s.pu.failed ∧
    (raiseSticky s i).pu.roleAt = s.pu.roleAt ∧ (raiseSticky s i).pu.held = s.pu.held ∧
    (raiseSticky s i).pu.early = s.pu.early ∧ (raiseSticky s i).pu.done_ = s.pu.done_ ∧
    (raiseSticky s i).pu.mine = s.pu.mine ∧ (raiseSticky s i).pu.theirs = s.pu.theirs ∧
    (raiseSticky s i).pu.outSeq = s.pu.outSeq ∧ (raiseSticky s i).pu.inSeq = s.pu.inSeq ∧
    (raiseSticky s i).pu.out = s.pu.out ∧ (raiseSticky s i).pu.asked = s.pu.asked ∧
    (raiseSticky s i).pu.snapSlot = s.pu.snapSlot ∧ (raiseSticky s i).pu.since = s.pu.since ∧
    (raiseSticky s i).pu.items = s.pu.items ∧ (raiseSticky s i).snap = s.snap ∧ (raiseSticky s i).gn = s.gn ∧
    (raiseSticky s i).mc = s.mc ∧ (raiseSticky s i).ig = s.ig ∧ (raiseSticky s i).fc = s.fc ∧
    (raiseSticky s i).tg = s.tg ∧ (raiseSticky s i).ph = s.ph ∧ (raiseSticky s i).fl = s.fl ∧
    (raiseSticky s i).fb = s.fb ∧ (raiseSticky s i).pb = s.pb ∧ (raiseSticky s i).lp = s.lp ∧
    (raiseSticky s i).draws = s.draws :=
  by and_intros <;> rfl

/-- Changes pu.out alone. -/
@[simp] theorem mateSend_frame (s : State) (x : MateSent) :
    (mateSend s x).pending = s.pending ∧ (mateSend s x).tb = s.tb ∧ (mateSend s x).tu = s.tu ∧
    (mateSend s x).ptp = s.ptp ∧ (mateSend s x).regs = s.regs ∧ (mateSend s x).dram = s.dram ∧ (mateSend s x).pt = s.pt ∧
    (mateSend s x).files = s.files ∧ (mateSend s x).cores = s.cores ∧ (mateSend s x).db = s.db ∧
    (mateSend s x).tx = s.tx ∧ (mateSend s x).sq = s.sq ∧ (mateSend s x).pw = s.pw ∧ (mateSend s x).st = s.st ∧
    (mateSend s x).ty = s.ty ∧ (mateSend s x).ok = s.ok ∧ (mateSend s x).pr = s.pr ∧
    (mateSend s x).pu.holdFrom = s.pu.holdFrom ∧ (mateSend s x).pu.divAt = s.pu.divAt ∧
    (mateSend s x).pu.flags = s.pu.flags ∧ (mateSend s x).pu.sticky = s.pu.sticky ∧
    (mateSend s x).pu.failed = s.pu.failed ∧ (mateSend s x).pu.roleAt = s.pu.roleAt ∧ (mateSend s x).pu.held = s.pu.held ∧
    (mateSend s x).pu.early = s.pu.early ∧ (mateSend s x).pu.done_ = s.pu.done_ ∧ (mateSend s x).pu.mine = s.pu.mine ∧
    (mateSend s x).pu.theirs = s.pu.theirs ∧ (mateSend s x).pu.outSeq = s.pu.outSeq ∧
    (mateSend s x).pu.inSeq = s.pu.inSeq ∧ (mateSend s x).pu.asked = s.pu.asked ∧
    (mateSend s x).pu.snapSlot = s.pu.snapSlot ∧ (mateSend s x).pu.since = s.pu.since ∧
    (mateSend s x).pu.items = s.pu.items ∧ (mateSend s x).snap = s.snap ∧ (mateSend s x).gn = s.gn ∧
    (mateSend s x).mc = s.mc ∧ (mateSend s x).ig = s.ig ∧ (mateSend s x).fc = s.fc ∧ (mateSend s x).tg = s.tg ∧
    (mateSend s x).ph = s.ph ∧ (mateSend s x).fl = s.fl ∧ (mateSend s x).fb = s.fb ∧ (mateSend s x).pb = s.pb ∧
    (mateSend s x).lp = s.lp ∧ (mateSend s x).draws = s.draws :=
  by and_intros <;> rfl

/-- Changes ph.groups alone. -/
@[simp] theorem State.updGrp_frame (s : State) (sel : Nat) (f : PhRt → PhRt) :
    (State.updGrp s sel f).pending = s.pending ∧ (State.updGrp s sel f).tb = s.tb ∧ (State.updGrp s sel f).tu = s.tu ∧
    (State.updGrp s sel f).ptp = s.ptp ∧ (State.updGrp s sel f).regs = s.regs ∧ (State.updGrp s sel f).dram = s.dram ∧
    (State.updGrp s sel f).pt = s.pt ∧ (State.updGrp s sel f).files = s.files ∧ (State.updGrp s sel f).cores = s.cores ∧
    (State.updGrp s sel f).db = s.db ∧ (State.updGrp s sel f).tx = s.tx ∧ (State.updGrp s sel f).sq = s.sq ∧
    (State.updGrp s sel f).pw = s.pw ∧ (State.updGrp s sel f).st = s.st ∧ (State.updGrp s sel f).ty = s.ty ∧
    (State.updGrp s sel f).ok = s.ok ∧ (State.updGrp s sel f).pr = s.pr ∧ (State.updGrp s sel f).pu = s.pu ∧
    (State.updGrp s sel f).snap = s.snap ∧ (State.updGrp s sel f).gn = s.gn ∧ (State.updGrp s sel f).mc = s.mc ∧
    (State.updGrp s sel f).ig = s.ig ∧ (State.updGrp s sel f).fc = s.fc ∧ (State.updGrp s sel f).tg = s.tg ∧
    (State.updGrp s sel f).ph.ws = s.ph.ws ∧ (State.updGrp s sel f).ph.edges = s.ph.edges ∧
    (State.updGrp s sel f).fl = s.fl ∧ (State.updGrp s sel f).fb = s.fb ∧ (State.updGrp s sel f).pb = s.pb ∧
    (State.updGrp s sel f).lp = s.lp ∧ (State.updGrp s sel f).draws = s.draws :=
  by and_intros <;> rfl

/-- Changes ph.edges alone. -/
@[simp] theorem noteEdge_frame (j : Nat) (s : State) :
    (noteEdge j s).pending = s.pending ∧ (noteEdge j s).tb = s.tb ∧ (noteEdge j s).tu = s.tu ∧
    (noteEdge j s).ptp = s.ptp ∧ (noteEdge j s).regs = s.regs ∧ (noteEdge j s).dram = s.dram ∧ (noteEdge j s).pt = s.pt ∧
    (noteEdge j s).files = s.files ∧ (noteEdge j s).cores = s.cores ∧ (noteEdge j s).db = s.db ∧
    (noteEdge j s).tx = s.tx ∧ (noteEdge j s).sq = s.sq ∧ (noteEdge j s).pw = s.pw ∧ (noteEdge j s).st = s.st ∧
    (noteEdge j s).ty = s.ty ∧ (noteEdge j s).ok = s.ok ∧ (noteEdge j s).pr = s.pr ∧ (noteEdge j s).pu = s.pu ∧
    (noteEdge j s).snap = s.snap ∧ (noteEdge j s).gn = s.gn ∧ (noteEdge j s).mc = s.mc ∧ (noteEdge j s).ig = s.ig ∧
    (noteEdge j s).fc = s.fc ∧ (noteEdge j s).tg = s.tg ∧ (noteEdge j s).ph.groups = s.ph.groups ∧
    (noteEdge j s).ph.ws = s.ph.ws ∧ (noteEdge j s).fl = s.fl ∧ (noteEdge j s).fb = s.fb ∧ (noteEdge j s).pb = s.pb ∧
    (noteEdge j s).lp = s.lp ∧ (noteEdge j s).draws = s.draws :=
  by and_intros <;> rfl

/-- Changes ph.ws alone. -/
@[simp] theorem State.updPws_frame (s : State) (n : Nat) (f : PwsRt → PwsRt) :
    (State.updPws s n f).pending = s.pending ∧ (State.updPws s n f).tb = s.tb ∧ (State.updPws s n f).tu = s.tu ∧
    (State.updPws s n f).ptp = s.ptp ∧ (State.updPws s n f).regs = s.regs ∧ (State.updPws s n f).dram = s.dram ∧
    (State.updPws s n f).pt = s.pt ∧ (State.updPws s n f).files = s.files ∧ (State.updPws s n f).cores = s.cores ∧
    (State.updPws s n f).db = s.db ∧ (State.updPws s n f).tx = s.tx ∧ (State.updPws s n f).sq = s.sq ∧
    (State.updPws s n f).pw = s.pw ∧ (State.updPws s n f).st = s.st ∧ (State.updPws s n f).ty = s.ty ∧
    (State.updPws s n f).ok = s.ok ∧ (State.updPws s n f).pr = s.pr ∧ (State.updPws s n f).pu = s.pu ∧
    (State.updPws s n f).snap = s.snap ∧ (State.updPws s n f).gn = s.gn ∧ (State.updPws s n f).mc = s.mc ∧
    (State.updPws s n f).ig = s.ig ∧ (State.updPws s n f).fc = s.fc ∧ (State.updPws s n f).tg = s.tg ∧
    (State.updPws s n f).ph.groups = s.ph.groups ∧ (State.updPws s n f).ph.edges = s.ph.edges ∧
    (State.updPws s n f).fl = s.fl ∧ (State.updPws s n f).fb = s.fb ∧ (State.updPws s n f).pb = s.pb ∧
    (State.updPws s n f).lp = s.lp ∧ (State.updPws s n f).draws = s.draws :=
  by and_intros <;> rfl

/-- Changes tb.ocxoSince, ty.hoursAt alone. -/
@[simp] theorem ocxoOn_frame (s : State) :
    (ocxoOn s).pending = s.pending ∧ (ocxoOn s).tb.counter = s.tb.counter ∧ (ocxoOn s).tb.edge = s.tb.edge ∧
    (ocxoOn s).tb.addend = s.tb.addend ∧ (ocxoOn s).tb.stagedLo = s.tb.stagedLo ∧
    (ocxoOn s).tb.nextAddend = s.tb.nextAddend ∧ (ocxoOn s).tb.corr = s.tb.corr ∧ (ocxoOn s).tb.integ = s.tb.integ ∧
    (ocxoOn s).tb.st = s.tb.st ∧ (ocxoOn s).tb.refTcxo = s.tb.refTcxo ∧ (ocxoOn s).tb.ocxoOk = s.tb.ocxoOk ∧
    (ocxoOn s).tb.tcxoOk = s.tb.tcxoOk ∧ (ocxoOn s).tb.accepted = s.tb.accepted ∧ (ocxoOn s).tb.outliers = s.tb.outliers ∧
    (ocxoOn s).tb.lockRun = s.tb.lockRun ∧ (ocxoOn s).tb.latest = s.tb.latest ∧
    (ocxoOn s).tb.firstOffset = s.tb.firstOffset ∧ (ocxoOn s).tb.stepBy = s.tb.stepBy ∧
    (ocxoOn s).tb.stepHeld = s.tb.stepHeld ∧ (ocxoOn s).tb.est = s.tb.est ∧ (ocxoOn s).tb.estEdge = s.tb.estEdge ∧
    (ocxoOn s).tb.unknownErr = s.tb.unknownErr ∧ (ocxoOn s).tb.traceable = s.tb.traceable ∧
    (ocxoOn s).tb.lastFwOffset = s.tb.lastFwOffset ∧ (ocxoOn s).tb.fwIgnored = s.tb.fwIgnored ∧
    (ocxoOn s).tb.stepRefused = s.tb.stepRefused ∧ (ocxoOn s).tb.stepped = s.tb.stepped ∧
    (ocxoOn s).tb.lockedAt = s.tb.lockedAt ∧ (ocxoOn s).tb.lockT = s.tb.lockT ∧ (ocxoOn s).tu = s.tu ∧
    (ocxoOn s).ptp = s.ptp ∧ (ocxoOn s).regs = s.regs ∧ (ocxoOn s).dram = s.dram ∧ (ocxoOn s).pt = s.pt ∧
    (ocxoOn s).files = s.files ∧ (ocxoOn s).cores = s.cores ∧ (ocxoOn s).db = s.db ∧ (ocxoOn s).tx = s.tx ∧
    (ocxoOn s).sq = s.sq ∧ (ocxoOn s).pw = s.pw ∧ (ocxoOn s).st = s.st ∧ (ocxoOn s).ty.open_ = s.ty.open_ ∧
    (ocxoOn s).ty.recs = s.ty.recs ∧ (ocxoOn s).ty.full = s.ty.full ∧ (ocxoOn s).ty.lost = s.ty.lost ∧
    (ocxoOn s).ty.hours = s.ty.hours ∧ (ocxoOn s).ty.hoursPart = s.ty.hoursPart ∧ (ocxoOn s).ty.cycles = s.ty.cycles ∧
    (ocxoOn s).ty.savedHours = s.ty.savedHours ∧ (ocxoOn s).ty.savedCycles = s.ty.savedCycles ∧
    (ocxoOn s).ty.savedPref = s.ty.savedPref ∧ (ocxoOn s).ty.clearing = s.ty.clearing ∧
    (ocxoOn s).ty.waiting = s.ty.waiting ∧ (ocxoOn s).ok = s.ok ∧ (ocxoOn s).pr = s.pr ∧ (ocxoOn s).pu = s.pu ∧
    (ocxoOn s).snap = s.snap ∧ (ocxoOn s).gn = s.gn ∧ (ocxoOn s).mc = s.mc ∧ (ocxoOn s).ig = s.ig ∧ (ocxoOn s).fc = s.fc ∧
    (ocxoOn s).tg = s.tg ∧ (ocxoOn s).ph = s.ph ∧ (ocxoOn s).fl = s.fl ∧ (ocxoOn s).fb = s.fb ∧ (ocxoOn s).pb = s.pb ∧
    (ocxoOn s).lp = s.lp ∧ (ocxoOn s).draws = s.draws :=
  by and_intros <;> rfl

/-- Changes tb.counter, tb.addend, tb.corr, tb.st, tu.nextSlot, ok.latched, ok.seen, ok.owed, ok.tword, ty.hours, ty.hoursPart, ty.cycles alone. -/
@[simp] theorem loseKept_frame (s : State) :
    (loseKept s).pending = s.pending ∧ (loseKept s).tb.edge = s.tb.edge ∧ (loseKept s).tb.stagedLo = s.tb.stagedLo ∧
    (loseKept s).tb.nextAddend = s.tb.nextAddend ∧ (loseKept s).tb.integ = s.tb.integ ∧
    (loseKept s).tb.refTcxo = s.tb.refTcxo ∧ (loseKept s).tb.ocxoOk = s.tb.ocxoOk ∧
    (loseKept s).tb.ocxoSince = s.tb.ocxoSince ∧ (loseKept s).tb.tcxoOk = s.tb.tcxoOk ∧
    (loseKept s).tb.accepted = s.tb.accepted ∧ (loseKept s).tb.outliers = s.tb.outliers ∧
    (loseKept s).tb.lockRun = s.tb.lockRun ∧ (loseKept s).tb.latest = s.tb.latest ∧
    (loseKept s).tb.firstOffset = s.tb.firstOffset ∧ (loseKept s).tb.stepBy = s.tb.stepBy ∧
    (loseKept s).tb.stepHeld = s.tb.stepHeld ∧ (loseKept s).tb.est = s.tb.est ∧ (loseKept s).tb.estEdge = s.tb.estEdge ∧
    (loseKept s).tb.unknownErr = s.tb.unknownErr ∧ (loseKept s).tb.traceable = s.tb.traceable ∧
    (loseKept s).tb.lastFwOffset = s.tb.lastFwOffset ∧ (loseKept s).tb.fwIgnored = s.tb.fwIgnored ∧
    (loseKept s).tb.stepRefused = s.tb.stepRefused ∧ (loseKept s).tb.stepped = s.tb.stepped ∧
    (loseKept s).tb.lockedAt = s.tb.lockedAt ∧ (loseKept s).tb.lockT = s.tb.lockT ∧ (loseKept s).tu.now = s.tu.now ∧
    (loseKept s).tu.tsq = s.tu.tsq ∧ (loseKept s).tu.tsqOvf = s.tu.tsqOvf ∧ (loseKept s).tu.txIdent = s.tu.txIdent ∧
    (loseKept s).tu.leapAt = s.tu.leapAt ∧ (loseKept s).tu.utcPast = s.tu.utcPast ∧ (loseKept s).tu.ttus = s.tu.ttus ∧
    (loseKept s).tu.touts = s.tu.touts ∧ (loseKept s).ptp = s.ptp ∧ (loseKept s).regs = s.regs ∧
    (loseKept s).dram = s.dram ∧ (loseKept s).pt = s.pt ∧ (loseKept s).files = s.files ∧ (loseKept s).cores = s.cores ∧
    (loseKept s).db = s.db ∧ (loseKept s).tx = s.tx ∧ (loseKept s).sq = s.sq ∧ (loseKept s).pw = s.pw ∧
    (loseKept s).st = s.st ∧ (loseKept s).ty.open_ = s.ty.open_ ∧ (loseKept s).ty.recs = s.ty.recs ∧
    (loseKept s).ty.full = s.ty.full ∧ (loseKept s).ty.lost = s.ty.lost ∧ (loseKept s).ty.hoursAt = s.ty.hoursAt ∧
    (loseKept s).ty.savedHours = s.ty.savedHours ∧ (loseKept s).ty.savedCycles = s.ty.savedCycles ∧
    (loseKept s).ty.savedPref = s.ty.savedPref ∧ (loseKept s).ty.clearing = s.ty.clearing ∧
    (loseKept s).ty.waiting = s.ty.waiting ∧ (loseKept s).ok.fused = s.ok.fused ∧ (loseKept s).ok.service = s.ok.service ∧
    (loseKept s).ok.ownerHash = s.ok.ownerHash ∧ (loseKept s).ok.secret = s.ok.secret ∧
    (loseKept s).ok.nonce = s.ok.nonce ∧ (loseKept s).ok.unsealed = s.ok.unsealed ∧
    (loseKept s).ok.unsealFail = s.ok.unsealFail ∧ (loseKept s).ok.nodes = s.ok.nodes ∧ (loseKept s).ok.uses = s.ok.uses ∧
    (loseKept s).ok.pends = s.ok.pends ∧ (loseKept s).ok.fusing = s.ok.fusing ∧ (loseKept s).ok.nextId = s.ok.nextId ∧
    (loseKept s).ok.nextOrder = s.ok.nextOrder ∧ (loseKept s).ok.active = s.ok.active ∧
    (loseKept s).ok.journal = s.ok.journal ∧ (loseKept s).ok.lastEnd = s.ok.lastEnd ∧ (loseKept s).pr = s.pr ∧
    (loseKept s).pu = s.pu ∧ (loseKept s).snap = s.snap ∧ (loseKept s).gn = s.gn ∧ (loseKept s).mc = s.mc ∧
    (loseKept s).ig = s.ig ∧ (loseKept s).fc = s.fc ∧ (loseKept s).tg = s.tg ∧ (loseKept s).ph = s.ph ∧
    (loseKept s).fl = s.fl ∧ (loseKept s).fb = s.fb ∧ (loseKept s).pb = s.pb ∧ (loseKept s).lp = s.lp ∧
    (loseKept s).draws = s.draws :=
  by and_intros <;> rfl

/-- Changes pb.gcbs alone. -/
@[simp] theorem State.updGcb_frame (s : State) (g : Nat) (f : GcbRt → GcbRt) :
    (State.updGcb s g f).pending = s.pending ∧ (State.updGcb s g f).tb = s.tb ∧ (State.updGcb s g f).tu = s.tu ∧
    (State.updGcb s g f).ptp = s.ptp ∧ (State.updGcb s g f).regs = s.regs ∧ (State.updGcb s g f).dram = s.dram ∧
    (State.updGcb s g f).pt = s.pt ∧ (State.updGcb s g f).files = s.files ∧ (State.updGcb s g f).cores = s.cores ∧
    (State.updGcb s g f).db = s.db ∧ (State.updGcb s g f).tx = s.tx ∧ (State.updGcb s g f).sq = s.sq ∧
    (State.updGcb s g f).pw = s.pw ∧ (State.updGcb s g f).st = s.st ∧ (State.updGcb s g f).ty = s.ty ∧
    (State.updGcb s g f).ok = s.ok ∧ (State.updGcb s g f).pr = s.pr ∧ (State.updGcb s g f).pu = s.pu ∧
    (State.updGcb s g f).snap = s.snap ∧ (State.updGcb s g f).gn = s.gn ∧ (State.updGcb s g f).mc = s.mc ∧
    (State.updGcb s g f).ig = s.ig ∧ (State.updGcb s g f).fc = s.fc ∧ (State.updGcb s g f).tg = s.tg ∧
    (State.updGcb s g f).ph = s.ph ∧ (State.updGcb s g f).fl = s.fl ∧ (State.updGcb s g f).fb = s.fb ∧
    (State.updGcb s g f).pb.dsvs = s.pb.dsvs ∧ (State.updGcb s g f).pb.pts = s.pb.pts ∧
    (State.updGcb s g f).pb.sets = s.pb.sets ∧ (State.updGcb s g f).pb.gave = s.pb.gave ∧
    (State.updGcb s g f).pb.pairSeq = s.pb.pairSeq ∧ (State.updGcb s g f).lp = s.lp ∧
    (State.updGcb s g f).draws = s.draws :=
  by and_intros <;> rfl

/-- Changes pb.dsvs alone. -/
@[simp] theorem State.updDsv_frame (s : State) (n : Nat) (f : DsvRt → DsvRt) :
    (State.updDsv s n f).pending = s.pending ∧ (State.updDsv s n f).tb = s.tb ∧ (State.updDsv s n f).tu = s.tu ∧
    (State.updDsv s n f).ptp = s.ptp ∧ (State.updDsv s n f).regs = s.regs ∧ (State.updDsv s n f).dram = s.dram ∧
    (State.updDsv s n f).pt = s.pt ∧ (State.updDsv s n f).files = s.files ∧ (State.updDsv s n f).cores = s.cores ∧
    (State.updDsv s n f).db = s.db ∧ (State.updDsv s n f).tx = s.tx ∧ (State.updDsv s n f).sq = s.sq ∧
    (State.updDsv s n f).pw = s.pw ∧ (State.updDsv s n f).st = s.st ∧ (State.updDsv s n f).ty = s.ty ∧
    (State.updDsv s n f).ok = s.ok ∧ (State.updDsv s n f).pr = s.pr ∧ (State.updDsv s n f).pu = s.pu ∧
    (State.updDsv s n f).snap = s.snap ∧ (State.updDsv s n f).gn = s.gn ∧ (State.updDsv s n f).mc = s.mc ∧
    (State.updDsv s n f).ig = s.ig ∧ (State.updDsv s n f).fc = s.fc ∧ (State.updDsv s n f).tg = s.tg ∧
    (State.updDsv s n f).ph = s.ph ∧ (State.updDsv s n f).fl = s.fl ∧ (State.updDsv s n f).fb = s.fb ∧
    (State.updDsv s n f).pb.gcbs = s.pb.gcbs ∧ (State.updDsv s n f).pb.pts = s.pb.pts ∧
    (State.updDsv s n f).pb.sets = s.pb.sets ∧ (State.updDsv s n f).pb.gave = s.pb.gave ∧
    (State.updDsv s n f).pb.pairSeq = s.pb.pairSeq ∧ (State.updDsv s n f).lp = s.lp ∧
    (State.updDsv s n f).draws = s.draws :=
  by and_intros <;> rfl

/-- Changes pb.gcbs alone. -/
@[simp] theorem gcbResume_frame (s : State) :
    (gcbResume s).pending = s.pending ∧ (gcbResume s).tb = s.tb ∧ (gcbResume s).tu = s.tu ∧ (gcbResume s).ptp = s.ptp ∧
    (gcbResume s).regs = s.regs ∧ (gcbResume s).dram = s.dram ∧ (gcbResume s).pt = s.pt ∧ (gcbResume s).files = s.files ∧
    (gcbResume s).cores = s.cores ∧ (gcbResume s).db = s.db ∧ (gcbResume s).tx = s.tx ∧ (gcbResume s).sq = s.sq ∧
    (gcbResume s).pw = s.pw ∧ (gcbResume s).st = s.st ∧ (gcbResume s).ty = s.ty ∧ (gcbResume s).ok = s.ok ∧
    (gcbResume s).pr = s.pr ∧ (gcbResume s).pu = s.pu ∧ (gcbResume s).snap = s.snap ∧ (gcbResume s).gn = s.gn ∧
    (gcbResume s).mc = s.mc ∧ (gcbResume s).ig = s.ig ∧ (gcbResume s).fc = s.fc ∧ (gcbResume s).tg = s.tg ∧
    (gcbResume s).ph = s.ph ∧ (gcbResume s).fl = s.fl ∧ (gcbResume s).fb = s.fb ∧ (gcbResume s).pb.dsvs = s.pb.dsvs ∧
    (gcbResume s).pb.pts = s.pb.pts ∧ (gcbResume s).pb.sets = s.pb.sets ∧ (gcbResume s).pb.gave = s.pb.gave ∧
    (gcbResume s).pb.pairSeq = s.pb.pairSeq ∧ (gcbResume s).lp = s.lp ∧ (gcbResume s).draws = s.draws :=
  by and_intros <;> rfl

/-- Changes pb.gcbs alone. -/
@[simp] theorem gcbStepped_frame (from_ to_ : Nat) (s : State) :
    (gcbStepped from_ to_ s).pending = s.pending ∧ (gcbStepped from_ to_ s).tb = s.tb ∧
    (gcbStepped from_ to_ s).tu = s.tu ∧ (gcbStepped from_ to_ s).ptp = s.ptp ∧ (gcbStepped from_ to_ s).regs = s.regs ∧
    (gcbStepped from_ to_ s).dram = s.dram ∧ (gcbStepped from_ to_ s).pt = s.pt ∧
    (gcbStepped from_ to_ s).files = s.files ∧ (gcbStepped from_ to_ s).cores = s.cores ∧
    (gcbStepped from_ to_ s).db = s.db ∧ (gcbStepped from_ to_ s).tx = s.tx ∧ (gcbStepped from_ to_ s).sq = s.sq ∧
    (gcbStepped from_ to_ s).pw = s.pw ∧ (gcbStepped from_ to_ s).st = s.st ∧ (gcbStepped from_ to_ s).ty = s.ty ∧
    (gcbStepped from_ to_ s).ok = s.ok ∧ (gcbStepped from_ to_ s).pr = s.pr ∧ (gcbStepped from_ to_ s).pu = s.pu ∧
    (gcbStepped from_ to_ s).snap = s.snap ∧ (gcbStepped from_ to_ s).gn = s.gn ∧ (gcbStepped from_ to_ s).mc = s.mc ∧
    (gcbStepped from_ to_ s).ig = s.ig ∧ (gcbStepped from_ to_ s).fc = s.fc ∧ (gcbStepped from_ to_ s).tg = s.tg ∧
    (gcbStepped from_ to_ s).ph = s.ph ∧ (gcbStepped from_ to_ s).fl = s.fl ∧ (gcbStepped from_ to_ s).fb = s.fb ∧
    (gcbStepped from_ to_ s).pb.dsvs = s.pb.dsvs ∧ (gcbStepped from_ to_ s).pb.pts = s.pb.pts ∧
    (gcbStepped from_ to_ s).pb.sets = s.pb.sets ∧ (gcbStepped from_ to_ s).pb.gave = s.pb.gave ∧
    (gcbStepped from_ to_ s).pb.pairSeq = s.pb.pairSeq ∧ (gcbStepped from_ to_ s).lp = s.lp ∧
    (gcbStepped from_ to_ s).draws = s.draws :=
  by and_intros <;> rfl

/-- Changes pt.refused alone. -/
@[simp] theorem refuseReset_frame (s : State) :
    (refuseReset s).pending = s.pending ∧ (refuseReset s).tb = s.tb ∧ (refuseReset s).tu = s.tu ∧
    (refuseReset s).ptp = s.ptp ∧ (refuseReset s).regs = s.regs ∧ (refuseReset s).dram = s.dram ∧
    (refuseReset s).pt.parts = s.pt.parts ∧ (refuseReset s).pt.resets = s.pt.resets ∧
    (refuseReset s).pt.lastScope = s.pt.lastScope ∧ (refuseReset s).pt.lastDrain = s.pt.lastDrain ∧
    (refuseReset s).files = s.files ∧ (refuseReset s).cores = s.cores ∧ (refuseReset s).db = s.db ∧
    (refuseReset s).tx = s.tx ∧ (refuseReset s).sq = s.sq ∧ (refuseReset s).pw = s.pw ∧ (refuseReset s).st = s.st ∧
    (refuseReset s).ty = s.ty ∧ (refuseReset s).ok = s.ok ∧ (refuseReset s).pr = s.pr ∧ (refuseReset s).pu = s.pu ∧
    (refuseReset s).snap = s.snap ∧ (refuseReset s).gn = s.gn ∧ (refuseReset s).mc = s.mc ∧ (refuseReset s).ig = s.ig ∧
    (refuseReset s).fc = s.fc ∧ (refuseReset s).tg = s.tg ∧ (refuseReset s).ph = s.ph ∧ (refuseReset s).fl = s.fl ∧
    (refuseReset s).fb = s.fb ∧ (refuseReset s).pb = s.pb ∧ (refuseReset s).lp = s.lp ∧ (refuseReset s).draws = s.draws :=
  by and_intros <;> rfl

/-- Changes sq.tasks alone. -/
@[simp] theorem State.updTask_frame (s : State) (h t : Nat) (f : Task → Task) :
    (State.updTask s h t f).pending = s.pending ∧ (State.updTask s h t f).tb = s.tb ∧ (State.updTask s h t f).tu = s.tu ∧
    (State.updTask s h t f).ptp = s.ptp ∧ (State.updTask s h t f).regs = s.regs ∧ (State.updTask s h t f).dram = s.dram ∧
    (State.updTask s h t f).pt = s.pt ∧ (State.updTask s h t f).files = s.files ∧
    (State.updTask s h t f).cores = s.cores ∧ (State.updTask s h t f).db = s.db ∧ (State.updTask s h t f).tx = s.tx ∧
    (State.updTask s h t f).sq.hearths = s.sq.hearths ∧ (State.updTask s h t f).pw = s.pw ∧
    (State.updTask s h t f).st = s.st ∧ (State.updTask s h t f).ty = s.ty ∧ (State.updTask s h t f).ok = s.ok ∧
    (State.updTask s h t f).pr = s.pr ∧ (State.updTask s h t f).pu = s.pu ∧ (State.updTask s h t f).snap = s.snap ∧
    (State.updTask s h t f).gn = s.gn ∧ (State.updTask s h t f).mc = s.mc ∧ (State.updTask s h t f).ig = s.ig ∧
    (State.updTask s h t f).fc = s.fc ∧ (State.updTask s h t f).tg = s.tg ∧ (State.updTask s h t f).ph = s.ph ∧
    (State.updTask s h t f).fl = s.fl ∧ (State.updTask s h t f).fb = s.fb ∧ (State.updTask s h t f).pb = s.pb ∧
    (State.updTask s h t f).lp = s.lp ∧ (State.updTask s h t f).draws = s.draws :=
  by and_intros <;> rfl

/-- Changes sq.hearths alone. -/
@[simp] theorem State.updSched_frame (s : State) (h : Nat) (f : Sched → Sched) :
    (State.updSched s h f).pending = s.pending ∧ (State.updSched s h f).tb = s.tb ∧ (State.updSched s h f).tu = s.tu ∧
    (State.updSched s h f).ptp = s.ptp ∧ (State.updSched s h f).regs = s.regs ∧ (State.updSched s h f).dram = s.dram ∧
    (State.updSched s h f).pt = s.pt ∧ (State.updSched s h f).files = s.files ∧ (State.updSched s h f).cores = s.cores ∧
    (State.updSched s h f).db = s.db ∧ (State.updSched s h f).tx = s.tx ∧ (State.updSched s h f).sq.tasks = s.sq.tasks ∧
    (State.updSched s h f).pw = s.pw ∧ (State.updSched s h f).st = s.st ∧ (State.updSched s h f).ty = s.ty ∧
    (State.updSched s h f).ok = s.ok ∧ (State.updSched s h f).pr = s.pr ∧ (State.updSched s h f).pu = s.pu ∧
    (State.updSched s h f).snap = s.snap ∧ (State.updSched s h f).gn = s.gn ∧ (State.updSched s h f).mc = s.mc ∧
    (State.updSched s h f).ig = s.ig ∧ (State.updSched s h f).fc = s.fc ∧ (State.updSched s h f).tg = s.tg ∧
    (State.updSched s h f).ph = s.ph ∧ (State.updSched s h f).fl = s.fl ∧ (State.updSched s h f).fb = s.fb ∧
    (State.updSched s h f).pb = s.pb ∧ (State.updSched s h f).lp = s.lp ∧ (State.updSched s h f).draws = s.draws :=
  by and_intros <;> rfl

/-- Changes tx.txns alone. -/
@[simp] theorem txnStepped_frame (j : Nat) (s : State) :
    (txnStepped j s).pending = s.pending ∧ (txnStepped j s).tb = s.tb ∧ (txnStepped j s).tu = s.tu ∧
    (txnStepped j s).ptp = s.ptp ∧ (txnStepped j s).regs = s.regs ∧ (txnStepped j s).dram = s.dram ∧
    (txnStepped j s).pt = s.pt ∧ (txnStepped j s).files = s.files ∧ (txnStepped j s).cores = s.cores ∧
    (txnStepped j s).db = s.db ∧ (txnStepped j s).tx.nextId = s.tx.nextId ∧
    (txnStepped j s).tx.nextOrder = s.tx.nextOrder ∧ (txnStepped j s).sq = s.sq ∧ (txnStepped j s).pw = s.pw ∧
    (txnStepped j s).st = s.st ∧ (txnStepped j s).ty = s.ty ∧ (txnStepped j s).ok = s.ok ∧ (txnStepped j s).pr = s.pr ∧
    (txnStepped j s).pu = s.pu ∧ (txnStepped j s).snap = s.snap ∧ (txnStepped j s).gn = s.gn ∧
    (txnStepped j s).mc = s.mc ∧ (txnStepped j s).ig = s.ig ∧ (txnStepped j s).fc = s.fc ∧ (txnStepped j s).tg = s.tg ∧
    (txnStepped j s).ph = s.ph ∧ (txnStepped j s).fl = s.fl ∧ (txnStepped j s).fb = s.fb ∧ (txnStepped j s).pb = s.pb ∧
    (txnStepped j s).lp = s.lp ∧ (txnStepped j s).draws = s.draws :=
  by and_intros <;> rfl

/-- Changes st.blocks alone. -/
@[simp] theorem State.updBlk_frame (s : State) (b : Nat) (f : Blk → Blk) :
    (State.updBlk s b f).pending = s.pending ∧ (State.updBlk s b f).tb = s.tb ∧ (State.updBlk s b f).tu = s.tu ∧
    (State.updBlk s b f).ptp = s.ptp ∧ (State.updBlk s b f).regs = s.regs ∧ (State.updBlk s b f).dram = s.dram ∧
    (State.updBlk s b f).pt = s.pt ∧ (State.updBlk s b f).files = s.files ∧ (State.updBlk s b f).cores = s.cores ∧
    (State.updBlk s b f).db = s.db ∧ (State.updBlk s b f).tx = s.tx ∧ (State.updBlk s b f).sq = s.sq ∧
    (State.updBlk s b f).pw = s.pw ∧ (State.updBlk s b f).st.objects = s.st.objects ∧
    (State.updBlk s b f).st.ops = s.st.ops ∧ (State.updBlk s b f).st.reads = s.st.reads ∧
    (State.updBlk s b f).st.nextId = s.st.nextId ∧ (State.updBlk s b f).st.nextVer = s.st.nextVer ∧
    (State.updBlk s b f).st.fill = s.st.fill ∧ (State.updBlk s b f).st.ready = s.st.ready ∧
    (State.updBlk s b f).st.replaying = s.st.replaying ∧ (State.updBlk s b f).st.shutdown = s.st.shutdown ∧
    (State.updBlk s b f).st.cnt = s.st.cnt ∧ (State.updBlk s b f).st.discards = s.st.discards ∧
    (State.updBlk s b f).ty = s.ty ∧ (State.updBlk s b f).ok = s.ok ∧ (State.updBlk s b f).pr = s.pr ∧
    (State.updBlk s b f).pu = s.pu ∧ (State.updBlk s b f).snap = s.snap ∧ (State.updBlk s b f).gn = s.gn ∧
    (State.updBlk s b f).mc = s.mc ∧ (State.updBlk s b f).ig = s.ig ∧ (State.updBlk s b f).fc = s.fc ∧
    (State.updBlk s b f).tg = s.tg ∧ (State.updBlk s b f).ph = s.ph ∧ (State.updBlk s b f).fl = s.fl ∧
    (State.updBlk s b f).fb = s.fb ∧ (State.updBlk s b f).pb = s.pb ∧ (State.updBlk s b f).lp = s.lp ∧
    (State.updBlk s b f).draws = s.draws :=
  by and_intros <;> rfl

/-- Changes st.cnt alone. -/
@[simp] theorem stCount_frame (s : State) (i : Nat) :
    (stCount s i).pending = s.pending ∧ (stCount s i).tb = s.tb ∧ (stCount s i).tu = s.tu ∧ (stCount s i).ptp = s.ptp ∧
    (stCount s i).regs = s.regs ∧ (stCount s i).dram = s.dram ∧ (stCount s i).pt = s.pt ∧ (stCount s i).files = s.files ∧
    (stCount s i).cores = s.cores ∧ (stCount s i).db = s.db ∧ (stCount s i).tx = s.tx ∧ (stCount s i).sq = s.sq ∧
    (stCount s i).pw = s.pw ∧ (stCount s i).st.objects = s.st.objects ∧ (stCount s i).st.blocks = s.st.blocks ∧
    (stCount s i).st.ops = s.st.ops ∧ (stCount s i).st.reads = s.st.reads ∧ (stCount s i).st.nextId = s.st.nextId ∧
    (stCount s i).st.nextVer = s.st.nextVer ∧ (stCount s i).st.fill = s.st.fill ∧ (stCount s i).st.ready = s.st.ready ∧
    (stCount s i).st.replaying = s.st.replaying ∧ (stCount s i).st.shutdown = s.st.shutdown ∧
    (stCount s i).st.discards = s.st.discards ∧ (stCount s i).ty = s.ty ∧ (stCount s i).ok = s.ok ∧
    (stCount s i).pr = s.pr ∧ (stCount s i).pu = s.pu ∧ (stCount s i).snap = s.snap ∧ (stCount s i).gn = s.gn ∧
    (stCount s i).mc = s.mc ∧ (stCount s i).ig = s.ig ∧ (stCount s i).fc = s.fc ∧ (stCount s i).tg = s.tg ∧
    (stCount s i).ph = s.ph ∧ (stCount s i).fl = s.fl ∧ (stCount s i).fb = s.fb ∧ (stCount s i).pb = s.pb ∧
    (stCount s i).lp = s.lp ∧ (stCount s i).draws = s.draws :=
  by and_intros <;> rfl

/-- Changes st.ops, st.nextId alone. -/
@[simp] theorem openOp_frame (s : State) (o : StOp) :
    (openOp s o).pending = s.pending ∧ (openOp s o).tb = s.tb ∧ (openOp s o).tu = s.tu ∧ (openOp s o).ptp = s.ptp ∧
    (openOp s o).regs = s.regs ∧ (openOp s o).dram = s.dram ∧ (openOp s o).pt = s.pt ∧ (openOp s o).files = s.files ∧
    (openOp s o).cores = s.cores ∧ (openOp s o).db = s.db ∧ (openOp s o).tx = s.tx ∧ (openOp s o).sq = s.sq ∧
    (openOp s o).pw = s.pw ∧ (openOp s o).st.objects = s.st.objects ∧ (openOp s o).st.blocks = s.st.blocks ∧
    (openOp s o).st.reads = s.st.reads ∧ (openOp s o).st.nextVer = s.st.nextVer ∧ (openOp s o).st.fill = s.st.fill ∧
    (openOp s o).st.ready = s.st.ready ∧ (openOp s o).st.replaying = s.st.replaying ∧
    (openOp s o).st.shutdown = s.st.shutdown ∧ (openOp s o).st.cnt = s.st.cnt ∧ (openOp s o).st.discards = s.st.discards ∧
    (openOp s o).ty = s.ty ∧ (openOp s o).ok = s.ok ∧ (openOp s o).pr = s.pr ∧ (openOp s o).pu = s.pu ∧
    (openOp s o).snap = s.snap ∧ (openOp s o).gn = s.gn ∧ (openOp s o).mc = s.mc ∧ (openOp s o).ig = s.ig ∧
    (openOp s o).fc = s.fc ∧ (openOp s o).tg = s.tg ∧ (openOp s o).ph = s.ph ∧ (openOp s o).fl = s.fl ∧
    (openOp s o).fb = s.fb ∧ (openOp s o).pb = s.pb ∧ (openOp s o).lp = s.lp ∧ (openOp s o).draws = s.draws :=
  by and_intros <;> rfl

/-- Changes ty.savedHours, ty.savedCycles, ty.savedPref alone. -/
@[simp] theorem journalSaves_frame (s : State) :
    (journalSaves s).pending = s.pending ∧ (journalSaves s).tb = s.tb ∧ (journalSaves s).tu = s.tu ∧
    (journalSaves s).ptp = s.ptp ∧ (journalSaves s).regs = s.regs ∧ (journalSaves s).dram = s.dram ∧
    (journalSaves s).pt = s.pt ∧ (journalSaves s).files = s.files ∧ (journalSaves s).cores = s.cores ∧
    (journalSaves s).db = s.db ∧ (journalSaves s).tx = s.tx ∧ (journalSaves s).sq = s.sq ∧ (journalSaves s).pw = s.pw ∧
    (journalSaves s).st = s.st ∧ (journalSaves s).ty.open_ = s.ty.open_ ∧ (journalSaves s).ty.recs = s.ty.recs ∧
    (journalSaves s).ty.full = s.ty.full ∧ (journalSaves s).ty.lost = s.ty.lost ∧ (journalSaves s).ty.hours = s.ty.hours ∧
    (journalSaves s).ty.hoursAt = s.ty.hoursAt ∧ (journalSaves s).ty.hoursPart = s.ty.hoursPart ∧
    (journalSaves s).ty.cycles = s.ty.cycles ∧ (journalSaves s).ty.clearing = s.ty.clearing ∧
    (journalSaves s).ty.waiting = s.ty.waiting ∧ (journalSaves s).ok = s.ok ∧ (journalSaves s).pr = s.pr ∧
    (journalSaves s).pu = s.pu ∧ (journalSaves s).snap = s.snap ∧ (journalSaves s).gn = s.gn ∧
    (journalSaves s).mc = s.mc ∧ (journalSaves s).ig = s.ig ∧ (journalSaves s).fc = s.fc ∧ (journalSaves s).tg = s.tg ∧
    (journalSaves s).ph = s.ph ∧ (journalSaves s).fl = s.fl ∧ (journalSaves s).fb = s.fb ∧ (journalSaves s).pb = s.pb ∧
    (journalSaves s).lp = s.lp ∧ (journalSaves s).draws = s.draws :=
  by and_intros <;> rfl

/-- Changes st.shutdown alone. -/
@[simp] theorem stLoss_frame (s : State) :
    (stLoss s).pending = s.pending ∧ (stLoss s).tb = s.tb ∧ (stLoss s).tu = s.tu ∧ (stLoss s).ptp = s.ptp ∧
    (stLoss s).regs = s.regs ∧ (stLoss s).dram = s.dram ∧ (stLoss s).pt = s.pt ∧ (stLoss s).files = s.files ∧
    (stLoss s).cores = s.cores ∧ (stLoss s).db = s.db ∧ (stLoss s).tx = s.tx ∧ (stLoss s).sq = s.sq ∧
    (stLoss s).pw = s.pw ∧ (stLoss s).st.objects = s.st.objects ∧ (stLoss s).st.blocks = s.st.blocks ∧
    (stLoss s).st.ops = s.st.ops ∧ (stLoss s).st.reads = s.st.reads ∧ (stLoss s).st.nextId = s.st.nextId ∧
    (stLoss s).st.nextVer = s.st.nextVer ∧ (stLoss s).st.fill = s.st.fill ∧ (stLoss s).st.ready = s.st.ready ∧
    (stLoss s).st.replaying = s.st.replaying ∧ (stLoss s).st.cnt = s.st.cnt ∧ (stLoss s).st.discards = s.st.discards ∧
    (stLoss s).ty = s.ty ∧ (stLoss s).ok = s.ok ∧ (stLoss s).pr = s.pr ∧ (stLoss s).pu = s.pu ∧ (stLoss s).snap = s.snap ∧
    (stLoss s).gn = s.gn ∧ (stLoss s).mc = s.mc ∧ (stLoss s).ig = s.ig ∧ (stLoss s).fc = s.fc ∧ (stLoss s).tg = s.tg ∧
    (stLoss s).ph = s.ph ∧ (stLoss s).fl = s.fl ∧ (stLoss s).fb = s.fb ∧ (stLoss s).pb = s.pb ∧ (stLoss s).lp = s.lp ∧
    (stLoss s).draws = s.draws :=
  by and_intros <;> rfl

/-- Changes tb.est, tb.estEdge, tb.refTcxo, tb.integ, tb.corr, tb.nextAddend alone. -/
@[simp] theorem refSwitch_frame (tcxo : Bool) (diff : Int) (s : State) :
    (refSwitch tcxo diff s).pending = s.pending ∧ (refSwitch tcxo diff s).tb.counter = s.tb.counter ∧
    (refSwitch tcxo diff s).tb.edge = s.tb.edge ∧ (refSwitch tcxo diff s).tb.addend = s.tb.addend ∧
    (refSwitch tcxo diff s).tb.stagedLo = s.tb.stagedLo ∧ (refSwitch tcxo diff s).tb.st = s.tb.st ∧
    (refSwitch tcxo diff s).tb.ocxoOk = s.tb.ocxoOk ∧ (refSwitch tcxo diff s).tb.ocxoSince = s.tb.ocxoSince ∧
    (refSwitch tcxo diff s).tb.tcxoOk = s.tb.tcxoOk ∧ (refSwitch tcxo diff s).tb.accepted = s.tb.accepted ∧
    (refSwitch tcxo diff s).tb.outliers = s.tb.outliers ∧ (refSwitch tcxo diff s).tb.lockRun = s.tb.lockRun ∧
    (refSwitch tcxo diff s).tb.latest = s.tb.latest ∧ (refSwitch tcxo diff s).tb.firstOffset = s.tb.firstOffset ∧
    (refSwitch tcxo diff s).tb.stepBy = s.tb.stepBy ∧ (refSwitch tcxo diff s).tb.stepHeld = s.tb.stepHeld ∧
    (refSwitch tcxo diff s).tb.unknownErr = s.tb.unknownErr ∧ (refSwitch tcxo diff s).tb.traceable = s.tb.traceable ∧
    (refSwitch tcxo diff s).tb.lastFwOffset = s.tb.lastFwOffset ∧ (refSwitch tcxo diff s).tb.fwIgnored = s.tb.fwIgnored ∧
    (refSwitch tcxo diff s).tb.stepRefused = s.tb.stepRefused ∧ (refSwitch tcxo diff s).tb.stepped = s.tb.stepped ∧
    (refSwitch tcxo diff s).tb.lockedAt = s.tb.lockedAt ∧ (refSwitch tcxo diff s).tb.lockT = s.tb.lockT ∧
    (refSwitch tcxo diff s).tu = s.tu ∧ (refSwitch tcxo diff s).ptp = s.ptp ∧ (refSwitch tcxo diff s).regs = s.regs ∧
    (refSwitch tcxo diff s).dram = s.dram ∧ (refSwitch tcxo diff s).pt = s.pt ∧ (refSwitch tcxo diff s).files = s.files ∧
    (refSwitch tcxo diff s).cores = s.cores ∧ (refSwitch tcxo diff s).db = s.db ∧ (refSwitch tcxo diff s).tx = s.tx ∧
    (refSwitch tcxo diff s).sq = s.sq ∧ (refSwitch tcxo diff s).pw = s.pw ∧ (refSwitch tcxo diff s).st = s.st ∧
    (refSwitch tcxo diff s).ty = s.ty ∧ (refSwitch tcxo diff s).ok = s.ok ∧ (refSwitch tcxo diff s).pr = s.pr ∧
    (refSwitch tcxo diff s).pu = s.pu ∧ (refSwitch tcxo diff s).snap = s.snap ∧ (refSwitch tcxo diff s).gn = s.gn ∧
    (refSwitch tcxo diff s).mc = s.mc ∧ (refSwitch tcxo diff s).ig = s.ig ∧ (refSwitch tcxo diff s).fc = s.fc ∧
    (refSwitch tcxo diff s).tg = s.tg ∧ (refSwitch tcxo diff s).ph = s.ph ∧ (refSwitch tcxo diff s).fl = s.fl ∧
    (refSwitch tcxo diff s).fb = s.fb ∧ (refSwitch tcxo diff s).pb = s.pb ∧ (refSwitch tcxo diff s).lp = s.lp ∧
    (refSwitch tcxo diff s).draws = s.draws :=
  by and_intros <;> rfl

/-- Changes ptp.ports alone. -/
@[simp] theorem updPtpPort_frame (s : State) (p : Nat) (f : PtpPort → PtpPort) :
    (updPtpPort s p f).pending = s.pending ∧ (updPtpPort s p f).tb = s.tb ∧ (updPtpPort s p f).tu = s.tu ∧
    (updPtpPort s p f).ptp.own = s.ptp.own ∧ (updPtpPort s p f).ptp.slavePort = s.ptp.slavePort ∧
    (updPtpPort s p f).ptp.gm = s.ptp.gm ∧ (updPtpPort s p f).ptp.gmSrc = s.ptp.gmSrc ∧
    (updPtpPort s p f).ptp.lastAnnounce = s.ptp.lastAnnounce ∧ (updPtpPort s p f).ptp.lastSync = s.ptp.lastSync ∧
    (updPtpPort s p f).ptp.source = s.ptp.source ∧ (updPtpPort s p f).ptp.qualRun = s.ptp.qualRun ∧
    (updPtpPort s p f).ptp.qualified = s.ptp.qualified ∧ (updPtpPort s p f).ptp.discards = s.ptp.discards ∧
    (updPtpPort s p f).ptp.sent = s.ptp.sent ∧ (updPtpPort s p f).regs = s.regs ∧ (updPtpPort s p f).dram = s.dram ∧
    (updPtpPort s p f).pt = s.pt ∧ (updPtpPort s p f).files = s.files ∧ (updPtpPort s p f).cores = s.cores ∧
    (updPtpPort s p f).db = s.db ∧ (updPtpPort s p f).tx = s.tx ∧ (updPtpPort s p f).sq = s.sq ∧
    (updPtpPort s p f).pw = s.pw ∧ (updPtpPort s p f).st = s.st ∧ (updPtpPort s p f).ty = s.ty ∧
    (updPtpPort s p f).ok = s.ok ∧ (updPtpPort s p f).pr = s.pr ∧ (updPtpPort s p f).pu = s.pu ∧
    (updPtpPort s p f).snap = s.snap ∧ (updPtpPort s p f).gn = s.gn ∧ (updPtpPort s p f).mc = s.mc ∧
    (updPtpPort s p f).ig = s.ig ∧ (updPtpPort s p f).fc = s.fc ∧ (updPtpPort s p f).tg = s.tg ∧
    (updPtpPort s p f).ph = s.ph ∧ (updPtpPort s p f).fl = s.fl ∧ (updPtpPort s p f).fb = s.fb ∧
    (updPtpPort s p f).pb = s.pb ∧ (updPtpPort s p f).lp = s.lp ∧ (updPtpPort s p f).draws = s.draws :=
  by and_intros <;> rfl

/-- Changes ptp.sent alone. -/
@[simp] theorem ptpSend_frame (s : State) (p : Nat) (m : PtpMsg) :
    (ptpSend s p m).pending = s.pending ∧ (ptpSend s p m).tb = s.tb ∧ (ptpSend s p m).tu = s.tu ∧
    (ptpSend s p m).ptp.own = s.ptp.own ∧ (ptpSend s p m).ptp.ports = s.ptp.ports ∧
    (ptpSend s p m).ptp.slavePort = s.ptp.slavePort ∧ (ptpSend s p m).ptp.gm = s.ptp.gm ∧
    (ptpSend s p m).ptp.gmSrc = s.ptp.gmSrc ∧ (ptpSend s p m).ptp.lastAnnounce = s.ptp.lastAnnounce ∧
    (ptpSend s p m).ptp.lastSync = s.ptp.lastSync ∧ (ptpSend s p m).ptp.source = s.ptp.source ∧
    (ptpSend s p m).ptp.qualRun = s.ptp.qualRun ∧ (ptpSend s p m).ptp.qualified = s.ptp.qualified ∧
    (ptpSend s p m).ptp.discards = s.ptp.discards ∧ (ptpSend s p m).regs = s.regs ∧ (ptpSend s p m).dram = s.dram ∧
    (ptpSend s p m).pt = s.pt ∧ (ptpSend s p m).files = s.files ∧ (ptpSend s p m).cores = s.cores ∧
    (ptpSend s p m).db = s.db ∧ (ptpSend s p m).tx = s.tx ∧ (ptpSend s p m).sq = s.sq ∧ (ptpSend s p m).pw = s.pw ∧
    (ptpSend s p m).st = s.st ∧ (ptpSend s p m).ty = s.ty ∧ (ptpSend s p m).ok = s.ok ∧ (ptpSend s p m).pr = s.pr ∧
    (ptpSend s p m).pu = s.pu ∧ (ptpSend s p m).snap = s.snap ∧ (ptpSend s p m).gn = s.gn ∧ (ptpSend s p m).mc = s.mc ∧
    (ptpSend s p m).ig = s.ig ∧ (ptpSend s p m).fc = s.fc ∧ (ptpSend s p m).tg = s.tg ∧ (ptpSend s p m).ph = s.ph ∧
    (ptpSend s p m).fl = s.fl ∧ (ptpSend s p m).fb = s.fb ∧ (ptpSend s p m).pb = s.pb ∧ (ptpSend s p m).lp = s.lp ∧
    (ptpSend s p m).draws = s.draws :=
  by and_intros <;> rfl

/-- Changes tu.touts alone. -/
@[simp] theorem State.updTout_frame (s : State) (n : Nat) (f : TOut → TOut) :
    (State.updTout s n f).pending = s.pending ∧ (State.updTout s n f).tb = s.tb ∧
    (State.updTout s n f).tu.nextSlot = s.tu.nextSlot ∧ (State.updTout s n f).tu.now = s.tu.now ∧
    (State.updTout s n f).tu.tsq = s.tu.tsq ∧ (State.updTout s n f).tu.tsqOvf = s.tu.tsqOvf ∧
    (State.updTout s n f).tu.txIdent = s.tu.txIdent ∧ (State.updTout s n f).tu.leapAt = s.tu.leapAt ∧
    (State.updTout s n f).tu.utcPast = s.tu.utcPast ∧ (State.updTout s n f).tu.ttus = s.tu.ttus ∧
    (State.updTout s n f).ptp = s.ptp ∧ (State.updTout s n f).regs = s.regs ∧ (State.updTout s n f).dram = s.dram ∧
    (State.updTout s n f).pt = s.pt ∧ (State.updTout s n f).files = s.files ∧ (State.updTout s n f).cores = s.cores ∧
    (State.updTout s n f).db = s.db ∧ (State.updTout s n f).tx = s.tx ∧ (State.updTout s n f).sq = s.sq ∧
    (State.updTout s n f).pw = s.pw ∧ (State.updTout s n f).st = s.st ∧ (State.updTout s n f).ty = s.ty ∧
    (State.updTout s n f).ok = s.ok ∧ (State.updTout s n f).pr = s.pr ∧ (State.updTout s n f).pu = s.pu ∧
    (State.updTout s n f).snap = s.snap ∧ (State.updTout s n f).gn = s.gn ∧ (State.updTout s n f).mc = s.mc ∧
    (State.updTout s n f).ig = s.ig ∧ (State.updTout s n f).fc = s.fc ∧ (State.updTout s n f).tg = s.tg ∧
    (State.updTout s n f).ph = s.ph ∧ (State.updTout s n f).fl = s.fl ∧ (State.updTout s n f).fb = s.fb ∧
    (State.updTout s n f).pb = s.pb ∧ (State.updTout s n f).lp = s.lp ∧ (State.updTout s n f).draws = s.draws :=
  by and_intros <;> rfl

/-- Changes tu.ttus alone. -/
@[simp] theorem State.updTtu_frame (s : State) (u : Nat) (f : Ttu → Ttu) :
    (State.updTtu s u f).pending = s.pending ∧ (State.updTtu s u f).tb = s.tb ∧
    (State.updTtu s u f).tu.nextSlot = s.tu.nextSlot ∧ (State.updTtu s u f).tu.now = s.tu.now ∧
    (State.updTtu s u f).tu.tsq = s.tu.tsq ∧ (State.updTtu s u f).tu.tsqOvf = s.tu.tsqOvf ∧
    (State.updTtu s u f).tu.txIdent = s.tu.txIdent ∧ (State.updTtu s u f).tu.leapAt = s.tu.leapAt ∧
    (State.updTtu s u f).tu.utcPast = s.tu.utcPast ∧ (State.updTtu s u f).tu.touts = s.tu.touts ∧
    (State.updTtu s u f).ptp = s.ptp ∧ (State.updTtu s u f).regs = s.regs ∧ (State.updTtu s u f).dram = s.dram ∧
    (State.updTtu s u f).pt = s.pt ∧ (State.updTtu s u f).files = s.files ∧ (State.updTtu s u f).cores = s.cores ∧
    (State.updTtu s u f).db = s.db ∧ (State.updTtu s u f).tx = s.tx ∧ (State.updTtu s u f).sq = s.sq ∧
    (State.updTtu s u f).pw = s.pw ∧ (State.updTtu s u f).st = s.st ∧ (State.updTtu s u f).ty = s.ty ∧
    (State.updTtu s u f).ok = s.ok ∧ (State.updTtu s u f).pr = s.pr ∧ (State.updTtu s u f).pu = s.pu ∧
    (State.updTtu s u f).snap = s.snap ∧ (State.updTtu s u f).gn = s.gn ∧ (State.updTtu s u f).mc = s.mc ∧
    (State.updTtu s u f).ig = s.ig ∧ (State.updTtu s u f).fc = s.fc ∧ (State.updTtu s u f).tg = s.tg ∧
    (State.updTtu s u f).ph = s.ph ∧ (State.updTtu s u f).fl = s.fl ∧ (State.updTtu s u f).fb = s.fb ∧
    (State.updTtu s u f).pb = s.pb ∧ (State.updTtu s u f).lp = s.lp ∧ (State.updTtu s u f).draws = s.draws :=
  by and_intros <;> rfl

/-- Changes tb.counter, tb.edge alone. -/
@[simp] theorem State.runTo_frame (s : State) (t : Nat) :
    (State.runTo s t).pending = s.pending ∧ (State.runTo s t).tb.addend = s.tb.addend ∧
    (State.runTo s t).tb.stagedLo = s.tb.stagedLo ∧ (State.runTo s t).tb.nextAddend = s.tb.nextAddend ∧
    (State.runTo s t).tb.corr = s.tb.corr ∧ (State.runTo s t).tb.integ = s.tb.integ ∧ (State.runTo s t).tb.st = s.tb.st ∧
    (State.runTo s t).tb.refTcxo = s.tb.refTcxo ∧ (State.runTo s t).tb.ocxoOk = s.tb.ocxoOk ∧
    (State.runTo s t).tb.ocxoSince = s.tb.ocxoSince ∧ (State.runTo s t).tb.tcxoOk = s.tb.tcxoOk ∧
    (State.runTo s t).tb.accepted = s.tb.accepted ∧ (State.runTo s t).tb.outliers = s.tb.outliers ∧
    (State.runTo s t).tb.lockRun = s.tb.lockRun ∧ (State.runTo s t).tb.latest = s.tb.latest ∧
    (State.runTo s t).tb.firstOffset = s.tb.firstOffset ∧ (State.runTo s t).tb.stepBy = s.tb.stepBy ∧
    (State.runTo s t).tb.stepHeld = s.tb.stepHeld ∧ (State.runTo s t).tb.est = s.tb.est ∧
    (State.runTo s t).tb.estEdge = s.tb.estEdge ∧ (State.runTo s t).tb.unknownErr = s.tb.unknownErr ∧
    (State.runTo s t).tb.traceable = s.tb.traceable ∧ (State.runTo s t).tb.lastFwOffset = s.tb.lastFwOffset ∧
    (State.runTo s t).tb.fwIgnored = s.tb.fwIgnored ∧ (State.runTo s t).tb.stepRefused = s.tb.stepRefused ∧
    (State.runTo s t).tb.stepped = s.tb.stepped ∧ (State.runTo s t).tb.lockedAt = s.tb.lockedAt ∧
    (State.runTo s t).tb.lockT = s.tb.lockT ∧ (State.runTo s t).tu = s.tu ∧ (State.runTo s t).ptp = s.ptp ∧
    (State.runTo s t).regs = s.regs ∧ (State.runTo s t).dram = s.dram ∧ (State.runTo s t).pt = s.pt ∧
    (State.runTo s t).files = s.files ∧ (State.runTo s t).cores = s.cores ∧ (State.runTo s t).db = s.db ∧
    (State.runTo s t).tx = s.tx ∧ (State.runTo s t).sq = s.sq ∧ (State.runTo s t).pw = s.pw ∧ (State.runTo s t).st = s.st ∧
    (State.runTo s t).ty = s.ty ∧ (State.runTo s t).ok = s.ok ∧ (State.runTo s t).pr = s.pr ∧ (State.runTo s t).pu = s.pu ∧
    (State.runTo s t).snap = s.snap ∧ (State.runTo s t).gn = s.gn ∧ (State.runTo s t).mc = s.mc ∧
    (State.runTo s t).ig = s.ig ∧ (State.runTo s t).fc = s.fc ∧ (State.runTo s t).tg = s.tg ∧ (State.runTo s t).ph = s.ph ∧
    (State.runTo s t).fl = s.fl ∧ (State.runTo s t).fb = s.fb ∧ (State.runTo s t).pb = s.pb ∧ (State.runTo s t).lp = s.lp ∧
    (State.runTo s t).draws = s.draws :=
  by and_intros <;> rfl

/-- Changes tb.counter, tb.edge alone. -/
@[simp] theorem State.waitUntil_frame (s : State) (t16 : Nat) :
    (State.waitUntil s t16).pending = s.pending ∧ (State.waitUntil s t16).tb.addend = s.tb.addend ∧
    (State.waitUntil s t16).tb.stagedLo = s.tb.stagedLo ∧ (State.waitUntil s t16).tb.nextAddend = s.tb.nextAddend ∧
    (State.waitUntil s t16).tb.corr = s.tb.corr ∧ (State.waitUntil s t16).tb.integ = s.tb.integ ∧ (State.waitUntil s t16).tb.st = s.tb.st ∧
    (State.waitUntil s t16).tb.refTcxo = s.tb.refTcxo ∧ (State.waitUntil s t16).tb.ocxoOk = s.tb.ocxoOk ∧
    (State.waitUntil s t16).tb.ocxoSince = s.tb.ocxoSince ∧ (State.waitUntil s t16).tb.tcxoOk = s.tb.tcxoOk ∧
    (State.waitUntil s t16).tb.accepted = s.tb.accepted ∧ (State.waitUntil s t16).tb.outliers = s.tb.outliers ∧
    (State.waitUntil s t16).tb.lockRun = s.tb.lockRun ∧ (State.waitUntil s t16).tb.latest = s.tb.latest ∧
    (State.waitUntil s t16).tb.firstOffset = s.tb.firstOffset ∧ (State.waitUntil s t16).tb.stepBy = s.tb.stepBy ∧
    (State.waitUntil s t16).tb.stepHeld = s.tb.stepHeld ∧ (State.waitUntil s t16).tb.est = s.tb.est ∧
    (State.waitUntil s t16).tb.estEdge = s.tb.estEdge ∧ (State.waitUntil s t16).tb.unknownErr = s.tb.unknownErr ∧
    (State.waitUntil s t16).tb.traceable = s.tb.traceable ∧ (State.waitUntil s t16).tb.lastFwOffset = s.tb.lastFwOffset ∧
    (State.waitUntil s t16).tb.fwIgnored = s.tb.fwIgnored ∧ (State.waitUntil s t16).tb.stepRefused = s.tb.stepRefused ∧
    (State.waitUntil s t16).tb.stepped = s.tb.stepped ∧ (State.waitUntil s t16).tb.lockedAt = s.tb.lockedAt ∧
    (State.waitUntil s t16).tb.lockT = s.tb.lockT ∧ (State.waitUntil s t16).tu = s.tu ∧ (State.waitUntil s t16).ptp = s.ptp ∧
    (State.waitUntil s t16).regs = s.regs ∧ (State.waitUntil s t16).dram = s.dram ∧ (State.waitUntil s t16).pt = s.pt ∧
    (State.waitUntil s t16).files = s.files ∧ (State.waitUntil s t16).cores = s.cores ∧ (State.waitUntil s t16).db = s.db ∧
    (State.waitUntil s t16).tx = s.tx ∧ (State.waitUntil s t16).sq = s.sq ∧ (State.waitUntil s t16).pw = s.pw ∧ (State.waitUntil s t16).st = s.st ∧
    (State.waitUntil s t16).ty = s.ty ∧ (State.waitUntil s t16).ok = s.ok ∧ (State.waitUntil s t16).pr = s.pr ∧ (State.waitUntil s t16).pu = s.pu ∧
    (State.waitUntil s t16).snap = s.snap ∧ (State.waitUntil s t16).gn = s.gn ∧ (State.waitUntil s t16).mc = s.mc ∧
    (State.waitUntil s t16).ig = s.ig ∧ (State.waitUntil s t16).fc = s.fc ∧ (State.waitUntil s t16).tg = s.tg ∧ (State.waitUntil s t16).ph = s.ph ∧
    (State.waitUntil s t16).fl = s.fl ∧ (State.waitUntil s t16).fb = s.fb ∧ (State.waitUntil s t16).pb = s.pb ∧ (State.waitUntil s t16).lp = s.lp ∧
    (State.waitUntil s t16).draws = s.draws :=
  by and_intros <;> rfl

/-- Changes tb.counter, tb.edge alone. -/
@[simp] theorem State.waitSlot_frame (s : State) (k : Nat) :
    (State.waitSlot s k).pending = s.pending ∧ (State.waitSlot s k).tb.addend = s.tb.addend ∧
    (State.waitSlot s k).tb.stagedLo = s.tb.stagedLo ∧ (State.waitSlot s k).tb.nextAddend = s.tb.nextAddend ∧
    (State.waitSlot s k).tb.corr = s.tb.corr ∧ (State.waitSlot s k).tb.integ = s.tb.integ ∧ (State.waitSlot s k).tb.st = s.tb.st ∧
    (State.waitSlot s k).tb.refTcxo = s.tb.refTcxo ∧ (State.waitSlot s k).tb.ocxoOk = s.tb.ocxoOk ∧
    (State.waitSlot s k).tb.ocxoSince = s.tb.ocxoSince ∧ (State.waitSlot s k).tb.tcxoOk = s.tb.tcxoOk ∧
    (State.waitSlot s k).tb.accepted = s.tb.accepted ∧ (State.waitSlot s k).tb.outliers = s.tb.outliers ∧
    (State.waitSlot s k).tb.lockRun = s.tb.lockRun ∧ (State.waitSlot s k).tb.latest = s.tb.latest ∧
    (State.waitSlot s k).tb.firstOffset = s.tb.firstOffset ∧ (State.waitSlot s k).tb.stepBy = s.tb.stepBy ∧
    (State.waitSlot s k).tb.stepHeld = s.tb.stepHeld ∧ (State.waitSlot s k).tb.est = s.tb.est ∧
    (State.waitSlot s k).tb.estEdge = s.tb.estEdge ∧ (State.waitSlot s k).tb.unknownErr = s.tb.unknownErr ∧
    (State.waitSlot s k).tb.traceable = s.tb.traceable ∧ (State.waitSlot s k).tb.lastFwOffset = s.tb.lastFwOffset ∧
    (State.waitSlot s k).tb.fwIgnored = s.tb.fwIgnored ∧ (State.waitSlot s k).tb.stepRefused = s.tb.stepRefused ∧
    (State.waitSlot s k).tb.stepped = s.tb.stepped ∧ (State.waitSlot s k).tb.lockedAt = s.tb.lockedAt ∧
    (State.waitSlot s k).tb.lockT = s.tb.lockT ∧ (State.waitSlot s k).tu = s.tu ∧ (State.waitSlot s k).ptp = s.ptp ∧
    (State.waitSlot s k).regs = s.regs ∧ (State.waitSlot s k).dram = s.dram ∧ (State.waitSlot s k).pt = s.pt ∧
    (State.waitSlot s k).files = s.files ∧ (State.waitSlot s k).cores = s.cores ∧ (State.waitSlot s k).db = s.db ∧
    (State.waitSlot s k).tx = s.tx ∧ (State.waitSlot s k).sq = s.sq ∧ (State.waitSlot s k).pw = s.pw ∧ (State.waitSlot s k).st = s.st ∧
    (State.waitSlot s k).ty = s.ty ∧ (State.waitSlot s k).ok = s.ok ∧ (State.waitSlot s k).pr = s.pr ∧ (State.waitSlot s k).pu = s.pu ∧
    (State.waitSlot s k).snap = s.snap ∧ (State.waitSlot s k).gn = s.gn ∧ (State.waitSlot s k).mc = s.mc ∧
    (State.waitSlot s k).ig = s.ig ∧ (State.waitSlot s k).fc = s.fc ∧ (State.waitSlot s k).tg = s.tg ∧ (State.waitSlot s k).ph = s.ph ∧
    (State.waitSlot s k).fl = s.fl ∧ (State.waitSlot s k).fb = s.fb ∧ (State.waitSlot s k).pb = s.pb ∧ (State.waitSlot s k).lp = s.lp ∧
    (State.waitSlot s k).draws = s.draws :=
  by and_intros <;> rfl

/-- Changes pt.parts alone. -/
@[simp] theorem State.winFault_frame (s : State) (p : Nat) :
    (State.winFault s p).pending = s.pending ∧ (State.winFault s p).tb = s.tb ∧ (State.winFault s p).tu = s.tu ∧
    (State.winFault s p).ptp = s.ptp ∧ (State.winFault s p).regs = s.regs ∧ (State.winFault s p).dram = s.dram ∧
    (State.winFault s p).pt.resets = s.pt.resets ∧ (State.winFault s p).pt.refused = s.pt.refused ∧
    (State.winFault s p).pt.lastScope = s.pt.lastScope ∧ (State.winFault s p).pt.lastDrain = s.pt.lastDrain ∧
    (State.winFault s p).files = s.files ∧ (State.winFault s p).cores = s.cores ∧ (State.winFault s p).db = s.db ∧
    (State.winFault s p).tx = s.tx ∧ (State.winFault s p).sq = s.sq ∧ (State.winFault s p).pw = s.pw ∧
    (State.winFault s p).st = s.st ∧ (State.winFault s p).ty = s.ty ∧ (State.winFault s p).ok = s.ok ∧
    (State.winFault s p).pr = s.pr ∧ (State.winFault s p).pu = s.pu ∧ (State.winFault s p).snap = s.snap ∧
    (State.winFault s p).gn = s.gn ∧ (State.winFault s p).mc = s.mc ∧ (State.winFault s p).ig = s.ig ∧
    (State.winFault s p).fc = s.fc ∧ (State.winFault s p).tg = s.tg ∧ (State.winFault s p).ph = s.ph ∧
    (State.winFault s p).fl = s.fl ∧ (State.winFault s p).fb = s.fb ∧ (State.winFault s p).pb = s.pb ∧
    (State.winFault s p).lp = s.lp ∧ (State.winFault s p).draws = s.draws :=
  by and_intros <;> rfl

/-- Changes tx.txns alone. -/
@[simp] theorem State.txIgn_frame (s : State) (p : Nat) :
    (State.txIgn s p).pending = s.pending ∧ (State.txIgn s p).tb = s.tb ∧ (State.txIgn s p).tu = s.tu ∧
    (State.txIgn s p).ptp = s.ptp ∧ (State.txIgn s p).regs = s.regs ∧ (State.txIgn s p).dram = s.dram ∧
    (State.txIgn s p).pt = s.pt ∧ (State.txIgn s p).files = s.files ∧ (State.txIgn s p).cores = s.cores ∧
    (State.txIgn s p).db = s.db ∧ (State.txIgn s p).tx.nextId = s.tx.nextId ∧
    (State.txIgn s p).tx.nextOrder = s.tx.nextOrder ∧ (State.txIgn s p).sq = s.sq ∧ (State.txIgn s p).pw = s.pw ∧
    (State.txIgn s p).st = s.st ∧ (State.txIgn s p).ty = s.ty ∧ (State.txIgn s p).ok = s.ok ∧
    (State.txIgn s p).pr = s.pr ∧ (State.txIgn s p).pu = s.pu ∧ (State.txIgn s p).snap = s.snap ∧
    (State.txIgn s p).gn = s.gn ∧ (State.txIgn s p).mc = s.mc ∧ (State.txIgn s p).ig = s.ig ∧
    (State.txIgn s p).fc = s.fc ∧ (State.txIgn s p).tg = s.tg ∧ (State.txIgn s p).ph = s.ph ∧
    (State.txIgn s p).fl = s.fl ∧ (State.txIgn s p).fb = s.fb ∧ (State.txIgn s p).pb = s.pb ∧
    (State.txIgn s p).lp = s.lp ∧ (State.txIgn s p).draws = s.draws :=
  by and_intros <;> rfl

/-- Changes ig.cnt alone. -/
@[simp] theorem igCount_frame (s : State) (e i : Nat) :
    (igCount s e i).pending = s.pending ∧ (igCount s e i).tb = s.tb ∧ (igCount s e i).tu = s.tu ∧
    (igCount s e i).ptp = s.ptp ∧ (igCount s e i).regs = s.regs ∧ (igCount s e i).dram = s.dram ∧
    (igCount s e i).pt = s.pt ∧ (igCount s e i).files = s.files ∧ (igCount s e i).cores = s.cores ∧
    (igCount s e i).db = s.db ∧ (igCount s e i).tx = s.tx ∧ (igCount s e i).sq = s.sq ∧
    (igCount s e i).pw = s.pw ∧ (igCount s e i).st = s.st ∧ (igCount s e i).ty = s.ty ∧
    (igCount s e i).ok = s.ok ∧ (igCount s e i).pr = s.pr ∧ (igCount s e i).pu = s.pu ∧
    (igCount s e i).snap = s.snap ∧ (igCount s e i).gn = s.gn ∧ (igCount s e i).mc = s.mc ∧
    (igCount s e i).ig.streams = s.ig.streams ∧ (igCount s e i).ig.olds = s.ig.olds ∧
    (igCount s e i).ig.other = s.ig.other ∧ (igCount s e i).ig.dup = s.ig.dup ∧
    (igCount s e i).ig.points = s.ig.points ∧ (igCount s e i).ig.opens = s.ig.opens ∧
    (igCount s e i).ig.lagOld = s.ig.lagOld ∧ (igCount s e i).ig.closed = s.ig.closed ∧
    (igCount s e i).ig.edges = s.ig.edges ∧ (igCount s e i).fc = s.fc ∧ (igCount s e i).tg = s.tg ∧
    (igCount s e i).ph = s.ph ∧ (igCount s e i).fl = s.fl ∧ (igCount s e i).fb = s.fb ∧
    (igCount s e i).pb = s.pb ∧ (igCount s e i).lp = s.lp ∧ (igCount s e i).draws = s.draws :=
  by and_intros <;> rfl

/-- Changes fl.cnt alone. -/
@[simp] theorem flReason_frame (s : State) (l reason : Nat) :
    (flReason s l reason).pending = s.pending ∧ (flReason s l reason).tb = s.tb ∧ (flReason s l reason).tu = s.tu ∧
    (flReason s l reason).ptp = s.ptp ∧ (flReason s l reason).regs = s.regs ∧ (flReason s l reason).dram = s.dram ∧
    (flReason s l reason).pt = s.pt ∧ (flReason s l reason).files = s.files ∧ (flReason s l reason).cores = s.cores ∧
    (flReason s l reason).db = s.db ∧ (flReason s l reason).tx = s.tx ∧ (flReason s l reason).sq = s.sq ∧ (flReason s l reason).pw = s.pw ∧
    (flReason s l reason).st = s.st ∧ (flReason s l reason).ty = s.ty ∧ (flReason s l reason).ok = s.ok ∧ (flReason s l reason).pr = s.pr ∧
    (flReason s l reason).pu = s.pu ∧ (flReason s l reason).snap = s.snap ∧ (flReason s l reason).gn = s.gn ∧ (flReason s l reason).mc = s.mc ∧
    (flReason s l reason).ig = s.ig ∧ (flReason s l reason).fc = s.fc ∧ (flReason s l reason).tg = s.tg ∧ (flReason s l reason).ph = s.ph ∧
    (flReason s l reason).fl.lines = s.fl.lines ∧ (flReason s l reason).fl.seq = s.fl.seq ∧ (flReason s l reason).fb = s.fb ∧
    (flReason s l reason).pb = s.pb ∧ (flReason s l reason).lp = s.lp ∧ (flReason s l reason).draws = s.draws :=
  by and_intros <;> rfl

/-! Reads after updates. -/

/-- A read after the update of one entry. -/
@[simp] theorem State.updStream_stream (s : State) (e j : Nat) (f : StreamRt → StreamRt) :
    (s.updStream e f).stream j = if j = e then f (s.stream e) else s.stream j :=
  Tbl.get_upd _ _ _ _ _

/-- The updated entry reads as the update left it. -/
@[simp] theorem State.updChain_chain (s : State) (c ce : Nat) (f : ChainRt → ChainRt) :
    (s.updChain c ce f).chain c ce = f (s.chain c ce) := by
  unfold State.updChain State.chain; simp

/-- A read after the update of one entry. -/
@[simp] theorem State.updCap_cap (s : State) (g j : Nat) (f : CapUnit → CapUnit) :
    (s.updCap g f).cap j = if j = g then f (s.cap g) else s.cap j :=
  Tbl.get_upd _ _ _ _ _

/-- A read after the update of one entry. -/
@[simp] theorem State.updLine_line (s : State) (l j : Nat) (f : LineRt → LineRt) :
    (s.updLine l f).line j = if j = l then f (s.line l) else s.line j :=
  Tbl.get_upd _ _ _ _ _

/-- A read after the update of one entry. -/
@[simp] theorem State.updFbe_fbe (s : State) (h j : Nat) (f : FbRt → FbRt) :
    (s.updFbe h f).fbe j = if j = h then f (s.fbe h) else s.fbe j :=
  Tbl.get_upd _ _ _ _ _

/-- A read after the update of one entry. -/
@[simp] theorem State.updMac_mac (s : State) (q j : Nat) (f : Mac → Mac) :
    (s.updMac q f).mac j = if j = q then f (s.mac q) else s.mac j :=
  Tbl.get_upd _ _ _ _ _

/-- A read after the update of one entry. -/
@[simp] theorem State.updLane_lane (s : State) (g j : Nat) (f : LaneRt → LaneRt) :
    (s.updLane g f).lane j = if j = g then f (s.lane g) else s.lane j :=
  Tbl.get_upd _ _ _ _ _

/-- A read after the update of one entry. -/
@[simp] theorem State.updLoop_loop (s : State) (l j : Nat) (f : LoopRt → LoopRt) :
    (s.updLoop l f).loop j = if j = l then f (s.loop l) else s.loop j :=
  Tbl.get_upd _ _ _ _ _

/-- A read after the update of one entry. -/
@[simp] theorem State.updPart_part (s : State) (p j : Nat) (f : PartRun → PartRun) :
    (s.updPart p f).part j = if j = p then f (s.part p) else s.part j :=
  Tbl.get_upd _ _ _ _ _

/-- A read after the update of one entry. -/
@[simp] theorem State.updCore_core (s : State) (h j : Nat) (f : CoreSt → CoreSt) :
    (s.updCore h f).core j = if j = h then f (s.core h) else s.core j :=
  Tbl.get_upd _ _ _ _ _

/-- The updated entry reads as the update left it. -/
@[simp] theorem State.updRing_ring (s : State) (p r : Nat) (f : RingRun → RingRun) :
    (s.updRing p r f).ring p r = f (s.ring p r) := by
  unfold State.updRing State.ring; simp

/-- The updated entry reads as the update left it. -/
@[simp] theorem State.updFile_file (s : State) (h f : Nat) (g : IFile → IFile) :
    (s.updFile h f g).file h f = g (s.file h f) := by
  unfold State.updFile State.file; simp

/-- A read after the update of one entry. -/
@[simp] theorem State.updTxn_txn (s : State) (p j : Nat) (f : Txn → Txn) :
    (s.updTxn p f).txn j = if j = p then f (s.txn p) else s.txn j :=
  Tbl.get_upd _ _ _ _ _

/-- A read after the update of one entry. -/
@[simp] theorem State.updGrp_grp (s : State) (sel j : Nat) (f : PhRt → PhRt) :
    (s.updGrp sel f).grp j = if j = sel then f (s.grp sel) else s.grp j :=
  Tbl.get_upd _ _ _ _ _

/-- A read after the update of one entry. -/
@[simp] theorem State.updPws_pws (s : State) (n j : Nat) (f : PwsRt → PwsRt) :
    (s.updPws n f).pws j = if j = n then f (s.pws n) else s.pws j :=
  Tbl.get_upd _ _ _ _ _

/-- A read after the update of one entry. -/
@[simp] theorem State.updGcb_gcb (s : State) (g j : Nat) (f : GcbRt → GcbRt) :
    (s.updGcb g f).gcb j = if j = g then f (s.gcb g) else s.gcb j :=
  Tbl.get_upd _ _ _ _ _

/-- A read after the update of one entry. -/
@[simp] theorem State.updDsv_dsv (s : State) (n j : Nat) (f : DsvRt → DsvRt) :
    (s.updDsv n f).dsv j = if j = n then f (s.dsv n) else s.dsv j :=
  Tbl.get_upd _ _ _ _ _

/-- The updated entry reads as the update left it. -/
@[simp] theorem State.updTask_task (s : State) (h t : Nat) (f : Task → Task) :
    (s.updTask h t f).task h t = f (s.task h t) := by
  unfold State.updTask State.task; simp

/-- A read after the update of one entry. -/
@[simp] theorem State.updSched_sched (s : State) (h j : Nat) (f : Sched → Sched) :
    (s.updSched h f).sched j = if j = h then f (s.sched h) else s.sched j :=
  Tbl.get_upd _ _ _ _ _

/-- A read after the update of one entry. -/
@[simp] theorem State.updBlk_blk (s : State) (b j : Nat) (f : Blk → Blk) :
    (s.updBlk b f).blk j = if j = b then f (s.blk b) else s.blk j :=
  Tbl.get_upd _ _ _ _ _

/-- A read after the update of one entry. -/
@[simp] theorem State.updTout_tout (s : State) (n j : Nat) (f : TOut → TOut) :
    (s.updTout n f).tout j = if j = n then f (s.tout n) else s.tout j :=
  Tbl.get_upd _ _ _ _ _

/-- A read after the update of one entry. -/
@[simp] theorem State.updTtu_ttu (s : State) (u j : Nat) (f : Ttu → Ttu) :
    (s.updTtu u f).ttu j = if j = u then f (s.ttu u) else s.ttu j :=
  Tbl.get_upd _ _ _ _ _

/-- A register reads back the value it was set to, every other register of the table's range as before. -/
@[simp] theorem State.setCfg_cfg (s : State) (off sel : Nat) (v : BitVec 32) (o e : Nat) :
    (s.setCfg off sel v).cfg o e = if regKey o e = regKey off sel then (v ^^^ regReset off sel) ^^^ regReset o e else s.cfg o e := by
  unfold State.setCfg State.cfg
  simp only [Tbl.get_set]
  split <;> rfl
theorem State.setCfg_same (s : State) (off sel : Nat) (v : BitVec 32) : (s.setCfg off sel v).cfg off sel = v := by
  simp
/-- Two registers are the same only with the same offset and selector. -/
theorem regKey_inj {o e o2 e2 : Nat} (h : e < 65536) (h2 : e2 < 65536) : regKey o e = regKey o2 e2 ↔ o = o2 ∧ e = e2 := by
  unfold regKey; omega

/-! Memory. -/

/-- A byte reads back as it was stored, every other byte as before. -/
@[simp] theorem dramByte_store (m : List Host.Cell) (a x : Nat) (b : BitVec 8) :
    dramByte (dramStore m a b) x = if x = a then b else dramByte m x :=
  Tbl.get_set _ _ _ _ _

/-- A store of a run of bytes leaves every byte outside it. -/
theorem dramByte_stores_off (bs : List (BitVec 8)) : ∀ (m : List Host.Cell) (a x : Nat), (x < a ∨ a + bs.length ≤ x) →
    dramByte (dramStores m a bs) x = dramByte m x := by
  induction bs with
  | nil => intro m a x _; rfl
  | cons b r ih =>
    intro m a x h
    simp only [List.length_cons] at h
    rw [dramStores, ih _ _ _ (by omega), dramByte_store, if_neg (by omega)]

/-- A store of a run of bytes puts the n-th byte at the n-th address. -/
theorem dramByte_stores_at (bs : List (BitVec 8)) : ∀ (m : List Host.Cell) (a n : Nat) (h : n < bs.length),
    dramByte (dramStores m a bs) (a + n) = bs[n] := by
  induction bs with
  | nil => intro m a n h; simp at h
  | cons b r ih =>
    intro m a n h
    cases n with
    | zero =>
      rw [dramStores, dramByte_stores_off _ _ _ _ (by omega)]
      simp
    | succ n =>
      rw [dramStores, show a + (n + 1) = a + 1 + n by omega, ih _ _ _ (by simpa using h)]
      simp

/-- A store to listed addresses leaves every byte that is not listed. -/
theorem dramByte_storeAll_off : ∀ (l : List Nat) (m : List Host.Cell) (bs : List (BitVec 8)) (x : Nat), x ∉ l →
    dramByte (storeAll m l bs) x = dramByte m x := by
  intro l
  induction l with
  | nil => intro m bs x _; cases bs <;> rfl
  | cons a r ih =>
    intro m bs x h
    simp only [List.mem_cons, not_or] at h
    cases bs with
    | nil => rfl
    | cons b t => rw [storeAll, ih _ _ _ h.2, dramByte_store, if_neg h.1]

end Sys2Proof.Machine
end

