-- ==== Sys2Proof/WellFormed.lean ====
section
/-! DEFINITION. Checks on a command's operands that its types do not make: what could not reach the module in that form. -/

namespace Sys2Proof

/-- A frame without preamble and FCS fits what a MAC can hand on (R375: discards are the MAC's own). -/
def octetsOk (o : List (BitVec 8)) : Bool := o.length ≤ 16384
/-- An access address has 64 bits. -/
def addrOk (a : Nat) : Bool := a < 2 ^ 64
/-- A core access has 1, 2, 4 or 8 bytes and is aligned to its size. -/
def accessOk (addr size : Nat) : Bool :=
  addrOk addr && (size == 1 || size == 2 || size == 4 || size == 8) && addr % size == 0
/-- A set-up register is accessed as one aligned word (R12). -/
def regAddrOk (addr : Nat) : Bool := addrOk addr && addr % 4 == 0
/-- Each page of a transceiver has 256 octets. -/
def pageOk (o : List (BitVec 8)) : Bool := o.length == 256
/-- M0 and M1 carry no PTP (R48). -/
def ptpPortOk (p : Port) : Bool := p.val != 8 && p.val != 9

def wellFormed : Instr → Bool
  | .ptpMessageRx _ port _ => ptpPortOk port
  | .ptpMessageTx _ port _ => ptpPortOk port
  | .svFrame _ _ o => octetsOk o
  | .gooseFrame _ _ o => octetsOk o
  | .griuzSurgeFrame _ _ o => octetsOk o
  | .griuzArrivalMessage _ _ o => octetsOk o
  | .prpSupervisionFrame _ _ o => octetsOk o
  | .frameRx _ _ o _ => octetsOk o
  | .duplicateEntryForgotten _ mac => mac < 2 ^ 48
  | .coreDramAccess _ _ _ addr size _ => accessOk addr size
  | .stagedWrite _ _ addr _ => regAddrOk addr
  | .registerWrite _ _ addr _ => regAddrOk addr
  | .pfc _ _ _ times => times.length == 8 && times.all (· < 65536)
  | .opticsPoll _ _ (some o) => pageOk o
  | .transceiverInsertion _ _ a0 a2 => pageOk a0 && pageOk a2
  | .backgroundScrub _ blk _ _ => blk < 5344
  | .eraseComplete _ blk _ => blk < 5344
  | .tallyWindowRead _ _ off size => (size == 1 || size == 2 || size == 4 || size == 8) && off % size == 0
  | _ => true

end Sys2Proof
end

