-- ==== Sys2Proof/Tests/Slice0.lean ====
section
/-! SUPPORT. Tests: ill-formed commands are refused by wellFormed, worked examples of the manual come out as it gives them, and every
statement's hypotheses are met by a concrete state and operands (the theorems named witness_). -/

set_option Elab.async false

set_option maxRecDepth 100000

namespace Sys2Proof.Tests
open Sys2Proof Sys2Proof.Machine

/-- A list of registers (offset, selector, value) set in a state. -/
def State.cfgs (s : Machine.State) (l : List (Nat × Nat × Nat)) : Machine.State :=
  l.foldl (fun a x => a.setCfg x.1 x.2.1 (BitVec.ofNat 32 x.2.2)) s
/-- Memory that holds octets from an address on. -/
def cells (a : Nat) (b : List (BitVec 8)) : List Host.Cell :=
  ((List.range b.length).map (fun i => (a + i, b.getD i 0))).filter (fun e => e.2 != 0)

/-- A complete module in RUN, LOCKED on the OCXO at the edge of slot 48,000 (10 s), every domain up, every link up at 100 Mb/s; hearth 1,
channel range 1 and the units that a test names are partition 1's. -/
def up : Machine.State := State.cfgs
  { Machine.State.reset with
    tb.counter := slotCounter 48000, tb.st := .locked, tb.edge := 2500000000, tb.refTcxo := false, tb.ocxoOk := true, tb.unknownErr := false
    tu.nextSlot := 48000
    pt.parts := [(0, { state := .running }), (1, { state := .running })]
    pw.st := .run, pw.step := 0, pw.holdupOk := true, pw.doms := (List.range 12).map (fun i => (i, DomSt.run))
    pr.role := .active
    mc.macs := (List.range 13).map (fun i => (i, { link := true, speed := 2 })) }
  [(0xA0010, 0, 2 ^ 31 + 2 ^ 30 + 1), (0xA0404, 0, 1)]

/-- Partition 0's ring 0 of a type, with one descriptor at 0x1000 that waits; `m` is the rest of memory, at higher addresses. -/
def submit (s : Machine.State) (type : Nat) (ws : List Nat) (m : List Host.Cell) : Machine.State :=
  let x := State.cfgs s [(0xC0010, 0, 2 ^ 31 + type * 2 ^ 24 + 4 * 2 ^ 16), (0xC0014, 0, 0x1000)]
  { x with
    dram := cells 0x1000 (wordsBytes (ws.map (BitVec.ofNat 32))) ++ m, db.rings := [(0, { pi := 1 })] }

/-- What a ring gives next. -/
def got (s : Machine.State) (p r : Nat) : Machine.State × Flight := (fetchDesc s p r).getD (s, { id := 0, words := [] })
def fetchOk (s : Machine.State) (p r op : Nat) : Bool :=
  (fetchDesc s p r).isSome && (ringCfg s p r).accepts op && opcodeOf (got s p r).2.words == op
theorem fetches_iff (s : Machine.State) (p r op : Nat) : Fetches s p r op (got s p r) ↔ fetchOk s p r op = true := by
  unfold Fetches fetchOk
  cases h : fetchDesc s p r <;> simp [got, h]

/-! Time base. -/

theorem witness_ReferenceChange : Machine.State.reset.tb.refTcxo = true ∧ up.tb.refTcxo = false ∧
    (let s := { up with tb.refTcxo := true, tb.ocxoSince := 1000 }
     powered s = true ∧ s.tb.refTcxo = true ∧ bit (s.cfg 0 0) 0 = false) ∧
    bit ((State.cfgs up [(0, 0, 1)]).cfg 0 0) 0 = true := by decide +kernel

/-- PTP on P0. -/
def ptpUp : Machine.State := State.cfgs up [(0x40, 0, 0x001B0001)]
theorem witness_PtpMessages :
    portLive (ptpUp.runTo 0) 0 = true ∧ ptpEnabled (ptpUp.runTo 0) 0 = true ∧ (ptpUp.runTo 0).pw.step ≠ 7 ∧
    ptpUnsupported { body := .management } = true ∧
    ptpUnsupported { body := .pdelayReq } = false ∧ 0 = fld ((ptpUp.runTo 0).cfg 0x40 0) 31 24 := by decide +kernel

def fwUp : Machine.State := State.cfgs up [(0, 0, 0xFE06)]
theorem witness_HoldoverEntries :
    (alive { up with ptp.gm := some {}, ptp.slavePort := some 0 } = true ∧ up.tb.st = .locked ∧ srcSel up = 0) ∧
    (alive fwUp = true ∧ fwUp.tb.st = .locked ∧ srcSel fwUp = 1) := by decide +kernel

theorem witness_FirmwareOffset :
    (CoreOf (fwUp.runTo 0) 0 0 ∧ (0 = 0 ∧ srcSel (fwUp.runTo 0) = 1)) ∧ (CoreOf (up.runTo 0) 1 1 ∧ ¬(1 = 0 ∧ srcSel (up.runTo 0) = 1)) ∧
    (fwUp.runTo 0).pw.step ≠ 7 := by
  unfold CoreOf; decide +kernel

/-- TT_ARM of unit 3 for 11 s, once. -/
def ttArmed : Machine.State := submit up 5 [0x30001, 0, 11, 0, 0, 0, 0, 1] []
/-- TT_CANCEL of unit 3, and the unit. -/
def ttGoing (left next : Nat) (p : Nat) : Machine.State := (submit (State.cfgs up [(0x30C, 0, p)]) 5 [0x30002, 0, 0, 0, 0, 0, 0, 0] []).updTtu 3
  (fun z => { z with armed := true, left := left, next := next, ring := 0, flight := 9 })
theorem witness_TimeTriggers :
    (Fetches ttArmed 0 0 1 (got ttArmed 0 0) ∧
      (let y := got ttArmed 0 0
       fld (dw y.2.words 0) 31 16 = 3 ∧ dw y.2.words 0 &&& 0xFE00 = 0 ∧ dw y.2.words 5 &&& 0xFFFF = 0 ∧ (dw y.2.words 4).toNat < 1000000000 ∧
       dw y.2.words 6 = 0 ∧ dw y.2.words 7 = 1 ∧ y.1.timeValid = true ∧ ttuOwner y.1 3 = 0 ∧ (y.1.ttu 3).armed = false ∧
       now16 y.1 + us16 1 ≤ t16Of (dword64 y.2.words 2) (dw y.2.words 4).toNat (fld (dw y.2.words 5) 31 16))) ∧
    (Fetches (ttGoing 1 (sec16 11) 0) 0 0 2 (got (ttGoing 1 (sec16 11) 0) 0 0) ∧
      (let y := got (ttGoing 1 (sec16 11) 0) 0 0
       fld (dw y.2.words 0) 31 16 = 3 ∧ dw y.2.words 0 &&& 0xFF00 = 0 ∧ ttuOwner y.1 3 = 0 ∧ (y.1.ttu 3).armed = true ∧
       now16 y.1 < (y.1.ttu 3).next)) ∧
    (Fetches (ttGoing 1 (sec16 10) 0) 0 0 2 (got (ttGoing 1 (sec16 10) 0) 0 0) ∧
      (let y := got (ttGoing 1 (sec16 10) 0) 0 0
       ttuOwner y.1 3 = 0 ∧ (y.1.ttu 3).forever = false ∧ (y.1.ttu 3).left ≤ 1 ∧ (y.1.ttu 3).next ≤ now16 y.1)) ∧
    (Fetches (ttGoing 1 (sec16 11) 1) 0 0 2 (got (ttGoing 1 (sec16 11) 1) 0 0) ∧ ttuOwner (got (ttGoing 1 (sec16 11) 1) 0 0).1 3 ≠ 0) ∧
    (let s := ttGoing 1 (sec16 11) 0
     alive s = true ∧ (s.ttu 3).armed = true ∧ (s.ttu 3).target = 0 ∧ (s.ttu 3).irqEach = false ∧ (s.ttu 3).left = 1) := by
  simp only [fetches_iff]; decide +kernel

/-! Partitions, cores, scheduler, rings and transactions. -/

def stepping : Machine.State := { up with tb.stepBy := some 65536 }
theorem witness_SlotEdgeClock :
    (0 < up.tb.addend ∧ (up.waitSlot up.tu.nextSlot).tb.stepBy = none) ∧
    (stepping.waitSlot stepping.tu.nextSlot).tb.stepBy = some 65536 ∧ stepOk (edgeWork stepping) = true ∧
    (let s := { ttGoing 1 (sec16 11) 0 with tb.stepBy := some 65536 }
     (s.waitSlot s.tu.nextSlot).tb.stepBy = some 65536 ∧ stepOk (edgeWork s) = false) := by decide +kernel

theorem witness_ModuleResets : alive (up.runTo 0) = true ∧ CoreOf (up.runTo 0) 0 0 := by simp only [CoreOf]; decide +kernel

/-- Partition 1's window: 16 pages at 0x10000 of its range, mapped to 0x20000, with every right. -/
def win : Machine.State := State.cfgs up [(0xA2010, 256, 0xFC000000), (0xA2014, 256, 0x10), (0xA2018, 256, 0x20), (0xA201C, 256, 0x10)]
theorem witness_InterruptStores :
    (CoreOf (win.runTo 0) 1 1 ∧ hearthOwner (win.runTo 0) 1 = 1 ∧ boundTask (win.runTo 0) 1 255 = none ∧
      (255 : Nat) = beNat (leBytes 4 (0xFF000000 : BitVec 32).toNat)) ∧
    (CoreOf (win.runTo 0) 0 0 ∧ (256 : Nat) = (256 : BitVec 32).toNat) ∧ hearthOwner (win.runTo 0) 0 ≠ 1 := by
  simp only [CoreOf]; decide +kernel
theorem witness_CoreAccesses :
    CoreOf (win.runTo 0) 1 1 ∧ 0x1FFF8 + 8 < setupBase ∧ (writeMem win 1 .coreWrite 0x1FFF8 (leBytes 8 7)).isSome = true ∧
    (readBytes win 1 .coreRead 0x1FFF8 8).isSome = true ∧ writeMem win 1 .coreWrite 0x20000 (leBytes 1 7) = none ∧
    readBytes win 1 .coreRead 0x20000 1 = none := by simp only [CoreOf]; decide +kernel
theorem witness_GrantedWrite : (1 : Nat) ≠ 0 ∧ (writeMem win 1 .devWrite 0x10000 [1, 2, 3]).isSome = true ∧
    translateAll (windowsOf win 1) 1 .devWrite 0x10000 3 = some [0x20000, 0x20001, 0x20002] := by decide +kernel

/-- Hearth 0 with a valid task 5 of source 1 and period 1000 µs, in a state. -/
def tasked (st : TaskSt) : Machine.State := (State.cfgs up [(0xB0040, 5, 2 ^ 31 + 500), (0xB0044, 5, 1000), (0xB004C, 5, 100)]).updTask 0 5
  (fun z => { z with st := st, d := sec16 10 + us16 500 })
def runningTask : Machine.State := (tasked .running).updSched 0 (fun z => { z with
  running := some 5, posts := [{ cls := .peer, src := 1, ident := 0, task := 5, payload := 9 }] })
theorem witness_SchedulerInstructions :
    (coreRuns ((tasked .ready).runTo 0) 0 = true ∧ (((tasked .ready).runTo 0).task 0 5).st = .ready) ∧
    (coreRuns ((tasked .waiting).runTo 0) 0 = true ∧ (((tasked .waiting).runTo 0).task 0 5).st ≠ .ready ∧
      readyHead ((tasked .waiting).runTo 0) 0 = none ∧ readyHead ((tasked .ready).runTo 0) 0 = some 5) ∧
    (coreRuns (runningTask.runTo 0) 0 = true ∧ ((runningTask.runTo 0).sched 0).running = some 5 ∧
      (takePost 5 ((runningTask.runTo 0).sched 0).posts).isSome = true) ∧
    (let x := (tasked .ready).runTo 0
     hearthOwner x 0 = hearthOwner x 0 ∧ (taskCfg x 0 5).valid = true ∧ inResetOf x 0 = false ∧ freeSlots (x.sched 0) .local_ ≠ 0) := by
  decide +kernel
/-- The same task waiting for its release at 10 s + 1 ms. -/
def delayed : Machine.State := (tasked .waiting).updTask 0 5 (fun z => { z with wake := some (sec16 10 + us16 1000) })
theorem witness_SchedulerEvents :
    (alive delayed = true ∧ delayList delayed 0 = [(sec16 10 + us16 1000, 5)] ∧ (delayed.task 0 5).st = .waiting ∧ 0 < delayed.tb.addend) ∧
    (((tasked .ready).task 0 5).st = .ready ∧ ((tasked .ready).task 0 5).missed = false) ∧
    ((runningTask.sched 0).running = some 5 ∧ (runningTask.task 0 5).overBudget = false) := by decide +kernel

theorem witness_Doorbells :
    (let x := (submit up 5 [0xE0] []).runTo 0
     corePowered x 0 = true ∧ hearthOwner x 0 = 0 ∧ doorbellsOpen x 0 = true ∧ doorbellBad x 0 true 0xF = false ∧
       doorbellBad x 0 false 0 = false ∧ hearthOwner x 1 ≠ 0) := by decide +kernel

def nop : Machine.State := submit up 5 [0xE0] []
/-- A FENCE behind a descriptor that has not ended. -/
def fence : Machine.State := (submit up 5 [0xE1] []).updRing 0 0 (fun z => { z with flights := [{ id := 7, words := [] }], nextId := 8 })
def txUp : Machine.State := submit up 1 [0x11, 0, 0x2000, 0, 60] (cells 0x2000 (List.replicate 60 0x55))
def rxUp : Machine.State := submit up 3 [0x12, 0, 0x2000, 0, 1536] []
theorem witness_RingCommands :
    (Fetches nop 0 0 0xE0 (got nop 0 0)) ∧
    (let y := got fence 0 0
     Fetches fence 0 0 0xE1 (got fence 0 0) ∧ reservedOk y.2.words 0 [] = true ∧ (y.1.ring 0 0).flights.map (·.id) = [7, y.2.id] ∧ y.2.id = 8 ∧
       (y.1.ring 0 0).flights.map (fun f => (f.fence, f.res)) = [(false, none), (false, none)]) ∧
    (let s := submit up 5 [0xE1] []
     Fetches s 0 0 0xE1 (got s 0 0) ∧ ((got s 0 0).1.ring 0 0).flights = [(got s 0 0).2]) ∧
    (let y := got txUp 0 0
     Fetches txUp 0 0 0x11 (got txUp 0 0) ∧ (ringCfg y.1 0 0).ts = false ∧
       reservedOk y.2.words 0x200 [(2, 0xFFFFFFFF), (3, 0xFFFF), (4, 0xFFFF)] = true ∧ fld (dw y.2.words 4) 15 0 = 60 ∧
       (devRead y.1 0 (addr48 y.2.words 2) 60).isSome = true) ∧
    (let y := got rxUp 0 0
     Fetches rxUp 0 0 0x12 (got rxUp 0 0) ∧ reservedOk y.2.words 0 [(2, 0xFFFFFFFF), (3, 0xFFFF), (4, 0xFFFF)] = true ∧
       fld (dw y.2.words 4) 15 0 = 1536 ∧ canAccess y.1 0 .devWrite (addr48 y.2.words 2) 1536 = true) := by
  simp only [fetches_iff]; decide +kernel

/-- Partition 0's transaction with a list of keys, and a descriptor of its transaction ring. -/
def txn (st : TxnSt) (ks : List (Nat × BitVec 32)) (op : Nat) (s : Machine.State) : Machine.State :=
  (submit s 16 [op] []).updTxn 0 (fun z => { z with st := st, keys := ks, applySlot := 48001, txid := 4 })
def owner3 : List (Nat × BitVec 32) := [(regKey 0x30C 0, 1)]
theorem witness_TransactionCommands :
    (let s := txn .idle [] 0x21 up
     Fetches s 0 0 0x21 (got s 0 0) ∧ isStandby (got s 0 0).1 = false ∧ reservedOk (got s 0 0).2.words 0 [] = true ∧
       ((got s 0 0).1.txn 0).st = .idle ∧ openTxns (got s 0 0).1 < 8) ∧
    (let s := txn .open_ [] 0x21 up
     Fetches s 0 0 0x21 (got s 0 0) ∧ ((got s 0 0).1.txn 0).st ≠ .idle) ∧
    (let s := txn .idle [] 0x21 ((List.range 8).foldl (fun a q => a.updTxn (q + 1) (fun z => { z with st := .open_ })) up)
     Fetches s 0 0 0x21 (got s 0 0) ∧ ((got s 0 0).1.txn 0).st = .idle ∧ 8 ≤ openTxns (got s 0 0).1) ∧
    (let s := txn .open_ owner3 0x22 up
     Fetches s 0 0 0x22 (got s 0 0) ∧ ((got s 0 0).1.txn 0).st = .open_ ∧
       commitCheck (got s 0 0).1 ((got s 0 0).1.txn 0) (got s 0 0).2.words = .inr 48001) ∧
    (let s := txn .open_ owner3 0x23 up
     Fetches s 0 0 0x23 (got s 0 0) ∧ ((got s 0 0).1.txn 0).st = .open_) := by
  simp only [fetches_iff]; decide +kernel

/-- A commit of a key that the checks pass, and of a window past the end of DRAM, which they do not. -/
def good : Machine.State := txn .pending owner3 0x22 up
def bad_ : Machine.State := txn .pending [(regKey 0xA2010 256, 0xFC000000), (regKey 0xA2018 256, 0x3FFFFF), (regKey 0xA201C 256, 16)] 0x22 up
theorem witness_CommitAllOrNothing :
    (let w := toApplyEdge (good.txn 0) good
     nextCommit good = some (0, good.txn 0) ∧ good.pw.bundle = false ∧ commitFails w (putKeys (good.txn 0).keys w) 0 [regKey 0x30C 0] = []) ∧
    (let w := toApplyEdge (bad_.txn 0) bad_
     nextCommit bad_ = some (0, bad_.txn 0) ∧
       commitFails w (putKeys (bad_.txn 0).keys w) 0 ((bad_.txn 0).keys.map Prod.fst) ≠ []) := by decide +kernel

/-! Registers, time commands of cores, resets. -/

def servoOff : Machine.State := State.cfgs { up with tb.latest := some 65536 } [(0, 0, 0xFE00)]
theorem witness_TimeBaseStores :
    (CoreOf (servoOff.runTo 0) 0 0 ∧ servoEn (servoOff.runTo 0) = false) ∧ (CoreOf (up.runTo 0) 0 0 ∧ servoEn (up.runTo 0) = true) ∧
    bit 0x10 4 = true ∧ (servoOff.runTo 0).tb.latest = some 65536 ∧ stepOk (servoOff.runTo 0) = true ∧ (up.runTo 0).tb.latest = none ∧
    stepOk (ttGoing 1 (sec16 11) 0) = false := by simp only [CoreOf]; decide +kernel

theorem witness_CoreTime :
    (let x := ({ up with tu.tsq := [⟨0, 7, { t16 := 5 }⟩] } : Machine.State).runTo 0
     coreRuns x 0 = true ∧ hearthOwner x 0 = 0 ∧ x.tu.tsq.length = 1) ∧ coreRuns up 0 = true ∧ 0 < up.tb.addend := by decide +kernel

/-- A positive and a negative leap second pending; outputs 0 and 1 in modes 1 and 2. -/
def leaping (neg : Bool) : Machine.State := State.cfgs up [(0x44, 0, 0x30025 + (if neg then 2 ^ 18 else 0)), (0x200, 0, 0x2281), (0x210, 0, 0x2282)]
theorem witness_SecondsAndOutputs :
    (alive (leaping true) = true ∧ bit ((leaping true).cfg 0x44 0) 17 = true ∧ bit ((leaping false).cfg 0x44 0) 17 = true) ∧
    toutsDriven (waitTop (leaping false)) = true ∧ (gateOk (waitTop (leaping false)) 0 = true ∧ toutMode (waitTop (leaping false)) 0 = 1) ∧
    (gateOk (waitTop (leaping false)) 1 = true ∧ toutMode (waitTop (leaping false)) 1 = 2 ∧
      bit ((leaping false).cfg 0x44 0) 16 = true) := by decide +kernel

theorem witness_RegisterStores :
    (let x := (txn .open_ [] 0x21 up).runTo 0
     CoreOf x 0 0 ∧ regInfo 0x30C = some (txReg 0x1F) ∧ domOn x 0x30C (sliceSel x 0 0x30C) = true ∧
       (writeRule x 0x30C (selValue x 0 (txReg 0x1F))).allows 0 = true ∧ isStandby x = false ∧ (x.txn 0).st = .open_ ∧
       claimedByOther x 0 (regKey 0x30C (selValue x 0 (txReg 0x1F))) = false ∧ (x.txn 0).keys.length < 4096 ∧ stagedTotal x < 16384) ∧
    (up.txn 0).st ≠ .open_ ∧
    (let x := (txn .open_ ((List.range 4096).map (fun i => (regKey 0x10040 i, 0))) 0x21 up).runTo 0
     ((x.txn 0).keys.any (fun k => k.1 == regKey 0x30C (selValue x 0 (txReg 0x1F)))) = false ∧ 4096 ≤ (x.txn 0).keys.length) ∧
    (let s := (txn .open_ [] 0x22 up).updTxn 0 (fun z => { z with overflow := true })
     Fetches s 0 0 0x22 (got s 0 0) ∧ isStandby (got s 0 0).1 = false ∧ ((got s 0 0).1.txn 0).conflict = false ∧
       ((got s 0 0).1.txn 0).overflow = true) ∧
    (CoreOf (win.runTo 0) 1 1 ∧ regInfo 0x10010 = some { rw := 0xFFF, sel := .own } ∧
      domOn (win.runTo 0) 0x10010 (sliceSel (win.runTo 0) 1 0x10010) = true ∧ (writeRule (win.runTo 0) 0x10010 1).allows 1 = true) := by
  simp only [fetches_iff, CoreOf]; decide +kernel

def resets (l : List ResetRun) : Machine.State := { up with pt.resets := l }
theorem witness_PartialResets :
    (CoreOf (up.runTo 0) 1 1 ∧ isStandby (up.runTo 0) = false ∧ mayReset (up.runTo 0) 1 (.partition 1) = true ∧
      mayReset (up.runTo 0) 1 (.hearth 1) = true ∧ mayReset (up.runTo 0) 0 (.fbe 63) = true ∧ mayReset (up.runTo 0) 0 (.loop 255) = true ∧
      mayReset (up.runTo 0) 0 (.capture 143) = true ∧ mayReset (up.runTo 0) 1 (.partition 0) = false ∧
      (up.runTo 0).pt.resets.any (fun z => scopeIn (up.runTo 0) (.partition 1) z.scope) = false) ∧
    (let s := resets [{ scope := .partition 1, reqEdge := 2499999000, effEdge := 2500001500 }]
     alive s = true ∧ (sortBy (fun a b => decide (a.effEdge ≤ b.effEdge)) (s.pt.resets.filter (fun z => !z.draining))) = s.pt.resets ∧
       (regInfo 0x10010).map (·.sel) = some .own) ∧
    (let s := resets [{ scope := .partition 1, reqEdge := 2499990000, effEdge := 2499992500, draining := true }]
     alive (s.runTo 0) = true ∧ ((s.runTo 0).pt.resets.find? (·.draining)).isSome = true) := by simp only [CoreOf]; decide +kernel

/-! Ingest. -/

def tl (t : Nat) (c : List (BitVec 8)) : List (BitVec 8) := [BitVec.ofNat 8 t, BitVec.ofNat 8 c.length] ++ c
def hdr (ether : Nat) : List (BitVec 8) := beBytes 6 0x010CCD040001 ++ beBytes 6 0x020000000001 ++ beBytes 2 ether
def pad (o : List (BitVec 8)) : List (BitVec 8) := o ++ List.replicate (60 - o.length) 0
/-- A frame of IEC 61850 with an APPID and an APDU. -/
def iec (ether appid : Nat) (a : List (BitVec 8)) : List (BitVec 8) :=
  pad (hdr ether ++ beBytes 2 appid ++ beBytes 2 (a.length + 8) ++ [0, 0, 0, 0] ++ a)
def svF (appid cnt : Nat) : List (BitVec 8) := iec 0x88BA appid (tl 0x60 (tl 0x80 [1] ++ tl 0xA2 (tl 0x30 (tl 0x80 [0x41] ++
  tl 0x82 (beBytes 2 cnt) ++ tl 0x83 [0, 0, 0, 1] ++ tl 0x85 [2] ++ tl 0x87 (beBytes 8 (7 * 2 ^ 32))))))
def gooseF (st sq : Nat) : List (BitVec 8) := iec 0x88B8 1 (tl 0x61 (tl 0x80 [0x41] ++ tl 0x81 [100] ++ tl 0x84 (beBytes 8 0) ++
  tl 0x85 (beBytes 1 st) ++ tl 0x86 (beBytes 1 sq) ++ tl 0x88 [1] ++ tl 0x89 [0] ++ tl 0x8A [1] ++ tl 0xAB (tl 0x83 [1])))
/-- A Griuz datagram with a payload whose bytes 4 and 5 are its length; `ver` is the version and length byte of IPv4. -/
def griuzF (ver : Nat) (b : List (BitVec 8)) : List (BitVec 8) :=
  let ip := beBytes 1 ver ++ [0] ++ beBytes 2 (b.length + 28) ++ [0, 0, 0, 0, 64, 17]
  let adr := beBytes 4 0x0A000002 ++ beBytes 4 0x0A000001
  pad (hdr 0x0800 ++ ip ++ beBytes 2 (ipChecksum (ip ++ [0, 0] ++ adr)) ++ adr ++ beBytes 2 0xBA04 ++ beBytes 2 0xBA04 ++
    beBytes 2 (b.length + 8) ++ [0, 0] ++ b)
def griuzB (type len seq ns : Nat) : List (BitVec 8) := beBytes 2 0x475A ++ [1] ++ beBytes 1 type ++ beBytes 2 len ++ beBytes 2 5 ++
  beBytes 4 seq ++ beBytes 8 10 ++ beBytes 4 ns ++ beBytes 4 1
def surgeF (ver seq ns : Nat) : List (BitVec 8) := griuzF ver (griuzB 1 46 seq ns ++ [0, 1, 1, 1] ++ beBytes 2 1 ++ [0, 0] ++
  [0, 0, 0, 0] ++ beBytes 4 0x3F800000 ++ beBytes 2 7)
def arrivalF : List (BitVec 8) := griuzF 0x45 (griuzB 2 64 1 0 ++ [0, 1] ++ beBytes 2 9 ++ beBytes 4 3 ++ [1, 0, 0, 0] ++
  (beBytes 8 9 ++ beBytes 4 0 ++ beBytes 4 1 ++ [0, 1, 0, 0] ++ beBytes 4 0x3F800000))
/-- Streams 0 (SV of one channel), 1 (GOOSE of one point) and 2 (surge, of channel 0), and line 9, all on P0. -/
def sub : Machine.State := State.cfgs up
  [(0xF0004, 0, 2 ^ 31), (0x10000, 0, 1),
   (0x10040, 0, 2 ^ 31 + 0x4000), (0x10040 + 4, 0, 0xCD040001), (0x10040 + 8, 0, 0x010C), (0x10040 + 12, 0, 1),
   (0x10040 + 16, 0, crc32c [0x41]), (0x10040 + 20, 0, 1), (0x10040 + 28, 0, 2 ^ 24 + 2 ^ 20 + 2 ^ 16),
   (0x10040, 1, 2 ^ 31 + 2 ^ 29 + 1), (0x10040 + 4, 1, 0xCD040001), (0x10040 + 8, 1, 0x010C), (0x10040 + 12, 1, 1),
   (0x10040 + 16, 1, crc32c [0x41]), (0x10040 + 20, 1, 1), (0x10040 + 28, 1, 2 ^ 24 + 2 ^ 20 + 2 ^ 16),
   (0x10040, 2, 2 ^ 31 + 2 ^ 30 + 5), (0x10040 + 4, 2, 0xCD040001), (0x10040 + 8, 2, 0x010C), (0x10040 + 16, 2, 0x0A000002),
   (0x10040 + 28, 2, 2 ^ 24 + 2 ^ 16), (0x50040, 0, 2 ^ 31 + 9), (0x50040 + 16, 0, 5), (0x50040 + 20, 0, 0x0A000002)]
def subAt (last : Option Nat) (st sq : Nat) : Machine.State := ((sub.updStream 0 (fun y => { y with st := .running, last := last })).updStream 1
  (fun y => { y with st := .running, stNum := st, sqNum := sq })).updStream 2 (fun y => { y with st := .running, last := last })

theorem witness_SampledValues :
    (let x := subAt (some 47999) 1 1
     let o := svF 0x4000 0
     (portLive x 0 = true ∧ macEn x 0 = true ∧ pairMode x 0 = 0 ∧ 60 ≤ o.length ∧ o.length ≤ 1518 ∧ bit (x.cfg 0x10000 0) 0 = true ∧
       igKind x o = some .sv) ∧
     (classifySte x 0 .sv (be o (etherAt o).2 2) 0 o = some 0 ∧ simBit1 o (etherAt o).2 = false ∧ (ste x 0).simAccept = false ∧
       (ste x 0).auth = 0 ∧ be o (etherAt o).2 2 = 0x4000 ∧ lengthOk o (etherAt o).2 = true ∧ reserved1Ok o (etherAt o).2 = true) ∧
     (svParse (ste x 0) (apdu o (etherAt o).2)).getRight? = some [[(0x80, [0x41]), (0x82, [0, 0]), (0x83, [0, 0, 0, 1]), (0x85, [2]),
       (0x87, beBytes 8 (7 * 2 ^ 32))]] ∧
     (svChans (beBytes 8 (7 * 2 ^ 32)) = [(7, 0)] ∧ synchRank 2 = 2 ∧ (ste x 0).syncReq = 0 ∧ 4800 * perSlot (ste x 0).rate = 4800 ∧
       sampleNumber 4800 0 (ingress x 0 + us16 10) = some 48000 ∧ ingress x 0 ≤ 48000 * sec16 1 / 4800 + ms16 500 ∧
       ingress x 0 < cutoff x (ste x 0).croft 48000) ∧
     ((x.stream 0).last = some 47999 ∧ ((subAt (some 48000) 1 1).stream 0).last = some 48000)) ∧
    (let o := svF 0x4001 0
     igKind sub o = some .sv ∧ classifySte sub 0 .sv (be o (etherAt o).2 2) 0 o = none) ∧
    (let o := svF 0x3FFF 0
     let x := State.cfgs sub [(0x10040, 0, 2 ^ 31 + 0x3FFF)]
     igKind x o = some .sv ∧ classifySte x 0 .sv (be o (etherAt o).2 2) 0 o = some 0) := by decide +kernel

theorem witness_GooseStates :
    (∀ f ∈ [(2, 0), (1, 2), (1, 1), (0x7F, 0)],
      let o := gooseF f.1 f.2
      let x := subAt none 1 1
      portLive x 0 = true ∧ 60 ≤ o.length ∧ o.length ≤ 1518 ∧ igKind x o = some .goose ∧
      classifySte x 0 .goose (be o (etherAt o).2 2) 0 o = some 1 ∧ simBit1 o (etherAt o).2 = false ∧ (ste x 1).simAccept = false ∧
      (ste x 1).auth = 0 ∧ ((tlv (apdu o (etherAt o).2)).bind (fun z => tlvAll z.2.1)).map (fun z => tlvGet z 0x87) = some none ∧
      be o (etherAt o).2 2 ≤ 0x3FFF ∧ lengthOk o (etherAt o).2 = true ∧ reserved1Ok o (etherAt o).2 = true ∧
      ((gooseParse (ste x 1) (x.stream 1).layout (apdu o (etherAt o).2)).getRight?).map (fun g => (g.stNum, g.sqNum)) = some f) ∧
    later32 2 1 = true ∧ later32 2 1 = true ∧ later32 1 1 = false ∧ ((subAt none 1 1).stream 1).st = .running := by decide +kernel

theorem witness_SurgeFrames :
    (∀ l ∈ [sec16 10, sec16 10 + 1],
      let x := subAt (some l) 1 1
      let o := surgeF 0x45 4 0
      let b := griuzPayload o 34
      portLive x 0 = true ∧ macEn x 0 = true ∧ pairMode x 0 = 0 ∧ 60 ≤ o.length ∧ igKind x o = some .surge ∧ griuzAt x o = some 34 ∧
      griuzIpOk o 34 = true ∧ classifySte x 0 .surge (be b 6 2) (be o ((etherAt o).2 + 12) 4) o = some 2 ∧
      (be b 28 1 / 128 == 1) = false ∧ (ste x 2).simAccept = false ∧ (ste x 2).auth = 0 ∧ surgeCheck (ste x 2) b = none ∧
      surgePeriod (be b 30 1) = some 500 ∧ (griuzTime b 12).1 = sec16 10) ∧
    griuzIpOk ((surgeF 0x45 4 0).set 24 1) 34 = false ∧ griuzAt sub ((surgeF 0x45 4 0).set 24 1) = some 34 := by decide +kernel

theorem witness_ArrivalMessages :
    (let x := sub
     let o := arrivalF
     let b := griuzPayload o 34
     igKind x o = some .arrival ∧ 60 ≤ o.length ∧ griuzAt x o = some 34 ∧ griuzIpOk o 34 = true ∧ arrHead b = none ∧
     (linesValid x).find? (fun l => (lineCfg x l).id == be b 30 2 &&
       (lineCfg x l).remote == be b 6 2 && (lineCfg x l).ip == be o ((etherAt o).2 + 12) 4) = some 0 ∧
     arrTail (lineCfg x 0) b = none ∧ (lineCfg x 0).auth = 0 ∧ (msgOf b (ingress x 0)).phasors = false ∧ (x.line 0).st ≠ .open_ ∧
     (x.line 0).taken.contains (false, (msgOf b (ingress x 0)).evSeq) = false) := by decide +kernel

def prp : Machine.State := State.cfgs { sub with ig.dup := [(0, [{ mac := 5, hi := 9, last := 2499000000, seen := [9] }])] } [(0x10004, 0, 1)]
/-- Stream 0 with key identifiers 7 (slot A) and 8 (slot B), rolled over to slot B or to slot A. -/
def rolled (b : Bool) : Machine.State := (State.cfgs sub [(0x10060, 0, 2 ^ 31 + 5), (0x10064, 0, 7), (0x10068, 0, 2 ^ 31 + 6),
  (0x1006C, 0, 8)]).updStream 0 (fun y => { y with keyB := b, prevEnd := some (sec16 11) })
theorem witness_RedundancyRecords :
    (let o := pad (hdr 0x88FB)
     portLive prp 0 = true ∧ macEn prp 0 = true ∧ pairMode prp 0 = 1 ∧ (etherAt o).1 = 0x88FB ∧ 60 ≤ o.length ∧ o.length ≤ 1518) ∧
    (alive prp = true ∧ ((Tbl.get [] prp.ig.dup 0).find? (fun d => d.mac == 5)).isSome = true) ∧
    (∀ b ∈ [true, false], let s := rolled b
     alive s = true ∧ (s.stream 0).prevEnd = some (sec16 11) ∧ sec16 11 < sec16 11 + 1 ∧ (s.stream 0).keyB = b ∧ 0 < s.tb.addend ∧
       (if b then (ste s 0).aValid = true ∧ (ste s 0).aKey = 7
        else ¬((ste s 0).aValid = true ∧ (ste s 0).aKey = 8) ∧ (ste s 0).bValid = true ∧ (ste s 0).bKey = 8)) := by decide +kernel

/-- Stream 0 missed a slot, stream 1 runs, and chain 0 has taken its settling length. -/
def losing : Machine.State := ((State.cfgs sub [(0x20020, 0, 2 ^ 31)]).updStream 0 (fun y => { y with st := .running, miss := 1 })).updStream 1
  (fun y => { y with st := .running }) |>.updChain 0 0 (fun z => { z with taken := 1 })
theorem witness_StreamLosses :
    (alive losing = true ∧ (losing.stream 0).st = .running ∧ (ste losing 0).kind ≠ 1 ∧ (ste losing 0).loss ≤ (losing.stream 0).miss) ∧
    ((losing.stream 1).st = .running ∧ (ste losing 1).kind = 1) ∧
    ((chainLive losing 0 0).en = true ∧ settleLen (chainLive losing 0 0) ≤ (losing.chain 0 0).taken ∧ (placerOf losing 0 0).isSome = true) := by
  decide +kernel

/-! Triggers and capture. -/

/-- Unit 0 with a profile of one point at 0x4000 and one page at 0x100000, and a descriptor of the capture ring. -/
def capAt (ws : List Nat) (f : CapUnit → CapUnit) (m : List Host.Cell) : Machine.State :=
  let x := State.cfgs (submit up 6 ws m) [(0x30440, 0, 2 ^ 31 + 5 * 2 ^ 28), (0x30444, 0, 1), (0x30448, 0, 2), (0x3044C, 0, 1), (0x30450, 0, 0x100000),
    (0x30458, 0, 0x4000), (0x30460, 0, 2 ^ 16)]
  x.updCap 0 (fun y => f { y with prof := profWords x 0 })
def capArmS : Machine.State := capAt [0x61] id (cells 0x4000 [0, 0, 0, 0x80])
def capIn (op : Nat) (st : CapSt) (sg : SegSt) : Machine.State := capAt [op] (fun y => { y with
  st := st, segs := Tbl.set .free [] 0 sg, left := some 1, post := 2, taken := 9, trigRec := some 7 }) []
theorem witness_CaptureCommands :
    (let y := got capArmS 0 0
     let c := profList (profWords y.1 0)
     (Fetches capArmS 0 0 0x61 (got capArmS 0 0) ∧ capSel y.2.words = some 0 ∧ capResOk y.2.words = true ∧ capOwner y.1 0 = 0 ∧
       profOk 0 c = true ∧ devRead y.1 0 c.chl (4 * (c.na + c.nd)) = some [0, 0, 0, 0x80] ∧ listRate y.1 0 c [0x80000000] = some 4800) ∧
     (bytesWords [0, 0, 0, 0x80] = [0x80000000] ∧ listOwned y.1 0 0 [0x80000000] = true ∧ y.1.timeValid = true ∧ (y.1.cap 0).st = .idle ∧
       capShare y.1 0 + recSize (isSurge 0) c.na c.nd * 4800 ≤ 80000000 ∧ c.pre + c.post ≤ capSlots 0 c)) ∧
    (Fetches (capIn 0x63 .armed .filling) 0 0 0x63 (got (capIn 0x63 .armed .filling) 0 0) ∧
      ((got (capIn 0x63 .armed .filling) 0 0).1.cap 0).st = .armed ∧ capResOk (got (capIn 0x63 .armed .filling) 0 0).2.words = true) ∧
    (Fetches (capIn 0x62 .post .filling) 0 0 0x62 (got (capIn 0x62 .post .filling) 0 0) ∧
      bit (dw (got (capIn 0x62 .post .filling) 0 0).2.words 0) 9 = false ∧ ((got (capIn 0x62 .post .filling) 0 0).1.cap 0).st = .post) ∧
    (Fetches (capIn 0x64 .idle .held) 0 0 0x64 (got (capIn 0x64 .idle .held) 0 0) ∧
      segState ((got (capIn 0x64 .idle .held) 0 0).1.cap 0) 0 = .held ∧ exportOf (got (capIn 0x64 .idle .held) 0 0).1 0 0 = none) := by
  simp only [fetches_iff]; decide +kernel

/-- The header of a capture without records at a valid instant, and a template for it. -/
def capHead : List (BitVec 8) := let h := leBytes 2 0x40 ++ List.replicate 38 0 ++ leBytes 4 8 ++ leBytes 4 4800 ++ List.replicate 204 0
  h ++ leBytes 4 (crc32c h)
def template : List (BitVec 8) := [0x41, 0x2C, 0x42, 0x2C, 0x32, 0x30, 0x31, 0x33, 13, 10, 0x30, 0x2C, 0x30, 0x41, 0x2C, 0x30, 0x44, 13, 10,
  0x35, 0x30, 13, 10]
def exported (ws : List Nat) : Machine.State :=
  let s := capAt ws (fun y => { y with segs := Tbl.set .free [] 0 .held }) (cells 0x3000 template ++ cells 0x100000 capHead)
  { s with st.ready := true, st.ops := if ws.length = 1 then [{ id := 3, kind := .export_, ring := 0, flight := 9, tag := 0, region := 4 }] else [] }
theorem witness_CaptureExports :
    (alive (capIn 0x63 .post .filling) = true ∧ capDone ((capIn 0x63 .post .filling).cap 0) = true) ∧
    (let s := exported [0x65, 0, 0, 0, 0x3000, 0, template.length]
     let y := got s 0 0
     Fetches s 0 0 0x65 (got s 0 0) ∧ capSel y.2.words = some 0 ∧ capResOk y.2.words = true ∧ fld (dw y.2.words 6) 15 0 ≠ 0 ∧
       segState (y.1.cap 0) 0 = .held ∧ devRead y.1 0 (addr48 y.2.words 4) (fld (dw y.2.words 6) 15 0) = some template ∧
       ((exportFiles y.1 0 0 false (some template)).map (fun e => (e.1.q.getLsbD 6, e.2.length))) = some (true, 2) ∧
       stBusy y.1 = false ∧ exportOf y.1 0 0 = none ∧
       ((exportFiles y.1 0 0 false (some template)).map (fun e => (e.2.map (fun f => pagesOf f.2.length)).foldl (· + ·) 0)) = some 1 ∧
       1 ≤ freePages y.1 4) ∧
    (let s := exported [0x262]
     Fetches s 0 0 0x62 (got s 0 0) ∧ bit (dw (got s 0 0).2.words 0) 9 = true ∧ (exportOf (got s 0 0).1 0 0).isSome = true) := by
  simp only [fetches_iff]; decide +kernel

/-! Phasors and fault location. -/

/-- A configuration frame of 74 octets: one PMU with one phasor, 10 reports a second at 50 Hz. -/
def cfgF : List (BitVec 8) :=
  let b := beBytes 2 0xAA32 ++ beBytes 2 74 ++ beBytes 2 7 ++ List.replicate 9 0 ++ beBytes 3 1000000 ++ beBytes 2 1 ++ List.replicate 16 0x41 ++
    beBytes 2 7 ++ beBytes 2 2 ++ beBytes 2 1 ++ List.replicate 4 0 ++ List.replicate 16 0x42 ++ beBytes 4 0 ++ beBytes 2 1 ++ beBytes 2 0 ++ beBytes 2 10
  b ++ beBytes 2 (crcCcitt b)
/-- Group 0 of croft 0 on channel 0, and a descriptor of the phasor ring with a frame, a map and a header in memory. -/
def phs (ws : List Nat) (f : PwsRt → PwsRt) : Machine.State :=
  let x := State.cfgs (submit sub 0x0B ws (cells 0x3000 cfgF ++ cells 0x4008 [1] ++ cells 0x5000 (List.replicate 42 1))) [(0x40020, 0, 2 ^ 31)]
  x.updPws 3 f
def phStart : Machine.State := phs [0x30072, 0, 0x3000, 0, 74, 0x4000, 0, 0x5000, 0, 42] id
def phGoing (op : Nat) : Machine.State := phs [0x30000 + op] (fun z => { z with running := true, cfg := cfgF, map := [0, 0, 0] })
def report (q : BitVec 16) : PhRep :=
  { slot := 47520, edge := ⟨47520, q, 0, 0, true⟩, freq := 0, rocof := 0, fq := 0, flags := 0, phs := [], close := 47900 }
def reported (q : BitVec 16) : Machine.State := ({ phGoing 0 with ph.groups := [(0, { active := true, reps := [report q] })] } : Machine.State).updPws 3
  (fun z => { z with next := 47520 })
theorem witness_PhasorStreams_start :
    Fetches phStart 0 0 0x72 (got phStart 0 0) ∧ (let y := got phStart 0 0
     (reservedOk y.2.words 0xFFFF0000 [(2, 0xFFFFFFFF), (3, 0xFFFF), (4, 0xFFFF), (5, 0xFFFFFFFF),
       (6, 0xFFFF), (7, 0xFFFFFFFF), (8, 0xFFFF), (9, 0xFFF)] = true ∧ fld (dw y.2.words 9) 7 0 = 42 ∧ fld (dw y.2.words 9) 11 8 < 8) ∧
     (devRead y.1 0 (addr48 y.2.words 2) (fld (dw y.2.words 4) 15 0) = some cfgF ∧ cfgFrameOk cfgF = true ∧
      devRead y.1 0 (addr48 y.2.words 5) (4 * mapWords (cfgBlocks cfgF []).1) = some ([0, 0, 0, 0, 0, 0, 0, 0, 1, 0, 0, 0]) ∧
      (devRead y.1 0 (addr48 y.2.words 7) (fld (dw y.2.words 9) 7 0)).isSome = true ∧
      cfgMapOk y.1 cfgF (cfgBlocks cfgF [0, 0, 1]).1 = true ∧ cfgOwned y.1 3 0 (cfgBlocks cfgF [0, 0, 1]).1 = true ∧
      (y.1.pws 3).running = false)) := by rw [fetches_iff]; decide +kernel
theorem witness_PhasorStreams_stop :
    Fetches (phGoing 0x73) 0 0 0x73 (got (phGoing 0x73) 0 0) ∧ (let y := got (phGoing 0x73) 0 0
     reservedOk y.2.words 0xFFFF0000 [] = true ∧ wsOwner y.1 3 = 0 ∧ (y.1.pws 3).running = true) := by rw [fetches_iff]; decide +kernel
theorem witness_PhasorStreams_mark :
    Fetches (phGoing 0x274) 0 0 0x74 (got (phGoing 0x274) 0 0) ∧ (let y := got (phGoing 0x274) 0 0
     reservedOk y.2.words 0xFFFF0200 [] = true ∧ wsOwner y.1 3 = 0) := by rw [fetches_iff]; decide +kernel
theorem witness_PhasorStreams_frame :
    (∀ q ∈ [0x41, 0], let s := reported (BitVec.ofNat 16 q)
     alive s = true ∧ ((cfgBlocks (s.pws 3).cfg (s.pws 3).map).1.map (·.sel)) = [0] ∧
       commonReport s (s.pws 3) (cfgBlocks (s.pws 3).cfg (s.pws 3).map).1 = some 47520 ∧
       ((s.grp 0).reps.find? (fun z => z.slot == 47520)).isSome = true) := by decide +kernel

/-- Line 0 as it sends, with the impedance methods, on group 0; an event may be open on it. -/
def arr : Arr := { t16 := sec16 9, tq := 0x41, sig := 0, pos := true, amp := 5, q := 0 }
def lineS (f : LineRt → LineRt) : Machine.State :=
  let x := State.cfgs { sub with ig.closed := [(0, 48000)], dram := cells 0x5000 (List.replicate 46 1),
                                 ph.groups := [(0, { active := true, reps := [report 0x41, { report 0x41 with slot := 44160 }, { report 0x41 with
                                   slot := 42240, phs := [⟨0, 0x40000000, 0, 0, true⟩] }] })] }
    [(0x50040, 0, 2 ^ 31 + 2 ^ 29 + 9), (0x50044, 0, 2 ^ 14 * 2), (0x50050, 0, 100 * 65536 + 5), (0x50058, 0, 40 * 65536 + 900), (0x50064, 0, 0x5000),
     (0x50068, 0, 46 * 2 ^ 24), (0x5006C, 0, 2 ^ 27), (0x5007C, 0, 0x3F800000), (0x50080, 0, 0x3F800000), (0x500A0, 0, 0x44FA0000),
     (0x500A4, 0, 0x43960000), (0x40020, 0, 2 ^ 31)]
  x.updLine 0 f
def flOpen : Machine.State := lineS (fun z => { z with
  valid := 1024, st := .open_, t1 := some arr, arrs := [arr]
  fault := some { tF := 46080, tPre := 44160, fq := 0x41, pq := 0x41, v2 := ⟨0, 0⟩, i2 := ⟨0, 0⟩, dv1 := ⟨0, 0⟩, di1 := ⟨0, 0⟩, q := 0, ok := true } })
/-- The event has closed before its ARRIVALS were sent. -/
def flOwing : Machine.State := lineS (fun z => { z with owed := [{ phasors := false, evSeq := 1, stop := sec16 9, arrs := [arr] }] })
def copy (l n c : Nat) : FlSend := { octets := [1, 2, 3], left := l, next := sec16 n, phasors := false, evSeq := 1, copy := c }
theorem witness_FaultMessages :
    (let s := flOpen
     (alive s = true ∧ 1024 ≤ (s.line 0).valid ∧ (s.line 0).owed = [] ∧ evT1 (s.line 0) = some arr ∧ (lineCfg s 0).send = true ∧ (s.line 0).arrSent = false ∧
       (s.line 0).st = .open_ ∧ flCovers s (lineCfg s 0) (arr.t16 + (lineCfg s 0).cover) = true) ∧
     ((lineCfg s 0).auth = 0 ∧ (devRead s (lineCfg s 0).owner (lineCfg s 0).hdr (lineCfg s 0).hdrLen).isSome = true ∧
       (s.line 0).fault.isSome = true ∧ (lineCfg s 0).imp = true ∧ (s.line 0).phSent = false)) ∧
    (let s := flOwing
     let o : FlOwed := { phasors := false, evSeq := 1, stop := sec16 9, arrs := [arr] }
     alive s = true ∧ (s.line 0).owed.find? (fun z => z.phasors == false) = some o ∧ (lineCfg s 0).valid = true ∧ (lineCfg s 0).send = true ∧
       flCovers s (lineCfg s 0) o.stop = true) ∧
    (∀ l ∈ [1, 2], (copy 1 12 7) ≠ copy l 11 1 ∧ (copy l 11 1).next ≤ (copy 1 12 7).next ∧ 0 < (copy 1 12 7).left ∧
      ((lineS (fun z => { z with sends := [copy l 11 1, copy 1 12 7] })).line 0).sends = [copy l 11 1, copy 1 12 7]) := by decide +kernel

def held : ArrMsg := { phasors := false, evSeq := 4, sim := false, test := false, rx := sec16 9 + 5, arrs := [] }
/-- The reference instant is known; reports stand at 43,680 and 42,240 (fault) and so on. -/
def flRef (pre : Bool) : Machine.State :=
  let x := lineS (fun z => { z with st := .open_, t1 := some arr, arrs := [arr], tRef := some (sec16 9) })
  let g := grpCfg x 0
  let ph : List PhVal := [⟨0, 0x40000000, 0, 0, true⟩]
  let r (k : Nat) : PhRep := { report 0x41 with slot := k, phs := ph }
  { x with ph.groups := [(0, { active := true, reps := r (faultSlot g (sec16 9) (lineCfg x 0).phDelay) :: if pre then [r (preSlot g (sec16 9))] else [] })] }
theorem witness_FaultResults :
    (let s := flRef true
     alive s = true ∧ (s.line 0).st = .open_ ∧ evT1 (s.line 0) = some arr ∧ resOf (s.line 0) 1 = none ∧ resOf (s.line 0) 2 = none ∧
       (s.line 0).held = []) ∧
    (let s := lineS (fun z => { z with held := [held] })
     (s.line 0).st ≠ .open_ ∧ (s.line 0).held = [held]) ∧
    (∀ pre ∈ [true, false], let s := flRef pre
     (s.line 0).tRef = some (sec16 9) ∧ (lineCfg s 0).imp = true ∧ (s.line 0).st = .open_ ∧ resOf (s.line 0) 1 = none ∧
       resOf (s.line 0) 4 = none ∧
       (repAt s (lineCfg s 0).grp (faultSlot (grpCfg s (lineCfg s 0).grp) (sec16 9) (lineCfg s 0).phDelay)).isSome = true ∧
       (repAt s (lineCfg s 0).grp (preSlot (grpCfg s (lineCfg s 0).grp) (sec16 9))).isSome = pre) ∧
    (let s := flRef true
     let rf := (repAt s (lineCfg s 0).grp (faultSlot (grpCfg s (lineCfg s 0).grp) (sec16 9) (lineCfg s 0).phDelay)).getD (report 0)
     let rp := (repAt s (lineCfg s 0).grp (preSlot (grpCfg s (lineCfg s 0).grp) (sec16 9))).getD (report 0)
     qInvalid (mergeQ [(linePhs (lineCfg s 0) rf).2.1, (linePhs (lineCfg s 0) rp).2.1]) = false ∧
       (linePhs (lineCfg s 0) rf).2.2 = true ∧ (linePhs (lineCfg s 0) rp).2.2 = true) := by decide +kernel

/-! Function blocks, publishing, regulation. -/

/-- A program of one constant-free instance without state words. -/
def inst : FbInst := { hdr := 0, id := 1, typ := 0x1A, inAt := 1, nin := 1, out := 2 }
def prog : FbProg := { prot := false, cycle := 0, pid := 1, rev := 1, insts := [inst], outMap := [2], idata := [0x1001A, 0, 0, 0], cyc := 45 }
/-- Partition 1's ring 0 of a type with a descriptor; hearth 1 runs the program. -/
def fbs (cls type : Nat) (ws : List Nat) (m : List Host.Cell) (f : FbRt → FbRt) : Machine.State :=
  let x := State.cfgs up [(0xA0010, 0, 2 ^ 31 + cls * 2 ^ 29 + 1), (0xA2010, 256, 0xFC000000), (0xA2014, 256, 0x10), (0xA2018, 256, 0x20),
    (0xA201C, 256, 0x10), (0xC0010, 256, 2 ^ 31 + type * 2 ^ 24 + 4 * 2 ^ 16), (0xC0014, 256, 0x10000)]
  ({ x with dram := cells 0x20000 (wordsBytes (ws.map (BitVec.ofNat 32))) ++ m, db.rings := [(64, { pi := 1 })] } : Machine.State).updFbe 1
    (fun z => f { z with mode := .run, bank0 := some prog, words := prog.idata })
def fbC (k : Nat) : Machine.State := fbs 2 0x0D [0x10092, 0, k] [] id
def fbF (rel : Nat) : Machine.State := fbs 1 0x0D [0x10093, 0, 0x10000005, 7, rel] [] (fun z => { z with test := true })
theorem witness_FunctionBlockCommands :
    (∀ k ∈ [(1, FbCmdKind.run), (2, .stop), (3, .hold), (4, .step), (5, .testOn), (6, .testOff)],
      fetchOk (fbC k.1) 1 0 0x92 = true ∧ (let y := got (fbC k.1) 1 0
        fbHearth y.2.words = 1 ∧ isStandby y.1 = false ∧ reservedOk y.2.words fbMask0 [(2, 0xF)] = true ∧ fbCmdKind y.2.words = some k.2 ∧
        cmdStatus 1 1 k.2 y.1 = stDone)) ∧
    (∀ k ∈ [0, 1], fetchOk (fbF k) 1 0 0x93 = true ∧ (let y := got (fbF k) 1 0
      fbHearth y.2.words = 1 ∧ isStandby y.1 = false ∧
      reservedOk y.2.words fbMask0 [(2, 0xFFFFFFFF), (3, 0xFFFFFFFF), (4, 1)] = true ∧ forceTargetOk (dw y.2.words 2) = true ∧
      hearthOwner y.1 1 = 1 ∧ partClass y.1 1 = 1 ∧ (y.1.fbe 1).test = true ∧ bit (dw y.2.words 4) 0 = (k == 1) ∧
      (y.1.fbe 1).forces = [])) := by decide +kernel

/-- An image with one NOT instance. -/
def image : List (BitVec 8) :=
  let b := leBytes 4 0x46425047 ++ leBytes 2 1 ++ [0, 0] ++ leBytes 4 1 ++ leBytes 4 1 ++ leBytes 2 1 ++ leBytes 2 1 ++ leBytes 4 16 ++
    leBytes 4 64 ++ leBytes 4 66 ++ leBytes 4 82 ++ List.replicate 24 0
  let d := leBytes 2 0 ++ leBytes 4 0x1001A ++ leBytes 4 0x70000001 ++ leBytes 4 0 ++ leBytes 4 0 ++ leBytes 4 2
  b ++ leBytes 4 (crc32c (b ++ [0, 0, 0, 0] ++ d)) ++ d
def fbPeekS : Machine.State := fbs 2 0x0D [0x10094, 0, 0, 4] [] id
def fbPokeS : Machine.State := fbs 2 0x0D [0x10095, 0, 2, 1, 0, 0, 0, 0, 0xFFFF] [] (fun z => { z with mode := .hold })
def fbLoadS : Machine.State := fbs 2 0x0D [0x10091, 0, 0x11000, 0, image.length] (cells 0x21000 image) id
def loading (acked : Bool) : Machine.State := up.updFbe 1 (fun z => { z with
  mode := .run, bank0 := some prog, loads := [FbLoad.mk 1 prog 64 0 acked] })
theorem witness_FunctionBlockData :
    (fetchOk fbPeekS 1 0 0x94 = true ∧ (let y := got fbPeekS 1 0
      fbHearth y.2.words = 1 ∧ hearthOwner y.1 1 = 1 ∧ peekForm y.2.words false = true ∧ peekOk y.2.words (y.1.fbe 1) = true ∧ (dw y.2.words 3).toNat = 4 ∧
      (y.1.fbe 1).prog = some prog ∧ ∀ i, i < 4 → stateAt prog ((dw y.2.words 2).toNat + i) = none)) ∧
    (fetchOk fbPokeS 1 0 0x95 = true ∧ (let y := got fbPokeS 1 0
      fbHearth y.2.words = 1 ∧ isStandby y.1 = false ∧ peekForm y.2.words true = true ∧ peekOk y.2.words (y.1.fbe 1) = true ∧ partClass y.1 1 ≠ 1 ∧
      (y.1.fbe 1).mode = .hold ∧ (dw y.2.words 3).toNat = 1 ∧ stateAt prog ((dw y.2.words 2).toNat + 0) = none)) ∧
    (fetchOk fbLoadS 1 0 0x91 = true ∧ (let y := got fbLoadS 1 0
      fbHearth y.2.words = 1 ∧ loadOk y.2.words = true ∧ mateSynced y.1 = false ∧ (y.1.fbe 1).xchg = none ∧
      devRead y.1 1 (addr48 y.2.words 2) (dw y.2.words 4).toNat = some image ∧ (loadStatus y.1 1 1 (some image)).1 = stDone ∧
      (loadStatus y.1 1 1 (some image)).2.isSome = true)) ∧
    (∀ b ∈ [true, false], alive ((loading b).runTo 0) = true ∧ mateSynced ((loading b).runTo 0) = false ∧
      (((loading b).runTo 0).fbe 1).loads = [FbLoad.mk 1 prog 64 0 b] ∧ (((loading b).runTo 0).fbe 1).xchg = none ∧
      (((loading b).runTo 0).fbe 1).act = 0) := by decide +kernel

def handing : Machine.State := up.updFbe 1 (fun z => { z with
  handing := some { bell := 48000, cycle := 47999, n := 1, q := 0x41, outs := [(0, 5, 0), (1, 6, 3)], scan := false } })
def exchanging (p : Bool) : Machine.State := { up with ig.closed := [(0, 47999)] }.updFbe 1 (fun z => { z with
  mode := if p then .run else .none, bank0 := if p then some prog else none, bank1 := some prog, xchg := some 48000 })
def gcbS : Machine.State := (State.cfgs up [(0x70040, 5, 2 ^ 31 + 1), (0x70044, 5, 2000 * 65536 + 4)]).updGcb 5 (fun z => { z with
  started := true, stNum := 3, sqNum := 0xFFFFFFFF, d := 4000, due := some (sec16 10 + 7), ident := [0x80, 1, 0x41, 0x82, 1, 0x41, 0x83, 1, 0x41] })
theorem witness_Publishing :
    (alive handing = true ∧ ((handing.fbe 1).handing.map (fun a => (a.outs.map Prod.fst))) = some [0, 1] ∧ [0, 1].Nodup) ∧
    (∀ p ∈ [true, false], let s := exchanging p
      alive s = true ∧ (s.fbe 1).xchg = some 48000 ∧ (s.fbe 1).bank (1 - (s.fbe 1).act) = some prog ∧ (s.fbe 1).handing = none ∧
      slotCounter 48000 ≤ s.tb.counter ∧ (if p then oldEnd (s.fbe 1) 48000 ≤ Tbl.get 0 s.ig.closed 0 + 1 else (s.fbe 1).prog = none)) ∧
    (alive gcbS = true ∧ (gcbS.gcb 5).due = some (sec16 10 + 7) ∧ (gcbCfg gcbS 5).valid = true ∧ (gcbS.gcb 5).started = true) := by
  decide +kernel

/-- Loop 2 every 6 slots, 40 us, miss limit 3, safe 9. -/
def loopS (f : LoopRt → LoopRt) : Machine.State := (State.cfgs up [(0x80040, 2, 2 ^ 31 + 5 * 65536), (0x80040 + 12, 2, 3 * 2 ^ 24), (0x80040 + 16, 2, 40000),
  (0x80040 + 20, 2, 9)]).updLoop 2 (fun z => f { z with next := 48000, out := 77, first := some 48000 })
theorem witness_LoopReleases :
    (let s := loopS (fun z => { z with results := [{ slot := 48000, y := 55, q := 3 }] })
     alive s = true ∧ (s.loop 2).next = 48000 ∧ (loopCfgAt s 2 48000).valid = true ∧
       (s.loop 2).results.find? (fun z => z.slot == 48000) = some { slot := 48000, y := 55, q := 3 }) ∧
    (let s := loopS id
     alive s = true ∧ (s.loop 2).results = [] ∧ (s.loop 2).again = false ∧ (s.loop 2).hist 48000 = true ∧ (loopCfgAt s 2 48000).valid = true) ∧
    (let s := loopS (fun z => { z with again := true })
     alive s = true ∧ (s.loop 2).next = 48000 ∧ (s.loop 2).results = [] ∧ (s.loop 2).again = true ∧ (loopCfgAt s 2 48000).valid = true) ∧
    (let s := loopS (fun z => { z with first := none })
     alive s = true ∧ (s.loop 2).next = 48000 ∧ (s.loop 2).results = [] ∧ (s.loop 2).hist 48000 = false ∧ (loopCfgAt s 2 48000).valid = true) ∧
    (let s := loopS (fun z => { z with run := 3 })
     alive s = true ∧ (loopCfg s 2).valid = true ∧ (loopCfg s 2).missLimit = 3 ∧ (s.loop 2).run = 3 ∧
       (s.loop 2).limited = false) := by decide +kernel

/-- Lane 4 alone, owned by partition 0, on block input 1, whose pin is low. -/
def laneS (e : Bool) : Machine.State := (State.cfgs { up with lp.pins := [(1, false)] } [(0x90040, 4, 2 ^ 31 + 2 ^ 19 + 0xF), (0x90044, 4, 500), (0x90048, 4, 1000),
  (0x9004C, 4, 4000), (0x90058, 4, 700), (0x9005C, 4, 900), (0x90100, 0, 2 ^ 9)]).updLane 4 (fun z => { z with
    running := true, start := 20000000000, period := 2000, wp := 500, raw := 2000, ending := e })
theorem witness_Lanes :
    (∀ e ∈ [true, false], alive (laneS e) = true ∧ ((laneS e).lane 4).running = true ∧ ((laneS e).lane 4).ending = e) ∧
    ((laneCfg (laneS true) 4).cmp0 = 700 ∧ 700 < ((laneS true).lane 4).period ∧ (laneCfg (laneS true) 4).cmp1 = 900) ∧
    (pinAsserted ((laneS true).runTo 0) 1 = false ∧ (laneCfg ((laneS true).runTo 0) 4).valid = true ∧
      (laneCfg ((laneS true).runTo 0) 4).mask / 2 ^ 1 % 2 = 1) ∧
    (coreRuns ((laneS true).runTo 0) 0 = true ∧ hearthOwner ((laneS true).runTo 0) 0 = 0 ∧ domSt ((laneS true).runTo 0) 10 = .run ∧
      bit 0x10 4 = true ∧ ∀ k, k < 24 → bit 0x10 k = true → laneHead ((laneS true).runTo 0) (k / 2 * 2 + 1) ≠ k / 2 * 2) := by
  decide +kernel

/-! The green and the ports. -/

def plain : List (BitVec 8) := pad (hdr 0x1234)
def frameAt (q cls : Nat) : GFrame := { id := 4, octets := plain, src := .ext 10, cls := cls, outs := [{ port := q }], sp := 1 }
/-- Port 11 enabled, half duplex and preemption allowed, and 10 enabled, with a MAC state and frames. -/
def ports (f : Mac → Mac) (fs : List GFrame) : Machine.State :=
  (State.cfgs { up with gn.frames := fs, gn.nextId := 5 } [(0xF0004, 10, 2 ^ 31), (0xF0004, 11, 2 ^ 31 + 2 ^ 27 + 2 ^ 25 + 2 ^ 22 + 2 ^ 21 + 4),
    (0xF0008, 11, 500)]).updMac 11 f
theorem witness_Admission :
    (let s := ports id []
     ([10, 11].filter (fun q => admits s q 7)) = [10, 11] ∧ (∀ q ∈ [10, 11], q < 13 → macEn s q = true ∧ pastHold s q = false)) ∧
    (let s := State.cfgs (ports id []) [(0xE0180, 11 * 256, 0)]
     (([] : List Nat).filter (fun q => admits s q 0)) = []) := by decide +kernel

def sending : TxRun := { id := 4, start := 2500000000, evt := {}, total := 64, out := plain }
theorem witness_FrameTransmission :
    (let x := (ports id [frameAt 11 7]).runTo 0
     portLive x 11 = true ∧ (x.mac 11).link = true ∧ (x.mac 11).backoff = none ∧ (x.mac 11).tx = none ∧ (x.mac 11).susp = none ∧
       chooseFrame x 11 = some (frameAt 11 7, [], 0) ∧ staleAt x 11 (frameAt 11 7) = false) ∧
    (let x := (ports (fun m => { m with tx := some sending }) [frameAt 11 7]).runTo 0
     portLive x 11 = true ∧ (x.mac 11).tx = some sending ∧ (x.mac 11).half = false) := by decide +kernel

def fault (a b c : Bool) : RxFlags := { codeErr := a, fcsErr := b, fragErr := c }
/-- Entry 3 of the table matches all frames of port 10: to port 11, or to none. -/
def table (w5 : Nat) : Machine.State := State.cfgs (ports id []) [(0xE0140, 3, 2 ^ 31 + 2 ^ 10), (0xE0154, 3, w5)]
/-- Ring 0 of partition 0 takes the frames of port 10 and has one buffer at 0x9000 in flight; a frame for it waits. -/
def receiving (w : Bool) : Machine.State :=
  let f := { frameAt 19 0 with target := some (0, 0), waived := w }
  { State.cfgs (ports id [f]) [(0xC0010, 0, 2 ^ 31 + 3 * 2 ^ 24 + 4 * 2 ^ 16), (0xC0018, 0, 10 * 2 ^ 16)] with
    db.rings := [(0, { pi := 1, fi := 1, nextId := 1, flights := [{ id := 0, words := [0x12, 0, 0x9000, 0, 1536, 0, 0, 0] }] })] }
theorem witness_FrameReception :
    (let x := (ports id []).runTo 0
     portLive x 10 = true ∧ macEn x 10 = true ∧ (fault true false false).fragErr = false ∧ (fault true false false).codeErr = true ∧
       (fault false true false).fcsErr = true ∧ (fault false false false).smd = false ∧
       (((ports (fun m => { m with preempt := true }) []).runTo 0).mac 10).preempt = false ∧
       (((ports (fun m => { m with preempt := true }) []).runTo 0).mac 11).preempt = true) ∧
    ((plain.take 59).length < 60 ∧ 1518 < (plain ++ List.replicate 1459 0).length) ∧
    (∀ w ∈ [2 ^ 31, 2 ^ 11], let x := (table w).runTo 0
     portLive x 10 = true ∧ macEn x 10 = true ∧ 60 ≤ plain.length ∧ plain.length ≤ 1518 ∧ be plain 12 2 ≠ 0x8808 ∧ ptpOff plain = none ∧
       x.gn.swapAt ≤ x.tb.edge - 0 ∧ classify (bankAt x (x.tb.edge - 0)) 10 plain = some 3 ∧
       bit (clsWord (bankAt x (x.tb.edge - 0)) 3 5) 31 = decide (w = 2 ^ 31) ∧ bit (clsWord (bankAt x (x.tb.edge - 0)) 3 5) 30 = false ∧
       ((List.range 13).filter (fun k => bit (clsWord (bankAt x (x.tb.edge - 0)) 3 5) k && k != 10)) = if w = 2 ^ 31 then [] else [11]) := by decide +kernel
/-- The deficits and the turn that class 0 leaves on output 19. -/
def drrTurn : Tbl Nat × Nat := ((chooseFrame ((receiving true).runTo 0) 19).map Prod.snd).getD ([], 0)
theorem witness_FrameReception_delivery :
    (∀ w ∈ [true, false], let x := (receiving w).runTo 0
     alive x = true ∧ chooseFrame x 19 = some ({ frameAt 19 0 with target := some (0, 0), waived := w }, drrTurn) ∧ (ringCfg x 0 0).en = true ∧
       (ringCfg x 0 0).type = 3 ∧ (ringCfg x 0 0).port = 10 ∧
       ((x.ring 0 0).flights.find? (fun g => !g.fence && g.res.isNone && opcodeOf g.words == 0x12)).isSome = true) := by decide +kernel

theorem witness_Links :
    (let x := (ports id [frameAt 11 7]).runTo 0
     portLive x 11 = true ∧ (x.mac 11).link = true ∧ (x.mac 11).half = false ∧ bit (macCfg x 11) 25 = true ∧ macHold x 11 = 500) ∧
    (let x := (ports (fun m => { m with verify := some 3, verifyAt := 2499000000 }) []).runTo 0
     alive x = true ∧ (x.mac 11).verify = some 3 ∧ portLive x 11 = true ∧ (x.mac 11).link = true) ∧
    (((ports (fun m => { m with verify := some 2 }) []).mac 11).verify = some 2) ∧
    (let x := (ports (fun m => { m with link := false, downAt := some 2499999000 }) [frameAt 11 7]).runTo 0
     portLive x 11 = true ∧ (x.mac 11).link = false ∧ macEn x 11 = true ∧ fld (macCfg x 11) 30 28 = 0 ∧ speedOk 11 2 = true ∧
       (x.mac 11).optics.lowPower = false ∧ (x.mac 11).downAt = some 2499999000 ∧ alive x = true) := by decide +kernel

def stopped : Machine.State := ports (fun m => { m with pause := some 2500001000, pfc := [(2, 2500002000)] }) []
/-- A Follow_Up for port 11 that came in by port 10, both with PTP, on a transparent clock, without its Sync. -/
def followUp : GFrame := { frameAt 11 7 with octets := pad (hdr 0x88F7 ++ [8]) }
def following : Machine.State := State.cfgs (ports id [followUp]) [(0x40, 0, 2 ^ 20 + 2 ^ 10 + 2 ^ 11)]
theorem witness_PausesAndCollisions :
    (let x := (ports id []).runTo 0
     portLive x 11 = true ∧ (x.mac 11).half = false ∧ bit (macCfg x 11) 22 = true ∧ bit (macCfg x 11) 21 = true ∧
       4 / 2 ^ 2 % 2 = 1 ∧ bit (macCfg x 11) 2 = true) ∧
    (alive stopped = true ∧ (stopped.mac 11).pause = some 2500001000 ∧ ∀ z ∈ (stopped.mac 11).pfc, 2500001000 ≤ z.2) ∧
    (let x := (ports (fun m => { m with half := true, tries := 14, tx := some { sending with start := 2499999000 } }) [frameAt 11 7]).runTo 0
     portLive x 11 = true ∧ (x.mac 11).tx = some { sending with start := 2499999000 } ∧ (x.mac 11).half = true ∧
       octetsIn (x.mac 11).speed (x.tb.edge - 2499999000) < 64 ∧ (x.mac 11).tries < 15 ∧ findFrame x 4 = some (frameAt 11 7)) ∧
    (let s := ports (fun m => { m with half := true, backoff := some 4 }) [frameAt 11 7]
     alive s = true ∧ (s.mac 11).backoff = some 4 ∧ findFrame s 4 = some (frameAt 11 7) ∧ (s.mac 11).link = true ∧ (s.mac 11).tx = none ∧
       staleAt s 11 (frameAt 11 7) = false) := by decide +kernel
theorem witness_PausesAndCollisions_followUp : alive following = true ∧ (following.gn.frames.flatMap (fun f =>
    (f.outs.filter (fun o => !o.going && followUpWaits following f o.port)).map (fun o => (f, o))))[0]? = some (followUp, { port := 11 }) := by
  decide +kernel

def fibre : Machine.State := ports id [] |>.updMac 9 (fun m => { m with
  optics := { m.optics with diag2 := 0, pageA0 := List.replicate 92 0 ++ [0x40] ++ List.replicate 35 0 } })
theorem witness_Optics : (9 < 10 ∧ ((fibre.runTo 0).mac 9).link = true) ∧ portLive (fibre.runTo 0) 9 = true ∧
    modAbs ((fibre.runTo 0).mac 9).optics = false ∧ be ((fibre.runTo 0).mac 9).optics.pageA0 92 1 / 64 % 2 = 1 := by decide +kernel

/-! The orchard. -/

/-- The root and nodes 5 (every use but signing) and 6 (signing) are LIVE and partition 0's; the key ring holds a descriptor. -/
def keyS (ws : List Nat) : Machine.State :=
  let x := submit up 0x11 ws (cells 0x3000 (List.replicate 64 1))
  { x with
    ok.unsealed := true
    ok.nodes := [(0, { st := .live, attr := 0x108, key := List.replicate 32 2 }), (5, { st := .live, depth := 1, attr := 0x12F, uses := some 3, key := List.replicate 32 3 }),
      (6, { st := .live, depth := 1, attr := 0x210, key := List.replicate 48 4 })] }
def keyDer : Machine.State := keyS [0x31 + 7 * 65536, 0, 5, 0x102, 0, 4, 0, 0, 0x41424344]
def keyImp : Machine.State := keyS [0x32 + 7 * 65536, 0, 5, 0x004, 0, 0, 0x3000, 0, 0x3010, 0, 44]
def keyRev : Machine.State := keyS [0x34 + 5 * 65536]
def pendDer : KeyPend := { ring := 0, flight := 9, node := 7, applyEdge := 2500000100, order := 1, kind := .derive_ 5 0x102 0 0 [1] }
def pendRev : KeyPend := { ring := 0, flight := 8, node := 5, applyEdge := 2500000100, order := 0, kind := .revoke }
def pendS (l : List KeyPend) : Machine.State := { keyS [0] with ok.pends := l }
theorem witness_KeyChanges :
    (fetchOk keyDer 0 0 0x31 = true ∧ (let y := got keyDer 0 0
      isStandby y.1 = false ∧
      makeCheck y.1 0 y.2.words 3 (1 ≤ fld (dw y.2.words 5) 5 0 && fld (dw y.2.words 5) 5 0 ≤ 32) = stDone)) ∧
    (fetchOk keyImp 0 0 0x32 = true ∧ (let y := got keyImp 0 0
      (devRead y.1 0 (if y.1.pr.position = 0 then addr48 y.2.words 6 else addr48 y.2.words 8) (fld (dw y.2.words 10) 7 0)).isSome = true ∧
      makeCheck y.1 0 y.2.words 2 (fld (dw y.2.words 10) 7 0 == 44 || fld (dw y.2.words 10) 7 0 == 60 ||
        fld (dw y.2.words 10) 7 0 == 76) = stDone)) ∧
    (fetchOk keyRev 0 0 0x34 = true ∧ (let y := got keyRev 0 0
      y.1.ok.latched = false ∧ keyResOk y.2.words = true ∧ keyNode y.2.words ≠ 0 ∧ lcState y.1 ≠ 4 ∧
      (y.1.node (keyNode y.2.words)).st = .live)) ∧
    (sortBy pendBefore (pendS [pendDer]).ok.pends = [pendDer] ∧ ((pendS [pendDer]).node 5).st = .live) ∧
    (sortBy pendBefore (pendS [pendRev, pendDer]).ok.pends = [pendDer, pendRev] ∧ (pendS [pendRev]).ok.pends = [pendRev] ∧
      isUnder (pendS [pendRev]) 8 5 5 = true) := by decide +kernel

def keyMacS (g : Nat) : Machine.State := keyS [0x35 + 5 * 65536, 0, g, 0x3000, 0, 32]
def keyAeadS (d : Nat) : Machine.State := keyS [0x36 + 5 * 65536 + d * 512, 0, 0x3000, 0, 32, 8, 0x4000]
def keySignS : Machine.State := keyS [0x37 + 6 * 65536, 0, 0x3000, 0, 0x4000]
def keyExpS : Machine.State := keyS [0x33 + 5 * 65536, 0, 5, 0x4000]
def keyPubS : Machine.State := keyS [0x38 + 6 * 65536, 0, 0, 0, 0x4000]
def keyInfoS : Machine.State := keyS [0x39 + 5 * 65536]
def using_ : Machine.State := { keyS [0] with ok.uses := [{ id := 4, part := 0, ring := 0, flight := 2, nodes := [5], key := [1], kind := .hmac [7] }] }
theorem witness_KeyUses :
    (∀ g ∈ [0, 1], fetchOk (keyMacS g) 0 0 0x35 = true ∧ (let y := got (keyMacS g) 0 0
      keyNode y.2.words = 5 ∧ keyResOk y.2.words = true ∧ bit (dw y.2.words 2) 0 = (g == 1) ∧
      (devRead y.1 0 (addr48 y.2.words 3) (fld (dw y.2.words 5) 15 0)).isSome = true ∧
      ringUse y.1 0 5 (if bit (dw y.2.words 2) 0 then 0 else 1) false = stDone)) ∧
    (∀ d ∈ [0, 1], fetchOk (keyAeadS d) 0 0 0x36 = true ∧ (let y := got (keyAeadS d) 0 0
      keyNode y.2.words = 5 ∧ keyResOk y.2.words = true ∧ bit (dw y.2.words 0) 9 = (d == 1) ∧
      (devRead y.1 0 (addr48 y.2.words 2) (fld (dw y.2.words 4) 15 0)).isSome = true ∧
      fld (dw y.2.words 5) 15 0 ≤ fld (dw y.2.words 4) 15 0 ∧
      canAccess y.1 0 .devWrite (addr48 y.2.words 6) (fld (dw y.2.words 4) 15 0 - fld (dw y.2.words 5) 15 0) = true ∧
      ringUse y.1 0 5 2 false = stDone)) ∧
    (fetchOk keySignS 0 0 0x37 = true ∧ (let y := got keySignS 0 0
      keyNode y.2.words = 6 ∧ keyResOk y.2.words = true ∧ (devRead y.1 0 (addr48 y.2.words 2) 48).isSome = true ∧
      canAccess y.1 0 .devWrite (addr48 y.2.words 4) 96 = true ∧ ringUse y.1 0 6 4 false = stDone)) ∧
    (fetchOk keyExpS 0 0 0x33 = true ∧ (let y := got keyExpS 0 0
      keyNode y.2.words = 5 ∧ keyResOk y.2.words = true ∧ fld (dw y.2.words 2) 11 0 = 5 ∧
      canAccess y.1 0 .devWrite (addr48 y.2.words 3) (28 + klenBytes (y.1.node 5).attr) = true ∧
      ringUse y.1 0 5 5 false = stDone ∧ ringUse y.1 0 5 2 false = stDone)) ∧
    (fetchOk keyPubS 0 0 0x38 = true ∧ (let y := got keyPubS 0 0
      keyNode y.2.words = 6 ∧ keyResOk y.2.words = true ∧ canAccess y.1 0 .devWrite (addr48 y.2.words 4) 97 = true ∧
      ringUse y.1 0 6 4 false = stDone)) ∧
    (fetchOk keyInfoS 0 0 0x39 = true ∧ (let y := got keyInfoS 0 0
      keyNode y.2.words = 5 ∧ keyResOk y.2.words = true ∧ y.1.ok.latched = false ∧ lcState y.1 ≠ 4 ∧ (y.1.node 5).owner = 0 ∧
      (y.1.node 5).st = .live)) ∧
    (alive (using_.runTo 0) = true ∧ ((using_.runTo 0).ok.uses.find? (fun u => u.id == 4)).isSome = true) := by decide +kernel

def lcS (d : Nat) : Machine.State := keyS [0x3A, 0, d]
def fusing (d : Nat) : Machine.State := { keyS [0] with ok.fusing := [LcReq.mk 0 2 d none] }
theorem witness_LifeCycle :
    (∀ d ∈ [1, 4, 3], fetchOk (lcS d) 0 0 0x3A = true ∧ (let y := got (lcS d) 0 0
      fld (dw y.2.words 2) 2 0 = d ∧ y.1.ok.latched = false ∧ keyResOk y.2.words = true ∧
      lcPermitted (lcState y.1) d = if d = 3 then none else some (false, false))) ∧
    (∀ d ∈ [1, 3, 4], alive ((fusing d).runTo 0) = true ∧ ((fusing d).runTo 0).ok.fusing = [LcReq.mk 0 2 d none]) := by decide +kernel

def tampered (a : BitVec 5) : Machine.State := { keyS [0] with ok.latched := true, ok.seen := 3, ok.active := a, ok.fused := 2, ok.service := a == 0 }
theorem witness_Tampering :
    (CoreOf ((tampered 0).runTo 0) 0 0 ∧ domSt ((tampered 0).runTo 0) 1 = .run ∧ lcState ((tampered 0).runTo 0) = 3 ∧
      ((tampered 0).runTo 0).ok.active = 0) ∧
    (let x := ({ keyS [0] with pw.st := .off } : Machine.State).runTo 0
     x.pw.st = .off ∧ 2 ≤ 3) ∧
    (alive ((keyS [0]).runTo 0) = true ∧ ((keyS [0]).runTo 0).ok.latched = false ∧ ((keyS [0]).runTo 0).pw.st ≠ .off) ∧
    (CoreOf ((tampered 1).runTo 0) 0 0 ∧ lcState ((tampered 1).runTo 0) ≠ 3 ∧ ((tampered 1).runTo 0).ok.active ≠ 0) ∧
    bit 0x80000000 31 = true := by simp only [CoreOf]; decide +kernel

/-! The pair. -/

/-- A unit of pair 7 that sends beacons on P0, with windows of 2 us and 20 us, revertive with a hold-off of 1 s. -/
def pairS (f : PrState → PrState) (g : PrRun → PrRun) : Machine.State :=
  let x := State.cfgs up [(0x110000, 0, 7 * 65536 + 32768 + 1), (0x110004, 0, 2 ^ 20 + 20 * 2 ^ 14 + 2 * 256)]
  { x with pr := f x.pr, pu := g x.pu }
def bcn (pos : Nat) (role : PRole) (sync : PSync) : Beacon :=
  { position := pos, role := role, sync := sync, fit := true, mateUp := true, pairId := 7, sent := {} }
def hbeat (role : PRole) : Heartbeat := { role := role, platform := 1 }
def standbyS (sync : PSync) (g : PrRun → PrRun) : Machine.State :=
  pairS (fun z => { z with role := .standby, sync := sync, m0Up := true, hb0 := some 2499999900, bcnAt := some 2499999800 }) g
def dualS (pos : Nat) : Machine.State := pairS (fun z => { z with position := pos, sync := .synced }) id
theorem witness_MateLink :
    (let x := (pairS id id).runTo 0
     pairLive x = true ∧ outputsLive x = true ∧ (x.mac 8).link = true ∧ (x.mac 9).link = true ∧ (bcnPorts x / 2 ^ 0) % 2 = 1 ∧ portLive x 0 = true ∧
       (bcn 1 .standby .synced).pairId = pairId x ∧ { bcn 1 .standby .synced with pairId := 8 }.pairId ≠ pairId x ∧
       (bcn 1 .standby .synced).position ≠ x.pr.position ∧ (bcn 0 .standby .synced).position = x.pr.position ∧
       (bcn 0 .standby .synced).magic = 0x4942 ∧ (bcn 0 .standby .synced).version = 1 ∧ (hbeat .standby).role ≠ .active) ∧
    (let s := standbyS .synced id
     pairLive s = true ∧ s.pr.hb0 = some 2499999900 ∧ s.pr.m0Up = true ∧ s.pr.m1Up = false ∧ s.pr.bcnAt = some 2499999800 ∧
       s.pr.beaconLost = false ∧ s.pr.role = .standby ∧ s.pw.step ≠ 9) ∧
    (∀ pos ∈ [0, 1], let x := (dualS pos).runTo 0
     pairLive x = true ∧ x.pr.role = .active ∧ portLive x 0 = true ∧ (bcn (1 - pos) .active .synced).pairId = pairId x ∧
       (bcn (1 - pos) .active .synced).position ≠ x.pr.position ∧ x.pr.position = pos) := by decide +kernel
theorem witness_MateLink_oneLink : (((up.updMac 9 (fun m => { m with link := false })).runTo 0).mac 9).link = false ∧
    (((up.updMac 9 (fun m => { m with link := false })).runTo 0).mac 8).link = true := by decide +kernel
/-- What TAKEOVER answers. -/
def takenOver : Machine.State := match exec .takeover (standbyS .synced id) with | .next y => y | _ => Machine.State.reset
theorem witness_MateLink_takeover : exec .takeover (standbyS .synced id) = .next takenOver ∧ takenOver.pr.role = .active := by
  constructor
  · rfl
  · decide +kernel

def negS (a s : Bool) (pos : Nat) : Machine.State := let x := pairS (fun z => { z with
    role := .negotiating, position := pos, seenActive := a, seen := s }) id
  { x with pw.step := 8, pw.holdupOk := false }
/-- 65 posts of one class stand in the 64 slots of hearth 0. -/
def crowded : Machine.State := up.updSched 0 (fun z => { z with
  posts := List.replicate 65 { cls := .peer, src := 1, ident := 0, task := 5, payload := 9 } })
theorem witness_Roles :
    (∀ a ∈ [true, false], let s := negS a (!a) 1
     alive s = true ∧ s.pr.role = .negotiating ∧ s.pw.step = 8 ∧ s.pw.safe = false ∧ s.pw.holdupOk = false) ∧
    (let s := standbyS .synced id
     pairLive s = true ∧ s.pr.role = .standby ∧ bcnPorts s ≠ 0 ∧ (takeoverEdge s).isSome = true ∧ s.pw.step ≠ 9) ∧
    (∀ r, r ∈ [1, 2, 3, 4, 5, 6] → uneven up r = false) ∧ uneven crowded 4 = true := by decide +kernel

def frameId : FrameId := .goose 1 [0x41] 3 4
def heldF : OutFrame := { id := frameId, octets := plain, ports := [0], cls := 7, owner := 1 }
def handed (out : Nat) : Decision := .handOff 1 48000 out
def delta (n : Nat) : DeltaItem := { seq := n, kind := .txnBegin 3, status := stDone }
theorem witness_StateDelta :
    (let x := (standbyS .synced (fun z => { z with inSeq := 5 })).runTo 0
     pairLive x = true ∧ x.pr.role = .standby ∧ x.pr.sync = .synced ∧ (delta 4).seq < x.pu.inSeq ∧ (delta 5).seq = x.pu.inSeq ∧
       (x.txn 3).st = .idle ∧ openTxns x < 8 ∧ x.pu.inSeq < (delta 6).seq) ∧
    (let x := (standbyS .syncing id).runTo 0
     pairLive x = true ∧ x.pr.role = .standby ∧ x.pr.sync = .syncing ∧ x.pu.since = none) ∧
    (let x := (standbyS .synced (fun z => { z with mine := [(handed 1, 47999)] })).runTo 0
     pairLive x = true ∧ x.pr.role = .standby ∧ x.pu.mine.find? (fun z => sameDecision z.1 (handed 1)) = some (handed 1, 47999) ∧
       x.pu.mine.find? (fun z => sameDecision z.1 (handed 2)) = some (handed 1, 47999) ∧ handed 1 ≠ handed 2 ∧
       x.pu.mine.find? (fun z => sameDecision z.1 (.loop 3 48000 1)) = none) ∧
    ((standbyS .synced (fun z => { z with theirs := [(handed 1, 47997)] })).pu.theirs = [(handed 1, 47997)]) ∧
    (let x := (standbyS .synced (fun z => { z with held := [heldF] })).runTo 0
     x.pu.held.any (fun f => f.id == frameId) = true) ∧
    (let x := (standbyS .synced (fun z => { z with done_ := [(frameId, 2499999000)] })).runTo 0
     x.pu.held.any (fun f => f.id == frameId) = false ∧ settledSince x frameId x.pu.done_ = true) ∧
    (let x := (standbyS .synced id).runTo 0
     x.pu.held.any (fun f => f.id == frameId) = false ∧ settledSince x frameId x.pu.done_ = false) := by decide +kernel

def askS : Machine.State := let x := standbyS .cold id
  { x with pr.neighCls := some 1, pw.platform := 1, pw.matrix := [((2, 1), 2, 1)] }
def snapS : Snap := { slot := 48000, seq := 3 }
theorem witness_Resynchronisation :
    (let x := askS.runTo 0
     pairLive x = true ∧ x.pr.role = .standby ∧ x.pr.sync = .cold ∧ mateUp x = true ∧ platformsPaired x = true ∧ x.pw.step ≠ 9) ∧
    (let s := pairS id (fun z => { z with snapSlot := some 48016 })
     pairLive s = true ∧ s.pr.role = .active ∧ s.pu.snapSlot = some 48016) ∧
    (let x := (standbyS .syncing id).runTo 0
     x.pr.role = .standby ∧ x.pr.sync = .syncing ∧ x.pu.since = none ∧ x.pu.items = []) ∧
    (let s := standbyS .syncing (fun z => { z with since := some 47000 })
     pairLive s = true ∧ s.pr.role = .standby ∧ s.pr.sync = .syncing ∧ s.pu.since = some 47000) := by decide +kernel

def readyS (pos : Nat) (sw : Option Switchover) (g : PrRun → PrRun) : Machine.State := pairS (fun z => { z with
  position := pos, m0Up := true, hb0 := some 2499999900, bcnAt := some 2750000000, neigh := some (bcn (1 - pos) .standby .synced), sw := sw }) g
def sw (a o k r : Bool) : Switchover := { at_ := sec16 11, acked := a, goSent := o, goAcked := k, goReceived := r }
theorem witness_Switchovers :
    (let x := (readyS 0 none id).runTo 0
     CoreOf x 0 0 ∧ domSt x 2 = .run ∧ bit 1 0 = true ∧ x.pr.role = .active ∧ neighReady x = true ∧ mateUp x = true ∧ x.pr.sw = none) ∧
    (let x := (pairS id id).runTo 0
     CoreOf x 0 0 ∧ domSt x 2 = .run ∧ x.pr.role = .active ∧ neighReady x = false) ∧
    (let s := readyS 1 none (fun z => { z with holdFrom := some 2499999000 })
     pairLive s = true ∧ s.pu.holdFrom = some 2499999000 ∧ bit (s.cfg 0x110000 0) 15 = true ∧ s.pr.role = .active ∧ s.pr.position = 1 ∧
       neighReady (s.runTo (2499999000 + secEdges (holdOff s))) = true ∧ mateUp s = true ∧ s.pr.sw = none) ∧
    (let x := (readyS 0 (some (sw true true false false)) id).runTo 0
     pairLive x = true ∧ x.pr.role = .active ∧ x.pr.sw = some (sw true true false false) ∧ now16 x < sec16 11) ∧
    (let s := pairS (fun z => { z with role := .standby, sw := some (sw true false false true) }) id
     pairLive s = true ∧ s.pr.role = .standby ∧ s.pr.sw = some (sw true false false true)) := by simp only [CoreOf]; decide +kernel

/-! Storage, the tally, power. -/

def obj : Obj := { name := [0x41], data := List.replicate 20 6, ver := 3, extents := [(0, 1)] }
/-- Storage is ready and holds one object in region 0; its ring has a descriptor. -/
def stS (ws : List Nat) (f : StState → StState) : Machine.State :=
  let x := submit up 0x12 ws (cells 0x3000 (List.replicate 64 1))
  { x with st := f { x.st with ready := true, objects := [(0, [obj])], nextVer := 4, nextId := 9, blocks := [(0, { st := .data })], fill := [(0, (0, 1))] } }
def stOp (k : OpKind) : StOp := { id := 5, kind := k, ring := 0, flight := 8, tag := 7, region := 0, name := [0x41], objs := [([0x42], [1, 2])] }
def stW : Machine.State := stS [0xC1, 0, 0x3000, 0, 64, 0x100, 0, 0, 0x42] id
def stR : Machine.State := stS [0xC2, 0, 0x4000, 0, 10, 0x100, 15, 0, 0x41] id
def stD : Machine.State := stS [0xC3, 0, 0, 0, 0, 0x100, 0, 0, 0x41] id
def stL : Machine.State := stS [0xC4, 0, 0, 0, 0, 0] id
def stA : Machine.State := stS [0xC5, 0, 7] (fun z => { z with ops := [stOp .write] })
def stC : Machine.State := let x := stS [0xC6, 0, 5] id
  { x with ok.service := true, ok.nodes := [(5, { st := .live, attr := 0x102, madeIn := 3 })] }
theorem witness_StorageCommands :
    (fetchOk stW 0 0 0xC1 = true ∧ (let y := got stW 0 0
      (stRegion y.2.words = 0 ∧ stResOk y.2.words = true ∧ stBusy y.1 = false ∧ nameOk y.2.words = true) ∧ (dw y.2.words 4).toNat = 64 ∧
      64 ≤ regionCapacity 0 ∧ (devRead y.1 0 (addr48 y.2.words 2) (dw y.2.words 4).toNat).isSome = true ∧ pagesOf 64 ≤ freePages y.1 0)) ∧
    (fetchOk stR 0 0 0xC2 = true ∧ (let y := got stR 0 0
      (stRegion y.2.words = 0 ∧ stResOk y.2.words = true ∧ stBusy y.1 = false ∧ nameOk y.2.words = true) ∧ (dw y.2.words 4).toNat = 10 ∧
      findObj y.1 0 (stName y.2.words) = some obj ∧ canAccess y.1 0 .devWrite (addr48 y.2.words 2) 10 = true)) ∧
    (fetchOk stD 0 0 0xC3 = true ∧ (let y := got stD 0 0
      stRegion y.2.words = 0 ∧ stResOk y.2.words = true ∧ stBusy y.1 = false ∧ nameOk y.2.words = true ∧
      (findObj y.1 0 (stName y.2.words)).isSome = true)) ∧
    (fetchOk stL 0 0 0xC4 = true ∧ (let y := got stL 0 0
      stRegion y.2.words = 0 ∧ stResOk y.2.words = true ∧ stBusy y.1 = false ∧ (objectsOf y.1 0)[fld (dw y.2.words 2) 15 0]? = some obj)) ∧
    (fetchOk stA 0 0 0xC5 = true ∧ (let y := got stA 0 0
      stResOk y.2.words = true ∧ stBusy y.1 = false ∧
      (y.1.st.ops.find? (fun o => o.kind == .write && o.ring == 0 && o.tag == dw y.2.words 2)) = some (stOp .write))) ∧
    (fetchOk stC 0 0 0xC6 = true ∧ (let y := got stC 0 0
      stResOk y.2.words = true ∧ stBusy y.1 = false ∧ fld (dw y.2.words 2) 11 0 = 5 ∧ clearStatus y.1 5 = stDone)) := by decide +kernel

def stRead (b : Bool) : StRead := { id := 6, ring := 0, flight := 8, tag := 7, part := 0, dst := 0x5000, data := [1, 2], ver := 3, bad := b, region := 0 }
def stGoing : Machine.State := stS [0] (fun z => { z with
  ops := [stOp .write, { stOp .delete with id := 7 }], reads := [stRead false, { stRead true with id := 8 }]
  blocks := [(0, { st := .data }), (1, { st := .awaiting }), (2, { st := .data, erase := 1001 }), (3, { erase := 2 })] })
/-- Every block of region 3 holds data, and block 0 has been erased 2,000 times. -/
def fullRegion : Machine.State := stS [0] (fun z => { z with
  blocks := (0, { st := .data, erase := 2000 }) :: (List.range (regionBlocks 3)).map (fun i => (regionFirst 3 + i, { st := .data })) })
theorem witness_StorageProgress :
    (let x := stGoing.runTo 0
     (alive x = true ∧ x.st.ops.find? (fun z => z.id == 5) = some (stOp .write) ∧
       x.st.ops.find? (fun z => z.id == 7) = some { stOp .delete with id := 7 } ∧
       x.st.reads.find? (fun z => z.id == 6) = some (stRead false) ∧ x.st.reads.find? (fun z => z.id == 8) = some { stRead true with id := 8 }) ∧
     ((x.blk 1).st = .awaiting ∧ (x.blk 0).st = .data) ∧
     sortBy (fun a b : Nat × Blk => decide (a.2.erase ≤ b.2.erase))
        ((x.st.blocks.filter (fun e => e.2.st != .retired)).filter (fun e => e.2.st == .data &&
          decide (e.2.erase + 1000 < (x.st.blocks.filter (fun e => e.2.st != .retired)).foldl (fun a e => max a e.2.erase) 0))) =
       [(0, { st := .data })] ∧
     (lowestErase x (regionBlockList x (blkRegion x 0))).isSome = true) ∧
    (let x := fullRegion.runTo 0
     alive x = true ∧ lowestErase x (regionBlockList x (blkRegion x 512)) = none ∧
       (sortBy (fun a b : Nat × Blk => decide (a.2.erase ≤ b.2.erase))
        ((x.st.blocks.filter (fun e => e.2.st != .retired)).filter (fun e => e.2.st == .data &&
          decide (e.2.erase + 1000 < (x.st.blocks.filter (fun e => e.2.st != .retired)).foldl (fun a e => max a e.2.erase) 0)))).head? =
       some (512, { st := .data })) := by
  decide +kernel

def tyRec (t : Nat) (d : BitVec 32) : TyRec := { type := t, detail := d }
def tyS (o : Option TyRec) (full : Bool) : Machine.State := { up with ty.open_ := o, ty.full := full }
theorem witness_Tally :
    (∀ f ∈ [true, false], let x := (tyS none f).runTo 0
     CoreOf x 0 0 ∧ domSt x 11 = .run ∧ x.ty.clearing = false ∧ x.ty.open_ = none ∧ x.ty.full = f) ∧
    ((tyS (some (tyRec (0x80 + fld 0x30005 19 16) (BitVec.ofNat 32 (fld 0x30005 15 0)))) false).ty.open_ = some (tyRec 0x83 5)) ∧
    (CoreOf (up.runTo 0) 1 1 ∧ CoreOf ((up.setCfg 0x130004 0 0x80000007).runTo 0) 0 0 ∧
      bit (((up.setCfg 0x130004 0 0x80000007).runTo 0).cfg 0x130004 0) 31 = true ∧ 252 < 249 + 4 ∧
      bit (((up.setCfg 0x130004 0 7).runTo 0).cfg 0x130004 0) 31 = false ∧ CoreOf ((up.setCfg 0x130004 0 7).runTo 0) 0 0) ∧
    alive up = true := by simp only [CoreOf]; decide +kernel

def feeds (st : PwSt) (l : Tbl Feed) : Machine.State := { up with pw.st := st, pw.feeds := l }
def fd (g : Nat) : Feed := { present := true, cls := 8, grant := g }
def warmS (step : Nat) (doms : Tbl DomSt) : Machine.State := { up with pw.st := .warm, pw.step := step, pw.doms := doms, pw.stepAt := 2500000000 }
theorem witness_PowerAndStartUp :
    (powered ((feeds .run [(0, fd 713)]).runTo 0) = true ∧
      (let x := (feeds .keep []).runTo 0
       powered x = false ∧ x.pw.haltAt = none ∧ 680 ≤ feedSum { x with pw.feeds := Tbl.set {} x.pw.feeds 1 (Feed.mk true 8 (grantOf 8)) })) ∧
    (let x := (feeds .run [(0, fd 713), (1, fd 713)]).runTo 0
     (Tbl.get ({} : Feed) x.pw.feeds 0).present = true ∧ alive x = true ∧ anyFeed { x with pw.feeds := Tbl.set {} x.pw.feeds 0 {} } = true) ∧
    (let x := (feeds .run [(0, fd 713)]).runTo 0
     (Tbl.get ({} : Feed) x.pw.feeds 0).present = true ∧ alive x = true ∧ anyFeed { x with pw.feeds := Tbl.set {} x.pw.feeds 0 {} } = false ∧
       x.pw.holdupOk = true ∧ x.pw.step ≠ 9) ∧
    (((feeds .keep []).runTo 0).pw.st = .keep ∧ anyFeed ((feeds .keep []).runTo 0) = false) ∧
    (let s := { feeds .run [] with pw.lossAt := some 2499999000 }
     s.pw.lossAt = some 2499999000 ∧ anyFeed s = false) ∧
    (let x := (warmS 3 [(1, .run)]).runTo 0
     x.pw.st = .warm ∧ x.pw.step = 3 ∧ (nextDomain x) = some 11) ∧
    (let x := (warmS 3 [(1, .starting)]).runTo 0
     x.pw.st = .warm ∧ x.pw.step = 3 ∧ nextDomain x = some 1 ∧ (nextDomain { x with pw.doms := Tbl.set .off x.pw.doms 1 .run }).isSome = true) ∧
    (alive (warmS 7 []) = true ∧ (warmS 7 []).pw.step = 7) ∧
    (let s := { feeds .keep [] with pw.haltAt := some 2499999000 }
     s.pw.haltAt = some 2499999000 ∧ s.pw.dead = false ∧ s.pw.st = .keep) := by decide +kernel

/-! Well-formedness: each check refuses an ill-formed command and lets its neighbour pass. -/

theorem test_ptp_ports : wellFormed (.ptpMessageRx 0 8 { body := .management }) = false ∧
    wellFormed (.ptpMessageRx 0 7 { body := .management }) = true := by decide
theorem test_ptp_tx_ports : wellFormed (.ptpMessageTx 0 9 .sync) = false ∧ wellFormed (.ptpMessageTx 0 10 .sync) = true := by decide
theorem test_frames_fit : octetsOk (List.replicate 16385 0) = false ∧ octetsOk (List.replicate 16384 0) = true := by decide +kernel
theorem test_mac_width : wellFormed (.duplicateEntryForgotten 0 (2 ^ 48)) = false ∧ wellFormed (.duplicateEntryForgotten 0 (2 ^ 48 - 1)) = true := by
  decide
theorem test_access_size : wellFormed (.coreDramAccess 0 0 .load 0 3 0) = false ∧ wellFormed (.coreDramAccess 0 0 .load 4 8 0) = false ∧
    wellFormed (.coreDramAccess 0 0 .load 8 8 0) = true := by decide
theorem test_register_address : wellFormed (.stagedWrite 0 0 0x1000000002 0) = false ∧ wellFormed (.registerWrite 0 0 (2 ^ 64) 0) = false ∧
    wellFormed (.registerWrite 0 0 0x1000000004 0) = true := by decide
theorem test_pfc_times : wellFormed (.pfc 0 0 1 [1]) = false ∧ wellFormed (.pfc 0 0 1 [65536, 0, 0, 0, 0, 0, 0, 0]) = false ∧
    wellFormed (.pfc 0 0 1 [65535, 0, 0, 0, 0, 0, 0, 0]) = true := by decide
theorem test_optics_pages : wellFormed (.opticsPoll 0 0 (some [0])) = false ∧ wellFormed (.opticsPoll 0 0 none) = true ∧
    wellFormed (.transceiverInsertion 0 0 [] []) = false := by decide
theorem test_blocks : wellFormed (.eraseComplete 0 5344 true) = false ∧ wellFormed (.eraseComplete 0 5343 true) = true ∧
    wellFormed (.backgroundScrub 0 5344 0 0) = false := by decide
theorem test_tally_access : wellFormed (.tallyWindowRead 0 0 2 4) = false ∧ wellFormed (.tallyWindowRead 0 0 4 4) = true := by decide

/-! No row of the table has bits, so no word spells a command; a step takes the front of the queue, and idles without one. -/

theorem test_no_words : decodeTableWord 16 0x1234 = none := by decide
theorem test_reset_power : Machine.State.reset.pw.st = .warm ∧ Machine.State.reset.pending = [] := by decide

/-! Worked examples of the manual. -/

/-- 00, the time word of a slot edge. -/
theorem test_time_word : ({ t16 := t16Of 1800000000 257083333 21845, q := 0x49 } : Stamp).word = 0x000000006B49D2000F52C7C555550049 := by decide
theorem test_time_word_slot : slotT16 (1800000000 * 4800 + 1234) = t16Of 1800000000 257083333 21845 := by decide
/-- 02, the addend of a fast reference: −3,200 ppb. -/
theorem test_addend : addendOf (-3200 * 4096) = 0x3FFFF29406B := by decide
/-- 02, holdover: E = 21 ns at the entry. -/
theorem test_holdover_classes : [0, 833 * 10 ^ 6, 835 * 10 ^ 6, 16458 * 10 ^ 6, 16459 * 10 ^ 6].map (fun e =>
    errClass { st := .holdover, refTcxo := false, unknownErr := false, est := 21 * 10 ^ 10, estEdge := 0, edge := e }) = [0, 0, 1, 1, 2] := by
  decide
theorem test_holdover_tcxo : [1081 * 10 ^ 6, 38581 * 10 ^ 6, 413581 * 10 ^ 6].map (fun e =>
    errClass { st := .holdover, refTcxo := true, unknownErr := false, est := 741 * 10 ^ 10, estEdge := 0, edge := e }) = [3, 4, 5] := by decide
/-- 03, a stream lost for four slots: quality of a held, a missing and a lost sample. -/
theorem test_hold_quality :
    ((fillInstant { ste sub 0 with missInvalid := false } { vals := [(0, [{ v := 12345, q := 0 }])] } 0 1002).2.1.map (fun m => (m.v, m.q))) =
      [(12345, 0x00010083)] := by decide +kernel
theorem test_missing_quality :
    ((fillInstant (ste sub 0) { vals := [(0, [{ v := 12345, q := 0 }])], held := [(0, 1)] } 0 1003).2.1.map (fun m => (m.v, m.q))) =
      [(0, 0x00020001)] := by decide +kernel
theorem test_lost_quality : ((svSlot (ste sub 0) {} false 1004).2.1.map (fun e => e.2.map (fun m => (m.v, m.q)))) = [[(0, 0x00040001)]] := by
  decide +kernel
/-- 05, a busbar current capture: RS, C, and the trigger 114,746.094 ns before sample k. -/
theorem test_record_size : recSize false 12 32 = 112 ∧ (1048576 - 256) / recSize false 12 32 = 9360 := by decide
theorem test_trigger_place : trigPlace true 15000 12000 9800 21400 true (t16Of 7 625000000 0) (625000 * 65536) 3 =
    (t16Of 7 624885253 0xE800, false) := by decide
/-- 07, a fault on a line with a cable end: 445,434.371 ns lies in section 0 at 131,403.1 m. -/
theorem test_distance : distAt [(fxOfInt 220000, fxOfInt 295), (fxOfInt 10000, fxOfInt 170)] (fxOfRat 445434371 1000) / (fxOne / 10) = 1314031 := by
  decide +kernel
/-- 08, a delay shortened while its timer runs: TON 0x0123. -/
def ton (pt e : Int) : Bool × Int :=
  let y := fbTon { n := 4, ins := [{ v := 1 }, { v := BitVec.ofInt 32 pt }], pars := [], prev := [], key := 0 } { f := true, e := e }
  (y.1, y.2.1)
theorem test_ton : ton 20000 32 = (false, 7500) ∧ ton 7000 36 = (true, 8333) := by decide +kernel
/-- 09, a trip: field t of stNum 42. -/
theorem test_utc_time : utcTime (State.cfgs up [(0x44, 0, 0x10025)]) { t16 := t16Of 1900000100 750000000 0, q := 0x49 } =
    [0x71, 0x3F, 0xB3, 0x3F, 0xC0, 0, 0, 0x99] := by decide +kernel
/-- 10, a command released at a reload: e, y and the pulses of G04 and G05. -/
def l017 : LoopCfg := loopOf (fun i => ([0xA0000000, 0, 10400, 0, 200000, 0, 60000, 48000, 0x28000000, 0xE0000000, 0, 0, 0xE0000000, 0, 0, 0] :
  List (BitVec 32)).getD i 0)
theorem test_loop : loopCompute l017 [320] [52000] 10400 10000 = { e := 400, y := 52180, u := 52180, clamped := false, sat := false } := by
  decide +kernel
def g04 : LaneCfg := laneOf (fun i => ([0xA0800000, 44000, 48000, 60000, 3000, 2000, 0, 0, 0] : List (BitVec 32)).getD i 0)
def widths (p : Nat) : Nat × Nat × Nat := ((pulsesOf g04 p).wp, (pulsesOf g04 p).ws, (pulsesOf g04 p).omitted)
theorem test_pulses : widths 52000 = (44000, 4000, 0) ∧ widths 52180 = (44000, 4180, 0) := by decide +kernel
/-- 21, addresses for one croft range. -/
theorem test_addresses : setupBase = 0x001000000000 ∧ irqBase + 0x8000 * 37 + 0x1000 * 2 = 0x00130012A000 ∧
    (regInfo 0xA0C94).isSome = true := by decide +kernel

/-- R117: the coefficients of a half-band response sum to exactly 1.0, whatever the free ones are (code 0x01, 11 taps). -/
theorem test_halfband_sum : sumI ((List.range 11).map (halfTap 1)) = 2 ^ 23 := by
  have h : (List.range 11).map (halfTap 1) =
      [halfCoef 1 5, 0, halfCoef 1 3, 0, halfCoef 1 1, 2 ^ 22, halfCoef 1 1, 0, halfCoef 1 3, 0, halfCoef 1 5] := rfl
  have h1 : halfCoef 1 1 = 2 ^ 21 - sumI (halfFree 1) := rfl
  have h3 : halfCoef 1 3 = (halfFree 1).getD 0 0 := rfl
  have h5 : halfCoef 1 5 = (halfFree 1).getD 1 0 := rfl
  have hl : (halfFree 1).length = 2 := by
    simp only [halfFree]
    split <;> simp [oddOffsets, tapCount]
  match hm : halfFree 1, hl with
  | [a, b], _ =>
    rw [h, h1, h3, h5, hm]
    simp only [sumI, List.foldl, List.getD_cons_zero, List.getD_cons_succ]
    omega
/-- R117: every coefficient of every response is one of Q0.23, so the word that FC_ROM_DATA gives is the coefficient itself. -/
theorem test_halfband_range (code : Nat) : ∀ v ∈ halfFree code, isQ23 v = true := by
  simp only [halfFree]
  split
  · rename_i h
    intro v hv
    simp only [Bool.and_eq_true, List.all_eq_true] at h
    exact h.1 v hv
  · intro v hv
    simp only [List.mem_map] at hv
    obtain ⟨_, _, rfl⟩ := hv
    decide

/-! Check values of the polynomials over the nine characters 1 to 9 (log 10). -/

theorem test_crc32c : crc32c (ascii "123456789") = 0xE3069283 := by decide +kernel
theorem test_crc_ccitt : crcCcitt (ascii "123456789") = 0x29B1 := by decide +kernel

/-! The running state of these tests has what one step of it needs. -/

theorem test_up : alive up = true ∧ coreRuns up 0 = true ∧ coreRuns up 1 = true ∧ hearthOwner up 1 = 1 ∧ portLive up 12 = true := by decide +kernel

end Sys2Proof.Tests
end

section
/-! The firmware's offset to the servo (R54). -/

namespace Sys2Proof.Machine

/-- What the servo's own update of the clock leaves as it is: the latest offset, whether the first one is still to come, when firmware
last gave one, FW_IGNORED and the counter. -/
def State.offsetRecord (s : State) : Option Int × Bool × Nat × Bool × Nat :=
  (s.tb.latest, s.tb.firstOffset, s.tb.lastFwOffset, s.tb.fwIgnored, s.tb.counter)

@[simp] theorem refreshEst_offsetRecord (s : State) : (refreshEst s).offsetRecord = s.offsetRecord := by
  unfold refreshEst; split <;> rfl

@[simp] theorem stageAddend_offsetRecord (s : State) (c : Int) : (stageAddend s c).offsetRecord = s.offsetRecord := by
  unfold stageAddend; split <;> rfl

@[simp] theorem enterHoldover_offsetRecord (s : State) : (enterHoldover s).offsetRecord = s.offsetRecord :=
  stageAddend_offsetRecord _ _

/-- The servo's own work (R53) changes neither the counter nor the record of the offset it works on. -/
@[simp] theorem servoProcess_offsetRecord (s : State) (th : Int) : (servoProcess s th).offsetRecord = s.offsetRecord := by
  unfold servoProcess
  extract_lets cfg gain tb i lim prop c small run s1
  have hs1 : s1.offsetRecord = s.offsetRecord := stageAddend_offsetRecord _ _
  split
  · split
    · exact enterHoldover_offsetRecord _
    · rfl
  · split
    · exact (refreshEst_offsetRecord s1).trans hs1
    · exact hs1
    · split
      · exact (refreshEst_offsetRecord _).trans hs1
      · exact hs1

/-- An offset that reaches the servo is the latest, whether the servo processes it or keeps it for a step (R55). -/
theorem servoOffset_offsetRecord (ok : Bool) (th : Int) (s : State) :
    (servoOffset ok th s).offsetRecord = (some th, false, s.tb.lastFwOffset, s.tb.fwIgnored, s.tb.counter) := by
  unfold servoOffset
  dsimp only
  split
  · split
    · rfl
    · exact servoProcess_offsetRecord _ _
  · exact servoProcess_offsetRecord _ _

/-- An offset that R54 accepts: in units of 2^-16 ns it is 256 times the word written. -/
theorem fwOffset_accepted {ok : Bool} {p : Nat} {v : BitVec 32} {s : State} (h : p = 0 ∧ srcSel s = 1) :
    (fwOffset ok p v s).offsetRecord = (some (v.toInt * 256), false, s.tb.edge, s.tb.fwIgnored, s.tb.counter) := by
  rw [fwOffset, if_pos h]
  exact servoOffset_offsetRecord _ _ _

/-- A write that R54 ignores sets FW_IGNORED alone. -/
theorem fwOffset_ignored {ok : Bool} {p : Nat} {v : BitVec 32} {s : State} (h : ¬(p = 0 ∧ srcSel s = 1)) :
    fwOffset ok p v s = { s with tb.fwIgnored := true } := if_neg h

/-- TB_FW_OFFSET is write-only, in no switched domain, and no permission of a partition stands before R54's own. -/
theorem storeSetup_tbFwOffset (p : Nat) (v : BitVec 32) (s : State) : storeSetup p 0x28 v s = fwOffset (stepOk s) p v s := by
  have hreg : regInfo 0x28 = some { wo := 0xFFFFFFFF } := rfl
  have hdom : domOn s 0x28 (sliceSel s p 0x28) = true := rfl
  have hrule (sel : Nat) : writeRule s 0x28 sel = .any := rfl
  simp [storeSetup, hreg, hdom, hrule, WriteRule.allows, storeRw, storeW1c, storeWo]

/-- The end of start-up's step 7 leaves the clock, the registers and the PTP engine. -/
@[simp] theorem lockedCheck_frame (s : State) :
    (lockedCheck s).tb = s.tb ∧ (lockedCheck s).regs = s.regs ∧ (lockedCheck s).ptp = s.ptp := by
  unfold lockedCheck; split <;> simp

theorem lockedCheck_of_step_ne {s : State} (h : s.pw.step ≠ 7) : lockedCheck s = s := if_neg fun a => h a.1

/-- The end of a core's store changes the core alone. -/
@[simp] theorem coreDone_frame (h : Nat) (s : State) :
    (coreDone h s).tb = s.tb ∧ (coreDone h s).regs = s.regs ∧ (coreDone h s).ptp = s.ptp := ⟨rfl, rfl, rfl⟩

/-- A write of TB_FW_OFFSET by an executing core. -/
theorem exec_tbFwOffsetWrite {s : State} {t p : Nat} {h : Hearth} (v : BitVec 32) (hc : CoreOf (s.runTo t) h p) :
    exec (.tbFwOffsetWrite t h v) s =
      .next (lockedCheck (coreDone h (fwOffset (stepOk (s.runTo t)) p v (s.runTo t)))) := by
  show Host.Outcome.next (lockedCheck (coreStore t h 0x28 v s)) = _
  rw [coreStore_eq hc (by decide) (by decide), storeSetup_tbFwOffset]

/-- Settles O8: the write comes to `fwOffset`, and neither the store's end nor the end of start-up's step 7 touches the clock. -/
theorem firmwareOffset : Obligations.FirmwareOffset := by
  rintro s _ t h v p rfl hc
  rw [exec_tbFwOffsetWrite v hc]
  refine ⟨fun haccept => ⟨_, rfl, ?_⟩, fun hignore => ⟨_, rfl, ?_⟩⟩
  · have hrec := fwOffset_accepted (ok := stepOk (s.runTo t)) (v := v) haccept
    simpa [State.offsetRecord] using hrec
  · rw [fwOffset_ignored hignore]
    exact ⟨by simp, by simp, by simp, fun hstep => lockedCheck_of_step_ne hstep⟩

end Sys2Proof.Machine
end

section
/-! Time-trigger units (R65 to R69). -/

namespace Sys2Proof.Machine

/-- A word whose low 16 bits are 0 reads 0 in its two low bytes. -/
theorem low_bytes_zero {w : BitVec 32} (h : w &&& 0xFFFF = 0) : w &&& 0xFF = 0 ∧ fld w 15 8 = 0 := by
  have hlow : w.toNat % 65536 = 0 := by
    have := congrArg BitVec.toNat h
    rwa [BitVec.toNat_and, show (0xFFFF : BitVec 32).toNat = 2 ^ 16 - 1 from rfl, Nat.and_two_pow_sub_one_eq_mod] at this
  constructor
  · rw [show (0xFF : BitVec 32) = 0xFFFF &&& 0xFF from rfl, ← BitVec.and_assoc, h]; rfl
  · rw [fld, Nat.shiftRight_eq_div_pow]
    omega

/-- The words of a TT_ARM of unit u for one firing, without target, well formed under R66. -/
structure OneShotDesc (ws : List (BitVec 32)) (u : Nat) : Prop where
  unit : u = fld (dw ws 0) 31 16
  lt : u < 32
  flags : dw ws 0 &&& 0xFE00 = 0
  target : dw ws 5 &&& 0xFFFF = 0
  nanos : (dw ws 4).toNat < 1000000000
  period : dw ws 6 = 0
  count : dw ws 7 = 1

/-- START of a TT_ARM (R66). -/
def ttStart (ws : List (BitVec 32)) : Nat := t16Of (dword64 ws 2) (dw ws 4).toNat (fld (dw ws 5) 31 16)

/-- The unit that such a TT_ARM leaves (R67): one firing, at START. -/
def oneShot (p r : Nat) (f : Flight) : Ttu :=
  { armed := true, ring := 64 * p + r, flight := f.id, irqEach := bit (dw f.words 0) 8, next := ttStart f.words, left := 1 }

/-- A one-shot arms an idle unit of its owner when START lies at least 1 µs ahead (R67). -/
theorem ttArmAct_oneShot {p r u : Nat} {s : State} {f : Flight} (hdesc : OneShotDesc f.words u) (hvalid : s.timeValid = true)
    (howner : ttuOwner s u = p) (hidle : (s.ttu u).armed = false) (hahead : now16 s + us16 1 ≤ ttStart f.words) :
    ttArmAct p r s f = s.updTtu u (fun _ => oneShot p r f) := by
  obtain ⟨rfl, hu, hflags, hlow, hns, hperiod, hcount⟩ := hdesc
  obtain ⟨hres, htarget⟩ := low_bytes_zero hlow
  have hu' : ¬ 31 < fld (dw f.words 0) 31 16 := by omega
  have hns' : ¬ 999999999 < (dw f.words 4).toNat := by omega
  have hstart : ¬ ttStart f.words < now16 s + us16 1 := by omega
  unfold ttStart at hahead hstart
  simp only [ttArmAct, hflags, hres, hperiod, hcount]
  simp [oneShot, ttStart, htarget, hu', hns', hvalid, howner, hidle, hahead, hstart]

/-- The firing that is due is the unit's last, at or before the present edge (R69). -/
def lastFiringDue (s : State) (u : Nat) : Prop :=
  (s.ttu u).forever = false ∧ (s.ttu u).left ≤ 1 ∧ (s.ttu u).next ≤ now16 s

/-- A unit is short of its last firing when it goes on for ever, has firings left after the next, or the next is still ahead. -/
theorem not_lastFiringDue_iff (s : State) (u : Nat) :
    ¬ lastFiringDue s u ↔ (s.ttu u).forever = true ∨ 1 < (s.ttu u).left ∨ now16 s < (s.ttu u).next := by
  simp only [lastFiringDue, not_and_or, Bool.not_eq_false, not_le]

/-- The words of a TT_CANCEL of unit u, well formed under R66. -/
structure CancelDesc (ws : List (BitVec 32)) (u : Nat) : Prop where
  unit : u = fld (dw ws 0) 31 16
  lt : u < 32
  flags : dw ws 0 &&& 0xFF00 = 0

/-- Stopping an armed unit ends its arming descriptor ABORTED (R69). -/
theorem ttStop_of_armed {s : State} {u : Nat} (h : (s.ttu u).armed = true) :
    ttStop s u = finishKey (s.updTtu u (fun z => { z with armed := false })) (s.ttu u).ring (s.ttu u).flight stAborted := by
  simp [ttStop, h]

section
variable {p r u : Nat} {s : State} {f : Flight} (hdesc : CancelDesc f.words u)
include hdesc

/-- No check of R66 ends such a TT_CANCEL. -/
theorem CancelDesc.accepted : ¬(((dw f.words 0 &&& 0xFF00) &&& 0xFE00 != 0 || fld (dw f.words 0) 31 16 > 31) = true) := by
  obtain ⟨rfl, hu, hflags⟩ := hdesc
  have hu' : ¬ fld (dw f.words 0) 31 16 > 31 := by omega
  simp only [hflags, hu']
  decide

/-- A TT_CANCEL of another partition's unit (R69). -/
theorem ttCancelAct_of_not_owner (howner : ttuOwner s u ≠ p) : ttCancelAct p r s f = finish s p r f.id stNotPermitted := by
  unfold ttCancelAct
  dsimp only
  rw [if_neg hdesc.accepted, ← hdesc.unit, if_pos howner]

/-- A TT_CANCEL of the partition's own unit that is armed and short of its last firing stops it (R69). -/
theorem ttCancelAct_stops (howner : ttuOwner s u = p) (harmed : (s.ttu u).armed = true) (hshort : ¬ lastFiringDue s u) :
    ttCancelAct p r s f = finish (ttStop s u) p r f.id stDone := by
  unfold ttCancelAct
  dsimp only
  rw [if_neg hdesc.accepted, ← hdesc.unit, if_neg (not_not.2 howner), if_neg, if_pos harmed]
  simpa [lastFiringDue, harmed, and_assoc] using hshort

/-- A TT_CANCEL of the partition's own unit that is idle, or whose last firing has come, loses to that firing (R69). -/
theorem ttCancelAct_loses (howner : ttuOwner s u = p) (hlost : (s.ttu u).armed = false ∨ lastFiringDue s u) :
    ttCancelAct p r s f = finishIgn s p r f.id := by
  unfold ttCancelAct
  dsimp only
  rw [if_neg hdesc.accepted, ← hdesc.unit, if_neg (not_not.2 howner)]
  cases harmed : (s.ttu u).armed with
  | false => simp
  | true =>
    obtain ⟨hforever, hleft, hnext⟩ := hlost.resolve_left (by simp [harmed])
    simp [hforever, hleft, hnext]

end

@[simp] theorem State.waitUntil_ttu (s : State) (t16 u : Nat) : (s.waitUntil t16).ttu u = s.ttu u := rfl

/-- The last firing of an armed unit without target or message of its own (R68). -/
theorem ttuFiring_last {s : State} {u : Nat} (harmed : (s.ttu u).armed = true) (htarget : (s.ttu u).target = 0)
    (hirq : (s.ttu u).irqEach = false) (hforever : (s.ttu u).forever = false) (hleft : (s.ttu u).left = 1) :
    ttuFiring u s =
      finishKey ((touchOutputs u (s.ttu u).next (s.waitUntil (s.ttu u).next)).updTtu u (fun z => { z with
        armed := false, left := 0, lastFire := some (s.waitUntil (s.ttu u).next).tb.edge })) (s.ttu u).ring (s.ttu u).flight stDone := by
  simp [ttuFiring, ttuFire, harmed, htarget, hirq, hforever, hleft]

/-- The descriptor that a ring gives with opcode op is the command's own. -/
theorem opIs_of_fetches {s : State} {p r op : Nat} {y : State × Flight} (h : Fetches s p r op y) (c : RingCfg) :
    opIs op c y.2.words = true := by
  obtain ⟨_, _, hop⟩ := h
  exact beq_iff_eq.2 hop

theorem exec_ttArm {s : State} {t : Nat} {p : PartId} {r : RingNo} {y : State × Flight} (h : Fetches (s.runTo t) p r 1 y) :
    exec (.ttArm t p r) s = .next (ttArmAct p r y.1 y.2) := by
  show Host.Outcome.next (withDesc _ _ _ _ _) = _
  rw [withDesc_eq h (opIs_of_fetches h _)]

theorem exec_ttCancel {s : State} {t : Nat} {p : PartId} {r : RingNo} {y : State × Flight} (h : Fetches (s.runTo t) p r 2 y) :
    exec (.ttCancel t p r) s = .next (ttCancelAct p r y.1 y.2) := by
  show Host.Outcome.next (withDesc _ _ _ _ _) = _
  rw [withDesc_eq h (opIs_of_fetches h _)]

theorem exec_ttuFiring {s : State} (u : Fin 32) (h : alive s = true) : exec (.ttuFiring u) s = .next (ttuFiring u s) := by
  show Host.Outcome.next (live _ s) = _
  rw [live_eq h]

/-- Settles O9: each command's act, by the case of R67, R68 or R69 that its premises pick. -/
theorem timeTriggers : Obligations.TimeTriggers := by
  refine ⟨?arm, ?cancel, ?firing⟩
  case arm =>
    intro s t p r y u hfetch hunit hu hflags htarget hns hperiod hcount hvalid howner hidle hahead
    rw [exec_ttArm hfetch, ttArmAct_oneShot ⟨hunit, hu, hflags, htarget, hns, hperiod, hcount⟩ hvalid howner hidle hahead]
    have hset : (y.1.updTtu u fun _ => oneShot p r y.2).ttu u = oneShot p r y.2 := by simp
    refine ⟨_, rfl, ?_⟩
    rw [hset]
    exact ⟨rfl, rfl, rfl, rfl, fun w hw => by simp [hw], rfl⟩
  case cancel =>
    intro s t p r y u hfetch hunit hu hflags
    have hdesc : CancelDesc y.2.words u := ⟨hunit, hu, hflags⟩
    rw [exec_ttCancel hfetch]
    refine ⟨fun howner => ?_, fun howner harmed hshort => ?_, fun howner hlost => ?_⟩
    · rw [ttCancelAct_of_not_owner hdesc howner]
    · rw [ttCancelAct_stops hdesc howner harmed ((not_lastFiringDue_iff _ _).2 hshort), ttStop_of_armed harmed]
    · rw [ttCancelAct_loses hdesc howner hlost]
  case firing =>
    intro s u halive harmed htarget hirq hforever hleft
    exact ⟨_, exec_ttuFiring u halive, ttuFiring_last harmed htarget hirq hforever hleft⟩

end Sys2Proof.Machine
end

section
/-! Stores to the interrupt pages (R292, R294). -/

namespace Sys2Proof.Machine

/-! An assertion's stamp record leaves the interrupt files. -/

@[simp] theorem devWrite_files (s : State) (p a : Nat) (bs : List (BitVec 8)) : (devWrite s p a bs).files = s.files := by
  unfold devWrite; split <;> simp

@[simp] theorem indexBlock_files (s : State) (p r : Nat) : (indexBlock s p r).files = s.files := devWrite_files _ _ _ _

@[simp] theorem offerRecord_files (s : State) (p r : Nat) (w0 : BitVec 32) (body : List (Nat × BitVec 32)) (st : Stamp) :
    (offerRecord s p r w0 body st).1.files = s.files := by
  unfold offerRecord; dsimp only; split <;> simp

@[simp] theorem irqStamp_files (s : State) (h f id : Nat) (src : BitVec 32) : (irqStamp s h f id src).files = s.files := by
  unfold irqStamp; dsimp only; split <;> simp

@[simp] theorem irqStamp_file (s : State) (h f id : Nat) (src : BitVec 32) (k g : Nat) :
    (irqStamp s h f id src).file k g = s.file k g := by
  simp [State.file]

/-! The pending of an identity. -/

/-- A hearth has eight files: the update of one leaves every other file of every hearth. -/
theorem State.updFile_file_of_ne {h f k g : Nat} (hf : f < 8) (hg : g < 8) (hne : k ≠ h ∨ g ≠ f) (s : State) (u : IFile → IFile) :
    (s.updFile h f u).file k g = s.file k g := by
  have hkey : 8 * k + g ≠ 8 * h + f := by omega
  simp [State.updFile, State.file, hkey]

/-- Identity id of source src pends in file f of hearth h, after its stamp record (R292, R295). -/
def pendIrq (s : State) (h f id : Nat) (src : BitVec 32) : State :=
  (irqStamp s h f id src).updFile h f (fun y =>
    { y with pend := addRising y.pend id, src := y.src ++ [(id, src.toNat / 2 ^ 24, src.toNat % 65536)] })

/-- An identity that no task takes pends: the file is a guest's, or no task is bound to it (R292, R315). -/
theorem assertIrq_eq_pendIrq {s : State} {n h f id : Nat} (hn : 0 < n) (src : BitVec 32) (hlo : 1 ≤ id) (hhi : id ≤ 255)
    (hfree : 1 ≤ f ∨ boundTask s h id = none) : assertIrq n s h f id src = pendIrq s h f id src := by
  obtain ⟨n, rfl⟩ := Nat.exists_eq_add_one.2 hn
  have hid : ¬(id = 0 ∨ id > 255) := by omega
  rw [assertIrq, if_neg hid]
  dsimp only
  split
  next hf =>
    rw [hfree.resolve_left (by omega)]
    rfl
  next => rfl

theorem pendIrq_pend (s : State) (h f id : Nat) (src : BitVec 32) :
    ((pendIrq s h f id src).file h f).pend = addRising (s.file h f).pend id := by
  simp [pendIrq]

theorem pendIrq_file_of_ne {h f k g : Nat} (hf : f < 8) (hg : g < 8) (hne : k ≠ h ∨ g ≠ f) (s : State) (id : Nat) (src : BitVec 32) :
    (pendIrq s h f id src).file k g = s.file k g := by
  rw [pendIrq, State.updFile_file_of_ne hf hg hne, irqStamp_file]

theorem pendIrq_calm (s : State) (h f id : Nat) (src : BitVec 32) : Calm s (pendIrq s h f id src) :=
  State.updFile_calm (irqStamp_calm (Calm.refl s))

/-! A store to a page. -/

/-- The identity that a store of v to seteipnum names, or to its big-endian form (R292). -/
def storedId (big : Bool) (v : BitVec 32) : Nat := if big then beNat (leBytes 4 v.toNat) else v.toNat

/-- The source word of a core's own assertion (R295). -/
def coreSrc (h : Nat) : BitVec 32 := BitVec.ofNat 32 (0xFF * 2 ^ 24 + h)

/-- A store to another partition's page is counted and ignored (R294). -/
theorem seteipnum_of_not_owner {h tgt : Nat} {s : State} (file : Nat) (big : Bool) (v : BitVec 32) (hp : hearthOwner s h ≠ 0)
    (howner : hearthOwner s tgt ≠ hearthOwner s h) : seteipnum h tgt file big v s = s.winFault (hearthOwner s h) :=
  if_pos ⟨hp, howner⟩

section
variable {h tgt file : Nat} {s : State} (big : Bool) (v : BitVec 32)
  (hmay : hearthOwner s h = 0 ∨ hearthOwner s tgt = hearthOwner s h) (hfile : file ≤ 5)
include hmay hfile

/-- A permitted store asserts the identity it names when that lies in 1 to 255, and does nothing else (R292, R294). -/
theorem seteipnum_of_owner : seteipnum h tgt file big v s =
    if 1 ≤ storedId big v ∧ storedId big v ≤ 255 then assertIrq 256 s tgt file (storedId big v) (coreSrc h) else s := by
  have hmay' : ¬(hearthOwner s h ≠ 0 ∧ hearthOwner s tgt ≠ hearthOwner s h) :=
    fun hnot => hmay.elim hnot.1 hnot.2
  have hfile' : ¬ file > 5 := by omega
  unfold seteipnum
  dsimp only
  rw [if_neg hmay', if_neg hfile']
  rfl

theorem seteipnum_pends (hlo : 1 ≤ storedId big v) (hhi : storedId big v ≤ 255)
    (hfree : 1 ≤ file ∨ boundTask s tgt (storedId big v) = none) :
    seteipnum h tgt file big v s = pendIrq s tgt file (storedId big v) (coreSrc h) := by
  rw [seteipnum_of_owner big v hmay hfile, if_pos ⟨hlo, hhi⟩, assertIrq_eq_pendIrq (by omega) _ hlo hhi hfree]

theorem seteipnum_ignored (hout : storedId big v = 0 ∨ 255 < storedId big v) : seteipnum h tgt file big v s = s := by
  rw [seteipnum_of_owner big v hmay hfile, if_neg (by omega)]

end

theorem exec_seteipnum {s : State} {t : Nat} {h : Hearth} (target : Hearth) (file : Fin 8) (big : Bool) (v : BitVec 32)
    (hrun : coreRuns (s.runTo t) h = true) :
    exec (.seteipnum t h target file big v) s = .next (seteipnum h target file big v (s.runTo t)) := by
  show Host.Outcome.next (byCore _ _ _ _) = _
  rw [byCore, if_pos hrun]

/-- Settles O12: the step is `seteipnum`, which comes to a pending, to nothing or to a fault count, by the case of R292 or R294. -/
theorem interruptStores : Obligations.InterruptStores := by
  rintro s _ t h target file big v _ _ rfl ⟨hrun, rfl⟩ rfl
  rw [exec_seteipnum target file big v hrun]
  refine ⟨fun hmay hfile => ⟨fun hlo hhi hfree => ?pends, fun hout => ?ignored⟩, fun hp howner => ?refused⟩
  case pends =>
    have hcalm := pendIrq_calm (s.runTo t) target file (storedId big v) (coreSrc h)
    rw [seteipnum_pends big v hmay hfile hlo hhi hfree]
    exact ⟨_, rfl, pendIrq_pend .., fun k f hne _ hf => pendIrq_file_of_ne file.isLt hf hne .., hcalm.regs, hcalm.tb⟩
  case ignored => rw [seteipnum_ignored big v hmay hfile hout]
  case refused => rw [seteipnum_of_not_owner file big v hp howner]

end Sys2Proof.Machine
end

section
/-! Ticks, missed deadlines and used-up budgets of the hardware scheduler (R309, R319, R320). -/

namespace Sys2Proof.Machine

/-! Waiting for an instant. -/

theorem le_ceilDiv_mul (a : Nat) {b : Nat} (hb : 0 < b) : a ≤ ceilDiv a b * b := by
  simpa [ceilDiv, Nat.ceilDiv_eq_add_pred_div, mul_comm] using le_smul_ceilDiv (a := b) (b := a) hb

/-- A running clock reaches the instant that is waited for (R38). -/
theorem le_now16_waitUntil {s : State} (t16 : Nat) (hrun : 0 < s.tb.addend) : t16 ≤ now16 (s.waitUntil t16) := by
  have hedges : edgesUntil s.tb (t16 * 2 ^ 24) = ceilDiv (t16 * 2 ^ 24 - s.tb.counter) s.tb.addend := if_neg hrun.ne'
  have hstep := le_ceilDiv_mul (t16 * 2 ^ 24 - s.tb.counter) hrun
  rw [now16, Nat.le_div_iff_mul_le (by decide), State.waitUntil, State.pass, hedges]
  dsimp only
  omega

/-- The tick of an instant: the first whole microsecond at or past it (R309). -/
def tickOf (t16 : Nat) : Nat := us16 (ceilDiv t16 65536000)

/-- At an instant's tick the clock's whole microsecond lies at or past that instant. -/
theorem le_microsecond_of_tick {s : State} (t16 : Nat) (hrun : 0 < s.tb.addend) :
    t16 ≤ us16 (now16 (s.waitUntil (tickOf t16)) / 65536000) := by
  have htick : ceilDiv t16 65536000 * 65536000 ≤ now16 (s.waitUntil (tickOf t16)) := le_now16_waitUntil _ hrun
  calc t16 ≤ ceilDiv t16 65536000 * 65536000 := le_ceilDiv_mul t16 (by decide)
    _ ≤ us16 (now16 (s.waitUntil (tickOf t16)) / 65536000) :=
      Nat.mul_le_mul_right _ ((Nat.le_div_iff_mul_le (by decide)).2 htick)

/-! What the passing of time and the update of a task leave. -/

@[simp] theorem State.waitUntil_task (s : State) (t16 h t : Nat) : (s.waitUntil t16).task h t = s.task h t := rfl
@[simp] theorem State.runTo_task (s : State) (e h t : Nat) : (s.runTo e).task h t = s.task h t := rfl
@[simp] theorem taskCfg_waitUntil (s : State) (t16 h t : Nat) : taskCfg (s.waitUntil t16) h t = taskCfg s h t := rfl
@[simp] theorem delayList_waitUntil (s : State) (t16 h : Nat) : delayList (s.waitUntil t16) h = delayList s h := rfl
@[simp] theorem State.updSched_task (s : State) (h k t : Nat) (f : Sched → Sched) : (s.updSched h f).task k t = s.task k t := rfl

theorem State.updTask_task_of_ne {h t j : Nat} (hne : j ≠ t) (s : State) (f : Task → Task) :
    (s.updTask h t f).task h j = s.task h j := by
  simp [State.updTask, State.task, hne]

/-! The release of a passed entry. -/

/-- From s to z, the release of task t of hearth h at instant r makes its job READY, with its deadline, and takes no time (R307). -/
structure Released (s z : State) (h t r : Nat) : Prop where
  ready : (z.task h t).st = .ready
  instant : (z.task h t).r = r
  deadline : (z.task h t).d = r + us16 (taskCfg s h t).deadline
  clock : z.tb = s.tb

theorem makeReady_released (s : State) (h t r : Nat) : Released s (makeReady s h t r) h t r := by
  constructor <;> simp [makeReady]

theorem releaseOrOverrun_of_waiting {s : State} {h t : Nat} (hwait : (s.task h t).st = .waiting) (r : Nat) :
    releaseOrOverrun s h t r = makeReady s h t r := by
  simp [releaseOrOverrun, hwait]

/-- A later update of the task that keeps the job keeps the release. -/
theorem Released.updTask {s z : State} {h t r : Nat} (hrel : Released s z h t r) {f : Task → Task}
    (hkeep : ∀ x, (f x).st = x.st ∧ (f x).r = x.r ∧ (f x).d = x.d) : Released s (z.updTask h t f) h t r := by
  obtain ⟨hst, hr, hd⟩ := hkeep (z.task h t)
  constructor
  · simpa [hst] using hrel.ready
  · simpa [hr] using hrel.instant
  · simpa [hd] using hrel.deadline
  · simpa using hrel.clock

/-- An entry's release is made when the task is no TIMER task, or waits (R308, R309). -/
theorem tickEntry_released {s : State} {h : Nat} {e : Nat × Nat} (m : Nat)
    (hmade : (taskCfg s h e.2).src ≠ 0 ∨ (s.task h e.2).st = .waiting) : Released s (tickEntry h m s e) h e.2 e.1 := by
  unfold tickEntry
  dsimp only
  split
  next htimer =>
    rw [releaseOrOverrun_of_waiting (hmade.resolve_left (not_not.2 htimer))]
    exact (makeReady_released s h e.2 e.1).updTask fun _ => ⟨rfl, rfl, rfl⟩
  next => exact makeReady_released s h e.2 e.1

/-- The tick releases the one entry of the delay list once it is passed (R309). -/
theorem tickDue_of_single {s : State} {h : Nat} {e : Nat × Nat} (hlist : delayList s h = [e])
    (hpast : e.1 ≤ us16 (now16 s / 65536000)) : tickDue h s = tickEntry h (now16 s / 65536000) s e := by
  simp [tickDue, hlist, hpast]

theorem delayRelease_of_single {s : State} {h : Nat} {e : Nat × Nat} (hlist : delayList s h = [e]) :
    delayRelease h s =
      dispatchIf (dispatchHead (s.waitUntil (tickOf e.1)) h) (tickDue h (s.waitUntil (tickOf e.1))) h := by
  rw [delayRelease, hlist]
  rfl

/-- The tick of the delay list's one entry releases that entry's task (R309). -/
theorem tickDue_released {s : State} {h : Nat} {e : Nat × Nat} (hlist : delayList s h = [e])
    (hmade : (taskCfg s h e.2).src ≠ 0 ∨ (s.task h e.2).st = .waiting) (hrun : 0 < s.tb.addend) :
    Released (s.waitUntil (tickOf e.1)) (tickDue h (s.waitUntil (tickOf e.1))) h e.2 e.1 := by
  rw [tickDue_of_single (by simpa using hlist) (le_microsecond_of_tick e.1 hrun)]
  exact tickEntry_released _ (by simpa using hmade)

/-! Deadlines and budgets. -/

/-- The tick that passes the deadline of task t's job, with the miss counted and MISS set (R319). -/
def missCounted (h t : Nat) (s : State) : State :=
  ((s.waitUntil (tickOf (s.task h t).d)).updTask h t (fun y => { y with missed := true, misses := inc32 y.misses })).updSched h
    (fun y => { y with miss := true })

theorem missCounted_task (h t : Nat) (s : State) :
    (missCounted h t s).task h t = { s.task h t with missed := true, misses := inc32 (s.task h t).misses } := by
  simp [missCounted]

theorem missCounted_miss (h t : Nat) (s : State) : ((missCounted h t s).sched h).miss = true := by
  simp [missCounted]

/-- An open job that has not missed its deadline yet misses it once; a MISS_ID is asserted (R319). -/
theorem deadlineMiss_of_open {s : State} {h t : Nat} (hopen : (s.task h t).st = .ready ∨ (s.task h t).st = .running)
    (hfirst : (s.task h t).missed = false) :
    deadlineMiss h t s = if fld (s.cfg 0xB0008 (256 * h)) 15 8 = 0 then missCounted h t s
      else assertIrq 256 (missCounted h t s) h 0 (fld (s.cfg 0xB0008 (256 * h)) 15 8) (devSrc 11 h) :=
  if_pos ⟨hopen, hfirst⟩

/-- The running job passes its budget one 4 ns unit after the last that it holds, and is counted once (R320). -/
theorem budgetOverrun_of_running {s : State} {h k : Nat} (hrunning : (s.sched h).running = some k)
    (hwithin : (s.task h k).overBudget = false) :
    budgetOverrun h s =
      (s.runTo ((s.task h k).from_ + (usEdges (s.task h k).bud + 1 - (s.task h k).ran))).updTask h k
        (fun y => { y with overBudget := true, budgetOvr := inc32 y.budgetOvr }) := by
  simp [budgetOverrun, hrunning, hwithin]

/-! The steps. -/

section
variable {s : State} (h : Hearth) (halive : alive s = true)
include halive

theorem exec_delayListRelease : exec (.delayListRelease h) s = .next (delayRelease h s) := by
  show Host.Outcome.next (live _ s) = _
  rw [live_eq halive]

theorem exec_deadlineMiss (task : Fin 256) : exec (.deadlineMiss h task) s = .next (deadlineMiss h task s) := by
  show Host.Outcome.next (live _ s) = _
  rw [live_eq halive]

theorem exec_budgetOverrun : exec (.budgetOverrun h) s = .next (budgetOverrun h s) := by
  show Host.Outcome.next (live _ s) = _
  rw [live_eq halive]

end

/-- Settles O16: a running clock reaches the entry's tick, so `tickDue` releases the entry; the two counts are one update of the job's
task each. -/
theorem schedulerEvents : Obligations.SchedulerEvents := by
  intro s h halive
  refine ⟨?tick, ?deadline, ?budget⟩
  case tick =>
    intro e hlist hmade hrun
    have hrel := tickDue_released hlist hmade hrun
    exact ⟨_, _, exec_delayListRelease h halive, delayRelease_of_single hlist, hrel.ready, hrel.instant,
      by simpa using hrel.deadline, hrel.clock⟩
  case deadline =>
    intro task hopen hfirst
    rw [exec_deadlineMiss h halive, deadlineMiss_of_open hopen hfirst]
    refine ⟨missCounted h task s, rfl, missCounted_miss h task s, ?_⟩
    rw [missCounted_task]
    exact ⟨rfl, rfl, rfl, rfl, rfl⟩
  case budget =>
    intro k hrunning hwithin
    have hedge : s.tb.edge ≤ (budgetOverrun h s).tb.edge := (budgetOverrun_keeps (Keeps.refl s)).edge
    rw [exec_budgetOverrun h halive]
    refine ⟨_, rfl, ?_, ?_, fun j hne => ?_, hedge⟩ <;> rw [budgetOverrun_of_running hrunning hwithin]
    · rw [State.updTask_task]
    · rw [State.updTask_task, State.runTo_task]
    · rw [State.updTask_task_of_ne hne, State.runTo_task]

end Sys2Proof.Machine
end

section
/-! Configuration transactions (R344, R346, R350). -/

namespace Sys2Proof.Machine

/-! The table of transactions under the operations that leave it. -/

theorem State.txn_congr {a b : State} (h : b.tx.txns = a.tx.txns) (q : Nat) : b.txn q = a.txn q :=
  congrArg (Tbl.get ({} : Txn) · q) h

theorem Calm.txn {a b : State} (h : Calm a b) (q : Nat) : b.txn q = a.txn q :=
  State.txn_congr (congrArg TxState.txns h.tx) q

@[simp] theorem complete_txn (s : State) (p r id : Nat) (b : Wb) (q : Nat) : (complete s p r id b).txn q = s.txn q :=
  (complete_calm (Calm.refl s)).txn q
@[simp] theorem finish_txn (s : State) (p r id st q : Nat) : (finish s p r id st).txn q = s.txn q :=
  (finish_calm (Calm.refl s)).txn q

/-- An item of the state delta leaves the rings and the memory. -/
@[simp] theorem deltaSend_db (k : DeltaKind) (st : Nat) (s : State) : (deltaSend k st s).db = s.db := by
  unfold deltaSend; split <;> rfl
@[simp] theorem deltaSend_dram (k : DeltaKind) (st : Nat) (s : State) : (deltaSend k st s).dram = s.dram := by
  unfold deltaSend; split <;> rfl

/-- Partition p's transaction is c in z; every other transaction and every register is as in s. -/
structure TxnSet (p : Nat) (s z : State) (c : Txn) : Prop where
  same : z.txn p = c
  others : ∀ q, q ≠ p → z.txn q = s.txn q
  regs : z.regs = s.regs

section
variable {p : Nat} {s x : State} {c : Txn} (h : TxnSet p s x c)
include h

/-- What follows the change of a transaction, its write-back or its item of the state delta, leaves the table and the registers. -/
theorem TxnSet.calm {z : State} (hcalm : Calm x z) : TxnSet p s z c where
  same := (hcalm.txn p).trans h.same
  others q hq := (hcalm.txn q).trans (h.others q hq)
  regs := hcalm.regs.trans h.regs

theorem TxnSet.after_complete (q r id : Nat) (b : Wb) : TxnSet p s (complete x q r id b) c :=
  h.calm (complete_calm (Calm.refl x))
theorem TxnSet.after_finish (q r id st : Nat) : TxnSet p s (finish x q r id st) c :=
  h.calm (finish_calm (Calm.refl x))
theorem TxnSet.after_deltaSend (k : DeltaKind) (st : Nat) : TxnSet p s (deltaSend k st x) c :=
  h.calm (deltaSend_calm (Calm.refl x))

end

/-- The update of partition p's transaction in a state x that has the table and the registers of s. -/
theorem updTxn_txnSet {s x : State} {p : Nat} {f : Txn → Txn} (htxns : x.tx.txns = s.tx.txns) (hregs : x.regs = s.regs) :
    TxnSet p s (x.updTxn p f) (f (s.txn p)) := by
  have htxn := State.txn_congr htxns
  exact ⟨by simp [htxn], fun q hq => by simp [hq, htxn], by simp [hregs]⟩

/-- A new transaction carries the next TXID and no key (R344). -/
theorem openTxn_txnSet (p : Nat) (s : State) : TxnSet p s (openTxn p s)
    { s.txn p with st := .open_, txid := s.tx.nextId + 1, conflict := false, overflow := false, keys := [] } :=
  updTxn_txnSet rfl rfl

theorem dropTxn_txnSet (p : Nat) (s : State) :
    TxnSet p s (dropTxn p s) { s.txn p with st := .idle, keys := [], conflict := false, overflow := false } :=
  updTxn_txnSet rfl rfl

/-- The commit that flight id of ring r asks for waits for its application slot (R346). -/
def pendTxn (p r id slot : Nat) (s : State) : State :=
  { s with tx.nextOrder := s.tx.nextOrder + 1 }.updTxn p (fun y =>
    { y with st := .pending, applySlot := slot, order := s.tx.nextOrder, ring := 64 * p + r, flight := id })

theorem pendTxn_txnSet (p r id slot : Nat) (s : State) : TxnSet p s (pendTxn p r id slot s)
    { s.txn p with st := .pending, applySlot := slot, order := s.tx.nextOrder, ring := 64 * p + r, flight := id } :=
  updTxn_txnSet rfl rfl

/-! What each command does, by the case that its partition's transaction is in. -/

/-- The write-back of an accepted TXN_BEGIN: DONE with the new TXID, stamped at the fetch. -/
def beginWb (s : State) : Wb := Wb.mk stDone 0 (s.tx.nextId + 1).toNat [] (some (stampNow s)) none

section
variable {p r : Nat} {s : State} {f : Flight} (hrole : isStandby s = false)
include hrole

section
variable (hres : reservedOk f.words 0 [] = true)
include hres

theorem txnBeginSend_opens (hidle : (s.txn p).st = .idle) (hroom : openTxns s < 8) :
    txnBeginSend p r s f = deltaSend (.txnBegin p) stDone (complete (openTxn p s) p r f.id (beginWb s)) := by
  have hopen := openTxn_txnSet p s
  have hact : txnBeginAct (isStandby s) p r s f = complete (openTxn p s) p r f.id (beginWb s) := by
    rw [txnBeginAct, hres]
    simp [beginWb, hrole, hidle, hroom, hopen.same]
  simp [txnBeginSend, hact, hidle, hopen.same]

theorem txnBeginSend_conflict (hbusy : (s.txn p).st ≠ .idle) : txnBeginSend p r s f = finish s p r f.id stConflict := by
  rw [txnBeginSend, txnBeginAct, hres]
  simp [hrole, hbusy]

/-- The partition stays without a transaction, so that nothing goes to the standby. -/
theorem txnBeginSend_full (hidle : (s.txn p).st = .idle) (hfull : 8 ≤ openTxns s) :
    txnBeginSend p r s f = finish s p r f.id stRefusedFull := by
  rw [txnBeginSend, txnBeginAct, hres]
  simp [hrole, hidle, hfull]

/-- A rollback finds an open transaction in time whatever the instant: only a PENDING one can have reached its edge (R350). -/
theorem txnRollbackSend_drops (hopen : (s.txn p).st = .open_) :
    txnRollbackSend p r s f = deltaSend (.txnRollback p false) stDone (finish (dropTxn p s) p r f.id stDone) := by
  have hearly : rollbackLate s p = false := by simp [rollbackLate, applyCame, hopen]
  rw [txnRollbackSend, txnRollbackAct, hres]
  simp [rollTxn, hrole, hearly, hopen]

end

theorem txnCommitSend_pends {slot : Nat}
    (hres : reservedOk f.words 0x200 [(2, 0xFFFFFFFF), (3, 0xFFFFFFFF), (4, 0xFFFFFFFF), (5, 0xFFFFFFFF)] = true)
    (hopen : (s.txn p).st = .open_) (hcheck : commitCheck s (s.txn p) f.words = .inr slot) :
    txnCommitSend p r s f = deltaSend (.txnCommit p slot (64 * p + r)) stDone (pendTxn p r f.id slot s) := by
  have hpend := pendTxn_txnSet p r f.id slot s
  have hact : txnCommitAct (isStandby s) p r s f = pendTxn p r f.id slot s := by
    rw [txnCommitAct, hres]
    simp [pendTxn, hrole, hopen, hcheck]
  simp [txnCommitSend, hact, hopen, hpend.same]

end

/-! The steps. -/

section
variable {s : State} {t : Nat} {p : PartId} {r : RingNo} {y : State × Flight}

theorem exec_txnBegin (h : Fetches (s.runTo t) p r 0x21 y) : exec (.txnBegin t p r) s = .next (txnBeginSend p r y.1 y.2) := by
  show Host.Outcome.next (withDesc _ _ _ _ _) = _
  rw [withDesc_eq h (opIs_of_fetches h _)]

theorem exec_txnCommit (h : Fetches (s.runTo t) p r 0x22 y) : exec (.txnCommit t p r) s = .next (txnCommitSend p r y.1 y.2) := by
  show Host.Outcome.next (withDesc _ _ _ _ _) = _
  rw [withDesc_eq h (opIs_of_fetches h _)]

theorem exec_txnRollback (h : Fetches (s.runTo t) p r 0x23 y) :
    exec (.txnRollback t p r) s = .next (txnRollbackSend p r y.1 y.2) := by
  show Host.Outcome.next (withDesc _ _ _ _ _) = _
  rw [withDesc_eq h (opIs_of_fetches h _)]

end

/-- Settles O19: each command changes its partition's transaction by one update, after which only its write-back and the state delta
follow. -/
theorem transactionCommands : Obligations.TransactionCommands := by
  rintro s _ t p r y rfl hrole
  refine ⟨?begins, ?conflict, ?full, ?commit, ?rollback⟩
  case begins =>
    intro hfetch hres hidle hroom
    rw [exec_txnBegin hfetch, txnBeginSend_opens hrole hres hidle hroom]
    have hset := ((openTxn_txnSet p y.1).after_complete p r y.2.id (beginWb y.1)).after_deltaSend (.txnBegin p) stDone
    refine ⟨_, rfl, ?_, ?_, ?_, hset.regs, hset.others, deltaSend_db _ _ _, deltaSend_dram _ _ _⟩ <;> rw [hset.same]
  case conflict =>
    intro hfetch hres hbusy
    rw [exec_txnBegin hfetch, txnBeginSend_conflict hrole hres hbusy]
  case full =>
    intro hfetch hres hidle hfull
    rw [exec_txnBegin hfetch, txnBeginSend_full hrole hres hidle hfull]
  case commit =>
    intro slot hfetch hres hopen hcheck
    rw [exec_txnCommit hfetch, txnCommitSend_pends hrole hres hopen hcheck]
    have hset := (pendTxn_txnSet p r y.2.id slot y.1).after_deltaSend (.txnCommit p slot (64 * p + r)) stDone
    refine ⟨_, rfl, ?_, ?_, ?_, hset.regs, hset.others⟩ <;> rw [hset.same]
  case rollback =>
    intro hfetch hres hopen
    rw [exec_txnRollback hfetch, txnRollbackSend_drops hrole hres hopen]
    have hset := ((dropTxn_txnSet p y.1).after_finish p r y.2.id stDone).after_deltaSend (.txnRollback p false) stDone
    refine ⟨_, rfl, ?_, ?_, hset.regs, hset.others⟩ <;> rw [hset.same]

end Sys2Proof.Machine
end

section
/-! The mate link: heartbeats, beacons and two ACTIVE units (R412, R415, R418 to R420, R424, R425). -/

namespace Sys2Proof.Machine

/-! Event records, interrupts and tally events leave the run of the pair. -/

@[simp] theorem devWrite_pu (s : State) (p a : Nat) (bs : List (BitVec 8)) : (devWrite s p a bs).pu = s.pu := by
  unfold devWrite; split <;> rfl

@[simp] theorem indexBlock_pu (s : State) (p r : Nat) : (indexBlock s p r).pu = s.pu := devWrite_pu _ _ _ _

@[simp] theorem offerRecord_pu (s : State) (p r : Nat) (w0 : BitVec 32) (body : List (Nat × BitVec 32)) (st : Stamp) :
    (offerRecord s p r w0 body st).1.pu = s.pu := by
  unfold offerRecord; dsimp only; split <;> simp

@[simp] theorem irqStamp_pu (s : State) (h f id : Nat) (src : BitVec 32) : (irqStamp s h f id src).pu = s.pu := by
  unfold irqStamp; dsimp only; split <;> simp

@[simp] theorem postRelease_pu (s : State) (h t : Nat) : (postRelease s h t).pu = s.pu := by
  unfold postRelease; dsimp only; repeat' split
  all_goals rfl

@[simp] theorem queuePost_pu (s : State) (h : Nat) (q : Post) (permitted : Bool) : (queuePost s h q permitted).2.pu = s.pu := by
  unfold queuePost; dsimp only; repeat' split
  all_goals simp

@[simp] theorem assertIrq_pu (n : Nat) (s : State) (h f id : Nat) (src : BitVec 32) : (assertIrq n s h f id src).pu = s.pu := by
  induction n generalizing s h f id src with
  | zero => rfl
  | succ n ih =>
    unfold assertIrq; dsimp only; repeat' split
    all_goals simp [ih]

@[simp] theorem devIrq_pu (s : State) (p id block unit : Nat) : (devIrq s p id block unit).pu = s.pu := by
  unfold devIrq; split <;> simp

@[simp] theorem ringIrq_pu (s : State) (p r : Nat) (flagged : Bool) : (ringIrq s p r flagged).pu = s.pu := by
  unfold ringIrq; dsimp only; split <;> simp

@[simp] theorem recordTo_pu (s : State) (p r : Nat) (w0 : BitVec 32) (body : List (Nat × BitVec 32)) (st : Stamp) :
    (recordTo s p r w0 body st).pu = s.pu := by
  unfold recordTo; dsimp only; split <;> simp

theorem foldl_pu {β : Type} {f : State → β → State} (hf : ∀ a b, (f a b).pu = a.pu) (l : List β) (s : State) :
    (l.foldl f s).pu = s.pu :=
  List.foldlRecOn (motive := fun a => a.pu = s.pu) l f rfl fun a ha b _ => (hf a b).trans ha

@[simp] theorem recordAll_pu (s : State) (w0 : BitVec 32) (body : List (Nat × BitVec 32)) (st : Stamp) :
    (recordAll s w0 body st).pu = s.pu := by
  refine foldl_pu (fun a p => ?_) _ s
  dsimp only
  split
  · simp
  · exact foldl_pu (fun b r => recordTo_pu b p r w0 body st) _ a

@[simp] theorem programOpen_pu (s : State) : (programOpen s).pu = s.pu := by
  unfold programOpen; repeat' split
  all_goals rfl

@[simp] theorem tallyEvent_pu (s : State) (type : Nat) (detail : BitVec 32) : (tallyEvent s type detail).pu = s.pu := by
  unfold tallyEvent; dsimp only; repeat' split
  all_goals simp

@[simp] theorem recordAll_tb (s : State) (w0 : BitVec 32) (body : List (Nat × BitVec 32)) (st : Stamp) :
    (recordAll s w0 body st).tb = s.tb := (recordAll_calm (Calm.refl s)).tb

@[simp] theorem recordAll_pr (s : State) (w0 : BitVec 32) (body : List (Nat × BitVec 32)) (st : Stamp) :
    (recordAll s w0 body st).pr = s.pr := (recordAll_calm (Calm.refl s)).pr

/-! Counters, flags and the role of the pair. -/

@[simp] theorem prCntOf_prCount (s : State) (i j : Nat) :
    prCntOf (prCount s i) j = if j = i then inc32 (prCntOf s i) else prCntOf s j :=
  Tbl.get_upd 0 i inc32 s.pr.cnt j

@[simp] theorem prCntOf_raiseFlag (s : State) (i j : Nat) : prCntOf (raiseFlag s i) j = prCntOf s j := rfl

theorem raiseFlag_raised (s : State) {i : Nat} (hi : i < 32) : (raiseFlag s i).pu.flags.getLsbD i = true := by
  have hbit : (flagBit i).getLsbD i = true := by
    simp [flagBit, BitVec.getLsbD_ofNat, hi, -BitVec.getLsbD_eq_getElem]
  rw [raiseFlag, BitVec.getLsbD_or, hbit, Bool.or_true]

theorem raiseFlag_stays {s : State} {j : Nat} (i : Nat) (h : s.pu.flags.getLsbD j = true) :
    (raiseFlag s i).pu.flags.getLsbD j = true := by
  simp [raiseFlag, h]

/-- ROLE_CHANGE (R430): of the redundancy controller's state the role changes, no counter and no health flag. -/
@[simp] theorem changeRole_frame (s : State) (new : PRole) (cause : Nat) :
    (changeRole s new cause).pr = { s.pr with role := new } ∧ (changeRole s new cause).pu.flags = s.pu.flags ∧
    (changeRole s new cause).tb = s.tb := by
  simp [changeRole]

theorem changeRole_cnt (s : State) (new : PRole) (cause i : Nat) : prCntOf (changeRole s new cause) i = prCntOf s i := by
  simp [prCntOf]

theorem gatesOpen_of_standby {s : State} (h : s.pr.role = .standby) : gatesOpen s = false := by
  simp [gatesOpen, h]

/-! Loss of the mate link (R424). -/

/-- What the establishment of mate-link loss keeps: the clock, the role, what was heard of the neighbour, all counts but its own and every
health flag that is set. A unit that is not STANDBY keeps its sync state. -/
structure LossChecked (a b : State) : Prop where
  tb : b.tb = a.tb
  role : b.pr.role = a.pr.role
  m0Up : b.pr.m0Up = a.pr.m0Up
  bcnAt : b.pr.bcnAt = a.pr.bcnAt
  neigh : b.pr.neigh = a.pr.neigh
  beaconLost : b.pr.beaconLost = a.pr.beaconLost
  cnt : ∀ i, i ≠ 6 → prCntOf b i = prCntOf a i
  flags : ∀ i, a.pu.flags.getLsbD i = true → b.pu.flags.getLsbD i = true
  sync : a.pr.role ≠ .standby ∨ a.pr.sync = .cold → b.pr.sync = a.pr.sync

theorem mateLinkLoss_lossChecked (s : State) : LossChecked s (mateLinkLoss s) := by
  have hcnt (i : Nat) (hi : i ≠ 6) : prCntOf (prCount s 6) i = prCntOf s i := by simp [hi]
  unfold mateLinkLoss
  dsimp only
  split
  next hstandby =>
    exact ⟨rfl, rfl, rfl, rfl, rfl, rfl, hcnt, fun _ => raiseFlag_stays 2, fun h => (h.resolve_left (not_not_intro hstandby)).symm⟩
  next => exact ⟨rfl, rfl, rfl, rfl, rfl, rfl, hcnt, fun _ => raiseFlag_stays 2, fun _ => rfl⟩

theorem mateLossCheck_lossChecked (s : State) : LossChecked s (mateLossCheck s) := by
  unfold mateLossCheck
  split
  · exact mateLinkLoss_lossChecked s
  · exact ⟨rfl, rfl, rfl, rfl, rfl, rfl, fun _ _ => rfl, fun _ h => h, fun _ => rfl⟩

/-! Two ACTIVE units (R412). -/

/-- From x, an ACTIVE unit, to y an ACTIVE neighbour was heard: it is counted and flagged, position B yields and position A goes on. -/
structure DualHandled (x y : State) : Prop where
  counted : prCntOf y 8 = inc32 (prCntOf x 8)
  flagged : y.pu.flags.getLsbD 12 = true
  tb : y.tb = x.tb
  yields : x.pr.position = 1 → y.pr.role = .standby ∧ y.pr.sync = .cold
  goesOn : x.pr.position ≠ 1 → y.pr.role = .active ∧ y.pr.sync = x.pr.sync

theorem dualActive_handled {x : State} (hactive : x.pr.role = .active) : DualHandled x (dualActive x) := by
  unfold dualActive
  dsimp only
  split
  next hB =>
    refine ⟨?_, ?_, ?_, fun _ => ?_, fun hA => absurd hB hA⟩
    · rw [changeRole_cnt]
      exact prCntOf_prCount x 8 8
    · rw [(changeRole_frame _ _ _).2.1]
      exact raiseFlag_raised (prCount x 8) (by decide)
    · simp
    · simp
  next hA =>
    exact ⟨prCntOf_prCount x 8 8, raiseFlag_raised _ (by decide), rfl, fun hB => absurd hB hA, fun _ => ⟨hactive, rfl⟩⟩

/-- Position B is COLD when it yields, and position A is no STANDBY: the check for mate-link loss changes neither. -/
theorem DualHandled.lossChecked {x y z : State} (h : DualHandled x y) (hz : LossChecked y z) : DualHandled x z where
  counted := (hz.cnt 8 (by decide)).trans h.counted
  flagged := hz.flags 12 h.flagged
  tb := hz.tb.trans h.tb
  yields hB := by
    obtain ⟨hrole, hsync⟩ := h.yields hB
    exact ⟨hz.role.trans hrole, (hz.sync (.inr hsync)).trans hsync⟩
  goesOn hA := by
    obtain ⟨hrole, hsync⟩ := h.goesOn hA
    exact ⟨hz.role.trans hrole, (hz.sync (.inl (by simp [hrole]))).trans hsync⟩

/-- The gates of a unit that yields are closed: only an ACTIVE unit's are open. -/
theorem DualHandled.outcome {x y : State} (h : DualHandled x y) :
    prCntOf y 8 = inc32 (prCntOf x 8) ∧ y.pu.flags.getLsbD 12 = true ∧ y.tb = x.tb ∧
    (x.pr.position = 1 → y.pr.role = .standby ∧ y.pr.sync = .cold ∧ gatesOpen y = false) ∧
    (x.pr.position ≠ 1 → y.pr.role = .active ∧ y.pr.sync = x.pr.sync) := by
  refine ⟨h.counted, h.flagged, h.tb, fun hB => ?_, h.goesOn⟩
  obtain ⟨hrole, hsync⟩ := h.yields hB
  exact ⟨hrole, hsync, gatesOpen_of_standby hrole⟩

/-! Heartbeats (R415, R424). -/

theorem heartbeatSend_both {x : State} (hlive : outputsLive x = true) (h0 : (x.mac 8).link = true) (h1 : (x.mac 9).link = true) :
    heartbeatSend x = mateSend (mateSend { x with pr.hbSentAt := x.tb.edge } (.heartbeat 0 x.pr.role)) (.heartbeat 1 x.pr.role) := by
  simp [heartbeatSend, hlive, h0, h1]

theorem heartbeatSend_first {x : State} (hlive : outputsLive x = true) (h0 : (x.mac 8).link = true) (h1 : (x.mac 9).link = false) :
    heartbeatSend x = mateSend { x with pr.hbSentAt := x.tb.edge } (.heartbeat 0 x.pr.role) := by
  simp [heartbeatSend, hlive, h0, h1]

/-- What a heartbeat tells this unit: its port is alive, and what the neighbour is (R415, R424). -/
def heartbeatNoted (port : Nat) (hb : Heartbeat) (s : State) : State :=
  { s with pr.hb0 := if port = 0 then some s.tb.edge else s.pr.hb0,
           pr.hb1 := if port = 0 then s.pr.hb1 else some s.tb.edge,
           pr.m0Up := s.pr.m0Up || port == 0, pr.m1Up := s.pr.m1Up || port != 0,
           pr.hbT16 := now16 s, pr.mateLost := false, pr.neighCls := some hb.platform,
           pr.seen := true, pr.seenActive := s.pr.seenActive || hb.role == .active }

theorem heartbeatRx_of_dual {port : Nat} {hb : Heartbeat} {x : State} (h : x.pr.role = .active ∧ hb.role = .active) :
    heartbeatRx port hb x = dualActive (heartbeatNoted port hb x) := if_pos h

theorem heartbeatRx_of_not_dual {port : Nat} {hb : Heartbeat} {x : State} (h : x.pr.role ≠ .active ∨ hb.role ≠ .active) :
    heartbeatRx port hb x = heartbeatNoted port hb x := if_neg (not_and_or.2 h)

theorem heartbeatRx_handled {port : Nat} {hb : Heartbeat} {x : State} (hown : x.pr.role = .active) (hother : hb.role = .active) :
    DualHandled x (heartbeatRx port hb x) := by
  rw [heartbeatRx_of_dual ⟨hown, hother⟩]
  obtain ⟨hcount, hflag, htb, hB, hA⟩ := dualActive_handled (x := heartbeatNoted port hb x) hown
  exact ⟨hcount, hflag, htb, hB, hA⟩

/-- M0 alone is alive: its window ends HB_WIN after its last heartbeat. -/
theorem hbExpiry_first {s : State} {a : Nat} (hb : s.pr.hb0 = some a) (hup : s.pr.m0Up = true) (hdown : s.pr.m1Up = false) :
    hbExpiry s = mateLossCheck (raiseFlag { s.runTo (a + hbWin s) with pr.m0Up := false } 3) := by
  simp [hbExpiry, hb, hup, hdown]

/-! Beacons (R418, R419, R425). -/

theorem beaconSend_of_port {x : State} {port : Nat} (hlive : outputsLive x = true) (hport : (bcnPorts x / 2 ^ port) % 2 = 1) :
    (beaconSend port x).pr = { x.pr with
      beacons := x.pr.beacons ++ [(port, ownBeacon x port)],
      bcnSeq := Tbl.upd 0 x.pr.bcnSeq port (fun n => (n + 1) % 2 ^ 32), bcnSentAt := x.tb.edge } := by
  simp [beaconSend, hlive, hport]

/-- A beacon of the other position is taken (R419): its flags, its time and its content. -/
def beaconTaken (b : Beacon) (s : State) : State :=
  let s0 := if neighSeen s then s else raiseFlag s 9
  let s1 := { (if b.fit then s0 else raiseFlag s0 10) with
    pr.bcnAt := some s.tb.edge, pr.neigh := some b, pr.beaconLost := false, pr.seen := true,
    pr.seenActive := s.pr.seenActive || b.role == .active }
  if s.pr.position = 1 then { s1 with pu.holdFrom := holdSince s1 0 } else s1

theorem beaconTaken_frame (b : Beacon) (s : State) :
    (beaconTaken b s).tb = s.tb ∧ (beaconTaken b s).pr = { s.pr with
      bcnAt := some s.tb.edge, neigh := some b, beaconLost := false, seen := true,
      seenActive := s.pr.seenActive || b.role == .active } := by
  unfold beaconTaken
  dsimp only
  repeat' split
  all_goals exact ⟨rfl, rfl⟩

section
variable {b : Beacon} {x : State} (hmagic : b.magic = 0x4942) (hversion : b.version = 1)
include hmagic hversion

theorem beaconRx_other_pair (hpair : b.pairId ≠ pairId x) : beaconRx b x = prCount x 7 := by
  simp [beaconRx, hmagic, hversion, hpair]

theorem beaconRx_own_position (hpair : b.pairId = pairId x) (hpos : b.position = x.pr.position) :
    beaconRx b x = raiseFlag (prCount x 7) 13 := by
  simp [beaconRx, hmagic, hversion, hpair, hpos]

theorem beaconRx_neighbour (hpair : b.pairId = pairId x) (hpos : b.position ≠ x.pr.position) :
    beaconRx b x = mateLossCheck
      (if x.pr.role = .active ∧ b.role = .active then dualActive (beaconTaken b x) else beaconTaken b x) := by
  simp only [beaconRx, hmagic, hversion, hpair, hpos, ne_eq, not_true_eq_false, or_self, if_false]
  rfl

theorem beaconRx_of_not_dual (hpair : b.pairId = pairId x) (hpos : b.position ≠ x.pr.position)
    (hroles : x.pr.role ≠ .active ∨ b.role ≠ .active) : LossChecked (beaconTaken b x) (beaconRx b x) := by
  rw [beaconRx_neighbour hmagic hversion hpair hpos, if_neg (not_and_or.2 hroles)]
  exact mateLossCheck_lossChecked _

theorem beaconRx_handled (hpair : b.pairId = pairId x) (hpos : b.position ≠ x.pr.position)
    (hown : x.pr.role = .active) (hother : b.role = .active) : DualHandled x (beaconRx b x) := by
  obtain ⟨htaken, hpr⟩ := beaconTaken_frame b x
  have hactive : (beaconTaken b x).pr.role = .active := by rw [hpr]; exact hown
  rw [beaconRx_neighbour hmagic hversion hpair hpos, if_pos ⟨hown, hother⟩]
  obtain ⟨hcount, hflag, htb, hB, hA⟩ := (dualActive_handled hactive).lossChecked (mateLossCheck_lossChecked _)
  simp only [prCntOf, hpr] at hcount hB hA
  exact ⟨hcount, hflag, htb.trans htaken, hB, hA⟩

end

theorem bcnExpiry_of_heard {s : State} {e : Nat} (hheard : s.pr.bcnAt = some e) (hnot : s.pr.beaconLost = false) :
    (bcnExpiry s).tb = (s.runTo (e + bcnWin s)).tb ∧ (bcnExpiry s).pr = { s.pr with beaconLost := true } := by
  unfold bcnExpiry
  rw [hheard]
  simp [hnot, State.runTo, State.pass]

/-! The takeover waits for the heartbeats (R420, R425). -/

theorem State.runTo_edge (s : State) (t : Nat) : (s.runTo t).tb.edge = max s.tb.edge t := by
  show s.tb.edge + (t - s.tb.edge) = _
  omega

theorem heartbeat_le_takeoverEdge {s : State} {a e : Nat} (he : takeoverEdge s = some e)
    (hheard : s.pr.hb0 = some a ∨ s.pr.hb1 = some a) : a + hbWin s ≤ e := by
  obtain ⟨b, -, rfl⟩ := Option.map_eq_some_iff.1 he
  obtain h | h := hheard
  · simp [h]
  · simp [h]

/-- A takeover that is declared is declared at its edge. -/
theorem takeover_waits {resume : State → State} {s : State} {e : Nat} (hresume : ∀ z y, Keeps z y → Keeps z (resume y))
    (he : takeoverEdge s = some e) (hdue : ¬(s.pr.role ≠ .standby ∨ bcnPorts s = 0)) : e ≤ (takeover resume s).tb.edge := by
  have hedge : e ≤ (s.runTo e).tb.edge := by simp [State.runTo_edge]
  refine le_trans hedge (Keeps.edge ?_)
  simp only [takeover, he, hdue, if_false]
  apply hresume
  split
  · exact raiseSticky_keeps (prCount_keeps (prCount_keeps (changeRole_keeps (Keeps.of_eq (Keeps.refl _) rfl rfl rfl rfl rfl rfl rfl))))
  · exact prCount_keeps (changeRole_keeps (Keeps.of_eq (Keeps.refl _) rfl rfl rfl rfl rfl rfl rfl))

/-! The steps. -/

theorem byPair_eq {f : State → State} {s : State} {t : Nat} (h : pairLive (s.runTo t) = true) : byPair t f s = f (s.runTo t) := by
  simp [byPair, h]

theorem whenPair_eq {f : State → State} {s : State} (h : pairLive s = true) : whenPair f s = f s := by
  simp [whenPair, h]

section
variable {s : State} {t : Nat} (hpair : pairLive (s.runTo t) = true)
include hpair

theorem exec_heartbeatSend : exec (.heartbeatSend t) s = .next (heartbeatSend (s.runTo t)) :=
  congrArg _ (byPair_eq hpair)

theorem exec_heartbeatRx (port : Fin 2) (hb : Heartbeat) :
    exec (.heartbeatRx t port hb) s = .next (heartbeatRx port hb (s.runTo t)) :=
  congrArg _ (byPair_eq hpair)

theorem exec_beaconSend (port : PPort) : exec (.beaconSend t port) s = .next (beaconSend port (s.runTo t)) :=
  congrArg _ (byPair_eq hpair)

theorem exec_beaconRx {port : PPort} (b : Beacon) (hport : portLive (s.runTo t) port = true) :
    exec (.beaconRx t port b) s = .next (beaconRx b (s.runTo t)) :=
  congrArg _ ((byPair_eq hpair).trans (if_pos hport))

end

section
variable {s : State} (hpair : pairLive s = true)
include hpair

theorem exec_heartbeatWindowExpiry : exec .heartbeatWindowExpiry s = .next (hbExpiry s) :=
  congrArg _ (whenPair_eq hpair)

theorem exec_beaconWindowExpiry : exec .beaconWindowExpiry s = .next (bcnExpiry s) :=
  congrArg _ (whenPair_eq hpair)

theorem exec_takeover : exec .takeover s = .next (step9 (takeover (fun y => outputsResume (now16 y) y) s)) :=
  congrArg _ (whenPair_eq hpair)

/-- Outside step 9 no takeover makes a STANDBY ACTIVE before HB_WIN has passed since either port's last heartbeat (R425). -/
theorem takeover_after_heartbeat {y : State} {a : Nat} (hrole : s.pr.role = .standby) (hstep : s.pw.step ≠ 9)
    (hexec : exec .takeover s = .next y) (hactive : y.pr.role = .active) (hheard : s.pr.hb0 = some a ∨ s.pr.hb1 = some a) :
    a + hbWin s ≤ y.tb.edge := by
  rw [exec_takeover hpair] at hexec
  cases hexec
  have hidle : (step9 s).pr.role ≠ .active := by simp [step9, hstep, hrole]
  cases he : takeoverEdge s with
  | none => exact absurd (by simpa [takeover, he] using hactive) hidle
  | some e =>
    by_cases hdue : s.pr.role ≠ .standby ∨ bcnPorts s = 0
    · exact absurd (by simpa only [takeover, he, hdue, if_true] using hactive) hidle
    · calc a + hbWin s ≤ e := heartbeat_le_takeoverEdge he hheard
        _ ≤ (takeover (fun y => outputsResume (now16 y) y) s).tb.edge :=
          takeover_waits (fun _ _ hk => outputsResume_keeps hk) he hdue
        _ ≤ _ := (step9_keeps (Keeps.refl _)).edge

end

/-- Settles O52: each message's effect by whether both units are ACTIVE, each window's at its own end. -/
theorem mateLink : Obligations.MateLink := by
  intro s x t hx
  subst hx
  refine ⟨?hbSend, ?hbRx, ?hbWindow, ?bcnSend, ?bcnRx, ?bcnWindow, ?takeover, ?hbDual, ?bcnDual⟩
  case hbSend =>
    intro hpair hlive h0
    rw [exec_heartbeatSend hpair]
    exact ⟨fun h1 => by rw [heartbeatSend_both hlive h0 h1], fun h1 => by rw [heartbeatSend_first hlive h0 h1]⟩
  case hbRx =>
    intro port hb hpair hroles
    rw [exec_heartbeatRx hpair, heartbeatRx_of_not_dual hroles]
    refine ⟨_, rfl, ?_, ?_, rfl, rfl, rfl⟩
    · rintro rfl
      simp [heartbeatNoted]
    · rintro rfl
      simp [heartbeatNoted]
  case hbWindow =>
    intro a hpair hheard hup hdown
    rw [exec_heartbeatWindowExpiry hpair, hbExpiry_first hheard hup hdown]
    have hkept := mateLossCheck_lossChecked (raiseFlag { s.runTo (a + hbWin s) with pr.m0Up := false } 3)
    refine ⟨_, rfl, hkept.m0Up, ?_, hkept.flags 3 (raiseFlag_raised _ (by decide))⟩
    rw [hkept.tb]
    exact State.runTo_edge s _
  case bcnSend =>
    intro port hpair hlive hport
    rw [exec_beaconSend hpair]
    refine ⟨_, rfl, ?_⟩
    rw [beaconSend_of_port hlive hport]
    exact ⟨rfl, by simp, rfl⟩
  case bcnRx =>
    intro port b hpair hport hmagic hversion
    rw [exec_beaconRx hpair b hport]
    refine ⟨fun hother => ?_, fun hsame hown => ?_, fun hsame hneigh hroles => ?_⟩
    · rw [beaconRx_other_pair hmagic hversion hother]
    · rw [beaconRx_own_position hmagic hversion hsame hown]
    · obtain ⟨htb, hpr⟩ := beaconTaken_frame b (s.runTo t)
      have hkept := beaconRx_of_not_dual hmagic hversion hsame hneigh hroles
      refine ⟨_, rfl, ?_⟩
      rw [hkept.bcnAt, hkept.neigh, hkept.beaconLost, hkept.role, hkept.tb, hpr]
      exact ⟨rfl, rfl, rfl, rfl, htb⟩
  case bcnWindow =>
    intro e hpair hheard hnot
    obtain ⟨htb, hpr⟩ := bcnExpiry_of_heard hheard hnot
    rw [exec_beaconWindowExpiry hpair]
    refine ⟨_, rfl, ?_⟩
    rw [htb, hpr]
    exact ⟨rfl, State.runTo_edge s _, rfl, rfl⟩
  case takeover =>
    intro y a hpair hrole hstep hexec hactive hheard
    exact takeover_after_heartbeat hpair hrole hstep hexec hactive hheard
  case hbDual =>
    intro port hb hpair hown hother
    rw [exec_heartbeatRx hpair]
    exact ⟨_, rfl, (heartbeatRx_handled hown hother).outcome⟩
  case bcnDual =>
    intro port b hpair hport hmagic hversion hsame hneigh hown hother
    rw [exec_beaconRx hpair b hport]
    exact ⟨_, rfl, (beaconRx_handled hmagic hversion hsame hneigh hown hother).outcome⟩

end Sys2Proof.Machine
end

section
/-! The step of the block: what every command keeps, and the state after reset (R38, R296, R390, R463, log 1). -/

namespace Sys2Proof.Machine

/-- Every command answers a next state, which keeps the queue's rest, the canonical forms, the order of time and the fuses. -/
theorem exec_keeps : ∀ (c : Instr) (s : State), ∃ t, exec c s = .next t ∧ Keeps s t
  | .slotEdge, s => execSlotEdge_next s
  | .tbAddendLoWrite t h v, s => execTbAddendLoWrite_next t h v s
  | .tbAddendHiWrite t h v, s => execTbAddendHiWrite_next t h v s
  | .step t h v, s => execStep_next t h v s
  | .tbFwOffsetWrite t h v, s => execTbFwOffsetWrite_next t h v s
  | .tbNow0Read t h, s => execTbNow0Read_next t h s
  | .tbTsqT3Read t h, s => execTbTsqT3Read_next t h s
  | .refSwitchTcxo t diff, s => execRefSwitchTcxo_next t diff s
  | .refReturnOcxo diff, s => execRefReturnOcxo_next diff s
  | .stimecmpInterrupt h virt cmp, s => execStimecmpInterrupt_next h virt cmp s
  | .ptpMessageRx t port msg, s => execPtpMessageRx_next t port msg s
  | .ptpMessageTx t port kind, s => execPtpMessageTx_next t port kind s
  | .announceReceiptTimeout, s => execAnnounceReceiptTimeout_next s
  | .syncReceiptTimeout, s => execSyncReceiptTimeout_next s
  | .fwTmoExpiry, s => execFwTmoExpiry_next s
  | .leapSecond, s => execLeapSecond_next s
  | .ttArm t p r, s => execTtArm_next t p r s
  | .ttCancel t p r, s => execTtCancel_next t p r s
  | .ttuFiring u, s => execTtuFiring_next u s
  | .ppsPulse n, s => execPpsPulse_next n s
  | .irigBFrame n, s => execIrigBFrame_next n s
  | .svFrame t port octets, s => execSvFrame_next t port octets s
  | .gooseFrame t port octets, s => execGooseFrame_next t port octets s
  | .griuzSurgeFrame t port octets, s => execGriuzSurgeFrame_next t port octets s
  | .griuzArrivalMessage t port octets, s => execGriuzArrivalMessage_next t port octets s
  | .prpSupervisionFrame t port octets, s => execPrpSupervisionFrame_next t port octets s
  | .keyOverlapEnd e, s => execKeyOverlapEnd_next e s
  | .duplicateEntryForgotten q mac, s => execDuplicateEntryForgotten_next q mac s
  | .streamLost e, s => execStreamLost_next e s
  | .gooseTalExpiry e, s => execGooseTalExpiry_next e s
  | .chainSettled c ce, s => execChainSettled_next c ce s
  | .capArm t p r, s => execCapArm_next t p r s
  | .capAbort t p r, s => execCapAbort_next t p r s
  | .capAbortExport t p r, s => execCapAbortExport_next t p r s
  | .capForce t p r, s => execCapForce_next t p r s
  | .capRelease t p r, s => execCapRelease_next t p r s
  | .capExport t p r, s => execCapExport_next t p r s
  | .captureComplete g, s => execCaptureComplete_next g s
  | .phStreamStart t p r, s => execPhStreamStart_next t p r s
  | .phStreamStop t p r, s => execPhStreamStop_next t p r s
  | .phStreamMark t p r, s => execPhStreamMark_next t p r s
  | .dataFrameBuild n, s => execDataFrameBuild_next n s
  | .detectorArmed l, s => execDetectorArmed_next l s
  | .arrivalsSend l, s => execArrivalsSend_next l s
  | .phasorsSend l, s => execPhasorsSend_next l s
  | .messageRepeat l, s => execMessageRepeat_next l s
  | .remoteWaitExpiry l, s => execRemoteWaitExpiry_next l s
  | .seImp l, s => execSeImp_next l s
  | .eventClose l, s => execEventClose_next l s
  | .handOff h, s => execHandOff_next h s
  | .programExchange h, s => execProgramExchange_next h s
  | .fbLoad t p r, s => execFbLoad_next t p r s
  | .fbCmdRun t p r, s => execFbCmdRun_next t p r s
  | .fbCmdStop t p r, s => execFbCmdStop_next t p r s
  | .fbCmdHold t p r, s => execFbCmdHold_next t p r s
  | .fbCmdStep t p r, s => execFbCmdStep_next t p r s
  | .fbCmdTestOn t p r, s => execFbCmdTestOn_next t p r s
  | .fbCmdTestOff t p r, s => execFbCmdTestOff_next t p r s
  | .fbForce t p r, s => execFbForce_next t p r s
  | .fbForceRelease t p r, s => execFbForceRelease_next t p r s
  | .fbPeek t p r, s => execFbPeek_next t p r s
  | .fbPoke t p r, s => execFbPoke_next t p r s
  | .gooseRetransmission gcb, s => execGooseRetransmission_next gcb s
  | .loopRelease l, s => execLoopRelease_next l s
  | .missLimit l, s => execMissLimit_next l s
  | .laneReload g, s => execLaneReload_next g s
  | .laneCompare g n, s => execLaneCompare_next g n s
  | .blockInputAssert t b, s => execBlockInputAssert_next t b s
  | .blockInputRelease t b, s => execBlockInputRelease_next t b s
  | .glForceGo t h v, s => execGlForceGo_next t h v s
  | .moduleReset t h, s => execModuleReset_next t h s
  | .partitionReset t h target, s => execPartitionReset_next t h target s
  | .hearthReset t h target, s => execHearthReset_next t h target s
  | .engineResetFbe t h target, s => execEngineResetFbe_next t h target s
  | .engineResetLoop t h target, s => execEngineResetLoop_next t h target s
  | .engineResetCapture t h target, s => execEngineResetCapture_next t h target s
  | .resetEffective, s => execResetEffective_next s
  | .resetDrainComplete t, s => execResetDrainComplete_next t s
  | .seteipnum t h target file be v, s => execSeteipnum_next t h target file be v s
  | .coreDramAccess t h kind addr size data, s => execCoreDramAccess_next t h kind addr size data s
  | .delayListRelease h, s => execDelayListRelease_next h s
  | .deadlineMiss h task, s => execDeadlineMiss_next h task s
  | .budgetOverrun h, s => execBudgetOverrun_next h s
  | .sqrun t h mode task, s => execSqrun_next t h mode task s
  | .sqrunIdle t h mode, s => execSqrunIdle_next t h mode s
  | .sqdone t h mode, s => execSqdone_next t h mode s
  | .sqpost t h mode tgt task payload, s => execSqpost_next t h mode tgt task payload s
  | .sqtake t h mode, s => execSqtake_next t h mode s
  | .producerDoorbell t h page word, s => execProducerDoorbell_next t h page word s
  | .consumerDoorbell t h page word, s => execConsumerDoorbell_next t h page word s
  | .nop t p r, s => execNop_next t p r s
  | .fence t p r, s => execFence_next t p r s
  | .txFrame t p r, s => execTxFrame_next t p r s
  | .rxBuf t p r, s => execRxBuf_next t p r s
  | .frameTxStart t port, s => execFrameTxStart_next t port s
  | .frameTxComplete t port, s => execFrameTxComplete_next t port s
  | .txnBegin t p r, s => execTxnBegin_next t p r s
  | .txnCommit t p r, s => execTxnCommit_next t p r s
  | .txnRollback t p r, s => execTxnRollback_next t p r s
  | .stagedWrite t h addr v, s => execStagedWrite_next t h addr v s
  | .txnApply, s => execTxnApply_next s
  | .registerWrite t h addr v, s => execRegisterWrite_next t h addr v s
  | .frameRx t port octets flags, s => execFrameRx_next t port octets flags s
  | .frameDelivery t, s => execFrameDelivery_next t s
  | .followUpTimeout k, s => execFollowUpTimeout_next k s
  | .linkLoss t port receiving, s => execLinkLoss_next t port receiving s
  | .linkUp t port speed half, s => execLinkUp_next t port speed half s
  | .holdExpiry port, s => execHoldExpiry_next port s
  | .collision t port late, s => execCollision_next t port late s
  | .backoffExpiry port, s => execBackoffExpiry_next port s
  | .verifyTimeout port, s => execVerifyTimeout_next port s
  | .pause t port quanta, s => execPause_next t port quanta s
  | .pfc t port vec times, s => execPfc_next t port vec times s
  | .pauseExpiry port, s => execPauseExpiry_next port s
  | .opticsPoll t port reading, s => execOpticsPoll_next t port reading s
  | .transceiverInsertion t port a0 a2, s => execTransceiverInsertion_next t port a0 a2 s
  | .keyDerive t p r, s => execKeyDerive_next t p r s
  | .keyImport t p r, s => execKeyImport_next t p r s
  | .keyExport t p r, s => execKeyExport_next t p r s
  | .keyRevoke t p r, s => execKeyRevoke_next t p r s
  | .keyApplication, s => execKeyApplication_next s
  | .keyMac t p r, s => execKeyMac_next t p r s
  | .keyAead t p r, s => execKeyAead_next t p r s
  | .keyAeadDecrypt t p r, s => execKeyAeadDecrypt_next t p r s
  | .keySign t p r, s => execKeySign_next t p r s
  | .keyPub t p r, s => execKeyPub_next t p r s
  | .keyInfo t p r, s => execKeyInfo_next t p r s
  | .lcRequest t p r, s => execLcRequest_next t p r s
  | .fuseProgrammingComplete t, s => execFuseProgrammingComplete_next t s
  | .tamper t src, s => execTamper_next t src s
  | .okTamperWrite t h v, s => execOkTamperWrite_next t h v s
  | .heartbeatSend t, s => execHeartbeatSend_next t s
  | .heartbeatRx t port hb, s => execHeartbeatRx_next t port hb s
  | .beaconSend t port, s => execBeaconSend_next t port s
  | .beaconRx t port beacon, s => execBeaconRx_next t port beacon s
  | .heartbeatWindowExpiry, s => execHeartbeatWindowExpiry_next s
  | .beaconWindowExpiry, s => execBeaconWindowExpiry_next s
  | .takeover, s => execTakeover_next s
  | .negotiationEnd, s => execNegotiationEnd_next s
  | .stateDeltaItem t item, s => execStateDeltaItem_next t item s
  | .decisionRecord t record, s => execDecisionRecord_next t record s
  | .counterpartTimeout, s => execCounterpartTimeout_next s
  | .confirmation t id, s => execConfirmation_next t id s
  | .resyncRequest t, s => execResyncRequest_next t s
  | .resyncSnapshot, s => execResyncSnapshot_next s
  | .resyncStateApply t snap, s => execResyncStateApply_next t snap s
  | .synced, s => execSynced_next s
  | .prSwitch t h v, s => execPrSwitch_next t h v s
  | .revertHoldoff, s => execRevertHoldoff_next s
  | .switch t at_, s => execSwitch_next t at_ s
  | .go, s => execGo_next s
  | .goAck t, s => execGoAck_next t s
  | .switchover, s => execSwitchover_next s
  | .selftest t test fatal detail, s => execSelftest_next t test fatal detail s
  | .health, s => execHealth_next s
  | .stWrite t p r, s => execStWrite_next t p r s
  | .stRead t p r, s => execStRead_next t p r s
  | .stDelete t p r, s => execStDelete_next t p r s
  | .stList t p r, s => execStList_next t p r s
  | .stAbort t p r, s => execStAbort_next t p r s
  | .stTallyClear t p r, s => execStTallyClear_next t p r s
  | .journalCommit t op fails, s => execJournalCommit_next t op fails s
  | .wearLevelingMove t, s => execWearLevelingMove_next t s
  | .backgroundScrub t blk codeword corrected, s => execBackgroundScrub_next t blk codeword corrected s
  | .shutdownExpiry, s => execShutdownExpiry_next s
  | .tyEvent t h v, s => execTyEvent_next t h v s
  | .tallyWindowRead t h off size, s => execTallyWindowRead_next t h off size s
  | .feedPresent t feed cls, s => execFeedPresent_next t feed cls s
  | .feedLoss t feed, s => execFeedLoss_next t feed s
  | .holdupChange t ok, s => execHoldupChange_next t ok s
  | .supercapacitorLow t, s => execSupercapacitorLow_next t s
  | .domainBistComplete t domain pass, s => execDomainBistComplete_next t domain pass s
  | .timeWaitExpiry, s => execTimeWaitExpiry_next s
  | .haltRetry, s => execHaltRetry_next s
  | .preemptionVerificationRx t port kind, s => execPreemptionVerificationRx_next t port kind s
  | .transceiverRemoval t port, s => execTransceiverRemoval_next t port s
  | .keyUseComplete t use, s => execKeyUseComplete_next t use s
  | .stReadComplete t read, s => execStReadComplete_next t read s
  | .fbLoadComplete t h, s => execFbLoadComplete_next t h s
  | .imageAcknowledged t h, s => execImageAcknowledged_next t h s
  | .eraseComplete t blk ok, s => execEraseComplete_next t blk ok s
  | .tamperSourceClear t src, s => execTamperSourceClear_next t src s
  | .hours16Advance, s => execHours16Advance_next s
  | .supervisorModuleReset t, s => execSupervisorModuleReset_next t s
  | .switchAcknowledged t, s => execSwitchAcknowledged_next t s
  | .goReceived t, s => execGoReceived_next t s
/-- The passing of one edge on an empty queue keeps all of it too. -/
theorem step_keeps (s : State) : ∃ t, step s = .next t ∧ Keeps { s with pending := s.pending.tail } t := by
  obtain ⟨pending⟩ := s
  cases pending with
  | nil => exact ⟨_, rfl, State.pass_keeps (Keeps.refl _)⟩
  | cons c rest => exact exec_keeps c _

/-- Settles O1: `step` matches on the queue. -/
theorem stepRunsFront : Obligations.StepRunsFront := by
  intro s c q
  refine ⟨rfl, ?_⟩
  show Host.Outcome.next (State.pass _ 1) = _
  rw [State.pass, Nat.one_mul]

/-- Settles O2: the state after reset holds empty tables, and registers are held as differences from their reset values. -/
theorem resetState : Obligations.ResetState := by
  refine ⟨rfl, rfl, rfl, rfl, fun _ => rfl, rfl, fun _ => rfl, fun off sel => ?_, rfl, rfl⟩
  show (0 : BitVec 32) ^^^ regReset off sel = regReset off sel
  exact BitVec.zero_xor

/-- Settles O3: each clause is one of what a step keeps. -/
theorem stepInvariant : Obligations.StepInvariant := by
  intro s
  obtain ⟨t, hstep, hkeeps⟩ := step_keeps s
  exact ⟨t, hstep, hkeeps.pending, hkeeps.dram, hkeeps.regs, hkeeps.edge⟩

/-- Settles O4: the fuses are among what a command keeps. -/
theorem fusesStay : Obligations.FusesStay := by
  intro c s
  obtain ⟨t, hexec, hkeeps⟩ := exec_keeps c s
  exact ⟨t, hexec, hkeeps.fused, hkeeps.owner, hkeeps.secret⟩

end Sys2Proof.Machine
end

section
/-! The addend of a rate correction, and a change of the time reference (R39, R41). -/

namespace Sys2Proof.Machine

/-- A correction clamped to ±200,000 ppb, in 2^-12 ppb (R39). -/
theorem clampI_eq_max_min (lo hi i : Int) (h : lo ≤ hi) : clampI lo hi i = max lo (min i hi) := by
  unfold clampI
  split
  · omega
  · split <;> omega

/-- Rounding to the nearest whole number, ties up: the result lies within half a unit of the quotient. -/
theorem roundUpTie_bounds (num : Int) (den : Nat) (h : 0 < den) :
    (2 * roundUpTie num den - 1) * den ≤ 2 * num ∧ 2 * num < (2 * roundUpTie num den + 1) * den := by
  have hpos : (0 : Int) < 2 * den := by omega
  have hlow := Int.ediv_mul_le (2 * num + den) (ne_of_gt hpos)
  have hhigh := Int.lt_ediv_add_one_mul_self (2 * num + den) hpos
  unfold roundUpTie
  constructor <;> linarith

/-- The addend of a correction, which the clamp keeps far from 0 and below 48 bits (R39). -/
theorem addendOf_bounds (c k : Int) (hk : k = max (-200000 * 4096) (min c (200000 * 4096))) :
    (2 * (addendOf c : Int) - 1) * 10 ^ 9 ≤ 2 * (2 ^ 42 * 10 ^ 9 + k * 2 ^ 30) ∧
      2 * (2 ^ 42 * 10 ^ 9 + k * 2 ^ 30) < (2 * (addendOf c : Int) + 1) * 10 ^ 9 ∧ addendOf c < 2 ^ 48 := by
  have hclamp : clampI (-200000 * 4096) (200000 * 4096) c = k := by
    rw [clampI_eq_max_min _ _ _ (by norm_num), hk, min_comm c, min_comm]
  obtain ⟨hlow, hhigh⟩ := roundUpTie_bounds (k * 2 ^ 30) (10 ^ 9) (by norm_num)
  have haddend : (addendOf c : Int) = 2 ^ 42 + roundUpTie (k * 2 ^ 30) (10 ^ 9) := by
    rw [addendOf, hclamp, Int.toNat_of_nonneg]
    norm_num at hlow hhigh ⊢
    omega
  norm_num at hlow hhigh haddend ⊢
  omega

/-- A switch to the TCXO (R41): the reference was the OCXO. -/
theorem refToTcxo_of_ocxo {s : State} (diff : Int) (h : s.tb.refTcxo = false) :
    refToTcxo diff s = if bit (s.cfg 0 0) 0 then refSwitch true diff s
      else { refSwitch true diff s with tb.ocxoOk := false, tb.ocxoSince := s.tb.edge } := by
  simp [refToTcxo, h]

theorem refToTcxo_of_tcxo {s : State} (diff : Int) (h : s.tb.refTcxo = true) : refToTcxo diff s = s := by
  simp [refToTcxo, h]

/-- Waiting for a slot edge is the passing of some edges. -/
theorem State.waitSlot_eq_pass (s : State) (k : Nat) : ∃ n, s.waitSlot k = s.pass n := ⟨_, rfl⟩

theorem refToOcxo_of_stays {s : State} (diff : Int) (h : s.tb.refTcxo = false ∨ bit (s.cfg 0 0) 0 = true) :
    refToOcxo diff s = s := by
  rcases h with h | h <;> simp [refToOcxo, h]

/-- What a change of the reference to the TCXO leaves of the clock (R41). -/
theorem refToTcxo_outcome {x : State} (diff : Int) (h : x.tb.refTcxo = false) :
    refToTcxo diff x = { x with tb := (refToTcxo diff x).tb } ∧ (refToTcxo diff x).tb.refTcxo = true ∧
      (refToTcxo diff x).tb.corr = x.tb.corr + diff ∧ (refToTcxo diff x).tb.integ = x.tb.integ.map (· + diff) ∧
      (refToTcxo diff x).tb.nextAddend =
        some (if servoEn x then addendOf (x.tb.corr + diff) else addendBy (x.tb.nextAddend.getD x.tb.addend) diff) ∧
      (refToTcxo diff x).tb.counter = x.tb.counter ∧ (refToTcxo diff x).tb.st = x.tb.st ∧
      (bit (x.cfg 0 0) 0 = false → (refToTcxo diff x).tb.ocxoOk = false) := by
  rw [refToTcxo_of_ocxo diff h]
  cases hforce : bit (x.cfg 0 0) 0 with
  | false => exact ⟨rfl, rfl, rfl, rfl, rfl, rfl, rfl, fun _ => rfl⟩
  | true => exact ⟨rfl, rfl, rfl, rfl, rfl, rfl, rfl, fun hfree => absurd hfree (by simp)⟩

/-- A change of the reference does not depend on the edges that pass before it, but for the counter (R41). -/
theorem refSwitch_pass (diff : Int) (s : State) (e n : Nat) :
    (refSwitch false diff ((s.runTo e).pass n)).tb.counter = ((s.runTo e).pass n).tb.counter ∧
      (refSwitch false diff ((s.runTo e).pass n)).tb.corr = s.tb.corr + diff ∧
      (refSwitch false diff ((s.runTo e).pass n)).tb.integ = s.tb.integ.map (· + diff) ∧
      (refSwitch false diff ((s.runTo e).pass n)).tb.nextAddend =
        some (if servoEn s then addendOf (s.tb.corr + diff) else addendBy (s.tb.nextAddend.getD s.tb.addend) diff) :=
  ⟨rfl, rfl, rfl, rfl⟩

/-- A return to the OCXO waits to the edge m of the 60 s and then for the next slot edge (R41). -/
theorem refToOcxo_outcome {s e : State} {m : Nat} (diff : Int) (h : s.tb.refTcxo = true) (hforce : bit (s.cfg 0 0) 0 = false)
    (hm : s.tb.ocxoSince + secEdges 60 = m) (he : e = s.runTo m) :
    (refToOcxo diff s).tb.counter = (e.waitSlot (slotCeil (now16 e))).tb.counter ∧ (refToOcxo diff s).tb.refTcxo = false ∧
      (refToOcxo diff s).tb.ocxoOk = true ∧ (refToOcxo diff s).tb.corr = s.tb.corr + diff ∧
      (refToOcxo diff s).tb.integ = s.tb.integ.map (· + diff) ∧ (refToOcxo diff s).tb.nextAddend =
        some (if servoEn s then addendOf (s.tb.corr + diff) else addendBy (s.tb.nextAddend.getD s.tb.addend) diff) := by
  have hswitch : refToOcxo diff s = { refSwitch false diff (e.waitSlot (slotCeil (now16 e))) with tb.ocxoOk := true } := by
    simp [refToOcxo, h, hforce, hm, he]
  obtain ⟨n, hn⟩ := State.waitSlot_eq_pass e (slotCeil (now16 e))
  rw [hswitch, hn, he]
  obtain ⟨hcounter, hcorr, hinteg, haddend⟩ := refSwitch_pass diff s m n
  exact ⟨hcounter, rfl, rfl, hcorr, hinteg, haddend⟩

theorem exec_refReturnOcxo {s : State} (diff : Int) (hpower : powered s = true) :
    exec (.refReturnOcxo diff) s = .next (refToOcxo diff s) := by
  show Host.Outcome.next (if powered s = true then _ else _) = _
  rw [if_pos hpower]

/-- Settles O5: the bounds of the addend, and each switch by the reference in use and REF_FORCE_TCXO. -/
theorem referenceChange : Obligations.ReferenceChange := by
  refine ⟨addendOf_bounds, rfl, fun s t diff => ⟨fun hocxo => ?_, fun htcxo => ?_, ?_, fun hstays => ?_⟩⟩
  · exact ⟨refToTcxo diff (s.runTo t), rfl, refToTcxo_outcome (x := s.runTo t) diff (by simpa using hocxo)⟩
  · show Host.Outcome.next (refToTcxo diff (s.runTo t)) = _
    rw [refToTcxo_of_tcxo diff (by simpa using htcxo)]
  · intro e hpower htcxo hforce he
    exact ⟨_, exec_refReturnOcxo diff hpower, refToOcxo_outcome diff htcxo hforce rfl he⟩
  · show Host.Outcome.next (if powered s = true then _ else _) = _
    rw [refToOcxo_of_stays diff hstays, ite_self]

end Sys2Proof.Machine
end

section
/-! PTP messages, and the entries of HOLDOVER (R45, R48, R56). -/

namespace Sys2Proof.Machine

/-- A message with an unsupported option is counted as a discard of its port (R48). -/
theorem ptpRx_unsupported {ok : Bool} {p : Nat} {m : PtpMsg} {s : State} (hon : ptpEnabled s p = true)
    (hopt : ptpUnsupported m = true) : ptpRx ok p m s = { s with ptp.discards := Tbl.upd 0 s.ptp.discards p inc32 } := by
  simp [ptpRx, hon, hopt]

/-- The answer of a one-step port to a Pdelay_Req (R48). -/
def pdelayAnswer (s : State) (p : Nat) (m : PtpMsg) : PtpMsg :=
  ptpMsg s p m.seq (m.corr + (txEvent s p - rxEvent s p)) (.pdelayResp false 0 m.src)

theorem ptpRx_pdelayReq {ok : Bool} {p : Nat} {m : PtpMsg} {s : State} (hon : ptpEnabled s p = true)
    (hopt : ptpUnsupported m = false) (hdomain : m.domain = fld (s.cfg 0x40 0) 31 24) (hbody : m.body = .pdelayReq)
    (hport : p < 8) : ptpRx ok p m s = ptpSend s p (pdelayAnswer s p m) := by
  simp [ptpRx, hon, hopt, hdomain, hbody, oneStepPort, hport, pdelayAnswer]

/-- A Pdelay_Req of the engine (R48). -/
theorem ptpTx_pdelay {p : Nat} {s : State} (hon : ptpEnabled s p = true) :
    ptpTx p .pdelay s = updPtpPort (ptpSend s p (ptpMsg s p (ptpPort s p).pdSeq 0 .pdelayReq)) p (fun y => { y with
      pdSeq := ((ptpPort s p).pdSeq + 1) % 65536, run := some { seq := (ptpPort s p).pdSeq, t1 := txEvent s p } }) := by
  simp [ptpTx, hon]

@[simp] theorem updPtpPort_ptpPort (s : State) (p q : Nat) (f : PtpPort → PtpPort) :
    ptpPort (updPtpPort s p f) q = if q = p then f (ptpPort s p) else ptpPort s q :=
  Tbl.get_upd _ _ _ _ _

@[simp] theorem ptpSend_ptpPort (s : State) (p q : Nat) (m : PtpMsg) : ptpPort (ptpSend s p m) q = ptpPort s q := rfl

/-- Outside step 7 of start-up a received message comes to `ptpRx` alone. -/
theorem exec_ptpMessageRx {s y : State} {t : Nat} {port : Port} {m : PtpMsg} (hlive : portLive (s.runTo t) port = true)
    (hact : ptpRx (stepOk (s.runTo t)) port m (s.runTo t) = y) (hstep : y.pw.step ≠ 7) :
    exec (.ptpMessageRx t port m) s = .next y := by
  show Host.Outcome.next (lockedCheck (byPort t port _ s)) = _
  rw [byPort_eq hlive, hact, lockedCheck_of_step_ne hstep]

theorem exec_ptpMessageTx {s : State} {t : Nat} {port : Port} (k : PtpTxKind) (hlive : portLive (s.runTo t) port = true) :
    exec (.ptpMessageTx t port k) s = .next (ptpTx port k (s.runTo t)) := by
  show Host.Outcome.next (byPort t port _ s) = _
  rw [byPort_eq hlive]

/-- Settles O6: the branch of `ptpRx` or `ptpTx` that each message takes. -/
theorem ptpMessages : Obligations.PtpMessages := by
  rintro s _ t port rfl hlive hon hstep
  refine ⟨fun m hopt => ?_, fun m hopt hdomain hbody hport => ?_, ?_⟩
  · exact exec_ptpMessageRx hlive (ptpRx_unsupported hon hopt) hstep
  · exact ⟨_, exec_ptpMessageRx hlive (ptpRx_pdelayReq hon hopt hdomain hbody hport) hstep, rfl, rfl, rfl, rfl⟩
  · rw [exec_ptpMessageTx _ hlive, ptpTx_pdelay hon]
    refine ⟨_, _, rfl, rfl, rfl, rfl, ?_, ?_, fun q hq => ?_, rfl⟩
    · simp
    · simp
    · simp [hq]

/-- HOLDOVER begins with the correction frozen at the integral, at this very edge (R56). -/
theorem enterHoldover_tb (s : State) :
    (enterHoldover s).tb.st = .holdover ∧ (enterHoldover s).tb.corr = servoI s ∧ (enterHoldover s).tb.edge = s.tb.edge ∧
      (enterHoldover s).ptp = s.ptp := by
  unfold enterHoldover stageAddend
  split <;> exact ⟨rfl, rfl, rfl, rfl⟩

theorem holdoverIfLocked_of_locked {s : State} (h : s.tb.st = .locked) : holdoverIfLocked s = enterHoldover s := if_pos h

/-- Without a grandmaster the BMCA may choose one, and no HOLDOVER begins by it (R56). -/
theorem runBmca_tb_of_no_gm {s : State} (h : s.ptp.gm = none) : (runBmca s).tb = s.tb := by
  unfold runBmca
  split
  · rfl
  · simp [h]

/-- Changes of ports leave the time base. -/
theorem foldl_updPtpPort_tb (f : Nat → PtpPort → PtpPort) (l : List Nat) (s : State) :
    (l.foldl (fun a p => updPtpPort a p (f p)) s).tb = s.tb := by
  induction l generalizing s with
  | nil => rfl
  | cons p l ih => exact ih _

/-- Passing time leaves the source of offsets and the integral. -/
theorem srcSel_runTo (s : State) (t : Nat) : srcSel (s.runTo t) = srcSel s := rfl
theorem servoI_runTo (s : State) (t : Nat) : servoI (s.runTo t) = servoI s := rfl

/-- The loss of Announce messages in LOCKED, with the PTP engine as the source (R45, R56). -/
theorem announceTimeout_tb {s : State} {a : Announce} (hgm : s.ptp.gm = some a) (hsrc : srcSel s = 0) (hlocked : s.tb.st = .locked) :
    (announceTimeout s).tb = (enterHoldover (s.runTo (s.ptp.lastAnnounce + secEdges 3))).tb := by
  unfold announceTimeout
  generalize s.ptp.lastAnnounce + secEdges 3 = e
  have hsrc' : srcSel (s.runTo e) = 0 := by rw [srcSel_runTo, hsrc]
  have hlocked' : (s.runTo e).tb.st = .locked := by simp [hlocked]
  rw [hgm]
  dsimp only
  rw [runBmca_tb_of_no_gm rfl, if_pos hsrc', holdoverIfLocked_of_locked hlocked']
  exact foldl_updPtpPort_tb _ _ _

/-- The loss of Sync messages in LOCKED, with the PTP engine as the source (R45, R56): qualification starts anew. -/
theorem syncTimeout_eq {s w : State} {q : Nat} (hport : s.ptp.slavePort = some q) (hsrc : srcSel s = 0) (hlocked : s.tb.st = .locked)
    (hw : w = s.runTo (s.ptp.lastSync + secEdges 3)) :
    syncTimeout s = enterHoldover { w with ptp.qualRun := 0, ptp.lastSync := w.tb.edge } := by
  have hsrc' : srcSel w = 0 := by rw [hw, srcSel_runTo, hsrc]
  have hlocked' : w.tb.st = .locked := by simp [hw, hlocked]
  simp only [syncTimeout, hport, ← hw]
  exact (if_pos hsrc').trans (if_pos hlocked')

/-- The time-out of TB_FW_OFFSET in LOCKED, with firmware as the source (R45, R56). -/
theorem fwTimeout_eq {s : State} (hsrc : srcSel s = 1) (hlocked : s.tb.st = .locked) :
    fwTimeout s = enterHoldover (s.runTo (s.tb.lastFwOffset + secEdges (fld (s.cfg 0x24 0) 7 4))) := by
  simp [fwTimeout, hsrc, hlocked, holdoverIfLocked]

/-- Settles O7: each time-out comes to `enterHoldover`. -/
theorem holdoverEntries : Obligations.HoldoverEntries := by
  intro s halive hlocked
  refine ⟨fun hsrc => ⟨fun a hgm => ⟨announceTimeout s, congrArg _ (live_eq halive), ?_⟩,
    fun q hport => ⟨syncTimeout s, congrArg _ (live_eq halive), ?_⟩⟩, fun hsrc => ⟨fwTimeout s, congrArg _ (live_eq halive), ?_⟩⟩
  · rw [announceTimeout_tb hgm hsrc hlocked]
    obtain ⟨hst, hcorr, hedge, -⟩ := enterHoldover_tb (s.runTo (s.ptp.lastAnnounce + secEdges 3))
    exact ⟨hst, hcorr.trans (servoI_runTo _ _), hedge.symm⟩
  · obtain ⟨w, hw⟩ : ∃ w, w = s.runTo (s.ptp.lastSync + secEdges 3) := ⟨_, rfl⟩
    have hservo : servoI w = servoI s := by rw [hw, servoI_runTo]
    rw [syncTimeout_eq hport hsrc hlocked hw]
    obtain ⟨hst, hcorr, -, hptp⟩ := enterHoldover_tb { w with ptp.qualRun := 0, ptp.lastSync := w.tb.edge }
    exact ⟨hst, hcorr.trans hservo, by rw [hptp]⟩
  · rw [fwTimeout_eq hsrc hlocked]
    obtain ⟨hst, hcorr, hedge, -⟩ :=
      enterHoldover_tb (s.runTo (s.tb.lastFwOffset + secEdges (fld (s.cfg 0x24 0) 7 4)))
    exact ⟨hst, hcorr.trans (servoI_runTo _ _), hedge.trans (State.runTo_edge _ _)⟩

end Sys2Proof.Machine
end

section
/-! The slot edge: the clock, the staged addend and the step of the counter (R40, R55, R62). -/

namespace Sys2Proof.Machine

/-- A running clock reaches the slot edge that is waited for (R38, R62). -/
theorem le_counter_waitSlot {s : State} (k : Nat) (hrun : 0 < s.tb.addend) : slotCounter k ≤ (s.waitSlot k).tb.counter := by
  have hedges : edgesUntil s.tb (slotCounter k) = ceilDiv (slotCounter k - s.tb.counter) s.tb.addend := if_neg hrun.ne'
  have hstep := le_ceilDiv_mul (slotCounter k - s.tb.counter) hrun
  rw [State.waitSlot, hedges]
  show slotCounter k ≤ s.tb.counter + _ * s.tb.addend
  omega

/-- A staged addend comes into force (R40). -/
theorem addendLoad_tb (s : State) :
    (addendLoad s).tb = { s.tb with addend := s.tb.nextAddend.getD s.tb.addend, nextAddend := none } := by
  unfold addendLoad
  cases hnext : s.tb.nextAddend with
  | none => exact congrArg (fun a => { s.tb with nextAddend := a }) hnext
  | some a => rfl

theorem addendLoad_nextSlot (s : State) : (addendLoad s).tu.nextSlot = s.tu.nextSlot := by
  unfold addendLoad
  split <;> rfl

/-- The work of the slots that close leaves the clock at the edge w, with the next slot's number (R62). -/
theorem edgeWork_clock {s w : State} (hw : w = s.waitSlot s.tu.nextSlot) :
    (edgeWork s).tb = { w.tb with addend := w.tb.nextAddend.getD w.tb.addend, nextAddend := none } ∧
      (edgeWork s).tu.nextSlot = s.tu.nextSlot + 1 := by
  subst hw
  unfold edgeWork
  extract_lets j w tu ig s1 s2
  have hclock : Clock s1 s2 :=
    ite_clock (checkRows_clock (phEdge_clock (foldl_clock (Clock.refl s1) fun _ _ h => croftEdge_clock h))) (Clock.refl s1)
  rw [addendLoad_tb, addendLoad_nextSlot, hclock.tb, hclock.slot]
  exact ⟨rfl, rfl⟩

/-- What follows the step at a slot edge leaves the clock. -/
theorem slotEdge_clock (s : State) : Clock (stepAtEdge s.tu.nextSlot (edgeWork s)) (slotEdge s) :=
  startWaiting_clock (forceApply_clock (Clock.refl _))

/-! A step restarts the phasor groups and closes the events of lines, without moving the clock any further (R181, R209). -/

theorem phStart_clock {base s : State} {sel slot : Nat} (h : Clock base s) : Clock base (phStart sel slot s) :=
  State.updGrp_clock (ite_clock (noteEdge_clock h) h)

theorem phStepped_clock {base s : State} (h : Clock base s) : Clock base (phStepped s) := by
  unfold phStepped
  extract_lets j s1
  have h1 : Clock base s1 := foldl_clock h fun _ _ ha => phStart_clock ha
  exact Clock.of_mk h1 rfl rfl

theorem flForce_clock {base s : State} {l : Nat} (h : Clock base s) : Clock base (flForce l s) := by
  unfold flForce
  extract_lets x s1 s2 s3
  have h2 : Clock base s2 := ite_clock (flResult_clock (flResult_clock h)) (flResult_clock h)
  exact ite_clock (flResult_clock (seTw_clock h2)) (seTw_clock h2)

theorem flCut_clock {base s : State} {l k : Nat} (h : Clock base s) : Clock base (flCut l k s) := by
  unfold flCut
  extract_lets s1
  have h1 : Clock base s1 := flForce_clock (State.updLine_clock h)
  exact ite_clock (ite_clock (flClose_clock h1) (State.updLine_clock h1)) h

theorem flStepped_clock {base s : State} {k : Nat} (h : Clock base s) : Clock base (flStepped k s) :=
  foldl_clock h fun _ _ ha => State.updLine_clock (detReset_clock (flCut_clock ha))

/-- The fields of the clock that a refused step and the servo's work after it concern. -/
def State.stepRecord (s : State) : Nat × Nat × Option Int × Bool × Nat :=
  (s.tb.counter, s.tb.edge, s.tb.stepBy, s.tb.stepRefused, s.tu.nextSlot)

@[simp] theorem refreshEst_stepRecord (s : State) : (refreshEst s).stepRecord = s.stepRecord := by
  unfold refreshEst; split <;> rfl

@[simp] theorem stageAddend_stepRecord (s : State) (c : Int) : (stageAddend s c).stepRecord = s.stepRecord := by
  unfold stageAddend; split <;> rfl

/-- The servo's own work (R53) neither moves the clock nor orders a step. -/
theorem servoProcess_stepRecord (s : State) (th : Int) : (servoProcess s th).stepRecord = s.stepRecord := by
  unfold servoProcess
  extract_lets cfg gain tb i lim prop c small run s1
  have hs1 : s1.stepRecord = s.stepRecord := stageAddend_stepRecord _ _
  split
  · split
    · exact stageAddend_stepRecord _ _
    · rfl
  · split
    · exact (refreshEst_stepRecord s1).trans hs1
    · exact hs1
    · split
      · exact (refreshEst_stepRecord _).trans hs1
      · exact hs1

/-- A refused step leaves the clock and sets STEP_REFUSED (R55). -/
theorem stepRefuse_stepRecord {s : State} {th : Int} (h : s.tb.stepBy = some th) :
    (stepRefuse s).stepRecord = (s.tb.counter, s.tb.edge, none, true, s.tu.nextSlot) := by
  rw [stepRefuse, h]
  dsimp only
  split
  · exact servoProcess_stepRecord _ _
  · rfl

/-- The clock after the step of a slot edge is that of the counter's step alone. -/
theorem stepAtEdge_clock {s : State} {j : Nat} {th : Int} (h : s.tb.stepBy = some th) (hok : stepOk s = true) :
    Clock (counterStep s) (stepAtEdge j s) := by
  unfold stepAtEdge
  rw [h, hok]
  exact flStepped_clock (phStepped_clock (Clock.of_mk (Clock.of_mk (Clock.refl _) rfl rfl) rfl rfl))

theorem stepAtEdge_of_none {s : State} {j : Nat} (h : s.tb.stepBy = none) : stepAtEdge j s = s := by
  simp [stepAtEdge, h]

theorem stepAtEdge_refused {s : State} {j : Nat} {th : Int} (h : s.tb.stepBy = some th) (hok : stepOk s = false) :
    stepAtEdge j s = stepRefuse s := by
  simp [stepAtEdge, h, hok]

/-- A step moves the counter by the offset and numbers the slots from its new value (R55). -/
theorem counterStep_clock {s : State} {th : Int} (h : s.tb.stepBy = some th) :
    (counterStep s).tb.counter = (Int.ofNat s.tb.counter - th * 2 ^ 24).toNat ∧
      (counterStep s).tu.nextSlot = 3 * (counterStep s).tb.counter / (625000 * 2 ^ 40) + 1 ∧ (counterStep s).tb.stepBy = none ∧
      (counterStep s).tb.latest = none ∧ (counterStep s).tb.stepped = true ∧ (counterStep s).tb.edge = s.tb.edge ∧
      (counterStep s).tb.addend = s.tb.addend ∧ (s.tb.st = .notValid → (counterStep s).tb.st = .freeRun) := by
  rw [counterStep, h]
  exact ⟨rfl, rfl, rfl, rfl, rfl, rfl, rfl, fun hst => by simp [hst]⟩

/-- Settles O10: the clock of `edgeWork`, then the case of the step that waits. -/
theorem slotEdgeClock : Obligations.SlotEdgeClock := by
  intro s w hw
  obtain ⟨htb, hslot⟩ := edgeWork_clock hw
  have hstepBy : (edgeWork s).tb.stepBy = w.tb.stepBy := by rw [htb]
  have hclock := slotEdge_clock s
  refine ⟨fun hrun => ?_, fun hnone => ⟨slotEdge s, rfl, ?_⟩, fun th hth hok => ⟨slotEdge s, rfl, ?_⟩,
    fun th hth hok => ⟨slotEdge s, rfl, ?_⟩⟩
  · rw [hw]
    exact le_counter_waitSlot _ hrun
  · rw [hclock.slot, hclock.tb, stepAtEdge_of_none (hstepBy.trans hnone)]
    exact ⟨hslot, htb⟩
  · have hrefused := stepRefuse_stepRecord (hstepBy.trans hth)
    rw [← stepAtEdge_refused (j := s.tu.nextSlot) (hstepBy.trans hth) hok, htb, hslot] at hrefused
    rw [hclock.slot, hclock.tb]
    simp only [State.stepRecord, Prod.mk.injEq] at hrefused
    obtain ⟨hcounter, hedge, hby, hflag, hnext⟩ := hrefused
    exact ⟨hcounter, hnext, hby, hflag, hedge⟩
  · have hstepped := hclock.tb.trans (stepAtEdge_clock (j := s.tu.nextSlot) (hstepBy.trans hth) hok).tb
    have hnext := hclock.slot.trans (stepAtEdge_clock (j := s.tu.nextSlot) (hstepBy.trans hth) hok).slot
    rw [hstepped, hnext]
    simpa only [htb] using counterStep_clock (hstepBy.trans hth)

end Sys2Proof.Machine
end

section
/-! Accesses of cores to DRAM, granted writes, and doorbells (R287 to R289, R328, R329, R473). -/

namespace Sys2Proof.Machine

/-- What the passing of a core's gate comes to: the access itself. -/
theorem byCore_eq {f : State → State} {s : State} {t h : Nat} (hc : coreRuns (s.runTo t) h = true) : byCore t h f s = f (s.runTo t) := by
  simp [byCore, hc]

theorem accessSize_of {size : Nat} (h : size = 1 ∨ size = 2 ∨ size = 4 ∨ size = 8) : accessSize size = true := by
  rcases h with rfl | rfl | rfl | rfl <;> rfl

section
variable {x : State} {h a size : Nat} (hdram : a < setupBase) (hsize : size = 1 ∨ size = 2 ∨ size = 4 ∨ size = 8)
include hdram hsize

/-- A store of a core to DRAM is made where its windows grant it, and else ends in an access fault (R289). -/
theorem coreAccess_store (v : BitVec 64) : coreAccess h .store a size v x =
    match writeMem x (hearthOwner x h) .coreWrite a (leBytes size v.toNat) with
    | some m => coreDone h { x with dram := m }
    | none => coreFault h (.storeFault a) x := by
  have hlow : ¬ setupBase ≤ a := by omega
  simp only [coreAccess, accessSize_of hsize, if_true, memStore, if_neg hlow] <;> rfl

/-- A load of a core from DRAM (R289). -/
theorem coreAccess_load (v : BitVec 64) : coreAccess h .load a size v x =
    match readBytes x (hearthOwner x h) .coreRead a size with
    | some bs => coreLoaded h (leNat bs) x
    | none => coreFault h (.loadFault a) x := by
  have hlow : ¬ setupBase ≤ a := by omega
  simp only [coreAccess, accessSize_of hsize, if_true, memLoad, if_neg hlow] <;> rfl

end

theorem exec_coreDramAccess {s : State} {t : Nat} {h : Hearth} (hc : coreRuns (s.runTo t) h = true) (kind : AccessKind) (a size : Nat)
    (v : BitVec 64) : exec (.coreDramAccess t h kind a size v) s = .next (coreAccess h kind a size v (s.runTo t)) :=
  congrArg _ (byCore_eq hc)

/-- Settles O13: the access by what its windows grant. -/
theorem coreAccesses : Obligations.CoreAccesses := by
  rintro s _ t h p a size v rfl ⟨hruns, rfl⟩ hdram hsize
  refine ⟨fun m hm => ?_, fun b hb => ?_, fun hm => ?_, fun hb => ?_⟩
  · rw [exec_coreDramAccess hruns, coreAccess_store hdram hsize, hm]
    rfl
  · rw [exec_coreDramAccess hruns, coreAccess_load hdram hsize, hb]
    rfl
  · rw [exec_coreDramAccess hruns, coreAccess_store hdram hsize, hm]
    rfl
  · rw [exec_coreDramAccess hruns, coreAccess_load hdram hsize, hb]
    rfl

/-! Granted writes. -/

/-- A partition's byte address translates into DRAM below the reserved range (R288). -/
theorem translate_lt {ws : List Window} {p : Nat} {need : Need} {a b : Nat} (h : translate ws p need a = some b) : b < dramTop := by
  unfold translate at h
  split at h
  · split at h
    · cases h; assumption
    · cases h
  · split at h
    · split at h
      · cases h; assumption
      · cases h
    · cases h

/-- Every byte of a translated run lies in DRAM. -/
theorem translateAll_some {ws : List Window} {p : Nat} {need : Need} : ∀ {n a : Nat} {l : List Nat},
    translateAll ws p need a n = some l → l.length = n ∧ ∀ b ∈ l, b < dramTop := by
  intro n
  induction n with
  | zero => rintro a l ⟨⟩; simp
  | succ n ih =>
    intro a l h
    unfold translateAll at h
    split at h
    · cases h
    · rename_i x hx
      obtain ⟨r, hr, rfl⟩ := Option.map_eq_some_iff.1 h
      obtain ⟨hlen, hlt⟩ := ih hr
      exact ⟨by simp [hlen], List.forall_mem_cons.2 ⟨translate_lt hx, hlt⟩⟩

/-- A store to listed addresses, no two the same, puts the i-th byte at the i-th. -/
theorem dramByte_storeAll_at : ∀ {l : List Nat} {bs : List (BitVec 8)} (m : List Host.Cell), l.Nodup → l.length = bs.length →
    ∀ (i : Nat) (h : i < l.length), dramByte (storeAll m l bs) l[i] = bs.getD i 0 := by
  intro l
  induction l with
  | nil => intro bs m _ _ i h; simp at h
  | cons a r ih =>
    intro bs m hnodup hlen i h
    obtain ⟨hfresh, hrest⟩ := List.nodup_cons.1 hnodup
    cases bs with
    | nil => simp at hlen
    | cons b t =>
      cases i with
      | zero => simp [storeAll, dramByte_storeAll_off _ _ _ _ hfresh]
      | succ i => simpa [storeAll] using ih (dramStore m a b) hrest (by simpa using hlen) i (by simpa using h)

/-- Settles O14: the translated addresses, and what a store to them leaves and puts. -/
theorem grantedWrite : Obligations.GrantedWrite := by
  intro s p a need bs m hp hm
  rw [writeMem, if_neg hp] at hm
  obtain ⟨l, hl, rfl⟩ := Option.map_eq_some_iff.1 hm
  obtain ⟨hlen, hlt⟩ := translateAll_some hl
  exact ⟨l, hl, hlen, fun b hb => dramByte_storeAll_off _ _ _ _ hb, fun hnodup => dramByte_storeAll_at _ hnodup hlen, hlt⟩

/-! Doorbells. -/

theorem doorbell_good {h p : Nat} {producer : Bool} {w : BitVec 32} {s : State} (howner : hearthOwner s h = p)
    (hopen : doorbellsOpen s p = true) (hgood : doorbellBad s p producer w = false) :
    doorbell h p producer w s =
      s.updRing p (fld w 23 16) (fun x => if producer then { x with pi := fld w 15 0 } else { x with ci := fld w 15 0 }) := by
  simp [doorbell, howner, hopen, hgood]

theorem doorbell_refused {h p : Nat} {producer : Bool} {w : BitVec 32} {s : State}
    (hrefused : hearthOwner s h ≠ p ∨ doorbellsOpen s p = false) : doorbell h p producer w s = s.dbErr p := by
  rcases hrefused with howner | hclosed
  · simp [doorbell, howner]
  · simp [doorbell, hclosed]

section
variable {s : State} {t : Nat} {h : Hearth} (hpower : corePowered (s.runTo t) h = true) (page : PartId) (w : BitVec 32)
include hpower

theorem byBell_eq (f : State → State) : byBell t h f s = f (s.runTo t) := by simp [byBell, hpower]

theorem exec_producerDoorbell :
    exec (.producerDoorbell t h page w) s = .next (checkRows [3] (doorbell h page true w (s.runTo t))) :=
  congrArg _ (byBell_eq hpower _)

theorem exec_consumerDoorbell :
    exec (.consumerDoorbell t h page w) s = .next (checkRows [3] (doorbell h page false w (s.runTo t))) :=
  congrArg _ (byBell_eq hpower _)

end

/-- Settles O17: both doorbells are `doorbell`, then the check of the ring slots. -/
theorem doorbells : Obligations.Doorbells := by
  rintro s _ t h page w rfl hpower
  rw [exec_producerDoorbell hpower, exec_consumerDoorbell hpower]
  refine ⟨fun howner hopen => ⟨fun hgood => ?_, fun hgood => ?_⟩, fun hrefused => ⟨?_, ?_⟩⟩
  · rw [doorbell_good howner hopen hgood]; rfl
  · rw [doorbell_good howner hopen hgood]; rfl
  · rw [doorbell_refused hrefused]
  · rw [doorbell_refused hrefused]

end Sys2Proof.Machine
end

section
/-! NOP, FENCE, TX_FRAME and RX_BUF (R330, R337, R340). -/

namespace Sys2Proof.Machine

/-- A fetch is made at the present edge, and its descriptor has not ended. -/
theorem Fetches.at_edge {s : State} {p r op : Nat} {y : State × Flight} (h : Fetches s p r op y) : y.2.at_ = y.1.tb.edge := by
  obtain ⟨hfetch, -, -⟩ := h
  unfold fetchDesc at hfetch
  dsimp only at hfetch
  split at hfetch
  · cases hfetch
    dsimp only
    split <;> rfl
  · cases hfetch

/-- No reset or commit of this edge is won by a descriptor that was fetched at it (R298). -/
theorem winsReset_of_fetched {s : State} {p r : Nat} {f : Flight} {b : Wb} (h : f.at_ = s.tb.edge) : winsReset s p r f b = b := by
  simp [winsReset, h]

/-- Two updates of a ring that agree on what it holds. -/
theorem State.updRing_congr {s : State} {p r : Nat} {f g : RingRun → RingRun} (h : f (s.ring p r) = g (s.ring p r)) :
    s.updRing p r f = s.updRing p r g := by
  have htbl : Tbl.upd {} s.db.rings (64 * p + r) f = Tbl.upd {} s.db.rings (64 * p + r) g := congrArg (Tbl.set _ _ _) h
  rw [State.updRing, htbl]
  rfl

/-- A flight with the mark of a fence. -/
def fenced (f : Flight) : Flight := { f with fence := true }

/-- The ring of a FENCE that has just been fetched (R337). -/
def markFence (s : State) (p r : Nat) (f : Flight) : State :=
  s.updRing p r (fun y => { y with flights := y.flights.map (fun g => if g.id = f.id then { g with fence := true } else g) })

theorem markFence_flights (s : State) (p r : Nat) (f : Flight) :
    ((markFence s p r f).ring p r).flights =
      (s.ring p r).flights.map (fun g => if g.id = f.id then { g with fence := true } else g) := by
  simp [markFence]

theorem fenceAct_eq {s : State} {p r : Nat} {f : Flight} (hres : reservedOk f.words 0 [] = true) :
    fenceAct p r s f =
      if (drain ((markFence s p r f).ring p r).flights.length (markFence s p r f) p r []).2.isEmpty then
        (drain ((markFence s p r f).ring p r).flights.length (markFence s p r f) p r []).1
      else ringIrq (indexBlock (drain ((markFence s p r f).ring p r).flights.length (markFence s p r f) p r []).1 p r) p r
        ((drain ((markFence s p r f).ring p r).flights.length (markFence s p r f) p r []).2.any (fun g => bit (dw g.words 0) 8)) := by
  rw [fenceAct, hres]
  rfl

/-- A fence alone on its ring writes back at once (R337). -/
theorem drain_fence_alone {s : State} {p r : Nat} {f : Flight} (hflights : (s.ring p r).flights = [fenced f]) (hat : f.at_ = s.tb.edge) :
    drain 1 s p r [] = (putWb s p r (fenced f) { status := stDone, stamp := some (stampNow s) }, [fenced f]) := by
  have hwin (b : Wb) : winsReset s p r (fenced f) b = b := winsReset_of_fetched hat
  rw [drain, hflights]
  simp only [fenced, if_true] at hwin ⊢
  rw [hwin]
  rfl

/-- Behind a descriptor that has not ended nothing is written back (R337). -/
theorem drain_behind {s : State} {p r : Nat} {f : Flight} {l : List Flight} (hflights : (s.ring p r).flights = f :: l)
    (hfence : f.fence = false) (hres : f.res = none) (n : Nat) : drain n s p r [] = (s, []) := by
  cases n with
  | zero => rfl
  | succ n => simp [drain, hflights, hfence, hres]

theorem fenceAct_alone {s : State} {p r : Nat} {f : Flight} (hres : reservedOk f.words 0 [] = true) (hat : f.at_ = s.tb.edge)
    (halone : (s.ring p r).flights = [f]) :
    fenceAct p r s f = ringIrq (indexBlock (putWb (s.updRing p r (fun w => { w with flights := [fenced f] })) p r (fenced f)
      { status := stDone, stamp := some (stampNow s) }) p r) p r (bit (dw f.words 0) 8) := by
  have hmark : markFence s p r f = s.updRing p r (fun w => { w with flights := [fenced f] }) := by
    refine State.updRing_congr ?_
    simp [halone, fenced]
  have hflights : ((markFence s p r f).ring p r).flights = [fenced f] := by
    simp [markFence_flights, halone, fenced]
  rw [fenceAct_eq hres, hflights]
  rw [show [fenced f].length = 1 from rfl, drain_fence_alone hflights hat, hmark]
  simp only [List.isEmpty_cons, Bool.false_eq_true, if_false, List.any_cons, List.any_nil, Bool.or_false]
  rfl

theorem fenceAct_behind {s : State} {p r : Nat} {f g : Flight} {l : List Flight} (hres : reservedOk f.words 0 [] = true)
    (hflights : (s.ring p r).flights = g :: l) (hid : g.id ≠ f.id) (hfence : g.fence = false) (hopen : g.res = none) :
    fenceAct p r s f = markFence s p r f := by
  have hmarked : ((markFence s p r f).ring p r).flights =
      g :: l.map (fun g => if g.id = f.id then { g with fence := true } else g) := by
    simp [markFence_flights, hflights, hid]
  rw [fenceAct_eq hres, drain_behind hmarked hfence hopen]
  rfl

/-- A TX_FRAME on a ring without timestamps, its buffer readable (R340). -/
theorem txFrameAct_enters {s : State} {p r : Nat} {f : Flight} {o : List (BitVec 8)} (hts : (ringCfg s p r).ts = false)
    (hres : reservedOk f.words 0x200 [(2, 0xFFFFFFFF), (3, 0xFFFF), (4, 0xFFFF)] = true) (hmin : 14 ≤ fld (dw f.words 4) 15 0)
    (hmax : fld (dw f.words 4) 15 0 ≤ 1518) (hread : devRead s p (addr48 f.words 2) (fld (dw f.words 4) 15 0) = some o) :
    txFrameAct p r s f = enqueue
      { id := 0, octets := o, src := .ring (64 * p + r) f.id (bit (dw f.words 0) 9), cls := (ringCfg s p r).cls,
        epoch := s.gn.epoch, expiry := 0 } [(ringCfg s p r).port] s := by
  have hmin' : ¬ fld (dw f.words 4) 15 0 < 14 := by omega
  have hmax' : ¬ 1518 < fld (dw f.words 4) 15 0 := by omega
  simp only [BitVec.ofNat_eq_ofNat] at hres
  simp [txFrameAct, hts, hres, hmin', hmax', hread]

/-- An RX_BUF whose buffer is writable is held (R340). -/
theorem rxBufAct_held {s : State} {p r : Nat} {f : Flight}
    (hres : reservedOk f.words 0 [(2, 0xFFFFFFFF), (3, 0xFFFF), (4, 0xFFFF)] = true) (hmin : 1536 ≤ fld (dw f.words 4) 15 0)
    (hwrite : canAccess s p .devWrite (addr48 f.words 2) (fld (dw f.words 4) 15 0) = true) : rxBufAct p r s f = s := by
  have hmin' : ¬ fld (dw f.words 4) 15 0 < 1536 := by omega
  simp only [BitVec.ofNat_eq_ofNat] at hres
  simp [rxBufAct, hres, hmin', hwrite]

/-- A descriptor command of one opcode, its descriptor fetched, is its act. -/
theorem withDesc_fetched {s : State} {p r op : Nat} {y : State × Flight} (h : Fetches s p r op y) (act : State → Flight → State) :
    withDesc s p r (opIs op) act = act y.1 y.2 := withDesc_eq h (opIs_of_fetches h _)

/-- Settles O18: each descriptor's act. -/
theorem ringCommands : Obligations.RingCommands := by
  rintro s _ t p r y rfl
  refine ⟨fun hf => ?_, fun hf hres halone => ⟨_, rfl, ?_⟩, fun f l hf hres hflights hid hfence hopen => ?_,
    fun o hf hts hres hmin hmax hread => ?_, fun hf hres hmin hwrite => ?_⟩
  · exact congrArg _ (withDesc_fetched hf (nopAct p r))
  · exact congrArg _ ((withDesc_fetched hf (fenceAct p r)).trans (fenceAct_alone hres hf.at_edge halone))
  · exact congrArg _ ((withDesc_fetched hf (fenceAct p r)).trans (fenceAct_behind hres hflights hid hfence hopen))
  · exact congrArg _ ((withDesc_fetched hf (txFrameAct p r)).trans (txFrameAct_enters hts hres hmin hmax hread))
  · exact congrArg _ ((withDesc_fetched hf (rxBufAct p r)).trans (rxBufAct_held hres hmin hwrite))

end Sys2Proof.Machine
end

section
/-! The application of a commit (R347, R349). -/

namespace Sys2Proof.Machine

/-- The work before the settings change leaves them. -/
theorem applyBefore_leaves_settings (m : Nat) (ks : List Nat) (n s : State) : Settings s (applyBefore m ks n s) := by
  unfold applyBefore
  extract_lets o s1 s2 s3 s4 s5 s6
  have h1 : Settings s s1 := foldl_settings (Settings.refl s) fun _ _ h => flCut_settings h
  have h2 : Settings s s2 := foldl_settings h1 fun _ _ h => loopReset_settings h
  have h3 : Settings s s3 := foldl_settings h2 fun _ _ h => ttStop_settings h
  have h4 : Settings s s4 := foldl_settings h3 fun _ _ h => State.updCap_settings (capReset_settings h)
  have h5 : Settings s s5 := foldl_settings h4 fun _ _ h => ite_settings (State.updPws_settings h) h
  have h6 : Settings s s6 := foldl_settings h5 fun _ _ h => ringOff_settings h
  exact foldl_settings h6 fun _ _ h => hearthMoved_settings h

theorem State.cfg_congr {a b : State} {off sel : Nat} (h : Tbl.get 0 b.regs (regKey off sel) = Tbl.get 0 a.regs (regKey off sel)) :
    b.cfg off sel = a.cfg off sel := congrArg (· ^^^ regReset off sel) h

/-- Writing the same register of states with the same settings, by a rule on its value. -/
theorem Settings.setCfg {a b : State} (h : Settings a b) (off sel : Nat) (f : BitVec 32 → BitVec 32) :
    Settings (a.setCfg off sel (f (a.cfg off sel))) (b.setCfg off sel (f (b.cfg off sel))) := by
  constructor
  intro k hk
  simp only [State.setCfg, Tbl.get_set]
  split
  · rename_i heq
    rw [State.cfg_congr (heq ▸ h.get k hk)]
  · exact h.get k hk

/-- Staged keys put over states with the same settings give the same settings. -/
theorem Settings.putKeys {a b : State} (ks : List (Nat × BitVec 32)) (h : Settings a b) : Settings (putKeys ks a) (putKeys ks b) := by
  induction ks generalizing a b with
  | nil => exact h
  | cons k ks ih => exact ih (h.setCfg _ _ fun v => (v &&& ~~~(keyMask k.1)) ||| (k.2 &&& keyMask k.1))

theorem Settings.trans {a b c : State} (h : Settings a b) (k : Settings b c) : Settings a c :=
  ⟨fun i hi => (k.get i hi).trans (h.get i hi)⟩

/-- A register that is no partition's own selector reads the same under the same settings. -/
theorem Settings.cfg {a b : State} (h : Settings a b) {off sel : Nat} (hsel : sel < 65536)
    (hown : (regInfo off).all (fun i => i.sel != .own) = true) : b.cfg off sel = a.cfg off sel := by
  refine State.cfg_congr (h.get _ ?_)
  rw [show regKey off sel / 65536 = off by unfold regKey; omega]
  exact hown

/-- The keys of a commit take effect over the settings before it (R347). -/
theorem applyKeys_settings (m : Nat) (kv : List (Nat × BitVec 32)) (s : State) :
    Settings (putKeys (steMasked kv) s) (applyKeys m kv s) :=
  ((applyBefore_leaves_settings _ _ _ s).putKeys _).trans (applyAfter_settings (Settings.refl _))

/-- The end of a commit leaves its transaction over, and the settings. -/
structure CommitEnded (p : Nat) (s z : State) : Prop where
  idle : (z.txn p).st = .idle
  noKeys : (z.txn p).keys = []
  regs : z.regs = s.regs

@[simp] theorem completeWon_txn (s : State) (k id : Nat) (b : Wb) (q : Nat) : (completeWon s k id b).txn q = s.txn q := by
  unfold completeWon completeKey
  split
  · simp
  · exact complete_txn _ _ _ _ _ _

@[simp] theorem completeWon_regs (s : State) (k id : Nat) (b : Wb) : (completeWon s k id b).regs = s.regs := by
  unfold completeWon completeKey
  split <;> simp

theorem endCommit_ended (p : Nat) (x : Txn) (b : Wb) (m status : Nat) (s : State) :
    CommitEnded p s (endCommit x b (txnEnded p m status (dropTxn p s))) := by
  have htxn : (txnEnded p m status (dropTxn p s)).txn p =
      { s.txn p with st := .idle, keys := [], conflict := false, overflow := false, ended := some (m, status) } := by
    have hsend (y : State) : (deltaSend (.txnEnd p m) status y).txn p = y.txn p := (deltaSend_calm (Calm.refl y)).txn p
    simp [txnEnded, hsend, dropTxn]
  have hregs : (txnEnded p m status (dropTxn p s)).regs = s.regs := by simp [txnEnded, dropTxn]
  unfold endCommit
  split
  · exact ⟨by rw [htxn], by rw [htxn], hregs⟩
  · exact ⟨by simp [htxn], by simp [htxn], by simp [hregs]⟩

/-- Counting an unreadable buffer of a publisher leaves the settings. -/
@[simp] theorem failReads_regs (n : State) (ks : List Nat) (f : Fail) (s : State) : (failReads n ks f s).regs = s.regs := by
  unfold failReads
  split
  · simp [State.winFault]
  · split <;> simp [State.winFault]

/-- The application of the next commit: its keys, or none of them (R347). -/
theorem txnApply_next {s w : State} {p : Nat} {c : Txn} (hnext : nextCommit s = some (p, c)) (hw : w = toApplyEdge c s) :
    (commitFails w (putKeys c.keys w) p (c.keys.map Prod.fst) ≠ [] → CommitEnded p w (txnApply s).1) ∧
      (commitFails w (putKeys c.keys w) p (c.keys.map Prod.fst) = [] →
        CommitEnded p (applyKeys (edgeNow w) c.keys w) (txnApply s).1) := by
  unfold txnApply
  rw [hnext]
  dsimp only
  rw [← hw]
  cases hfails : commitFails w (putKeys c.keys w) p (c.keys.map Prod.fst) with
  | nil => exact ⟨fun h => absurd rfl h, fun _ => endCommit_ended _ _ _ _ _ _⟩
  | cons f l =>
    refine ⟨fun _ => ?_, nofun⟩
    obtain ⟨hidle, hkeys, hregs⟩ := endCommit_ended p c
      (failWb (failReads (putKeys c.keys w) (c.keys.map Prod.fst) f w) c f) (edgeNow w) f.status
      (failReads (putKeys c.keys w) (c.keys.map Prod.fst) f w)
    exact ⟨hidle, hkeys, hregs.trans (failReads_regs _ _ _ _)⟩

/-- Outside start-up's bundle TXN_APPLY is the application alone. -/
theorem exec_txnApply {s : State} (h : s.pw.bundle = false) : exec .txnApply s = .next (txnApply s).1 := by
  show Host.Outcome.next (match (txnApply s).2 with | some (p, st) => _ | none => _) = _
  rw [h]
  cases (txnApply s).2 <;> rfl

/-- Settles O20: the application by whether a check fails, and what it leaves of the settings. -/
theorem commitAllOrNothing : Obligations.CommitAllOrNothing := by
  intro s w p c hnext hw hbundle
  obtain ⟨hfail, hdone⟩ := txnApply_next hnext hw
  refine ⟨_, exec_txnApply hbundle, ?_⟩
  by_cases hfails : commitFails w (putKeys c.keys w) p (c.keys.map Prod.fst) = []
  · obtain ⟨hidle, hkeys, hregs⟩ := hdone hfails
    refine ⟨hidle, hkeys, fun h => absurd hfails h, fun _ off sel hsel hown => ?_⟩
    exact (State.cfg_congr (by rw [hregs])).trans ((applyKeys_settings _ _ w).cfg hsel hown)
  · obtain ⟨hidle, hkeys, hregs⟩ := hfail hfails
    exact ⟨hidle, hkeys, fun _ off sel _ _ => State.cfg_congr (by rw [hregs]), fun h => absurd h hfails⟩

end Sys2Proof.Machine
end


section
/-! Stores to the addend and to STEP of the time base (R40, R55). -/

namespace Sys2Proof.Machine

/-- The fields of the addend stand outside every switched domain, and no permission but R40's own stands before them. -/
theorem storeSetup_tbAddendLo (p : Nat) (v : BitVec 32) (s : State) : storeSetup p 0x10 v s = writeAddendLo v s := by
  have hreg : ∃ i, regInfo 0x10 = some i := ⟨_, rfl⟩
  have hdom : domOn s 0x10 (sliceSel s p 0x10) = true := rfl
  have hrule (sel : Nat) : writeRule s 0x10 sel = .any := rfl
  obtain ⟨i, hreg⟩ := hreg
  simp [storeSetup, hreg, hdom, hrule, WriteRule.allows]

theorem storeSetup_tbAddendHi (p : Nat) (v : BitVec 32) (s : State) : storeSetup p 0x14 v s = writeAddendHi v s := by
  have hreg : ∃ i, regInfo 0x14 = some i := ⟨_, rfl⟩
  have hdom : domOn s 0x14 (sliceSel s p 0x14) = true := rfl
  have hrule (sel : Nat) : writeRule s 0x14 sel = .any := rfl
  obtain ⟨i, hreg⟩ := hreg
  simp [storeSetup, hreg, hdom, hrule, WriteRule.allows]

theorem exec_tbAddendLoWrite {s : State} {t p : Nat} {h : Hearth} (v : BitVec 32) (hc : CoreOf (s.runTo t) h p) :
    exec (.tbAddendLoWrite t h v) s = .next (coreDone h (writeAddendLo v (s.runTo t))) := by
  show Host.Outcome.next (coreStore t h 0x10 v s) = _
  rw [coreStore_eq hc (by decide) (by decide), storeSetup_tbAddendLo]

theorem exec_tbAddendHiWrite {s : State} {t p : Nat} {h : Hearth} (v : BitVec 32) (hc : CoreOf (s.runTo t) h p) :
    exec (.tbAddendHiWrite t h v) s = .next (coreDone h (writeAddendHi v (s.runTo t))) := by
  show Host.Outcome.next (coreStore t h 0x14 v s) = _
  rw [coreStore_eq hc (by decide) (by decide), storeSetup_tbAddendHi]

/-- What a store to the RW fields of TB_CTRL may change: the registers, and of the time base neither the counter nor a step. -/
def CtrlStored (s x : State) : Prop :=
  ∃ tb regs, x = { s with tb := tb, regs := regs } ∧ tb.latest = s.tb.latest ∧ tb.counter = s.tb.counter ∧ tb.stepBy = s.tb.stepBy

theorem CtrlStored.refreshEst {s x : State} (h : CtrlStored s x) : CtrlStored s (refreshEst x) := by
  obtain ⟨tb, regs, rfl, hlatest, hcounter, hstep⟩ := h
  unfold Machine.refreshEst
  split <;> exact ⟨_, regs, rfl, hlatest, hcounter, hstep⟩

theorem CtrlStored.lastFwOffset {s x : State} (h : CtrlStored s x) (e : Nat) : CtrlStored s { x with tb.lastFwOffset := e } := by
  obtain ⟨tb, regs, rfl, hlatest, hcounter, hstep⟩ := h
  exact ⟨_, regs, rfl, hlatest, hcounter, hstep⟩

theorem storeRw_tbCtrl (mask v : BitVec 32) (sel : Nat) (s : State) : CtrlStored s (storeRw 0 sel mask v s) := by
  have hpol : onGrid 0 0x90200 4 4 = false := rfl
  have hout : onGrid 0 0x200 0x10 8 = false := rfl
  have hzero : (0 : Nat) ≠ 0x44 := by decide
  unfold storeRw
  rw [hpol, hout]
  extract_lets s1 w s2
  have h1 : CtrlStored s s1 := by
    rw [show s1 = _ from if_neg hzero]
    exact ⟨_, _, rfl, rfl, rfl, rfl⟩
  have h2 : CtrlStored s s2 := by
    unfold s2
    split
    · exact h1.lastFwOffset _
    · exact h1
  split
  · exact ⟨_, _, rfl, rfl, rfl, rfl⟩
  · rw [if_neg (by decide), if_neg (by decide)]
    split
    · exact h2.refreshEst
    · exact h2

/-- A store of partition 0 to TB_CTRL with STEP set: the request comes to a state whose clock, offset at hand and reasons against a
step are those of before. -/
theorem storeSetup_step {s : State} {v : BitVec 32} (hv : bit v 4 = true) :
    ∃ tb regs, storeSetup 0 0 v s = stepRequest (stepOk s) 0 { s with tb := tb, regs := regs } ∧ tb.latest = s.tb.latest ∧
      tb.counter = s.tb.counter ∧ tb.stepBy = s.tb.stepBy := by
  obtain ⟨i, hreg, htx⟩ : ∃ i, regInfo 0 = some i ∧ i.tx = 0 := ⟨_, rfl, rfl⟩
  have hdom : domOn s 0 (sliceSel s 0 0) = true := rfl
  obtain ⟨tb, regs, hrw, hlatest, hcounter, hstep⟩ := storeRw_tbCtrl i.rw v (selValue s 0 i) s
  refine ⟨tb, regs, ?_, hlatest, hcounter, hstep⟩
  rw [storeSetup_zero hreg hdom (by decide) (by decide) (by decide) htx, hrw]
  have hw1c (x : State) : storeW1c 0 0 v x = x := rfl
  rw [hw1c, storeWo, if_pos rfl, if_pos hv]
  rfl

theorem exec_step {s : State} {t p : Nat} {h : Hearth} (v : BitVec 32) (hc : CoreOf (s.runTo t) h p) :
    exec (.step t h v) s = .next (coreDone h (storeSetup p 0 v (s.runTo t))) := by
  show Host.Outcome.next (coreStore t h 0 v s) = _
  rw [coreStore_eq hc (by decide) (by decide)]

/-- A request of partition 0 with an offset at hand and nothing in its way orders the step (R55). -/
theorem stepRequest_ordered {s : State} {th : Int} (hlatest : s.tb.latest = some th) :
    stepRequest true 0 s = { s with tb.stepBy := some th } := by
  simp [stepRequest, hlatest]

/-- Without an offset or with something in its way the step is refused (R55). -/
theorem stepRequest_refused {s : State} {ok : Bool} {p : Nat} (h : s.tb.latest = none ∨ ok = false) :
    stepRequest ok p s = { s with tb.stepRefused := true } := by
  unfold stepRequest
  split
  case h_1 th hlatest =>
    obtain h | rfl := h
    · simp [hlatest] at h
    · rfl
  case h_2 => rfl

/-- Settles O21: the stores come to the addend's two writes, and STEP to a request of a step on the same clock. -/
theorem timeBaseStores : Obligations.TimeBaseStores := by
  constructor
  · rintro s _ t h v rfl hc
    rw [exec_tbAddendLoWrite v hc, exec_tbAddendHiWrite v hc]
    refine ⟨fun hoff => ⟨?_, ?_⟩, fun hon => ⟨?_, ?_⟩⟩
    · rw [writeAddendLo, hoff]; rfl
    · rw [writeAddendHi, hoff]; rfl
    · rw [writeAddendLo, hon]; rfl
    · rw [writeAddendHi, hon]; rfl
  · rintro s _ t h v rfl hc hv
    obtain ⟨tb, regs, hstore, hlatest, hcounter, hstep⟩ := storeSetup_step (s := s.runTo t) hv
    rw [exec_step v hc, hstore]
    refine ⟨fun th hth hok => ⟨_, rfl, ?_⟩, fun hno => ⟨_, rfl, ?_⟩⟩
    · rw [hok, stepRequest_ordered (hlatest.trans hth)]
      exact ⟨rfl, hcounter⟩
    · rw [stepRequest_refused (hno.imp_left hlatest.trans)]
      exact ⟨rfl, hstep⟩

end Sys2Proof.Machine
end

section
/-! Reads of the time, and the Sstc compare (R43, R44, R60). -/

namespace Sys2Proof.Machine

theorem exec_tbNow0Read {s : State} {t : Nat} {h : Hearth} (hc : coreRuns (s.runTo t) h = true) :
    exec (.tbNow0Read t h) s = .next (readNow0 h (s.runTo t)) := by
  show Host.Outcome.next (coreLoad t h 0x30 s) = _
  rw [coreLoad_eq hc (by decide) (by decide), loadSetup, if_pos rfl]

theorem exec_tbTsqT3Read {s : State} {t : Nat} {h : Hearth} (hc : coreRuns (s.runTo t) h = true) :
    exec (.tbTsqT3Read t h) s = .next (readTsqT3 h (hearthOwner (s.runTo t) h) (s.runTo t)) := by
  show Host.Outcome.next (coreLoad t h 0x114 s) = _
  rw [coreLoad_eq hc (by decide) (by decide), loadSetup, if_neg (by decide), if_pos rfl]

/-- A partition 0 read of the head of the stamp queue removes it (R60). -/
theorem readTsqT3_head {s : State} {h : Nat} {e r} (hq : s.tu.tsq = e :: r) :
    readTsqT3 h 0 s = { s with tu.tsq := r }.updCore h
      (fun c => { c with result := BitVec.ofNat 64 (e.stamp.word.toNat / 2 ^ 96), trap := none }) := by
  simp [readTsqT3, hq]

/-- Before the last of `ceilDiv a b` steps of b, a is not reached. -/
theorem mul_lt_of_lt_ceilDiv {a b m : Nat} (hb : 0 < b) (hm : m < ceilDiv a b) : m * b < a := by
  rw [ceilDiv, Nat.lt_div_iff_mul_lt hb] at hm
  omega

/-- The edges until an instant of the counter are the first after which the counter has reached it (R38). -/
theorem edgesUntil_least {tb : TbState} {x : Nat} (hrun : 0 < tb.addend) :
    x ≤ tb.counter + edgesUntil tb x * tb.addend ∧ ∀ m, m < edgesUntil tb x → tb.counter + m * tb.addend < x := by
  have hedges : edgesUntil tb x = ceilDiv (x - tb.counter) tb.addend := if_neg hrun.ne'
  rw [hedges]
  constructor
  · have := le_ceilDiv_mul (x - tb.counter) hrun
    omega
  · intro m hm
    have := mul_lt_of_lt_ceilDiv hrun hm
    omega

theorem exec_stimecmpInterrupt {s : State} {h : Hearth} (virt : Bool) (cmp : BitVec 64) (hc : coreRuns s h = true) :
    exec (.stimecmpInterrupt h virt cmp) s = .next (stimecmpAct h virt cmp s) := by
  show Host.Outcome.next (if coreRuns s h then stimecmpAct h virt cmp s else s) = _
  rw [if_pos hc]

/-- Settles O22: the two reads, and the least number of edges to the compare value. -/
theorem coreTime : Obligations.CoreTime := by
  constructor
  · rintro s _ t h rfl hc
    refine ⟨exec_tbNow0Read hc, fun e r howner hq => ?_⟩
    rw [exec_tbTsqT3Read hc, howner, readTsqT3_head hq]
  · intro s h virt cmp hc hrun
    obtain ⟨hreached, hbefore⟩ := edgesUntil_least (x := cmp.toNat * 2 ^ 40) hrun
    refine ⟨_, _, exec_stimecmpInterrupt virt cmp hc, rfl, ?_, fun m hm => ?_⟩
    · exact (Nat.le_div_iff_mul_le (by decide)).2 hreached
    · exact (Nat.div_lt_iff_lt_mul (by decide)).2 (hbefore m hm)

end Sys2Proof.Machine
end


section
/-! The leap second and the outputs at the top of a second (R52, R70, R71). -/

namespace Sys2Proof.Machine

/-- TB_UTC after a leap second (R52): the offset one second on, LEAP_PENDING 0, and the other bits kept. -/
def leapWord (u : BitVec 32) : BitVec 32 :=
  BitVec.ofNat 32 (b2n (bit u 18) * 2 ^ 18 + b2n (bit u 16) * 2 ^ 16 +
    (BitVec.ofInt 16 (if bit u 18 then signed 16 (fld u 15 0) - 1 else signed 16 (fld u 15 0) + 1)).toNat)

theorem fld_lt {w : BitVec 32} {hi lo : Nat} : fld w hi lo < 2 ^ (hi + 1 - lo) := Nat.mod_lt _ (Nat.two_pow_pos _)

theorem fld_low (w : BitVec 32) : fld w 15 0 = w.toNat % 65536 := by
  simp [fld]

theorem bit_eq_div (w : BitVec 32) (i : Nat) : bit w i = decide (w.toNat / 2 ^ i % 2 = 1) := by
  rw [bit, BitVec.getLsbD, Nat.testBit_eq_decide_div_mod_eq]

/-- The low 16 bits of an offset one second on. -/
theorem leap_offset (x : Nat) (hx : x < 65536) (del : Bool) :
    (BitVec.ofInt 16 (if del then signed 16 x - 1 else signed 16 x + 1)).toNat = (x + (if del then 65535 else 1)) % 65536 := by
  have hsigned : signed 16 x = (x : Int) ∨ signed 16 x = (x : Int) - 65536 := by
    unfold signed
    rw [Nat.mod_eq_of_lt (show x < 2 ^ 16 from hx)]
    split
    · exact .inl rfl
    · exact .inr rfl
  rw [BitVec.toNat_ofInt]
  cases del
  · rw [if_neg (by decide), if_neg (by decide)]
    omega
  · rw [if_pos rfl, if_pos rfl]
    omega

/-- The parts of the word after a leap second. -/
theorem leapWord_toNat (u : BitVec 32) : (leapWord u).toNat =
    b2n (bit u 18) * 2 ^ 18 + b2n (bit u 16) * 2 ^ 16 + (fld u 15 0 + (if bit u 18 then 65535 else 1)) % 65536 := by
  rw [leapWord, leap_offset _ fld_lt, BitVec.toNat_ofNat, Nat.mod_eq_of_lt]
  have h18 : b2n (bit u 18) ≤ 1 := by cases bit u 18 <;> decide
  have h16 : b2n (bit u 16) ≤ 1 := by cases bit u 16 <;> decide
  omega

theorem leapWord_low (u : BitVec 32) : (leapWord u).toNat % 65536 = (fld u 15 0 + (if bit u 18 then 65535 else 1)) % 65536 := by
  rw [leapWord_toNat]
  omega

theorem leapWord_bits (u : BitVec 32) :
    bit (leapWord u) 16 = bit u 16 ∧ bit (leapWord u) 17 = false ∧ bit (leapWord u) 18 = bit u 18 := by
  have hflag (c : Bool) : decide (b2n c = 1) = c := by cases c <;> rfl
  have hle (c : Bool) : b2n c ≤ 1 := by cases c <;> decide
  have h16 := hle (bit u 16)
  have h18 := hle (bit u 18)
  have hbit (i : Nat) := bit_eq_div (leapWord u) i
  simp only [leapWord_toNat] at hbit
  generalize fld u 15 0 + (if bit u 18 then 65535 else 1) = x at hbit
  refine ⟨(hbit 16).trans ((decide_eq_decide.2 ?_).trans (hflag _)), (hbit 17).trans (decide_eq_false ?_),
    (hbit 18).trans ((decide_eq_decide.2 ?_).trans (hflag _))⟩ <;> omega

/-- A leap second always changes the offset. -/
theorem leapWord_moves (u : BitVec 32) : fld (leapWord u) 15 0 ≠ fld u 15 0 := by
  have hlow := leapWord_low u
  have hlt : fld u 15 0 < 65536 := fld_lt
  rw [fld_low (leapWord u), hlow]
  split <;> omega

/-- A word of TB_UTC with another offset and LEAP_PENDING 0 keeps the offset before it for the instants before. -/
theorem setUtc_moved {s : State} {v : BitVec 32} (at_ leap : Nat) (hmoves : fld v 15 0 ≠ fld (s.cfg 0x44 0) 15 0)
    (hpending : bit v 17 = false) : setUtc at_ leap v s = { s.setCfg 0x44 0 v with
      tu.utcPast := { at_ := at_, off := signed 16 (fld (s.cfg 0x44 0) 15 0), leap := leap } :: s.tu.utcPast } := by
  simp [setUtc, hmoves, hpending]


/-- A pending leap second waits for its instant and moves the offset. -/
theorem leapSecond_pending {s : State} (h : bit (s.cfg 0x44 0) 17 = true) : leapSecond s =
    setUtc (sec16 (leapTai s)) (if bit (s.cfg 0x44 0) 18 then 2 else 1) (leapWord (s.cfg 0x44 0))
      (s.waitUntil (sec16 (leapTai s))) := by
  rw [leapSecond, if_pos h]
  rfl

theorem exec_leapSecond {s : State} (h : alive s = true) : exec .leapSecond s = .next (leapSecond s) := congrArg _ (live_eq h)

/-- In mode 1 an output whose gate passes begins its pulse at the top of the second (R70). -/
theorem ppsPulse_driven {s : State} {n : Nat} (hmode : toutMode (waitTop s) n = 1) (hdriven : toutsDriven (waitTop s) = true)
    (hgate : gateOk (waitTop s) n = true) : ppsPulse n s = (waitTop s).updTout n
      (fun x => { x with pulse := some (sec16 (topOf s), sec16 (topOf s) + toutWidth (waitTop s) n) }) := by
  simp [ppsPulse, hmode, hdriven, hgate]

/-- In mode 2 an output whose gate passes sends the frame of the second, while the offset of UTC is valid (R71). -/
theorem irigBFrame_driven {s : State} {n : Nat} (hmode : toutMode (waitTop s) n = 2) (hdriven : toutsDriven (waitTop s) = true)
    (hgate : gateOk (waitTop s) n = true) (hutc : bit ((waitTop s).cfg 0x44 0) 16 = true) : irigBFrame n s = (waitTop s).updTout n
      (fun x => { x with irig := irigFrame (waitTop s) n (topOf s), irigAt := sec16 (topOf s) }) := by
  simp [irigBFrame, hmode, hdriven, hgate, hutc]

theorem waitTop_tout (s : State) (n : Nat) : (waitTop s).tout n = s.tout n := rfl

theorem exec_ppsPulse {s : State} {n : Fin 8} (h : alive s = true) : exec (.ppsPulse n) s = .next (ppsPulse n s) :=
  congrArg _ (live_eq h)

theorem exec_irigBFrame {s : State} {n : Fin 8} (h : alive s = true) : exec (.irigBFrame n) s = .next (irigBFrame n s) :=
  congrArg _ (live_eq h)

/-- Settles O23: the word after a leap second, and one updated output at the top of a second. -/
theorem secondsAndOutputs : Obligations.SecondsAndOutputs := by
  constructor
  · intro s halive hpending
    obtain ⟨hbit16, hbit17, hbit18⟩ := leapWord_bits (s.cfg 0x44 0)
    have hword := setUtc_moved (s := s.waitUntil (sec16 (leapTai s))) (sec16 (leapTai s)) (if bit (s.cfg 0x44 0) 18 then 2 else 1)
      (leapWord_moves (s.cfg 0x44 0)) hbit17
    refine ⟨_, exec_leapSecond halive, ?_⟩
    rw [leapSecond_pending hpending, hword]
    have hcfg (w : State) (past) : State.cfg { w.setCfg 0x44 0 (leapWord (s.cfg 0x44 0)) with tu.utcPast := past } 0x44 0 =
        leapWord (s.cfg 0x44 0) := State.setCfg_same w _ _ _
    rw [hcfg]
    exact ⟨rfl, rfl, hbit17, hbit16, hbit18, leapWord_low _⟩
  · intro s n halive hgate hdriven
    rw [exec_ppsPulse halive, exec_irigBFrame halive]
    refine ⟨fun hmode => ⟨_, rfl, ?_⟩, fun hmode hutc => ⟨_, rfl, ?_⟩⟩
    · rw [ppsPulse_driven hmode hdriven hgate]
      refine ⟨?_, fun m hm => ?_, rfl⟩
      · rw [State.updTout_tout, if_pos rfl]
      · rw [State.updTout_tout, if_neg hm, waitTop_tout]
    · rw [irigBFrame_driven hmode hdriven hgate hutc]
      refine ⟨?_, ?_, fun m hm => ?_, rfl⟩
      · rw [State.updTout_tout, if_pos rfl]
      · rw [State.updTout_tout, if_pos rfl]
      · rw [State.updTout_tout, if_neg hm, waitTop_tout]

end Sys2Proof.Machine
end


section
/-! The scheduler instructions of the cores (R313 to R317). -/

namespace Sys2Proof.Machine

/-! Assertions leave the running jobs and the posts that are queued. -/

/-- From a to b no hearth changes its running job, no task that runs a job changes, and every queued post stays queued. -/
structure JobsStay (a b : State) : Prop where
  running : ∀ g, (b.sched g).running = (a.sched g).running
  task : ∀ g k, (a.task g k).st = .running → b.task g k = a.task g k
  posts : ∀ g q, q ∈ (a.sched g).posts → q ∈ (b.sched g).posts

theorem JobsStay.refl (s : State) : JobsStay s s := ⟨fun _ => rfl, fun _ _ _ => rfl, fun _ _ h => h⟩

theorem JobsStay.of_sq {a b : State} (h : b.sq = a.sq) : JobsStay a b := by
  have hsched (g : Nat) : b.sched g = a.sched g := by rw [State.sched, h]; rfl
  have htask (g k : Nat) : b.task g k = a.task g k := by rw [State.task, h]; rfl
  exact ⟨fun g => by rw [hsched], fun g k _ => htask g k, fun g q hq => by rwa [hsched]⟩

theorem JobsStay.trans {a b c : State} (h1 : JobsStay a b) (h2 : JobsStay b c) : JobsStay a c where
  running g := (h2.running g).trans (h1.running g)
  task g k h := (h2.task g k ((h1.task g k h).symm ▸ h)).trans (h1.task g k h)
  posts g q h := h2.posts g q (h1.posts g q h)

/-- A change of a task that runs no job. -/
theorem JobsStay.updTask {a b : State} {h t : Nat} {f : Task → Task} (hs : JobsStay a b) (hidle : (b.task h t).st ≠ .running) :
    JobsStay a (b.updTask h t f) := by
  refine hs.trans ⟨fun _ => rfl, fun g k hk => ?_, fun _ _ hq => hq⟩
  have hne : 256 * g + k ≠ 256 * h + t := by
    rintro he
    exact hidle (by rwa [State.task, ← he])
  simp [State.updTask, State.task, Tbl.get_upd, hne]

/-- A change of a hearth's record that keeps its running job and its posts. -/
theorem JobsStay.updSched {a b : State} {h : Nat} {f : Sched → Sched} (hs : JobsStay a b)
    (hrun : (f (b.sched h)).running = (b.sched h).running) (hposts : ∀ q ∈ (b.sched h).posts, q ∈ (f (b.sched h)).posts) :
    JobsStay a (b.updSched h f) := by
  refine hs.trans ⟨fun g => ?_, fun _ _ _ => rfl, fun g q hq => ?_⟩ <;> rw [State.updSched_sched] <;> split
  case _ he => rw [hrun, he]
  case _ he => rfl
  case _ he => exact hposts q (he ▸ hq)
  case _ he => exact hq

@[simp] theorem devWrite_sq (s : State) (p a : Nat) (bs : List (BitVec 8)) : (devWrite s p a bs).sq = s.sq := by
  unfold devWrite; split <;> simp

@[simp] theorem indexBlock_sq (s : State) (p r : Nat) : (indexBlock s p r).sq = s.sq := devWrite_sq _ _ _ _

@[simp] theorem offerRecord_sq (s : State) (p r : Nat) (w0 : BitVec 32) (body : List (Nat × BitVec 32)) (st : Stamp) :
    (offerRecord s p r w0 body st).1.sq = s.sq := by
  unfold offerRecord; dsimp only; split <;> simp

@[simp] theorem irqStamp_sq (s : State) (h f id : Nat) (src : BitVec 32) : (irqStamp s h f id src).sq = s.sq := by
  unfold irqStamp; dsimp only; split <;> simp

theorem makeReady_jobsStay {a s : State} {h t : Nat} (r : Nat) (hs : JobsStay a s) (hidle : (s.task h t).st ≠ .running) :
    JobsStay a (makeReady s h t r) := hs.updTask hidle

/-- A POST release is made for a waiting task only (R308). -/
theorem postRelease_jobsStay {a s : State} {h t : Nat} (hs : JobsStay a s) : JobsStay a (postRelease s h t) := by
  unfold postRelease
  dsimp only
  split
  case h_1 q hq =>
    split
    next hwait =>
      simp only [Bool.and_eq_true, beq_iff_eq] at hwait
      obtain ⟨⟨-, hst⟩, -⟩ := hwait
      have hidle : (s.task h t).st ≠ .running := by rw [hst]; decide
      generalize max q.at_ (if (s.task h t).first = true then (s.task h t).hist0 else (s.task h t).lastRel + us16 (taskCfg s h t).period) = r
      split
      · exact makeReady_jobsStay _ hs hidle
      · exact hs.updTask hidle
    next => exact hs
  case h_2 => exact hs

theorem queuePost_jobsStay {a s : State} {h : Nat} {q : Post} {permitted : Bool} (hs : JobsStay a s) :
    JobsStay a (queuePost s h q permitted).2 := by
  have hrefuse : JobsStay a (s.updSched h (fun x => countRefused x q.cls)) :=
    hs.updSched rfl fun _ h => h
  unfold queuePost
  dsimp only
  repeat' split
  case isFalse.isFalse.isFalse.isFalse =>
    exact postRelease_jobsStay (hs.updSched rfl fun _ h => List.mem_append_left _ h)
  all_goals exact hrefuse

theorem assertIrq_jobsStay {a : State} (n : Nat) : ∀ {s : State} {h f id : Nat} {src : BitVec 32}, JobsStay a s →
    JobsStay a (assertIrq n s h f id src) := by
  induction n with
  | zero => exact fun hs => hs
  | succ n ih =>
    intro s h f id src hs
    have hstamp : JobsStay a (irqStamp s h f id src) := hs.trans (.of_sq (irqStamp_sq ..))
    have hpend {x : State} (hx : JobsStay a x) {g : IFile → IFile} : JobsStay a (x.updFile h f g) := hx.trans (.of_sq rfl)
    unfold assertIrq
    dsimp only
    repeat' split
    · exact hs
    · exact ih (queuePost_jobsStay hstamp)
    · exact queuePost_jobsStay hstamp
    · exact hpend (queuePost_jobsStay hstamp)
    · exact hpend hstamp
    · exact hpend hstamp

theorem dispatchIf_jobsStay (before : Option Nat) (s : State) (h : Nat) : JobsStay s (dispatchIf before s h) := by
  unfold dispatchIf
  dsimp only
  repeat' split
  · exact .refl s
  · exact assertIrq_jobsStay _ (.refl s)
  · exact .refl s

theorem dispatchIf_calm {base : State} {before : Option Nat} {s : State} {h : Nat} (h_s : Calm base s) :
    Calm base (dispatchIf before s h) := by
  unfold dispatchIf
  dsimp only
  repeat' split
  · exact h_s
  · exact assertIrq_calm h_s
  · exact h_s

theorem dispatchIf_core (before : Option Nat) (s : State) (h g : Nat) : (dispatchIf before s h).core g = s.core g := by
  rw [State.core, (dispatchIf_calm (Calm.refl s)).cores]; rfl

/-- No message is sent while the head of the ready list stays (R312). -/
theorem dispatchIf_same {s : State} {h : Nat} {before : Option Nat} (he : dispatchHead s h = before) : dispatchIf before s h = s :=
  if_neg fun hne => hne.1 he

/-! What an instruction answers. -/

@[simp] theorem csrResult_result (s : State) (h v : Nat) : ((csrResult s h v).core h).result = BitVec.ofNat 64 v := by
  simp [csrResult]

theorem csrResult_sched (s : State) (h v g : Nat) : (csrResult s h v).sched g = s.sched g := rfl
theorem csrResult_task (s : State) (h v g k : Nat) : (csrResult s h v).task g k = s.task g k := rfl

theorem sqrunAct_ready {h task : Nat} {s : State} (hready : (s.task h task).st = .ready) :
    ((sqrunAct h task s).sched h).running = some task ∧ ((sqrunAct h task s).task h task).st = .running ∧
      ((sqrunAct h task s).task h task).from_ = s.tb.edge ∧ ((sqrunAct h task s).core h).result = BitVec.ofNat 64 stDone := by
  rw [sqrunAct, if_pos hready, csrResult_sched, csrResult_task, csrResult_result]
  have htask (x : State) : x.task h task = Tbl.get {} x.sq.tasks (256 * h + task) := rfl
  refine ⟨?_, ?_, ?_, rfl⟩
  · rw [State.updSched_sched, if_pos rfl]
  · simp [htask, State.updSched, State.updTask]
  · simp [htask, State.updSched, State.updTask]

theorem sqrunAct_not_ready {h task : Nat} {s : State} (hready : (s.task h task).st ≠ .ready) :
    sqrunAct h task s = csrResult s h stNotReady := if_neg hready

theorem stopRunning_running (s : State) (h : Nat) (dest : TaskSt) : ((stopRunning s h dest).sched h).running = none := by
  unfold stopRunning
  split
  next t ht => rw [State.updSched_sched, if_pos rfl]
  next hnone => exact hnone

theorem State.updTask_sched (s : State) (h t g : Nat) (f : Task → Task) : (s.updTask h t f).sched g = s.sched g := rfl

theorem countBudget_sched (s : State) (h task g : Nat) : (countBudget s h task).sched g = s.sched g := by
  unfold countBudget
  dsimp only
  split <;> rfl

theorem afterJob_running (s : State) (h task : Nat) (g : Nat) : ((afterJob s h task).sched g).running = (s.sched g).running := by
  unfold afterJob
  split
  · rw [(postRelease_jobsStay (.refl _)).running g, State.updTask_sched]
  · have hhist (x : State) : ((startHistory x h task).sched g) = x.sched g := by
      unfold startHistory
      dsimp only
      split <;> rw [State.updTask_sched]
    rw [hhist, State.updSched_sched]
    split
    next he => rw [he]
    next => rfl

/-- sqdone of a running job (R313). -/
theorem sqdoneAct_running {h k : Nat} {s : State} (hrun : (s.sched h).running = some k) :
    ((sqdoneAct h s).sched h).running = none ∧ ((sqdoneAct h s).core h).result = BitVec.ofNat 64 stDone := by
  rw [sqdoneAct, hrun]
  dsimp only
  rw [csrResult_sched, csrResult_result, afterJob_running]
  refine ⟨?_, rfl⟩
  rw [State.updTask_sched, countBudget_sched, stopRunning_running]

/-- sqtake of a task with a post (R313). -/
theorem sqtakeAct_post {h k : Nat} {s : State} {z : Post × List Post} (hrun : (s.sched h).running = some k)
    (htake : takePost k (s.sched h).posts = some z) : sqtakeAct h s = csrResult (s.updSched h (fun y => { y with posts := z.2 })) h
      (postClsNat z.1.cls * 2 ^ 62 + z.1.src % 64 * 2 ^ 56 + z.1.ident % 256 * 2 ^ 48 + z.1.payload.toNat) := by
  rw [sqtakeAct, hrun]
  dsimp only
  rw [htake]

/-- A permitted post to a valid task with a free slot is queued (R314, R316). -/
theorem queuePost_queued {s : State} {h : Nat} {q : Post} (hvalid : (taskCfg s h q.task).valid = true) (hreset : inResetOf s h = false)
    (hfree : freeSlots (s.sched h) q.cls ≠ 0) : (queuePost s h q true).1 = stDone ∧
      { q with at_ := now16 s } ∈ ((queuePost s h q true).2.sched h).posts := by
  have hq : queuePost s h q true =
      (stDone, postRelease (s.updSched h (fun x => { x with posts := x.posts ++ [{ q with at_ := now16 s }] })) h q.task) := by
    simp [queuePost, hvalid, hreset, hfree]
  rw [hq]
  refine ⟨rfl, (postRelease_jobsStay (.refl _)).posts h _ ?_⟩
  rw [State.updSched_sched, if_pos rfl]
  exact List.mem_append_right _ (List.mem_singleton_self _)

/-- The post that a sqpost of the core of hearth h makes. -/
def corePost (h g task : Nat) (payload : BitVec 32) : Post :=
  { cls := if g = h then .local_ else .peer, src := h, ident := 0, task := task, payload := payload }

theorem sqpostAct_queued {s : State} {h g task : Nat} {w : BitVec 32} (howner : hearthOwner s g = hearthOwner s h)
    (hvalid : (taskCfg s g task).valid = true) (hreset : inResetOf s g = false)
    (hfree : freeSlots (s.sched g) (if g = h then .local_ else .peer) ≠ 0) :
    ((sqpostAct h g task w s).core h).result = BitVec.ofNat 64 stDone ∧
      { corePost h g task w with at_ := now16 s } ∈ ((sqpostAct h g task w s).sched g).posts := by
  obtain ⟨hdone, hmem⟩ := queuePost_queued (q := corePost h g task w) hvalid hreset hfree
  have hact : sqpostAct h g task w s = csrResult (queuePost s g (corePost h g task w) true).2 h
      (queuePost s g (corePost h g task w) true).1 := by
    rw [sqpostAct, howner, beq_self_eq_true]
    rfl
  rw [hact]
  exact ⟨by rw [csrResult_result, hdone], hmem⟩

/-! The commands. -/

section
variable {s : State} {t : Nat} {h : Hearth} (hc : coreRuns (s.runTo t) h = true)
include hc

theorem byCsr_hs (f : State → State) : byCsr t h .hs f s = (f (s.runTo t)).updCore h (fun c => { c with trap := none }) :=
  byCore_eq hc

theorem exec_sqrun (task : Fin 256) : exec (.sqrun t h .hs task) s =
    .next ((withDispatch (s.runTo t) h (sqrunAct h task)).updCore h (fun c => { c with trap := none })) := congrArg _ (byCsr_hs hc _)

theorem exec_sqrunIdle : exec (.sqrunIdle t h .hs) s = .next ((sqrunIdle h (s.runTo t)).updCore h (fun c => { c with trap := none })) :=
  congrArg _ (byCsr_hs hc _)

theorem exec_sqnext (a size : Nat) (v : BitVec 64) : exec (.coreDramAccess t h (.sqnext .hs) a size v) s =
    .next ((sqnextRead h (s.runTo t)).updCore h (fun c => { c with trap := none })) := congrArg _ (byCore_eq hc)

theorem exec_sqdone : exec (.sqdone t h .hs) s =
    .next ((withDispatch (s.runTo t) h (sqdoneAct h)).updCore h (fun c => { c with trap := none })) := congrArg _ (byCsr_hs hc _)

theorem exec_sqtake : exec (.sqtake t h .hs) s =
    .next ((checkRows [4] (sqtakeAct h (s.runTo t))).updCore h (fun c => { c with trap := none })) := congrArg _ (byCsr_hs hc _)

theorem exec_sqpost (g : Hearth) (task : Fin 256) (w : BitVec 32) : exec (.sqpost t h .hs g task w) s =
    .next ((checkRows [4] (withDispatch (s.runTo t) g (sqpostAct h g task w))).updCore h (fun c => { c with trap := none })) :=
  congrArg _ (byCsr_hs hc _)

/-- Outside HS-mode an instruction of the scheduler traps and does nothing else (R313). -/
theorem exec_csr_trap {m : CMode} {trap : Trap} (hm : ∀ f, csrAccess (s.runTo t) h m f = (s.runTo t).updCore h (fun c => { c with trap := some trap }))
    (g : Hearth) (task : Fin 256) (w : BitVec 32) (a size : Nat) (v : BitVec 64) : ∀ i ∈ [Instr.sqrunIdle t h m, .sqdone t h m,
      .sqtake t h m, .sqrun t h m task, .sqpost t h m g task w, .coreDramAccess t h (.sqnext m) a size v],
      exec i s = .next ((s.runTo t).updCore h (fun c => { c with trap := some trap })) := by
  have hcsr (f : State → State) : byCsr t h m f s = (s.runTo t).updCore h (fun c => { c with trap := some trap }) :=
    (byCore_eq hc).trans (hm f)
  simp only [List.mem_cons, List.not_mem_nil, or_false]
  rintro i (rfl | rfl | rfl | rfl | rfl | rfl)
  · exact congrArg _ (hcsr _)
  · exact congrArg _ (hcsr _)
  · exact congrArg _ (hcsr _)
  · exact congrArg _ (hcsr _)
  · exact congrArg _ (hcsr _)
  · exact congrArg _ (hcsr (sqnextRead h))

end

/-- The end of an instruction clears the trap and keeps its result. -/
theorem State.cleared_core (s : State) (h : Nat) : ((s.updCore h (fun c => { c with trap := none })).core h).trap = none ∧
    ((s.updCore h (fun c => { c with trap := none })).core h).result = (s.core h).result := by
  rw [State.updCore_core, if_pos rfl]
  exact ⟨rfl, rfl⟩

/-- Settles O15: each instruction's act, and the dispatch after it, which leaves running jobs and queued posts. -/
theorem schedulerInstructions : Obligations.SchedulerInstructions := by
  rintro s _ t h rfl hc
  refine ⟨fun task hready => ?_, fun task hready => ?_, ?_, fun a size v => ?_, fun k hrun => ?_, fun k z hrun htake => ?_,
    fun g task w howner hvalid hreset hfree => ?_, fun g task w a size v => exec_csr_trap hc (fun _ => rfl) g task w a size v,
    fun g task w a size v => exec_csr_trap hc (fun _ => rfl) g task w a size v⟩
  · obtain ⟨hrunning, hst, hfrom, hresult⟩ := sqrunAct_ready hready
    have hstay := dispatchIf_jobsStay (dispatchHead (s.runTo t) h) (sqrunAct h task (s.runTo t)) h
    obtain ⟨htrap, hkept⟩ := State.cleared_core (withDispatch (s.runTo t) h (sqrunAct h task)) h
    refine ⟨_, exec_sqrun hc task, (hstay.running h).trans hrunning, ?_, ?_, hkept.trans ?_, htrap⟩
    · exact (congrArg Task.st (hstay.task h task hst)).trans hst
    · exact (congrArg Task.from_ (hstay.task h task hst)).trans hfrom
    · exact (congrArg CoreSt.result (dispatchIf_core _ _ _ _)).trans hresult
  · have hact : withDispatch (s.runTo t) h (sqrunAct h task) = csrResult (s.runTo t) h stNotReady := by
      rw [withDispatch, sqrunAct_not_ready hready]
      exact dispatchIf_same rfl
    obtain ⟨htrap, hkept⟩ := State.cleared_core (csrResult (s.runTo t) h stNotReady) h
    rw [exec_sqrun hc task, hact]
    exact ⟨_, rfl, rfl, hkept.trans (csrResult_result ..), htrap⟩
  · obtain ⟨-, hkept⟩ := State.cleared_core (sqrunIdle h (s.runTo t)) h
    have hstay := dispatchIf_jobsStay (runHead (s.runTo t) h) (stopRunning (s.runTo t) h .ready) h
    exact ⟨_, exec_sqrunIdle hc, (hstay.running h).trans (stopRunning_running ..), hkept.trans (csrResult_result ..)⟩
  · obtain ⟨htrap, hkept⟩ := State.cleared_core (sqnextRead h (s.runTo t)) h
    refine ⟨_, exec_sqnext hc a size v, htrap, rfl, hkept.trans ?_⟩
    rw [sqnextRead, State.updCore_core, if_pos rfl]
    rfl
  · obtain ⟨hrunning, hresult⟩ := sqdoneAct_running hrun
    have hstay := dispatchIf_jobsStay (dispatchHead (s.runTo t) h) (sqdoneAct h (s.runTo t)) h
    obtain ⟨-, hkept⟩ := State.cleared_core (withDispatch (s.runTo t) h (sqdoneAct h)) h
    exact ⟨_, exec_sqdone hc, hkept.trans ((congrArg CoreSt.result (dispatchIf_core _ _ _ _)).trans hresult),
      (hstay.running h).trans hrunning⟩
  · refine ⟨_, exec_sqtake hc, ?_⟩
    rw [sqtakeAct_post hrun htake, csrResult_sched, csrResult_result, State.updSched_sched, if_pos rfl]
    exact ⟨rfl, rfl⟩
  · obtain ⟨hresult, hmem⟩ := sqpostAct_queued (w := w) howner hvalid hreset hfree
    have hstay := dispatchIf_jobsStay (dispatchHead (s.runTo t) g) (sqpostAct h g task w (s.runTo t)) g
    exact ⟨_, _, exec_sqpost hc g task w, hstay.posts g _ hmem, rfl, rfl, rfl,
      (congrArg CoreSt.result (dispatchIf_core _ _ _ _)).trans hresult⟩

end Sys2Proof.Machine
end


section
/-! Stores to the set-up registers (R10, R11, R341, R343, R478). -/

namespace Sys2Proof.Machine

theorem setupStore_eq {x : State} {h p off : Nat} (v : BitVec 32) (howner : hearthOwner x h = p) (ho : off < 0x150000)
    (h4 : off % 4 = 0) : setupStore h (setupBase + off) v x = coreDone h (storeSetup p off v x) := by
  have hin : setupBase ≤ setupBase + off ∧ setupBase + off < setupBase + 0x150000 := by constructor <;> omega
  have halign : (setupBase + off) % 4 = 0 := by unfold setupBase; omega
  have hword : (v.setWidth 64).setWidth 32 = v := BitVec.setWidth_setWidth_of_le _ (by decide)
  simp only [setupStore, hin, and_self, if_true, ioStore, halign, Nat.add_sub_cancel_left, hword, howner]

section
variable {s : State} {t : Nat} {h : Hearth} {p off : Nat} (v : BitVec 32) (hc : CoreOf (s.runTo t) h p) (ho : off < 0x150000)
  (h4 : off % 4 = 0)
include hc ho h4

theorem exec_stagedWrite : exec (.stagedWrite t h (setupBase + off) v) s = .next (coreDone h (storeSetup p off v (s.runTo t))) :=
  congrArg _ ((byCore_eq hc.1).trans (setupStore_eq v hc.2 ho h4))

theorem exec_registerWrite : exec (.registerWrite t h (setupBase + off) v) s = .next (coreDone h (storeSetup p off v (s.runTo t))) :=
  congrArg _ ((byCore_eq hc.1).trans (setupStore_eq v hc.2 ho h4))

end

/-! Registers on which a store acts at once by more than their fields. -/

/-- The offsets outside chapter 16's block at which a store clears a bit or acts at once (R10). -/
def actingOffsets : List Nat :=
  [0, 0x4, 0x10, 0x14, 0x28, 0x80004, 0x90004, 0x90108, 0xA3000, 0xA3004, 0xB0004, 0xC0004, 0xE000C, 0x100040, 0x110014, 0x130014]

theorem storeW1c_plain {p off : Nat} (v : BitVec 32) (s : State) (hoff : off ∉ actingOffsets) : storeW1c p off v s = s := by
  simp only [actingOffsets, List.mem_cons, List.not_mem_nil, or_false, not_or] at hoff
  simp [storeW1c, hoff]

theorem storeWo_plain {p off : Nat} (v : BitVec 32) (s : State) (hoff : off ∉ actingOffsets) : storeWo p off v s = s := by
  simp only [actingOffsets, List.mem_cons, List.not_mem_nil, or_false, not_or] at hoff
  simp [storeWo, hoff]

/-- No such register has staged bits, and none is a partition's own selector outside the time base. -/
theorem actingOffsets_info : ∀ off ∈ actingOffsets, (regInfo off).all (fun i => i.tx == 0 && (i.sel != .own || i.rw == 0 || off / 65536 == 0)) = true := by
  decide

theorem staged_plain {off : Nat} {i : RegInfo} (hi : regInfo off = some i) (htx : i.tx ≠ 0) : off ∉ actingOffsets := by
  intro hmem
  have hinfo := actingOffsets_info off hmem
  have htx' : i.tx ≠ 0#32 := htx
  simp [hi, htx'] at hinfo

theorem selector_plain {off : Nat} {m : BitVec 32} (hi : regInfo off = some { rw := m, sel := .own }) (hm : m ≠ 0)
    (hblock : off / 65536 ≠ 0) : off ∉ actingOffsets := by
  intro hmem
  have hinfo := actingOffsets_info off hmem
  have hm' : m ≠ 0#32 := hm
  have hblock' : ¬ off < 65536 := by omega
  simp [hi, hm', hblock'] at hinfo

/-- A permitted store to a register of staged bits alone is the store of those bits. -/
theorem storeSetup_staged {p off : Nat} {i : RegInfo} {s : State} (v : BitVec 32) (hi : regInfo off = some i) (htx : i.tx ≠ 0)
    (hrw : i.rw = 0) (hblock : off / 65536 ≠ 15) (hdom : domOn s off (sliceSel s p off) = true)
    (hallow : (writeRule s off (selValue s p i)).allows p = true) :
    storeSetup p off v s = storeTx p off (selValue s p i) (v &&& i.tx) s := by
  have hplain := staged_plain hi htx
  have haddend : off ≠ 0x10 ∧ off ≠ 0x14 := by
    constructor <;> rintro rfl <;> exact hplain (by decide)
  have hfields (x : State) : storeRw off (selValue s p i) i.rw v x = x := by simp [storeRw, hrw]
  have htx' : i.tx ≠ 0#32 := htx
  simp [storeSetup, hi, hdom, hblock, hallow, haddend, htx', hfields, storeW1c_plain _ _ hplain, storeWo_plain _ _ hplain]

/-! The staging of a key (R343). -/

/-- In an open transaction a store stages its key, which may travel in the state delta (R353). -/
theorem storeTx_open {s : State} {p off sel : Nat} {v : BitVec 32} (hopen : (s.txn p).st = .open_) (hrole : isStandby s = false) :
    storeTx p off sel v s = stageKey p (regKey off (stageSel s p off sel)) v s ∨
      ∃ k st, storeTx p off sel v s = deltaSend k st (stageKey p (regKey off (stageSel s p off sel)) v s) := by
  unfold storeTx
  simp only [hopen, hrole, BEq.rfl, Bool.not_false, Bool.and_self, if_true]
  split
  · exact .inr ⟨_, _, rfl⟩
  · exact .inl rfl

section
variable {s : State} {p off sel : Nat} {v : BitVec 32} (hopen : (s.txn p).st = .open_) (hrole : isStandby s = false)
  (hclaim : claimedByOther s p (regKey off (stageSel s p off sel)) = false)
  (hnew : (s.txn p).keys.any (fun k => k.1 == regKey off (stageSel s p off sel)) = false)
include hopen hrole hclaim hnew

/-- What a store to a register of an open transaction leaves: the staged transaction, and perhaps an item of the state delta. -/
theorem storeTx_stages (hroom : (s.txn p).keys.length < 4096) (htotal : stagedTotal s < 16384) :
    TxnSet p s (storeTx p off sel v s) { s.txn p with keys := (s.txn p).keys ++ [(regKey off (stageSel s p off sel), v)] } := by
  have hstage : stageKey p (regKey off (stageSel s p off sel)) v s =
      s.updTxn p (fun y => { y with keys := y.keys ++ [(regKey off (stageSel s p off sel), v)] }) := by
    simp [stageKey, hclaim, hnew, hroom, htotal]
  have hset := updTxn_txnSet (s := s) (p := p) rfl rfl (f := fun y => { y with keys := y.keys ++ [(regKey off (stageSel s p off sel), v)] })
  rw [← hstage] at hset
  obtain he | ⟨k, st, he⟩ := storeTx_open (off := off) (sel := sel) (v := v) hopen hrole <;> rw [he]
  · exact hset
  · exact hset.after_deltaSend k st

theorem storeTx_overflows (hfull : 4096 ≤ (s.txn p).keys.length ∨ 16384 ≤ stagedTotal s) :
    TxnSet p s (storeTx p off sel v s) { s.txn p with overflow := true } := by
  have hstage : stageKey p (regKey off (stageSel s p off sel)) v s = s.updTxn p (fun y => { y with overflow := true }) := by
    simp [stageKey, hclaim, hnew, hfull]
  have hset := updTxn_txnSet (s := s) (p := p) rfl rfl (f := fun y => { y with overflow := true })
  rw [← hstage] at hset
  obtain he | ⟨k, st, he⟩ := storeTx_open (off := off) (sel := sel) (v := v) hopen hrole <;> rw [he]
  · exact hset
  · exact hset.after_deltaSend k st

end

/-- With no transaction open the store is counted (R11). -/
theorem storeTx_ignored {s : State} {p off sel : Nat} {v : BitVec 32} (hidle : (s.txn p).st ≠ .open_) :
    TxnSet p s (storeTx p off sel v s) { s.txn p with ign := inc32 (s.txn p).ign } := by
  have hset : TxnSet p s (s.txIgn p) { s.txn p with ign := inc32 (s.txn p).ign } := updTxn_txnSet rfl rfl
  have hclosed : ((s.txn p).st == .open_) = false := by simpa using hidle
  unfold storeTx
  simp only [hclosed, Bool.false_and, Bool.false_eq_true, if_false]
  split
  · exact ⟨hset.same, hset.others, hset.regs⟩
  · exact hset

theorem TxnSet.coreDone {p : Nat} {s x : State} {c : Txn} (hset : TxnSet p s x c) (h : Nat) : TxnSet p s (coreDone h x) c :=
  ⟨hset.same, hset.others, hset.regs⟩

/-- A commit of a transaction with OVERFLOW ends it and leaves every register (R343). -/
theorem txnCommitSend_overflow {p r : Nat} {s : State} {f : Flight} (hrole : isStandby s = false)
    (hres : reservedOk f.words 0x200 [(2, 0xFFFFFFFF), (3, 0xFFFFFFFF), (4, 0xFFFFFFFF), (5, 0xFFFFFFFF)] = true)
    (hopen : (s.txn p).st = .open_) (hconflict : (s.txn p).conflict = false) (hover : (s.txn p).overflow = true) :
    txnCommitSend p r s f =
      deltaSend (.txnCommit p 0 (64 * p + r)) stConflict (finishTxn (dropTxn p s) (64 * p + r) f.id stExceeds (s.txn p).txid) := by
  have hdrop := (dropTxn_txnSet p s).calm (completeKey_calm (k := 64 * p + r) (id := f.id)
    (b := { status := stExceeds, res16 := (s.txn p).txid.toNat, stamp := some (stampNow (dropTxn p s)) }) (Calm.refl _))
  have hact : txnCommitAct (isStandby s) p r s f = finishTxn (dropTxn p s) (64 * p + r) f.id stExceeds (s.txn p).txid := by
    rw [txnCommitAct, hres]
    simp [hrole, hopen, commitCheck, hconflict, hover]
  have hidle : ((finishTxn (dropTxn p s) (64 * p + r) f.id stExceeds (s.txn p).txid).txn p).st = .idle := by
    rw [finishTxn, hdrop.same]
  simp [txnCommitSend, hact, hopen, hidle]

/-! A partition's own selectors (R10, R478). -/

/-- A permitted store to a selector sets the bits that the register has. -/
theorem storeSetup_selector {p off : Nat} {m : BitVec 32} {s : State} (v : BitVec 32) (hi : regInfo off = some { rw := m, sel := .own })
    (hm : m ≠ 0) (hblock0 : off / 65536 ≠ 0) (hblock : off / 65536 ≠ 15) (hdom : domOn s off (sliceSel s p off) = true)
    (hallow : (writeRule s off p).allows p = true) : storeSetup p off v s = setMasked s off p m v := by
  have hplain := selector_plain hi hm hblock0
  have hlow : 65536 ≤ off := by omega
  have haddend : off ≠ 0x10 ∧ off ≠ 0x14 ∧ off ≠ 0x44 ∧ off ≠ 0x24 ∧ off ≠ 0 := by omega
  have hpol : onGrid off 0x90200 4 4 = false := by
    by_contra hgrid
    simp only [onGrid, Bool.not_eq_false, Bool.and_eq_true, decide_eq_true_eq, beq_iff_eq] at hgrid
    have hoff : off ∈ [0x90200, 0x90204, 0x90208, 0x9020C] := by
      simp only [List.mem_cons, List.not_mem_nil, or_false]
      omega
    have hinfo : ∀ k ∈ [0x90200, 0x90204, 0x90208, 0x9020C], (regInfo k).all (fun i => i.sel != .own) = true := by decide
    simpa [hi] using hinfo off hoff
  have hout (k : Nat) (hk : k ≤ 0x204) : onGrid off k 0x10 8 = false := by
    simp only [onGrid, Bool.and_eq_false_iff, decide_eq_false_iff_not]
    omega
  have hm' : m ≠ 0#32 := hm
  have hfields : storeRw off p m v s = setMasked s off p m v := by
    unfold storeRw
    simp [hm', haddend, hpol, hout, clampStore]
  obtain ⟨i, hreg, rfl, htx, hsel⟩ : ∃ i, regInfo off = some i ∧ i.rw = m ∧ i.tx = 0#32 ∧ selValue s p i = p := ⟨_, hi, rfl, rfl, rfl⟩
  simp [storeSetup, hreg, hdom, hblock, hallow, haddend, hfields, htx, hsel, storeW1c_plain _ _ hplain, storeWo_plain _ _ hplain]

theorem setMasked_cfg (s : State) (off sel : Nat) (m v : BitVec 32) :
    (setMasked s off sel m v).cfg off sel = (s.cfg off sel &&& ~~~m) ||| (v &&& m) := State.setCfg_same ..

theorem setMasked_cfg_of_ne {s : State} {off sel o k : Nat} {m v : BitVec 32} (hsel : sel < 65536) (hk : k < 65536)
    (hne : o ≠ off ∨ k ≠ sel) : (setMasked s off sel m v).cfg o k = s.cfg o k := by
  rw [setMasked, State.setCfg_cfg, if_neg]
  rw [regKey_inj hk hsel]
  omega

/-- Settles O24: staged stores, the commit of an overflown transaction, and own selectors. -/
theorem registerStores : Obligations.RegisterStores := by
  refine ⟨?staged, ?overflow, ?selector⟩
  case staged =>
    rintro s _ t h p off v i rfl hc ho h4 hblock hi htx hrw hdom hallow hrole
    rw [exec_stagedWrite v hc ho h4, storeSetup_staged v hi htx hrw hblock hdom hallow]
    refine ⟨fun hopen hclaim hnew hroom htotal => ⟨_, rfl, ?_⟩, fun hidle => ⟨_, rfl, ?_⟩,
      fun hopen hclaim hnew hfull => ⟨_, rfl, ?_⟩⟩
    · have hset := (storeTx_stages (v := v &&& i.tx) hopen hrole hclaim hnew hroom htotal).coreDone h
      exact ⟨by rw [hset.same], hset.regs⟩
    · have hset := storeTx_ignored (off := off) (sel := selValue (s.runTo t) p i) (v := v &&& i.tx) hidle
      have hdone := hset.coreDone h
      exact ⟨by rw [hdone.same], by rw [hdone.same], hdone.regs⟩
    · have hset := (storeTx_overflows (v := v &&& i.tx) hopen hrole hclaim hnew hfull).coreDone h
      exact ⟨by rw [hset.same], by rw [hset.same], hset.regs⟩
  case overflow =>
    intro s t p r y hfetch hrole hres hopen hconflict hover
    rw [exec_txnCommit hfetch, txnCommitSend_overflow hrole hres hopen hconflict hover]
    have hset := ((dropTxn_txnSet p y.1).calm (completeKey_calm (k := 64 * p + r) (id := y.2.id)
      (b := { status := stExceeds, res16 := (y.1.txn p).txid.toNat, stamp := some (stampNow (dropTxn p y.1)) })
      (Calm.refl _))).after_deltaSend (.txnCommit p 0 (64 * p + r)) stConflict
    exact ⟨_, rfl, congrArg Txn.st hset.same, hset.regs, deltaSend_db .., deltaSend_dram ..⟩
  case selector =>
    rintro s _ t h p off v m rfl hc hp ho h4 hi hm hblock0 hblock hdom hallow
    rw [exec_registerWrite v hc ho h4, storeSetup_selector v hi hm hblock0 hblock hdom hallow]
    have hdone (x : State) (o k : Nat) : (coreDone h x).cfg o k = x.cfg o k := rfl
    refine ⟨_, rfl, (hdone _ _ _).trans (setMasked_cfg ..), fun o k hk hne => ?_, rfl, rfl⟩
    exact (hdone _ _ _).trans (setMasked_cfg_of_ne (by omega) hk hne)

end Sys2Proof.Machine
end


section
/-! Resets of partition, hearth and engine scope (R296 to R299, R478). -/

namespace Sys2Proof.Machine

/-! Requests. -/

/-- PT_RESET is write-only, in no switched domain, and every partition may store to it (R296). -/
theorem storeSetup_ptReset (p : Nat) (v : BitVec 32) (s : State) : storeSetup p 0xA3000 v s = resetWrite p v s := by
  obtain ⟨i, hreg, htx, hrw⟩ : ∃ i, regInfo 0xA3000 = some i ∧ i.tx = 0#32 ∧ i.rw = 0#32 := ⟨_, rfl, rfl, rfl⟩
  have hdom : domOn s 0xA3000 (sliceSel s p 0xA3000) = true := rfl
  have hrule (sel : Nat) : writeRule s 0xA3000 sel = .any := rfl
  simp [storeSetup, hreg, hdom, hrule, htx, hrw, WriteRule.allows, storeRw, storeW1c, storeWo]

theorem resetStore_eq {s : State} {t h p : Nat} (v : Nat) (hc : CoreOf (s.runTo t) h p) :
    resetStore t h v s = coreDone h (resetWrite p (BitVec.ofNat 32 v) (s.runTo t)) := by
  rw [resetStore, coreStore_eq hc (by decide) (by decide), storeSetup_ptReset]

/-- A word below 2^32 by its fields of R296. -/
theorem resetWord_fields {v kind unit k : Nat} (hv : v = kind * 2 ^ 30 + unit * 2 ^ 12 + k) (hkind : kind < 4) (hunit : unit < 4)
    (hk : k < 256) : fld (BitVec.ofNat 32 v) 31 30 = kind ∧ fld (BitVec.ofNat 32 v) 13 12 = unit ∧ fld (BitVec.ofNat 32 v) 7 0 = k := by
  simp only [fld, BitVec.toNat_ofNat, Nat.shiftRight_eq_div_pow]
  omega

/-- The scope that a word of R296 names. -/
structure Names (v : Nat) (c : RScope) : Prop where
  partial_ : fld (BitVec.ofNat 32 v) 31 30 ≠ 0
  scope : resetScope (BitVec.ofNat 32 v) = some c

theorem names_partition {k : Nat} (hk : k < 32) : Names (0x40000000 + k) (.partition k) := by
  obtain ⟨hkind, hunit, htarget⟩ := resetWord_fields (v := 0x40000000 + k) (kind := 1) (unit := 0) (k := k) (by omega) (by decide)
    (by decide) (by omega)
  constructor
  · omega
  · simp [resetScope, hkind, hunit, htarget, hk]

theorem names_hearth {k : Nat} (hk : k < 64) : Names (0x80000000 + k) (.hearth k) := by
  obtain ⟨hkind, hunit, htarget⟩ := resetWord_fields (v := 0x80000000 + k) (kind := 2) (unit := 0) (k := k) (by omega) (by decide)
    (by decide) (by omega)
  constructor
  · omega
  · simp [resetScope, hkind, hunit, htarget, hk]

theorem names_fbe {k : Nat} (hk : k < 64) : Names (0xC0000000 + k) (.fbe k) := by
  obtain ⟨hkind, hunit, htarget⟩ := resetWord_fields (v := 0xC0000000 + k) (kind := 3) (unit := 0) (k := k) (by omega) (by decide)
    (by decide) (by omega)
  constructor
  · omega
  · simp [resetScope, hkind, hunit, htarget, hk]

theorem names_loop {k : Nat} (hk : k < 256) : Names (0xC0001000 + k) (.loop k) := by
  obtain ⟨hkind, hunit, htarget⟩ := resetWord_fields (v := 0xC0001000 + k) (kind := 3) (unit := 1) (k := k) (by omega) (by decide)
    (by decide) (by omega)
  constructor
  · omega
  · simp [resetScope, hkind, hunit, htarget]

theorem names_capture {k : Nat} (hk : k < 144) : Names (0xC0002000 + k) (.capture k) := by
  obtain ⟨hkind, hunit, htarget⟩ := resetWord_fields (v := 0xC0002000 + k) (kind := 3) (unit := 2) (k := k) (by omega) (by decide)
    (by decide) (by omega)
  constructor
  · omega
  · simp [resetScope, hkind, hunit, htarget, hk]

theorem Names.resetWrite {v : Nat} {c : RScope} (hv : Names v c) (p : Nat) (s : State) :
    resetWrite p (BitVec.ofNat 32 v) s = resetRequest p (some c) s := by
  rw [Machine.resetWrite, if_neg hv.partial_, hv.scope]

theorem deltaSend_pt (k : DeltaKind) (st : Nat) (s : State) : (deltaSend k st s).pt = s.pt := by
  unfold deltaSend; split <;> rfl

/-- A permitted request outside every reset in progress is noted for 10 µs later (R297). -/
theorem resetRequest_noted {p : Nat} {c : RScope} {s : State} (hasked : ResetAsked s p c) (hrole : isStandby s = false) :
    ResetNoted s (resetRequest p (some c) s) c := by
  obtain ⟨hmay, hfree⟩ := hasked
  have hreq : resetRequest p (some c) s = deltaSend (.reset c (s.tb.edge + usEdges 10)) stDone
      { s with pt.resets := s.pt.resets ++ [{ scope := c, reqEdge := s.tb.edge, effEdge := s.tb.edge + usEdges 10 }] } := by
    simp only [resetRequest, hmay, hrole, hfree, Bool.not_true, Bool.or_self, Bool.false_eq_true, if_false]
  have husEdges : usEdges 10 = 2500 := rfl
  rw [hreq, husEdges]
  exact ⟨congrArg PtState.resets (deltaSend_pt ..), (deltaSend_calm (Calm.refl _)).regs, deltaSend_dram ..⟩

theorem resetRequest_refused {p : Nat} {c : RScope} {s : State} (hmay : mayReset s p c = false) :
    resetRequest p (some c) s = { s with pt.refused := true } := by
  simp [resetRequest, hmay, refuseReset]

/-- A request for a scope through PT_RESET by an executing core. -/
theorem resetStore_noted {s : State} {t h p v : Nat} {c : RScope} (hv : Names v c) (hc : CoreOf (s.runTo t) h p)
    (hrole : isStandby (s.runTo t) = false) (hasked : ResetAsked (s.runTo t) p c) :
    ∃ y, Host.Outcome.next (resetStore t h v s) = (Host.Outcome.next y : Res) ∧ ResetNoted (s.runTo t) y c := by
  refine ⟨_, rfl, ?_⟩
  rw [resetStore_eq v hc, hv.resetWrite]
  exact resetRequest_noted hasked hrole

theorem resetStore_refused {s : State} {t h p v : Nat} {c : RScope} (hv : Names v c) (hc : CoreOf (s.runTo t) h p)
    (hmay : mayReset (s.runTo t) p c = false) :
    resetStore t h v s = State.cleared { s.runTo t with pt.refused := true } h := by
  rw [resetStore_eq v hc, hv.resetWrite, resetRequest_refused hmay]
  rfl

/-! The effective instant. -/

/-- Whatever an invariant of one step of a fold keeps, the fold keeps. -/
theorem foldl_regs {β : Type} {f : State → β → State} (hf : ∀ a b, (f a b).regs = a.regs) (l : List β) (s : State) :
    (l.foldl f s).regs = s.regs :=
  List.foldlRecOn (motive := fun a => a.regs = s.regs) l f rfl fun a ha b _ => (hf a b).trans ha

theorem discardFiles_regs (p h : Nat) (s : State) : (discardFiles p h s).regs = s.regs := by
  refine foldl_regs (fun a f => ?_) _ s
  simp

theorem Tbl.get_filter_of_not {β : Type} (d : β) (t : Tbl β) (q : Nat × β → Bool) (k : Nat) (hq : ∀ v, q (k, v) = false) :
    Tbl.get d (t.filter q) k = d := by
  induction t with
  | nil => rfl
  | cons e r ih =>
    obtain ⟨a, w⟩ := e
    rw [List.filter_cons]
    split
    next hkeep =>
      have hne : k ≠ a := by
        rintro rfl
        simp [hq] at hkeep
      rw [Tbl.get, if_neg hne, ih]
    next => exact ih

/-- After the reset of its selectors a partition reads their reset values (R478). -/
theorem resetSelectors_cfg {p off : Nat} {i : RegInfo} (s : State) (hp : p < 65536) (h1 : off ≠ 0x90100) (h2 : off ≠ 0x90104)
    (hi : regInfo off = some i) (hsel : i.sel = .own) : (resetSelectors p s).cfg off p = regReset off p := by
  have hkey : regKey off p % 65536 = p ∧ regKey off p / 65536 = off := by
    unfold regKey
    omega
  have hget : Tbl.get 0 (resetSelectors p s).regs (regKey off p) = 0 := by
    refine Tbl.get_filter_of_not _ _ _ _ fun v => ?_
    simp [hkey, h1, h2, hi, hsel]
  rw [State.cfg, hget]
  exact BitVec.zero_xor

theorem partitionBegin_cfg {p off : Nat} {i : RegInfo} (s : State) (hp : p < 65536) (h1 : off ≠ 0x90100) (h2 : off ≠ 0x90104)
    (hi : regInfo off = some i) (hsel : i.sel = .own) : (partitionBegin p s).cfg off p = regReset off p := by
  unfold partitionBegin
  extract_lets s0 s1 s2 s3 s4 s5 s6 s7 w s8
  have hregs := foldl_regs (fun a h => discardFiles_regs p h a) (hearthsOf s p) (resetSelectors p (rangesRestart p s8))
  exact (State.cfg_congr (by rw [hregs])).trans (resetSelectors_cfg _ hp h1 h2 hi hsel)

/-- The earliest request takes effect at its instant (R297). -/
theorem resetEffective_first {s : State} {z : ResetRun} {r : List ResetRun}
    (hfirst : sortBy (fun a b => decide (a.effEdge ≤ b.effEdge)) (s.pt.resets.filter (fun z => !z.draining)) = z :: r) :
    resetEffective s = resetBegin z (s.runTo z.effEdge) := by
  rw [resetEffective, hfirst]

theorem resetEffective_edge {s : State} {z : ResetRun} {r : List ResetRun}
    (hfirst : sortBy (fun a b => decide (a.effEdge ≤ b.effEdge)) (s.pt.resets.filter (fun z => !z.draining)) = z :: r) :
    z.effEdge ≤ (resetEffective s).tb.edge := by
  have hkeeps := (resetBegin_keeps (x := z) (Keeps.refl (s.runTo z.effEdge))).edge
  rw [State.runTo_edge] at hkeeps
  rw [resetEffective_first hfirst]
  omega

theorem exec_resetEffective {s : State} (h : alive s = true) : exec .resetEffective s = .next (resetEffective s) :=
  congrArg _ (live_eq h)

/-! The end of the drain. -/

/-- From a to b the resets and what PT_STATUS says of the last one stay. -/
structure SameResets (a b : State) : Prop where
  resets : b.pt.resets = a.pt.resets
  scope : b.pt.lastScope = a.pt.lastScope
  drain : b.pt.lastDrain = a.pt.lastDrain

theorem SameResets.refl (s : State) : SameResets s s := ⟨rfl, rfl, rfl⟩
theorem SameResets.trans {a b c : State} (h1 : SameResets a b) (h2 : SameResets b c) : SameResets a c :=
  ⟨h2.resets.trans h1.resets, h2.scope.trans h1.scope, h2.drain.trans h1.drain⟩

theorem updPart_sameResets (s : State) (p : Nat) (f : PartRun → PartRun) : SameResets s (s.updPart p f) := ⟨rfl, rfl, rfl⟩
theorem startCore_sameResets (h : Nat) (s : State) : SameResets s (startCore h s) := ⟨rfl, rfl, rfl⟩

theorem devWrite_sameResets (s : State) (p a : Nat) (bs : List (BitVec 8)) : SameResets s (devWrite s p a bs) := by
  unfold devWrite
  split
  · exact ⟨rfl, rfl, rfl⟩
  · exact updPart_sameResets ..

theorem foldl_sameResets {β : Type} {f : State → β → State} (hf : ∀ a b, SameResets a (f a b)) (l : List β) (s : State) :
    SameResets s (l.foldl f s) :=
  List.foldlRecOn (motive := fun a => SameResets s a) l f (.refl s) fun a ha b _ => ha.trans (hf a b)

theorem restartRings_sameResets (p : Nat) (s : State) : SameResets s (restartRings p s) :=
  foldl_sameResets (fun a r => SameResets.trans (b := a.updRing p r _) ⟨rfl, rfl, rfl⟩ (devWrite_sameResets ..)) _ s

theorem startPartition_sameResets (p : Nat) (s : State) : SameResets s (startPartition p s) :=
  (updPart_sameResets s p _).trans (foldl_sameResets (fun a h => startCore_sameResets h a) _ _)

theorem partitionEnd_sameResets (p : Nat) (stop : Bool) (s : State) : SameResets s (partitionEnd p stop s) := by
  have hstopped := (restartRings_sameResets p s).trans
    (updPart_sameResets _ p (fun x => { x with state := .stopped, resets := x.resets + 1 }))
  unfold partitionEnd
  dsimp only
  split
  · exact hstopped.trans (startPartition_sameResets p _)
  · exact hstopped

theorem startPartition_state (p : Nat) (s : State) : ((startPartition p s).part p).state = .running := by
  have hcores (l : List Nat) (x : State) : (l.foldl (fun a h => startCore h a) x).pt = x.pt :=
    List.foldlRecOn (motive := fun a : State => a.pt = x.pt) l _ rfl fun a ha b _ => ha
  rw [startPartition, State.part, hcores]
  exact congrArg PartRun.state ((State.updPart_part s p p _).trans (if_pos rfl))

/-- An enabled partition that was not stopped runs again (R297). -/
theorem partitionEnd_state (p : Nat) (stop : Bool) (s : State) :
    ((partitionEnd p stop s).part p).state = if partEn s p && !stop then .running else .stopped := by
  unfold partitionEnd
  dsimp only
  split
  · exact startPartition_state p _
  · rw [State.updPart_part, if_pos rfl]

/-- The end of the drain takes the reset from the list and notes its scope and length (R297). -/
def drained (z : ResetRun) (s : State) : State :=
  { s with pt.resets := s.pt.resets.filter (fun y => y != z), pt.lastScope := scopeCode z.scope,
           pt.lastDrain := BitVec.ofNat 16 (min (s.tb.edge - z.reqEdge) 65535) }

theorem drainComplete_of_draining {s : State} {z : ResetRun} (hz : s.pt.resets.find? (·.draining) = some z) :
    drainComplete s = match z.scope with
      | .partition p => partitionEnd p z.stop (drained z s)
      | .hearth h => if ((drained z s).part (hearthOwner (drained z s) h)).state = .running then startCore h (drained z s) else drained z s
      | _ => drained z s := by
  rw [drainComplete, hz]
  rfl

theorem drainComplete_sameResets {s : State} {z : ResetRun} (hz : s.pt.resets.find? (·.draining) = some z) :
    SameResets (drained z s) (drainComplete s) := by
  rw [drainComplete_of_draining hz]
  split
  · exact partitionEnd_sameResets ..
  · split
    · exact startCore_sameResets ..
    · exact .refl _
  · exact .refl _

theorem drainComplete_state {s : State} {z : ResetRun} {p : Nat} (hz : s.pt.resets.find? (·.draining) = some z)
    (hp : z.scope = .partition p) : ((drainComplete s).part p).state = if partEn s p && !z.stop then .running else .stopped := by
  rw [drainComplete_of_draining hz, hp]
  exact partitionEnd_state p z.stop (drained z s)

theorem exec_resetDrainComplete {s : State} {t : Nat} (h : alive (s.runTo t) = true) :
    exec (.resetDrainComplete t) s = .next (drainComplete (s.runTo t)) := congrArg _ (live_eq h)

/-- Settles O25: the requests by the scope that their word names, the first request's effect, and the end of the drain. -/
theorem partialResets : Obligations.PartialResets := by
  refine ⟨?asked, ?refused, ?effect, ?drain⟩
  case asked =>
    rintro s _ t h p rfl hc hrole
    exact ⟨fun k => resetStore_noted (names_partition k.isLt) hc hrole, fun k => resetStore_noted (names_hearth k.isLt) hc hrole,
      fun k => resetStore_noted (names_fbe k.isLt) hc hrole, fun k => resetStore_noted (names_loop k.isLt) hc hrole,
      fun k => resetStore_noted (names_capture k.isLt) hc hrole⟩
  case refused =>
    rintro s _ t h p c i rfl hc - (⟨k, rfl, rfl⟩ | ⟨k, rfl, rfl⟩ | ⟨k, rfl, rfl⟩ | ⟨k, rfl, rfl⟩ | ⟨k, rfl, rfl⟩) hmay
    · exact congrArg _ (resetStore_refused (names_partition k.isLt) hc hmay)
    · exact congrArg _ (resetStore_refused (names_hearth k.isLt) hc hmay)
    · exact congrArg _ (resetStore_refused (names_fbe k.isLt) hc hmay)
    · exact congrArg _ (resetStore_refused (names_loop k.isLt) hc hmay)
    · exact congrArg _ (resetStore_refused (names_capture k.isLt) hc hmay)
  case effect =>
    intro s z r halive hfirst
    refine ⟨_, exec_resetEffective halive, resetEffective_edge hfirst, ?_⟩
    rintro p off hscope hp h1 h2 ⟨i, hi, hsel⟩
    rw [resetEffective_first hfirst, resetBegin, hscope]
    exact partitionBegin_cfg _ hp h1 h2 hi hsel
  case drain =>
    rintro s _ t z rfl halive hz
    obtain ⟨hresets, hscope, hdrain⟩ := drainComplete_sameResets hz
    exact ⟨_, exec_resetDrainComplete halive, hresets, hscope, hdrain, fun p hp => drainComplete_state hz hp⟩

end Sys2Proof.Machine
end


section
/-! Reception of the frames that ingest handles (R73, R74, R79). -/

namespace Sys2Proof.Machine

/-! What depends on the registers alone. -/

theorem State.cfg_of_regs {a b : State} (h : b.regs = a.regs) (off sel : Nat) : b.cfg off sel = a.cfg off sel :=
  State.cfg_congr (by rw [h])

section
variable {a b : State} (h : b.regs = a.regs)
include h

theorem ste_of_regs (e : Nat) : ste b e = ste a e := by unfold ste State.cfg; rw [h]
theorem steValid_of_regs : steValid b = steValid a := by unfold steValid listedSel State.cfg; rw [h]
theorem classifySte_of_regs (port : Nat) (k : IgKind) (appid ip : Nat) (o : List (BitVec 8)) :
    classifySte b port k appid ip o = classifySte a port k appid ip o := by
  unfold classifySte
  rw [steValid_of_regs h]
  simp only [ste_of_regs h]
theorem griuzAt_of_regs (o : List (BitVec 8)) : griuzAt b o = griuzAt a o := by
  unfold griuzAt
  rw [State.cfg_of_regs h]
theorem igKind_of_regs (o : List (BitVec 8)) : igKind b o = igKind a o := by unfold igKind; rw [griuzAt_of_regs h]
theorem pairMode_of_regs (port : Nat) : pairMode b port = pairMode a port := by unfold pairMode; rw [State.cfg_of_regs h]

end

/-- State a as ingest reads it is state x: the registers, the clock and the section's own state. -/
structure Entered (x a : State) : Prop where
  regs : a.regs = x.regs
  tb : a.tb = x.tb
  ig : a.ig = x.ig

theorem Entered.refl (x : State) : Entered x x := ⟨rfl, rfl, rfl⟩
theorem Entered.macCount {x a : State} (h : Entered x a) (q i n : Nat) : Entered x (macCount a q i n) := ⟨h.regs, h.tb, h.ig⟩

theorem Entered.settleFrame {x a : State} (h : Entered x a) (id : FrameId) : Entered x (settleFrame id a) := by
  unfold Machine.settleFrame
  split
  · exact h
  · split
    · exact ⟨h.regs, h.tb, h.ig⟩
    · split
      · exact h
      · exact ⟨h.regs, h.tb, h.ig⟩

/-- A frame of ingest's kinds carries one of its EtherTypes. -/
theorem igKind_etherType {s : State} {o : List (BitVec 8)} {k : IgKind} (h : igKind s o = some k) :
    (etherAt o).1 = 0x88BA ∨ (etherAt o).1 = 0x88B8 ∨ (etherAt o).1 = 0x0800 := by
  by_contra hno
  obtain ⟨hsv, hgoose, hip⟩ : (etherAt o).1 ≠ 0x88BA ∧ (etherAt o).1 ≠ 0x88B8 ∧ (etherAt o).1 ≠ 0x0800 := by tauto
  simp [igKind, griuzAt, hsv, hgoose, hip] at h

/-- The frame that ingest handles, received whole and without redundancy tag. -/
def wholeFrame (x : State) (port : Nat) (o : List (BitVec 8)) : IgFrame :=
  { port := port, stamp := { t16 := ingress x port, q := x.quality }, o := o, seq := none }

/-- What the frame's octets and identities leave before ingest handles it (R386, R416). -/
def entered (port : Nat) (o : List (BitVec 8)) (x : State) : State :=
  (frameIds o).foldl (fun a i => settleFrame i a) (macCount (macCount x port 0 1) port 1 (o.length + 4))

theorem entered_entered (port : Nat) (o : List (BitVec 8)) (x : State) : Entered x (entered port o x) :=
  List.foldlRecOn (motive := Entered x) _ _ (((Entered.refl x).macCount ..).macCount ..) fun _ ha i _ => ha.settleFrame i

/-- A whole frame of ingest's kinds on an independent P port goes to ingest (R74, R79). -/
theorem portFrame_ingests {x : State} {port : Nat} {o : List (BitVec 8)} {k : IgKind} (hport : port < 8) (hin : Ingests x port o k) :
    portFrame port o {} x = igHandled flArrivalMessage (wholeFrame x port o) k false (entered port o x) := by
  obtain ⟨-, hmac, hmode, hmin, hmax, -, hkind⟩ := hin
  have hether := igKind_etherType hkind
  have hmin' : ¬ o.length + 4 < 64 := by omega
  have hmax' : ¬ o.length + 4 > 1522 := by omega
  have hpause : be o 12 2 ≠ 0x8808 := by
    intro hpause
    simp [etherAt, hpause] at hether
  have hbeacon (y : State) : beaconOf y port o = none := by
    have hno : (etherAt o).1 ≠ 0x88B5 := by
      intro hb
      simp [hb] at hether
    simp [beaconOf, hno]
  have hport' : ¬ port ≥ 8 := by omega
  have hregs : (macCount (macCount x port 0 1) port 1 (o.length + 4)).regs = x.regs := rfl
  simp only [portFrame, frameRx, hmac, hmin', hmax', hpause, hbeacon, igFrameRx, hport', pairMode_of_regs hregs, hmode,
    igKind_of_regs hregs, hkind, Bool.not_true, Bool.false_eq_true, if_false, false_and, Bool.or_false, Bool.false_and]
  rfl

theorem rowKind_ingests {x : State} {port : Nat} {o : List (BitVec 8)} {k : IgKind} (hin : Ingests x port o k) :
    rowKind x port o = some k := by
  obtain ⟨-, -, hmode, -, -, -, hkind⟩ := hin
  simp [rowKind, hmode, hkind]

theorem igRow_ingests {s : State} {t : Nat} {port : PPort} {o : List (BitVec 8)} {k : IgKind} (hin : Ingests (s.runTo t) port o k) :
    igRow t port k o s =
      igHandled flArrivalMessage (wholeFrame (s.runTo t) port o) k false (entered port o (s.runTo t)) := by
  rw [igRow, byPort_eq hin.1, if_pos (rowKind_ingests hin), portFrame_ingests port.isLt hin]

theorem exec_svFrame {s : State} {t : Nat} {port : PPort} {o : List (BitVec 8)} (hin : Ingests (s.runTo t) port o .sv) :
    exec (.svFrame t port o) s =
      .next (igHandled flArrivalMessage (wholeFrame (s.runTo t) port o) .sv false (entered port o (s.runTo t))) :=
  congrArg _ (igRow_ingests hin)

theorem exec_gooseFrame {s : State} {t : Nat} {port : PPort} {o : List (BitVec 8)} (hin : Ingests (s.runTo t) port o .goose) :
    exec (.gooseFrame t port o) s =
      .next (igHandled flArrivalMessage (wholeFrame (s.runTo t) port o) .goose false (entered port o (s.runTo t))) :=
  congrArg _ (igRow_ingests hin)

/-! Per-stream counters. -/

theorem igCntOf_igCount (s : State) (e i j : Nat) (_hi : i < 16) (_hj : j < 16) :
    igCntOf (igCount s e i) e j = if j = i then add32 (igCntOf s e j) 1 else igCntOf s e j := by
  unfold igCntOf igCount igCountN
  dsimp only
  rw [Tbl.get_upd]
  by_cases h : j = i
  · rw [if_pos (by omega), if_pos h, h]
  · rw [if_neg (by omega), if_neg h]

/-- A state in which ingest has counted the frame as it began, and maybe more. -/
structure SameView (x a : State) : Prop where
  regs : a.regs = x.regs
  tb : a.tb = x.tb
  streams : a.ig.streams = x.ig.streams
  lag : a.ig.lagOld = x.ig.lagOld

theorem Entered.view {x a : State} (h : Entered x a) : SameView x a :=
  ⟨h.regs, h.tb, congrArg IgState.streams h.ig, congrArg IgState.lagOld h.ig⟩

theorem Entered.cntOf {x a : State} (h : Entered x a) (e i : Nat) : igCntOf a e i = igCntOf x e i := by
  rw [igCntOf, h.ig]; rfl

section
variable {x a : State} (h : SameView x a)
include h

theorem SameView.igCount (e i : Nat) : SameView x (igCount a e i) := ⟨h.regs, h.tb, h.streams, h.lag⟩
theorem SameView.igReason (e i : Nat) : SameView x (igReason a e i) := ⟨h.regs, h.tb, h.streams, h.lag⟩
theorem SameView.stream (e : Nat) : a.stream e = x.stream e := by rw [State.stream, h.streams]; rfl
theorem SameView.ste (e : Nat) : ste a e = ste x e := ste_of_regs h.regs e

theorem SameView.cutoff (c k : Nat) : cutoff a c k = cutoff x c k := by
  have hlag : bellLag a c = bellLag x c := by unfold bellLag; rw [State.cfg_of_regs h.regs]
  unfold Machine.cutoff closeEdge
  rw [h.lag, hlag]

theorem SameView.effSlot (c t16 : Nat) : effSlot a c t16 = effSlot x c t16 := by
  unfold Machine.effSlot
  simp only [h.cutoff]

end

/-! Admission. -/

/-- An entry without simulation and authentication admits every frame as it is (R84, R87). -/
theorem igAdmit_admitted {s : State} {f : IgFrame} {e i : Nat} {sim : Bool} (h : Admitted s e sim) :
    igAdmit f e sim (igAuth f e i) s = (some s, s) := by
  obtain ⟨rfl, haccept, hauth⟩ := h
  simp [igAdmit, igAuth, haccept, hauth]

theorem SameView.admitted {x a : State} (h : SameView x a) {e : Nat} {sim : Bool} (hadm : Admitted x e sim) : Admitted a e sim := by
  unfold Admitted
  rwa [h.ste]

end Sys2Proof.Machine
end

section
/-! The green leaves every part of the state but its own, the MACs' counters and what write-backs change (R361 to R386). -/

namespace Sys2Proof.Machine

/-- State b differs from state a at most in the green, the MACs and what `Calm` leaves open. -/
def GreenCalm (a b : State) : Prop := Calm { a with gn := b.gn, mc := b.mc } b

theorem GreenCalm.refl (s : State) : GreenCalm s s := Calm.refl s

theorem Calm.green {a b : State} (h : Calm a b) : GreenCalm a b :=
  ⟨h.pending, h.tb, h.tu, h.ptp, h.regs, h.cores, h.tx, h.pw, h.st, h.ok, h.pr, h.snap, rfl, rfl, h.ig, h.fc, h.tg, h.ph, h.fl, h.fb,
    h.pb, h.lp⟩

theorem GreenCalm.trans {a b c : State} (h : GreenCalm a b) (k : GreenCalm b c) : GreenCalm a c :=
  ⟨k.pending.trans h.pending, k.tb.trans h.tb, k.tu.trans h.tu, k.ptp.trans h.ptp, k.regs.trans h.regs, k.cores.trans h.cores,
    k.tx.trans h.tx, k.pw.trans h.pw, k.st.trans h.st, k.ok.trans h.ok, k.pr.trans h.pr, k.snap.trans h.snap, rfl, rfl,
    k.ig.trans h.ig, k.fc.trans h.fc, k.tg.trans h.tg, k.ph.trans h.ph, k.fl.trans h.fl, k.fb.trans h.fb, k.pb.trans h.pb,
    k.lp.trans h.lp⟩

theorem GreenCalm.calm {a b c : State} (h : GreenCalm a b) (k : Calm b c) : GreenCalm a c := h.trans k.green

/-- A change of the green and the MACs alone. -/
theorem GreenCalm.of_eq {s : State} (gn : GnState) (mc : McState) : GreenCalm s { s with gn := gn, mc := mc } :=
  ⟨rfl, rfl, rfl, rfl, rfl, rfl, rfl, rfl, rfl, rfl, rfl, rfl, rfl, rfl, rfl, rfl, rfl, rfl, rfl, rfl, rfl, rfl⟩

theorem GreenCalm.foldl {β : Type} {a b : State} {f : State → β → State} {l : List β} (h : GreenCalm a b)
    (hf : ∀ x y, GreenCalm x (f x y)) : GreenCalm a (l.foldl f b) :=
  List.foldlRecOn (motive := GreenCalm a) l f h fun x hx y _ => hx.trans (hf x y)

theorem macCount_green (s : State) (q i n : Nat) : GreenCalm s (macCount s q i n) := .of_eq _ _
theorem gnCount_green (s : State) (index port cls : Nat) : GreenCalm s (gnCount s index port cls) := .of_eq _ _
theorem dropOut_green (s : State) (id q : Nat) : GreenCalm s (dropOut s id q) := .of_eq _ _

theorem discardAt_green (q reason : Nat) (f : GFrame) (s : State) : GreenCalm s (discardAt q reason f s) := by
  have hcount := (dropOut_green s f.id q).trans (macCount_green _ q (reasonCounter reason) 1)
  unfold discardAt
  dsimp only
  split
  · exact hcount.calm (completeKey_calm (Calm.refl _))
  · exact hcount

theorem discardWaiting_green (q reason : Nat) (s : State) : GreenCalm s (discardWaiting q reason s) :=
  (GreenCalm.refl s).foldl fun a f => discardAt_green q reason f a

theorem enqueue_green (f0 : GFrame) (wants : List Nat) (s : State) : GreenCalm s (enqueue f0 wants s) := by
  unfold enqueue
  extract_lets ok s1 s2 n x f w s3
  have h1 : GreenCalm s s1 := (GreenCalm.refl s).foldl fun a q => gnCount_green a 1 q f0.cls
  have h2 : GreenCalm s s2 := h1.foldl fun a q => by
    dsimp only
    split
    · exact (gnCount_green ..).trans (gnCount_green ..)
    · exact gnCount_green ..
  have h3 : GreenCalm s s3 := h2.trans (.of_eq _ _)
  split
  · split
    · exact h1.calm (finishKey_calm (Calm.refl _))
    · exact h1
  · refine h3.foldl fun a q => ?_
    split
    · exact discardAt_green ..
    · split
      · exact discardAt_green ..
      · exact .refl a

end Sys2Proof.Machine
end

section
/-! Sampled values (R88 to R94). -/

namespace Sys2Proof.Machine

/-! The regulation section follows the samples of ingest in its own state. -/

/-- From a to b the loops and lanes alone change. -/
def LoopsOnly (a b : State) : Prop := ∃ lp, b = { a with lp := lp }

theorem LoopsOnly.refl (s : State) : LoopsOnly s s := ⟨s.lp, rfl⟩
theorem LoopsOnly.trans {a b c : State} (h : LoopsOnly a b) (k : LoopsOnly b c) : LoopsOnly a c := by
  obtain ⟨lp, rfl⟩ := h
  obtain ⟨lp2, rfl⟩ := k
  exact ⟨lp2, rfl⟩
theorem LoopsOnly.foldl {β : Type} {f : State → β → State} {l : List β} {s : State} (hf : ∀ a b, LoopsOnly a (f a b)) :
    LoopsOnly s (l.foldl f s) :=
  List.foldlRecOn (motive := LoopsOnly s) l f (.refl s) fun a ha b _ => ha.trans (hf a b)

theorem updLoop_loopsOnly (s : State) (l : Nat) (f : LoopRt → LoopRt) : LoopsOnly s (s.updLoop l f) := ⟨_, rfl⟩

theorem loopRestart_loopsOnly (l : Nat) (s : State) : LoopsOnly s (loopRestart l s) := by
  unfold loopRestart
  dsimp only
  split <;> exact ⟨_, rfl⟩

theorem restartLoops_loopsOnly (c ce : Nat) (s : State) : LoopsOnly s (restartLoops c ce s) :=
  .foldl fun a l => loopRestart_loopsOnly l a

theorem loopSample_loopsOnly (l k : Nat) (v : Int) (q : BitVec 32) (stamp : Nat) (s : State) :
    LoopsOnly s (loopSample l k v q stamp s) := by
  have hagain : LoopsOnly s (if (s.loop l).again then loopRestart l s else s) := by
    split
    · exact loopRestart_loopsOnly l s
    · exact .refl s
  unfold loopSample
  dsimp only
  split
  · exact .refl s
  split
  · exact .refl s
  split
  · exact .refl s
  split
  · exact updLoop_loopsOnly ..
  split
  · exact updLoop_loopsOnly ..
  · exact hagain.trans (updLoop_loopsOnly ..)

theorem loopsPlaced_loopsOnly (c ce per a : Nat) (v : Int) (q : BitVec 32) (stamp : Nat) (s : State) :
    LoopsOnly s (loopsPlaced c ce per a v q stamp s) := by
  unfold loopsPlaced
  split
  · exact .refl s
  · exact .foldl fun b l => loopSample_loopsOnly ..

theorem returnLoops_loopsOnly (e : Nat) (s : State) : LoopsOnly s (returnLoops e s) := by
  unfold returnLoops
  dsimp only
  split
  · exact .foldl fun a ce => restartLoops_loopsOnly ..
  · exact .refl s

/-- The samples of an ASDU go to the stream and to the loops. -/
theorem asduPlaced_eq (f : IgFrame) (e i a : Nat) (vals : List Smp) (s : State) : ∃ lp, asduPlaced f e i a vals s =
    { s.updStream e (fun y => { y with last := some a, pend := y.pend ++ [{ a := a, asdu := i, vals := vals }] }) with lp := lp } := by
  unfold asduPlaced
  extract_lets x per s2
  have h2 : LoopsOnly s2 _ := LoopsOnly.foldl (l := List.range vals.length) (f := fun b j =>
    let m := vals.getD j {}
    loopsPlaced x.croft (x.base + (i * x.nch + j) * per) per a m.v m.q f.stamp.t16 b) fun b j => loopsPlaced_loopsOnly ..
  obtain ⟨lp, hlp⟩ := h2
  obtain ⟨lp2, hlp2⟩ := returnLoops_loopsOnly e s
  refine ⟨lp, hlp.trans ?_⟩
  rw [show s2 = _ from congrArg (fun z => State.updStream z e _) hlp2]
  rfl

/-! One ASDU. -/

/-- The ASDU l passes its own checks (R89). -/
theorem asduFail_none {x : Ste} {l : List (Nat × List (BitVec 8))} {cb : List (BitVec 8)} (hcb : tlvGet l 0x82 = some cb)
    (hlen : cb.length = 2) (hcnt : beNat cb < 4800 * perSlot x.rate)
    (hq : ∀ c ∈ svChans ((tlvGet l 0x87).getD []), c.2.toNat < 2 ^ 14) : asduFail x l = none := by
  have hcnt' : ¬ beNat cb ≥ 4800 * perSlot x.rate := by omega
  have hany : (svChans ((tlvGet l 0x87).getD [])).any (fun c => c.2.toNat ≥ 2 ^ 14) = false := by
    simpa using hq
  rw [asduFail, hcb]
  simp only [Option.getD_some, hlen, ne_eq, not_true_eq_false, false_or, hcnt', if_false, hany, Bool.false_eq_true]

section
variable {x s : State} {f : IgFrame} {e : Nat} {l : List (Nat × List (BitVec 8))} {cb : List (BitVec 8)} {a : Nat}

/-- The fate of an ASDU whose sample is of its time (R90). The function is unfolded before it is applied: the kernel would otherwise
compare the two sides by computing the sample number. -/
theorem asduFate_timely (hview : SameView x s) (hcb : tlvGet l 0x82 = some cb)
    (hnum : sampleNumber (4800 * perSlot (ste x e).rate) (beNat cb) (f.stamp.t16 + us16 10) = some a)
    (hfresh : f.stamp.t16 ≤ a * sec16 1 / (4800 * perSlot (ste x e).rate) + ms16 500) : asduFate f e l s =
      if (x.stream e).last.any (fun b => decide (a ≤ b)) then .inl 6
      else if cutoff x (ste x e).croft (a / perSlot (ste x e).rate) ≤ f.stamp.t16 then .inl 7 else .inr a := by
  have hfresh' := Nat.not_lt.2 hfresh
  obtain ⟨F, hF⟩ : ∃ F, F = @asduFate := ⟨_, rfl⟩
  rw [← hF]
  delta asduFate at hF
  rw [hF]
  beta_reduce
  dsimp only
  rw [hview.ste, hview.stream, hcb, Option.getD_some, hnum]
  dsimp only
  rw [if_neg hfresh', hview.cutoff]
  cases (x.stream e).last <;> rfl

theorem asduFate_new (hview : SameView x s) (hcb : tlvGet l 0x82 = some cb)
    (hnum : sampleNumber (4800 * perSlot (ste x e).rate) (beNat cb) (f.stamp.t16 + us16 10) = some a)
    (hfresh : f.stamp.t16 ≤ a * sec16 1 / (4800 * perSlot (ste x e).rate) + ms16 500) (hlast : ∀ b, (x.stream e).last = some b → b < a)
    (hcutoff : f.stamp.t16 < cutoff x (ste x e).croft (a / perSlot (ste x e).rate)) : asduFate f e l s = .inr a := by
  have hlast' : ((x.stream e).last.any fun b => decide (a ≤ b)) = false := by
    cases hl : (x.stream e).last with
    | none => rfl
    | some b => simpa using hlast b hl
  rw [asduFate_timely hview hcb hnum hfresh, if_neg (by rw [hlast']; decide), if_neg (Nat.not_le.2 hcutoff)]

theorem asduFate_old {b : Nat} (hview : SameView x s) (hcb : tlvGet l 0x82 = some cb)
    (hnum : sampleNumber (4800 * perSlot (ste x e).rate) (beNat cb) (f.stamp.t16 + us16 10) = some a)
    (hfresh : f.stamp.t16 ≤ a * sec16 1 / (4800 * perSlot (ste x e).rate) + ms16 500) (hlast : (x.stream e).last = some b) (hle : a ≤ b) :
    asduFate f e l s = .inl 6 := by
  have hlast' : ((x.stream e).last.any fun b => decide (a ≤ b)) = true := by simpa [hlast] using hle
  rw [asduFate_timely hview hcb hnum hfresh, if_pos hlast']

end

/-- A frame of one good ASDU, that is no copy, is placed or counted as its ASDU is (R89, R90). -/
theorem svAsdus_single {f : IgFrame} {e : Nat} {l : List (Nat × List (BitVec 8))} {s y : State} {placed : Bool}
    (hok : asduFail (ste s e) l = none) (hseq : f.seq = none) (hplace : placeAsdu f e false 0 l s = (y, placed)) :
    svAsdus f e false [l] s = if placed then igCount y e 1 else y := by
  have hgood : (List.range [l].length).filter (fun j => (asduFail (ste s e) ([l].getD j [])).isNone) = [0] := by
    simp [List.range_succ, hok]
  have hbad : ([l].filterMap (asduFail (ste s e))).getLast? = none := by simp [hok]
  have hdup (z : State) : igDup f z = false := by simp [igDup, hseq]
  have hsim (z : State) : igSim e false z = z := rfl
  have haccept (z : State) : igAccept f e z = igCount z e 1 := by simp [igAccept, hseq]
  have hplaces : placeAsdus f e false [l] [0] s = (y, placed) := by
    rw [placeAsdus, List.getD_cons_zero, hplace, placeAsdus, Bool.or_false]
  unfold svAsdus
  extract_lets x ok s2 z
  have hs2 : s2 = s := by unfold s2; rw [hbad]
  have hz : z = (y, placed) := by unfold z; rw [show ok = [0] from hgood, hs2, hplaces]
  rw [show ok = [0] from hgood, hdup, hz]
  cases placed
  · rfl
  · exact (hsim _).trans (haccept y)

/-- An admitted frame that is well formed goes on to its ASDUs (R88, R89). -/
theorem svIn_parsed {f : IgFrame} {e i : Nat} {s : State} {as : List (List (Nat × List (BitVec 8)))}
    (hadm : Admitted s e (simBit1 f.o i)) (hlo : 0x4000 ≤ be f.o i 2) (hhi : be f.o i 2 ≤ 0x7FFF) (hlen : lengthOk f.o i = true)
    (hres : reserved1Ok f.o i = true) (hparse : svParse (ste s e) (apdu f.o i) = .inr as) :
    svIn f e i s = svAsdus f e false as s := by
  unfold svIn
  dsimp only
  rw [igAdmit_admitted hadm, hadm.1]
  simp only [hlo, hhi, hlen, hres, hparse, decide_true, Bool.and_self, Bool.not_true, Bool.false_eq_true, if_false]

/-- An APPID out of its range fails the first check (R89). -/
theorem svIn_badAppid {f : IgFrame} {e i : Nat} {s : State} (hadm : Admitted s e (simBit1 f.o i))
    (hout : be f.o i 2 < 0x4000 ∨ 0x7FFF < be f.o i 2) : svIn f e i s = checkFail e 1 s := by
  have hrange : (decide (0x4000 ≤ be f.o i 2) && decide (be f.o i 2 ≤ 0x7FFF)) = false := by
    simp only [Bool.and_eq_false_iff, decide_eq_false_iff_not]
    omega
  unfold svIn
  dsimp only
  rw [igAdmit_admitted hadm]
  simp only [hrange, Bool.not_false, if_true]

/-! The frame as it is handled. -/

section
variable {x a : State} {port : Nat} {o : List (BitVec 8)} (hview : Entered x a) (hen : bit (x.cfg 0x10000 0) 0 = true)
include hview hen

/-- An SV frame of an entry is counted and taken by the entry (R77). -/
theorem igHandled_sv {e : Nat} {arr : IgFrame → List (BitVec 8) → State → State}
    (hcls : classifySte x port .sv (be o (etherAt o).2 2) 0 o = some e) : igHandled arr (wholeFrame x port o) .sv false a =
      svIn (wholeFrame x port o) e (etherAt o).2 (igCount a e 0) := by
  have hcls' := (classifySte_of_regs hview.regs port .sv (be o (etherAt o).2 2) 0 o).trans hcls
  have hen' := (congrArg (bit · 0) (State.cfg_of_regs hview.regs 0x10000 0)).trans hen
  unfold igHandled
  dsimp only [wholeFrame]
  rw [hen', hcls']
  rfl

theorem igHandled_sv_unmatched {arr : IgFrame → List (BitVec 8) → State → State}
    (hcls : classifySte x port .sv (be o (etherAt o).2 2) 0 o = none) : igHandled arr (wholeFrame x port o) .sv false a =
      igUnmatched (wholeFrame x port o) a := by
  have hcls' := (classifySte_of_regs hview.regs port .sv (be o (etherAt o).2 2) 0 o).trans hcls
  have hen' := (congrArg (bit · 0) (State.cfg_of_regs hview.regs 0x10000 0)).trans hen
  unfold igHandled
  dsimp only [wholeFrame]
  rw [hen', hcls']
  rfl

end

/-- An unmatched frame is counted for its port; its copy in the green leaves ingest (R78). -/
theorem igUnmatched_ig (f : IgFrame) (s : State) : (igUnmatched f s).ig = (igOther s (0x10100 + 4 * f.port)).ig := by
  unfold igUnmatched
  dsimp only
  split
  · exact (enqueue_green ..).ig
  · rfl

/-- An ASDU whose sample is new, in time and synchronised enough is placed (R90 to R95). -/
theorem placeAsdu_placed {x s : State} {f : IgFrame} {e a : Nat} {l : List (Nat × List (BitVec 8))} (hview : SameView x s)
    (hfate : asduFate f e l s = .inr a) (hsync : (ste x e).syncReq ≤ synchRank (beNat ((tlvGet l 0x85).getD []))) :
    placeAsdu f e false 0 l s = (asduPlaced f e 0 a
      ((svChans ((tlvGet l 0x87).getD [])).map (fun c => ({ v := c.1, q := c.2 } : Smp))) s, true) := by
  have huns : decide (synchRank (beNat ((tlvGet l 0x85).getD [])) < (ste s e).syncReq) = false := by
    rw [hview.ste]
    simpa using hsync
  have hvals : asduVals false false l = (svChans ((tlvGet l 0x87).getD [])).map (fun c => ({ v := c.1, q := c.2 } : Smp)) := by
    simp [asduVals]
  rw [placeAsdu, hfate, Sum.elim_inr]
  dsimp only
  rw [huns, if_neg Bool.false_ne_true, Bool.false_and, if_neg Bool.false_ne_true, hvals]

theorem placeAsdu_kept {s : State} {f : IgFrame} {e k : Nat} {l : List (Nat × List (BitVec 8))} (hfate : asduFate f e l s = .inl k) :
    placeAsdu f e false 0 l s = (igCount s e k, false) := by
  rw [placeAsdu, hfate, Sum.elim_inl]

theorem igCount_stream (s : State) (e i k : Nat) : (igCount s e i).stream k = s.stream k := rfl
theorem igCount_regs (s : State) (e i : Nat) : (igCount s e i).regs = s.regs := rfl
theorem igCount_tb (s : State) (e i : Nat) : (igCount s e i).tb = s.tb := rfl

/-- What the placement of an ASDU leaves. -/
theorem asduPlaced_frame (f : IgFrame) (e a : Nat) (vals : List Smp) (s : State) :
    (∀ k, (asduPlaced f e 0 a vals s).stream k = if k = e then
      { s.stream e with last := some a, pend := (s.stream e).pend ++ [{ a := a, asdu := 0, vals := vals }] } else s.stream k) ∧
      (∀ i, igCntOf (asduPlaced f e 0 a vals s) e i = igCntOf s e i) ∧ (asduPlaced f e 0 a vals s).regs = s.regs ∧
      (asduPlaced f e 0 a vals s).tb = s.tb := by
  obtain ⟨lp, hplaced⟩ := asduPlaced_eq f e 0 a vals s
  rw [hplaced]
  exact ⟨fun k => State.updStream_stream s e k _, fun i => rfl, rfl, rfl⟩

/-- What a placed SV frame leaves: the sample in the stream, the two counts, and nothing else of ingest and its surroundings. -/
theorem sv_placed {x s : State} {f : IgFrame} {e a : Nat} {vals : List Smp} (hview : Entered x s) :
    (State.stream (igCount (asduPlaced f e 0 a vals (igCount s e 0)) e 1) e).last = some a ∧
      (State.stream (igCount (asduPlaced f e 0 a vals (igCount s e 0)) e 1) e).pend =
        (x.stream e).pend ++ [{ a := a, asdu := 0, vals := vals }] ∧
      igCntOf (igCount (asduPlaced f e 0 a vals (igCount s e 0)) e 1) e 0 = add32 (igCntOf x e 0) 1 ∧
      igCntOf (igCount (asduPlaced f e 0 a vals (igCount s e 0)) e 1) e 1 = add32 (igCntOf x e 1) 1 ∧
      (∀ k, k ≠ e → State.stream (igCount (asduPlaced f e 0 a vals (igCount s e 0)) e 1) k = x.stream k) ∧
      (igCount (asduPlaced f e 0 a vals (igCount s e 0)) e 1).regs = x.regs ∧
      (igCount (asduPlaced f e 0 a vals (igCount s e 0)) e 1).tb = x.tb := by
  obtain ⟨hstream, hcnt, hregs, htb⟩ := asduPlaced_frame f e a vals (igCount s e 0)
  refine ⟨?_, ?_, ?_, ?_, fun k hk => ?_, ?_, ?_⟩
  · rw [igCount_stream, hstream, if_pos rfl]
  · rw [igCount_stream, hstream, if_pos rfl, igCount_stream, hview.view.stream]
  · rw [igCntOf_igCount _ _ _ _ (by decide) (by decide), if_neg (by decide), hcnt, igCntOf_igCount _ _ _ _ (by decide) (by decide),
      if_pos rfl, hview.cntOf]
  · rw [igCntOf_igCount _ _ _ _ (by decide) (by decide), if_pos rfl, hcnt, igCntOf_igCount _ _ _ _ (by decide) (by decide),
      if_neg (by decide), hview.cntOf]
  · rw [igCount_stream, hstream, if_neg hk, igCount_stream, hview.view.stream]
  · rw [igCount_regs, hregs, igCount_regs, hview.regs]
  · rw [igCount_tb, htb, igCount_tb, hview.tb]

/-- Settles O26: an SV frame's way by its entry and its one ASDU. -/
theorem sampledValues : Obligations.SampledValues := by
  rintro s _ t port o rfl hin
  have hentered := entered_entered port o (s.runTo t)
  have hen : bit ((s.runTo t).cfg 0x10000 0) 0 = true := hin.2.2.2.2.2.1
  refine ⟨?new, ?old, ?unmatched, ?appid⟩
  case new =>
    intro e l cb a hcls hadm hlo hhi hlen hres hparse hcb hcblen hcnt hq hnum hfresh hlast hcutoff hsync
    have hview := hentered.view.igCount e 0
    have hfate := asduFate_new (f := wholeFrame (s.runTo t) port o) hview hcb hnum hfresh hlast hcutoff
    rw [exec_svFrame hin, igHandled_sv hentered hen hcls,
      svIn_parsed (f := wholeFrame (s.runTo t) port o) (hview.admitted hadm) hlo hhi hlen hres ((congrArg (svParse · _) (hview.ste e)).trans hparse),
      svAsdus_single (asduFail_none hcb hcblen (by rwa [hview.ste]) hq) rfl (placeAsdu_placed hview hfate hsync), if_pos rfl]
    exact ⟨_, rfl, sv_placed hentered⟩
  case old =>
    intro e l cb a b hcls hadm hlo hhi hlen hres hparse hcb hcblen hcnt hq hnum hfresh hlast hle
    have hview := hentered.view.igCount e 0
    have hfate := asduFate_old (f := wholeFrame (s.runTo t) port o) hview hcb hnum hfresh hlast hle
    rw [exec_svFrame hin, igHandled_sv hentered hen hcls,
      svIn_parsed (f := wholeFrame (s.runTo t) port o) (hview.admitted hadm) hlo hhi hlen hres ((congrArg (svParse · _) (hview.ste e)).trans hparse),
      svAsdus_single (asduFail_none hcb hcblen (by rwa [hview.ste]) hq) rfl (placeAsdu_kept hfate), if_neg Bool.false_ne_true]
    refine ⟨_, rfl, (hview.igCount e 6).streams, ?_, hview.regs⟩
    rw [igCntOf_igCount _ _ _ _ (by decide) (by decide), if_pos rfl, igCntOf_igCount _ _ _ _ (by decide) (by decide),
      if_neg (by decide), hentered.cntOf]
  case unmatched =>
    intro hcls
    rw [exec_svFrame hin, igHandled_sv_unmatched hentered hen hcls]
    have hig := igUnmatched_ig (wholeFrame (s.runTo t) port o) (entered port o (s.runTo t))
    refine ⟨_, rfl, ?_, ?_, ?_⟩ <;> rw [hig]
    · show Tbl.get 0 (Tbl.upd 0 (entered port o (s.runTo t)).ig.other (0x10100 + 4 * port) inc32) (0x10100 + 4 * port) = _
      rw [Tbl.get_upd, if_pos rfl, hentered.ig]
    · exact hentered.view.streams
    · exact Eq.trans (b := (entered port o (s.runTo t)).ig.cnt) rfl (congrArg IgState.cnt hentered.ig)
  case appid =>
    intro e hcls hadm hout
    have hview := hentered.view.igCount e 0
    rw [exec_svFrame hin, igHandled_sv hentered hen hcls, svIn_badAppid (f := wholeFrame (s.runTo t) port o) (hview.admitted hadm) hout]
    have hreason (y : State) (i : Nat) (hi : i < 15) : igCntOf (igReason y e 1) e i = igCntOf y e i := by
      unfold igCntOf igReason
      dsimp only
      rw [Tbl.get_upd, if_neg (by omega)]
    refine ⟨_, rfl, ((hview.igCount e 4).igReason e 1).streams, ?_, ?_, ?_⟩
    · rw [checkFail, hreason _ _ (by decide), igCntOf_igCount _ _ _ _ (by decide) (by decide), if_neg (by decide),
        igCntOf_igCount _ _ _ _ (by decide) (by decide), if_pos rfl, hentered.cntOf]
    · rw [checkFail, hreason _ _ (by decide), igCntOf_igCount _ _ _ _ (by decide) (by decide), if_pos rfl,
        igCntOf_igCount _ _ _ _ (by decide) (by decide), if_neg (by decide), hentered.cntOf]
    · unfold checkFail igCntOf igReason
      dsimp only
      rw [Tbl.get_upd, if_pos rfl]
      omega

end Sys2Proof.Machine
end


section
/-! GOOSE (R100 to R102). -/

namespace Sys2Proof.Machine

/-- Is there a gap between the last state of a stream and the new one (R101)? -/
def gooseGap (z : StreamRt) (g : GoosePdu) : Bool :=
  !((z.st != .running) && z.pts.isEmpty) && (g.stNum + 2 ^ 32 - z.stNum) % 2 ^ 32 != 1 && !(z.stNum == 0xFFFFFFFF && g.stNum == 1)

/-- The points of a new state, from the first slot whose cutoff the frame precedes (R102). -/
def goosePoints (f : IgFrame) (e : Nat) (g : GoosePdu) (s : State) : PointSet :=
  { eff := effSlot s (ste s e).croft f.stamp.t16,
    pts := (List.range g.pts.length).map (fun j => ((ste s e).base + j, g.pts.getD j (0, 1))) }

/-- A new state of a stream (R102). -/
def gooseNew (f : IgFrame) (e : Nat) (g : GoosePdu) (s : State) : State :=
  let s2 := if gooseGap (s.stream e) g then igCount s e 13 else s
  igCount ((gooseRenew f e g s2).updStream e
    (fun y => { y with goose := g.pts, pts := y.pts ++ [{ eff := effSlot s2 (ste s e).croft f.stamp.t16, pts := (goosePoints f e g s).pts }] })) e 1

/-- A repetition of a stream's state (R102). -/
def gooseAgain (f : IgFrame) (e : Nat) (g : GoosePdu) (s : State) : State :=
  igCount (gooseRenew f e g (if g.pts.map Prod.fst != (s.stream e).goose.map Prod.fst then igInconsistent s e else s)) e 1

section
variable {f : IgFrame} {e i k : Nat} {g : GoosePdu} {s : State} {pdu : List (Nat × List (BitVec 8))} {c r : List (BitVec 8)}
  (hadm : Admitted s e (simBit1 f.o i)) (htlv : tlv (apdu f.o i) = some (k, c, r)) (hall : tlvAll c = some pdu)
  (hsim : tlvGet pdu 0x87 = none) (happid : be f.o i 2 ≤ 0x3FFF) (hlen : lengthOk f.o i = true) (hres : reserved1Ok f.o i = true)
  (hparse : gooseParse (ste s e) (s.stream e).layout (apdu f.o i) = .inr g) (hseq : f.seq = none)
include hadm htlv hall hsim happid hlen hres hparse hseq

/-- An admitted and well-formed GOOSE frame that is no copy is a new state, a repetition, or old (R101). -/
theorem gooseIn_parsed : gooseIn f e i s =
    if ((s.stream e).st != .running) && (s.stream e).pts.isEmpty || later32 g.stNum (s.stream e).stNum then gooseNew f e g s
    else if g.stNum == (s.stream e).stNum && later32 g.sqNum (s.stream e).sqNum then gooseAgain f e g s else igCount s e 6 := by
  have happid' : ¬ be f.o i 2 > 0x3FFF := by omega
  have hpts : g.pts.map (fun v => (v.1, v.2 ||| (0 : BitVec 32))) = g.pts := by simp
  have hdup : igDup f s = false := by simp [igDup, hseq]
  have haccept (y : State) : igAccept f e y = igCount y e 1 := by simp [igAccept, hseq]
  have hset (y : State) : igSim e false y = y := rfl
  unfold gooseIn
  rw [htlv]
  dsimp only
  rw [hall, Option.getD_some, hsim, hadm.1, Bool.or_false, igAdmit_admitted ⟨rfl, hadm.2⟩]
  dsimp only
  rw [if_neg happid', hlen, hres, hparse]
  dsimp only
  rw [if_neg (by decide), hdup, if_neg Bool.false_ne_true, if_neg Bool.false_ne_true, hpts]
  simp only [haccept, hset]
  rfl

end

/-- What a GOOSE frame of entry e leaves of its stream, when it renews the time allowed to live (R102). -/
def renewed (f : IgFrame) (x : Ste) (g : GoosePdu) (y : StreamRt) : StreamRt :=
  { y with stNum := g.stNum, sqNum := g.sqNum, layout := some g.types, goT := g.t, expiry := f.stamp.t16 + ms16 (g.tal + x.margin) }

theorem gooseRenew_stream (f : IgFrame) (e : Nat) (g : GoosePdu) (s : State) (j : Nat) :
    (gooseRenew f e g s).stream j = if j = e then renewed f (ste s e) g (s.stream e) else s.stream j :=
  State.updStream_stream ..

theorem gooseRenew_regs (f : IgFrame) (e : Nat) (g : GoosePdu) (s : State) : (gooseRenew f e g s).regs = s.regs := rfl
theorem gooseRenew_tb (f : IgFrame) (e : Nat) (g : GoosePdu) (s : State) : (gooseRenew f e g s).tb = s.tb := rfl
theorem State.updStream_regs (s : State) (e : Nat) (u : StreamRt → StreamRt) : (s.updStream e u).regs = s.regs := rfl
theorem State.updStream_tb (s : State) (e : Nat) (u : StreamRt → StreamRt) : (s.updStream e u).tb = s.tb := rfl

theorem SameView.gap {x s : State} (h : SameView x s) (b : Bool) (e i : Nat) : SameView x (if b then Machine.igCount s e i else s) := by
  split
  · exact h.igCount e i
  · exact h

theorem SameView.inconsistent {x s : State} (h : SameView x s) (b : Bool) (e : Nat) : SameView x (if b then igInconsistent s e else s) := by
  split
  · exact ⟨h.regs, h.tb, h.streams, h.lag⟩
  · exact h

/-- A new state gives new points and renews the time allowed to live. -/
theorem gooseNew_leaves {x s : State} (h : SameView x s) (f : IgFrame) (e : Nat) (g : GoosePdu) :
    (gooseNew f e g s).stream e = { renewed f (ste x e) g (x.stream e) with
      goose := g.pts, pts := (x.stream e).pts ++ [goosePoints f e g x] } ∧
      (∀ j, j ≠ e → (gooseNew f e g s).stream j = x.stream j) ∧ (gooseNew f e g s).regs = x.regs ∧ (gooseNew f e g s).tb = x.tb := by
  have h2 := h.gap (gooseGap (s.stream e) g) e 13
  unfold gooseNew
  dsimp only
  generalize (if gooseGap (s.stream e) g = true then igCount s e 13 else s) = s2 at h2 ⊢
  refine ⟨?_, fun j hj => ?_, ?_, ?_⟩
  · rw [igCount_stream, State.updStream_stream, if_pos rfl, gooseRenew_stream, if_pos rfl, h2.stream, h2.effSlot, h.ste, h2.ste,
      goosePoints, goosePoints, h.ste]
    rfl
  · rw [igCount_stream, State.updStream_stream, if_neg hj, gooseRenew_stream, if_neg hj, h2.stream]
  · rw [igCount_regs, State.updStream_regs, gooseRenew_regs, h2.regs]
  · rw [igCount_tb, State.updStream_tb, gooseRenew_tb, h2.tb]

/-- A repetition renews the time allowed to live only. -/
theorem gooseAgain_stream {x s : State} (h : SameView x s) (f : IgFrame) (e : Nat) (g : GoosePdu) :
    (gooseAgain f e g s).stream e = renewed f (ste x e) g (x.stream e) := by
  have h2 := h.inconsistent (g.pts.map Prod.fst != (s.stream e).goose.map Prod.fst) e
  rw [gooseAgain, igCount_stream, gooseRenew_stream, if_pos rfl, h2.stream, h2.ste]

theorem igHandled_goose {x a : State} {port : Nat} {o : List (BitVec 8)} (hview : Entered x a) (hen : bit (x.cfg 0x10000 0) 0 = true)
    {e : Nat} {arr : IgFrame → List (BitVec 8) → State → State}
    (hcls : classifySte x port .goose (be o (etherAt o).2 2) 0 o = some e) : igHandled arr (wholeFrame x port o) .goose false a =
      gooseIn (wholeFrame x port o) e (etherAt o).2 (igCount a e 0) := by
  have hcls' := (classifySte_of_regs hview.regs port .goose (be o (etherAt o).2 2) 0 o).trans hcls
  have hen' := (congrArg (bit · 0) (State.cfg_of_regs hview.regs 0x10000 0)).trans hen
  unfold igHandled
  dsimp only [wholeFrame]
  rw [hen', hcls']
  rfl

/-- Settles O27: a frame is new, a repetition or old by its numbers. -/
theorem gooseStates : Obligations.GooseStates := by
  rintro s _ t port o e g pdu c r k rfl hin hcls hadm htlv hall hsim happid hlen hres hparse
  have hentered := entered_entered port o (s.runTo t)
  have hview := hentered.view.igCount e 0
  have hparse' : gooseParse (ste (igCount (entered port o (s.runTo t)) e 0) e)
      ((igCount (entered port o (s.runTo t)) e 0).stream e).layout (apdu o (etherAt o).2) = .inr g := by
    rw [hview.ste, hview.stream, hparse]
  rw [exec_gooseFrame hin, igHandled_goose hentered hin.2.2.2.2.2.1 hcls,
    gooseIn_parsed (f := wholeFrame (s.runTo t) port o) (hview.admitted hadm) htlv hall hsim happid hlen hres hparse' rfl, hview.stream]
  refine ⟨fun hnew => ⟨_, rfl, ?_⟩, fun hrun hst hsq => ⟨_, rfl, ?_⟩, fun hrun hst hno => ⟨_, rfl, ?_⟩⟩
  · obtain ⟨hstream, hothers, hregs, htb⟩ := gooseNew_leaves hview (wholeFrame (s.runTo t) port o) e g
    rw [hnew, Bool.or_true, if_pos rfl, hstream]
    exact ⟨rfl, rfl, rfl, rfl, rfl, hothers, hregs, htb⟩
  · have hold : later32 g.stNum ((s.runTo t).stream e).stNum = false := by simp [later32, hst]
    have hsame : (g.stNum == ((s.runTo t).stream e).stNum) = true := by simp [hst]
    have hrunning : (((s.runTo t).stream e).st != .running) = false := by simp [hrun]
    rw [hold, hrunning, hsame, hsq, Bool.false_and, Bool.or_false, if_neg Bool.false_ne_true, Bool.and_self, if_pos rfl,
      gooseAgain_stream hview]
    exact ⟨rfl, rfl, rfl⟩
  · have hrunning : (((s.runTo t).stream e).st != .running) = false := by simp [hrun]
    have hnone : (g.stNum == ((s.runTo t).stream e).stNum && later32 g.sqNum ((s.runTo t).stream e).sqNum) = false := by
      obtain hne | hsq := hno
      · simp [hne]
      · simp [hsq]
    rw [hst, hrunning, hnone, Bool.false_and, Bool.or_false, if_neg Bool.false_ne_true, if_neg Bool.false_ne_true]
    refine ⟨(hview.igCount e 6).streams, ?_⟩
    rw [igCntOf_igCount _ _ _ _ (by decide) (by decide), if_pos rfl, igCntOf_igCount _ _ _ _ (by decide) (by decide),
      if_neg (by decide), hentered.cntOf]

end Sys2Proof.Machine
end


section
/-! Supervision frames, the duplicate record and the overlap of keys (R80, R83, R85). -/

namespace Sys2Proof.Machine

/-- In PRP mode a supervision frame is counted and goes no further (R80). -/
theorem portFrame_supervision {x : State} {port : Nat} {o : List (BitVec 8)} (hport : port < 8) (hmac : macEn x port = true)
    (hmode : pairMode x port = 1) (hether : (etherAt o).1 = 0x88FB) (hmin : 60 ≤ o.length) (hmax : o.length ≤ 1518) :
    portFrame port o {} x =
      igOther (macCount (macCount x port 0 1) port 1 (o.length + 4)) (0x10140 + 8 * (port / 2)) := by
  have hmin' : ¬ o.length + 4 < 64 := by omega
  have hmax' : ¬ o.length + 4 > 1522 := by omega
  have hport' : ¬ port ≥ 8 := by omega
  have hpause : be o 12 2 ≠ 0x8808 := by
    intro hpause
    simp [etherAt, hpause] at hether
  have hbeacon (y : State) : beaconOf y port o = none := by simp [beaconOf, hether]
  have hregs : (macCount (macCount x port 0 1) port 1 (o.length + 4)).regs = x.regs := rfl
  simp only [portFrame, frameRx, hmac, hmin', hmax', hpause, hbeacon, igFrameRx, hport', pairMode_of_regs hregs, hmode, hether,
    Bool.not_true, Bool.false_eq_true, if_false, if_true, false_and, Bool.or_false, Bool.false_and]

theorem exec_prpSupervisionFrame {s : State} {t : Nat} {port : PPort} {o : List (BitVec 8)} (hlive : portLive (s.runTo t) port = true)
    (hether : (etherAt o).1 = 0x88FB) : exec (.prpSupervisionFrame t port o) s = .next (portFrame port o {} (s.runTo t)) :=
  congrArg _ ((byPort_eq hlive).trans (if_pos hether))

/-- A held source is forgotten 400 ms, m edges, after its last use (R83). -/
theorem dupForget_held {q mac m : Nat} {s : State} {d : DupSrc} (hm : d.last + msEdges 400 = m)
    (hd : (Tbl.get [] s.ig.dup q).find? (fun d => d.mac == mac) = some d) : dupForget q mac s = { s.runTo m with
      ig.dup := Tbl.set [] s.ig.dup q ((Tbl.get [] s.ig.dup q).filter (fun x => x.mac != mac)) } := by
  rw [dupForget, hd]
  dsimp only
  rw [hm]
  rfl

theorem exec_duplicateEntryForgotten {s : State} {q : Fin 4} {mac : Nat} (h : alive s = true) :
    exec (.duplicateEntryForgotten q mac) s = .next (dupForget q mac s) := congrArg _ (live_eq h)

/-- The source leaves the record, and every other source stays. -/
theorem exec_forgotten {s : State} {q : Fin 4} {mac m : Nat} {d : DupSrc} (halive : alive s = true) (hm : d.last + msEdges 400 = m)
    (hd : (Tbl.get [] s.ig.dup q).find? (fun d => d.mac == mac) = some d) :
    ∃ y, exec (.duplicateEntryForgotten q mac) s = .next y ∧
      Tbl.get [] y.ig.dup q = (Tbl.get [] s.ig.dup q).filter (fun z => z.mac != mac) ∧ y.tb.edge = max s.tb.edge m ∧ y.regs = s.regs ∧
      (∀ k, k ≠ q.val → Tbl.get [] y.ig.dup k = Tbl.get [] s.ig.dup k) := by
  rw [exec_duplicateEntryForgotten halive, dupForget_held hm hd]
  exact ⟨_, rfl, (Tbl.get_set ..).trans (if_pos rfl), State.runTo_edge s m, rfl, fun k hk => (Tbl.get_set ..).trans (if_neg hk)⟩

theorem exec_keyOverlapEnd {s : State} {e : Fin 4096} (h : alive s = true) : exec (.keyOverlapEnd e) s = .next (overlapEnd e s) :=
  congrArg _ (live_eq h)

/-- Later frames are verified as before: time alone has passed. -/
theorem State.pass_ste (s : State) (n e : Nat) : ste (s.pass n) e = ste s e := rfl
theorem State.pass_stream (s : State) (n e : Nat) : (s.pass n).stream e = s.stream e := rfl

theorem State.waitUntil_eq_pass (s : State) (t16 : Nat) : ∃ n, s.waitUntil t16 = s.pass n := ⟨_, rfl⟩

/-- A running clock has reached the instant that it has waited for (R38). -/
theorem le_counter_waitUntil {s : State} (t16 : Nat) (hrun : 0 < s.tb.addend) : t16 * 2 ^ 24 ≤ (s.waitUntil t16).tb.counter := by
  have h := (edgesUntil_least (x := t16 * 2 ^ 24) hrun).1
  rw [State.waitUntil]
  generalize edgesUntil s.tb (t16 * 2 ^ 24) = n at h ⊢
  exact h

theorem overlapEnd_open {e u : Nat} {s : State} (h : (s.stream e).prevEnd = some u) : overlapEnd e s = s.waitUntil u := by
  rw [overlapEnd, h]

/-- Slot A, or slot B, of the entry is the one under which the identifier is known (R85). -/
def slotOfKey (x : Ste) (id : BitVec 32) : Option Bool :=
  if x.aValid && x.aKey == id then some false else if x.bValid && x.bKey == id then some true else none

/-- A frame under the previous key slot after the end of its overlap fails with KEY_OLD (R85). -/
theorem verifySlots_old {e alg keyAlg stamp u : Nat} {id : BitVec 32} {iv o mac : List (BitVec 8)} {s : State} {b : Bool}
    (hslot : slotOfKey (ste s e) id = some b) (hprev : b ≠ (s.stream e).keyB) (hend : (s.stream e).prevEnd = some u) (hlate : u < stamp) :
    verifySlots e alg keyAlg id iv o mac stamp s = (s, some rsOld) := by
  have hb : (b == (s.stream e).keyB) = false := by simpa using hprev
  unfold slotOfKey at hslot
  unfold verifySlots
  dsimp only
  by_cases hA : ((ste s e).aValid && (ste s e).aKey == id) = true
  · rw [if_pos hA] at hslot
    obtain rfl := Option.some.inj hslot
    simp [hA, hb, hend, hlate]
  · rw [if_neg hA] at hslot
    by_cases hB : ((ste s e).bValid && (ste s e).bKey == id) = true
    · rw [if_pos hB] at hslot
      obtain rfl := Option.some.inj hslot
      simp only [Bool.not_eq_true] at hA
      simp [hA, hB, hb, hend, hlate]
    · rw [if_neg hB] at hslot
      cases hslot

/-- Settles O30: the supervision frame, the forgotten source, and the end of an overlap. -/
theorem redundancyRecords : Obligations.RedundancyRecords := by
  refine ⟨?supervision, ?forgotten, ?overlap⟩
  case supervision =>
    rintro s _ t port o rfl hlive hmac hmode hether hmin hmax
    rw [exec_prpSupervisionFrame hlive hether, portFrame_supervision port.isLt hmac hmode hether hmin hmax]
  case forgotten =>
    intro s q mac d halive hd
    have hms : msEdges 400 = 100000000 := rfl
    exact exec_forgotten halive (by rw [hms]) hd
  case overlap =>
    intro s e u halive hend
    refine ⟨_, exec_keyOverlapEnd halive, overlapEnd_open hend, fun hrun => ?_, ?_⟩
    · rw [overlapEnd_open hend]
      exact le_counter_waitUntil u hrun
    · intro alg keyAlg stamp id iv o mac hlate hslot
      have hprev : ∃ b, slotOfKey (ste s e) id = some b ∧ b ≠ (s.stream e).keyB := by
        obtain ⟨hvalid, hkey, hcur⟩ | ⟨hA, hvalid, hkey, hcur⟩ := hslot
        · exact ⟨false, by simp [slotOfKey, hvalid, hkey], by simp [hcur]⟩
        · have hA' : ((ste s e).aValid && (ste s e).aKey == id) = false := by simpa using hA
          exact ⟨true, by simp [slotOfKey, hA', hvalid, hkey], by simp [hcur]⟩
      obtain ⟨b, hb, hne⟩ := hprev
      obtain ⟨n, hn⟩ := s.waitUntil_eq_pass u
      rw [overlapEnd_open hend, hn]
      exact verifySlots_old (by rwa [State.pass_ste]) (by rwa [State.pass_stream]) (by rwa [State.pass_stream]) hlate

end Sys2Proof.Machine
end


section
/-! Capture descriptors (R147, R151 to R156). -/

namespace Sys2Proof.Machine

/-! The steps. -/

section
variable {s : State} {t : Nat} {p : PartId} {r : RingNo} {y : State × Flight}

theorem exec_capArm (h : Fetches (s.runTo t) p r 0x61 y) : exec (.capArm t p r) s = .next (capArmAct p r y.1 y.2) :=
  congrArg _ (withDesc_fetched h (capArmAct p r))
theorem exec_capForce (h : Fetches (s.runTo t) p r 0x63 y) : exec (.capForce t p r) s = .next (capForceAct p r y.1 y.2) :=
  congrArg _ (withDesc_fetched h (capForceAct p r))
theorem exec_capRelease (h : Fetches (s.runTo t) p r 0x64 y) : exec (.capRelease t p r) s = .next (capReleaseAct p r y.1 y.2) :=
  congrArg _ (withDesc_fetched h (capReleaseAct p r))
theorem exec_capExport (h : Fetches (s.runTo t) p r 0x65 y) : exec (.capExport t p r) s = .next (capExportAct p r y.1 y.2) :=
  congrArg _ (withDesc_fetched h (capExportAct p r))

/-- CAP_ABORT is one of two commands by its EXPORT bit (R156). -/
theorem exec_capAbort (h : Fetches (s.runTo t) p r 0x62 y) (hbit : bit (dw y.2.words 0) 9 = false) :
    exec (.capAbort t p r) s = .next (capAbortAct p r y.1 y.2) :=
  congrArg _ (withDesc_eq h (by simp [h.2.2, hbit]))
theorem exec_capAbortExport (h : Fetches (s.runTo t) p r 0x62 y) (hbit : bit (dw y.2.words 0) 9 = true) :
    exec (.capAbortExport t p r) s = .next (capAbortExportAct p r y.1 y.2) :=
  congrArg _ (withDesc_eq h (by simp [h.2.2, hbit]))

end

/-- Unit g is u in z, and every other unit is as in s. -/
structure CapSet (g : Nat) (s z : State) (u : CapUnit) : Prop where
  same : z.cap g = u
  others : ∀ k, k ≠ g → z.cap k = s.cap k

theorem updCap_capSet (s : State) (g : Nat) (f : CapUnit → CapUnit) : CapSet g s (s.updCap g f) (f (s.cap g)) where
  same := (State.updCap_cap s g g f).trans (if_pos rfl)
  others k hk := (State.updCap_cap s g k f).trans (if_neg hk)

theorem CapSet.updCap {g : Nat} {s z : State} {u : CapUnit} (h : CapSet g s z u) (f : CapUnit → CapUnit) :
    CapSet g s (z.updCap g f) (f u) where
  same := by rw [(updCap_capSet z g f).same, h.same]
  others k hk := by rw [(updCap_capSet z g f).others k hk, h.others k hk]

/-- Write-backs, records and interrupts leave the units. -/
theorem CapSet.calm {g : Nat} {s z w : State} {u : CapUnit} (h : CapSet g s z u) (hcalm : Calm z w) : CapSet g s w u := by
  have hcap (k : Nat) : w.cap k = z.cap k := by rw [State.cap, hcalm.tg]; rfl
  exact ⟨(hcap g).trans h.same, fun k hk => (hcap k).trans (h.others k hk)⟩

/-! CAP_ARM. -/

/-- The unit as CAP_ARM leaves it before it enters a segment. -/
def armed (u : CapUnit) (w : List (BitVec 32)) (pre post rate count ring id : Nat) (l : List (BitVec 32)) : CapUnit :=
  { u with prof := w, pre := pre, post := post, list := l, rate := rate, left := if count = 0 then none else some count,
           ring := ring, flight := id, todo := [], bins := [], cut := none, deadFrom := none }

/-- A unit enters its lowest free segment, or waits for one (R147). -/
def entering (u : CapUnit) (dead : Nat) : CapUnit :=
  match freeSeg u with
  | some i => { u with st := .armed, seg := i, segs := Tbl.set .free u.segs i .filling, taken := 0, marks := [], trig := none,
                       trigRec := none, flags := 0, scaleAt := none, trigScales := [], inPost := 0, dead := dead, deadFrom := none }
  | none => { u with st := .waitSeg }

theorem capEnter_eq (g dead : Nat) (s : State) : capEnter g dead s = s.updCap g (fun u => entering u dead) := rfl

theorem freeSeg_isSome (u : CapUnit) : (freeSeg u).isSome = (List.range u.prf.nseg).any (fun i => segState u i == .free) := by
  rw [Bool.eq_iff_iff, freeSeg, List.find?_isSome, List.any_eq_true]
  rfl

/-- What entering a segment leaves of the service. -/
theorem entering_fields (u : CapUnit) (dead : Nat) :
    (entering u dead).st = (if (List.range u.prf.nseg).any (fun i => segState u i == .free) then .armed else .waitSeg) ∧
      (entering u dead).pre = u.pre ∧ (entering u dead).post = u.post ∧ (entering u dead).rate = u.rate ∧
      (entering u dead).flight = u.flight ∧ (entering u dead).list = u.list := by
  rw [← freeSeg_isSome]
  unfold entering
  cases freeSeg u <;> exact ⟨rfl, rfl, rfl, rfl, rfl, rfl⟩

section
variable {p r g : Nat} {s : State} {f : Flight} (hsel : capSel f.words = some g) (hres : capResOk f.words = true) (howner : capOwner s g = p)
include hsel hres howner

theorem capArmAct_arms {c : CapProf} {b : List (BitVec 8)} {rate pre post : Nat} (hc : c = profList (profWords s g))
    (hok : profOk g c = true) (hread : devRead s p c.chl (4 * (c.na + c.nd)) = some b) (hrate : listRate s g c (bytesWords b) = some rate)
    (hlist : listOwned s g p (bytesWords b) = true) (htime : s.timeValid = true) (hidle : (s.cap g).st = .idle)
    (hshare : capShare s g + recSize (isSurge g) c.na c.nd * rate ≤ 80000000)
    (hpre : pre = (if fld (dw f.words 2) 23 0 = 0 then c.pre else fld (dw f.words 2) 23 0))
    (hpost : post = (if fld (dw f.words 3) 23 0 = 0 then c.post else fld (dw f.words 3) 23 0)) (hroom : pre + post ≤ capSlots g c) :
    capArmAct p r s f = (s.updCap g (fun u => armed u (profWords s g) pre post rate (fld (dw f.words 4) 15 0) (64 * p + r) f.id
      (bytesWords b))).updCap g (fun u => entering u 0) := by
  subst hc
  have hroom' := Nat.not_lt.2 hroom
  have hshare' := Nat.not_lt.2 hshare
  unfold capArmAct
  dsimp only
  rw [hsel]
  dsimp only
  rw [howner, hread, Option.getD_some, Option.isSome_some, hok, hrate, ← hpre, ← hpost]
  simp only [hres, hlist, htime, hidle, hroom', hshare', Bool.and_self, if_true, Bool.not_true, Option.isNone_some, Bool.or_self,
    Bool.false_eq_true, if_false, ne_eq, not_true_eq_false, or_self, Option.getD_some]
  rfl

/-- CAP_FORCE triggers an armed unit at the present instant (R153). -/
theorem capForceAct_triggers (harmed : (s.cap g).st = .armed) :
    capForceAct p r s f = finish (capTrigger g (stampNow s) 0x10 s) p r f.id stDone := by
  simp [capForceAct, hsel, hres, howner, harmed]

/-- CAP_ABORT of a unit in service stops it (R156). -/
theorem capAbortAct_stops (hservice : (s.cap g).st ≠ .idle) : capAbortAct p r s f = finish (capStop g s) p r f.id stDone := by
  simp [capAbortAct, hsel, hres, howner, hservice]

theorem capReleaseAct_frees (hheld : segState (s.cap g) (fld (dw f.words 2) 3 0) = .held)
    (hexport : exportOf s g (fld (dw f.words 2) 3 0) = none) :
    capReleaseAct p r s f = finish (segFree g (fld (dw f.words 2) 3 0) s) p r f.id stDone := by
  simp [capReleaseAct, hsel, hres, howner, hheld, hexport]

end

/-- The unit that a trigger at t finds armed (R152). -/
theorem capTrigger_armed {g : Nat} {t : Stamp} {flags : BitVec 32} {s : State} (harmed : (s.cap g).st = .armed) :
    ∃ u, CapSet g s (capTrigger g t flags s) u ∧ u.st = .post ∧ u.trig = some t ∧ u.flags = flags := by
  refine ⟨_, updCap_capSet s g _, ?_⟩
  dsimp only
  rw [harmed]
  exact ⟨rfl, rfl, rfl⟩

/-- The unit with the segment that it fills freed. -/
def discarded (u : CapUnit) : CapUnit :=
  if u.st = .armed ∨ u.st = .post then { u with segs := Tbl.set .free u.segs u.seg .free } else u

/-- The unit out of service. -/
def outOfService (u : CapUnit) : CapUnit := { u with st := .idle, todo := [], cut := none, deadFrom := none, bins := [] }

theorem capLeave_capSet {g : Nat} {s z : State} {u : CapUnit} (h : CapSet g s z u) (b : Wb) :
    CapSet g s (capLeave g b z) (outOfService u) :=
  (h.updCap outOfService).calm (completeKey_calm (Calm.refl _))

theorem capStop_capSet {g : Nat} {s : State} (hservice : (s.cap g).st ≠ .idle) :
    CapSet g s (capStop g s) (outOfService (discarded (s.cap g))) := by
  rw [capStop, if_neg hservice]
  exact capLeave_capSet (updCap_capSet s g discarded) _

theorem capStop_regs {g : Nat} {s : State} : (capStop g s).regs = s.regs := by
  unfold capStop
  split
  · rfl
  · exact (completeKey_calm (Calm.refl _)).regs

/-- A unit that is not waiting for a segment keeps its service when one is freed (R154). -/
theorem segFree_capSet {g i : Nat} {s : State} (hwait : (s.cap g).st ≠ .waitSeg) :
    CapSet g s (segFree g i s) { s.cap g with segs := Tbl.set .free (s.cap g).segs i .free } := by
  have hset := updCap_capSet s g (fun y => { y with segs := Tbl.set .free y.segs i .free })
  have hno : ¬(((s.updCap g (fun y => { y with segs := Tbl.set .free y.segs i .free })).cap g).st = .waitSeg ∧
      (freeSeg ((s.updCap g (fun y => { y with segs := Tbl.set .free y.segs i .free })).cap g)).isSome = true) := by
    rw [hset.same]
    exact fun h => hwait h.1
  rw [segFree, capWake]
  dsimp only
  rw [if_neg hno]
  exact hset

theorem segState_set {u : CapUnit} {segs : Tbl SegSt} {i : Nat} {x : SegSt} (h : u.segs = Tbl.set .free segs i x) : segState u i = x := by
  rw [segState, h, Tbl.get_set, if_pos rfl]

/-- Settles O32: each command's change of its unit. -/
theorem captureCommands : Obligations.CaptureCommands := by
  rintro s _ t p r y g rfl hsel hres howner
  refine ⟨?arm, ?force, ?abort, ?release⟩
  case arm =>
    intro c b rate pre post hf hc hok hread hrate hlist htime hidle hshare hpre hpost hroom
    rw [exec_capArm hf, capArmAct_arms hsel hres howner hc hok hread hrate hlist htime hidle hshare hpre hpost hroom]
    have hset := (updCap_capSet y.1 g (fun u => armed u (profWords y.1 g) pre post rate (fld (dw y.2.words 4) 15 0) (64 * p + r) y.2.id
      (bytesWords b))).updCap (fun u => entering u 0)
    obtain ⟨hst, hpre', hpost', hrate', hflight, hlist'⟩ := entering_fields
      (armed (y.1.cap g) (profWords y.1 g) pre post rate (fld (dw y.2.words 4) 15 0) (64 * p + r) y.2.id (bytesWords b)) 0
    have hprf : CapUnit.prf (armed (y.1.cap g) (profWords y.1 g) pre post rate (fld (dw y.2.words 4) 15 0) (64 * p + r) y.2.id
      (bytesWords b)) = c := hc.symm
    refine ⟨_, rfl, ?_, ?_, ?_, ?_, ?_, ?_, hset.others, rfl, rfl⟩ <;> rw [hset.same]
    · rw [hst, hprf]
      rfl
    · exact hpre'
    · exact hpost'
    · exact hrate'
    · exact hflight
    · exact hlist'
  case force =>
    intro hf harmed
    obtain ⟨u, hset, hst, htrig, hflags⟩ := capTrigger_armed (t := stampNow y.1) (flags := 0x10) harmed
    rw [exec_capForce hf, capForceAct_triggers hsel hres howner harmed]
    refine ⟨_, rfl, ?_, ?_, ?_, hset.others⟩ <;> rw [hset.same]
    · exact hst
    · exact htrig
    · exact hflags
  case abort =>
    intro hf hbit hservice
    have hset := (capStop_capSet hservice).calm (finish_calm (p := p) (r := r) (id := y.2.id) (status := stDone) (Calm.refl _))
    rw [exec_capAbort hf hbit, capAbortAct_stops hsel hres howner hservice]
    refine ⟨_, rfl, ?_, ?_, hset.others, (finish_calm (Calm.refl _)).regs.trans capStop_regs, fun hfills => ?_⟩ <;> rw [hset.same]
    · rfl
    · rfl
    · rw [discarded, if_pos hfills]
      exact segState_set rfl
  case release =>
    intro hf hheld hexport hwait
    have hset := segFree_capSet (i := fld (dw y.2.words 2) 3 0) hwait
    rw [exec_capRelease hf, capReleaseAct_frees hsel hres howner hheld hexport]
    refine ⟨_, rfl, ?_, hset.others⟩
    rw [hset.same]
    exact segState_set rfl

end Sys2Proof.Machine
end


section
/-! The end of a capture and CAP_EXPORT (R152 to R161). -/

namespace Sys2Proof.Machine

/-! The end of a capture. -/

/-- From a to b unit g closes no capture: its segments and its serial number stay, an idle unit stays idle, and the other units and the
registers stay. -/
structure ServiceRuns (g : Nat) (a b : State) : Prop where
  segs : (b.cap g).segs = (a.cap g).segs
  serial : (b.cap g).serial = (a.cap g).serial
  idle : (a.cap g).st = .idle → (b.cap g).st = .idle
  others : ∀ k, k ≠ g → b.cap k = a.cap k
  regs : b.regs = a.regs

theorem ServiceRuns.refl (g : Nat) (s : State) : ServiceRuns g s s := ⟨rfl, rfl, fun h => h, fun _ _ => rfl, rfl⟩

theorem ServiceRuns.trans {g : Nat} {a b c : State} (h : ServiceRuns g a b) (k : ServiceRuns g b c) : ServiceRuns g a c :=
  ⟨k.segs.trans h.segs, k.serial.trans h.serial, fun hidle => k.idle (h.idle hidle), fun j hj => (k.others j hj).trans (h.others j hj),
    k.regs.trans h.regs⟩

theorem ServiceRuns.of_calm {g : Nat} {a b : State} (h : Calm a b) : ServiceRuns g a b := by
  have hcap (k : Nat) : b.cap k = a.cap k := by rw [State.cap, h.tg]; rfl
  exact ⟨by rw [hcap], by rw [hcap], fun hidle => by rwa [hcap], fun k _ => hcap k, h.regs⟩

/-- A change of the unit that keeps its segments, its serial number and its idleness. -/
theorem ServiceRuns.updCap {g : Nat} (s : State) {f : CapUnit → CapUnit}
    (hf : ∀ u, (f u).segs = u.segs ∧ (f u).serial = u.serial ∧ (u.st = .idle → (f u).st = .idle)) : ServiceRuns g s (s.updCap g f) := by
  have hset := updCap_capSet s g f
  obtain ⟨hsegs, hserial, hidle⟩ := hf (s.cap g)
  exact ⟨by rw [hset.same, hsegs], by rw [hset.same, hserial], fun h => by rw [hset.same, hidle h], hset.others, rfl⟩

theorem capTrigger_runs (g : Nat) (t : Stamp) (flags : BitVec 32) (s : State) : ServiceRuns g s (capTrigger g t flags s) := by
  refine .updCap s fun u => ?_
  dsimp only
  split
  next harmed => exact ⟨rfl, rfl, fun hidle => by rw [harmed] at hidle; cases hidle⟩
  next => exact ⟨rfl, rfl, fun h => h⟩
  next => exact ⟨rfl, rfl, fun h => h⟩
  next => exact ⟨rfl, rfl, fun h => h⟩

theorem capSample_runs (g : Nat) (t : Stamp) (vals : List (Int × BitVec 32)) (new : List (Option (BitVec 32))) (s : State) :
    ServiceRuns g s (capSample g t vals new s) :=
  (ServiceRuns.of_calm (devWrite_calm (Calm.refl s))).trans (.updCap _ fun _ => ⟨rfl, rfl, fun h => h⟩)

theorem capRun_runs (g : Nat) (l : List CapItem) : ∀ s, ServiceRuns g s (capRun l g s) := by
  have htodo (s : State) (l : List CapItem) : ServiceRuns g s (s.updCap g (fun y => { y with todo := l })) :=
    .updCap s fun _ => ⟨rfl, rfl, fun h => h⟩
  induction l with
  | nil => exact fun s => htodo s []
  | cons it rest ih =>
    intro s
    unfold capRun
    dsimp only
    split
    · exact htodo s _
    · cases it with
      | trg t f => exact (capTrigger_runs g t f s).trans (ih _)
      | smp t v sc =>
        dsimp only
        split
        · exact (capSample_runs g t v sc s).trans (ih _)
        · exact ih s

/-- The unit after its capture is closed (R155). -/
def closed (u : CapUnit) : CapUnit :=
  { u with segs := Tbl.set .free u.segs u.seg .held, serial := u.serial + 1, missed := 0, inPost := 0 }

theorem capClose_capSet (g : Nat) (cut : Bool) (s : State) : CapSet g s (capClose g cut s) (closed (s.cap g)) ∧ (capClose g cut s).regs = s.regs := by
  unfold capClose
  extract_lets u p sp s1 s2 s3
  have h2 : Calm s s2 := devWrite_calm (foldl_calm (Calm.refl s) fun a i h => devWrite_calm h)
  have hcap (k : Nat) : s2.cap k = s.cap k := by rw [State.cap, h2.tg]; rfl
  have h3 := updCap_capSet s2 g (fun y => { y with
    segs := Tbl.set .free y.segs u.seg .held, serial := u.serial + 1, missed := 0, inPost := 0 })
  have hs : CapSet g s s3 (closed (s.cap g)) := ⟨by rw [h3.same, hcap]; rfl, fun k hk => (h3.others k hk).trans (hcap k)⟩
  exact ⟨hs.calm (record_calm (Calm.refl s3)), (record_calm (Calm.refl s3)).regs.trans h2.regs⟩

theorem CapSet.enter {g : Nat} {s z : State} {u : CapUnit} (h : CapSet g s z u) (dead : Nat) :
    CapSet g s (capEnter g dead z) (entering u dead) := h.updCap (fun u => entering u dead)

theorem State.updCap_regs (s : State) (g : Nat) (f : CapUnit → CapUnit) : (s.updCap g f).regs = s.regs := rfl
theorem capEnter_regs (g dead : Nat) (s : State) : (capEnter g dead s).regs = s.regs := rfl
theorem State.draw_regs (s : State) : s.draw.2.regs = s.regs := rfl

/-- A unit that enters a segment takes one that is free. -/
theorem entering_keeps_held {u : CapUnit} {i : Nat} (dead : Nat) (hheld : segState u i = .held) : segState (entering u dead) i = .held := by
  unfold entering
  split
  next j hj =>
    have hfree : segState u j = .free := beq_iff_eq.1 (List.find?_some (p := fun i => segState u i == .free) hj)
    have hne : i ≠ j := by
      rintro rfl
      rw [hheld] at hfree
      cases hfree
    rw [segState, Tbl.get_set, if_neg hne]
    exact hheld
  next => exact hheld

theorem entering_serial (u : CapUnit) (dead : Nat) : (entering u dead).serial = u.serial := by
  unfold entering
  split <;> rfl

/-- The unit for its next capture. -/
def nextCapture (e : Nat) (u : CapUnit) : CapUnit := { u with left := u.left.map (· - 1), deadFrom := some e }

/-- A complete capture is closed, and the unit leaves service or enters its next segment (R154, R155). -/
theorem captureComplete_done {g : Nat} {s : State} (hdone : capDone (s.cap g) = true) : ∃ z u, CapSet g s z u ∧ z.regs = s.regs ∧
    ServiceRuns g z (captureComplete g s) ∧ u.serial = (s.cap g).serial + 1 ∧ segState u (s.cap g).seg = .held ∧
    ((s.cap g).left = some 1 → u.st = .idle) := by
  have hheld : segState (closed (s.cap g)) (s.cap g).seg = .held := segState_set rfl
  obtain ⟨hclose, hregs⟩ := capClose_capSet g false s
  unfold captureComplete
  extract_lets u s1 d s2 s3
  rw [if_pos hdone]
  split
  next =>
    exact ⟨_, _, capLeave_capSet hclose _, (completeKey_calm (Calm.refl _)).regs.trans hregs, capRun_runs .., rfl, hheld, fun _ => rfl⟩
  next hmore =>
    have hdraw : CapSet g s d.2 (closed (s.cap g)) := ⟨hclose.same, hclose.others⟩
    have h2 : CapSet g s s2 _ := hdraw.updCap (nextCapture s.tb.edge)
    have hnext : CapSet g s s3 _ := h2.enter (Config.freeNat d.1 g % 2 ^ 32)
    have hs3 : s3.regs = s1.regs := (capEnter_regs g _ s2).trans ((State.updCap_regs d.2 g _).trans (State.draw_regs s1))
    refine ⟨s3, _, hnext, hs3.trans hregs, capRun_runs .., ?_, ?_, fun hlast => absurd hlast hmore⟩
    · rw [entering_serial]
      rfl
    · exact entering_keeps_held _ hheld

theorem exec_captureComplete {s : State} {g : Fin 144} (h : alive s = true) : exec (.captureComplete g) s = .next (captureComplete g s) :=
  congrArg _ (live_eq h)

/-! CAP_EXPORT. -/

section
variable {p r g : Nat} {s : State} {f : Flight} (hsel : capSel f.words = some g) (hres : capResOk f.words = true) (howner : capOwner s g = p)
include hsel hres howner

/-- The operation that an accepted CAP_EXPORT opens (R158, R161). -/
def exportOp (p r g : Nat) (f : Flight) (files : List (List (BitVec 8) × List (BitVec 8))) : StOp :=
  { id := 0, kind := .export_, ring := 64 * p + r, flight := f.id, tag := dw f.words 1, region := 4, objs := files,
    pages := (files.map (fun e => pagesOf e.2.length)).foldl (· + ·) 0, unit := g + 256 * b2n (bit (dw f.words 0) 9),
    seg := fld (dw f.words 2) 3 0 }

theorem capExportAct_opens {tb : List (BitVec 8)} {trig : Stamp} {files : List (List (BitVec 8) × List (BitVec 8))}
    (hlen : fld (dw f.words 6) 15 0 ≠ 0) (hheld : segState (s.cap g) (fld (dw f.words 2) 3 0) = .held)
    (hread : devRead s p (addr48 f.words 4) (fld (dw f.words 6) 15 0) = some tb)
    (hfiles : exportFiles s g (fld (dw f.words 2) 3 0) (bit (dw f.words 0) 10) (some tb) = some (trig, files))
    (htime : trig.q.getLsbD 6 = true) (hbusy : stBusy s = false) (hnone : exportOf s g (fld (dw f.words 2) 3 0) = none)
    (hroom : (files.map (fun e => pagesOf e.2.length)).foldl (· + ·) 0 ≤ freePages s 4) :
    capExportAct p r s f = openOp s (exportOp p r g f files) := by
  have hroom' := Nat.not_lt.2 hroom
  simp [capExportAct, hsel, hres, howner, hlen, hheld, hread, hfiles, htime, hbusy, hnone, hroom', exportOp]

theorem capAbortExportAct_aborts {o : StOp} (ho : exportOf s g (fld (dw f.words 2) 3 0) = some o) :
    capAbortExportAct p r s f = finish (abortOp s o stAborted) p r f.id stDone := by
  simp [capAbortExportAct, hsel, hres, howner, ho]

end

/-- Settles O33: the closed capture, and the operation of CAP_EXPORT. -/
theorem captureExports : Obligations.CaptureExports := by
  constructor
  · intro s g halive hdone
    obtain ⟨z, u, hset, hregs, hruns, hserial, hheld, hlast⟩ := captureComplete_done hdone
    refine ⟨_, exec_captureComplete halive, ?_, ?_, fun h => hruns.idle ?_, fun k hk => ?_, hruns.regs.trans hregs⟩
    · rw [hruns.serial, hset.same, hserial]
    · rw [segState, hruns.segs, hset.same]
      exact hheld
    · rw [hset.same]
      exact hlast h
    · exact (hruns.others k hk).trans (hset.others k hk)
  · rintro s _ t p r y g rfl hsel hres howner
    refine ⟨fun tb trig files hf hlen hheld hread hfiles htime hbusy hnone hroom => ?_, fun o hf hbit ho => ?_⟩
    · rw [exec_capExport hf, capExportAct_opens hsel hres howner hlen hheld hread hfiles htime hbusy hnone hroom]
      exact ⟨_, _, rfl, rfl, rfl, rfl, rfl, rfl, rfl, rfl⟩
    · rw [exec_capAbortExport hf hbit, capAbortExportAct_aborts hsel hres howner ho]

end Sys2Proof.Machine
end


section
/-! The records of the pair leave every part of the state but the controller's own and what write-backs change (R412, R417, R428). -/

namespace Sys2Proof.Machine

/-- State b differs from state a at most in the redundancy controller and in what `Calm` leaves open. -/
def PairCalm (a b : State) : Prop := Calm { a with pr := b.pr } b

theorem PairCalm.refl (s : State) : PairCalm s s := Calm.refl s

theorem Calm.pair {a b : State} (h : Calm a b) : PairCalm a b :=
  ⟨h.pending, h.tb, h.tu, h.ptp, h.regs, h.cores, h.tx, h.pw, h.st, h.ok, rfl, h.snap, h.gn, h.mc, h.ig, h.fc, h.tg, h.ph, h.fl, h.fb,
    h.pb, h.lp⟩

theorem PairCalm.trans {a b c : State} (h : PairCalm a b) (k : PairCalm b c) : PairCalm a c :=
  ⟨k.pending.trans h.pending, k.tb.trans h.tb, k.tu.trans h.tu, k.ptp.trans h.ptp, k.regs.trans h.regs, k.cores.trans h.cores,
    k.tx.trans h.tx, k.pw.trans h.pw, k.st.trans h.st, k.ok.trans h.ok, rfl, k.snap.trans h.snap, k.gn.trans h.gn, k.mc.trans h.mc,
    k.ig.trans h.ig, k.fc.trans h.fc, k.tg.trans h.tg, k.ph.trans h.ph, k.fl.trans h.fl, k.fb.trans h.fb, k.pb.trans h.pb,
    k.lp.trans h.lp⟩

theorem PairCalm.calm {a b c : State} (h : PairCalm a b) (k : Calm b c) : PairCalm a c := h.trans k.pair

/-- A change of the controller alone. -/
theorem PairCalm.of_eq {s : State} (pr : PrState) (pu : PrRun) : PairCalm s { s with pr := pr, pu := pu } :=
  ⟨rfl, rfl, rfl, rfl, rfl, rfl, rfl, rfl, rfl, rfl, rfl, rfl, rfl, rfl, rfl, rfl, rfl, rfl, rfl, rfl, rfl, rfl⟩

theorem diverge_pair (kind ident : Nat) (s : State) : PairCalm s (diverge kind ident s) := by
  have hrec : Calm s (recordAll s 0xD3 [(2, BitVec.ofNat 32 kind), (3, BitVec.ofNat 32 ident),
    (4, BitVec.ofNat 32 (slotOf (now16 s)))] (stampNow s)) := recordAll_calm (Calm.refl s)
  exact hrec.pair.trans (.of_eq _ _)

theorem decide_pair (d : Decision) (s : State) : PairCalm s (decide_ d s) := by
  unfold decide_
  split
  · split
    · exact (mateSend_calm (Calm.refl s)).pair
    · exact .refl s
  · split
    · dsimp only
      split
      · exact .of_eq s.pr _
      · exact (PairCalm.of_eq s.pr _).trans (diverge_pair ..)
    · exact .of_eq s.pr _
  · exact .refl s

theorem changeRole_pair (new : PRole) (cause : Nat) (s : State) : PairCalm s (changeRole s new cause) := by
  unfold changeRole
  extract_lets old pr src s1 s2
  have h1 : PairCalm s s1 := .of_eq _ _
  exact h1.calm (tallyEvent_calm (recordAll_calm (Calm.refl s1)))

theorem fallSilent_pair (s : State) : PairCalm s (fallSilent s) := by
  unfold fallSilent
  extract_lets ready
  split
  · exact (PairCalm.of_eq _ s.pu).trans (changeRole_pair ..)
  · exact .refl s

theorem selftest_pair (bitNo : Nat) (fatal : Bool) (detail : BitVec 32) (s : State) : PairCalm s (selftest bitNo fatal detail s) := by
  unfold selftest
  split
  · exact .refl s
  extract_lets s1 s2 w s3
  have h2 : Calm s s2 := tallyEvent_calm (recordAll_calm (Calm.refl s))
  have h3 : PairCalm s s3 := h2.pair.trans (.of_eq _ _)
  split
  · exact (h3.trans (.of_eq _ s3.pu)).trans (fallSilent_pair _)
  · exact h3

theorem conservation_pair (row : Nat) (s : State) : PairCalm s (conservation row s) :=
  ((tallyEvent_calm (Calm.refl s)).pair.trans (.of_eq _ _)).trans (selftest_pair ..)

/-- The checks of the conserved sums set a flag of the green's, and leave the rest as the pair's records do (R29). -/
theorem checkRows_pair (rows : List Nat) (s : State) : ∃ i, PairCalm { s with gn.imbal := i } (checkRows rows s) := by
  refine List.foldlRecOn (motive := fun a => ∃ i, PairCalm { s with gn.imbal := i } a) _ _ ⟨s.gn.imbal, PairCalm.refl s⟩ ?_
  rintro a ⟨i, ha⟩ r -
  split
  · have hgn : ({ a with gn.imbal := true } : State).gn = { s.gn with imbal := true } := by
      show { a.gn with imbal := true } = { s.gn with imbal := true }
      rw [ha.gn]
    have hset : PairCalm { s with gn.imbal := true } { a with gn.imbal := true } :=
      ⟨ha.pending, ha.tb, ha.tu, ha.ptp, ha.regs, ha.cores, ha.tx, ha.pw, ha.st, ha.ok, rfl, ha.snap, hgn, ha.mc, ha.ig, ha.fc, ha.tg,
        ha.ph, ha.fl, ha.fb, ha.pb, ha.lp⟩
    exact ⟨true, hset.trans (conservation_pair ..)⟩
  · exact ⟨i, ha.trans (conservation_pair ..)⟩

end Sys2Proof.Machine
end


section
/-! Synchrophasor streams (R184 to R189). -/

namespace Sys2Proof.Machine

section
variable {s : State} {t : Nat} {p : PartId} {r : RingNo} {y : State × Flight}

theorem exec_phStreamStart (h : Fetches (s.runTo t) p r 0x72 y) : exec (.phStreamStart t p r) s = .next (phStreamStartAct p r y.1 y.2) :=
  congrArg _ (withDesc_fetched h (phStreamStartAct p r))
theorem exec_phStreamStop (h : Fetches (s.runTo t) p r 0x73 y) : exec (.phStreamStop t p r) s = .next (phStreamStopAct p r y.1 y.2) :=
  congrArg _ (withDesc_fetched h (phStreamStopAct p r))
theorem exec_phStreamMark (h : Fetches (s.runTo t) p r 0x74 y) : exec (.phStreamMark t p r) s = .next (phStreamMarkAct p r y.1 y.2) :=
  congrArg _ (withDesc_fetched h (phStreamMarkAct p r))

end

/-- A started stream: its frame, map and header, and its next reporting instant (R184). -/
def startedWith (cfg hdr : List (BitVec 8)) (map : List (BitVec 32)) (port next : Nat) (y : PwsRt) : PwsRt :=
  { y with running := true, cfg := cfg, map := map, hdr := hdr, port := port, next := next, digs := [], until_ := 0 }

section
variable {p r n : Nat} {s : State} {f : Flight} (hn : n = fld (dw f.words 0) 31 16) (hlt : n < 64)
include hn hlt

theorem phStreamStartAct_starts {cfg map hdr : List (BitVec 8)}
    (hres : reservedOk f.words 0xFFFF0000 [(2, 0xFFFFFFFF), (3, 0xFFFF), (4, 0xFFFF), (5, 0xFFFFFFFF), (6, 0xFFFF), (7, 0xFFFFFFFF),
      (8, 0xFFFF), (9, 0xFFF)] = true)
    (hhl : fld (dw f.words 9) 7 0 = 42 ∨ fld (dw f.words 9) 7 0 = 46)
    (hport : fld (dw f.words 9) 11 8 < 8 ∨ (10 ≤ fld (dw f.words 9) 11 8 ∧ fld (dw f.words 9) 11 8 ≤ 12))
    (hcfg : devRead s p (addr48 f.words 2) (fld (dw f.words 4) 15 0) = some cfg) (hframe : cfgFrameOk cfg = true)
    (hmap : devRead s p (addr48 f.words 5) (4 * mapWords (cfgBlocks cfg []).1) = some map)
    (hhdr : devRead s p (addr48 f.words 7) (fld (dw f.words 9) 7 0) = some hdr)
    (hblocks : cfgMapOk s cfg (cfgBlocks cfg (bytesWords map)).1 = true)
    (howned : cfgOwned s n p (cfgBlocks cfg (bytesWords map)).1 = true) (hstopped : (s.pws n).running = false) :
    phStreamStartAct p r s f = finish (s.updPws n (startedWith cfg hdr (bytesWords map) (fld (dw f.words 9) 11 8)
      (firstReport s (cfgBlocks cfg (bytesWords map)).1 (now16 s + 1)))) p r f.id stDone := by
  have hlt' : ¬ n ≥ 64 := by omega
  have hhl' : (fld (dw f.words 9) 7 0 == 42 || fld (dw f.words 9) 7 0 == 46) = true := by simpa using hhl
  have hport' : (decide (fld (dw f.words 9) 11 8 < 8) || (decide (10 ≤ fld (dw f.words 9) 11 8) && decide (fld (dw f.words 9) 11 8 ≤ 12))) = true := by
    simpa using hport
  unfold phStreamStartAct
  dsimp only
  rw [← hn, hcfg, Option.getD_some, hmap, hhdr, hres, hhl', hport', hframe, Option.getD_some, Option.getD_some, hblocks, howned, hstopped]
  simp only [hlt', decide_false, Bool.not_true, Bool.or_self, Option.isNone_some, Bool.false_eq_true, if_false]
  rfl

theorem phStreamStopAct_stops (hres : reservedOk f.words 0xFFFF0000 [] = true) (howner : wsOwner s n = p)
    (hrunning : (s.pws n).running = true) : phStreamStopAct p r s f = finish (phStop n s) p r f.id stDone := by
  have hlt' : ¬ n ≥ 64 := by omega
  unfold phStreamStopAct
  dsimp only
  rw [← hn, hres, howner, hrunning]
  simp only [hlt', decide_false, Bool.not_true, Bool.or_self, Bool.false_eq_true, if_false, ne_eq, not_true_eq_false, if_true]

theorem phStreamMarkAct_marks (hres : reservedOk f.words 0xFFFF0200 [] = true) (howner : wsOwner s n = p) :
    phStreamMarkAct p r s f = finish (s.updPws n (fun z => { z with mark := bit (dw f.words 0) 9 })) p r f.id stDone := by
  have hlt' : ¬ n ≥ 64 := by omega
  unfold phStreamMarkAct
  dsimp only
  rw [← hn, hres, howner]
  simp only [hlt', decide_false, Bool.not_true, Bool.or_self, Bool.false_eq_true, if_false, ne_eq, not_true_eq_false]

end

/-! The data frames. -/

/-- Sending a frame changes of the phasor section the count of its stream alone (R189), and takes no time. -/
theorem sendOut_leaves (f : OutFrame) (s : State) : (sendOut f s).ph = (countSent f s).ph ∧ (sendOut f s).tb = s.tb := by
  have hcount : (countSent f s).tb = s.tb := by
    unfold countSent
    split <;> rfl
  have hdup (a : State) (q mac m : Nat) (k : DupMark) : (dupEnter a q mac m k).ph = a.ph ∧ (dupEnter a q mac m k).tb = a.tb := by
    unfold dupEnter
    dsimp only
    split
    · exact ⟨rfl, rfl⟩
    · split <;> exact ⟨rfl, rfl⟩
  unfold sendOut
  extract_lets x put q mode seq pb y
  have hput (o : Nat → List (BitVec 8)) (a : State) (l : List Nat) : GreenCalm a (l.foldl (fun b p => put (o p) p b) a) :=
    (GreenCalm.refl a).foldl fun b p => enqueue_green ..
  split
  · exact ⟨(hput _ x _).ph, (hput _ x _).tb.trans hcount⟩
  · split
    · exact ⟨(hput _ y _).ph, (hput _ y _).tb.trans hcount⟩
    · obtain ⟨hph, htb⟩ := hdup y q (srcMac f.octets) seq .own
      exact ⟨(hput _ _ _).ph.trans hph, ((hput _ _ _).tb.trans htb).trans hcount⟩

/-- A released frame is counted in its stream while the gates are open, and is withheld otherwise (R189, R413). -/
theorem releaseFrame_leaves (f : OutFrame) (s : State) : (releaseFrame f s).tb = s.tb ∧
    (releaseFrame f s).ph = if gatesOpen s then (countSent f (decide_ (.frame f.id (crc32c f.octets)) s)).ph else s.ph := by
  have hdecide := decide_pair (.frame f.id (crc32c f.octets)) s
  unfold releaseFrame
  dsimp only
  split
  · obtain ⟨hph, htb⟩ := sendOut_leaves f (decide_ (.frame f.id (crc32c f.octets)) s)
    exact ⟨htb.trans hdecide.tb, hph⟩
  · split
    · split
      · exact ⟨hdecide.tb, hdecide.ph⟩
      · exact ⟨hdecide.tb, hdecide.ph⟩
    · exact ⟨hdecide.tb, hdecide.ph⟩

theorem pws_of_ph {a b : State} (h : b.ph = a.ph) (n : Nat) : b.pws n = a.pws n := by rw [State.pws, h]; rfl

/-- The frame counts of the streams after the release of a frame of stream n. -/
theorem releaseFrame_pws {f : OutFrame} {n : Nat} (hf : f.stream = some n) (s : State) (k : Nat) : (releaseFrame f s).pws k =
    if gatesOpen s ∧ k = n then { s.pws n with frames := inc32 (s.pws n).frames } else s.pws k := by
  have hph := (releaseFrame_leaves f s).2
  by_cases hgates : gatesOpen s = true
  · rw [if_pos hgates] at hph
    have hcount (a : State) : (countSent f a).pws k = if k = n then { a.pws n with frames := inc32 (a.pws n).frames } else a.pws k := by
      rw [countSent, hf]
      exact State.updPws_pws a n k _
    have hsame (m : Nat) : (decide_ (.frame f.id (crc32c f.octets)) s).pws m = s.pws m :=
      pws_of_ph (decide_pair (.frame f.id (crc32c f.octets)) s).ph m
    rw [pws_of_ph hph k, hcount, hsame, hsame]
    by_cases hk : k = n
    · rw [if_pos hk, if_pos ⟨hgates, hk⟩]
    · rw [if_neg hk, if_neg fun h => hk h.2]
  · rw [if_neg hgates] at hph
    rw [pws_of_ph hph k, if_neg fun h => hgates h.1]

/-- The stream after a frame's instant. -/
def afterReport (slot : Nat) (z : PwsRt) : PwsRt := { z with next := slot + 1, digs := z.digs.filter (fun d => slot < d.1) }

/-- The frame of a stream's reports at one instant (R186). -/
def phasorFrame (s : State) (n slot : Nat) (edge : PhEdge) (blocks : List PmuBlk) : OutFrame where
  id := .phasor (be (s.pws n).cfg 4 2) (slotT16 slot)
  octets := udpFrame (s.pws n).hdr (dataFrame s (s.pws n) blocks slot edge) (Config.freeNat slot (256 + n) % 65536)
  ports := [(s.pws n).port]
  cls := internalClass
  owner := wsOwner s n
  stream := some n

/-- The next report of a stream: without usable time suppressed, otherwise released as a frame (R186, R189). -/
theorem dataFrameBuild_next {s : State} {n slot : Nat} {rep : PhRep} {b : PmuBlk} {bs : List PmuBlk}
    (hblocks : (cfgBlocks (s.pws n).cfg (s.pws n).map).1 = b :: bs) (hslot : commonReport s (s.pws n) (b :: bs) = some slot)
    (hrep : (s.grp b.sel).reps.find? (fun q => q.slot == slot) = some rep) :
    (rep.edge.q.toNat % 8 = 0 ∨ rep.edge.q.getLsbD 6 = false → dataFrameBuild n s =
      (s.updPws n (afterReport slot)).updPws n (fun z => { z with supp := inc32 z.supp })) ∧
    (¬(rep.edge.q.toNat % 8 = 0 ∨ rep.edge.q.getLsbD 6 = false) → ∃ f, f.stream = some n ∧
      dataFrameBuild n s = releaseFrame f (s.updPws n (afterReport slot))) := by
  have hunfold : dataFrameBuild n s = if (rep.edge.q.toNat % 8 == 0 || !rep.edge.q.getLsbD 6) = true then
        (s.updPws n (afterReport slot)).updPws n (fun z => { z with supp := inc32 z.supp })
      else releaseFrame (phasorFrame s n slot rep.edge (b :: bs)) (s.updPws n (afterReport slot)) := by
    unfold dataFrameBuild
    dsimp only
    rw [hblocks, hslot]
    simp only [List.head?_cons, Option.map_some, Option.getD_some, hrep]
    rfl
  rw [hunfold]
  refine ⟨fun hbad => if_pos (by simpa using hbad), fun hgood => ⟨_, ?_, if_neg (by simpa using hgood)⟩⟩
  rfl

theorem exec_dataFrameBuild {s : State} {n : Fin 64} (h : alive s = true) : exec (.dataFrameBuild n) s = .next (dataFrameBuild n s) :=
  congrArg _ (live_eq h)

/-- Settles O34: the three commands, and the frame's way by the quality of its time. -/
theorem phasorStreams : Obligations.PhasorStreams := by
  constructor
  · rintro s _ t p r y n rfl hn hlt
    refine ⟨fun cfg map hdr hf hres hhl hport hcfg hframe hmap hhdr hblocks howned hstopped => ?_, fun hf hres howner hrunning => ?_,
      fun hf hres howner => ?_⟩
    · rw [exec_phStreamStart hf, phStreamStartAct_starts hn hlt hres hhl hport hcfg hframe hmap hhdr hblocks howned hstopped]
      have hset (k : Nat) := State.updPws_pws y.1 n k (startedWith cfg hdr (bytesWords map) (fld (dw y.2.words 9) 11 8)
        (firstReport y.1 (cfgBlocks cfg (bytesWords map)).1 (now16 y.1 + 1)))
      refine ⟨_, rfl, ?_, ?_, ?_, ?_, ?_, fun k hk => (hset k).trans (if_neg hk)⟩ <;> rw [hset, if_pos rfl] <;> rfl
    · rw [exec_phStreamStop hf, phStreamStopAct_stops hn hlt hres howner hrunning]
      have hset (k : Nat) := State.updPws_pws y.1 n k (fun y2 => { y2 with running := false, until_ := slotOf (now16 y.1) + 1 })
      refine ⟨_, rfl, ?_, ?_, fun k hk => (hset k).trans (if_neg hk)⟩
      · exact congrArg PwsRt.running ((hset n).trans (if_pos rfl))
      · exact congrArg PwsRt.until_ ((hset n).trans (if_pos rfl))
    · rw [exec_phStreamMark hf, phStreamMarkAct_marks hn hlt hres howner]
  · intro s n slot rep b bs halive hblocks hslot hrep
    obtain ⟨hsupp, hbuilt⟩ := dataFrameBuild_next hblocks hslot hrep
    rw [exec_dataFrameBuild halive]
    have hafter (k : Nat) := State.updPws_pws s n k (afterReport slot)
    by_cases hbad : rep.edge.q.toNat % 8 = 0 ∨ rep.edge.q.getLsbD 6 = false
    · rw [hsupp hbad]
      have hset (k : Nat) := State.updPws_pws (s.updPws n (afterReport slot)) n k (fun z => { z with supp := inc32 z.supp })
      refine ⟨_, rfl, ?_, fun k hk => ?_, rfl, (if_pos hbad).symm ▸ ⟨?_, ?_, rfl⟩⟩
      · rw [hset, if_pos rfl, hafter, if_pos rfl]
        rfl
      · rw [hset, if_neg hk, hafter, if_neg hk]
      · rw [hset, if_pos rfl, hafter, if_pos rfl]
        rfl
      · rw [hset, if_pos rfl, hafter, if_pos rfl]
        rfl
    · obtain ⟨f, hf, he⟩ := hbuilt hbad
      have hpws := releaseFrame_pws hf (s.updPws n (afterReport slot))
      have hgates : gatesOpen (s.updPws n (afterReport slot)) = gatesOpen s := rfl
      rw [he]
      refine ⟨_, rfl, ?_, fun k hk => ?_, (releaseFrame_leaves f _).1,
        (if_neg hbad).symm ▸ ⟨?_, fun hopen => ?_, fun hclosed => ?_⟩⟩
      · rw [hpws]
        split <;> rw [hafter, if_pos rfl] <;> rfl
      · rw [hpws, if_neg fun h => hk h.2, hafter, if_neg hk]
      · rw [hpws]
        split <;> rw [hafter, if_pos rfl] <;> rfl
      · rw [hpws, if_pos ⟨hgates.trans hopen, rfl⟩, hafter, if_pos rfl]
        rfl
      · rw [hpws, if_neg fun h => by simp [hgates, hclosed] at h, hafter, if_pos rfl]
        rfl

end Sys2Proof.Machine
end


section
/-! A released frame leaves the parts of the state alone that neither the green, the pair, the pair's sequence numbers nor a stream's
counts live in (R254, R413). -/

namespace Sys2Proof.Machine

/-- State b differs from state a at most in what the release of frames may change. -/
def SendCalm (a b : State) : Prop :=
  ∃ seqs, Calm { a with gn := b.gn, mc := b.mc, pr := b.pr, ig := b.ig, ph := b.ph, pb := { a.pb with pairSeq := seqs } } b

theorem GreenCalm.sends {a b : State} (h : GreenCalm a b) : SendCalm a b :=
  ⟨a.pb.pairSeq, h.pending, h.tb, h.tu, h.ptp, h.regs, h.cores, h.tx, h.pw, h.st, h.ok, rfl, h.snap, rfl, rfl, rfl, h.fc, h.tg, rfl, h.fl,
    h.fb, h.pb, h.lp⟩

theorem PairCalm.sends {a b : State} (h : PairCalm a b) : SendCalm a b :=
  ⟨a.pb.pairSeq, h.pending, h.tb, h.tu, h.ptp, h.regs, h.cores, h.tx, h.pw, h.st, h.ok, rfl, h.snap, rfl, rfl, rfl, h.fc, h.tg, rfl, h.fl,
    h.fb, h.pb, h.lp⟩

theorem SendCalm.trans {a b c : State} (h : SendCalm a b) (k : SendCalm b c) : SendCalm a c := by
  obtain ⟨_, h⟩ := h
  obtain ⟨seqs, k⟩ := k
  have hpb : c.pb = { a.pb with pairSeq := seqs } := k.pb.trans (congrArg (fun x : PbState => { x with pairSeq := seqs }) h.pb)
  exact ⟨seqs, k.pending.trans h.pending, k.tb.trans h.tb, k.tu.trans h.tu, k.ptp.trans h.ptp, k.regs.trans h.regs, k.cores.trans h.cores,
    k.tx.trans h.tx, k.pw.trans h.pw, k.st.trans h.st, k.ok.trans h.ok, rfl, k.snap.trans h.snap, rfl, rfl, rfl, k.fc.trans h.fc,
    k.tg.trans h.tg, rfl, k.fl.trans h.fl, k.fb.trans h.fb, hpb, k.lp.trans h.lp⟩

/-- A change of the ingest, the streams' counts and the pair's sequence numbers alone. -/
theorem SendCalm.of_eq {s : State} (ig : IgState) (ph : PhState) (seqs : Tbl Nat) :
    SendCalm s { s with ig := ig, ph := ph, pb := { s.pb with pairSeq := seqs } } :=
  ⟨seqs, rfl, rfl, rfl, rfl, rfl, rfl, rfl, rfl, rfl, rfl, rfl, rfl, rfl, rfl, rfl, rfl, rfl, rfl, rfl, rfl, rfl, rfl⟩

theorem dupEnter_sends (q mac m : Nat) (k : DupMark) (s : State) : SendCalm s (dupEnter s q mac m k) := by
  unfold dupEnter
  dsimp only
  split
  · exact .of_eq _ s.ph s.pb.pairSeq
  · split <;> exact .of_eq _ s.ph s.pb.pairSeq

theorem countSent_sends (f : OutFrame) (s : State) : SendCalm s (countSent f s) := by
  unfold countSent
  split <;> exact .of_eq s.ig _ s.pb.pairSeq

theorem sendOut_sends (f : OutFrame) (s : State) : SendCalm s (sendOut f s) := by
  have hcount := countSent_sends f s
  unfold sendOut
  extract_lets x put q mode seq pb y
  have hput (o : Nat → List (BitVec 8)) (a : State) (l : List Nat) : SendCalm a (l.foldl (fun b p => put (o p) p b) a) :=
    ((GreenCalm.refl a).foldl fun b p => enqueue_green ..).sends
  have hy : SendCalm s y := hcount.trans (.of_eq x.ig x.ph _)
  split
  · exact hcount.trans (hput _ x _)
  · split
    · exact hy.trans (hput _ y _)
    · exact (hy.trans (dupEnter_sends ..)).trans (hput _ _ _)

theorem releaseFrame_sends (f : OutFrame) (s : State) : SendCalm s (releaseFrame f s) := by
  have hdecide := (decide_pair (.frame f.id (crc32c f.octets)) s).sends
  have hpu (a : State) (pu : PrRun) : SendCalm a { a with pu := pu } := (PairCalm.of_eq a.pr pu).sends
  unfold releaseFrame
  dsimp only
  split
  · exact hdecide.trans (sendOut_sends ..)
  · split
    · split
      · exact hdecide.trans (hpu _ _)
      · exact hdecide.trans (hpu _ _)
    · exact hdecide

end Sys2Proof.Machine
end

section
/-! The messages of the fault location (R197, R200). -/

namespace Sys2Proof.Machine

theorem exec_detectorArmed {s : State} (h : alive s = true) (l : Fin 32) : exec (.detectorArmed l) s = .next (detectorArmed l s) :=
  congrArg _ (live_eq h)
theorem exec_arrivalsSend {s : State} (h : alive s = true) (l : Fin 32) : exec (.arrivalsSend l) s = .next (arrivalsSend l s) :=
  congrArg _ (live_eq h)
theorem exec_phasorsSend {s : State} (h : alive s = true) (l : Fin 32) : exec (.phasorsSend l) s = .next (phasorsSend l s) :=
  congrArg _ (live_eq h)
theorem exec_messageRepeat {s : State} (h : alive s = true) (l : Fin 32) : exec (.messageRepeat l) s = .next (messageRepeat l s) :=
  congrArg _ (live_eq h)

theorem State.updLine_line_same (s : State) (l : Nat) (f : LineRt → LineRt) : (s.updLine l f).line l = f (s.line l) :=
  (s.updLine_line l l f).trans (if_pos rfl)

theorem State.updLine_line_other (s : State) {l k : Nat} (f : LineRt → LineRt) (h : k ≠ l) : (s.updLine l f).line k = s.line k :=
  (s.updLine_line l k f).trans (if_neg h)

/-- One copy: it is not sent, or the frame of its octets is released (R200). -/
theorem flSendCopy_cases (l : Nat) (m : FlSend) (s : State) :
    flSendCopy l m s = s.winFault (lineCfg s l).owner ∨ flSendCopy l m s = s ∨
    ∃ f, flSendCopy l m s = releaseFrame f (flCount { (if (lineCfg s l).auth = 0 then s else takeUse s (lineCfg s l).kNode) with
      fl.seq := (s.fl.seq + 1) % 2 ^ 32 } l 2) := by
  unfold flSendCopy
  extract_lets
  split
  · exact .inl rfl
  · split
    · exact .inr (.inl rfl)
    · exact .inr (.inr ⟨_, rfl⟩)

/-- The lines and the time after one copy. -/
theorem flSendCopy_lines (l : Nat) (m : FlSend) (s : State) :
    (flSendCopy l m s).fl.lines = s.fl.lines ∧ (flSendCopy l m s).tb = s.tb := by
  obtain h | h | ⟨f, h⟩ := flSendCopy_cases l m s
  · rw [h]
    exact ⟨rfl, rfl⟩
  · rw [h]
    exact ⟨rfl, rfl⟩
  · obtain ⟨_, hsend⟩ := releaseFrame_sends f (flCount { (if (lineCfg s l).auth = 0 then s else takeUse s (lineCfg s l).kNode) with
      fl.seq := (s.fl.seq + 1) % 2 ^ 32 } l 2)
    rw [h]
    refine ⟨(congrArg FlState.lines hsend.fl).trans ?_, hsend.tb.trans ?_⟩
    · show (if (lineCfg s l).auth = 0 then s else takeUse s (lineCfg s l).kNode).fl.lines = s.fl.lines
      split <;> rfl
    · show (if (lineCfg s l).auth = 0 then s else takeUse s (lineCfg s l).kNode).tb = s.tb
      split <;> rfl

theorem State.line_of_lines {a b : State} (h : a.fl.lines = b.fl.lines) (k : Nat) : a.line k = b.line k := by
  rw [State.line, h]
  rfl

theorem flSendCopy_line (l k : Nat) (m : FlSend) (s : State) : (flSendCopy l m s).line k = s.line k :=
  State.line_of_lines (flSendCopy_lines l m s).1 k

/-- A copy of an unauthenticated line whose header can be read takes the next sequence number. -/
theorem flSendCopy_seq {l : Nat} {s : State} (m : FlSend) (hauth : (lineCfg s l).auth = 0)
    (hhdr : (devRead s (lineCfg s l).owner (lineCfg s l).hdr (lineCfg s l).hdrLen).isSome = true) :
    (flSendCopy l m s).fl.seq = (s.fl.seq + 1) % 2 ^ 32 := by
  obtain ⟨hdr, hh⟩ := Option.isSome_iff_exists.mp hhdr
  have hcopy : ∃ f, flSendCopy l m s = releaseFrame f (flCount { s with fl.seq := (s.fl.seq + 1) % 2 ^ 32 } l 2) := by
    unfold flSendCopy
    dsimp only
    rw [hh, hauth]
    exact ⟨_, rfl⟩
  obtain ⟨f, hf⟩ := hcopy
  obtain ⟨_, hsend⟩ := releaseFrame_sends f (flCount { s with fl.seq := (s.fl.seq + 1) % 2 ^ 32 } l 2)
  rw [hf]
  exact congrArg FlState.seq hsend.fl

/-- A started message: its line keeps the copies still to come. -/
theorem flStart_line {l : Nat} {s : State} (ph : Bool) (n : Nat) (oct : Bytes) :
    ((flStart l ph n oct s).line l).sends.length = (s.line l).sends.length + min 1 ((lineCfg s l).repeats - 1) ∧
    (∀ k, k ≠ l → (flStart l ph n oct s).line k = s.line k) ∧
    ((flStart l ph n oct s).line l).owed = (s.line l).owed ∧
    ((flStart l ph n oct s).line l).arrSent = (s.line l).arrSent ∧ ((flStart l ph n oct s).line l).phSent = (s.line l).phSent := by
  unfold flStart
  extract_lets x m s1
  have hline (k : Nat) : s1.line k = s.line k := flSendCopy_line ..
  split
  case isTrue hleft =>
    have hnone : (lineCfg s l).repeats - 1 = 0 := hleft
    refine ⟨?_, fun k _ => hline k, ?_⟩
    · rw [hline, hnone]
      rfl
    · rw [hline]
      exact ⟨rfl, rfl, rfl⟩
  case isFalse hleft =>
    have hsome : min 1 ((lineCfg s l).repeats - 1) = 1 := by
      have : (lineCfg s l).repeats - 1 ≠ 0 := hleft
      omega
    refine ⟨?_, fun k hk => (s1.updLine_line_other _ hk).trans (hline k), ?_⟩
    · rw [s1.updLine_line_same, hline, hsome]
      exact List.length_append
    · rw [s1.updLine_line_same, hline]
      exact ⟨rfl, rfl, rfl⟩

theorem flStart_seq {l : Nat} {s : State} (ph : Bool) (n : Nat) (oct : Bytes) (hauth : (lineCfg s l).auth = 0)
    (hhdr : (devRead s (lineCfg s l).owner (lineCfg s l).hdr (lineCfg s l).hdrLen).isSome = true) :
    (flStart l ph n oct s).fl.seq = (s.fl.seq + 1) % 2 ^ 32 := by
  unfold flStart
  extract_lets x m s1
  have hseq : s1.fl.seq = (s.fl.seq + 1) % 2 ^ 32 := flSendCopy_seq _ hauth hhdr
  split
  · exact hseq
  · exact hseq

theorem sendArrivals_starts (l : Nat) (o : FlOwed) (s : State) : ∃ oct, sendArrivals l o s = flStart l false o.evSeq oct s := ⟨_, rfl⟩

theorem sendPhasors_starts {l : Nat} {o : FlOwed} (h : o.fault.isSome = true) (s : State) :
    ∃ oct, sendPhasors l o s = flStart l true o.evSeq oct s := by
  obtain ⟨f, hf⟩ := Option.isSome_iff_exists.mp h
  unfold sendPhasors
  rw [hf]
  exact ⟨_, rfl⟩

section
variable {s : State} {l : Nat}

theorem detectorArmed_arms (h : 1024 ≤ (s.line l).valid) : detectorArmed l s = s.updLine l (fun y => { y with armed := true }) := if_pos h

theorem arrivalsSend_owed {o : FlOwed} (hfind : (s.line l).owed.find? (fun z => z.phasors == false) = some o)
    (hvalid : (lineCfg s l).valid = true) (hsend : (lineCfg s l).send = true) (hcovers : flCovers s (lineCfg s l) o.stop = true) :
    arrivalsSend l s = sendArrivals l o (dropOwed l o s) := by
  unfold arrivalsSend
  dsimp only
  rw [show owedMsg l false s = some o from hfind]
  dsimp only
  rw [hvalid, hsend, hcovers]
  rfl

theorem arrivalsSend_event {a : Arr} (howed : (s.line l).owed = []) (ht1 : evT1 (s.line l) = some a) (hsend : (lineCfg s l).send = true)
    (hnew : (s.line l).arrSent = false) (hopen : (s.line l).st = .open_)
    (hcovers : flCovers s (lineCfg s l) (a.t16 + (lineCfg s l).cover) = true) :
    ∃ o, arrivalsSend l s = sendArrivals l o (s.updLine l (fun y => { y with arrSent := true })) := by
  have hnone : owedMsg l false s = none := by rw [owedMsg, howed]; rfl
  unfold arrivalsSend
  dsimp only
  rw [hnone]
  dsimp only
  rw [ht1]
  dsimp only
  rw [hsend, hnew, hopen, hcovers]
  exact ⟨_, rfl⟩

theorem phasorsSend_event (howed : (s.line l).owed = []) (hfault : (s.line l).fault.isSome = true) (hsend : (lineCfg s l).send = true)
    (himp : (lineCfg s l).imp = true) (hnew : (s.line l).phSent = false) (hopen : (s.line l).st = .open_) :
    ∃ o, o.fault = (s.line l).fault ∧ phasorsSend l s = sendPhasors l o (s.updLine l (fun y => { y with phSent := true })) := by
  have hnone : owedMsg l true s = none := by rw [owedMsg, howed]; rfl
  have hsome : (s.line l).fault.isNone = false := by rw [Option.isNone_eq_false_iff]; exact hfault
  unfold phasorsSend
  dsimp only
  rw [hnone]
  dsimp only
  rw [hsend, himp, hnew, hopen, hsome]
  exact ⟨_, rfl, rfl⟩

end

/-- The copy that is due first, by the model's search. -/
def firstDue (a : Option FlSend) (m : FlSend) : Option FlSend :=
  match a with
  | none => some m
  | some b => some (if m.next < b.next then m else b)

theorem foldl_firstDue {m : FlSend} {r : List FlSend} (h : ∀ o ∈ r, m.next ≤ o.next) : r.foldl firstDue (some m) = some m := by
  induction r with
  | nil => rfl
  | cons o r ih =>
    have ho : firstDue (some m) o = some m := congrArg some (if_neg (Nat.not_lt.mpr (h o List.mem_cons_self)))
    rw [List.foldl_cons, ho]
    exact ih fun x hx => h x (List.mem_cons_of_mem o hx)

/-- The copies left after one has gone. -/
def sendsAfter (m m1 : FlSend) (l : List FlSend) : List FlSend := (l.map (fun o => if o = m then m1 else o)).filter (fun o => 0 < o.left)

theorem sendsAfter_cons {m m1 : FlSend} {r : List FlSend} (hnew : m ∉ r) (hleft : ∀ o ∈ r, 0 < o.left) :
    sendsAfter m m1 (m :: r) = (if 0 < m1.left then [m1] else []) ++ r := by
  have hmap : r.map (fun o => if o = m then m1 else o) = r :=
    (List.map_congr_left fun o ho => if_neg fun he => hnew (by rwa [he] at ho)).trans (List.map_id r)
  have hfilter : r.filter (fun o => decide (0 < o.left)) = r := List.filter_eq_self.mpr fun o ho => decide_eq_true (hleft o ho)
  unfold sendsAfter
  rw [List.map_cons, if_pos rfl, hmap, List.filter_cons, hfilter]
  by_cases h : 0 < m1.left
  · simp [h]
  · simp [h]

theorem State.pass_line (s : State) (n l : Nat) : (s.pass n).line l = s.line l := rfl

theorem messageRepeat_due {s : State} {l : Nat} {m : FlSend} {r : List FlSend} (hsends : (s.line l).sends = m :: r)
    (hfirst : ∀ o ∈ r, m.next ≤ o.next) :
    messageRepeat l s = flSendCopy l m ((s.waitUntil m.next).updLine l (fun y => { y with
      sends := sendsAfter m { m with left := m.left - 1, next := m.next + ms16 1, copy := m.copy + 1 } y.sends })) := by
  have hdue : (s.line l).sends.foldl firstDue none = some m := by
    rw [hsends]
    exact foldl_firstDue hfirst
  have hunfold : messageRepeat l s = match (s.line l).sends.foldl firstDue none with
      | none => s
      | some m => flSendCopy l m ((s.waitUntil m.next).updLine l (fun y => { y with
          sends := sendsAfter m { m with left := m.left - 1, next := m.next + ms16 1, copy := m.copy + 1 } y.sends })) := rfl
  rw [hunfold, hdue]

theorem messageRepeat_leaves {s : State} {l : Nat} {m : FlSend} {r : List FlSend} (hsends : (s.line l).sends = m :: r)
    (hfirst : ∀ o ∈ r, m.next ≤ o.next) (hnew : m ∉ r) (hleft : ∀ o ∈ r, 0 < o.left) :
    (messageRepeat l s).tb = (s.waitUntil m.next).tb ∧ ((messageRepeat l s).line l).sends =
      (if 1 < m.left then [{ m with left := m.left - 1, next := m.next + ms16 1, copy := m.copy + 1 }] else []) ++ r := by
  rw [messageRepeat_due hsends hfirst]
  refine ⟨(flSendCopy_lines ..).2, ?_⟩
  obtain ⟨n, hn⟩ := s.waitUntil_eq_pass m.next
  rw [flSendCopy_line, State.updLine_line_same, hn, State.pass_line, hsends]
  dsimp only
  rw [sendsAfter_cons hnew hleft]
  have hiff : 0 < m.left - 1 ↔ 1 < m.left := by omega
  simp only [hiff]

/-- Settles O35: the detector, the owed message, the open event's two messages and a repeated copy. -/
theorem faultMessages : Obligations.FaultMessages := by
  intro s l halive
  refine ⟨fun h => ?_, fun o hfind hvalid hsend hcovers => ?_, fun a howed ht1 hsend hnew hopen hcovers => ?_,
    fun howed hfault hsend himp hnew hopen => ?_, fun m r hsends hfirst hnew hleft => ?_⟩
  · rw [exec_detectorArmed halive, detectorArmed_arms h]
  · rw [exec_arrivalsSend halive, arrivalsSend_owed hfind hvalid hsend hcovers]
    obtain ⟨oct, hstart⟩ := sendArrivals_starts l o (dropOwed l o s)
    obtain ⟨hlen, hother, howed, -, -⟩ := flStart_line (l := l) (s := dropOwed l o s) false o.evSeq oct
    have hdrop := s.updLine_line_same l (fun y => { y with owed := y.owed.filter (fun x => x != o) })
    rw [hstart]
    refine ⟨_, rfl, howed.trans (congrArg LineRt.owed hdrop), hlen.trans ?_, fun k hk => (hother k hk).trans (s.updLine_line_other _ hk)⟩
    rw [dropOwed, hdrop]
    rfl
  · rw [exec_arrivalsSend halive]
    obtain ⟨o, ho⟩ := arrivalsSend_event howed ht1 hsend hnew hopen hcovers
    obtain ⟨oct, hstart⟩ := sendArrivals_starts l o (s.updLine l (fun y => { y with arrSent := true }))
    obtain ⟨hlen, hother, -, hsent, -⟩ := flStart_line (l := l) (s := s.updLine l (fun y => { y with arrSent := true })) false o.evSeq oct
    have hset := s.updLine_line_same l (fun y => { y with arrSent := true })
    rw [ho, hstart]
    refine ⟨_, rfl, hsent.trans (congrArg LineRt.arrSent hset), hlen.trans ?_, fun k hk => (hother k hk).trans (s.updLine_line_other _ hk),
      fun hauth hhdr => flStart_seq false o.evSeq oct hauth hhdr⟩
    rw [hset]
    rfl
  · rw [exec_phasorsSend halive]
    obtain ⟨o, hof, ho⟩ := phasorsSend_event howed hfault hsend himp hnew hopen
    obtain ⟨oct, hstart⟩ := sendPhasors_starts (l := l) (o := o) (hof ▸ hfault) (s.updLine l (fun y => { y with phSent := true }))
    obtain ⟨hlen, hother, -, -, hsent⟩ := flStart_line (l := l) (s := s.updLine l (fun y => { y with phSent := true })) true o.evSeq oct
    have hset := s.updLine_line_same l (fun y => { y with phSent := true })
    rw [ho, hstart]
    refine ⟨_, rfl, hsent.trans (congrArg LineRt.phSent hset), hlen.trans ?_, fun k hk => (hother k hk).trans (s.updLine_line_other _ hk),
      fun hauth hhdr => flStart_seq true o.evSeq oct hauth hhdr⟩
    rw [hset]
    rfl
  · rw [exec_messageRepeat halive]
    obtain ⟨htb, hleftover⟩ := messageRepeat_leaves hsends hfirst hnew hleft
    exact ⟨_, rfl, htb, hleftover⟩

end Sys2Proof.Machine
end


section
/-! The results of an event and its close (R199, R202 to R208). -/

namespace Sys2Proof.Machine

section
variable {s : State} (h : alive s = true) (l : Fin 32)
include h

theorem exec_remoteWaitExpiry : exec (.remoteWaitExpiry l) s = .next (remoteWait l s) := congrArg _ (live_eq h)
theorem exec_seImp : exec (.seImp l) s = .next (seImp l s) := congrArg _ (live_eq h)
theorem exec_eventClose : exec (.eventClose l) s = .next (eventClose l s) := congrArg _ (live_eq h)

end

/-! The results of a line change no other line and take no time. -/

/-- From state a to state b no time passes, and the lines other than l stay. -/
def OnlyLine (l : Nat) (a b : State) : Prop := (∀ k, k ≠ l → b.line k = a.line k) ∧ b.tb = a.tb

theorem OnlyLine.refl (l : Nat) (s : State) : OnlyLine l s s := ⟨fun _ _ => rfl, rfl⟩

theorem OnlyLine.trans {l : Nat} {a b c : State} (h : OnlyLine l a b) (k : OnlyLine l b c) : OnlyLine l a c :=
  ⟨fun j hj => (k.1 j hj).trans (h.1 j hj), k.2.trans h.2⟩

theorem OnlyLine.upd (l : Nat) (f : LineRt → LineRt) (s : State) : OnlyLine l s (s.updLine l f) :=
  ⟨fun _ hk => s.updLine_line_other f hk, rfl⟩

theorem Calm.line {a b : State} (h : Calm a b) (k : Nat) : b.line k = a.line k := State.line_of_lines (congrArg FlState.lines h.fl) k

theorem OnlyLine.calm {l : Nat} {a b c : State} (h : OnlyLine l a b) (k : Calm b c) : OnlyLine l a c :=
  h.trans ⟨fun j _ => k.line j, k.tb⟩

theorem State.draw_calm (s : State) : Calm s s.draw.2 :=
  ⟨rfl, rfl, rfl, rfl, rfl, rfl, rfl, rfl, rfl, rfl, rfl, rfl, rfl, rfl, rfl, rfl, rfl, rfl, rfl, rfl, rfl, rfl⟩

theorem flRecord_calm (l m : Nat) (summary : Bool) (r : FlRes) (flags : BitVec 16) (s : State) :
    Calm s (flRecord l m summary r flags s) := by
  unfold flRecord
  split
  · exact Calm.refl s
  · exact record_calm s.draw_calm

theorem flClose_only (l c : Nat) (s : State) : OnlyLine l s (flClose l c s) := by
  unfold flClose
  extract_lets z m r s1
  have h1 : OnlyLine l s s1 := (OnlyLine.upd l _ s).calm (flRecord_calm ..)
  exact h1.trans (.upd l _ s1)

/-- A closed line. -/
theorem flClose_line (l c : Nat) (s : State) :
    ((flClose l c s).line l).st = .quiet ∧ ((flClose l c s).line l).arrs = [] ∧ ((flClose l c s).line l).closedAt = c := by
  unfold flClose
  extract_lets z m r s1
  rw [State.updLine_line_same]
  exact ⟨rfl, rfl, rfl⟩

theorem flResult_only (l m : Nat) (r : FlRes) (s : State) : OnlyLine l s (flResult l m r s) := by
  unfold flResult
  split
  · exact .refl l s
  · extract_lets s1 s2
    have h2 : OnlyLine l s s2 := (OnlyLine.upd l _ s).calm (flRecord_calm ..)
    split
    · exact h2.trans (flClose_only ..)
    · exact h2

/-- A line's record with a method's result. -/
def LineRt.withRes (z : LineRt) (m : Nat) (r : FlRes) : LineRt := { z with res := Tbl.set none z.res m (some r) }

theorem resOf_withRes (z : LineRt) (m j : Nat) (r : FlRes) : resOf (z.withRes m r) j = if j = m then some r else resOf z j :=
  Tbl.get_set none m (some r) z.res j

/-- A result of an open event that DE_TW or SE_TW still misses is kept, and closes nothing. -/
theorem flResult_line {l m j : Nat} {s : State} (r : FlRes) (hj : j = 1 ∨ j = 2) (hm : j ≠ m) (hmiss : resOf (s.line l) j = none)
    (hopen : (s.line l).st = .open_) (hnew : resOf (s.line l) m = none) :
    (flResult l m r s).line l = (s.line l).withRes m r := by
  have hgo : ¬((s.line l).st ≠ .open_ ∨ (resOf (s.line l) m).isSome = true) := by simp [hopen, hnew]
  unfold flResult
  rw [if_neg hgo]
  extract_lets s1 s2
  have hline : s2.line l = (s.line l).withRes m r := ((flRecord_calm ..).line l).trans (s.updLine_line_same ..)
  have hstill : resOf (s2.line l) j = none := by
    rw [hline, resOf_withRes, if_neg hm, hmiss]
  have hdone : allDone (lineCfg s l) (s2.line l) = false := by
    unfold allDone
    obtain rfl | rfl := hj <;> simp [hstill]
  rw [hdone]
  exact hline

/-- A result that is there already, or of a line without an event, changes nothing. -/
theorem flResult_none {l m : Nat} {s : State} (r : FlRes) (h : (s.line l).st ≠ .open_ ∨ (resOf (s.line l) m).isSome = true) :
    flResult l m r s = s := if_pos h

theorem seTw_cases (l : Nat) (s : State) : seTw l s = s ∨ ∃ r, seTw l s = flResult l 2 r s := by
  unfold seTw
  dsimp only
  split
  · exact .inl rfl
  · split
    · exact .inr ⟨_, rfl⟩
    · split
      · split <;> exact .inr ⟨_, rfl⟩
      · exact .inr ⟨_, rfl⟩

/-- The state s, or s with a free value drawn. -/
def DrawnFrom (s a : State) : Prop := a = s ∨ a = s.draw.2

theorem DrawnFrom.calm {s a : State} (h : DrawnFrom s a) : Calm s a := by
  obtain rfl | rfl := h
  · exact Calm.refl a
  · exact s.draw_calm

theorem deImp_cases (l : Nat) (s : State) : deImp l s = s ∨ ∃ r a, DrawnFrom s a ∧ deImp l s = flResult l 3 r a := by
  unfold deImp
  dsimp only
  split
  · split
    · exact .inr ⟨_, s, .inl rfl, rfl⟩
    · split
      · exact .inr ⟨_, s, .inl rfl, rfl⟩
      · split
        · exact .inr ⟨_, s, .inl rfl, rfl⟩
        · exact .inr ⟨_, _, ite_eq_or_eq .., rfl⟩
  · exact .inl rfl

theorem seTw_only (l : Nat) (s : State) : OnlyLine l s (seTw l s) := by
  obtain h | ⟨r, h⟩ := seTw_cases l s <;> rw [h]
  · exact .refl l s
  · exact flResult_only ..

theorem deImp_only (l : Nat) (s : State) : OnlyLine l s (deImp l s) := by
  obtain h | ⟨r, a, ha, h⟩ := deImp_cases l s <;> rw [h]
  · exact .refl l s
  · exact ((OnlyLine.refl l s).calm ha.calm).trans (flResult_only ..)

theorem flForce_only (l : Nat) (s : State) : OnlyLine l s (flForce l s) := by
  unfold flForce
  extract_lets x s1 s2 s3
  have h1 : OnlyLine l s s1 := flResult_only ..
  have h2 : OnlyLine l s s2 := by
    show OnlyLine l s (if x.imp then _ else _)
    split
    · exact h1.trans (flResult_only ..)
    · exact h1
  have h3 : OnlyLine l s s3 := h2.trans (seTw_only ..)
  split
  · exact h3.trans (flResult_only ..)
  · exact h3

/-! The wait for the remote end. -/

theorem State.waitUntil_line (s : State) (t l : Nat) : (s.waitUntil t).line l = s.line l := by
  obtain ⟨n, hn⟩ := s.waitUntil_eq_pass t
  rw [hn]
  exact s.pass_line n l

/-- The fixed reference instant of a line (R205) leaves its results. -/
theorem fixRef_line (l : Nat) (s : State) : ∃ t, (fixRef l s).line l = { s.line l with tRef := t } := ⟨_, s.updLine_line_same ..⟩

theorem remoteWait_event {s : State} {l : Nat} {a : Arr} (hopen : (s.line l).st = .open_) (ht1 : evT1 (s.line l) = some a)
    (hres : resOf (s.line l) 1 = none) (hheld : (s.line l).held = []) :
    remoteWait l s = flResult l 1 { status := stNotReady, flags := 8 } (fixRef l (s.waitUntil (a.t16 + ms16 (lineCfg s l).wait))) := by
  unfold remoteWait
  dsimp only
  rw [hopen, ht1, hres, hheld]
  rfl

theorem remoteWait_held {s : State} {l : Nat} {m : ArrMsg} {r : List ArrMsg} (hquiet : (s.line l).st ≠ .open_)
    (hheld : (s.line l).held = m :: r) :
    remoteWait l s = lineDelta l (flCount ((s.waitUntil (m.rx + ms16 (lineCfg s l).wait)).updLine l
      (fun y => { y with held := y.held.filter (fun o => o != m) })) l 8) := by
  unfold remoteWait
  dsimp only
  rw [hheld]
  cases hst : (s.line l).st
  case open_ => exact absurd hst hquiet
  case quiet => rfl
  case closing => rfl

theorem flCount_line (s : State) (l i k : Nat) : (flCount s l i).line k = s.line k := rfl

theorem lineDelta_calm (l : Nat) (s : State) : Calm s (lineDelta l s) := deltaSend_calm (Calm.refl s)

/-! SE_IMP. -/

/-- A line's event without a result of DE_TW, with a given result of SE_IMP. -/
def ImpHeld (a : FlRes) (f : Option FaultPh) (z : LineRt) : Prop :=
  z.st = .open_ ∧ resOf z 1 = none ∧ resOf z 4 = some a ∧ z.fault = f

theorem ImpHeld.flResult {l m : Nat} {a : FlRes} {f : Option FaultPh} {s : State} (h : ImpHeld a f (s.line l)) (r : FlRes) (h1 : m ≠ 1)
    (h4 : m ≠ 4) : ImpHeld a f ((flResult l m r s).line l) := by
  obtain ⟨hopen, hde, himp, hfault⟩ := h
  cases hm : resOf (s.line l) m with
  | some x =>
    rw [flResult_none r (.inr (by rw [hm]; rfl))]
    exact ⟨hopen, hde, himp, hfault⟩
  | none =>
    rw [flResult_line r (.inl rfl) h1.symm hde hopen hm]
    have hkeep (j : Nat) (hj : j ≠ m) := (resOf_withRes (s.line l) m j r).trans (if_neg hj)
    exact ⟨hopen, (hkeep 1 h1.symm).trans hde, (hkeep 4 h4.symm).trans himp, hfault⟩

theorem seImpEnd_held {l : Nat} {s : State} (r : FlRes) (hopen : (s.line l).st = .open_) (hde : resOf (s.line l) 1 = none)
    (hnew : resOf (s.line l) 4 = none) : ImpHeld r (s.line l).fault ((seImpEnd l r s).line l) := by
  have h4 : ImpHeld r (s.line l).fault ((flResult l 4 r s).line l) := by
    rw [flResult_line r (.inl rfl) (by decide) hde hopen hnew]
    exact ⟨hopen, (resOf_withRes ..).trans hde, resOf_withRes .., rfl⟩
  have h2 : ImpHeld r (s.line l).fault ((seTw l (flResult l 4 r s)).line l) := by
    obtain h | ⟨q, h⟩ := seTw_cases l (flResult l 4 r s) <;> rw [h]
    · exact h4
    · exact h4.flResult q (by decide) (by decide)
  unfold seImpEnd
  obtain h | ⟨q, a, ha, h⟩ := deImp_cases l (seTw l (flResult l 4 r s)) <;> rw [h]
  · exact h2
  · exact ImpHeld.flResult (by rwa [ha.calm.line]) q (by decide) (by decide)

theorem seImpEnd_tb (l : Nat) (r : FlRes) (s : State) : (seImpEnd l r s).tb = s.tb :=
  (((flResult_only l 4 r s).trans (seTw_only ..)).trans (deImp_only ..)).2

section
variable {s : State} {l tr : Nat} {rf : PhRep} (href : (s.line l).tRef = some tr) (himp : (lineCfg s l).imp = true)
  (hopen : (s.line l).st = .open_) (hnew : resOf (s.line l) 4 = none)
  (hrf : repAt s (lineCfg s l).grp (faultSlot (grpCfg s (lineCfg s l).grp) tr (lineCfg s l).phDelay) = some rf)
include href himp hopen hnew hrf

/-- Without the report before the fault SE_IMP has no result (R205). -/
theorem seImp_noPre (hrp : repAt s (lineCfg s l).grp (preSlot (grpCfg s (lineCfg s l).grp) tr) = none) :
    seImp l s = seImpEnd l { status := stNotReady, flags := if qInvalid (linePhs (lineCfg s l) rf).2.1 then 0x40 else 0 } s := by
  unfold seImp
  dsimp only
  rw [href]
  dsimp only
  rw [himp, hopen, hnew, hrf]
  dsimp only
  rw [hrp]
  rfl

/-- With valid and settled phasors of both instants SE_IMP ends DONE with a distance (R206). -/
theorem seImp_both {rp : PhRep} (hrp : repAt s (lineCfg s l).grp (preSlot (grpCfg s (lineCfg s l).grp) tr) = some rp)
    (hq : qInvalid (mergeQ [(linePhs (lineCfg s l) rf).2.1, (linePhs (lineCfg s l) rp).2.1]) = false)
    (hf : (linePhs (lineCfg s l) rf).2.2 = true) (hp : (linePhs (lineCfg s l) rp).2.2 = true) :
    ∃ fp m tag a, DrawnFrom (s.updLine l (fun y => { y with fault := some fp })) a ∧
      seImp l s = seImpEnd l (impResult (lineCfg s l) m tag 0) a := by
  unfold seImp
  dsimp only
  rw [href]
  dsimp only
  rw [himp, hopen, hnew, hrf]
  dsimp only
  rw [hrp]
  dsimp only
  rw [hq, hf, hp]
  rw [if_neg (by decide), if_neg (by decide), if_neg (by decide)]
  exact ⟨_, _, _, _, ite_eq_or_eq .., rfl⟩

end

/-! The close. -/

/-- An event that is open, or whose line has been made quiet. -/
def OpenOrQuiet (z : LineRt) : Prop := z.st = .open_ ∨ (z.st = .quiet ∧ z.arrs = [])

theorem OpenOrQuiet.flResult {l : Nat} {s : State} (h : OpenOrQuiet (s.line l)) (m : Nat) (r : FlRes) :
    OpenOrQuiet ((flResult l m r s).line l) := by
  obtain hopen | hquiet := h
  · unfold Sys2Proof.Machine.flResult
    split
    · exact .inl hopen
    · extract_lets s1 s2
      split
      · obtain ⟨hst, harrs, -⟩ := flClose_line l (now16 s2) s2
        exact .inr ⟨hst, harrs⟩
      · refine .inl ?_
        rw [(flRecord_calm ..).line l, State.updLine_line_same]
        exact hopen
  · rw [flResult_none r (.inl (by rw [hquiet.1]; decide))]
    exact .inr hquiet

theorem OpenOrQuiet.seTw {l : Nat} {s : State} (h : OpenOrQuiet (s.line l)) : OpenOrQuiet ((seTw l s).line l) := by
  obtain he | ⟨r, he⟩ := seTw_cases l s <;> rw [he]
  · exact h
  · exact h.flResult ..

theorem OpenOrQuiet.flForce {l : Nat} {s : State} (h : OpenOrQuiet (s.line l)) : OpenOrQuiet ((flForce l s).line l) := by
  unfold Sys2Proof.Machine.flForce
  extract_lets x s1 s2 s3
  have h1 : OpenOrQuiet (s1.line l) := h.flResult ..
  have h2 : OpenOrQuiet (s2.line l) := by
    show OpenOrQuiet ((if x.imp then _ else _ : State).line l)
    split
    · exact h1.flResult ..
    · exact h1
  have h3 : OpenOrQuiet (s3.line l) := h2.seTw
  split
  · exact h3.flResult ..
  · exact h3

theorem eventClose_open {s : State} {l : Nat} {a : Arr} (hopen : (s.line l).st = .open_) (ht1 : evT1 (s.line l) = some a) {k : Nat}
    (hk : k = slotCeil (a.t16 + ms16 (lineCfg s l).close)) :
    eventClose l s = if ((flForce l (s.waitSlot k)).line l).st = .open_ then flClose l (slotT16 k) (flForce l (s.waitSlot k))
      else (flForce l (s.waitSlot k)).updLine l (fun y => { y with closedAt := slotT16 k }) := by
  subst hk
  unfold eventClose
  dsimp only
  rw [hopen, ht1]

theorem eventClose_quiet {s : State} {l : Nat} {a : Arr} (hopen : (s.line l).st = .open_) (ht1 : evT1 (s.line l) = some a) {k : Nat}
    (hk : k = slotCeil (a.t16 + ms16 (lineCfg s l).close)) :
    ((eventClose l s).line l).st = .quiet ∧ ((eventClose l s).line l).arrs = [] ∧ ((eventClose l s).line l).closedAt = slotT16 k ∧
    (eventClose l s).tb = (s.waitSlot k).tb := by
  rw [eventClose_open hopen ht1 hk]
  have hforce : OpenOrQuiet ((flForce l (s.waitSlot k)).line l) := OpenOrQuiet.flForce (.inl hopen)
  have htb : (flForce l (s.waitSlot k)).tb = (s.waitSlot k).tb := (flForce_only ..).2
  split
  · obtain ⟨hst, harrs, hat⟩ := flClose_line l (slotT16 k) (flForce l (s.waitSlot k))
    exact ⟨hst, harrs, hat, (flClose_only ..).2.trans htb⟩
  case isFalse hshut =>
    obtain ⟨hst, harrs⟩ := hforce.resolve_left hshut
    rw [State.updLine_line_same]
    exact ⟨hst, harrs, rfl, htb⟩

/-- Settles O36: the two expiries, the two ends of SE_IMP and the close. -/
theorem faultResults : Obligations.FaultResults := by
  intro s l halive
  refine ⟨fun a hopen ht1 hde htw hheld => ?_, fun m r hquiet hheld => ?_, fun tr rf href himp hopen hde hnew hrf => ⟨fun hrp => ?_,
    fun rp hrp hq hf hp => ?_⟩, fun a hopen ht1 => ?_⟩
  · rw [exec_remoteWaitExpiry halive, remoteWait_event hopen ht1 hde hheld]
    have hwait := s.waitUntil_line (a.t16 + ms16 (lineCfg s l).wait)
    obtain ⟨t, ht⟩ := fixRef_line l (s.waitUntil (a.t16 + ms16 (lineCfg s l).wait))
    rw [hwait] at ht
    obtain ⟨hother, htb⟩ := (OnlyLine.upd l _ (s.waitUntil (a.t16 + ms16 (lineCfg s l).wait))).trans
      (flResult_only l 1 { status := stNotReady, flags := 8 } (fixRef l (s.waitUntil (a.t16 + ms16 (lineCfg s l).wait))))
    refine ⟨_, rfl, ?_, htb, fun k hk => (hother k hk).trans (hwait k)⟩
    rw [flResult_line (j := 2) _ (.inr rfl) (by decide) (by rw [ht]; exact htw) (by rw [ht]; exact hopen) (by rw [ht]; exact hde)]
    exact (resOf_withRes ..).trans (if_pos rfl)
  · rw [exec_remoteWaitExpiry halive, remoteWait_held hquiet hheld]
    have hwait := s.waitUntil_line (m.rx + ms16 (lineCfg s l).wait)
    refine ⟨_, rfl, ?_, (lineDelta_calm ..).tb, ?_⟩
    · rw [(lineDelta_calm ..).line]
      rw [flCount_line, State.updLine_line_same, hwait, hheld]
      simp
    · rw [(lineDelta_calm ..).fl]
      refine (Tbl.get_upd ..).trans ((if_pos rfl).trans ?_)
      obtain ⟨n, hn⟩ := s.waitUntil_eq_pass (m.rx + ms16 (lineCfg s l).wait)
      rw [hn]
      rfl
  · rw [exec_seImp halive, seImp_noPre href himp hopen hnew hrf hrp]
    obtain ⟨-, -, hres, -⟩ := seImpEnd_held _ hopen hde hnew
    exact ⟨_, rfl, hres, seImpEnd_tb ..⟩
  · rw [exec_seImp halive]
    obtain ⟨fp, m, tag, a, ha, he⟩ := seImp_both href himp hopen hnew hrf hrp hq hf hp
    have hset : a.line l = { s.line l with fault := some fp } := (ha.calm.line l).trans (s.updLine_line_same ..)
    obtain ⟨-, -, hres, hfault⟩ := seImpEnd_held (l := l) (s := a) (impResult (lineCfg s l) m tag 0) (by rwa [hset]) (by rwa [hset])
      (by rwa [hset])
    rw [he]
    refine ⟨_, _, rfl, hres, rfl, rfl, ?_, (seImpEnd_tb ..).trans ha.calm.tb⟩
    rw [hfault, hset]
    rfl
  · rw [exec_eventClose halive]
    obtain ⟨hst, harrs, hat, htb⟩ := eventClose_quiet hopen ht1 rfl
    exact ⟨_, rfl, hst, harrs, hat, htb⟩

end Sys2Proof.Machine
end


section
/-! FB_CMD and FB_FORCE (R232 to R235, R241). -/

namespace Sys2Proof.Machine

theorem Calm.fbe {a b : State} (h : Calm a b) (k : Nat) : b.fbe k = a.fbe k := by
  rw [State.fbe, h.fb]
  rfl

theorem fbEnd_calm (p r : Nat) (f : Flight) (st : Nat) (s : State) : Calm s (fbEnd p r f st s) := deltaSend_calm (finish_calm (Calm.refl s))

theorem State.updFbe_same (s : State) (h : Nat) (f : FbRt → FbRt) : (s.updFbe h f).fbe h = f (s.fbe h) :=
  (s.updFbe_fbe h h f).trans (if_pos rfl)

theorem State.updFbe_other (s : State) {h g : Nat} (f : FbRt → FbRt) (hg : g ≠ h) : (s.updFbe h f).fbe g = s.fbe g :=
  (s.updFbe_fbe h g f).trans (if_neg hg)

/-- An update of a hearth's engine is fixed by its effect on that engine. -/
theorem State.updFbe_congr {s : State} {h : Nat} {f g : FbRt → FbRt} (he : f (s.fbe h) = g (s.fbe h)) : s.updFbe h f = s.updFbe h g := by
  have hput : Tbl.upd {} s.fb.fbes h f = Tbl.upd {} s.fb.fbes h g := by
    unfold Tbl.upd
    exact congrArg _ he
  unfold State.updFbe
  rw [hput]

section
variable {x : State} {p r : Nat} {y : State × Flight} {k : FbCmdKind}

theorem fbCmdIs_of_fetched (h : CmdFetched x p r y k) (c : RingCfg) : fbCmdIs k c y.2.words = true := by
  obtain ⟨⟨-, -, hop⟩, -, hkind, -⟩ := h
  unfold fbCmdIs
  rw [hop, hkind]
  simp

theorem withDesc_fbCmd (h : CmdFetched x p r y k) : withDesc x p r (fbCmdIs k) (fbCmdAct p r) = fbCmdAct p r y.1 y.2 :=
  withDesc_eq h.1 (fbCmdIs_of_fetched h _)

/-- An accepted command waits for the first cycle after its fetch (R232). -/
theorem fbCmdAct_waits (h : CmdFetched x p r y k) (hactive : isStandby y.1 = false) : CmdWaits y p r k (fbCmdAct p r y.1 y.2) := by
  obtain ⟨-, hres, hkind, hstatus⟩ := h
  have hwith : fbCmdWith p (64 * p + r) y.2.id y.2.words y.1 = (y.1.updFbe (fbHearth y.2.words) (fun z => { z with
      cmds := z.cmds ++ [{ kind := k, key := 64 * p + r, flight := y.2.id, slot := nextSlotOf y.1 }] }), stDone) := by
    unfold fbCmdWith
    dsimp only
    rw [hres, hkind]
    dsimp only
    rw [if_pos hstatus, hstatus]
  have hact : fbCmdAct p r y.1 y.2 = deltaSend (.fbe (64 * p + r) (fbHearth y.2.words) y.2.words none) stDone
      (y.1.updFbe (fbHearth y.2.words) (fun z => { z with
        cmds := z.cmds ++ [{ kind := k, key := 64 * p + r, flight := y.2.id, slot := nextSlotOf y.1 }] })) := by
    unfold fbCmdAct
    dsimp only
    rw [hwith, hactive]
    rfl
  have hset := y.1.updFbe_same (fbHearth y.2.words) (fun z => { z with
        cmds := z.cmds ++ [{ kind := k, key := 64 * p + r, flight := y.2.id, slot := nextSlotOf y.1 }] })
  rw [hact]
  have hcalm {a : State} : Calm a (deltaSend (.fbe (64 * p + r) (fbHearth y.2.words) y.2.words none) stDone a) := deltaSend_calm (Calm.refl a)
  refine ⟨?_, ?_, fun g hg => ?_, deltaSend_db .., hcalm.regs⟩
  · rw [hcalm.fbe, hset]
  · rw [hcalm.fbe, hset]
  · rw [hcalm.fbe, State.updFbe_other _ _ hg]

end

section
variable {s : State} {t : Nat} {p : PartId} {r : RingNo} {y : State × Flight}

theorem exec_fbForce (h : Fetches (s.runTo t) p r 0x93 y) (hset : bit (dw y.2.words 4) 0 = false) :
    exec (.fbForce t p r) s = .next (fbForceAct p r y.1 y.2) := by
  obtain ⟨_, _, hop⟩ := id h
  exact congrArg _ (withDesc_eq h (by simp [hop, hset]))

theorem exec_fbForceRelease (h : Fetches (s.runTo t) p r 0x93 y) (hrel : bit (dw y.2.words 4) 0 = true) :
    exec (.fbForceRelease t p r) s = .next (fbForceAct p r y.1 y.2) := by
  obtain ⟨_, _, hop⟩ := id h
  exact congrArg _ (withDesc_eq h (by simp [hop, hrel]))

end

section
variable {s : State} {p r h : Nat} {f : Flight} (hh : h = fbHearth f.words) (hactive : isStandby s = false)
  (hres : reservedOk f.words fbMask0 [(2, 0xFFFFFFFF), (3, 0xFFFFFFFF), (4, 1)] = true) (htarget : forceTargetOk (dw f.words 2) = true)
  (howner : hearthOwner s h = p) (hclass : partClass s p = 1) (htest : (s.fbe h).test = true)
include hh hactive hres htarget howner hclass htest

theorem fbForceAct_adds (hset : bit (dw f.words 4) 0 = false)
    (hnew : (s.fbe h).forces.any (fun g => g.target == refBare (dw f.words 2)) = false) (hroom : (s.fbe h).forces.length < 64) :
    fbForceAct p r s f = fbEnd p r f stDone (raiseFlag (s.updFbe h (fun y => { y with
      forces := y.forces ++ [{ target := refBare (dw f.words 2), value := dw f.words 3, at_ := s.tb.edge }] })) 14) := by
  unfold fbForceAct fbForceWith
  dsimp only
  rw [← hh, hres, htarget, howner, hclass, htest, hset, hnew, hactive]
  simp only [ge_iff_le, Nat.not_le.mpr hroom, Bool.not_true, Bool.false_eq_true, ne_eq, not_true_eq_false, or_self, if_false]

theorem fbForceAct_releases (hrel : bit (dw f.words 4) 0 = true) :
    fbForceAct p r s f = fbEnd p r f stDone (s.updFbe h (fun y => { y with
      forces := y.forces.filter (fun g => g.target != refBare (dw f.words 2)) })) := by
  unfold fbForceAct fbForceWith
  dsimp only
  rw [← hh, hres, htarget, howner, hclass, htest, hrel, hactive]
  simp only [Bool.not_true, Bool.false_eq_true, ne_eq, not_true_eq_false, or_self, if_false, if_true]

end

/-- Settles O37: the six commands wait, and a force is added or released. -/
theorem functionBlockCommands : Obligations.FunctionBlockCommands := by
  rintro s _ t p r y h rfl hh hactive
  refine ⟨fun hf => ?_, fun hf => ?_, fun hf => ?_, fun hf => ?_, fun hf => ?_, fun hf => ?_,
    fun hf hres htarget howner hclass htest => ⟨fun hset hnew hroom => ?_, fun hrel => ?_⟩⟩
  · exact ⟨_, congrArg Host.Outcome.next (withDesc_fbCmd hf), fbCmdAct_waits hf hactive⟩
  · exact ⟨_, congrArg Host.Outcome.next (withDesc_fbCmd hf), fbCmdAct_waits hf hactive⟩
  · exact ⟨_, congrArg Host.Outcome.next (withDesc_fbCmd hf), fbCmdAct_waits hf hactive⟩
  · exact ⟨_, congrArg Host.Outcome.next (withDesc_fbCmd hf), fbCmdAct_waits hf hactive⟩
  · exact ⟨_, congrArg Host.Outcome.next (withDesc_fbCmd hf), fbCmdAct_waits hf hactive⟩
  · exact ⟨_, congrArg Host.Outcome.next (withDesc_fbCmd hf), fbCmdAct_waits hf hactive⟩
  · rw [exec_fbForce hf hset, fbForceAct_adds hh hactive hres htarget howner hclass htest hset hnew hroom]
    have hcalm := fbEnd_calm p r y.2 stDone (raiseFlag (y.1.updFbe h (fun z => { z with
      forces := z.forces ++ [{ target := refBare (dw y.2.words 2), value := dw y.2.words 3, at_ := y.1.tb.edge }] })) 14)
    refine ⟨_, rfl, ?_, fun g hg => (hcalm.fbe g).trans (y.1.updFbe_other _ hg)⟩
    exact congrArg FbRt.forces ((hcalm.fbe h).trans (y.1.updFbe_same h _))
  · rw [exec_fbForceRelease hf hrel, fbForceAct_releases hh hactive hres htarget howner hclass htest hrel]
    have hcalm := fbEnd_calm p r y.2 stDone (y.1.updFbe h (fun z => { z with
      forces := z.forces.filter (fun g => g.target != refBare (dw y.2.words 2)) }))
    refine ⟨_, rfl, ?_, fun g hg => (hcalm.fbe g).trans (y.1.updFbe_other _ hg)⟩
    exact congrArg FbRt.forces ((hcalm.fbe h).trans (y.1.updFbe_same h _))

end Sys2Proof.Machine
end

section
/-! FB_PEEK, FB_POKE and FB_LOAD (R221, R237, R241). -/

namespace Sys2Proof.Machine

section
variable {s : State} {t : Nat} {p : PartId} {r : RingNo} {y : State × Flight}

theorem exec_fbPeek (h : Fetches (s.runTo t) p r 0x94 y) : exec (.fbPeek t p r) s = .next (fbPeekAct p r y.1 y.2) :=
  congrArg _ (withDesc_fetched h (fbPeekAct p r))
theorem exec_fbPoke (h : Fetches (s.runTo t) p r 0x95 y) : exec (.fbPoke t p r) s = .next (fbPokeAct p r y.1 y.2) :=
  congrArg _ (withDesc_fetched h (fbPokeAct p r))
theorem exec_fbLoad (h : Fetches (s.runTo t) p r 0x91 y) : exec (.fbLoad t p r) s = .next (fbLoadAct p r y.1 y.2) :=
  congrArg _ (withDesc_fetched h (fbLoadAct p r))
theorem exec_fbLoadComplete (h : Hearth) (halive : alive (s.runTo t) = true) :
    exec (.fbLoadComplete t h) s = .next (fbLoadComplete h (s.runTo t)) := congrArg _ (live_eq halive)
theorem exec_imageAcknowledged (h : Hearth) (halive : alive (s.runTo t) = true) :
    exec (.imageAcknowledged t h) s = .next (imageAcknowledged h (s.runTo t)) := congrArg _ (live_eq halive)

end

/-- None of the n words from w on belongs to the state of a function block. -/
def Plain (prog : Option FbProg) (w n : Nat) : Prop := ∀ g i, prog = some g → i < n → stateAt g (w + i) = none

theorem Plain.bind {prog : Option FbProg} {w n i : Nat} (h : Plain prog w n) (hi : i < n) :
    prog.bind (fun g => stateAt g (w + i)) = none := by
  cases hp : prog with
  | none => rfl
  | some g => exact h g i hp hi

/-- Taking the first n numbers of a range one by one. -/
theorem flatMap_range_of_le {α : Type} {n m : Nat} (h : n ≤ m) {g : Nat → List α} {f : Nat → α} (hin : ∀ i, i < n → g i = [f i])
    (hout : ∀ i, n ≤ i → g i = []) : (List.range m).flatMap g = (List.range n).map f := by
  induction m, h using Nat.le_induction with
  | base => exact (List.flatMap_congr fun i hi => hin i (List.mem_range.mp hi)).trans List.map_eq_flatMap.symm
  | succ m hle ih => rw [List.range_succ, List.flatMap_append, ih, List.flatMap_singleton, hout m hle, List.append_nil]

theorem pokeGo_plain {g : Option FbProg} {d : Nat} {l : List (Nat × BitVec 32)} (x : FbRt)
    (hl : ∀ e ∈ l, g.bind (fun p => stateAt p e.1) = none) :
    pokeGo g d l x = { x with words := l.foldl (fun a e => setNth a e.1 e.2) x.words } := by
  induction l generalizing x with
  | nil => rfl
  | cons e l ih =>
    obtain ⟨w, v⟩ := e
    have hw : g.bind (fun p => stateAt p w) = none := hl (w, v) List.mem_cons_self
    rw [pokeGo, hw]
    exact ih _ fun e he => hl e (List.mem_cons_of_mem _ he)

section
variable {s : State} {p r h : Nat} {f : Flight} (hh : h = fbHearth f.words) (howner : hearthOwner s h = p)
  (hok : peekOk f.words (s.fbe h) = true) (hplain : Plain (s.fbe h).prog (dw f.words 2).toNat (dw f.words 3).toNat)
include hh howner hok hplain

theorem fbPeekAct_reads (hform : peekForm f.words false = true) (hcount : (dw f.words 3).toNat ≤ 4) :
    fbPeekAct p r s f = complete { s with draws := s.draws + 1 } p r f.id (Wb.mk stDone 0 0
      ((List.range (dw f.words 3).toNat).map (fun i => (8 + i, (s.fbe h).words.getD ((dw f.words 2).toNat + i) 0))) (some (stampNow s)) none) := by
  have hnot : ¬ (dw f.words 3).toNat > 4 := by omega
  unfold fbPeekAct
  extract_lets h' x w n d val past
  have hx : x = s.fbe h := by rw [hh]
  have hwords : (List.range 8).flatMap (fun i => if i < n then [(8 + i, val (w + i))] else past i) =
      (List.range n).map (fun i => (8 + i, x.words.getD (w + i) 0)) := by
    refine flatMap_range_of_le (by show (dw f.words 3).toNat ≤ 8; omega) (fun i hi => ?_) (fun i hi => ?_)
    · have hval : val (w + i) = x.words.getD (w + i) 0 := by
        have hnone : x.prog.bind (fun g => stateAt g (w + i)) = none := by
          rw [hx]
          exact hplain.bind hi
        show (match x.prog.bind (fun g => stateAt g (w + i)) with | some _ => _ | none => _) = _
        rw [hnone]
      rw [if_pos hi, hval]
    · rw [if_neg (Nat.not_lt.mpr hi)]
      exact if_neg fun hp => hnot hp.1
  have hstamp : (if n > 4 then none else some (stampNow s)) = some (stampNow s) := if_neg hnot
  rw [hform, if_neg (by decide), if_neg (by rw [← howner, hh]; exact fun hne => hne rfl), if_neg (by rw [hx, hok]; decide), hwords, hstamp,
    hx]
  rfl

/-- The words of a poke, written. -/
def pokeWords (ws : List (BitVec 32)) (l : List (BitVec 32)) : List (BitVec 32) :=
  (List.range (dw ws 3).toNat).foldl (fun l i => setNth l ((dw ws 2).toNat + i) (dw ws (8 + i))) l

theorem fbPokeAct_writes (hactive : isStandby s = false) (hform : peekForm f.words true = true) (hclass : partClass s p ≠ 1)
    (hmode : (s.fbe h).mode = .hold ∨ (s.fbe h).mode = .stop) :
    fbPokeAct p r s f = fbEnd p r f stDone (s.draw.2.updFbe h (fun x => { x with words := pokeWords f.words x.words })) := by
  have hmode' : ¬((s.fbe h).mode ≠ .hold ∧ (s.fbe h).mode ≠ .stop) := fun hm => hmode.elim hm.1 hm.2
  have hgo : s.draw.2.updFbe h (pokeGo (s.fbe h).prog s.draw.1
        ((List.range (dw f.words 3).toNat).map (fun i => ((dw f.words 2).toNat + i, dw f.words (8 + i))))) =
      s.draw.2.updFbe h (fun x => { x with words := pokeWords f.words x.words }) := by
    refine State.updFbe_congr ((pokeGo_plain _ ?_).trans ?_)
    · intro e he
      obtain ⟨i, hi, rfl⟩ := List.mem_map.mp he
      exact hplain.bind (List.mem_range.mp hi)
    · rw [List.foldl_map]
      rfl
  have hpermit : ¬(hearthOwner s h ≠ p ∨ partClass s p = 1) := fun hd => hd.elim (· howner) hclass
  unfold fbPokeAct fbPokeWith
  dsimp only
  rw [← hh, hform, hok, hactive, if_neg (by decide), if_neg hpermit, if_neg (by decide), if_neg hmode', hgo,
    if_neg (by decide)]

end

section
variable {s : State} {p r h : Nat} {f : Flight}

theorem fbLoadAct_waits {img : List (BitVec 8)} {prog : FbProg} (hh : h = fbHearth f.words) (hactive : isStandby s = false)
    (hok : loadOk f.words = true) (hsynced : mateSynced s = false) (himg : devRead s p (addr48 f.words 2) (dw f.words 4).toNat = some img)
    (hstatus : loadStatus s p h (some img) = (stDone, some prog)) (hxchg : (s.fbe h).xchg = none) :
    fbLoadAct p r s f = deltaSend (.fbe (64 * p + r) h f.words (some img)) stDone (s.updFbe h (fun y => { y with
      loads := y.loads ++ [FbLoad.mk (1 - y.act) prog (64 * p + r) f.id true] })) := by
  unfold fbLoadAct fbLoadWith
  dsimp only
  rw [← hh, hactive, himg, hok, hstatus]
  dsimp only
  rw [hxchg, hsynced]
  rfl

theorem putBank_bank (i : Nat) (v : Option FbProg) (x : FbRt) : (putBank i v x).bank i = v := by
  unfold putBank
  split
  case isTrue h0 => rw [FbRt.bank, if_pos h0]
  case isFalse h0 => rw [FbRt.bank, if_neg h0]

theorem putBank_keeps (i : Nat) (v : Option FbProg) (x : FbRt) : (putBank i v x).loads = x.loads ∧ (putBank i v x).act = x.act := by
  unfold putBank
  split <;> exact ⟨rfl, rfl⟩

/-- The oldest load, copied: its program is in its bank (R221). -/
theorem fbLoadComplete_copies {l : FbLoad} {loads : List FbLoad} (hloads : (s.fbe h).loads = l :: loads)
    (hack : l.acked = true ∨ mateSynced s = false) (hxchg : (s.fbe h).xchg = none) (hbank : l.bank ≠ (s.fbe h).act ∨ (s.fbe h).mode = .none) :
    ∃ b, fbLoadComplete h s = completeKey ((s.updFbe h (fun y => { y with loads := loads })).updFbe h (putBank l.bank (some l.prog)))
      l.key l.flight b := by
  have hgo : (!l.acked && mateSynced s) = false := by
    obtain h | h := hack <;> rw [h]
    · rfl
    · exact Bool.and_false _
  have hbank' : ¬((s.fbe h).xchg.isSome = true ∨ (l.bank = (s.fbe h).act ∧ (s.fbe h).mode ≠ .none)) := by
    rintro (hx | ⟨he, hm⟩)
    · rw [hxchg] at hx
      exact Bool.false_ne_true hx
    · exact hbank.elim (· he) hm
  unfold fbLoadComplete
  dsimp only
  rw [hloads]
  dsimp only
  rw [hgo, if_neg Bool.false_ne_true, if_neg hbank']
  exact ⟨_, rfl⟩

theorem imageAcknowledged_oldest {l : FbLoad} {loads : List FbLoad} (hloads : (s.fbe h).loads = l :: loads) (hack : l.acked = false) :
    imageAcknowledged h s = s.updFbe h (fun z => { z with loads := { l with acked := true } :: loads }) := by
  refine State.updFbe_congr ?_
  have hfirst : indexOf (fun l => !l.acked) (s.fbe h).loads = some 0 := by
    rw [hloads]
    exact if_pos (by simp [hack])
  have hmap : (s.fbe h).loads.zipIdx.map (fun e => if e.2 = 0 then { e.1 with acked := true } else e.1) =
      { l with acked := true } :: loads := by
    rw [hloads, List.zipIdx_cons, List.map_cons, if_pos rfl]
    refine congrArg _ ?_
    have hrest : (loads.zipIdx 1).map (fun e => if e.2 = 0 then { e.1 with acked := true } else e.1) = (loads.zipIdx 1).map Prod.fst :=
      List.map_congr_left fun e he => if_neg (by have := List.le_snd_of_mem_zipIdx he; omega)
    exact hrest.trans (List.zipIdx_map_fst ..)
  dsimp only
  rw [hfirst]
  exact congrArg (fun x => ({ s.fbe h with loads := x } : FbRt)) hmap

end

/-- Settles O38: the three commands, the end of a copy and the acknowledgement. -/
theorem functionBlockData : Obligations.FunctionBlockData := by
  constructor
  · rintro s _ t p r y h rfl hh howner
    refine ⟨fun hf hform hok hcount hplain => ?_, fun hf hactive hform hok hclass hmode hplain => ?_,
      fun img prog hf hactive hok hsynced himg hstatus hxchg => ?_⟩
    · rw [exec_fbPeek hf, fbPeekAct_reads hh howner hok hplain hform hcount]
    · rw [exec_fbPoke hf, fbPokeAct_writes hh howner hok hplain hactive hform hclass hmode]
      have hcalm := fbEnd_calm p r y.2 stDone (y.1.draw.2.updFbe h (fun x => { x with words := pokeWords y.2.words x.words }))
      refine ⟨_, rfl, ?_, fun g hg => (hcalm.fbe g).trans (y.1.draw.2.updFbe_other _ hg), hcalm.regs⟩
      exact congrArg FbRt.words ((hcalm.fbe h).trans (y.1.draw.2.updFbe_same h _))
    · rw [exec_fbLoad hf, fbLoadAct_waits hh hactive hok hsynced himg hstatus hxchg]
      have hcalm {a : State} : Calm a (deltaSend (.fbe (64 * p + r) h y.2.words (some img)) stDone a) := deltaSend_calm (Calm.refl a)
      refine ⟨_, rfl, ?_, ?_, fun g hg => (hcalm.fbe g).trans (y.1.updFbe_other _ hg), deltaSend_db ..⟩
      · exact congrArg FbRt.loads ((hcalm.fbe h).trans (y.1.updFbe_same h _))
      · exact (congrArg FbRt.prog ((hcalm.fbe h).trans (y.1.updFbe_same h _))).trans rfl
  · rintro s _ t h l loads rfl halive hloads
    refine ⟨fun hack hxchg hbank _ => ?_, fun hack => ?_⟩
    · rw [exec_fbLoadComplete h halive]
      obtain ⟨b, hb⟩ := fbLoadComplete_copies hloads hack hxchg hbank
      have hcalm {a : State} : Calm a (completeKey a l.key l.flight b) := completeKey_calm (Calm.refl a)
      have hset : (fbLoadComplete h (s.runTo t)).fbe h = putBank l.bank (some l.prog) { (s.runTo t).fbe h with loads := loads } := by
        rw [hb, hcalm.fbe, State.updFbe_same, State.updFbe_same]
      obtain ⟨hl, hact⟩ := putBank_keeps l.bank (some l.prog) { (s.runTo t).fbe h with loads := loads }
      refine ⟨_, rfl, ?_, ?_, ?_, fun g hg => ?_⟩
      · rw [hset, putBank_bank]
      · rw [hset, hl]
      · rw [hset, hact]
      · rw [hb, hcalm.fbe, State.updFbe_other _ _ hg, State.updFbe_other _ _ hg]
    · rw [exec_imageAcknowledged h halive, imageAcknowledged_oldest hloads hack]

end Sys2Proof.Machine
end


section
/-! Hand-off, exchange and retransmission (R214, R237, R252). -/

namespace Sys2Proof.Machine

section
variable {s : State} (h : alive s = true)
include h

theorem exec_handOff (e : Hearth) : exec (.handOff e) s = .next (handOff e s) := congrArg _ (live_eq h)
theorem exec_programExchange (e : Hearth) : exec (.programExchange e) s = .next (programExchange e s) := congrArg _ (live_eq h)
theorem exec_gooseRetransmission (g : Fin 2048) : exec (.gooseRetransmission g) s = .next (gooseRetransmission g s) :=
  congrArg _ (live_eq h)

end

/-- From state a to state b no time passes, and the engines and the held points stay. -/
def PointsStay (a b : State) : Prop := b.tb = a.tb ∧ b.fb = a.fb ∧ b.pb.pts = a.pb.pts

theorem PointsStay.refl (s : State) : PointsStay s s := ⟨rfl, rfl, rfl⟩

theorem PointsStay.trans {a b c : State} (h : PointsStay a b) (k : PointsStay b c) : PointsStay a c :=
  ⟨k.1.trans h.1, k.2.1.trans h.2.1, k.2.2.trans h.2.2⟩

theorem PointsStay.foldl {β : Type} {a : State} {f : State → β → State} (l : List β) (hf : ∀ x y, PointsStay x (f x y)) :
    PointsStay a (l.foldl f a) := List.foldlRecOn (motive := PointsStay a) l f (.refl a) fun x hx y _ => hx.trans (hf x y)

theorem Calm.points {a b : State} (h : Calm a b) : PointsStay a b := ⟨h.tb, h.fb, congrArg PbState.pts h.pb⟩

theorem SendCalm.points {a b : State} (h : SendCalm a b) : PointsStay a b := by
  obtain ⟨_, h⟩ := h
  exact ⟨h.tb, h.fb, (congrArg PbState.pts h.pb).trans rfl⟩

theorem State.gcb_of_gcbs {a b : State} (h : b.pb.gcbs = a.pb.gcbs) (g : Nat) : b.gcb g = a.gcb g := by
  rw [State.gcb, h]
  rfl

theorem SendCalm.gcb {a b : State} (h : SendCalm a b) (g : Nat) : b.gcb g = a.gcb g := by
  obtain ⟨_, h⟩ := h
  exact State.gcb_of_gcbs ((congrArg PbState.gcbs h.pb).trans rfl) g

theorem Calm.gcb {a b : State} (h : Calm a b) (g : Nat) : b.gcb g = a.gcb g := State.gcb_of_gcbs (congrArg PbState.gcbs h.pb) g

theorem State.updGcb_same (s : State) (g : Nat) (f : GcbRt → GcbRt) : (s.updGcb g f).gcb g = f (s.gcb g) :=
  (s.updGcb_gcb g g f).trans (if_pos rfl)

theorem State.updGcb_other (s : State) {g k : Nat} (f : GcbRt → GcbRt) (h : k ≠ g) : (s.updGcb g f).gcb k = s.gcb k :=
  (s.updGcb_gcb g k f).trans (if_neg h)

theorem pbKeyFail_calm (owner unit : Nat) (last : Option Nat) (st n1 n2 : Nat) (s : State) : Calm s (pbKeyFail owner unit last st n1 n2 s) := by
  unfold pbKeyFail
  dsimp only
  split
  · exact Calm.refl s
  · exact record_calm (Calm.refl s)

/-- A frame's numbering and schedule in its control block. -/
def numbered (sqNum interval at16 : Nat) (y : GcbRt) : GcbRt :=
  { y with sqNum := sqNum, d := interval, due := some (at16 + us16 interval), built := inc32 y.built }

/-- Between a and b the control blocks other than g stay, and g's is f's but for the failures of its key. -/
def GcbMoves (g : Nat) (f : GcbRt → GcbRt) (a b : State) : Prop :=
  (∀ k, k ≠ g → b.gcb k = a.gcb k) ∧ ∃ n sec, b.gcb g = { f (a.gcb g) with keyFail := n, failSec := sec }

theorem GcbMoves.upd (g : Nat) (f : GcbRt → GcbRt) (s : State) : GcbMoves g f s (s.updGcb g f) :=
  ⟨fun _ hk => s.updGcb_other f hk, _, _, s.updGcb_same g f⟩

theorem GcbMoves.same {g : Nat} {f : GcbRt → GcbRt} {a b c : State} (h : GcbMoves g f a b) (hc : ∀ k, c.gcb k = b.gcb k) : GcbMoves g f a c := by
  obtain ⟨hother, n, sec, hg⟩ := h
  exact ⟨fun k hk => (hc k).trans (hother k hk), n, sec, (hc g).trans hg⟩

theorem GcbMoves.fails {g : Nat} {f : GcbRt → GcbRt} {a b : State} (h : GcbMoves g f a b) (sec : Option Nat) :
    GcbMoves g f a (b.updGcb g (fun y => { y with keyFail := inc32 y.keyFail, failSec := sec })) := by
  obtain ⟨hother, n, _, hg⟩ := h
  refine ⟨fun k hk => (b.updGcb_other _ hk).trans (hother k hk), inc32 n, sec, ?_⟩
  rw [State.updGcb_same, hg]

theorem gcbDelta_calm (g : Nat) (s : State) : Calm s (gcbDelta g s) := deltaSend_calm (Calm.refl s)

/-- A frame of a control block moves its numbering and schedule, sent or not (R252, R256). -/
theorem gooseFrame_moves (g sqNum interval at16 : Nat) (s : State) : PointsStay s (gooseFrame g sqNum interval at16 s) ∧
    GcbMoves g (numbered sqNum interval at16) s (gooseFrame g sqNum interval at16 s) := by
  unfold gooseFrame
  extract_lets x z st s1 s2 o ref s3
  have h1 : GcbMoves g (numbered sqNum interval at16) s s1 := .upd ..
  split
  · have h2 : PointsStay s s2 ∧ GcbMoves g (numbered sqNum interval at16) s s2 := by
      show PointsStay s (if x.auth = 0 then s1 else takeUse s1 x.key.node) ∧
        GcbMoves g (numbered sqNum interval at16) s (if x.auth = 0 then s1 else takeUse s1 x.key.node)
      split
      · exact ⟨⟨rfl, rfl, rfl⟩, h1⟩
      · exact ⟨⟨rfl, rfl, rfl⟩, h1.same fun _ => rfl⟩
    have hsend (f : OutFrame) := releaseFrame_sends f s2
    exact ⟨(h2.1.trans (hsend _).points).trans (gcbDelta_calm ..).points, (h2.2.same (hsend _).gcb).same (gcbDelta_calm ..).gcb⟩
  · have hfail : Calm s1 s3 := pbKeyFail_calm ..
    have h3 : PointsStay s s3 := PointsStay.trans ⟨rfl, rfl, rfl⟩ hfail.points
    exact ⟨(h3.trans ⟨rfl, rfl, rfl⟩).trans (gcbDelta_calm ..).points, ((h1.same hfail.gcb).fails _).same (gcbDelta_calm ..).gcb⟩

theorem gooseRetransmission_due {s : State} {g u : Nat} (hdue : (s.gcb g).due = some u) (hvalid : (gcbCfg s g).valid = true)
    (hstarted : (s.gcb g).started = true) : gooseRetransmission g s =
      gooseFrame g (wrapNum (s.gcb g).sqNum) (min (2 * (s.gcb g).d) ((gcbCfg s g).t0 * 1000)) u (s.waitUntil u) := by
  unfold gooseRetransmission
  dsimp only
  rw [hdue]
  dsimp only
  rw [hvalid, hstarted]
  rfl

/-! The exchange. -/

/-- Another hearth's engine, and this one's active bank, waiting exchange and the time, stay where an engine restarts. -/
theorem fbRestart_leaves (h : Nat) (s : State) : (fbRestart h s).tb = s.tb ∧ ((fbRestart h s).fbe h).act = (s.fbe h).act ∧
    ((fbRestart h s).fbe h).xchg = (s.fbe h).xchg ∧ ∀ g, g ≠ h → (fbRestart h s).fbe g = s.fbe g := by
  unfold fbRestart
  split
  · exact ⟨rfl, rfl, rfl, fun _ _ => rfl⟩
  · refine ⟨rfl, ?_, ?_, fun g hg => State.updFbe_other _ _ hg⟩
    · rw [State.updFbe_same]
      rfl
    · rw [State.updFbe_same]
      rfl

theorem fbExchange_leaves {s : State} {h m : Nat} {q : FbProg} (hx : (s.fbe h).xchg = some m)
    (hbank : (s.fbe h).bank (1 - (s.fbe h).act) = some q) : (fbExchange h s).tb = s.tb ∧
    ((fbExchange h s).fbe h).act = 1 - (s.fbe h).act ∧ ((fbExchange h s).fbe h).xchg = none ∧
    ∀ g, g ≠ h → (fbExchange h s).fbe g = s.fbe g := by
  unfold fbExchange
  extract_lets x
  rw [show x.xchg = some m from hx, show x.bank (1 - x.act) = some q from hbank]
  dsimp only
  split
  · obtain ⟨htb, hact, hxchg, hother⟩ := fbRestart_leaves h (s.updFbe h (fun y => { y with
        act := 1 - y.act, mode := .run, xchg := none, from_ := max x.from_ (newStart x m), carried := 0, fresh := q.insts.length }))
    refine ⟨htb, hact.trans ?_, hxchg.trans ?_, fun g hg => (hother g hg).trans (s.updFbe_other _ hg)⟩
    · rw [State.updFbe_same]
    · rw [State.updFbe_same]
  · refine ⟨rfl, ?_, ?_, fun g hg => s.updFbe_other _ hg⟩
    · rw [State.updFbe_same]
    · rw [State.updFbe_same]

theorem programExchange_due {s : State} {h m : Nat} (hx : (s.fbe h).xchg = some m) (hidle : (s.fbe h).handing = none)
    (hslot : slotCounter m ≤ s.tb.counter)
    (hlast : (s.fbe h).prog = none ∨ oldEnd (s.fbe h) m ≤ Tbl.get 0 s.ig.closed (h / 4) + 1) : programExchange h s = fbExchange h s := by
  have hready : ((s.fbe h).prog.isNone || decide (oldEnd (s.fbe h) m ≤ Tbl.get 0 s.ig.closed (h / 4) + 1)) = true := by
    obtain hp | hp := hlast
    · rw [hp]
      rfl
    · rw [decide_eq_true hp, Bool.or_true]
  unfold programExchange
  dsimp only
  rw [hx]
  dsimp only
  rw [hidle, hready, decide_eq_true hslot]
  rfl

/-! The hand-off. -/

theorem gcbState_points (g : Nat) (t : Stamp) (s : State) : PointsStay s (gcbState g t s) := by
  unfold gcbState
  extract_lets x pts
  refine PointsStay.trans ?_ (gooseFrame_moves ..).1
  exact ⟨rfl, rfl, rfl⟩

theorem evaluateCroft_points (c j h : Nat) (q : BitVec 16) (s : State) : PointsStay s (evaluateCroft c j h q s) := by
  refine .foldl _ fun a g => ?_
  unfold gcbEvaluate
  dsimp only
  split
  · exact .refl a
  · exact gcbState_points ..

theorem releaseOrOverrun_calm {a s : State} (h t r : Nat) (hs : Calm a s) : Calm a (releaseOrOverrun s h t r) := by
  unfold releaseOrOverrun
  split
  · exact makeReady_calm hs
  · exact hs
  · exact State.updTask_calm hs

theorem tickDue_calm {b s : State} (h : Nat) (hs : Calm b s) : Calm b (tickDue h s) := by
  refine List.foldlRecOn (motive := Calm b) _ _ hs fun a ha e _ => ?_
  unfold tickEntry
  dsimp only
  split
  · exact State.updTask_calm (releaseOrOverrun_calm _ _ _ ha)
  · exact makeReady_calm ha

/-- A hand-off's points entered in the held points. -/
def handedPts (h : Nat) (t : Stamp) (outs : List (Nat × BitVec 32 × BitVec 32)) (pts : Tbl HeldPt) : Tbl HeldPt :=
  outs.foldl (fun a o => Tbl.upd {} a (1024 * h + o.1) (fun p =>
    { v := o.2.1, q := o.2.2, t := t, chg := if p.v = o.2.1 ∧ p.q = o.2.2 then p.chg else some t })) pts

theorem handedPts_other {h : Nat} {t : Stamp} {outs : List (Nat × BitVec 32 × BitVec 32)} {n : Nat} (hn : n ∉ outs.map Prod.fst)
    (pts : Tbl HeldPt) : Tbl.get {} (handedPts h t outs pts) (1024 * h + n) = Tbl.get {} pts (1024 * h + n) := by
  induction outs generalizing pts with
  | nil => rfl
  | cons o outs ih =>
    obtain ⟨hne, hrest⟩ := List.ne_and_not_mem_of_not_mem_cons hn
    exact (ih hrest _).trans ((Tbl.get_upd ..).trans (if_neg fun he => hne (Nat.add_left_cancel he)))

theorem handedPts_get {h : Nat} {t : Stamp} {outs : List (Nat × BitVec 32 × BitVec 32)} (hnodup : (outs.map Prod.fst).Nodup)
    (pts : Tbl HeldPt) : ∀ o ∈ outs, (Tbl.get {} (handedPts h t outs pts) (1024 * h + o.1)).v = o.2.1 ∧
      (Tbl.get {} (handedPts h t outs pts) (1024 * h + o.1)).q = o.2.2 := by
  induction outs generalizing pts with
  | nil => exact fun o ho => absurd ho List.not_mem_nil
  | cons o outs ih =>
    obtain ⟨hnew, hrest⟩ := List.nodup_cons.mp hnodup
    intro x hx
    obtain rfl | hx := List.mem_cons.mp hx
    · have hget : Tbl.get {} (handedPts h t (x :: outs) pts) (1024 * h + x.1) = _ :=
        (handedPts_other hnew _).trans ((Tbl.get_upd ..).trans (if_pos rfl))
      rw [hget]
      exact ⟨rfl, rfl⟩
    · exact ih hrest _ x hx

/-- The tasks that a hand-off releases (R317). -/
theorem withHandoffTasks_points (h : Nat) (s : State) (l : State → List Nat) :
    PointsStay s (withDispatch s h (fun a => (l a).foldl (fun b n => releaseOrOverrun b h n (now16 b)) (tickDue h a))) := by
  have htasks : Calm s ((l s).foldl (fun b n => releaseOrOverrun b h n (now16 b)) (tickDue h s)) :=
    List.foldlRecOn (motive := Calm s) _ _ (tickDue_calm h (Calm.refl s)) fun _ ha _ _ => releaseOrOverrun_calm _ _ _ ha
  exact (dispatchIf_calm htasks).points

/-- What a hand-off's points and the end of the hand-off leave (R214). -/
def handed (h : Nat) (a : HandSet) (s x : State) : Prop :=
  x.tb = s.tb ∧ x.fb = (s.updFbe h (fun y => { y with handing := none })).fb ∧
    x.pb.pts = handedPts h { t16 := slotT16 a.bell, q := a.q } a.outs s.pb.pts

theorem handOff_leaves {s : State} {h : Nat} {a : HandSet} (hand : (s.fbe h).handing = some a) :
    ∃ x, handed h a (s.waitUntil (handInstant s h a)) x ∧ PointsStay x (handOff h s) := by
  unfold handOff
  split
  case h_1 hnone => exact absurd (hand.symm.trans hnone) (Option.some_ne_none a)
  case h_2 y hy =>
  obtain rfl := Option.some.inj (hand.symm.trans hy)
  extract_lets w c t gave src s1 s2 body s3 s4
  have h3 : PointsStay s2 s3 := (decide_pair _ s2).sends.points
  have h4 : PointsStay s2 s4 := h3.trans (evaluateCroft_points ..)
  refine ⟨s2, ⟨rfl, rfl, rfl⟩, ?_⟩
  split
  · exact h4.trans (withHandoffTasks_points h s4 _)
  · exact h4

theorem State.waitUntil_fbe (s : State) (t h : Nat) : (s.waitUntil t).fbe h = s.fbe h := by
  obtain ⟨n, hn⟩ := s.waitUntil_eq_pass t
  rw [hn]
  rfl

theorem State.waitUntil_gcb (s : State) (t g : Nat) : (s.waitUntil t).gcb g = s.gcb g := by
  obtain ⟨n, hn⟩ := s.waitUntil_eq_pass t
  rw [hn]
  rfl

/-- Settles O39: the hand-off, the exchange and the retransmission. -/
theorem publishing : Obligations.Publishing := by
  refine ⟨fun s h a halive hand hnodup => ?_, fun s h m q halive hx hbank hidle hslot hlast => ?_,
    fun s g u halive hdue hvalid hstarted => ?_⟩
  · rw [exec_handOff halive]
    obtain ⟨b, ⟨hbtb, hbfb, hbpts⟩, htb, hfb, hpts⟩ := handOff_leaves hand
    have hfbe (g : Nat) : (handOff h s).fbe g =
        ((s.waitUntil (handInstant s h a)).updFbe h (fun x => { x with handing := none })).fbe g := by
      rw [State.fbe, hfb, hbfb]
      rfl
    refine ⟨_, rfl, ?_, htb.trans hbtb, fun o ho => ?_, fun g hg => ?_⟩
    · rw [hfbe, State.updFbe_same]
    · rw [heldPt, hpts, hbpts]
      exact handedPts_get hnodup _ o ho
    · rw [hfbe, State.updFbe_other _ _ hg, State.waitUntil_fbe]
  · rw [exec_programExchange halive, programExchange_due hx hidle hslot hlast]
    obtain ⟨htb, hact, hxchg, hother⟩ := fbExchange_leaves hx hbank
    exact ⟨_, rfl, hact, hxchg, htb, hother⟩
  · rw [exec_gooseRetransmission halive, gooseRetransmission_due hdue hvalid hstarted]
    obtain ⟨hstay, hother, n, sec, hg⟩ := gooseFrame_moves g (wrapNum (s.gcb g).sqNum) (min (2 * (s.gcb g).d) ((gcbCfg s g).t0 * 1000)) u
      (s.waitUntil u)
    rw [State.waitUntil_gcb] at hg
    refine ⟨_, rfl, ?_, ?_, ?_, ?_, hstay.1, fun k hk => (hother k hk).trans (s.waitUntil_gcb u k)⟩
    · rw [hg]
      rfl
    · rw [hg]
      rfl
    · rw [hg]
      rfl
    · rw [hg]
      rfl

end Sys2Proof.Machine
end


section
/-! The releases of the regulation loops (R265, R269). -/

namespace Sys2Proof.Machine

theorem exec_loopRelease {s : State} (h : alive s = true) (l : LoopNo) : exec (.loopRelease l) s = .next (loopRelease l s) :=
  congrArg _ (live_eq h)
theorem exec_missLimit {s : State} (h : alive s = true) (l : LoopNo) : exec (.missLimit l) s = .next (missLimit l s) :=
  congrArg _ (live_eq h)

/-- From state a to state b no time passes, and the loops and the registers stay. -/
def LoopsStay (a b : State) : Prop := b.tb = a.tb ∧ b.regs = a.regs ∧ b.lp.loops = a.lp.loops

theorem LoopsStay.refl (s : State) : LoopsStay s s := ⟨rfl, rfl, rfl⟩

theorem LoopsStay.trans {a b c : State} (h : LoopsStay a b) (k : LoopsStay b c) : LoopsStay a c :=
  ⟨k.1.trans h.1, k.2.1.trans h.2.1, k.2.2.trans h.2.2⟩

theorem LoopsStay.foldl {β : Type} {a : State} {f : State → β → State} (l : List β) (hf : ∀ x y, LoopsStay x (f x y)) :
    LoopsStay a (l.foldl f a) := List.foldlRecOn (motive := LoopsStay a) l f (.refl a) fun x hx y _ => hx.trans (hf x y)

theorem Calm.loops {a b : State} (h : Calm a b) : LoopsStay a b := ⟨h.tb, h.regs, congrArg LpState.loops h.lp⟩

theorem PairCalm.loops {a b : State} (h : PairCalm a b) : LoopsStay a b := ⟨h.tb, h.regs, (congrArg LpState.loops h.lp).trans rfl⟩

theorem LoopsStay.loop {a b : State} (h : LoopsStay a b) (l : Nat) : b.loop l = a.loop l := by
  rw [State.loop, h.2.2]
  rfl

theorem updLane_loops (s : State) (g : Nat) (f : LaneRt → LaneRt) : LoopsStay s (s.updLane g f) := ⟨rfl, rfl, rfl⟩

theorem laneCount_loops (s : State) (g i : Nat) : LoopsStay s (laneCount s g i) := updLane_loops ..

theorem laneEvent_loops (s : State) (g kind : Nat) : LoopsStay s (laneEvent s g kind) := by
  unfold laneEvent
  dsimp only
  split
  · exact .refl s
  · split
    · exact (updLane_loops ..).trans (devIrq_calm (Calm.refl _)).loops
    · exact updLane_loops ..

theorem laneCut_loops (s : State) (g : Nat) : LoopsStay s (laneCut s g) := by
  unfold laneCut
  extract_lets x s1
  have h1 : LoopsStay s s1 := (updLane_loops ..).trans (laneCount_loops ..)
  split
  · exact h1.trans (devIrq_calm (Calm.refl s1)).loops
  · exact h1

theorem laneFollow_loops (s : State) (g : Nat) : LoopsStay s (laneFollow s g) := .foldl _ fun _ _ => updLane_loops ..

theorem startPeriod_loops (s : State) (g at_ : Nat) (isNew : Bool) : LoopsStay s (startPeriod s g at_ isNew) := by
  unfold startPeriod
  extract_lets x raw per s1 p s2 s3 s4 s5
  have h1 : LoopsStay s s1 := by
    show LoopsStay s (if isNew && per != raw then laneCount s g 3 else s)
    split
    · exact laneCount_loops ..
    · exact .refl s
  have h2 : LoopsStay s s2 := h1.trans (.foldl _ fun _ _ => laneCount_loops ..)
  have h3 : LoopsStay s s3 := h2.trans (.foldl _ fun _ _ => laneCount_loops ..)
  have h4 : LoopsStay s s4 := (h3.trans (laneFollow_loops ..)).trans (updLane_loops ..)
  have h5 : LoopsStay s s5 := h4.trans (laneEvent_loops ..)
  split
  · exact h5.trans (laneCut_loops ..)
  · exact h5

theorem laneRelease_loops (s : State) (g : Nat) (y : Int) (t16 : Nat) (computed : Bool) : LoopsStay s (laneRelease s g y t16 computed) := by
  unfold laneRelease
  extract_lets at_ l s1
  have h1 : LoopsStay s s1 := updLane_loops ..
  split
  · exact .refl s
  · split
    · split
      · exact (updLane_loops ..).trans (startPeriod_loops ..)
      · exact .refl s
    · split
      · exact (h1.trans (updLane_loops ..)).trans (laneCount_loops ..)
      · exact h1

theorem loopMirror_calm (s : State) (p l k : Nat) (y : Int) (q : BitVec 32) : Calm s (loopMirror s p l k y q) := by
  unfold loopMirror
  dsimp only
  split
  · exact devWrite_calm (Calm.refl s)
  · exact Calm.refl s

theorem State.updLoop_same (s : State) (l : Nat) (f : LoopRt → LoopRt) : (s.updLoop l f).loop l = f (s.loop l) :=
  (s.updLoop_loop l l f).trans (if_pos rfl)

theorem State.updLoop_other (s : State) {l k : Nat} (f : LoopRt → LoopRt) (h : k ≠ l) : (s.updLoop l f).loop k = s.loop k :=
  (s.updLoop_loop l k f).trans (if_neg h)

/-- A loop's record after the release of slot k with output y and quality q at instant t. -/
def releasedLoop (k next t : Nat) (y : Int) (q : BitVec 32) (w : LoopRt) : LoopRt :=
  { w with
    results := w.results.filter (fun r => r.slot != k), why := w.why.filter (fun e => e.1 != k),
    next := next, olds := w.olds.filter (fun o => k < o.1), out := y, buf := { v := y, q := q }, rel := ((t, y, q) :: w.rel).take 16 }

/-- The count of a miss. -/
def missedLoop (reason : Nat) (w : LoopRt) : LoopRt :=
  { w with missed := true, missCnt := inc32 w.missCnt, reason := reason, run := min 255 (w.run + 1) }

/-- The mirror record, the decision and the lane's command that follow a release. -/
theorem loopSent_loops (s : State) (c : Prop) [Decidable c] (d : Decision) (p l k g t : Nat) (y : Int) (q : BitVec 32) (computed : Bool) :
    LoopsStay s (if c then laneRelease (decide_ d (loopMirror s p l k y q)) g y t computed else decide_ d (loopMirror s p l k y q)) := by
  have hsent : LoopsStay s (decide_ d (loopMirror s p l k y q)) := (loopMirror_calm ..).loops.trans (decide_pair ..).loops
  split
  · exact hsent.trans (laneRelease_loops ..)
  · exact hsent

section
variable {s : State} {l k : Nat}

/-- The release of a result (R265). -/
theorem loopRelAt_found {a : LoopRes} (h : (s.loop l).results.find? (fun z => z.slot == k) = some a) : ∃ next t,
    LoopsStay (s.updLoop l (fun w => { releasedLoop k next t a.y a.q w with run := 0, limited := false })) (loopRelAt l k s) := by
  have hany : (s.loop l).results.any (fun z => z.slot == k) = true :=
    List.any_eq_true.mpr ⟨a, List.mem_of_find?_eq_some h, List.find?_some (p := fun z : LoopRes => z.slot == k) h⟩
  unfold loopRelAt
  dsimp only
  rw [hany, Bool.not_true, Bool.and_false, if_neg Bool.false_ne_true, h]
  exact ⟨_, _, loopSent_loops ..⟩

/-- A miss without a restart (R269). -/
theorem loopRelAt_missed (h : (s.loop l).results.find? (fun z => z.slot == k) = none) (hagain : (s.loop l).again = false) :
    ∃ next t reason, LoopsStay (s.updLoop l (fun w => missedLoop reason (releasedLoop k next t
      (if (s.loop l).hist k then (s.loop l).out else (loopCfgAt s l k).safe) (if (s.loop l).hist k then 0x10083 else 0x81) w)))
      (loopRelAt l k s) := by
  unfold loopRelAt
  dsimp only
  rw [hagain, Bool.false_and, if_neg Bool.false_ne_true, h]
  exact ⟨_, _, _, loopSent_loops ..⟩

/-- A restarted loop has no history, and keeps what the miss counts (R269). -/
theorem loopRestart_leaves (l : Nat) (s : State) : (loopRestart l s).tb = s.tb ∧ (loopRestart l s).regs = s.regs ∧
    ∃ z : LoopRt, (loopRestart l s).loop l = z ∧ z.first = none ∧ z.results = (s.loop l).results ∧ z.missCnt = (s.loop l).missCnt ∧
      z.run = (s.loop l).run := by
  have hset := s.updLoop_same l (fun z => { z with first := none, e := [], u := [], again := false })
  unfold loopRestart
  extract_lets x s1
  split
  · exact ⟨rfl, rfl, _, ((updLane_loops s1 _ _).loop l).trans hset, rfl, rfl, rfl, rfl⟩
  · exact ⟨rfl, rfl, _, hset, rfl, rfl, rfl, rfl⟩

/-- A miss after MISS_LIMIT (R269). -/
theorem loopRelAt_restarted (h : (s.loop l).results.find? (fun z => z.slot == k) = none) (hagain : (s.loop l).again = true) :
    ∃ next t reason, LoopsStay ((loopRestart l s).updLoop l (fun w => missedLoop reason (releasedLoop k next t
      (loopCfgAt s l k).safe 0x81 w))) (loopRelAt l k s) := by
  have hany : (s.loop l).results.any (fun z => z.slot == k) = false := by
    rw [Bool.eq_false_iff]
    intro hany
    obtain ⟨a, ha, hk⟩ := List.any_eq_true.mp hany
    exact List.find?_eq_none.mp h a ha hk
  obtain ⟨-, -, z, hz, hfirst, hresults, -, -⟩ := loopRestart_leaves l s
  have hhist : z.hist k = false := by
    rw [LoopRt.hist, hfirst]
    rfl
  unfold loopRelAt
  dsimp only
  rw [hany, hagain, Bool.not_false, Bool.and_true, if_pos rfl, hz, hresults, h, hhist]
  exact ⟨_, _, _, loopSent_loops ..⟩

end

theorem State.waitUntil_loop (s : State) (t l : Nat) : (s.waitUntil t).loop l = s.loop l := by
  obtain ⟨n, hn⟩ := s.waitUntil_eq_pass t
  rw [hn]
  rfl

theorem State.waitUntil_regs (s : State) (t : Nat) : (s.waitUntil t).regs = s.regs := by
  obtain ⟨n, hn⟩ := s.waitUntil_eq_pass t
  rw [hn]
  rfl

theorem loopCfgAt_of_regs {a b : State} {l : Nat} (hregs : a.regs = b.regs) (hloop : a.loop l = b.loop l) (k : Nat) :
    loopCfgAt a l k = loopCfgAt b l k := by
  have hwords : loopWords a l = loopWords b l := List.map_congr_left fun i _ => State.cfg_of_regs hregs _ _
  rw [loopCfgAt, hwords, hloop]
  rfl

theorem loopRelease_valid {s : State} {l k : Nat} (hk : k = (s.loop l).next) (hvalid : (loopCfgAt s l k).valid = true) :
    loopRelease l s = loopRelAt l k (s.waitUntil (slotT16 k + ns16 (loopCfgAt s l k).deadline)) := by
  subst hk
  exact if_pos hvalid

theorem missLimit_restarts {s : State} {l : Nat} (hvalid : (loopCfg s l).valid = true) (hlimit : (loopCfg s l).missLimit ≠ 0)
    (hrun : (loopCfg s l).missLimit ≤ (s.loop l).run) (honce : (s.loop l).limited = false) :
    missLimit l s = s.updLoop l (fun z => { z with again := true, limited := true }) := by
  unfold missLimit
  dsimp only
  rw [hvalid, honce, decide_eq_true hrun, bne_iff_ne.mpr hlimit]
  rfl

/-- Settles O40: the release of a result, the two misses, and the limit. -/
theorem loopReleases : Obligations.LoopReleases := by
  intro s l k halive hk hvalid
  rw [exec_loopRelease halive, loopRelease_valid hk hvalid]
  generalize hw : s.waitUntil (slotT16 k + ns16 (loopCfgAt s l k).deadline) = w
  have hloop (j : Nat) : w.loop j = s.loop j := by rw [← hw, State.waitUntil_loop]
  have hregs : w.regs = s.regs := by rw [← hw, State.waitUntil_regs]
  have hcfg : loopCfgAt w l k = loopCfgAt s l k := loopCfgAt_of_regs hregs (hloop l) k
  refine ⟨fun a hfind => ?_, fun hfind hagain hhist => ?_, fun hfind hnew => ?_, fun hv hlimit hrun honce => ?_⟩
  · obtain ⟨next, t, hstay⟩ := loopRelAt_found (s := w) (l := l) (k := k) (a := a) (by rwa [hloop])
    have hl := (hstay.loop l).trans (w.updLoop_same l _)
    refine ⟨_, rfl, ?_, ?_, ?_, ?_, hstay.1, fun j hj => ?_, hstay.2.1.trans hregs⟩
    · rw [hl]
      rfl
    · rw [hl]
      rfl
    · rw [hl]
    · rw [hl, hloop]
      rfl
    · exact ((hstay.loop j).trans (w.updLoop_other _ hj)).trans (hloop j)
  · obtain ⟨next, t, reason, hstay⟩ := loopRelAt_missed (s := w) (l := l) (k := k) (by rwa [hloop]) (by rwa [hloop])
    have hl := (hstay.loop l).trans (w.updLoop_same l _)
    rw [hloop, hhist] at hl
    refine ⟨_, rfl, ?_, ?_, ?_, ?_, ?_, hstay.1⟩ <;> rw [hl] <;> rfl
  · have hmiss : ∃ x : LoopRt, x.missCnt = (s.loop l).missCnt ∧ x.run = (s.loop l).run ∧ ∃ next t reason,
        (loopRelAt l k w).loop l = missedLoop reason (releasedLoop k next t (loopCfgAt s l k).safe 0x81 x) := by
      cases hagain : (s.loop l).again with
      | true =>
        obtain ⟨next, t, reason, hstay⟩ := loopRelAt_restarted (s := w) (l := l) (k := k) (by rwa [hloop]) (by rwa [hloop])
        obtain ⟨-, -, z, hz, -, -, hcnt, hrun⟩ := loopRestart_leaves l w
        rw [hloop] at hcnt hrun
        have hl := (hstay.loop l).trans (State.updLoop_same _ l _)
        rw [hz, hcfg] at hl
        exact ⟨z, hcnt, hrun, next, t, reason, hl⟩
      | false =>
        obtain ⟨next, t, reason, hstay⟩ := loopRelAt_missed (s := w) (l := l) (k := k) (by rwa [hloop]) (by rwa [hloop])
        have hhist : (s.loop l).hist k = false := hnew.resolve_left (by rw [hagain]; decide)
        have hl := (hstay.loop l).trans (w.updLoop_same l _)
        rw [hloop, hhist, hcfg] at hl
        exact ⟨s.loop l, rfl, rfl, next, t, reason, hl⟩
    obtain ⟨x, hcnt, hrun, next, t, reason, hl⟩ := hmiss
    refine ⟨_, rfl, ?_, ?_, ?_, ?_, ?_⟩
    · rw [hl]
      rfl
    · rw [hl]
      rfl
    · rw [hl]
      rfl
    · rw [hl, ← hcnt]
      rfl
    · rw [hl, ← hrun]
      rfl
  · rw [exec_missLimit halive, missLimit_restarts hv hlimit hrun honce]

end Sys2Proof.Machine
end


section
/-! The gate-command lanes (R274 to R281). -/

namespace Sys2Proof.Machine

section
variable {s : State}

theorem exec_laneReload (h : alive s = true) (g : Lane) : exec (.laneReload g) s = .next (laneReload g s) := congrArg _ (live_eq h)
theorem exec_laneCompare (h : alive s = true) (g : Lane) (n : Fin 2) : exec (.laneCompare g n) s = .next (laneCompare g n s) :=
  congrArg _ (live_eq h)

end

theorem State.updLane_same (s : State) (g : Nat) (f : LaneRt → LaneRt) : (s.updLane g f).lane g = f (s.lane g) :=
  (s.updLane_lane g g f).trans (if_pos rfl)

theorem State.updLane_other (s : State) {g k : Nat} (f : LaneRt → LaneRt) (h : k ≠ g) : (s.updLane g f).lane k = s.lane k :=
  (s.updLane_lane g k f).trans (if_neg h)

theorem Calm.lane {a b : State} (h : Calm a b) (g : Nat) : b.lane g = a.lane g := by
  rw [State.lane, h.lp]
  rfl

/-- What a lane keeps while its events and cuts are counted. -/
def LaneKept (a b : LaneRt) : Prop := b.running = a.running ∧ b.start = a.start ∧ b.wait = a.wait ∧ b.ending = a.ending

theorem LaneKept.trans {a b c : LaneRt} (h : LaneKept a b) (k : LaneKept b c) : LaneKept a c :=
  ⟨k.1.trans h.1, k.2.1.trans h.2.1, k.2.2.1.trans h.2.2.1, k.2.2.2.trans h.2.2.2⟩

/-- From state a to state b every lane keeps its run, and the lanes other than g stay. -/
def LaneCounted (g : Nat) (a b : State) : Prop := (∀ k, LaneKept (a.lane k) (b.lane k)) ∧ ∀ k, k ≠ g → b.lane k = a.lane k

theorem LaneCounted.refl (g : Nat) (s : State) : LaneCounted g s s := ⟨fun _ => ⟨rfl, rfl, rfl, rfl⟩, fun _ _ => rfl⟩

theorem LaneCounted.trans {g : Nat} {a b c : State} (h : LaneCounted g a b) (k : LaneCounted g b c) : LaneCounted g a c :=
  ⟨fun j => (h.1 j).trans (k.1 j), fun j hj => (k.2 j hj).trans (h.2 j hj)⟩

theorem LaneCounted.foldl {β : Type} {g : Nat} {a : State} {f : State → β → State} (l : List β) (hf : ∀ x y, LaneCounted g x (f x y)) :
    LaneCounted g a (l.foldl f a) := List.foldlRecOn (motive := LaneCounted g a) l f (.refl g a) fun x hx y _ => hx.trans (hf x y)

theorem LaneCounted.calm {g : Nat} {a b : State} (h : Calm a b) : LaneCounted g a b :=
  ⟨fun k => by rw [h.lane]; exact ⟨rfl, rfl, rfl, rfl⟩, fun k _ => h.lane k⟩

theorem LaneCounted.upd {g : Nat} {s : State} {f : LaneRt → LaneRt} (hf : LaneKept (s.lane g) (f (s.lane g))) :
    LaneCounted g s (s.updLane g f) := by
  refine ⟨fun k => ?_, fun k hk => s.updLane_other f hk⟩
  by_cases hk : k = g
  · rw [hk, State.updLane_same]
    exact hf
  · rw [State.updLane_other _ _ hk]
    exact ⟨rfl, rfl, rfl, rfl⟩

theorem laneCount_counted (s : State) (g i : Nat) : LaneCounted g s (laneCount s g i) := .upd ⟨rfl, rfl, rfl, rfl⟩

theorem laneEvent_counted (s : State) (g kind : Nat) : LaneCounted g s (laneEvent s g kind) := by
  unfold laneEvent
  dsimp only
  split
  · exact .refl g s
  · split
    · exact LaneCounted.trans (.upd ⟨rfl, rfl, rfl, rfl⟩) (.calm (devIrq_calm (Calm.refl _)))
    · exact .upd ⟨rfl, rfl, rfl, rfl⟩

/-- A cut lane keeps its run. -/
theorem laneCut_cuts (s : State) (g : Nat) : LaneCounted g s (laneCut s g) ∧ ((laneCut s g).lane g).cut = true := by
  unfold laneCut
  extract_lets x s1
  have h1 : LaneCounted g s s1 := LaneCounted.trans (.upd ⟨rfl, rfl, rfl, rfl⟩) (laneCount_counted ..)
  have hcut : (s1.lane g).cut = true := by
    show (State.lane (State.updLane _ g _) g).cut = true
    rw [State.updLane_same, State.updLane_same]
  have hirq {p id : Nat} : Calm s1 (devIrq s1 p id 9 g) := devIrq_calm (Calm.refl s1)
  split
  · exact ⟨h1.trans (.calm hirq), (congrArg LaneRt.cut (hirq.lane g)).trans hcut⟩
  · exact ⟨h1, hcut⟩

theorem laneCut_pins (s : State) (g : Nat) : (laneCut s g).lp.pins = s.lp.pins := by
  unfold laneCut
  extract_lets x s1
  split
  · exact (congrArg LpState.pins (devIrq_calm (Calm.refl s1)).lp).trans rfl
  · rfl

/-! The pattern after a reload. -/

/-- A lane whose output follows the pattern and the gates again. -/
def followed (y : LaneRt) : LaneRt := { y with wait := false, gate := .follow }

/-- One update of every lane of a list. -/
theorem foldl_updLane (l : List Nat) (s : State) (k : Nat) :
    (l.foldl (fun a i => a.updLane i followed) s).lane k = if k ∈ l then followed (s.lane k) else s.lane k := by
  induction l generalizing s with
  | nil => rfl
  | cons i l ih =>
    rw [List.foldl_cons, ih, State.updLane_lane]
    by_cases hi : k = i
    · subst hi
      simp only [if_pos, List.mem_cons_self, ite_self, followed]
    · simp only [List.mem_cons, hi, false_or, if_false]

theorem laneFollow_lane (s : State) (g k : Nat) :
    (laneFollow s g).lane k = if k < 24 ∧ laneHead s k = g then followed (s.lane k) else s.lane k := by
  have hmem : k ∈ (List.range 24).filter (fun i => laneHead s i == g) ↔ k < 24 ∧ laneHead s k = g := by
    rw [List.mem_filter, List.mem_range, beq_iff_eq]
  unfold laneFollow
  rw [show (fun (a : State) i => a.updLane i (fun y => { y with wait := false, gate := .follow })) =
    fun a i => a.updLane i followed from rfl, foldl_updLane]
  simp only [hmem]

theorem laneHead_of_regs {a b : State} (h : a.regs = b.regs) (k : Nat) : laneHead a k = laneHead b k := by
  have hcfg (g : Nat) : laneCfg a g = laneCfg b g := by
    unfold laneCfg
    simp only [State.cfg_of_regs h]
  unfold laneHead
  rw [hcfg]

/-- What a reload of lane g leaves: the lanes that g does not govern, and the pattern of those that it does. -/
structure Reloaded (g : Nat) (a b : State) : Prop where
  other : ∀ k, k ≠ g → laneHead a k ≠ g → b.lane k = a.lane k
  follows : ∀ k, k < 24 → laneHead a k = g → (b.lane k).wait = false

theorem Reloaded.follow {g : Nat} {a s : State} (hregs : s.regs = a.regs) (h : LaneCounted g a s) : Reloaded g a (laneFollow s g) where
  other k hk hhead := by
    rw [laneFollow_lane, laneHead_of_regs hregs, if_neg fun hc => hhead hc.2]
    exact h.2 k hk
  follows k hk hhead := by
    rw [laneFollow_lane, laneHead_of_regs hregs, if_pos ⟨hk, hhead⟩]
    rfl

theorem Reloaded.upd {g : Nat} {a s : State} {f : LaneRt → LaneRt} (h : Reloaded g a s) (hf : (f (s.lane g)).wait = (s.lane g).wait) :
    Reloaded g a (s.updLane g f) where
  other k hk hhead := (s.updLane_other f hk).trans (h.other k hk hhead)
  follows k hk hhead := by
    by_cases he : k = g
    · rw [he, State.updLane_same, hf, ← he]
      exact h.follows k hk hhead
    · rw [State.updLane_other _ _ he]
      exact h.follows k hk hhead

theorem Reloaded.counted {g : Nat} {a s t : State} (h : Reloaded g a s) (k : LaneCounted g s t) : Reloaded g a t where
  other j hj hhead := (k.2 j hj).trans (h.other j hj hhead)
  follows j hj hhead := by
    obtain ⟨-, -, hwait, -⟩ := k.1 j
    exact hwait.trans (h.follows j hj hhead)

/-- A begun period (R275). -/
theorem startPeriod_starts {a s : State} {g : Nat} (at_ : Nat) (isNew : Bool) (hregs : s.regs = a.regs) (h : LaneCounted g a s) :
    Reloaded g a (startPeriod s g at_ isNew) ∧ ((startPeriod s g at_ isNew).lane g).running = true ∧
    ((startPeriod s g at_ isNew).lane g).start = at_ := by
  unfold startPeriod
  extract_lets x raw per s1 p s2 s3 s4 s5
  have hs1 : LaneCounted g s s1 ∧ LoopsStay s s1 := by
    show LaneCounted g s (if isNew && per != raw then laneCount s g 3 else s) ∧ LoopsStay s (if isNew && per != raw then laneCount s g 3 else s)
    split
    · exact ⟨laneCount_counted .., laneCount_loops ..⟩
    · exact ⟨.refl g s, .refl s⟩
  have h3 : LaneCounted g s s3 := (hs1.1.trans (.foldl _ fun _ _ => laneCount_counted ..)).trans (.foldl _ fun _ _ => laneCount_counted ..)
  have hr3 : LoopsStay s s3 := (hs1.2.trans (.foldl _ fun _ _ => laneCount_loops ..)).trans (.foldl _ fun _ _ => laneCount_loops ..)
  have h4 : Reloaded g a s4 := (Reloaded.follow (hr3.2.1.trans hregs) (h.trans h3)).upd rfl
  have hrun : (s4.lane g).running = true ∧ (s4.lane g).start = at_ := by
    show (State.lane (State.updLane _ g _) g).running = true ∧ (State.lane (State.updLane _ g _) g).start = at_
    rw [State.updLane_same]
    exact ⟨rfl, rfl⟩
  have hend {t : State} (ht : LaneCounted g s4 t) : Reloaded g a t ∧ (t.lane g).running = true ∧ (t.lane g).start = at_ := by
    obtain ⟨hr, hst, -, -⟩ := ht.1 g
    exact ⟨h4.counted ht, hr.trans hrun.1, hst.trans hrun.2⟩
  split
  · exact hend ((laneEvent_counted ..).trans (laneCut_cuts ..).1)
  · exact hend (laneEvent_counted ..)

/-- A reload at the end of the period: an ending lane stops, another begins its next period (R276, R278). -/
theorem laneReload_reloads {s : State} {g : Nat} (hrun : (s.lane g).running = true) {w : State}
    (hw : w = s.waitUntil (((s.lane g).start + (s.lane g).period) * 32768)) :
    (laneReload g s).tb = w.tb ∧ Reloaded g w (laneReload g s) ∧ ((laneReload g s).lane g).running = !(s.lane g).ending ∧
    ((s.lane g).ending = false → ((laneReload g s).lane g).start = (s.lane g).start + (s.lane g).period) := by
  unfold laneReload
  extract_lets l at_ s1 same s2
  have h1 : LaneCounted g w s1 ∧ LoopsStay w s1 := by
    rw [hw]
    exact ⟨laneEvent_counted .., laneEvent_loops ..⟩
  have h2 : LaneCounted g w s2 ∧ LoopsStay w s2 := by
    show LaneCounted g w (if same.isEmpty then s1 else _) ∧ LoopsStay w (if same.isEmpty then s1 else _)
    split
    · exact h1
    · exact ⟨(h1.1.trans (.upd ⟨rfl, rfl, rfl, rfl⟩)).trans (laneCount_counted ..),
        (h1.2.trans (updLane_loops ..)).trans (laneCount_loops ..)⟩
  have hnot : ¬(!l.running) = true := by
    rw [show l.running = true from hrun]
    decide
  rw [if_neg hnot]
  split
  case isTrue hending =>
    have hend : (s.lane g).ending = true := hending
    rw [State.updLane_same, hend]
    refine ⟨((laneFollow_loops ..).trans (updLane_loops ..)).1.trans h1.2.1, (Reloaded.follow h1.2.2.1 h1.1).upd rfl, rfl, fun h => ?_⟩
    exact absurd h Bool.true_eq_false_eq_False.elim
  case isFalse hgoing =>
    have hgo : (s.lane g).ending = false := Bool.eq_false_iff.mpr hgoing
    rw [hgo]
    split
    next c _ =>
      have h3 : LaneCounted g w (s2.updLane g (fun z => { z with raw := c.1, cmds := same })) := h2.1.trans (.upd ⟨rfl, rfl, rfl, rfl⟩)
      obtain ⟨hre, hr, hst⟩ := startPeriod_starts at_ true (by exact h2.2.2.1) h3
      exact ⟨(startPeriod_loops ..).1.trans h2.2.1, hre, hr, fun _ => hst⟩
    · obtain ⟨hre, hr, hst⟩ := startPeriod_starts at_ false h2.2.2.1 h2.1
      exact ⟨(startPeriod_loops ..).1.trans h2.2.1, hre, hr, fun _ => hst⟩

theorem State.waitUntil_lane (s : State) (t g : Nat) : (s.waitUntil t).lane g = s.lane g := by
  obtain ⟨n, hn⟩ := s.waitUntil_eq_pass t
  rw [hn]
  rfl

theorem laneCompare_event {s : State} {g : Nat} {n : Fin 2} {c : Nat} (hrun : (s.lane g).running = true)
    (hc : c = if n = 0 then (laneCfg s g).cmp0 else (laneCfg s g).cmp1) (hlt : c < (s.lane g).period) :
    laneCompare g n s = laneEvent (s.waitUntil (((s.lane g).start + c) * 32768)) g (2 + n) := by
  have hval : (if n.val = 0 then (laneCfg s g).cmp0 else (laneCfg s g).cmp1) = c := by
    rw [hc]
    simp only [Fin.ext_iff, Fin.val_zero]
  unfold laneCompare
  dsimp only
  rw [hval, hrun, decide_eq_true hlt]
  rfl

/-! The block inputs. -/

theorem setAsserted_reads (b : Nat) (v : Bool) (s : State) : pinAsserted (setAsserted b v s) b = v := by
  have hget : Tbl.get true (setAsserted b v s).lp.pins b = (v != bit (s.cfg (0x90200 + 4 * b) 0) 9) := (Tbl.get_set ..).trans (if_pos rfl)
  unfold pinAsserted
  rw [hget]
  show ((v != bit (s.cfg (0x90200 + 4 * b) 0) 9) != bit (s.cfg (0x90200 + 4 * b) 0) 9) = v
  rw [Bool.bne_assoc, bne_self_eq_false, Bool.bne_false]

/-- The cuts of a list of lanes. -/
theorem foldl_laneCut (l : List Nat) (s : State) : (l.foldl (fun a g => laneCut a g) s).lp.pins = s.lp.pins ∧
    (l.foldl (fun a g => laneCut a g) s).regs = s.regs ∧ ∀ k ∈ l, ((l.foldl (fun a g => laneCut a g) s).lane k).cut = true := by
  have hmono (a : State) (g k : Nat) (h : (a.lane k).cut = true) : ((laneCut a g).lane k).cut = true := by
    obtain ⟨⟨-, hother⟩, hcut⟩ := laneCut_cuts a g
    by_cases hk : k = g
    · rw [hk]
      exact hcut
    · rw [hother k hk]
      exact h
  induction l generalizing s with
  | nil => exact ⟨rfl, rfl, fun k hk => absurd hk List.not_mem_nil⟩
  | cons g l ih =>
    obtain ⟨hpins, hregs, hcut⟩ := ih (laneCut s g)
    refine ⟨hpins.trans (laneCut_pins s g), hregs.trans (laneCut_loops s g).2.1, fun k hk => ?_⟩
    obtain rfl | hk := List.mem_cons.mp hk
    · exact List.foldlRecOn (motive := fun a => (a.lane k).cut = true) l _ (laneCut_cuts s k).2 fun a ha j _ => hmono a j k ha
    · exact hcut k hk

theorem blockAssert_cuts {s : State} {b : Nat} (hwas : pinAsserted s b = false) : pinAsserted (blockAssert b s) b = true ∧
    (blockAssert b s).regs = s.regs ∧ ∀ k, k < 24 → (laneCfg s k).valid = true → (laneCfg s k).mask / 2 ^ b % 2 = 1 →
      (s.lane k).running = true → ((blockAssert b s).lane k).cut = true := by
  have hcuts : blockAssert b s = ((List.range 24).filter (fun g => (laneCfg s g).valid && (laneCfg s g).mask / 2 ^ b % 2 == 1 &&
      (s.lane g).running)).foldl (fun a g => laneCut a g) (setAsserted b true s) := by
    unfold blockAssert blockCut
    rw [hwas, setAsserted_reads]
    rfl
  obtain ⟨hpins, hregs, hcut⟩ := foldl_laneCut ((List.range 24).filter (fun g => (laneCfg s g).valid && (laneCfg s g).mask / 2 ^ b % 2 == 1 &&
      (s.lane g).running)) (setAsserted b true s)
  rw [← hcuts] at hpins hregs hcut
  refine ⟨?_, hregs, fun k hk hvalid hmask hrun => hcut k (List.mem_filter.mpr ⟨List.mem_range.mpr hk, ?_⟩)⟩
  · have hread := setAsserted_reads b true s
    unfold pinAsserted at hread ⊢
    rw [hpins, State.cfg_of_regs hregs]
    exact hread
  · rw [hvalid, hmask, hrun]
    rfl

/-! The forces. -/

theorem storeSetup_glForceGo {s : State} (p : Nat) (v : BitVec 32) (h : domSt s 10 = .run) : storeSetup p 0x90108 v s = forceGo p v s := by
  obtain ⟨i, hreg, htx, hrw⟩ : ∃ i, regInfo 0x90108 = some i ∧ i.tx = 0#32 ∧ i.rw = 0#32 := ⟨_, rfl, rfl, rfl⟩
  have hdom : domOn s 0x90108 (sliceSel s p 0x90108) = true := by
    show (domSt s 10 == .run) = true
    rw [h]
    rfl
  have hrule (sel : Nat) : writeRule s 0x90108 sel = .any := rfl
  simp [storeSetup, hreg, hdom, hrule, htx, hrw, WriteRule.allows, storeRw, storeW1c, storeWo]

theorem exec_glForceGo {s : State} {t p : Nat} {h : Hearth} (v : BitVec 32) (hc : CoreOf (s.runTo t) h p)
    (hdom : domSt (s.runTo t) 10 = .run) : exec (.glForceGo t h v) s = .next (coreDone h (forceGo p v (s.runTo t))) := by
  show Host.Outcome.next (coreStore t h 0x90108 v s) = _
  rw [coreStore_eq hc (by decide) (by decide), storeSetup_glForceGo p v hdom]

theorem forceCode_mod {c : Nat} (h : c < 4) : (if c = 3 then 0 else c) = c % 3 := by split <;> omega

/-- The forces staged for the masked lanes of the writer wait for their edge (R281). -/
theorem forceGo_waits {s : State} {p : Nat} {v : BitVec 32}
    (hpairs : ∀ k, k < 24 → bit v k = true → laneHead s (k / 2 * 2 + 1) ≠ k / 2 * 2) : ∃ ign, forceGo p v s = { s with
      lp.forceIgn := ign, lp.gos := s.lp.gos ++ [GlGo.mk p (slotCeil (now16 s + us16 2))
        (((List.range 24).filter (fun k => bit v k && laneOwner s k == p)).map (fun k =>
          (k, (if k < 16 then fld (s.cfg 0x90100 p) (2 * k + 1) (2 * k)
            else fld (s.cfg 0x90104 p) (2 * (k - 16) + 1) (2 * (k - 16))) % 3)))] } := by
  unfold forceGo
  extract_lets lo hi val masked mine after both
  have hboth : both = false := by
    refine List.any_eq_false.mpr fun k hk => ?_
    obtain ⟨hlt, hbit⟩ := List.mem_filter.mp hk
    have hne := beq_eq_false_iff_ne.mpr (hpairs k (List.mem_range.mp hlt) hbit)
    rw [hne]
    simp
  have hval (k : Nat) : val k = (if k < 16 then fld (s.cfg 0x90100 p) (2 * k + 1) (2 * k)
      else fld (s.cfg 0x90104 p) (2 * (k - 16) + 1) (2 * (k - 16))) % 3 := by
    refine forceCode_mod ?_
    split
    · exact (fld_lt ..).trans_le (by rw [show 2 * k + 1 + 1 - 2 * k = 2 by omega]; decide)
    · exact (fld_lt ..).trans_le (by rw [show 2 * (k - 16) + 1 + 1 - 2 * (k - 16) = 2 by omega]; decide)
  have hmine : mine = (List.range 24).filter (fun k => bit v k && laneOwner s k == p) := by
    show List.filter _ (List.filter _ _) = _
    rw [List.filter_filter]
    exact List.filter_congr fun k _ => Bool.and_comm ..
  rw [hboth, if_neg Bool.false_ne_true, hmine]
  simp only [hval]
  exact ⟨_, rfl⟩

/-- Settles O41: the reload, the compare, the block inputs and the forces. -/
theorem lanes : Obligations.Lanes := by
  refine ⟨fun s g halive hrun => ⟨?_, fun n c hc hlt => ?_⟩, ?_, ?_⟩
  · rw [exec_laneReload halive]
    obtain ⟨htb, hre, hr, hst⟩ := laneReload_reloads hrun rfl
    have hhead (k : Nat) := laneHead_of_regs (State.waitUntil_regs s (((s.lane g).start + (s.lane g).period) * 32768)) k
    refine ⟨_, rfl, htb, hr, hst, fun k hk hother => ?_, fun k hk hg => hre.follows k hk ((hhead k).trans hg)⟩
    exact (hre.other k hk (by rwa [hhead])).trans (s.waitUntil_lane _ k)
  · rw [exec_laneCompare halive, laneCompare_event hrun hc hlt]
  · rintro s _ t b rfl
    refine ⟨fun hwas => ?_, _, rfl, setAsserted_reads b false (s.runTo t), rfl⟩
    obtain ⟨hpin, hregs, hcut⟩ := blockAssert_cuts hwas
    exact ⟨_, rfl, hpin, hcut, hregs⟩
  · rintro s _ t h p v rfl hc hdom hpairs
    rw [exec_glForceGo v hc hdom]
    obtain ⟨ign, hgo⟩ := forceGo_waits (p := p) hpairs
    rw [hgo]
    exact ⟨_, rfl, rfl, rfl, rfl⟩

end Sys2Proof.Machine
end


section
/-! Admission to the queues of the green (R361, R371, R386). -/

namespace Sys2Proof.Machine

/-- State b differs from state a at most in the counters of the queues. -/
def QueuesCounted (a b : State) : Prop := ∃ cnt, b = { a with gn.cnt := cnt }

theorem QueuesCounted.refl (s : State) : QueuesCounted s s := ⟨s.gn.cnt, rfl⟩

theorem QueuesCounted.gnCount {a b : State} (h : QueuesCounted a b) (i q c : Nat) : QueuesCounted a (gnCount b i q c) := by
  obtain ⟨cnt, rfl⟩ := h
  exact ⟨_, rfl⟩

theorem QueuesCounted.foldl {β : Type} {a b : State} {f : State → β → State} (l : List β) (h : QueuesCounted a b)
    (hf : ∀ x y, QueuesCounted a x → QueuesCounted a (f x y)) : QueuesCounted a (l.foldl f b) :=
  List.foldlRecOn (motive := QueuesCounted a) l f h fun x hx y _ => hf x y hx

section
variable {s : State} {f : GFrame} {wants : List Nat}

theorem enqueue_refused (h : wants.filter (fun q => admits s q f.cls) = []) :
    (enqueue f wants s).gn.frames = s.gn.frames ∧ (enqueue f wants s).mc = s.mc := by
  unfold enqueue
  extract_lets ok s1 s2 n x f1 w s3
  have hok : ok.isEmpty = true := List.isEmpty_iff.mpr h
  obtain ⟨cnt, h1⟩ : QueuesCounted s s1 := QueuesCounted.foldl _ (.refl s) fun x q hx => hx.gnCount 1 q f.cls
  rw [if_pos hok]
  split
  · have hcalm {key fl : Nat} : Calm s1 (finishKey s1 key fl stRefusedFull) := finishKey_calm (Calm.refl s1)
    exact ⟨(congrArg GnState.frames hcalm.gn).trans (by rw [h1]), hcalm.mc.trans (by rw [h1])⟩
  · rw [h1]
    exact ⟨rfl, rfl⟩

theorem enqueue_admitted (h : wants.filter (fun q => admits s q f.cls) ≠ [])
    (hports : ∀ q ∈ wants, q < 13 → macEn s q = true ∧ pastHold s q = false) : ∃ (g : GFrame) (cnt : Tbl Nat),
      enqueue f wants s = { s with gn.cnt := cnt, gn.nextId := s.gn.nextId + 1, gn.frames := s.gn.frames ++ [g] } ∧
      g.octets = f.octets ∧ g.cls = f.cls ∧ g.src = f.src ∧ g.id = s.gn.nextId ∧
      g.outs.map (·.port) = wants.filter (fun q => admits s q f.cls) ∧ g.xp + g.sp = cellsOf f.octets.length := by
  unfold enqueue
  extract_lets ok s1 s2 n x w src s3
  have hok : ¬ ok.isEmpty = true := fun he => h (List.isEmpty_iff.mp he)
  have h1 : QueuesCounted s s1 := QueuesCounted.foldl _ (.refl s) fun x q hx => hx.gnCount 1 q f.cls
  obtain ⟨cnt, h2⟩ : QueuesCounted s s2 := h1.foldl _ fun x q hx => by
    dsimp only
    split
    · exact (hx.gnCount ..).gnCount ..
    · exact hx.gnCount ..
  have hs3 : s3 = { s with gn.cnt := cnt, gn.nextId := s.gn.nextId + 1, gn.frames := s.gn.frames ++ [w] } := by
    show ({ s2 with gn.nextId := s.gn.nextId + 1, gn.frames := s2.gn.frames ++ [w] } : State) = _
    rw [h2]
  have hstay : ((ok.filter (fun q => decide (q < 13))).foldl (fun a q =>
      if !macEn a q then discardAt q 6 w a else if pastHold a q then discardAt q 2 w a else a) s3) = s3 := by
    refine List.foldlRecOn (motive := (· = s3)) _ _ rfl fun a ha q hq => ?_
    subst ha
    obtain ⟨hqok, hlt⟩ := List.mem_filter.mp hq
    obtain ⟨hen, hup⟩ := hports q (List.mem_filter.mp hqok).1 (of_decide_eq_true hlt)
    have hen3 : macEn s3 q = true := by rw [hs3]; exact hen
    have hup3 : pastHold s3 q = false := by rw [hs3]; exact hup
    rw [hen3, hup3]
    rfl
  rw [if_neg hok, hstay]
  refine ⟨w, cnt, hs3, rfl, rfl, rfl, rfl, ?_, Nat.add_sub_cancel' (Nat.min_le_left ..)⟩
  show (ok.map _).map _ = ok
  rw [List.map_map]
  exact List.map_id ok

end

/-- Settles O42: a frame that some output admits, and one that none admits. -/
theorem admission : Obligations.Admission := by
  intro s f wants
  refine ⟨fun h hports => ?_, enqueue_refused⟩
  obtain ⟨g, cnt, he, hoctets, hcls, hsrc, hid, houts, hcells⟩ := enqueue_admitted h hports
  rw [he]
  exact ⟨g, rfl, hoctets, hcls, hsrc, hid, houts, hcells, rfl, rfl⟩

end Sys2Proof.Machine
end

section
/-! The start and the end of a transmission (R363, R365, R378). -/

namespace Sys2Proof.Machine

theorem exec_frameTxStart {s : State} {t : Nat} {q : Port} (h : portLive (s.runTo t) q = true) :
    exec (.frameTxStart t q) s = .next (checkRows [2] (frameTxStart q (s.runTo t))) := congrArg _ (byPort_eq h)
theorem exec_frameTxComplete {s : State} {t : Nat} {q : Port} (h : portLive (s.runTo t) q = true) :
    exec (.frameTxComplete t q) s = .next (checkRows [1, 2] (frameTxComplete q (s.runTo t))) := congrArg _ (byPort_eq h)

theorem State.runTo_eq_pass (s : State) (t : Nat) : ∃ n, s.runTo t = s.pass n := ⟨_, rfl⟩

/-- From state a to state b no time passes, and the MACs and the registers stay. -/
def PortsStay (a b : State) : Prop := b.tb = a.tb ∧ b.regs = a.regs ∧ b.mc = a.mc

theorem PortsStay.refl (s : State) : PortsStay s s := ⟨rfl, rfl, rfl⟩

theorem PortsStay.trans {a b c : State} (h : PortsStay a b) (k : PortsStay b c) : PortsStay a c :=
  ⟨k.1.trans h.1, k.2.1.trans h.2.1, k.2.2.trans h.2.2⟩

theorem Calm.ports {a b : State} (h : Calm a b) : PortsStay a b := ⟨h.tb, h.regs, h.mc⟩

theorem checkRows_ports (rows : List Nat) (s : State) : PortsStay s (checkRows rows s) := by
  obtain ⟨i, h⟩ := checkRows_pair rows s
  exact ⟨h.tb, h.regs, h.mc⟩

theorem PortsStay.mac {a b : State} (h : PortsStay a b) (q : Nat) : b.mac q = a.mac q := by
  rw [State.mac, h.2.2]
  rfl

theorem PortsStay.macCntOf {a b : State} (h : PortsStay a b) (q i : Nat) : macCntOf b q i = macCntOf a q i := by
  rw [Machine.macCntOf, h.2.2]
  rfl

theorem State.updMac_same (s : State) (q : Nat) (f : Mac → Mac) : (s.updMac q f).mac q = f (s.mac q) :=
  (s.updMac_mac q q f).trans (if_pos rfl)

theorem State.updMac_other (s : State) {q k : Nat} (f : Mac → Mac) (h : k ≠ q) : (s.updMac q f).mac k = s.mac k :=
  (s.updMac_mac q k f).trans (if_neg h)

theorem pushTsq_ports (s : State) (q n : Nat) (st : Stamp) : PortsStay s (pushTsq s q n st) := by
  unfold pushTsq
  split
  · exact ⟨rfl, rfl, rfl⟩
  · extract_lets src s1
    split
    · exact PortsStay.trans ⟨rfl, rfl, rfl⟩ (devIrq_calm (Calm.refl s1)).ports
    · exact ⟨rfl, rfl, rfl⟩

theorem stampQueue_ports (s : State) (q id : Nat) (evt : Stamp) : PortsStay s (stampQueue s q id evt) := by
  unfold stampQueue
  split
  · split
    · exact pushTsq_ports ..
    · exact .refl s
  · exact .refl s

theorem noteSync_ports (q : Nat) (f : GFrame) (evt : Stamp) (s : State) : PortsStay s (noteSync q f evt s) := by
  unfold noteSync
  split
  · split
    · exact .refl s
    · dsimp only
      split
      · exact ⟨rfl, rfl, rfl⟩
      · exact .refl s
  · exact .refl s

theorem dropPair_ports (q : Nat) (f : GFrame) (s : State) : PortsStay s (dropPair q f s) := by
  unfold dropPair
  split
  · split
    · split
      · exact ⟨rfl, rfl, rfl⟩
      · exact .refl s
    · exact .refl s
  · exact .refl s

theorem takeIdent_ports (s : State) (q : Nat) (f : GFrame) : PortsStay s (takeIdent s q f) := by
  unfold takeIdent
  split
  · exact ⟨rfl, rfl, rfl⟩
  · exact .refl s

theorem dropOut_ports (s : State) (id q : Nat) : PortsStay s (dropOut s id q) := ⟨rfl, rfl, rfl⟩

theorem txDone_ports (q : Nat) (x : TxRun) (f : GFrame) (s : State) : PortsStay s (txDone q x f s) := by
  unfold txDone
  split
  · exact (completeKey_calm (Calm.refl s)).ports
  · exact ⟨rfl, rfl, rfl⟩
  · exact .refl s

/-- A frame begun: its run on the port's MAC is new, and nothing else of the MACs changes. -/
theorem beginFrame_mac (q : Nat) (f : GFrame) (s : State) : (beginFrame q f s).tb = s.tb ∧ (beginFrame q f s).regs = s.regs ∧
    (∃ w : TxRun, (beginFrame q f s).mac q = { s.mac q with tx := some w } ∧ w.id = f.id ∧ w.start = s.tb.edge ∧ w.sent = 0) ∧
    ∀ k, k ≠ q → (beginFrame q f s).mac k = s.mac k := by
  unfold beginFrame
  extract_lets evt out s1 s2
  have h1 : PortsStay s s1 := (takeIdent_ports s q f).trans ⟨rfl, rfl, rfl⟩
  let w : TxRun := { id := f.id, start := s.tb.edge, evt := evt, express := decide (4 ≤ f.cls), total := out.length + 4, out := out }
  have h2 : s2.mac q = { s.mac q with tx := some w } := by
    rw [← h1.mac]
    exact s1.updMac_same q _
  have hend {y : State} (hy : PortsStay s2 y) : y.tb = s.tb ∧ y.regs = s.regs ∧
      (∃ w : TxRun, y.mac q = { s.mac q with tx := some w } ∧ w.id = f.id ∧ w.start = s.tb.edge ∧ w.sent = 0) ∧
      ∀ k, k ≠ q → y.mac k = s.mac k := by
    exact ⟨hy.1.trans h1.1, hy.2.1.trans h1.2.1, ⟨w, (hy.mac q).trans h2, rfl, rfl, rfl⟩,
      fun k hk => ((hy.mac k).trans (s1.updMac_other _ hk)).trans (h1.mac k)⟩
  split
  · exact hend (.refl s2)
  · exact hend ((stampQueue_ports ..).trans (noteSync_ports ..))

theorem frameTxStart_begins {s : State} {q : Nat} {f : GFrame} {d : Tbl Nat} {n : Nat} (hq : q ≠ 19) (hlink : (s.mac q).link = true)
    (hbackoff : (s.mac q).backoff = none) (htx : (s.mac q).tx = none) (hsusp : (s.mac q).susp = none)
    (hchoose : chooseFrame s q = some (f, d, n)) (hfresh : staleAt s q f = false) :
    frameTxStart q s = beginFrame q f (s.updMac q (fun y => { y with deficit := d, turn := n })) := by
  unfold frameTxStart
  dsimp only
  rw [hlink, hbackoff, htx]
  dsimp only
  unfold startNext
  dsimp only
  rw [hsusp]
  dsimp only
  rw [hchoose]
  dsimp only
  rw [hfresh, setTurn, if_neg hq]
  rfl

/-- The end of the frame sent on a full-duplex port. -/
theorem frameTxComplete_ends {s : State} {q : Nat} {w : TxRun} (htx : (s.mac q).tx = some w) (hhalf : (s.mac q).half = false) {e : Nat}
    (he : e = w.start + bitEdges (s.mac q).speed ((w.total - w.sent) * 8)) :
    PortsStay (wireOut (macCount (macCount ((s.runTo e).updMac q (fun y => { y with tx := none, tries := 0 })) q 12 1) q 13 w.total) q
      (.frame w.evt w.out)) (frameTxComplete q s) := by
  unfold frameTxComplete
  dsimp only
  rw [htx]
  dsimp only
  rw [hhalf, if_neg Bool.false_ne_true, ← he]
  split
  · exact .refl _
  · exact (dropPair_ports ..).trans ((dropOut_ports ..).trans (txDone_ports ..))

theorem macCount_mac (s : State) (q i n k : Nat) : (macCount s q i n).mac k = s.mac k := rfl
theorem wireOut_mac (s : State) (q k : Nat) (w : WireOut) : (wireOut s q w).mac k = s.mac k := rfl
theorem wireOut_macCntOf (s : State) (q k i : Nat) (w : WireOut) : macCntOf (wireOut s q w) k i = macCntOf s k i := rfl
theorem updMac_macCntOf (s : State) (q k i : Nat) (f : Mac → Mac) : macCntOf (s.updMac q f) k i = macCntOf s k i := rfl
theorem State.pass_macCntOf (s : State) (n k i : Nat) : macCntOf (s.pass n) k i = macCntOf s k i := rfl
theorem State.runTo_mac (s : State) (t k : Nat) : (s.runTo t).mac k = s.mac k := rfl

theorem macCntOf_macCount (s : State) (q i n j : Nat) : macCntOf (macCount s q i n) q j =
    if j = i then (if i = 1 ∨ i = 13 then (macCntOf s q i + n) % 2 ^ 32 else add32 (macCntOf s q i) n) else macCntOf s q j := by
  unfold macCntOf macCount
  dsimp only
  rw [Tbl.get_upd]
  by_cases h : j = i
  · rw [if_pos (by omega), if_pos h]
  · rw [if_neg (by omega), if_neg h]

/-- Settles O43: the frame that begins, and the one that ends. -/
theorem frameTransmission : Obligations.FrameTransmission := by
  rintro s _ t q rfl hlive
  refine ⟨fun f d n hlink hbackoff htx hsusp hchoose hfresh => ?_, fun w htx hhalf => ?_⟩
  · rw [exec_frameTxStart hlive, frameTxStart_begins (Nat.ne_of_lt (q.isLt.trans (by decide))) hlink hbackoff htx hsusp hchoose hfresh]
    obtain ⟨htb, hregs, ⟨w, hmac, hid, hstart, hsent⟩, hother⟩ :=
      beginFrame_mac q f ((s.runTo t).updMac q (fun y => { y with deficit := d, turn := n }))
    rw [State.updMac_same] at hmac
    have hstay := checkRows_ports [2] (beginFrame q f ((s.runTo t).updMac q (fun y => { y with deficit := d, turn := n })))
    have hq := (hstay.mac q).trans hmac
    refine ⟨_, w, rfl, ?_, hid, hstart, hsent, ?_, ?_, hstay.1.trans htb, hstay.2.1.trans hregs, fun k hk => ?_⟩
    · rw [hq]
    · rw [hq]
    · rw [hq]
    · exact ((hstay.mac k).trans (hother k hk)).trans ((s.runTo t).updMac_other _ hk)
  · rw [exec_frameTxComplete hlive]
    generalize s.runTo t = x at hlive htx hhalf ⊢
    have hstay := (frameTxComplete_ends htx hhalf rfl).trans (checkRows_ports [1, 2] (frameTxComplete q x))
    generalize w.start + bitEdges (x.mac q).speed ((w.total - w.sent) * 8) = e at hstay ⊢
    obtain ⟨m, hm⟩ := x.runTo_eq_pass e
    refine ⟨_, rfl, ?_, hstay.1, ?_, ?_, ?_, fun k hk => ?_⟩
    · rw [hstay.mac, wireOut_mac, macCount_mac, macCount_mac, State.updMac_same]
    · rw [hstay.2.2, hstay.1, hm]
      rfl
    · rw [hstay.macCntOf, wireOut_macCntOf, macCntOf_macCount, if_neg (by decide), macCntOf_macCount, if_pos rfl, if_neg (by decide),
        updMac_macCntOf, hm, State.pass_macCntOf]
    · rw [hstay.macCntOf, wireOut_macCntOf, macCntOf_macCount, if_pos rfl, if_pos (by decide), macCntOf_macCount, if_neg (by decide),
        updMac_macCntOf, hm, State.pass_macCntOf]
    · rw [hstay.mac, wireOut_mac, macCount_mac, macCount_mac, State.updMac_other _ _ hk, State.runTo_mac]

end Sys2Proof.Machine
end


section
/-! Reception and delivery (R340, R367 to R370, R375). -/

namespace Sys2Proof.Machine

theorem exec_frameRx {s : State} {t : Nat} {q : Port} (o : List (BitVec 8)) (fl : RxFlags) (h : portLive (s.runTo t) q = true) :
    exec (.frameRx t q o fl) s = .next (portFrame q o fl (s.runTo t)) := congrArg _ (byPort_eq h)
theorem exec_frameDelivery {s : State} {t : Nat} (h : alive (s.runTo t) = true) :
    exec (.frameDelivery t) s = .next (checkRows [1, 3] (frameDelivery (s.runTo t))) := congrArg _ (live_eq h)

theorem checkRows_frames (rows : List Nat) (s : State) : (checkRows rows s).gn.frames = s.gn.frames := by
  obtain ⟨i, h⟩ := checkRows_pair rows s
  exact (congrArg GnState.frames h.gn).trans rfl

theorem fragments_whole {s : State} {q : Nat} {fl : RxFlags} (hfrag : fl.fragErr = false)
    (hsmd : fl.smd = false ∨ (s.mac q).preempt = true) : (fl.fragErr || (fl.smd && !(s.mac q).preempt)) = false := by
  rw [hfrag, Bool.false_or]
  obtain h | h := hsmd <;> rw [h]
  · rfl
  · exact Bool.and_false _

/-! The faults, in the order of R375. -/

section
variable {s : State} {q : Nat} {o : List (BitVec 8)} {fl : RxFlags} (hen : macEn s q = true) (hfrag : fl.fragErr = false)
  (hsmd : fl.smd = false ∨ (s.mac q).preempt = true)
include hen hfrag hsmd

theorem portFrame_codeErr (hcode : fl.codeErr = true) : portFrame q o fl s = macCount s q 3 1 := by
  unfold portFrame frameRx
  rw [hen, fragments_whole hfrag hsmd, hcode]
  rfl

section
variable (hcode : fl.codeErr = false)
include hcode

theorem portFrame_fcsErr (hfcs : fl.fcsErr = true) : portFrame q o fl s = macCount s q (if fl.smd then 7 else 2) 1 := by
  unfold portFrame frameRx
  rw [hen, fragments_whole hfrag hsmd, hcode, hfcs]
  rfl

section
variable (hfcs : fl.fcsErr = false)
include hfcs

theorem portFrame_short (hlen : o.length < 60) : portFrame q o fl s = macCount s q 4 1 := by
  have hlen' : o.length + 4 < 64 := by omega
  unfold portFrame frameRx
  rw [hen, fragments_whole hfrag hsmd, hcode, hfcs, if_pos hlen']
  rfl

theorem portFrame_long (hlen : 1518 < o.length) : portFrame q o fl s = macCount s q 5 1 := by
  have hshort : ¬ o.length + 4 < 64 := by omega
  have hlong : o.length + 4 > 1522 := by omega
  unfold portFrame frameRx
  rw [hen, fragments_whole hfrag hsmd, hcode, hfcs, if_neg hshort, if_pos hlong]
  rfl

/-- A frame without fault that is no MAC control frame goes on to classification outside ingest's ports (R367). -/
theorem portFrame_green (hmin : 60 ≤ o.length) (hmax : o.length ≤ 1518) (hport : 8 ≤ q) (hcontrol : be o 12 2 ≠ 0x8808) :
    portFrame q o fl s = checkRows [1] (toGreen q o fl.since (macCount (macCount s q 0 1) q 1 (o.length + 4))) := by
  have hshort : ¬ o.length + 4 < 64 := by omega
  have hlong : ¬ o.length + 4 > 1522 := by omega
  have hbeacon (x : State) : beaconOf x q o = none := if_neg fun h => absurd h.1 (Nat.not_lt.mpr hport)
  have hingest (x : State) : igFrameRx flArrivalMessage fl.since q o x = (x, some o) := if_pos hport
  unfold portFrame frameRx
  rw [hen, fragments_whole hfrag hsmd, hcode, hfcs, if_neg hshort, if_neg hlong]
  dsimp only
  rw [hbeacon, hingest, if_neg (by decide), if_neg (by decide), if_neg (by decide), if_neg (by decide), if_neg fun h => hcontrol h.1]

end

end

end

section
variable {s : State} {q i since : Nat} {o : List (BitVec 8)} (hptp : ptpOff o = none)
  (hclass : classify (bankAt s (s.tb.edge - since)) q o = some i)
include hptp hclass

/-- The entry's drop bit discards the frame (R369). -/
theorem toGreen_drops (hdrop : bit (clsWord (bankAt s (s.tb.edge - since)) i 5) 31 = true) :
    ∃ cls, toGreen q o since s = gnCount s 1 q cls := by
  unfold toGreen
  dsimp only
  rw [hptp]
  dsimp only
  rw [if_neg Bool.false_ne_true, hclass]
  dsimp only
  rw [if_pos hdrop]
  exact ⟨_, rfl⟩

/-- A forwarded frame joins the outputs of its entry but the port it came from (R369). -/
theorem toGreen_forwards (hswap : s.gn.swapAt ≤ s.tb.edge - since) (hdrop : bit (clsWord (bankAt s (s.tb.edge - since)) i 5) 31 = false)
    (hring : bit (clsWord (bankAt s (s.tb.edge - since)) i 5) 30 = false) {outs : List Nat}
    (houts : outs = (List.range 13).filter (fun k => bit (clsWord (bankAt s (s.tb.edge - since)) i 5) k && k != q)) (hsome : outs ≠ []) :
    ∃ f : GFrame, f.octets = o ∧ f.src = .ext q ∧ f.epoch = s.gn.epoch ∧ toGreen q o since s = enqueue f outs s := by
  have hepoch : epochAt s (s.tb.edge - since) = s.gn.epoch := if_neg (Nat.not_lt.mpr hswap)
  have hempty : outs.isEmpty = false := by
    rw [List.isEmpty_eq_false_iff]
    exact hsome
  unfold toGreen
  dsimp only
  rw [hptp]
  dsimp only
  rw [if_neg Bool.false_ne_true, hclass]
  dsimp only
  rw [hdrop, hring, ← houts, tcOutputs, hptp]
  dsimp only
  rw [hempty, hepoch]
  exact ⟨_, rfl, rfl, rfl, rfl⟩

end

/-- The oldest fetched buffer of its ring takes the frame (R340). -/
theorem frameDelivery_fills {s : State} {f : GFrame} {d : Tbl Nat × Nat} {q p r : Nat} {g : Flight}
    (hchoose : chooseFrame s 19 = some (f, d)) (htarget : f.target = some (p, r)) (hsrc : f.src = .ext q) (hen : (ringCfg s p r).en = true)
    (htype : (ringCfg s p r).type = 3 ∨ (ringCfg s p r).type = 4) (hport : f.waived = true ∨ (ringCfg s p r).port = q)
    (hflight : (s.ring p r).flights.find? (fun g => !g.fence && g.res.isNone && opcodeOf g.words == 0x12) = some g) :
    ∃ w3, frameDelivery s = complete (devWrite (dropOut (setTurn 19 d s) f.id 19) p (addr48 g.words 2) f.octets) p r g.id
      (Wb.mk stDone 0 f.octets.length [(3, w3)] (some f.rx) none) := by
  have hrx : ((ringCfg s p r).en && ((ringCfg s p r).type == 3 || (ringCfg s p r).type == 4) &&
      (f.waived || (ringCfg s p r).port == q)) = true := by
    rw [hen]
    simpa using ⟨htype, hport⟩
  unfold frameDelivery
  rw [hchoose]
  dsimp only
  rw [htarget, hsrc]
  dsimp only
  rw [hrx, Bool.not_true, if_neg Bool.false_ne_true, hflight]
  exact ⟨_, rfl⟩

/-- Settles O44: the faults in their order, the frame dropped or forwarded, and the delivery. -/
theorem frameReception : Obligations.FrameReception := by
  constructor
  · rintro s _ t q o fl rfl hlive hen hfrag hsmd
    rw [exec_frameRx o fl hlive]
    refine ⟨fun hcode => ?_, fun hcode hfcs => ?_, fun hcode hfcs hlen => ?_, fun hcode hfcs hlen => ?_,
      fun i hcode hfcs hmin hmax hport hcontrol hptp hswap hclass => ⟨fun hdrop => ?_, fun hdrop hring hsome => ?_⟩⟩
    · rw [portFrame_codeErr hen hfrag hsmd hcode]
    · rw [portFrame_fcsErr hen hfrag hsmd hcode hfcs]
    · rw [portFrame_short hen hfrag hsmd hcode hfcs hlen]
    · rw [portFrame_long hen hfrag hsmd hcode hfcs hlen]
    · rw [portFrame_green hen hfrag hsmd hcode hfcs hmin hmax hport hcontrol]
      obtain ⟨cls, hto⟩ := toGreen_drops (s := macCount (macCount (s.runTo t) q 0 1) q 1 (o.length + 4)) hptp hclass hdrop
      rw [hto]
      refine ⟨_, rfl, checkRows_frames .., ?_⟩
      rw [(checkRows_ports ..).macCntOf]
      show macCntOf (macCount _ q 1 (o.length + 4)) q 0 = _
      rw [macCntOf_macCount, if_neg (by decide), macCntOf_macCount, if_pos rfl, if_neg (by decide)]
    · rw [portFrame_green hen hfrag hsmd hcode hfcs hmin hmax hport hcontrol]
      obtain ⟨f, ho, hsrc, hepoch, hto⟩ := toGreen_forwards (s := macCount (macCount (s.runTo t) q 0 1) q 1 (o.length + 4)) hptp hclass hswap
        hdrop hring rfl hsome
      rw [hto]
      exact ⟨f, ho, hsrc, hepoch, rfl⟩
  · rintro s _ t f d q p r g rfl halive hchoose htarget hsrc hen htype hport hflight
    obtain ⟨w3, hfills⟩ := frameDelivery_fills hchoose htarget hsrc hen htype hport hflight
    rw [exec_frameDelivery halive, hfills]
    exact ⟨w3, rfl⟩

end Sys2Proof.Machine
end


section
/-! Links: loss, hold, link up and verification (R373, R377, R382 to R385). -/

namespace Sys2Proof.Machine

section
variable {s : State} {t : Nat} {q : Port}

theorem exec_linkLoss (h : portLive (s.runTo t) q = true) (rc : Bool) :
    exec (.linkLoss t q rc) s = .next (checkRows [1, 2] (linkLoss q rc (s.runTo t))) := congrArg _ (byPort_eq h)
theorem exec_linkUp (h : portLive (s.runTo t) q = true) (v : Fin 8) (hd : Bool) :
    exec (.linkUp t q v hd) s = .next (linkUp q v hd (s.runTo t)) := congrArg _ (byPort_eq h)
theorem exec_holdExpiry (h : alive s = true) : exec (.holdExpiry q) s = .next (checkRows [1] (holdExpiry q s)) := congrArg _ (live_eq h)
theorem exec_preemptionVerificationRx (h : portLive (s.runTo t) q = true) (k : VerifyKind) :
    exec (.preemptionVerificationRx t q k) s = .next (verifyRx q k (s.runTo t)) := congrArg _ (byPort_eq h)
theorem exec_verifyTimeout (h : alive s = true) : exec (.verifyTimeout q) s = .next (verifyTimeout q s) := congrArg _ (live_eq h)

end

/-! Discards change no MAC, and of a port's counters those of the discards alone (R386). -/

/-- Is i none of a port's counters of discards? -/
def NoDiscardCount (i : Nat) : Prop := i ≠ 14 ∧ i ≠ 15 ∧ i ≠ 18 ∧ i ≠ 19

theorem reasonCounter_ne {i : Nat} (h : NoDiscardCount i) (reason : Nat) : i ≠ reasonCounter reason := by
  obtain ⟨h14, h15, h18, h19⟩ := h
  unfold reasonCounter
  split
  · exact h14
  · exact h18
  · exact h19
  · exact h15

/-- From state a to state b frames are discarded at port q. -/
structure Discards (q : Nat) (a b : State) : Prop where
  tb : b.tb = a.tb
  regs : b.regs = a.regs
  macs : b.mc.macs = a.mc.macs
  wire : b.mc.wire = a.mc.wire
  counts : ∀ i, NoDiscardCount i → macCntOf b q i = macCntOf a q i

theorem Discards.refl (q : Nat) (s : State) : Discards q s s := ⟨rfl, rfl, rfl, rfl, fun _ _ => rfl⟩

theorem Discards.trans {q : Nat} {a b c : State} (h : Discards q a b) (k : Discards q b c) : Discards q a c :=
  ⟨k.tb.trans h.tb, k.regs.trans h.regs, k.macs.trans h.macs, k.wire.trans h.wire, fun i hi => (k.counts i hi).trans (h.counts i hi)⟩

theorem Discards.mac {q : Nat} {a b : State} (h : Discards q a b) (k : Nat) : b.mac k = a.mac k := by
  rw [State.mac, h.macs]
  rfl

theorem PortsStay.discards {a b : State} (h : PortsStay a b) (q : Nat) : Discards q a b :=
  ⟨h.1, h.2.1, congrArg McState.macs h.2.2, congrArg McState.wire h.2.2, fun i _ => h.macCntOf q i⟩

/-- A discard counts once in its reason's counter. -/
theorem discardAt_ports (q reason : Nat) (f : GFrame) (s : State) :
    PortsStay (macCount s q (reasonCounter reason) 1) (discardAt q reason f s) := by
  unfold discardAt
  dsimp only
  split
  · exact PortsStay.trans (b := macCount (dropOut s f.id q) q (reasonCounter reason) 1) ⟨rfl, rfl, rfl⟩
      (completeKey_calm (Calm.refl _)).ports
  · exact ⟨rfl, rfl, rfl⟩

theorem macCount_discards {q i : Nat} (n : Nat) (s : State) (h : ∀ j, NoDiscardCount j → j ≠ i) : Discards q s (macCount s q i n) :=
  ⟨rfl, rfl, rfl, rfl, fun j hj => (macCntOf_macCount ..).trans (if_neg (h j hj))⟩

theorem discardAt_discards (q reason : Nat) (f : GFrame) (s : State) : Discards q s (discardAt q reason f s) :=
  (macCount_discards 1 s fun _ hj => reasonCounter_ne hj reason).trans ((discardAt_ports ..).discards q)

theorem discardWaiting_discards (q reason : Nat) (s : State) : Discards q s (discardWaiting q reason s) :=
  List.foldlRecOn (motive := Discards q s) _ _ (.refl q s) fun _ ha _ _ => ha.trans (discardAt_discards ..)

/-! A discard takes the frames of its number from the port's queue. -/

theorem discardAt_frames (q reason : Nat) (f : GFrame) (s : State) :
    (discardAt q reason f s).gn.frames = (dropOut s f.id q).gn.frames := by
  unfold discardAt
  dsimp only
  split
  · exact congrArg GnState.frames (completeKey_calm (Calm.refl _)).gn
  · rfl

theorem waitingAt_of_frames {a b : State} (h : b.gn.frames = a.gn.frames) (q : Nat) : waitingAt b q = waitingAt a q := by
  unfold waitingAt
  rw [h]

theorem mem_waitingAt_dropOut {s : State} {id q : Nat} {g : GFrame} (h : g ∈ waitingAt (dropOut s id q) q) :
    g ∈ waitingAt s q ∧ g.id ≠ id := by
  obtain ⟨hmem, hwait⟩ := List.mem_filter.mp h
  obtain ⟨f, hf, hfg⟩ := List.mem_map.mp (List.mem_filter.mp hmem).1
  by_cases hid : f.id = id
  · rw [if_pos hid] at hfg
    obtain ⟨o, ho, hport⟩ := List.any_eq_true.mp hwait
    rw [← hfg] at ho
    obtain ⟨-, hne⟩ := List.mem_filter.mp ho
    have hq : o.port = q := beq_iff_eq.mp (Bool.and_eq_true_iff.mp hport).1
    exact absurd hq (bne_iff_ne.mp hne)
  · rw [if_neg hid] at hfg
    rw [← hfg] at hwait ⊢
    exact ⟨List.mem_filter.mpr ⟨hf, hwait⟩, hid⟩

theorem foldl_discardAt_waiting (q reason : Nat) (l : List GFrame) (s : State) :
    ∀ g ∈ waitingAt (l.foldl (fun a f => discardAt q reason f a) s) q, g ∈ waitingAt s q ∧ ∀ f ∈ l, g.id ≠ f.id := by
  induction l generalizing s with
  | nil => exact fun g hg => ⟨hg, fun f hf => absurd hf List.not_mem_nil⟩
  | cons f l ih =>
    intro g hg
    obtain ⟨hin, hrest⟩ := ih _ g hg
    rw [waitingAt_of_frames (discardAt_frames q reason f s)] at hin
    obtain ⟨hs, hf⟩ := mem_waitingAt_dropOut hin
    refine ⟨hs, fun x hx => ?_⟩
    obtain rfl | hx := List.mem_cons.mp hx
    · exact hf
    · exact hrest x hx

theorem discardWaiting_empties (q reason : Nat) (s : State) : waitingAt (discardWaiting q reason s) q = [] := by
  refine List.eq_nil_iff_forall_not_mem.mpr fun g hg => ?_
  obtain ⟨hin, hne⟩ := foldl_discardAt_waiting q reason (waitingAt s q) s g hg
  exact hne g hin rfl

/-! The end of HOLD, and a loss. -/

theorem holdEnd_discards (q : Nat) (s : State) : Discards q (s.updMac q (fun m => { m with downAt := none })) (holdEnd q s) :=
  discardWaiting_discards ..

theorem cutFrames_discards (q : Nat) (s : State) :
    Discards q (s.updMac q (fun y => { y with tx := none, susp := none, backoff := none, tries := 0 })) (cutFrames q s) := by
  refine List.foldlRecOn (motive := Discards q _) _ _ (.refl q _) fun a ha i _ => ?_
  split
  · exact ha.trans (discardAt_discards ..)
  · exact ha

/-- A MAC whose link is down (R382). -/
def downMac (downAt : Option Nat) (m : Mac) : Mac :=
  { m with link := false, speed := 0, half := false, preempt := false, verify := none, pause := none, pfc := [], downAt := downAt,
           tx := none, susp := none, backoff := none, tries := 0 }

theorem linkLoss_down {s : State} {q : Nat} {rc : Bool} (hlink : (s.mac q).link = true) :
    (linkLoss q rc s).regs = s.regs ∧ (linkLoss q rc s).mac q = downMac (if macHold s q = 0 then none else some s.tb.edge) (s.mac q) ∧
    macCntOf (linkLoss q rc s) q 20 = add32 (macCntOf s q 20) 1 ∧ ∀ k, k ≠ q → (linkLoss q rc s).mac k = s.mac k := by
  unfold linkLoss
  rw [hlink, Bool.not_true, if_neg Bool.false_ne_true]
  extract_lets s1 s2 s3 s4
  have h1 := cutFrames_discards q s
  have h20 : NoDiscardCount 20 := by unfold NoDiscardCount; decide
  have hmac1 (k : Nat) : (if rc then macCount s1 q 6 1 else s1).mac k = s1.mac k := by split <;> rfl
  have hregs1 : (if rc then macCount s1 q 6 1 else s1).regs = s.regs := by split <;> exact h1.regs
  have hcnt1 : macCntOf (if rc then macCount s1 q 6 1 else s1) q 20 = macCntOf s q 20 := by
    split
    · exact ((macCntOf_macCount ..).trans (if_neg (by decide))).trans (h1.counts 20 h20)
    · exact h1.counts 20 h20
  have h4 : PortsStay s3 s4 := (devIrq_calm (Calm.refl s3)).ports
  have hmac4 : s4.mac q = downMac (some s.tb.edge) (s.mac q) := by
    rw [h4.mac]
    unfold s3 s2
    rw [macCount_mac, State.updMac_same, hmac1, h1.mac, State.updMac_same]
    rfl
  have hother4 (k : Nat) (hk : k ≠ q) : s4.mac k = s.mac k := by
    rw [h4.mac]
    unfold s3 s2
    rw [macCount_mac, State.updMac_other _ _ hk, hmac1, h1.mac, State.updMac_other _ _ hk]
  have hcnt4 : macCntOf s4 q 20 = add32 (macCntOf s q 20) 1 := by
    rw [h4.macCntOf, macCntOf_macCount, if_pos rfl, if_neg (by decide), updMac_macCntOf, hcnt1]
  split
  case isTrue =>
    have hend := holdEnd_discards q s4
    refine ⟨hend.regs.trans (h4.2.1.trans hregs1), ?_, (hend.counts 20 h20).trans hcnt4,
      fun k hk => ((hend.mac k).trans (State.updMac_other _ _ hk)).trans (hother4 k hk)⟩
    rw [hend.mac, State.updMac_same, hmac4]
    rfl
  case isFalse =>
    exact ⟨h4.2.1.trans hregs1, hmac4, hcnt4, hother4⟩

/-- A MAC whose link is up (R373). -/
def upMac (v : Nat) (half : Bool) (verify : Option Nat) (edge : Nat) (m : Mac) : Mac :=
  { m with link := true, speed := v, half := half, downAt := none, verify := verify, verifyAt := edge }

theorem linkUp_up {s : State} {q v : Nat} {hd : Bool} (hlink : (s.mac q).link = false) (hen : macEn s q = true)
    (hauto : fld (macCfg s q) 30 28 = 0) (hspeed : speedOk q v = true) (hpower : (s.mac q).optics.lowPower = false) {half : Bool}
    (hhalf : half = (bit (macCfg s q) 27 && decide (v ≤ 2) && hd)) :
    (∃ e, (linkUp q v hd s).mac q = upMac v half (if bit (macCfg s q) 25 && !half then some 1 else none) e (s.mac q)) ∧
    ∀ k, k ≠ q → (linkUp q v hd s).mac k = s.mac k := by
  have hen' : bit (macCfg s q) 31 = true := hen
  unfold linkUp
  extract_lets c fixed v' hd' s1 pre s2
  have hv : v' = v := if_pos hauto
  have hhd : hd' = half := by
    unfold hd'
    rw [hv, show fixed = 0 from hauto, show (0 != 0) = false from rfl, Bool.false_or, ← hhalf]
  have hgo : ((s.mac q).link || !bit c 31 || !speedOk q v' || (s.mac q).optics.lowPower) = false := by
    rw [hv, hlink, show bit c 31 = true from hen', hspeed, hpower]
    rfl
  rw [hgo, if_neg Bool.false_ne_true]
  have h1 : (∃ d, s1.mac q = { s.mac q with downAt := d }) ∧ ∀ k, k ≠ q → s1.mac k = s.mac k := by
    have hend := holdEnd_discards q s
    unfold s1
    split
    · split
      · exact ⟨⟨none, (hend.mac q).trans (s.updMac_same q _)⟩, fun k hk => (hend.mac k).trans (s.updMac_other _ hk)⟩
      · exact ⟨⟨(s.mac q).downAt, rfl⟩, fun _ _ => rfl⟩
    · exact ⟨⟨(s.mac q).downAt, rfl⟩, fun _ _ => rfl⟩
  obtain ⟨⟨d, hq⟩, hother⟩ := h1
  have h2 : s2.mac q = upMac v half (if bit (macCfg s q) 25 && !half then some 1 else none) s.tb.edge (s.mac q) := by
    refine (s1.updMac_same q _).trans ?_
    rw [hq, ← hv, ← hhd]
    rfl
  have hother2 (k : Nat) (hk : k ≠ q) : s2.mac k = s.mac k := (s1.updMac_other _ hk).trans (hother k hk)
  split
  · exact ⟨⟨_, (wireOut_mac ..).trans h2⟩, fun k hk => (wireOut_mac ..).trans (hother2 k hk)⟩
  · exact ⟨⟨_, h2⟩, hother2⟩

theorem holdExpiry_ends {s : State} {q e : Nat} (hdown : (s.mac q).downAt = some e) : holdExpiry q s = holdEnd q (s.runTo (e + usEdges (macHold s q))) := by
  unfold holdExpiry
  rw [hdown]

/-! Verification (R377). -/

section
variable {s : State} {q : Nat}

theorem verifyRx_verify (hlink : (s.mac q).link = true) (hhalf : (s.mac q).half = false) (hpre : bit (macCfg s q) 25 = true) :
    verifyRx q .verify s = wireOut s q .respond := by
  unfold verifyRx
  dsimp only
  rw [hlink, hhalf, hpre]
  rfl

theorem verifyRx_response (hlink : (s.mac q).link = true) (hhalf : (s.mac q).half = false) (hpre : bit (macCfg s q) 25 = true)
    (hverify : (s.mac q).verify.isSome = true) :
    verifyRx q .response s = s.updMac q (fun y => { y with verify := none, preempt := true }) := by
  unfold verifyRx
  dsimp only
  rw [hlink, hhalf, hpre, hverify]
  rfl

/-- Another attempt, up to the third (R377). -/
theorem verifyTimeout_again {n : Nat} (hverify : (s.mac q).verify = some n) (hn : n < 3) :
    verifyTimeout q s = wireOut ((s.runTo ((s.mac q).verifyAt + 2500000)).updMac q (fun m => { m with
      verify := some (n + 1), verifyAt := (s.runTo ((s.mac q).verifyAt + 2500000)).tb.edge })) q .verify := by
  unfold verifyTimeout
  rw [hverify]
  exact if_pos hn

theorem verifyTimeout_last {n : Nat} (hverify : (s.mac q).verify = some n) (hn : 3 ≤ n) :
    verifyTimeout q s = macCount ((s.runTo ((s.mac q).verifyAt + 2500000)).updMac q (fun m => { m with verify := none })) q 21 1 := by
  unfold verifyTimeout
  rw [hverify]
  exact if_neg (Nat.not_lt.mpr hn)

end

/-- The edge, the wire and the counters where time passes to an edge. -/
theorem State.runTo_ports (s : State) (t q i : Nat) :
    (s.runTo t).mc.wire = s.mc.wire ∧ macCntOf (s.runTo t) q i = macCntOf s q i := ⟨rfl, rfl⟩

/-- Settles O45: the loss, the link up, the end of HOLD, and the verification. -/
theorem links : Obligations.Links := by
  rintro s _ t q rfl
  refine ⟨fun hlive rc hlink => ?_, fun hlive v hd hlink hen hauto hspeed hpower => ?_, fun halive e hdown => ?_,
    fun hlive hlink hhalf hpre => ⟨?_, fun hverify => ?_⟩, fun halive n hverify => ?_⟩
  · rw [exec_linkLoss hlive]
    obtain ⟨hregs, hmac, hcnt, hother⟩ := linkLoss_down (rc := rc) hlink
    have hstay := checkRows_ports [1, 2] (linkLoss q rc (s.runTo t))
    have hq := (hstay.mac q).trans hmac
    refine ⟨_, rfl, ?_, ?_, ?_, ?_, ?_, (hstay.macCntOf q 20).trans hcnt, fun k hk => (hstay.mac k).trans (hother k hk), hstay.2.1.trans hregs⟩
      <;> rw [hq] <;> rfl
  · rw [exec_linkUp hlive]
    obtain ⟨⟨e, hq⟩, hother⟩ := linkUp_up hlink hen hauto hspeed hpower rfl
    refine ⟨_, rfl, ?_, ?_, ?_, ?_, ?_, hother⟩ <;> rw [hq]
    · rfl
    · rfl
    · rfl
    · rfl
    · simp only [upMac, Bool.and_eq_true, Bool.not_eq_true']
  · rw [exec_holdExpiry halive, holdExpiry_ends hdown]
    have hend := holdEnd_discards q (s.runTo (e + usEdges (macHold s q)))
    have hstay := checkRows_ports [1] (holdEnd q (s.runTo (e + usEdges (macHold s q))))
    refine ⟨_, rfl, ?_, ?_, ?_⟩
    · rw [waitingAt_of_frames (checkRows_frames ..)]
      exact discardWaiting_empties ..
    · rw [hstay.mac, hend.mac, State.updMac_same]
    · rw [hstay.1, hend.tb]
      exact s.runTo_edge _
  · rw [exec_preemptionVerificationRx hlive, verifyRx_verify hlink hhalf hpre]
  · rw [exec_preemptionVerificationRx hlive, verifyRx_response hlink hhalf hpre hverify]
  · rw [exec_verifyTimeout halive]
    by_cases hn : n < 3
    · rw [verifyTimeout_again hverify hn]
      generalize he : (s.mac q).verifyAt + 2500000 = e
      refine ⟨_, rfl, s.runTo_edge e, ?_, fun _ => ?_, fun h => absurd hn (Nat.not_lt.mpr h)⟩
      · rw [wireOut_mac, State.updMac_same, if_pos hn]
      · exact congrArg (· ++ _) (s.runTo_ports e q 0).1
    · rw [verifyTimeout_last hverify (Nat.not_lt.mp hn)]
      generalize he : (s.mac q).verifyAt + 2500000 = e
      refine ⟨_, rfl, s.runTo_edge e, ?_, fun h => absurd h hn, fun _ => ?_⟩
      · rw [macCount_mac, State.updMac_same, if_neg hn]
      · rw [macCntOf_macCount, if_pos rfl, if_neg (by decide), updMac_macCntOf, (s.runTo_ports e q 21).2]

end Sys2Proof.Machine
end


section
/-! PAUSE and PFC, collisions and back-off, and the Follow_Up that waits (R372, R376, R379, R380). -/

namespace Sys2Proof.Machine

section
variable {s : State} {t : Nat} {q : Port}

theorem exec_pause (h : portLive (s.runTo t) q = true) (n : Fin 65536) : exec (.pause t q n) s = .next (pauseRx q n (s.runTo t)) :=
  congrArg _ (byPort_eq h)
theorem exec_pfc (h : portLive (s.runTo t) q = true) (v : Fin 256) (l : List Nat) :
    exec (.pfc t q v l) s = .next (pfcRx q v l (s.runTo t)) := congrArg _ (byPort_eq h)
theorem exec_pauseExpiry (h : alive s = true) : exec (.pauseExpiry q) s = .next (pauseExpiry q s) := congrArg _ (live_eq h)
theorem exec_collision (h : portLive (s.runTo t) q = true) (late : Bool) :
    exec (.collision t q late) s = .next (checkRows [1, 2] (collision q late (s.runTo t))) := congrArg _ (byPort_eq h)
theorem exec_backoffExpiry (h : alive s = true) : exec (.backoffExpiry q) s = .next (backoffExpiry q s) := congrArg _ (live_eq h)
theorem exec_followUpTimeout (h : alive s = true) (k : Nat) :
    exec (.followUpTimeout k) s = .next (checkRows [1] (followUpTimeout k s)) := congrArg _ (live_eq h)

end

section
variable {s : State} {q : Nat}

theorem pauseRx_stops (hhalf : (s.mac q).half = false) (hpause : bit (macCfg s q) 22 = true) (n : Nat) :
    pauseRx q n s = (macCount s q 8 1).updMac q (fun y =>
      { y with pause := if n = 0 then none else some (s.tb.edge + bitEdges (s.mac q).speed (512 * n)) }) := by
  unfold pauseRx
  dsimp only
  rw [hhalf, hpause]
  rfl

/-- The entries of a list of classes set one by one. -/
theorem get_foldl_set (v : Nat → Nat) (l : List Nat) (t : Tbl Nat) (c : Nat) :
    Tbl.get 0 (l.foldl (fun t i => Tbl.set 0 t i (v i)) t) c = if c ∈ l then v c else Tbl.get 0 t c := by
  induction l generalizing t with
  | nil => rfl
  | cons i l ih =>
    rw [List.foldl_cons, ih, Tbl.get_set]
    by_cases hi : c = i
    · rw [if_pos hi, hi]
      simp
    · simp only [List.mem_cons, hi, false_or, if_false]

theorem pfcRx_stops {vec c : Nat} (hhalf : (s.mac q).half = false) (hpfc : bit (macCfg s q) 21 = true) (hc : c < 8)
    (hnamed : vec / 2 ^ c % 2 = 1) (hlet : bit (macCfg s q) c = true) (times : List Nat) :
    macCntOf (pfcRx q vec times s) q 9 = add32 (macCntOf s q 9) 1 ∧ Tbl.get 0 ((pfcRx q vec times s).mac q).pfc c =
      (if times.getD c 0 = 0 then 0 else s.tb.edge + bitEdges (s.mac q).speed (512 * times.getD c 0)) := by
  unfold pfcRx
  extract_lets m on
  have hon : c ∈ on := by
    refine List.mem_filter.mpr ⟨List.mem_range.mpr hc, ?_⟩
    rw [hnamed, hlet]
    rfl
  have hsome : on.isEmpty = false := List.isEmpty_eq_false_iff.mpr (List.ne_nil_of_mem hon)
  rw [hpfc, show m.half = false from hhalf, hsome, if_neg (by decide)]
  refine ⟨?_, ?_⟩
  · rw [updMac_macCntOf, macCntOf_macCount, if_pos rfl, if_neg (by decide)]
  · rw [State.updMac_same, get_foldl_set (fun i => if times.getD i 0 = 0 then 0 else s.tb.edge + quantaEdges m.speed (times.getD i 0)),
      if_pos hon]
    rfl

theorem foldl_min_eq {e : Nat} {l : List Nat} (h : ∀ z ∈ l, e ≤ z) : l.foldl min e = e :=
  List.foldlRecOn (motive := (· = e)) l min rfl fun a ha z hz => by rw [ha, Nat.min_eq_left (h z hz)]

/-- The end of a pause that ends first at its port (R380). -/
theorem pauseExpiry_ends {e : Nat} (hpause : (s.mac q).pause = some e) (hfirst : ∀ z ∈ (s.mac q).pfc, e ≤ z.2) :
    (pauseExpiry q s).tb = (s.runTo e).tb ∧ ((pauseExpiry q s).mac q).pause = none ∧
    ((pauseExpiry q s).mac q).pfc = (s.mac q).pfc.filter (fun z => z.2 > (s.runTo e).tb.edge) := by
  have hmin : ((s.mac q).pfc.map Prod.snd).foldl min e = e := foldl_min_eq fun z hz => by
    obtain ⟨x, hx, rfl⟩ := List.mem_map.mp hz
    exact hfirst x hx
  have hedge : e ≤ (s.runTo e).tb.edge := by
    rw [s.runTo_edge]
    exact Nat.le_max_right ..
  unfold pauseExpiry
  dsimp only
  rw [hpause]
  dsimp only [List.singleton_append, List.cons_append, List.nil_append]
  rw [hmin, State.updMac_same, State.runTo_mac, hpause]
  exact ⟨rfl, if_pos hedge, rfl⟩

/-! Collisions. -/

section
variable {w : TxRun} (htx : (s.mac q).tx = some w) (hhalf : (s.mac q).half = true)
include htx hhalf

theorem collision_early (hearly : octetsIn (s.mac q).speed (s.tb.edge - w.start) < 64) (htries : (s.mac q).tries < 15) :
    collision q false s = (wireOut (macCount s q 17 1) q .jam).updMac q (fun y =>
      { y with tx := none, tries := (s.mac q).tries + 1, backoff := some w.id }) := by
  have hearly' : decide (octetsIn (s.mac q).speed (s.tb.edge - w.start) ≥ 64) = false := decide_eq_false (Nat.not_le.mpr hearly)
  have htries' : ¬ (s.mac q).tries + 1 ≥ 16 := by omega
  unfold collision
  dsimp only
  rw [htx]
  dsimp only
  rw [hhalf, if_neg (by decide), Bool.false_or, hearly', if_neg Bool.false_ne_true, if_neg htries']

theorem collision_late {f : GFrame} (hfind : findFrame s w.id = some f) :
    collision q true s = discardAt q 5 f ((wireOut (macCount s q 17 1) q .jam).updMac q (fun y => { y with tx := none, tries := 0 })) := by
  have hfind' : findFrame (wireOut (macCount s q 17 1) q .jam) w.id = some f := hfind
  unfold collision
  dsimp only
  rw [htx]
  dsimp only
  rw [hhalf, if_neg (by decide), Bool.true_or, if_pos rfl, hfind']

end

theorem backoffExpiry_tries {id : Nat} {f : GFrame} (hbackoff : (s.mac q).backoff = some id) (hfind : findFrame s id = some f)
    (hlink : (s.mac q).link = true) (htx : (s.mac q).tx = none) (hfresh : staleAt s q f = false) :
    backoffExpiry q s = beginFrame q f (s.updMac q (fun m => { m with backoff := none })) := by
  have hfind' : findFrame (s.updMac q (fun m => { m with backoff := none })) id = some f := hfind
  have hfresh' : staleAt (s.updMac q (fun m => { m with backoff := none })) q f = false := hfresh
  unfold backoffExpiry
  rw [hbackoff]
  dsimp only
  rw [hfind']
  dsimp only
  rw [State.updMac_same, hlink, htx, hfresh']
  rfl

end

theorem secEdges_one : secEdges 1 = 250000000 := rfl

theorem followUpTimeout_discards {s : State} {k : Nat} {f : GFrame} {o : GOut} (h : (s.gn.frames.flatMap (fun f =>
        (f.outs.filter (fun o => !o.going && followUpWaits s f o.port)).map (fun o => (f, o))))[k]? = some (f, o)) :
    followUpTimeout k s = dropOut (s.runTo (o.at_ + secEdges 1)) f.id o.port := by
  unfold followUpTimeout
  dsimp only
  rw [h]

/-- Settles O46: PAUSE and PFC, their end, the two collisions, the back-off and the Follow_Up. -/
theorem pausesAndCollisions : Obligations.PausesAndCollisions := by
  rintro s _ t q rfl
  refine ⟨fun hlive hhalf => ⟨fun n hpause => ?_, fun v l c hpfc hc hnamed hlet => ?_⟩, fun halive e hpause hfirst => ?_,
    fun hlive w htx hhalf => ⟨fun hearly htries => ?_, fun f hfind => ?_⟩, fun halive id f hbackoff hfind hlink htx hfresh => ?_,
    fun halive k f o h => ?_⟩
  · rw [exec_pause hlive, pauseRx_stops hhalf hpause]
  · rw [exec_pfc hlive]
    obtain ⟨hcnt, hget⟩ := pfcRx_stops hhalf hpfc hc hnamed hlet l
    exact ⟨_, rfl, hcnt, hget⟩
  · rw [exec_pauseExpiry halive]
    obtain ⟨htb, hnone, hrest⟩ := pauseExpiry_ends hpause hfirst
    refine ⟨_, rfl, ?_, hnone, ?_⟩
    · rw [htb, s.runTo_edge]
    · rw [htb, hrest]
  · rw [exec_collision hlive, collision_early htx hhalf hearly htries]
    have hstay := checkRows_ports [1, 2] ((wireOut (macCount (s.runTo t) q 17 1) q .jam).updMac q (fun y =>
      { y with tx := none, tries := ((s.runTo t).mac q).tries + 1, backoff := some w.id }))
    have hq := (hstay.mac q).trans (State.updMac_same _ q _)
    refine ⟨_, rfl, ?_, ?_, ?_, congrArg McState.wire hstay.2.2, ?_⟩
    · rw [hq]
    · rw [hq]
    · rw [hq]
    · rw [hstay.macCntOf, updMac_macCntOf, wireOut_macCntOf, macCntOf_macCount, if_pos rfl, if_neg (by decide)]
  · rw [exec_collision hlive, collision_late htx hhalf hfind]
    have hcount := discardAt_ports q 5 f ((wireOut (macCount (s.runTo t) q 17 1) q .jam).updMac q (fun y => { y with tx := none, tries := 0 }))
    have hstay := hcount.trans (checkRows_ports [1, 2] _)
    refine ⟨_, rfl, ?_, ?_, ?_, congrArg McState.wire hstay.2.2⟩
    · rw [hstay.mac, macCount_mac, State.updMac_same]
    · rw [hstay.mac, macCount_mac, State.updMac_same]
    · rw [hstay.macCntOf, show reasonCounter 5 = 19 from rfl, macCntOf_macCount, if_pos rfl, if_neg (by decide), updMac_macCntOf, wireOut_macCntOf,
        macCntOf_macCount, if_neg (by decide)]
  · rw [exec_backoffExpiry halive, backoffExpiry_tries hbackoff hfind hlink htx hfresh]
    obtain ⟨-, -, ⟨w, hmac, hid, -, -⟩, -⟩ := beginFrame_mac q f (s.updMac q (fun m => { m with backoff := none }))
    rw [State.updMac_same] at hmac
    refine ⟨_, w, rfl, ?_, hid, ?_⟩ <;> rw [hmac]
  · rw [exec_followUpTimeout halive, followUpTimeout_discards h, secEdges_one]

end Sys2Proof.Machine
end

section
/-! Fibre transceivers (R387, R481). -/

namespace Sys2Proof.Machine

theorem exec_transceiverInsertion (s : State) (t : Nat) (q : Port) (a0 a2 : List (BitVec 8)) :
    exec (.transceiverInsertion t q a0 a2) s = .next (transceiverIn q a0 a2 (s.runTo t)) := rfl
theorem exec_transceiverRemoval (s : State) (t : Nat) (q : Port) :
    exec (.transceiverRemoval t q) s = .next (transceiverOut q (s.runTo t)) := rfl
theorem exec_opticsPoll {s : State} {t : Nat} {q : Port} (h : portLive (s.runTo t) q = true) (r : Option (List (BitVec 8))) :
    exec (.opticsPoll t q r) s = .next (opticsTest q (opticsPoll q r (s.runTo t))) := congrArg _ (byPort_eq h)

theorem opticsTest_ports (q : Nat) (s : State) : PortsStay s (opticsTest q s) := by
  have htest (fatal : Bool) : PortsStay s (selftest 3 fatal (BitVec.ofNat 32 q) s) :=
    ⟨(selftest_pair ..).tb, (selftest_pair ..).regs, (selftest_pair ..).mc⟩
  unfold opticsTest
  dsimp only
  split
  · exact htest true
  · split
    · exact htest false
    · exact .refl s

section
variable {s : State} {q : Nat} (hq : q < 10)
include hq

theorem isFibre_of_lt : isFibre q = true := decide_eq_true hq

theorem transceiverIn_present (a0 a2 : List (BitVec 8)) : (transceiverIn q a0 a2 s).regs = s.regs ∧
    modAbs ((transceiverIn q a0 a2 s).mac q).optics = false ∧ ((transceiverIn q a0 a2 s).mac q).optics.pageA0 = octs a0 0 128 ∧
    ∀ k, k ≠ q → (transceiverIn q a0 a2 s).mac k = s.mac k := by
  unfold transceiverIn
  rw [isFibre_of_lt hq, if_neg (by decide)]
  extract_lets level ddm
  rw [State.updMac_same]
  refine ⟨rfl, ?_, rfl, fun k hk => s.updMac_other _ hk⟩
  unfold modAbs
  dsimp only
  split <;> decide

theorem transceiverOut_absent : modAbs ((transceiverOut q s).mac q).optics = true ∧
    ((s.mac q).link = true → ((transceiverOut q s).mac q).link = false) ∧ ∀ k, k ≠ q → (transceiverOut q s).mac k = s.mac k := by
  unfold transceiverOut
  rw [isFibre_of_lt hq, if_neg (by decide), State.updMac_same]
  have hempty : modAbs {} = true := by decide
  refine ⟨hempty, fun hlink => ?_, fun k hk => (State.updMac_other _ _ hk).trans ?_⟩
  · obtain ⟨-, hmac, -, -⟩ := linkLoss_down (rc := false) hlink
    rw [hmac]
    rfl
  · by_cases hlink : (s.mac q).link = true
    · obtain ⟨-, -, -, hother⟩ := linkLoss_down (rc := false) hlink
      exact hother k hk
    · have hdown : linkLoss q false s = s := if_pos (by simpa using hlink)
      rw [hdown]

section
variable (habs : modAbs (s.mac q).optics = false)
include habs

theorem opticsPoll_failed : opticsPoll q none s = s.updMac q (fun m => { m with
    optics := { (s.mac q).optics with diag2 := (s.mac q).optics.diag2 ||| 2 } }) := by
  unfold opticsPoll
  dsimp only
  rw [isFibre_of_lt hq, habs]
  rfl

/-- The flags word of a poll (R387): the data are there and no read error stands. -/
theorem opticsPoll_read {a2 : List (BitVec 8)} (hddm : be (s.mac q).optics.pageA0 92 1 / 64 % 2 = 1) : ∃ d1 v flags,
    flags % 4 = 1 ∧ opticsPoll q (some a2) s = s.updMac q (fun m => { m with optics := { (s.mac q).optics with
      diag0 := BitVec.ofNat 32 ((ddmValues (s.mac q).optics.pageA0 a2).getD 0 0 * 65536 + (ddmValues (s.mac q).optics.pageA0 a2).getD 1 0)
      diag1 := d1, diag2 := BitVec.ofNat 32 (v * 65536 + flags), pageA2 := octs a2 0 128 } }) := by
  unfold opticsPoll
  dsimp only
  rw [isFibre_of_lt hq, habs, hddm]
  refine ⟨_, _, _, ?_, rfl⟩
  omega

end

end

theorem bit_zero_of_flags {v flags : Nat} (h : flags % 4 = 1) :
    bit (BitVec.ofNat 32 (v * 65536 + flags)) 0 = true ∧ bit (BitVec.ofNat 32 (v * 65536 + flags)) 1 = false := by
  rw [bit_eq_div, bit_eq_div, BitVec.toNat_ofNat]
  refine ⟨decide_eq_true (by omega), decide_eq_false (by omega)⟩

/-- Settles O47: the insertion, the removal and the poll. -/
theorem optics : Obligations.Optics := by
  rintro s _ t q rfl hq
  refine ⟨fun a0 a2 => ?_, ?_, fun hlive habs => ⟨?_, fun a2 hddm => ?_⟩⟩
  · rw [exec_transceiverInsertion]
    obtain ⟨hregs, hpresent, hpage, hother⟩ := transceiverIn_present (s := s.runTo t) hq a0 a2
    exact ⟨_, rfl, hpresent, hpage, hother, hregs⟩
  · rw [exec_transceiverRemoval]
    obtain ⟨habsent, hlink, hother⟩ := transceiverOut_absent (s := s.runTo t) hq
    exact ⟨_, rfl, habsent, hlink, hother⟩
  · rw [exec_opticsPoll hlive, opticsPoll_failed hq habs]
    refine ⟨_, rfl, ?_, ?_⟩
    · rw [(opticsTest_ports ..).mac, State.updMac_same]
      simp [bit]
    · rw [(opticsTest_ports ..).mac, State.updMac_same]
  · obtain ⟨d1, v, flags, hflags, hread⟩ := opticsPoll_read (a2 := a2) hq habs hddm
    obtain ⟨hready, herr⟩ := bit_zero_of_flags (v := v) hflags
    rw [exec_opticsPoll hlive, hread]
    refine ⟨_, rfl, ?_, ?_, ?_, ?_⟩ <;> rw [(opticsTest_ports ..).mac, State.updMac_same]
    · exact hready
    · exact herr

end Sys2Proof.Machine
end


section
/-! Key changes: derive, import, revoke and their application (R396 to R398, R405). -/

namespace Sys2Proof.Machine

theorem keySend_calm (before x : State) : Calm x (keySend before x) := by
  unfold keySend
  split
  · split
    · exact deltaSend_calm (Calm.refl x)
    · exact Calm.refl x
  · exact Calm.refl x

theorem keySend_db (before x : State) : (keySend before x).db = x.db := by
  unfold keySend
  split
  · split
    · exact deltaSend_db ..
    · rfl
  · rfl

section
variable {s : State} {t : Nat} {p : PartId} {r : RingNo} {y : State × Flight}

theorem exec_keyDerive (h : Fetches (s.runTo t) p r 0x31 y) :
    exec (.keyDerive t p r) s = .next (keySend y.1 (keyDeriveAct (isStandby y.1) p r y.1 y.2)) :=
  congrArg _ (withDesc_fetched h fun x f => keySend x (keyDeriveAct (isStandby x) p r x f))
theorem exec_keyImport (h : Fetches (s.runTo t) p r 0x32 y) :
    exec (.keyImport t p r) s = .next (keySend y.1 (keyImportAct (isStandby y.1) y.1.pr.position p r y.1 y.2)) :=
  congrArg _ (withDesc_fetched h fun x f => keySend x (keyImportAct (isStandby x) x.pr.position p r x f))
theorem exec_keyRevoke (h : Fetches (s.runTo t) p r 0x34 y) :
    exec (.keyRevoke t p r) s = .next (keySend y.1 (keyRevokeAct (isStandby y.1) p r y.1 y.2)) :=
  congrArg _ (withDesc_fetched h fun x f => keySend x (keyRevokeAct (isStandby x) p r x f))

end

theorem State.setNode_same (s : State) (n : Nat) (x : Node) : (s.setNode n x).node n = x := (Tbl.get_set ..).trans (if_pos rfl)
theorem State.setNode_other (s : State) {n k : Nat} (x : Node) (h : k ≠ n) : (s.setNode n x).node k = s.node k :=
  (Tbl.get_set ..).trans (if_neg h)

/-- A key change noted for its instant (R398). -/
def pended (s : State) (p r id node : Nat) (k : KeyPendKind) : KeyPend :=
  { ring := 64 * p + r, flight := id, node := node, applyEdge := s.tb.edge + 2500, order := s.ok.nextOrder, kind := k }

theorem pendKey_pends (s : State) (p r id node : Nat) (k : KeyPendKind) :
    (pendKey s p r id node k).ok.pends = s.ok.pends ++ [pended s p r id node k] := rfl

section
variable {p r : Nat} {s : State} {f : Flight}

theorem keyDeriveAct_pends (hcheck : makeCheck s p f.words 3 (1 ≤ fld (dw f.words 5) 5 0 && fld (dw f.words 5) 5 0 ≤ 32) = stDone) :
    keyDeriveAct false p r s f = pendKey (takeUse s (fld (dw f.words 2) 11 0)) p r f.id (keyNode f.words)
      (.derive_ (fld (dw f.words 2) 11 0) (dw f.words 3) (dw f.words 4).toNat (if p = 0 then fld (dw f.words 5) 28 24 else p)
        ((wordsBytes (f.words.drop 8)).take (fld (dw f.words 5) 5 0))) := by
  unfold keyDeriveAct
  dsimp only
  rw [hcheck, if_neg (by decide), if_neg fun h => h rfl]

theorem keyImportAct_pends {blob : List (BitVec 8)}
    (hblob : devRead s p (if s.pr.position = 0 then addr48 f.words 6 else addr48 f.words 8) (fld (dw f.words 10) 7 0) = some blob)
    (hcheck : makeCheck s p f.words 2 (fld (dw f.words 10) 7 0 == 44 || fld (dw f.words 10) 7 0 == 60 || fld (dw f.words 10) 7 0 == 76) =
      stDone) : ∃ a b, blob = (if s.pr.position = 0 then a else b) ∧
    keyImportAct false s.pr.position p r s f = pendKey (takeUse s (fld (dw f.words 2) 11 0)) p r f.id (keyNode f.words)
      (.import_ (fld (dw f.words 2) 11 0) (dw f.words 3) (dw f.words 4).toNat (if p = 0 then fld (dw f.words 5) 28 24 else p) a b) := by
  unfold keyImportAct
  dsimp only
  rw [hblob, Option.isSome_some, Bool.and_true, hcheck, if_neg (by decide), if_neg fun h => h rfl, Option.getD_some]
  refine ⟨_, _, ?_, rfl⟩
  split <;> rfl

theorem keyRevokeAct_pends (hlatch : s.ok.latched = false) (hres : keyResOk f.words = true) (hroot : keyNode f.words ≠ 0)
    (hlc : lcState s ≠ 4) (howner : p = 0 ∨ (s.node (keyNode f.words)).owner = p) (hlive : (s.node (keyNode f.words)).st = .live) :
    keyRevokeAct false p r s f = pendKey s p r f.id (keyNode f.words) .revoke := by
  have hpermit : ¬(lcState s = 4 ∨ (p ≠ 0 ∧ notOwned s p (keyNode f.words) = true)) := by
    rintro (h | ⟨hp, hno⟩)
    · exact hlc h
    · obtain h | h := howner
      · exact hp h
      · simp [notOwned, h] at hno
  unfold keyRevokeAct
  dsimp only
  rw [hlatch, hres, beq_eq_false_iff_ne.mpr hroot, if_neg (by decide), if_neg (by decide), if_neg (by decide), if_neg hpermit,
    if_neg fun h => h hlive]

end

/-! The application. -/

theorem isUnder_of_nodes {a b : State} (h : b.ok.nodes = a.ok.nodes) (d n m : Nat) : isUnder b d n m = isUnder a d n m := by
  have hnode (k : Nat) : b.node k = a.node k := by
    rw [State.node, h]
    rfl
  induction d generalizing m with
  | zero => rfl
  | succ d ih => rw [isUnder, isUnder, ih, hnode]

theorem Tbl.get_of_not_mem_keys {β : Type} (d : β) (t : Tbl β) {k : Nat} (h : k ∉ t.keys) : Tbl.get d t k = d := by
  induction t with
  | nil => rfl
  | cons e r ih =>
    obtain ⟨a, w⟩ := e
    obtain ⟨hne, hrest⟩ := List.ne_and_not_mem_of_not_mem_cons h
    rw [Tbl.get, if_neg hne, ih hrest]

theorem mem_keys_of_live {s : State} {n : Nat} (h : (s.node n).st = .live) : n ∈ s.ok.nodes.keys := by
  by_contra hn
  rw [State.node, Tbl.get_of_not_mem_keys _ _ hn] at h
  exact NodeSt.noConfusion h

/-- One node made unusable: DYING while a use runs, FREE otherwise (R402). -/
def killNode (s a : State) (m : Nat) : State :=
  if usedBy s m then a.setNode m { (a.node m) with st := .dying } else a.setNode m {}

theorem killNode_same (s a : State) (m : Nat) : ((killNode s a m).node m).st ≠ .live := by
  unfold killNode
  split <;> rw [State.setNode_same] <;> exact nofun

theorem killNode_other (s a : State) {m k : Nat} (h : k ≠ m) : (killNode s a m).node k = a.node k := by
  unfold killNode
  split <;> exact a.setNode_other _ h

theorem killNode_stays (s a : State) (m k : Nat) (h : (a.node k).st ≠ .live) : ((killNode s a m).node k).st ≠ .live := by
  by_cases hk : k = m
  · rw [hk]
    exact killNode_same s a m
  · rwa [killNode_other _ _ hk]

theorem foldl_killNode (s : State) (l : List Nat) (a : State) (k : Nat) (h : k ∈ l ∨ (a.node k).st ≠ .live) :
    ((l.foldl (killNode s) a).node k).st ≠ .live := by
  induction l generalizing a with
  | nil => exact h.resolve_left List.not_mem_nil
  | cons m l ih =>
    refine ih _ ?_
    obtain hmem | hdead := h
    · obtain rfl | hmem := List.mem_cons.mp hmem
      · exact .inr (killNode_same s a k)
      · exact .inl hmem
    · exact .inr (killNode_stays _ _ _ _ hdead)

/-- No node under a revoked one is LIVE (R402). -/
theorem invalidate_kills {s : State} {n m : Nat} (h : isUnder s 8 n m = true) : ((invalidate s n).node m).st ≠ .live := by
  refine foldl_killNode s _ s m ?_
  by_cases hlive : (s.node m).st = .live
  · refine .inl (List.mem_filter.mpr ⟨mem_keys_of_live hlive, ?_⟩)
    rw [h, hlive]
    rfl
  · exact .inr hlive

/-- The state in which a key change takes effect: it is no longer open, and the journal holds it (R398, R426). -/
def journaled (x : KeyPend) (s : State) : State :=
  { s with ok.pends := s.ok.pends.filter (fun y => y.order != x.order), ok.journal := s.ok.journal ++ [x] }

/-- What a key change makes of the nodes; the open changes and the journal stay as noted. -/
theorem keyEffect_notes (x : KeyPend) (s : State) :
    (keyEffect x s).1.ok.pends = s.ok.pends ∧ (keyEffect x s).1.ok.journal = s.ok.journal ∧ (keyEffect x s).1.tb = s.tb := by
  have hkill : (invalidate s x.node).ok.pends = s.ok.pends ∧ (invalidate s x.node).ok.journal = s.ok.journal ∧
      (invalidate s x.node).tb = s.tb := by
    refine List.foldlRecOn (motive := fun a : State => a.ok.pends = s.ok.pends ∧ a.ok.journal = s.ok.journal ∧ a.tb = s.tb) _ _
      ⟨rfl, rfl, rfl⟩ fun a ha m _ => ?_
    split <;> exact ha
  unfold keyEffect
  split
  · split <;> exact ⟨rfl, rfl, rfl⟩
  · split
    · exact ⟨rfl, rfl, rfl⟩
    · split <;> exact ⟨rfl, rfl, rfl⟩
  · exact hkill

theorem keyEffect_derives {x : KeyPend} {s : State} {par uses owner : Nat} {attr : BitVec 32} {label : List (BitVec 8)}
    (hkind : x.kind = .derive_ par attr uses owner label) (hlive : (s.node par).st = .live) :
    (keyEffect x s).1 = makeNode s x.node par attr uses owner false (deriveKey (s.node par).key label attr) := by
  unfold keyEffect
  rw [hkind]
  dsimp only
  rw [if_neg fun h => h hlive]

theorem keyEffect_revokes {x : KeyPend} {s : State} (hkind : x.kind = .revoke) : (keyEffect x s).1 = invalidate s x.node := by
  unfold keyEffect
  rw [hkind]

/-- The application of the key change that comes first: its effect, and write-backs and records besides (R398). -/
theorem exec_keyApplication {s : State} {k : KeyPend} {r : List KeyPend} (h : sortBy pendBefore s.ok.pends = k :: r) :
    ∃ y e, exec .keyApplication s = .next y ∧ y.tb = (s.runTo k.applyEdge).tb ∧
      y.ok = { (keyEffect k (journaled k (s.runTo k.applyEdge))).1.ok with lastEnd := e } := by
  have hsome : s.ok.pends.isEmpty = false := by
    rw [List.isEmpty_eq_false_iff]
    intro hnil
    rw [hnil] at h
    exact List.cons_ne_nil k r h.symm
  have happly : keyApplication s = applyKey k (s.runTo k.applyEdge) := by
    unfold keyApplication
    rw [h]
  have hcalm (a : State) (e : Option (Nat × Nat × Nat)) :
      Calm a (match e with | some (n, e, st) => deltaSend (.keyEnd n e) st a | none => a) := by
    split
    · exact deltaSend_calm (Calm.refl a)
    · exact Calm.refl a
  have hexec : ∃ z, Calm (keyApplication s) z ∧ exec .keyApplication s = .next (checkRows [5] z) := by
    refine ⟨_, hcalm (keyApplication s) (keyApplication s).ok.lastEnd, ?_⟩
    show execKeyApplication s = _
    unfold execKeyApplication
    rw [hsome]
    rfl
  obtain ⟨z, hz, he⟩ := hexec
  obtain ⟨i, hrows⟩ := checkRows_pair [5] z
  obtain ⟨-, -, htb⟩ := keyEffect_notes k (journaled k (s.runTo k.applyEdge))
  have hfinish {a : State} {n f st : Nat} : Calm a (finishKey a n f st) := finishKey_calm (Calm.refl a)
  rw [happly] at hz
  exact ⟨_, _, he, (hrows.tb.trans (hz.tb.trans hfinish.tb)).trans htb, hrows.ok.trans (hz.ok.trans hfinish.ok)⟩

/-- Settles O48: the three descriptors wait for their instant, and the first open change is applied. -/
theorem keyChanges : Obligations.KeyChanges := by
  constructor
  · rintro s _ t p r y rfl hactive
    refine ⟨fun hf hcheck => ?_, fun blob hf hblob hcheck => ?_, fun hf hlatch hres hroot hlc howner hlive => ?_⟩
    · rw [exec_keyDerive hf, hactive, keyDeriveAct_pends hcheck]
      have hcalm := keySend_calm y.1 (pendKey (takeUse y.1 (fld (dw y.2.words 2) 11 0)) p r y.2.id (keyNode y.2.words)
        (.derive_ (fld (dw y.2.words 2) 11 0) (dw y.2.words 3) (dw y.2.words 4).toNat (if p.val = 0 then fld (dw y.2.words 5) 28 24 else p)
          ((wordsBytes (y.2.words.drop 8)).take (fld (dw y.2.words 5) 5 0))))
      refine ⟨_, _, rfl, congrArg OkState.pends hcalm.ok, rfl, rfl, rfl, rfl, fun n hn => ?_, keySend_db .., hcalm.regs⟩
      rw [State.node, hcalm.ok]
      exact y.1.setNode_other _ hn
    · obtain ⟨a, b, hab, hact⟩ := keyImportAct_pends hblob hcheck
      rw [exec_keyImport hf, hactive, hact]
      have hcalm := keySend_calm y.1 (pendKey (takeUse y.1 (fld (dw y.2.words 2) 11 0)) p r y.2.id (keyNode y.2.words)
        (.import_ (fld (dw y.2.words 2) 11 0) (dw y.2.words 3) (dw y.2.words 4).toNat
          (if p.val = 0 then fld (dw y.2.words 5) 28 24 else p) a b))
      exact ⟨_, _, a, b, rfl, congrArg OkState.pends hcalm.ok, rfl, rfl, rfl, rfl, hab, keySend_db .., hcalm.regs⟩
    · rw [exec_keyRevoke hf, hactive, keyRevokeAct_pends hlatch hres hroot hlc howner hlive]
      have hcalm := keySend_calm y.1 (pendKey y.1 p r y.2.id (keyNode y.2.words) .revoke)
      exact ⟨_, _, rfl, congrArg OkState.pends hcalm.ok, rfl, rfl, rfl, (congrArg OkState.nodes hcalm.ok).trans rfl, keySend_db ..⟩
  · intro s k r hsort
    obtain ⟨y, e, hexec, htb, hok⟩ := exec_keyApplication hsort
    obtain ⟨hpends, hjournal, -⟩ := keyEffect_notes k (journaled k (s.runTo k.applyEdge))
    have hnode (n : Nat) : y.node n = (keyEffect k (journaled k (s.runTo k.applyEdge))).1.node n := by
      rw [State.node, hok]
      rfl
    refine ⟨y, hexec, ?_, ?_, ?_, fun par attr uses owner label hkind hlive => ?_, fun hkind n hunder => ?_⟩
    · rw [htb, s.runTo_edge]
    · rw [hok]
      exact hpends
    · rw [hok]
      exact hjournal
    · have heff := keyEffect_derives (s := journaled k (s.runTo k.applyEdge)) hkind hlive
      rw [hnode, heff, makeNode, State.setNode_same]
      refine ⟨rfl, rfl, rfl, rfl, rfl, rfl, rfl, fun n hn => ?_⟩
      rw [hnode, heff]
      exact (journaled k (s.runTo k.applyEdge)).setNode_other _ hn
    · rw [hnode, keyEffect_revokes hkind]
      exact invalidate_kills ((isUnder_of_nodes (a := s) rfl 8 k.node n).trans hunder)

end Sys2Proof.Machine
end

section
/-! O50: requests of the life cycle and their fusing (R390, R393). -/

namespace Sys2Proof.Machine

/-! A request (R390). -/

/-- No edge without a token ends in OWNED, so such a request programs no owner's key. -/
theorem not_owned_of_lcPermitted {a d : Nat} (h : lcPermitted a d = some (false, false)) : ¬(a = 1 ∧ d = 2) := by
  rintro ⟨rfl, rfl⟩
  exact absurd h (by decide)

section
variable {p r : Nat} {s : State} {f : Flight}

/-- A request along an edge that needs no token begins to program the fuses. -/
theorem lcRequestAct_fuses (hlatch : s.ok.latched = false) (hres : keyResOk f.words = true)
    (hperm : lcPermitted (lcState s) (fld (dw f.words 2) 2 0) = some (false, false)) (hp : p = 0) :
    lcRequestAct p r s f =
      { newNonce s with ok.fusing := s.ok.fusing ++ [LcReq.mk (64 * p + r) f.id (fld (dw f.words 2) 2 0) none] } := by
  simp [lcRequestAct, hlatch, hres, hperm, hp, newNonce, if_neg (not_owned_of_lcPermitted hperm)]

theorem lcRequestAct_refused (hlatch : s.ok.latched = false) (hres : keyResOk f.words = true)
    (hperm : lcPermitted (lcState s) (fld (dw f.words 2) 2 0) = none) :
    lcRequestAct p r s f = finish (newNonce s) p r f.id stNotPermitted := by
  simp [lcRequestAct, hlatch, hres, hperm]

end

/-! The end of the programming (R393). -/

/-- Nodes made unusable are all that changes. -/
theorem foldl_killNode_eq (s : State) (l : List Nat) (a : State) :
    ∃ n, l.foldl (killNode s) a = { a with ok.nodes := n } := by
  refine List.foldlRecOn (motive := fun b : State => ∃ n, b = { a with ok.nodes := n }) _ _ ⟨a.ok.nodes, rfl⟩ ?_
  rintro _ ⟨n, rfl⟩ m -
  unfold killNode
  split <;> exact ⟨_, rfl⟩

/-- The fuses as a request programs them: what an earlier one fused stays (R390). -/
def fused (q : LcReq) (rest : List LcReq) (s : State) : State :=
  { s with ok.fusing := rest,
           ok.service := q.dest == 3 && s.ok.fused != 4,
           ok.fused := if q.dest = 3 then s.ok.fused else max s.ok.fused q.dest,
           ok.ownerHash := match s.ok.ownerHash with | some h => some h | none => q.ownerHash,
           ok.secret := match s.ok.secret with
             | some d => some d
             | none => if q.dest = 1 then some s.draws else none,
           draws := if q.dest = 1 then s.draws + 1 else s.draws }

/-- Every node but the root made unusable (R393). -/
def othersKilled (s : State) : State :=
  (s.ok.nodes.keys.filter (fun m => m != 0 && (s.node m).st == .live)).foldl (killNode s) s

theorem othersKilled_eq (s : State) : ∃ n, othersKilled s = { s with ok.nodes := n } := foldl_killNode_eq ..

theorem othersKilled_node (s : State) {m : Nat} (hm : m ≠ 0) : ((othersKilled s).node m).st ≠ .live := by
  refine foldl_killNode s _ s m ?_
  by_cases hlive : (s.node m).st = .live
  · exact .inl (List.mem_filter.mpr ⟨mem_keys_of_live hlive, by simp [hm, hlive]⟩)
  · exact .inr hlive

/-- The root of the state entered: none in RETIRED, renewed in an orchard that is not sealed (R393). -/
def rootRenewed (dest : Nat) (s : State) : State :=
  if dest = 4 then { s.setNode 0 {} with ok.unsealed := false }
  else if s.ok.unsealed then s.setNode 0 (rootNode s dest) else s

theorem rootRenewed_eq (dest : Nat) (s : State) : ∃ n u, rootRenewed dest s = { s with ok.nodes := n, ok.unsealed := u } := by
  unfold rootRenewed
  split
  · exact ⟨_, _, rfl⟩
  · split <;> exact ⟨_, s.ok.unsealed, rfl⟩

theorem rootRenewed_other (dest : Nat) (s : State) {m : Nat} (hm : m ≠ 0) : (rootRenewed dest s).node m = s.node m := by
  unfold rootRenewed
  split
  · exact State.setNode_other s (k := m) (n := 0) {} hm
  · split
    · exact s.setNode_other _ hm
    · rfl

theorem rootRenewed_retired (s : State) :
    (rootRenewed 4 s).ok.unsealed = false ∧ ((rootRenewed 4 s).node 0).st = .free := by
  rw [rootRenewed, if_pos rfl]
  exact ⟨rfl, congrArg Node.st (s.setNode_same 0 {})⟩

theorem fuseComplete_calm {s : State} {q : LcReq} {rest : List LcReq} (h : s.ok.fusing = q :: rest) :
    Calm (rootRenewed q.dest (othersKilled (fused q rest s))) (fuseComplete s) := by
  unfold fuseComplete
  rw [h]
  exact tallyEvent_calm (finishKey_calm (Calm.refl _))

/-- Settles O50: a request along an edge or along none, and the state that the programmed fuses give. -/
theorem lifeCycle : Obligations.LifeCycle := by
  constructor
  · rintro s _ t p r y _ rfl hf rfl hlatch hres
    have hexec : exec (.lcRequest t p r) s = .next (lcRequestAct p r y.1 y.2) :=
      congrArg _ (withDesc_fetched hf (lcRequestAct p r))
    refine ⟨fun hperm hp => ?_, fun hperm => ?_⟩
    · exact ⟨_, hexec.trans (congrArg _ (lcRequestAct_fuses hlatch hres hperm hp)), rfl, rfl, rfl, rfl, rfl⟩
    · rw [hexec, lcRequestAct_refused hlatch hres hperm]
  · rintro s _ t q r rfl halive hq
    have hcalm := fuseComplete_calm hq
    obtain ⟨n, hkilled⟩ := othersKilled_eq (fused q r (s.runTo t))
    obtain ⟨m, u, hroot⟩ := rootRenewed_eq q.dest (othersKilled (fused q r (s.runTo t)))
    have hnode (k : Nat) : (fuseComplete (s.runTo t)).node k = (rootRenewed q.dest (othersKilled (fused q r (s.runTo t)))).node k := by
      rw [State.node, hcalm.ok]
      rfl
    refine ⟨_, congrArg Host.Outcome.next (live_eq (f := fuseComplete) halive), ?_, ?_, fun k hk => ?_, fun hdest => ?_, ?_⟩
    · rw [hcalm.ok, hroot, hkilled]
      rfl
    · rw [hcalm.ok, hroot, hkilled]
      rfl
    · rw [hnode, rootRenewed_other _ _ hk]
      exact othersKilled_node _ hk
    · rw [hnode, hcalm.ok, hdest]
      exact rootRenewed_retired _
    · rw [hcalm.regs, hroot, hkilled]
      rfl

end Sys2Proof.Machine
end

section
/-! O51: tamper edges and the clearing of their latch (R407 to R409). -/

namespace Sys2Proof.Machine

/-! A failed self-test (R428): what it notes, and the role that a failure gives up. -/

theorem changeRole_pu (s : State) (new : PRole) (cause : Nat) :
    (changeRole s new cause).pu = { s.pu with roleAt := s.tb.edge, holdFrom := none, outSeq := 0, inSeq := 0, items := [],
                                              mine := [], theirs := [] } := by
  simp [changeRole]

/-- Falling silent leaves the notes of the self-tests, the counters and the withheld frames. -/
theorem fallSilent_leaves (s : State) :
    (fallSilent s).pr.fit = s.pr.fit ∧ (fallSilent s).pr.cnt = s.pr.cnt ∧ (fallSilent s).pu.failed = s.pu.failed ∧
    (fallSilent s).pu.flags = s.pu.flags ∧ (fallSilent s).pu.sticky = s.pu.sticky := by
  unfold fallSilent
  extract_lets ready
  split
  · rw [changeRole_pu, (changeRole_frame ..).1]
    exact ⟨rfl, rfl, rfl, rfl, rfl⟩
  · exact ⟨rfl, rfl, rfl, rfl, rfl⟩

/-- From s to y a self-test of number n failed: its bit and its flag are set, it is counted, and a FATAL one makes the unit UNFIT. -/
structure SelftestNoted (n : Nat) (fatal : Bool) (s y : State) : Prop where
  failed : y.pu.failed = s.pu.failed ||| ((1 : BitVec 8) <<< n)
  fit : y.pr.fit = (s.pr.fit && !fatal)
  cnt : y.pr.cnt = (prCount s 9).pr.cnt
  flags : y.pu.flags = s.pu.flags ||| flagBit (if fatal then 7 else 8)
  sticky : y.pu.sticky = s.pu.sticky

theorem selftest_noted {n : Nat} (hn : n ≤ 6) (fatal : Bool) (d : BitVec 32) (s : State) :
    SelftestNoted n fatal s (selftest n fatal d s) := by
  unfold selftest
  rw [if_neg (not_lt.mpr hn)]
  extract_lets s1 s2 w s3
  have hpu : s2.pu = s.pu := by rw [tallyEvent_pu, recordAll_pu]
  have hpr : s2.pr = s.pr := (tallyEvent_calm (recordAll_calm (Calm.refl s))).pr
  have h3 : s3.pu = { s.pu with failed := s.pu.failed ||| ((1 : BitVec 8) <<< n), flags := s.pu.flags ||| flagBit (if fatal then 7 else 8) } := by
    rw [← hpu]
    rfl
  have hcnt : s3.pr = (prCount s 9).pr := by
    unfold prCount
    rw [← hpr]
    rfl
  split
  next hfatal =>
    obtain ⟨hfit, hc, hfail, hflags, hsticky⟩ := fallSilent_leaves { s3 with pr.fit := false }
    refine ⟨?_, ?_, ?_, ?_, ?_⟩
    · rw [hfail, h3]
    · rw [hfit, hfatal, Bool.not_true, Bool.and_false]
    · rw [hc, hcnt]
    · rw [hflags, h3]
    · rw [hsticky, h3]
  next hfatal =>
    refine ⟨?_, ?_, ?_, ?_, ?_⟩
    · rw [h3]
    · rw [hcnt, Bool.eq_false_of_not_eq_true hfatal, Bool.not_false, Bool.and_true]
      rfl
    · rw [hcnt]
    · rw [h3]
    · rw [h3]

theorem shifted_getLsbD {w n : Nat} (h : n < w) : ((1 : BitVec w) <<< n).getLsbD n = true := by
  simp [h]

theorem SelftestNoted.failed_bit {n : Nat} {fatal : Bool} {s y : State} (h : SelftestNoted n fatal s y) (hn : n < 8) :
    y.pu.failed.getLsbD n = true := by
  rw [h.failed, BitVec.getLsbD_or, shifted_getLsbD hn, Bool.or_true]

/-! An edge of a source (R407, R408). -/

/-- The latch, the seal and the sources of an edge. -/
def latched (src : Fin 5) (s : State) : State :=
  { s with ok.active := s.ok.active ||| ((1 : BitVec 5) <<< src.val), ok.seen := s.ok.seen ||| ((1 : BitVec 5) <<< src.val), ok.latched := true,
           ok.tword := if s.ok.latched then s.ok.tword else (stampNow s).word, ok.unsealed := false }

theorem cutUses_calm (s : State) : Calm { s with ok.uses := [], ok.pends := [], ok.nodes := [] } (cutUses s) :=
  List.foldlRecOn (motive := Calm { s with ok.uses := [], ok.pends := [], ok.nodes := [] }) _ _ (Calm.refl _) fun _ ha _ _ =>
    finishKey_calm ha

/-- A tamper's record leaves the orchard but the note that it is owed. -/
theorem tamperRecord_calm {base s : State} (h : Calm base s) : ∃ o, Calm { base with ok.owed := o } (tamperRecord s) := by
  unfold tamperRecord
  split
  · refine ⟨false, tallyEvent_calm ?_⟩
    exact ⟨h.pending, h.tb, h.tu, h.ptp, h.regs, h.cores, h.tx, h.pw, h.st, congrArg (fun k : OkState => { k with owed := false }) h.ok, h.pr,
      h.snap, h.gn, h.mc, h.ig, h.fc, h.tg, h.ph, h.fl, h.fb, h.pb, h.lp⟩
  · refine ⟨true, ?_⟩
    exact ⟨h.pending, h.tb, h.tu, h.ptp, h.regs, h.cores, h.tx, h.pw, h.st, congrArg (fun k : OkState => { k with owed := true }) h.ok, h.pr,
      h.snap, h.gn, h.mc, h.ig, h.fc, h.tg, h.ph, h.fl, h.fb, h.pb, h.lp⟩

/-- An edge that the state senses latches, seals and makes every node and use unusable. -/
theorem tamperEdge_calm {src : Fin 5} {s : State} (h : ¬(s.pw.st = .off ∧ 2 ≤ src.val)) :
    ∃ o, Calm { latched src s with ok.uses := [], ok.pends := [], ok.nodes := [], ok.owed := o } (tamperEdge src s) := by
  unfold tamperEdge
  rw [if_neg h]
  exact tamperRecord_calm (cutUses_calm (latched src s))

theorem tamperEdge_off {src : Fin 5} {s : State} (hoff : s.pw.st = .off) (hsrc : 2 ≤ src.val) : tamperEdge src s = s :=
  if_pos ⟨hoff, hsrc⟩

theorem alive_of_pw {a b : State} (h : b.pw = a.pw) : alive b = alive a := by
  unfold alive powered
  rw [h]

theorem alive_of_off {s : State} (h : s.pw.st = .off) : alive s = false := by simp [alive, powered, h]

section
variable {s : State} {t : Nat} {src : Fin 5}

/-- The command: the edge, and a self-test's failure at most, which leaves the orchard. -/
theorem exec_tamper : ∃ y, exec (.tamper t src) s = .next y ∧ PairCalm (tamperEdge src (s.runTo t)) y := by
  refine ⟨_, rfl, ?_⟩
  split
  · exact .refl _
  · exact selftest_pair ..

theorem exec_tamper_fails (hlatch : (s.runTo t).ok.latched = false) (halive : alive (tamperEdge src (s.runTo t)) = true) :
    exec (.tamper t src) s =
      .next (selftest 6 true (BitVec.ofNat 32 (tamperEdge src (s.runTo t)).ok.seen.toNat) (tamperEdge src (s.runTo t))) := by
  show Host.Outcome.next (if (s.runTo t).ok.latched || !alive (tamperEdge src (s.runTo t)) then _ else _) = _
  rw [hlatch, halive]
  rfl

theorem exec_tamper_off (hoff : (s.runTo t).pw.st = .off) (hsrc : 2 ≤ src.val) : exec (.tamper t src) s = .next (s.runTo t) := by
  show Host.Outcome.next (if (s.runTo t).ok.latched || !alive (tamperEdge src (s.runTo t)) then _ else _) = _
  rw [tamperEdge_off hoff hsrc, alive_of_off hoff, Bool.not_false, Bool.or_true, if_pos rfl]

end

/-! The clearing (R409). -/

/-- The store reaches the W1C field of the latch and no other. -/
theorem storeSetup_okTamper {s : State} (v : BitVec 32) (h : domSt s 1 = .run) : storeSetup 0 0x100040 v s = tamperClearAct 0 v s := by
  obtain ⟨i, hreg, htx, hrw⟩ : ∃ i, regInfo 0x100040 = some i ∧ i.tx = 0#32 ∧ i.rw = 0#32 := ⟨_, rfl, rfl, rfl⟩
  have hdom : domOn s 0x100040 (sliceSel s 0 0x100040) = true := by
    show (domSt s 1 == .run) = true
    rw [h]
    rfl
  simp [storeSetup, hreg, hdom, htx, hrw, WriteRule.allows, storeRw, storeW1c, storeWo]

theorem exec_okTamperWrite {s : State} {t : Nat} {h : Hearth} {v : BitVec 32} (hc : CoreOf (s.runTo t) h 0) (hdom : domSt (s.runTo t) 1 = .run) :
    exec (.okTamperWrite t h v) s = .next (coreDone h (tamperClearAct 0 v (s.runTo t))) := by
  show Host.Outcome.next (coreStore t h 0x100040 v s) = _
  rw [coreStore_eq hc (by decide) (by decide), storeSetup_okTamper v hdom]

/-- Settles O51: the edge by the parts it latches and cuts, the self-test by what it notes, the clearing by its two conditions. -/
theorem tampering : Obligations.Tampering := by
  rintro s _ t rfl
  refine ⟨fun src hoff hsrc => exec_tamper_off hoff hsrc, fun src halive hlatch => ?_, fun src hsensed => ?_, fun src => rfl,
    fun h v hc hdom hbit => ⟨fun hlc hactive => ?_, fun hnot => ?_⟩⟩
  · have hon : (s.runTo t).pw.st ≠ .off := fun hoff =>
      Bool.false_ne_true ((alive_of_off hoff).symm.trans halive)
    obtain ⟨o, hcalm⟩ := tamperEdge_calm (src := src) fun hoff => hon hoff.1
    have hedge : alive (tamperEdge src (s.runTo t)) = true := (alive_of_pw hcalm.pw).trans halive
    have hnoted := selftest_noted (Nat.le_refl 6) true (BitVec.ofNat 32 (tamperEdge src (s.runTo t)).ok.seen.toNat)
      (tamperEdge src (s.runTo t))
    exact ⟨_, exec_tamper_fails hlatch hedge, hnoted.failed_bit (by decide), hnoted.fit.trans (Bool.and_false _)⟩
  · obtain ⟨o, hcalm⟩ := tamperEdge_calm (s := s.runTo t) (src := src) fun hoff =>
      hsensed.elim (fun hon => hon hoff.1) fun hlow => not_lt.mpr hoff.2 hlow
    obtain ⟨y, hexec, hpair⟩ := exec_tamper (s := s) (t := t) (src := src)
    refine ⟨y, hexec, ?_⟩
    rw [hpair.ok, hcalm.ok]
    refine ⟨rfl, ?_, ?_, rfl, rfl, rfl, rfl, rfl, fun hlatch => if_pos hlatch⟩
    · exact (BitVec.getLsbD_or ..).trans (by rw [shifted_getLsbD src.isLt, Bool.or_true])
    · exact (BitVec.getLsbD_or ..).trans (by rw [shifted_getLsbD src.isLt, Bool.or_true])
  · have hact : tamperClearAct 0 v (s.runTo t) = { s.runTo t with ok.latched := false, ok.seen := 0 } := if_pos ⟨rfl, hbit, hlc, hactive⟩
    rw [exec_okTamperWrite hc hdom, hact]
    exact ⟨_, rfl, rfl, rfl, rfl, rfl⟩
  · have hact : tamperClearAct 0 v (s.runTo t) = s.runTo t :=
      if_neg fun ⟨_, _, hlc, hactive⟩ => hnot.elim (fun h => h hlc) fun h => h hactive
    rw [exec_okTamperWrite hc hdom, hact]
    exact ⟨_, rfl, rfl, rfl⟩

end Sys2Proof.Machine
end

section
/-! O53: the roles of the pair, its self-tests and the health flags (R411, R420, R422, R428, R429). -/

namespace Sys2Proof.Machine

/-! A frame that leaves changes nothing of the pair: not its state, nor its run. -/

theorem putGroup_pu (s : State) (p r : Nat) (f : Flight) (b : Wb) : (putGroup s p r f b).pu = s.pu :=
  foldl_pu (fun _ _ => devWrite_pu ..) _ s

theorem putWb_pu (s : State) (p r : Nat) (f : Flight) (b : Wb) : (putWb s p r f b).pu = s.pu := devWrite_pu ..

theorem drain_pu (n : Nat) (s : State) (p r : Nat) (acc : List Flight) : (drain n s p r acc).1.pu = s.pu := by
  induction n generalizing s acc with
  | zero => rfl
  | succ n ih =>
    unfold drain
    split
    · rfl
    · split
      · exact (ih ..).trans (putWb_pu ..)
      · split
        · exact (ih ..).trans (putWb_pu ..)
        · rfl

theorem settle_pu (s : State) (p r id : Nat) (b : Wb) : (settle s p r id b).1.pu = s.pu := by
  unfold settle
  split
  · rfl
  · dsimp only
    split
    · exact drain_pu ..
    · exact (drain_pu ..).trans (putGroup_pu ..)

theorem complete_pu (s : State) (p r id : Nat) (b : Wb) : (complete s p r id b).pu = s.pu := by
  unfold complete
  dsimp only
  split
  · exact settle_pu ..
  · rw [ringIrq_pu, indexBlock_pu, settle_pu]

theorem discardAt_pu (q reason : Nat) (f : GFrame) (s : State) : (discardAt q reason f s).pu = s.pu := by
  unfold discardAt
  dsimp only
  split
  · exact complete_pu ..
  · rfl

theorem enqueue_pu (f0 : GFrame) (wants : List Nat) (s : State) : (enqueue f0 wants s).pu = s.pu := by
  unfold enqueue
  extract_lets ok s1 s2 n x f w s3
  have h1 : s1.pu = s.pu := foldl_pu (f := fun a q => gnCount a 1 q f0.cls) (fun _ _ => rfl) _ _
  have h2 : s2.pu = s1.pu := foldl_pu (fun a q => by dsimp only; split <;> rfl) _ _
  split
  · split
    · exact (complete_pu ..).trans h1
    · exact h1
  · refine (foldl_pu (fun a q => ?_) _ s3).trans (h2.trans h1)
    split
    · exact discardAt_pu ..
    · split
      · exact discardAt_pu ..
      · rfl

theorem dupEnter_eq (q mac m : Nat) (k : DupMark) (s : State) : ∃ ig, dupEnter s q mac m k = { s with ig := ig } := by
  unfold dupEnter
  dsimp only
  split
  · exact ⟨_, rfl⟩
  · split <;> exact ⟨_, rfl⟩

theorem countSent_eq (f : OutFrame) (s : State) : ∃ ph, countSent f s = { s with ph := ph } := by
  unfold countSent
  split
  · exact ⟨_, rfl⟩
  · exact ⟨s.ph, rfl⟩

/-- From a to b nothing of the redundancy controller changed. -/
def PairStays (a b : State) : Prop := b.pr = a.pr ∧ b.pu = a.pu

theorem PairStays.trans {a b c : State} (h : PairStays a b) (k : PairStays b c) : PairStays a c := ⟨k.1.trans h.1, k.2.trans h.2⟩
theorem PairStays.foldl {β : Type} {f : State → β → State} (hf : ∀ a b, PairStays a (f a b)) (l : List β) (s : State) :
    PairStays s (l.foldl f s) :=
  List.foldlRecOn (motive := PairStays s) l f ⟨rfl, rfl⟩ fun a ha b _ => ha.trans (hf a b)

theorem enqueue_pairStays (f0 : GFrame) (wants : List Nat) (s : State) : PairStays s (enqueue f0 wants s) :=
  ⟨(enqueue_green ..).pr, enqueue_pu ..⟩

theorem sendOut_pairStays (f : OutFrame) (s : State) : PairStays s (sendOut f s) := by
  obtain ⟨ph, hcount⟩ := countSent_eq f s
  unfold sendOut
  rw [hcount]
  extract_lets x put q mode seq pb y
  have hput (o : Nat → List (BitVec 8)) (a : State) (l : List Nat) : PairStays a (l.foldl (fun b p => put (o p) p b) a) :=
    PairStays.foldl (fun _ _ => enqueue_pairStays ..) l a
  split
  · exact hput _ x _
  · split
    · exact hput _ y _
    · obtain ⟨ig, hdup⟩ := dupEnter_eq q (srcMac f.octets) seq .own y
      rw [hdup]
      exact hput _ { y with ig := ig } _

theorem lanesHold_eq (w : LaneGate) (t16 : Nat) (s : State) : ∃ lp, lanesHold w t16 s = { s with lp := lp } := by
  refine List.foldlRecOn (motive := fun a : State => ∃ lp, a = { s with lp := lp }) _ _ ⟨s.lp, rfl⟩ ?_
  rintro _ ⟨lp, rfl⟩ g -
  exact ⟨_, rfl⟩

/-- The outputs of a unit that becomes ACTIVE go on: no frame is withheld any more, and its role and counters stay (R422). -/
theorem outputsResume_pair (t16 : Nat) (s : State) : PairStays { s with pu.held := [], pu.early := [] } (outputsResume t16 s) := by
  refine (PairStays.foldl (fun a f => sendOut_pairStays f a) s.pu.held { s with pu.held := [], pu.early := [] }).trans ?_
  obtain ⟨lp, hlanes⟩ := lanesHold_eq .dark t16 (gcbResume (releaseHeld s))
  rw [outputsResume, hlanes]
  exact ⟨rfl, rfl⟩

theorem outputsResume_sends (t16 : Nat) (s : State) : (outputsResume t16 s).pw = s.pw ∧ (outputsResume t16 s).tb = s.tb := by
  have hsend : (releaseHeld s).pw = s.pw ∧ (releaseHeld s).tb = s.tb :=
    List.foldlRecOn (motive := fun a : State => a.pw = s.pw ∧ a.tb = s.tb) _ _ ⟨rfl, rfl⟩ fun a ha f _ => by
      obtain ⟨_, hcalm⟩ := sendOut_sends f a
      exact ⟨hcalm.pw.trans ha.1, hcalm.tb.trans ha.2⟩
  obtain ⟨lp, hlanes⟩ := lanesHold_eq .dark t16 (gcbResume (releaseHeld s))
  rw [outputsResume, hlanes]
  exact hsend

/-! The takeover (R420, R422). -/

theorem step9_of_step {s : State} (h : s.pw.step ≠ 9) : step9 s = s := if_pos (.inl h)
theorem step9_of_holdup {s : State} (h : s.pw.holdupOk = false) : step9 s = s := if_pos (.inr (.inl (by rw [h]; decide)))

/-- The ACTIVE unit that a takeover makes, before its outputs go on. -/
def takenRole (e : Nat) (s : State) : State :=
  prCount (changeRole { s.runTo e with pr.lastT := (stampNow (s.runTo e)).word, pr.m0Up := false, pr.m1Up := false } .active
    (if s.pr.sync != .synced || !s.pr.fit then 2 else 1)) 0

/-- A takeover in which state is lost is counted and flagged besides (R420). -/
def takenCold (e : Nat) (s : State) : State :=
  if s.pr.sync != .synced || !s.pr.fit then raiseSticky (prCount (takenRole e s) 1) 11 else takenRole e s

theorem takeover_declared {s : State} {e : Nat} {resume : State → State} (hrole : s.pr.role = .standby) (hports : bcnPorts s ≠ 0)
    (hedge : takeoverEdge s = some e) : takeover resume s = resume (takenCold e s) := by
  unfold takeover
  rw [hedge]
  dsimp only
  rw [if_neg fun h => h.elim (fun h => h hrole) hports]
  rfl

/-- What a counted change to ACTIVE leaves of a state. -/
theorem roleTaken_frame (cause : Nat) (a : State) : (prCount (changeRole a .active cause) 0).pr.role = .active ∧
    (prCount (changeRole a .active cause) 0).tb = a.tb ∧ (prCount (changeRole a .active cause) 0).pw = a.pw ∧
    prCntOf (prCount (changeRole a .active cause) 0) 0 = inc32 (prCntOf a 0) ∧
    prCntOf (prCount (changeRole a .active cause) 0) 1 = prCntOf a 1 := by
  have hpair := changeRole_pair .active cause a
  refine ⟨?_, hpair.tb, hpair.pw, ?_, ?_⟩
  · show (changeRole a .active cause).pr.role = .active
    rw [(changeRole_frame ..).1]
  · rw [prCntOf_prCount, if_pos rfl, changeRole_cnt]
  · rw [prCntOf_prCount, if_neg (by decide), changeRole_cnt]

theorem takenRole_frame (e : Nat) (s : State) : (takenRole e s).pr.role = .active ∧ (takenRole e s).tb = (s.runTo e).tb ∧
    (takenRole e s).pw = s.pw ∧ prCntOf (takenRole e s) 0 = inc32 (prCntOf s 0) ∧ prCntOf (takenRole e s) 1 = prCntOf s 1 :=
  roleTaken_frame (if s.pr.sync != .synced || !s.pr.fit then 2 else 1)
    { s.runTo e with pr.lastT := (stampNow (s.runTo e)).word, pr.m0Up := false, pr.m1Up := false }

/-- The counter and the flag of a takeover in which state is lost are all that it adds. -/
theorem coldNoted_frame (a : State) : (raiseSticky (prCount a 1) 11).pr.role = a.pr.role ∧ (raiseSticky (prCount a 1) 11).tb = a.tb ∧
    (raiseSticky (prCount a 1) 11).pw = a.pw ∧ prCntOf (raiseSticky (prCount a 1) 11) 0 = prCntOf a 0 ∧
    prCntOf (raiseSticky (prCount a 1) 11) 1 = inc32 (prCntOf a 1) :=
  ⟨rfl, rfl, rfl, (prCntOf_prCount a 1 0).trans (if_neg (by decide)), (prCntOf_prCount a 1 1).trans (if_pos rfl)⟩

theorem takenCold_frame (e : Nat) (s : State) : (takenCold e s).pr.role = .active ∧ (takenCold e s).tb = (s.runTo e).tb ∧
    (takenCold e s).pw = s.pw ∧ prCntOf (takenCold e s) 0 = inc32 (prCntOf s 0) ∧
    prCntOf (takenCold e s) 1 = (if s.pr.sync = .synced ∧ s.pr.fit = true then prCntOf s 1 else inc32 (prCntOf s 1)) := by
  obtain ⟨hrole, htb, hpw, h0, h1⟩ := takenRole_frame e s
  unfold takenCold
  by_cases hkept : s.pr.sync = .synced ∧ s.pr.fit = true
  · rw [if_pos hkept, if_neg (by simp [hkept])]
    exact ⟨hrole, htb, hpw, h0, h1⟩
  · rw [if_neg hkept, if_pos (by simpa [imp_iff_not_or] using not_and_or.mp hkept)]
    obtain ⟨krole, ktb, kpw, k0, k1⟩ := coldNoted_frame (takenRole e s)
    rw [krole, ktb, kpw, k0, k1, hrole, htb, hpw, h0, h1]
    exact ⟨rfl, rfl, rfl, rfl, rfl⟩

/-- The takeover ends with the outputs gone on, and nothing withheld. -/
theorem exec_takeover_declared {s : State} {e : Nat} (hpair : pairLive s = true) (hrole : s.pr.role = .standby) (hports : bcnPorts s ≠ 0)
    (hedge : takeoverEdge s = some e) (hstep : s.pw.step ≠ 9) :
    exec .takeover s = .next (outputsResume (now16 (takenCold e s)) (takenCold e s)) := by
  have hpw : (outputsResume (now16 (takenCold e s)) (takenCold e s)).pw = s.pw :=
    (outputsResume_sends ..).1.trans (takenCold_frame e s).2.2.1
  rw [exec_takeover hpair, takeover_declared hrole hports hedge]
  exact congrArg _ (step9_of_step (by rwa [hpw]))

/-! The end of the negotiation (R411). -/

theorem negotiationEnd_frame {s : State} (hrole : s.pr.role = .negotiating) (hstep : s.pw.step = 8) :
    (negotiationEnd s).pw.step = 9 ∧ (negotiationEnd s).pw.holdupOk = s.pw.holdupOk ∧
    (negotiationEnd s).tb = (s.runTo (s.pr.negAt + msEdges 50)).tb ∧ (negotiationEnd s).pr.sync = .cold ∧
    (negotiationEnd s).pr.role = (if s.pr.seenActive = true ∨ (s.pr.seen = true ∧ s.pr.position ≠ 0) then .standby else .active) := by
  unfold negotiationEnd
  rw [if_neg (by simp [hrole, hstep])]
  extract_lets s1 new
  have hpair := changeRole_pair new 0 { s1 with pr.sync := .cold, pw.step := 9, pw.stepAt := s1.tb.edge }
  rw [hpair.pw, hpair.tb, (changeRole_frame _ _ _).1]
  refine ⟨rfl, rfl, rfl, rfl, ?_⟩
  show (if s.pr.seenActive then PRole.standby else if s.pr.seen then (if s.pr.position = 0 then .active else .standby) else .active) = _
  split <;> split <;> simp_all

/-- Outside step 9's condition the negotiation ends with the role, and an IMAGE event at most (R411, R472). -/
theorem negotiated_pair {s : State} (hrole : s.pr.role = .negotiating) (hstep : s.pw.step = 8) (hsafe : s.pw.safe = false)
    (hholdup : s.pw.holdupOk = false) : ∃ d, Calm { negotiationEnd s with pw.detail := d } (negotiated s) := by
  have hend : (negotiationEnd s).pw.holdupOk = false := (negotiationEnd_frame hrole hstep).2.1.trans hholdup
  unfold negotiated
  rw [if_neg (by simp [hrole, hstep, hsafe])]
  extract_lets s1 pw d unpaired
  cases hunpaired : unpaired with
  | true =>
    have hcalm : Calm { s1 with pw.detail := d } (imageEvent d { s1 with pw.detail := d }) := tallyEvent_calm (Calm.refl _)
    refine ⟨d, ?_⟩
    rw [if_pos rfl, step9_of_holdup ((congrArg PwState.holdupOk hcalm.pw).trans hend)]
    exact hcalm
  | false =>
    rw [if_neg Bool.false_ne_true, step9_of_holdup hend]
    exact ⟨s1.pw.detail, Calm.refl s1⟩

/-! HEALTH and the checks of the sums (R29, R429). -/

theorem health_frame (s : State) : (health s).tb = (waitTop s).tb ∧ (health s).pu.flags = liveFlags (waitTop s) ∧ (health s).pu.failed = 0 ∧
    (health s).pu.sticky = s.pu.sticky ∧ (health s).pr = s.pr ∧ (health s).regs = s.regs := by
  unfold health
  extract_lets s1 fl left st nfl s2
  have hcalm : Calm s1 s2 := recordAll_calm (Calm.refl s1)
  have hpu : s2.pu = s1.pu := recordAll_pu ..
  exact ⟨hcalm.tb, rfl, rfl, (congrArg PrRun.sticky hpu).trans rfl, hcalm.pr, hcalm.regs⟩

theorem checkRows_balanced {s : State} {rows : List Nat} (h : ∀ r ∈ rows, uneven s r = false) : checkRows rows s = s := by
  have hnone : rows.filter (uneven s) = [] := List.filter_eq_nil_iff.mpr fun r hr => by rw [h r hr]; decide
  rw [checkRows, hnone]
  rfl

theorem checkRows_single {s : State} {r : Nat} (h : uneven s r = true) :
    ∃ i, checkRows [r] s = conservation r { s with gn.imbal := i } := by
  have hone : [r].filter (uneven s) = [r] := by simp [h]
  rw [checkRows, hone]
  by_cases hr : r = 1
  · exact ⟨true, congrArg (conservation r) (if_pos hr)⟩
  · exact ⟨s.gn.imbal, congrArg (conservation r) (if_neg hr)⟩

/-- The sum's flag stays for good, and the FATAL self-test is noted (R29). -/
theorem conservation_noted (r : Nat) (s : State) : (conservation r s).pu.sticky.getLsbD 0 = true ∧
    (conservation r s).pu.failed.getLsbD 5 = true ∧ (conservation r s).pr.fit = false ∧
    prCntOf (conservation r s) 9 = inc32 (prCntOf s 9) := by
  have hnoted : SelftestNoted 5 true (raiseSticky (tallyEvent s 0x03 (BitVec.ofNat 32 r)) 0) (conservation r s) :=
    selftest_noted (by decide) ..
  have hpr : (tallyEvent s 0x03 (BitVec.ofNat 32 r)).pr = s.pr := (tallyEvent_calm (Calm.refl s)).pr
  refine ⟨?_, hnoted.failed_bit (by decide), hnoted.fit.trans (Bool.and_false _), ?_⟩
  · rw [hnoted.sticky]
    exact (BitVec.getLsbD_or ..).trans (Bool.or_true _)
  · calc prCntOf (conservation r s) 9 = prCntOf (prCount (raiseSticky (tallyEvent s 0x03 (BitVec.ofNat 32 r)) 0) 9) 9 := by
          rw [prCntOf, hnoted.cnt]
          rfl
      _ = inc32 (prCntOf (tallyEvent s 0x03 (BitVec.ofNat 32 r)) 9) := by
          rw [prCntOf_prCount, if_pos rfl]
          rfl
      _ = inc32 (prCntOf s 9) := by rw [prCntOf, hpr]; rfl

/-- Settles O53: the negotiation and the takeover by the role they give, the self-tests and the checks by what they note. -/
theorem roles : Obligations.Roles := by
  refine ⟨fun s halive hrole hstep hsafe hholdup => ?_, fun s e hpair hrole hports hedge hstep => ?_, ?_, fun s halive => ?_,
    fun s rows h => checkRows_balanced h, fun s r h => ?_⟩
  · obtain ⟨d, hcalm⟩ := negotiated_pair hrole hstep hsafe hholdup
    obtain ⟨hnine, -, htb, hsync, hnew⟩ := negotiationEnd_frame hrole hstep
    refine ⟨_, congrArg Host.Outcome.next (live_eq (f := negotiated) halive), ?_⟩
    rw [hcalm.pw, hcalm.tb, hcalm.pr]
    refine ⟨hnine, ?_, hsync, hnew⟩
    show (negotiationEnd s).tb.edge = _
    rw [htb, State.runTo_edge]
    rfl
  · obtain ⟨hactive, htb, -, h0, h1⟩ := takenCold_frame e s
    obtain ⟨hpr, hpu⟩ := outputsResume_pair (now16 (takenCold e s)) (takenCold e s)
    have hcnt (i : Nat) : prCntOf (outputsResume (now16 (takenCold e s)) (takenCold e s)) i = prCntOf (takenCold e s) i := by
      rw [prCntOf, hpr]
      rfl
    refine ⟨_, exec_takeover_declared hpair hrole hports hedge hstep, ?_, ?_, ?_, ?_, ?_⟩
    · rw [hpr]
      exact hactive
    · rw [(outputsResume_sends ..).2, htb, State.runTo_edge]
    · rw [hpu]
    · rw [hcnt, h0]
    · rw [hcnt, h1]
  · rintro s _ t n fatal d rfl halive hn
    have hnoted := selftest_noted hn fatal d (s.runTo t)
    refine ⟨_, congrArg Host.Outcome.next (live_eq (f := selftest n fatal d) halive), hnoted.failed_bit n.isLt, hnoted.fit, ?_,
      (selftest_pair n fatal d (s.runTo t)).regs⟩
    rw [hnoted.flags]
    exact raiseFlag_raised (s.runTo t) (by split <;> decide)
  · exact ⟨_, congrArg Host.Outcome.next (live_eq (f := health) halive), health_frame s⟩
  · obtain ⟨i, hcheck⟩ := checkRows_single h
    obtain ⟨hsticky, hfailed, hfit, hcnt⟩ := conservation_noted r { s with gn.imbal := i }
    have hpair := conservation_pair r { s with gn.imbal := i }
    rw [hcheck]
    exact ⟨_, rfl, hsticky, hfailed, hfit, hcnt, hpair.regs, hpair.tb⟩

end Sys2Proof.Machine
end

section
/-! O54: the standby follows the state delta and compares decisions (R353, R414, R416, R417). -/

namespace Sys2Proof.Machine

/-! A divergence (R417). -/

theorem diverge_cold (kind ident : Nat) (s : State) :
    (diverge kind ident s).pr.sync = .cold ∧ prCntOf (diverge kind ident s) 4 = inc32 (prCntOf s 4) := by
  refine ⟨rfl, (prCntOf_prCount _ 4 4).trans ?_⟩
  rw [if_pos rfl]
  have hrec := recordAll_pr s 0xD3 [(2, BitVec.ofNat 32 kind), (3, BitVec.ofNat 32 ident), (4, BitVec.ofNat 32 (slotOf (now16 s)))] (stampNow s)
  have hcnt := congrArg (fun x : PrState => inc32 (Tbl.get 0 x.cnt 4)) hrec
  exact hcnt

/-! The items of the state delta. -/

section
variable {it : DeltaItem} {s : State} (hrole : s.pr.role = .standby)
include hrole

theorem stateDeltaItem_synced (hsync : s.pr.sync = .synced) : stateDeltaItem it s = deltaNext it s := by
  unfold stateDeltaItem
  rw [if_neg fun h => h hrole, hsync]

theorem stateDeltaItem_waiting (hsync : s.pr.sync = .syncing) (hsince : s.pu.since = none) :
    stateDeltaItem it s = { s with pu.items := s.pu.items ++ [it] } := by
  unfold stateDeltaItem
  rw [if_neg fun h => h hrole, hsync, hsince]

end

section
variable {it : DeltaItem} {s : State}

theorem deltaNext_taken (h : it.seq < s.pu.inSeq) : deltaNext it s = s := if_pos h

theorem deltaNext_next (h : it.seq = s.pu.inSeq) : deltaNext it s = deltaApply it { s with pu.inSeq := it.seq + 1 } := by
  unfold deltaNext
  rw [if_neg (by omega), if_neg (by omega)]

theorem deltaNext_gap (h : s.pu.inSeq < it.seq) : deltaNext it s = diverge 4 it.seq { s with pu.inSeq := it.seq + 1 } := by
  unfold deltaNext
  rw [if_neg (by omega), if_pos h]

theorem deltaApply_opens {p : Nat} (hkind : it.kind = .txnBegin p) (hstatus : it.status = stDone) (hidle : (s.txn p).st = .idle)
    (hroom : openTxns s < 8) : deltaApply it s = openTxn p s := by
  unfold deltaApply
  rw [hkind]
  dsimp only
  rw [if_neg fun h => h hstatus, if_pos ⟨hidle, hroom⟩]

end

/-! Decisions (R417). -/

section
variable {d : Decision} {s : State} (hrole : s.pr.role = .standby)
include hrole

theorem decisionRx_same {z : Decision × Nat} (hfind : s.pu.mine.find? (fun z => sameDecision z.1 d) = some z) (heq : z.1 = d) :
    decisionRx d s = { s with pu.mine := s.pu.mine.filter (fun y => !sameDecision y.1 d) } := by
  unfold decisionRx
  rw [if_neg fun h => h hrole, hfind]
  exact if_pos heq

theorem decisionRx_differs {z : Decision × Nat} (hfind : s.pu.mine.find? (fun z => sameDecision z.1 d) = some z) (hne : z.1 ≠ d) :
    decisionRx d s = diverge (decisionKind d) (decisionId d) { s with pu.mine := s.pu.mine.filter (fun y => !sameDecision y.1 d) } := by
  unfold decisionRx
  rw [if_neg fun h => h hrole, hfind]
  exact if_neg hne

theorem decisionRx_kept (hfind : s.pu.mine.find? (fun z => sameDecision z.1 d) = none) :
    decisionRx d s = { s with pu.theirs := s.pu.theirs ++ [(d, slotOf (now16 s))] } := by
  unfold decisionRx
  rw [if_neg fun h => h hrole, hfind]

end

theorem counterpartTimeout_diverges {s : State} {z : Decision × Nat} {r : List (Decision × Nat)} (h : s.pu.theirs = z :: r) :
    counterpartTimeout s = diverge 5 (decisionId z.1) { s.waitSlot (z.2 + 3) with pu.theirs := r } := by
  unfold counterpartTimeout
  rw [h]

/-! Confirmations (R416). -/

section
variable {id : FrameId} {s : State} (hrole : s.pr.role = .standby)
include hrole

theorem settleFrame_held (h : s.pu.held.any (fun f => f.id == id) = true) : settleFrame id s =
    { s with pu.held := s.pu.held.filter (fun f => f.id != id), pu.done_ := noteSettled s id s.pu.done_ } := by
  unfold settleFrame
  rw [if_neg fun h => h hrole, if_pos h]

theorem settleFrame_done (h : s.pu.held.any (fun f => f.id == id) = false) (hdone : settledSince s id s.pu.done_ = true) :
    settleFrame id s = s := by
  unfold settleFrame
  rw [if_neg fun h => h hrole, if_neg (by rw [h]; decide), if_pos hdone]

theorem settleFrame_early (h : s.pu.held.any (fun f => f.id == id) = false) (hdone : settledSince s id s.pu.done_ = false) :
    settleFrame id s = { s with pu.early := noteSettled s id s.pu.early } := by
  unfold settleFrame
  rw [if_neg fun h => h hrole, if_neg (by rw [h]; decide), if_neg (by rw [hdone]; decide)]

end

section
variable {s : State} {t : Nat} (hpair : pairLive (s.runTo t) = true)
include hpair

theorem exec_stateDeltaItem (it : DeltaItem) : exec (.stateDeltaItem t it) s = .next (stateDeltaItem it (s.runTo t)) :=
  congrArg _ (byPair_eq hpair)
theorem exec_decisionRecord (d : Decision) : exec (.decisionRecord t d) s = .next (decisionRx d (s.runTo t)) :=
  congrArg _ (byPair_eq hpair)
theorem exec_confirmation (id : FrameId) : exec (.confirmation t id) s = .next (settleFrame id (s.runTo t)) :=
  congrArg _ (byPair_eq hpair)
theorem exec_counterpartTimeout : exec .counterpartTimeout s = .next (counterpartTimeout s) :=
  congrArg _ (whenPair_eq (show pairLive s = true from hpair))

end

/-- Settles O54: items by their place in the sequence, decisions by their counterpart, confirmations by the frame they meet. -/
theorem stateDelta : Obligations.StateDelta := by
  rintro s _ t rfl hpair hrole
  refine ⟨fun it hsync => ?_, fun it hsync hsince => ?_, fun d z hfind => ⟨fun heq => ?_, fun hne => ?_⟩, fun d hfind => ?_,
    fun z r h => ?_, fun id => ⟨fun h => ?_, fun h hdone => ?_, fun h hdone => ?_⟩⟩
  · have hexec : exec (.stateDeltaItem t it) s = .next (deltaNext it (s.runTo t)) :=
      (exec_stateDeltaItem hpair it).trans (congrArg _ (stateDeltaItem_synced hrole hsync))
    refine ⟨fun h => ?_, fun h => ?_, fun p h hkind hstatus hidle hroom => ?_, fun h => ?_⟩
    · rw [hexec, deltaNext_taken h]
    · rw [hexec, deltaNext_next h]
    · rw [hexec, deltaNext_next h, deltaApply_opens (s := { s.runTo t with pu.inSeq := it.seq + 1 }) hkind hstatus hidle hroom]
      have hset := openTxn_txnSet p { s.runTo t with pu.inSeq := it.seq + 1 }
      exact ⟨_, rfl, congrArg Txn.st hset.same, rfl, hset.regs⟩
    · have hd := diverge_pair 4 it.seq { s.runTo t with pu.inSeq := it.seq + 1 }
      rw [hexec, deltaNext_gap h]
      obtain ⟨hcold, hcnt⟩ := diverge_cold 4 it.seq { s.runTo t with pu.inSeq := it.seq + 1 }
      exact ⟨_, rfl, hcold, hcnt, hd.regs⟩
  · rw [exec_stateDeltaItem hpair, stateDeltaItem_waiting hrole hsync hsince]
  · rw [exec_decisionRecord hpair, decisionRx_same hrole hfind heq]
  · rw [exec_decisionRecord hpair, decisionRx_differs hrole hfind hne]
    exact ⟨_, rfl, diverge_cold ..⟩
  · rw [exec_decisionRecord hpair, decisionRx_kept hrole hfind]
  · have hd := diverge_pair 5 (decisionId z.1) { s.waitSlot (z.2 + 3) with pu.theirs := r }
    rw [exec_counterpartTimeout hpair, counterpartTimeout_diverges h]
    obtain ⟨hcold, hcnt⟩ := diverge_cold 5 (decisionId z.1) { s.waitSlot (z.2 + 3) with pu.theirs := r }
    exact ⟨_, rfl, hd.tb, hcold, hcnt⟩
  · rw [exec_confirmation hpair, settleFrame_held hrole h]
  · rw [exec_confirmation hpair, settleFrame_done hrole h hdone]
  · rw [exec_confirmation hpair, settleFrame_early hrole h hdone]

end Sys2Proof.Machine
end

section
/-! O55: a COLD standby takes a snapshot and becomes SYNCED (R426). -/

namespace Sys2Proof.Machine

section
variable {s : State} {t : Nat} (hpair : pairLive (s.runTo t) = true)
include hpair

theorem exec_resyncRequest : exec (.resyncRequest t) s = .next (resyncRequest (mayResync (s.runTo t)) (s.runTo t)) :=
  congrArg Host.Outcome.next (byPair_eq (f := fun x => resyncRequest (mayResync x) x) hpair)
theorem exec_resyncStateApply (z : Snap) : exec (.resyncStateApply t z) s = .next (resyncStateApply z (s.runTo t)) :=
  congrArg _ (byPair_eq hpair)

end

section
variable {s : State} (hpair : pairLive s = true)
include hpair

theorem exec_resyncSnapshot : exec .resyncSnapshot s = .next (resyncSnapshot s) := congrArg _ (whenPair_eq hpair)
theorem exec_synced : exec .synced s = .next (synced s) := congrArg _ (whenPair_eq hpair)

end

/-! The request, on either side. -/

theorem resyncRequest_asks {s : State} (hrole : s.pr.role = .standby) (hcold : s.pr.sync = .cold) (hmate : mateUp s = true) :
    resyncRequest true s = mateSend { s with pr.sync := .syncing, pu.asked := true } .resyncRequest := by
  unfold resyncRequest
  rw [hrole]
  exact if_pos ⟨hcold, hmate, rfl⟩

/-- The slot of the snapshot: the first multiple of 16 at least 1 ms ahead. -/
def snapshotSlot (s : State) : Nat := ceilDiv (slotCeil (now16 s + ms16 1)) 16 * 16

theorem resyncRequest_chooses {s : State} (hrole : s.pr.role = .active) (may : Bool) :
    resyncRequest may s = { s with pu.snapSlot := some (snapshotSlot s) } := by
  unfold resyncRequest
  rw [hrole]
  rfl

/-- A slot at or past the first one whose edge lies at or after an instant opens at or after it. -/
theorem le_slotT16 {t k : Nat} (h : slotCeil t ≤ k) : t ≤ slotT16 k := by
  have hceil : t * 3 ≤ slotCeil t * (625000 * 65536) := le_ceilDiv_mul _ (by decide)
  rw [slotT16, Nat.le_div_iff_mul_le (by decide), Nat.mul_assoc]
  exact hceil.trans (Nat.mul_le_mul_right _ h)

theorem snapshotSlot_ahead (s : State) : now16 s + ms16 1 ≤ slotT16 (snapshotSlot s) := le_slotT16 (le_ceilDiv_mul _ (by decide))

/-! The snapshot and the state that it carries. -/

theorem resyncSnapshot_takes {s : State} {k : Nat} (hslot : s.pu.snapSlot = some k) (hrole : s.pr.role = .active) :
    resyncSnapshot s = mateSend { s.waitSlot k with snap := some (snapOf (s.waitSlot k) k), pu.snapSlot := none } (.snapshot k) := by
  unfold resyncSnapshot
  rw [hslot]
  exact if_neg fun h => h hrole

/-- The state of a snapshot over a standby's own one, whose clock, counters and pins it keeps. -/
def snapTaken (z : Snap) (s a : State) : State :=
  { a with
    tb := s.tb, pr := s.pr
    ig := { z.ig with cnt := s.ig.cnt, other := s.ig.other, dup := s.ig.dup }, fc := { z.fc with winIgn := s.fc.winIgn }
    ph := z.ph, fl := { z.fl with cnt := s.fl.cnt }, fb := snapFb z.fb, pb := z.pb, lp := { z.lp with pins := s.lp.pins }
    tx := snapTx z.tx, pu.since := some z.slot, pu.inSeq := z.seq, pu.items := [], pu.mine := [], pu.theirs := []
    pw.startAt := if s.pw.step = 9 then some (ceilDiv (edgeNow s + 1) 16 * 16) else s.pw.startAt }

theorem resyncStateApply_takes {z : Snap} {s : State} (hrole : s.pr.role = .standby) (hsync : s.pr.sync = .syncing)
    (hsince : s.pu.since = none) (hitems : s.pu.items = []) :
    resyncStateApply z s = prCount (snapTaken z s (snapOrchard z (snapRegs z s))) 5 := by
  unfold resyncStateApply
  rw [if_neg (by simp [hrole, hsync, hsince]), hitems]
  rfl

theorem synced_waits {s : State} {k : Nat} (hrole : s.pr.role = .standby) (hsync : s.pr.sync = .syncing) (hsince : s.pu.since = some k) :
    synced s = { s.waitSlot (k + 4800) with pr.sync := .synced } := by
  unfold synced
  rw [hsince]
  exact if_pos ⟨hrole, hsync⟩

theorem mayResync_of_step {s : State} (hpaired : platformsPaired s = true) (h : s.pw.step ≠ 9 ∨ s.pw.holdupOk = true) :
    mayResync s = true := by
  unfold mayResync
  obtain h | h := h <;> simp [hpaired, h]

/-- Settles O55: the request, the snapshot, its application and the end of the resynchronisation. -/
theorem resynchronisation : Obligations.Resynchronisation := by
  refine ⟨?_, fun s k hpair hrole hslot => ?_, fun s k hpair hrole hsync hsince => ?_⟩
  · rintro s _ t rfl hpair
    refine ⟨fun hrole hcold hmate hpaired hstep => ?_, fun hrole => ?_, fun z hrole hsync hsince hitems => ?_⟩
    · rw [exec_resyncRequest hpair, mayResync_of_step hpaired hstep, resyncRequest_asks hrole hcold hmate]
    · rw [exec_resyncRequest hpair, resyncRequest_chooses hrole]
      exact ⟨_, rfl, Nat.mul_mod_left _ _, snapshotSlot_ahead _⟩
    · rw [exec_resyncStateApply hpair, resyncStateApply_takes hrole hsync hsince hitems]
      refine ⟨_, rfl, rfl, rfl, rfl, rfl, rfl, rfl, rfl, rfl, rfl, rfl, ?_⟩
      rw [prCntOf_prCount, if_pos rfl]
      rfl
  · rw [exec_resyncSnapshot hpair, resyncSnapshot_takes hslot hrole]
    exact ⟨_, rfl, rfl, rfl, _, rfl, rfl, rfl, rfl, rfl, rfl, rfl⟩
  · rw [exec_synced hpair, synced_waits hrole hsync hsince]

end Sys2Proof.Machine
end

section
/-! O56: a planned switchover (R427). -/

namespace Sys2Proof.Machine

section
variable {s : State} {t : Nat} (hpair : pairLive (s.runTo t) = true)
include hpair

theorem exec_switch (a : Nat) : exec (.switch t a) s = .next (switchRx a (s.runTo t)) := congrArg _ (byPair_eq hpair)
theorem exec_switchAcknowledged : exec (.switchAcknowledged t) s = .next (switchAcked (s.runTo t)) := congrArg _ (byPair_eq hpair)
theorem exec_goAck : exec (.goAck t) s = .next (goAckRx (s.runTo t)) := congrArg _ (byPair_eq hpair)
theorem exec_goReceived : exec (.goReceived t) s = .next (goRx (s.runTo t)) := congrArg _ (byPair_eq hpair)

end

section
variable {s : State} (hpair : pairLive s = true)
include hpair

theorem exec_revertHoldoff : exec .revertHoldoff s = .next (revertHoldoff s) := congrArg _ (whenPair_eq hpair)
theorem exec_go : exec .go s = .next (goAct s) := congrArg _ (whenPair_eq hpair)
theorem exec_switchover : exec .switchover s = .next (switchover outputsResume (lanesHold .lit) s) := congrArg _ (whenPair_eq hpair)

end

/-! The instant: the first top of a second at least 2 ms ahead. -/

theorem ceilDiv_mul_lt (a : Nat) {b : Nat} (hb : 0 < b) : ceilDiv a b * b < a + b := by
  have h : ceilDiv a b * b ≤ a + b - 1 := Nat.div_mul_le_self ..
  omega

/-- The second whose top a switchover takes. -/
def switchSecond (s : State) : Nat := ceilDiv (now16 s + ms16 2) (sec16 1)

theorem sec16_eq (k : Nat) : sec16 k = k * sec16 1 := by rw [sec16, sec16, Nat.one_mul]

theorem switchSecond_ahead (s : State) : now16 s + ms16 2 ≤ sec16 (switchSecond s) := by
  rw [sec16_eq]
  exact le_ceilDiv_mul _ (by decide)

theorem switchSecond_first (s : State) : sec16 (switchSecond s) < now16 s + ms16 2 + sec16 1 := by
  rw [sec16_eq]
  exact ceilDiv_mul_lt _ (by decide)

theorem startSwitch_eq (s : State) :
    startSwitch s = mateSend { s with pr.sw := some { at_ := sec16 (switchSecond s) } } (.switch (sec16 (switchSecond s))) := rfl

/-! The request (R427). -/

theorem storeSetup_prSwitch {s : State} (v : BitVec 32) (h : domSt s 2 = .run) : storeSetup 0 0x110014 v s = switchWrite 0 v s := by
  obtain ⟨i, hreg, htx, hrw⟩ : ∃ i, regInfo 0x110014 = some i ∧ i.tx = 0#32 ∧ i.rw = 0#32 := ⟨_, rfl, rfl, rfl⟩
  have hdom : domOn s 0x110014 (sliceSel s 0 0x110014) = true := by
    show (domSt s 2 == .run) = true
    rw [h]
    rfl
  simp [storeSetup, hreg, hdom, htx, hrw, WriteRule.allows, storeRw, storeW1c, storeWo]

theorem exec_prSwitch {s : State} {t : Nat} {h : Hearth} {v : BitVec 32} (hc : CoreOf (s.runTo t) h 0) (hdom : domSt (s.runTo t) 2 = .run) :
    exec (.prSwitch t h v) s = .next (coreDone h (switchWrite 0 v (s.runTo t))) := by
  show Host.Outcome.next (coreStore t h 0x110014 v s) = _
  rw [coreStore_eq hc (by decide) (by decide), storeSetup_prSwitch v hdom]

section
variable {s : State} {v : BitVec 32} (hbit : bit v 0 = true) (hrole : s.pr.role = .active)
include hbit hrole

theorem prSwitchWrite_starts (hready : neighReady s = true) (hmate : mateUp s = true) (hsw : s.pr.sw = none) :
    prSwitchWrite 0 v s = startSwitch s := by
  simp [prSwitchWrite, hbit, hrole, hready, hmate, hsw]

theorem switchWrite_starts (hready : neighReady s = true) (hmate : mateUp s = true) (hsw : s.pr.sw = none) :
    switchWrite 0 v s = deltaSend .switch stDone (startSwitch s) := by
  unfold switchWrite
  rw [prSwitchWrite_starts hbit hrole hready hmate hsw, hsw]
  rfl

theorem switchWrite_refused (h : neighReady s = false ∨ mateUp s = false ∨ s.pr.sw ≠ none) : switchWrite 0 v s = prCount s 3 := by
  have hno : (!neighReady s || !mateUp s || s.pr.sw.isSome) = true := by
    obtain h | h | h := h
    · rw [h]
      rfl
    · rw [h, Bool.not_false, Bool.or_true, Bool.true_or]
    · rw [Option.isSome_iff_ne_none.mpr h, Bool.or_true]
  have hwrite : prSwitchWrite 0 v s = prCount s 3 := by simp [prSwitchWrite, hbit, hrole, hno]
  have hsame : (s.pr.sw.isNone && s.pr.sw.isSome) = false := by cases s.pr.sw <;> rfl
  unfold switchWrite
  rw [hwrite]
  exact if_neg (by rw [show (prCount s 3).pr.sw = s.pr.sw from rfl, hsame]; decide)

end

/-- What an item of the delta adds to the messages sent. -/
theorem deltaSend_out (k : DeltaKind) (status : Nat) (s : State) : ∃ l, (deltaSend k status s).pu.out = s.pu.out ++ l := by
  unfold deltaSend
  split
  · exact ⟨_, rfl⟩
  · exact ⟨[], (List.append_nil _).symm⟩

theorem startSwitch_plans (k : DeltaKind) (status : Nat) (s : State) :
    (deltaSend k status (startSwitch s)).pr.sw = some { at_ := sec16 (switchSecond s) } ∧
    (deltaSend k status (startSwitch s)).regs = s.regs ∧
    ∃ l, (deltaSend k status (startSwitch s)).pu.out = s.pu.out ++ (s.tb.edge, .switch (sec16 (switchSecond s))) :: l := by
  have hcalm : Calm (startSwitch s) (deltaSend k status (startSwitch s)) := deltaSend_calm (Calm.refl _)
  obtain ⟨l, hout⟩ := deltaSend_out k status (startSwitch s)
  refine ⟨congrArg PrState.sw hcalm.pr, hcalm.regs, l, ?_⟩
  rw [hout, startSwitch_eq, mateSend, List.append_assoc]
  rfl

theorem State.runTo_pr (s : State) (n : Nat) : (s.runTo n).pr = s.pr := rfl

/-- The end of the revertive hold-off on the ACTIVE unit at position B. -/
theorem revertHoldoff_starts {s w : State} {e : Nat} (hhold : s.pu.holdFrom = some e) (hrevert : bit (s.cfg 0x110000 0) 15 = true)
    (hw : w = s.runTo (e + secEdges (holdOff s))) (hrole : w.pr.role = .active) (hpos : w.pr.position = 1) (hready : neighReady w = true)
    (hmate : mateUp w = true) (hsw : w.pr.sw = none) : revertHoldoff s = startSwitch w := by
  unfold revertHoldoff
  rw [hhold]
  dsimp only
  rw [hrevert, ← hw, if_neg (by decide), if_pos ⟨hrole, hpos, hready, hmate, by rw [hsw]; rfl⟩]

/-! The messages and the instant (R427). -/

section
variable {s : State} {z : Switchover} (hsw : s.pr.sw = some z)
include hsw

theorem switchAcked_notes (hrole : s.pr.role = .active) : switchAcked s = { s with pr.sw := some { z with acked := true } } := by
  unfold switchAcked
  rw [if_pos hrole, hsw]
  rfl

theorem goAckRx_notes (hrole : s.pr.role = .active) (hbefore : now16 s < z.at_) :
    goAckRx s = { s with pr.sw := some { z with goAcked := true } } := by
  unfold goAckRx
  rw [hsw]
  exact if_pos ⟨hrole, hbefore⟩

theorem goRx_answers (hrole : s.pr.role = .standby) :
    goRx s = mateSend { s with pr.sw := some { z with goReceived := true } } .goAck := by
  unfold goRx
  rw [hsw]
  exact if_pos hrole

theorem goAct_goes (hrole : s.pr.role = .active) (hsent : z.goSent = false) (hacked : z.acked = true) :
    goAct s = mateSend { s.waitUntil (z.at_ - us16 100) with pr.sw := some { z with goSent := true } } .go := by
  unfold goAct
  rw [hsw]
  dsimp only
  rw [if_neg (by simp [hrole, hsent]), if_pos hacked]

theorem goAct_abandons (hrole : s.pr.role = .active) (hsent : z.goSent = false) (hacked : z.acked = false) :
    goAct s = prCount { s.waitUntil (z.at_ - us16 100) with pr.sw := none } 3 := by
  unfold goAct
  rw [hsw]
  dsimp only
  rw [if_neg (by simp [hrole, hsent]), if_neg (by rw [hacked]; decide)]

theorem goAct_counted (hrole : s.pr.role = .active) (hsent : z.goSent = false) (hacked : z.acked = false) :
    (goAct s).pr.sw = none ∧ prCntOf (goAct s) 3 = inc32 (prCntOf s 3) := by
  rw [goAct_abandons hsw hrole hsent hacked]
  refine ⟨rfl, (prCntOf_prCount _ 3 3).trans ?_⟩
  rw [if_pos rfl]
  obtain ⟨n, hn⟩ := s.waitUntil_eq_pass (z.at_ - us16 100)
  rw [hn]
  rfl

/-- At its instant the switchover is over; no unit changes its role without GO. -/
theorem switchover_stays (h : ¬(s.pr.role = .active ∧ z.goAcked = true)) (h' : ¬(s.pr.role = .standby ∧ z.goReceived = true)) :
    switchover outputsResume (lanesHold .lit) s = { s.waitUntil z.at_ with pr.sw := none } := by
  unfold switchover
  rw [hsw]
  dsimp only
  rw [if_neg h, if_neg h']

theorem switchover_leaves (hrole : s.pr.role = .active) (hgo : z.goAcked = true) :
    switchover outputsResume (lanesHold .lit) s = prCount (lanesHold .lit z.at_ (changeRole
      { s.waitUntil z.at_ with pr.sw := none, pr.sync := .synced, pu.since := some (slotOf z.at_) } .standby 3)) 2 := by
  unfold switchover
  rw [hsw]
  dsimp only
  rw [if_pos ⟨hrole, hgo⟩]

theorem switchover_takes (hrole : s.pr.role = .standby) (hgo : z.goReceived = true) :
    switchover outputsResume (lanesHold .lit) s =
      prCount (outputsResume z.at_ (changeRole { s.waitUntil z.at_ with pr.sw := none } .active 3)) 2 := by
  unfold switchover
  rw [hsw]
  dsimp only
  rw [if_neg (by simp [hrole]), if_pos ⟨hrole, hgo⟩]

end

/-- The unit that gives up its role, with its lanes still lit. -/
theorem roleLeft_frame (t16 : Nat) (a : State) : (prCount (lanesHold .lit t16 (changeRole a .standby 3)) 2).pr.sw = a.pr.sw ∧
    (prCount (lanesHold .lit t16 (changeRole a .standby 3)) 2).tb = a.tb ∧
    (prCount (lanesHold .lit t16 (changeRole a .standby 3)) 2).pr.role = .standby := by
  obtain ⟨hpr, -, htb⟩ := changeRole_frame a .standby 3
  obtain ⟨lp, hlanes⟩ := lanesHold_eq .lit t16 (changeRole a .standby 3)
  rw [hlanes]
  refine ⟨?_, htb, ?_⟩
  · show (changeRole a .standby 3).pr.sw = _
    rw [hpr]
  · show (changeRole a .standby 3).pr.role = _
    rw [hpr]

/-- The unit that takes the role, with its outputs gone on. -/
theorem roleResumed_frame (t16 : Nat) (a : State) : (prCount (outputsResume t16 (changeRole a .active 3)) 2).pr.sw = a.pr.sw ∧
    (prCount (outputsResume t16 (changeRole a .active 3)) 2).tb = a.tb ∧
    (prCount (outputsResume t16 (changeRole a .active 3)) 2).pr.role = .active ∧
    (prCount (outputsResume t16 (changeRole a .active 3)) 2).pu.held = [] := by
  obtain ⟨hpr, -, htb⟩ := changeRole_frame a .active 3
  obtain ⟨kpr, kpu⟩ := outputsResume_pair t16 (changeRole a .active 3)
  have ktb := (outputsResume_sends t16 (changeRole a .active 3)).2
  generalize outputsResume t16 (changeRole a .active 3) = b at kpr kpu ktb
  refine ⟨?_, ktb.trans htb, ?_, ?_⟩
  · show b.pr.sw = _
    rw [kpr, hpr]
  · show b.pr.role = _
    rw [kpr, hpr]
  · show b.pu.held = _
    rw [kpu]

/-- What the instant of a switchover gives, by the role and the GO that was seen. -/
theorem switchover_outcome {s : State} {z : Switchover} (hsw : s.pr.sw = some z) :
    ∃ y, switchover outputsResume (lanesHold .lit) s = y ∧ y.pr.sw = none ∧ y.tb = (s.waitUntil z.at_).tb ∧
      (s.pr.role = .active → y.pr.role = (if z.goAcked then .standby else .active)) ∧
      (s.pr.role = .standby → y.pr.role = (if z.goReceived then .active else .standby)) ∧
      (s.pr.role = .standby → z.goReceived = true → y.pu.held = []) := by
  by_cases hleave : s.pr.role = .active ∧ z.goAcked = true
  · obtain ⟨hrole, hgo⟩ := hleave
    have hno (h : s.pr.role = .standby) : False := PRole.noConfusion (hrole.symm.trans h)
    obtain ⟨ksw, ktb, krole⟩ := roleLeft_frame z.at_
      { s.waitUntil z.at_ with pr.sw := none, pr.sync := .synced, pu.since := some (slotOf z.at_) }
    exact ⟨_, switchover_leaves hsw hrole hgo, ksw, ktb, fun _ => krole.trans (if_pos hgo).symm, fun h => (hno h).elim, fun h => (hno h).elim⟩
  · by_cases htake : s.pr.role = .standby ∧ z.goReceived = true
    · obtain ⟨hrole, hgo⟩ := htake
      have hno (h : s.pr.role = .active) : False := PRole.noConfusion (hrole.symm.trans h)
      obtain ⟨ksw, ktb, krole, kheld⟩ := roleResumed_frame z.at_ { s.waitUntil z.at_ with pr.sw := none }
      exact ⟨_, switchover_takes hsw hrole hgo, ksw, ktb, fun h => (hno h).elim, fun _ => krole.trans (if_pos hgo).symm, fun _ _ => kheld⟩
    · refine ⟨_, switchover_stays hsw hleave htake, rfl, rfl, fun hrole => ?_, fun hrole => ?_, fun hrole hgo => (htake ⟨hrole, hgo⟩).elim⟩
      · rw [if_neg fun hgo => hleave ⟨hrole, hgo⟩]
        exact hrole
      · rw [if_neg fun hgo => htake ⟨hrole, hgo⟩]
        exact hrole

/-- Settles O56: each message by the state it notes, and the instant by the GO that was seen. -/
theorem switchovers : Obligations.Switchovers := by
  refine ⟨?_, ?_, ?_, fun s z hpair hsw => ⟨fun hrole hsent => ⟨fun hacked => ?_, fun hacked => ?_⟩, ?_⟩⟩
  · rintro s _ t h v rfl hc hdom hbit hrole
    refine ⟨fun hready hmate hsw => ?_, fun hno => ?_⟩
    · rw [exec_prSwitch hc hdom, switchWrite_starts hbit hrole hready hmate hsw]
      obtain ⟨hplan, hregs, hout⟩ := startSwitch_plans .switch stDone (s.runTo t)
      exact ⟨_, switchSecond (s.runTo t), rfl, hplan, switchSecond_ahead _, switchSecond_first _, hout, hregs⟩
    · rw [exec_prSwitch hc hdom, switchWrite_refused hbit hrole hno]
      refine ⟨_, rfl, rfl, (prCntOf_prCount (s.runTo t) 3 3).trans (if_pos rfl), rfl⟩
  · intro s w e hpair hhold hrevert hw hrole hpos hready hmate hsw
    refine ⟨switchSecond w, ?_, switchSecond_ahead w⟩
    have hpr : w.pr = s.pr := (congrArg State.pr hw).trans (State.runTo_pr ..)
    have hmate' : mateUp w = true := by
      unfold mateUp at hmate ⊢
      rwa [hpr]
    rw [exec_revertHoldoff hpair, revertHoldoff_starts hhold hrevert hw (by rwa [hpr]) (by rwa [hpr]) hready hmate' (by rwa [hpr]), startSwitch_eq]
  · rintro s _ t rfl hpair
    refine ⟨fun a hrole => ?_, fun z hrole hsw => ?_, fun z hrole hsw hbefore => ?_, fun z hrole hsw => ?_⟩
    · rw [exec_switch hpair, switchRx, if_pos hrole]
    · rw [exec_switchAcknowledged hpair, switchAcked_notes hsw hrole]
    · rw [exec_goAck hpair, goAckRx_notes hsw hrole hbefore]
    · rw [exec_goReceived hpair, goRx_answers hsw hrole]
  · rw [exec_go hpair, goAct_goes hsw hrole hsent hacked]
  · exact ⟨_, exec_go hpair, goAct_counted hsw hrole hsent hacked⟩
  · obtain ⟨y, hy, hrest⟩ := switchover_outcome hsw
    exact ⟨y, (exec_switchover hpair).trans (congrArg _ hy), hrest⟩

end Sys2Proof.Machine
end

section
/-! O57: the storage descriptors (R438, R439, R452). -/

namespace Sys2Proof.Machine

section
variable {s : State} {t : Nat} {p : PartId} {r : RingNo} {y : State × Flight}

theorem exec_stWrite (h : Fetches (s.runTo t) p r 0xC1 y) : exec (.stWrite t p r) s = .next (stWriteAct p r y.1 y.2) :=
  congrArg _ (withDesc_fetched h (stWriteAct p r))
theorem exec_stRead (h : Fetches (s.runTo t) p r 0xC2 y) : exec (.stRead t p r) s = .next (stReadAct p r y.1 y.2) :=
  congrArg _ (withDesc_fetched h (stReadAct p r))
theorem exec_stDelete (h : Fetches (s.runTo t) p r 0xC3 y) : exec (.stDelete t p r) s = .next (stDeleteAct p r y.1 y.2) :=
  congrArg _ (withDesc_fetched h (stDeleteAct p r))
theorem exec_stList (h : Fetches (s.runTo t) p r 0xC4 y) : exec (.stList t p r) s = .next (stListAct p r y.1 y.2) :=
  congrArg _ (withDesc_fetched h (stListAct p r))
theorem exec_stAbort (h : Fetches (s.runTo t) p r 0xC5 y) : exec (.stAbort t p r) s = .next (stAbortAct p r y.1 y.2) :=
  congrArg _ (withDesc_fetched h (stAbortAct p r))
theorem exec_stTallyClear (h : Fetches (s.runTo t) p r 0xC6 y) : exec (.stTallyClear t p r) s = .next (stTallyClearAct p r y.1 y.2) :=
  congrArg _ (withDesc_fetched h (stTallyClearAct p r))

end

/-! Each descriptor of partition 0 that passes its checks (R439). -/

section
variable {r : Nat} {s : State} {f : Flight} (hres : stResOk f.words = true) (hready : stBusy s = false)
include hres hready

theorem stWriteAct_opens {d : List (BitVec 8)} (hname : nameOk f.words = true) (h3 : stRegion f.words < 3)
    (hlen : (dw f.words 4).toNat ≠ 0) (hmax : (dw f.words 4).toNat ≤ min 536870912 (regionCapacity (stRegion f.words)))
    (hdata : devRead s 0 (addr48 f.words 2) (dw f.words 4).toNat = some d)
    (hroom : pagesOf (dw f.words 4).toNat ≤ freePages s (stRegion f.words)) :
    stWriteAct 0 r s f = openOp s
      { id := 0, kind := .write, ring := 64 * 0 + r, flight := f.id, tag := dw f.words 1, region := stRegion f.words,
        objs := [(stName f.words, d)], name := stName f.words, pages := pagesOf (dw f.words 4).toNat } := by
  have hbad : (!stResOk f.words || !nameOk f.words || stRegion f.words == 3 || decide (stRegion f.words > 4) ||
      (dw f.words 4).toNat == 0 || decide ((dw f.words 4).toNat > min 536870912 (regionCapacity (stRegion f.words)))) = false := by
    rw [hres, hname, beq_eq_false_iff_ne.mpr h3.ne, decide_eq_false (by omega), beq_eq_false_iff_ne.mpr hlen, decide_eq_false (not_lt.mpr hmax)]
    rfl
  have hperm : ¬(stRegion f.words = 4 ∨ (0 : Nat) ≠ 0) := by omega
  unfold stWriteAct
  dsimp only
  rw [hbad, hdata]
  simp only [Bool.false_eq_true, if_false, Option.isNone_some]
  rw [if_neg hperm, hready, if_neg Bool.false_ne_true, if_neg (not_lt.mpr hroom)]
  rfl

theorem stReadAct_opens {q : Obj} (hname : nameOk f.words = true) (h4 : stRegion f.words ≤ 4) (h3 : stRegion f.words ≠ 3)
    (hlen : (dw f.words 4).toNat ≠ 0) (hmax : (dw f.words 4).toNat ≤ regionCapacity (stRegion f.words))
    (hfind : findObj s (stRegion f.words) (stName f.words) = some q)
    (hput : canAccess s 0 .devWrite (addr48 f.words 2) (dw f.words 4).toNat = true) :
    ∃ o, (stReadAct 0 r s f).st.reads = s.st.reads ++ [o] ∧ o.ver = q.ver ∧ o.dst = addr48 f.words 2 ∧
      o.data = octs q.data (dw f.words 6).toNat (min (dw f.words 4).toNat (q.data.length - (dw f.words 6).toNat)) ∧
      (stReadAct 0 r s f).db = s.db := by
  have hbad : (!stResOk f.words || !nameOk f.words || stRegion f.words == 3 || decide (stRegion f.words > 4) ||
      (dw f.words 4).toNat == 0 || decide ((dw f.words 4).toNat > regionCapacity (stRegion f.words))) = false := by
    rw [hres, hname, beq_eq_false_iff_ne.mpr h3, decide_eq_false (not_lt.mpr h4), beq_eq_false_iff_ne.mpr hlen, decide_eq_false (not_lt.mpr hmax)]
    rfl
  unfold stReadAct
  dsimp only
  rw [hbad, hput, hfind, if_neg Bool.false_ne_true, if_neg (by decide)]
  dsimp only
  rw [if_neg fun h => h.1 rfl, hready, if_neg Bool.false_ne_true]
  exact ⟨_, rfl, rfl, rfl, rfl, rfl⟩

theorem stDeleteAct_opens (hname : nameOk f.words = true) (h3 : stRegion f.words < 3)
    (hfind : (findObj s (stRegion f.words) (stName f.words)).isSome = true) :
    stDeleteAct 0 r s f = openOp s
      { id := 0, kind := .delete, ring := 64 * 0 + r, flight := f.id, tag := dw f.words 1, region := stRegion f.words,
        name := stName f.words } := by
  have hbad : (!stResOk f.words || !nameOk f.words || stRegion f.words == 3 || decide (stRegion f.words > 4) ||
      (findObj s (stRegion f.words) (stName f.words)).isNone) = false := by
    rw [hres, hname, beq_eq_false_iff_ne.mpr h3.ne, decide_eq_false (by omega), ← Option.not_isSome, hfind]
    rfl
  have hperm : ¬((stRegion f.words = 4 ∧ (!ownsName s 0 (stName f.words)) = true) ∨ (stRegion f.words ≠ 4 ∧ (0 : Nat) ≠ 0)) := by
    rintro (⟨h, -⟩ | ⟨-, h⟩)
    · omega
    · exact h rfl
  unfold stDeleteAct
  dsimp only
  rw [hbad, if_neg Bool.false_ne_true, if_neg hperm, hready, if_neg Bool.false_ne_true]

theorem stListAct_lists {o : Obj} (h4 : stRegion f.words ≤ 4) (h3 : stRegion f.words ≠ 3)
    (hobj : (objectsOf s (stRegion f.words))[fld (dw f.words 2) 15 0]? = some o) :
    stListAct 0 r s f = complete s 0 r f.id (Wb.mk stDone 0 0
      (bytesAsWords 3 (padTo 32 o.name) ++ [(11, BitVec.ofNat 32 o.data.length)]) (some (stampNow s)) none) := by
  have hbad : (!stResOk f.words || stRegion f.words == 3 || decide (stRegion f.words > 4)) = false := by
    rw [hres, beq_eq_false_iff_ne.mpr h3, decide_eq_false (not_lt.mpr h4)]
    rfl
  unfold stListAct
  dsimp only
  rw [hbad, if_neg Bool.false_ne_true, hobj]
  dsimp only
  rw [if_neg fun h => h.1 rfl, hready, if_neg Bool.false_ne_true]

theorem stAbortAct_ends {p : Nat} {o : StOp}
    (hfind : s.st.ops.find? (fun o => o.kind == .write && o.ring == 64 * p + r && o.tag == dw f.words 2) = some o) :
    stAbortAct p r s f = finish (abortOp s o stAborted) p r f.id stDone := by
  unfold stAbortAct
  dsimp only
  rw [hres, hready, if_neg (by decide), if_neg (by decide), hfind]

theorem stTallyClearAct_opens (hclear : clearStatus s (fld (dw f.words 2) 11 0) = stDone) :
    stTallyClearAct 0 r s f = openOp { takeUse s (fld (dw f.words 2) 11 0) with ty.clearing := true }
      { id := 0, kind := .clear, ring := 64 * 0 + r, flight := f.id, tag := dw f.words 1, region := 3, node := fld (dw f.words 2) 11 0 } := by
  unfold stTallyClearAct
  dsimp only
  rw [hres, hready, if_neg (by decide), if_neg fun h => h rfl, if_neg (by decide), if_neg fun h => h hclear]

end

/-- Settles O57: the accepted descriptor's operation, one lemma for each opcode. -/
theorem storageCommands : Obligations.StorageCommands := by
  rintro s _ t p r y _ rfl hp rfl hres hready
  refine ⟨fun d hf hname h4 hn3 hn4 hlen hmax hdata hroom => ?_, fun q hf hname h4 hn3 hlen hmax hfind hput => ?_,
    fun hf hname h3 hfind => ?_, fun o hf h4 hn3 hobj => ?_, fun o hf hfind => ?_, fun hf hclear => ?_⟩
  · rw [hp] at hdata
    rw [exec_stWrite hf, hp, stWriteAct_opens hres hready hname (by omega) hlen hmax hdata hroom]
    exact ⟨_, _, rfl, rfl, rfl, rfl, rfl, rfl, rfl, rfl⟩
  · rw [hp] at hput
    obtain ⟨o, hread⟩ := stReadAct_opens (r := r) hres hready hname h4 hn3 hlen hmax hfind hput
    rw [exec_stRead hf, hp]
    exact ⟨_, o, rfl, hread⟩
  · rw [exec_stDelete hf, hp, stDeleteAct_opens hres hready hname h3 hfind]
    exact ⟨_, _, rfl, rfl, rfl, rfl, rfl, rfl, rfl⟩
  · rw [exec_stList hf, hp, stListAct_lists hres hready h4 hn3 hobj]
  · rw [exec_stAbort hf, stAbortAct_ends hres hready hfind]
  · rw [exec_stTallyClear hf, hp, stTallyClearAct_opens hres hready hclear]
    exact ⟨_, _, rfl, rfl, rfl, rfl, rfl, rfl⟩

end Sys2Proof.Machine
end

section
/-! The flash storage in layers: what operations change of its blocks, objects and counters, and the tally's events (R434 to R441). -/

namespace Sys2Proof.Machine

/-! Events of the tally change the tally alone. -/

theorem programOpen_eq (s : State) : ∃ ty, programOpen s = { s with ty := ty } := by
  unfold programOpen
  split
  · exact ⟨s.ty, rfl⟩
  · split <;> exact ⟨_, rfl⟩

theorem tallyEvent_eq (s : State) (type : Nat) (d : BitVec 32) : ∃ ty, tallyEvent s type d = { s with ty := ty } := by
  obtain ⟨ty, hopen⟩ := programOpen_eq s
  unfold tallyEvent
  rw [hopen]
  split
  · exact ⟨_, rfl⟩
  · split
    · split
      · exact ⟨_, rfl⟩
      · dsimp only
        split <;> exact ⟨_, rfl⟩
    · split <;> exact ⟨_, rfl⟩

/-! Sorted lists. -/

theorem mem_insertBy {α : Type} (le : α → α → Bool) (x y : α) (l : List α) : y ∈ insertBy le x l ↔ y = x ∨ y ∈ l := by
  induction l with
  | nil => exact List.mem_cons
  | cons a r ih =>
    unfold insertBy
    split
    · exact List.mem_cons
    · rw [List.mem_cons, ih, List.mem_cons, or_left_comm]

theorem mem_sortBy {α : Type} (le : α → α → Bool) (y : α) (l : List α) : y ∈ sortBy le l ↔ y ∈ l := by
  induction l with
  | nil => exact Iff.rfl
  | cons a r ih => rw [sortBy, mem_insertBy, ih, List.mem_cons]

/-! Blocks. -/

theorem State.updBlk_same (s : State) (b : Nat) (f : Blk → Blk) : (s.updBlk b f).blk b = f (s.blk b) := (Tbl.get_upd ..).trans (if_pos rfl)
theorem State.updBlk_other (s : State) {b k : Nat} (f : Blk → Blk) (h : k ≠ b) : (s.updBlk b f).blk k = s.blk k :=
  (Tbl.get_upd ..).trans (if_neg h)

/-- From a to b at most blocks and the open blocks of the regions change. -/
def BlocksOnly (a b : State) : Prop := ∃ blocks fill, b = { a with st.blocks := blocks, st.fill := fill }

theorem BlocksOnly.refl (s : State) : BlocksOnly s s := ⟨s.st.blocks, s.st.fill, rfl⟩
theorem BlocksOnly.trans {a b c : State} (h : BlocksOnly a b) (k : BlocksOnly b c) : BlocksOnly a c := by
  obtain ⟨_, _, rfl⟩ := h
  obtain ⟨blocks, fill, rfl⟩ := k
  exact ⟨blocks, fill, rfl⟩

theorem updBlk_blocksOnly (s : State) (b : Nat) (f : Blk → Blk) : BlocksOnly s (s.updBlk b f) := ⟨_, s.st.fill, rfl⟩

theorem placePages_blocksOnly (k : Nat) (s : State) (r n : Nat) (acc : List (Nat × Nat)) : BlocksOnly s (placePages k s r n acc).1 := by
  induction k generalizing s n acc with
  | zero => exact .refl s
  | succ k ih =>
    have hfill (a : State) (fill : Tbl (Nat × Nat)) : BlocksOnly a { a with st.fill := fill } := ⟨a.st.blocks, fill, rfl⟩
    unfold placePages
    split
    · exact .refl s
    · dsimp only
      split
      · exact (hfill s _).trans (ih ..)
      · split
        · exact .refl s
        · exact ((hfill s _).trans (updBlk_blocksOnly ..)).trans (ih ..)

theorem releaseExtents_blocksOnly (s : State) (ex : List (Nat × Nat)) : BlocksOnly s (releaseExtents s ex) := by
  refine List.foldlRecOn (motive := BlocksOnly s) _ _ (.refl s) fun a ha x _ => ?_
  split
  · exact ha
  · exact ha.trans (updBlk_blocksOnly ..)

/-- The block with the lowest erase count among candidates is a free one (R435). -/
theorem lowestErase_free {s : State} {bs : List Nat} {n : Nat} (h : lowestErase s bs = some n) : (s.blk n).st = .free := by
  have hall : ∀ m, lowestErase s bs = some m → (s.blk m).st = .free := by
    refine List.foldlRecOn (motive := fun acc : Option Nat => ∀ m, acc = some m → (s.blk m).st = .free) _ _ nofun
      fun acc ha b _ m hm => ?_
    split at hm
    next => exact ha m hm
    next hfree =>
      split at hm
      next =>
        obtain rfl := Option.some.inj hm
        exact not_not.mp hfree
      next a _ _ =>
        split at hm
        · obtain rfl := Option.some.inj hm
          exact not_not.mp hfree
        · exact ha m hm
  exact hall n h

/-- A move: the emptied block takes the state given, the free block the data, and nothing but the storage's places changes. -/
theorem moveBlock_moves {s : State} {b n : Nat} (dest : BlkSt) (h : lowestErase s (regionBlockList s (blkRegion s b)) = some n) :
    ∃ z, moveBlock s b dest = some z ∧ (z.blk b).st = dest ∧ (n ≠ b → (z.blk n).st = .data) ∧ z.st.cnt = s.st.cnt := by
  unfold moveBlock
  rw [h]
  refine ⟨_, rfl, ?_, fun hn => ?_, rfl⟩
  · rw [State.updBlk_same]
  · rw [State.updBlk_other _ _ hn, State.updBlk_same]

theorem moveBlock_none {s : State} {b : Nat} (dest : BlkSt) (h : lowestErase s (regionBlockList s (blkRegion s b)) = none) :
    moveBlock s b dest = none := by
  unfold moveBlock
  rw [h]
  rfl

theorem moveBlock_kept {s z : State} {b : Nat} {dest : BlkSt} (h : moveBlock s b dest = some z) : z.st.cnt = s.st.cnt ∧ z.regs = s.regs := by
  unfold moveBlock at h
  obtain ⟨n, -, rfl⟩ := Option.map_eq_some_iff.mp h
  exact ⟨rfl, rfl⟩

theorem stCount_cnt (s : State) (i j : Nat) :
    Tbl.get 0 (stCount s i).st.cnt j = if j = i then inc32 (Tbl.get 0 s.st.cnt i) else Tbl.get 0 s.st.cnt j :=
  Tbl.get_upd ..

/-- A retirement (R434): the block is retired and counted, and nothing but the storage and the tally changes. -/
theorem retireBlock_retires (s : State) (b : Nat) : ((retireBlock s b).1.blk b).st = .retired ∧
    (retireBlock s b).1.st.cnt = (stCount s 3).st.cnt ∧ (retireBlock s b).1.regs = s.regs := by
  have hfirst : ((s.updBlk b (fun x => { x with st := .retired })).blk b).st = .retired := congrArg Blk.st (s.updBlk_same ..)
  unfold retireBlock
  extract_lets r s1 n s2
  have hs2 : (s2.blk b).st = .retired ∧ s2.st.cnt = (stCount s 3).st.cnt ∧ s2.regs = s.regs := by
    unfold s2
    generalize n = m
    cases m with
    | some k =>
      dsimp only
      split
      · exact ⟨hfirst, rfl, rfl⟩
      · refine ⟨?_, rfl, rfl⟩
        by_cases hk : b = k
        · rw [← hk, State.updBlk_same]
          exact hfirst
        · rw [State.updBlk_other _ _ hk]
          exact hfirst
    | none => exact ⟨hfirst, rfl, rfl⟩
  clear_value s2
  have hcalm : Calm s2 (tallyEvent s2 0x07 (BitVec.ofNat 32 (r + 256))) := tallyEvent_calm (Calm.refl s2)
  obtain ⟨hblk, hcnt, hregs⟩ := hs2
  refine ⟨?_, (congrArg StState.cnt hcalm.st).trans hcnt, hcalm.regs.trans hregs⟩
  exact (congrArg (fun st : StState => (Tbl.get ({} : Blk) st.blocks b).st) hcalm.st).trans hblk

theorem retireMoving_kept (s : State) (b : Nat) :
    (retireMoving s b).1.st.cnt = (stCount s 3).st.cnt ∧ (retireMoving s b).1.regs = s.regs := by
  obtain ⟨-, hblock⟩ := retireBlock_retires s b
  unfold retireMoving
  generalize retireBlock s b = x at hblock
  dsimp only
  split
  · cases hmove : moveBlock x.1 b .retired with
    | none => exact hblock
    | some z =>
      obtain ⟨hzcnt, hzregs⟩ := moveBlock_kept hmove
      exact ⟨hzcnt.trans hblock.1, hzregs.trans hblock.2⟩
  · exact hblock

/-! Objects (R440). -/

theorem findObj_of_blocksOnly {a b : State} (h : BlocksOnly a b) (r : Nat) (name : List (BitVec 8)) : findObj b r name = findObj a r name := by
  obtain ⟨_, _, rfl⟩ := h
  rfl

theorem findObj_of_set {a : State} {objs : Tbl (List Obj)} {r : Nat} {l : List Obj} (h : a.st.objects = Tbl.set [] objs r l)
    (name : List (BitVec 8)) : findObj a r name = l.find? (fun o => o.name == name) := by
  have hl : objectsOf a r = l := by
    rw [objectsOf, h, Tbl.get_set, if_pos rfl]
  rw [findObj, hl]

theorem ops_of_blocksOnly {a b : State} (h : BlocksOnly a b) : b.st.ops = a.st.ops := by
  obtain ⟨_, _, rfl⟩ := h
  rfl

/-- The object of a name that was put is the one put. -/
theorem find?_put {name : List (BitVec 8)} {o : Obj} (hname : o.name = name) (l : List Obj) :
    (sortBy nameLe (l.filter (fun q => q.name != name) ++ [o])).find? (fun q => q.name == name) = some o := by
  have hmem : o ∈ sortBy nameLe (l.filter (fun q => q.name != name) ++ [o]) :=
    (mem_sortBy ..).mpr (List.mem_append_right _ (List.mem_singleton_self o))
  have hsome := List.find?_isSome (p := fun q : Obj => q.name == name).mpr ⟨o, hmem, beq_iff_eq.mpr hname⟩
  obtain ⟨q, hq⟩ := Option.isSome_iff_exists.mp hsome
  have hqname : (q.name == name) = true := List.find?_some (p := fun q : Obj => q.name == name) hq
  have hqmem := (mem_sortBy ..).mp (List.mem_of_find?_eq_some hq)
  obtain hold | hnew := List.mem_append.mp hqmem
  · have hne := (List.mem_filter.mp hold).2
    rw [bne, hqname] at hne
    exact absurd hne (by decide)
  · rw [hq, List.mem_singleton.mp hnew]

/-- A write's object stands in its region, and the operations stay (R440). -/
theorem putObject_stands (s : State) (r : Nat) (name data : List (BitVec 8)) :
    (∃ q, findObj (putObject s r name data) r name = some q ∧ q.data = data) ∧ (putObject s r name data).st.ops = s.st.ops := by
  have hplace := ops_of_blocksOnly (placePages_blocksOnly (2 * (pagesOf data.length) + 2) s r (pagesOf data.length) [])
  unfold putObject
  extract_lets old x o l w1 w2 s1
  have hs1 : findObj s1 r name = some o := (findObj_of_set rfl name).trans (find?_put (o := o) rfl (objectsOf s r))
  generalize old = before
  cases before with
  | some q =>
    have hrel := releaseExtents_blocksOnly s1 q.extents
    exact ⟨⟨o, (findObj_of_blocksOnly hrel r name).trans hs1, rfl⟩, (ops_of_blocksOnly hrel).trans hplace⟩
  | none => exact ⟨⟨o, hs1, rfl⟩, hplace⟩

/-- A delete's object does not stand any more, and the operations stay (R440). -/
theorem dropObject_drops (s : State) (r : Nat) (name : List (BitVec 8)) :
    findObj (dropObject s r name) r name = none ∧ (dropObject s r name).st.ops = s.st.ops := by
  have hnone (l : List Obj) : (l.filter (fun o => o.name != name)).find? (fun o => o.name == name) = none := by
    refine List.find?_eq_none.mpr fun q hq heq => ?_
    have hne := (List.mem_filter.mp hq).2
    rw [bne, heq] at hne
    exact absurd hne (by decide)
  unfold dropObject
  split
  next h => exact ⟨h, rfl⟩
  next q _ =>
    have hrel := releaseExtents_blocksOnly
      { s with st.objects := Tbl.set [] s.st.objects r ((objectsOf s r).filter (fun o => o.name != name)) } q.extents
    exact ⟨(findObj_of_blocksOnly hrel r name).trans ((findObj_of_set rfl name).trans (hnone _)), (ops_of_blocksOnly hrel).trans rfl⟩

end Sys2Proof.Machine
end

section
/-! O58: the progress of the storage: commits, reads, erases, moves and scrubs (R434 to R441). -/

namespace Sys2Proof.Machine

theorem stored_eq {f : State → State} {s : State} (h : alive s = true) : stored f s = f s :=
  if_pos (Bool.and_eq_true_iff.mp h).1

section
variable {s : State} {t : Nat} (halive : alive (s.runTo t) = true)
include halive

theorem exec_journalCommit (id : Nat) : exec (.journalCommit t id 0) s = .next (checkRows [6] (journalCommit exportDone id 0 (s.runTo t))) :=
  congrArg Host.Outcome.next (stored_eq (f := fun x => checkRows [6] (journalCommit exportDone id 0 x)) halive)
theorem exec_stReadComplete (id : Nat) : exec (.stReadComplete t id) s = .next (stReadComplete id (s.runTo t)) :=
  congrArg _ (stored_eq halive)
theorem exec_eraseComplete (b : Nat) (ok : Bool) : exec (.eraseComplete t b ok) s = .next (checkRows [6] (eraseComplete b ok (s.runTo t))) :=
  congrArg Host.Outcome.next (stored_eq (f := fun x => checkRows [6] (eraseComplete b ok x)) halive)
theorem exec_wearLevelingMove : exec (.wearLevelingMove t) s = .next (wearMove (s.runTo t)) := congrArg _ (live_eq halive)
theorem exec_backgroundScrub (b cw n : Nat) : exec (.backgroundScrub t b cw n) s = .next (scrub b cw n (s.runTo t)) :=
  congrArg _ (live_eq halive)

end

/-! Commits (R440). -/

theorem checkRows_st (rows : List Nat) (s : State) : (checkRows rows s).st = s.st := by
  obtain ⟨i, hpair⟩ := checkRows_pair rows s
  exact hpair.st

theorem completeWon_st (s : State) (k id : Nat) (b : Wb) : (completeWon s k id b).st = s.st := by
  have hcalm (b' : Wb) : Calm s (completeKey s k id b') := completeKey_calm (Calm.refl s)
  unfold completeWon
  split
  · exact (hcalm _).st
  · exact (hcalm _).st

/-- A commit of a write or a delete, and the write-back that follows. -/
theorem journalCommit_st {s : State} {id : Nat} {o : StOp} (hfind : s.st.ops.find? (fun z => z.id == id) = some o) (hkind : o.kind ≠ .export_) :
    (journalCommit exportDone id 0 s).st = (commitOp s o).st := by
  have hexport (a : State) : exportDone o a = a := if_neg fun h => hkind h.1
  unfold journalCommit
  rw [hfind]
  dsimp only [retireN]
  rw [Bool.not_true, if_neg Bool.false_ne_true, hexport]
  exact completeWon_st ..

/-- The state without an operation, which its commit starts from. -/
def opEnded (o : StOp) (s : State) : State := { s with st.ops := s.st.ops.filter (fun z => z.id != o.id) }

theorem commitOp_write {s : State} {o : StOp} {name d : List (BitVec 8)} (hkind : o.kind = .write) (hobjs : o.objs = [(name, d)]) :
    commitOp s o = putObject (opEnded o s) o.region name d := by
  unfold commitOp
  rw [hkind, hobjs]
  rfl

theorem commitOp_delete {s : State} {o : StOp} (hkind : o.kind = .delete) : commitOp s o = dropObject (opEnded o s) o.region o.name := by
  unfold commitOp
  rw [hkind]
  rfl

theorem findObj_of_st {a b : State} (h : b.st = a.st) (r : Nat) (name : List (BitVec 8)) : findObj b r name = findObj a r name := by
  rw [findObj, objectsOf, h]
  rfl

/-! The end of a read (R441). -/

theorem endRead_eq (s : State) (o : StRead) : ∃ st, endRead s o = { s with st := st } ∧ st.reads = s.st.reads.filter (fun q => q.id != o.id) := by
  obtain ⟨_, _, hrel⟩ := releaseExtents_blocksOnly { s with st.reads := s.st.reads.filter (fun q => q.id != o.id) } o.extents
  exact ⟨_, hrel, rfl⟩

/-- What a read delivers depends on no part of the storage. -/
theorem devWrite_dram_of_st (s : State) (st : StState) (p a : Nat) (bs : List (BitVec 8)) :
    (devWrite { s with st := st } p a bs).dram = (devWrite s p a bs).dram := by
  have hwrite : writeMem { s with st := st } p .devWrite a bs = writeMem s p .devWrite a bs := rfl
  unfold devWrite
  rw [hwrite]
  cases writeMem s p .devWrite a bs <;> rfl

theorem stReadComplete_delivers {s : State} {id : Nat} {o : StRead} (hfind : s.st.reads.find? (fun z => z.id == id) = some o) (hbad : o.bad = false) :
    stReadComplete id s = completeKey (devWrite (endRead s o) o.part o.dst o.data) o.ring o.flight
      (Wb.mk stDone 0 0 [(3, BitVec.ofNat 32 o.data.length)] (some (stampNow s)) none) := by
  unfold stReadComplete
  rw [hfind]
  exact if_neg (by rw [hbad]; decide)

theorem stReadComplete_fails {s : State} {id : Nat} {o : StRead} (hfind : s.st.reads.find? (fun z => z.id == id) = some o) (hbad : o.bad = true) :
    stReadComplete id s = finishKey (tallyEvent (endRead s o) 0x07 (BitVec.ofNat 32 o.region)) o.ring o.flight stMediaError := by
  unfold stReadComplete
  rw [hfind]
  exact if_pos hbad

/-! Erases (R434). -/

theorem eraseComplete_frees {s : State} {b : Nat} (h : (s.blk b).st = .awaiting) :
    eraseComplete b true s = s.updBlk b (fun z => { z with st := .free, erase := z.erase + 1 }) :=
  (if_neg fun hn => hn h).trans (if_pos rfl)

theorem eraseComplete_retires {s : State} {b : Nat} (h : (s.blk b).st = .awaiting) : eraseComplete b false s = (retireBlock s b).1 :=
  (if_neg fun hn => hn h).trans (if_neg Bool.false_ne_true)

/-! Moves and scrubs (R435, R436). -/

theorem moveCounted_none {s : State} {b : Nat} (i : Nat) (h : lowestErase s (regionBlockList s (blkRegion s b)) = none) : moveCounted s b i = s := by
  unfold moveCounted
  rw [moveBlock_none _ h]

theorem moveCounted_moves {s : State} {b n : Nat} (i : Nat) (h : lowestErase s (regionBlockList s (blkRegion s b)) = some n) :
    ((moveCounted s b i).blk b).st = .awaiting ∧ (n ≠ b → ((moveCounted s b i).blk n).st = .data) ∧
    (∀ j, Tbl.get 0 (moveCounted s b i).st.cnt j = if j = i then inc32 (Tbl.get 0 s.st.cnt i) else Tbl.get 0 s.st.cnt j) := by
  obtain ⟨z, hmove, hb, hn, hcnt⟩ := moveBlock_moves .awaiting h
  unfold moveCounted
  rw [hmove]
  refine ⟨hb, hn, fun j => ?_⟩
  rw [← hcnt]
  exact stCount_cnt z i j

/-- The data block with the lowest erase count among those more than 1,000 behind is the one moved. -/
theorem wearMove_moves {s : State} {e : Nat × Blk} {r : List (Nat × Blk)}
    (h : sortBy (fun a b : Nat × Blk => decide (a.2.erase ≤ b.2.erase)) ((s.st.blocks.filter (fun e => e.2.st != .retired)).filter (fun e =>
      e.2.st == .data && decide (e.2.erase + 1000 < (s.st.blocks.filter (fun e => e.2.st != .retired)).foldl (fun a e => max a e.2.erase) 0))) =
        e :: r) : wearMove s = moveCounted s e.1 4 := by
  unfold wearMove
  dsimp only
  rw [h]

section
variable {s : State} {b cw n : Nat} (hdata : (s.blk b).st = .data)
include hdata

theorem scrub_clean : scrub b cw 0 s = s := by
  unfold scrub
  rw [if_neg fun h => h hdata, if_pos (by decide)]
  rfl

theorem scrub_counts (h0 : 0 < n) (h40 : n < 40) : scrub b cw n s = stCount s 0 := by
  unfold scrub
  rw [if_neg fun h => h hdata, if_pos (by omega)]
  dsimp only
  rw [if_pos h0, if_neg (by omega)]

theorem scrub_moves (h40 : 40 ≤ n) (h72 : n ≤ 72) : scrub b cw n s = moveCounted (stCount s 0) b 2 := by
  unfold scrub
  rw [if_neg fun h => h hdata, if_pos h72]
  dsimp only
  rw [if_pos (show 0 < n by omega), if_pos h40]

/-- A codeword beyond correction: it is counted, its block retired, and no setting changes. -/
theorem scrub_retires (h72 : 72 < n) :
    Tbl.get 0 (scrub b cw n s).st.cnt 1 = inc32 (Tbl.get 0 s.st.cnt 1) ∧ (scrub b cw n s).regs = s.regs := by
  unfold scrub
  rw [if_neg fun h => h hdata, if_neg (not_le.mpr h72)]
  extract_lets mark r objs st s1 s2
  have hcalm : Calm s1 s2 := tallyEvent_calm (Calm.refl s1)
  obtain ⟨hcnt, hregs⟩ := retireMoving_kept s2 b
  refine ⟨?_, hregs.trans hcalm.regs⟩
  rw [hcnt, stCount_cnt, if_neg (by decide), hcalm.st]
  exact (stCount_cnt _ 1 1).trans (if_pos rfl)

end

/-- Settles O58: each commit, end and move by the equation of its case. -/
theorem storageProgress : Obligations.StorageProgress := by
  rintro s _ t rfl halive
  refine ⟨fun o name d hfind hkind hobjs => ?_, fun o hfind hkind => ?_, fun o hfind => ⟨fun hbad => ?_, fun hbad => ?_⟩,
    fun b hawait => ⟨?_, ?_⟩, fun e r n hlows => ⟨fun hnone => ?_, fun hsome => ?_⟩,
    fun b cw n hdata => ⟨?_, fun h0 h40 => ?_, fun m h40 h72 hsome => ?_, fun h72 => ?_⟩⟩
  · have hst := (checkRows_st [6] _).trans (journalCommit_st hfind (by rw [hkind]; decide))
    rw [commitOp_write hkind hobjs] at hst
    obtain ⟨⟨q, hq, hqd⟩, hops⟩ := putObject_stands (opEnded o (s.runTo t)) o.region name d
    exact ⟨_, q, exec_journalCommit halive o.id, (congrArg StState.ops hst).trans hops, (findObj_of_st hst ..).trans hq, hqd⟩
  · have hst := (checkRows_st [6] _).trans (journalCommit_st hfind (by rw [hkind]; decide))
    rw [commitOp_delete hkind] at hst
    obtain ⟨hnone, hops⟩ := dropObject_drops (opEnded o (s.runTo t)) o.region o.name
    exact ⟨_, exec_journalCommit halive o.id, (congrArg StState.ops hst).trans hops, (findObj_of_st hst ..).trans hnone⟩
  · obtain ⟨st, hend, hreads⟩ := endRead_eq (s.runTo t) o
    have hcalm : Calm (endRead (s.runTo t) o) (devWrite (endRead (s.runTo t) o) o.part o.dst o.data) := devWrite_calm (Calm.refl _)
    refine ⟨_, (exec_stReadComplete halive o.id).trans (congrArg _ (stReadComplete_delivers hfind hbad)), ?_, ?_⟩
    · rw [hcalm.st, hend]
      exact hreads
    · rw [hend]
      exact devWrite_dram_of_st ..
  · obtain ⟨st, hend, hreads⟩ := endRead_eq (s.runTo t) o
    obtain ⟨ty, hevent⟩ := tallyEvent_eq (endRead (s.runTo t) o) 0x07 (BitVec.ofNat 32 o.region)
    refine ⟨_, (exec_stReadComplete halive o.id).trans (congrArg _ (stReadComplete_fails hfind hbad)), ?_, ?_⟩
    · rw [hevent, hend]
    · rw [hevent, hend]
      exact hreads
  · rw [exec_eraseComplete halive, eraseComplete_frees hawait]
  · refine ⟨_, exec_eraseComplete halive b false, ?_⟩
    rw [State.blk, checkRows_st, eraseComplete_retires hawait]
    exact (retireBlock_retires (s.runTo t) b).1
  · rw [exec_wearLevelingMove halive, wearMove_moves hlows, moveCounted_none _ hnone]
  · obtain ⟨hb, hn, hcnt⟩ := moveCounted_moves 4 hsome
    rw [exec_wearLevelingMove halive, wearMove_moves hlows]
    exact ⟨_, rfl, hb, hn, (hcnt 4).trans (if_pos rfl)⟩
  · rintro rfl
    rw [exec_backgroundScrub halive, scrub_clean hdata]
  · rw [exec_backgroundScrub halive, scrub_counts hdata h0 h40]
  · have hne : m ≠ b := fun h => by
      have hfree := lowestErase_free hsome
      rw [h, hdata] at hfree
      exact BlkSt.noConfusion hfree
    obtain ⟨hb, hm, hcnt⟩ := moveCounted_moves (s := stCount (s.runTo t) 0) 2 hsome
    rw [exec_backgroundScrub halive, scrub_moves hdata h40 h72]
    refine ⟨_, rfl, hb, hm hne, ?_, ?_⟩
    · rw [hcnt, if_neg (by decide), stCount_cnt, if_pos rfl]
    · rw [hcnt, if_pos rfl, stCount_cnt, if_neg (by decide)]
  · exact ⟨_, exec_backgroundScrub halive b cw n, scrub_retires hdata h72⟩

end Sys2Proof.Machine
end

section
/-! O59: the events of the tally, its window and its hour counter (R446 to R451). -/

namespace Sys2Proof.Machine

/-! Firmware events (R446, R449, R450). -/

theorem storeSetup_tyEvent {s : State} (v : BitVec 32) (h : domSt s 11 = .run) : storeSetup 0 0x130014 v s = tyEventWrite 0 v s := by
  obtain ⟨i, hreg, htx, hrw⟩ : ∃ i, regInfo 0x130014 = some i ∧ i.tx = 0#32 ∧ i.rw = 0#32 := ⟨_, rfl, rfl, rfl⟩
  have hdom : domOn s 0x130014 (sliceSel s 0 0x130014) = true := by
    show (domSt s 11 == .run) = true
    rw [h]
    rfl
  simp [storeSetup, hreg, hdom, htx, hrw, WriteRule.allows, storeRw, storeW1c, storeWo]

theorem exec_tyEvent {s : State} {t : Nat} {h : Hearth} {v : BitVec 32} (hc : CoreOf (s.runTo t) h 0) (hdom : domSt (s.runTo t) 11 = .run) :
    exec (.tyEvent t h v) s = .next (coreDone h (tallyEvent (s.runTo t) (0x80 + fld v 19 16) (BitVec.ofNat 32 (fld v 15 0)))) := by
  show Host.Outcome.next (coreStore t h 0x130014 v s) = _
  rw [coreStore_eq hc (by decide) (by decide), storeSetup_tyEvent v hdom]
  rfl

section
variable {s : State} {type : Nat} {detail : BitVec 32} (hclear : s.ty.clearing = false)
include hclear

theorem tallyEvent_opens (hnone : s.ty.open_ = none) (hfull : s.ty.full = false) :
    tallyEvent s type detail = { s with ty.open_ := some (newRec s type detail) } := by
  unfold tallyEvent
  rw [if_neg (by rw [hclear]; decide), hnone, hfull]
  rfl

theorem tallyEvent_repeats {z : TyRec} (hopen : s.ty.open_ = some z) (htype : z.type = type) (hdetail : z.detail = detail) :
    tallyEvent s type detail =
      { s with ty.open_ := some { z with repeats := inc32 z.repeats, last := if s.timeValid then some (stampNow s) else none } } := by
  unfold tallyEvent
  rw [if_neg (by rw [hclear]; decide), hopen]
  exact if_pos ⟨htype, hdetail⟩

theorem tallyEvent_loses (hnone : s.ty.open_ = none) (hfull : s.ty.full = true) :
    tallyEvent s type detail = { s with ty.lost := inc32 s.ty.lost } := by
  unfold tallyEvent
  rw [if_neg (by rw [hclear]; decide), hnone, hfull]
  rfl

end

/-! The window (R451). -/

/-- A load within the tally's window. -/
theorem exec_tallyWindowRead {s : State} {t p off size : Nat} {h : Hearth} (hc : CoreOf (s.runTo t) h p)
    (hsize : size = 1 ∨ size = 2 ∨ size = 4 ∨ size = 8) (hend : off + size ≤ 0x1000) :
    exec (.tallyWindowRead t h off size) s =
      .next (coreLoaded h (windowRead p off size (s.runTo t)).1 (windowRead p off size (s.runTo t)).2) := by
  obtain ⟨hruns, howner⟩ := hc
  have hlow : off < 0x1000 := by omega
  have hbase : setupBase ≤ tallyBase + off := by unfold setupBase tallyBase; omega
  have hsetup : ¬(setupBase ≤ tallyBase + off ∧ tallyBase + off < setupBase + 0x150000) := by unfold setupBase tallyBase; omega
  have hbell : doorbellHits (tallyBase + off) size = false := by
    have habove : ¬tallyBase + off + size ≤ doorbellBase + 0x20000 := by unfold doorbellBase tallyBase; omega
    rw [doorbellHits, decide_eq_false habove, Bool.and_false]
  have hwindow : tallyBase ≤ tallyBase + off ∧ tallyBase + off + size ≤ tallyBase + 0x1000 := by omega
  have hio : ioLoad h (tallyBase + off) size (s.runTo t) =
      coreLoaded h (windowRead p off size (s.runTo t)).1 (windowRead p off size (s.runTo t)).2 := by
    unfold ioLoad
    rw [if_neg hsetup, hbell, if_neg Bool.false_ne_true, if_pos hwindow, howner, Nat.add_sub_cancel_left]
  have haccess : coreAccess h .load (tallyBase + off) size 0 (s.runTo t) = ioLoad h (tallyBase + off) size (s.runTo t) := by
    unfold coreAccess
    dsimp only
    rw [if_pos (accessSize_of hsize), memLoad, if_pos hbase]
  show Host.Outcome.next (if off < 0x1000 then byCore t h (coreAccess h .load (tallyBase + off) size 0) s else s.runTo t) = _
  rw [if_pos hlow, byCore_eq hruns, haccess, hio]

theorem windowRead_other {p : Nat} (o n : Nat) (s : State) (h : p ≠ 0) : windowRead p o n s = (0, s) := if_pos h

/-- The octets of the record at the cursor. -/
def windowValue (o n : Nat) (s : State) : Nat := leNat ((List.range n).map (fun k => if o + k < 256 then (windowBytes s).getD (o + k) 0 else 0))

theorem windowRead_fst (o n : Nat) (s : State) : (windowRead 0 o n s).1 = windowValue o n s := by
  unfold windowRead
  rw [if_neg fun h => h rfl]
  dsimp only
  split <;> rfl

theorem windowRead_advances {o n : Nat} {s : State} (hauto : bit (s.cfg 0x130004 0) 31 = true) (ho : o ≤ 255) (hlast : 252 < o + n) :
    (windowRead 0 o n s).2 = s.setCfg 0x130004 0 (BitVec.ofNat 32 (2 ^ 31 + (fld (s.cfg 0x130004 0) 17 0 + 1) % 2 ^ 18)) := by
  unfold windowRead
  rw [if_neg fun h => h rfl]
  dsimp only
  rw [if_pos ⟨hauto, ho, hlast⟩]

theorem windowRead_stays {o n : Nat} {s : State}
    (h : bit (s.cfg 0x130004 0) 31 = false ∨ 255 < o ∨ o + n ≤ 252) : (windowRead 0 o n s).2 = s := by
  have hno : ¬(bit (s.cfg 0x130004 0) 31 = true ∧ o ≤ 255 ∧ o + n > 252) := by
    rintro ⟨hauto, ho, hlast⟩
    obtain h | h | h := h
    · rw [h] at hauto
      exact Bool.false_ne_true hauto
    · exact not_lt.mpr ho h
    · exact not_lt.mpr h hlast
  unfold windowRead
  rw [if_neg fun h => h rfl]
  dsimp only
  rw [if_neg hno]

theorem coreLoaded_result (h v : Nat) (s : State) : ((coreLoaded h v s).core h).result = BitVec.ofNat 64 v := by
  rw [coreLoaded, State.updCore_core, if_pos rfl]

/-! The hour counter (R448). -/

theorem hoursAdvance_advances {s : State} {e : Nat} (halive : alive s = true) (he : s.ty.hoursAt + secEdges 225 = e) :
    hoursAdvance s = { s.runTo e with ty.hours := ((s.runTo e).ty.hours + 1) % 2 ^ 32, ty.hoursAt := (s.runTo e).tb.edge } := by
  have hpowered : s.pw.st = .warm ∨ s.pw.st = .run := by
    have := (Bool.and_eq_true_iff.mp halive).1
    simpa [powered] using this
  unfold hoursAdvance
  rw [if_pos hpowered, he]

/-- Settles O59: events by the open record, window reads by the cursor's rule, the hours by their edge. -/
theorem tally : Obligations.Tally := by
  refine ⟨?_, ?_, ?_⟩
  · rintro s _ t h v rfl hc hdom hclear
    refine ⟨fun hnone hfull => ?_, fun z hopen htype hdetail => ?_, fun hnone hfull => ?_⟩
    · rw [exec_tyEvent hc hdom, tallyEvent_opens hclear hnone hfull]
      exact ⟨_, _, rfl, rfl, rfl, rfl, rfl, rfl, rfl, rfl, rfl⟩
    · rw [exec_tyEvent hc hdom, tallyEvent_repeats hclear hopen htype hdetail]
      exact ⟨_, _, rfl, rfl, rfl, rfl, rfl, rfl⟩
    · rw [exec_tyEvent hc hdom, tallyEvent_loses hclear hnone hfull]
      exact ⟨_, rfl, rfl, hnone, rfl⟩
  · rintro s _ t h p off size rfl hc hsize hend
    rw [exec_tallyWindowRead hc hsize hend]
    refine ⟨_, rfl, fun hp => ?_, ?_⟩
    · rw [windowRead_other _ _ _ hp]
      exact ⟨coreLoaded_result .., rfl⟩
    · rintro rfl
      refine ⟨(coreLoaded_result ..).trans (congrArg _ (windowRead_fst ..)), fun hauto hoff hlast => ?_, fun hstay => ?_⟩
      · show (windowRead 0 off size (s.runTo t)).2.cfg 0x130004 0 = _
        rw [windowRead_advances hauto hoff hlast, State.setCfg_same]
      · show (windowRead 0 off size (s.runTo t)).2.regs = _
        rw [windowRead_stays hstay]
  · rintro s _ rfl halive
    have hedge : s.ty.hoursAt + secEdges 225 = s.ty.hoursAt + 56250000000 := by norm_num [secEdges]
    exact congrArg Host.Outcome.next (hoursAdvance_advances halive hedge)

end Sys2Proof.Machine
end

section
/-! O60: feeds, the loss of power, and the steps of start-up (R453 to R458, R463). -/

namespace Sys2Proof.Machine

/-! Grants (R453, R454). -/

/-- The budget follows the grants; its flag apart it sends a message at most. -/
theorem budget_calm (s : State) : Calm { s with pw.budgetLow := decide (feedSum s < 680) } (budget s) := by
  unfold budget feedIrq
  extract_lets low pw s1
  split
  · exact devIrq_calm (Calm.refl s1)
  · exact Calm.refl s1

theorem feedSum_of_feeds {a b : State} (h : b.pw.feeds = a.pw.feeds) : feedSum b = feedSum a := by
  rw [feedSum, h]
  rfl

theorem anyFeed_of_feeds {a b : State} (h : b.pw.feeds = a.pw.feeds) : anyFeed b = anyFeed a := by
  rw [anyFeed, h]
  rfl

/-- The state once a feed's entry has changed. -/
def feedSet (f : Nat) (x : Feed) (s : State) : State := { s with pw.feeds := Tbl.set {} s.pw.feeds f x }

theorem feedSet_feed (f : Nat) (x : Feed) (s : State) : Tbl.get ({} : Feed) (feedSet f x s).pw.feeds f = x :=
  (Tbl.get_set ..).trans (if_pos rfl)

/-! What a reset and a start keep (R296, R463). -/

theorem volatileReset_frame (s : State) : (volatileReset s).pw.st = .warm ∧ (volatileReset s).pw.step = 3 ∧ (volatileReset s).pw.doms = [] ∧
    (volatileReset s).pw.fromOne = s.pw.fromOne ∧ (volatileReset s).pw.retries = s.pw.retries ∧ (volatileReset s).pw.feeds = s.pw.feeds ∧
    (volatileReset s).tb.edge = s.tb.edge ∧ (volatileReset s).tb.counter = s.tb.counter ∧ (volatileReset s).st.objects = s.st.objects ∧
    (volatileReset s).st.ops = s.st.ops ∧ (volatileReset s).dram = [] ∧ (volatileReset s).ok.fused = s.ok.fused :=
  ⟨rfl, rfl, rfl, rfl, rfl, rfl, rfl, rfl, rfl, rfl, rfl, rfl⟩

/-- What starts the module at step 3 with grants of at least 68 W: WARM, from step 1, over what PD0 keeps (R463). -/
structure Started (s y : State) : Prop where
  st : y.pw.st = .warm
  step : y.pw.step = 3
  fromOne : y.pw.fromOne = true
  doms : y.pw.doms = []
  edge : y.tb.edge = s.tb.edge
  counter : s.pw.st = .keep → y.tb.counter = s.tb.counter
  objects : y.st.objects = s.st.objects
  fused : y.ok.fused = s.ok.fused

theorem startUp_starts {s : State} (h : 680 ≤ feedSum s) : Started s (startUp s) := by
  unfold startUp
  rw [if_neg (not_lt.mpr h)]
  extract_lets mv s0 s1
  have hs0 : s0.tb.edge = s.tb.edge ∧ (s.pw.st = .keep → s0.tb.counter = s.tb.counter) ∧ s0.st.objects = s.st.objects ∧
      s0.ok.fused = s.ok.fused := by
    unfold s0
    split
    next hlost =>
      exact ⟨rfl, fun hkeep => absurd (hkeep.symm.trans hlost.1) nofun, rfl, rfl⟩
    next => exact ⟨rfl, fun _ => rfl, rfl, rfl⟩
  obtain ⟨hedge, hcounter, hobjects, hfused⟩ := hs0
  clear_value s0 mv
  exact ⟨rfl, rfl, rfl, rfl, hedge, hcounter, hobjects, hfused⟩

theorem keepTime_eq (s : State) : ∃ tb, keepTime s = { s with tb := tb } ∧ tb.edge = s.tb.edge := ⟨_, rfl, rfl⟩

/-- KEEP keeps the grants, the flash and the fuses, and takes no time (R455). -/
theorem enterKeep_frame (s : State) : (enterKeep s).pw.st = .keep ∧ (enterKeep s).pw.feeds = s.pw.feeds ∧ (enterKeep s).tb.edge = s.tb.edge ∧
    (enterKeep s).st.objects = s.st.objects ∧ (enterKeep s).st.ops = s.st.ops ∧ (enterKeep s).dram = [] ∧
    (enterKeep s).ok.fused = s.ok.fused := by
  obtain ⟨tb, hkeep, hedge⟩ := keepTime_eq s
  unfold enterKeep
  rw [hkeep]
  exact ⟨rfl, rfl, hedge, rfl, rfl, rfl, rfl⟩

/-! The feeds (R453 to R455). -/

section
variable {s : State} {f cls : Nat} (hcls : cls ≤ 8)
include hcls

theorem feedPresent_powered (hpow : powered s = true) : feedPresent f cls s = budget (feedSet f (Feed.mk true cls (grantOf cls)) s) := by
  unfold feedPresent
  rw [if_neg (not_lt.mpr hcls)]
  exact if_pos hpow

theorem feedPresent_starts (hpow : powered s = false) (hhalt : s.pw.haltAt = none) :
    feedPresent f cls s = startUp (feedSet f (Feed.mk true cls (grantOf cls)) s) := by
  unfold feedPresent
  rw [if_neg (not_lt.mpr hcls)]
  have hno : s.pw.haltAt.isSome = false := by
    rw [hhalt]
    rfl
  dsimp only
  rw [hpow, hno, if_neg Bool.false_ne_true, if_neg Bool.false_ne_true]
  rfl

end

/-- A link's loss changes the green and the ports alone, besides its message (R385). -/
theorem linkLoss_green (q : Nat) (rc : Bool) (s : State) : GreenCalm s (linkLoss q rc s) := by
  have hmac (a : State) (g : Mac → Mac) : GreenCalm a (a.updMac q g) := .of_eq _ _
  have hcut : GreenCalm s (cutFrames q s) := (hmac s _).foldl fun a i => by
    split
    · exact discardAt_green ..
    · exact .refl a
  have hcount (a : State) : GreenCalm a (if rc then macCount a q 6 1 else a) := by
    split
    · exact macCount_green ..
    · exact .refl a
  unfold linkLoss
  split
  · exact .refl s
  · extract_lets s1 s2 s3 s4
    have h3 : GreenCalm s s3 := ((hcut.trans (hcount _)).trans (hmac _ _)).trans (macCount_green ..)
    have h4 : GreenCalm s s4 := h3.calm (devIrq_calm (Calm.refl s3))
    split
    · exact (h4.trans (hmac _ _)).trans (discardWaiting_green ..)
    · exact h4

/-- The loss edge stops what needs power and leaves the flash as it is (R455). -/
theorem lossEdge_frame (s : State) : (lossEdge s).pw.lossAt = some s.tb.edge ∧ (lossEdge s).st.shutdown = true ∧ (lossEdge s).cores = [] ∧
    (lossEdge s).st.objects = s.st.objects ∧ ∀ d, 3 ≤ d → d ≠ 11 → Tbl.get DomSt.off (lossEdge s).pw.doms d = .off := by
  unfold lossEdge
  extract_lets s1 s2
  have h1 : s1.st = s.st := (fallSilent_pair s).st
  have h2 : GreenCalm s1 s2 := (GreenCalm.refl s1).foldl fun a q => by
    split
    · exact linkLoss_green ..
    · exact .refl a
  have hobjects : s2.st.objects = s.st.objects := congrArg StState.objects (h2.st.trans h1)
  clear_value s2
  refine ⟨rfl, rfl, rfl, hobjects, fun d h3 h11 => ?_⟩
  have hout (v : DomSt) : (fun e : Nat × DomSt => decide (e.1 < 3) || e.1 == 11) (d, v) = false := by
    simp only [Bool.or_eq_false_iff, decide_eq_false_iff_not, beq_eq_false_iff_ne]
    exact ⟨not_lt.mpr h3, h11⟩
  exact Tbl.get_filter_of_not _ _ _ _ hout

section
variable {s : State} {f : Nat} (hpresent : (Tbl.get ({} : Feed) s.pw.feeds f).present = true) (halive : alive s = true)
include hpresent halive

theorem feedLoss_other (hany : anyFeed (feedSet f {} s) = true) : feedLoss f s = budget (feedSet f {} s) := by
  unfold feedLoss
  rw [hpresent, Bool.not_true, if_neg Bool.false_ne_true]
  dsimp only
  rw [if_pos (Bool.and_eq_true_iff.mp halive).1]
  exact if_pos hany

theorem feedLoss_last (hany : anyFeed (feedSet f {} s) = false) :
    feedLoss f s = lossEdge { feedSet f {} s with pw.budgetLow := true } := by
  have hloss : s.pw.lossAt.isSome = false := by
    have := (Bool.and_eq_true_iff.mp halive).2
    rwa [Option.isNone_iff_eq_none, ← Option.not_isSome_iff_eq_none, Bool.not_eq_true] at this
  unfold feedLoss
  rw [hpresent, Bool.not_true, if_neg Bool.false_ne_true]
  dsimp only
  rw [if_pos (Bool.and_eq_true_iff.mp halive).1, hloss, if_neg Bool.false_ne_true]
  exact if_neg (by rw [← feedSet, hany]; decide)

theorem feedLoss_frame (hany : anyFeed (feedSet f {} s) = false) : (feedLoss f s).pw.lossAt = some s.tb.edge ∧
    (feedLoss f s).st.shutdown = true ∧ (feedLoss f s).cores = [] ∧ (feedLoss f s).st.objects = s.st.objects ∧
    ∀ d, 3 ≤ d → d ≠ 11 → Tbl.get DomSt.off (feedLoss f s).pw.doms d = .off := by
  rw [feedLoss_last hpresent halive hany]
  exact lossEdge_frame _

end

/-! HOLDUP_OK and the end of the supercapacitor (R456, R457). -/

theorem holdupChange_calm {s : State} {ok : Bool} (hne : s.pw.holdupOk ≠ ok) (hstep : s.pw.step ≠ 9) :
    Calm { s with pw.holdupOk := ok } (holdupChange ok s) := by
  unfold holdupChange
  rw [if_neg hne]
  dsimp only
  split
  · rw [step9_of_step (s := { s with pw.holdupOk := ok }) hstep]
    exact Calm.refl _
  · split
    · exact devIrq_calm (Calm.refl _)
    · exact Calm.refl _

theorem bit_flag (b : Bool) : bit (BitVec.ofNat 32 (flag b 31)) 31 = b := by cases b <;> decide

/-- The registers that OFF leaves to partition 0: PREF as saved, and TIME_WAIT at its reset value (R457). -/
def offRegs (s : State) : State := (s.setCfg 0x140020 0 (BitVec.ofNat 32 (flag s.ty.savedPref 31))).setCfg 0x140024 0 0x1E00

theorem offRegs_pref (s : State) : bit ((offRegs s).cfg 0x140020 0) 31 = s.ty.savedPref := by
  rw [offRegs, State.setCfg_cfg, if_neg (by decide), State.setCfg_same]
  exact bit_flag _

theorem offRegs_timeWait (s : State) : (offRegs s).cfg 0x140024 0 = 0x1E00 := State.setCfg_same ..

theorem offRegs_frame (s : State) : (offRegs s).ty = s.ty ∧ (offRegs s).tb = s.tb ∧ (offRegs s).ok = s.ok ∧ (offRegs s).st = s.st :=
  ⟨rfl, rfl, rfl, rfl⟩

theorem supercapLow_off {s : State} (hkeep : s.pw.st = .keep) (hany : anyFeed s = false) :
    supercapLow s = { offRegs s with pw.st := .off, pw.holdupOk := false, ty.open_ := none } :=
  if_pos ⟨hkeep, by rw [hany]; rfl⟩

/-! The end of the loss sequence (R443, R455). -/

theorem clearEnd_eq (s : State) : ∃ ty, clearEnd s = { s with ty := ty } := by
  unfold clearEnd
  split
  · refine List.foldlRecOn (motive := fun a : State => ∃ ty, a = { s with ty := ty }) _ _ ⟨_, rfl⟩ ?_
    rintro _ ⟨ty, rfl⟩ e -
    exact tallyEvent_eq ..
  · exact ⟨s.ty, rfl⟩

/-- What the discard of operations and reads leaves. -/
structure OpsEnded (a b : State) : Prop where
  tb : b.tb = a.tb
  pw : b.pw = a.pw
  ok : b.ok = a.ok
  objects : b.st.objects = a.st.objects

theorem OpsEnded.trans {a b c : State} (h : OpsEnded a b) (k : OpsEnded b c) : OpsEnded a c :=
  ⟨k.tb.trans h.tb, k.pw.trans h.pw, k.ok.trans h.ok, k.objects.trans h.objects⟩

theorem abortOp_ended (s : State) (o : StOp) (st : Nat) :
    OpsEnded s (abortOp s o st) ∧ (abortOp s o st).st.ops = s.st.ops.filter (fun q => q.id != o.id) := by
  have hcalm : Calm { s with st.ops := s.st.ops.filter (fun q => q.id != o.id) } (abortOp s o st) := finishKey_calm (Calm.refl _)
  exact ⟨⟨hcalm.tb, hcalm.pw, hcalm.ok, (congrArg StState.objects hcalm.st).trans rfl⟩, (congrArg StState.ops hcalm.st).trans rfl⟩

/-- Operations ended one after the other: none of those ended is left. -/
theorem foldl_abortOp (st : Nat) (l : List StOp) (s : State) : OpsEnded s (l.foldl (fun a o => abortOp a o st) s) ∧
    ∀ q ∈ (l.foldl (fun a o => abortOp a o st) s).st.ops, q ∈ s.st.ops ∧ ∀ o ∈ l, q.id ≠ o.id := by
  induction l generalizing s with
  | nil => exact ⟨⟨rfl, rfl, rfl, rfl⟩, fun q hq => ⟨hq, nofun⟩⟩
  | cons o l ih =>
    obtain ⟨hend, hops⟩ := abortOp_ended s o st
    obtain ⟨hrest, hleft⟩ := ih (abortOp s o st)
    refine ⟨hend.trans hrest, fun q hq => ?_⟩
    obtain ⟨hmem, hne⟩ := hleft q hq
    rw [hops] at hmem
    obtain ⟨hmem, hid⟩ := List.mem_filter.mp hmem
    refine ⟨hmem, fun o' ho' => ?_⟩
    obtain rfl | ho' := List.mem_cons.mp ho'
    · exact bne_iff_ne.mp hid
    · exact hne o' ho'

theorem abortRead_ended (s : State) (o : StRead) (st : Nat) : OpsEnded s (abortRead s o st) ∧ (abortRead s o st).st.ops = s.st.ops := by
  have hcalm : Calm (endRead s o) (abortRead s o st) := finishKey_calm (Calm.refl _)
  obtain ⟨_, _, hend⟩ := releaseExtents_blocksOnly { s with st.reads := s.st.reads.filter (fun q => q.id != o.id) } o.extents
  rw [← endRead] at hend
  rw [hend] at hcalm
  exact ⟨⟨hcalm.tb, hcalm.pw, hcalm.ok, (congrArg StState.objects hcalm.st).trans rfl⟩, (congrArg StState.ops hcalm.st).trans rfl⟩

theorem foldl_abortRead (st : Nat) (l : List StRead) (s : State) : OpsEnded s (l.foldl (fun a o => abortRead a o st) s) ∧
    (l.foldl (fun a o => abortRead a o st) s).st.ops = s.st.ops :=
  List.foldlRecOn (motive := fun a => OpsEnded s a ∧ a.st.ops = s.st.ops) _ _ ⟨⟨rfl, rfl, rfl, rfl⟩, rfl⟩ fun a ha o _ => by
    obtain ⟨hend, hops⟩ := abortRead_ended a o st
    exact ⟨ha.1.trans hend, hops.trans ha.2⟩

/-- The storage controller stops with no operation left, and its objects as they were (R443). -/
theorem stShutdown_ended (s : State) : OpsEnded s (stShutdown s) ∧ (stShutdown s).st.ops = [] := by
  unfold stShutdown
  extract_lets n s1 s2 s3 w
  obtain ⟨hend1, hleft⟩ := foldl_abortOp stAborted s.st.ops s
  have hnone : s1.st.ops = [] := List.eq_nil_iff_forall_not_mem.mpr fun q hq => (hleft q hq).2 q (hleft q hq).1 rfl
  obtain ⟨hend2, hops2⟩ := foldl_abortRead stAborted s1.st.reads s1
  obtain ⟨ty, hclear⟩ := clearEnd_eq s2
  obtain ⟨ty', hopen⟩ := programOpen_eq (clearEnd s2)
  have hend := hend1.trans hend2
  have hs3 : s3 = { s2 with ty := ty' } := by
    unfold s3
    rw [hopen, hclear]
  have hops : s2.st.ops = [] := hops2.trans hnone
  clear_value s3
  subst hs3
  exact ⟨⟨hend.tb, hend.pw, hend.ok, hend.objects⟩, hops⟩

theorem State.runTo_parts (s : State) (n : Nat) : (s.runTo n).pw = s.pw ∧ (s.runTo n).st = s.st ∧ (s.runTo n).ok = s.ok := ⟨rfl, rfl, rfl⟩

theorem shutdownExpiry_keeps_out {s : State} {e : Nat} (hloss : s.pw.lossAt = some e) (hany : anyFeed s = false) :
    shutdownExpiry s = enterKeep (stShutdown (s.runTo (e + msEdges (fld (s.cfg 0x120034 0) 7 0)))) := by
  unfold shutdownExpiry
  rw [hloss]
  dsimp only
  generalize e + msEdges (fld (s.cfg 0x120034 0) 7 0) = edge
  have hfeeds : (enterKeep (stShutdown (s.runTo edge))).pw.feeds = s.pw.feeds := by
    rw [(enterKeep_frame _).2.1, (stShutdown_ended _).1.pw, (s.runTo_parts edge).1]
  rw [if_neg (by rw [anyFeed_of_feeds hfeeds, hany]; decide)]

/-! The steps of start-up (R458, R463). -/

section
variable {s : State} {d : Nat} (hwarm : s.pw.st = .warm) (hstep : s.pw.step = 3) (hnext : nextDomain s = some d)
include hwarm hstep hnext

theorem domainBistComplete_next {e : Nat} (hd : d ≠ 11) (hthen : nextDomain { s with pw.doms := Tbl.set .off s.pw.doms d .run } = some e) :
    domainBistComplete d true s = { s with pw.doms := Tbl.set .off (Tbl.set .off s.pw.doms d .run) e .starting } := by
  unfold domainBistComplete
  rw [if_pos ⟨hwarm, hstep⟩, if_neg fun h => h hnext]
  dsimp only
  rw [Bool.not_true, Bool.false_and, if_neg Bool.false_ne_true, if_neg hd, if_pos rfl, hthen]

theorem domainBistComplete_halts (hd : d = 2 ∨ d = 5 ∨ d = 6 ∨ d = 11) :
    domainBistComplete d false s = halt { s with pw.doms := Tbl.set .off s.pw.doms d .failed } := by
  have hneeded : (!false && (d == 2 || d == 5 || d == 6 || d == 11)) = true := by
    obtain rfl | rfl | rfl | rfl := hd <;> rfl
  unfold domainBistComplete
  rw [if_pos ⟨hwarm, hstep⟩, if_neg fun h => h hnext]
  dsimp only
  rw [hneeded]
  rfl

end

theorem halt_frame (s : State) : (halt s).pw.st = .keep ∧ (halt s).pw.haltAt = some s.tb.edge ∧ (halt s).tb.edge = s.tb.edge := by
  obtain ⟨hst, -, hedge, -⟩ := enterKeep_frame s
  unfold halt
  generalize enterKeep s = z at hst hedge
  exact ⟨hst, rfl, hedge⟩

/-- A retry starts at step 3 over what PD0 keeps (R463). -/
theorem haltRetry_starts {s : State} {e edge : Nat} (hhalt : s.pw.haltAt = some e) (hdead : s.pw.dead = false) (hkeep : s.pw.st = .keep)
    (hedge : e + secEdges 60 = edge) : (haltRetry s).pw.st = .warm ∧ (haltRetry s).pw.step = 3 ∧ (haltRetry s).pw.retries = s.pw.retries + 1 ∧
      (haltRetry s).tb.edge = max s.tb.edge edge ∧ (haltRetry s).st.objects = s.st.objects := by
  have hretry : haltRetry s = volatileReset { ocxoOn (s.runTo edge) with pw.retries := s.pw.retries + 1 } := by
    unfold haltRetry
    rw [hhalt]
    dsimp only
    rw [if_neg (by rw [hdead, hkeep]; decide), hedge]
    rfl
  obtain ⟨hst, hstep, -, -, hret, -, hed, -, hobj, -⟩ := volatileReset_frame { ocxoOn (s.runTo edge) with pw.retries := s.pw.retries + 1 }
  rw [hretry, hst, hstep, hret, hed, hobj]
  exact ⟨rfl, rfl, rfl, s.runTo_edge edge, rfl⟩

theorem timeWaitExpiry_ends {s : State} (h : s.pw.step = 7) :
    timeWaitExpiry s = negotiationBegin (s.runTo (s.pw.stepAt + secEdges (fld (s.cfg 0x140024 0) 15 8))) := if_pos h

/-- Settles O60: feeds, losses and steps by the equation of each case, over what each reset keeps. -/
theorem powerAndStartUp : Obligations.PowerAndStartUp := by
  rintro s _ t rfl
  refine ⟨fun f c hc => ⟨fun hpow => ?_, fun hpow hhalt hsum => ?_⟩, fun f hpresent halive => ⟨fun hany => ?_, fun hany => ?_⟩,
    fun ok hne hstep => ?_, fun hkeep hany => ?_, fun e hloss hany => ?_,
    fun d hwarm hstep hnext => ⟨fun e hd hthen => ?_, fun hd => ?_⟩, fun halive hstep => ?_, fun e hhalt hdead hkeep => ?_⟩
  · have hcalm := budget_calm (feedSet f (Feed.mk true c (grantOf c)) (s.runTo t))
    refine ⟨_, congrArg Host.Outcome.next (feedPresent_powered hc hpow), ?_, (congrArg PwState.st hcalm.pw).trans rfl, ?_, hcalm.regs⟩
    · rw [hcalm.pw]
      exact feedSet_feed f (Feed.mk true c (grantOf c)) (s.runTo t)
    · rw [feedSum_of_feeds ((congrArg PwState.feeds hcalm.pw).trans rfl), hcalm.pw]
      rfl
  · have hstart := startUp_starts (s := feedSet f (Feed.mk true c (grantOf c)) (s.runTo t)) hsum
    exact ⟨_, congrArg Host.Outcome.next (feedPresent_starts hc hpow hhalt), hstart.st, hstart.step, hstart.fromOne, hstart.doms, hstart.edge,
      hstart.counter, hstart.objects, hstart.fused⟩
  · have hcalm := budget_calm (feedSet f {} (s.runTo t))
    have hloss : (s.runTo t).pw.lossAt = none := Option.isNone_iff_eq_none.mp (Bool.and_eq_true_iff.mp halive).2
    refine ⟨_, congrArg Host.Outcome.next (feedLoss_other hpresent halive hany), ?_, ?_, (congrArg PwState.st hcalm.pw).trans rfl, hcalm.regs⟩
    · rw [hcalm.pw]
      exact hloss
    · rw [hcalm.pw]
      exact congrArg Feed.present (feedSet_feed f {} (s.runTo t))
  · exact ⟨_, rfl, feedLoss_frame hpresent halive hany⟩
  · have hcalm := holdupChange_calm hne hstep
    refine ⟨_, rfl, ?_, ?_, hcalm.tb, hcalm.regs⟩
    · rw [hcalm.pw]
    · rw [hcalm.pw]
  · obtain ⟨hty, htb, hok, hst⟩ := offRegs_frame (s.runTo t)
    have hrecs : (offRegs (s.runTo t)).ty.recs = (s.runTo t).ty.recs := congrArg TyState.recs hty
    clear hty
    have hpref := offRegs_pref (s.runTo t)
    have hwait := offRegs_timeWait (s.runTo t)
    have hoff := supercapLow_off hkeep hany
    generalize offRegs (s.runTo t) = a at hrecs htb hok hst hpref hwait hoff
    exact ⟨_, congrArg Host.Outcome.next hoff, rfl, rfl, hpref, hwait, rfl, hrecs, htb, hok, hst⟩
  · rw [show exec .shutdownExpiry s = .next (shutdownExpiry s) from rfl, shutdownExpiry_keeps_out hloss hany]
    generalize e + msEdges (fld (s.cfg 0x120034 0) 7 0) = edge
    obtain ⟨⟨htb, -, hok, hobj⟩, hops⟩ := stShutdown_ended (s.runTo edge)
    obtain ⟨kst, -, kedge, kobj, kops, kdram, kfused⟩ := enterKeep_frame (stShutdown (s.runTo edge))
    obtain ⟨-, hst, hokr⟩ := s.runTo_parts edge
    refine ⟨_, rfl, kst, ?_, kops.trans hops, ?_, kdram, ?_⟩
    · rw [kedge, htb, State.runTo_edge]
    · rw [kobj, hobj, hst]
    · rw [kfused, hok, hokr]
  · exact congrArg Host.Outcome.next (domainBistComplete_next hwarm hstep hnext hd hthen)
  · exact ⟨_, congrArg Host.Outcome.next (domainBistComplete_halts hwarm hstep hnext hd),
      halt_frame { s.runTo t with pw.doms := Tbl.set .off (s.runTo t).pw.doms d .failed }⟩
  · refine ⟨_, congrArg Host.Outcome.next ((live_eq halive).trans (timeWaitExpiry_ends hstep)), rfl, ?_, rfl⟩
    exact s.runTo_edge _
  · have hedge : e + secEdges 60 = e + 15000000000 := by norm_num [secEdges]
    exact ⟨_, rfl, haltRetry_starts hhalt hdead hkeep hedge⟩

end Sys2Proof.Machine
end
